-- ==== Sys2Proof/Word.lean ====
section
/-!
DEFINITION. The word types of the Dollyn D1024 and their plainest arithmetic (R2, R244).
A `Word` is one 32-bit register, a `Row` is 128 bytes: one vector register (32 lanes of 32 bits,
lane 0 in the low bits), one memory line, or one rank unit of the tile pool.
-/
namespace Sys2Proof

/-- One byte of memory. -/
abbrev Byte := BitVec 8
/-- One 32-bit register. -/
abbrev Word := BitVec 32
/-- A 64-bit value: a register pair, an address, a special register. -/
abbrev DWord := BitVec 64
/-- A lane mask: bit `l` stands for lane `l` (R171). -/
abbrev Mask := BitVec 32
/-- 1024 bits: 32 lanes of 32 bits, or the 128 bytes of a line, byte 0 in the low bits (R2). -/
abbrev Row := BitVec 1024

end Sys2Proof
end

