-- ==== Sys2Proof/Machine/Bits.lean ====
section
/-!
DEFINITION. Bit-field, lane, byte-order and sign-extension helpers (R2, R243, R244), and sparse maps
with a default, which hold register files (plain data, one entry per key, ascending keys).
-/
namespace Sys2Proof

/-- Lane `l` of a row. -/
def Row.lane (r : Row) (l : Nat) : Word := BitVec.extractLsb' (32 * l) 32 r

/-- The row with lane `l` replaced. -/
def Row.setLane (r : Row) (l : Nat) (w : Word) : Row :=
  (r &&& ~~~ ((BitVec.allOnes 32).setWidth 1024 <<< (32 * l))) ||| (w.setWidth 1024 <<< (32 * l))

/-- Byte `i` of a row. -/
def Row.byte (r : Row) (i : Nat) : Byte := BitVec.extractLsb' (8 * i) 8 r

/-- The row with byte `i` replaced. -/
def Row.setByte (r : Row) (i : Nat) (b : Byte) : Row :=
  (r &&& ~~~ ((BitVec.allOnes 8).setWidth 1024 <<< (8 * i))) ||| (b.setWidth 1024 <<< (8 * i))

/-- A row from a list of 32 lane values, lane 0 first; missing lanes are 0. -/
def Row.ofLanes : List Word → Row
  | [] => 0
  | w :: ws => w.setWidth 1024 ||| (Row.ofLanes ws <<< 32)

/-- A row from a list of bytes, byte 0 first; missing bytes are 0. -/
def Row.ofBytes : List Byte → Row
  | [] => 0
  | b :: bs => b.setWidth 1024 ||| (Row.ofBytes bs <<< 8)

/-- The 128 bytes of a row in ascending order. -/
def Row.bytes (r : Row) : List Byte := (List.range 128).map r.byte

/-- The 32 lanes of a row in ascending order. -/
def Row.lanes (r : Row) : List Word := (List.range 32).map r.lane

/-- The row holding one word in every lane. -/
def Row.splat (w : Word) : Row := Row.ofLanes (List.replicate 32 w)

/-- The row that holds `new` in the lanes of `m` and `old` elsewhere. -/
def Row.merge (m : Mask) (new old : Row) : Row :=
  Row.ofLanes ((List.range 32).map fun l => if m.getLsbD l then new.lane l else old.lane l)

/-- The lanes of a mask in ascending order. -/
def Mask.lanes (m : Mask) : List Nat := (List.range 32).filter fun l => m.getLsbD l

/-- The mask of one lane. -/
def Mask.one (l : Nat) : Mask := BitVec.ofNat 32 (2 ^ l)

/-- The mask of a list of lanes. -/
def Mask.ofLanes (ls : List Nat) : Mask := ls.foldl (fun m l => m ||| Mask.one l) 0

/-- The lowest lane of a mask, 0 for the empty mask. -/
def Mask.lowest (m : Mask) : Nat := (Mask.lanes m).headD 0

/-- The 64-bit value of a register pair, low word first (R244). -/
def pair64 (lo hi : Word) : DWord := hi ++ lo

/-- The low word of a pair. -/
def lo32 (d : DWord) : Word := d.setWidth 32

/-- The high word of a pair. -/
def hi32 (d : DWord) : Word := BitVec.extractLsb' 32 32 d

/-- Little-endian bytes of a number, `n` of them (R2). -/
def bytesOfNat : Nat → Nat → List Byte
  | 0, _ => []
  | n + 1, x => BitVec.ofNat 8 x :: bytesOfNat n (x / 256)

/-- The number little-endian bytes stand for (R2). -/
def natOfBytes : List Byte → Nat
  | [] => 0
  | b :: bs => b.toNat + 256 * natOfBytes bs

/-- Bits `hi` down to `lo` of a number (R2). -/
def bitsOf (x hi lo : Nat) : Nat := (x / 2 ^ lo) % 2 ^ (hi - lo + 1)

/-- A sparse map with a default: entries with ascending keys, one per key. Plain data. -/
abbrev SMap (α : Type) := List (Nat × α)

/-- The value of key `k`, `d` where the map lists none. -/
def look {α : Type} (d : α) : SMap α → Nat → α
  | [], _ => d
  | (j, a) :: m, k => if k = j then a else look d m k

/-- The map with key `k` set to `a`, ascending keys kept. -/
def put {α : Type} : SMap α → Nat → α → SMap α
  | [], k, a => [(k, a)]
  | (j, b) :: m, k, a =>
    if k < j then (k, a) :: (j, b) :: m else if k = j then (k, a) :: m else (j, b) :: put m k a

/-- The map with key `k` removed. -/
def del {α : Type} (m : SMap α) (k : Nat) : SMap α := m.filter fun e => e.1 != k

/-- The value of key `k` where the map lists one. -/
def find? {α : Type} : SMap α → Nat → Option α
  | [], _ => none
  | (j, a) :: m, k => if k = j then some a else find? m k

/-- The list with element `i` replaced by `f` of it. -/
def modAt {α : Type} (f : α → α) : List α → Nat → List α
  | [], _ => []
  | a :: l, 0 => f a :: l
  | a :: l, i + 1 => a :: modAt f l i

/-- Every element that meets `p` replaced by `f` of it. -/
def modWhere {α : Type} (p : α → Bool) (f : α → α) (l : List α) : List α :=
  l.map fun a => if p a then f a else a

/-- Whether two ranges have a number in common. -/
def rangesMeet (a n b m : Nat) : Bool := a < b + m && b < a + n

/-- The first element that meets `p` and the list without it. -/
def takeFirst {α : Type} (p : α → Bool) : List α → Option (α × List α)
  | [] => none
  | a :: l =>
    if p a then some (a, l)
    else match takeFirst p l with
      | none => none
      | some (b, r) => some (b, a :: r)

/-- Sign extension of the low `n` bits of `x` to an integer (R2). -/
def signExt (n x : Nat) : Int :=
  if x % 2 ^ n < 2 ^ (n - 1) then (x % 2 ^ n : Nat) else ((x % 2 ^ n : Nat) : Int) - (2 ^ n : Nat)

end Sys2Proof
end

