-- ==== Sys2Proof/Syntax.lean ====
section
/-!
DEFINITION. The instructions and events of the Dollyn D1024: one constructor of `Instr` per row of
spec/opcode_table.json. Register numbers and operation codes of the 96-bit word (R239 to R249) are
pulled out here; no raw encoding reaches the machine, but for the two rows that stand for words
without a meaning of their own (R257, R258, R260), which keep their word. The events are the steps the
device takes by itself; each carries the agent and address it concerns.
-/
namespace Sys2Proof

/-- TYPE codes 0 to 14 of Table 11.5 in order. -/
inductive Ty where
  | f32 | f16 | bf16 | e4m3 | e5m2 | s8 | s32 | s64 | q4x | u8 | u32 | u64 | s16 | u16 | b32
  deriving DecidableEq, Repr

/-- Rounding modes of Table 10.2 with their codes of R248. -/
inductive Rnd where
  | rne | rna | rz | ru | rd
  deriving DecidableEq, Repr

/-- The eight scopes of Table 7.1. -/
inductive Scope where
  | grp | clu | core | quad | die | pkg | pod | sys
  deriving DecidableEq, Repr

/-- What SCOPE names: one scope, or the scope held in sr.WGSCOPE (R150). -/
inductive ScopeSel where
  | sc (s : Scope) | wg
  deriving DecidableEq, Repr

/-- Ordering forms of an atomic (R156). -/
inductive Ord4 where
  | relaxed | acq | rel | ar
  deriving DecidableEq, Repr

/-- An operand field (Table 11.2) with its class (Table 11.3). `e` and `xm` are bits 12 and 11.
`imm32` is the 32-bit immediate that takes the place of field B in the immediate form (R246). -/
inductive Opnd where
  | none
  | v (e xm : Bool) (i : BitVec 9)
  | s (e xm : Bool) (i : BitVec 10)
  | p (e xm : Bool) (i : BitVec 5)
  | m (e xm : Bool) (i : BitVec 4)
  | a (e xm : Bool) (i : BitVec 3)
  | q (e xm : Bool) (j : BitVec 2)
  | lane (e xm : Bool)
  | zero (e xm : Bool)
  | imm (v : BitVec 13)
  | imm32 (v : BitVec 32)
  deriving DecidableEq, Repr

/-- The guard (R249): always, or predicate `p`, inverted when `inv`. -/
inductive Guard where
  | always
  | pred (inv : Bool) (p : BitVec 5)
  deriving DecidableEq, Repr

/-- The hints of Table 11.6. -/
structure Hint where
  pair : Bool
  yield : Bool
  split : Bool
  skip : Bool
  reuseA : Bool
  reuseB : Bool
  stall : BitVec 3
  deriving DecidableEq, Repr

/-- Guard and hints, carried by every instruction word. -/
structure Ctl where
  guard : Guard
  hint : Hint
  deriving DecidableEq, Repr

/-- A branch target of R268: words in the register form, bytes in the immediate form. -/
inductive Target where
  | rel13 (v : BitVec 13)
  | rel32 (v : BitVec 32)
  deriving DecidableEq, Repr

/-- Conditions of ICMP and FCMP (Tables 12.6 and 12.12); `un` and `ord` are FCMP's alone. -/
inductive Cond where
  | eq | ne | lt | le | gt | ge | un | ord
  deriving DecidableEq, Repr

/-- Address windows of memory instructions (Table 13.1). -/
inductive Win where
  | g | l | c | p
  deriving DecidableEq, Repr

/-- EXPECT of R302. -/
inductive Expect where
  | none | dir | lse | unc
  deriving DecidableEq, Repr

/-- The operations of ATOM (Table 13.5). -/
inductive AtomOp where
  | add | min | max | and | or | xor | exch | cas | fadd
  deriving DecidableEq, Repr

/-- Segment widths of the shuffles (R290): 32, 16, 8, 4, 2 lanes. -/
inductive SegW where
  | w32 | w16 | w8 | w4 | w2
  deriving DecidableEq, Repr

/-- The engine-counter classes (R157, R314) in the order of their codes. -/
inductive CtrClass where
  | copy | xform | matrix | token
  deriving DecidableEq, Repr

/-- The two register pools (R189, R327). -/
inductive Pool where
  | v | m
  deriving DecidableEq, Repr

/-- The qualifiers of DECODE (R351). -/
inductive DecQual where
  | none | wait | take
  deriving DecidableEq, Repr

/-- The unqualified part of an LD (R302): window, expectation, type, .X4, destination, address, offset. -/
structure LdForm where
  win : Win
  expect : Expect
  ty : Ty
  x4 : Bool
  d : Opnd
  a : Opnd
  off : Opnd
  deriving DecidableEq, Repr

/-- An ST (R302): as `LdForm` with the scope; `d` is the data source. -/
structure StForm where
  win : Win
  expect : Expect
  scope : ScopeSel
  ty : Ty
  x4 : Bool
  d : Opnd
  a : Opnd
  off : Opnd
  deriving DecidableEq, Repr

/-- A master of the device register space (Table 23.2). `ctx` is a context of the device. -/
inductive Master where
  | host
  | port (n : Nat)
  | peer (n : Nat)
  | ctx (c : Nat)
  deriving DecidableEq, Repr

/-- The contents of one flit of the Zilber transport, as far as R432 says what it carries. `lse`: the access is of the
treatment LSE, else of UNC (R124). -/
inductive Flit where
  | load (tag pa n : Nat)
  | store (tag pa : Nat) (lse : Bool) (bytes : List Byte)
  | atom (tag pa : Nat) (lse : Bool) (op : AtomOp) (ty : Ty) (b c : BitVec 64)
  | lseRead (tag pa lease : Nat)
  | reply (tag : Nat) (bytes : List Byte) (remaining : Nat)
  | refusal (tag : Nat)
  | barrierArrive (gang bar : Nat)
  | fold (slot : Nat) (bytes : List Byte)
  | mirror (writes : List (Nat × List Byte))
  | rebuildRead (slot : Nat)
  | ack (upTo : Nat)
  deriving DecidableEq, Repr

/-- One constructor per row of spec/opcode_table.json, in the table's order but for the last five. -/
inductive Instr where
  -- group 0x0 control (R267 to R274)
  | nop (c : Ctl)
  | bra (c : Ctl) (t : Target)
  | brx (c : Ctl) (tok : BitVec 6) (t : Target)
  | jmp (c : Ctl) (a : Opnd)
  | reconv (c : Ctl) (tok : BitVec 6)
  | call (c : Ctl) (d : Opnd) (t : Target)
  | callr (c : Ctl) (d a : Opnd)
  | ret (c : Ctl) (a : Opnd)
  | exit (c : Ctl)
  -- group 0x1 integer and address (R275 to R278)
  | mov (c : Ctl) (t : Ty) (d a : Opnd)
  | iadd (c : Ctl) (t : Ty) (d a b : Opnd)
  | isub (c : Ctl) (t : Ty) (d a b : Opnd)
  | imul (c : Ctl) (t : Ty) (d a b : Opnd)
  | imulh (c : Ctl) (t : Ty) (d a b : Opnd)
  | imad (c : Ctl) (t : Ty) (d a b cc : Opnd)
  | idiv (c : Ctl) (t : Ty) (d a b : Opnd)
  | irem (c : Ctl) (t : Ty) (d a b : Opnd)
  | imin (c : Ctl) (t : Ty) (d a b : Opnd)
  | imax (c : Ctl) (t : Ty) (d a b : Opnd)
  | iabs (c : Ctl) (t : Ty) (d a : Opnd)
  | and (c : Ctl) (t : Ty) (d a b : Opnd)
  | or (c : Ctl) (t : Ty) (d a b : Opnd)
  | xor (c : Ctl) (t : Ty) (d a b : Opnd)
  | not (c : Ctl) (t : Ty) (d a : Opnd)
  | shl (c : Ctl) (t : Ty) (d a b : Opnd)
  | shr (c : Ctl) (t : Ty) (d a b : Opnd)
  | shra (c : Ctl) (t : Ty) (d a b : Opnd)
  | popc (c : Ctl) (t : Ty) (d a : Opnd)
  | clz (c : Ctl) (t : Ty) (d a : Opnd)
  | brev (c : Ctl) (t : Ty) (d a : Opnd)
  | bfe (c : Ctl) (t : Ty) (d a b cc : Opnd)
  | bfi (c : Ctl) (t : Ty) (d a b cc : Opnd)
  | lea (c : Ctl) (t : Ty) (d a b cc : Opnd)
  | sel (c : Ctl) (t : Ty) (d a b cc : Opnd)
  | icmp (c : Ctl) (k : Cond) (t : Ty) (d a b : Opnd)
  | rng (c : Ctl) (unit : Bool) (d : Opnd)
  -- group 0x2 float (R280 to R285)
  | fadd (c : Ctl) (r : Rnd) (t : Ty) (d a b : Opnd)
  | fsub (c : Ctl) (r : Rnd) (t : Ty) (d a b : Opnd)
  | fmul (c : Ctl) (r : Rnd) (t : Ty) (d a b : Opnd)
  | ffma (c : Ctl) (r : Rnd) (t : Ty) (d a b cc : Opnd)
  | fmin (c : Ctl) (t : Ty) (d a b : Opnd)
  | fmax (c : Ctl) (t : Ty) (d a b : Opnd)
  | fabs (c : Ctl) (t : Ty) (d a : Opnd)
  | fcmp (c : Ctl) (k : Cond) (t : Ty) (d a b : Opnd)
  | fdiv (c : Ctl) (r : Rnd) (t : Ty) (d a b : Opnd)
  | fsqrt (c : Ctl) (r : Rnd) (t : Ty) (d a : Opnd)
  | frcp (c : Ctl) (t : Ty) (d a : Opnd)
  | frsq (c : Ctl) (t : Ty) (d a : Opnd)
  | fexp2 (c : Ctl) (t : Ty) (d a : Opnd)
  | flog2 (c : Ctl) (t : Ty) (d a : Opnd)
  | fsin (c : Ctl) (t : Ty) (d a : Opnd)
  | fcos (c : Ctl) (t : Ty) (d a : Opnd)
  | ftanh (c : Ctl) (t : Ty) (d a : Opnd)
  | fclass (c : Ctl) (t : Ty) (d a : Opnd)
  -- group 0x3 convert (R286 to R289)
  | cvt (c : Ctl) (r : Rnd) (dt st : Ty) (d a : Opnd)
  | frnd (c : Ctl) (r : Rnd) (t : Ty) (d a : Opnd)
  | pkcvt (c : Ctl) (r : Rnd) (t : Ty) (d a b : Opnd)
  | unpk (c : Ctl) (t : Ty) (k : BitVec 2) (d a : Opnd)
  -- group 0x4 lane and predicate (R290 to R296)
  | pand (c : Ctl) (d a b : Opnd)
  | por (c : Ctl) (d a b : Opnd)
  | pxor (c : Ctl) (d a b : Opnd)
  | pmov (c : Ctl) (d a : Opnd)
  | shfl (c : Ctl) (w : SegW) (t : Ty) (d a b : Opnd)
  | shflup (c : Ctl) (w : SegW) (t : Ty) (d a b : Opnd)
  | shfldn (c : Ctl) (w : SegW) (t : Ty) (d a b : Opnd)
  | shflx (c : Ctl) (w : SegW) (t : Ty) (d a b : Opnd)
  | voteall (c : Ctl) (d a : Opnd)
  | voteany (c : Ctl) (d a : Opnd)
  | ballot (c : Ctl) (d a : Opnd)
  | redadd (c : Ctl) (t : Ty) (d a : Opnd)
  | redmin (c : Ctl) (t : Ty) (d a : Opnd)
  | redmax (c : Ctl) (t : Ty) (d a : Opnd)
  | redand (c : Ctl) (t : Ty) (d a : Opnd)
  | redor (c : Ctl) (t : Ty) (d a : Opnd)
  | scanadd (c : Ctl) (excl : Bool) (t : Ty) (d a : Opnd)
  | matchLanes (c : Ctl) (t : Ty) (d a : Opnd)
  -- group 0x5 memory (R298 to R307)
  | ld (c : Ctl) (f : LdForm)
  | ldWait (c : Ctl) (f : LdForm)
  | ldTake (c : Ctl) (f : LdForm)
  | ldPeek (c : Ctl) (f : LdForm)
  | st (c : Ctl) (f : StForm)
  | stWait (c : Ctl) (f : StForm)
  | stTake (c : Ctl) (f : StForm)
  | stPeek (c : Ctl) (f : StForm)
  | pref (c : Ctl) (x : Bool) (win : Win) (a off : Opnd)
  -- group 0x6 atomics and synchronisation (R308 to R318)
  | atom (c : Ctl) (op : AtomOp) (win : Win) (scope : ScopeSel) (ord : Ord4) (t : Ty) (d a b : Opnd)
  | fence (c : Ctl) (scope : ScopeSel) (classes : BitVec 4)
  | bar (c : Ctl) (scope : ScopeSel) (b : Opnd)
  | waitc (c : Ctl) (k : CtrClass) (b : Opnd)
  | stageIn (c : Ctl) (d a b : Opnd)
  | stageOut (c : Ctl) (d a b : Opnd)
  | cjoin (c : Ctl) (d b : Opnd)
  | cleave (c : Ctl) (d : Opnd)
  -- group 0x7 copy and pronoun (R319 to R326)
  | copy (c : Ctl) (scope : ScopeSel) (d a b : Opnd)
  | copyxT2d (c : Ctl) (scope : ScopeSel) (d a b : Opnd)
  | copyxPack (c : Ctl) (scope : ScopeSel) (d a b : Opnd)
  | copyxUnpack (c : Ctl) (scope : ScopeSel) (d a b : Opnd)
  | copyxHadq (c : Ctl) (scope : ScopeSel) (d a b : Opnd)
  | resolve (c : Ctl) (pa : Bool) (a b : Opnd)
  | pnq (c : Ctl) (pa : Bool) (d a : Opnd)
  | pndrop (c : Ctl) (pa : Bool) (scope : ScopeSel) (a b : Opnd)
  -- group 0x8 tile and matrix (R329 to R346)
  | mloadRow (c : Ctl) (tr : Bool) (t : Ty) (d a b : Opnd)
  | mloadFact (c : Ctl) (d a b : Opnd)
  | mloadBlk (c : Ctl) (d a b : Opnd)
  | mstoreRow (c : Ctl) (tr : Bool) (t : Ty) (d a b : Opnd)
  | mstoreFact (c : Ctl) (d a : Opnd)
  | mma (c : Ctl) (ta tb : Bool) (d a b : Opnd)
  | madd (c : Ctl) (d a b : Opnd)
  | recomp (c : Ctl) (d a : Opnd)
  | mdense (c : Ctl) (d a : Opnd)
  | mrankGet (c : Ctl) (d a : Opnd)
  | mrankCap (c : Ctl) (d b : Opnd)
  | mzero (c : Ctl) (d : Opnd)
  | mmov (c : Ctl) (d a : Opnd)
  | aload (c : Ctl) (tr : Bool) (t : Ty) (d a b : Opnd)
  | astore (c : Ctl) (tr : Bool) (t : Ty) (d a b : Opnd)
  | azero (c : Ctl) (d : Opnd)
  | amov (c : Ctl) (d a : Opnd)
  -- group 0x9 transform and decode (R347 to R352)
  | xformQ (c : Ctl) (d a b : Opnd)
  | xformDq (c : Ctl) (d a b : Opnd)
  | xformHad (c : Ctl) (d a b : Opnd)
  | decodeBlk (c : Ctl) (q : DecQual) (d a b : Opnd)
  -- group 0xA token arrays (R354 to R362)
  | admitSeq (c : Ctl) (d a b : Opnd)
  | admitRel (c : Ctl) (d a : Opnd)
  | kvapp (c : Ctl) (d a b : Opnd)
  | kvld (c : Ctl) (isV fromEnd : Bool) (k : BitVec 5) (d a b : Opnd)
  | kvseal (c : Ctl) (a : Opnd)
  | span (c : Ctl) (a b : Opnd)
  | spanret (c : Ctl) (a b : Opnd)
  | window (c : Ctl) (a b : Opnd)
  | rope (c : Ctl) (k : BitVec 5) (d a b : Opnd)
  -- group 0xB access processor and queues (R363 to R365)
  | nest (c : Ctl) (a : Opnd)
  | apsend (c : Ctl) (q : BitVec 2) (b : Opnd)
  | apermit (c : Ctl) (q : BitVec 2) (b : Opnd)
  -- group 0xC system, trap and debug (R366 to R372, R327)
  | launch (c : Ctl) (d a : Opnd)
  | trap (c : Ctl) (b : Opnd)
  | eret (c : Ctl)
  | eretRetry (c : Ctl)
  | svc (c : Ctl) (b : Opnd)
  | getsr (c : Ctl) (d b : Opnd)
  | setsr (c : Ctl) (n : BitVec 13) (b : Opnd)
  | bkpt (c : Ctl) (b : Opnd)
  | sample (c : Ctl) (a : Opnd)
  | rgive (c : Ctl) (pool : Pool) (b : Opnd)
  | rclaim (c : Ctl) (pool : Pool) (b : Opnd)
  -- words without a meaning of their own (R257, R258, R260)
  | hintRegionWord (w : BitVec 96)
  | notAnInstruction (w : BitVec 96)
  -- events of groups and engines
  | pendingCauseTaken (wg g : Nat)
  | nestPush (wg g : Nat)
  | writeLands (wg g seq : Nat)
  | engineCompletion (wg g : Nat) (k : CtrClass)
  | matrixStart (core : Nat)
  | transformStart (core : Nat)
  | stageOutWrite (wg g seq : Nat)
  | barrierPhaseComplete (wg key : Nat)
  | claimGrant (core bank quarter : Nat) (pool : Pool)
  | registersFreed (wg g : Nat)
  -- events of translation
  | pageWalk (quad : Nat)
  | tableLineStore (line : Nat)
  | translationInvalidation (quad line : Nat)
  | translationAck (quad line : Nat)
  | stackerMove (die cg ctx va : Nat)
  | stackerRelease (die cg : Nat)
  -- events of coherence
  | rd (core line : Nat)
  | rfo (core line : Nat)
  | rfoz (core line : Nat)
  | upg (core line : Nat)
  | wb (core line : Nat)
  | inv (core line : Nat)
  | fwdRd (core line : Nat)
  | fwdRfo (core line : Nat)
  | invAck (core line : Nat)
  | grant (core line : Nat)
  | wbAck (core line : Nat)
  | rakerScan (die line : Nat)
  | cleanProbe (core line : Nat)
  | lseRead (core line : Nat)
  | lseStore (core line : Nat)
  | lsePerform (line : Nat)
  | leaseExpiry (core line : Nat)
  | uncAccess (core line : Nat)
  | homeAtomic (core line : Nat)
  -- events of deferred copies
  | recordEntry (core : Nat)
  | redirectedRead (line : Nat)
  | hotResolution (die : Nat)
  | antecedentWrite (line : Nat)
  | resolutionComplete (id : Nat)
  | destinationWrite (line : Nat)
  -- events of local memory and clusters
  | granuleOp (core i : Nat)
  | engineWriteLands (core i : Nat)
  | localRegionFree (wg core : Nat)
  | clusterInstall (wg core : Nat)
  | clusterRevoke (wg core member : Nat)
  | cleaveAck (wg core : Nat)
  -- events of token arrays
  | tokenPerform (line : Nat)
  | poolUpdate (line : Nat)
  | slotPush (line : Nat)
  | parityFold (ctx rec slot : Nat) (bytes : List Byte)
  | rebuildRead (peer ctx rec slot : Nat)
  | rebuildComplete (ctx entry : Nat) (answers : List (Option (List Byte)))
  -- events of launch and scheduling
  | reservingHead (prio : Nat)
  | workgroupEnd (wg : Nat)
  | mailboxWrite (m : Master) (page off : Nat) (bytes : List Byte)
  | throttleUpdate (demands : List (Nat × Nat))
  | swap (core : Nat)
  | swapBack (core : Nat)
  | evict (m : Master) (handle : Nat)
  | contextSwitchSave (wg : Nat)
  | kill (m : Master) (handle : Nat)
  | killSettle (wg : Nat)
  -- events of debug
  | dbgNop (agent : Nat)
  | hold (agent : Nat)
  | dbgRelease (agent : Nat)
  | stepPath (agent : Nat)
  | halt (agent : Nat)
  | restore (agent : Nat)
  | stallsmp (agent : Nat)
  | trace (agent : Nat)
  | bkpten (agent : Nat)
  | badcmd (agent : Nat)
  | stallSample (wg g path : Nat)
  | debugGrant (m : Master) (target agent : Nat)
  | debugRevoke (m : Master) (target agent : Nat)
  -- events of ownership and device registers
  | claim (m : Master)
  | offer (m : Master) (target : BitVec 16)
  | accept (m : Master)
  | release (m : Master)
  | attnonceWrite (m : Master) (off : Nat) (bytes : List Byte)
  | dstatRetire (m : Master)
  | framepoolPop (m : Master) (die : Nat)
  | framepoolPush (m : Master) (die : Nat) (w : BitVec 64)
  | registerWrite (m : Master) (off : Nat) (bytes : List Byte)
  | bar4Access (off : Nat) (isWrite : Bool) (n : Nat) (bytes : List Byte)
  -- events of links and fencing
  | zilberFrame (port ethertype peer seq : Nat) (flits : List Flit)
  | flitResend (peer seq port : Nat)
  | peerUnreachable (peer : Nat)
  | fenceCore (core : Nat)
  | fenceQuad (quad : Nat)
  | fenceStack (die stack : Nat)
  | fenceDie (die : Nat)
  | fencePort (port : Nat)
  | storeAcknowledgement (wg g seq : Nat)
  | linkUp (port : Nat)
  -- events without a field, wherever the table has them
  | launchArrival
  | placement
  | handoverTimeout
  | quoteComplete
  | reset
  deriving DecidableEq, Repr

end Sys2Proof
end

