-- ==== Sys2Proof/WellFormed.lean ====
section
/-!
DEFINITION. Which operands, types and modifiers each instruction accepts (Tables 12.4 to 12.15, 13.2,
13.3, 13.5, 13.6, 14.3, 14.11, 15.2, 15.8, 15.9). The same field tests are used by the decoder. What
depends on a register's contents or on the group (holdings, DECODE's range) is checked when the
instruction executes.
-/
namespace Sys2Proof

/-! ### Types (Table 12.3, R300) -/

/-- A 64-bit type names register pairs (R244). -/
def Ty.is64 : Ty → Bool
  | .s64 | .u64 => true
  | _ => false

/-- Registers an operand of this type covers. -/
def Ty.regs (t : Ty) : Nat := if t.is64 then 2 else 1

/-- List IT of Table 12.3. -/
def Ty.isIT : Ty → Bool
  | .s32 | .u32 | .s64 | .u64 => true
  | _ => false

/-- List BT of Table 12.3. -/
def Ty.isBT : Ty → Bool
  | .b32 | .s64 => true
  | _ => false

/-- List FT of Table 12.3. -/
def Ty.isFT : Ty → Bool
  | .f32 | .f16 | .bf16 => true
  | _ => false

/-- Types of LD and ST (Table 13.2): every code but 8. -/
def Ty.isMem : Ty → Bool
  | .q4x => false
  | _ => true

/-- Types of the immediate form of LD and ST (R302). -/
def Ty.isMemImm : Ty → Bool
  | .b32 | .s64 | .s8 | .s16 => true
  | _ => false

/-- Types CVT accepts on either side (Table 12.14). -/
def Ty.isCvt : Ty → Bool
  | .q4x | .b32 => false
  | _ => true

/-- Types of PKCVT and UNPK (Table 12.14). -/
def Ty.isPk : Ty → Bool
  | .f16 | .bf16 | .e4m3 | .e5m2 => true
  | _ => false

/-- Types of MLOAD.ROW and MSTORE.ROW (Table 14.3). -/
def Ty.isTile : Ty → Bool
  | .f32 | .f16 | .bf16 | .e4m3 | .e5m2 => true
  | _ => false

/-- Types an operation of ATOM accepts (Table 13.5). -/
def AtomOp.ok : AtomOp → Ty → Bool
  | .add, t | .min, t | .max, t => t.isIT
  | .and, t | .or, t | .xor, t | .exch, t | .cas, t => t.isBT
  | .fadd, t => t == .f32

/-! ### Operand tests -/

namespace Opnd

/-- Class V at an index that is a multiple of `n`. -/
def isV (n : Nat) : Opnd → Bool
  | .v _ _ i => i.toNat % n == 0
  | _ => false

/-- Class S at an index that is a multiple of `n`. -/
def isS (n : Nat) : Opnd → Bool
  | .s _ _ i => i.toNat % n == 0
  | _ => false

def isP : Opnd → Bool
  | .p .. => true
  | _ => false

def isM : Opnd → Bool
  | .m .. => true
  | _ => false

def isA : Opnd → Bool
  | .a .. => true
  | _ => false

def isMA (o : Opnd) : Bool := o.isM || o.isA

/-- A queue port Q0 to Q3. -/
def isQ : Opnd → Bool
  | .q .. => true
  | _ => false

def isZero : Opnd → Bool
  | .zero .. => true
  | _ => false

def isLane : Opnd → Bool
  | .lane .. => true
  | _ => false

def isNone : Opnd → Bool
  | .none => true
  | _ => false

def isImm : Opnd → Bool
  | .imm _ => true
  | _ => false

def isImm32 : Opnd → Bool
  | .imm32 _ => true
  | _ => false

/-- A short immediate from 0 to `m`. -/
def immUpTo (m : Nat) : Opnd → Bool
  | .imm x => x.toNat ≤ m && x.toNat < 4096
  | _ => false

/-- The immediate of the immediate form, unsigned, from 0 to `m`. -/
def imm32UpTo (m : Nat) : Opnd → Bool
  | .imm32 x => x.toNat ≤ m
  | _ => false

/-- Class V at an index from which `n` registers fit below V512. -/
def vRange (n : Nat) : Opnd → Bool
  | .v _ _ i => i.toNat + n ≤ 512
  | _ => false

/-- "dst" of R261 for an operand of `n` registers. -/
def dst (n : Nat) (o : Opnd) : Bool := o.isV n || o.isS n

/-- "src" of R261 beside destination `d`: V and LANE only in vector and predicate forms. -/
def src (o d : Opnd) (n : Nat) : Bool :=
  o.isS n || o.isQ || o.isZero || o.isImm || (!d.isS 1 && (o.isV n || o.isLane))

/-- A source field B that the immediate form may replace (R246). -/
def srcI (o d : Opnd) (n : Nat) : Bool := o.src d n || o.isImm32

/-- The address field of a memory instruction (R298, R299). -/
def addr (w : Win) (o : Opnd) : Bool :=
  o.isQ || o.isZero || (match w with | .g => o.dst 2 | _ => o.dst 1)

/-- The offset field of a memory instruction that is not .PEEK (R299, Table 13.3). -/
def offs (o : Opnd) : Bool := o.dst 1 || o.isQ || o.isImm || o.isNone

/-- A length, count or pitch: an S register or a short immediate from 0 to `m`. -/
def count (m : Nat) (o : Opnd) : Bool := o.isS 1 || o.immUpTo m

/-- A code of TRAP, SVC and BKPT (R366). -/
def code (o : Opnd) : Bool := o.isS 1 || o.immUpTo 4095 || o.imm32UpTo 0xFFFF

/-- A tag of SPAN and SPANRET (R355). -/
def tag (o : Opnd) : Bool := o.isS 1 || o.immUpTo 7 || o.imm32UpTo 7

end Opnd

/-! ### Special registers (Table 15.10) -/

/-- The width of special register `n`; none for an unassigned number. -/
def srWidth (n : Nat) : Option Nat :=
  if n ≤ 0x008 then some 32
  else if n ≤ 0x00B then some 64
  else if n < 0x010 then none
  else if n ≤ 0x016 then some 32
  else if n ≤ 0x01C then some 64
  else if n = 0x01D then some 32
  else if n = 0x020 ∨ n = 0x021 ∨ n = 0x030 then some 32
  else if n = 0x031 then some 64
  else if n = 0x032 then some 32
  else if n = 0x033 then some 64
  else if n = 0x034 then some 32
  else if n = 0x035 ∨ n = 0x040 then some 64
  else none

/-- sr.XFLAGS. -/
def srXflags : Nat := 0x016

/-- The number in field B of GETSR. -/
def srNumber : Opnd → Option Nat
  | .imm v => some v.toNat
  | .imm32 v => some v.toNat
  | _ => none

/-- Field D of GETSR for register `n` (R370). -/
def getsrDst (n : Nat) (d : Opnd) : Bool :=
  match srWidth n with
  | none => false
  | some w => (d.isV (w / 32) || (d.isS (w / 32) && n != srXflags))

/-- Field B of SETSR for register `n` (R371). -/
def setsrSrc (n : Nat) (b : Opnd) : Bool :=
  match srWidth n with
  | none => false
  | some w => b.isS (w / 32) || b.isImm || b.isImm32 || (b.isV 1 && n == srXflags)

/-! ### Memory forms -/

/-- An address or offset in a V register makes the form lane-bound (R298). -/
def laneBoundAddr (a off : Opnd) : Bool := a.isV 1 || off.isV 1

/-- Registers an LD or ST of this shape moves. -/
def memRegs (t : Ty) (x4 : Bool) : Nat := if x4 then 4 else t.regs

/-- Checks shared by LD and its qualified forms; `peek` makes field B the status predicate. -/
def LdForm.wf (f : LdForm) (peek qualified : Bool) : Bool :=
  f.ty.isMem && (!f.x4 || f.ty == .b32)
  && (f.d.isV (memRegs f.ty f.x4)
      || (f.d.isS (memRegs f.ty f.x4) && !laneBoundAddr f.a f.off))
  && f.a.addr f.win
  && (if peek then f.off.isP else f.off.offs || f.off.isImm32)
  && (!f.off.isImm32
      || (f.win == .g && f.expect == .none && f.ty.isMemImm && !f.x4 && !qualified))

/-- Checks shared by ST and its qualified forms. -/
def StForm.wf (f : StForm) (peek qualified : Bool) : Bool :=
  f.ty.isMem && (!f.x4 || f.ty == .b32)
  && ((f.d.isV (memRegs f.ty f.x4) && laneBoundAddr f.a f.off) || f.d.isS (memRegs f.ty f.x4)
      || (!f.x4 && (f.d.isQ || f.d.isImm)))
  && f.a.addr f.win
  && (if peek then f.off.isP else f.off.offs || f.off.isImm32)
  && (!f.off.isImm32
      || (f.win == .g && f.expect == .none && f.scope == .sc .sys && f.ty.isMemImm && !f.x4
          && !qualified))

/-! ### Well-formed instructions -/

/-- A two-source entry with types `ok`, `n` registers by type on D, A and B (Table 12.6). -/
def wf3 (ok : Ty → Bool) (t : Ty) (d a b : Opnd) : Bool :=
  ok t && d.dst t.regs && a.src d t.regs && b.srcI d t.regs

def wf2 (ok : Ty → Bool) (t : Ty) (d a : Opnd) : Bool :=
  ok t && d.dst t.regs && a.src d t.regs

/-- A three-source entry, every field by type. -/
def wf4 (ok : Ty → Bool) (t : Ty) (d a b c : Opnd) : Bool :=
  ok t && d.dst t.regs && a.src d t.regs && b.src d t.regs && c.src d t.regs

/-- A reduction over lanes: D is V or S, A is V (Table 12.15). -/
def wfRed (ok : Ty → Bool) (t : Ty) (d a : Opnd) : Bool :=
  ok t && d.dst t.regs && a.isV t.regs

def isRedTy (t : Ty) : Bool := t.isIT || t == .f32

def wfCopyx (d a b : Opnd) : Bool := d.isS 2 && a.isS 2 && b.isS 8

def targetWf : Target → Bool
  | .rel13 _ => true
  | .rel32 _ => true

/-- The group field of a word (Table 11.1). -/
def wordGroup (w : BitVec 96) : Nat := (BitVec.extractLsb' 8 4 w).toNat

/-- Whether the operands, types and modifiers are ones the instruction's entry accepts. Events carry
names of agents and addresses, and are always well formed. -/
def Instr.wf : Instr → Bool
  | .bra _ t => targetWf t
  | .brx _ _ t => targetWf t
  | .jmp _ a => a.isS 2
  | .call _ d t => d.isS 2 && targetWf t
  | .callr _ d a => d.isS 2 && a.isS 2
  | .ret _ a => a.isS 2
  | .mov _ t d a => t.isBT && d.dst t.regs && a.srcI d t.regs
  | .iadd _ t d a b => wf3 Ty.isIT t d a b
  | .isub _ t d a b => wf3 Ty.isIT t d a b
  | .imul _ t d a b => wf3 Ty.isIT t d a b
  | .imulh _ t d a b => wf3 Ty.isIT t d a b
  | .imad _ t d a b c => wf4 Ty.isIT t d a b c
  | .idiv _ t d a b => wf3 Ty.isIT t d a b
  | .irem _ t d a b => wf3 Ty.isIT t d a b
  | .imin _ t d a b => wf3 Ty.isIT t d a b
  | .imax _ t d a b => wf3 Ty.isIT t d a b
  | .iabs _ t d a => wf2 (fun t => t == .s32 || t == .s64) t d a
  | .and _ t d a b => wf3 Ty.isBT t d a b
  | .or _ t d a b => wf3 Ty.isBT t d a b
  | .xor _ t d a b => wf3 Ty.isBT t d a b
  | .not _ t d a => wf2 Ty.isBT t d a
  | .shl _ t d a b => t.isIT && d.dst t.regs && a.src d t.regs && b.srcI d 1
  | .shr _ t d a b => t.isIT && d.dst t.regs && a.src d t.regs && b.srcI d 1
  | .shra _ t d a b => t.isIT && d.dst t.regs && a.src d t.regs && b.srcI d 1
  | .popc _ t d a => t.isBT && d.dst 1 && a.src d t.regs
  | .clz _ t d a => t.isBT && d.dst 1 && a.src d t.regs
  | .brev _ t d a => wf2 Ty.isBT t d a
  | .bfe _ t d a b c => t.isIT && d.dst t.regs && a.src d t.regs && b.src d 1 && c.src d 1
  | .bfi _ t d a b c => t.isBT && d.dst t.regs && a.src d t.regs && b.src d t.regs && c.src d 1
  | .lea _ t d a b c =>
    (t == .s32 || t == .u32 || t == .s64) && d.dst 2 && a.src d 2 && b.src d t.regs && c.src d 1
  | .sel _ t d a b c => t.isBT && d.dst t.regs && a.src d t.regs && b.src d t.regs && c.isP
  | .icmp _ k t d a b =>
    t.isIT && k != .un && k != .ord && d.isP && a.src d t.regs && b.srcI d t.regs
    && (!b.isImm32 || k == .eq)
  | .rng _ _ d => d.dst 1
  | .fadd _ _ t d a b => wf3 Ty.isFT t d a b
  | .fsub _ _ t d a b => wf3 Ty.isFT t d a b
  | .fmul _ _ t d a b => wf3 Ty.isFT t d a b
  | .ffma _ _ t d a b c => wf4 Ty.isFT t d a b c
  | .fmin _ t d a b => wf3 Ty.isFT t d a b
  | .fmax _ t d a b => wf3 Ty.isFT t d a b
  | .fabs _ t d a => wf2 Ty.isFT t d a
  | .fcmp _ k t d a b =>
    t.isFT && d.isP && a.src d 1 && b.srcI d 1 && (!b.isImm32 || k == .eq)
  | .fdiv _ _ t d a b => wf3 Ty.isFT t d a b && !b.isImm32
  | .fsqrt _ _ t d a => wf2 Ty.isFT t d a
  | .frcp _ t d a => wf2 Ty.isFT t d a
  | .frsq _ t d a => wf2 Ty.isFT t d a
  | .fexp2 _ t d a => wf2 Ty.isFT t d a
  | .flog2 _ t d a => wf2 Ty.isFT t d a
  | .fsin _ t d a => wf2 Ty.isFT t d a
  | .fcos _ t d a => wf2 Ty.isFT t d a
  | .ftanh _ t d a => wf2 Ty.isFT t d a
  | .fclass _ t d a => wf2 Ty.isFT t d a
  | .cvt _ _ dt sty d a => dt.isCvt && sty.isCvt && d.dst dt.regs && a.src d sty.regs
  | .frnd _ _ t d a => wf2 Ty.isFT t d a
  | .pkcvt _ _ t d a b => t.isPk && d.dst 1 && a.src d 1 && b.src d 1
  | .unpk _ t k d a => t.isPk && (k.toNat < 2 || t == .e4m3 || t == .e5m2) && d.dst 1 && a.src d 1
  | .pand _ d a b => d.isP && a.isP && b.isP
  | .por _ d a b => d.isP && a.isP && b.isP
  | .pxor _ d a b => d.isP && a.isP && b.isP
  | .pmov _ d a => (d.isP && (a.isP || a.isV 1 || a.isS 1 || a.isImm))
      || (d.isS 1 && (a.isP || a.isS 1 || a.isImm))
  | .shfl _ _ t d a b => t.isBT && d.isV t.regs && a.isV t.regs && b.src d 1
  | .shflup _ _ t d a b => t.isBT && d.isV t.regs && a.isV t.regs && b.src d 1
  | .shfldn _ _ t d a b => t.isBT && d.isV t.regs && a.isV t.regs && b.src d 1
  | .shflx _ _ t d a b => t.isBT && d.isV t.regs && a.isV t.regs && b.src d 1
  | .voteall _ d a => (d.isP || d.isS 1) && a.isP
  | .voteany _ d a => (d.isP || d.isS 1) && a.isP
  | .ballot _ d a => d.dst 1 && a.isP
  | .redadd _ t d a => wfRed isRedTy t d a
  | .redmin _ t d a => wfRed isRedTy t d a
  | .redmax _ t d a => wfRed isRedTy t d a
  | .redand _ t d a => wfRed Ty.isBT t d a
  | .redor _ t d a => wfRed Ty.isBT t d a
  | .scanadd _ _ t d a => isRedTy t && d.isV t.regs && a.isV t.regs
  | .matchLanes _ t d a => t.isBT && d.isV 1 && a.isV t.regs
  | .ld _ f => f.wf false false
  | .ldWait _ f => f.wf false true
  | .ldTake _ f => f.wf false true
  | .ldPeek _ f => f.wf true true
  | .st _ f => f.wf false false
  | .stWait _ f => f.wf false true
  | .stTake _ f => f.wf false true
  | .stPeek _ f => f.wf true true
  | .pref _ x win a off =>
    a.addr win && (off.offs || off.isImm32) && (!off.isImm32 || (win == .g && !x))
  | .atom _ op win _ _ t d a b =>
    op.ok t && (d.dst t.regs || d.isNone) && a.addr win
    && (if op == .cas then b.dst (2 * t.regs) else b.dst t.regs || b.isQ || b.isImm)
  | .bar _ sc b => b.isS 1 || b.immUpTo 15 || (b.imm32UpTo 15 && sc == .sc .sys)
  | .waitc _ _ b => b.isS 1 || b.immUpTo 255 || b.imm32UpTo 255
  | .stageIn _ d a b => d.isV 1 && a.isS 1 && b.isS 1
  | .stageOut _ d a b => d.isV 1 && a.isS 1 && b.isS 1
  | .cjoin _ d b => d.isS 2 && (b.isS 1 || b.isImm || b.isImm32)
  | .cleave _ d => d.isS 1
  | .copy _ _ d a b => d.isS 2 && a.isS 2 && b.count 4095
  | .copyxT2d _ _ d a b => wfCopyx d a b
  | .copyxPack _ _ d a b => wfCopyx d a b
  | .copyxUnpack _ _ d a b => wfCopyx d a b
  | .copyxHadq _ _ d a b => wfCopyx d a b
  | .resolve _ _ a b => a.isS 2 && b.count 4095
  | .pnq _ _ d a => d.isS 4 && a.isS 2
  | .pndrop _ _ _ a b => a.isS 2 && b.count 4095
  | .mloadRow _ _ t d a b => t.isTile && d.isM && a.isS 2 && b.count 4095
  | .mloadFact _ d a b => d.isM && a.isS 2 && b.count 32
  | .mloadBlk _ d a b => d.isM && a.isS 2 && b.isS 1
  | .mstoreRow _ _ t d a b => t.isTile && d.isM && a.isS 2 && b.count 4095
  | .mstoreFact _ d a => d.isM && a.isS 2
  | .mma _ _ _ d a b => d.isMA && a.isMA && b.isMA
  | .madd _ d a b => d.isMA && a.isMA && b.isMA
  | .recomp _ d a => d.isM && a.isM
  | .mdense _ d a => d.isM && a.isM
  | .mrankGet _ d a => d.isS 1 && a.isMA
  | .mrankCap _ d b => d.isM && b.count 32
  | .mzero _ d => d.isM
  | .mmov _ d a => d.isM && a.isM
  | .aload _ _ t d a b => t.isFT && d.isA && a.isS 2 && b.count 4095
  | .astore _ _ t d a b => t.isFT && d.isA && a.isS 2 && b.count 4095
  | .azero _ d => d.isA
  | .amov _ d a => (d.isM && a.isA) || (d.isA && a.isM)
  | .xformQ _ d a b => d.dst 1 && a.vRange 8 && b.isS 4
  | .xformDq _ d a b => (d.vRange 8 || d.isS 1) && a.isV 1 && b.isS 4
  | .xformHad _ d a b => (d.vRange 8 || d.isS 1) && a.vRange 8 && b.isS 4
  | .decodeBlk _ _ d a b => d.dst 1 && a.isS 1 && b.isS 2
  | .admitSeq _ d a b => d.isS 1 && a.isS 4 && b.isS 4
  | .admitRel _ d a => d.isS 1 && a.isS 4
  | .kvapp _ d a b => d.isS 1 && a.isS 4 && b.isS 2
  | .kvld _ _ _ k d a b =>
    d.vRange (k.toNat + 3) && a.isS 4 && (b.isV 1 || b.isS 1 || b.immUpTo 4095)
  | .kvseal _ a => a.isS 4
  | .span _ a b => a.isS 4 && b.tag
  | .spanret _ a b => a.isS 4 && b.tag
  | .window _ a b => a.isS 4 && b.count 4095
  | .rope _ k d a b =>
    k.toNat % 2 == 1 && d.vRange (k.toNat + 1) && a.vRange (k.toNat + 2) && b.isS 4
  | .nest _ a => a.isS 8 && (match a with | .s _ _ i => i.toNat ≤ 120 | _ => false)
  | .apsend _ _ b => b.isS 1 || b.isImm
  | .apermit _ _ b => b.isS 1 || b.immUpTo 4095 || b.isImm32
  | .launch _ d a => d.isS 2 && a.isS 2
  | .trap _ b => b.code
  | .svc _ b => b.code
  | .bkpt _ b => b.code
  | .getsr _ d b => match srNumber b with
    | some n => getsrDst n d
    | none => false
  | .setsr _ n b => setsrSrc n.toNat b
  | .sample _ a => a.isS 1 || a.isImm
  | .rgive _ pool b => b.isS 1 || b.immUpTo 4095 || (b.imm32UpTo 0x7FFFFFFF && pool == .v)
  | .rclaim _ pool b => b.isS 1 || b.immUpTo 4095 || (b.imm32UpTo 0x7FFFFFFF && pool == .v)
  | .hintRegionWord w => wordGroup w == 0xF
  | _ => true

end Sys2Proof
end

