-- ==== Sys2Proof/Decode.lean ====
section
/-!
DEFINITION. The 96-bit instruction word (R239 to R260): fields, operand fields, forms of the modifier
bits, the opcode map, decoding, and the encoder. Decoding is total. A word that is no instruction, or
whose fields its entry does not accept, decodes to `notAnInstruction`, which keeps the word; the cause
it raises is the one `decodeRaw` names. ILLEGAL_MOD comes before ILLEGAL_OPD (R260), and of several
fields that fail the first in the order D, A, B, C is named.
-/
namespace Sys2Proof

/-- Why a word is not an instruction that can execute (Table 11.11). The field numbers are those of
sr.CAUSE.INFO: 0 D, 1 A, 2 B, 3 C (R375). -/
inductive BadCause where
  | opc
  | mod
  | opd (field : Nat)
  deriving DecidableEq, Repr

/-- The word cut into the fields of Table 11.1. -/
structure Raw where
  opc : BitVec 12
  d : BitVec 16
  a : BitVec 16
  b : BitVec 16
  gpred : BitVec 5
  ginv : Bool
  gen : Bool
  hint : BitVec 10
  mod : BitVec 18
  i : Bool
  deriving DecidableEq, Repr

/-- The fields of a word (Table 11.1). -/
def Raw.ofWord (w : BitVec 96) : Raw :=
  { opc := BitVec.extractLsb' 0 12 w, d := BitVec.extractLsb' 12 16 w,
    a := BitVec.extractLsb' 28 16 w, b := BitVec.extractLsb' 44 16 w,
    gpred := BitVec.extractLsb' 60 5 w, ginv := w.getLsbD 65, gen := w.getLsbD 66,
    hint := BitVec.extractLsb' 67 10 w, mod := BitVec.extractLsb' 77 18 w, i := w.getLsbD 95 }

/-- The word of the fields (Table 11.1). -/
def Raw.toWord (r : Raw) : BitVec 96 :=
  BitVec.ofBool r.i ++ r.mod ++ r.hint ++ BitVec.ofBool r.gen ++ BitVec.ofBool r.ginv ++ r.gpred
    ++ r.b ++ r.a ++ r.d ++ r.opc

/-! ### Sub-fields of MOD (Table 11.4) -/

def Raw.scope (r : Raw) : BitVec 4 := BitVec.extractLsb' 14 4 r.mod
def Raw.ord (r : Raw) : BitVec 2 := BitVec.extractLsb' 12 2 r.mod
def Raw.ty (r : Raw) : BitVec 4 := BitVec.extractLsb' 8 4 r.mod
def Raw.opx (r : Raw) : BitVec 8 := BitVec.extractLsb' 0 8 r.mod
def Raw.tsel (r : Raw) : BitVec 2 := BitVec.extractLsb' 0 2 r.mod
/-- Field C of the three-source form; the upper half of the immediate in the immediate form. -/
def Raw.hi16 (r : Raw) : BitVec 16 := BitVec.extractLsb' 2 16 r.mod
def Raw.imm32 (r : Raw) : BitVec 32 := r.hi16 ++ r.b

/-! ### Codes -/

/-- TYPE codes (Table 11.5). -/
def Ty.ofCode : Nat → Option Ty
  | 0 => some .f32 | 1 => some .f16 | 2 => some .bf16 | 3 => some .e4m3 | 4 => some .e5m2
  | 5 => some .s8 | 6 => some .s32 | 7 => some .s64 | 8 => some .q4x | 9 => some .u8
  | 10 => some .u32 | 11 => some .u64 | 12 => some .s16 | 13 => some .u16 | 14 => some .b32
  | _ => none

def Ty.code : Ty → BitVec 4
  | .f32 => 0 | .f16 => 1 | .bf16 => 2 | .e4m3 => 3 | .e5m2 => 4 | .s8 => 5 | .s32 => 6
  | .s64 => 7 | .q4x => 8 | .u8 => 9 | .u32 => 10 | .u64 => 11 | .s16 => 12 | .u16 => 13 | .b32 => 14

/-- SCOPE codes (Table 11.5). -/
def ScopeSel.ofCode : Nat → Option ScopeSel
  | 0 => some (.sc .grp) | 1 => some (.sc .clu) | 2 => some (.sc .core) | 3 => some (.sc .quad)
  | 4 => some (.sc .die) | 5 => some (.sc .pkg) | 6 => some (.sc .pod) | 7 => some (.sc .sys)
  | 8 => some .wg
  | _ => none

def Scope.code : Scope → BitVec 4
  | .grp => 0 | .clu => 1 | .core => 2 | .quad => 3 | .die => 4 | .pkg => 5 | .pod => 6 | .sys => 7

def ScopeSel.code : ScopeSel → BitVec 4
  | .sc s => s.code
  | .wg => 8

/-- ORD codes (Table 11.5). -/
def Ord4.ofCode (x : BitVec 2) : Ord4 :=
  match x.toNat with
  | 0 => .relaxed | 1 => .acq | 2 => .rel | _ => .ar

def Ord4.code : Ord4 → BitVec 2
  | .relaxed => 0 | .acq => 1 | .rel => 2 | .ar => 3

/-- Rounding codes (R248). -/
def Rnd.ofCode : Nat → Option Rnd
  | 0 => some .rne | 1 => some .rna | 2 => some .rz | 3 => some .ru | 4 => some .rd
  | _ => none

def Rnd.code : Rnd → Nat
  | .rne => 0 | .rna => 1 | .rz => 2 | .ru => 3 | .rd => 4

/-- OPX of ICMP and FCMP (Tables 12.6, 12.12). -/
def Cond.ofCode : Nat → Option Cond
  | 0 => some .eq | 1 => some .ne | 2 => some .lt | 3 => some .le | 4 => some .gt | 5 => some .ge
  | 6 => some .un | 7 => some .ord
  | _ => none

def Cond.code : Cond → BitVec 8
  | .eq => 0 | .ne => 1 | .lt => 2 | .le => 3 | .gt => 4 | .ge => 5 | .un => 6 | .ord => 7

/-- WIN (Table 13.1). -/
def Win.ofCode (x : BitVec 2) : Win :=
  match x.toNat with
  | 0 => .g | 1 => .l | 2 => .c | _ => .p

def Win.code : Win → BitVec 2
  | .g => 0 | .l => 1 | .c => 2 | .p => 3

/-- EXPECT (R302). -/
def Expect.ofCode (x : BitVec 2) : Expect :=
  match x.toNat with
  | 0 => .none | 1 => .dir | 2 => .lse | _ => .unc

def Expect.code : Expect → BitVec 2
  | .none => 0 | .dir => 1 | .lse => 2 | .unc => 3

/-- Operations of ATOM (Table 13.5). -/
def AtomOp.ofCode : Nat → Option AtomOp
  | 0 => some .add | 1 => some .min | 2 => some .max | 3 => some .and | 4 => some .or
  | 5 => some .xor | 6 => some .exch | 7 => some .cas | 8 => some .fadd
  | _ => none

def AtomOp.code : AtomOp → BitVec 4
  | .add => 0 | .min => 1 | .max => 2 | .and => 3 | .or => 4 | .xor => 5 | .exch => 6 | .cas => 7
  | .fadd => 8

/-- Segment widths (R290). -/
def SegW.ofCode : Nat → Option SegW
  | 0 => some .w32 | 1 => some .w16 | 2 => some .w8 | 3 => some .w4 | 4 => some .w2
  | _ => none

def SegW.code : SegW → BitVec 8
  | .w32 => 0 | .w16 => 1 | .w8 => 2 | .w4 => 3 | .w2 => 4

/-- Engine-counter classes (R314). -/
def CtrClass.ofCode : Nat → Option CtrClass
  | 0 => some .copy | 1 => some .xform | 2 => some .matrix | 3 => some .token
  | _ => none

def CtrClass.code : CtrClass → BitVec 13
  | .copy => 0 | .xform => 1 | .matrix => 2 | .token => 3

/-! ### Operand fields (Tables 11.2, 11.3) -/

/-- An operand field; none where INDEX lies outside the class's range (R241). -/
def decodeOpnd (f : BitVec 16) : Option Opnd :=
  let e := f.getLsbD 12
  let xm := f.getLsbD 11
  let n := (BitVec.extractLsb' 0 11 f).toNat
  match (BitVec.extractLsb' 13 3 f).toNat with
  | 0 => some .none
  | 1 => if n < 512 then some (.v e xm (BitVec.ofNat 9 n)) else none
  | 2 => if n < 1024 then some (.s e xm (BitVec.ofNat 10 n)) else none
  | 3 => if n < 32 then some (.p e xm (BitVec.ofNat 5 n)) else none
  | 4 => if n < 16 then some (.m e xm (BitVec.ofNat 4 n)) else none
  | 5 => if n < 8 then some (.a e xm (BitVec.ofNat 3 n)) else none
  | 6 =>
    if n < 4 then some (.q e xm (BitVec.ofNat 2 n))
    else if n = 8 then some (.lane e xm)
    else if n = 9 then some (.zero e xm)
    else none
  | _ => some (.imm (BitVec.extractLsb' 0 13 f))

/-- The bits of a field of class `cls`. -/
def opndBits (cls : BitVec 3) (e xm : Bool) (n : BitVec 11) : BitVec 16 :=
  cls ++ BitVec.ofBool e ++ BitVec.ofBool xm ++ n

/-- The field of an operand; an `imm32` gives its low half (R246). -/
def encodeOpnd : Opnd → BitVec 16
  | .none => 0
  | .v e xm i => opndBits 1 e xm (i.setWidth 11)
  | .s e xm i => opndBits 2 e xm (i.setWidth 11)
  | .p e xm i => opndBits 3 e xm (i.setWidth 11)
  | .m e xm i => opndBits 4 e xm (i.setWidth 11)
  | .a e xm i => opndBits 5 e xm (i.setWidth 11)
  | .q e xm j => opndBits 6 e xm (j.setWidth 11)
  | .lane e xm => opndBits 6 e xm 8
  | .zero e xm => opndBits 6 e xm 9
  | .imm v => (7 : BitVec 3) ++ v
  | .imm32 v => BitVec.extractLsb' 0 16 v

/-! ### Guard and hints (R249, R250) -/

def Raw.ctl (r : Raw) : Ctl :=
  { guard := if r.gen then .pred r.ginv r.gpred else .always,
    hint := { pair := r.hint.getLsbD 9, yield := r.hint.getLsbD 8, split := r.hint.getLsbD 7,
              skip := r.hint.getLsbD 6, reuseA := r.hint.getLsbD 5, reuseB := r.hint.getLsbD 4,
              stall := BitVec.extractLsb' 1 3 r.hint } }

def hintBits (h : Hint) : BitVec 10 :=
  BitVec.ofBool h.pair ++ BitVec.ofBool h.yield ++ BitVec.ofBool h.split ++ BitVec.ofBool h.skip
    ++ BitVec.ofBool h.reuseA ++ BitVec.ofBool h.reuseB ++ h.stall ++ (0 : BitVec 1)

/-! ### Checks of the decoder -/

abbrev Dec := Except BadCause

/-- ILLEGAL_MOD unless `ok`. -/
def chkMod (ok : Bool) : Dec Unit := if ok then .ok () else .error .mod

/-- Operand field number `n`, which must pass `ok` (R241). -/
def fld (n : Nat) (f : BitVec 16) (ok : Opnd → Bool) : Dec Opnd :=
  match decodeOpnd f with
  | some o => if ok o then .ok o else .error (.opd n)
  | none => .error (.opd n)

/-- A value already formed, which must pass `ok`. -/
def chkOpd (n : Nat) (ok : Bool) : Dec Unit := if ok then .ok () else .error (.opd n)

def getMod {α : Type} : Option α → Dec α
  | some x => .ok x
  | none => .error .mod

/-- Register form only: I must be 0 (R245). -/
def noImm (r : Raw) : Dec Unit := chkMod (!r.i)

/-- I = 0 and OPX = 0. -/
def opx0 (r : Raw) : Dec Unit := chkMod (!r.i && r.opx == 0)

/-- An (I) entry without a type list: OPX = 0 in the register form, TSEL = 0 in the immediate form. -/
def plainI (r : Raw) : Dec Unit := chkMod (if r.i then r.tsel == 0 else r.opx == 0)

/-- The type of the register form, accepted by `ok`. -/
def regTy (r : Raw) (ok : Ty → Bool) : Dec Ty :=
  match Ty.ofCode r.ty.toNat with
  | some t => if ok t then .ok t else .error .mod
  | none => .error .mod

/-- The type TSEL selects from a list (R247). -/
def selTy (r : Raw) (l : List Ty) : Dec Ty := getMod l[r.tsel.toNat]?

/-- The lists of Table 12.3 in TSEL order. -/
def listIT : List Ty := [.s32, .u32, .s64, .u64]
def listBT : List Ty := [.b32, .s64]
def listFT : List Ty := [.f32, .f16, .bf16]
/-- The list of LEA (Table 12.6). -/
def listLea : List Ty := [.s32, .u32, .s64]
/-- The list of the immediate form of LD and ST (R302). -/
def listMem : List Ty := [.b32, .s64, .s8, .s16]

/-- The place of a type in a list, as a TSEL value. -/
def tselOf (l : List Ty) (t : Ty) : BitVec 2 := BitVec.ofNat 2 (l.idxOf t)

/-- TYPE in the register form with OPX = 0, TSEL in the immediate form. -/
def tyRI (r : Raw) (ok : Ty → Bool) (l : List Ty) : Dec Ty := do
  if r.i then selTy r l else do chkMod (r.opx == 0); regTy r ok

/-- TYPE of a register-form entry with OPX = 0. -/
def tyR (r : Raw) (ok : Ty → Bool) : Dec Ty := do opx0 r; regTy r ok

/-- TSEL of a three-source entry. -/
def tyC (r : Raw) (l : List Ty) : Dec Ty := do noImm r; selTy r l

/-- Field B, or the immediate that replaces it, tested by `ok`. -/
def fldBI (r : Raw) (ok : Opnd → Bool) : Dec Opnd :=
  if r.i then (if ok (.imm32 r.imm32) then .ok (.imm32 r.imm32) else .error (.opd 2)) else fld 2 r.b ok

/-- SCOPE of the register form; SYS in the immediate form. -/
def scopeI (r : Raw) : Dec ScopeSel :=
  if r.i then .ok (.sc .sys) else getMod (ScopeSel.ofCode r.scope.toNat)

/-! ### Shapes of entries -/

def dec3 (mk : Ctl → Ty → Opnd → Opnd → Opnd → Instr) (ok : Ty → Bool) (l : List Ty) (r : Raw) :
    Dec Instr := do
  let t ← tyRI r ok l
  let d ← fld 0 r.d (·.dst t.regs)
  let a ← fld 1 r.a (·.src d t.regs)
  let b ← fldBI r (·.srcI d t.regs)
  .ok (mk r.ctl t d a b)

def dec2 (mk : Ctl → Ty → Opnd → Opnd → Instr) (ok : Ty → Bool) (r : Raw) : Dec Instr := do
  let t ← tyR r ok
  let d ← fld 0 r.d (·.dst t.regs)
  let a ← fld 1 r.a (·.src d t.regs)
  .ok (mk r.ctl t d a)

def dec4 (mk : Ctl → Ty → Opnd → Opnd → Opnd → Opnd → Instr) (l : List Ty) (r : Raw) :
    Dec Instr := do
  let t ← tyC r l
  let d ← fld 0 r.d (·.dst t.regs)
  let a ← fld 1 r.a (·.src d t.regs)
  let b ← fld 2 r.b (·.src d t.regs)
  let c ← fld 3 r.hi16 (·.src d t.regs)
  .ok (mk r.ctl t d a b c)

/-- Shifts: B is a 32-bit operand (Table 12.6). -/
def decShift (mk : Ctl → Ty → Opnd → Opnd → Opnd → Instr) (r : Raw) : Dec Instr := do
  let t ← tyRI r Ty.isIT listIT
  let d ← fld 0 r.d (·.dst t.regs)
  let a ← fld 1 r.a (·.src d t.regs)
  let b ← fldBI r (·.srcI d 1)
  .ok (mk r.ctl t d a b)

/-- D is one register, A by type. -/
def decCount (mk : Ctl → Ty → Opnd → Opnd → Instr) (ok : Ty → Bool) (r : Raw) : Dec Instr := do
  let t ← tyR r ok
  let d ← fld 0 r.d (·.dst 1)
  let a ← fld 1 r.a (·.src d t.regs)
  .ok (mk r.ctl t d a)

def decRed (mk : Ctl → Ty → Opnd → Opnd → Instr) (ok : Ty → Bool) (r : Raw) : Dec Instr := do
  let t ← tyR r ok
  let d ← fld 0 r.d (·.dst t.regs)
  let a ← fld 1 r.a (·.isV t.regs)
  .ok (mk r.ctl t d a)

def decShfl (mk : Ctl → SegW → Ty → Opnd → Opnd → Opnd → Instr) (r : Raw) : Dec Instr := do
  noImm r
  let w ← getMod (SegW.ofCode r.opx.toNat)
  let t ← regTy r Ty.isBT
  let d ← fld 0 r.d (·.isV t.regs)
  let a ← fld 1 r.a (·.isV t.regs)
  let b ← fld 2 r.b (·.src d 1)
  .ok (mk r.ctl w t d a b)

def decPred (mk : Ctl → Opnd → Opnd → Opnd → Instr) (r : Raw) : Dec Instr := do
  opx0 r
  let d ← fld 0 r.d (·.isP)
  let a ← fld 1 r.a (·.isP)
  let b ← fld 2 r.b (·.isP)
  .ok (mk r.ctl d a b)

def decVote (mk : Ctl → Opnd → Opnd → Instr) (r : Raw) : Dec Instr := do
  opx0 r
  let d ← fld 0 r.d (fun o => o.isP || o.isS 1)
  let a ← fld 1 r.a (·.isP)
  .ok (mk r.ctl d a)

/-- A branch target (R268): a short immediate in words, or the immediate in bytes. -/
def decTarget (r : Raw) : Dec Target :=
  if r.i then .ok (.rel32 r.imm32)
  else match decodeOpnd r.b with
    | some (.imm v) => .ok (.rel13 v)
    | _ => .error (.opd 2)

/-- A join token (R267). -/
def decToken (r : Raw) : Dec (BitVec 6) :=
  match decodeOpnd r.d with
  | some (.imm v) => if v.toNat < 64 then .ok (BitVec.ofNat 6 v.toNat) else .error (.opd 0)
  | _ => .error (.opd 0)

def decCode (mk : Ctl → Opnd → Instr) (r : Raw) : Dec Instr := do
  plainI r
  let b ← fldBI r (·.code)
  .ok (mk r.ctl b)

/-- LD and ST (R302): the qualifier picks the constructor. -/
def decLd (r : Raw) : Dec Instr := do
  if r.i then do
    let t ← selTy r listMem
    let d ← fld 0 r.d (fun o => o.isV t.regs || o.isS t.regs)
    let a ← fld 1 r.a (·.addr .g)
    chkOpd 0 (d.isV t.regs || !laneBoundAddr a (.imm32 r.imm32))
    .ok (.ld r.ctl { win := .g, expect := .none, ty := t, x4 := false, d := d, a := a,
                     off := .imm32 r.imm32 })
  else do
    let q := (BitVec.extractLsb' 0 3 r.opx).toNat
    let w := Win.ofCode (BitVec.extractLsb' 3 2 r.opx)
    let ex := Expect.ofCode (BitVec.extractLsb' 5 2 r.opx)
    let x4 := r.opx.getLsbD 7
    chkMod (q < 4)
    let t ← regTy r Ty.isMem
    chkMod (!x4 || t == .b32)
    let d ← fld 0 r.d (fun o => o.isV (memRegs t x4) || o.isS (memRegs t x4))
    let a ← fld 1 r.a (·.addr w)
    let off ← fld 2 r.b (fun o => if q == 3 then o.isP else o.offs)
    chkOpd 0 (d.isV (memRegs t x4) || !laneBoundAddr a off)
    let f : LdForm := { win := w, expect := ex, ty := t, x4 := x4, d := d, a := a, off := off }
    match q with
    | 0 => .ok (.ld r.ctl f)
    | 1 => .ok (.ldWait r.ctl f)
    | 2 => .ok (.ldTake r.ctl f)
    | _ => .ok (.ldPeek r.ctl f)

def decSt (r : Raw) : Dec Instr := do
  if r.i then do
    let t ← selTy r listMem
    let d ← fld 0 r.d (fun o => o.isV t.regs || o.isS t.regs || o.isQ || o.isImm)
    let a ← fld 1 r.a (·.addr .g)
    chkOpd 0 (!d.isV 1 || laneBoundAddr a (.imm32 r.imm32))
    .ok (.st r.ctl { win := .g, expect := .none, scope := .sc .sys, ty := t, x4 := false, d := d,
                     a := a, off := .imm32 r.imm32 })
  else do
    let q := (BitVec.extractLsb' 0 3 r.opx).toNat
    let w := Win.ofCode (BitVec.extractLsb' 3 2 r.opx)
    let ex := Expect.ofCode (BitVec.extractLsb' 5 2 r.opx)
    let x4 := r.opx.getLsbD 7
    chkMod (q < 4)
    let sc ← getMod (ScopeSel.ofCode r.scope.toNat)
    let t ← regTy r Ty.isMem
    chkMod (!x4 || t == .b32)
    let d ← fld 0 r.d (fun o => o.isV (memRegs t x4) || o.isS (memRegs t x4)
      || (!x4 && (o.isQ || o.isImm)))
    let a ← fld 1 r.a (·.addr w)
    let off ← fld 2 r.b (fun o => if q == 3 then o.isP else o.offs)
    chkOpd 0 (!d.isV 1 || laneBoundAddr a off)
    let f : StForm := { win := w, expect := ex, scope := sc, ty := t, x4 := x4, d := d, a := a,
                        off := off }
    match q with
    | 0 => .ok (.st r.ctl f)
    | 1 => .ok (.stWait r.ctl f)
    | 2 => .ok (.stTake r.ctl f)
    | _ => .ok (.stPeek r.ctl f)

def decCopyx (r : Raw) : Dec Instr := do
  noImm r
  let x := r.opx.toNat
  chkMod (1 ≤ x && x ≤ 4)
  let sc ← getMod (ScopeSel.ofCode r.scope.toNat)
  let d ← fld 0 r.d (·.isS 2)
  let a ← fld 1 r.a (·.isS 2)
  let b ← fld 2 r.b (·.isS 8)
  match x with
  | 1 => .ok (.copyxT2d r.ctl sc d a b)
  | 2 => .ok (.copyxPack r.ctl sc d a b)
  | 3 => .ok (.copyxUnpack r.ctl sc d a b)
  | _ => .ok (.copyxHadq r.ctl sc d a b)

/-- OPX with only bit 0 assigned. -/
def opxBit (r : Raw) : Dec Bool := do
  noImm r
  chkMod (r.opx.toNat < 2)
  .ok (r.opx.getLsbD 0)

/-- The OPX of MLOAD and MSTORE: layout 0 to `m` and .T, which only .ROW takes (R333). -/
def tileOpx (r : Raw) (m : Nat) : Dec (Nat × Bool) := do
  noImm r
  let l := (BitVec.extractLsb' 0 2 r.opx).toNat
  let tr := r.opx.getLsbD 2
  chkMod (r.opx.toNat < 8 && l ≤ m && (!tr || l == 0))
  .ok (l, tr)

def decTileAcc (mk : Ctl → Bool → Ty → Opnd → Opnd → Opnd → Instr) (r : Raw) : Dec Instr := do
  let (_, tr) ← tileOpx r 0
  let t ← regTy r Ty.isFT
  let d ← fld 0 r.d (·.isA)
  let a ← fld 1 r.a (·.isS 2)
  let b ← fld 2 r.b (·.count 4095)
  .ok (mk r.ctl tr t d a b)

/-! ### The opcode map (Table 11.10) -/

def decodeControl (op : Nat) (r : Raw) : Dec Instr :=
  match op with
  | 0x00 => do opx0 r; .ok (.nop r.ctl)
  | 0x01 => do plainI r; let t ← decTarget r; .ok (.bra r.ctl t)
  | 0x02 => do plainI r; let k ← decToken r; let t ← decTarget r; .ok (.brx r.ctl k t)
  | 0x03 => do opx0 r; let a ← fld 1 r.a (·.isS 2); .ok (.jmp r.ctl a)
  | 0x04 => do plainI r; let k ← decToken r; .ok (.reconv r.ctl k)
  | 0x05 => do plainI r; let d ← fld 0 r.d (·.isS 2); let t ← decTarget r; .ok (.call r.ctl d t)
  | 0x06 => do opx0 r; let d ← fld 0 r.d (·.isS 2); let a ← fld 1 r.a (·.isS 2); .ok (.callr r.ctl d a)
  | 0x07 => do opx0 r; let a ← fld 1 r.a (·.isS 2); .ok (.ret r.ctl a)
  | 0x08 => do opx0 r; .ok (.exit r.ctl)
  | _ => .error .opc

def decodeInteger (op : Nat) (r : Raw) : Dec Instr :=
  match op with
  | 0x00 => do
    let t ← tyRI r Ty.isBT listBT
    let d ← fld 0 r.d (·.dst t.regs)
    let a ← if r.i then .ok (.imm32 r.imm32) else fld 1 r.a (·.src d t.regs)
    .ok (.mov r.ctl t d a)
  | 0x01 => dec3 .iadd Ty.isIT listIT r
  | 0x02 => dec3 .isub Ty.isIT listIT r
  | 0x03 => dec3 .imul Ty.isIT listIT r
  | 0x04 => dec3 .imulh Ty.isIT listIT r
  | 0x05 => dec4 .imad listIT r
  | 0x06 => dec3 .idiv Ty.isIT listIT r
  | 0x07 => dec3 .irem Ty.isIT listIT r
  | 0x08 => dec3 .imin Ty.isIT listIT r
  | 0x09 => dec3 .imax Ty.isIT listIT r
  | 0x0A => dec2 .iabs (fun t => t == .s32 || t == .s64) r
  | 0x0B => dec3 .and Ty.isBT listBT r
  | 0x0C => dec3 .or Ty.isBT listBT r
  | 0x0D => dec3 .xor Ty.isBT listBT r
  | 0x0E => dec2 .not Ty.isBT r
  | 0x0F => decShift .shl r
  | 0x10 => decShift .shr r
  | 0x11 => decShift .shra r
  | 0x12 => decCount .popc Ty.isBT r
  | 0x13 => decCount .clz Ty.isBT r
  | 0x14 => dec2 .brev Ty.isBT r
  | 0x15 => do
    let t ← tyC r listIT
    let d ← fld 0 r.d (·.dst t.regs)
    let a ← fld 1 r.a (·.src d t.regs)
    let b ← fld 2 r.b (·.src d 1)
    let c ← fld 3 r.hi16 (·.src d 1)
    .ok (.bfe r.ctl t d a b c)
  | 0x16 => do
    let t ← tyC r listBT
    let d ← fld 0 r.d (·.dst t.regs)
    let a ← fld 1 r.a (·.src d t.regs)
    let b ← fld 2 r.b (·.src d t.regs)
    let c ← fld 3 r.hi16 (·.src d 1)
    .ok (.bfi r.ctl t d a b c)
  | 0x17 => do
    let t ← tyC r listLea
    let d ← fld 0 r.d (·.dst 2)
    let a ← fld 1 r.a (·.src d 2)
    let b ← fld 2 r.b (·.src d t.regs)
    let c ← fld 3 r.hi16 (·.src d 1)
    .ok (.lea r.ctl t d a b c)
  | 0x18 => do
    let t ← tyC r listBT
    let d ← fld 0 r.d (·.dst t.regs)
    let a ← fld 1 r.a (·.src d t.regs)
    let b ← fld 2 r.b (·.src d t.regs)
    let c ← fld 3 r.hi16 (·.isP)
    .ok (.sel r.ctl t d a b c)
  | 0x19 => do
    let k ← if r.i then .ok .eq else getMod (Cond.ofCode r.opx.toNat)
    chkMod (k != .un && k != .ord)
    let t ← if r.i then selTy r listIT else regTy r Ty.isIT
    let d ← fld 0 r.d (·.isP)
    let a ← fld 1 r.a (·.src d t.regs)
    let b ← fldBI r (·.srcI d t.regs)
    .ok (.icmp r.ctl k t d a b)
  | 0x1A => do
    let u ← opxBit r
    let d ← fld 0 r.d (·.dst 1)
    .ok (.rng r.ctl u d)
  | _ => .error .opc

/-- Group 0x2: `f` is OP div 8, `m` the rounding mode, which some operations fix to RNE (R248). -/
def decodeFloat (f : Nat) (m : Rnd) (r : Raw) : Dec Instr :=
  match f with
  | 0 => dec3 (Instr.fadd · m) Ty.isFT listFT r
  | 1 => dec3 (Instr.fsub · m) Ty.isFT listFT r
  | 2 => dec3 (Instr.fmul · m) Ty.isFT listFT r
  | 3 => dec4 (Instr.ffma · m) listFT r
  | 8 => do
    let t ← tyR r Ty.isFT
    let d ← fld 0 r.d (·.dst t.regs)
    let a ← fld 1 r.a (·.src d t.regs)
    let b ← fld 2 r.b (·.src d t.regs)
    .ok (.fdiv r.ctl m t d a b)
  | 9 => dec2 (Instr.fsqrt · m) Ty.isFT r
  | 4 => if m == .rne then dec3 .fmin Ty.isFT listFT r else .error .opc
  | 5 => if m == .rne then dec3 .fmax Ty.isFT listFT r else .error .opc
  | 6 => if m == .rne then dec2 .fabs Ty.isFT r else .error .opc
  | 7 =>
    if m == .rne then do
      let k ← if r.i then .ok .eq else getMod (Cond.ofCode r.opx.toNat)
      let t ← if r.i then selTy r listFT else regTy r Ty.isFT
      let d ← fld 0 r.d (·.isP)
      let a ← fld 1 r.a (·.src d 1)
      let b ← fldBI r (·.srcI d 1)
      .ok (.fcmp r.ctl k t d a b)
    else .error .opc
  | 10 => if m == .rne then dec2 .frcp Ty.isFT r else .error .opc
  | 11 => if m == .rne then dec2 .frsq Ty.isFT r else .error .opc
  | 12 => if m == .rne then dec2 .fexp2 Ty.isFT r else .error .opc
  | 13 => if m == .rne then dec2 .flog2 Ty.isFT r else .error .opc
  | 14 => if m == .rne then dec2 .fsin Ty.isFT r else .error .opc
  | 15 => if m == .rne then dec2 .fcos Ty.isFT r else .error .opc
  | 16 => if m == .rne then dec2 .ftanh Ty.isFT r else .error .opc
  | 17 => if m == .rne then dec2 .fclass Ty.isFT r else .error .opc
  | _ => .error .opc

/-- Group 0x3 (Table 12.14). -/
def decodeConvert (f : Nat) (m : Rnd) (r : Raw) : Dec Instr :=
  match f with
  | 0 => do
    noImm r
    let dt ← regTy r Ty.isCvt
    let st ← getMod (Ty.ofCode r.opx.toNat)
    chkMod st.isCvt
    let d ← fld 0 r.d (·.dst dt.regs)
    let a ← fld 1 r.a (·.src d st.regs)
    .ok (.cvt r.ctl m dt st d a)
  | 1 => dec2 (Instr.frnd · m) Ty.isFT r
  | 2 => do
    let t ← tyR r Ty.isPk
    let d ← fld 0 r.d (·.dst 1)
    let a ← fld 1 r.a (·.src d 1)
    let b ← fld 2 r.b (·.src d 1)
    .ok (.pkcvt r.ctl m t d a b)
  | 3 =>
    if m == .rne then do
      noImm r
      let t ← regTy r Ty.isPk
      chkMod (r.opx.toNat < (if t == .e4m3 || t == .e5m2 then 4 else 2))
      let d ← fld 0 r.d (·.dst 1)
      let a ← fld 1 r.a (·.src d 1)
      .ok (.unpk r.ctl t (BitVec.ofNat 2 r.opx.toNat) d a)
    else .error .opc
  | _ => .error .opc

def decodeLane (op : Nat) (r : Raw) : Dec Instr :=
  match op with
  | 0x00 => decPred .pand r
  | 0x01 => decPred .por r
  | 0x02 => decPred .pxor r
  | 0x03 => do
    opx0 r
    let d ← fld 0 r.d (fun o => o.isP || o.isS 1)
    let a ← fld 1 r.a (fun o => o.isP || o.isS 1 || o.isImm || (d.isP && o.isV 1))
    .ok (.pmov r.ctl d a)
  | 0x04 => decShfl .shfl r
  | 0x05 => decShfl .shflup r
  | 0x06 => decShfl .shfldn r
  | 0x07 => decShfl .shflx r
  | 0x08 => decVote .voteall r
  | 0x09 => decVote .voteany r
  | 0x0A => do
    opx0 r
    let d ← fld 0 r.d (·.dst 1)
    let a ← fld 1 r.a (·.isP)
    .ok (.ballot r.ctl d a)
  | 0x0B => decRed .redadd isRedTy r
  | 0x0C => decRed .redmin isRedTy r
  | 0x0D => decRed .redmax isRedTy r
  | 0x0E => decRed .redand Ty.isBT r
  | 0x0F => decRed .redor Ty.isBT r
  | 0x10 => do
    let x ← opxBit r
    let t ← regTy r isRedTy
    let d ← fld 0 r.d (·.isV t.regs)
    let a ← fld 1 r.a (·.isV t.regs)
    .ok (.scanadd r.ctl x t d a)
  | 0x11 => do
    let t ← tyR r Ty.isBT
    let d ← fld 0 r.d (·.isV 1)
    let a ← fld 1 r.a (·.isV t.regs)
    .ok (.matchLanes r.ctl t d a)
  | _ => .error .opc

def decodeMemory (op : Nat) (r : Raw) : Dec Instr :=
  match op with
  | 0x00 => decLd r
  | 0x01 => decSt r
  | 0x02 =>
    if r.i then do
      let a ← fld 1 r.a (·.addr .g)
      .ok (.pref r.ctl false .g a (.imm32 r.imm32))
    else do
      chkMod (BitVec.extractLsb' 5 3 r.opx == 0 && BitVec.extractLsb' 1 2 r.opx == 0)
      let w := Win.ofCode (BitVec.extractLsb' 3 2 r.opx)
      let a ← fld 1 r.a (·.addr w)
      let off ← fld 2 r.b (·.offs)
      .ok (.pref r.ctl (r.opx.getLsbD 0) w a off)
  | _ => .error .opc

def decodeSync (op : Nat) (r : Raw) : Dec Instr :=
  match op with
  | 0x00 => do
    noImm r
    chkMod (r.opx.toNat < 64)
    let sc ← getMod (ScopeSel.ofCode r.scope.toNat)
    let o ← getMod (AtomOp.ofCode (BitVec.extractLsb' 0 4 r.opx).toNat)
    let t ← regTy r o.ok
    let w := Win.ofCode (BitVec.extractLsb' 4 2 r.opx)
    let d ← fld 0 r.d (fun x => x.dst t.regs || x.isNone)
    let a ← fld 1 r.a (·.addr w)
    let b ← fld 2 r.b (fun x => if o == .cas then x.dst (2 * t.regs)
      else x.dst t.regs || x.isQ || x.isImm)
    .ok (.atom r.ctl o w sc (Ord4.ofCode r.ord) t d a b)
  | 0x01 => do
    noImm r
    chkMod (r.opx.toNat < 16)
    let sc ← getMod (ScopeSel.ofCode r.scope.toNat)
    .ok (.fence r.ctl sc (BitVec.extractLsb' 0 4 r.opx))
  | 0x02 => do
    plainI r
    let sc ← scopeI r
    let b ← fldBI r (fun x => x.isS 1 || x.immUpTo 15 || x.imm32UpTo 15)
    .ok (.bar r.ctl sc b)
  | 0x03 => do
    plainI r
    let k ← match decodeOpnd r.a with
      | some (.imm v) => match CtrClass.ofCode v.toNat with
        | some k => .ok k
        | none => .error (.opd 1)
      | _ => .error (.opd 1)
    let b ← fldBI r (fun x => x.isS 1 || x.immUpTo 255 || x.imm32UpTo 255)
    .ok (.waitc r.ctl k b)
  | 0x04 => do
    opx0 r
    let d ← fld 0 r.d (·.isV 1)
    let a ← fld 1 r.a (·.isS 1)
    let b ← fld 2 r.b (·.isS 1)
    .ok (.stageIn r.ctl d a b)
  | 0x05 => do
    opx0 r
    let d ← fld 0 r.d (·.isV 1)
    let a ← fld 1 r.a (·.isS 1)
    let b ← fld 2 r.b (·.isS 1)
    .ok (.stageOut r.ctl d a b)
  | 0x06 => do
    plainI r
    let d ← fld 0 r.d (·.isS 2)
    let b ← fldBI r (fun x => x.isS 1 || x.isImm || x.isImm32)
    .ok (.cjoin r.ctl d b)
  | 0x07 => do
    opx0 r
    let d ← fld 0 r.d (·.isS 1)
    .ok (.cleave r.ctl d)
  | _ => .error .opc

def decodeCopy (op : Nat) (r : Raw) : Dec Instr :=
  match op with
  | 0x00 => do
    opx0 r
    let sc ← getMod (ScopeSel.ofCode r.scope.toNat)
    let d ← fld 0 r.d (·.isS 2)
    let a ← fld 1 r.a (·.isS 2)
    let b ← fld 2 r.b (·.count 4095)
    .ok (.copy r.ctl sc d a b)
  | 0x01 => decCopyx r
  | 0x02 => do
    let p ← opxBit r
    let a ← fld 1 r.a (·.isS 2)
    let b ← fld 2 r.b (·.count 4095)
    .ok (.resolve r.ctl p a b)
  | 0x03 => do
    let p ← opxBit r
    let d ← fld 0 r.d (·.isS 4)
    let a ← fld 1 r.a (·.isS 2)
    .ok (.pnq r.ctl p d a)
  | 0x04 => do
    let p ← opxBit r
    let sc ← getMod (ScopeSel.ofCode r.scope.toNat)
    let a ← fld 1 r.a (·.isS 2)
    let b ← fld 2 r.b (·.count 4095)
    .ok (.pndrop r.ctl p sc a b)
  | _ => .error .opc

def decodeTile (op : Nat) (r : Raw) : Dec Instr :=
  match op with
  | 0x00 => do
    let (l, tr) ← tileOpx r 2
    match l with
    | 0 => do
      let t ← regTy r Ty.isTile
      let d ← fld 0 r.d (·.isM)
      let a ← fld 1 r.a (·.isS 2)
      let b ← fld 2 r.b (·.count 4095)
      .ok (.mloadRow r.ctl tr t d a b)
    | 1 => do
      let d ← fld 0 r.d (·.isM)
      let a ← fld 1 r.a (·.isS 2)
      let b ← fld 2 r.b (·.count 32)
      .ok (.mloadFact r.ctl d a b)
    | _ => do
      let d ← fld 0 r.d (·.isM)
      let a ← fld 1 r.a (·.isS 2)
      let b ← fld 2 r.b (·.isS 1)
      .ok (.mloadBlk r.ctl d a b)
  | 0x01 => do
    let (l, tr) ← tileOpx r 1
    match l with
    | 0 => do
      let t ← regTy r Ty.isTile
      let d ← fld 0 r.d (·.isM)
      let a ← fld 1 r.a (·.isS 2)
      let b ← fld 2 r.b (·.count 4095)
      .ok (.mstoreRow r.ctl tr t d a b)
    | _ => do
      let d ← fld 0 r.d (·.isM)
      let a ← fld 1 r.a (·.isS 2)
      .ok (.mstoreFact r.ctl d a)
  | 0x02 => do
    noImm r
    chkMod (r.opx.toNat < 4)
    let d ← fld 0 r.d (·.isMA)
    let a ← fld 1 r.a (·.isMA)
    let b ← fld 2 r.b (·.isMA)
    .ok (.mma r.ctl (r.opx.getLsbD 0) (r.opx.getLsbD 1) d a b)
  | 0x03 => do
    opx0 r
    let d ← fld 0 r.d (·.isMA)
    let a ← fld 1 r.a (·.isMA)
    let b ← fld 2 r.b (·.isMA)
    .ok (.madd r.ctl d a b)
  | 0x04 => do
    opx0 r
    let d ← fld 0 r.d (·.isM)
    let a ← fld 1 r.a (·.isM)
    .ok (.recomp r.ctl d a)
  | 0x05 => do
    opx0 r
    let d ← fld 0 r.d (·.isM)
    let a ← fld 1 r.a (·.isM)
    .ok (.mdense r.ctl d a)
  | 0x06 => do
    let cap ← opxBit r
    if cap then do
      let d ← fld 0 r.d (·.isM)
      let b ← fld 2 r.b (·.count 32)
      .ok (.mrankCap r.ctl d b)
    else do
      let d ← fld 0 r.d (·.isS 1)
      let a ← fld 1 r.a (·.isMA)
      .ok (.mrankGet r.ctl d a)
  | 0x07 => do opx0 r; let d ← fld 0 r.d (·.isM); .ok (.mzero r.ctl d)
  | 0x08 => do
    opx0 r
    let d ← fld 0 r.d (·.isM)
    let a ← fld 1 r.a (·.isM)
    .ok (.mmov r.ctl d a)
  | 0x09 => decTileAcc .aload r
  | 0x0A => decTileAcc .astore r
  | 0x0B => do opx0 r; let d ← fld 0 r.d (·.isA); .ok (.azero r.ctl d)
  | 0x0C => do
    opx0 r
    let d ← fld 0 r.d (·.isMA)
    let a ← fld 1 r.a (fun o => (d.isM && o.isA) || (d.isA && o.isM))
    .ok (.amov r.ctl d a)
  | _ => .error .opc

def decodeTransform (op : Nat) (r : Raw) : Dec Instr :=
  match op with
  | 0x00 => do
    noImm r
    match r.opx.toNat with
    | 0 => do
      let d ← fld 0 r.d (·.dst 1)
      let a ← fld 1 r.a (·.vRange 8)
      let b ← fld 2 r.b (·.isS 4)
      .ok (.xformQ r.ctl d a b)
    | 1 => do
      let d ← fld 0 r.d (fun o => o.vRange 8 || o.isS 1)
      let a ← fld 1 r.a (·.isV 1)
      let b ← fld 2 r.b (·.isS 4)
      .ok (.xformDq r.ctl d a b)
    | 2 => do
      let d ← fld 0 r.d (fun o => o.vRange 8 || o.isS 1)
      let a ← fld 1 r.a (·.vRange 8)
      let b ← fld 2 r.b (·.isS 4)
      .ok (.xformHad r.ctl d a b)
    | _ => .error .mod
  | 0x01 => do
    noImm r
    let q ← match r.opx.toNat with
      | 0 => .ok DecQual.none
      | 1 => .ok DecQual.wait
      | 2 => .ok DecQual.take
      | _ => .error BadCause.mod
    let d ← fld 0 r.d (·.dst 1)
    let a ← fld 1 r.a (·.isS 1)
    let b ← fld 2 r.b (·.isS 2)
    .ok (.decodeBlk r.ctl q d a b)
  | _ => .error .opc

def decodeToken (op : Nat) (r : Raw) : Dec Instr :=
  match op with
  | 0x00 => do
    let rel ← opxBit r
    let d ← fld 0 r.d (·.isS 1)
    let a ← fld 1 r.a (·.isS 4)
    if rel then .ok (.admitRel r.ctl d a)
    else do
      let b ← fld 2 r.b (·.isS 4)
      .ok (.admitSeq r.ctl d a b)
  | 0x01 => do
    opx0 r
    let d ← fld 0 r.d (·.isS 1)
    let a ← fld 1 r.a (·.isS 4)
    let b ← fld 2 r.b (·.isS 2)
    .ok (.kvapp r.ctl d a b)
  | 0x02 => do
    noImm r
    chkMod (r.opx.toNat < 128)
    let k := BitVec.extractLsb' 2 5 r.opx
    let d ← fld 0 r.d (·.vRange (k.toNat + 3))
    let a ← fld 1 r.a (·.isS 4)
    let b ← fld 2 r.b (fun o => o.isV 1 || o.isS 1 || o.immUpTo 4095)
    .ok (.kvld r.ctl (r.opx.getLsbD 0) (r.opx.getLsbD 1) k d a b)
  | 0x03 => do opx0 r; let a ← fld 1 r.a (·.isS 4); .ok (.kvseal r.ctl a)
  | 0x04 => do
    plainI r
    let a ← fld 1 r.a (·.isS 4)
    let b ← fldBI r (·.tag)
    .ok (.span r.ctl a b)
  | 0x05 => do
    plainI r
    let a ← fld 1 r.a (·.isS 4)
    let b ← fldBI r (·.tag)
    .ok (.spanret r.ctl a b)
  | 0x06 => do
    opx0 r
    let a ← fld 1 r.a (·.isS 4)
    let b ← fld 2 r.b (·.count 4095)
    .ok (.window r.ctl a b)
  | 0x07 => do
    noImm r
    let k := BitVec.extractLsb' 2 5 r.opx
    chkMod (BitVec.extractLsb' 0 2 r.opx == 0 && r.opx.toNat < 128 && k.toNat % 2 == 1)
    let d ← fld 0 r.d (·.vRange (k.toNat + 1))
    let a ← fld 1 r.a (·.vRange (k.toNat + 2))
    let b ← fld 2 r.b (·.isS 4)
    .ok (.rope r.ctl k d a b)
  | _ => .error .opc

/-- A port in field D (R363). -/
def decPort (r : Raw) : Dec (BitVec 2) :=
  match decodeOpnd r.d with
  | some (.q _ _ j) => .ok j
  | _ => .error (.opd 0)

def decodeAp (op : Nat) (r : Raw) : Dec Instr :=
  match op with
  | 0x00 => do
    opx0 r
    let a ← fld 1 r.a (fun o => o.isS 8 && (match o with | .s _ _ i => i.toNat ≤ 120 | _ => false))
    .ok (.nest r.ctl a)
  | 0x01 => do
    opx0 r
    let q ← decPort r
    let b ← fld 2 r.b (fun o => o.isS 1 || o.isImm)
    .ok (.apsend r.ctl q b)
  | 0x02 => do
    plainI r
    let q ← decPort r
    let b ← fldBI r (fun o => o.isS 1 || o.immUpTo 4095 || o.isImm32)
    .ok (.apermit r.ctl q b)
  | _ => .error .opc

/-- RGIVE and RCLAIM (R327): the immediate form selects the .V pool. -/
def decPool (mk : Ctl → Pool → Opnd → Instr) (r : Raw) : Dec Instr := do
  chkMod (if r.i then r.tsel == 0 else r.opx.toNat < 2)
  let pool := if !r.i && r.opx.getLsbD 0 then Pool.m else Pool.v
  let b ← fldBI r (fun o => o.isS 1 || o.immUpTo 4095 || o.imm32UpTo 0x7FFFFFFF)
  .ok (mk r.ctl pool b)

def decodeSystem (op : Nat) (r : Raw) : Dec Instr :=
  match op with
  | 0x00 => do
    opx0 r
    let d ← fld 0 r.d (·.isS 2)
    let a ← fld 1 r.a (·.isS 2)
    .ok (.launch r.ctl d a)
  | 0x01 => decCode .trap r
  | 0x02 => do
    let retry ← opxBit r
    .ok (if retry then .eretRetry r.ctl else .eret r.ctl)
  | 0x03 => decCode .svc r
  | 0x04 => do
    plainI r
    let d ← fld 0 r.d (·.dst 1)
    let b ← fldBI r (fun o => match srNumber o with
      | some n => (srWidth n).isSome
      | none => false)
    chkOpd 0 (match srNumber b with
      | some n => getsrDst n d
      | none => false)
    .ok (.getsr r.ctl d b)
  | 0x05 => do
    plainI r
    let n ← match decodeOpnd r.d with
      | some (.imm v) => if (srWidth v.toNat).isSome then .ok v else .error (.opd 0)
      | _ => .error (.opd 0)
    let b ← fldBI r (setsrSrc n.toNat ·)
    .ok (.setsr r.ctl n b)
  | 0x06 => decCode .bkpt r
  | 0x07 => do
    opx0 r
    let a ← fld 1 r.a (fun o => o.isS 1 || o.isImm)
    .ok (.sample r.ctl a)
  | 0x08 => decPool .rgive r
  | 0x09 => decPool .rclaim r
  | _ => .error .opc

/-- The whole map (R256): an assigned word's instruction, or why it is none. -/
def decodeRaw (r : Raw) : Dec Instr :=
  let op := (BitVec.extractLsb' 0 8 r.opc).toNat
  let byRnd (f : Nat → Rnd → Raw → Dec Instr) : Dec Instr :=
    match Rnd.ofCode (op % 8) with
    | some m => f (op / 8) m r
    | none => .error .opc
  match (BitVec.extractLsb' 8 4 r.opc).toNat with
  | 0x0 => decodeControl op r
  | 0x1 => decodeInteger op r
  | 0x2 => byRnd decodeFloat
  | 0x3 => byRnd decodeConvert
  | 0x4 => decodeLane op r
  | 0x5 => decodeMemory op r
  | 0x6 => decodeSync op r
  | 0x7 => decodeCopy op r
  | 0x8 => decodeTile op r
  | 0x9 => decodeTransform op r
  | 0xA => decodeToken op r
  | 0xB => decodeAp op r
  | 0xC => decodeSystem op r
  | _ => .error .opc

/-- The instruction of a word (R257, R258). -/
def decode (w : BitVec 96) : Instr :=
  if wordGroup w = 0xF then .hintRegionWord w
  else match decodeRaw (Raw.ofWord w) with
    | .ok i => i
    | .error _ => .notAnInstruction w

/-- Why a word raises an encoding cause; none where it does not. -/
def badCause (w : BitVec 96) : Option BadCause :=
  match decodeRaw (Raw.ofWord w) with
  | .ok _ => none
  | .error e => some e

/-- The word that twelve bytes form, the first at the lowest address (R239). -/
def wordOfBytes (bs : List Byte) : BitVec 96 := BitVec.ofNat 96 (natOfBytes bs)

/-- The instruction at the front of a list of bytes and the bytes behind it; none for fewer than 12. -/
def decodeBytes (bs : List Byte) : Option (Instr × List Byte) :=
  if bs.length < 12 then none else some (decode (wordOfBytes (bs.take 12)), bs.drop 12)

/-- The instruction the decoder reads from an instruction whose bits are `w`, laid out as the hardware
stores it: twelve bytes, least significant first. An opcode-table row covers at most the 96 bits. -/
def decodeTableWord (nbits w : Nat) : Option Instr :=
  (decodeBytes (bytesOfNat 12 (w % 2 ^ nbits))).map (·.1)

/-! ### The encoder -/

def modReg (scope : BitVec 4) (ord : BitVec 2) (ty : BitVec 4) (opx : BitVec 8) : BitVec 18 :=
  scope ++ ord ++ ty ++ opx

def modHi (hi : BitVec 16) (tsel : BitVec 2) : BitVec 18 := hi ++ tsel

/-- A word with everything but the guard and hints filled in. -/
def mkRaw (c : Ctl) (opc : BitVec 12) (d a b : BitVec 16) (mod : BitVec 18) (i : Bool) : Raw :=
  { opc := opc, d := d, a := a, b := b,
    gpred := match c.guard with | .always => 0 | .pred _ p => p,
    ginv := match c.guard with | .always => false | .pred inv _ => inv,
    gen := match c.guard with | .always => false | .pred .. => true,
    hint := hintBits c.hint, mod := mod, i := i }

/-- The register form. -/
def encR (c : Ctl) (opc : BitVec 12) (d a b : Opnd) (mod : BitVec 18) : Raw :=
  mkRaw c opc (encodeOpnd d) (encodeOpnd a) (encodeOpnd b) mod false

/-- The register form, or the immediate form where B is a 32-bit immediate (R246). -/
def encI (c : Ctl) (opc : BitVec 12) (d a b : Opnd) (mod : BitVec 18) (tsel : BitVec 2) : Raw :=
  match b with
  | .imm32 v =>
    mkRaw c opc (encodeOpnd d) (encodeOpnd a) (encodeOpnd b) (modHi (BitVec.extractLsb' 16 16 v) tsel) true
  | _ => encR c opc d a b mod

/-- The three-source form. -/
def encC (c : Ctl) (opc : BitVec 12) (d a b cc : Opnd) (tsel : BitVec 2) : Raw :=
  mkRaw c opc (encodeOpnd d) (encodeOpnd a) (encodeOpnd b) (modHi (encodeOpnd cc) tsel) false

def modTy (t : Ty) (opx : BitVec 8) : BitVec 18 := modReg 0 0 t.code opx
def modX (opx : BitVec 8) : BitVec 18 := modReg 0 0 0 opx
def modSc (s : ScopeSel) (opx : BitVec 8) : BitVec 18 := modReg s.code 0 0 opx

def targetOpnd : Target → Opnd
  | .rel13 v => .imm v
  | .rel32 v => .imm32 v

/-- A token or a small number as a short immediate. -/
def immOf (n : Nat) : Opnd := .imm (BitVec.ofNat 13 n)

def rndOpc (base : Nat) (m : Rnd) : BitVec 12 := BitVec.ofNat 12 (base + m.code)

def ldOpx (q : BitVec 3) (w : Win) (e : Expect) (x4 : Bool) : BitVec 8 :=
  BitVec.ofBool x4 ++ e.code ++ w.code ++ q

def encLd (c : Ctl) (q : BitVec 3) (f : LdForm) : Raw :=
  encI c 0x500 f.d f.a f.off (modTy f.ty (ldOpx q f.win f.expect f.x4)) (tselOf listMem f.ty)

def encSt (c : Ctl) (q : BitVec 3) (f : StForm) : Raw :=
  encI c 0x501 f.d f.a f.off (modReg f.scope.code 0 f.ty.code (ldOpx q f.win f.expect f.x4))
    (tselOf listMem f.ty)

def boolOpx (b : Bool) : BitVec 8 := if b then 1 else 0

/-- The opcode table's words: the fields of a well-formed instruction (Tables 12.4 to 15.9). Events
have no word; they answer the NOP word. -/
def encodeRaw : Instr → Raw
  | .nop c => encR c 0x000 .none .none .none 0
  | .bra c t => encI c 0x001 .none .none (targetOpnd t) 0 0
  | .brx c k t => encI c 0x002 (immOf k.toNat) .none (targetOpnd t) 0 0
  | .jmp c a => encR c 0x003 .none a .none 0
  | .reconv c k => encR c 0x004 (immOf k.toNat) .none .none 0
  | .call c d t => encI c 0x005 d .none (targetOpnd t) 0 0
  | .callr c d a => encR c 0x006 d a .none 0
  | .ret c a => encR c 0x007 .none a .none 0
  | .exit c => encR c 0x008 .none .none .none 0
  | .mov c t d a => match a with
    | .imm32 v => encI c 0x100 d .none (.imm32 v) 0 (tselOf listBT t)
    | _ => encR c 0x100 d a .none (modTy t 0)
  | .iadd c t d a b => encI c 0x101 d a b (modTy t 0) (tselOf listIT t)
  | .isub c t d a b => encI c 0x102 d a b (modTy t 0) (tselOf listIT t)
  | .imul c t d a b => encI c 0x103 d a b (modTy t 0) (tselOf listIT t)
  | .imulh c t d a b => encI c 0x104 d a b (modTy t 0) (tselOf listIT t)
  | .imad c t d a b cc => encC c 0x105 d a b cc (tselOf listIT t)
  | .idiv c t d a b => encI c 0x106 d a b (modTy t 0) (tselOf listIT t)
  | .irem c t d a b => encI c 0x107 d a b (modTy t 0) (tselOf listIT t)
  | .imin c t d a b => encI c 0x108 d a b (modTy t 0) (tselOf listIT t)
  | .imax c t d a b => encI c 0x109 d a b (modTy t 0) (tselOf listIT t)
  | .iabs c t d a => encR c 0x10A d a .none (modTy t 0)
  | .and c t d a b => encI c 0x10B d a b (modTy t 0) (tselOf listBT t)
  | .or c t d a b => encI c 0x10C d a b (modTy t 0) (tselOf listBT t)
  | .xor c t d a b => encI c 0x10D d a b (modTy t 0) (tselOf listBT t)
  | .not c t d a => encR c 0x10E d a .none (modTy t 0)
  | .shl c t d a b => encI c 0x10F d a b (modTy t 0) (tselOf listIT t)
  | .shr c t d a b => encI c 0x110 d a b (modTy t 0) (tselOf listIT t)
  | .shra c t d a b => encI c 0x111 d a b (modTy t 0) (tselOf listIT t)
  | .popc c t d a => encR c 0x112 d a .none (modTy t 0)
  | .clz c t d a => encR c 0x113 d a .none (modTy t 0)
  | .brev c t d a => encR c 0x114 d a .none (modTy t 0)
  | .bfe c t d a b cc => encC c 0x115 d a b cc (tselOf listIT t)
  | .bfi c t d a b cc => encC c 0x116 d a b cc (tselOf listBT t)
  | .lea c t d a b cc => encC c 0x117 d a b cc (tselOf listLea t)
  | .sel c t d a b cc => encC c 0x118 d a b cc (tselOf listBT t)
  | .icmp c k t d a b => encI c 0x119 d a b (modTy t k.code) (tselOf listIT t)
  | .rng c u d => encR c 0x11A d .none .none (modX (boolOpx u))
  | .fadd c m t d a b => encI c (rndOpc 0x200 m) d a b (modTy t 0) (tselOf listFT t)
  | .fsub c m t d a b => encI c (rndOpc 0x208 m) d a b (modTy t 0) (tselOf listFT t)
  | .fmul c m t d a b => encI c (rndOpc 0x210 m) d a b (modTy t 0) (tselOf listFT t)
  | .ffma c m t d a b cc => encC c (rndOpc 0x218 m) d a b cc (tselOf listFT t)
  | .fmin c t d a b => encI c 0x220 d a b (modTy t 0) (tselOf listFT t)
  | .fmax c t d a b => encI c 0x228 d a b (modTy t 0) (tselOf listFT t)
  | .fabs c t d a => encR c 0x230 d a .none (modTy t 0)
  | .fcmp c k t d a b => encI c 0x238 d a b (modTy t k.code) (tselOf listFT t)
  | .fdiv c m t d a b => encR c (rndOpc 0x240 m) d a b (modTy t 0)
  | .fsqrt c m t d a => encR c (rndOpc 0x248 m) d a .none (modTy t 0)
  | .frcp c t d a => encR c 0x250 d a .none (modTy t 0)
  | .frsq c t d a => encR c 0x258 d a .none (modTy t 0)
  | .fexp2 c t d a => encR c 0x260 d a .none (modTy t 0)
  | .flog2 c t d a => encR c 0x268 d a .none (modTy t 0)
  | .fsin c t d a => encR c 0x270 d a .none (modTy t 0)
  | .fcos c t d a => encR c 0x278 d a .none (modTy t 0)
  | .ftanh c t d a => encR c 0x280 d a .none (modTy t 0)
  | .fclass c t d a => encR c 0x288 d a .none (modTy t 0)
  | .cvt c m dt sty d a => encR c (rndOpc 0x300 m) d a .none (modTy dt (sty.code.setWidth 8))
  | .frnd c m t d a => encR c (rndOpc 0x308 m) d a .none (modTy t 0)
  | .pkcvt c m t d a b => encR c (rndOpc 0x310 m) d a b (modTy t 0)
  | .unpk c t k d a => encR c 0x318 d a .none (modTy t (k.setWidth 8))
  | .pand c d a b => encR c 0x400 d a b 0
  | .por c d a b => encR c 0x401 d a b 0
  | .pxor c d a b => encR c 0x402 d a b 0
  | .pmov c d a => encR c 0x403 d a .none 0
  | .shfl c w t d a b => encR c 0x404 d a b (modTy t w.code)
  | .shflup c w t d a b => encR c 0x405 d a b (modTy t w.code)
  | .shfldn c w t d a b => encR c 0x406 d a b (modTy t w.code)
  | .shflx c w t d a b => encR c 0x407 d a b (modTy t w.code)
  | .voteall c d a => encR c 0x408 d a .none 0
  | .voteany c d a => encR c 0x409 d a .none 0
  | .ballot c d a => encR c 0x40A d a .none 0
  | .redadd c t d a => encR c 0x40B d a .none (modTy t 0)
  | .redmin c t d a => encR c 0x40C d a .none (modTy t 0)
  | .redmax c t d a => encR c 0x40D d a .none (modTy t 0)
  | .redand c t d a => encR c 0x40E d a .none (modTy t 0)
  | .redor c t d a => encR c 0x40F d a .none (modTy t 0)
  | .scanadd c x t d a => encR c 0x410 d a .none (modTy t (boolOpx x))
  | .matchLanes c t d a => encR c 0x411 d a .none (modTy t 0)
  | .ld c f => encLd c 0 f
  | .ldWait c f => encLd c 1 f
  | .ldTake c f => encLd c 2 f
  | .ldPeek c f => encLd c 3 f
  | .st c f => encSt c 0 f
  | .stWait c f => encSt c 1 f
  | .stTake c f => encSt c 2 f
  | .stPeek c f => encSt c 3 f
  | .pref c x w a off =>
    encI c 0x502 .none a off (modX ((0 : BitVec 3) ++ w.code ++ (0 : BitVec 2) ++ BitVec.ofBool x)) 0
  | .atom c op w sc o t d a b =>
    encR c 0x600 d a b (modReg sc.code o.code t.code ((0 : BitVec 2) ++ w.code ++ op.code))
  | .fence c sc cl => encR c 0x601 .none .none .none (modSc sc (cl.setWidth 8))
  | .bar c sc b => encI c 0x602 .none .none b (modSc sc 0) 0
  | .waitc c k b => encI c 0x603 .none (.imm k.code) b 0 0
  | .stageIn c d a b => encR c 0x604 d a b 0
  | .stageOut c d a b => encR c 0x605 d a b 0
  | .cjoin c d b => encI c 0x606 d .none b 0 0
  | .cleave c d => encR c 0x607 d .none .none 0
  | .copy c sc d a b => encR c 0x700 d a b (modSc sc 0)
  | .copyxT2d c sc d a b => encR c 0x701 d a b (modSc sc 1)
  | .copyxPack c sc d a b => encR c 0x701 d a b (modSc sc 2)
  | .copyxUnpack c sc d a b => encR c 0x701 d a b (modSc sc 3)
  | .copyxHadq c sc d a b => encR c 0x701 d a b (modSc sc 4)
  | .resolve c pa a b => encR c 0x702 .none a b (modX (boolOpx pa))
  | .pnq c pa d a => encR c 0x703 d a .none (modX (boolOpx pa))
  | .pndrop c pa sc a b => encR c 0x704 .none a b (modSc sc (boolOpx pa))
  | .mloadRow c tr t d a b => encR c 0x800 d a b (modTy t (if tr then 4 else 0))
  | .mloadFact c d a b => encR c 0x800 d a b (modX 1)
  | .mloadBlk c d a b => encR c 0x800 d a b (modX 2)
  | .mstoreRow c tr t d a b => encR c 0x801 d a b (modTy t (if tr then 4 else 0))
  | .mstoreFact c d a => encR c 0x801 d a .none (modX 1)
  | .mma c ta tb d a b => encR c 0x802 d a b (modX ((0 : BitVec 6) ++ BitVec.ofBool tb ++ BitVec.ofBool ta))
  | .madd c d a b => encR c 0x803 d a b 0
  | .recomp c d a => encR c 0x804 d a .none 0
  | .mdense c d a => encR c 0x805 d a .none 0
  | .mrankGet c d a => encR c 0x806 d a .none 0
  | .mrankCap c d b => encR c 0x806 d .none b (modX 1)
  | .mzero c d => encR c 0x807 d .none .none 0
  | .mmov c d a => encR c 0x808 d a .none 0
  | .aload c tr t d a b => encR c 0x809 d a b (modTy t (if tr then 4 else 0))
  | .astore c tr t d a b => encR c 0x80A d a b (modTy t (if tr then 4 else 0))
  | .azero c d => encR c 0x80B d .none .none 0
  | .amov c d a => encR c 0x80C d a .none 0
  | .xformQ c d a b => encR c 0x900 d a b 0
  | .xformDq c d a b => encR c 0x900 d a b (modX 1)
  | .xformHad c d a b => encR c 0x900 d a b (modX 2)
  | .decodeBlk c q d a b =>
    encR c 0x901 d a b (modX (match q with | .none => 0 | .wait => 1 | .take => 2))
  | .admitSeq c d a b => encR c 0xA00 d a b 0
  | .admitRel c d a => encR c 0xA00 d a .none (modX 1)
  | .kvapp c d a b => encR c 0xA01 d a b 0
  | .kvld c isV fe k d a b =>
    encR c 0xA02 d a b (modX ((0 : BitVec 1) ++ k ++ BitVec.ofBool fe ++ BitVec.ofBool isV))
  | .kvseal c a => encR c 0xA03 .none a .none 0
  | .span c a b => encI c 0xA04 .none a b 0 0
  | .spanret c a b => encI c 0xA05 .none a b 0 0
  | .window c a b => encR c 0xA06 .none a b 0
  | .rope c k d a b => encR c 0xA07 d a b (modX ((0 : BitVec 1) ++ k ++ (0 : BitVec 2)))
  | .nest c a => encR c 0xB00 .none a .none 0
  | .apsend c q b => encR c 0xB01 (.q false false q) .none b 0
  | .apermit c q b => encI c 0xB02 (.q false false q) .none b 0 0
  | .launch c d a => encR c 0xC00 d a .none 0
  | .trap c b => encI c 0xC01 .none .none b 0 0
  | .eret c => encR c 0xC02 .none .none .none 0
  | .eretRetry c => encR c 0xC02 .none .none .none (modX 1)
  | .svc c b => encI c 0xC03 .none .none b 0 0
  | .getsr c d b => encI c 0xC04 d .none b 0 0
  | .setsr c n b => encI c 0xC05 (.imm n) .none b 0 0
  | .bkpt c b => encI c 0xC06 .none .none b 0 0
  | .sample c a => encR c 0xC07 .none a .none 0
  | .rgive c pool b => encI c 0xC08 .none .none b (modX (match pool with | .v => 0 | .m => 1)) 0
  | .rclaim c pool b => encI c 0xC09 .none .none b (modX (match pool with | .v => 0 | .m => 1)) 0
  | .hintRegionWord w => Raw.ofWord w
  | .notAnInstruction w => Raw.ofWord w
  | _ => encR { guard := .always, hint := { pair := false, yield := false, split := false, skip := false,
                                            reuseA := false, reuseB := false, stall := 0 } }
           0x000 .none .none .none 0

/-- The word of an instruction. -/
def encode (i : Instr) : BitVec 96 := (encodeRaw i).toWord

/-- Whether the constructor is an event, which has no word. -/
def Instr.isEvent (i : Instr) : Bool :=
  match i with
  | .nop _ => false
  | .hintRegionWord _ => false
  | .notAnInstruction _ => false
  | _ => (encodeRaw i).opc == 0

end Sys2Proof
end

