-- ==== Sys2Proof/Config.lean ====
section
/-!
DEFINITION. What an implementation fixes and what the manual leaves open, as constants without a
value: nothing can be proved of them but what holds for every value.
-/
namespace Sys2Proof.Config

/-- Free values: the n-th value the manual leaves open, up to 1024 bits wide. `State.fresh` counts
them. -/
opaque freeRow : Nat → Row

/-- SHA3-256 of a byte string (FIPS 202), which the manual names and does not define (R430, R431). -/
opaque sha3 : List Byte → BitVec 256

/-- ML-DSA-44 verification (FIPS 204): key, digest, signature (R430). -/
opaque mldsaVerify : List Byte → BitVec 256 → List Byte → Bool

/-- The device's ML-DSA-44 attestation signature over a digest, 2420 bytes (R431). -/
opaque mldsaSign : BitVec 256 → List Byte

/-- Whether HBM stack `s` of die `d` passes its training at boot (R430, R433). -/
opaque stackTrains : Nat → Nat → Bool

/-- What the control firmware sets at boot (R430): sr.CTXBASE, the handler-table entry of a context,
the frames of a die's pool, and the list registers of Stacker `g` of die `d` (FRBASE, FRLIM, RLBASE,
RLLIM numbered 0 to 3). The images that decide them are not in the manual. -/
opaque bootCtxbase : DWord
opaque bootHandler : Nat → DWord
opaque bootFrames : Nat → List Nat
opaque bootStacker : Nat → Nat → Nat → DWord
opaque bootSalv : Nat → Nat → DWord

/-- What the firmware extends MEAS3 to MEAS7 with, if anything (R430). -/
opaque bootMeas : Nat → Option (BitVec 256)

/-- Bits of a formed block that its format code does not use (Table 10.9): the manual says that readers
ignore them and not what a writer puts there. A function of the code and the elements. -/
opaque blockPad : Nat → List Nat → BitVec 512

end Sys2Proof.Config
end

