-- ==== Sys2Proof/Machine/Float.lean ====
section
/-!
DEFINITION. Number formats and arithmetic (R217 to R223, R281 to R283, R287 to R289): exact values,
one rounding, flags. Values are exact: a finite number is a sign, a natural significand and a power of
two; rounding to a format happens once, in `roundTo`.
-/
namespace Sys2Proof

/-! ### Flags (Table 10.5) -/

def flNV : Word := 1
def flDZ : Word := 2
def flOV : Word := 4
def flUF : Word := 8
def flNX : Word := 16
def flAO : Word := 32

/-- An exact value: a NaN, an infinity, or ±m·2^e. -/
inductive FVal where
  | nan (signalling : Bool)
  | inf (neg : Bool)
  | fin (neg : Bool) (m : Nat) (e : Int)
  deriving DecidableEq, Repr

/-- A binary format of Table 10.1: exponent and fraction bits, bias, largest finite pattern, whether it
has infinities. -/
structure Fmt where
  eb : Nat
  mb : Nat
  bias : Nat
  maxFin : Nat
  hasInf : Bool
  nan : Nat
  deriving DecidableEq, Repr

def fmt32 : Fmt := { eb := 8, mb := 23, bias := 127, maxFin := 0x7F7FFFFF, hasInf := true, nan := 0x7FC00000 }
def fmt16 : Fmt := { eb := 5, mb := 10, bias := 15, maxFin := 0x7BFF, hasInf := true, nan := 0x7E00 }
def fmtB16 : Fmt := { eb := 8, mb := 7, bias := 127, maxFin := 0x7F7F, hasInf := true, nan := 0x7FC0 }
def fmtE4 : Fmt := { eb := 4, mb := 3, bias := 7, maxFin := 0x7E, hasInf := false, nan := 0x7F }
def fmtE5 : Fmt := { eb := 5, mb := 2, bias := 15, maxFin := 0x7B, hasInf := true, nan := 0x7E }

/-- The float format a type names; FP32 for the types that are not floats. -/
def Ty.fmt : Ty → Fmt
  | .f16 => fmt16
  | .bf16 => fmtB16
  | .e4m3 => fmtE4
  | .e5m2 => fmtE5
  | _ => fmt32

def Ty.isFloat : Ty → Bool
  | .f32 | .f16 | .bf16 | .e4m3 | .e5m2 => true
  | _ => false

/-- Bits of an element of the type (R244, R300). -/
def Ty.bits : Ty → Nat
  | .e4m3 | .e5m2 | .s8 | .u8 => 8
  | .f16 | .bf16 | .s16 | .u16 => 16
  | .s64 | .u64 => 64
  | .q4x => 4
  | _ => 32

def Ty.signed : Ty → Bool
  | .s8 | .s16 | .s32 | .s64 => true
  | _ => false

/-- The sign bit of a pattern. -/
def Fmt.neg (f : Fmt) (x : Nat) : Bool := (x / 2 ^ (f.eb + f.mb)) % 2 == 1

/-- The value of a bit pattern (Table 10.1). -/
def Fmt.unpack (f : Fmt) (x : Nat) : FVal :=
  let neg := f.neg x
  let mag := x % 2 ^ (f.eb + f.mb)
  let ex := mag / 2 ^ f.mb
  let fr := mag % 2 ^ f.mb
  if !f.hasInf && mag == 2 ^ (f.eb + f.mb) - 1 then .nan false
  else if f.hasInf && ex == 2 ^ f.eb - 1 then
    if fr == 0 then .inf neg else .nan (fr < 2 ^ (f.mb - 1))
  else if ex == 0 then .fin neg fr (1 - (f.bias : Int) - f.mb)
  else .fin neg (2 ^ f.mb + fr) ((ex : Int) - f.bias - f.mb)

/-- Number of bits of a natural number. -/
def bitLen (n : Nat) : Nat := if n = 0 then 0 else Nat.log2 n + 1

/-- Whether a magnitude between n and n + 1 units rounds up: `r` of `h` half-units above n, where
`s` tells that something below r is left over (Table 10.2). -/
def roundsUp (mode : Rnd) (neg : Bool) (n r h : Nat) (s : Bool) : Bool :=
  let inexact := r != 0 || s
  match mode with
  | .rne => h < r || (r == h && (s || n % 2 == 1))
  | .rna => h ≤ r && h != 0
  | .rz => false
  | .ru => inexact && !neg
  | .rd => inexact && neg

/-- ±m·2^e, plus something below one unit of m when `s`, rounded to a multiple of 2^q: the multiple,
and whether it is inexact. -/
def roundAt (mode : Rnd) (neg : Bool) (m : Nat) (e : Int) (s : Bool) (q : Int) : Nat × Bool :=
  if q ≤ e then (m * 2 ^ (e - q).toNat, s)
  else
    let sh := (q - e).toNat
    let n := m / 2 ^ sh
    let r := m % 2 ^ sh
    (if roundsUp mode neg n r (2 ^ (sh - 1)) s then n + 1 else n, r != 0 || s)

/-- The pattern an overflow gives (Table 10.2). -/
def Fmt.overflow (f : Fmt) (mode : Rnd) (neg : Bool) : Nat :=
  let infMag := (2 ^ f.eb - 1) * 2 ^ f.mb
  if !f.hasInf then f.maxFin
  else match mode with
    | .rne | .rna => infMag
    | .rz => f.maxFin
    | .ru => if neg then f.maxFin else infMag
    | .rd => if neg then infMag else f.maxFin

def Fmt.signBit (f : Fmt) (neg : Bool) : Nat := if neg then 2 ^ (f.eb + f.mb) else 0

/-- A finite exact value rounded to the format: pattern and flags (R218, R219). Where `s` is set, `m`
must hold at least three bits more than the format's significand. -/
def Fmt.roundFin (f : Fmt) (mode : Rnd) (neg : Bool) (m : Nat) (e : Int) (s : Bool) : Nat × Word :=
  if m == 0 && !s then (f.signBit neg, 0)
  else
    let top : Int := e + (bitLen m : Int) - 1
    let emin : Int := 1 - (f.bias : Int)
    let qs : Int := emin - f.mb
    let q : Int := if top - f.mb < qs then qs else top - f.mb
    let (n, inexact) := roundAt mode neg m e s q
    let mag := n + (q - qs).toNat * 2 ^ f.mb
    let free := roundAt mode neg m e s (top - f.mb)
    let tiny := top < emin && !(top == emin - 1 && free.1 == 2 ^ (f.mb + 1))
    if f.maxFin < mag then (f.overflow mode neg + f.signBit neg, flOV ||| flNX)
    else (mag + f.signBit neg,
      if inexact then (if tiny then flNX ||| flUF else flNX) else 0)

/-- A value rounded to the format (R218, R219). A NaN is the format's canonical one. -/
def Fmt.round (f : Fmt) (mode : Rnd) (v : FVal) : Nat × Word :=
  match v with
  | .nan _ => (f.nan, 0)
  | .inf neg =>
    if f.hasInf then ((2 ^ f.eb - 1) * 2 ^ f.mb + f.signBit neg, 0)
    else (f.maxFin + f.signBit neg, flOV)
  | .fin neg m e => f.roundFin mode neg m e false

/-- NV when the operand is a signalling NaN (R218). -/
def FVal.nv : FVal → Word
  | .nan true => flNV
  | _ => 0

def FVal.isNan : FVal → Bool
  | .nan _ => true
  | _ => false

def FVal.flip : FVal → FVal
  | .nan s => .nan s
  | .inf n => .inf (!n)
  | .fin n m e => .fin (!n) m e

/-- The integer a finite value is in units of 2^q, for q at or below its own exponent. -/
def unitsOf (neg : Bool) (m : Nat) (e q : Int) : Int :=
  let k : Int := (m * 2 ^ (e - q).toNat : Nat)
  if neg then -k else k

/-- The exact sum (R281): zero sums of opposite signs, and cancellation, give +0, or −0 under .RD. -/
def FVal.add (mode : Rnd) (a b : FVal) : FVal × Word :=
  let fl := a.nv ||| b.nv
  match a, b with
  | .nan _, _ => (.nan false, fl)
  | _, .nan _ => (.nan false, fl)
  | .inf x, .inf y => if x == y then (.inf x, fl) else (.nan false, flNV)
  | .inf x, _ => (.inf x, fl)
  | _, .inf y => (.inf y, fl)
  | .fin x m e, .fin y n d =>
    let q := if e ≤ d then e else d
    let k := unitsOf x m e q + unitsOf y n d q
    if k == 0 then
      if m == 0 && n == 0 && x == y then (.fin x 0 0, fl) else (.fin (mode == .rd) 0 0, fl)
    else (.fin (k < 0) k.natAbs q, fl)

/-- The exact product. -/
def FVal.mul (a b : FVal) : FVal × Word :=
  let fl := a.nv ||| b.nv
  match a, b with
  | .nan _, _ => (.nan false, fl)
  | _, .nan _ => (.nan false, fl)
  | .inf x, .inf y => (.inf (x != y), fl)
  | .inf x, .fin y n _ => if n == 0 then (.nan false, flNV) else (.inf (x != y), fl)
  | .fin x m _, .inf y => if m == 0 then (.nan false, flNV) else (.inf (x != y), fl)
  | .fin x m e, .fin y n d => (.fin (x != y) (m * n) (e + d), fl)

/-- A rounded result with the flags of its operands. -/
def Fmt.finish (f : Fmt) (mode : Rnd) (r : FVal × Word) : Nat × Word :=
  let (x, fl) := f.round mode r.1
  (x, fl ||| r.2)

def Fmt.add (f : Fmt) (mode : Rnd) (a b : Nat) : Nat × Word :=
  f.finish mode ((f.unpack a).add mode (f.unpack b))

def Fmt.sub (f : Fmt) (mode : Rnd) (a b : Nat) : Nat × Word :=
  f.finish mode ((f.unpack a).add mode (f.unpack b).flip)

def Fmt.mul (f : Fmt) (mode : Rnd) (a b : Nat) : Nat × Word :=
  f.finish mode ((f.unpack a).mul (f.unpack b))

/-- A × B + C with one rounding; infinity times zero raises NV even when C is a quiet NaN (R281). -/
def FVal.fma (mode : Rnd) (a b c : FVal) : FVal × Word :=
  let (p, fl) := a.mul b
  let (r, fl2) := p.add mode c
  (r, fl ||| fl2)

def Fmt.fma (f : Fmt) (mode : Rnd) (a b c : Nat) : Nat × Word :=
  f.finish mode (FVal.fma mode (f.unpack a) (f.unpack b) (f.unpack c))

/-- A / B (R281). -/
def Fmt.div (f : Fmt) (mode : Rnd) (a b : Nat) : Nat × Word :=
  let x := f.unpack a
  let y := f.unpack b
  let fl := x.nv ||| y.nv
  match x, y with
  | .nan _, _ => (f.nan, fl)
  | _, .nan _ => (f.nan, fl)
  | .inf _, .inf _ => (f.nan, flNV)
  | .inf s, .fin t _ _ => f.round mode (.inf (s != t))
  | .fin s _ _, .inf t => (f.signBit (s != t), 0)
  | .fin s m e, .fin t n d =>
    if n == 0 then
      if m == 0 then (f.nan, flNV) else ((f.round mode (.inf (s != t))).1, flDZ)
    else if m == 0 then (f.signBit (s != t), 0)
    else
      let k := bitLen n + 40
      let num := m * 2 ^ k
      f.roundFin mode (s != t) (num / n) (e - d - k) (num % n != 0)

/-- The largest r with r² ≤ n, found bit by bit from bit k. -/
def isqrtFrom (n : Nat) : Nat → Nat → Nat
  | 0, r => if (r + 1) * (r + 1) ≤ n then r + 1 else r
  | k + 1, r =>
    let t := r + 2 ^ (k + 1)
    isqrtFrom n k (if t * t ≤ n then t else r)

def isqrt (n : Nat) : Nat := isqrtFrom n (bitLen n / 2 + 1) 0

/-- The square root of m·2^e as a significand with a remainder mark, 40 bits below the unit. -/
def sqrtParts (m : Nat) (e : Int) : Nat × Int × Bool :=
  let (m, e) := if e % 2 == 0 then (m, e) else (2 * m, e - 1)
  let n := m * 2 ^ 80
  let r := isqrt n
  (r, e / 2 - 40, r * r != n)

def Fmt.sqrt (f : Fmt) (mode : Rnd) (a : Nat) : Nat × Word :=
  match f.unpack a with
  | .nan s => (f.nan, if s then flNV else 0)
  | .inf true => (f.nan, flNV)
  | .inf false => f.round mode (.inf false)
  | .fin s m e =>
    if m == 0 then (f.signBit s, 0)
    else if s then (f.nan, flNV)
    else
      let (r, x, st) := sqrtParts m e
      f.roundFin mode false r x st

/-! ### Comparison (R282, R283) -/

/-- Sign of a − b for two values that are no NaN. -/
def FVal.cmp (a b : FVal) : Int :=
  match a, b with
  | .inf x, .inf y => if x == y then 0 else if x then -1 else 1
  | .inf x, _ => if x then -1 else 1
  | _, .inf y => if y then 1 else -1
  | .fin x m e, .fin y n d =>
    let q := if e ≤ d then e else d
    (unitsOf x m e q - unitsOf y n d q).sign
  | _, _ => 0

def Fmt.cond (f : Fmt) (k : Cond) (a b : Nat) : Bool × Word :=
  let x := f.unpack a
  let y := f.unpack b
  let un := x.isNan || y.isNan
  let c := x.cmp y
  (match k with
    | .eq => !un && c == 0
    | .ne => un || c != 0
    | .lt => !un && c < 0
    | .le => !un && c ≤ 0
    | .gt => !un && 0 < c
    | .ge => !un && 0 ≤ c
    | .un => un
    | .ord => !un, x.nv ||| y.nv)

/-- FMIN or FMAX (R282): −0 below +0; a NaN gives way to the other operand. -/
def Fmt.minmax (f : Fmt) (isMax : Bool) (a b : Nat) : Nat × Word :=
  let x := f.unpack a
  let y := f.unpack b
  let fl := x.nv ||| y.nv
  let aw := a % 2 ^ (f.eb + f.mb + 1)
  let bw := b % 2 ^ (f.eb + f.mb + 1)
  if x.isNan then (if y.isNan then f.nan else bw, fl)
  else if y.isNan then (aw, fl)
  else
    let c := x.cmp y
    let aLess := c < 0 || (c == 0 && f.neg a && !f.neg b)
    (if isMax then (if aLess then bw else aw) else (if aLess then aw else bw), fl)

/-- FCLASS (R284). -/
def Fmt.fclass (f : Fmt) (a : Nat) : Word :=
  let neg := f.neg a
  let ex := a % 2 ^ (f.eb + f.mb) / 2 ^ f.mb
  match f.unpack a with
  | .inf n => if n then 0x001 else 0x080
  | .nan s => if s then 0x100 else 0x200
  | .fin _ m _ =>
    if m == 0 then (if neg then 0x008 else 0x010)
    else if ex == 0 then (if neg then 0x004 else 0x020)
    else (if neg then 0x002 else 0x040)

/-! ### Conversion (R220, R287, R288) -/

/-- KIND of an ash record (Table 10.6). -/
inductive AshKind where
  | nan | pinf | ninf | badcode | badesc
  deriving DecidableEq, Repr

def AshKind.code : AshKind → Nat
  | .nan => 0 | .pinf => 1 | .ninf => 2 | .badcode => 3 | .badesc => 4

/-- A conversion's result: pattern, flags, and the ash record's kind where the case is listed. -/
structure Cvt where
  val : Nat
  fl : Word
  ash : Option AshKind
  deriving DecidableEq, Repr

/-- Least and greatest value of an integer type. -/
def Ty.lo (t : Ty) : Int := if t.signed then -((2 : Int) ^ (t.bits - 1)) else 0
def Ty.hi (t : Ty) : Int := if t.signed then (2 : Int) ^ (t.bits - 1) - 1 else (2 : Int) ^ t.bits - 1

/-- The low bits of an integer. -/
def wrapTo (n : Nat) (x : Int) : Nat := (x % (2 ^ n : Nat)).toNat

/-- The value of the low bits of a pattern under an integer type. -/
def Ty.intOf (t : Ty) (x : Nat) : Int :=
  if t.signed then signExt t.bits x else ((x % 2 ^ t.bits : Nat) : Int)

/-- A float value as an integer of type t (Table 10.3): rounded, then range-checked. -/
def FVal.toInt (mode : Rnd) (t : Ty) (v : FVal) : Cvt :=
  match v with
  | .nan _ => { val := 0, fl := flNV, ash := some .nan }
  | .inf neg =>
    { val := wrapTo t.bits (if neg then t.lo else t.hi), fl := flOV,
      ash := some (if neg then .ninf else .pinf) }
  | .fin neg m e =>
    let (n, inexact) := roundAt mode neg m e false 0
    let k : Int := if neg then -(n : Int) else n
    if k < t.lo then { val := wrapTo t.bits t.lo, fl := flOV ||| flNX, ash := none }
    else if t.hi < k then { val := wrapTo t.bits t.hi, fl := flOV ||| flNX, ash := none }
    else { val := wrapTo t.bits k, fl := if inexact then flNX else 0, ash := none }

/-- A float value in another float format (Table 10.3). -/
def FVal.toFloat (mode : Rnd) (f : Fmt) (v : FVal) : Cvt :=
  match v with
  | .nan s => { val := f.nan, fl := if s then flNV else 0, ash := none }
  | .inf neg =>
    let (x, fl) := f.round mode (.inf neg)
    { val := x, fl := fl, ash := if f.hasInf then none else some (if neg then .ninf else .pinf) }
  | .fin neg m e =>
    let (x, fl) := f.roundFin mode neg m e false
    { val := x, fl := fl, ash := none }

def FVal.ofInt (k : Int) : FVal := .fin (k < 0) k.natAbs 0

/-- Saturation of a float result (R265): an infinity, or an overflow, becomes the largest finite. -/
def Fmt.sat (f : Fmt) (r : Nat × Word) : Nat × Word :=
  match f.unpack r.1 with
  | .inf neg => (f.maxFin + f.signBit neg, r.2 ||| flOV)
  | _ => r

/-- CVT of one lane (R287). `sat` is XM of the destination. The value is the destination's own bits,
not extended. -/
def cvtValue (mode : Rnd) (dt st : Ty) (sat : Bool) (x : Nat) : Cvt :=
  if st.isFloat then
    let v := st.fmt.unpack (x % 2 ^ st.bits)
    if dt.isFloat then
      if dt == st then
        match v with
        | .nan s => { val := dt.fmt.nan, fl := if s then flNV else 0, ash := none }
        | _ =>
          let r := (x % 2 ^ st.bits, (0 : Word))
          let r := if sat then dt.fmt.sat r else r
          { val := r.1, fl := r.2, ash := none }
      else
        let c := v.toFloat mode dt.fmt
        let r := if sat then dt.fmt.sat (c.val, c.fl) else (c.val, c.fl)
        { c with val := r.1, fl := r.2 }
    else v.toInt mode dt
  else
    let k := st.intOf x
    if dt.isFloat then
      let (y, fl) := dt.fmt.roundFin mode (k < 0) k.natAbs 0 false
      let r := if sat then dt.fmt.sat (y, fl) else (y, fl)
      { val := r.1, fl := r.2, ash := none }
    else if sat then
      if k < dt.lo then { val := wrapTo dt.bits dt.lo, fl := flOV, ash := none }
      else if dt.hi < k then { val := wrapTo dt.bits dt.hi, fl := flOV, ash := none }
      else { val := wrapTo dt.bits k, fl := 0, ash := none }
    else { val := wrapTo dt.bits k, fl := 0, ash := none }

/-- FRND (R288): to an integral value of the same type, without a flag for inexactness. -/
def Fmt.rint (f : Fmt) (mode : Rnd) (a : Nat) : Nat × Word :=
  match f.unpack a with
  | .nan s => (f.nan, if s then flNV else 0)
  | .inf neg => f.round mode (.inf neg)
  | .fin neg m e =>
    if m == 0 then (f.signBit neg, 0)
    else
      let n := (roundAt mode neg m e false 0).1
      ((f.roundFin mode neg n 0 false).1, 0)

/-- A 13-bit immediate as a float of the type (R243). -/
def floatOfImm (f : Fmt) (v : BitVec 13) : Nat := (f.round .rne (FVal.ofInt v.toInt)).1

/-! ### Integer corners (R221) -/

/-- Quotient and remainder with their flags, from values read by the type. -/
def divInt (t : Ty) (a b : Int) : Int × Int × Word :=
  if b == 0 then (if t.signed then -1 else t.hi, a, flDZ)
  else if t.signed && a == t.lo && b == -1 then (t.lo, 0, flOV)
  else (a.tdiv b, a - (a.tdiv b) * b, 0)

end Sys2Proof
end

