-- ==== Sys2Proof/Machine/Blocks.lean ====
section
/-!
DEFINITION. Self-describing blocks (R227 to R233): decoding, quantisation, the Hadamard rotation and
the outlier side list; and the summation tree of R234. Elements are FP32 patterns, blocks are 64 bytes.
-/
namespace Sys2Proof

def f32add (a b : Nat) : Nat := (fmt32.add .rne a b).1
def f32sub (a b : Nat) : Nat := (fmt32.sub .rne a b).1
def f32mul (a b : Nat) : Nat := (fmt32.mul .rne a b).1
def f32div (a b : Nat) : Nat := (fmt32.div .rne a b).1
def f32sqrt (a : Nat) : Nat := (fmt32.sqrt .rne a).1
def f32abs (a : Nat) : Nat := a % 2 ^ 31
def f32neg (a : Nat) : Nat := if a < 2 ^ 31 then a + 2 ^ 31 else a - 2 ^ 31
def f32lt (a b : Nat) : Bool := (fmt32.cond .lt a b).1
def f32isNan (a : Nat) : Bool := (fmt32.unpack a).isNan
def f32isInf (a : Nat) : Bool := f32abs a == 0x7F800000
/-- The FP32 pattern of a small natural number. -/
def f32ofNat (n : Nat) : Nat := (fmt32.roundFin .rne false n 0 false).1

/-! ### Summation (R234) -/

/-- Adjacent pairs added, each sum rounded once. -/
def sumPairs : List (Nat × Word) → List (Nat × Word)
  | a :: b :: l =>
    let r := fmt32.add .rne a.1 b.1
    (r.1, a.2 ||| b.2 ||| r.2) :: sumPairs l
  | l => l

/-- SumTree with the union of its flags: padded to 32 terms with +0, five levels. -/
def sumTreeFl (t : List Nat) : Nat × Word :=
  let l := (t ++ List.replicate (32 - t.length) 0).map fun x => (x, (0 : Word))
  (sumPairs (sumPairs (sumPairs (sumPairs (sumPairs l))))).headD (0, 0)

def sumTree (t : List Nat) : Nat := (sumTreeFl t).1

/-- SumTree of products, each formed exactly and rounded once. -/
def dotTreeFl (l : List (Nat × Nat)) : Nat × Word :=
  let ps := l.map fun p => fmt32.mul .rne p.1 p.2
  let r := sumTreeFl (ps.map (·.1))
  (r.1, ps.foldl (fun w p => w ||| p.2) r.2)

def dotTree (l : List (Nat × Nat)) : Nat := (dotTreeFl l).1

/-! ### Format codes (Table 10.9) -/

/-- Elements of a code; none for a reserved code. -/
def blockN : Nat → Option Nat
  | 0x0 => some 124 | 0x1 => some 62 | 0x2 => some 62 | 0x3 => some 31 | 0x4 => some 15
  | 0x8 => some 112 | 0x9 => some 96 | 0xA => some 64
  | _ => none

def blockIsQ4x (c : Nat) : Bool := c == 0 || c == 8 || c == 9 || c == 10

/-- Hadamard size of a code (Table 10.9); 0 for none. -/
def blockHad : Nat → Nat
  | 0x8 => 16 | 0x9 => 32 | 0xA => 64 | _ => 0

/-- HSIZE codes 0 to 2. -/
def hadSize : Nat → Nat
  | 0 => 16 | 1 => 32 | _ => 64

/-- Byte i of a block. -/
def blkByte (b : List Byte) (i : Nat) : Nat := ((b[i]?).getD 0).toNat

/-- Payload slot i (R227). -/
def blkSlot (b : List Byte) (i : Nat) : Nat :=
  if i % 2 == 0 then blkByte b (2 + i / 2) % 16 else blkByte b (2 + i / 2) / 16

/-- A decoded block: its code, N values, and the elements listed (R229). -/
structure BlockDec where
  code : Nat
  vals : List FVal
  bad : List (Nat × AshKind)
  deriving DecidableEq, Repr

def fzero : FVal := .fin false 0 0

/-- The product of two finite or infinite values with ∞ × 0 not formed. -/
def scaleVal (v s : FVal) : FVal := (v.mul s).1

/-- The slots of a Q4X block from i on (R229). -/
def decodeSlots (b : List Byte) (n zp : Nat) (s : FVal) :
    Nat → Nat → Nat → List FVal × List (Nat × AshKind)
  | 0, _, _ => ([], [])
  | fuel + 1, i, esc =>
    if n ≤ i then ([], [])
    else
      let c := blkSlot b i
      if c == 15 && i + 3 ≤ n && esc < 4 then
        let o := blkSlot b (i + 1) + 16 * blkSlot b (i + 2)
        let (v, l) := decodeSlots b n zp s fuel (i + 3) (esc + 1)
        if o == 0x7F || o == 0xFF then (fzero :: fzero :: fzero :: v, (i, .badesc) :: l)
        else (scaleVal (fmtE4.unpack o) s :: fzero :: fzero :: v, l)
      else if c == 15 then
        let (v, l) := decodeSlots b n zp s fuel (i + 1) esc
        (fzero :: v, (i, .badesc) :: l)
      else
        let (v, l) := decodeSlots b n zp s fuel (i + 1) esc
        (scaleVal (FVal.ofInt ((c : Int) - zp)) s :: v, l)

/-- DecodeBlock (R229). A reserved code decodes as no elements that are not 0; its element count is
124, the widest. -/
def decodeBlock (b : List Byte) : BlockDec :=
  let code := blkByte b 0 / 16
  let zp := blkByte b 0 % 16
  let sc := blkByte b 1
  let n := (blockN code).getD 124
  let badScale := code != 3 && code != 4 && (sc == 0x7F || sc == 0xFF)
  if (blockN code).isNone || (blockIsQ4x code && zp == 15) || badScale then
    { code := code, vals := List.replicate n fzero, bad := [(0, .badcode)] }
  else
    let s := fmtE4.unpack sc
    if blockIsQ4x code then
      let (v, l) := decodeSlots b n zp s n 0 0
      { code := code, vals := v, bad := l }
    else if code == 1 || code == 2 then
      let f := if code == 1 then fmtE4 else fmtE5
      let szero := sc % 128 == 0
      let el := (List.range n).map fun i =>
        let x := f.unpack (blkByte b (2 + i))
        match x with
        | .nan _ => (fzero, [(i, AshKind.nan)])
        | .inf _ => if szero then (fzero, [(i, AshKind.nan)]) else (scaleVal x s, [])
        | _ => (scaleVal x s, [])
      { code := code, vals := el.map (·.1), bad := el.flatMap (·.2) }
    else if code == 3 then
      { code := code, bad := [], vals := (List.range n).map fun i =>
          fmtB16.unpack (blkByte b (2 + 2 * i) + 256 * blkByte b (3 + 2 * i)) }
    else
      { code := code, bad := [], vals := (List.range n).map fun i =>
          fmt32.unpack (natOfBytes ((b.drop (2 + 4 * i)).take 4)) }

/-! ### The Hadamard rotation (R232) -/

/-- One level: lanes j and j + 2^k for each j with bit k clear. -/
def hadLevel (k : Nat) (w : List (Nat × Word)) : List (Nat × Word) :=
  (List.range w.length).map fun j =>
    let self := w[j]?.getD (0, 0)
    if (j / 2 ^ k) % 2 == 0 then
      let r := fmt32.add .rne self.1 (w[j + 2 ^ k]?.getD (0, 0)).1
      (r.1, self.2 ||| r.2)
    else
      let r := fmt32.sub .rne (w[j - 2 ^ k]?.getD (0, 0)).1 self.1
      (r.1, self.2 ||| r.2)

def hadLevels (w : List (Nat × Word)) : Nat → List (Nat × Word)
  | 0 => w
  | k + 1 => hadLevel k (hadLevels w k)

def hadConst : Nat → Nat
  | 16 => 0x3E800000 | 32 => 0x3E3504F3 | _ => 0x3E000000

/-- The rotation of one group of h elements, with the union of its flags. -/
def hadGroup (h : Nat) (w : List Nat) : List Nat × Word :=
  let l := hadLevels (w.map fun x => (x, (0 : Word))) (bitLen h - 1)
  let r := l.map fun p =>
    let q := fmt32.mul .rne p.1 (hadConst h)
    (q.1, p.2 ||| q.2)
  (r.map (·.1), r.foldl (fun a p => a ||| p.2) 0)

/-- The rotation of every group of h consecutive elements. -/
def hadAll (h : Nat) : Nat → List Nat → List Nat × Word
  | 0, w => (w, 0)
  | fuel + 1, w =>
    if w.length < h || h == 0 then (w, 0)
    else
      let (a, fa) := hadGroup h (w.take h)
      let (b, fb) := hadAll h fuel (w.drop h)
      (a ++ b, fa ||| fb)

/-! ### Consumption (R230) -/

/-- An element list with flags and the elements listed. -/
structure Expanded where
  vals : List Nat
  fl : Word
  bad : List (Nat × AshKind)
  deriving DecidableEq, Repr

/-- The FP32 elements a consumer forms from one block (R229, R230), NaNs as R220 converts them. -/
def expandBlock (b : List Byte) (ts : Nat) : Expanded :=
  let d := decodeBlock b
  let t := fmt32.unpack ts
  let scaled := d.vals.map fun v =>
    if d.code == 3 || d.code == 4 then
      match v with
      | .nan s => (fmt32.nan, if s then flNV else (0 : Word))
      | _ => ((fmt32.round .rne v).1, (0 : Word))
    else fmt32.finish .rne (v.mul t)
  let fl := scaled.foldl (fun a p => a ||| p.2) 0
  let h := blockHad d.code
  if h == 0 then { vals := scaled.map (·.1), fl := fl, bad := d.bad }
  else
    let (w, f2) := hadAll h 124 (scaled.map (·.1))
    { vals := w, fl := fl ||| f2, bad := d.bad }

/-- Side-list entries read from memory: (index, value) in list order (R233). -/
def sideEntries : Nat → List Byte → List (Nat × Nat)
  | 0, _ => []
  | fuel + 1, bs =>
    if bs.length < 8 then []
    else (natOfBytes (bs.take 4), natOfBytes ((bs.drop 4).take 4)) :: sideEntries fuel (bs.drop 8)

/-- The values of elements from `first` on with a side list applied; the later entry wins (R233). -/
def applySide (side : List (Nat × Nat)) (first : Nat) (vals : List Nat) : List Nat :=
  side.foldl (fun v e => if first ≤ e.1 then v.set (e.1 - first) e.2 else v) vals

/-! ### Quantisation (R231) -/

/-- ±(m/k)·2^e rounded to a format: an exact quotient rounded once. -/
def roundQuot (f : Fmt) (mode : Rnd) (neg : Bool) (m k : Nat) (e : Int) : Nat × Word :=
  if m == 0 then (f.signBit neg, 0)
  else
    let sh := bitLen k + 40
    f.roundFin mode neg (m * 2 ^ sh / k) (e - sh) (m * 2 ^ sh % k != 0)

/-- The exact quotient of two finite values rounded once; the divisor is not 0. -/
def quotTo (f : Fmt) (mode : Rnd) (a b : FVal) : Nat × Word :=
  match a, b with
  | .fin x m e, .fin y n d => roundQuot f mode (x != y) m n (e - d)
  | _, _ => (0, 0)

/-- RoundInt of an exact quotient under RNE (R231). -/
def roundIntQuot (a b : FVal) : Int :=
  match a, b with
  | .fin x m e, .fin y n d =>
    let sh := bitLen n + 40
    let (k, _) := roundAt .rne (x != y) (m * 2 ^ sh / n) (e - d - sh) (m * 2 ^ sh % n != 0) 0
    if x != y then -(k : Int) else k
  | _, _ => 0

def clampInt (lo hi k : Int) : Int := if k < lo then lo else if hi < k then hi else k

/-- A tensor scale as used: itself when positive and finite, else 1.0 (R231). -/
def useScale (ts : Nat) : Nat := if 0 < ts && ts < 0x7F800000 then ts else 0x3F800000

/-- How an element enters a block (R231): a special with its sign, or its quotient. -/
inductive QEl where
  | zeroNan
  | sign (neg : Bool)
  | num (y : Nat)
  deriving DecidableEq, Repr

/-- An element divided by the scale, with its flags. -/
def qElem (ts x : Nat) : QEl × Word :=
  if f32isNan x then (.zeroNan, flNV)
  else if f32isInf x then (.sign (fmt32.neg x), flOV)
  else
    let y := f32div x ts
    if f32isInf y then (.sign (fmt32.neg y), flOV) else (.num y, 0)

def QEl.mag : QEl → Nat
  | .num y => f32abs y
  | _ => 0

/-- A formed block with the flags it raises, its listed elements, and its side-list entries. -/
structure Quant where
  bytes : List Byte
  fl : Word
  bad : List (Nat × AshKind)
  side : List (Nat × Nat)
  deriving DecidableEq, Repr

def QEl.ash : QEl → Option AshKind
  | .zeroNan => some .nan
  | .sign neg => some (if neg then .ninf else .pinf)
  | .num _ => none

/-- Insertion by descending magnitude, ahead of its equals: those of lower index are inserted last (R231). -/
def insertOut (e : Nat × Nat) : List (Nat × Nat) → List (Nat × Nat)
  | [] => [e]
  | a :: l => if a.2 ≤ e.2 then e :: a :: l else a :: insertOut e l

/-- The escapes chosen from the sorted outliers (R231). -/
def chooseEsc (n : Nat) : List (Nat × Nat) → List Nat → List Nat
  | [], acc => acc
  | (i, _) :: l, acc =>
    if i + 3 ≤ n && acc.length < 4 && acc.all (fun j => j + 3 ≤ i || i + 3 ≤ j) then
      chooseEsc n l (i :: acc)
    else chooseEsc n l acc

/-- Nibbles, even slot in the low half, as bytes (R227). -/
def nibbleBytes : List Nat → List Byte
  | a :: b :: l => BitVec.ofNat 8 (a % 16 + 16 * (b % 16)) :: nibbleBytes l
  | [a] => [BitVec.ofNat 8 (a % 16)]
  | [] => []

/-- The header and payload, positions beyond `used` payload bytes taken from the open padding. -/
def blockBytes (code zp scale : Nat) (payload : List Byte) (src : List Nat) : List Byte :=
  let pad := bytesOfNat 64 (Config.blockPad code src).toNat
  [BitVec.ofNat 8 (16 * code + zp), BitVec.ofNat 8 scale] ++ payload ++ pad.drop (2 + payload.length)

/-- QuantQ4X (R231) over N elements. -/
def quantQ4x (code n thr ts : Nat) (x : List Nat) : Quant :=
  let el := x.map (qElem ts)
  let q := el.map (·.1)
  let fl0 := el.foldl (fun a p => a ||| p.2) (0 : Word)
  let m := f32div (q.foldl (fun a e => f32add a e.mag) 0) (f32ofNat n)
  let thrOk := 0 < thr && thr < 0x7F800000
  let lim := f32mul thr m
  let isOut : QEl → Bool := fun e => match e with
    | .num y => thrOk && f32lt lim (f32abs y)
    | _ => false
  let kept := q.filterMap fun e => match e with
    | .num y => if isOut e then none else some (fmt32.unpack y)
    | _ => none
  let lo := kept.foldl (fun a v => if v.cmp a < 0 then v else a) fzero
  let hi := kept.foldl (fun a v => if a.cmp v < 0 then v else a) fzero
  let outs := (List.range n).filterMap fun i => match q[i]? with
    | some e => if isOut e then some (i, e.mag) else none
    | none => none
  let sorted := outs.foldr insertOut []
  let sc : Nat × Word :=
    if lo.cmp hi < 0 then
      match (hi.add .rne lo.flip).1 with
      | .fin s k e => roundQuot fmtE4 .ru s k 14 e
      | _ => (0, 0)
    else match sorted with
      | (_, y) :: _ => match fmt32.unpack y with
        | .fin s k e => roundQuot fmtE4 .ru s k 448 e
        | _ => (0, 0)
      | [] => (0, 0)
  let s := fmtE4.unpack sc.1
  let zp : Nat := if sc.1 == 0 then 0 else (clampInt 0 14 (roundIntQuot lo.flip s)).toNat
  let codes := q.map fun e => match e with
    | .zeroNan => (zp, (0 : Word))
    | .sign neg => (if neg then 0 else 14, (0 : Word))
    | .num y =>
      if sc.1 == 0 then (zp, (0 : Word))
      else
        let k := roundIntQuot (fmt32.unpack y) s + zp
        ((clampInt 0 14 k).toNat, if (k < 0 || 14 < k) && !isOut e then flOV else 0)
  let fl1 := codes.foldl (fun a p => a ||| p.2) (0 : Word)
  let esc := chooseEsc n sorted []
  let withEsc := esc.foldl (fun (acc : List Nat × Word) (i : Nat) =>
    match q[i]? with
    | some (.num y) =>
      let (o, f) := quotTo fmtE4 .rne (fmt32.unpack y) s
      (((acc.1.set i 15).set (i + 1) (o % 16)).set (i + 2) (o / 16), acc.2 ||| (f &&& flOV))
    | _ => acc) (codes.map (·.1), (0 : Word))
  let side := (List.range n).filterMap fun i =>
    let v := x[i]?.getD 0
    let out := outs.any (·.1 == i) && !esc.contains i
    let displaced := esc.any (fun j => i == j + 1 || i == j + 2) && f32abs v != 0
    if out || displaced then some (i, v) else none
  let bad := (List.range n).filterMap fun i => match q[i]? with
    | some e => e.ash.map fun k => (i, k)
    | none => none
  { bytes := blockBytes code zp sc.1 (nibbleBytes withEsc.1) x,
    fl := (fl0 ||| fl1 ||| (sc.2 &&& flOV) ||| withEsc.2) &&& (flNV ||| flOV),
    bad := bad, side := side }

/-- The FP8 codes 1 and 2 (R231). -/
def quantFp8 (code ts : Nat) (x : List Nat) : Quant :=
  let f := if code == 1 then fmtE4 else fmtE5
  let big := if code == 1 then 448 else 57344
  let el := x.map (qElem ts)
  let fl0 := el.foldl (fun a p => a ||| p.2) (0 : Word)
  let ymax := el.foldl (fun a p => if a < p.1.mag then p.1.mag else a) 0
  let sc : Nat × Word := match fmt32.unpack ymax with
    | .fin s k e => roundQuot fmtE4 .ru s k big e
    | _ => (0, 0)
  let s := fmtE4.unpack sc.1
  let out := el.map fun p => match p.1 with
    | .zeroNan => ({ val := f.nan, fl := flNV, ash := none } : Cvt)
    | .sign neg => (FVal.inf neg).toFloat .rne f
    | .num y =>
      if sc.1 == 0 then { val := f.signBit (fmt32.neg y), fl := 0, ash := none }
      else
        let (v, fl) := quotTo f .rne (fmt32.unpack y) s
        { val := v, fl := fl, ash := none }
  let fl1 := out.foldl (fun a c => a ||| c.fl) (0 : Word)
  let bad := (List.range out.length).filterMap fun i => match out[i]? with
    | some c => c.ash.map fun k => (i, k)
    | none => none
  { bytes := blockBytes code 0 sc.1 (out.map fun c => BitVec.ofNat 8 c.val) x,
    fl := (fl0 ||| fl1 ||| sc.2) &&& (flNV ||| flOV), bad := bad, side := [] }

/-- Codes 3 and 4: elements converted, SCALE 1.0 (R231). -/
def quantPlain (code : Nat) (x : List Nat) : Quant :=
  let f := if code == 3 then fmtB16 else fmt32
  let w := if code == 3 then 2 else 4
  let out := x.map fun v => (fmt32.unpack v).toFloat .rne f
  let fl := out.foldl (fun a c => a ||| c.fl) (0 : Word)
  let src := x.foldl (fun a v => a ||| (if f32isNan v then flNV else if f32isInf v then flOV else 0))
    (0 : Word)
  { bytes := blockBytes code 0 0x38 (out.flatMap fun c => bytesOfNat w c.val) x,
    fl := (fl ||| src) &&& (flNV ||| flOV), bad := [], side := [] }

/-- One block of code `code` from exactly N source elements (R231), rotated first under a Hadamard
code (R232). Values of the side list are after rotation and before division (R233). -/
def quantBlock (code thr ts : Nat) (x : List Nat) : Quant :=
  let n := (blockN code).getD 0
  let x := (x ++ List.replicate (n - x.length) 0).take n
  let t := useScale ts
  if blockIsQ4x code then
    let h := blockHad code
    quantQ4x code n thr t (if h == 0 then x else (hadAll h 124 x).1)
  else if code == 1 || code == 2 then quantFp8 code t x
  else quantPlain code x

end Sys2Proof
end

