-- ==== Sys2Proof/Machine/State.lean ====
section
/-!
DEFINITION. The whole state of the package, as plain data, and the state right after reset.
Sets that are large and mostly at one value (register files, cores, quads) are sparse maps with a
default, ascending keys. `line` everywhere is the physical address of a 128-byte line, its low seven
bits zero. Contexts, cores, quads, handles and group indices are plain numbers.
-/
namespace Sys2Proof.Machine

/-! ### Names used all over the state -/

/-- Coherence attribute (Table 2.5). -/
inductive Coh where
  | dir | lse | unc
  deriving DecidableEq, Repr

/-- Storage attribute (Table 2.5). -/
inductive Stor where
  | normal | eager | device
  deriving DecidableEq, Repr

/-- What an access does to the page, for the checks of Table 2.6 and R28. `both` is an atomic; `src` and `dst` are the
source and the destination of a copy or of another engine operation. -/
inductive Kind where
  | read | write | both | exec | src | dst
  deriving DecidableEq, Repr

/-- The fault causes with a code of Table 16.1. -/
inductive Cause where
  | addrForm | windowHole | privRange | clusterGone | localRange | ptAbsent | ptFormat | ptNotdir
  | perm | physRange | homeLost | feWindow | feSpan | cohExpect | align
  | illegalOpc | illegalMod | illegalOpd | braDiverge | srAccess | apIllegal | apOnly
  | regEmpty | regUnheld | roleEngine | stackDepth | joinMismatch | stagePhase | nestFormat
  | queueDry | tileBudget | poolRange | claimPending | barScope | copyFormat | rankOvf | tileForm
  | xfFormat | kvFormat | kvReserve | posOverflow | kvLost | kvSeqstate | arith | trap | svc | bkpt
  deriving DecidableEq, Repr

/-- Restart classes of Table 16.2. -/
inductive RestartClass where
  | lane | group | after | boundary | fetch
  deriving DecidableEq, Repr

/-- One register with a full/empty bit, or a predicate that is interlocked (R194, R253). -/
inductive Reg where
  | v (i : Nat) | s (i : Nat) | m (i : Nat) | a (i : Nat) | p (i : Nat) | aps (i : Nat) | app (i : Nat)
  deriving DecidableEq, Repr

/-! ### Page translations (R27 to R34) -/

/-- Permissions and attributes a leaf carries (Table 2.5). -/
structure Attr where
  rd : Bool
  w : Bool
  x : Bool
  sup : Bool
  coh : Coh
  stor : Stor
  deriving DecidableEq, Repr

/-- A translation of the quad translation cache (R34): `size` is 0x1_0000, 0x20_0000 or 0x2000_0000.
`leaf` is the address of its leaf entry, of the first of 32 for a 2 MiB translation, `seen` the leaf entries as the walk
read them, and `via` the table lines it was formed from (R37). `aknown`, `dknown`: A, D is set in the leaf entries, so
no compare-and-set is needed (R32, R33). A walk forms a translation; the first access that passes all of its checks
installs it, setting A, so that an access that faults leaves A unchanged (R32, R45). -/
structure Trans where
  ctx : Nat
  va : Nat
  size : Nat
  pa : Nat
  attr : Attr
  aknown : Bool
  dknown : Bool
  leaf : Nat
  seen : List Nat
  via : List Nat
  deriving DecidableEq, Repr

/-- A walk-cache entry (R34): the table entry of level 1 or 2 for the range at `va`, the next table it
names, and the lines it was formed from. -/
structure WalkEnt where
  ctx : Nat
  level : Nat
  va : Nat
  next : Nat
  via : List Nat
  deriving DecidableEq, Repr

/-- A walk a quad's walkers still have to do (R29). -/
structure WalkReq where
  ctx : Nat
  page : Nat
  kind : Kind
  sup : Bool
  deriving DecidableEq, Repr

/-- The fault a walk ended in, kept until the access that asked meets it (R29, R45). -/
structure WalkFault where
  req : WalkReq
  cause : Cause
  level : Nat
  deriving DecidableEq, Repr

/-- A translation invalidation that reached a quad and is not acknowledged yet (R38). `at` is the
cycle of its arrival; it is `none` while the message is in flight. -/
structure TInv where
  line : Nat
  arrived : Option Nat
  deriving DecidableEq, Repr

/-- One quad (R9, R34). The reverse map is the four L1s' own tags read by physical line (Table 2.7). -/
structure Quad where
  tc : List Trans
  wc : List WalkEnt
  desc : List (Nat × Nat)
  walks : List WalkReq
  faults : List WalkFault
  tinv : List TInv
  fenced : Bool
  deriving DecidableEq, Repr

/-! ### Accesses and the caches of a core -/

/-- What one lane's part of an access does to its bytes (R303, R308). -/
inductive AccOp where
  | load
  | store (bytes : List Byte)
  | atom (op : AtomOp) (ty : Ty) (b c : BitVec 64)
  deriving DecidableEq, Repr

/-- One lane's access to one line or granule: bytes `off` to `off + n - 1` of it, for operation `seq`
of a group. `k` is the place of its first byte in the lane's value, `va` the address of the lane's access. -/
structure Acc where
  wg : Nat
  g : Nat
  seq : Nat
  lane : Nat
  va : Nat
  k : Nat
  off : Nat
  n : Nat
  what : AccOp
  deriving DecidableEq, Repr

/-- The full/empty forms (Table 4.3). -/
inductive Qual where
  | none | wait | take | peek
  deriving DecidableEq, Repr

/-- Stable states of an L1 data line of a DIR page, and of an LSE line (Table 6.2, R142). The
transient states follow from the outstanding request beside the line. -/
inductive L1St where
  | m | o | e | s | lse
  deriving DecidableEq, Repr

/-- An L1 data line (R33, R70, R126, R142): its virtual tag, physical line, data, the translation that
filled it, the lease stamp, and the tick of its last store. -/
structure L1Line where
  ctx : Nat
  vline : Nat
  line : Nat
  st : L1St
  data : Row
  tr : Trans
  stamp : BitVec 24
  lastStore : Nat
  deriving DecidableEq, Repr

/-- An L1 instruction line (R89). -/
structure ILine where
  ctx : Nat
  vline : Nat
  line : Nat
  data : Row
  tr : Trans
  deriving DecidableEq, Repr

/-- The requests a core sends to a home for a DIR line (R127). -/
inductive ReqKind where
  | rd | rfo | rfoz | upg
  deriving DecidableEq, Repr

/-- Probes from a home to a core (R127, R136). -/
inductive ProbeKind where
  | inv | fwdRd | fwdRfo
  deriving DecidableEq, Repr

/-- An outstanding request of an L1 and the accesses that wait for it, oldest first (R126, R130). -/
structure Miss where
  line : Nat
  ctx : Nat
  vline : Nat
  kind : ReqKind
  tr : Trans
  accs : List Acc
  deriving DecidableEq, Repr

/-- A write-back buffer entry (state MI, R126, R130). -/
structure WbEnt where
  line : Nat
  data : Row
  deriving DecidableEq, Repr

/-- An operation on its way to a bank of a core's local memory (R73, R78, R160, R300): from core `src`, on the
granules of workgroup `wg`'s region; `pos` is the position when it came through the cluster window. A qualified one is
one lane's, on granule `gran`; a plain one holds the accesses of an instruction to the 128 bytes from `gran` on, where
their offsets count. `eng` is the wait of a STAGE.OUT for its header (R316). `prior` are the operations of its group that
precede it in program order. -/
structure BankOp where
  wg : Nat
  src : Nat
  pos : Option Nat
  prior : List Nat
  qual : Qual
  isStore : Bool
  eng : Bool
  gran : Nat
  accs : List Acc
  deriving DecidableEq, Repr

/-- An access of nobody. -/
def Acc.empty : Acc := { wg := 0, g := 0, seq := 0, lane := 0, va := 0, k := 0, off := 0, n := 0, what := .load }

/-- The first access of an operation at a bank: the only one of a qualified operation. -/
def BankOp.acc (b : BankOp) : Acc := b.accs.headD Acc.empty

/-- A granule of local memory (R76, R78): data, full bit, and the operations waiting on it, in order. -/
structure Gran where
  data : BitVec 128
  full : Bool
  waiters : List BankOp
  deriving DecidableEq, Repr

/-- One engine write to local memory that has not landed (R77): bytes to one granule. -/
structure EngWrite where
  wg : Nat
  g : Nat
  seq : Nat
  gran : Nat
  off : Nat
  bytes : List Byte
  deriving DecidableEq, Repr

/-! ### Groups -/

/-- Reconvergence-stack entries (Table 8.4). `bad` is an entry read back with KIND 0b10 or 0b11. -/
inductive StackEnt where
  | div (token : Nat) (mask pmask : Mask) (ppc : Nat)
  | split (token partner : Nat)
  | bad
  deriving DecidableEq, Repr

/-- STATE of a path-table entry (Table 8.3). -/
inductive PState where
  | free | ready | blocked | join
  deriving DecidableEq, Repr

/-- What a BLOCKED path waits for, with the reasons of R389. `reg` keeps the producer's PC; `op` is a
qualified or .ACQ instruction that has issued and has not completed. -/
inductive Wait where
  | reg (producer : Nat)
  | barrier | claim | fence | port | requests | walk | busy
  | op (seq : Nat)
  deriving DecidableEq, Repr

/-- One path-table entry with its stack (R175, R176, R180): `stack` is the part held in hardware, top
first; `spilled` entries below it stand in the save area. `gone` holds lanes that exited while entries
were spilled (R179). `retry` is the lane set of ERET.RETRY, or of a partly performed qualified
instruction, for the next instruction (R214, R369). `fenceAt` is the issue number a waiting FENCE,
BAR, .REL atomic or EXIT counts stores up to (R155). `slotted`: the instruction at `pc` has had its issue slot and
waits (R205, R206). `notBefore` and `ageFrom` count cycles of the core's clock. -/
structure Path where
  st : PState
  pc : Nat
  mask : Mask
  token : Option Nat
  origin : Nat
  stack : List StackEnt
  spilled : Nat
  gone : Mask
  fbuf : List (Nat × BitVec 96)
  wait : Option Wait
  notBefore : Nat
  ageFrom : Int
  hold : Bool
  stepOnce : Bool
  retry : Option Mask
  fenceAt : Option Nat
  slotted : Bool
  deriving DecidableEq, Repr

/-- Forms of a tile register (R329, R235): FACT of rank r holds r rank units, unit k the column k of U
and of V; DENSE holds 32 rows of 32 FP32 elements. -/
inductive TileForm where
  | zero | fact | dense
  deriving DecidableEq, Repr

/-- ETAG of a DENSE tile (Table 14.1). -/
inductive ETag where
  | wide | half | fp8 | q4x
  deriving DecidableEq, Repr

/-- One M register (Table 14.1). `units` is its storage, one row of 128 bytes each. -/
structure Tile where
  form : TileForm
  cap : Nat
  etag : ETag
  units : List Row
  deriving DecidableEq, Repr

/-- Where a byte of an engine's range lies: physical memory, or local memory of a workgroup on a core (R81). -/
inductive Place where
  | phys (pa : Nat)
  | loc (wg core off : Nat)
  deriving DecidableEq, Repr

/-- A piece of a virtual range as translated at issue (R105): bytes `off` to `off + n - 1` of the range, their
virtual and their real place, the treatment, and whether the page is NORMAL. -/
structure Seg where
  off : Nat
  n : Nat
  va : Nat
  place : Place
  coh : Coh
  normal : Bool
  deriving DecidableEq, Repr

/-- An operation of a group that has issued and is not complete (R153, R157, R194). `x` is the
execution mask and `mask` the path's mask at issue. `todo` accesses have not performed, `owed`
visibility times have not returned, `acks` are those on their way back. `dst` are the destination
registers with the values gathered so far in `res`, `got` the lanes they stand for. `pend` are the
lanes of a qualified instruction still to perform, `stat` the PEEK statuses, `fl` lanes that faulted
after issue. `leafs` are the table lines
its accesses were translated through (R38). `args` and `rows` are operand values read at issue, `segs` the
memory of an engine operation, and `step` the parts of it that are done. `gvt` is the largest time that the writes of
an engine operation have returned, in ticks (R107, R153). `paths` are the paths whose later
instructions it precedes in program order, and `prior` the operations in flight at its issue that precede it (R151). -/
structure Op where
  seq : Nat
  path : Nat
  pc : Nat
  instr : Instr
  mask : Mask
  x : Mask
  scope : Scope
  cls : Option CtrClass
  isLoad : Bool
  isStore : Bool
  isAtom : Bool
  qual : Qual
  todo : Nat
  owed : Nat
  acks : List Nat
  dst : List Reg
  res : List Row
  got : Mask
  landed : Bool
  pend : Mask
  stat : Mask
  fl : Mask
  cause : Option (Cause × Nat × Nat)
  leafs : List Nat
  args : List (BitVec 64)
  rows : List Row
  fin : Bool
  segs : List Seg
  step : Nat
  gvt : Nat
  paths : List Nat
  prior : List Nat
  deriving DecidableEq, Repr

/-- The scoreboard entry of an empty register (R194, R195): its youngest producer, and the least operation whose
write may still land, those before it being superseded. -/
structure Sb where
  reg : Reg
  seq : Nat
  pc : Nat
  least : Nat
  deriving DecidableEq, Repr

/-- State of an access processor (R184, R381). -/
inductive ApSt where
  | running | exited | stopped
  deriving DecidableEq, Repr

/-- The place of a NEST in progress (R364): its first register, the index vector and the operand that
is pushed next. -/
structure NestPlace where
  reg : Nat
  idx : List Nat
  opnd : Nat
  deriving DecidableEq, Repr

/-- The access processor of a group (R184): 128 registers, 32 predicates, its PC, the NEST place. `notBefore` is
the model's own: its pace where no list of turns is given. -/
structure Ap where
  st : ApSt
  pc : Nat
  s : SMap Word
  p : BitVec 32
  fbuf : List (Nat × BitVec 96)
  wait : Option Wait
  nest : Option NestPlace
  fenceAt : Option Nat
  notBefore : Nat
  deriving DecidableEq, Repr

/-- One queue port (R187, R188): its words, oldest first, and its permits. -/
structure Port where
  words : List Word
  permits : Nat
  deriving DecidableEq, Repr

/-- The group's special registers that are not fixed by its launch (Tables 15.10, 15.12). `xflags` is a
row with one word per lane. -/
structure GroupSr where
  lease : Word
  pnheat : Word
  cpbytes : Word
  mmode : Word
  tol : Word
  trapen : Word
  xflags : Row
  ashbase : DWord
  ashlim : DWord
  rngkey : DWord
  rngctr : DWord
  smpbase : DWord
  smplim : DWord
  smpdrop : Word
  cause : Word
  epc : DWord
  emask : Word
  faddr : DWord
  estat : Word
  tvec : DWord
  deriving DecidableEq, Repr

/-- A class B cause that waits for its boundary (R379); `ap` for one of the access processor, whose lanes are those
that are active when it is taken (R184). -/
structure PendCause where
  path : Nat
  cause : Cause
  info : Nat
  faddr : Nat
  p31 : Mask
  ap : Bool
  deriving DecidableEq, Repr

/-- Registers given by RGIVE that writes still target (R190, R195). -/
structure Given where
  pool : Pool
  n : Nat
  lo : Nat
  hi : Nat
  deriving DecidableEq, Repr

/-- One group (R171, R200). `launch` is the mask of R171; `preds` are P0 to P31 as lane masks. -/
structure Group where
  gid : Nat
  slot : Nat
  core : Nat
  quarter : Nat
  started : Bool
  ended : Bool
  halted : Bool
  role : Nat
  launch : Mask
  paths : List Path
  v : SMap Row
  s : SMap Word
  preds : SMap Mask
  m : SMap Tile
  a : SMap (List Row)
  sb : List Sb
  ops : List Op
  nextSeq : Nat
  ctrs : List Nat
  horizon : List Nat
  ap : Ap
  ports : List Port
  sr : GroupSr
  vhold : Nat
  mhold : Nat
  given : List Given
  joined : Bool
  grantedWhileHalted : List (Pool × Nat × Nat)
  pend : List PendCause
  deriving DecidableEq, Repr

/-! ### Workgroups -/

/-- One entry of a core's cluster map (R82 to R84). -/
structure MapEnt where
  pos : Nat
  core : Nat
  revoking : Bool
  deriving DecidableEq, Repr

/-- A workgroup's part on one core: its core slot, its local region (R74, R75) with the granules that
are not zero and empty, its cluster and join count, the core's cluster map, the CJOIN not yet
installed, the members whose acknowledgement of a leave is awaited, and the CLEAVE that waits. -/
structure WgCore where
  core : Nat
  base : Nat
  size : Nat
  grans : SMap Gran
  freed : Bool
  cluster : Option Nat
  pos : Nat
  joins : Nat
  map : List MapEnt
  joining : Option (Nat × Nat)
  leaving : Option (List Nat)
  cleaver : Option (Nat × Nat)
  deriving DecidableEq, Repr

/-- How far an eviction has come (R214). -/
inductive EvictSt where
  | no | stopping
  deriving DecidableEq, Repr

/-- One workgroup (R172, R197, R198). `raw` is its launch record as accepted, `launcher` the context that launched it, in
which its gang's identifier counts (Table 9.1), `kill` the DSTAT code of
a kill under way, `phases` the phase counters of its 16 barrier identifiers (R173). -/
structure Workgroup where
  handle : Nat
  raw : BitVec 1024
  launcher : Nat
  tenancy : Nat
  shadow : Bool
  cores : List WgCore
  groups : SMap Group
  kill : Option Nat
  evict : EvictSt
  claims : List (Nat × Pool × Nat × Nat)
  phases : List Nat
  deriving DecidableEq, Repr

/-- A barrier phase that is open (R173, R174, R313): the workgroup, or the gang, it belongs to; the
identifier; the scope that its first arrival fixed, with the instance; the groups fixed as its set
where R174 fixes it; the arrivals (workgroup, group, path); the groups that have arrived; and the cycle
of the last arrival. -/
structure BarPhase where
  wg : Nat
  gang : Option (Nat × Nat)
  id : Nat
  scope : Scope
  inst : Nat
  set : Option (List Nat)
  arrived : List (Nat × Nat × Nat)
  groups : List (Nat × Nat)
  lastAt : Nat
  deriving DecidableEq, Repr

/-! ### Cores -/

/-- A claim of k granules or rank units in a quarter's queue, or a floor that a new group waits for (R191,
R192). -/
structure Claim where
  shadow : Bool
  quarter : Nat
  pool : Pool
  wg : Nat
  g : Nat
  path : Nat
  k : Nat
  floor : Bool
  deriving DecidableEq, Repr

/-- The bank that holds a core, and a swap under way with the cycle at which the new bank may issue
(R212). -/
inductive Front where
  | primary
  | toShadow (eligible : Nat)
  | shadow
  | toPrimary (eligible : Nat)
  deriving DecidableEq, Repr

/-- Transforms of a pronoun entry (Table 5.1). -/
inductive Xf where
  | ident | t2d | pack | unpack | hadq
  deriving DecidableEq, Repr

/-- A run of a copy that its core's copy engine still has to handle (R105, R106, R108): bytes `y` to `y + len - 1`
of the destination array, the places of both ranges, and the parameters of Table 5.2 with DOFF, AOFF and SIDE 0.
`listing` is a run that writes a side list. `snap` holds what a memmove or a side list will write (R116), `done`
counts the bytes written. -/
structure CopyRun where
  wg : Nat
  g : Nat
  seq : Nat
  hlim : Nat
  xf : Xf
  param : BitVec 256
  y : Nat
  len : Nat
  dst : List Seg
  src : List Seg
  side : List Seg
  listing : Bool
  snap : Option (List Byte)
  done : Nat
  deriving DecidableEq, Repr

/-- One core (R9 to R11, R70, R97). `demand` is its demand divider and `div` the divider of its clock; the clock stood
at `clkBase` in cycle `clkSince`, when `div` last changed (R3, R210). `slots` are the issue slots that were used:
quarter, whether it is the vector slot, and the cycle of the core's clock (R205). -/
structure Core where
  l1d : List L1Line
  l1i : List ILine
  wbuf : List WbEnt
  misses : List Miss
  bankQ : List BankOp
  engW : List EngWrite
  matrixQ : List (Nat × Nat × Nat)
  xformQ : List (Nat × Nat × Nat)
  copyQ : List CopyRun
  claims : List Claim
  front : Front
  tenancy : Option Nat × Option Nat
  demand : Nat
  div : Nat
  clkBase : Nat
  clkSince : Nat
  slots : List (Nat × Bool × Nat)
  fenced : Bool
  deriving DecidableEq, Repr

/-! ### Homes, directory, pronoun tables -/

/-- Stamps of an LSE line at its home (R138). -/
structure Stamps where
  ws : BitVec 24
  ls : BitVec 24
  lv : Bool
  deriving DecidableEq, Repr

/-- A line of L2 (R93): data, dirty bit, stamps, and the tick it was last used. -/
structure L2Line where
  line : Nat
  data : Row
  dirty : Bool
  stamps : Stamps
  deriving DecidableEq, Repr

/-- Home states of a tracked line (R127). -/
inductive DirSt where
  | i | s | x | o
  deriving DecidableEq, Repr

/-- A tracking entry (Table 6.5). `sharers` are core numbers, or bit numbers when `coarse`, in the
order of their grants. `quietAt` is the tick from which QUIET counts. `table`: the line is a table
line (R30); `tshare` its translation sharers. `ownAt` is the tick of the last grant of ownership and
`used` orders entries by use (R135). -/
structure TrackEnt where
  slice : Nat
  base : Nat
  k : Nat
  st : DirSt
  owner : Nat
  coarse : Bool
  sharers : List Nat
  tenancy : Nat
  mixed : Bool
  table : Bool
  tshare : List Nat
  quietAt : Nat
  ownAt : Nat
  used : Nat
  deriving DecidableEq, Repr

/-- What reaches a home for a line. An engine's store comes as `atomic`, `lseStore` or `unc` by its treatment; `round`
is the invalidation of translations that a store of the device itself to a table line must wait for (R38). -/
inductive HomeReq where
  | dir (core : Nat) (k : ReqKind) (tenancy : Nat)
  | lseRead (core lease ctx vline : Nat) (tr : Trans) (accs : List Acc)
  | lseStore (core : Nat) (accs : List Acc)
  | unc (core : Nat) (accs : List Acc)
  | atomic (core : Nat) (accs : List Acc)
  | tableStore (core : Nat) (coh : Coh) (accs : List Acc)
  | peer (peer tag : Nat) (lse : Bool) (off n : Nat) (what : AccOp)
  | peerLse (peer tag lease : Nat)
  | round
  deriving DecidableEq, Repr

/-- The stages of a request at a BUSY line, in their order: affected antecedents resolve (R113), windows
it writes are trimmed (R114), translations go (R38), probes are sent and answered (R127), a read is
redirected (R109), the request is served, or waits for its perform tick (R141). -/
inductive HomeWait where
  | antecedent | destination | table
  | tinv (quads : List Nat)
  | copies
  | acks (cores : List Nat)
  | redirect | ready
  | perform (tp : Nat)
  deriving DecidableEq, Repr

/-- An answer to a probe: the core, the state it held the line in, and whether the data came from its
write-back buffer. -/
structure Answer where
  core : Nat
  held : Option L1St
  fromWb : Bool
  deriving DecidableEq, Repr

/-- A BUSY line (R127, R129): the request in progress, its stage, the data that an owner or a window
supplied, the answers to its probes, whether they make the entry exact (`exact`: the request met a conflict, R133), the
core whose write-back is held (R130), and the requests queued behind it. -/
structure HomeTxn where
  line : Nat
  req : HomeReq
  wait : HomeWait
  data : Option Row
  answers : List Answer
  exact : Bool
  heldWb : Option Nat
  queue : List HomeReq
  deriving DecidableEq, Repr

/-- Messages between cores and homes (R127 to R130, R136, R140, R145, R94). `answer` tells the state the
core held the line in; `refuse` is the reply of R149 and names the die. -/
inductive MsgKind where
  | req (r : HomeReq)
  | wb (data : Row)
  | probe (k : ProbeKind) (exact : Bool) (tenancy : Nat)
  | answer (held : Option L1St) (data : Option Row) (fromWb : Bool)
  | grant (st : L1St) (data : Option Row) (gvt : Nat)
  | refuse (die : Nat)
  | wbAck
  | clean
  deriving DecidableEq, Repr

/-- A message in flight. `toHome` tells its direction; messages between one core and one home keep
their order (R129). -/
structure Msg where
  core : Nat
  line : Nat
  toHome : Bool
  kind : MsgKind
  deriving DecidableEq, Repr

/-- States of a pronoun entry (Table 5.3); a FREE entry is not listed. -/
inductive PnSt where
  | live | hot | resolving
  deriving DecidableEq, Repr

/-- A pronoun entry (Tables 5.1, 5.2). `hotAt` orders HOT entries (R111). The antecedent index record
of the entry, and of its side list, stand at the homes of `abase` and of PARAM's SIDE (R103). -/
structure PnEnt where
  id : Nat
  ctx : Nat
  xf : Xf
  mirror : Bool
  st : PnSt
  heat : Nat
  dbase : Nat
  dext : Nat
  lo : Nat
  hi : Nat
  hlim : Nat
  abase : Nat
  aext : Nat
  param : BitVec 256
  hotAt : Nat
  deriving DecidableEq, Repr

/-- The high-water lease stamp of a slice (R143). -/
structure HighWater where
  slice : Nat
  stamp : BitVec 24
  deriving DecidableEq, Repr

/-! ### Dies and Stackers -/

/-- A move of a Stacker (R43): the 2 MiB of context `ctx` at `va`, the run they go to, the two table lines
from `table` on with the values expected of their entries, whether the lines have been rewritten, and the frames
still to be released. -/
structure Move where
  ctx : Nat
  va : Nat
  run : Nat
  table : Nat
  expect : List Nat
  done : Bool
  frames : List Nat
  deriving DecidableEq, Repr

/-- A Stacker's registers and its moves in progress (R42, R43, R426). -/
structure Stacker where
  frbase : DWord
  frlim : DWord
  rlbase : DWord
  rllim : DWord
  moves : List Move
  deriving DecidableEq, Repr

/-- The registers of a die block (Table 23.3). -/
structure Die where
  rakectl : BitVec 64
  frames : List Nat
  salvbase : DWord
  salvlim : DWord
  salvcnt : DWord
  salvFull : Bool
  fenced : Bool
  stackFenced : List Bool
  spares : Nat
  notReplaced : Nat
  stackers : List Stacker
  deriving DecidableEq, Repr

/-! ### Distributor, debug, host, links -/

/-- A record in a priority queue (R197, R202). `resume` is the stopped workgroup of R214. -/
structure Queued where
  handle : Nat
  raw : BitVec 1024
  launcher : Nat
  arrived : Nat
  reserving : Bool
  resume : Option Workgroup
  deriving DecidableEq, Repr

/-- A LAUNCH on its way to the distributor (R367): the record, the issuer's rights and its place. `mail` is the page,
the slot and the doorbell's SEQ of one that a control core's dispatcher issues (R204). -/
structure LaunchReq where
  raw : BitVec 1024
  ctx : Nat
  sup : Bool
  wg : Nat
  g : Nat
  seq : Nat
  mail : Option (Nat × Nat × Nat)
  deriving DecidableEq, Repr

/-- An event of DSTAT (R427). -/
structure DstatEv where
  handle : Nat
  code : Nat
  deriving DecidableEq, Repr

/-- STALL sampling of a workgroup (R389): its period in ticks, when it began, and the tick of the last
record of each (group, path). -/
structure StallSampling where
  wg : Nat
  period : Nat
  start : Nat
  seen : List (Nat × Nat × Nat)
  deriving DecidableEq, Repr

/-- A debug right (R386, R388, R389): who holds it, and what it has switched on. -/
structure Right where
  target : Nat
  agent : Nat
  revoking : Bool
  trace : Bool
  bkpten : Bool
  stalls : List StallSampling
  deriving DecidableEq, Repr

/-- A command in DBGCMD's queue (Table 16.4). -/
structure DbgCmd where
  agent : Nat
  cmd : BitVec 128
  deriving DecidableEq, Repr

/-- A HALT that waits for the group's operations (R388). -/
structure Halting where
  agent : Nat
  wg : Nat
  g : Nat
  deriving DecidableEq, Repr

/-- OWNER.STATE (Table 23.2). -/
inductive OwnSt where
  | free | owned | handover | booting
  deriving DecidableEq, Repr

/-- The package's registers of device register space (Tables 23.1, 23.2). -/
structure DevRegs where
  epoch : Nat
  ownSt : OwnSt
  target : BitVec 16
  master : BitVec 16
  handoverAt : Nat
  denied : DWord
  podcfg : DWord
  bootReady : Bool
  bootFail : Bool
  bootSlot : Nat
  meas : List (BitVec 256)
  nonce : BitVec 256
  quote : List Byte
  quoteValid : Bool
  quoting : Bool
  grant : DWord
  handlers : SMap DWord
  hwin : DWord
  deriving DecidableEq, Repr

/-- Boot inputs that live outside the register space (R430, R431): for each flash slot the images with
their signatures and the key offered for them, the key fuses and the device serial. -/
structure Flash where
  slotA : List (List Byte × List Byte × List Byte)
  slotB : List (List Byte × List Byte × List Byte)
  fuses : BitVec 256
  serial : List Byte
  deriving DecidableEq, Repr

/-- One Ethernet port (Table 23.1). -/
structure ZPort where
  up : Bool
  fenced : Bool
  resent : Nat
  dropped : Nat
  deriving DecidableEq, Repr

/-- An unacknowledged flit (R432). -/
structure Sent where
  seq : Nat
  flit : Flit
  port : Nat
  tick : Nat
  deriving DecidableEq, Repr

/-- A peer access that waits for its reply (R144, R168). `sentAt` is the tick it was sent; a prefetch has no
`accs` (R307), an engine's store no `tr`; `done` is the handle of a workgroup whose DONE word is counted up (R203). -/
structure PeerAcc where
  tag : Nat
  core : Nat
  line : Nat
  ctx : Nat
  vline : Nat
  tr : Option Trans
  accs : List Acc
  lease : Nat
  sentAt : Nat
  done : Option Nat
  deriving DecidableEq, Repr

/-- What the device keeps for a peer (R432): sequence numbers, unacknowledged flits, the tick of its
last acknowledgement, accesses that wait, and whether it is unreachable. -/
structure Peer where
  nextSeq : Nat
  nextRecv : Nat
  unacked : List Sent
  lastAck : Nat
  waiting : List PeerAcc
  unreachable : Bool
  deriving DecidableEq, Repr

/-- The rebuild of a LOST block (R68): its array's record and its block-table entry, by virtual address, its slot,
the core whose token engine does it, with its right, and whether it has failed for good. -/
structure Rebuild where
  ctx : Nat
  core : Nat
  sup : Bool
  record : Nat
  slot : Nat
  entry : Nat
  failed : Bool
  deriving DecidableEq, Repr

/-- What leaves the package towards the host (R429): the completion of a read, or Unsupported Request. -/
inductive HostOut where
  | data (bytes : List Byte)
  | unsupported
  deriving DecidableEq, Repr

/-- A slot freed by a token instruction that waits for the KVLDs that read its entry, and for the parity member
`folding` to take its content out (R59, R66); `mirror` is the parity member of its array. `pool` and `record` are virtual addresses, `line` the line of the pool
record. -/
structure SlotFree where
  ctx : Nat
  core : Nat
  sup : Bool
  record : Nat
  pool : Nat
  line : Nat
  slot : Nat
  wg : Nat
  g : Nat
  seq : Nat
  readers : List (Nat × Nat × Nat)
  folding : Option Nat
  mirror : Option Nat
  deriving DecidableEq, Repr

/-- What a token operation still has to do at its pool (R65): reserve n slots, take k that it has been promised
and that lie on top of the free list, give k promised ones up, or put slots back. -/
inductive PoolStep where
  | none
  | reserve (n : Nat)
  | pop (k : Nat)
  | unreserve (k : Nat)
  | back (slots : List Nat)
  deriving DecidableEq, Repr

/-- A token operation that has taken its place at the home of its descriptor at `desc` (R64), with everything it will
do: its pool step at the pool record at `pool`, its answer, the source it reads, the slot rows it writes (`off` is the
place in the source), the record bytes it writes by physical address, the slots it has taken, those it seals, and
those it frees with whether they were sealed; for an array with parity, the parity member and the places of the
slots whose content it sends. `core`, `ctx` and `sup` are its group's. -/
structure TokenOp where
  desc : Nat
  wg : Nat
  g : Nat
  seq : Nat
  core : Nat
  ctx : Nat
  sup : Bool
  record : Nat
  poolVa : Nat
  pool : Nat
  step : PoolStep
  value : Nat
  src : List Seg
  rows : List Seg
  writes : List (Nat × List Byte)
  taken : List Nat
  seals : List Nat
  frees : List (Nat × Bool)
  parity : Option Nat
  folds : List (Nat × List Seg)
  deriving DecidableEq, Repr

/-! ### The machine -/

/-- Whom the next instruction belongs to. -/
inductive Issuer where
  | none
  | path (wg g p : Nat)
  | ap (wg g : Nat)
  deriving DecidableEq, Repr

/-- What happens in a turn: an issue (fetching `pre` instructions ahead), an event of the opcode table, a replacement that
the caches choose by themselves, a dispatcher that serves a doorbell (R204), or a host's read of a mailbox page or of the
register space (R429, R436). -/
inductive Act where
  | issue (wg g p pre : Nat)
  | apIssue (wg g pre : Nat)
  | event (i : Instr)
  | evictL1 (core line : Nat)
  | evictI (core line : Nat)
  | evictL2 (line : Nat)
  | evictTrans (quad va : Nat)
  | serve (page slot : Nat)
  | hostRead (mail : Bool) (off n : Nat)
  | pass
  deriving DecidableEq, Repr

/-- A turn: `dt` cycles pass, then `act`. -/
structure Turn where
  dt : Nat
  act : Act
  deriving DecidableEq, Repr

/-- The state of the package. `sched` (the order of events the environment and the device's own
arbitration take), `cur` and `fresh` are the model's own: `sched` lists the turns still to come, and
`fresh` numbers the free values used so far. `parityHold` are the slots whose folds this device holds as the parity member,
with the member that still waits for the rebuilt content (R68), and `mirrors` what it keeps of the records of each other
member, by their physical addresses there (R66). `arrivals` are the requests that reached homes in the present cycle: line,
cycle, core (R129). -/
structure State where
  cycle : Nat
  sched : List Turn
  cur : Issuer
  fresh : Nat
  mem : List Host.Cell
  l2 : List L2Line
  dir : List TrackEnt
  homes : List HomeTxn
  msgs : List Msg
  arrivals : List (Nat × Nat × Nat)
  highWater : List HighWater
  lostLines : List Nat
  cores : SMap Core
  quads : SMap Quad
  dies : List Die
  pn : List PnEnt
  nextPn : Nat
  pnquota : SMap Word
  wgs : SMap Workgroup
  bars : List BarPhase
  queues : List (List Queued)
  launches : List LaunchReq
  nextHandle : Nat
  lastDie : Nat
  dstat : List DstatEv
  dstatLost : Nat
  rights : List Right
  dbgQ : List DbgCmd
  halting : List Halting
  dbgstat : SMap (BitVec 128)
  revoked : List (Nat × Nat)
  ctxbase : DWord
  reg : DevRegs
  flash : Flash
  mail : SMap (SMap Gran)
  zports : List ZPort
  peers : SMap Peer
  out : List HostOut
  slotFrees : List SlotFree
  tokenQ : List TokenOp
  rebuilds : List Rebuild
  parityHold : List (Nat × Nat × Nat × Option Nat)
  foldHeld : List (Nat × Nat × Nat × List Byte)
  mirrors : SMap (List Host.Cell)
  deriving DecidableEq, Repr

/-- Reasons for which the machine itself stops. The device turns every misuse of a program into a
trap, so this happens only in states that hold a dangling name. -/
inductive Fault where
  /-- Raised by `step` and by the meanings when the state names a group, an operation or a line that
  it does not hold. No state reached from reset does. Safe: the device has no such state. -/
  | broken (what : String)
  deriving DecidableEq, Repr

/-- Reasons for which a step has no meaning. -/
inductive Refusal where
  /-- Raised by `exec` for an instruction that has no meaning yet. Safe. -/
  | notModelled (mnemonic : String)
  /-- Raised by an event that cannot happen now: nothing it would act on is pending. Safe: the device
  does not take such a step, and the turn list proposed it. -/
  | notPending (event : String)
  /-- Raised by an instruction executed for no path and no access processor. Safe: the same. -/
  | noIssuer
  /-- Raised when the path that should issue is not ready. Safe: the same. -/
  | notReady
  deriving DecidableEq, Repr

abbrev Out := Host.Outcome State Fault Refusal

/-! ### Defaults and reset -/

def Quad.empty : Quad :=
  { tc := [], wc := [], desc := [], walks := [], faults := [], tinv := [], fenced := false }

def Core.empty : Core :=
  { l1d := [], l1i := [], wbuf := [], misses := [], bankQ := [], engW := [], matrixQ := [],
    xformQ := [], copyQ := [], claims := [], front := .primary, tenancy := (none, none),
    demand := 1, div := 1, clkBase := 0, clkSince := 0, slots := [], fenced := false }

def Gran.empty : Gran := { data := 0, full := false, waiters := [] }

/-- An M register at launch (R329). -/
def Tile.zero : Tile := { form := .zero, cap := 32, etag := .wide, units := [] }

def Stacker.reset : Stacker := { frbase := 0, frlim := 0, rlbase := 0, rllim := 0, moves := [] }

/-- RAKECTL at reset (Table 4.7): WBMAX 0x4, AGE 0x40, L1EN, L2EN and EN set. -/
def Die.reset : Die :=
  { rakectl := 0x404007#64, frames := [], salvbase := 0, salvlim := 0, salvcnt := 0,
    salvFull := false, fenced := false, stackFenced := [false, false], spares := 2,
    notReplaced := 0, stackers := List.replicate 8 Stacker.reset }

def DevRegs.reset : DevRegs :=
  { epoch := 0, ownSt := .booting, target := 0xFFFF#16, master := 0xFFFF#16, handoverAt := 0,
    denied := 0, podcfg := 0, bootReady := false, bootFail := false, bootSlot := 0,
    meas := List.replicate 8 0, nonce := 0, quote := [], quoteValid := false, quoting := false,
    grant := 0, handlers := [], hwin := 0 }

def ZPort.reset : ZPort := { up := false, fenced := false, resent := 0, dropped := 0 }

def Peer.empty : Peer :=
  { nextSeq := 1, nextRecv := 1, unacked := [], lastAck := 0, waiting := [], unreachable := false }

/-- The group special registers at launch (R200): sr.LEASE 0x010 (Table 6.8), sr.PNHEAT 0x40 (Table
5.9), sr.TOL 0x3A83_126F (Table 10.12), the others 0; the launch sets sr.TVEC. -/
def GroupSr.reset : GroupSr :=
  { lease := 0x10, pnheat := 0x40, cpbytes := 0, mmode := 0, tol := 0x3A83126F, trapen := 0, xflags := 0,
    ashbase := 0, ashlim := 0, rngkey := 0, rngctr := 0, smpbase := 0, smplim := 0, smpdrop := 0,
    cause := 0, epc := 0, emask := 0, faddr := 0, estat := 0, tvec := 0 }

def Path.free : Path :=
  { st := .free, pc := 0, mask := 0, token := none, origin := 0, stack := [], spilled := 0,
    gone := 0, fbuf := [], wait := none, notBefore := 0, ageFrom := 0, hold := false,
    stepOnce := false, retry := none, fenceAt := none, slotted := false }

/-- The machine right after reset (R430): OWNER.STATE is BOOTING, nothing is cached, queued or placed,
and memory lists nothing. -/
def State.reset : State :=
  { cycle := 0, sched := [], cur := .none, fresh := 0, mem := [], l2 := [], dir := [], homes := [],
    msgs := [], arrivals := [], highWater := [], lostLines := [], cores := [], quads := [],
    dies := List.replicate 8 Die.reset, pn := [], nextPn := 0, pnquota := [], wgs := [], bars := [],
    queues := List.replicate 8 [], launches := [], nextHandle := 0, lastDie := 7, dstat := [],
    dstatLost := 0, rights := [], dbgQ := [], halting := [], dbgstat := [], revoked := [],
    ctxbase := 0, reg := DevRegs.reset,
    flash := { slotA := [], slotB := [], fuses := 0, serial := [] }, mail := [],
    zports := List.replicate 8 ZPort.reset, peers := [], out := [], slotFrees := [], tokenQ := [],
    rebuilds := [], parityHold := [], foldHeld := [], mirrors := [] }

end Sys2Proof.Machine
end

