-- ==== Sys2Proof/Machine/Ops.lean ====
section
/-!
DEFINITION. The named operations over the state: memory bytes and lines, the parts of a workgroup and
of a group, registers and their full/empty bits, horizons, the kill of a workgroup, taking an exception
(R378) and the return from one (R369).
-/
namespace Sys2Proof

/-! ### Scopes and counter classes by code (Tables 7.1, 11.5, R314) -/

def Scope.num : Scope → Nat
  | .grp => 0 | .clu => 1 | .core => 2 | .quad => 3 | .die => 4 | .pkg => 5 | .pod => 6 | .sys => 7

def allScopes : List Scope := [.grp, .clu, .core, .quad, .die, .pkg, .pod, .sys]

/-- Whether the observers of `s` are among those of `t` (the column "Covers"). -/
def Scope.covers (t s : Scope) : Bool :=
  match t, s with
  | _, .grp => true
  | .clu, .core => true
  | .core, .clu | .quad, .clu => false
  | t, s => s.num ≤ t.num

def CtrClass.num : CtrClass → Nat
  | .copy => 0 | .xform => 1 | .matrix => 2 | .token => 3

end Sys2Proof

namespace Sys2Proof.Machine

/-! ### Memory: HBM as a sparse list of cells; an unlisted address reads 0 -/

namespace Memory

/-- Addresses strictly rising, and no cell that holds what an unlisted address reads as. -/
def wf : List Host.Cell → Bool
  | [] => true
  | [c] => c.2 != 0
  | c :: d :: m => c.2 != 0 && c.1 < d.1 && wf (d :: m)

/-- The byte at an address. -/
def get : List Host.Cell → Nat → Byte
  | [], _ => 0
  | c :: m, a => if a = c.1 then c.2 else get m a

/-- The memory with one byte written. -/
def set : List Host.Cell → Nat → Byte → List Host.Cell
  | [], a, b => if b = 0 then [] else [(a, b)]
  | c :: m, a, b =>
    if a < c.1 then (if b = 0 then c :: m else (a, b) :: c :: m)
    else if a = c.1 then (if b = 0 then m else (a, b) :: m)
    else c :: set m a b

/-- `n` bytes from an address. -/
def read (m : List Host.Cell) (a : Nat) : Nat → List Byte
  | 0 => []
  | n + 1 => get m a :: read m (a + 1) n

/-- Bytes written from an address upwards. -/
def write (m : List Host.Cell) (a : Nat) : List Byte → List Host.Cell
  | [] => m
  | b :: bs => write (set m a b) (a + 1) bs

end Memory

/-! ### Physical addresses (R21 to R23, R90, R91) -/

/-- Bytes of HBM of a die, and of the package. -/
def hbmDie : Nat := 0x18_0000_0000
def hbmTop : Nat := 0xC0_0000_0000
/-- The device register space. -/
def regBase : Nat := 0xF000_0000_0000
def regTop : Nat := 0xF001_0000_0000
/-- Bit 51: memory of a peer. -/
def peerBit : Nat := 0x8_0000_0000_0000

def isHbm (pa : Nat) : Bool := pa < hbmTop
def isReg (pa : Nat) : Bool := regBase ≤ pa && pa < regTop
def isPeer (pa : Nat) : Bool := peerBit ≤ pa
def peerOf (pa : Nat) : Nat := bitsOf pa 50 41

/-- R23: the address is backed. -/
def isBacked (pa : Nat) : Bool :=
  isHbm pa || isReg pa
  || (isPeer pa && pa < 2 ^ 52 && peerOf pa < 576 && pa % 2 ^ 41 < hbmTop)

def lineOf (pa : Nat) : Nat := pa / 128 * 128

/-- The home die of an HBM address; 8 is the I/O die. -/
def homeDie (pa : Nat) : Nat := if isHbm pa then pa / hbmDie else 8

/-- The home slice, numbered over the package; the register space and peers have one place of their
own each. -/
def sliceOf (pa : Nat) : Nat :=
  if isHbm pa then
    homeDie pa * 64 + ((bitsOf pa 12 7 ^^^ bitsOf pa 18 13) ^^^ bitsOf pa 24 19)
  else if isReg pa then 512 else 513 + peerOf pa

/-- The HBM stack of an address within its die (R22). -/
def stackOf (pa : Nat) : Nat := (pa % hbmDie) / 0xC_0000_0000

/-- The channel of an address within its channel group (R91). -/
def channelOf (pa : Nat) : Nat := bitsOf (pa % 0x3_0000_0000) 9 7 ^^^ bitsOf (pa % 0x3_0000_0000) 17 15

/-! ### Units (R9, R10): control cores are numbered from 1024, their units follow the die's -/

def quadOf (core : Nat) : Nat := core / 4
def dieOf (core : Nat) : Nat := if core < 1024 then core / 128 else 8
def coresOfQuad (q : Nat) : List Nat := [4 * q, 4 * q + 1, 4 * q + 2, 4 * q + 3]

/-! ### Time (R3, R125) -/

def State.tick (s : State) : Nat := s.cycle / 32

/-- The tick at the first tick boundary at or after a cycle. -/
def upTick (cycle : Nat) : Nat := (cycle + 31) / 32

/-- A free value: the next one the manual leaves open, and the state that has used it. -/
def State.free (s : State) : Row × State := (Config.freeRow s.fresh, { s with fresh := s.fresh + 1 })

/-! ### Parts of the state -/

def State.core (s : State) (c : Nat) : Core := look Core.empty s.cores c

/-- The cycle of a core's own clock (R3, R210). -/
def State.clock (s : State) (c : Nat) : Nat :=
  (s.core c).clkBase + (s.cycle - (s.core c).clkSince) / (s.core c).div

def State.setCore (s : State) (c : Nat) (x : Core) : State := { s with cores := put s.cores c x }
def State.modCore (s : State) (c : Nat) (f : Core → Core) : State := s.setCore c (f (s.core c))
def State.quad (s : State) (q : Nat) : Quad := look Quad.empty s.quads q
def State.setQuad (s : State) (q : Nat) (x : Quad) : State := { s with quads := put s.quads q x }
def State.modQuad (s : State) (q : Nat) (f : Quad → Quad) : State := s.setQuad q (f (s.quad q))
def State.die (s : State) (d : Nat) : Die := (s.dies[d]?).getD Die.reset
def State.modDie (s : State) (d : Nat) (f : Die → Die) : State := { s with dies := modAt f s.dies d }

def State.wg? (s : State) (h : Nat) : Option Workgroup := find? s.wgs h
def State.setWg (s : State) (h : Nat) (w : Workgroup) : State := { s with wgs := put s.wgs h w }
def State.modWg (s : State) (h : Nat) (f : Workgroup → Workgroup) : State :=
  match s.wg? h with
  | none => s
  | some w => s.setWg h (f w)

def Workgroup.group? (w : Workgroup) (g : Nat) : Option Group := find? w.groups g
def State.group? (s : State) (h g : Nat) : Option Group := (s.wg? h).bind (·.group? g)
def Workgroup.setGroup (w : Workgroup) (g : Nat) (x : Group) : Workgroup := { w with groups := put w.groups g x }

def State.setGroup (s : State) (h g : Nat) (x : Group) : State := s.modWg h (·.setGroup g x)
def State.modGroup (s : State) (h g : Nat) (f : Group → Group) : State :=
  match s.group? h g with
  | none => s
  | some x => s.setGroup h g (f x)

/-- Every group of the state with its workgroup's handle. -/
def State.allGroups (s : State) : List (Nat × Group) :=
  s.wgs.flatMap fun e => e.2.groups.map fun g => (e.1, g.2)

/-! ### The launch record (Table 9.1) -/

/-- Bits hi to lo of a launch record. -/
def recField (raw : BitVec 1024) (hi lo : Nat) : Nat := bitsOf raw.toNat hi lo

namespace Workgroup
variable (w : Workgroup)
def lanePc : Nat := recField w.raw 1023 960
def apPc : Nat := recField w.raw 959 896
def argPtr : Nat := recField w.raw 895 832
def privBase : Nat := recField w.raw 831 768
def doneAddr : Nat := recField w.raw 767 704
def tag : Nat := recField w.raw 511 480
def privSize : Nat := recField w.raw 479 451 * 16
def threads : Nat := recField w.raw 422 406
def localSize : Nat := recField w.raw 405 399 * 4096
def level : Nat := recField w.raw 392 391
def prio : Nat := recField w.raw 390 388
def preempt : Bool := recField w.raw 387 387 == 1
def gang : Nat := recField w.raw 386 371
def gangN : Nat := recField w.raw 370 365 + 1
def ctx : Nat := recField w.raw 359 348
def saveBase : Nat := recField w.raw 347 309 * 0x1_0000
/-- Cores of the placement (Table 8.1). -/
def nCores : Nat := match w.level with | 0 => 1 | 1 => 4 | _ => recField w.raw 398 393
/-- Groups: ⌈T / 32⌉ (R171). -/
def nGroups : Nat := (w.threads + 31) / 32
/-- Role code of group g. -/
def roleOf (g : Nat) : Nat :=
  let k := g % (recField w.raw 364 360 + 1)
  recField w.raw (640 + 2 * k + 1) (640 + 2 * k)
/-- sr.WGSCOPE as a scope (R172). -/
def scope : Scope := match w.level with | 0 => .core | 1 => .quad | _ => .die
end Workgroup

/-- Pool limits of role r in a launch record: V floor, V ceiling, M floor, M ceiling. -/
structure Limits where
  vFloor : Nat
  vCeil : Nat
  mFloor : Nat
  mCeil : Nat
  deriving DecidableEq, Repr

/-- ROLECFGr. -/
def roleCfg (raw : BitVec 1024) (r : Nat) : Nat := recField raw (543 + 32 * r) (512 + 32 * r)

def limitsOf (raw : BitVec 1024) (r : Nat) : Limits :=
  let x := roleCfg raw r
  { vFloor := bitsOf x 29 25, vCeil := bitsOf x 24 20, mFloor := bitsOf x 19 10, mCeil := bitsOf x 9 0 }

def Workgroup.limits (w : Workgroup) (g : Nat) : Limits := limitsOf w.raw (w.roleOf g)

/-- The scope a SCOPE field names, WG being sr.WGSCOPE (R150). -/
def scopeSel (w : Workgroup) : ScopeSel → Scope
  | .sc s => s
  | .wg => w.scope

/-! ### Groups -/

namespace Group
variable (gr : Group)

def path (p : Nat) : Path := (gr.paths[p]?).getD Path.free
def setPath (p : Nat) (x : Path) : Group := { gr with paths := modAt (fun _ => x) gr.paths p }
def modPath (p : Nat) (f : Path → Path) : Group := { gr with paths := modAt f gr.paths p }

/-- The lanes of every path that is not FREE. -/
def activeMask : Mask := gr.paths.foldl (fun m p => if p.st == .free then m else m ||| p.mask) 0

def isFull (r : Reg) : Bool := !gr.sb.any (·.reg == r)

/-- Predicate k as a lane mask. -/
def pred (k : Nat) : Mask := look 0 gr.preds k

/-- The PC of the youngest producer of an empty register (R194). -/
def producer (r : Reg) : Nat := ((gr.sb.find? (·.reg == r)).map (·.pc)).getD 0

/-- The least operation whose write of `r` may still land once operation `seq` targets it: a full register has been
written by its youngest producer. -/
def leastFor (r : Reg) (seq : Nat) : Nat := ((gr.sb.find? (·.reg == r)).map (·.least)).getD seq

/-- Registers marked empty by operation `seq` at `pc` (R194). -/
def markEmpty (rs : List Reg) (seq pc : Nat) : Group :=
  { gr with sb := rs.map (fun r => { reg := r, seq := seq, pc := pc, least := gr.leastFor r seq })
              ++ gr.sb.filter (fun e => !rs.contains e.reg) }

/-- Registers written over by a later instruction are full (R194, R195). -/
def markFull (rs : List Reg) : Group := { gr with sb := gr.sb.filter (fun e => !rs.contains e.reg) }

/-- Operation `seq` has written `r`: full if it is the youngest producer; earlier writes of it no longer land (R195). -/
def landed (r : Reg) (seq : Nat) : Group :=
  let rest := gr.sb.filter fun e => !(e.reg == r && e.seq == seq)
  { gr with sb := modWhere (fun e => e.reg == r && e.least ≤ seq) (fun e => { e with least := seq }) rest }

/-- Whether operation `seq`'s write of `r` may still land: no later write has landed. -/
def mayLand (r : Reg) (seq : Nat) : Bool := gr.sb.any fun e => e.reg == r && e.least ≤ seq && seq ≤ e.seq

def vHeld (i n : Nat) : Bool := i + n ≤ 32 * gr.vhold

def counter (k : CtrClass) : Nat := (gr.ctrs[k.num]?).getD 0
def raiseCtr (k : CtrClass) : Group := { gr with ctrs := modAt (· + 1) gr.ctrs k.num }
def lowerCtr (k : CtrClass) : Group := { gr with ctrs := modAt (· - 1) gr.ctrs k.num }

/-- H(s) (R154). -/
def horizonOf (s : Scope) : Nat := (gr.horizon[s.num]?).getD 0

/-- A global visibility time of an operation of scope `t` raises H(s) for every s that t covers. -/
def raiseH (t : Scope) (gvt : Nat) : Group :=
  { gr with horizon := allScopes.map fun s => if t.covers s then max (gr.horizonOf s) gvt else gr.horizonOf s }

/-- The supervisor-handler bit (sr.ESTAT.SUP) and the handler's path. -/
def sup : Bool := gr.sr.estat.getLsbD 0
def supPath : Nat := bitsOf gr.sr.estat.toNat 3 2

def op? (seq : Nat) : Option Op := gr.ops.find? (·.seq == seq)
def modOp (seq : Nat) (f : Op → Op) : Group := { gr with ops := modWhere (·.seq == seq) f gr.ops }
def dropOp (seq : Nat) : Group := { gr with ops := gr.ops.filter (·.seq != seq) }

def port (j : Nat) : Port := (gr.ports[j]?).getD { words := [], permits := 0 }
def modPort (j : Nat) (f : Port → Port) : Group := { gr with ports := modAt f gr.ports j }

/-! Registers. A V row is merged under a lane mask; a register that is written by an instruction that
does not mark it empty becomes full. -/

def vreg (i : Nat) : Row := look 0 gr.v i
def sreg (i : Nat) : Word := look 0 gr.s i
def tile (k : Nat) : Tile := look Tile.zero gr.m k
/-- Rows of an accumulator; the empty list is ZERO. -/
def acc (k : Nat) : List Row := look [] gr.a k

def putV (i : Nat) (m : Mask) (r : Row) : Group := { gr with v := put gr.v i (Row.merge m r (gr.vreg i)) }
def putS (i : Nat) (x : Word) : Group := { gr with s := put gr.s i x }
def putP (k : Nat) (m x : Mask) : Group := { gr with preds := put gr.preds k ((gr.pred k &&& ~~~ m) ||| (x &&& m)) }
def putM (k : Nat) (t : Tile) : Group := { gr with m := put gr.m k t }
def putA (k : Nat) (rows : List Row) : Group := { gr with a := put gr.a k rows }

/-! Program order across paths (R151). -/

/-- Path j is split from path p: what precedes p's instructions precedes those of j. -/
def fork (p j : Nat) : Group :=
  { gr with ops := gr.ops.map fun o =>
      { o with paths := if o.paths.contains p then j :: o.paths.erase j else o.paths.erase j } }

/-- Path j merges into path p: what precedes j's instructions precedes those of p from here on. -/
def join (p j : Nat) : Group :=
  { gr with ops := gr.ops.map fun o =>
      { o with paths := if o.paths.contains j && !o.paths.contains p then p :: o.paths else o.paths } }

/-- Rank units a tile register or accumulator occupies; one whose producer is in flight counts with that
producer's bound, the first of its arguments (R330). -/
def occOf (r : Reg) : Nat :=
  let present := match r with
    | .m k => (match (gr.tile k).form with | .zero => 0 | .fact => (gr.tile k).units.length | .dense => 32)
    | .a k => if (gr.acc k).isEmpty then 0 else 32
    | _ => 0
  match gr.sb.find? (·.reg == r) with
  | some e => ((gr.op? e.seq).map fun o => (o.args.headD 0).toNat).getD present
  | none => present

/-- Rank units of the whole group (R235, R330). -/
def occupancy : Nat :=
  ((List.range 16).map fun k => gr.occOf (.m k)).sum + ((List.range 8).map fun k => gr.occOf (.a k)).sum

end Group

/-- Empty a path's fetch buffer (R89). -/
def Path.flush (p : Path) : Path := { p with fbuf := [] }

/-- The path goes on at `pc` in READY state. -/
def Path.goTo (p : Path) (pc : Nat) : Path := { p with st := .ready, pc := pc, wait := none, fenceAt := none, slotted := false }

/-- The path goes on behind the instruction at its PC. -/
def Path.advance (p : Path) : Path := { p.goTo ((p.pc + 12) % 2 ^ 64) with retry := none }

/-! ### Causes (Table 16.1) -/

def Cause.code : Cause → Nat
  | .addrForm => 0x01 | .windowHole => 0x02 | .privRange => 0x03 | .clusterGone => 0x04
  | .localRange => 0x05 | .ptAbsent => 0x06 | .ptFormat => 0x07 | .ptNotdir => 0x08
  | .perm => 0x09 | .physRange => 0x0A | .homeLost => 0x0B | .feWindow => 0x10 | .feSpan => 0x11
  | .cohExpect => 0x12 | .align => 0x13 | .illegalOpc => 0x18 | .illegalMod => 0x19
  | .illegalOpd => 0x1A | .braDiverge => 0x1B | .srAccess => 0x1C | .apIllegal => 0x1D
  | .apOnly => 0x1E | .regEmpty => 0x20 | .regUnheld => 0x21 | .roleEngine => 0x22
  | .stackDepth => 0x23 | .joinMismatch => 0x24 | .stagePhase => 0x25 | .nestFormat => 0x26
  | .queueDry => 0x27 | .tileBudget => 0x28 | .poolRange => 0x29 | .claimPending => 0x2A
  | .barScope => 0x2B | .copyFormat => 0x30 | .rankOvf => 0x31 | .tileForm => 0x32
  | .xfFormat => 0x33 | .kvFormat => 0x38 | .kvReserve => 0x39 | .posOverflow => 0x3A
  | .kvLost => 0x3B | .kvSeqstate => 0x3C | .arith => 0x40 | .trap => 0x41 | .svc => 0x42
  | .bkpt => 0x43

/-- Causes whose INFO holds a whole 16-bit code (R375). -/
def Cause.hasCode : Cause → Bool
  | .trap | .svc | .bkpt => true
  | _ => false

/-- Causes of Table 16.1 that report an address in sr.FADDR: codes 0x01 to 0x13. -/
def Cause.hasAddr (c : Cause) : Bool := c.code ≤ 0x13

/-- What is raised: the restart class, the cause with INFO bits 14 to 0, the address of the lowest
faulting lane's access, and the lanes P31 receives. -/
structure Raise where
  cls : RestartClass
  cause : Cause
  info : Nat := 0
  faddr : Nat := 0
  p31 : Mask
  deriving DecidableEq, Repr

/-! ### Debug records and DSTAT -/

/-- A workgroup event for DSTAT, whose queue holds 256; further ones are counted (R427). -/
def State.dstatEvent (s : State) (handle code : Nat) : State :=
  if s.dstat.length < 256 then { s with dstat := s.dstat ++ [{ handle := handle, code := code }] }
  else { s with dstatLost := min (s.dstatLost + 1) 0x7FFF_FFFF }

/-! ### Kill (R384, R385): steps 1 to 3; `killSettle` does the rest -/

/-- The barrier phase without the arrivals of a killed workgroup. -/
def BarPhase.tearDown (h : Nat) (b : BarPhase) : BarPhase :=
  { b with arrived := b.arrived.filter (·.1 != h), groups := b.groups.filter (·.1 != h) }

/-- Waiters of a workgroup leave a granule's queue; the other waiters keep their order. -/
def Gran.dropWaiters (h : Nat) (g : Gran) : Gran := { g with waiters := g.waiters.filter (·.wg != h) }

/-- Steps 1 to 3 for one workgroup: it stops, its waiters, claims and floors go, its barriers are torn
down. -/
def State.killOne (s : State) (code h : Nat) : State :=
  let s := s.modWg h fun w =>
    { w with kill := some (w.kill.getD code),
             cores := w.cores.map fun c => { c with grans := c.grans.map fun e => (e.1, e.2.dropWaiters h) },
             claims := [] }
  { s with
    cores := s.cores.map fun e => (e.1, { e.2 with claims := e.2.claims.filter (·.wg != h) })
    bars := (s.bars.map (·.tearDown h)).filter fun b => b.wg != h || b.gang.isSome }

/-- The members of a workgroup's gang, or the workgroup alone. -/
def State.gangOf (s : State) (h : Nat) : List Nat :=
  match s.wg? h with
  | none => []
  | some w =>
    if w.gang == 0 then [h]
    else (s.wgs.filter fun e => e.2.gang == w.gang && e.2.launcher == w.launcher).map (·.1)

/-- A queued record as a workgroup without groups: what a kill leaves of it. -/
def Queued.dead (q : Queued) : Workgroup :=
  { handle := q.handle, raw := q.raw, launcher := q.launcher, tenancy := 0, shadow := false, cores := [], groups := [], kill := none,
    evict := .no, claims := [], phases := [] }

/-- The gang of a handle: the context that launched it and its identifier, 0 for none. -/
def State.gangName (s : State) (h : Nat) : Nat × Nat :=
  match s.wg? h with
  | some w => (w.launcher, w.gang)
  | none => (((s.queues.flatMap id).find? (·.handle == h)).map fun q => (q.launcher, q.dead.gang)).getD (0, 0)

/-- Queued records that a kill of `h` reaches leave their queues. -/
def State.unqueue (s : State) (h : Nat) : State :=
  let n := s.gangName h
  let hit := fun (q : Queued) => q.handle == h || (n.2 != 0 && q.launcher == n.1 && q.dead.gang == n.2)
  let out := (s.queues.flatMap id).filter hit
  out.foldl (fun s q => s.setWg q.handle q.dead) { s with queues := s.queues.map fun l => l.filter fun q => !hit q }

/-- Kill of a workgroup and of its gang with a DSTAT code. -/
def State.killWg (s : State) (h code : Nat) : State :=
  let s := s.unqueue h
  (s.gangOf h).foldl (fun s k => s.killOne code k) s

/-! ### Taking an exception (R378) -/

/-- The return point of Table 16.2 for a path at `pc`. A fetch fault's PC is the fetched address, and a
cause of class B names the boundary, which is the PC the path stands at. -/
def returnPoint (c : RestartClass) (pc : Nat) : Nat :=
  match c with
  | .after => (pc + 12) % 2 ^ 64
  | _ => pc

/-- sr.CAUSE. `ap` marks a cause of the access processor. -/
def causeWord (r : Raise) (ap : Bool) : Word :=
  let info := if r.cause.hasCode then r.info % 2 ^ 16
    else r.info % 2 ^ 15 + (if ap then 2 ^ 15 else 0)
  BitVec.ofNat 32 (info * 2 ^ 16 + r.cause.code)

/-- sr.ESTAT at entry: PATH, LANE and SUP. -/
def estatAt (p : Nat) (lane : Bool) : Word :=
  BitVec.ofNat 32 (p % 4 * 4 + (if lane then 2 else 0) + 1)

/-- The PC field of sr.EPC and sr.TVEC: bits 54 to 2. -/
def pcField (pc : Nat) : DWord := BitVec.ofNat 64 (pc % 2 ^ 55 / 4 * 4)

/-- The group after entry of path p, which stands at `pc`, into the handler. -/
def Group.enter (gr : Group) (p pc now : Nat) (r : Raise) (ap : Bool) : Group :=
  let entry := bitsOf gr.sr.tvec.toNat 54 2 * 4
  let gr := { gr with
    sr := { gr.sr with
      cause := causeWord r ap
      faddr := if r.cause.hasAddr then BitVec.ofNat 64 r.faddr else 0
      epc := pcField (returnPoint r.cls pc)
      emask := (gr.path p).mask
      estat := estatAt p (r.cls == RestartClass.lane) }
    preds := put gr.preds 31 r.p31 }
  gr.modPath p fun q =>
    { q.goTo entry with fbuf := [], notBefore := now + 16, retry := none }

/-- A raised cause: entry into the handler, or the kill of R378 and R380. -/
def State.raise (s : State) (h g p : Nat) (r : Raise) (ap : Bool := false) : State :=
  match s.group? h g with
  | none => s
  | some gr =>
    if gr.sup || bitsOf gr.sr.tvec.toNat 54 2 == 0 then s.killWg h r.cause.code
    else s.setGroup h g (gr.enter p (gr.path p).pc (s.clock gr.core) r ap)

/-- A cause of class B waits for its boundary; a path holds at most one (R379). -/
def Group.addPend (gr : Group) (c : PendCause) : Group :=
  if gr.pend.any (fun d => d.path == c.path && d.ap == c.ap) then gr else { gr with pend := gr.pend ++ [c] }

/-! ### The return from a handler (R369) -/

/-- ERET of path p: SUP is cleared, the path takes the saved PC and mask, and a stopped access processor
runs again (R381). `lanes` is what the next instruction is limited to under .RETRY. -/
def Group.eret (gr : Group) (p : Nat) (lanes : Option Mask) : Group :=
  let gr := { gr with
    sr := { gr.sr with estat := gr.sr.estat &&& 0xFFFFFFFE#32 }
    ap := if gr.ap.st == ApSt.stopped then { gr.ap with st := .running } else gr.ap }
  gr.modPath p fun q =>
    { q.goTo (bitsOf gr.sr.epc.toNat 54 2 * 4) with mask := gr.sr.emask, fbuf := [], retry := lanes }

/-- A token operation is given up: slots that it has taken from its pool go back by a further update (R65). -/
def TokenOp.giveUp (t : TokenOp) : Option TokenOp :=
  match t.step with
  | .back _ => some t
  | .none => if t.taken.isEmpty then none
    else some { t with step := .back t.taken, src := [], rows := [], writes := [], taken := [], seals := [], frees := [], folds := [] }
  | _ => none

end Sys2Proof.Machine
end

