-- ==== Sys2Proof/Machine/Line.lean ====
section
/-!
DEFINITION. One physical line at its home: L2 and HBM (R90 to R93), lease stamps (R138, R143), what a
live window reads as (R100, R101, R109, R110), the copies of a line in L1s, and the accesses to a line
that one indivisible step makes for an engine, a walker, a fetch or the device itself: a coherent read,
and a write that takes every copy back.
-/
namespace Sys2Proof

/-- The bytes of a row replaced from an offset. -/
def Row.putBytes (r : Row) (off : Nat) (bs : List Byte) : Row :=
  (List.range bs.length).foldl (fun r i => r.setByte (off + i) (bs.getD i 0)) r

end Sys2Proof

namespace Sys2Proof.Machine

/-! ### Stamps (R138) -/

def stampOf (tick : Nat) : BitVec 24 := BitVec.ofNat 24 tick

/-- Stamp a is before stamp b. -/
def stampBefore (a b : BitVec 24) : Bool := a != b && (b - a).toNat < 0x80_0000

def laterStamp (a b : BitVec 24) : BitVec 24 := if stampBefore a b then b else a

/-- The full tick a stamp stands for, at or after `now` (stamps lie within 2^23 ticks, R143). -/
def stampTick (now : Nat) (a : BitVec 24) : Nat :=
  if stampBefore (stampOf now) a then now + (a - stampOf now).toNat else now

/-! ### What a tracking entry names (R132) -/

namespace TrackEnt
variable (t : TrackEnt)
def covers (line : Nat) : Bool := t.slice == sliceOf line && t.base ≤ line && line < t.base + 2 ^ t.k
def isLine : Bool := t.k == 7
def names (c : Nat) : Bool := t.sharers.contains (if t.coarse then c / 16 else c)
/-- The cores an entry's sharers stand for, 16 for each coarse bit. -/
def sharerCores : List Nat :=
  if t.coarse then t.sharers.flatMap fun b => (List.range 16).map (16 * b + ·) else t.sharers
/-- The owner and the sharers. -/
def named : List Nat :=
  (match t.st with | .x | .o => [t.owner] | _ => []) ++ (match t.st with | .s | .o => t.sharerCores | _ => [])
/-- The entry names a core other than c. -/
def namesOther (c : Nat) : Bool := t.named.any (· != c)
/-- Slots of the slice: a line entry with TSHARE occupies two (R132). -/
def slots : Nat := if t.tshare.isEmpty then 1 else 2
end TrackEnt

def State.track? (s : State) (line : Nat) : Option TrackEnt := s.dir.find? (·.covers line)

/-! ### L2 and HBM -/

def State.l2? (s : State) (line : Nat) : Option L2Line := s.l2.find? (·.line == line)

/-- The home's own value of a line: L2, or HBM behind it (R93). -/
def State.homeRow (s : State) (line : Nat) : Row :=
  match s.l2? line with
  | some l => l.data
  | none => Row.ofBytes (Memory.read s.mem line 128)

/-- The set of a line within its slice. DESIGN CHOICE (log 126): Table 4.1 gives 256 sets and not the address bits. -/
def l2Set (line : Nat) : Nat := line / 8192 % 256

/-- Whether the directory entry of a line shows an L1 copy. -/
def State.inL1 (s : State) (line : Nat) : Bool := (s.track? line).any fun t => !t.named.isEmpty

/-- A line leaves L2: dirty data goes to HBM, and leases it granted are kept in the slice's high-water
stamp (R93, R143). -/
def State.dropL2 (s : State) (line : Nat) : State :=
  match s.l2? line with
  | none => s
  | some l =>
    let s := { s with l2 := s.l2.filter (·.line != line) }
    let s := if l.dirty then { s with mem := Memory.write s.mem line l.data.bytes } else s
    if !l.stamps.lv then s
    else
      let k := sliceOf line
      let old := s.highWater.find? (·.slice == k)
      let st := match old with
        | some h => laterStamp h.stamp l.stamps.ls
        | none => l.stamps.ls
      { s with highWater := { slice := k, stamp := st } :: s.highWater.filter (·.slice != k) }

/-- Stamps of a line that enters L2 (R138, R143): WS := now, or the stamp after the last lease granted
on lines of the slice that left. -/
def State.freshStamps (s : State) (line : Nat) : Stamps :=
  let now := stampOf s.tick
  let ws := match s.highWater.find? (·.slice == sliceOf line) with
    | some h => laterStamp now (h.stamp + 1)
    | none => now
  { ws := ws, ls := 0, lv := false }

def State.setStamps (s : State) (line : Nat) (st : Stamps) : State :=
  { s with l2 := modWhere (·.line == line) (fun l => { l with stamps := st }) s.l2 }

/-- A stamp is before now by 2^22 ticks or more. -/
def aged (now x : BitVec 24) : Bool := stampBefore x now && 0x40_0000 ≤ (now - x).toNat

/-- STAMP_AGEING (R143): what a visit does to the stamps of a line. -/
def Stamps.age (t : Stamps) (now : BitVec 24) : Stamps :=
  { t with lv := t.lv && !aged now t.ls, ws := if aged now t.ws then now else t.ws }

def State.ageStamps (s : State) (line : Nat) : State :=
  match s.l2? line with
  | none => s
  | some l => s.setStamps line (l.stamps.age (stampOf s.tick))

/-- Every line is visited, and the high-water stamps with them. DESIGN CHOICE (log 135): the visit that R143 asks for at
least once every 2^21 ticks is at each tick that is a multiple of 2^21; RAKER_SCAN visits lines at other times too. -/
def State.visits (s : State) : State :=
  let now := stampOf s.tick
  { s with l2 := s.l2.map fun l => { l with stamps := l.stamps.age now }
           highWater := s.highWater.filter fun h => !aged now h.stamp }

/-- The victim of a full set: the line used least recently of those whose directory entry shows no L1 copy, else of all
(R93). The list is kept in order of use, oldest first. DESIGN CHOICE (log 122): the manual's "pseudo-LRU" is the least
recently used. -/
def State.l2Victim (s : State) (line : Nat) : Option Nat :=
  let set := s.l2.filter fun l => sliceOf l.line == sliceOf line && l2Set l.line == l2Set line
  if set.length < 16 then none
  else match set.find? (fun l => !s.inL1 l.line) with
    | some l => some l.line
    | none => set.head?.map (·.line)

/-- A line's data in L2: changed where it is there, entered where it is not. -/
def State.putL2 (s : State) (line : Nat) (row : Row) (dirty : Bool) : State :=
  match s.l2? line with
  | some l =>
    { s with l2 := s.l2.filter (·.line != line) ++ [{ l with data := row, dirty := l.dirty || dirty }] }
  | none =>
    let s := match s.l2Victim line with
      | some v => s.dropL2 v
      | none => s
    { s with l2 := s.l2 ++ [{ line := line, data := row, dirty := dirty, stamps := s.freshStamps line }] }

/-- A read at the home uses the line: L2 fills on a miss (R93). -/
def State.useL2 (s : State) (line : Nat) : State := s.putL2 line (s.homeRow line) false

/-! ### Loss (R149, R433) -/

/-- Whether the die or the stack of a line is fenced. -/
def State.dieLost (s : State) (line : Nat) : Bool :=
  isHbm line && ((s.die (homeDie line)).fenced || ((s.die (homeDie line)).stackFenced[stackOf line]?).getD false)

/-- Whether the home of a line is lost, or the line is marked LOST. -/
def State.isLost (s : State) (line : Nat) : Bool := s.dieLost line || (isHbm line && s.lostLines.contains line)

/-! ### Windows of pronoun entries (R100, R101, R110) -/

namespace PnEnt
variable (e : PnEnt)
def bits (hi lo : Nat) : Nat := bitsOf e.param.toNat hi lo
def doff : Nat := e.bits 255 224
def aoff : Nat := e.bits 223 192
def rows : Nat := e.bits 191 176
def cols : Nat := e.bits 175 160
def apitch : Nat := e.bits 159 136
def dpitch : Nat := e.bits 135 112
def esz : Nat := 2 ^ e.bits 111 110
def trans : Bool := e.bits 109 109 == 1
def nelem : Nat := e.bits 191 160
def thresh : Nat := e.bits 159 128
def tscaleQ : Nat := e.bits 127 96
def sfmt : Nat := e.bits 95 95
def dcode : Nat := e.bits 94 91
def tscaleU : Nat := e.bits 159 128
def dfmt : Nat := e.bits 127 127
def side : Nat := e.bits 126 75
def sideLen : Nat := if e.side == 0 then 0 else e.bits 74 53
/-- Rows and columns of a T2D destination. -/
def nr : Nat := if e.trans then e.cols else e.rows
def nc : Nat := if e.trans then e.rows else e.cols

/-- The physical bytes of the live window. -/
def winLo : Nat := e.dbase + e.lo
def winHi : Nat := e.dbase + e.hi
def holds (a : Nat) : Bool := e.winLo ≤ a && a < e.winHi
def meets (a n : Nat) : Bool := a < e.winHi && e.winLo < a + n && 0 < n
/-- The antecedent or the side list meets a range. -/
def anteMeets (a n : Nat) : Bool :=
  (0 < n && a < e.abase + e.aext && e.abase < a + n)
  || (e.xf == .unpack && e.side != 0 && a < e.side + e.sideLen && e.side < a + n && 0 < n)
end PnEnt

/-- An entry that has only a transform and its parameters. -/
def blankEnt (xf : Xf) (param : BitVec 256) : PnEnt :=
  { id := 0, ctx := 0, xf := xf, mirror := false, st := .live, heat := 0, dbase := 0, dext := 0, lo := 0, hi := 0,
    hlim := 0, abase := 0, aext := 0, param := param, hotAt := 0 }

/-- Bytes as the homes of their lines hold them. -/
def State.homeBytes (s : State) (a n : Nat) : List Byte :=
  (List.range n).map fun i => (s.homeRow (lineOf (a + i))).byte ((a + i) % 128)

/-- The record of a line in the salvage area of a surviving die (R147, R148, Table 6.10): the records lie below
SALVBASE, the newest first. -/
def State.salvaged (s : State) (line : Nat) : Option Row :=
  ((List.range 8).filter fun d => !(s.die d).fenced).findSome? fun d =>
    let base := (s.die d).salvbase.toNat
    (List.range (s.die d).salvcnt.toNat).findSome? fun k =>
      let bs := s.homeBytes (base - 192 * (k + 1)) 192
      let x := natOfBytes bs
      if x % 2 == 1 && bitsOf x 511 460 == line then some (Row.ofBytes (bs.drop 64)) else none

/-- An antecedent line: plain memory at its home (R102), or its salvage record (R122). -/
def State.anteRow (s : State) (line : Nat) : Row :=
  if s.isLost line then (s.salvaged line).getD 0 else s.homeRow line

/-- Memory as the home of a line holds it. -/
def State.plainByte (s : State) (a : Nat) : Byte := (s.anteRow (lineOf a)).byte (a % 128)

/-! The bytes of a transformed array (R110), from readers of the source array, of the side list and, in the pitch
gaps of a T2D destination, of the destination array. -/

namespace PnEnt
variable (e : PnEnt)

/-- Elements of a block, and bytes of a source or destination element. -/
def blockElems : Nat := (blockN e.dcode).getD 0
def srcSize : Nat := if e.sfmt == 0 then 4 else 2
def dstSize : Nat := if e.dfmt == 0 then 4 else 2

/-- Source elements of a PACK or HADQ array as FP32 patterns; beyond the array they are +0 (R231). -/
def srcElem (rd : Nat → Byte) (i : Nat) : Nat :=
  let w := e.srcSize
  if e.nelem ≤ i then 0
  else natOfBytes ((List.range w).map fun j => rd (w * i + j)) * 2 ^ (32 - 8 * w)

/-- PackBlock(k), with what it lists. -/
def packed (rd : Nat → Byte) (k : Nat) : Quant :=
  let n := e.blockElems
  quantBlock e.dcode e.thresh e.tscaleQ ((List.range n).map fun i => e.srcElem rd (n * k + i))

/-- The 124 elements that an UNPACK array forms from its block k, its side list of `sl` bytes applied (R49, R230, R233). -/
def unpackBlock (rd sd : Nat → Byte) (sl k : Nat) : List Nat :=
  let v := (expandBlock ((List.range 64).map fun j => rd (64 * k + j)) e.tscaleU).vals
  let v := (v ++ List.replicate (124 - v.length) 0).take 124
  let side := if sl == 0 then [] else sideEntries sl ((List.range (sl / 8 * 8)).map sd)
  let v := applySide (side.filter fun x => x.1 < e.nelem) (124 * k) v
  v.map fun x => ((fmt32.unpack x).toFloat .rne (if e.dfmt == 0 then fmt32 else fmtB16)).val

/-- The source array offset of byte y of a T2D destination; none in a pitch gap. -/
def t2dSrc (y : Nat) : Option Nat :=
  let r := y / e.dpitch
  let c := y % e.dpitch / e.esz
  if e.nr ≤ r || e.nc ≤ c then none
  else if e.trans then some (c * e.apitch + r * e.esz + y % e.esz)
  else some (r * e.apitch + c * e.esz + y % e.esz)

/-- Bytes y to y + n − 1 of the destination array; `sl` is the length of the side list. -/
def form (rd sd gap : Nat → Byte) (sl y n : Nat) : List Byte :=
  match e.xf with
  | .ident => (List.range n).map fun j => rd (y + j)
  | .t2d => (List.range n).map fun j => match e.t2dSrc (y + j) with
    | some q => rd q
    | none => gap (y + j)
  | .pack | .hadq =>
    let k0 := y / 64
    (((List.range ((y + n + 63) / 64 - k0)).flatMap fun k => (e.packed rd (k0 + k)).bytes).drop (y - 64 * k0)).take n
  | .unpack =>
    let w := e.dstSize
    let k0 := y / (124 * w)
    let k1 := (y + n + 124 * w - 1) / (124 * w)
    (((List.range (k1 - k0)).flatMap fun k => (e.unpackBlock rd sd sl (k0 + k)).flatMap (bytesOfNat w)).drop
      (y - 124 * w * k0)).take n

/-- The parts of the source array that bytes y to y + n − 1 need: (offset, bytes). -/
def needs (y n : Nat) : List (Nat × Nat) :=
  match e.xf with
  | .ident => [(y, n)]
  | .t2d => ((List.range n).filterMap fun j => e.t2dSrc (y + j)).map fun q => (q, 1)
  | .pack | .hadq =>
    let w := e.srcSize
    let a := min e.nelem (e.blockElems * (y / 64))
    let b := min e.nelem (e.blockElems * ((y + n + 63) / 64))
    [(w * a, w * (b - a))]
  | .unpack =>
    let w := 124 * e.dstSize
    [(64 * (y / w), 64 * ((y + n + w - 1) / w - y / w))]

end PnEnt

/-- Bytes x to x + n − 1 of an entry's destination, as its window reads. -/
def PnEnt.bytes (s : State) (e : PnEnt) (x n : Nat) : List Byte :=
  e.form (fun q => s.plainByte (e.abase + q - e.aoff)) (fun i => s.plainByte (e.side + i))
    (fun y => s.plainByte (e.dbase + y - e.doff)) e.sideLen (e.doff + x) n

/-- The first antecedent or side-list line that bytes x to x + n − 1 of a destination need and that neither its
home nor a salvage area holds (R122). -/
def PnEnt.lacks (s : State) (e : PnEnt) (x n : Nat) : Option Nat :=
  let parts := (e.needs (e.doff + x) n).map (fun p => (e.abase + p.1 - e.aoff, p.2))
    ++ (if e.xf == .unpack && e.sideLen != 0 then [(e.side, e.sideLen)] else [])
  parts.findSome? fun p => (((List.range ((p.1 + p.2 + 127) / 128 - p.1 / 128)).map fun k => 128 * (p.1 / 128 + k)).find?
    fun l => s.isLost l && (s.salvaged l).isNone)

/-- The entries whose windows meet a line. -/
def State.windowsOf (s : State) (line : Nat) : List PnEnt := s.pn.filter (·.meets line 128)

/-- An entry that cannot be resolved whole: a line of its window needs a lost one (R122). -/
def State.stuck (s : State) (e : PnEnt) : Bool := (e.lacks s e.lo (e.hi - e.lo)).isSome

/-- The first line that the windows over a line need and that is lost. -/
def State.lackAt (s : State) (line : Nat) : Option Nat :=
  (s.windowsOf line).findSome? fun e =>
    let lo := max line e.winLo
    e.lacks s (lo - e.dbase) (min (line + 128) e.winHi - lo)

/-- A line with the bytes that an entry's window redirects (R109, step 3). -/
def PnEnt.merge (s : State) (e : PnEnt) (line : Nat) (row : Row) : Row :=
  let lo := max line e.winLo
  let hi := min (line + 128) e.winHi
  let bs := e.bytes s (lo - e.dbase) (hi - lo)
  (List.range (hi - lo)).foldl (fun r i => r.setByte (lo - line + i) (bs.getD i 0)) row

/-- What a read at the home of a line returns: L2, or memory with the live windows applied. -/
def State.homeValue (s : State) (line : Nat) : Row :=
  match s.l2? line with
  | some l => l.data
  | none => (s.windowsOf line).foldl (fun r e => e.merge s line r) (s.homeRow line)

/-- Whether a read of the line would be redirected (R109): it misses L2 in a live window. -/
def State.redirects (s : State) (line : Nat) : Bool := (s.l2? line).isNone && !(s.windowsOf line).isEmpty

/-- Heat of an entry after one redirected read (R103, R111). -/
def PnEnt.heated (now : Nat) (e : PnEnt) : PnEnt :=
  match e.st with
  | .resolving => e
  | _ =>
    let h := min (e.heat + 1) 255
    if e.st == .live && e.hlim != 0 && h == e.hlim then { e with heat := h, st := .hot, hotAt := now }
    else { e with heat := h }

/-- One redirected read of a line is counted at its entries. -/
def State.heatLine (s : State) (line : Nat) : State :=
  { s with pn := modWhere (·.meets line 128) (·.heated s.cycle) s.pn }

/-! ### Copies of a line -/

def Core.l1? (c : Core) (line : Nat) : Option L1Line := c.l1d.find? (·.line == line)

/-- The core that holds the line's newest data beyond its home, with its state. -/
def State.owner? (s : State) (line : Nat) : Option (Nat × L1Line) :=
  (s.cores.flatMap fun c => (c.2.l1d.filter fun l => l.line == line
    && (l.st == .m || l.st == .o || l.st == .e)).map fun l => (c.1, l)).head?

/-- Data of the line on its way in a message. -/
def State.movingData (s : State) (line : Nat) : Option Row :=
  ((s.msgs.filter (·.line == line)).filterMap fun m => match m.kind with
    | .wb d => some d
    | .grant _ d _ => d
    | .answer _ d _ => d
    | _ => none).head?

/-- No request for the line is in progress and no message about it is under way. -/
def State.quiet (s : State) (line : Nat) : Bool :=
  !(s.homes.any (·.line == line)) && !(s.msgs.any (·.line == line))

/-- The coherent value of a line: the newest data there is. -/
def State.coherentRow (s : State) (line : Nat) : Row :=
  match s.owner? line with
  | some (_, l) => l.data
  | none => match s.movingData line with
    | some d => d
    | none => match (s.homes.find? (·.line == line)).bind (·.data) with
      | some d => d
      | none => s.homeValue line

/-- Bytes by physical address, coherently, for an engine (R158 aside). -/
def State.cohBytes (s : State) (a : Nat) : Nat → List Byte
  | 0 => []
  | n + 1 => (s.coherentRow (lineOf a)).byte (a % 128) :: s.cohBytes (a + 1) n

/-- A line's owner data written to L2, where it is dirty. -/
def State.saveOwner (s : State) (line : Nat) : State :=
  match s.owner? line with
  | some (_, l) => if l.st == L1St.e then s else s.putL2 line l.data true
  | none => s

/-- A core without its DIR copies of the line. -/
def Core.dropLine (c : Core) (line : Nat) : Core :=
  { c with l1d := c.l1d.filter fun l => l.line != line || l.st == .lse
           l1i := c.l1i.filter (·.line != line) }

/-- A store to a code line invalidates it in the storing core's own L1 instruction cache as well (R89). -/
def Core.dropCode (c : Core) (line : Nat) : Core := { c with l1i := c.l1i.filter (·.line != line) }

/-- Every DIR copy of the line goes; dirty data goes to L2 (an invalidation at every holder). -/
def State.takeBack (s : State) (line : Nat) : State :=
  let s := s.saveOwner line
  { s with cores := s.cores.map fun c => (c.1, c.2.dropLine line) }

/-- A line whose owner shares it: Modified, Owned and Exclusive copies become Shared. -/
def L1Line.share (line : Nat) (l : L1Line) : L1Line :=
  if l.line == line && (l.st == .m || l.st == .o || l.st == .e) then { l with st := .s } else l

/-! ### Tracking entries (R132 to R136) -/

namespace TrackEnt
variable (t : TrackEnt)

/-- A sharer more, the one granted last; the fifth of an exact entry makes it coarse (R132). -/
def addSharer (c : Nat) : TrackEnt :=
  if t.names c then (if t.coarse then t else { t with sharers := t.sharers.filter (· != c) ++ [c] })
  else if t.coarse then { t with sharers := t.sharers ++ [c / 16] }
  else if t.sharers.length < 4 || t.mixed then { t with sharers := t.sharers ++ [c] }
  else { t with coarse := true, sharers := ((t.sharers ++ [c]).map (· / 16)).eraseDups }

/-- The two halves of an entry (R133): each inherits every field, QUIET is 0. -/
def halves (now : Nat) : TrackEnt × TrackEnt :=
  let a := { t with k := t.k - 1, quietAt := now }
  (a, { a with base := t.base + 2 ^ (t.k - 1) })
end TrackEnt

def State.setTrack (s : State) (line : Nat) (f : TrackEnt → TrackEnt) : State :=
  { s with dir := modWhere (·.covers line) (fun t => { f t with used := s.cycle }) s.dir }

/-- The owner gives up ownership, its data written to L2 where it is dirty: every copy is Shared (R106). -/
def State.shareLine (s : State) (line : Nat) : State :=
  let s := s.saveOwner line
  let s : State := { s with cores := s.cores.map fun c => (c.1, { c.2 with l1d := c.2.l1d.map (·.share line) }) }
  s.setTrack line fun e =>
    if !e.isLine then e
    else match e.st with
      | .x => { e with st := .s, sharers := [], coarse := false }.addSharer e.owner
      | .o => { e with st := .s }.addSharer e.owner
      | _ => e

/-- The pieces that splitting leaves: the half that holds the line is split on, down to a line entry. -/
def splitDown (now line : Nat) : Nat → TrackEnt → List TrackEnt
  | 0, t => [t]
  | n + 1, t =>
    if t.isLine then [t]
    else
      let (a, b) := t.halves now
      if a.covers line then b :: splitDown now line n a else a :: splitDown now line n b

/-- TRACKING_SPLIT (R133): the covering entry becomes line-exact for the line. -/
def State.splitTrack (s : State) (line : Nat) : State :=
  match s.track? line with
  | none => s
  | some t =>
    { s with dir := splitDown s.tick line 9 t ++ s.dir.filter (fun u => !u.covers line) }

/-- Entries of a slice. -/
def State.slotsUsed (s : State) (slice : Nat) : Nat :=
  ((s.dir.filter (·.slice == slice)).map (·.slots)).sum

/-- The largest aligned range of at most 2^k bytes around the line that meets no entry of its slice. -/
def State.freeK (s : State) (line : Nat) : Nat → Nat
  | 0 => 7
  | n + 1 =>
    let k := n + 8
    let base := line / 2 ^ k * 2 ^ k
    if s.dir.any (fun t => t.slice == sliceOf line && t.base < base + 2 ^ k && base < t.base + 2 ^ t.k) then
      s.freeK line n
    else k

/-- Whether a BUSY line, or a line a message is about, lies under an entry. -/
def State.entryBusy (s : State) (t : TrackEnt) : Bool :=
  (s.homes.any fun h => t.covers h.line) || s.msgs.any fun m => t.covers m.line

/-- The entry a full slice evicts for a line: the one used longest ago that is not BUSY (R135), nor the line's own. -/
def State.evictee (s : State) (line : Nat) : Option TrackEnt :=
  (s.dir.filter fun t => t.slice == sliceOf line && !s.entryBusy t && !t.covers line).foldl (fun a t => match a with
    | none => some t
    | some u => if t.used < u.used then some t else some u) none

/-- Copies of every line an entry covers go, dirty data into L2, and the entry is free (R135). -/
def State.dropEntry (s : State) (t : TrackEnt) : State :=
  let lines := ((s.cores.flatMap fun c => c.2.l1d.map (·.line) ++ c.2.l1i.map (·.line)).filter
    t.covers).eraseDups
  let s := lines.foldl (fun s l => s.takeBack l) s
  { s with dir := s.dir.filter (· != t) }

/-- How an access of an engine or of the device ends: done; not possible yet, where `round` names a table line whose
translations must go first (R38); or the home is lost. -/
inductive Coll (α : Type) where
  | ok (a : α)
  | busy (round : Option Nat)
  | lost
  deriving DecidableEq, Repr

/-- Room for `need` tracking entries more in the slice of a line (R135), by at most the given number of evictions. The
translations under an entry with TSHARE go first, by steps 3 to 6 of R38. -/
def State.makeRoom (s : State) (line need : Nat) : Nat → Coll State
  | 0 => .busy none
  | n + 1 =>
    if s.slotsUsed (sliceOf line) + need ≤ 16384 then .ok s
    else match s.evictee line with
      | none => .busy none
      | some t => if t.tshare.isEmpty then (s.dropEntry t).makeRoom line need n else .busy (some t.base)

/-- A new entry in state I around the line, for a request of a tenancy. DESIGN CHOICE (log 132): it covers the largest
aligned range of at most 64 KiB that meets no other entry of the slice; the manual gives no size. -/
def State.newTrack (s : State) (line tenancy : Nat) : State :=
  let k := s.freeK line 9
  let t : TrackEnt :=
    { slice := sliceOf line
      base := line / 2 ^ k * 2 ^ k
      k := k
      st := DirSt.i
      owner := 0
      coarse := false
      sharers := []
      tenancy := tenancy
      mixed := false
      table := false
      tshare := []
      quietAt := s.tick
      ownAt := s.tick
      used := s.cycle }
  { s with dir := t :: s.dir }

/-! ### Table lines (R30, R37, R38) -/

def State.isTable (s : State) (line : Nat) : Bool :=
  match s.track? line with
  | some t => t.isLine && t.table
  | none => false

/-- The covering entry made line-exact, with room for the pieces (R133). -/
def State.exactTrack (s : State) (line : Nat) : Coll State :=
  match s.track? line with
  | none => .ok s
  | some t => match s.makeRoom line (t.k - 7) 17 with
    | .ok s => .ok (s.splitTrack line)
    | r => r

/-- A coherent read of a quiet line by a reader that takes no copy (Table 6.3): an owner in M or O supplies and is in O, one
in E goes to S; where the owner has no copy any more the home supplies, and forgets it. -/
def State.readShared (s : State) (line : Nat) : Row × State :=
  match s.owner? line with
  | some (c, l) =>
    let st := if l.st == L1St.e then L1St.s else L1St.o
    let s := s.modCore c fun x => { x with l1d := modWhere (· == l) (fun l => { l with st := st }) x.l1d }
    (l.data, s.setTrack line fun t => match l.st, t.st with
      | .e, _ => { t with st := .s, sharers := [c], coarse := false }
      | _, .x => { t with st := .o, sharers := [], coarse := false }
      | _, _ => t)
  | none =>
    let v := s.homeValue line
    let s := s.setTrack line fun t => match t.st with
      | .x => { t with st := .i, sharers := [], coarse := false }
      | .o => { t with st := if t.sharers.isEmpty then .i else .s }
      | _ => t
    (v, if s.redirects line then (s.heatLine line).putL2 line v false else s.useL2 line)

/-- Step 3 and 4 of R38 at one quad: what was formed from the line goes, dirty data goes home. -/
def State.tinvAt (s : State) (line q : Nat) : State :=
  let s := s.modQuad q fun x =>
    { x with tc := x.tc.filter fun t => !t.via.contains line
             wc := x.wc.filter fun t => !t.via.contains line
             desc := x.desc.filter fun d => lineOf (s.ctxbase.toNat + 16 * d.1) != line }
  let dirty := (coresOfQuad q).flatMap fun c => ((s.core c).l1d.filter fun l =>
    l.tr.via.contains line && (l.st == .m || l.st == .o))
  let s := dirty.foldl (fun s l => s.putL2 l.line l.data true) s
  (coresOfQuad q).foldl (fun s c => s.modCore c fun x =>
    { x with l1d := x.l1d.filter fun l => !l.tr.via.contains line
             l1i := x.l1i.filter fun l => !l.tr.via.contains line }) s

/-- The quads that hold anything formed from the line. -/
def State.tableSharers (s : State) (line : Nat) : List Nat :=
  match s.track? line with
  | some t => t.tshare
  | none => []

/-- Whether an access issued under a translation formed from the line has not completed at a quad (step 5
of R38). -/
def State.drained (s : State) (line q : Nat) : Bool :=
  !(s.allGroups.any fun e => quadOf e.2.core == q && e.2.ops.any fun o => o.todo != 0 && o.leafs.contains line)

/-- Walk faults found before a change of any table line are forgotten: the access walks again (R40). -/
def State.forgetFaults (s : State) : State :=
  { s with quads := s.quads.map fun e => (e.1, { e.2 with faults := [] }) }

/-! ### Resolution and trimming (R112 to R116) -/

/-- The lines of a window, in ascending order. -/
def PnEnt.lines (e : PnEnt) : List Nat :=
  let first := lineOf e.winLo
  (List.range ((e.winHi + 127 - first) / 128)).map fun k => first + 128 * k

/-- One line of a window is written into L2 with the values it reads (R112). -/
def State.resolveLine (s : State) (line : Nat) : State :=
  s.putL2 line (s.homeValue line) true

/-- An entry's window is narrowed, and the entry freed where nothing is left. -/
def State.setWindow (s : State) (id lo hi : Nat) : State :=
  if hi ≤ lo then { s with pn := s.pn.filter (·.id != id) }
  else { s with pn := modWhere (·.id == id) (fun e => { e with lo := lo, hi := hi }) s.pn }

/-- A part of an entry's window is resolved: its lines are written, and the window loses them. -/
def State.resolveLines (s : State) (ls : List Nat) : State := ls.foldl (fun s l => s.resolveLine l) s

/-- An entry is resolved whole and freed (R112). -/
def State.resolveEntry (s : State) (e : PnEnt) : State :=
  let s := s.resolveLines e.lines
  { s with pn := s.pn.filter (·.id != e.id) }

/-- Entries a write to these bytes must wait for (R113), mirror entries aside. -/
def State.anteOf (s : State) (a n : Nat) : List PnEnt := s.pn.filter fun e => !e.mirror && e.anteMeets a n

def State.mirrorOf (s : State) (a n : Nat) : List PnEnt := s.pn.filter fun e => e.mirror && e.anteMeets a n

/-- Entries of a context that are held: not FREE and not MIRROR (Table 5.8). -/
def State.pnHeld (s : State) (ctx : Nat) : Nat := (s.pn.filter fun e => e.ctx == ctx && !e.mirror).length

/-- The die an entry belongs to, and the die of its antecedent index record. -/
def PnEnt.die (e : PnEnt) : Nat := homeDie e.dbase
def State.pnOnDie (s : State) (d : Nat) : Nat := (s.pn.filter (·.die == d)).length
/-- Index records at a die: one per antecedent, a second for an UNPACK side list. -/
def State.idxOnDie (s : State) (d : Nat) : Nat :=
  (s.pn.filter fun e => homeDie e.abase == d).length
  + (s.pn.filter fun e => e.xf == .unpack && e.side != 0 && homeDie e.side == d).length

/-- sr.PNQUOTA of a context; its reset value is 0x400 (Table 5.7). -/
def State.pnQuota (s : State) (ctx : Nat) : Nat := bitsOf (look 0x400#32 s.pnquota ctx).toNat 16 0

/-- Whether one entry more, with its index records, fits (R114). -/
def State.pnRoom (s : State) (e : PnEnt) : Bool :=
  s.pnOnDie e.die < 8192 && s.idxOnDie (homeDie e.abase) < 8192
  && (e.xf != .unpack || e.side == 0 || s.idxOnDie (homeDie e.side) < 8192)
  && (e.mirror || s.pnHeld e.ctx < s.pnQuota e.ctx)

/-- An entry's window loses the offsets lo to hi − 1 without any line being resolved: trimmed, split or
freed as Table of R114 gives. Where a split has no room, the part above is resolved. -/
def State.cutWindow (s : State) (e : PnEnt) (lo hi : Nat) : State :=
  if hi ≤ e.lo || e.hi ≤ lo then s
  else if lo ≤ e.lo then s.setWindow e.id (min hi e.hi) e.hi
  else if e.hi ≤ hi then s.setWindow e.id e.lo lo
  else if s.pnRoom e then
    let s := s.setWindow e.id e.lo lo
    { s with pn := s.pn ++ [{ e with id := s.nextPn, lo := hi }], nextPn := s.nextPn + 1 }
  else
    let above := { e with lo := hi }
    (s.resolveLines above.lines).setWindow e.id e.lo lo

/-- The offsets of a window that lie in a line. -/
def PnEnt.inLine (e : PnEnt) (line : Nat) : Nat × Nat :=
  (max line e.winLo - e.dbase, min (line + 128) e.winHi - e.dbase)

/-- Lines that trimming a line may resolve besides it: those of a window that a split has no room for (R114). -/
def State.spills (s : State) (line : Nat) : List Nat := ((s.windowsOf line).filter (!s.pnRoom ·)).flatMap (·.lines)

/-- A write that reaches a line of live windows: the line is resolved, and each window loses it (R114). -/
def State.trimLine (s : State) (line : Nat) : State :=
  let es := s.windowsOf line
  if es.isEmpty then s
  else
    let s := s.resolveLine line
    es.foldl (fun s e => s.cutWindow e (e.inLine line).1 (e.inLine line).2) s

/-- A RESOLVING entry whose window meets the line is waited for (Table 5.4). -/
def State.resolvingAt (s : State) (line : Nat) : Bool :=
  (s.windowsOf line).any fun e => e.st == .resolving

/-! ### Accesses of engines and of the device, one line in one step -/

/-- Whether an earlier access of the group to the line has not performed (R158). -/
def accPending (h g seq : Nat) (a : Acc) : Bool := a.wg == h && a.g == g && a.seq < seq

def HomeReq.accs : HomeReq → List Acc
  | .lseRead _ _ _ _ _ as | .lseStore _ as | .unc _ as | .atomic _ as | .tableStore _ _ as => as
  | _ => []

/-- Whether a request writes its line under the treatment DIR at its home. -/
def HomeReq.dirStore : HomeReq → Bool
  | .atomic .. | .tableStore _ .dir _ => true
  | _ => false

/-- Accesses to lines that have not performed, with their lines. -/
def State.inFlight (s : State) : List (Nat × Acc) :=
  (s.cores.flatMap fun c => c.2.misses.flatMap fun m => m.accs.map fun a => (m.line, a))
  ++ (s.msgs.flatMap fun m => match m.kind with
      | .req r => r.accs.map fun a => (m.line, a)
      | _ => [])
  ++ (s.homes.flatMap fun t => (t.req :: t.queue).flatMap fun r => r.accs.map fun a => (t.line, a))
  ++ (s.peers.flatMap fun p => p.2.waiting.flatMap fun x => x.accs.map fun a => (x.line, a))

/-- Whether an operation is one of an engine, which notes (a) and (g) of Table 7.4 order and R158 does not. -/
def State.byEngine (s : State) (a : Acc) : Bool :=
  ((s.group? a.wg a.g).bind (·.op? a.seq)).any (·.cls.isSome)

def State.pendingOn (s : State) (h g seq line : Nat) : Bool :=
  s.inFlight.any fun x => x.1 == line && accPending h g seq x.2 && !s.byEngine x.2

/-- A flit goes to a peer, on one of the ports that are up, by device number (R432). -/
def State.sendFlit (s : State) (peer : Nat) (f : Flit) : State :=
  let p := look Peer.empty s.peers peer
  let up := (List.range 8).filter fun j => (s.zports[j]?).any (·.up)
  let x : Sent :=
    { seq := p.nextSeq, flit := f, port := up.getD (peer % max up.length 1) 0, tick := s.tick }
  { s with peers := put s.peers peer { p with
      nextSeq := p.nextSeq + 1
      unacked := p.unacked ++ [x]
      lastAck := if p.unacked.isEmpty then s.tick else p.lastAck } }

/-- A coherent read of one line, which waits while a request for it is in progress (R127, R140), and is redirected where it
misses L2 in a window, with its heat (R109, R122). What a peer answers to an engine is a free value. -/
def State.readLine (s : State) (line : Nat) : Coll (Row × State) :=
  if isPeer line then .ok s.free
  else if s.isLost line then .lost
  else if !s.quiet line then .busy none
  else if (s.owner? line).isSome then .ok (s.coherentRow line, s)
  else if !s.redirects line then .ok (s.homeRow line, s.useL2 line)
  else if (s.lackAt line).isSome then .lost
  else .ok (s.homeValue line, s.heatLine line)

/-- The perform tick of an LSE store arriving now (R141, R143). -/
def State.performTick (s : State) (line : Nat) : Nat :=
  match s.l2? line with
  | none => stampTick s.tick (s.freshStamps line).ws
  | some l =>
    let tp := laterStamp (stampOf s.tick) l.stamps.ws
    stampTick s.tick (if l.stamps.lv then laterStamp tp (l.stamps.ls + 1) else tp)

/-- Where the store of an LSE line may perform: its leases have passed. -/
def State.leaseFree (s : State) (line : Nat) : Bool := s.performTick line ≤ s.tick

/-- The first of some lines that translations are formed from. -/
def State.translated? (s : State) (ls : List Nat) : Option Nat :=
  ls.find? fun l => s.isTable l && !(s.tableSharers l).isEmpty

/-- Invalidations go to every translation sharer of a line (R38, step 2); the quads that must answer. -/
def State.sendTinv (s : State) (line : Nat) : List Nat × State :=
  let qs := s.tableSharers line
  let x : TInv := { line := line, arrived := none }
  let s := qs.foldl (fun s q => s.modQuad q fun u => { u with tinv := u.tinv ++ [x] }) s
  (qs, s.setTrack line fun t => { t with tshare := [] })

/-- A store of the device itself to a table line has its translations invalidated first (R38, steps 1 to 6). -/
def State.begin? (s : State) (round : Option Nat) : Option State :=
  match round with
  | none => none
  | some line =>
    if !s.quiet line || (s.tableSharers line).isEmpty then none
    else
      let (qs, s) := s.sendTinv line
      let t : HomeTxn := { line := line, req := .round, wait := .tinv qs, data := none, answers := [], exact := false
                           heldWb := none, queue := [] }
      some { s with homes := s.homes ++ [t] }

def State.begun (s : State) (round : Option Nat) : State := (s.begin? round).getD s

/-- Whether the window line of a mirror entry that a write would reach as well lies in a RESOLVING entry, which is never
trimmed (R43, R103). -/
def State.mirrorResolving (s : State) (line off n : Nat) : Bool :=
  (s.mirrorOf (line + off) n).any fun e => s.resolvingAt (e.dbase + (line - lineOf e.abase))

/-- What a write of some bytes of a line must do before it performs (R113, R114): every affected entry resolved, the line's
windows trimmed. -/
def State.clearWindows (s : State) (line off n : Nat) : Coll State :=
  let es := s.anteOf (line + off) n
  if s.isLost line then .lost
  else if !s.quiet line || s.resolvingAt line || es.any (s.stuck ·)
    || s.mirrorResolving line off n then .busy none
  else if (s.lackAt line).isSome then .lost
  else match s.translated? (es.flatMap (·.lines) ++ (s.spills line).filter (· != line)) with
    | some l => .busy (some l)
    | none => .ok ((es.foldl (fun s e => s.resolveEntry e) s).trimLine line)

/-- The same, once every translation formed from the line is gone (R38). -/
def State.clearFor (s : State) (line off n : Nat) : Coll State :=
  match s.translated? [line] with
  | some l => if s.isLost line then .lost else .busy (some l)
  | none => match s.clearWindows line off n with
    | .ok s => .ok (if s.isTable line then s.forgetFaults else s)
    | r => r

/-- A full line invalidated and replaced without reading (RFOZ by a device agent); it clears LOST. -/
def State.clearLost (s : State) (line : Nat) : State :=
  { s with lostLines := s.lostLines.filter (· != line) }

/-- The state after n bytes of a line are stored: a store of the whole line takes its LOST mark away (R149). -/
def State.overwritten (s : State) (coh : Coh) (line n : Nat) : State :=
  if coh == .dir && n == 128 && !s.dieLost line then s.clearLost line else s

/-- A store of bytes into one line by an engine or by the device, under the treatment `coh` (R124): all
copies are taken back, and the bytes are written at the home. -/
def State.writeLine (s : State) (coh : Coh) (line off : Nat) (bs : List Byte) : Coll State :=
  if isPeer line then .ok (s.sendFlit (peerOf line) (.store 0 (line % 2 ^ 41 + off) (coh == .lse) bs))
  else if coh == .lse && !s.leaseFree line then .busy none
  else match (s.overwritten coh line bs.length).clearFor line off bs.length with
    | .lost => .lost
    | .busy r => .busy r
    | .ok s =>
      let s := if coh == .dir then s.takeBack line else s
      let s := s.putL2 line (Row.putBytes (s.homeRow line) off bs) true
      let s := if coh == .lse then
          match s.l2? line with
          | some l => s.setStamps line { l.stamps with ws := stampOf s.tick, lv := false }
          | none => s
        else s
      -- a mirror entry's window receives the bytes as well (R43)
      .ok ((s.mirrorOf (line + off) bs.length).foldl (fun s e =>
        let s := s.trimLine (lineOf (e.dbase + (line + off - e.abase)))
        let d := lineOf (e.dbase + (line + off - e.abase))
        s.putL2 d (Row.putBytes (s.homeRow d) ((e.dbase + (line + off - e.abase)) % 128) bs) true) s)

/-- Cut a range of bytes into parts that lie in one line each: (line, offset, bytes). -/
def cutLines (a : Nat) (bs : List Byte) : Nat → List (Nat × Nat × List Byte)
  | 0 => []
  | n + 1 =>
    if bs.isEmpty then []
    else
      let k := 128 - a % 128
      (lineOf a, a % 128, bs.take k) :: cutLines (a + k) (bs.drop k) n

/-- A store of bytes at a physical address, line by line in ascending order. -/
def State.writePhys (s : State) (coh : Coh) (a : Nat) (bs : List Byte) : Coll State :=
  (cutLines a bs (bs.length / 128 + 2)).foldl (fun r p => match r with
    | .ok s => s.writeLine coh p.1 p.2.1 p.2.2
    | r => r) (.ok s)

/-- A coherent read of bytes at a physical address. -/
def State.readPhys (s : State) (a n : Nat) : Coll (List Byte × State) :=
  (cutLines a (List.replicate n 0) (n / 128 + 2)).foldl (fun r p => match r with
    | .ok (bs, s) => match s.readLine p.1 with
      | .ok (row, s) => .ok (bs ++ (List.range p.2.2.length).map fun i => row.byte (p.2.1 + i), s)
      | .busy r => .busy r
      | .lost => .lost
    | r => r) (.ok ([], s))

/-- The same byte changed everywhere it is held, for A and D bits: no invalidation of translations, data
sharers lose their copies (R32). -/
def State.casLine (s : State) (line : Nat) (row : Row) : State :=
  (s.takeBack line).putL2 line row true

end Sys2Proof.Machine
end

