-- ==== Sys2Proof/Machine/Walk.lean ====
section
/-!
DEFINITION. Translation: the windows of the virtual space (R14 to R20), page walks with their checks
(R24 to R32), A and D (R32, R33), the translation a core finds for an address (R33, R34), and the checks
of one lane's access (R45, R301).
-/
namespace Sys2Proof.Machine

/-! ### Windows (Table 2.1) -/

def localBase : Nat := 0x7F_FC00_0000_0000
def clusterBase : Nat := 0x7F_FD00_0000_0000
def privWindow : Nat := 0x7F_FE00_0000_0000

inductive Window where
  | global | localMem | cluster | priv | hole
  deriving DecidableEq, Repr

/-- The window of one address below 2^55 (R16). -/
def windowOf (a : Nat) : Window :=
  if a < localBase then .global
  else if a < localBase + 0x4_0000 then .localMem
  else if clusterBase ≤ a && a < clusterBase + 0x40_0000 then .cluster
  else if privWindow ≤ a && a < privWindow + 0x100_0000_0000 then .priv
  else .hole

/-- The window in which a range lies whole; a hole where it lies in no single one (R20). -/
def windowOfRange (a n : Nat) : Window :=
  let w := windowOf a
  if w == windowOf (a + n - 1) && a + n ≤ 2 ^ 55 then w else .hole

/-! ### Page-table entries (Table 2.5) -/

def pteFrame (e : Nat) : Nat := bitsOf e 51 16 * 0x1_0000
def pteV (e : Nat) : Bool := e % 2 == 1
def pteB (e : Nat) : Bool := bitsOf e 1 1 == 1
def pteCoh (e : Nat) : Nat := bitsOf e 3 2
def pteStor (e : Nat) : Nat := bitsOf e 5 4
def pteA : Nat := 2 ^ 10
def pteD : Nat := 2 ^ 11

def cohOf : Nat → Coh
  | 0 => .dir | 1 => .lse | _ => .unc
def Coh.code : Coh → Nat
  | .dir => 0 | .lse => 1 | .unc => 2
def storOf : Nat → Stor
  | 0 => .normal | 1 => .eager | _ => .device

def pteAttr (e : Nat) : Attr :=
  { rd := bitsOf e 6 6 == 1, w := bitsOf e 7 7 == 1, x := bitsOf e 8 8 == 1, sup := bitsOf e 9 9 == 1,
    coh := cohOf (pteCoh e), stor := storOf (pteStor e) }

/-- An entry without A and D. -/
def pteFixed (e : Nat) : Nat := e - bitsOf e 11 10 * 0x400

/-- Checks 9 and 10 of Table 2.6, and the PERM of an atomic or an engine operation on a DEVICE page (R28) and of a fetch from
a page that is not DIR (R89). -/
def Attr.permits (a : Attr) (k : Kind) (sup : Bool) : Bool :=
  (!a.sup || sup) && (match k with
    | .read => a.rd
    | .write => a.w
    | .both => a.rd && a.w && a.stor != .device
    | .exec => a.x && a.coh == .dir
    | .src => a.rd && a.stor != .device
    | .dst => a.w && a.stor != .device)

/-- The kind of the same access by an engine. -/
def Kind.engine : Kind → Kind
  | .read => .src
  | .write => .dst
  | k => k

/-! ### The walk -/

/-- How a walk ends. `busy`: a table line cannot be read or updated now. -/
inductive WalkRes where
  | ok (t : Trans) (s : State)
  | fault (c : Cause) (info : Nat) (s : State)
  | busy (round : Option Nat)
  deriving DecidableEq, Repr

/-- The context descriptor's address (R24). -/
def State.descAddr (s : State) (ctx : Nat) : Nat := bitsOf s.ctxbase.toNat 51 16 * 0x1_0000 + 16 * ctx

/-- A tracking entry of the table line alone, with room for TSHARE (R30, R132, R133). -/
def State.tableTrack (s : State) (line tenancy : Nat) : Coll State :=
  let alone := match s.track? line with
    | some _ => s.exactTrack line
    | none => match s.makeRoom line 1 17 with
      | .ok s => (s.newTrack line tenancy).exactTrack line
      | r => r
  match alone with
  | .ok s => if (s.tableSharers line).isEmpty then s.makeRoom line 1 17 else .ok s
  | r => r

/-- A coherent DIR read of a table line by a quad's walker: the line becomes a table line, and the quad a translation sharer
(R30, R37, Table 6.3). -/
def State.tableRead (s : State) (q line tenancy : Nat) : Coll (Row × State) :=
  if s.isLost line || (s.redirects line && (s.lackAt line).isSome) then .lost
  else if !s.quiet line then .busy none
  else match s.tableTrack line tenancy with
    | .lost => .lost
    | .busy r => .busy r
    | .ok s =>
      let (v, s) := s.readShared line
      .ok (v, s.setTrack line fun t =>
        { t with table := true, tshare := if t.tshare.contains q then t.tshare else t.tshare ++ [q] })

/-- The 8 bytes of an entry in its line. -/
def entryIn (row : Row) (a : Nat) : Nat := (BitVec.extractLsb' (8 * (a % 128)) 64 row).toNat

/-- The row with the 8 bytes at `a` replaced. -/
def putEntry (row : Row) (a e : Nat) : Row := Row.putBytes row (a % 128) (bytesOfNat 8 e)

/-- The tenancy of a context, from its descriptor as the home holds it (Table 2.3). -/
def State.tenancyOf (s : State) (ctx : Nat) : Nat :=
  let a := s.descAddr ctx
  (BitVec.extractLsb' (8 * (a % 128) + 112) 16 (s.coherentRow (lineOf a))).toNat

/-- Checks 2 to 5 for a table entry of level 1 or 2. -/
def tableCheck (level e : Nat) : Option (Cause × Nat) :=
  if !pteV e then some (.ptAbsent, level)
  else if level == 1 && pteB e then some (.ptFormat, level)
  else if pteCoh e == 3 then some (.ptFormat, level)
  else if pteCoh e != 0 then some (.ptNotdir, level)
  else if !isHbm (pteFrame e) then some (.ptFormat, level)
  else none

/-- Checks 2 to 8 for a leaf entry. -/
def leafCheck (podid level e : Nat) : Option (Cause × Nat) :=
  let f := pteFrame e
  if !pteV e then some (.ptAbsent, level)
  else if !pteB e then some (.ptFormat, level)
  else if pteCoh e == 3 || pteStor e == 3 then some (.ptFormat, level)
  else if level == 2 && bitsOf e 28 16 != 0 then some (.ptFormat, level)
  else if isPeer f && (pteCoh e == 0 || peerOf f == podid) then some (.ptFormat, level)
  else if pteStor e == 2 && (pteCoh e != 2 || !isReg f) then some (.ptFormat, level)
  else if pteStor e != 2 && isReg f then some (.ptFormat, level)
  else none

/-- sr.PODID (Table 15.12), from PODCFG. -/
def State.podid (s : State) : Nat := bitsOf s.reg.podcfg.toNat 9 0

/-- R31: whether 32 entries form one 2 MiB translation. -/
def contigOk (es : List Nat) : Bool :=
  let e0 := es.headD 0
  let key := fun e => (pteCoh e, pteStor e, bitsOf e 9 6, bitsOf e 13 13)
  pteFrame e0 % 0x20_0000 == 0
  && (List.range es.length).all fun k =>
    let e := es.getD k 0
    pteV e && pteB e && bitsOf e 12 12 == 1 && key e == key e0 && pteFrame e == pteFrame e0 + k * 0x1_0000

/-- The leaf entries of a translation: their addresses (one, or 32 in two lines). -/
def Trans.leaves (t : Trans) : List Nat :=
  if t.size == 0x20_0000 then (List.range 32).map fun k => t.leaf + 8 * k else [t.leaf]

/-- How a compare-and-set of leaf entries ends: done, not possible now, or an entry no longer is what the walk read. -/
inductive Cas where
  | ok (s : State)
  | busy (round : Option Nat)
  | differs
  deriving DecidableEq, Repr

/-- Bits set in the leaf entries of a translation that lie in one line, by one compare-and-set at its home (R32). -/
def State.casLeaf (s : State) (t : Trans) (bits line : Nat) : Cas :=
  let row := s.coherentRow line
  let as := (t.leaves.zip t.seen).filter fun x => lineOf x.1 == line
  if as.all fun x => entryIn row x.1 ||| bits == entryIn row x.1 then .ok s
  else if as.any fun x => pteFixed (entryIn row x.1) != pteFixed x.2 then .differs
  else match s.clearWindows line 0 128 with
    | .busy r => .busy r
    | .lost => .differs
    | .ok s => .ok (s.casLine line (as.foldl (fun r x => putEntry r x.1 (entryIn row x.1 ||| bits)) row))

/-- Bits set in every leaf entry of a translation, line by line. -/
def State.setLeafBits (s : State) (t : Trans) (bits : Nat) : Cas :=
  ((t.leaves.map lineOf).eraseDups).foldl (fun r line => match r with
    | .ok s => s.casLeaf t bits line
    | r => r) (.ok s)

/-- The set of a translation in the quad's cache of 512 sets of 8 ways (Table 2.7). DESIGN CHOICE (log 127): the manual does
not say which bits choose it. -/
def Trans.set (t : Trans) : Nat := t.va / t.size % 512

/-- A translation is entered into the quad's cache, in place of the one entered first where its set is full (R34). -/
def State.install (s : State) (q : Nat) (t : Trans) : State :=
  s.modQuad q fun x =>
    let rest := x.tc.filter fun u => !(u.ctx == t.ctx && u.va == t.va && u.size == t.size)
    let set := rest.filter fun u => u.set == t.set
    { x with tc := t :: (if set.length < 8 then rest else match set.getLast? with
        | some v => rest.erase v
        | none => rest) }

/-- The end of a walk at a leaf entry e at address `la` of level 2 or 3 (checks 9 to 11, R31). -/
def State.walkLeaf (s : State) (q : Nat) (r : WalkReq) (level la e : Nat) (via : List Nat) (tenancy : Nat) :
    WalkRes :=
  match leafCheck s.podid level e with
  | some (c, i) => .fault c i s
  | none =>
    let attr := pteAttr e
    if !attr.permits r.kind r.sup then .fault .perm 0 s
    else
      let size := if level == 2 then 0x2000_0000 else 0x1_0000
      let va := r.page / size * size
      let pa := pteFrame e
      if !isBacked (pa + (r.page - va)) then .fault .physRange 0 s
      else
        let one : Trans := { ctx := r.ctx, va := va, size := size, pa := pa, attr := attr, aknown := bitsOf e 10 10 == 1,
                             dknown := bitsOf e 11 11 == 1, leaf := la, seen := [e], via := via }
        let done := fun (t : Trans) (s : State) => WalkRes.ok t (s.install q t)
        if level == 3 && bitsOf e 12 12 == 1 then
          let base := la / 256 * 256
          match s.tableRead q base tenancy with
          | .busy r => .busy r
          | .lost => .fault .homeLost (homeDie base) s
          | .ok (r0, s) => match s.tableRead q (base + 128) tenancy with
            | .busy r => .busy r
            | .lost => .fault .homeLost (homeDie base) s
            | .ok (r1, s) =>
              let es := (List.range 32).map fun k =>
                entryIn (if k < 16 then r0 else r1) (base + 8 * k)
              if contigOk es then
                done { one with
                  va := va / 0x20_0000 * 0x20_0000
                  size := 0x20_0000
                  pa := pteFrame (es.headD 0)
                  aknown := es.all fun e => bitsOf e 10 10 == 1
                  dknown := es.all fun e => bitsOf e 11 11 == 1
                  leaf := base
                  seen := es
                  via := base :: (base + 128) :: via } s
              else done one s
        else done one s

/-- The walk from the level-three table on. -/
def State.walk3 (s : State) (q : Nat) (r : WalkReq) (table : Nat) (via : List Nat) (ten : Nat) : WalkRes :=
  let a := table + 8 * bitsOf r.page 28 16
  match s.tableRead q (lineOf a) ten with
  | .busy r => .busy r
  | .lost => .fault .homeLost (homeDie a) s
  | .ok (row, s) => s.walkLeaf q r 3 a (entryIn row a) (lineOf a :: via) ten

/-- A walk-cache entry is entered into the quad's 256 (R34). -/
def State.keepTable (s : State) (q : Nat) (w : WalkEnt) : State :=
  s.modQuad q fun x => { x with wc := (w :: x.wc.filter (· != w)).take 256 }

/-- The walk from the level-two table on. -/
def State.walk2 (s : State) (q : Nat) (r : WalkReq) (table : Nat) (via : List Nat) (ten : Nat) : WalkRes :=
  let a := table + 8 * bitsOf r.page 41 29
  match s.tableRead q (lineOf a) ten with
  | .busy r => .busy r
  | .lost => .fault .homeLost (homeDie a) s
  | .ok (row, s) =>
    let e := entryIn row a
    let via := lineOf a :: via
    if pteV e && pteB e then s.walkLeaf q r 2 a e via ten
    else match tableCheck 2 e with
      | some (c, i) => .fault c i s
      | none =>
        let s := s.keepTable q { ctx := r.ctx, level := 2, va := r.page / 0x2000_0000 * 0x2000_0000,
                                 next := pteFrame e, via := via }
        s.walk3 q r (pteFrame e) via ten

/-- The walk from the root on. -/
def State.walk1 (s : State) (q : Nat) (r : WalkReq) (root : Nat) (via : List Nat) (ten : Nat) : WalkRes :=
  let a := root + 8 * bitsOf r.page 54 42
  match s.tableRead q (lineOf a) ten with
  | .busy r => .busy r
  | .lost => .fault .homeLost (homeDie a) s
  | .ok (row, s) =>
    let e := entryIn row a
    let via := lineOf a :: via
    match tableCheck 1 e with
    | some (c, i) => .fault c i s
    | none =>
      let s := s.keepTable q { ctx := r.ctx, level := 1, va := r.page / 0x400_0000_0000 * 0x400_0000_0000,
                               next := pteFrame e, via := via }
      s.walk2 q r (pteFrame e) via ten

/-- A whole walk of a quad (R29): from the deepest walk-cache entry, or from the context descriptor. -/
def State.walk (s : State) (q : Nat) (r : WalkReq) : WalkRes :=
  let x := s.quad q
  let ten := s.tenancyOf r.ctx
  match x.wc.find? (fun w => w.ctx == r.ctx && w.level == 2 && w.va == r.page / 0x2000_0000 * 0x2000_0000) with
  | some w => s.walk3 q r w.next w.via ten
  | none => match x.wc.find? (fun w =>
      w.ctx == r.ctx && w.level == 1 && w.va == r.page / 0x400_0000_0000 * 0x400_0000_0000) with
    | some w => s.walk2 q r w.next w.via ten
    | none =>
      let a := s.descAddr r.ctx
      match x.desc.find? (·.1 == r.ctx) with
      | some d => s.walk1 q r d.2 [lineOf a] ten
      | none => match s.tableRead q (lineOf a) ten with
        | .busy r => .busy r
        | .lost => .fault .homeLost (homeDie a) s
        | .ok (row, s) =>
          let e := entryIn row a
          let root := pteFrame e
          if !pteV e then .fault .ptAbsent 0 s
          else if !isHbm root then .fault .ptFormat 0 s
          else
            let s := s.modQuad q fun x => { x with desc := (r.ctx, root) :: x.desc.filter (·.1 != r.ctx) }
            s.walk1 q r root [lineOf a] ten

/-! ### The translation of an access -/

/-- What a core finds for one address: a translation, the fault its walk ended in, a check that fails at
once, or nothing yet. -/
inductive Found where
  | tr (t : Trans)
  | fault (c : Cause) (info : Nat)
  | miss
  deriving DecidableEq, Repr

/-- The translation an L1 line or the quad cache holds for an address (R33, R34). -/
def State.lookTrans (s : State) (core ctx va : Nat) : Option Trans :=
  match (s.core core).l1d.find? (fun l => l.ctx == ctx && l.vline == va / 128 * 128) with
  | some l => some l.tr
  | none => (s.quad (quadOf core)).tc.find? fun t => t.ctx == ctx && t.va ≤ va && va < t.va + t.size

def Trans.physOf (t : Trans) (va : Nat) : Nat := t.pa + (va - t.va)

def pageOf (va : Nat) : Nat := va / 0x1_0000 * 0x1_0000

/-- A physical address of a peer that is unreachable (R432). -/
def State.cutOff (s : State) (pa : Nat) : Bool := isPeer pa && (look Peer.empty s.peers (peerOf pa)).unreachable

/-- The translation of a virtual address for one access kind, with the checks of Table 2.6. A fault that
a walk found for the page stands until it is met. `wholeLine`: a store that writes a whole DIR line does not meet its LOST mark,
which it clears (R149). -/
def State.find (s : State) (core ctx va : Nat) (k : Kind) (sup wholeLine : Bool) : Found :=
  match s.lookTrans core ctx va with
  | some t =>
    let line := lineOf (t.physOf va)
    if !t.attr.permits k sup then .fault .perm 0
    else if !isBacked (t.physOf va) || s.cutOff (t.physOf va) then .fault .physRange 0
    else if s.isLost line && !(wholeLine && t.attr.coh == .dir && !s.dieLost line) then .fault .homeLost (homeDie line)
    else .tr t
  | none =>
    match (s.quad (quadOf core)).faults.find? (fun f =>
        f.req.ctx == ctx && f.req.page == pageOf va && f.req.kind == k && f.req.sup == sup) with
    | some f => .fault f.cause f.level
    | none => .miss

/-- What must happen before an access can go on: a walk by a quad (R34), the invalidation of what was translated through a
table line (R38), or the end of a translation whose leaf entry is no longer what the walk read (R32). -/
inductive Ask where
  | walk (quad : Nat) (r : WalkReq)
  | round (line : Nat)
  | stale (line quad : Nat)
  deriving DecidableEq, Repr

/-- It is asked for. A walk is asked of the quad's walkers once; where all 32 are busy, the miss waits for a free one. -/
def State.ask (s : State) : Ask → State
  | .walk q r => s.modQuad q fun x =>
      if x.walks.contains r || 32 ≤ x.walks.length then x else { x with walks := x.walks ++ [r] }
  | .round line => s.begun (some line)
  | .stale line q => s.tinvAt line q

def State.asks (s : State) (as : List Ask) : State := as.foldl State.ask s

/-- The same as an event, which needs something to ask for. -/
def State.asked? (s : State) (as : List Ask) : Option State := if s.asks as == s then none else some (s.asks as)

/-- The walks of some pages. -/
def walksOf (core ctx : Nat) (k : Kind) (sup : Bool) (pages : List Nat) : List Ask :=
  pages.map fun p => .walk (quadOf core) { ctx := ctx, page := pageOf p, kind := k, sup := sup }

/-- The faults of a context's pages at a quad have been met. -/
def State.dropFaults (s : State) (core ctx : Nat) : State :=
  s.modQuad (quadOf core) fun x => { x with faults := x.faults.filter (·.req.ctx != ctx) }

/-- How the use of a translation ends: it may be used, or the access must wait and try again. -/
inductive Used where
  | ok (s : State)
  | wait (as : List Ask)
  deriving DecidableEq, Repr

/-- An access that has passed all of its checks uses a translation: A, and for a write D, is set in the leaf entries where
the translation does not know it yet (R32, R33). The quad's translation and the L1 lines filled through it then know. Where
an entry is no longer what the walk read, the translation is discarded and the access walks again. -/
def State.useTrans (s : State) (core : Nat) (wr : Bool) (t : Trans) : Used :=
  let bits := (if t.aknown then 0 else pteA) + (if wr && !t.dknown then pteD else 0)
  if bits == 0 then .ok s
  else match s.setLeafBits t bits with
    | .busy r => .wait (r.toList.map .round)
    | .differs => .wait [.stale (lineOf t.leaf) (quadOf core)]
    | .ok s =>
      let up := fun (u : Trans) => if u.leaf == t.leaf && u.size == t.size && u.ctx == t.ctx then
          { u with aknown := true, dknown := u.dknown || wr } else u
      let s := s.modQuad (quadOf core) fun x => { x with tc := x.tc.map up }
      .ok ((coresOfQuad (quadOf core)).foldl (fun s c => s.modCore c fun x =>
        { x with l1d := x.l1d.map fun l => { l with tr := up l.tr } }) s)

/-- Several translations are used; where one must wait, nothing but what it waits for has happened. -/
def State.useAll (s : State) (core : Nat) (wr : Bool) (ts : List Trans) : Used :=
  ts.foldl (fun r t => match r with
    | .ok u => u.useTrans core wr t
    | r => r) (.ok s)

/-! ### The checks of one lane's access (R45, R301) -/

/-- A fault of a lane: cause, INFO, address. -/
structure LaneFault where
  cause : Cause
  info : Nat
  addr : Nat
  deriving DecidableEq, Repr

/-- A part of an access in one page or window: bytes `off` to `off + n − 1` of a physical line under a
translation, or of a granule region of local memory (a core's region, an offset). -/
inductive Part where
  | phys (va line off n : Nat) (tr : Trans)
  | loc (core off n : Nat) (pos : Option Nat)
  deriving DecidableEq, Repr

/-- The outcome of a lane's checks: its parts, its first cause, or pages that need a walk. -/
inductive LaneChk where
  | parts (ps : List Part)
  | fault (f : LaneFault)
  | walk (pages : List Nat)
  deriving DecidableEq, Repr

/-- The pieces of a range, one per line. -/
def lineCuts (a : Nat) : Nat → Nat → List (Nat × Nat)
  | 0, _ => []
  | _ + 1, 0 => []
  | f + 1, n =>
    let k := min n (128 - a % 128)
    (a, k) :: lineCuts (a + k) f (n - k)

/-- A lane's access in the translated region: both pages are checked before any byte moves (R20). -/
def State.chkGlobal (s : State) (core ctx : Nat) (sup : Bool) (k : Kind) (wholes : Nat → Bool) (a n : Nat) : LaneChk :=
  let cuts := lineCuts a (n / 128 + 2) n
  let found := cuts.map fun c => (c, s.find core ctx c.1 k sup (wholes (c.1 / 128)))
  let faults := found.filterMap fun f => match f.2 with
    | .fault c i => some ({ cause := c, info := i, addr := a } : LaneFault)
    | _ => none
  let walks := found.filterMap fun f => match f.2 with
    | .miss => some (pageOf f.1.1)
    | _ => none
  if !walks.isEmpty then .walk walks
  else match faults.foldl (fun (b : Option LaneFault) f => match b with
      | none => some f
      | some g => if f.cause.code < g.cause.code then some f else some g) none with
    | some f => .fault f
    | none => .parts (found.filterMap fun f => match f.2 with
      | .tr t => some (.phys f.1.1 (lineOf (t.physOf f.1.1)) (f.1.1 % 128) f.1.2 t)
      | _ => none)

/-- The part of a workgroup on a core. -/
def Workgroup.onCore (w : Workgroup) (core : Nat) : Option WgCore := w.cores.find? (·.core == core)

/-- A lane's access through the local window (R17). -/
def chkLocal (w : Workgroup) (core a n : Nat) : LaneChk :=
  let o := a - localBase
  let size := ((w.onCore core).map (·.size)).getD 0
  if o + n ≤ size then .parts [.loc core o n none] else .fault { cause := .localRange, info := 0, addr := a }

/-- A lane's access through the cluster window (R18): the slot of its first byte decides. -/
def chkCluster (w : Workgroup) (core a n : Nat) : LaneChk :=
  let pos := (a - clusterBase) / 0x4_0000
  let o := (a - clusterBase) % 0x4_0000
  match ((w.onCore core).map (·.map)).getD [] |>.find? (fun e => e.pos == pos) with
  | none => .fault { cause := .clusterGone, info := pos, addr := a }
  | some e =>
    if e.revoking then .fault { cause := .clusterGone, info := pos, addr := a }
    else
      let size := ((w.onCore e.core).map (·.size)).getD 0
      if o + n ≤ size then .parts [.loc e.core o n (some pos)]
      else .fault { cause := .localRange, info := 0, addr := a }

/-- The relocation of R19; a pva beyond the virtual space, or in the window region, faults there. -/
def relocate (w : Workgroup) (gid lane o : Nat) : Nat :=
  w.privBase + (gid * 32 + lane) * w.privSize + o

/-- The checks of one lane's access of n bytes at a 64-bit address, in the order of Table 2.11. `qual`:
the qualified forms apply to local memory only and within one granule (R77). `wholes`: the virtual lines, by number, that the
instruction's lanes write whole. -/
def State.chkLane (s : State) (w : Workgroup) (gr : Group) (lane a n : Nat) (k : Kind) (qual : Bool) (wholes : Nat → Bool) :
    LaneChk :=
  let flt := fun c => LaneChk.fault { cause := c, info := 0, addr := a }
  if 2 ^ 55 ≤ a then flt .addrForm
  else match windowOfRange a n with
    | .hole => flt .windowHole
    | .global =>
      if qual then flt .feWindow else s.chkGlobal gr.core w.ctx gr.sup k wholes a n
    | .priv =>
      if qual then flt .feWindow
      else
        let o := a - privWindow
        if w.privSize < o + n then flt .privRange
        else
          let pva := relocate w gr.gid lane o
          if 2 ^ 55 ≤ pva then flt .addrForm
          else if localBase < pva + n then flt .windowHole
          else match s.chkGlobal gr.core w.ctx gr.sup k (fun _ => false) pva n with
            | .fault f => .fault { f with addr := a }
            | c => c
    | .localMem =>
      if qual && a / 16 != (a + n - 1) / 16 then flt .feSpan else chkLocal w gr.core a n
    | .cluster =>
      if qual && a / 16 != (a + n - 1) / 16 then flt .feSpan else chkCluster w gr.core a n

/-! ### Ranges of engine instructions: every page translated at issue (R105, R323, R339, R356) -/

/-- A physically contiguous piece of a translated range. -/
structure Piece where
  va : Nat
  pa : Nat
  n : Nat
  attr : Attr
  via : List Nat
  tr : Trans
  deriving DecidableEq, Repr

/-- A whole range, page by page: the pieces, or the first fault with its address, or pages to walk. -/
inductive RangeChk where
  | pieces (ps : List Piece)
  | fault (f : LaneFault) (ps : List Piece)
  | walk (pages : List Nat)
  deriving DecidableEq, Repr

/-- The pages of a range: (address, bytes). -/
def pageCuts (a : Nat) : Nat → Nat → List (Nat × Nat)
  | 0, _ => []
  | _ + 1, 0 => []
  | f + 1, n =>
    let k := min n (0x1_0000 - a % 0x1_0000)
    (a, k) :: pageCuts (a + k) f (n - k)

/-- A line marked LOST among those of a piece, other than one that the piece writes whole (R149): the address of its first
byte there. -/
def State.lostIn (s : State) (k : Kind) (t : Trans) (va n : Nat) : Option Nat :=
  let a := t.physOf va
  (s.lostLines.filter fun l => rangesMeet a n l 128
      && !((k == .write || k == .dst) && t.attr.coh == .dir && a ≤ l && l + 128 ≤ a + n)).foldl (fun b l =>
    some (match b with
      | none => va + (max a l - a)
      | some m => min m (va + (max a l - a)))) none

/-- The translation of a whole piece of a page. -/
def State.findPiece (s : State) (core ctx va n : Nat) (k : Kind) (sup : Bool) : Found :=
  match s.find core ctx va k sup true with
  | .tr t => if (s.lostIn k t va n).isSome then .fault .homeLost (homeDie (t.physOf va)) else .tr t
  | f => f

/-- A range of the translated region. `noDev`: DEVICE pages fault with PERM (R28). The pieces before the
first fault are kept (R117). -/
def State.chkRange (s : State) (core ctx : Nat) (sup : Bool) (k : Kind) (noDev : Bool) (a n : Nat) : RangeChk :=
  if n == 0 then .pieces []
  else if 2 ^ 55 ≤ a then .fault { cause := .addrForm, info := 0, addr := a } []
  else if windowOfRange a n != .global then .fault { cause := .windowHole, info := 0, addr := a } []
  else
    let k := if noDev then k.engine else k
    let found := (pageCuts a (n / 0x1_0000 + 2) n).map fun c => (c, s.findPiece core ctx c.1 c.2 k sup)
    let walks := found.filterMap fun f => match f.2 with
      | .miss => some (pageOf f.1.1)
      | _ => none
    if !walks.isEmpty then .walk walks
    else found.foldl (fun r f => match r with
      | .pieces ps => match f.2 with
        | .tr t => .pieces (ps ++ [{ va := f.1.1, pa := t.physOf f.1.1, n := f.1.2, attr := t.attr,
                                     via := t.via, tr := t }])
        | .fault c i => .fault { cause := c, info := i, addr := f.1.1 } ps
        | .miss => r
      | r => r) (.pieces [])

/-- The physical address of an offset into translated pieces. -/
def physAt (ps : List Piece) (va : Nat) : Nat :=
  match ps.find? (fun p => p.va ≤ va && va < p.va + p.n) with
  | some p => p.pa + (va - p.va)
  | none => 0

/-- The treatment of an address in translated pieces. -/
def attrAt (ps : List Piece) (va : Nat) : Attr :=
  match ps.find? (fun p => p.va ≤ va && va < p.va + p.n) with
  | some p => p.attr
  | none => { rd := false, w := false, x := false, sup := false, coh := .unc, stor := .normal }

/-- Walks are asked for every page of a list. -/
def State.askWalks (s : State) (core ctx : Nat) (k : Kind) (sup : Bool) (pages : List Nat) : State :=
  s.asks (walksOf core ctx k sup pages)

end Sys2Proof.Machine
end

