-- ==== Sys2Proof/Machine/Barrier.lean ====
section
/-!
DEFINITION. Barriers (R173, R174, R313): the scope and the instance at which a BAR acts, the groups of a
phase, arrivals, and the release of a complete phase.
-/
namespace Sys2Proof.Machine

/-! ### Scope and instance -/

/-- The cluster in which a core holds a position. -/
def Workgroup.clusterOf (w : Workgroup) (core : Nat) : Option Nat := (w.onCore core).bind (·.cluster)

/-- The scope at which a BAR acts (R173, R174): none is wider than sr.WGSCOPE but the scopes of a gang, and on a
core in no cluster CLU is CORE. -/
def Workgroup.barScope (w : Workgroup) (gr : Group) (sc : Scope) : Scope :=
  let sc := if sc == .clu && (w.clusterOf gr.core).isNone then Scope.core else sc
  if w.gang != 0 && (sc == .pkg || sc == .pod || sc == .sys) then (if sc == .pkg then .pkg else .pod)
  else if sc != w.scope && sc.covers w.scope then w.scope
  else sc

/-- The instance of a scope that holds a group. -/
def Workgroup.barInst (w : Workgroup) (gr : Group) (sc : Scope) : Nat :=
  match sc with
  | .grp => gr.gid
  | .core => gr.core
  | .clu => match w.clusterOf gr.core with
    | some k => 0x1_0000 + k
    | none => gr.core
  | .quad => quadOf gr.core
  | _ => 0

/-- Cycles from the last arrival to the release (Table 8.2). DESIGN CHOICE (log 7): those of GRP and CORE are cycles of the
core's clock, those of the other networks package cycles. -/
def releaseTime : Scope → Nat
  | .grp => 4 | .clu => 64 | .core => 16 | .quad => 48 | .die => 200 | .pkg => 800 | .pod | .sys => 6000

/-! ### Phases -/

/-- Whether a group belongs to a phase's set. -/
def BarPhase.has (b : BarPhase) (w : Workgroup) (gr : Group) : Bool :=
  match b.gang with
  | some n => w.gang != 0 && w.launcher == n.1 && w.gang == n.2
  | none => w.handle == b.wg && (match b.set with
    | some l => l.contains gr.gid
    | none => w.barInst gr b.scope == b.inst)

/-- The groups of a phase's set, each with its workgroup. -/
def State.barMembers (s : State) (b : BarPhase) : List (Nat × Group) :=
  s.wgs.flatMap fun e => (e.2.groups.filter fun g => b.has e.2 g.2).map fun g => (e.1, g.2)

/-- A group has arrived once every path of it has: at a scope wider than GRP, paths in JOIN aside. -/
def BarPhase.groupIn (b : BarPhase) (h : Nat) (gr : Group) : Bool :=
  let ps := (List.range 4).filter fun p =>
    (gr.path p).st != .free && (b.scope == .grp || (gr.path p).st != .join)
  gr.ended || (!ps.isEmpty && ps.all fun p => b.arrived.contains (h, gr.gid, p))

/-- A group's arrival is recorded in every phase that it completes its part of, with its time. -/
def State.latch (s : State) (h g : Nat) : State :=
  match s.wg? h, s.group? h g with
  | some w, some gr =>
    { s with bars := s.bars.map fun b =>
        if b.has w gr && !b.groups.contains (h, g) && b.groupIn h gr then
          { b with groups := b.groups ++ [(h, g)], lastAt := s.cycle }
        else b }
  | _, _ => s

/-- Two records of one identifier in one instance. -/
def BarPhase.same (a b : BarPhase) : Bool :=
  a.wg == b.wg && a.gang == b.gang && a.id == b.id && a.scope == b.scope && a.inst == b.inst

/-- The phase that a BAR of a group opens. The set of a cluster's phase is fixed when it opens; while an earlier
phase is open, it is fixed later. -/
def State.newPhase (s : State) (w : Workgroup) (gr : Group) (sc : Scope) (id : Nat) : BarPhase :=
  let ganged := w.gang != 0 && (sc == .pkg || sc == .pod)
  let b : BarPhase :=
    { wg := if ganged then 0 else w.handle
      gang := if ganged then some (w.launcher, w.gang) else none
      id := id, scope := sc, inst := w.barInst gr sc, set := none, arrived := [], groups := [], lastAt := s.cycle }
  if sc == .clu && !(s.bars.any (·.same b)) then { b with set := some ((s.barMembers b).map (·.2.gid)) } else b

/-- A path arrives at a barrier; none where the group's phase of the identifier has another scope (BAR_SCOPE). A
path that stands in the phase already changes nothing, and one whose group has arrived already waits for the next
phase. -/
def State.barArrive (s : State) (h g p : Nat) (sc : Scope) (id : Nat) : Option State :=
  match s.wg? h, s.group? h g with
  | some w, some gr =>
    if s.bars.any fun b => b.id == id && b.has w gr && b.scope != sc then none
    else
      let n := s.newPhase w gr sc id
      let mine := fun (b : BarPhase) => b.same n && b.has w gr
      if s.bars.any fun b => mine b && b.arrived.contains (h, g, p) then some s
      else
        let s := if s.bars.any fun b => mine b && !b.groups.contains (h, g) then s else { s with bars := s.bars ++ [n] }
        match takeFirst (fun b => mine b && !b.groups.contains (h, g)) s.bars with
        | none => some s
        | some (b, _) =>
          let b' := { b with arrived := b.arrived ++ [(h, g, p)] }
          some ({ s with bars := modWhere (· == b) (fun _ => b') s.bars }.latch h g)
  | _, _ => some s

/-- Package cycles in a cycle of the network of a phase. -/
def State.barDiv (s : State) (b : BarPhase) : Nat :=
  match b.scope with
  | .grp | .core => ((s.barMembers b).head?.map fun m => (s.core m.2.core).div).getD 1
  | _ => 1

/-- A restored group's paths evaluate their waits again (R390): their arrivals at open phases are taken back, and a path
that stands at its BAR arrives anew. -/
def State.unarrive (s : State) (h g : Nat) : State :=
  let gone := ((s.group? h g).map (!·.ended)).getD true
  { s with bars := (s.bars.map fun b =>
      { b with arrived := b.arrived.filter (fun a => !(a.1 == h && a.2.1 == g))
               groups := b.groups.filter fun a => !(a == (h, g) && gone) }).filter (!·.arrived.isEmpty) }

/-- A phase that is complete, its release time passed: every group of its set has arrived or ended, no earlier
phase of it is open, and no part of a gang stands evicted. -/
def State.phaseDone (s : State) (b : BarPhase) : Bool :=
  (s.bars.find? (·.same b)) == some b
  && (b.scope != .clu || b.set.isSome) && !b.arrived.isEmpty
  && ((s.barMembers b).all fun m => m.2.ended || b.groups.contains (m.1, m.2.gid))
  && (match b.gang with
      | none => (s.wg? b.wg).isSome
      | some n => !((s.queues.flatMap id).any fun q => q.resume.isSome && q.launcher == n.1 && q.dead.gang == n.2))
  && decide (b.lastAt + releaseTime b.scope * s.barDiv b ≤ s.cycle)

/-- A path leaves its barrier; for a halted group it does so at its restore. -/
def Group.release (gr : Group) (p : Nat) : Group :=
  if gr.halted then { gr with grantedWhileHalted := gr.grantedWhileHalted ++ [(.v, 0, p)] }
  else if (gr.path p).wait == some .barrier then gr.modPath p (·.advance) else gr

/-- The phase counter of an identifier. -/
def Workgroup.countPhase (w : Workgroup) (id : Nat) : Workgroup := { w with phases := modAt (· + 1) w.phases id }

/-- A phase is over: its arrived paths go on, and the next phase of the same instance opens. -/
def State.endPhase (s : State) (b : BarPhase) : State :=
  let s := { s with bars := s.bars.erase b }
  let s := b.arrived.foldl (fun s a => s.modGroup a.1 a.2.1 (·.release a.2.2)) s
  let s : State := match b.gang with
    | none => s.modWg b.wg (·.countPhase b.id)
    | some n => { s with wgs := s.wgs.map fun e =>
        (e.1, if e.2.launcher == n.1 && e.2.gang == n.2 then e.2.countPhase b.id else e.2) }
  match s.bars.find? (·.same b) with
  | none => s
  | some n =>
    let ms := s.barMembers n
    let n' := { n with
      set := if n.scope == .clu then some (ms.map (·.2.gid)) else n.set
      groups := (ms.filter fun m => n.groupIn m.1 m.2 && !m.2.ended).map fun m => (m.1, m.2.gid)
      lastAt := s.cycle }
    { s with bars := modWhere (· == n) (fun _ => n') s.bars }

/-- BARRIER_PHASE_COMPLETE of the k-th open phase, one of workgroup `h` or of its gang. -/
def State.phaseStep (s : State) (h k : Nat) : Option State :=
  match s.bars[k]? with
  | none => none
  | some b =>
    let own := match b.gang with
      | none => b.wg == h
      | some n => (s.wg? h).any fun w => w.launcher == n.1 && w.gang == n.2
    if own && s.phaseDone b then some (s.endPhase b) else none

/-- A core leaves cluster k: its groups that have not arrived leave the sets of the cluster's open phases
(R174). -/
def State.leavePhases (s : State) (h core k : Nat) : State :=
  match s.wg? h with
  | none => s
  | some w =>
    { s with bars := s.bars.map fun b =>
        if b.wg == h && b.scope == .clu && b.inst == 0x1_0000 + k then
          { b with set := b.set.map fun l => l.filter fun g =>
              b.groups.contains (h, g) || !((w.group? g).any fun gr => gr.core == core) }
        else b }

end Sys2Proof.Machine
end

