-- ==== Sys2Proof/Machine/Operands.lean ====
section
/-!
DEFINITION. Operands: which registers an instruction reads and writes and in which fields (Tables 12.4 to
12.15, 13.2 to 13.6, 14.3 to 14.11, 15.2 to 15.9), which instructions are path-wide (R209), the values
operands have (R241 to R244, R246), and the writing of results lane by lane (R261, R264).
-/
namespace Sys2Proof

/-! ### What an instruction names -/

/-- An operand in field `f` (0 D, 1 A, 2 B, 3 C) that covers `n` registers. -/
structure Use where
  f : Nat
  o : Opnd
  n : Nat
  deriving DecidableEq, Repr

/-- Registers of the address field (R299). -/
def addrRegs : Win → Nat
  | .g => 2
  | _ => 1

def ldSrcs (f : LdForm) : List Use := [⟨1, f.a, addrRegs f.win⟩, ⟨2, f.off, 1⟩]
def stSrcs (f : StForm) : List Use :=
  [⟨1, f.a, addrRegs f.win⟩, ⟨2, f.off, 1⟩, ⟨0, f.d, memRegs f.ty f.x4⟩]
def ldDsts (f : LdForm) : List Use := [⟨0, f.d, memRegs f.ty f.x4⟩]

/-- Source operands in the order in which Q operands pop: A, B, C, and the data of a store last. The
status predicate of .PEEK is no source. -/
def Instr.srcs : Instr → List Use
  | .jmp _ a | .callr _ _ a | .ret _ a => [⟨1, a, 2⟩]
  | .mov _ t _ a => [⟨1, a, t.regs⟩]
  | .iadd _ t _ a b | .isub _ t _ a b | .imul _ t _ a b | .imulh _ t _ a b | .idiv _ t _ a b
  | .irem _ t _ a b | .imin _ t _ a b | .imax _ t _ a b | .and _ t _ a b | .or _ t _ a b
  | .xor _ t _ a b | .icmp _ _ t _ a b | .fadd _ _ t _ a b | .fsub _ _ t _ a b
  | .fmul _ _ t _ a b | .fmin _ t _ a b | .fmax _ t _ a b | .fcmp _ _ t _ a b
  | .fdiv _ _ t _ a b => [⟨1, a, t.regs⟩, ⟨2, b, t.regs⟩]
  | .imad _ t _ a b c | .ffma _ _ t _ a b c => [⟨1, a, t.regs⟩, ⟨2, b, t.regs⟩, ⟨3, c, t.regs⟩]
  | .iabs _ t _ a | .not _ t _ a | .popc _ t _ a | .clz _ t _ a | .brev _ t _ a | .fabs _ t _ a
  | .fsqrt _ _ t _ a | .frcp _ t _ a | .frsq _ t _ a | .fexp2 _ t _ a | .flog2 _ t _ a
  | .fsin _ t _ a | .fcos _ t _ a | .ftanh _ t _ a | .fclass _ t _ a | .frnd _ _ t _ a
  | .redadd _ t _ a | .redmin _ t _ a | .redmax _ t _ a | .redand _ t _ a | .redor _ t _ a
  | .scanadd _ _ t _ a | .matchLanes _ t _ a => [⟨1, a, t.regs⟩]
  | .shl _ t _ a b | .shr _ t _ a b | .shra _ t _ a b | .shfl _ _ t _ a b | .shflup _ _ t _ a b
  | .shfldn _ _ t _ a b | .shflx _ _ t _ a b => [⟨1, a, t.regs⟩, ⟨2, b, 1⟩]
  | .bfe _ t _ a b c => [⟨1, a, t.regs⟩, ⟨2, b, 1⟩, ⟨3, c, 1⟩]
  | .bfi _ t _ a b c => [⟨1, a, t.regs⟩, ⟨2, b, t.regs⟩, ⟨3, c, 1⟩]
  | .lea _ t _ a b c => [⟨1, a, 2⟩, ⟨2, b, t.regs⟩, ⟨3, c, 1⟩]
  | .sel _ t _ a b c => [⟨1, a, t.regs⟩, ⟨2, b, t.regs⟩, ⟨3, c, 1⟩]
  | .cvt _ _ _ t _ a => [⟨1, a, t.regs⟩]
  | .pkcvt _ _ _ _ a b => [⟨1, a, 1⟩, ⟨2, b, 1⟩]
  | .unpk _ _ _ _ a | .pmov _ _ a | .voteall _ _ a | .voteany _ _ a | .ballot _ _ a => [⟨1, a, 1⟩]
  | .pand _ _ a b | .por _ _ a b | .pxor _ _ a b => [⟨1, a, 1⟩, ⟨2, b, 1⟩]
  | .ld _ f | .ldWait _ f | .ldTake _ f => ldSrcs f
  | .ldPeek _ f => [⟨1, f.a, addrRegs f.win⟩]
  | .st _ f | .stWait _ f | .stTake _ f => stSrcs f
  | .stPeek _ f => [⟨1, f.a, addrRegs f.win⟩, ⟨0, f.d, memRegs f.ty f.x4⟩]
  | .pref _ _ w a off => [⟨1, a, addrRegs w⟩, ⟨2, off, 1⟩]
  | .atom _ op w _ _ t _ a b => [⟨1, a, addrRegs w⟩, ⟨2, b, if op == .cas then 2 * t.regs else t.regs⟩]
  | .bar _ _ b | .waitc _ _ b | .cjoin _ _ b => [⟨2, b, 1⟩]
  | .stageIn _ _ a b | .stageOut _ _ a b => [⟨1, a, 1⟩, ⟨2, b, 1⟩]
  | .copy _ _ d a b => [⟨1, a, 2⟩, ⟨2, b, 1⟩, ⟨0, d, 2⟩]
  | .copyxT2d _ _ d a b | .copyxPack _ _ d a b | .copyxUnpack _ _ d a b | .copyxHadq _ _ d a b =>
    [⟨1, a, 2⟩, ⟨2, b, 8⟩, ⟨0, d, 2⟩]
  | .resolve _ _ a b | .pndrop _ _ _ a b => [⟨1, a, 2⟩, ⟨2, b, 1⟩]
  | .pnq _ _ _ a => [⟨1, a, 2⟩]
  | .mloadRow _ _ _ _ a b | .mloadFact _ _ a b | .mloadBlk _ _ a b | .aload _ _ _ _ a b =>
    [⟨1, a, 2⟩, ⟨2, b, 1⟩]
  | .mstoreRow _ _ _ d a b | .astore _ _ _ d a b => [⟨1, a, 2⟩, ⟨2, b, 1⟩, ⟨0, d, 1⟩]
  | .mstoreFact _ d a => [⟨1, a, 2⟩, ⟨0, d, 1⟩]
  | .mma _ _ _ d a b => [⟨1, a, 1⟩, ⟨2, b, 1⟩] ++ (if d.isA then [⟨0, d, 1⟩] else [])
  | .madd _ _ a b => [⟨1, a, 1⟩, ⟨2, b, 1⟩]
  | .recomp _ _ a | .mdense _ _ a | .mrankGet _ _ a | .mmov _ _ a | .amov _ _ a => [⟨1, a, 1⟩]
  | .mrankCap _ d b => [⟨2, b, 1⟩, ⟨0, d, 1⟩]
  | .xformQ _ d a b => [⟨1, a, 8⟩, ⟨2, b, 4⟩] ++ (if d.isS 1 then [⟨0, d, 1⟩] else [])
  | .xformDq _ d a b => [⟨1, a, 1⟩, ⟨2, b, 4⟩] ++ (if d.isS 1 then [⟨0, d, 1⟩] else [])
  | .xformHad _ d a b => [⟨1, a, 8⟩, ⟨2, b, 4⟩] ++ (if d.isS 1 then [⟨0, d, 1⟩] else [])
  | .decodeBlk _ _ d a b => [⟨1, a, 1⟩, ⟨2, b, 2⟩] ++ (if d.isS 1 then [⟨0, d, 1⟩] else [])
  | .admitSeq _ _ a b => [⟨1, a, 4⟩, ⟨2, b, 4⟩]
  | .admitRel _ _ a | .kvseal _ a => [⟨1, a, 4⟩]
  | .kvapp _ _ a b => [⟨1, a, 4⟩, ⟨2, b, 2⟩]
  | .kvld _ _ _ _ _ a b => [⟨1, a, 4⟩, ⟨2, b, 1⟩]
  | .span _ a b | .spanret _ a b | .window _ a b => [⟨1, a, 4⟩, ⟨2, b, 1⟩]
  | .rope _ k _ a b => [⟨1, a, k.toNat + 2⟩, ⟨2, b, 4⟩]
  | .nest _ a => [⟨1, a, 8⟩]
  | .apsend _ _ b | .apermit _ _ b => [⟨2, b, 1⟩]
  | .launch _ _ a => [⟨1, a, 2⟩]
  | .trap _ b | .svc _ b | .bkpt _ b => [⟨2, b, 1⟩]
  | .setsr _ n b => [⟨2, b, (srWidth n.toNat).getD 32 / 32⟩]
  | .sample _ a => [⟨1, a, 1⟩]
  | .rgive _ _ b | .rclaim _ _ b => [⟨2, b, 1⟩]
  | _ => []

/-- Destination operands. -/
def Instr.dsts : Instr → List Use
  | .call _ d _ | .callr _ d _ => [⟨0, d, 2⟩]
  | .mov _ t d _ | .iadd _ t d .. | .isub _ t d .. | .imul _ t d .. | .imulh _ t d ..
  | .imad _ t d .. | .idiv _ t d .. | .irem _ t d .. | .imin _ t d .. | .imax _ t d ..
  | .iabs _ t d _ | .and _ t d .. | .or _ t d .. | .xor _ t d .. | .not _ t d _ | .shl _ t d ..
  | .shr _ t d .. | .shra _ t d .. | .brev _ t d _ | .bfe _ t d .. | .bfi _ t d .. | .sel _ t d ..
  | .fadd _ _ t d .. | .fsub _ _ t d .. | .fmul _ _ t d .. | .ffma _ _ t d .. | .fmin _ t d ..
  | .fmax _ t d .. | .fabs _ t d _ | .fdiv _ _ t d .. | .fsqrt _ _ t d _ | .frcp _ t d _
  | .frsq _ t d _ | .fexp2 _ t d _ | .flog2 _ t d _ | .fsin _ t d _ | .fcos _ t d _
  | .ftanh _ t d _ | .fclass _ t d _ | .frnd _ _ t d _ | .cvt _ _ t _ d _ | .shfl _ _ t d ..
  | .shflup _ _ t d .. | .shfldn _ _ t d .. | .shflx _ _ t d .. | .redadd _ t d _ | .redmin _ t d _
  | .redmax _ t d _ | .redand _ t d _ | .redor _ t d _ | .scanadd _ _ t d _
  | .atom _ _ _ _ _ t d .. => [⟨0, d, t.regs⟩]
  | .popc _ _ d _ | .clz _ _ d _ | .icmp _ _ _ d .. | .rng _ _ d | .fcmp _ _ _ d .. | .pkcvt _ _ _ d ..
  | .unpk _ _ _ d _ | .pand _ d .. | .por _ d .. | .pxor _ d .. | .pmov _ d _ | .voteall _ d _
  | .voteany _ d _ | .ballot _ d _ | .matchLanes _ _ d _ | .cleave _ d | .mloadRow _ _ _ d ..
  | .mloadFact _ d .. | .mloadBlk _ d .. | .mma _ _ _ d .. | .madd _ d .. | .recomp _ d _
  | .mdense _ d _ | .mrankGet _ d _ | .mrankCap _ d _ | .mzero _ d | .mmov _ d _ | .aload _ _ _ d ..
  | .azero _ d | .amov _ d _ | .admitSeq _ d .. | .admitRel _ d _ | .kvapp _ d .. => [⟨0, d, 1⟩]
  | .lea _ _ d .. | .cjoin _ d _ | .launch _ d _ => [⟨0, d, 2⟩]
  | .ld _ f | .ldWait _ f | .ldTake _ f => ldDsts f
  | .ldPeek _ f => ldDsts f ++ [⟨2, f.off, 1⟩]
  | .stPeek _ f => [⟨2, f.off, 1⟩]
  | .stageIn .. => []
  | .stageOut _ _ a _ => [⟨1, a, 1⟩]
  | .pnq _ _ d _ => [⟨0, d, 4⟩]
  | .xformQ _ d .. => if d.isS 1 then [] else [⟨0, d, 1⟩]
  | .xformDq _ d .. | .xformHad _ d .. => if d.isS 1 then [] else [⟨0, d, 8⟩]
  | .decodeBlk _ _ d .. => if d.isS 1 then [] else [⟨0, d, 1⟩]
  | .kvld _ _ _ k d .. => [⟨0, d, k.toNat + 3⟩]
  | .rope _ k d .. => [⟨0, d, k.toNat + 1⟩]
  | .getsr _ d b => [⟨0, d, ((srNumber b).bind srWidth).getD 32 / 32⟩]
  | _ => []

/-- Guard and hints of an instruction; events have none. -/
def Ctl.none : Ctl :=
  { guard := .always,
    hint := { pair := false, yield := false, split := false, skip := false, reuseA := false,
              reuseB := false, stall := 0 } }

/-- Lane-bound instructions (R209, R298, R356): those that act once per active lane. -/
def Instr.laneBound : Instr → Bool
  | .mov _ _ d _ | .iadd _ _ d .. | .isub _ _ d .. | .imul _ _ d .. | .imulh _ _ d ..
  | .imad _ _ d .. | .idiv _ _ d .. | .irem _ _ d .. | .imin _ _ d .. | .imax _ _ d ..
  | .iabs _ _ d _ | .and _ _ d .. | .or _ _ d .. | .xor _ _ d .. | .not _ _ d _ | .shl _ _ d ..
  | .shr _ _ d .. | .shra _ _ d .. | .popc _ _ d _ | .clz _ _ d _ | .brev _ _ d _ | .bfe _ _ d ..
  | .bfi _ _ d .. | .lea _ _ d .. | .sel _ _ d .. | .icmp _ _ _ d .. | .rng _ _ d | .fadd _ _ _ d ..
  | .fsub _ _ _ d .. | .fmul _ _ _ d .. | .ffma _ _ _ d .. | .fmin _ _ d .. | .fmax _ _ d ..
  | .fabs _ _ d _ | .fcmp _ _ _ d .. | .fdiv _ _ _ d .. | .fsqrt _ _ _ d _ | .frcp _ _ d _
  | .frsq _ _ d _ | .fexp2 _ _ d _ | .flog2 _ _ d _ | .fsin _ _ d _ | .fcos _ _ d _
  | .ftanh _ _ d _ | .fclass _ _ d _ | .cvt _ _ _ _ d _ | .frnd _ _ _ d _ | .pkcvt _ _ _ d ..
  | .unpk _ _ _ d _ | .pand _ d .. | .por _ d .. | .pxor _ d .. | .pmov _ d _ | .shfl _ _ _ d ..
  | .shflup _ _ _ d .. | .shfldn _ _ _ d .. | .shflx _ _ _ d .. | .voteall _ d _ | .voteany _ d _
  | .ballot _ d _ | .redadd _ _ d _ | .redmin _ _ d _ | .redmax _ _ d _ | .redand _ _ d _
  | .redor _ _ d _ | .scanadd _ _ _ d _ | .matchLanes _ _ d _ => !d.isS 1
  | .ld _ f | .ldWait _ f | .ldTake _ f | .ldPeek _ f => laneBoundAddr f.a f.off
  | .st _ f | .stWait _ f | .stTake _ f | .stPeek _ f => laneBoundAddr f.a f.off
  | .pref _ _ _ a off => laneBoundAddr a off
  | .atom _ _ _ _ _ _ _ a b => a.isV 1 || b.isV 1
  | .kvld .. | .rope .. => true
  | _ => false

/-! ### Registers an operand names -/

/-- The registers of an operand, in order; `ap` for the access processor's own. -/
def Use.regs (ap : Bool) (u : Use) : List Machine.Reg :=
  match u.o with
  | .v _ _ i => (List.range u.n).map fun k => .v (i.toNat + k)
  | .s _ _ i => (List.range u.n).map fun k => if ap then .aps (i.toNat + k) else .s (i.toNat + k)
  | .p _ _ i => [if ap then .app i.toNat else .p i.toNat]
  | .m _ _ i => [.m i.toNat]
  | .a _ _ i => [.a i.toNat]
  | _ => []

/-- The E flag of a source (R194); absent on what has none. -/
def Opnd.eFlag : Opnd → Bool
  | .v e .. | .s e .. | .p e .. | .m e .. | .a e .. | .q e .. => e
  | _ => false

/-- XM (R242, R265). -/
def Opnd.xm : Opnd → Bool
  | .v _ x _ | .s _ x _ | .p _ x _ | .m _ x _ | .a _ x _ | .q _ x _ | .lane _ x | .zero _ x => x
  | _ => false

/-- The port of a Q operand. -/
def Opnd.portOf : Opnd → Option Nat
  | .q _ _ j => some j.toNat
  | _ => Option.none

/-- The index of a register operand. -/
def Opnd.idx : Opnd → Nat
  | .v _ _ i => i.toNat
  | .s _ _ i => i.toNat
  | .p _ _ i => i.toNat
  | .m _ _ i => i.toNat
  | .a _ _ i => i.toNat
  | _ => 0

end Sys2Proof

namespace Sys2Proof.Machine

/-! ### Values -/

/-- An instruction that issues: the state with its Q operands popped, its issuer, the path's mask and
the execution mask, its PC, and the popped words by field. For the access processor (`ap`) path `p` is
no path and the masks stand for its one lane. -/
structure Iss where
  s : State
  h : Nat
  g : Nat
  p : Nat
  ap : Bool
  w : Workgroup
  gr : Group
  m : Mask
  x : Mask
  pc : Nat
  q : List (Nat × List Word)
  deriving DecidableEq, Repr

/-- The row that holds each lane's number. -/
def laneRow : Row := Row.ofLanes ((List.range 32).map fun l => BitVec.ofNat 32 l)

namespace Iss
variable (x : Iss)

def sval (i : Nat) : Word := if x.ap then look 0 x.gr.ap.s i else x.gr.sreg i

/-- The k-th register of an operand in field f as a row; an S register, a popped word and ZERO stand in
every lane (R244). Immediates have no register. -/
def row (f : Nat) (o : Opnd) (k : Nat) : Row :=
  match o with
  | .v _ _ i => x.gr.vreg (i.toNat + k)
  | .s _ _ i => Row.splat (x.sval (i.toNat + k))
  | .q _ _ _ => Row.splat ((look [] x.q f).getD k 0)
  | .lane _ _ => if k == 0 then laneRow else 0
  | _ => 0

/-- The raw pattern of `n` registers of an operand in a lane. -/
def raw (f : Nat) (o : Opnd) (n l : Nat) : Nat :=
  ((List.range n).map fun k => ((x.row f o k).lane l).toNat * 2 ^ (32 * k)).sum

/-- An operand under an integer type, w bits wide, XM applied (R242, R243, R246). -/
def int (t : Ty) (f : Nat) (o : Opnd) (l : Nat) : Nat :=
  match o with
  | .imm v => wrapTo t.bits v.toInt
  | .imm32 v => if t.signed then wrapTo t.bits v.toInt else v.toNat % 2 ^ t.bits
  | o =>
    let v := x.raw f o t.regs l % 2 ^ t.bits
    if o.xm then (2 ^ t.bits - v) % 2 ^ t.bits else v

/-- An operand under a float type: the pattern, XM applied to its sign bit. -/
def float (t : Ty) (f : Nat) (o : Opnd) (l : Nat) : Nat :=
  match o with
  | .imm v => floatOfImm t.fmt v
  | .imm32 v => v.toNat % 2 ^ t.bits
  | o =>
    let v := x.raw f o 1 l % 2 ^ t.bits
    if o.xm then v ^^^ 2 ^ (t.bits - 1) else v

/-- An operand under any type of CVT. -/
def typed (t : Ty) (f : Nat) (o : Opnd) (l : Nat) : Nat :=
  if t.isFloat then x.float t f o l else x.int t f o l

/-- A 32-bit operand in a lane: a length, a count, a code. XM negates a source; on field D it does not (R265,
log 136). -/
def laneWord (f : Nat) (o : Opnd) (l : Nat) : Nat :=
  match o with
  | .imm v => wrapTo 32 v.toInt
  | .imm32 v => v.toNat
  | o =>
    let v := x.raw f o 1 l
    if o.xm && f != 0 then (2 ^ 32 - v) % 2 ^ 32 else v

def word (f : Nat) (o : Opnd) : Nat := x.laneWord f o 0

/-- A 64-bit S pair, or two popped words, under the same rule. -/
def dword (f : Nat) (o : Opnd) : Nat :=
  let v := x.raw f o 2 0
  if o.xm && f != 0 then (2 ^ 64 - v) % 2 ^ 64 else v

/-- A P operand as a lane mask, XM inverting it. -/
def pmask (o : Opnd) : Mask :=
  let v : Mask := if x.ap then (if x.gr.ap.p.getLsbD o.idx then BitVec.allOnes 32 else 0) else x.gr.pred o.idx
  if o.xm then ~~~ v else v

end Iss

/-! ### Results -/

/-- A value of `t.bits` bits as register words (R244). -/
def regWords (t : Ty) (v : Nat) : List Word :=
  if t.is64 then [BitVec.ofNat 32 v, BitVec.ofNat 32 (v / 2 ^ 32)]
  else [BitVec.ofNat 32 (if t.signed then wrapTo 32 (signExt t.bits v) else v % 2 ^ t.bits)]

/-- An ash record before its PC and tick are known (Table 10.6). -/
structure AshRec where
  elem : Nat
  lane : Nat
  kind : AshKind
  dfmt : Nat
  deriving DecidableEq, Repr

/-- What a lane computes: its register words, its flags, its ash records. -/
structure LaneRes where
  words : List Word
  fl : Word := 0
  ash : List AshRec := []
  deriving DecidableEq, Repr

/-- How an instruction that issues ends. `done` completes in order: the group with its results, the
flags by lane, the ash records; the path goes on behind it. `state` has done everything itself. `stall`
leaves the path BLOCKED at the instruction. `trap` raises a cause before any change. -/
inductive Res where
  | done (gr : Group) (fl : List (Nat × Word)) (ash : List AshRec)
  | state (s : State)
  | stall (w : Wait) (s : State)
  | trap (r : Raise)
  deriving DecidableEq, Repr

/-- The j-th words of lane results as a row; lanes without a result are 0. -/
def wordRow (rs : List (Nat × LaneRes)) (j : Nat) : Row :=
  Row.ofLanes ((List.range 32).map fun l => ((find? rs l).map fun r => r.words.getD j 0).getD 0)

/-- Writes the words of an S destination. -/
def Iss.putScalar (x : Iss) (d : Opnd) (ws : List Word) : Group :=
  (List.range ws.length).foldl (fun gr k =>
    let w := ws.getD k 0
    if x.ap then { gr with ap := { gr.ap with s := put gr.ap.s (d.idx + k) w } }
    else gr.putS (d.idx + k) w) x.gr

/-- Writes `n` registers of a V destination in the lanes of `m`. -/
def Iss.putVector (x : Iss) (d : Opnd) (n : Nat) (m : Mask) (row : Nat → Row) : Group :=
  (List.range n).foldl (fun gr k => gr.putV (d.idx + k) m (row k)) x.gr

/-- Writes a P destination in the lanes of `m`. -/
def Iss.putPred (x : Iss) (d : Opnd) (m v : Mask) : Group :=
  if x.ap then
    { x.gr with ap := { x.gr.ap with p := (x.gr.ap.p &&& ~~~ Mask.one d.idx)
        ||| (if v == 0 then 0 else Mask.one d.idx) } }
  else x.gr.putP d.idx m v

/-- The lanes in which a scalar form raises its flags (R264): the path's mask; for the access processor
every active lane of the group. -/
def Iss.flagLanes (x : Iss) : List Nat := Mask.lanes (if x.ap then x.gr.activeMask else x.m)

/-- A vector or scalar form (Table 12.1): `f` gives a lane's result; the scalar form is computed once, as
lane 0. Every source is read before any result is written (R266). -/
def Iss.lanes (x : Iss) (d : Opnd) (n : Nat) (f : Nat → LaneRes) : Res :=
  if d.isS 1 then
    let r := f 0
    .done (x.putScalar d r.words) (x.flagLanes.map fun l => (l, r.fl)) r.ash
  else
    let rs := (Mask.lanes x.x).map fun l => (l, f l)
    .done (x.putVector d n x.x (wordRow rs)) (rs.map fun e => (e.1, e.2.fl))
      (rs.flatMap fun e => e.2.ash)

/-- One value and flags for every lane of X, or for S: a result that lanes share (R264). -/
def Iss.shared (x : Iss) (d : Opnd) (ws : List Word) (fl : Word) : Res :=
  if d.isS 1 then .done (x.putScalar d ws) (x.flagLanes.map fun l => (l, fl)) []
  else .done (x.putVector d ws.length x.x (fun k => Row.splat (ws.getD k 0)))
    ((Mask.lanes x.x).map fun l => (l, fl)) []

/-- A predicate form: one bit per active lane, with flags. -/
def Iss.preds (x : Iss) (d : Opnd) (f : Nat → Bool × Word) : Res :=
  let rs := (Mask.lanes x.x).map fun l => (l, f l)
  .done (x.putPred d x.x (Mask.ofLanes ((rs.filter (·.2.1)).map (·.1)))) (rs.map fun e => (e.1, e.2.2)) []

end Sys2Proof.Machine
end

