-- ==== Sys2Proof/Machine/Access.lean ====
section
/-!
DEFINITION. Performing: what one lane's access does to the bytes it reaches (R303, R309, Table 13.5), how
its operation records it, the landing of results in registers (R194, R195, R244), the return of global
visibility times (R153, R154), and how a path goes on when the operation it waits for has performed.
-/
namespace Sys2Proof

/-- Bytes off to off + n − 1 of a row. -/
def Row.getBytes (r : Row) (off n : Nat) : List Byte := (List.range n).map fun i => r.byte (off + i)

/-- The width and shape of a memory instruction's value. -/
def Instr.memShape : Instr → Option (Ty × Bool)
  | .ld _ f | .ldWait _ f | .ldTake _ f | .ldPeek _ f => some (f.ty, f.x4)
  | .st _ f | .stWait _ f | .stTake _ f | .stPeek _ f => some (f.ty, f.x4)
  | .atom _ _ _ _ _ t .. => some (t, false)
  | _ => none

end Sys2Proof

namespace Sys2Proof.Machine

/-! ### The bytes -/

/-- The new value of an atomic's word (Table 13.5) and the flags of .FADD. -/
def atomNew (op : AtomOp) (ty : Ty) (old b c : Nat) : Nat × Word :=
  let w := ty.bits
  let o := old % 2 ^ w
  let x := b % 2 ^ w
  match op with
  | .add => ((o + x) % 2 ^ w, 0)
  | .min => (if ty.intOf x < ty.intOf o then x else o, 0)
  | .max => (if ty.intOf o < ty.intOf x then x else o, 0)
  | .and => (o &&& x, 0)
  | .or => (o ||| x, 0)
  | .xor => (o ^^^ x, 0)
  | .exch => (x, 0)
  | .cas => (if o == x then c % 2 ^ w else o, 0)
  | .fadd => fmt32.add .rne o x

/-- An access performed on a row: the new row, the bytes it read, its flags. -/
def Acc.apply (a : Acc) (row : Row) : Row × List Byte × Word :=
  let old := row.getBytes a.off a.n
  match a.what with
  | .load => (row, old, 0)
  | .store bs => (row.putBytes a.off bs, old, 0)
  | .atom op ty b c =>
    let (v, fl) := atomNew op ty (natOfBytes old) b.toNat c.toNat
    (row.putBytes a.off (bytesOfNat a.n v), old, fl)

def Acc.isLoad (a : Acc) : Bool := match a.what with | .load => true | _ => false
def Acc.writes (a : Acc) : Bool := !a.isLoad

/-! ### The operation -/

/-- A lane's bytes put into the value rows of an operation: byte k + i of lane l is byte (k + i) mod 4 of
word (k + i) div 4. -/
def putLaneBytes (rows : List Row) (lane k : Nat) (bs : List Byte) : List Row :=
  (List.range bs.length).foldl (fun rs i =>
    modAt (fun r => r.setByte (4 * lane + (k + i) % 4) (bs.getD i 0)) rs ((k + i) / 4)) rows

/-- The operation after one of its accesses has performed. -/
def Op.gain (o : Op) (a : Acc) (old : List Byte) (fl : Word) : Op :=
  { o with
    res := match a.what with
      | .store _ => o.res
      | _ => putLaneBytes o.res a.lane a.k old
    got := o.got ||| Mask.one a.lane
    rows := if fl == 0 then o.rows
      else modAt (fun r => r.setLane a.lane (r.lane a.lane ||| fl)) o.rows 0
    pend := o.pend &&& ~~~ Mask.one a.lane
    todo := o.todo - 1 }

/-- How the global visibility time of an access comes to its group (Table 7.2): at once, with an
acknowledgement that is on its way, or not at this moment. -/
inductive Gvt where
  | now (t : Nat)
  | later (t : Nat)
  | no
  deriving DecidableEq, Repr

/-- A time that has come back to an operation raises the horizons; an engine operation keeps the largest one until it
completes (R107, R153, R154, Table 7.2). -/
def Group.takeTime (gr : Group) (o : Op) (t : Nat) : Group :=
  if o.cls.isSome then gr.modOp o.seq fun o => { o with gvt := max o.gvt t } else gr.raiseH o.scope t

/-- A time that is returned is taken, and the operation owes one less; one on its way back is kept until its
acknowledgement. -/
def Group.giveTime (gr : Group) (seq : Nat) (t : Gvt) : Group :=
  match gr.op? seq, t with
  | some o, .now t => (gr.takeTime o t).modOp seq fun o => { o with owed := o.owed - 1 }
  | some _, .later t => gr.modOp seq fun o => { o with acks := o.acks ++ [t] }
  | _, _ => gr

/-- Word j of a lane's loaded value, extended (R244). -/
def Op.word (o : Op) (j l : Nat) : Word :=
  let raw := (o.res.getD j 0).lane l
  match o.instr.memShape with
  | some (t, x4) => if x4 || t.is64 || t.bits == 32 then raw else (regWords t raw.toNat).getD 0 0
  | none => raw

/-- The lanes an operation writes, and the lane each takes its value from: a scalar-address form has one
value for every lane of the path's mask (R298). -/
def Op.source (o : Op) (l : Nat) : Nat := if o.instr.laneBound then l else 0
def Op.writes (o : Op) : Mask :=
  if o.instr.laneBound then o.got else if o.got == 0 then 0 else o.mask

/-- One destination register of an operation lands (R195). Register j of the list takes word j; an S
register of a lane-bound atomic takes the value of the last lane that performed. -/
def Group.landReg (gr : Group) (o : Op) (j : Nat) (r : Reg) : Group :=
  if !gr.mayLand r o.seq then gr
  else
    let last := ((Mask.lanes o.got).reverse).headD 0
    let gr' := if o.got == 0 then gr else match r with
      | .v i => gr.putV i o.writes (Row.ofLanes ((List.range 32).map fun l => o.word j (o.source l)))
      | .s i => gr.putS i (o.word j last)
      | .aps i => { gr with ap := { gr.ap with s := put gr.ap.s i (o.word j 0) } }
      | .app k => { gr with ap := { gr.ap with p := (gr.ap.p &&& ~~~ Mask.one k)
          ||| (if o.stat.getLsbD 0 then Mask.one k else 0) } }
      | .p k => gr.putP k (if o.instr.laneBound then o.x else o.mask)
          (if o.instr.laneBound then o.stat else if o.stat.getLsbD 0 then BitVec.allOnes 32 else 0)
      | _ => gr
    gr'.landed r o.seq

/-- Flags that came with an operation's values: by lane, or those of its one access in every lane of the path
(R264). -/
def Op.flagsByLane (o : Op) (gr : Group) : Row :=
  let fl := o.rows.headD 0
  if o.instr.laneBound then fl
  else Row.merge (if o.path == 4 then gr.activeMask else o.mask) (Row.splat (fl.lane 0)) 0

/-- Every destination of an operation lands; flags that its values carry are raised (R309). -/
def Group.landAll (gr : Group) (o : Op) : Group :=
  let gr := (List.range o.dst.length).foldl (fun gr j => match o.dst[j]? with
    | some r => gr.landReg o j r
    | none => gr) gr
  let fl := o.flagsByLane gr
  let gr := { gr with sr := { gr.sr with xflags := gr.sr.xflags ||| fl } }
  let hit := (List.range 32).filter fun l => fl.lane l &&& gr.sr.trapen &&& 0x3F != 0
  let gr := if hit.isEmpty then gr else gr.addPend
    { path := o.path, cause := .arith
      info := (hit.foldl (fun w l => w ||| (fl.lane l &&& gr.sr.trapen &&& 0x3F)) (0 : Word)).toNat
      faddr := 0, p31 := Mask.ofLanes hit, ap := o.path == 4 }
  gr.modOp o.seq fun o => { o with landed := true }

/-- Whether everything an operation owes has come. -/
def Op.over (o : Op) : Bool := o.fin && o.todo == 0 && o.owed == 0 && o.landed

/-- Index 4 stands for the access processor as an issuer of operations. -/
def apPath : Nat := 4

/-- The path that waited for operation `seq` goes on behind it. -/
def Group.goOn (gr : Group) (o : Op) : Group :=
  if o.path == apPath then
    if gr.ap.wait == some (Wait.op o.seq) then
      { gr with ap := { gr.ap with wait := none, pc := (o.pc + 12) % 2 ^ 64, fenceAt := none } }
    else gr
  else if (gr.path o.path).wait == some (Wait.op o.seq) then gr.modPath o.path (·.advance)
  else gr

/-- A fault of an access processor (R381): it stops, and the group takes the cause as class B. -/
def Group.apFault (gr : Group) (c : Cause) (info addr : Nat) : Group :=
  ({ gr with ap := { gr.ap with st := .stopped, wait := none } }).addPend
    { path := apPath, cause := c, info := info, faddr := addr, p31 := gr.activeMask, ap := true }

/-- What follows when an access of an operation has performed: a path that waits for it goes on, or meets
the faults its lanes took after issue (R80, R85); an operation that is over leaves the list, one of an engine by
ENGINE_COMPLETION only. -/
def State.settle (s : State) (h g seq : Nat) : State :=
  match (s.group? h g).bind (·.op? seq) with
  | none => s
  | some o =>
    if o.todo != 0 || o.cls.isSome then s
    else
      let s := match o.cause with
        | some (c, info, addr) =>
          if o.path == apPath then s.modGroup h g fun gr => (gr.landAll o).apFault c info addr
          else
          let s := s.modGroup h g fun gr => (gr.landAll o).modPath o.path fun p =>
            if p.wait == some (Wait.op seq) then { p with st := .ready, wait := none } else p
          s.raise h g o.path { cls := .lane, cause := c, info := info, faddr := addr, p31 := o.fl }
        | none => s.modGroup h g (·.goOn o)
      s.modGroup h g fun gr => { gr with ops := gr.ops.filter fun q => !(q.seq == seq && q.over) }

/-- One access has performed: the operation records it, its time is given, what follows happens. -/
def State.performed (s : State) (a : Acc) (old : List Byte) (fl : Word) (t : Gvt) : State :=
  let s := s.modGroup a.wg a.g fun gr =>
    let gr := gr.modOp a.seq (·.gain a old fl)
    if a.writes then gr.giveTime a.seq t else gr
  s.settle a.wg a.g a.seq

/-- Accesses performed one after another on a row. -/
def State.performAll (s : State) (row : Row) (t : Gvt) : List Acc → Row × State
  | [] => (row, s)
  | a :: as =>
    let (row', old, fl) := a.apply row
    (s.performed a old fl t).performAll row' t as

/-- The cause of an operation whose accesses `as` perform nothing: its lanes, and the address of the lowest. -/
def Op.lostCause (o : Op) (gr : Group) (as : List Acc) (c : Cause) (info : Nat) : PendCause :=
  let low := as.foldl (fun m a => min m a.lane) 32
  let lanes := as.foldl (fun (m : Mask) a => m ||| BitVec.twoPow 32 a.lane) 0
  { path := o.path, cause := c, info := info, faddr := ((as.find? (·.lane == low)).map (·.va)).getD 0
    p31 := if o.path == apPath then gr.activeMask else if o.instr.laneBound then lanes else o.mask
    ap := o.path == apPath }

/-- Accesses that perform nothing, because their home was lost after issue (R149) or a peer refused them or is
unreachable (R23, R432): their path takes the cause as one of class B. -/
def State.lostAccs (s : State) (as : List Acc) (c : Cause) (info : Nat) : State :=
  as.foldl (fun s a =>
    let mine := as.filter fun b => b.wg == a.wg && b.g == a.g && b.seq == a.seq
    let s := s.modGroup a.wg a.g fun gr =>
      match gr.op? a.seq with
      | none => gr
      | some o => (gr.modOp a.seq fun o =>
          { o with todo := o.todo - 1, owed := if a.writes then o.owed - 1 else o.owed }).addPend
          (o.lostCause gr mine c info)
    s.settle a.wg a.g a.seq) s

/-- Outstanding requests of a core (R72): lines asked of homes and of peers, until their data or their acknowledgement
has come back, and lanes blocked on granules. -/
def State.requestsOf (s : State) (core : Nat) : Nat :=
  (s.core core).misses.length
  + (s.msgs.filter fun m => m.core == core && m.toHome && (match m.kind with
      | .req (.dir ..) => false
      | .req _ => true
      | _ => false)).length
  + ((s.homes.flatMap fun t => t.req :: t.queue).filter fun r => match r with
      | .lseRead c .. | .lseStore c _ | .unc c _ | .atomic c _ | .tableStore c _ _ => c == core
      | _ => false).length
  + ((s.wgs.flatMap fun e => e.2.cores.flatMap fun c => c.grans.flatMap fun g => g.2.waiters).filter
      (·.src == core)).length
  + ((s.peers.flatMap fun p => p.2.waiting).filter (·.core == core)).length
  + ((s.allGroups.filter (·.2.core == core)).map fun e => (e.2.ops.map (·.acks.length)).sum).sum

end Sys2Proof.Machine
end

