-- ==== Sys2Proof/Machine/Local.lean ====
section
/-!
DEFINITION. Local memory (R74 to R81): granules with their full/empty bit, the operations of Table 4.3, the
queue of waiters with its retry pass (R78), engine writes (R77), the mailbox pages of the control cores
(R204), and the clusters that make other cores' regions reachable (R82 to R85).
-/
namespace Sys2Proof.Machine

/-! ### Granules -/

/-- Control cores hold a mailbox page in their local memory; it belongs to no workgroup. -/
def State.gran (s : State) (wg core i : Nat) : Gran :=
  if core < 1024 then
    match (s.wg? wg).bind (·.onCore core) with
    | some c => look Gran.empty c.grans i
    | none => Gran.empty
  else look Gran.empty (look [] s.mail core) i

/-- The workgroup with one of its parts changed. -/
def Workgroup.modCore (w : Workgroup) (core : Nat) (f : WgCore → WgCore) : Workgroup :=
  { w with cores := modWhere (·.core == core) f w.cores }

def State.setGran (s : State) (wg core i : Nat) (x : Gran) : State :=
  if core < 1024 then s.modWg wg (·.modCore core fun c => { c with grans := put c.grans i x })
  else { s with mail := put s.mail core (put (look [] s.mail core) i x) }

/-- A granule's data as a row, its bytes at 0 to 15. -/
def Gran.row (g : Gran) : Row := g.data.setWidth 1024
def Gran.withRow (g : Gran) (r : Row) : Gran := { g with data := r.setWidth 128 }

/-- The 128 bytes from a granule on. -/
def State.granRow (s : State) (wg core gran : Nat) : Row :=
  (List.range 8).foldl (fun (r : Row) i => r ||| (s.gran wg core (gran + i)).row <<< (128 * i)) 0

/-- The granules that some accesses to them write take their data from a row; their bits stay. -/
def State.setGranRow (s : State) (wg core gran : Nat) (as : List Acc) (r : Row) : State :=
  ((List.range 8).filter fun i => as.any fun a => a.writes && rangesMeet a.off a.n (16 * i) 16).foldl (fun s i =>
    s.setGran wg core (gran + i) ((s.gran wg core (gran + i)).withRow (r >>> (128 * i)))) s

/-- Whether a qualified operation must wait (Table 4.3). -/
def Gran.waits (g : Gran) (q : Qual) (isStore : Bool) : Bool :=
  match q, isStore with
  | .wait, true => g.full
  | .wait, false | .take, false => !g.full
  | _, _ => false

/-- The bit after an operation that performs. -/
def Gran.bitAfter (g : Gran) (q : Qual) (isStore : Bool) : Bool :=
  match q, isStore with
  | .take, false => false
  | .wait, true | .take, true | .peek, true => true
  | _, _ => g.full

/-- The time of a local operation: at the bank write, or with an acknowledgement through the cluster window
(Table 7.2). -/
def BankOp.time (b : BankOp) (now : Nat) : Gvt :=
  if b.pos.isNone then .now (upTick now) else .later (upTick now)

/-! STAGE.IN (R183, R317): its operation holds the cursor and the descriptor in `args`, and waits on its header
granule like a qualified load. -/

/-- Table 8.7. -/
def ringBase (d : Nat) : Nat := bitsOf d 31 18
def ringPayload (d : Nat) : Nat := bitsOf d 17 12 + 1
/-- Header granule of a cursor's slot, and the registers of the payload. -/
def ringSlot (c d : Nat) : Nat := ringBase d + bitsOf c 7 0 * (ringPayload d + 1)
def ringRegs (d : Nat) : Nat := (ringPayload d + 7) / 8
/-- The cursor after one slot (R182). -/
def ringAdvance (c d : Nat) : Nat :=
  let past := bitsOf d 11 4 < bitsOf c 7 0 + 1
  let idx := if past then 0 else bitsOf c 7 0 + 1
  let ph := if past then 1 - bitsOf c 8 8 else bitsOf c 8 8
  c / 512 * 512 + ph * 256 + idx

def Op.isStageIn (o : Op) : Bool := match o.instr with | .stageIn .. => true | _ => false
def Op.isStageOut (o : Op) : Bool := match o.instr with | .stageOut .. => true | _ => false

/-- The header granule of a stage operation, and the granules of its payload. -/
def Op.slot (o : Op) : Nat := ringSlot (o.args.getD 0 0).toNat (o.args.getD 1 0).toNat
def Op.payload (o : Op) : Nat := ringPayload (o.args.getD 1 0).toNat

/-- Bytes of a workgroup's region as they stand. -/
def State.localBytes (s : State) (wg core off : Nat) : Nat → List Byte
  | 0 => []
  | n + 1 => (s.gran wg core (off / 16)).row.byte (off % 16) :: s.localBytes wg core (off + 1) n

/-- The payload and the cursor of a STAGE.IN that has met its slot are written, in every lane. -/
def Group.takeSlot (gr : Group) (o : Op) (data : List Byte) : Group :=
  let c := (o.args.getD 0 0).toNat
  let d := (o.args.getD 1 0).toNat
  let gr := (List.range o.dst.length).foldl (fun gr j => match o.dst[j]? with
    | some (.v i) => gr.putV i (BitVec.allOnes 32) (Row.ofBytes ((data.drop (128 * j)).take 128))
    | _ => gr) gr
  let cur : Opnd := match o.instr with | .stageIn _ _ a _ => a | _ => .none
  let gr := (gr.putS cur.idx (BitVec.ofNat 32 (ringAdvance c d))).markFull (o.dst ++ [.s cur.idx])
  (gr.goOn o).dropOp o.seq

/-- A STAGE.IN meets its full header: the slot is taken, or STAGE_PHASE is raised with nothing changed. -/
def State.stageTake (s : State) (core : Nat) (b : BankOp) (o : Op) : State :=
  let c := (o.args.getD 0 0).toNat
  let n := ringPayload (o.args.getD 1 0).toNat
  let head := s.gran b.wg core b.gran
  if bitsOf head.data.toNat 0 0 != bitsOf c 8 8 then
    let s := s.modGroup b.acc.wg b.acc.g fun gr =>
      ({ gr with sb := gr.sb.filter (·.seq != o.seq) }.dropOp o.seq).modPath o.path fun q =>
        { q with st := .ready, wait := none }
    s.raise b.acc.wg b.acc.g o.path { cls := .group, cause := .stagePhase, p31 := o.mask }
  else
    let data := s.localBytes b.wg core (16 * (b.gran + 1)) (16 * n)
    let s := (List.range (n + 1)).foldl (fun s i =>
      s.setGran b.wg core (b.gran + i) { s.gran b.wg core (b.gran + i) with full := false }) s
    s.modGroup b.acc.wg b.acc.g fun gr => gr.takeSlot o data

/-- The operation of a STAGE.IN among a granule's visitors. -/
def State.stageOp? (s : State) (b : BankOp) : Option Op :=
  ((s.group? b.acc.wg b.acc.g).bind (·.op? b.acc.seq)).filter (·.isStageIn)

/-- Bytes of an engine write are cut into one part per granule: granule, offset, bytes. -/
def granCuts (off : Nat) (bs : List Byte) : Nat → List (Nat × Nat × List Byte)
  | 0 => []
  | n + 1 =>
    if bs.isEmpty then []
    else
      let k := 16 - off % 16
      (off / 16, off % 16, bs.take k) :: granCuts (off + k) (bs.drop k) n

/-- Bytes of an engine write enter the way to a core's banks. -/
def State.engineWrite (s : State) (core wg g seq off : Nat) (bs : List Byte) : State :=
  s.modCore core fun c =>
    { c with engW := c.engW ++ (granCuts off bs (bs.length / 16 + 2)).map fun p =>
        { wg := wg, g := g, seq := seq, gran := p.1, off := p.2.1, bytes := p.2.2 } }

/-- A STAGE.OUT meets its empty header: its payload enters the way to its granules (R316). -/
def State.stagePut (s : State) (core : Nat) (b : BankOp) : State :=
  match (s.group? b.acc.wg b.acc.g).bind (·.op? b.acc.seq) with
  | none => s
  | some o =>
    (s.modGroup b.acc.wg b.acc.g fun gr => gr.modOp o.seq fun o => { o with step := 1 }).engineWrite core b.wg b.acc.g o.seq
      (16 * (o.slot + 1)) ((o.rows.flatMap (·.bytes)).take (16 * o.payload))

/-- Granules beside its own whose bits an operation changes when it performs. -/
def State.touches (s : State) (core : Nat) (b : BankOp) : List (Nat × Nat × Nat) :=
  match s.stageOp? b with
  | some o => (List.range (ringPayload (o.args.getD 1 0).toNat)).map fun i => (b.wg, core, b.gran + 1 + i)
  | none => []

/-- A plain operation performs: all of its accesses at once, in lane order; no bit changes (R73, R300, Table 4.3). -/
def State.plainBank (s : State) (core : Nat) (b : BankOp) : State :=
  let (row, s) := s.performAll (s.granRow b.wg core b.gran) (b.time s.cycle) b.accs
  s.setGranRow b.wg core b.gran b.accs row

/-- A qualified operation performs on its granule: its bytes, its bit, and what its operation records (R303). An
ST.PEEK that finds the granule full writes nothing. -/
def State.qualBank (s : State) (core : Nat) (b : BankOp) : State :=
  let g := s.gran b.wg core b.gran
  let status := if b.isStore then !g.full else g.full
  let s := if b.qual == .peek then
      s.modGroup b.acc.wg b.acc.g fun gr => gr.modOp b.acc.seq fun o =>
        { o with stat := if status then o.stat ||| Mask.one b.acc.lane else o.stat &&& ~~~ Mask.one b.acc.lane }
    else s
  if b.qual == .peek && b.isStore && g.full then
    (s.modGroup b.acc.wg b.acc.g fun gr => gr.modOp b.acc.seq fun o => { o with owed := o.owed - 1 }).performed
      b.acc [] 0 .no
  else
    let (row, old, fl) := b.acc.apply g.row
    let s := s.setGran b.wg core b.gran { (g.withRow row) with full := g.bitAfter b.qual b.isStore }
    s.performed b.acc old fl (b.time s.cycle)

/-- An operation performs at its bank. -/
def State.doBank (s : State) (core : Nat) (b : BankOp) : State :=
  if b.eng then s.stagePut core b
  else match s.stageOp? b with
    | some o => s.stageTake core b o
    | none => if b.qual == .none then s.plainBank core b else s.qualBank core b

/-- Operations waiting at granules of the package. -/
def State.waiterCount (s : State) : Nat :=
  ((s.wgs.flatMap fun e => e.2.cores.flatMap fun c => c.grans.map fun g => g.2.waiters.length)
    ++ s.mail.flatMap fun m => m.2.map fun g => g.2.waiters.length).sum

/-- The retry passes over the waiters of some granules (R78): each in queue order, to the first that must still
wait. -/
def State.retry (s : State) : Nat → List (Nat × Nat × Nat) → State
  | 0, _ => s
  | _, [] => s
  | n + 1, (wg, core, i) :: rest =>
    let g := s.gran wg core i
    match g.waiters with
    | [] => s.retry n rest
    | b :: ws =>
      if g.waits b.qual b.isStore then s.retry n rest
      else
        ((s.setGran wg core i { g with waiters := ws }).doBank core b).retry n
          ((wg, core, i) :: rest ++ s.touches core b)

/-- Retries some granules: each waiter that performs may touch 65 granules more. -/
def State.retryAt (s : State) (gs : List (Nat × Nat × Nat)) : State :=
  s.retry (gs.length + 66 * s.waiterCount + 1) gs

/-- Retries every waiter of a granule that can perform. -/
def State.retryAll (s : State) (wg core i : Nat) : State := s.retryAt [(wg, core, i)]

/-- An operation arrives at its granule: it performs, or joins the waiters (R78). -/
def State.bankArrive (s : State) (core : Nat) (b : BankOp) : State :=
  let g := s.gran b.wg core b.gran
  if g.waits b.qual b.isStore then s.setGran b.wg core b.gran { g with waiters := g.waiters ++ [b] }
  else
    let t := s.doBank core b
    let more := s.touches core b
    if (t.gran b.wg core b.gran).full == g.full && more.isEmpty then t
    else t.retryAt ((b.wg, core, b.gran) :: more)

/-- Operations enter the way to their banks. -/
def State.sendBanks (s : State) (bs : List (Nat × BankOp)) : State :=
  bs.foldl (fun s b => s.modCore b.1 fun c => { c with bankQ := c.bankQ ++ [b.2] }) s

/-- Whether an operation reaches n bytes at an offset of its region. -/
def BankOp.reaches (b : BankOp) (off n : Nat) : Bool := b.accs.any fun a => rangesMeet (16 * b.gran + a.off) a.n off n

/-- Whether two operations reach a common byte of a region. -/
def BankOp.meets (a b : BankOp) : Bool := a.wg == b.wg && a.accs.any fun x => b.reaches (16 * a.gran + x.off) x.n

/-- Operations in one program order arrive in issue order where they use the local window, or one member position
(R160), or reach a common byte (R158). An engine's follows only accesses to common bytes, and orders nothing behind it
but its like (Table 7.4, notes (a) and (g)). -/
def BankOp.behind (b a : BankOp) : Bool :=
  a.acc.wg == b.acc.wg && a.acc.g == b.acc.g && (a.acc.seq == b.acc.seq || b.prior.contains a.acc.seq)
  && (if a.eng then b.eng && a.meets b else (!b.eng && a.pos == b.pos) || a.meets b)

/-- The i-th operation on its way to a core's banks, where no earlier one of its path must come first. -/
def Core.bankNext (c : Core) (i : Nat) : Option BankOp :=
  match c.bankQ[i]? with
  | none => none
  | some b => if (c.bankQ.take i).any b.behind then none else some b

/-- An earlier STAGE.OUT of the group is still at work on a slot that this one meets (Table 7.4, note (g)). -/
def State.stageBehind (s : State) (b : BankOp) : Bool :=
  b.eng && (s.group? b.acc.wg b.acc.g).any fun gr => gr.ops.any fun p =>
    p.isStageOut && p.seq < b.acc.seq && p.todo != 0 && b.reaches (16 * p.slot) (16 * (p.payload + 1))

/-- GRANULE_OP. -/
def State.granuleStep (s : State) (core i : Nat) : Option State :=
  match ((s.core core).bankNext i).filter fun b => !s.stageBehind b with
  | none => none
  | some b =>
    let s := s.modCore core fun c => { c with bankQ := c.bankQ.eraseIdx i }
    some (s.bankArrive core b)

/-! ### Engine writes (R77) -/

/-- Whether no write of an operation is on its way to a granule. -/
def State.locLanded (s : State) (h g seq : Nat) : Bool :=
  s.cores.all fun c => !(c.2.engW.any fun e => e.wg == h && e.g == g && e.seq == seq)

/-- Whether a run writes byte q of its destination: the pitch gaps of a T2D stay (R110). -/
def CopyRun.writesAt (r : CopyRun) (q : Nat) : Bool :=
  r.listing || r.xf != .t2d || ((blankEnt r.xf r.param).t2dSrc q).isSome

/-- Whether a run is still to write a byte of a granule (R77). -/
def CopyRun.owes (r : CopyRun) (core gran : Nat) : Bool :=
  r.done != r.len && r.dst.any fun p => match p.place with
    | .loc _ c o => c == core && (List.range 16).any fun i =>
      let a := 16 * gran + i
      let q := p.off + (a - o)
      o ≤ a && q < p.off + p.n && r.y + r.done ≤ q && q < r.y + r.len && r.writesAt q
    | .phys _ => false

/-- ENGINE_WRITE_LANDS: the i-th engine write of a core. The granule is full once its operation has no other byte of it to
write. -/
def State.engineLand (s : State) (core i : Nat) : Option State :=
  match (s.core core).engW[i]? with
  | none => none
  | some e =>
    let s := s.modCore core fun c => { c with engW := c.engW.eraseIdx i }
    let s := s.modGroup e.wg e.g fun gr => match gr.op? e.seq with
      | some o => gr.takeTime o (upTick s.cycle)
      | none => gr
    let g := s.gran e.wg core e.gran
    let g := g.withRow (g.row.putBytes e.off e.bytes)
    let more := ((s.core core).engW.any fun f => f.wg == e.wg && f.g == e.g && f.seq == e.seq && f.gran == e.gran)
      || s.cores.any fun c => c.2.copyQ.any fun r => r.wg == e.wg && r.g == e.g && r.seq == e.seq && r.owes core e.gran
    if more then some (s.setGran e.wg core e.gran g)
    else
      let s' := s.setGran e.wg core e.gran { g with full := true }
      some (if g.full then s' else s'.retryAll e.wg core e.gran)

/-! ### Earlier accesses to common bytes (R158, R164, R165) -/

/-- Whether pieces hold a byte of a physical range, or of a local one. -/
def segsPhys (gs : List Seg) (a n : Nat) : Bool :=
  gs.any fun g => match g.place with
    | .phys pa => rangesMeet pa g.n a n
    | .loc .. => false
def segsLoc (gs : List Seg) (core a n : Nat) : Bool :=
  gs.any fun g => match g.place with
    | .loc _ c o => c == core && rangesMeet o g.n a n
    | .phys _ => false

def Seg.touches (gs : List Seg) (g : Seg) : Bool :=
  match g.place with
  | .phys pa => segsPhys gs pa g.n
  | .loc _ c o => segsLoc gs c o g.n

/-- Operations on their way to banks or waiting there, with their cores. -/
def State.bankOps (s : State) : List (Nat × BankOp) :=
  (s.cores.flatMap fun c => c.2.bankQ.map fun b => (c.1, b))
  ++ s.wgs.flatMap fun w => w.2.cores.flatMap fun c => c.grans.flatMap fun g => g.2.waiters.map fun b => (c.core, b)

/-- The accesses of some operations of a group to bytes of some pieces have performed; an engine's count for nothing here
(Table 7.4, notes (a) and (g)). -/
def State.accessesDone (s : State) (h g : Nat) (prior : List Nat) (gs : List Seg) : Bool :=
  let earlier := fun (a : Acc) => a.wg == h && a.g == g && prior.contains a.seq && !s.byEngine a
  !(s.inFlight.any fun x => earlier x.2 && segsPhys gs (x.1 + x.2.off) x.2.n)
  && !(s.bankOps.any fun b => b.2.accs.any fun a => earlier a && segsLoc gs b.1 (16 * b.2.gran + a.off) a.n)

/-! ### Waiters that go without performing (R80, R84, R85, R214, R384) -/

/-- The waiters of a region that meet `p` leave their queues; then each queue is retried. -/
def State.dropWaiters (s : State) (wg core : Nat) (p : BankOp → Bool) : State :=
  let touched := (((s.wg? wg).bind (·.onCore core)).map fun c => c.grans.filter fun e => e.2.waiters.any p).getD []
  let s := touched.foldl (fun s e =>
    let g := s.gran wg core e.1
    s.setGran wg core e.1 { g with waiters := g.waiters.filter fun b => !p b }) s
  touched.foldl (fun s e => s.retryAll wg core e.1) s

/-- A lane of a cluster access loses its target (R80, R85): it performs nothing and faults with
CLUSTER_GONE, the lowest such lane giving the cause; a scalar-address form reports the lanes of its path (R301). -/
def State.laneGone (s : State) (b : BankOp) : State :=
  let addr := clusterBase + b.pos.getD 0 * 0x4_0000 + 16 * b.gran + b.acc.off
  let s := s.modGroup b.acc.wg b.acc.g fun gr => gr.modOp b.acc.seq fun o =>
    { o with
      todo := o.todo - 1
      owed := if b.acc.writes then o.owed - 1 else o.owed
      fl := if o.instr.laneBound then o.fl ||| Mask.one b.acc.lane else o.mask
      cause := match o.cause with
        | some c => if b.acc.lane < Mask.lowest o.fl then some (.clusterGone, b.pos.getD 0, addr) else some c
        | none => some (.clusterGone, b.pos.getD 0, addr) }
  s.settle b.acc.wg b.acc.g b.acc.seq

/-- Operations still on their way and waiting from a core through a position (R84, step 2). -/
def State.clusterPending (s : State) (wg src pos : Nat) : List (Nat × BankOp) :=
  (s.cores.flatMap fun c => (c.2.bankQ.filter fun b => b.wg == wg && b.src == src && b.pos == some pos).map
    fun b => (c.1, b))

end Sys2Proof.Machine
end

