-- ==== Sys2Proof/Machine/Sr.lean ====
section
/-!
DEFINITION. The special registers (R373, Tables 15.10 and 15.12, and the tables they name): the value each
reads, the bits SETSR writes, and who may write it.
-/
namespace Sys2Proof.Machine

/-- The divider of a core (R210): the largest of its own demand and of the dividers of every gang it holds, a
gang's divider being the largest demand of the cores that hold its members. -/
def State.clkDiv (s : State) (core : Nat) : Nat :=
  let gangs := (s.wgs.filter fun e => e.2.gang != 0 && e.2.cores.any (·.core == core)).map fun e =>
    (e.2.launcher, e.2.gang)
  let cores := (s.wgs.filter fun e => gangs.contains (e.2.launcher, e.2.gang)).flatMap fun e => e.2.cores.map (·.core)
  (cores.map fun c => (s.core c).demand).foldl max (s.core core).demand

/-- A core's clock takes a new divider. -/
def State.setDiv (s : State) (core d : Nat) : State :=
  if (s.core core).div == d then s
  else s.modCore core fun c => { c with clkBase := s.clock core, clkSince := s.cycle, div := d }

/-- A tick boundary: every core takes the divider that its demand and its gangs give it (R210). -/
def State.reclock (s : State) : State :=
  let cs := s.cores.map (·.1) ++ s.wgs.flatMap fun e => e.2.cores.map (·.core)
  cs.foldl (fun t c => t.setDiv c (s.clkDiv c)) s

/-- A tick begins: the dividers change, and at its time the Raker has visited every line (R143, R210). -/
def State.newTick (s : State) : State := if s.tick % 2 ^ 21 == 0 then s.reclock.visits else s.reclock

/-- Cycles pass. -/
def State.later (s : State) (n : Nat) : State :=
  let c := s.cycle + n
  let b := upTick (s.cycle + 1) * 32
  if c < b then { s with cycle := c } else { { s with cycle := b }.newTick with cycle := c }

/-- sr.ROLE, sr.WGSCOPE and the other registers that a launch fixes, and the registers of the group. `l` is
the lane that reads (it matters for sr.XFLAGS alone). -/
def State.srValue (s : State) (w : Workgroup) (gr : Group) (n l : Nat) : Nat :=
  match n with
  | 0x000 => w.ctx
  | 0x001 => gr.gid
  | 0x002 => w.handle
  | 0x003 => w.tag
  | 0x004 => w.scope.num
  | 0x005 => gr.core % 1024 * 0x1_0000 + gr.slot
  | 0x006 => gr.role
  | 0x007 => (s.core gr.core).div
  | 0x008 => bitsOf s.reg.podcfg.toNat 9 0
  | 0x009 => s.tick % 2 ^ 64
  | 0x00A => w.privBase
  | 0x00B => w.privSize
  | 0x010 => gr.sr.lease.toNat
  | 0x011 => gr.sr.pnheat.toNat
  | 0x012 => gr.sr.cpbytes.toNat
  | 0x013 => gr.sr.mmode.toNat
  | 0x014 => gr.sr.tol.toNat
  | 0x015 => gr.sr.trapen.toNat
  | 0x016 => (gr.sr.xflags.lane l).toNat
  | 0x017 => gr.sr.ashbase.toNat
  | 0x018 => gr.sr.ashlim.toNat
  | 0x019 => gr.sr.rngkey.toNat
  | 0x01A => gr.sr.rngctr.toNat
  | 0x01B => gr.sr.smpbase.toNat
  | 0x01C => gr.sr.smplim.toNat
  | 0x01D => gr.sr.smpdrop.toNat
  | 0x020 => s.pnQuota w.ctx
  | 0x021 => s.pnHeld w.ctx % 2 ^ 17
  | 0x030 => gr.sr.cause.toNat
  | 0x031 => gr.sr.epc.toNat
  | 0x032 => gr.sr.emask.toNat
  | 0x033 => gr.sr.faddr.toNat
  | 0x034 => gr.sr.estat.toNat
  | 0x035 => gr.sr.tvec.toNat
  | 0x040 => s.ctxbase.toNat
  | _ => 0

/-- The bits of a register that are neither reserved nor read-only. -/
def srMask (n : Nat) : Nat :=
  match n with
  | 0x010 => 0xFFF
  | 0x011 => 0xFF
  | 0x013 => 1
  | 0x015 => 0x3F
  | 0x017 | 0x018 => 0x7F_FFFF_FFFF_FFF0
  | 0x01B | 0x01C => 0x7F_FFFF_FFFF_FFE0
  | 0x020 => 0x1FFFF
  | 0x030 => 0xFFFF_00FF
  | 0x031 | 0x035 => 0x7F_FFFF_FFFF_FFFC
  | 0x040 => 0xF_FFFF_FFFF_0000
  | _ => 0xFFFF_FFFF_FFFF_FFFF

/-- Write classes (R373). -/
inductive SrClass where
  | g | sup | own | no
  deriving DecidableEq, Repr

def srClass (n : Nat) : SrClass :=
  match n with
  | 0x010 | 0x011 | 0x013 | 0x014 | 0x015 | 0x016 | 0x017 | 0x018 | 0x019 | 0x01A | 0x01B | 0x01C | 0x01D => .g
  | 0x020 | 0x030 | 0x031 | 0x032 | 0x035 => .sup
  | 0x040 => .own
  | _ => .no

/-- A group register receives a value; the caller has masked it. -/
def GroupSr.set (r : GroupSr) (n v : Nat) : GroupSr :=
  let w := BitVec.ofNat 32 v
  let d := BitVec.ofNat 64 v
  match n with
  | 0x010 => { r with lease := w }
  | 0x011 => { r with pnheat := w }
  | 0x012 => { r with cpbytes := w }
  | 0x013 => { r with mmode := w }
  | 0x014 => { r with tol := w }
  | 0x015 => { r with trapen := w }
  | 0x017 => { r with ashbase := d }
  | 0x018 => { r with ashlim := d }
  | 0x019 => { r with rngkey := d }
  | 0x01A => { r with rngctr := d }
  | 0x01B => { r with smpbase := d }
  | 0x01C => { r with smplim := d }
  | 0x01D => { r with smpdrop := w }
  | 0x030 => { r with cause := w }
  | 0x031 => { r with epc := d }
  | 0x032 => { r with emask := w }
  | 0x033 => { r with faddr := d }
  | 0x034 => { r with estat := w }
  | 0x035 => { r with tvec := d }
  | _ => r

/-- Every translation of the package and every L1 line goes; dirty lines are written home first (R24, the
write of sr.CTXBASE). -/
def State.forgetTranslations (s : State) : State :=
  let dirty := s.cores.flatMap fun c => c.2.l1d.filter fun l => l.st == L1St.m || l.st == L1St.o
  let s := dirty.foldl (fun s l => s.putL2 l.line l.data true) s
  { s with
    cores := s.cores.map fun c => (c.1, { c.2 with l1d := [], l1i := [] })
    quads := s.quads.map fun e => (e.1, { e.2 with tc := [], wc := [], desc := [], faults := [] }) }

end Sys2Proof.Machine
end

