-- ==== Sys2Proof/Machine/Virt.lean ====
section
/-!
DEFINITION. Whole virtual ranges read and written in one step, with their translation: what the device does
for itself in a group's context (spills and fills of R180, the ash and sample records of R224 and R372, save
images of R390, the DONE word of R203, launch records of R367), and the reads and writes of engines.
-/
namespace Sys2Proof.Machine

/-- How such an access ends: done; something must come first, and nothing has happened; a fault; or a line that cannot be
reached now. -/
inductive VRes (α : Type) where
  | ok (a : α)
  | walk (as : List Ask)
  | fault (f : LaneFault)
  | busy
  deriving DecidableEq, Repr

/-- What must come first, if anything; else nothing can be done now. -/
def VRes.waits {α : Type} : List Ask → VRes α
  | [] => .busy
  | as => .walk as

/-- Bytes of translated pieces, in order. -/
def State.readPieces (s : State) : List Piece → VRes (List Byte × State)
  | [] => .ok ([], s)
  | p :: ps => match s.readPhys p.pa p.n with
    | .busy r => .waits (r.toList.map .round)
    | .lost => .fault { cause := .homeLost, info := homeDie p.pa, addr := p.va }
    | .ok (bs, s) => match s.readPieces ps with
      | .ok (cs, s) => .ok (bs ++ cs, s)
      | r => r

/-- The translations of some pieces are used (R32). -/
def State.usePieces (s : State) (core : Nat) (wr : Bool) (ps : List Piece) : VRes State :=
  match s.useAll core wr (ps.map (·.tr)) with
  | .ok s => .ok s
  | .wait as => .waits as

/-- Bytes stored to translated pieces. -/
def State.storePieces (s : State) : List Piece → List Byte → VRes State
  | [], _ => .ok s
  | p :: ps, bs => match s.writePhys p.attr.coh p.pa (bs.take p.n) with
    | .busy r => .waits (r.toList.map .round)
    | .lost => .fault { cause := .homeLost, info := homeDie p.pa, addr := p.va }
    | .ok s => storePieces s ps (bs.drop p.n)

/-- Bytes written to translated pieces, A and D set first in each leaf (R32). -/
def State.writePieces (s : State) (core : Nat) (ps : List Piece) (bs : List Byte) : VRes State :=
  match s.usePieces core true ps with
  | .ok u => u.storePieces ps bs
  | r => r

/-- n bytes at a virtual address of a context. -/
def State.vLoad (s : State) (core ctx : Nat) (sup : Bool) (va n : Nat) : VRes (List Byte × State) :=
  match s.chkRange core ctx sup .read true va n with
  | .walk ps => .walk (walksOf core ctx .read sup ps)
  | .fault f _ => .fault f
  | .pieces ps => match s.usePieces core false ps with
    | .ok s => s.readPieces ps
    | .walk as => .walk as
    | .fault f => .fault f
    | .busy => .busy

/-- Bytes stored at a virtual address of a context. -/
def State.vStore (s : State) (core ctx : Nat) (sup : Bool) (va : Nat) (bs : List Byte) : VRes State :=
  match s.chkRange core ctx sup .write true va bs.length with
  | .walk ps => .walk (walksOf core ctx .write sup ps)
  | .fault f _ => .fault f
  | .pieces ps => s.writePieces core ps bs

/-- Bytes written to a workgroup's region on a core, every full/empty bit as it stands (the plain ST of Table
4.3). -/
def State.putLocal (s : State) (wg core off : Nat) (bs : List Byte) : State :=
  (granCuts off bs (bs.length / 16 + 2)).foldl (fun s c =>
    let g := s.gran wg core c.1
    s.setGran wg core c.1 (g.withRow (g.row.putBytes c.2.1 c.2.2))) s

/-- The place in local memory an access of a group's device-made load or store reaches through the local or the
cluster window; none elsewhere. -/
def localPlace (w : Workgroup) (gr : Group) (va n : Nat) : Option LaneChk :=
  if 2 ^ 55 ≤ va then none
  else match windowOfRange va n with
    | .localMem => some (chkLocal w gr.core va n)
    | .cluster => some (chkCluster w gr.core va n)
    | _ => none

/-- A record the device stores for a group in its context (R224, R372): to memory, or through the local or the
cluster window like a plain ST. The private window needs a lane, and faults with WINDOW_HOLE (R434). -/
def State.vRecord (s : State) (h : Nat) (w : Workgroup) (gr : Group) (va : Nat) (bs : List Byte) : VRes State :=
  match localPlace w gr va bs.length with
  | some (.parts [.loc core off _ _]) => .ok (s.putLocal h core off bs)
  | some (.fault f) => .fault f
  | some _ => .busy
  | none => s.vStore gr.core w.ctx gr.sup va bs

/-- Several stores, one after another. -/
def State.vStores (s : State) (core ctx : Nat) (sup : Bool) : List (Nat × List Byte) → VRes State
  | [] => .ok s
  | (va, bs) :: r => match s.vStore core ctx sup va bs with
    | .ok s => s.vStores core ctx sup r
    | x => x

end Sys2Proof.Machine
end

