-- ==== Sys2Proof/Machine/Image.lean ====
section
/-!
DEFINITION. Stack entries as they stand in memory (Table 8.4, R255), the save image of a group (R390, Table
16.5), and the group that an image restores (R391).
-/
namespace Sys2Proof.Machine

/-! ### Stack entries -/

/-- The 128 bits of an entry. -/
def StackEnt.encode : StackEnt → Nat
  | .div k m pm ppc => k * 2 ^ 120 + m.toNat * 2 ^ 86 + pm.toNat * 2 ^ 54 + bitsOf ppc 54 2
  | .split k q => 2 ^ 126 + k * 2 ^ 120 + q % 4 * 2 ^ 118
  | .bad => 2 ^ 127

def StackEnt.decode (x : Nat) : StackEnt :=
  match bitsOf x 127 126 with
  | 0 => .div (bitsOf x 125 120) (BitVec.ofNat 32 (bitsOf x 117 86)) (BitVec.ofNat 32 (bitsOf x 85 54))
      (bitsOf x 52 0 * 4)
  | 1 => .split (bitsOf x 125 120) (bitsOf x 119 118)
  | _ => .bad

/-- DEPTH of a path. -/
def Path.depth (p : Path) : Nat := p.stack.length + p.spilled

/-! ### Places (Tables 11.8, 11.9) -/

def Workgroup.slotAddr (w : Workgroup) (g : Nat) : Nat := w.saveBase + 0x100_0000 + g * 0x4_0000
def Workgroup.stackAddr (w : Workgroup) (g p i : Nat) : Nat := w.slotAddr g + p * 0x4000 + 16 * i
def Workgroup.regionAddr (w : Workgroup) (j : Nat) : Nat := w.saveBase + 0x10_0000 + j * 0x4_0000

/-! ### Writing the image -/

/-- Hardware stack entries at their places, counted from the oldest. -/
def Path.stackBytes (p : Path) (k : Nat) : List (Nat × List Byte) :=
  let n := p.stack.length
  (List.range n).map fun i =>
    (k * 0x4000 + 16 * (p.spilled + i), bytesOfNat 16 ((p.stack.getD (n - 1 - i) .bad).encode))

/-- Bits of a list as a number, element 0 at bit 0. -/
def natOfBits : List Bool → Nat
  | [] => 0
  | b :: bs => (if b then 1 else 0) + 2 * natOfBits bs

def PState.code : PState → Nat
  | .free => 0 | .ready => 1 | .blocked => 2 | .join => 3

/-- Path entry p of Table 16.5. -/
def Path.word (p : Path) : Nat :=
  p.st.code + (if p.hold then 4 else 0) + (p.token.getD 0) * 8 + (if p.token.isSome then 512 else 0)
  + p.origin * 1024 + p.depth * 4096

/-- OCC, ETAG, CAP, RANK and FORM of a tile register (Table 14.6). -/
def Tile.meta (t : Tile) : Nat :=
  let form := match t.form with | .zero => 0 | .fact => 1 | .dense => 2
  let rank := match t.form with | .zero => 0 | .fact => t.units.length | .dense => 32
  let occ := match t.form with | .zero => 0 | .fact => t.units.length | .dense => 32
  let etag := match t.etag with | .wide => 0 | .half => 1 | .fp8 => 2 | .q4x => 3
  occ * 2 ^ 16 + etag * 2 ^ 14 + t.cap * 2 ^ 8 + rank * 4 + form

/-- Rank units of M0 to M15 and of A0 to A7, packed. -/
def Group.tileUnits (gr : Group) : List Row :=
  ((List.range 16).flatMap fun k => (gr.tile k).units) ++ (List.range 8).flatMap fun k => gr.acc k

/-- The NEST place: register, operand and index vector, 16 bits each, and a valid bit. -/
def nestBytes : Option NestPlace → List Byte
  | none => List.replicate 16 0
  | some n => bytesOfNat 2 (0x8000 + n.reg) ++ bytesOfNat 2 n.opnd
      ++ ((List.range 5).flatMap fun k => bytesOfNat 2 (n.idx.getD k 0)) ++ [0, 0]

def ApSt.code : ApSt → Nat
  | .running => 0 | .exited => 1 | .stopped => 2

/-- The access-processor region (R390). -/
def Group.apBytes (gr : Group) : List Byte :=
  let words := fun (p : Port) => (p.words ++ List.replicate (64 - p.words.length) 0).take 64
  ((List.range 128).flatMap fun i => bytesOfNat 4 (look 0 gr.ap.s i).toNat)
  ++ (List.range 4).flatMap (fun j => (words (gr.port j)).flatMap fun w => bytesOfNat 4 w.toNat)
  ++ (List.range 4).flatMap (fun j => bytesOfNat 4 (gr.port j).words.length ++ bytesOfNat 4 (gr.port j).permits)
  ++ bytesOfNat 8 gr.ap.pc ++ bytesOfNat 8 gr.ap.st.code ++ nestBytes gr.ap.nest

/-- The pending claim of a group: pool, place in its queue, k (Table 16.5). -/
def State.claimOf (s : State) (h g : Nat) : Option (Claim × Nat) :=
  ((s.cores.flatMap fun c => (List.range c.2.claims.length).filterMap fun i =>
    match c.2.claims[i]? with
    | some x =>
      if x.wg == h && x.g == g && !x.floor then
        some (x, ((c.2.claims.take i).filter fun y => y.shadow == x.shadow && y.quarter == x.quarter
          && y.pool == x.pool).length)
      else none
    | none => none)).head?

/-- The control region (Table 16.5). -/
def State.controlBytes (s : State) (w : Workgroup) (gr : Group) : List Byte :=
  let full := fun (r : Reg) => gr.isFull r
  let claim := match s.claimOf w.handle gr.gid with
    | none => 0
    | some (c, place) => 2 ^ 31 + (if c.pool == .m then 2 ^ 30 else 0) + place * 2 ^ 10 + c.k
  let part := (List.range 4).filterMap fun p => ((gr.path p).retry).map fun m => ((gr.path p).pc, m)
  bytesOfNat 4 1
  ++ bytesOfNat 4 (gr.vhold + gr.mhold * 2 ^ 16)
  ++ bytesOfNat 4 (roleCfg w.raw gr.role)
  ++ bytesOfNat 4 claim
  ++ ((List.range 4).flatMap fun p =>
      let x := gr.path p
      bytesOfNat 8 x.pc ++ bytesOfNat 4 x.mask.toNat ++ bytesOfNat 4 x.word ++ List.replicate 16 0)
  ++ ((List.range 32).flatMap fun l =>
      bytesOfNat 4 (natOfBits ((List.range 32).map fun k => (gr.pred k).getLsbD l)))
  ++ (allScopes.flatMap fun sc => bytesOfNat 8 (gr.horizonOf sc))
  ++ (gr.ctrs.flatMap fun c => bytesOfNat 1 c) ++ List.replicate 4 0
  ++ (match part.head? with
      | some (pc, m) => bytesOfNat 8 pc ++ bytesOfNat 4 m.toNat ++ bytesOfNat 4 1
      | none => List.replicate 16 0)
  ++ List.replicate 8 0
  ++ ((List.range 38).flatMap fun i => bytesOfNat 8 (if i == 6 then 0 else s.srValue w gr (0x10 + i) 0))
  ++ ((List.range 32).flatMap fun l => bytesOfNat 4 (gr.sr.xflags.lane l).toNat)
  ++ bytesOfNat 64 (natOfBits ((List.range 512).map fun i => full (.v i)))
  ++ bytesOfNat 128 (natOfBits ((List.range 1024).map fun i => full (.s i)))
  ++ bytesOfNat 4 (natOfBits ((List.range 16).map (fun i => full (.m i)) ++ (List.range 8).map fun i => full (.a i)))
  ++ ((List.range 16).flatMap fun k => bytesOfNat 4 (gr.tile k).meta)
  ++ bytesOfNat 4 (natOfBits ((List.range 8).map fun k => !(gr.acc k).isEmpty))

/-- A list of bytes filled with zeros to n. -/
def padTo (n : Nat) (bs : List Byte) : List Byte := bs ++ List.replicate (n - bs.length) 0

/-- The save image, by offset within the group's slot. -/
def State.image (s : State) (w : Workgroup) (gr : Group) : List (Nat × List Byte) :=
  ((List.range 4).flatMap fun p => (gr.path p).stackBytes p)
  ++ [(0x1_0000, (List.range 512).flatMap fun i => (if i < 32 * gr.vhold then gr.vreg i else 0).bytes),
      (0x2_0000, padTo 0x1_0000 (gr.tileUnits.flatMap (·.bytes))),
      (0x3_0000, (List.range 1024).flatMap fun i => bytesOfNat 4 (gr.sreg i).toNat),
      (0x3_1000, padTo 0x800 gr.apBytes),
      (0x3_1800, padTo 0x800 (s.controlBytes w gr))]

/-! ### Reading it -/

/-- An image as read: bytes by offset within the slot. -/
abbrev Img := List Byte

def Img.nat (m : Img) (off n : Nat) : Nat := natOfBytes ((m.drop off).take n)
def Img.row (m : Img) (off : Nat) : Row := Row.ofBytes ((m.drop off).take 128)

/-- FORM, RANK, CAP and ETAG of Table 14.6 with their units. -/
def tileOfMeta (x : Nat) (units : List Row) : Tile :=
  { form := match x % 4 with | 0 => .zero | 1 => .fact | _ => .dense
    cap := bitsOf x 13 8
    etag := match bitsOf x 15 14 with | 0 => .wide | 1 => .half | 2 => .fp8 | _ => .q4x
    units := units }

/-- Units a metadata word occupies. -/
def occOfMeta (x : Nat) : Nat :=
  match x % 4 with | 0 => 0 | 1 => bitsOf x 7 2 | _ => 32

/-- Control-region word at an offset. -/
def Img.ctl (m : Img) (off n : Nat) : Nat := m.nat (0x3_1800 + off) n

def Img.metas (m : Img) : List Nat := (List.range 16).map fun k => m.ctl (0x3E4 + 4 * k) 4
def Img.accDense (m : Img) (k : Nat) : Bool := bitsOf (m.ctl 0x424 4) k k == 1
/-- Occupancy from the metadata (Table 16.6, check 3). -/
def Img.occ (m : Img) : Nat :=
  ((m.metas).map occOfMeta).sum + 32 * ((List.range 8).filter m.accDense).length

/-- First unit of each tile register, M0 to M15 and A0 to A7, in the packed region. -/
def Img.unitAt (m : Img) (k : Nat) : Nat :=
  (((m.metas).map occOfMeta ++ (List.range 8).map fun j => if m.accDense j then 32 else 0).take k).sum

def Img.units (m : Img) (first n : Nat) : List Row :=
  (List.range n).map fun i => m.row (0x2_0000 + 128 * (first + i))

/-- Lanes that exited leave the entries that had spilled as they are read back (R179). -/
def StackEnt.without (l : Mask) : StackEnt → StackEnt
  | .div k m pm ppc => .div k (m &&& ~~~ l) (pm &&& ~~~ l) ppc
  | e => e

/-- Path p of an image. Its stack's top 32 entries are held in hardware. A BLOCKED path is READY; the wait
is evaluated again. `now` sets its age. What the layout has no place for comes from the path as it stood: the lanes that
exited while entries were spilled, and the lanes still to perform of a second qualified instruction (R179, R214). -/
def Img.path (m : Img) (p : Nat) (now : Nat) (old : Path := Path.free) : Path :=
  let o := 0x10 + 32 * p
  let x := m.ctl (o + 12) 4
  let depth := bitsOf x 22 12
  let hw := min depth 32
  let part := m.ctl 0x158 8
  { Path.free with
    st := match x % 4 with | 0 => .free | 1 => .ready | 2 => .ready | _ => .join
    pc := m.ctl o 8
    mask := BitVec.ofNat 32 (m.ctl (o + 8) 4)
    hold := bitsOf x 2 2 == 1
    token := if bitsOf x 9 9 == 1 then some (bitsOf x 8 3) else none
    origin := bitsOf x 11 10
    stack := (List.range hw).map fun i =>
      let j := depth - 1 - i
      let e := StackEnt.decode (m.nat (p * 0x4000 + 16 * j) 16)
      if j < old.spilled then e.without old.gone else e
    spilled := depth - hw
    gone := if depth == hw then 0 else old.gone
    ageFrom := now
    retry :=
      let lanes : Mask := BitVec.ofNat 32 (m.ctl 0x160 4)
      if m.ctl 0x164 1 % 2 == 1 && part == m.ctl o 8 && lanes &&& ~~~ BitVec.ofNat 32 (m.ctl (o + 8) 4) == 0 then some lanes
      else if old.pc == m.ctl o 8 then old.retry else none }

def Img.emptyRegs (m : Img) : List Reg :=
  let gone := fun (off n : Nat) (f : Nat → Reg) => (List.range n).filterMap fun i =>
    if bitsOf (m.ctl (off + i / 8) 1) (i % 8) (i % 8) == 1 then none else some (f i)
  gone 0x320 512 .v ++ gone 0x360 1024 .s ++ gone 0x3E0 16 .m
  ++ (List.range 8).filterMap fun i => if bitsOf (m.ctl 0x3E2 1) i i == 1 then none else some (.a i)

/-- The access processor of an image. Its predicates have no place there and are kept. -/
def Img.ap (m : Img) (p : BitVec 32) : Ap :=
  let o := 0x3_1000
  { st := match m.nat (o + 0x628) 8 with | 1 => .exited | 2 => .stopped | _ => .running
    pc := m.nat (o + 0x620) 8
    s := (List.range 128).map fun i => (i, BitVec.ofNat 32 (m.nat (o + 4 * i) 4))
    p := p
    fbuf := []
    wait := none
    nest :=
      let r := m.nat (o + 0x630) 2
      if 0x8000 ≤ r then
        some { reg := r - 0x8000, opnd := m.nat (o + 0x632) 2,
               idx := (List.range 5).map fun k => m.nat (o + 0x634 + 2 * k) 2 }
      else none
    fenceAt := none, notBefore := 0 }

def Img.port (m : Img) (j : Nat) : Port :=
  let o := 0x3_1000
  { words := (List.range (m.nat (o + 0x600 + 8 * j) 4)).map fun i =>
      BitVec.ofNat 32 (m.nat (o + 0x200 + 0x100 * j + 4 * i) 4)
    permits := m.nat (o + 0x604 + 8 * j) 4 }

/-- The group an image restores. Registers of write class "no" keep the group's own values; sr.XFLAGS comes
from its own place. Reserved bits stay 0 (R5). -/
def Group.ofImage (gr : Group) (m : Img) (now : Nat) : Group :=
  let sr := (List.range 38).foldl (fun r i =>
    let n := 0x10 + i
    if srClass n == .no then r else r.set n (m.ctl (0x170 + 8 * i) 8 &&& srMask n)) gr.sr
  let units := fun k n => m.units (m.unitAt k) n
  { gr with
    paths := (List.range 4).map fun p => m.path p now (gr.path p)
    v := (List.range 512).map fun i => (i, m.row (0x1_0000 + 128 * i))
    s := (List.range 1024).map fun i => (i, BitVec.ofNat 32 (m.nat (0x3_0000 + 4 * i) 4))
    preds := (List.range 32).map fun k =>
      (k, Mask.ofLanes ((List.range 32).filter fun l => bitsOf (m.ctl (0x90 + 4 * l) 4) k k == 1))
    m := (List.range 16).map fun k => (k, tileOfMeta (m.metas.getD k 0) (units k (occOfMeta (m.metas.getD k 0))))
    a := (List.range 8).map fun k => (k, if m.accDense k then units (16 + k) 32 else [])
    sb := m.emptyRegs.map fun r => { reg := r, seq := 0, pc := 0, least := 0 }
    ctrs := (List.range 4).map fun k => m.ctl (0x150 + k) 1
    horizon := (List.range 8).map fun k => m.ctl (0x110 + 8 * k) 8
    ap := m.ap gr.ap.p
    ports := (List.range 4).map m.port
    sr := { sr with xflags := m.row 0x3_1AA0 &&& Row.splat 0x3F }
    vhold := m.ctl 4 4 % 32
    mhold := bitsOf (m.ctl 4 4) 25 16 }

end Sys2Proof.Machine
end

