-- ==== Sys2Proof/Machine/Pools.lean ====
section
/-!
DEFINITION. The register pools of a quarter (R189 to R193, R211): what is free, the queue of claims and of
waiting floors, the granting of its head, and registers given back.
-/
namespace Sys2Proof.Machine

/-- Granules or rank units of one quarter's pool, of the primary or the shadow bank. -/
def poolSize (shadow : Bool) : Pool → Nat
  | .v => if shadow then 16 else 64
  | .m => if shadow then 128 else 512

def Group.holding (gr : Group) : Pool → Nat
  | .v => gr.vhold
  | .m => gr.mhold

def Group.setHolding (gr : Group) (pool : Pool) (n : Nat) : Group :=
  match pool with
  | .v => { gr with vhold := n }
  | .m => { gr with mhold := n }

def Limits.floor (l : Limits) : Pool → Nat
  | .v => l.vFloor
  | .m => l.mFloor
def Limits.ceil (l : Limits) : Pool → Nat
  | .v => l.vCeil
  | .m => l.mCeil

/-- What a group keeps out of the pool: its holding, what it has given and writes still target, and what it
was granted while halted. A group that has ended keeps it until its writes have landed (R190, R195). -/
def Group.keeps (gr : Group) (pool : Pool) : Nat :=
  if gr.ended && gr.ops.isEmpty then 0
  else gr.holding pool + ((gr.given.filter (·.pool == pool)).map (·.n)).sum
    + ((gr.grantedWhileHalted.filter (·.1 == pool)).map (·.2.1)).sum

/-- The groups of one bank of a quarter. -/
def State.quarterGroups (s : State) (core : Nat) (shadow : Bool) (quarter : Nat) : List (Workgroup × Group) :=
  s.wgs.flatMap fun e => if e.2.shadow != shadow then [] else
    (e.2.groups.filter fun g => g.2.core == core && g.2.quarter == quarter).map fun g => (e.2, g.2)

/-- Free granules or units. -/
def State.poolFree (s : State) (core : Nat) (shadow : Bool) (quarter : Nat) (pool : Pool) : Nat :=
  poolSize shadow pool - ((s.quarterGroups core shadow quarter).map fun x => x.2.keeps pool).sum

/-- The queue of one pool of a quarter: one FIFO, with every waiting floor ahead of every claim (R192). -/
def Core.queue (c : Core) (shadow : Bool) (quarter : Nat) (pool : Pool) : List Claim :=
  let q := c.claims.filter fun x => x.shadow == shadow && x.quarter == quarter && x.pool == pool
  q.filter (·.floor) ++ q.filter (!·.floor)

/-- Whether the queues of a bank may move: they stand still while the shadow bank holds the core (R193,
R213). -/
def Front.moves (f : Front) (shadow : Bool) : Bool :=
  match f with
  | .primary | .toPrimary _ => true
  | .toShadow _ | .shadow => shadow

/-- A group acquires n granules or units; they read as zero and full (R189). -/
def Group.acquire (gr : Group) (pool : Pool) (n : Nat) : Group :=
  match pool with
  | .m => { gr with mhold := gr.mhold + n }
  | .v =>
    let lo := 32 * gr.vhold
    let hi := 32 * (gr.vhold + n)
    { gr with
      vhold := gr.vhold + n
      v := gr.v.filter fun e => !(lo ≤ e.1 && e.1 < hi)
      sb := gr.sb.filter fun e => match e.reg with
        | .v i => !(lo ≤ i && i < hi)
        | _ => true }

/-- A claim is granted to its group: its path goes on behind the RCLAIM. While the group is halted the grant
counts at its restore (R388). -/
def Group.grantClaim (gr : Group) (c : Claim) : Group :=
  if gr.halted then { gr with grantedWhileHalted := gr.grantedWhileHalted ++ [(c.pool, c.k, c.path)] }
  else (gr.acquire c.pool c.k).modPath c.path (·.advance)

/-- A floor is granted: the group starts when no floor of it waits any more. -/
def Group.grantFloor (gr : Group) (c : Claim) (more : Bool) : Group :=
  { (gr.acquire c.pool c.k) with started := !more }

/-- CLAIM_GRANT: the head of a pool's queue is granted whole when enough is free. -/
def State.grantHead (s : State) (core : Nat) (shadow : Bool) (quarter : Nat) (pool : Pool) : Option State :=
  let q := (s.core core).queue shadow quarter pool
  match q with
  | [] => none
  | c :: _ =>
    if !(s.core core).front.moves shadow || s.poolFree core shadow quarter pool < c.k then none
    else
      let s := s.modCore core fun x => { x with claims := x.claims.erase c }
      if c.floor then
        let more := (s.core core).claims.any fun d => d.floor && d.wg == c.wg && d.g == c.g
        some (s.modGroup c.wg c.g (·.grantFloor c more))
      else some (s.modGroup c.wg c.g (·.grantClaim c))

/-- Whether a write of an operation in flight still targets a register of a given range. -/
def Group.targets (gr : Group) (x : Given) : Bool :=
  gr.ops.any fun o => !o.landed && o.dst.any fun r => match x.pool, r with
    | .v, .v i => x.lo ≤ i && i < x.hi
    | .m, .m _ | .m, .a _ => true
    | _, _ => false

/-- REGISTERS_FREED: the registers a group has given, and no write targets, enter the free pool. -/
def Group.freeGiven (gr : Group) : Group := { gr with given := gr.given.filter gr.targets }

end Sys2Proof.Machine
end

