-- ==== Sys2Proof/Machine/Debug.lean ====
section
/-!
DEFINITION. Owner writes (R425, R428), sample records (R372, R389), and the debug agent: rights, holds, HALT
and RESTORE (R386 to R392).
-/
namespace Sys2Proof.Machine

/-! ### Owner writes -/

/-- The number of a master in OWNER (Table 23.2); other contexts of the device have none. -/
def masterCode : Master → Option Nat
  | .host => some 0
  | .port n => some n
  | .peer n => some (0x100 + n)
  | .ctx _ => none

/-- R425: a write by the current owner master, or by context 0 of the device. -/
def State.ownerWrite (s : State) (m : Master) : Bool :=
  match m with
  | .ctx c => c == 0
  | m => s.reg.master != 0xFFFF#16 && masterCode m == some s.reg.master.toNat

/-- A write that is dropped adds 1 to DENIED, which saturates. -/
def State.deny (s : State) : State :=
  { s with reg := { s.reg with denied := if s.reg.denied == BitVec.allOnes 64 then s.reg.denied else s.reg.denied + 1 } }

/-! ### Sample records (Table 15.11) -/

def sampleRecord (tick pc kind path gid wgid : Nat) (mask : Mask) (value : Nat) : List Byte :=
  bytesOfNat 32 (tick % 2 ^ 64 * 2 ^ 192 + bitsOf pc 54 2 * 2 ^ 139 + kind * 2 ^ 136 + path % 4 * 2 ^ 134
    + gid % 2 ^ 11 * 2 ^ 123 + wgid % 2 ^ 24 * 2 ^ 99 + mask.toNat * 2 ^ 64 + value % 2 ^ 64)

/-- A dropped record is counted, saturating. -/
def Group.dropSample (gr : Group) : Group :=
  { gr with sr := { gr.sr with
      smpdrop := if gr.sr.smpdrop == BitVec.allOnes 32 then gr.sr.smpdrop else gr.sr.smpdrop + 1 } }

/-- A record is appended to a group's sample buffer (R372). -/
def State.appendSample (s : State) (h g p pc kind value : Nat) : VRes State :=
  match s.wg? h, s.group? h g with
  | some w, some gr =>
    let base := gr.sr.smpbase.toNat
    if gr.sr.smplim.toNat < base + 32 then .ok (s.modGroup h g (·.dropSample))
    else
      let rec_ := sampleRecord s.tick pc kind p gr.gid w.handle (gr.path p).mask value
      match s.vRecord h w gr base rec_ with
      | .ok s => .ok (s.modGroup h g fun gr =>
          { gr with sr := { gr.sr with smpbase := gr.sr.smpbase + 32 } }.raiseH .sys (upTick s.cycle))
      | .fault f =>
        -- met only after translation: the base has gone on
        let past := f.cause == .homeLost && (s.lookTrans gr.core w.ctx base).isSome
        .ok (s.modGroup h g fun gr =>
          let gr := gr.dropSample
          if past then { gr with sr := { gr.sr with smpbase := gr.sr.smpbase + 32 } } else gr)
      | r => r
  | _, _ => .ok s

/-! ### Rights -/

def State.rightOn (s : State) (ctx : Nat) : Option Right := s.rights.find? (·.target == ctx)

/-- Whether TRACE records are written for a context, and whether its BKPTs hold (R388, R389). -/
def State.tracing (s : State) (ctx : Nat) : Bool := (s.rightOn ctx).any (·.trace)
def State.holding (s : State) (ctx : Nat) : Bool := (s.rightOn ctx).any (·.bkpten)

/-- DBGGRANT: bits 11-0 target, 23-12 agent, 63 DONE. -/
def grantWord (target agent : Nat) (done : Bool) : DWord :=
  BitVec.ofNat 64 (target % 4096 + agent % 4096 * 4096 + (if done then 2 ^ 63 else 0))

/-- An owner write to DBGGRANT with GRANT (R386): a target that already has a right leaves DONE at 0. -/
def State.grantRight (s : State) (target agent : Nat) : State :=
  if (s.rightOn target).isSome then { s with reg := { s.reg with grant := grantWord target agent false } }
  else
    let r : Right :=
      { target := target, agent := agent, revoking := false, trace := false, bkpten := false, stalls := [] }
    { s with
      rights := s.rights ++ [r]
      revoked := s.revoked.filter (· != (target, agent))
      reg := { s.reg with grant := grantWord target agent true } }

/-- The first step of a revocation (R392): later commands of the agent are refused. -/
def State.startRevoke (s : State) (target agent : Nat) : State :=
  let s := { s with reg := { s.reg with grant := grantWord target agent false } }
  if s.rights.any (fun r => r.target == target && r.agent == agent) then
    { s with
      rights := modWhere (fun r => r.target == target && r.agent == agent) (fun r => { r with revoking := true }) s.rights
      revoked := (target, agent) :: s.revoked.filter (· != (target, agent)) }
  else s

/-! ### Commands (Table 16.4) -/

def cmdOp (c : BitVec 128) : Nat := bitsOf c.toNat 127 124
def cmdCtx (c : BitVec 128) : Nat := bitsOf c.toNat 123 112
def cmdWg (c : BitVec 128) : Nat := bitsOf c.toNat 111 88
def cmdGroup (c : BitVec 128) : Nat := bitsOf c.toNat 87 77
def cmdPath (c : BitVec 128) : Nat := bitsOf c.toNat 76 75
def cmdArg (c : BitVec 128) : Nat := bitsOf c.toNat 63 0

/-- DBGSTAT of an agent. -/
def State.report (s : State) (agent status : Nat) (mask : Mask) (pc : Nat) : State :=
  let busy := s.dbgQ.any (·.agent == agent)
  { s with dbgstat := put s.dbgstat agent (BitVec.ofNat 128
      (mask.toNat * 2 ^ 96 + bitsOf pc 54 2 * 2 ^ 43 + (if busy then 256 else 0) + status)) }

/-- A store to DBGCMD (R388): the command is queued; one from an agent whose right was revoked is refused. -/
def State.acceptCmd (s : State) (agent : Nat) (cmd : BitVec 128) : State :=
  if s.revoked.contains (cmdCtx cmd, agent) then s.report agent 9 0 0
  else
    let d : DbgCmd := { agent := agent, cmd := cmd }
    { s with dbgQ := s.dbgQ ++ [d], dbgstat := put s.dbgstat agent ((look 0 s.dbgstat agent) ||| 256#128) }

/-- The oldest command of an agent, where its OP meets `p`, and the queue without it. -/
def State.takeCmd (s : State) (agent : Nat) (p : Nat → Bool) : Option (BitVec 128 × State) :=
  match takeFirst (fun d : DbgCmd => d.agent == agent) s.dbgQ with
  | some (d, rest) => if p (cmdOp d.cmd) then some (d.cmd, { s with dbgQ := rest }) else none
  | none => none

/-- The status a command ends with before it acts: NORIGHT, NOTARGET, or none. `path`: the command names a
path. -/
def State.cmdCheck (s : State) (agent : Nat) (c : BitVec 128) (group path : Bool) : Option Nat :=
  if !(s.rights.any fun r => r.target == cmdCtx c && r.agent == agent) then some 1
  else match s.wg? (cmdWg c) with
    | none => if group then some 2 else none
    | some w =>
      if !group then none
      else if w.ctx != cmdCtx c then some 2
      else match w.group? (cmdGroup c) with
        | none => some 2
        | some gr =>
          if gr.ended || !gr.started then some 2
          else if path && (gr.path (cmdPath c)).st == PState.free then some 2
          else none

/-- The end of a command: its status with the named path's mask and PC. -/
def State.endCmd (s : State) (agent : Nat) (c : BitVec 128) (status : Nat) : State :=
  match s.group? (cmdWg c) (cmdGroup c) with
  | some gr => s.report agent status (gr.path (cmdPath c)).mask (gr.path (cmdPath c)).pc
  | none => s.report agent status 0 0

/-- A command that acts on the path it names. -/
def State.pathCmd (s : State) (agent op : Nat) (f : Path → Path) : Option State :=
  match s.takeCmd agent (· == op) with
  | none => none
  | some (c, s) => match s.cmdCheck agent c true true with
    | some st => some (s.endCmd agent c st)
    | none => some ((s.modGroup (cmdWg c) (cmdGroup c) (·.modPath (cmdPath c) f)).endCmd agent c 0)

/-- A command that changes the right it is issued under. -/
def State.rightCmd (s : State) (agent op : Nat) (f : BitVec 128 → Right → Right) : Option State :=
  match s.takeCmd agent (· == op) with
  | none => none
  | some (c, s) => match s.cmdCheck agent c false false with
    | some st => some (s.endCmd agent c st)
    | none =>
      some ({ s with rights := modWhere (fun r => r.target == cmdCtx c && r.agent == agent) (f c) s.rights }.endCmd
        agent c 0)

/-- STALLSMP: a period of 0 stops. -/
def Right.sampling (now : Nat) (c : BitVec 128) (r : Right) : Right :=
  let rest := r.stalls.filter (·.wg != cmdWg c)
  if cmdArg c == 0 then { r with stalls := rest }
  else
    let x : StallSampling := { wg := cmdWg c, period := cmdArg c, start := now, seen := [] }
    { r with stalls := rest ++ [x] }

/-! ### HALT (R388, R214 steps 2 and 3) -/

/-- Every granule waiter of a path of a group leaves its queue; a partly performed qualified instruction, once
nothing of it is on its way, keeps the lanes still to perform and is executed again for them. A DECODE, whose path
has gone on, is an operation in flight like those of the other engines. -/
def State.stopWaiters (s : State) (h g : Nat) : State :=
  let held := fun (b : BankOp) => b.acc.wg == h && b.acc.g == g
    && ((s.group? h g).bind (·.op? b.acc.seq)).any (·.cls.isNone)
  let s := s.wgs.foldl (fun s e => e.2.cores.foldl (fun s c => s.dropWaiters e.1 c.core held) s) s
  let onWay := fun (seq : Nat) => s.cores.any fun c => c.2.bankQ.any fun b => b.acc.wg == h && b.acc.g == g && b.acc.seq == seq
  s.modGroup h g fun gr =>
    let stuck := gr.ops.filter fun o => o.qual != .none && o.cls.isNone && o.todo != 0 && !(onWay o.seq)
    stuck.foldl (fun gr o =>
      let gr := gr.landAll o
      let gr := { gr with ops := gr.ops.filter (·.seq != o.seq) }
      if o.path == apPath then { gr with ap := { gr.ap with wait := none } }
      else gr.modPath o.path fun p =>
        { p with st := .ready, wait := none, retry := if o.instr.laneBound then some (o.pend ||| o.fl) else none }) gr

/-- A path that is BLOCKED waits again at its next issue. -/
def Path.unblock (p : Path) : Path := if p.st == PState.blocked then { p with st := .ready, wait := none } else p

/-- Whether every operation of a group has returned. -/
def Group.drained (gr : Group) : Bool := gr.ops.isEmpty

/-- HALT completes: the image is in the group's slot and the group stands still. -/
def State.haltDone (s : State) (h g : Nat) : State :=
  { (s.modGroup h g fun gr => { gr with halted := true }) with
    halting := s.halting.filter fun x => !(x.wg == h && x.g == g) }

/-- The image of a group is written to its slot. -/
def State.saveGroup (s : State) (h g : Nat) : VRes State :=
  match s.wg? h, s.group? h g with
  | some w, some gr =>
    s.vStores gr.core w.ctx gr.sup ((s.image w gr).map fun x => (w.slotAddr g + x.1, x.2))
  | _, _ => .ok s

/-- HALT: first the group is stopped; once its operations have returned the image is written. -/
def State.haltCmd (s : State) (agent : Nat) : Option State :=
  match s.takeCmd agent (· == 4) with
  | none => none
  | some (c, s') =>
    let h := cmdWg c
    let g := cmdGroup c
    match s.cmdCheck agent c true false with
    | some st => some (s'.endCmd agent c st)
    | none =>
      if !(s.halting.any fun x => x.wg == h && x.g == g) then
        if (s.group? h g).any (·.halted) then some (s'.endCmd agent c 0)
        else
          let x : Halting := { agent := agent, wg := h, g := g }
          some { s with halting := s.halting ++ [x] }
      else
        let t := s.stopWaiters h g
        if !((t.group? h g).any (·.drained)) then none
        else
          match t.saveGroup h g with
          | .ok t =>
            let t := t.haltDone h g
            some ({ t with dbgQ := s'.dbgQ }.endCmd agent c 0)
          | .walk as => some (t.asks as)
          | .fault _ =>
            let t := { t with halting := t.halting.filter fun x => !(x.wg == h && x.g == g), dbgQ := s'.dbgQ }
            some (t.endCmd agent c 4)
          | .busy => none

/-! ### RESTORE (R391, Table 16.6) -/

/-- Whether a PC translates to a leaf with X = 1; none where a table line cannot be read now. -/
def State.execMapped (s : State) (core ctx : Nat) (sup : Bool) (pc : Nat) : Option Bool :=
  if localBase ≤ pc || pc % 4 != 0 then some false
  else match s.find core ctx pc .exec sup false with
    | .tr _ => some true
    | .fault _ _ => some false
    | .miss => match s.walk (quadOf core) { ctx := ctx, page := pageOf pc, kind := .exec, sup := sup } with
      | .ok _ _ => some true
      | .fault _ _ _ => some false
      | .busy _ => none

/-- Check 3: floors, ceilings, occupancy, and growth that the free pool covers without passing a claim. -/
def State.poolOk (s : State) (w : Workgroup) (gr : Group) (m : Img) : Bool :=
  let l := w.limits gr.gid
  let h := m.ctl 4 4 % 32
  let u := bitsOf (m.ctl 4 4) 25 16
  let grows := fun (pool : Pool) (n : Nat) =>
    n ≤ gr.holding pool || (n - gr.holding pool ≤ s.poolFree gr.core w.shadow gr.quarter pool
      && ((s.core gr.core).queue w.shadow gr.quarter pool).isEmpty)
  l.vFloor ≤ h && h ≤ l.vCeil && l.mFloor ≤ u && u ≤ l.mCeil && m.occ ≤ u && grows .v h && grows .m u

/-- Check 5. -/
def Img.stacksOk (m : Img) : Bool :=
  (List.range 4).all fun p =>
    let x := m.path p 0
    x.st == PState.free || (x.depth ≤ 1024 && (List.range x.depth).all fun i =>
      match StackEnt.decode (m.nat (p * 0x4000 + 16 * i) 16) with
      | .div .. => true
      | .split _ q => (m.path q 0).st != PState.free && (m.path q 0).origin == p
      | .bad => false)

/-- Check 6. -/
def Img.masksOk (m : Img) (launch : Mask) : Bool :=
  let ps := ((List.range 4).map fun p => m.path p 0).filter (·.st != PState.free)
  (List.range 32).all (fun l => (ps.filter fun p => p.mask.getLsbD l).length ≤ 1)
  && ps.all fun p => p.mask &&& ~~~ launch == 0 && (p.mask != 0 || 0 < p.depth)

/-- The checks of Table 16.6 from LAYOUT on: the status of the first that fails, 0 where all pass; none
where a table line cannot be read now. -/
def State.imageCheck (s : State) (w : Workgroup) (gr : Group) (m : Img) : Option Nat :=
  if m.ctl 0 4 != 1 then some 4
  else if !s.poolOk w gr m then some 5
  else
    let pcs := ((List.range 4).filter fun p => (m.path p 0).st != PState.free).map fun p => (m.path p 0).pc
    let pcs := if (m.ap 0).st == ApSt.exited then pcs else pcs ++ [(m.ap 0).pc]
    let r := pcs.map fun pc => s.execMapped gr.core w.ctx gr.sup pc
    if r.any (·.isNone) then none
    else if r.any (· == some false) then some 6
    else if !m.stacksOk then some 7
    else if !m.masksOk gr.launch then some 8
    else some 0

/-- The group runs the image: every hold is cleared, and claims granted meanwhile count (R388, R391). -/
def Group.restore (gr : Group) (m : Img) (now : Nat) : Group :=
  let late := gr.grantedWhileHalted
  let x := gr.ofImage m now
  let x := { x with halted := false, grantedWhileHalted := [], paths := x.paths.map fun p => { p with hold := false } }
  late.foldl (fun x c => (x.acquire c.1 c.2.1).modPath c.2.2 (·.advance)) x

/-- An image of 256 KiB at an address of a context. -/
def State.readImage (s : State) (core ctx : Nat) (sup : Bool) (va : Nat) : VRes (Img × State) :=
  s.vLoad core ctx sup va 0x3_2000

/-- A halted group takes an image: the status, and the state. None where a table line cannot be read now. -/
def State.restoreFrom (s : State) (h g : Nat) (m : Img) : Option (Nat × State) :=
  match s.wg? h, s.group? h g with
  | some w, some gr => match s.imageCheck w gr m with
    | none => none
    | some 0 => some (0, (s.unarrive h g).setGroup h g (gr.restore m (s.clock gr.core)))
    | some st => some (st, s)
  | _, _ => some (2, s)

/-- RESTORE. -/
def State.restoreCmd (s : State) (agent : Nat) : Option State :=
  match s.takeCmd agent (· == 5) with
  | none => none
  | some (c, s') =>
    let h := cmdWg c
    let g := cmdGroup c
    match s.cmdCheck agent c true false, s.wg? h, s.group? h g with
    | some st, _, _ => some (s'.endCmd agent c st)
    | none, some w, some gr =>
      if !gr.halted then some (s'.endCmd agent c 3)
      else
        let own := cmdArg c == 0
        match s.readImage gr.core (if own then w.ctx else agent) gr.sup (if own then w.slotAddr g else cmdArg c) with
        | .busy => none
        | .walk as => s.asked? as
        | .fault _ => some (s'.endCmd agent c 4)
        | .ok (m, t) => match t.restoreFrom h g m with
          | none => none
          | some (st, t) => some ({ t with dbgQ := s'.dbgQ }.endCmd agent c st)
    | none, _, _ => some (s'.endCmd agent c 2)

/-! ### Revocation (R392) -/

/-- Groups of a context that stand halted. -/
def State.haltedOf (s : State) (ctx : Nat) : List (Nat × Nat) :=
  s.wgs.flatMap fun e => if e.2.ctx != ctx then [] else
    (e.2.groups.filter fun g => g.2.halted).map fun g => (e.1, g.1)

/-- Step 2 for one group: it runs its own slot's image again; one whose image does not pass runs on as it
stands. -/
def State.resume (s : State) (h g : Nat) : VRes State :=
  match s.wg? h, s.group? h g with
  | some w, some gr => match s.readImage gr.core w.ctx gr.sup (w.slotAddr g) with
    | .ok (m, t) => match t.restoreFrom h g m with
      | some (0, t) => .ok t
      | some _ => .ok (t.modGroup h g fun gr => { gr with halted := false })
      | none => .busy
    | .walk t => .walk t
    | .fault _ => .ok (s.modGroup h g fun gr => { gr with halted := false })
    | .busy => .busy
  | _, _ => .ok s

def State.resumeAll (s : State) : List (Nat × Nat) → VRes State
  | [] => .ok s
  | x :: xs => match s.resume x.1 x.2 with
    | .ok s => s.resumeAll xs
    | r => r

/-- Every hold of a workgroup is released. -/
def Workgroup.unhold (w : Workgroup) : Workgroup :=
  { w with groups := w.groups.map fun g =>
      (g.1, { g.2 with paths := g.2.paths.map fun p => { p with hold := false } }) }

/-- Steps 2 to 4, once the commands accepted earlier have completed. -/
def State.finishRevoke (s : State) (target agent : Nat) : Option State :=
  if !(s.rights.any fun r => r.target == target && r.agent == agent && r.revoking)
    || s.dbgQ.any (fun d => d.agent == agent) then none
  else match s.resumeAll (s.haltedOf target) with
    | .busy | .fault _ => none
    | .walk as => s.asked? as
    | .ok s => some
      { s with
        wgs := s.wgs.map (fun e => if e.2.ctx != target then e else (e.1, e.2.unhold))
        rights := s.rights.filter fun r => !(r.target == target && r.agent == agent)
        reg := { s.reg with grant := grantWord target agent true } }

/-! ### STALL records (R389) -/

/-- The reason of a path that waits, with the producer's PC for a register; none for a path that does not. -/
def Path.stallReason (p : Path) : Option (Nat × Nat) :=
  match p.st, p.wait with
  | .blocked, some (.reg pc) => some (0, pc)
  | .blocked, some (.op _) => some (1, 0)
  | .blocked, some .barrier => some (2, 0)
  | .blocked, some .claim => some (3, 0)
  | .blocked, some .fence => some (4, 0)
  | .blocked, some .port => some (5, 0)
  | .blocked, some .requests | .blocked, some .walk | .blocked, some .busy => some (6, 0)
  | .free, _ => none
  | _, _ => if p.hold then some (7, 0) else none

/-- The sampling of a workgroup that is due for one of its paths. -/
def StallSampling.due (x : StallSampling) (now g p : Nat) : Bool :=
  let last := ((x.seen.find? fun y => y.1 == g && y.2.1 == p).map (·.2.2)).getD x.start
  x.period != 0 && last + x.period ≤ now

def StallSampling.saw (x : StallSampling) (now g p : Nat) : StallSampling :=
  { x with seen := (g, p, now) :: x.seen.filter fun y => !(y.1 == g && y.2.1 == p) }

/-- STALL_SAMPLE. -/
def State.stallStep (s : State) (h g p : Nat) : Option State :=
  match s.wg? h, s.group? h g with
  | some w, some gr =>
    match (gr.path p).stallReason, s.rightOn w.ctx with
    | some (r, pc), some right =>
      if !(right.stalls.any fun x => x.wg == h && x.due s.tick g p) then none
      else
        let now := s.tick
        let saw := fun (r : Right) => { r with stalls := modWhere (·.wg == h) (·.saw now g p) r.stalls }
        let mark := fun (s : State) => { s with rights := modWhere (·.target == w.ctx) saw s.rights }
        match s.appendSample h g p (gr.path p).pc 1 (r * 2 ^ 60 + bitsOf pc 54 2) with
        | .ok s => some (mark s)
        | .walk as => s.asked? as
        | .fault _ | .busy => none
    | _, _ => none
  | _, _ => none

end Sys2Proof.Machine
end

