-- ==== Sys2Proof/Machine/Regs.lean ====
section
/-!
DEFINITION. The device register space (R425 to R428, R435, Tables 23.1 to 23.3), ownership, frame pools
(R382), attestation (R431), mailbox writes (R204), and boot (R430).
-/
namespace Sys2Proof.Machine

/-! ### Ownership (R428) -/

def OwnSt.code : OwnSt → Nat
  | .free => 0 | .owned => 1 | .handover => 2 | .booting => 3

/-- The OWNER register. -/
def DevRegs.owner (r : DevRegs) : Nat :=
  r.epoch % 2 ^ 16 * 2 ^ 48 + r.ownSt.code * 2 ^ 46 + r.target.toNat * 2 ^ 16 + r.master.toNat

/-- The master a write to OWNER counts for: context 0 acts for the owner, and only with OFFER and RELEASE. -/
def State.judged (s : State) (m : Master) (op : Nat) : Option Nat :=
  match m with
  | .ctx c =>
    if c == 0 && s.reg.master != 0xFFFF#16 && (op == 2 || op == 4) then some s.reg.master.toNat else none
  | m => masterCode m

def DevRegs.newEpoch (r : DevRegs) : DevRegs := { r with epoch := (r.epoch + 1) % 2 ^ 16 }

/-- CLAIM. -/
def State.ownClaim (s : State) (m : Master) : State :=
  match s.judged m 1 with
  | some k =>
    if s.reg.ownSt == .free then
      { s with reg := { s.reg.newEpoch with master := BitVec.ofNat 16 k, ownSt := .owned } }
    else s.deny
  | none => s.deny

/-- OFFER. -/
def State.ownOffer (s : State) (m : Master) (target : BitVec 16) : State :=
  match s.judged m 2 with
  | some k =>
    if s.reg.ownSt != .booting && s.reg.master != 0xFFFF#16 && k == s.reg.master.toNat then
      { s with reg := { s.reg with target := target, ownSt := .handover, handoverAt := s.tick } }
    else s.deny
  | none => s.deny

/-- ACCEPT. -/
def State.ownAccept (s : State) (m : Master) : State :=
  match s.judged m 3 with
  | some k =>
    if s.reg.ownSt == .handover && k == s.reg.target.toNat then
      { s with reg := { s.reg.newEpoch with master := BitVec.ofNat 16 k, ownSt := .owned } }
    else s.deny
  | none => s.deny

/-- RELEASE. -/
def State.ownRelease (s : State) (m : Master) : State :=
  match s.judged m 4 with
  | some k =>
    if s.reg.ownSt != .booting && s.reg.master != 0xFFFF#16 && k == s.reg.master.toNat then
      { s with reg := { s.reg.newEpoch with master := 0xFFFF#16, ownSt := .free } }
    else s.deny
  | none => s.deny

/-- A write of the OWNER register. -/
def State.ownWrite (s : State) (m : Master) (v : Nat) : State :=
  match bitsOf v 45 43 with
  | 1 => s.ownClaim m
  | 2 => s.ownOffer m (BitVec.ofNat 16 (bitsOf v 31 16))
  | 3 => s.ownAccept m
  | 4 => s.ownRelease m
  | _ => s

/-- HANDOVER_TIMEOUT: 65,536 ticks after the OFFER. -/
def State.ownTimeout (s : State) : Option State :=
  if s.reg.ownSt == .handover && s.reg.handoverAt + 65536 ≤ s.tick then
    some { s with reg := { s.reg with ownSt := .owned } }
  else none

/-! ### DSTAT (R427) -/

def State.dstatWord (s : State) : Nat :=
  (s.dstatLost % 2 ^ 31) * 2 ^ 32 + match s.dstat with
    | [] => 0
    | e :: _ => 2 ^ 63 + e.code % 256 * 2 ^ 24 + e.handle % 2 ^ 24

/-- An owner write of 1 to VALID retires the event shown and clears LOST. -/
def State.dstatPop (s : State) : State :=
  match s.dstat with
  | [] => s
  | _ :: r => { s with dstat := r, dstatLost := 0 }

/-! ### Frame pools (R382, Table 16.3) -/

/-- A pop: the frame, and COUNT after it. -/
def State.framePop (s : State) (d : Nat) : Nat × State :=
  match (s.die d).frames with
  | [] => (0, s)
  | f :: r => (min r.length 0xFFF * 2 ^ 52 + f % 2 ^ 52 / 2 ^ 16 * 2 ^ 16 + 1, s.modDie d fun x => { x with frames := r })

/-- A push; one to a full pool is dropped. -/
def State.framePush (s : State) (d v : Nat) : State :=
  s.modDie d fun x =>
    if x.frames.length < 65536 then { x with frames := (v % 2 ^ 52 / 2 ^ 16 * 2 ^ 16) :: x.frames } else x

/-! ### Attestation (R431) -/

/-- A write to ATTNONCE: VALID is cleared; the write of its last eight bytes starts the quote. -/
def State.nonceWrite (s : State) (off : Nat) (bs : List Byte) : State :=
  let old := bytesOfNat 32 s.reg.nonce.toNat
  let new := old.take off ++ bs ++ old.drop (off + bs.length)
  { s with reg := { s.reg with
      nonce := BitVec.ofNat 256 (natOfBytes new)
      quoteValid := false
      quoting := s.reg.quoting || off + bs.length == 32 } }

/-- QUOTE_COMPLETE. -/
def State.quoteDone (s : State) : Option State :=
  if !s.reg.quoting then none
  else
    let msg := bytesOfNat 32 s.reg.nonce.toNat ++ s.reg.meas.flatMap (fun m => bytesOfNat 32 m.toNat) ++ s.flash.serial
    some { s with reg := { s.reg with
      quote := Config.mldsaSign (Config.sha3 msg), quoteValid := true, quoting := false } }

/-! ### Reading registers -/

/-- DIESTAT. -/
def Die.stat (d : Die) : Nat :=
  (if d.fenced then 1 else 0) + (if d.salvFull then 2 else 0)
  + (if (d.stackFenced[0]?).getD false then 4 else 0) + (if (d.stackFenced[1]?).getD false then 8 else 0)
  + d.spares % 4 * 16 + d.notReplaced % 256 * 256

/-- Registers of a die block (Table 23.3) as 8-byte words. -/
def Die.word (d : Die) (off : Nat) : Nat :=
  match off with
  | 0x00 => d.rakectl.toNat + (if bitsOf d.rakectl.toNat 19 8 == 0 then 0x100 else 0)
  | 0x10 => d.salvbase.toNat
  | 0x18 => d.salvlim.toNat
  | 0x20 => d.salvcnt.toNat
  | 0x28 => d.stat
  | _ =>
    if 0x100 ≤ off && off < 0x200 then
      let g := (d.stackers[(off - 0x100) / 0x20]?).getD Stacker.reset
      match (off - 0x100) % 0x20 with
      | 0x00 => g.frbase.toNat
      | 0x08 => g.frlim.toNat
      | 0x10 => g.rlbase.toNat
      | _ => g.rllim.toNat
    else 0

/-- The 8 bytes at an aligned offset, without any action. DBGSTAT shows the reader's own commands. -/
def State.regWord (s : State) (m : Master) (off : Nat) : Nat :=
  if off == 0 then s.reg.owner
  else if off == 0x8 then s.reg.denied.toNat
  else if off == 0x10 then s.reg.podcfg.toNat
  else if off == 0x20 then
    (if s.reg.bootReady then 1 else 0) + (if s.reg.bootFail then 2 else 0) + s.reg.bootSlot % 4 * 4
  else if 0x40 ≤ off && off < 0x140 then
    bitsOf ((s.reg.meas[(off - 0x40) / 32]?).getD 0).toNat ((off - 0x40) % 32 * 8 + 63) ((off - 0x40) % 32 * 8)
  else if 0x200 ≤ off && off < 0x220 then bitsOf s.reg.nonce.toNat ((off - 0x200) * 8 + 63) ((off - 0x200) * 8)
  else if 0x1000 ≤ off && off < 0x1980 then
    natOfBytes ((List.range 8).map fun i =>
      let k := off - 0x1000 + i
      if k < 2420 then s.reg.quote.getD k 0 else if k == 2431 && s.reg.quoteValid then 1 else 0)
  else if off == 0x1_0000 then s.dstatWord
  else if off == 0x2_0010 || off == 0x2_0018 then
    match m with
    | .ctx c => bitsOf (look 0 s.dbgstat c).toNat (if off == 0x2_0010 then 63 else 127) (if off == 0x2_0010 then 0 else 64)
    | _ => 0
  else if off == 0x2_0020 then s.reg.grant.toNat
  else if 0x3_0000 ≤ off && off < 0x3_8000 then (look 0 s.reg.handlers ((off - 0x3_0000) / 8)).toNat
  else if 0x10_0000 ≤ off && off < 0x18_0000 then (s.die ((off - 0x10_0000) / 0x1_0000)).word ((off - 0x10_0000) % 0x1_0000)
  else if off == 0x20_0000 then s.reg.hwin.toNat
  else if 0x30_0000 ≤ off && off < 0x30_0800 && (off - 0x30_0000) % 0x100 == 0 then
    let z := (s.zports[(off - 0x30_0000) / 0x100]?).getD ZPort.reset
    (if z.up then 1 else 0) + (if z.fenced then 2 else 0) + z.resent % 2 ^ 32 * 2 ^ 32
  else 0

def State.regByte (s : State) (m : Master) (off : Nat) : Byte :=
  BitVec.ofNat 8 (s.regWord m (off / 8 * 8) / 2 ^ (8 * (off % 8)))

/-- The frame pool an access covers whole. -/
def poolAt (off n : Nat) : Option Nat :=
  if 0x10_0000 ≤ off && off < 0x18_0000 && (off - 0x10_0000) % 0x1_0000 == 8 && n == 8 then
    some ((off - 0x10_0000) / 0x1_0000)
  else none

/-- A read of n bytes (R435): a full load of FRAMEPOOL pops. -/
def State.regRead (s : State) (m : Master) (off n : Nat) : List Byte × State :=
  match poolAt off n with
  | some d => let (v, s) := s.framePop d; (bytesOfNat 8 v, s)
  | none => ((List.range n).map fun i => s.regByte m (off + i), s)

/-! ### Writing registers -/

/-- A die-block register receives a value. -/
def Die.setWord (d : Die) (off v : Nat) : Die :=
  let x := BitVec.ofNat 64 v
  match off with
  | 0x00 => { d with rakectl := x &&& 0xFFFF07#64 }
  | 0x10 => { d with salvbase := x &&& 0xFFFFFFFFFFFC0#64 }
  | 0x18 => { d with salvlim := x &&& 0xFFFFFFFFFFFC0#64 }
  | 0x20 => { d with salvcnt := x &&& 0xFFFFFFFF#64 }
  | _ =>
    if 0x100 ≤ off && off < 0x200 then
      { d with stackers := modAt (fun g => match (off - 0x100) % 0x20 with
          | 0x00 => { g with frbase := x }
          | 0x08 => { g with frlim := x }
          | 0x10 => { g with rlbase := x }
          | _ => { g with rllim := x }) d.stackers ((off - 0x100) / 0x20) }
    else d

/-- Whether a die-block offset is a register that its owner may write. -/
def dieWritable (off : Nat) : Bool :=
  off == 0 || off == 0x10 || off == 0x18 || off == 0x20 || (0x100 ≤ off && off < 0x200)

/-- An EVICT (R214): a handle that names no live primary workgroup is ignored. -/
def State.evictWrite (s : State) (h : Nat) : State :=
  s.modWg h fun w => if !w.shadow && w.kill.isNone && !w.groups.isEmpty then { w with evict := .stopping } else w

/-- A KILL (R384). -/
def State.killWrite (s : State) (h : Nat) : State := s.killWg h 0xFD

/-- An owner write to DBGGRANT (R386, R392). -/
def State.grantWrite (s : State) (v : Nat) : State :=
  let t := bitsOf v 11 0
  let a := bitsOf v 23 12
  if bitsOf v 24 24 == 1 then s.grantRight t a
  else if bitsOf v 25 25 == 1 then s.startRevoke t a
  else s

/-- A write of a whole 8-byte register that only an owner write changes. -/
def State.ownedWrite (s : State) (off v : Nat) : State :=
  if off == 0x10 then { s with reg := { s.reg with podcfg := BitVec.ofNat 64 (v % 2 ^ 20) } }
  else if off == 0x1_0000 then (if bitsOf v 63 63 == 1 then s.dstatPop else s)
  else if off == 0x1_0008 then s.evictWrite (v % 2 ^ 24)
  else if off == 0x1_0010 then s.killWrite (v % 2 ^ 24)
  else if off == 0x2_0020 then s.grantWrite v
  else if 0x3_0000 ≤ off && off < 0x3_8000 then
    { s with reg := { s.reg with handlers := put s.reg.handlers ((off - 0x3_0000) / 8) (BitVec.ofNat 64 v &&& 0x7FFFFFFFFFFFFC#64) } }
  else if 0x10_0000 ≤ off && off < 0x18_0000 then
    s.modDie ((off - 0x10_0000) / 0x1_0000) (·.setWord ((off - 0x10_0000) % 0x1_0000) v)
  else if off == 0x20_0000 then { s with reg := { s.reg with hwin := BitVec.ofNat 64 (v % 2 ^ 52 / 2 ^ 36 * 2 ^ 36) } }
  else s

/-- Offsets of whole registers that take owner writes. -/
def ownerRegister (off : Nat) : Bool :=
  off == 0x10 || off == 0x1_0000 || off == 0x1_0008 || off == 0x1_0010 || off == 0x2_0020
  || (0x3_0000 ≤ off && off < 0x3_8000) || off == 0x20_0000
  || (0x10_0000 ≤ off && off < 0x18_0000 && dieWritable ((off - 0x10_0000) % 0x1_0000))

/-- Parts of MEASk and of ATTQUOTE, which are reached in 8 or 16 bytes (R435). -/
def readOnlyPart (off : Nat) : Bool := (0x40 ≤ off && off < 0x140) || (0x1000 ≤ off && off < 0x1980)

/-- Offsets of registers that no write changes. -/
def readOnlyRegister (off : Nat) : Bool :=
  off == 0x8 || off == 0x20 || readOnlyPart off
  || (0x10_0000 ≤ off && off < 0x18_0000 && (off - 0x10_0000) % 0x1_0000 == 0x28)
  || (0x30_0000 ≤ off && off < 0x30_0800 && (off - 0x30_0000) % 0x100 == 0)

/-- A write of bytes at an offset (R425, R435). A write that covers no register whole is ignored. -/
def State.regWrite (s : State) (m : Master) (off : Nat) (bs : List Byte) : State :=
  let n := bs.length
  let v := natOfBytes bs
  match poolAt off n with
  | some d => s.framePush d v
  | none =>
    if off == 0 && n == 8 then s.ownWrite m v
    else if off == 0x2_0000 && n == 16 then
      match m with
      | .ctx c => s.acceptCmd c (BitVec.ofNat 128 v)
      | _ => s.deny
    else if 0x200 ≤ off && off + n ≤ 0x220 && off % n == 0 && (n == 8 || n == 16) then
      if s.ownerWrite m then s.nonceWrite (off - 0x200) bs else s.deny
    else if off % 8 == 0 && n == 8 && ownerRegister off then
      if s.ownerWrite m then s.ownedWrite off v else s.deny
    else if (off % 8 == 0 && n == 8 && readOnlyRegister off) || (off % 16 == 0 && n == 16 && readOnlyPart off) then
      if s.ownerWrite m then s else s.deny
    else s

/-- One lane's access to the register space at its place in the order of accesses: loads read, stores write. -/
def State.devAccess (s : State) (m : Master) (off : Nat) (a : Acc) : List Byte × State :=
  match a.what with
  | .load => s.regRead m off a.n
  | .store bs => ([], s.regWrite m off bs)
  | .atom .. => ([], s)

/-! ### Mailbox pages (R204) -/

/-- Bytes of a slot that a host write changes: the record and SEQ. The response's fields are read-only, the others
reserved (R4, Table 9.3). -/
def mailWritable (off : Nat) : Bool := off % 256 < 132

/-- A host write to a mailbox page lands: each granule it writes becomes full and its waiters are retried. -/
def State.mailLand (s : State) (core off : Nat) (bs : List Byte) : State :=
  (granCuts off bs (bs.length / 16 + 2)).foldl (fun s p =>
    let g := s.gran 0 core p.1
    let row := (List.range p.2.2.length).foldl (fun (r : Row) i =>
      if mailWritable (16 * p.1 + p.2.1 + i) then r.setByte (p.2.1 + i) (p.2.2.getD i 0) else r) g.row
    let s := s.setGran 0 core p.1 { (g.withRow row) with full := true }
    if g.full then s else s.retryAll 0 core p.1) s

/-- The bytes of a page, as the host reads them. -/
def State.mailRead (s : State) (page off n : Nat) : List Byte :=
  (List.range n).map fun i => (s.gran 0 (1024 + page) ((off + i) / 16)).row.byte ((off + i) % 16)

/-- The dispatcher of a page serves a slot whose doorbell is full, one at a time (R204, R436): it issues LAUNCH of the
slot's record in context 0 and empties the doorbell. -/
def State.doorbell (s : State) (page slot : Nat) : Option State :=
  let core := 1024 + page
  let bell := s.gran 0 core (16 * slot + 8)
  if 16 ≤ page || 16 ≤ slot || !bell.full || s.launches.any (fun l => l.mail.any (·.1 == page)) then none
  else
    let l : LaunchReq :=
      { raw := BitVec.ofNat 1024 (natOfBytes (s.mailRead page (256 * slot) 128)), ctx := 0, sup := false, wg := 0, g := 0
        seq := 0, mail := some (page, slot, bitsOf bell.data.toNat 31 0) }
    some { s.setGran 0 core (16 * slot + 8) { bell with full := false } with launches := s.launches ++ [l] }

/-- A host's read of a mailbox page or of the register space: what it returns leaves over the port (R429). After a failed
boot it completes with Unsupported Request (R430). -/
def State.hostRead (s : State) (mail : Bool) (off n : Nat) : State :=
  if s.reg.bootFail then { s with out := s.out ++ [.unsupported] }
  else if mail then { s with out := s.out ++ [.data (s.mailRead (off / 4096) (off % 4096) n)] }
  else
    let (bs, t) := s.regRead .host off n
    { t with out := t.out ++ [.data bs] }

/-- Only owner writes reach a page. -/
def State.mailWrite (s : State) (m : Master) (page off : Nat) (bs : List Byte) : State :=
  if !s.ownerWrite m then s
  else if page < 16 && off + bs.length ≤ 4096 then s.mailLand (1024 + page) off bs
  else s

/-! ### Boot (R430) -/

/-- The measurements of a slot's three images, or none where a check fails. -/
def bootSlot (fuses : BitVec 256) (images : List (List Byte × List Byte × List Byte)) : Option (List (BitVec 256)) :=
  if images.length != 3 then none
  else if images.all fun i => Config.sha3 i.2.2 == fuses && Config.mldsaVerify i.2.2 (Config.sha3 i.1) i.2.1 then
    some (images.map fun i =>
      Config.sha3 (bytesOfNat 32 0 ++ bytesOfNat 32 (Config.sha3 i.1).toNat))
  else none

/-- The registers after a successful boot from a slot. -/
def State.booted (s : State) (slot : Nat) (meas : List (BitVec 256)) : State :=
  let late := (List.range 5).map fun k => (Config.bootMeas (3 + k)).getD 0
  { s with
    ctxbase := Config.bootCtxbase &&& 0xFFFFFFFFF0000#64
    dies := (List.range 8).map fun d =>
      { s.die d with
        frames := Config.bootFrames d
        salvbase := Config.bootSalv d 0 &&& 0xFFFFFFFFFFFC0#64
        salvlim := Config.bootSalv d 1 &&& 0xFFFFFFFFFFFC0#64
        stackFenced := [!Config.stackTrains d 0, !Config.stackTrains d 1]
        stackers := (List.range 8).map fun g =>
          { frbase := Config.bootStacker d g 0, frlim := Config.bootStacker d g 1,
            rlbase := Config.bootStacker d g 2, rllim := Config.bootStacker d g 3, moves := [] } }
    reg := { s.reg with
      handlers := (List.range 4096).map fun c => (c, Config.bootHandler c &&& 0x7FFFFFFFFFFFFC#64)
      meas := meas ++ late
      bootSlot := slot
      bootReady := true
      ownSt := .free } }

/-- RESET: everything is as at reset, HBM and the flash aside, and the boot ROM runs. -/
def State.reboot (s : State) : State :=
  let r := { State.reset with mem := s.mem, flash := s.flash, sched := s.sched, fresh := s.fresh }
  match bootSlot r.flash.fuses r.flash.slotA with
  | some m => r.booted 0 m
  | none => match bootSlot r.flash.fuses r.flash.slotB with
    | some m => r.booted 1 m
    | none => { r with reg := { r.reg with bootFail := true } }

end Sys2Proof.Machine
end

