-- ==== Sys2Proof/Machine/Coh.lean ====
section
/-!
DEFINITION. The home of a line and the L1s: requests and their stages (R127 to R131, R38, R113, R114, R141,
R146), tracking entries (R133 to R136), probes and their answers (R97, R128, R130), grants, write-backs, and
the sending of accesses from a core.
-/
namespace Sys2Proof.Machine

/-! ### Messages: from one core to one home and back they keep their order (R129) -/

def State.send (s : State) (core line : Nat) (toHome : Bool) (k : MsgKind) : State :=
  let m : Msg := { core := core, line := line, toHome := toHome, kind := k }
  { s with msgs := s.msgs ++ [m] }

/-- The oldest message between a core and the home of a line, where it concerns that line. -/
def State.take? (s : State) (core line : Nat) (toHome : Bool) : Option (MsgKind × State) :=
  match takeFirst (fun m : Msg => m.core == core && m.toHome == toHome && sliceOf m.line == sliceOf line) s.msgs with
  | some (m, rest) => if m.line == line then some (m.kind, { s with msgs := rest }) else none
  | none => none

def State.txn? (s : State) (line : Nat) : Option HomeTxn := s.homes.find? (·.line == line)
def State.modTxn (s : State) (line : Nat) (f : HomeTxn → HomeTxn) : State :=
  { s with homes := modWhere (·.line == line) f s.homes }

/-! ### What a request does to its line -/

/-- The smallest range of bytes that holds every write of a list of accesses. -/
def spanOf (as : List Acc) : Option (Nat × Nat) :=
  let ws := as.filter (·.writes)
  match ws with
  | [] => none
  | w :: r =>
    let lo := r.foldl (fun m a => min m a.off) w.off
    let hi := r.foldl (fun m a => max m (a.off + a.n)) (w.off + w.n)
    some (lo, hi - lo)

/-- The bytes of its line that a request may write: all of it for a request for ownership. -/
def HomeReq.span : HomeReq → Option (Nat × Nat)
  | .dir _ .rd _ => none
  | .dir .. => some (0, 128)
  | .lseRead .. => none
  | .lseStore _ as | .unc _ as | .atomic _ as | .tableStore _ _ as => spanOf as
  | .peer _ _ _ off n (.store _) | .peer _ _ _ off n (.atom ..) => some (off, n)
  | .peer _ _ _ _ _ .load | .peerLse .. | .round => none

/-- Whether a request changes the copies of a DIR line. -/
def HomeReq.isDir : HomeReq → Bool
  | .dir .. => true
  | r => r.dirStore

/-- Every byte of a line is written by a list of stores. -/
def wholeLine (as : List Acc) : Bool :=
  (List.range 128).all fun i => as.any fun a => (match a.what with | .store _ => true | _ => false)
    && a.off ≤ i && i < a.off + a.n

/-- Whether a request writes its whole DIR line without reading it (R87, R149). -/
def HomeReq.overwrites : HomeReq → Bool
  | .dir _ .rfoz _ => true
  | .atomic _ as | .tableStore _ .dir as => wholeLine as
  | _ => false

/-- Whether a read of the home's data is redirected where it misses L2 in a window (R109). -/
def HomeReq.reads : HomeReq → Bool
  | .dir _ .rd _ | .lseRead .. | .peerLse .. => true
  | .unc _ as => (spanOf as).isNone
  | .peer _ _ _ _ _ .load => true
  | _ => false

/-! ### Tracking entries -/

/-- The tenancy that a request carries (R132): of the context whose access it is. -/
def State.tenancyFor (s : State) (t : TrackEnt) (r : HomeReq) : Nat :=
  match r with
  | .dir _ _ ten => ten
  | r => ((r.accs.head?.bind fun a => s.wg? a.wg).map fun w => s.tenancyOf w.ctx).getD t.tenancy

/-- A conflict in an entry of more than one line (R133). -/
def TrackEnt.conflict (t : TrackEnt) (ten : Nat) (r : HomeReq) : Bool :=
  !t.isLine && (match r with
    | .dir c .rd _ => ((t.st == .x || t.st == .o) && t.owner != c) || ten != t.tenancy
    | .dir c _ _ | .atomic c _ | .tableStore c .dir _ => t.namesOther c || ten != t.tenancy
    | _ => false)

/-- An entry for the line, with room for it (R135), made line-exact on a conflict, which is told. -/
def State.trackFor (s : State) (line : Nat) (r : HomeReq) : Coll (Bool × State) :=
  match s.track? line, r with
  | none, .dir _ _ ten => match s.makeRoom line 1 17 with
    | .ok s => .ok (false, s.newTrack line ten)
    | .busy b => .busy b
    | .lost => .lost
  | none, _ => .ok (false, s)
  | some t, _ =>
    if !t.conflict (s.tenancyFor t r) r then .ok (false, s)
    else match s.exactTrack line with
      | .ok s => .ok (true, s)
      | .busy b => .busy b
      | .lost => .lost

/-- A granted core's tenancy makes a line entry MIXED, or keeps it so (R136). DESIGN CHOICE (log 134): MIXED also marks an
entry whose only core is of another tenancy than TENANCY, since a probe under its coarse bits would carry TENANCY. -/
def TrackEnt.mixes (t : TrackEnt) (ten : Nat) : Bool := t.isLine && (t.mixed || ten != t.tenancy)

/-- Probes that Table 6.3 sends for a request, with the sharer that makes room for a fifth one of a mixed
entry, or all of a coarse one that becomes mixed (R136). After a conflict, a read's forwards go to coarse sharers as well,
whose answers make the entry exact (R133). -/
def TrackEnt.probes (t : TrackEnt) (r : HomeReq) (conflict : Bool) : List (Nat × ProbeKind) :=
  let owner := if t.st == .x || t.st == .o then [t.owner] else []
  let sharers := if t.st == .s || t.st == .o then t.sharerCores else []
  match r with
  | .dir c .rd ten =>
    let others := sharers.filter fun x => x != c && !owner.contains x
    let look := if conflict && t.coarse && !t.mixes ten then others else []
    let out := if !t.mixes ten then []
      else if t.coarse then others
      else if 4 ≤ t.sharers.length && !t.names c then t.sharers.take 1 else []
    (owner.filter (· != c) ++ look).map (fun o => (o, ProbeKind.fwdRd)) ++ out.map fun o => (o, .inv)
  | .dir c _ _ =>
    ((owner.filter (· != c)).map fun o => (o, ProbeKind.fwdRfo))
      ++ (sharers.filter fun x => x != c && !owner.contains x).map fun o => (o, .inv)
  | .atomic .. | .tableStore _ .dir _ =>
    (owner.map fun o => (o, ProbeKind.fwdRfo)) ++ (sharers.filter fun x => !owner.contains x).map fun o => (o, .inv)
  | _ => []

/-- Probes are sent; those under coarse bits carry EXACT = 0 and the entry's tenancy (R136). -/
def State.sendProbes (s : State) (line : Nat) (t : TrackEnt) (ps : List (Nat × ProbeKind)) : State :=
  ps.foldl (fun s p =>
    let exact := !t.coarse || ((t.st == .x || t.st == .o) && p.1 == t.owner)
    s.send p.1 line false (.probe p.2 exact t.tenancy)) s

/-! ### Serving a request -/

/-- Lines granted in Shared only: antecedent lines, lines of live windows, and table lines, so that a write
of them always reaches the home (R106, R109, R38). -/
def State.sharedOnly (s : State) (line : Nat) : Bool :=
  s.isTable line || !(s.windowsOf line).isEmpty || s.pn.any fun e => e.anteMeets line 128

/-- The line after a write at its home: entered in L2, dirty. -/
def State.homeWrite (s : State) (line : Nat) (row : Row) : State := s.putL2 line row true

/-- A miss of a core for a line. -/
def Core.miss? (c : Core) (line : Nat) : Option Miss := c.misses.find? (·.line == line)

/-- The sharers after the answers of cores other than the owner: those that a forward found with a copy (`exact`, R133), or
those that no invalidation reached. -/
def TrackEnt.answered (t : TrackEnt) (exact : Bool) (others : List Answer) : TrackEnt :=
  if others.isEmpty then t
  else if t.coarse then
    (if exact then (others.filter (·.held.isSome)).map (·.core) else []).foldl (fun t c => t.addSharer c)
      { t with coarse := false, sharers := [] }
  else { t with sharers := t.sharers.filter fun x => !others.any (·.core == x) }

/-- The new state of the entry for a granted read (Table 6.3): the entry, and the state granted. DESIGN CHOICE (log 131): where
the owner answered from its write-back buffer, its data enters L2, and the owner is forgotten as one without a copy; Table
6.3 gives no case. -/
def TrackEnt.afterRd (t : TrackEnt) (c ten now : Nat) (sOnly exact : Bool) (ans : Option Answer) (others : List Answer) :
    TrackEnt × L1St :=
  let t := { t.answered (exact && !t.mixes ten) others with mixed := t.mixes ten }
  let exclusive : TrackEnt × L1St :=
    let t := { t with mixed := t.isLine && ten != t.tenancy }
    if sOnly then ({ t with st := .s, sharers := [], coarse := false }.addSharer c, .s)
    else ({ t with st := .x, owner := c, sharers := [], coarse := false, ownAt := now }, .e)
  match t.st with
  | .i => exclusive
  | .s => (t.addSharer c, .s)
  | .x =>
    if t.owner == c then (t, if sOnly then .s else .e)
    else match ans with
      | some { held := some .m, fromWb := false, .. } | some { held := some .o, fromWb := false, .. } =>
        ({ t with st := .o, sharers := [], coarse := false }.addSharer c, .s)
      | some { held := some _, fromWb := false, .. } =>
        (({ t with st := .s, sharers := [], coarse := false }.addSharer t.owner).addSharer c, .s)
      | _ => exclusive
  | .o =>
    if t.owner == c then (t, .s)
    else match ans with
      | some { held := some .m, fromWb := false, .. } | some { held := some .o, fromWb := false, .. } =>
        (t.addSharer c, .s)
      | some { held := some _, fromWb := false, .. } => (({ t with st := .s }.addSharer t.owner).addSharer c, .s)
      | _ => ({ t with st := .s }.addSharer c, .s)

/-- The entry after a grant of ownership. -/
def TrackEnt.afterRfo (t : TrackEnt) (c ten now : Nat) : TrackEnt :=
  { t with st := .x, owner := c, sharers := [], coarse := false, mixed := t.isLine && ten != t.tenancy, ownAt := now }

/-- The answer of the forwarded owner among the answers to a request's probes. -/
def HomeTxn.ownerAnswer (t : HomeTxn) (e : TrackEnt) : Option Answer :=
  if e.st == .x || e.st == .o then t.answers.find? (·.core == e.owner) else none

/-- A DIR read is granted. -/
def State.serveRd (s : State) (t : HomeTxn) (c ten : Nat) : State :=
  match s.track? t.line with
  | none => s.send c t.line false (.grant .s (some (s.homeValue t.line)) 0)
  | some e =>
    let ans := t.ownerAnswer e
    let others := t.answers.filter fun a => !(a.core == e.owner && (e.st == .x || e.st == .o))
    let (e', st) := e.afterRd c ten s.tick (s.sharedOnly t.line) t.exact ans others
    let fromHome := (t.data).isNone
    let row := t.data.getD (s.homeValue t.line)
    let s := if fromHome then s.putL2 t.line row false
      else if ans.any (·.fromWb) then s.homeWrite t.line row else s
    (s.setTrack t.line fun _ => e').send c t.line false (.grant st (some row) 0)

/-- A DIR request for ownership is granted, with the time at which every answer had come (R131). Data goes
along where the core does not hold the line. -/
def State.serveRfo (s : State) (t : HomeTxn) (c : Nat) (k : ReqKind) (ten : Nat) : State :=
  let has := k == .upg && ((s.core c).l1? t.line).isSome
  let row := t.data.getD (s.homeValue t.line)
  let s := if k == .rfoz then s.clearLost t.line else s
  let s := s.setTrack t.line fun e => e.afterRfo c ten s.tick
  s.send c t.line false (.grant .m (if k == .rfoz || (has && t.data.isNone) then none else some row) (upTick s.cycle))

/-- Copies taken back by the home itself, for a store under DIR: the entry names nobody (R146), and a whole line has lost
its LOST mark (R149). -/
def State.recalled (s : State) (t : HomeTxn) : State :=
  if !t.req.dirStore then s
  else
  let s := if t.req.overwrites then s.clearLost t.line else s
  let s := match t.data with
    | some d => s.homeWrite t.line d
    | none => s
  s.setTrack t.line fun e => if e.isLine then { e with st := .i, sharers := [], coarse := false, mixed := false } else e

/-- Bytes written to an antecedent of mirror entries are written at their destinations as well (R43). -/
def State.mirror (s : State) (line off n : Nat) : State :=
  let row := s.homeRow line
  (s.mirrorOf (line + off) n).foldl (fun s e =>
    (List.range n).foldl (fun s i =>
      let a := line + off + i
      if e.abase ≤ a && a < e.abase + e.aext then
        let d := e.dbase + (a - e.abase)
        let s := s.trimLine (lineOf d)
        s.homeWrite (lineOf d) ((s.homeRow (lineOf d)).setByte (d % 128) (row.byte (off + i)))
      else s) s) s

/-- Accesses perform at the home copy of a line, which L2 holds from then on (R93). -/
def State.performHome (s : State) (line : Nat) (as : List Acc) (t : Gvt) : State :=
  let row := s.homeValue line
  let (row', s) := s.performAll row t as
  match spanOf as with
  | none => s.useL2 line
  | some (off, n) => (s.homeWrite line row').mirror line off n

/-- A store or atomic to a table line holds its time at every scope up to PKG, from its issue on (R39, R154). -/
def State.widen (s : State) (as : List Acc) : State :=
  as.foldl (fun s a => s.modGroup a.wg a.g fun gr => gr.modOp a.seq fun o =>
    if o.scope.covers .pkg then o else { o with scope := .pkg }) s

/-- The stamps after an LSE store that performs at tick tp. -/
def State.stampWrite (s : State) (line tp : Nat) : State :=
  match s.l2? line with
  | some l => s.setStamps line { l.stamps with ws := stampOf tp, lv := false }
  | none => s

/-- The stamps after an LSE read with lease n (R140), and the stamp the reply carries. -/
def State.lease (s : State) (line n : Nat) : BitVec 24 × State :=
  let s := if (s.l2? line).isNone then s.putL2 line (s.homeValue line) false else s
  match s.l2? line with
  | none => (0, s)
  | some l =>
    let e := stampOf (s.tick + n)
    let ls := if l.stamps.lv then laterStamp l.stamps.ls e else e
    (ls, s.setStamps line { l.stamps with ls := ls, lv := true })

/-- An L1 copy of an LSE line is valid (R142). -/
def L1Line.leased (l : L1Line) (now : Nat) : Bool := (l.stamp - stampOf now).toNat < 4096

/-- Whether a translation invalidation has reached the quad for a line the translation came from (R38), or it came from a
context table that sr.CTXBASE names no more (R24): what is filled through it may not stay. -/
def State.transGone (s : State) (core : Nat) (t : Trans) : Bool :=
  ((s.quad (quadOf core)).tinv.any fun x => x.arrived.isSome && t.via.contains x.line)
  || !t.via.contains (lineOf (s.descAddr t.ctx))

/-- Another virtual tag of a physical line in a quad's L1s (R35). -/
def State.synonyms (s : State) (core ctx vline line : Nat) : List (Nat × L1Line) :=
  (coresOfQuad (quadOf core)).flatMap fun c =>
    ((s.core c).l1d.filter fun l => l.line == line && !(l.ctx == ctx && l.vline == vline)).map fun l => (c, l)

/-- Older tags of a line go; dirty data goes home. -/
def State.dropSynonyms (s : State) (core ctx vline line : Nat) : State :=
  (s.synonyms core ctx vline line).foldl (fun s x =>
    let s := if x.2.st == .m || x.2.st == .o then s.putL2 line x.2.data true else s
    s.modCore x.1 fun c => { c with l1d := c.l1d.filter (· != x.2) }) s

/-- A line leaves an L1: modified and owned data goes through the write-back buffer, other states without a
message (R128). -/
def State.evictLine (s : State) (core : Nat) (l : L1Line) : State :=
  let s := s.modCore core fun c => { c with l1d := c.l1d.filter (· != l) }
  if l.st == .m || l.st == .o then
    let w : WbEnt := { line := l.line, data := l.data }
    (s.modCore core fun c => { c with wbuf := c.wbuf ++ [w] }).send core l.line true (.wb l.data)
  else s

/-- A line whose data no salvage area had room for (R147): it is pinned in its way. -/
def State.pinned (s : State) (l : L1Line) : Bool := (l.st == .m || l.st == .o) && s.isLost l.line

/-- Whether two virtual lines are of one set of an L1 (Table 4.1). -/
def sameSet (a b : Nat) : Bool := a / 128 % 128 == b / 128 % 128

/-- Places of an L1 data set that are taken: by lines, and by lines that are on their way (R126). -/
def Core.setUse (c : Core) (vline : Nat) : Nat :=
  (c.l1d.filter fun l => sameSet l.vline vline).length
  + (c.misses.filter fun m => sameSet m.vline vline && !(c.l1d.any fun l => l.ctx == m.ctx && l.vline == m.vline)).length

/-- The victim of an L1 set: the line used least recently that is not in a transient state and not pinned. The lines of a
core are kept in order of use, oldest first. DESIGN CHOICE (log 122): the manual's "pseudo-LRU" is the least recently
used. -/
def State.victim (s : State) (c : Core) (vline : Nat) : Option L1Line :=
  c.l1d.find? fun l => sameSet l.vline vline && !(c.misses.any (·.line == l.line)) && !s.pinned l

/-- A place for a line in its L1 set of 8 ways; none where every way is in a transient state or pinned. -/
def State.placeFor (s : State) (core ctx vline : Nat) : Option State :=
  let c := s.core core
  if (c.l1d.any fun l => l.ctx == ctx && l.vline == vline) || c.setUse vline < 8 then some s
  else (s.victim c vline).map fun v => s.evictLine core v

/-- A line of an L1 is used. -/
def State.touchL1 (s : State) (core ctx vline : Nat) : State :=
  let mine := fun (l : L1Line) => l.ctx == ctx && l.vline == vline
  s.modCore core fun c => { c with l1d := c.l1d.filter (fun l => !mine l) ++ c.l1d.filter mine }

/-- A line enters an L1, where there is a place for it. -/
def State.fillL1 (s : State) (core : Nat) (l : L1Line) : State :=
  let s := s.modCore core fun c => { c with l1d := c.l1d.filter fun k => !(k.ctx == l.ctx && k.vline == l.vline) }
  match s.placeFor core l.ctx l.vline with
  | some s => s.modCore core fun c => { c with l1d := c.l1d ++ [l] }
  | none => s

/-- An LSE read performs; the L1 keeps the copy while its lease lasts (R140, R142). -/
def State.serveLseRead (s : State) (line core n ctx vline : Nat) (tr : Trans) (as : List Acc) : State :=
  let row := s.homeValue line
  let (_, s) := s.performAll row .no as
  if n == 0 then s.useL2 line
  else
    let (ls, s) := s.lease line n
    if s.transGone core tr then s
    else
      let l : L1Line := { ctx := ctx, vline := vline, line := line, st := .lse, data := row, tr := tr,
                          stamp := ls, lastStore := 0 }
      (s.dropSynonyms core ctx vline line).fillL1 core l

/-- A reply to a peer. -/
def State.replyPeer (s : State) (peer tag : Nat) (bs : List Byte) (remaining : Nat) : State :=
  s.sendFlit peer (.reply tag bs remaining)

/-- A peer's access performs at the home (R168), a store of the treatment LSE at tick tp. -/
def State.servePeer (s : State) (line peer tag : Nat) (lse : Bool) (off n : Nat) (what : AccOp) (tp : Nat) : State :=
  let a : Acc := { wg := 0, g := 0, seq := 0, lane := 0, va := 0, k := 0, off := off, n := n, what := what }
  let (row, old, _) := a.apply (s.homeValue line)
  let s := if a.writes then (s.homeWrite line row).mirror line off n else s.useL2 line
  let s := if a.writes && lse then s.stampWrite line tp else s
  s.replyPeer peer tag old 0

/-- A peer's lease of a line (R144): the reply carries the line and the ticks that remain of the lease. -/
def State.serveLease (s : State) (line peer tag n : Nat) : State :=
  let row := s.homeValue line
  let (ls, s) := s.lease line n
  s.replyPeer peer tag row.bytes (stampTick s.tick ls - s.tick)

/-- A request that needs a line lost with a die (R149): its accesses perform nothing and fault. -/
def State.refuse (s : State) (line die : Nat) (r : HomeReq) : State :=
  match r with
  | .dir c _ _ => s.send c line false (.refuse die)
  | .peer p tag .. | .peerLse p tag _ => s.sendFlit p (.refusal tag)
  | r => s.lostAccs r.accs .homeLost die

/-- Whether the home refuses: it is lost, and the request is no store of the whole line that clears its mark. -/
def State.refuses (s : State) (line : Nat) (r : HomeReq) : Bool :=
  s.isLost line && !(r.overwrites && !s.dieLost line)

/-- A DIR request for ownership of a table line, or of a line with a mirrored antecedent, is performed at the
home as a store (R38, R43): the accesses of the core's miss go along. -/
def State.atHome (s : State) (line : Nat) (r : HomeReq) : HomeReq × State :=
  match r with
  | .dir c k _ =>
    if k != .rd && (s.isTable line || !(s.mirrorOf line 128).isEmpty) then
      match (s.core c).miss? line with
      | some m => (.tableStore c .dir m.accs, s.modCore c fun x => { x with misses := x.misses.filter (· != m) })
      | none => (r, s)
    else (r, s)
  | r => (r, s)

/-- A request starts at an idle line. -/
def State.startTxn (s : State) (line : Nat) (r : HomeReq) (queue : List HomeReq) : State :=
  let (r, s) := s.atHome line r
  let t : HomeTxn := { line := line, req := r, wait := .antecedent, data := none, answers := [], exact := false
                       heldWb := none, queue := queue }
  { s with homes := s.homes ++ [t] }

/-- The request at a line is over; the next one starts. -/
def State.endTxn (s : State) (line : Nat) : State :=
  match s.txn? line with
  | none => s
  | some t =>
    let s := { s with homes := s.homes.filter (·.line != line) }
    match t.queue with
    | [] => s
    | r :: q => s.startTxn line r q

/-- A request is served at the end of its stages. -/
def State.serve (s : State) (t : HomeTxn) : State :=
  match t.req with
  | .dir c .rd ten => (s.serveRd t c ten).endTxn t.line
  | .dir c k ten => (s.serveRfo t c k ten).endTxn t.line
  | .lseRead c n ctx vline tr as => (s.serveLseRead t.line c n ctx vline tr as).endTxn t.line
  | .unc _ as =>
    if isReg t.line then
      (as.foldl (fun s a =>
        let m := Master.ctx (((s.wg? a.wg).map (·.ctx)).getD 0)
        let (bs, s) := s.devAccess m (t.line - regBase + a.off) a
        s.performed a bs 0 (.later (upTick s.cycle))) s).endTxn t.line
    else
      let s := match t.data with
        | some row => (s.performAll row .no as).2
        | none => s.performHome t.line as (.later (upTick s.cycle))
      s.endTxn t.line
  | .atomic _ as => ((s.recalled t).performHome t.line as (.now (upTick s.cycle))).endTxn t.line
  | .tableStore _ _ as =>
    (((s.recalled t).performHome t.line as (.later (upTick s.cycle))).forgetFaults).endTxn t.line
  | .lseStore _ as =>
    let tp := s.performTick t.line
    if s.tick < tp then
      let s := as.foldl (fun s a => if a.writes then s.modGroup a.wg a.g (·.giveTime a.seq (.later tp)) else s) s
      s.modTxn t.line fun t => { t with wait := .perform tp }
    else ((s.performHome t.line as (.later (upTick s.cycle))).stampWrite t.line tp).endTxn t.line
  | .peerLse p tag n => (s.serveLease t.line p tag n).endTxn t.line
  | .peer p tag lse off n what =>
    let tp := s.performTick t.line
    if lse && s.tick < tp && (match what with | .load => false | _ => true) then
      s.modTxn t.line fun t => { t with wait := .perform tp }
    else (s.servePeer t.line p tag lse off n what tp).endTxn t.line
  | .round => s.endTxn t.line

/-- One stage of a request, or none where it must wait for an event. -/
def State.stage (s : State) (t : HomeTxn) : Option State :=
  let go := fun (w : HomeWait) (s : State) => some (s.modTxn t.line fun t => { t with wait := w })
  match t.wait with
  | .antecedent =>
    if s.refuses t.line t.req then some ((s.refuse t.line (homeDie t.line) t.req).endTxn t.line)
    else match t.req.span with
      | none => go .copies s
      | some (off, n) =>
        if (s.anteOf (t.line + off) n).isEmpty && !s.mirrorResolving t.line off n then go .table s else none
  | .table => if (s.translated? [t.line]).isSome then none else go .destination s
  | .tinv qs => if qs.isEmpty then go (if t.req == .round then .ready else .destination) s else none
  | .destination => if (s.windowsOf t.line).isEmpty then go .copies s else none
  | .copies =>
    if !t.req.isDir then go .redirect s
    else match s.trackFor t.line t.req with
      | .busy r => s.begin? r
      | .lost => none
      | .ok (exact, s) =>
        match s.track? t.line with
        | none => go .redirect s
        | some e =>
          let ps := e.probes t.req exact
          (go (.acks (ps.map (·.1))) (s.sendProbes t.line e ps)).map fun s => s.modTxn t.line fun t => { t with exact := exact }
  | .acks cs => if cs.isEmpty then go .redirect s else none
  | .redirect => if t.req.reads && t.data.isNone && s.redirects t.line then none else go .ready s
  | .ready => some (s.serve t)
  | .perform _ => none

/-- The line's requests go as far as they can. -/
def State.runHome (s : State) (line : Nat) : Nat → State
  | 0 => s
  | n + 1 => match s.txn? line with
    | none => s
    | some t => match s.stage t with
      | none => s
      | some s => s.runHome line n

/-- Stages left for the requests at a line. -/
def State.homeFuel (s : State) (line : Nat) : Nat :=
  match s.txn? line with
  | none => 0
  | some t => 10 * (t.queue.length + 1)

/-- Requests that wait for room in a directory slice go on where there is some (R135). -/
def State.settleRest (s : State) : State :=
  ((s.homes.filter (·.wait == .copies)).map (·.line)).foldl (fun s l => s.runHome l (s.homeFuel l)) s

/-- The line's requests go on, and with them those that wait for room. -/
def State.settleHome (s : State) (line : Nat) : State := (s.runHome line (s.homeFuel line)).settleRest

/-- A request arrives at the home of its line (R129): it starts, or waits behind the one in progress. -/
def State.arrive (s : State) (line : Nat) (r : HomeReq) : State :=
  match s.txn? line with
  | some _ => s.modTxn line fun t => { t with queue := t.queue ++ [r] }
  | none => (s.startTxn line r []).settleHome line

/-! ### Events at the home -/

/-- Requests of one cycle reach a line by ascending core number (R129). -/
def State.inOrder (s : State) (core line : Nat) : Bool :=
  !s.arrivals.any fun a => a.1 == line && a.2.1 == s.cycle && core < a.2.2

/-- A request of a kind that has reached the home of a line from a core. -/
def State.arriveReq (s : State) (core line : Nat) (p : HomeReq → Bool) : Option State :=
  match s.take? core line true with
  | some (.req r, s) =>
    if p r && s.inOrder core line then
      some ({ s with arrivals := (line, s.cycle, core) :: s.arrivals.filter (·.2.1 == s.cycle) }.arrive line r)
    else none
  | _ => none

def isDirKind (k : ReqKind) : HomeReq → Bool
  | .dir _ j _ => j == k
  | _ => false
def isLseRead : HomeReq → Bool
  | .lseRead .. => true
  | _ => false
def isLseStore : HomeReq → Bool
  | .lseStore .. => true
  | _ => false
def isUnc : HomeReq → Bool
  | .unc .. => true
  | _ => false
def isAtomic : HomeReq → Bool
  | .atomic .. => true
  | _ => false

/-- WB (Table 6.3, R130): held while a forward to the core is outstanding; else the owner's data enters L2. -/
def State.wbArrive (s : State) (core line : Nat) : Option State :=
  match s.take? core line true with
  | some (.wb d, s) =>
    let held := match s.txn? line with
      | some { wait := .acks cs, .. } => cs.contains core
      | _ => false
    if held then some (s.modTxn line fun t => { t with heldWb := some core })
    else
      let s := match s.track? line with
        | some e =>
          if (e.st == DirSt.x || e.st == DirSt.o) && e.owner == core then
            let s := s.putL2 line d true
            if e.isLine then
              s.setTrack line fun e =>
                if e.st == DirSt.o then { e with st := .s } else { e with st := .i, sharers := [], coarse := false }
            else s
          else s
        | none => s
      some (s.send core line false .wbAck)
  | _ => none

/-- INV_ACK: an acknowledgement or a forward answer. A held write-back is dropped and acknowledged. -/
def State.ackArrive (s : State) (core line : Nat) : Option State :=
  match s.take? core line true with
  | some (.answer held data fromWb, s) =>
    let a : Answer := { core := core, held := held, fromWb := fromWb }
    let s := match s.txn? line with
      | some { heldWb := some c, .. } => if c == core then s.send core line false .wbAck else s
      | _ => s
    let s := s.modTxn line fun t =>
      { t with
        wait := match t.wait with
          | .acks cs => .acks (cs.erase core)
          | w => w
        answers := t.answers ++ [a]
        data := match data with
          | some d => some d
          | none => t.data
        heldWb := if t.heldWb == some core then none else t.heldWb }
    some (s.settleHome line)
  | _ => none

/-- ANTECEDENT_WRITE: the affected entries go RESOLVING; once none is left, the write goes on. -/
def State.antecedentStep (s : State) (line : Nat) : Option State :=
  match s.txn? line with
  | some { wait := .antecedent, req := r, .. } => match r.span with
    | none => none
    | some (off, n) =>
      let es := s.anteOf (line + off) n
      if es.isEmpty then (if s.mirrorResolving line off n then none else some (s.settleHome line))
      else if es.all (·.st == .resolving) then none
      else some { s with pn := s.pn.map fun e =>
          if !e.mirror && e.anteMeets (line + off) n then { e with st := .resolving } else e }
  | _ => none

/-- DESTINATION_WRITE: the line is resolved and its windows lose it; a RESOLVING entry is waited for. -/
def State.destinationStep (s : State) (line : Nat) : Option State :=
  match s.txn? line with
  | some { wait := .destination, req := r, .. } =>
    if s.resolvingAt line then none
    else match s.lackAt line, s.translated? ((s.spills line).filter (· != line)) with
    | some l, _ => some (((s.refuse line (homeDie l) r).endTxn line).settleHome line)
    | none, some l => s.begin? (some l)
    | none, none => some ((s.trimLine line).settleHome line)
  | _ => none

/-- REDIRECTED_READ: the line's values are formed through its windows, and their heat rises. L2 keeps the
line, but not for an UNC read. -/
def State.redirectStep (s : State) (line : Nat) : Option State :=
  match s.txn? line with
  | some { wait := .redirect, req := r, .. } =>
    if !s.redirects line then none
    else match s.lackAt line with
    | some l => some (((s.refuse line (homeDie l) r).endTxn line).settleHome line)
    | none =>
      let row := s.homeValue line
      let s := s.heatLine line
      let s := if isUnc r then s.modTxn line fun t => { t with data := some row } else s.putL2 line row false
      some (s.settleHome line)
  | _ => none

/-- TABLE_LINE_STORE: invalidations go to every translation sharer (R38, step 2). -/
def State.tableStep (s : State) (line : Nat) : Option State :=
  match s.txn? line with
  | some { wait := .table, .. } =>
    let (qs, s) := s.sendTinv line
    some ((s.modTxn line fun t => { t with wait := .tinv qs }).settleHome line)
  | _ => none

/-- TRANSLATION_INVALIDATION at a quad (steps 3 and 4). -/
def State.tinvStep (s : State) (quad line : Nat) : Option State :=
  if (s.quad quad).tinv.any fun x => x.line == line && x.arrived.isNone then
    let s := s.tinvAt line quad
    some ((s.modQuad quad fun u => { u with
      tinv := modWhere (·.line == line) (fun x => { x with arrived := some s.cycle }) u.tinv
      faults := [] }))
  else none

/-- TRANSLATION_ACK (steps 5 to 7): no sooner than 40 cycles after the arrival, and when every access under
the old translations has completed. -/
def State.tackStep (s : State) (quad line : Nat) : Option State :=
  match (s.quad quad).tinv.find? (·.line == line) with
  | some { arrived := some c, .. } =>
    if s.cycle < c + 40 || !s.drained line quad then none
    else
      let s := s.modQuad quad fun u => { u with tinv := u.tinv.filter (·.line != line) }
      let s := s.modTxn line fun t => { t with wait := match t.wait with
        | .tinv qs => .tinv (qs.erase quad)
        | w => w }
      some (s.settleHome line)
  | _ => none

/-- LSE_PERFORM: at its tick the waiting store writes the home copy (R141). -/
def State.lseStep (s : State) (line : Nat) : Option State :=
  match s.txn? line with
  | some { wait := .perform tp, req := r, .. } =>
    if s.tick < tp then none
    else
      let s := match r with
        | .peer p tag lse off n what => s.servePeer line p tag lse off n what tp
        | r => (s.performHome line r.accs .no).stampWrite line tp
      some ((s.endTxn line).settleHome line)
  | _ => none

/-! ### Events at a core -/

/-- Whether a probe passes the core's filter (R97, R136): an EXACT one does; another one where a bank holds its
tenancy. -/
def State.probePasses (s : State) (core : Nat) (exact : Bool) (tenancy : Nat) : Bool :=
  exact || (s.core core).tenancy.1 == some tenancy || (s.core core).tenancy.2 == some tenancy

/-- Whether a probe looks at lines of a context: an EXACT one at all; another one at those of its tenancy. -/
def State.probeSees (s : State) (core : Nat) (exact : Bool) (tenancy : Nat) (ctx : Nat) : Bool :=
  exact || (s.probePasses core exact tenancy && s.tenancyOf ctx == tenancy)

/-- A core without its DIR copies of the line under the contexts a probe looks at. -/
def Core.dropSeen (c : Core) (line : Nat) (sees : Nat → Bool) : Core :=
  { c with l1d := c.l1d.filter fun l => l.line != line || l.st == .lse || !sees l.ctx
           l1i := c.l1i.filter fun l => l.line != line || !sees l.ctx }

/-- A probe arrives at a core and is answered (R128, R130). Grants sent before it have arrived before it. DESIGN CHOICE
(log 130): a forward that reaches a core whose own request is still queued at the home is answered "no copy" (R128) at
once, since the grant that R130 has it wait for comes only after that answer. -/
def State.probeStep (s : State) (core line : Nat) (p : ProbeKind) : Option State :=
  match s.take? core line false with
  | some (.probe k exact ten, s) =>
    if k != p then none
    else
      let c := s.core core
      let sees := s.probeSees core exact ten
      match c.l1d.find? (fun l => l.line == line && l.st != .lse && sees l.ctx) with
      | some l =>
        let dirty := l.st == .m || l.st == .o
        let data := if dirty || p != .inv then some l.data else none
        let s := match p with
          | .fwdRd =>
            let shared := { l with st := if dirty then L1St.o else L1St.s }
            s.modCore core fun c => { c with l1d := modWhere (· == l) (fun _ => shared) c.l1d }
          | _ => s.modCore core (·.dropSeen line sees)
        some (s.send core line true (.answer (some l.st) (if p == .inv && !dirty then none else data) false))
      | none => match c.wbuf.find? (fun w => w.line == line && s.probePasses core exact ten) with
        | some w => some (s.send core line true (.answer (some .m) (if p == .inv then none else some w.data) true))
        | none =>
          let fetch := c.l1i.any fun l => l.line == line && sees l.ctx
          let s := if p == .fwdRd then s else s.modCore core (·.dropSeen line sees)
          some (s.send core line true (.answer (if fetch && p == .fwdRd then some .s else none) none false))
  | _ => none

/-- The accesses of a miss perform on a granted line, loads first in their order; a store that meets a line
granted in Shared asks for ownership (R131). -/
def splitLoads : List Acc → List Acc × List Acc
  | [] => ([], [])
  | a :: as => if a.isLoad then let (x, y) := splitLoads as; (a :: x, y) else ([], a :: as)

/-- GRANT: the core writes its L1, its waiting accesses perform, and what stores returns the home's time. A
refused request faults its accesses (R149). -/
def State.grantStep (s : State) (core line : Nat) : Option State :=
  match s.take? core line false with
  | some (.refuse die, s) =>
    match (s.core core).miss? line with
    | none => some s
    | some m =>
      let s := s.modCore core fun c => { c with misses := c.misses.filter (· != m) }
      some (s.lostAccs m.accs .homeLost die)
  | some (.grant st data gvt, s) =>
    match (s.core core).miss? line with
    | none => some s
    | some m =>
      let s := s.modCore core fun c => { c with misses := c.misses.filter (· != m) }
      let s := s.dropSynonyms core m.ctx m.vline line
      let row := data.getD (((s.core core).l1? line).map (·.data) |>.getD (s.homeRow line))
      let (now, later) := if st == .s then splitLoads m.accs else (m.accs, [])
      let wrote := now.any (·.writes)
      let s := if st == .m then s.modCore core (·.dropCode line) else s
      let time := if st == .m then gvt else upTick s.cycle
      let (row, s) := s.performAll row (.now time) now
      let st := if wrote then L1St.m else st
      let l : L1Line := { ctx := m.ctx, vline := m.vline, line := line, st := st, data := row, tr := m.tr,
                          stamp := 0, lastStore := s.tick }
      -- under a translation that is gone nothing is kept; stores that are left ask for ownership again
      let gone := s.transGone core m.tr
      let s := if gone then (if st == .m then s.putL2 line row true else s) else s.fillL1 core l
      if later.isEmpty then some s
      else
        let k := if gone then ReqKind.rfo else .upg
        let m : Miss := { m with kind := k, accs := later }
        let s := s.modCore core fun c => { c with misses := c.misses ++ [m] }
        some (s.send core line true (.req (.dir core k (s.tenancyOf m.ctx))))
  | _ => none

/-- WB_ACK frees a write-back buffer entry. -/
def State.wbAckStep (s : State) (core line : Nat) : Option State :=
  match s.take? core line false with
  | some (.wbAck, s) => some (s.modCore core fun c => { c with wbuf := (match takeFirst (fun w : WbEnt => w.line == line) c.wbuf with
      | some (_, r) => r
      | none => c.wbuf) })
  | _ => none

/-- CLEAN_PROBE (R94, R95): an owner whose line no store has written for AGE ticks returns its data. -/
def State.cleanStep (s : State) (core line : Nat) : Option State :=
  match s.take? core line false with
  | some (.clean, s) =>
    let age := max 1 (bitsOf (s.die (homeDie line)).rakectl.toNat 19 8)
    match (s.core core).l1? line with
    | some l =>
      if (l.st == .m || l.st == .o) && l.lastStore + age ≤ s.tick then
        let s := s.putL2 line l.data true
        let clean := { l with st := if l.st == L1St.m then L1St.e else L1St.s }
        let s := s.modCore core fun c => { c with l1d := modWhere (· == l) (fun _ => clean) c.l1d }
        if l.st == .o then
          some (s.setTrack line fun e =>
            if e.isLine && e.st == .o && e.owner == core then { e with st := .s }.addSharer core else e)
        else some s
      else some s
    | none => some s
  | _ => none

/-- LEASE_EXPIRY: an LSE copy whose stamp has passed leaves without a message (R142). -/
def State.leaseStep (s : State) (core line : Nat) : Option State :=
  if (s.core core).l1d.any (fun l => l.line == line && l.st == .lse && !l.leased s.tick) then
    some (s.modCore core fun c => { c with l1d := c.l1d.filter fun l => !(l.line == line && l.st == .lse) })
  else none

/-! ### The Raker's scan of a line (R94 to R96, R134, R143) -/

/-- Whether two entries are the halves of one aligned range. -/
def TrackEnt.sibling (a b : TrackEnt) : Bool :=
  a.slice == b.slice && a.k == b.k && a.k < 16 && a.base / 2 ^ (a.k + 1) == b.base / 2 ^ (b.k + 1) && a.base != b.base

/-- QUIET (Table 6.5). -/
def TrackEnt.quiet (t : TrackEnt) (now : Nat) : Nat := min 4096 (now - t.quietAt)

/-- The union of two sharer sets: exact where it has at most four cores, else coarse. -/
def unionSharers (a b : TrackEnt) : List Nat × Bool :=
  let cs := (a.sharerCores ++ b.sharerCores).eraseDups
  if !a.coarse && !b.coarse && cs.length ≤ 4 then (cs, false)
  else if cs.length ≤ 4 then (cs, false) else ((cs.map (· / 16)).eraseDups, true)

/-- TRACKING_MERGE (R134, Table 6.6). -/
def TrackEnt.merge (a b : TrackEnt) : Option TrackEnt :=
  let whole := { a with k := a.k + 1, base := min a.base b.base }
  let (sh, coarse) := unionSharers
    (if a.st == .s || a.st == .o then a else { a with sharers := [], coarse := false })
    (if b.st == .s || b.st == .o then b else { b with sharers := [], coarse := false })
  let own := fun (t : TrackEnt) => t.st == .x || t.st == .o
  if !own a && !own b then
    some { whole with st := if a.st == .i && b.st == .i then .i else .s, sharers := sh, coarse := coarse }
  else if a.st == .i && own b then some { b with k := whole.k, base := whole.base }
  else if b.st == .i && own a then some { a with k := whole.k, base := whole.base }
  else if own a && own b && a.owner == b.owner then
    some { whole with
      st := if a.st == .x && b.st == .x then .x else .o
      owner := a.owner, sharers := sh, coarse := coarse, ownAt := max a.ownAt b.ownAt }
  else none

/-- Two quiet halves merge. -/
def State.mergeAt (s : State) (line : Nat) : State :=
  match s.track? line with
  | none => s
  | some a => match s.dir.find? (fun b => a.sibling b) with
    | none => s
    | some b =>
      let ok := fun (t : TrackEnt) => t.quiet s.tick == 4096 && !t.mixed && t.tshare.isEmpty && !t.table && !s.entryBusy t
      if ok a && ok b && a.tenancy == b.tenancy then
        match (if a.base < b.base then a.merge b else b.merge a) with
        | some m => { s with dir := m :: s.dir.filter fun t => t != a && t != b }
        | none => s
      else s

/-- The Raker cleans a dirty line of L2: its data goes to HBM. -/
def State.rakerClean (s : State) (line : Nat) : State :=
  match s.l2? line with
  | some l => if l.dirty then
      { s with mem := Memory.write s.mem line l.data.bytes
               l2 := modWhere (·.line == line) (fun l => { l with dirty := false }) s.l2 }
    else s
  | none => s

/-- The Raker asks the owner of an aged line, with room for requests, to clean it. -/
def State.rakerAsk (s : State) (age line : Nat) : State :=
  match s.track? line with
  | some t =>
    if (t.st == DirSt.x || t.st == DirSt.o) && t.ownAt + age < s.tick && s.quiet line && s.requestsOf t.owner < 3584 then
      s.send t.owner line false .clean
    else s
  | none => s

/-- RAKER_SCAN of one line of its die: L2 cleaning, a clean probe to an aged owner, merging, and stamps. -/
def State.rakerStep (s : State) (die line : Nat) : Option State :=
  if homeDie line != die || 8 ≤ die || (s.die die).fenced then none
  else
    let x := (s.die die).rakectl.toNat
    let runs := bitsOf x 0 0 == 1 && bitsOf x 23 20 != 0
    let s := if runs && bitsOf x 1 1 == 1 then s.rakerClean line else s
    let s := if runs && bitsOf x 2 2 == 1 then s.rakerAsk (max 1 (bitsOf x 19 8)) line else s
    some ((s.mergeAt line).ageStamps line)

/-! ### Accesses leave a core -/

/-- A line an instruction touches: its place, its translation and the accesses of the lanes, in lane order. -/
structure LineReq where
  ctx : Nat
  vline : Nat
  line : Nat
  tr : Trans
  accs : List Acc
  deriving DecidableEq, Repr

/-- How a core takes a line's accesses. -/
inductive Sent1 where
  | ok (s : State)
  | wait
  deriving DecidableEq, Repr

/-- Whether a group has an atomic at the home of a line in flight: its other accesses to the line wait. -/
def State.homeAtomicOf (s : State) (h g line : Nat) : Bool :=
  (s.msgs.any fun m => m.line == line && (match m.kind with
    | .req (.atomic _ as) => as.any fun a => a.wg == h && a.g == g && !s.byEngine a
    | _ => false))
  || s.homes.any fun t => t.line == line && (t.req :: t.queue).any fun r => match r with
    | .atomic _ as | .tableStore _ _ as => as.any fun a => a.wg == h && a.g == g && !s.byEngine a
    | _ => false

/-- A DIR access that L1 serves, or a request for the line (Table 6.2). -/
def State.sendDir (s : State) (core : Nat) (r : LineReq) : Sent1 :=
  let c := s.core core
  let h := (r.accs.head?.map (·.wg)).getD 0
  let g := (r.accs.head?.map (·.g)).getD 0
  let loads := r.accs.all (·.isLoad)
  if s.homeAtomicOf h g r.line then .wait
  else match c.miss? r.line with
    | some m =>
      if !(m.ctx == r.ctx && m.vline == r.vline) then .wait
      else match c.l1d.find? (fun l => l.ctx == r.ctx && l.vline == r.vline) with
        | some l =>
          if loads && !(m.accs.any fun a => a.wg == h && a.g == g) then
            .ok ((s.touchL1 core r.ctx r.vline).performAll l.data .no r.accs).2
          else .ok (s.modCore core fun c => { c with misses := modWhere (· == m) (fun m => { m with accs := m.accs ++ r.accs }) c.misses })
        | none => .ok (s.modCore core fun c => { c with misses := modWhere (· == m) (fun m => { m with accs := m.accs ++ r.accs }) c.misses })
    | none =>
      let ask := fun (s : State) (k : ReqKind) =>
        let m : Miss := { line := r.line, ctx := r.ctx, vline := r.vline, kind := k, tr := r.tr, accs := r.accs }
        match s.placeFor core r.ctx r.vline with
        | none => Sent1.wait
        | some s => .ok ((s.modCore core fun c => { c with misses := c.misses ++ [m] }).send core r.line true
            (.req (.dir core k (s.tenancyOf r.ctx))))
      match c.l1d.find? (fun l => l.ctx == r.ctx && l.vline == r.vline && l.st != .lse) with
      | some l =>
        if loads then .ok ((s.touchL1 core r.ctx r.vline).performAll l.data .no r.accs).2
        else if l.st == .m || l.st == .e then
          let (row, s) := (s.touchL1 core r.ctx r.vline).performAll l.data (.now (upTick s.cycle)) r.accs
          let l' := { l with st := L1St.m, data := row, lastStore := s.tick }
          .ok (s.modCore core fun c => { c.dropCode r.line with
            l1d := modWhere (fun k => k.ctx == r.ctx && k.vline == r.vline) (fun _ => l') c.l1d })
        else ask s .upg
      | none =>
        if (coresOfQuad (quadOf core)).any fun d => (s.core d).misses.any fun m =>
            m.line == r.line && !(m.ctx == r.ctx && m.vline == r.vline) then .wait
        else
          ask (s.dropSynonyms core r.ctx r.vline r.line) (if loads then .rd else if wholeLine r.accs then .rfoz else .rfo)

/-- A flit that waits for its reply goes to the peer of a line. -/
def State.askPeer (s : State) (core line ctx vline : Nat) (tr : Option Trans) (lease : Nat) (accs : List Acc) (f : Nat → Flit) :
    State :=
  let p := look Peer.empty s.peers (peerOf line)
  let x : PeerAcc := { tag := p.nextSeq, core := core, line := line, ctx := ctx, vline := vline, tr := tr, accs := accs
                       lease := lease, sentAt := s.tick, done := none }
  ({ s with peers := put s.peers (peerOf line) { p with waiting := p.waiting ++ [x] } }).sendFlit (peerOf line) (f p.nextSeq)

/-- The flit of one lane's access to a peer's line, under the treatment LSE or UNC. -/
def Acc.flit (a : Acc) (line : Nat) (lse : Bool) (lease tag : Nat) : Flit :=
  let pa := line % 2 ^ 41 + a.off
  match a.what with
  | .load => if lse && lease != 0 then .lseRead tag (line % 2 ^ 41) lease else .load tag pa a.n
  | .store bs => .store tag pa lse bs
  | .atom op ty b c => .atom tag pa lse op ty b c

/-- An access to a peer's memory leaves over Zilber transport (R168, R144). -/
def State.sendPeer (s : State) (core : Nat) (r : LineReq) (lease : Nat) : State :=
  r.accs.foldl (fun s a => s.askPeer core r.line r.ctx r.vline (some r.tr) lease [a]
    (a.flit r.line (r.tr.attr.coh == .lse) lease)) s

/-- A store of an engine's operation to a line leaves for where its treatment performs it (R87, R124, R141, R145): at the
home, or at a peer. The operation owes its time. -/
def State.sendStore (s : State) (core : Nat) (coh : Coh) (line : Nat) (a : Acc) : State :=
  let s := s.modGroup a.wg a.g fun gr => gr.modOp a.seq fun o => { o with todo := o.todo + 1, owed := o.owed + 1 }
  let s := if s.isTable line then s.widen [a] else s
  if isPeer line then s.askPeer core line 0 0 none 0 [a] (a.flit line (coh == .lse) 0)
  else s.arrive line (match coh with
    | .dir => .atomic core [a]
    | .lse => .lseStore core [a]
    | .unc => .unc core [a])

/-- An LSE access: a load hits a valid copy, unless its group has an operation on the line in flight; a store
updates the copy, and is sent to the home (Table 4.6, R141, R142). -/
def State.sendLse (s : State) (core : Nat) (r : LineReq) (lease : Nat) : Sent1 :=
  let h := (r.accs.head?.map (·.wg)).getD 0
  let g := (r.accs.head?.map (·.g)).getD 0
  let seq := (r.accs.head?.map (·.seq)).getD 0
  let loads := r.accs.all (·.isLoad)
  let copy := (s.core core).l1d.find? fun l => l.ctx == r.ctx && l.vline == r.vline && l.st == .lse
  let valid := copy.any (·.leased s.tick)
  match copy with
  | some l =>
    if loads && valid && !(s.pendingOn h g seq r.line) then .ok ((s.touchL1 core r.ctx r.vline).performAll l.data .no r.accs).2
    else if loads then
      let s := s.modCore core fun c => { c with l1d := c.l1d.filter (· != l) }
      go s loads
    else
      let plain := r.accs.all fun a => match a.what with | .store _ => true | _ => false
      let s := if valid && plain then
          let l' := { l with data := r.accs.foldl (fun row a => (a.apply row).1) l.data }
          s.modCore core fun c => { c with l1d := modWhere (· == l) (fun _ => l') c.l1d }
        else if valid then s.modCore core fun c => { c with l1d := c.l1d.filter (· != l) } else s
      go s loads
  | none => go s loads
where
  go (s : State) (loads : Bool) : Sent1 :=
    if isPeer r.line then .ok (s.sendPeer core r lease)
    else if loads then
      .ok (s.send core r.line true (.req (.lseRead core lease r.ctx r.vline r.tr r.accs)))
    else .ok (s.send core r.line true (.req (.lseStore core r.accs)))

/-- The accesses of one line leave for where its treatment performs them (Tables 4.6, 6.1, 6.9). `wide`: an
atomic of scope QUAD or wider. -/
def State.sendLine (s : State) (core : Nat) (r : LineReq) (lease : Nat) (wide : Bool) : Sent1 :=
  match r.tr.attr.coh with
  | .dir =>
    if wide then
      let h := (r.accs.head?.map (·.wg)).getD 0
      let g := (r.accs.head?.map (·.g)).getD 0
      if (s.core core).misses.any fun m => m.line == r.line && m.accs.any fun a => a.wg == h && a.g == g then .wait
      else .ok (s.send core r.line true (.req (.atomic core r.accs)))
    else s.sendDir core r
  | .lse => s.sendLse core r lease
  | .unc => if isPeer r.line then .ok (s.sendPeer core r 0) else .ok (s.send core r.line true (.req (.unc core r.accs)))

end Sys2Proof.Machine
end

