-- ==== Sys2Proof/Machine/Fetch.lean ====
section
/-!
DEFINITION. Fetching an instruction (R46, R89, R239): the checks of its address and pages, its one or two
lines through the L1 instruction cache, and the path's fetch buffer.
-/
namespace Sys2Proof.Machine

/-- How a fetch ends. -/
inductive FetchRes where
  | ok (w : BitVec 96) (s : State)
  | walk (as : List Ask)
  | fault (f : LaneFault)
  | busy
  deriving DecidableEq, Repr

/-- The probes of a read, made and answered at once: an owner in M or O supplies and is in O, one in E goes to S, and an
invalidated core has no copy any more (Table 6.3). -/
def State.probeNow (s : State) (line : Nat) : List (Nat × ProbeKind) → List Answer × State
  | [] => ([], s)
  | (c, k) :: ps =>
    let held := match (s.core c).l1d.find? (fun l => l.line == line && l.st != .lse) with
      | some l => some l.st
      | none => if (s.core c).l1i.any (·.line == line) then some L1St.s else none
    let shared := fun (l : L1Line) => if l.line == line && l.st != .lse then
      { l with st := if l.st == .m || l.st == .o then L1St.o else .s } else l
    let t := s.modCore c fun x => if k == .fwdRd then { x with l1d := x.l1d.map shared } else x.dropLine line
    let (as, t) := t.probeNow line ps
    ({ core := c, held := held, fromWb := false } :: as, t)

/-- A line enters an instruction cache of 4 ways, in place of the one of its set used least recently (log 122). -/
def Core.fillI (c : Core) (l : ILine) : Core :=
  let rest := c.l1i.filter fun k => !(k.ctx == l.ctx && k.vline == l.vline)
  let set := rest.filter fun k => k.vline / 128 % 128 == l.vline / 128 % 128
  let rest := if set.length < 4 then rest else match set.head? with
    | some v => rest.erase v
    | none => rest
  { c with l1i := rest ++ [l] }

/-- A line is used in the instruction cache: its lines are kept in order of use, oldest first. -/
def Core.touchI (c : Core) (l : ILine) : Core := { c with l1i := c.l1i.erase l ++ [l] }

/-- A line is filled from its home for a fetch, as a DIR read of its core (R89, R127). -/
def State.fillFetch (s : State) (core ctx vline line : Nat) (tr : Trans) : Coll (Row × State) :=
  let req := HomeReq.dir core .rd (s.tenancyOf ctx)
  if s.isLost line || (s.redirects line && (s.lackAt line).isSome) then .lost
  else if !s.quiet line then .busy none
  else match s.trackFor line req with
    | .lost => .lost
    | .busy r => .busy r
    | .ok (exact, s) => match s.track? line with
      | none => .busy none
      | some e =>
        let v := s.coherentRow line
        let s := if (s.owner? line).isSome then s
          else if s.redirects line then (s.heatLine line).putL2 line v false else s.useL2 line
        let (as, s) := s.probeNow line (e.probes req exact)
        let owner := fun (a : Answer) => (e.st == .x || e.st == .o) && a.core == e.owner
        let e' := e.afterRd core (s.tenancyOf ctx) s.tick (s.sharedOnly line) exact (as.find? owner) (as.filter (!owner ·))
        let l : ILine := { ctx := ctx, vline := vline, line := line, data := v, tr := tr }
        .ok (v, (s.setTrack line fun _ => e'.1).modCore core (·.fillI l))

/-- What the instruction cache holds for an address. -/
def Core.iline? (c : Core) (ctx va : Nat) : Option ILine :=
  c.l1i.find? fun l => l.ctx == ctx && l.vline == va / 128 * 128

/-- The translation a fetch of one line uses: of the cached line, or of the quad. -/
def State.findFetch (s : State) (core ctx va : Nat) (sup : Bool) : Found :=
  match (s.core core).iline? ctx va with
  | some l =>
    if !l.tr.attr.permits .exec sup then .fault .perm 0
    else if s.isLost l.line then .fault .homeLost (homeDie l.line)
    else .tr l.tr
  | none => s.find core ctx va .exec sup false

/-- Bytes of a fetch from its checked lines. -/
def State.fetchBytes (s : State) (core ctx : Nat) : List (Nat × Nat × Trans) → Coll (List Byte × State)
  | [] => .ok ([], s)
  | (va, n, t) :: r =>
    let got := match (s.core core).iline? ctx va with
      | some l => Coll.ok (l.data, s.modCore core (·.touchI l))
      | none => s.fillFetch core ctx (va / 128 * 128) (lineOf (t.physOf va)) t
    match got with
    | .busy r => .busy r
    | .lost => .lost
    | .ok (row, s) => match s.fetchBytes core ctx r with
      | .ok (bs, s) => .ok ((List.range n).map (fun i => row.byte (va % 128 + i)) ++ bs, s)
      | x => x

/-- The instruction word at an address. -/
def State.fetch (s : State) (core ctx : Nat) (sup : Bool) (pc : Nat) : FetchRes :=
  let flt := fun (c : Cause) (i : Nat) => FetchRes.fault { cause := c, info := i, addr := pc }
  if 2 ^ 55 ≤ pc then flt .addrForm 0
  else match windowOfRange pc 12 with
    | .hole => flt .windowHole 0
    | .localMem | .cluster | .priv => flt .perm 0
    | .global =>
      let found := (lineCuts pc 2 12).map fun c => (c, s.findFetch core ctx c.1 sup)
      let walks := found.filterMap fun f => match f.2 with
        | .miss => some (pageOf f.1.1)
        | _ => none
      let faults := found.filterMap fun f => match f.2 with
        | .fault c i => some (c, i)
        | _ => none
      if !walks.isEmpty then .walk (walksOf core ctx .exec sup walks)
      else match faults.foldl (fun (b : Option (Cause × Nat)) f => match b with
          | none => some f
          | some g => if f.1.code < g.1.code then some f else some g) none with
        | some (c, i) => flt c i
        | none =>
          let ls := found.filterMap fun f => match f.2 with
            | .tr t => some (f.1.1, f.1.2, t)
            | _ => none
          match s.useAll core false (ls.map (·.2.2)) with
          | .wait [] => .busy
          | .wait as => .walk as
          | .ok u => match u.fetchBytes core ctx (ls.map fun l => (l.1, l.2.1, { l.2.2 with aknown := true })) with
          | .busy (some l) => .walk [.round l]
          | .busy none => .busy
          | .lost => flt .homeLost (homeDie ((ls.head?.map fun l => l.2.2.physOf l.1).getD 0))
          | .ok (bs, s) => .ok (wordOfBytes bs) s

/-- The word a fetch buffer holds for an address. -/
def bufWord (b : List (Nat × BitVec 96)) (pc : Nat) : Option (BitVec 96) := (b.find? (·.1 == pc)).map (·.2)

/-- A fetch buffer of four that receives a word; the oldest leaves. -/
def bufPut (b : List (Nat × BitVec 96)) (pc : Nat) (w : BitVec 96) : List (Nat × BitVec 96) :=
  let r := b.filter (·.1 != pc) ++ [(pc, w)]
  r.drop (r.length - 4)

/-- Fetches ahead of a path, at most `n` instructions from `pc`; one that cannot be made now, or that faults, is
left for later (R46). -/
def State.fetchAhead (s : State) (h g p pc : Nat) : Nat → State
  | 0 => s
  | n + 1 =>
    match s.wg? h, s.group? h g with
    | some w, some gr =>
      if (bufWord (gr.path p).fbuf pc).isSome then s.fetchAhead h g p (pc + 12) n
      else match s.fetch gr.core w.ctx gr.sup pc with
        | .ok x s => (s.modGroup h g (·.modPath p fun q => { q with fbuf := bufPut q.fbuf pc x })).fetchAhead h g p (pc + 12) n
        | _ => s
    | _, _ => s

end Sys2Proof.Machine
end

