-- ==== Sys2Proof/Machine/Flags.lean ====
section
/-!
DEFINITION. The sticky flags of sr.XFLAGS and the trap on an enabled one (R222, R223), and the ash list (R224
to R226, Table 10.6).
-/
namespace Sys2Proof.Machine

/-! ### Flags -/

/-- Flags by lane as a row. -/
def flagRow (fl : List (Nat × Word)) : Row :=
  fl.foldl (fun (r : Row) e => r.setLane e.1 (r.lane e.1 ||| e.2)) 0

/-- Flags raised in sr.XFLAGS; nothing clears one. -/
def Group.raiseFlags (gr : Group) (fl : List (Nat × Word)) : Group :=
  { gr with sr := { gr.sr with xflags := gr.sr.xflags ||| flagRow fl } }

/-- The enabled flags among some raised ones, and the lanes that raised them. -/
def Group.enabledFlags (gr : Group) (fl : List (Nat × Word)) : Word × Mask :=
  let on := fl.filter fun e => e.2 &&& gr.sr.trapen &&& 0x3F != 0
  (on.foldl (fun w e => w ||| (e.2 &&& gr.sr.trapen &&& 0x3F)) 0, Mask.ofLanes (on.map (·.1)))

/-- The same flags in every lane of a mask (R222, R332). -/
def flagsOver (m : Mask) (fl : Word) : List (Nat × Word) :=
  if fl == 0 then [] else (Mask.lanes m).map fun l => (l, fl)

/-! ### The ash list -/

/-- DFMT of a type (Table 10.6): types 0 to 8 by their code, U8 9, U32 10, U64 11, S16 12, U16 13. -/
def dfmtOf (t : Ty) : Nat := t.code.toNat

/-- The 16 bytes of a record. -/
def AshRec.bytes (a : AshRec) (pc tick : Nat) : List Byte :=
  bytesOfNat 16 (pc % 2 ^ 64 * 2 ^ 64 + a.elem % 2 ^ 10 * 2 ^ 54 + a.lane % 32 * 2 ^ 49 + a.kind.code * 2 ^ 46
    + a.dfmt % 16 * 2 ^ 42 + tick % 2 ^ 24)

/-- How many of n records fit between sr.ASHBASE and sr.ASHLIM. -/
def Group.ashRoom (gr : Group) (n : Nat) : Nat :=
  min n ((gr.sr.ashlim.toNat - gr.sr.ashbase.toNat) / 16)

/-- Pages whose translation n records wait for: the append waits for their walks. -/
def State.ashPages (s : State) (ctx : Nat) (gr : Group) (n : Nat) : List Nat :=
  match s.chkRange gr.core ctx gr.sup .write true gr.sr.ashbase.toNat (16 * gr.ashRoom n) with
  | .walk ps => ps
  | _ => []

/-- The records of one instruction are appended in order; the flags are AO in the lane of each record that is
dropped. A line that cannot be reached now makes the whole append wait. -/
def State.appendAsh (s : State) (h g pc : Nat) (recs : List AshRec) : VRes (State × List (Nat × Word)) :=
  match recs with
  | [] => .ok (s, [])
  | r :: rest =>
    match s.wg? h, s.group? h g with
    | some w, some gr =>
      let base := gr.sr.ashbase.toNat
      let dropped := fun (s : State) => match appendAsh s h g pc rest with
        | .ok (s, fl) => VRes.ok (s, (r.lane, flAO) :: fl)
        | x => x
      let past := fun (s : State) => s.modGroup h g fun gr =>
        { gr with sr := { gr.sr with ashbase := gr.sr.ashbase + 16 } }.raiseH .sys (upTick s.cycle)
      if gr.sr.ashlim.toNat < base + 16 then dropped s
      else match s.vRecord h w gr base (r.bytes pc s.tick) with
        | .ok s => appendAsh (past s) h g pc rest
        | .fault f =>
          if f.cause == .homeLost && (s.lookTrans gr.core w.ctx base).isSome then dropped (past s) else dropped s
        | .walk as => .walk as
        | .busy => .busy
    | _, _ => .ok (s, [])

end Sys2Proof.Machine
end

