-- ==== Sys2Proof/Machine/Issue.lean ====
section
/-!
DEFINITION. Issuing an instruction: who may issue (R206, R212, R379), the execution mask (R209, R249), the
checks every instruction meets in the order of R377, its Q operands (R187), and how it ends: completed in
order, handed on, stalled, or trapped.
-/
namespace Sys2Proof

/-! ### Facts about instructions -/

def Instr.ctl : Instr → Ctl
  | .nop c | .bra c .. | .brx c .. | .jmp c .. | .reconv c .. | .call c .. | .callr c ..
  | .ret c .. | .exit c | .mov c .. | .iadd c .. | .isub c .. | .imul c .. | .imulh c ..
  | .imad c .. | .idiv c .. | .irem c .. | .imin c .. | .imax c .. | .iabs c .. | .and c ..
  | .or c .. | .xor c .. | .not c .. | .shl c .. | .shr c .. | .shra c .. | .popc c .. | .clz c ..
  | .brev c .. | .bfe c .. | .bfi c .. | .lea c .. | .sel c .. | .icmp c .. | .rng c ..
  | .fadd c .. | .fsub c .. | .fmul c .. | .ffma c .. | .fmin c .. | .fmax c .. | .fabs c ..
  | .fcmp c .. | .fdiv c .. | .fsqrt c .. | .frcp c .. | .frsq c .. | .fexp2 c .. | .flog2 c ..
  | .fsin c .. | .fcos c .. | .ftanh c .. | .fclass c .. | .cvt c .. | .frnd c .. | .pkcvt c ..
  | .unpk c .. | .pand c .. | .por c .. | .pxor c .. | .pmov c .. | .shfl c .. | .shflup c ..
  | .shfldn c .. | .shflx c .. | .voteall c .. | .voteany c .. | .ballot c .. | .redadd c ..
  | .redmin c .. | .redmax c .. | .redand c .. | .redor c .. | .scanadd c .. | .matchLanes c ..
  | .ld c .. | .ldWait c .. | .ldTake c .. | .ldPeek c .. | .st c .. | .stWait c .. | .stTake c ..
  | .stPeek c .. | .pref c .. | .atom c .. | .fence c .. | .bar c .. | .waitc c .. | .stageIn c ..
  | .stageOut c .. | .cjoin c .. | .cleave c .. | .copy c .. | .copyxT2d c .. | .copyxPack c ..
  | .copyxUnpack c .. | .copyxHadq c .. | .resolve c .. | .pnq c .. | .pndrop c .. | .mloadRow c ..
  | .mloadFact c .. | .mloadBlk c .. | .mstoreRow c .. | .mstoreFact c .. | .mma c .. | .madd c ..
  | .recomp c .. | .mdense c .. | .mrankGet c .. | .mrankCap c .. | .mzero c .. | .mmov c ..
  | .aload c .. | .astore c .. | .azero c .. | .amov c .. | .xformQ c .. | .xformDq c ..
  | .xformHad c .. | .decodeBlk c .. | .admitSeq c .. | .admitRel c .. | .kvapp c .. | .kvld c ..
  | .kvseal c .. | .span c .. | .spanret c .. | .window c .. | .rope c .. | .nest c ..
  | .apsend c .. | .apermit c .. | .launch c .. | .trap c .. | .eret c | .eretRetry c | .svc c ..
  | .getsr c .. | .setsr c .. | .bkpt c .. | .sample c .. | .rgive c .. | .rclaim c .. => c
  | .notAnInstruction w => (Raw.ofWord w).ctl
  | _ => Ctl.none

/-- The role that an engine instruction needs besides ANY (Table 8.6). -/
def Instr.roleCode : Instr → Option Nat
  | .copy .. | .copyxT2d .. | .copyxPack .. | .copyxUnpack .. | .copyxHadq .. | .resolve .. | .pndrop ..
  | .xformQ .. | .xformDq .. | .xformHad .. | .decodeBlk .. => some 1
  | .mloadRow .. | .mloadFact .. | .mloadBlk .. | .mstoreRow .. | .mstoreFact .. | .mma .. | .madd ..
  | .recomp .. | .mdense .. | .mrankGet .. | .mrankCap .. | .mzero .. | .mmov .. | .aload .. | .astore ..
  | .azero .. | .amov .. => some 2
  | .ld .. | .ldWait .. | .ldTake .. | .ldPeek .. | .st .. | .stWait .. | .stTake .. | .stPeek ..
  | .pref .. | .atom .. | .kvld .. | .rope .. => none
  | i => if i.laneBound then some 3 else none

/-- The engine counter an instruction counts in (R157). -/
def Instr.ctrClass : Instr → Option CtrClass
  | .copy .. | .copyxT2d .. | .copyxPack .. | .copyxUnpack .. | .copyxHadq .. | .resolve .. | .pndrop ..
  | .stageOut .. => some .copy
  | .xformQ .. | .xformDq .. | .xformHad .. | .decodeBlk .. => some .xform
  | .mloadRow .. | .mloadFact .. | .mloadBlk .. | .mstoreRow .. | .mstoreFact .. | .mma .. | .madd ..
  | .recomp .. | .mdense .. | .mrankGet .. | .mrankCap .. | .mzero .. | .mmov .. | .aload .. | .astore ..
  | .azero .. | .amov .. => some .matrix
  | .admitSeq .. | .admitRel .. | .kvapp .. | .kvld .. | .kvseal .. | .span .. | .spanret .. | .window ..
  | .rope .. => some .token
  | _ => none

/-- Memory, engine and token instructions, which wait while the core has no request left (R72). -/
def Instr.asksMemory (i : Instr) : Bool :=
  i.ctrClass.isSome || (match i with
    | .ld .. | .ldWait .. | .ldTake .. | .ldPeek .. | .st .. | .stWait .. | .stTake .. | .stPeek ..
    | .pref .. | .atom .. | .stageIn .. | .pnq .. | .launch .. => true
    | _ => false)

/-- Uniform transfers, which may not diverge (R269). -/
def Instr.uniform : Instr → Bool
  | .bra .. | .jmp .. | .call .. | .callr .. | .ret .. => true
  | _ => false

/-- A source the access processor's ICMP accepts (R184). -/
def Opnd.isSOrImm : Opnd → Bool
  | .s .. | .imm _ => true
  | _ => false

/-- What the access processor executes (R184, R274). -/
def Instr.apRuns (i : Instr) : Bool :=
  match i with
  | .nop _ | .bra .. | .jmp .. | .call .. | .callr .. | .ret .. | .exit _ | .fence .. | .nest .. | .apsend ..
  | .apermit .. | .hintRegionWord _ => true
  | .brx c .. => !c.hint.split
  | .icmp _ _ _ _ a b => a.isSOrImm && b.isSOrImm
  | .mov .. | .iadd .. | .isub .. | .imul .. | .imulh .. | .imad .. | .idiv .. | .irem .. | .imin .. | .imax ..
  | .iabs .. | .and .. | .or .. | .xor .. | .not .. | .shl .. | .shr .. | .shra .. | .popc .. | .clz ..
  | .brev .. | .bfe .. | .bfi .. | .lea .. | .sel .. | .rng .. => !i.laneBound
  | .ld .. | .ldWait .. | .ldTake .. | .ldPeek .. | .st .. | .stWait .. | .stTake .. | .stPeek .. | .pref ..
  | .atom .. => !i.laneBound && i.srcs.all (fun u => !u.o.isV u.n) && i.dsts.all (fun u => !u.o.isV u.n)
  | _ => false

/-- Two instructions that may issue as one pair (R207). -/
def Instr.pairs (i j : Instr) : Bool :=
  let vec := fun (k : Instr) => k.roleCode == some 3
  let vs := fun (us : List Use) => us.flatMap fun u => (u.regs false)
  let vr := fun (us : List Use) => us.filterMap fun u => match u.o with
    | .v _ _ n => some n.toNat
    | _ => none
  let late := fun (k : Instr) => match k with
    | .cvt .. | .frnd .. | .pkcvt .. | .unpk .. | .pand .. | .por .. | .pxor .. | .pmov .. | .shfl .. | .shflup ..
    | .shfldn .. | .shflx .. | .voteall .. | .voteany .. | .ballot .. | .redadd .. | .redmin .. | .redmax ..
    | .redand .. | .redor .. | .scanadd .. | .matchLanes .. => true
    | _ => false
  let reads := vr i.srcs ++ vr j.srcs
  vec i && vec j && (i.srcs ++ j.srcs).all (fun u => u.o.portOf.isNone)
  && !((vs j.srcs).any fun r => (vs i.dsts).contains r) && !((vs j.dsts).any fun r => (vs i.dsts).contains r)
  && (match j.ctl.guard with
      | .pred _ p => !(vs i.dsts).contains (.p p.toNat)
      | .always => true)
  && decide (reads.length ≤ 4)
  && (List.range 4).all (fun k => decide ((reads.filter fun n => n % 4 == k).length ≤ 2))
  && !(late i && late j)

end Sys2Proof

namespace Sys2Proof.Machine

/-! ### Who may issue -/

/-- A wait that is decided again when the path issues. -/
def Wait.again : Wait → Bool
  | .op _ | .claim | .barrier => false
  | _ => true

/-- Whether a bank holds the core and may issue (R212). -/
def Front.issues (f : Front) (shadow : Bool) (now : Nat) : Bool :=
  match f with
  | .primary => !shadow
  | .toPrimary e => !shadow && decide (e ≤ now)
  | .shadow => shadow
  | .toShadow e => shadow && decide (e ≤ now)

/-- Whether a group issues at all: started, not ended, halted, killed or stopping, and its core runs its bank. -/
def State.groupRuns (s : State) (w : Workgroup) (gr : Group) : Bool :=
  gr.started && !gr.ended && !gr.halted && w.kill.isNone && w.evict == .no
  && !(s.halting.any fun x => x.wg == w.handle && x.g == gr.gid)
  && (s.core gr.core).front.issues w.shadow (s.clock gr.core)
  && (!w.shadow || (s.core gr.core).tenancy.2 == some w.tenancy)
  && !(s.core gr.core).fenced && !(s.quad (quadOf gr.core)).fenced && !(s.die (dieOf gr.core)).fenced

/-- The lowest path that is not FREE. -/
def Group.lowestPath (gr : Group) : Option Nat := (List.range 4).find? fun p => (gr.path p).st != .free

/-- The path that takes a pending cause: the issuing one, or where that is free, and for a cause of the access
processor, the lowest one that is not (R379, R381). -/
def Group.taker (gr : Group) (c : PendCause) : Option Nat :=
  if !c.ap && (gr.path c.path).st != .free then some c.path else gr.lowestPath

/-- A path stands at an instruction boundary. -/
def Path.atBoundary (q : Path) : Bool :=
  match q.st with
  | .ready => true
  | .blocked => q.wait.all (·.again)
  | _ => false

/-- Whether a path may issue now. -/
def State.pathRuns (s : State) (w : Workgroup) (gr : Group) (p : Nat) : Bool :=
  let q := gr.path p
  s.groupRuns w gr && q.atBoundary && (q.slotted || decide (q.notBefore ≤ s.clock gr.core)) && (!q.hold || q.stepOnce)
  && (if gr.sup then gr.supPath == p else !(gr.pend.any fun c => gr.taker c == some p))

/-- Whether the access processor may issue now. -/
def State.apRuns (s : State) (w : Workgroup) (gr : Group) : Bool :=
  s.groupRuns w gr && gr.ap.st == .running && gr.ap.wait.all (·.again)

/-! ### The beginning of an instruction -/

/-- What the checks of an instruction lead to: it does not issue, or the step is done, or it goes on. -/
inductive Begin where
  | refuse (r : Refusal)
  | broken (what : String)
  | out (s : State)
  | go (x : Iss)
  deriving DecidableEq, Repr

/-- The issuer of the next instruction, with its whole mask. The access processor has one lane. -/
def State.issuer (s : State) : Begin :=
  match s.cur with
  | .none => .refuse .noIssuer
  | .path h g p => match s.wg? h with
    | none => .broken "workgroup"
    | some w => match w.group? g with
      | none => .broken "group"
      | some gr =>
        if s.pathRuns w gr p then
          .go { s := s, h := h, g := g, p := p, ap := false, w := w, gr := gr, m := (gr.path p).mask,
                x := (gr.path p).mask, pc := (gr.path p).pc, q := [] }
        else .refuse .notReady
  | .ap h g => match s.wg? h with
    | none => .broken "workgroup"
    | some w => match w.group? g with
      | none => .broken "group"
      | some gr =>
        if s.apRuns w gr then
          .go { s := s, h := h, g := g, p := apPath, ap := true, w := w, gr := gr, m := 1, x := 1,
                pc := gr.ap.pc, q := [] }
        else .refuse .notReady

namespace Iss
variable (x : Iss)

/-- The path waits at the instruction. -/
def block (w : Wait) (s : State) : State :=
  s.modGroup x.h x.g fun gr =>
    if x.ap then { gr with ap := { gr.ap with wait := some w } }
    else gr.modPath x.p fun q => { q with st := .blocked, wait := some w }

/-- A cause is raised: the path enters the handler, or the access processor stops. -/
def raiseIn (s : State) (r : Raise) : State :=
  if x.ap then s.modGroup x.h x.g (·.apFault r.cause r.info r.faddr)
  else (s.modGroup x.h x.g fun gr => gr.modPath x.p fun q => { q with stepOnce := false }).raise x.h x.g x.p r

/-- A cause of the whole path, before any change. DESIGN CHOICE (log 133): the active lanes that P31 reports are those of the
path, also for a guarded instruction. -/
def whole (c : Cause) (info : Nat := 0) (cls : RestartClass := .group) : Raise :=
  { cls := cls, cause := c, info := info, p31 := x.m }

/-- The lanes whose guard passes. -/
def guardMask (c : Ctl) : Mask :=
  match c.guard with
  | .always => BitVec.allOnes 32
  | .pred inv p =>
    let v : Mask := if x.ap then (if x.gr.ap.p.getLsbD p.toNat then BitVec.allOnes 32 else 0) else x.gr.pred p.toNat
    if inv then ~~~ v else v

/-- The producer a guard predicate waits for: it is interlocked (R194). -/
def guardWait (c : Ctl) : Option Nat :=
  match c.guard with
  | .always => none
  | .pred _ p =>
    let r := if x.ap then Reg.app p.toNat else Reg.p p.toNat
    if x.gr.isFull r then none else some (x.gr.producer r)

/-- The execution mask (R209); under a retry it is limited to the lanes that are retried (R369). -/
def masked (i : Instr) : Iss :=
  let again := if i.laneBound then ((x.gr.path x.p).retry).getD (BitVec.allOnes 32) else BitVec.allOnes 32
  { x with x := x.m &&& x.guardMask i.ctl &&& (if x.ap then BitVec.allOnes 32 else again) }

/-! Q operands. -/

/-- What the ports give an instruction's Q operands, or the operand that lacks a word: its field, its port and
its E flag. -/
inductive Took where
  | ok (q : List (Nat × List Word)) (ports : List Port)
  | lack (f j : Nat) (e : Bool)
  deriving DecidableEq, Repr

/-- Words pop in the order of the operands, each its whole width (R187). With `dry`, an operand whose port has
too few words pops nothing. -/
def takeQ (dry : Bool) : List Use → List Port → Took
  | [], ps => .ok [] ps
  | u :: us, ps => match u.o.portOf with
    | none => takeQ dry us ps
    | some j =>
      let ws := ((ps[j]?).map (·.words)).getD []
      if ws.length < u.n then if dry then takeQ dry us ps else .lack u.f j u.o.eFlag
      else match takeQ dry us (modAt (fun p => { p with words := p.words.drop u.n }) ps j) with
        | .ok q ps => .ok ((u.f, ws.take u.n) :: q) ps
        | r => r

/-- The group with the instruction's words popped. -/
def popped (i : Instr) : Group :=
  match takeQ false i.srcs x.gr.ports with
  | .ok _ ps => { x.gr with ports := ps }
  | .lack .. => x.gr

/-- The cycle of the issuing core's clock. -/
def now : Nat := x.s.clock x.gr.core

/-- A path that has issued: its age, its stall count (R208), its single step. An instruction that waited in its issue
slot issued when it took it. -/
def issued (i : Instr) (q : Path) : Path :=
  if (x.gr.path x.p).slotted then { q with stepOnce := false }
  else { q with
    notBefore := x.now + 1 + i.ctl.hint.stall.toNat, ageFrom := x.now + (if i.ctl.hint.yield then 64 else 0)
    stepOnce := false }

/-- The path has issued the instruction and waits in it. -/
def waitIn (i : Instr) (w : Wait) (s : State) : State :=
  s.modGroup x.h x.g fun gr =>
    if x.ap then { gr with ap := { gr.ap with wait := some w } }
    else gr.modPath x.p fun q => { x.issued i q with
      st := .blocked, wait := some w, slotted := true, stepOnce := w.again && (x.gr.path x.p).stepOnce }

/-- The issuer goes on behind the instruction. -/
def onward (i : Instr) (gr : Group) : Group :=
  if x.ap then { gr with ap := { gr.ap with pc := (x.pc + 12) % 2 ^ 64, wait := none, fenceAt := none } }
  else gr.modPath x.p fun q => x.issued i q.advance

/-- The issuer goes on at `pc` with an empty fetch buffer (R89). -/
def jump (i : Instr) (pc : Nat) (gr : Group) : Group :=
  if x.ap then { gr with ap := { gr.ap with pc := pc, wait := none, fenceAt := none, fbuf := [] } }
  else gr.modPath x.p fun q => { x.issued i (q.goTo pc).flush with retry := none }

/-- The scheduler drops an instruction with SKIP: no issue, and no port is popped (R209). -/
def drop : State := x.s.modGroup x.h x.g fun gr => gr.modPath x.p fun q => { q.advance with stepOnce := false }

/-- An instruction whose execution mask is empty pops its Q operands and goes on (R209). -/
def skipOver (i : Instr) (srcs : List Use) : State :=
  if i.ctl.hint.skip && !x.ap then x.drop
  else if i.ctl.hint.skip then x.s.setGroup x.h x.g (x.onward i x.gr)
  else
    let exited := x.gr.ap.st == ApSt.exited
    match takeQ exited srcs x.gr.ports with
    | .ok _ ps => x.s.setGroup x.h x.g (x.onward i { x.gr with ports := ps })
    | .lack .. => x.block .port x.s

/-! The checks of R377 after the encoding causes. -/

/-- The least of some fields in the order D, A, B, C. -/
def lowField (fs : List Nat) : Option Nat := (List.range 4).find? fs.contains

/-- A V operand beyond the holding (R189). -/
def unheld (i : Instr) : Option Nat :=
  lowField ((i.dsts ++ i.srcs).filterMap fun u => match u.o with
    | .v _ _ n => if x.gr.vHeld n.toNat u.n then none else some u.f
    | _ => none)

/-- An S operand beyond the access processor's 128 registers. -/
def apBeyond (i : Instr) : Option Nat :=
  lowField ((i.dsts ++ i.srcs).filterMap fun u => match u.o with
    | .s _ _ n => if n.toNat + u.n ≤ 128 then none else some u.f
    | _ => none)

/-- Whether a source raises REG_EMPTY in place of waiting: predicates are interlocked, MRANK.CAP waits for its tile, and E
of a destination that is read as well, the accumulator of MMA, is ignored. -/
def eager (i : Instr) (u : Use) : Bool :=
  match u.o, i with
  | .p .., _ => false
  | _, .mrankCap .. | _, .mma .. => u.f != 0 && u.o.eFlag
  | o, _ => o.eFlag

/-- Empty source registers: field, register, E. -/
def empties (i : Instr) : List (Nat × Reg × Bool) :=
  i.srcs.flatMap fun u => ((u.regs x.ap).filter fun r => !x.gr.isFull r).map fun r => (u.f, r, eager i u)

/-- Limits that an instruction waits for at issue (R72, R157). -/
def limited (i : Instr) : Bool :=
  (i.ctrClass.any fun k => decide (255 ≤ x.gr.counter k)) || (i.asksMemory && decide (4096 ≤ x.s.requestsOf x.gr.core))

/-- The Q operands are taken, and the limits met. -/
def beginQ (i : Instr) : Begin :=
  match takeQ false i.srcs x.gr.ports with
  | .lack f j e =>
    if x.gr.ap.st == .exited then .out (x.raiseIn x.s (x.whole .queueDry j))
    else if e then .out (x.raiseIn x.s (x.whole .regEmpty f))
    else .out (x.block .port x.s)
  | .ok q _ => if x.limited i then .out (x.block .requests x.s) else .go { x with q := q }

/-- Holdings, then full/empty bits. -/
def beginRegs (i : Instr) : Begin :=
  match if x.ap then none else x.unheld i with
  | some f => .out (x.raiseIn x.s (x.whole .regUnheld f))
  | none => match (x.empties i).find? (fun e => !e.2.2) with
    | some e => .out (x.block (.reg (x.gr.producer e.2.1)) x.s)
    | none => match lowField ((x.empties i).map (·.1)) with
      | some f => .out (x.raiseIn x.s (x.whole .regEmpty f))
      | none => x.beginQ i

/-- The rights of the issuer: divergence, role, the access processor's instructions. -/
def beginRole (i : Instr) : Begin :=
  let g := x.m &&& x.guardMask i.ctl
  if x.ap then
    match apBeyond i with
    | some f => .out (x.raiseIn x.s (x.whole .illegalOpd f))
    | none => if i.apRuns then x.beginRegs i else .out (x.raiseIn x.s (x.whole .apIllegal))
  else if i.uniform && g != 0 && g != x.m then .out (x.raiseIn x.s (x.whole .braDiverge))
  else if i.roleCode.any fun r => x.gr.role != 0 && x.gr.role != r then .out (x.raiseIn x.s (x.whole .roleEngine))
  else match i with
    | .nest .. | .apsend .. => .out (x.raiseIn x.s (x.whole .apOnly))
    | i => x.beginRegs i

/-- From the issuer to an instruction that has passed every check common to all. -/
def start (i : Instr) : Begin :=
  match x.guardWait i.ctl with
  | some pc => .out (x.block (.reg pc) x.s)
  | none =>
    let x := x.masked i
    if i.laneBound && x.x == 0 then .out (x.skipOver i i.srcs) else x.beginRole i

/-! ### The end of an instruction -/

/-- Registers an instruction writes. -/
def dstRegs (i : Instr) : List Reg := i.dsts.flatMap fun u => u.regs x.ap

/-- An instruction completes in order: results, flags and ash records, then the trap on an enabled flag or the
next instruction (R223, R224). -/
def complete (i : Instr) (gr : Group) (fl : List (Nat × Word)) (ash : List AshRec) : State :=
  let pages := x.s.ashPages x.w.ctx x.gr ash.length
  if !ash.isEmpty && !pages.isEmpty then
    x.waitIn i .walk (x.s.askWalks x.gr.core x.w.ctx .write x.gr.sup pages)
  else
    let gr := ({ gr with ports := (x.popped i).ports }).markFull (x.dstRegs i)
    match (x.s.setGroup x.h x.g gr).appendAsh x.h x.g x.pc ash with
    | .ok (s, ao) =>
      let fl := fl ++ ao
      let s := s.modGroup x.h x.g (·.raiseFlags fl)
      let (w, m) := gr.enabledFlags fl
      if m == 0 then s.modGroup x.h x.g (x.onward i)
      else if x.ap then x.raiseIn (s.modGroup x.h x.g (x.onward i)) { x.whole .arith w.toNat with p31 := m }
      else x.raiseIn s { cls := .after, cause := .arith, info := w.toNat, p31 := m }
    | .walk as => x.waitIn i .walk (x.s.asks as)
    | _ => x.waitIn i .busy x.s

/-- How a meaning's result ends the step. -/
def finish (i : Instr) (r : Res) : Out :=
  match r with
  | .done gr fl ash => .next (x.complete i gr fl ash)
  | .state s => .next s
  | .stall w s => .next (x.waitIn i w s)
  | .trap r => .next (x.raiseIn x.s r)

/-- Operations in flight that precede the instruction in program order (R151). -/
def priorOps : List Nat := (x.gr.ops.filter (·.paths.contains x.p)).map (·.seq)

/-- The operation of an instruction that goes on after its issue. -/
def newOp (i : Instr) (dst : List Reg) : Op :=
  { seq := x.gr.nextSeq, path := x.p, pc := x.pc, instr := i, mask := x.m, x := x.x, scope := .sys,
    cls := i.ctrClass, isLoad := false, isStore := false, isAtom := false, qual := .none, todo := 0, owed := 0,
    acks := [], dst := dst, res := [], got := 0, landed := dst.isEmpty, pend := 0, stat := 0, fl := 0,
    cause := none, leafs := [], args := [], rows := [], fin := true, segs := [], step := 0, gvt := 0,
    paths := [x.p], prior := x.priorOps }

/-- Whether an operation on its way to a bank precedes the instruction (R151, R160, R161). -/
def precedes (b : BankOp) : Bool := b.acc.wg == x.h && b.acc.g == x.g && x.priorOps.contains b.acc.seq

/-- The operation is entered: words popped, destinations empty, its counter raised. -/
def enterOp (i : Instr) (o : Op) : Group :=
  let gr := (x.popped i).markEmpty o.dst o.seq o.pc
  let gr := { gr with nextSeq := gr.nextSeq + 1, ops := gr.ops ++ [o] }
  match o.cls with
  | some k => gr.raiseCtr k
  | none => gr

/-- The operation is entered and the path goes on. -/
def launchOp (i : Instr) (o : Op) : State := x.s.setGroup x.h x.g (x.onward i (x.enterOp i o))

/-- The operation is entered and the path waits for it. -/
def holdOp (i : Instr) (o : Op) : State :=
  let gr := x.enterOp i o
  let w := some (Wait.op o.seq)
  x.s.setGroup x.h x.g (if x.ap then { gr with ap := { gr.ap with wait := w } }
    else gr.modPath x.p fun q => { x.issued i q with st := .blocked, wait := w })

end Iss

/-- The beginning of an instruction. -/
def State.begin (s : State) (i : Instr) : Begin :=
  match s.issuer with
  | .go x => x.start i
  | r => r

/-- An instruction executes for the current issuer: the common checks, then its own effect. -/
def issue (i : Instr) (s : State) (body : Iss → Res) : Out :=
  match s.begin i with
  | .refuse r => .refused r
  | .broken w => .fault (.broken w)
  | .out s => .next s
  | .go x => x.finish i (body x)

/-- A step of an event: it happens, or nothing is pending. -/
def event (name : String) (r : Option State) : Out :=
  match r with
  | some s => .next s
  | none => .refused (.notPending name)

end Sys2Proof.Machine
end

