-- ==== Sys2Proof/Machine/ApQueues.lean ====
section
/-!
DEFINITION. The access processor's instructions and the queue ports (R185 to R188, R363 to R365).
-/
namespace Sys2Proof.Machine

/-! ### The NEST record (Table 8.8) -/

/-- The record in registers S(n) to S(n+7), register k by `r k`. -/
structure NestRec where
  ext : List Nat
  depth : Nat
  port : Nat
  two : Bool
  stride0 : List Int
  stride1 : List Int
  deriving DecidableEq, Repr

def nestRec (r : Nat → Nat) : NestRec :=
  let half := fun (k : Nat) => r (k / 2) / 2 ^ (16 * (k % 2)) % 2 ^ 16
  let stride := fun (k : Nat) => signExt 16 (half k)
  { ext := (List.range 5).map half
    depth := bitsOf (r 2) 18 16
    port := bitsOf (r 2) 20 19
    two := bitsOf (r 2) 21 21 == 1
    stride0 := (List.range 5).map fun l => stride (6 + l)
    stride1 := (List.range 5).map fun l => stride (11 + l) }

def Ap.nestRec (a : Ap) (n : Nat) : NestRec := Machine.nestRec fun k => (look 0 a.s (n + k)).toNat

namespace NestRec
variable (r : NestRec)
/-- NEST_FORMAT: DEPTH beyond 1 to 5, or an extent of 0 at a used level. -/
def bad : Bool := r.depth == 0 || decide (5 < r.depth) || (r.ext.take r.depth).any (· == 0)
/-- The word of an index vector for an operand (R186). -/
def word (idx : List Nat) (opnd : Nat) : Word :=
  let st := if opnd == 0 then r.stride0 else r.stride1
  BitVec.ofInt 32 ((List.range r.depth).foldl (fun (t : Int) l => t + (idx.getD l 0 : Int) * st.getD l 0) 0)
/-- The next index vector, level 0 fastest; none after the last. -/
def next (idx : List Nat) : Nat → Nat → Option (List Nat)
  | 0, _ => none
  | n + 1, l =>
    if idx.getD l 0 + 1 < r.ext.getD l 0 then some (modAt (· + 1) idx l)
    else next (modAt (fun _ => 0) idx l) n (l + 1)
end NestRec

/-! ### Pushes (R188) -/

/-- Whether a port takes a word: it holds fewer than 64, and has a permit. -/
def Port.takes (p : Port) : Bool := decide (p.words.length < 64) && decide (0 < p.permits)

def Port.push (p : Port) (w : Word) : Port := { words := p.words ++ [w], permits := p.permits - 1 }

/-- NEST: the processor waits in it while NEST_PUSH pushes word after word. A NEST whose place is kept goes on from
there (R364). -/
def nestBody (a : Opnd) (x : Iss) : Res :=
  if (x.gr.ap.nestRec a.idx).bad then .trap (x.whole .nestFormat)
  else
    let place : NestPlace := match x.gr.ap.nest with
      | some n => { n with reg := a.idx }
      | none => { reg := a.idx, idx := [0, 0, 0, 0, 0], opnd := 0 }
    .stall .port (x.s.setGroup x.h x.g { x.gr with ap := { x.gr.ap with nest := some place } })

def execNest (c : Ctl) (a : Opnd) (s : State) : Out := issue (.nest c a) s (nestBody a)

/-- The group after a push of NEST. -/
def Group.nestPush (gr : Group) (n : NestPlace) : Group :=
  let r := gr.ap.nestRec n.reg
  let gr := gr.modPort r.port (·.push (r.word n.idx n.opnd))
  if r.two && n.opnd == 0 then { gr with ap := { gr.ap with nest := some { n with opnd := 1 } } }
  else match r.next n.idx r.depth 0 with
    | some idx => { gr with ap := { gr.ap with nest := some { n with idx := idx, opnd := 0 } } }
    | none => { gr with ap := { gr.ap with nest := none, wait := none, pc := (gr.ap.pc + 12) % 2 ^ 64 } }

/-- NEST_PUSH. -/
def State.nestStep (s : State) (h g : Nat) : Option State :=
  match s.wg? h, s.group? h g with
  | some w, some gr => match gr.ap.nest with
    | none => none
    | some n =>
      if s.groupRuns w gr && gr.ap.st == .running && gr.ap.wait == some .port && (gr.port (gr.ap.nestRec n.reg).port).takes then
        some (s.setGroup h g (gr.nestPush n))
      else none
  | _, _ => none

def execNestPush (h g : Nat) (s : State) : Out := event "NEST_PUSH" (s.nestStep h g)

/-- APSEND waits as a push does. -/
def apsendBody (i : Instr) (j : Nat) (b : Opnd) (x : Iss) : Res :=
  if (x.gr.port j).takes then
    .state (x.s.setGroup x.h x.g (x.onward i (x.gr.modPort j (·.push (BitVec.ofNat 32 (x.word 2 b))))))
  else .stall .port x.s

def execApsend (c : Ctl) (q : BitVec 2) (b : Opnd) (s : State) : Out :=
  issue (.apsend c q b) s (apsendBody (.apsend c q b) q.toNat b)

/-- APERMIT: k permits more, at most 64. -/
def apermitBody (i : Instr) (j : Nat) (b : Opnd) (x : Iss) : Res :=
  .state (x.s.setGroup x.h x.g (x.onward i (x.gr.modPort j fun p => { p with permits := min 64 (p.permits + x.word 2 b) })))

def execApermit (c : Ctl) (q : BitVec 2) (b : Opnd) (s : State) : Out :=
  issue (.apermit c q b) s (apermitBody (.apermit c q b) q.toNat b)

end Sys2Proof.Machine
end

