-- ==== Sys2Proof/Machine/Cluster.lean ====
section
/-!
DEFINITION. Clusters (R82 to R86, R318): joining, the installation of a position, leaving with its revocation and
acknowledgements.
-/
namespace Sys2Proof.Machine

/-- An operation receives its answer: words for its S destinations, which land later (R195). -/
def Op.answered (o : Op) (ws : List Word) : Op := { o with res := ws.map Row.splat, got := BitVec.allOnes 32, todo := 0 }

def State.answer (s : State) (h g seq : Nat) (ws : List Word) : State :=
  s.modGroup h g (·.modOp seq (·.answered ws))

/-- Position none of a CJOIN that failed. -/
def noPosition : Word := 0xFFFF_FFFF#32

/-- The lowest position that no member of cluster k holds. -/
def Workgroup.freePos (w : Workgroup) (k : Nat) : Option Nat :=
  (List.range 16).find? fun p => !(w.cores.any fun c => c.cluster == some k && c.pos == p)

/-- A group's joined bit is set. -/
def State.setJoined (s : State) (h g : Nat) (j : Bool) : State := s.modGroup h g fun gr => { gr with joined := j }

/-- Table 4.5. A core that enters a cluster takes its position; the answer waits for the installation. -/
def State.decideJoin (s : State) (h g seq k : Nat) : State :=
  match s.wg? h, s.group? h g with
  | some w, some gr =>
    match w.onCore gr.core with
    | none => s
    | some c =>
      let count := fun (s : State) (f : WgCore → WgCore) => s.modWg h (·.modCore gr.core f)
      if 7 < k then s.answer h g seq [noPosition, 3]
      else match c.cluster with
        | some j =>
          if j != k then s.answer h g seq [noPosition, 2]
          else
            let s := if gr.joined then s else (count s fun c => { c with joins := c.joins + 1 }).setJoined h g true
            s.answer h g seq [BitVec.ofNat 32 c.pos, 0]
        | none => match w.freePos k with
          | none => s.answer h g seq [noPosition, 1]
          | some p =>
            (count s fun c => { c with cluster := some k, pos := p, joins := 1, joining := some (g, seq) }).setJoined h g true
  | _, _ => s

/-- CJOINs that wait while their core leaves: operations without an answer, in the order of their issue by
group. -/
def State.waitingJoins (s : State) (h core : Nat) : List (Nat × Nat × Nat) :=
  match s.wg? h with
  | none => []
  | some w => (w.groups.filter fun g => g.2.core == core).flatMap fun g =>
      (g.2.ops.filter fun o => o.todo != 0 && (match o.instr with | .cjoin .. => true | _ => false)).map fun o =>
        (g.1, o.seq, (o.args.getD 0 0).toNat)

/-- A CJOIN issues: it is decided, or waits for a leave. -/
def State.join (s : State) (h g seq k : Nat) : State :=
  match (s.wg? h).bind fun w => (w.group? g).bind fun gr => w.onCore gr.core with
  | some c => if c.leaving.isSome then s else s.decideJoin h g seq k
  | none => s

/-- A map with one position set. -/
def setEntry (m : List MapEnt) (e : MapEnt) : List MapEnt := m.filter (·.pos != e.pos) ++ [e]

/-- CLUSTER_INSTALL: the new position stands in every member's map, the new core holds the members' positions,
and the CJOIN is answered. -/
def State.installStep (s : State) (h core : Nat) : Option State :=
  match (s.wg? h).bind fun w => (w.onCore core).map fun c => (w, c) with
  | none => none
  | some (w, c) => match c.joining with
    | none => none
    | some (g, seq) =>
      let members := w.cores.filter fun d => d.cluster == c.cluster && d.leaving.isNone
      let s := s.modWg h fun w => { w with cores := w.cores.map fun d =>
        if d.core == core then
          { d with
            joining := none
            map := members.foldl (fun m x => setEntry m { pos := x.pos, core := x.core, revoking := false }) d.map }
        else if d.cluster == c.cluster && d.leaving.isNone then
          { d with map := setEntry d.map { pos := c.pos, core := core, revoking := false } }
        else d }
      some (s.answer h g seq [BitVec.ofNat 32 c.pos, 0])

/-- The leave of a core begins (R84): every member's acknowledgement is awaited. -/
def Workgroup.startLeave (w : Workgroup) (core : Nat) (cleaver : Option (Nat × Nat)) : Workgroup :=
  match w.onCore core with
  | none => w
  | some c =>
    let members := (w.cores.filter fun d => d.cluster == c.cluster).map (·.core)
    w.modCore core fun c => { c with leaving := some members, cleaver := cleaver }

/-- A joined group leaves: its bit is cleared, and where the join count reaches 0 its core starts to leave. The
result is CLEAVE's, or none while the leave goes on. -/
def State.cleave (s : State) (h g : Nat) (by_ : Option (Nat × Nat)) : Option Nat × State :=
  match s.wg? h, s.group? h g with
  | some w, some gr =>
    if !gr.joined then (some 0, s)
    else
      let s := (s.setJoined h g false).modWg h (·.modCore gr.core fun c => { c with joins := c.joins - 1 })
      if ((w.onCore gr.core).map (·.joins)).getD 0 ≤ 1 then (none, s.modWg h (·.startLeave gr.core by_))
      else (some 1, s)
  | _, _ => (some 0, s)

/-- Positions that a member marks where the core at a position leaves: that one, or, at the leaving core itself, every one. -/
def marked (member core pos p : Nat) : Bool := member == core || p == pos

/-- Accesses of a member through a position that it marks. -/
def behindLeave (member core pos : Nat) (b : BankOp) : Bool := b.src == member && b.pos.any (marked member core pos)

/-- Whether pieces were reached through a position that the member marks. -/
def segsBehind (member core pos : Nat) (gs : List Seg) : Bool :=
  gs.any fun g => windowOfRange g.va g.n == .cluster && marked member core pos ((g.va - clusterBase) / 0x4_0000)

/-- Whether an engine of a member has an access through such a position to make, or on its way (R84, step 2, R85). -/
def State.engineBehind (s : State) (h core member pos : Nat) (w : Workgroup) : Bool :=
  w.groups.any fun e => e.2.core == member && e.2.ops.any fun o =>
    o.cls.isSome && (o.todo != 0 || !s.locLanded h e.1 o.seq)
    && (segsBehind member core pos o.segs || (s.core member).copyQ.any fun r =>
      r.wg == h && r.g == e.1 && r.seq == o.seq && segsBehind member core pos (r.dst ++ r.src ++ r.side))

/-- CLUSTER_REVOKE at a member: the position is marked, where it has been installed; once no access through it is on its
way, the member's waiters behind it go with CLUSTER_GONE, and the member acknowledges. -/
def State.revokeStep (s : State) (h core member : Nat) : Option State :=
  match (s.wg? h).bind fun w => (w.onCore core).map fun c => (w, c) with
  | none => none
  | some (w, c) =>
    if c.joining.isSome || !((c.leaving.getD []).contains member) then none
    else
      let mark := fun (e : MapEnt) => if marked member core c.pos e.pos then { e with revoking := true } else e
      let done := ((w.onCore member).map (·.map)).getD [] |>.all fun e => !marked member core c.pos e.pos || e.revoking
      let s := s.modWg h (·.modCore member fun d => { d with map := d.map.map mark })
      let onWay := (s.cores.any fun x => x.2.bankQ.any fun b => b.wg == h && behindLeave member core c.pos b)
        || s.engineBehind h core member c.pos w
      if onWay then (if done then none else some s)
      else
        let hits := w.cores.flatMap fun d => d.grans.flatMap fun g =>
          g.2.waiters.filter fun b => b.wg == h && behindLeave member core c.pos b
        let s := w.cores.foldl (fun s d => s.dropWaiters h d.core fun b => b.wg == h && behindLeave member core c.pos b) s
        let s := hits.foldl (fun s b => s.laneGone b) s
        some (s.modWg h (·.modCore core fun d => { d with leaving := d.leaving.map (·.erase member) }))

/-- CLEAVE_ACK: every acknowledgement has come. The position is free, the CLEAVE completes, and CJOINs that
waited are decided. -/
def State.cleaveDone (s : State) (h core : Nat) : Option State :=
  match (s.wg? h).bind fun w => w.onCore core with
  | some { leaving := some [], cluster := k, pos := pos, cleaver := by_, .. } =>
    let s := match k with
      | some k => s.leavePhases h core k
      | none => s
    let s := s.modWg h fun w => { w with cores := w.cores.map fun d =>
      if d.core == core then { d with cluster := none, map := [], leaving := none, cleaver := none, joins := 0 }
      else if d.cluster == k then { d with map := d.map.filter (·.pos != pos) }
      else d }
    let s := match by_ with
      | some (g, seq) => s.answer h g seq [2]
      | none => s
    some ((s.waitingJoins h core).foldl (fun s j => s.join h j.1 j.2.1 j.2.2) s)
  | _ => none

/-- Whatever of clusters a workgroup holds is gone at once (R214, step 4). -/
def Workgroup.dissolve (w : Workgroup) : Workgroup :=
  { w with
    cores := w.cores.map fun c => { c with cluster := none, map := [], joins := 0, joining := none, leaving := none, cleaver := none }
    groups := w.groups.map fun g => (g.1, { g.2 with joined := false }) }

end Sys2Proof.Machine
end

