-- ==== Sys2Proof/Machine/Paths.lean ====
section
/-!
DEFINITION. Paths: the reconvergence stack with its spills and fills (R176, R180, R255), the joining of paths
(R178, R179), TRACE records (R389), and the waits of a fence (R155).
-/
namespace Sys2Proof.Machine

/-! ### Ends of device accesses -/

/-- A fault of a device access as a group-atomic cause of the instruction. -/
def Iss.ofFault (x : Iss) (f : LaneFault) : Raise :=
  { cls := .group, cause := f.cause, info := f.info, faddr := f.addr, p31 := x.m }

/-- What follows a device access of an instruction. One that cannot be made now leaves nothing but what it asked for. -/
def Iss.after {α : Type} (x : Iss) (r : VRes α) (k : α → Res) : Res :=
  match r with
  | .ok a => k a
  | .walk as => .stall .walk (x.s.asks as)
  | .fault f => .trap (x.ofFault f)
  | .busy => .stall .busy x.s

/-! ### TRACE -/

/-- A TRACE record of a path, where the context is traced. -/
def State.traceAt (s : State) (h g p pc target : Nat) : VRes State :=
  match s.wg? h with
  | some w => if s.tracing w.ctx then s.appendSample h g p pc 2 (bitsOf target 54 2) else .ok s
  | none => .ok s

/-- A transfer: its record, the change of the group, and the new PC. The access processor is not traced. -/
def Iss.transfer (x : Iss) (i : Instr) (target : Nat) (f : Group → Group) : Res :=
  if x.ap then .state (x.s.setGroup x.h x.g (x.jump i target (f x.gr)))
  else x.after (x.s.traceAt x.h x.g x.p x.pc target) fun s => .state (s.modGroup x.h x.g fun gr => x.jump i target (f gr))

/-! ### The stack -/

/-- Whether the earlier accesses of path p to n entries of its stack region have performed (R255). -/
def State.entsQuiet (s : State) (h g : Nat) (w : Workgroup) (gr : Group) (p i n : Nat) : Bool :=
  match s.chkRange gr.core w.ctx gr.sup .read true (w.stackAddr g p i) (16 * n) with
  | .pieces ps => s.accessesDone h g ((gr.ops.filter (·.paths.contains p)).map (·.seq)) (ps.map fun q =>
      { off := 0, n := q.n, va := q.va, place := .phys q.pa, coh := q.attr.coh, normal := true })
  | _ => true

/-- n entries of a path's stack region from index i on, oldest first. -/
def State.readEnts (s : State) (h g : Nat) (w : Workgroup) (gr : Group) (p i n : Nat) : VRes (List StackEnt × State) :=
  if !s.entsQuiet h g w gr p i n then .busy
  else match s.vLoad gr.core w.ctx gr.sup (w.stackAddr g p i) (16 * n) with
  | .ok (bs, s) =>
    .ok ((List.range n).map fun j => StackEnt.decode (natOfBytes ((bs.drop (16 * j)).take 16)), s)
  | .walk s => .walk s
  | .fault f => .fault f
  | .busy => .busy

/-- A path after a push onto a stack with room. -/
def Path.push (e : StackEnt) (q : Path) : Path := { q with stack := e :: q.stack }

/-- A push: onto a full hardware stack the eight oldest entries it holds go to memory first. -/
def State.pushEnt (s : State) (h g p : Nat) (e : StackEnt) : VRes State :=
  match s.wg? h, s.group? h g with
  | some w, some gr =>
    let q := gr.path p
    if q.stack.length < 32 then .ok (s.modGroup h g (·.modPath p (·.push e)))
    else if !s.entsQuiet h g w gr p q.spilled 8 then .busy
    else
      let outs := (List.range 8).map fun i =>
        (w.stackAddr g p (q.spilled + i), bytesOfNat 16 ((q.stack.getD (31 - i) .bad).encode))
      match s.vStores gr.core w.ctx gr.sup outs with
      | .ok s => .ok (s.modGroup h g fun gr => (gr.raiseH .grp (upTick s.cycle)).modPath p fun q =>
          { q with stack := e :: q.stack.take 24, spilled := q.spilled + 8, notBefore := s.clock gr.core + 24 })
      | r => r
  | _, _ => .ok s

/-- An empty hardware stack over spilled entries reads the eight youngest back, without the lanes that exited
meanwhile. -/
def State.fillEnts (s : State) (h g p : Nat) : VRes State :=
  match s.wg? h, s.group? h g with
  | some w, some gr =>
    let q := gr.path p
    if !q.stack.isEmpty || q.spilled == 0 then .ok s
    else
      let n := min 8 q.spilled
      match s.readEnts h g w gr p (q.spilled - n) n with
      | .ok (es, s) => .ok (s.modGroup h g fun gr => gr.modPath p fun q =>
          { q with stack := (es.map (·.without q.gone)).reverse, spilled := q.spilled - n,
                   gone := if q.spilled == n then 0 else q.gone, notBefore := s.clock gr.core + 24 })
      | .walk s => .walk s
      | .fault f => .fault f
      | .busy => .busy
  | _, _ => .ok s

/-- A path's stack without its top, filled where that empties it. -/
def State.popEnt (s : State) (h g p : Nat) : VRes State :=
  (s.modGroup h g fun gr => gr.modPath p fun q => { q with stack := q.stack.tail }).fillEnts h g p

/-! ### A path without lanes (R179) -/

/-- Where the loop of R179 ends: with lanes at a PC, freed, waiting for a partner, in need of spilled entries, or
at an entry that is none. -/
inductive Unwound where
  | run (m : Mask) (pc : Nat) (st : List StackEnt)
  | free
  | join (st : List StackEnt)
  | more
  | bad
  deriving DecidableEq, Repr

/-- The loop on a stack, with the partners that are free; `below` tells that spilled entries lie below it. -/
def unwind (free : Nat → Bool) (below : Bool) : List StackEnt → Unwound
  | [] => if below then .more else .free
  | .div k m pm ppc :: r =>
    if pm != 0 then .run pm ppc (.div k m 0 ppc :: r)
    else if m == 0 then unwind free below r
    else if r.isEmpty && below then .more
    else .run m ((ppc + 12) % 2 ^ 64) r
  | .split k q :: r => if free q then unwind free below r else .join (.split k q :: r)
  | .bad :: _ => .bad

/-- The path as the loop leaves it. -/
def Path.unwound (q : Path) : Unwound → Path
  | .run m pc st => { (q.goTo pc).flush with mask := m, stack := st, retry := none }
  | .free => Path.free
  | .join st => { q with st := .join, mask := 0, stack := st, wait := none }
  | _ => q

/-! ### Partners (R178) -/

/-- A path that waits at its own RECONV for its origin, with join token k. -/
def Path.joinsFor (q : Path) (k : Nat) : Bool :=
  q.st == .join && q.token == some k && q.stack.isEmpty && q.spilled == 0

/-- Whether a path is FREE. -/
def Group.isFree (gr : Group) (p : Nat) : Bool := (gr.path p).st == .free

/-- A waiting origin whose partner has come or gone is taken up again: at its RECONV it executes that again;
without lanes it takes the partner's, or goes on with the loop of R179. -/
def Group.wakeOne (gr : Group) (o : Nat) : Group :=
  let p := gr.path o
  match p.st, p.stack with
  | .join, .split k j :: r =>
    let q := gr.path j
    if !(q.st == .free || q.joinsFor k) then gr
    else if p.mask != 0 then gr.setPath o { p with st := .ready }
    else if q.st == .free then
      match unwind gr.isFree (p.spilled != 0) r with
      | .more | .bad => gr.setPath o { p with st := .ready, stack := r }
      | u => gr.setPath o (p.unwound u)
    else ((gr.join o j).setPath o { (p.goTo ((q.pc + 12) % 2 ^ 64)).flush with mask := q.mask, stack := r }).setPath j
      Path.free
  | _, _ => gr

/-- Every waiting origin is looked at, four times over: one that is freed may be another one's partner. -/
def Group.wake (gr : Group) : Group :=
  ((List.range 4).flatMap fun _ => List.range 4).foldl (fun gr o => gr.wakeOne o) gr

/-- The origins of a path, nearest first. -/
def Group.origins (gr : Group) : Nat → Nat → List Nat
  | 0, _ => []
  | n + 1, p =>
    let q := gr.path p
    if q.token.isSome then q.origin :: gr.origins n q.origin else []

/-- Lanes leave a path, the DIV entries of its stack and of its origins' stacks. -/
def Group.dropLanes (gr : Group) (p : Nat) (l : Mask) : Group :=
  let gr := gr.modPath p fun q => { q with mask := q.mask &&& ~~~ l }
  (p :: gr.origins 4 p).eraseDups.foldl (fun gr o => gr.modPath o fun q =>
    { q with stack := q.stack.map (·.without l), gone := if q.spilled == 0 then q.gone else q.gone ||| l }) gr

/-! ### Fences (R155) -/

/-- Whether the waits of a fence of scope sc hold for path p, counting the operations issued before `limit`. -/
def Group.fenced (gr : Group) (p limit : Nat) (sc : Scope) (now : Nat) : Bool :=
  (gr.ops.all fun o => !(decide (o.seq < limit) && o.paths.contains p && (o.isLoad || o.isAtom) && o.todo != 0))
  && (gr.ops.all fun o => !(decide (o.seq < limit) && (o.isStore || o.isAtom) && o.scope.covers sc && o.owed != 0))
  && decide (gr.horizonOf sc ≤ now)

/-- The issue number up to which a waiting fence counts: fixed when it first issued. -/
def Iss.fenceLimit (x : Iss) : Nat :=
  ((if x.ap then x.gr.ap.fenceAt else (x.gr.path x.p).fenceAt)).getD x.gr.nextSeq

/-- The state of an issuer that waits in a fence. -/
def Iss.keepLimit (x : Iss) : State :=
  x.s.modGroup x.h x.g fun gr =>
    if x.ap then { gr with ap := { gr.ap with fenceAt := some x.fenceLimit } }
    else gr.modPath x.p fun q => { q with fenceAt := some x.fenceLimit }

/-- The issuer waits until the waits of a fence hold, then goes on with `k`. -/
def Iss.fencing (x : Iss) (sc : Scope) (k : Res) : Res :=
  if x.gr.fenced x.p x.fenceLimit sc x.s.tick then k else .stall .fence x.keepLimit

end Sys2Proof.Machine
end

