-- ==== Sys2Proof/Machine/Control.lean ====
section
/-!
DEFINITION. Control (R267 to R274): NOP, transfers, BRX and RECONV, EXIT, the hint region (R258) and the words
that are no instructions (R257, R260).
-/
namespace Sys2Proof.Machine

/-- A branch target (R268): bits 1 and 0 are cleared. -/
def targetOf (pc : Nat) (t : Target) : Nat :=
  let d : Int := match t with
    | .rel13 v => 4 * v.toInt
    | .rel32 v => v.toInt
  wrapTo 64 (pc + d) / 4 * 4

/-- A register pair as a target. -/
def Iss.pairTarget (x : Iss) (a : Opnd) : Nat := x.dword 1 a / 4 * 4

/-- A uniform transfer (R269); the guard is the same in every lane. `f` is what else it writes. -/
def Iss.uniformTo (x : Iss) (i : Instr) (target : Nat) (f : Group → Group) : Res :=
  if x.x == x.m then x.transfer i target f else .state (x.s.setGroup x.h x.g (x.onward i x.gr))

/-- The return address is written to an S pair. -/
def Iss.link (x : Iss) (d : Opnd) (gr : Group) : Group :=
  let ra := (x.pc + 12) % 2 ^ 64
  (({ x with gr := gr }).putScalar d [BitVec.ofNat 32 ra, BitVec.ofNat 32 (ra / 2 ^ 32)]).markFull
    ((Use.mk 0 d 2).regs x.ap)

def nopBody (x : Iss) : Res := .done x.gr [] []

def execNop (c : Ctl) (s : State) : Out := issue (.nop c) s nopBody

/-- A word of the hint region is a no-operation. -/
def execHintRegionWord (w : BitVec 96) (s : State) : Out := issue (.hintRegionWord w) s nopBody

def braBody (i : Instr) (t : Target) (x : Iss) : Res := x.uniformTo i (targetOf x.pc t) id

def execBra (c : Ctl) (t : Target) (s : State) : Out := issue (.bra c t) s (braBody (.bra c t) t)

def jmpBody (i : Instr) (a : Opnd) (x : Iss) : Res := x.uniformTo i (x.pairTarget a) id

def execJmp (c : Ctl) (a : Opnd) (s : State) : Out := issue (.jmp c a) s (jmpBody (.jmp c a) a)

def callBody (i : Instr) (d : Opnd) (t : Target) (x : Iss) : Res := x.uniformTo i (targetOf x.pc t) (x.link d)

def execCall (c : Ctl) (d : Opnd) (t : Target) (s : State) : Out := issue (.call c d t) s (callBody (.call c d t) d t)

def callrBody (i : Instr) (d a : Opnd) (x : Iss) : Res := x.uniformTo i (x.pairTarget a) (x.link d)

def execCallr (c : Ctl) (d a : Opnd) (s : State) : Out := issue (.callr c d a) s (callrBody (.callr c d a) d a)

def execRet (c : Ctl) (a : Opnd) (s : State) : Out := issue (.ret c a) s (jmpBody (.ret c a) a)

/-! ### BRX (R177, R270) -/

/-- The lowest free path entry. -/
def Group.freePath (gr : Group) : Option Nat := (List.range 4).find? fun p => (gr.path p).st == .free

/-- PPC of a stack entry (Table 8.4): bits 54 to 2 of a PC. -/
def ppcOf (pc : Nat) : Nat := pc % 2 ^ 55 / 4 * 4

/-- A divergent BRX with taken lanes t. -/
def Iss.diverge (x : Iss) (i : Instr) (k target : Nat) (split : Bool) (t : Mask) : Res :=
  if 1024 ≤ (x.gr.path x.p).depth then .trap (x.whole .stackDepth)
  else
    let on := fun (gr : Group) =>
      (x.onward i gr).modPath x.p fun q =>
        { q with mask := x.m &&& ~~~ t, notBefore := max q.notBefore (gr.path x.p).notBefore }
    match if split then x.gr.freePath else none with
    | some j =>
      x.after (x.s.pushEnt x.h x.g x.p (.split k j)) fun s => .state (s.modGroup x.h x.g fun gr =>
        ((on gr).fork x.p j).setPath j { Path.free with
          st := .ready, pc := target, mask := t, token := some k, origin := x.p, notBefore := x.now + 1,
          ageFrom := x.now })
    | none => x.after (x.s.pushEnt x.h x.g x.p (.div k x.m t (ppcOf target))) fun s => .state (s.modGroup x.h x.g on)

def brxBody (c : Ctl) (k : BitVec 6) (t : Target) (x : Iss) : Res :=
  let i := Instr.brx c k t
  let target := targetOf x.pc t
  if x.x == x.m then x.transfer i target id
  else if x.x == 0 then .done x.gr [] []
  else x.diverge i k.toNat target c.hint.split x.x

def execBrx (c : Ctl) (k : BitVec 6) (t : Target) (s : State) : Out := issue (.brx c k t) s (brxBody c k t)

/-! ### RECONV (R178, R271) -/

/-- The path goes on behind a RECONV that ends a division or merges its partner, with a mask. -/
def Iss.merged (x : Iss) (i : Instr) (m : Mask) (f : Group → Group) : Res :=
  x.after (x.s.popEnt x.h x.g x.p) fun s => x.after (s.traceAt x.h x.g x.p x.pc ((x.pc + 12) % 2 ^ 64)) fun s =>
    .state (s.modGroup x.h x.g fun gr =>
      let late := (gr.path x.p).notBefore
      f ((x.jump i ((x.pc + 12) % 2 ^ 64) gr).modPath x.p fun q => { q with mask := m, notBefore := max q.notBefore late }))

/-- The path waits in JOIN at the RECONV. -/
def Iss.joining (x : Iss) (i : Instr) : Res :=
  .state ((x.s.setGroup x.h x.g (x.gr.modPath x.p fun q => { x.issued i q with st := .join, wait := none, slotted := true }).wake).latch
    x.h x.g)

def reconvBody (c : Ctl) (k : BitVec 6) (x : Iss) : Res :=
  let i := Instr.reconv c k
  let q := x.gr.path x.p
  let k := k.toNat
  match q.stack with
  | [] =>
    if q.spilled != 0 then x.after (x.s.fillEnts x.h x.g x.p) .state
    else if q.token == some k then x.joining i
    else .done x.gr [] []
  | .bad :: _ => .trap (x.whole .stackDepth)
  | .div t m pm ppc :: r =>
    if t != k then .done x.gr [] []
    else if pm != 0 then
      .state (x.s.setGroup x.h x.g ((x.jump i ppc x.gr).modPath x.p fun q =>
        { q with mask := pm, stack := .div t m 0 (ppcOf x.pc) :: r }))
    else x.merged i m id
  | .split t j :: _ =>
    if t != k then .done x.gr [] []
    else
      let o := x.gr.path j
      if o.st == .free then
        x.after (x.s.popEnt x.h x.g x.p) fun s => .state (s.modGroup x.h x.g fun gr =>
          (x.onward i gr).modPath x.p fun q => { q with notBefore := max q.notBefore (gr.path x.p).notBefore })
      else if o.joinsFor k then
        if o.pc == x.pc then x.merged i (x.m ||| o.mask) fun gr => (gr.join x.p j).setPath j Path.free
        else .trap (x.whole .joinMismatch)
      else x.joining i

def execReconv (c : Ctl) (k : BitVec 6) (s : State) : Out := issue (.reconv c k) s (reconvBody c k)

/-! ### EXIT (R169, R179, R272) -/

/-- The scope of the waits of a group's last EXIT. -/
def Workgroup.exitScope (w : Workgroup) : Scope := if w.gang == 0 then w.scope else .pod

/-- The loop of R179 on the path's stack, with the spilled entries it needs read back first: its end, the
spilled entries that stay, and the state. -/
def Iss.unwindAll (x : Iss) (s : State) (gone : Mask) (st : List StackEnt) (spilled : Nat) :
    Nat → VRes ((Unwound × Nat) × State)
  | 0 => .ok ((unwind x.gr.isFree (spilled != 0) st, spilled), s)
  | n + 1 =>
    match unwind x.gr.isFree (spilled != 0) st with
    | .more =>
      let k := min 8 spilled
      match s.readEnts x.h x.g x.w x.gr x.p (spilled - k) k with
      | .ok (es, s) => x.unwindAll s gone (st ++ (es.map (·.without gone)).reverse) (spilled - k) n
      | .walk s => .walk s
      | .fault f => .fault f
      | .busy => .busy
    | u => .ok ((u, spilled), s)

/-- A group ends: it leaves its cluster (R84), and counts as arrived at every barrier of its workgroup (R169). -/
def State.endGroup (s : State) (h g : Nat) : State :=
  let s := (s.cleave h g none).2
  (s.modGroup h g fun gr => { gr with ended := true }).latch h g

/-- The path is left as the loop leaves it; where it was the group's last, the group ends after the waits of
R169. -/
def Iss.exited (x : Iss) (i : Instr) (gr : Group) (u : Unwound) (spilled : Nat) (s : State) : Res :=
  let gr' := gr.modPath x.p fun q =>
    let q := (x.issued i q).unwound u
    if u == .free then q else { q with spilled := spilled, gone := if spilled == 0 then 0 else q.gone }
  let gr' := gr'.wake
  let last := gr'.paths.all fun q => q.st == .free
  if !last then .state ((s.setGroup x.h x.g gr').latch x.h x.g)
  else x.fencing x.w.exitScope (if x.gr.ctrs.all (· == 0) then
      .state ((s.setGroup x.h x.g gr').endGroup x.h x.g)
    else .stall .fence x.keepLimit)

def exitBody (c : Ctl) (x : Iss) : Res :=
  let i := Instr.exit c
  if x.ap then
    if x.x == 0 then .done x.gr [] []
    else .state (x.s.setGroup x.h x.g { x.gr with ap := { x.gr.ap with st := .exited, wait := none } })
  else if x.m != 0 && x.x == 0 then .done x.gr [] []
  else
    let gr := x.gr.dropLanes x.p x.x
    let q := gr.path x.p
    if q.mask != 0 then .state (x.s.setGroup x.h x.g (x.onward i gr))
    else x.after (x.unwindAll x.s q.gone q.stack q.spilled 129) fun r =>
      match r.1.1 with
      | .bad | .more => .trap (x.whole .stackDepth)
      | u => x.exited i gr u r.1.2 r.2

def execExit (c : Ctl) (s : State) : Out := issue (.exit c) s (exitBody c)

/-! ### Words that are no instructions -/

/-- Whether an ill-formed word is lane-bound (R209): by its opcode and the classes of its fields. -/
def rawLaneBound (r : Raw) : Bool :=
  let g := bitsOf r.opc.toNat 11 8
  let op := bitsOf r.opc.toNat 7 0
  let cls := fun (f : BitVec 16) => bitsOf f.toNat 15 13
  let addr := cls r.a == 1 || (!r.i && cls r.b == 1)
  if 1 ≤ g && g ≤ 4 then cls r.d != 2
  else if g == 5 then addr && !(op == 0 && cls r.d == 2)
  else if g == 6 && op == 0 then addr
  else g == 0xA && (op == 2 || op == 7)

/-- The registers a source field of an ill-formed word takes from a port. DESIGN CHOICE (log 41): its own TYPE, 64 bits
wide or not, gives the width, and the global window that of an address. -/
def rawWidth (r : Raw) (f : Nat) : Nat :=
  let g := bitsOf r.opc.toNat 11 8
  if g == 5 || g == 6 then
    if f == 1 && (r.i || bitsOf r.opx.toNat 4 3 == 0) then 2 else 1
  else if ([0x105, 0x115, 0x116, 0x117, 0x118].contains r.opc.toNat) || r.i || g == 2 then 1
  else if (Ty.ofCode r.ty.toNat).any (·.is64) then 2 else 1

/-- The sources of an ill-formed word: A, B without the immediate form, and C of the three-source opcodes. -/
def rawSrcs (r : Raw) : List Use :=
  let three := [0x105, 0x115, 0x116, 0x117, 0x118].contains r.opc.toNat
    || (bitsOf r.opc.toNat 11 3 == 0x218 / 8)
  let fields : List (Nat × BitVec 16) :=
    [(1, r.a)] ++ (if r.i then [] else [(2, r.b)]) ++ (if three then [(3, r.hi16)] else [])
  fields.filterMap fun p => (decodeOpnd p.2).map fun o => { f := p.1, o := o, n := rawWidth r p.1 }

/-- The cause of a word that does not execute, P31 the path's lanes (log 133). -/
def badRaise (x : Iss) (b : BadCause) : Raise :=
  match b with
  | .opc => x.whole .illegalOpc
  | .mod => x.whole .illegalMod
  | .opd f => x.whole .illegalOpd f

/-- A word that is no instruction raises ILLEGAL_OPC whatever its guard; one that its entry does not accept
raises its cause, but for a lane-bound word without active lanes (R209, R257, R260). -/
def execNotAnInstruction (w : BitVec 96) (s : State) : Out :=
  let i := Instr.notAnInstruction w
  match s.issuer with
  | .refuse r => .refused r
  | .broken n => .fault (.broken n)
  | .out s => .next s
  | .go x =>
    let b := (badCause w).getD .opc
    if b == .opc || !rawLaneBound (Raw.ofWord w) then .next (x.raiseIn x.s (badRaise x b))
    else match x.guardWait i.ctl with
      | some pc => .next (x.block (.reg pc) x.s)
      | none =>
        let again := if x.ap then BitVec.allOnes 32 else ((x.gr.path x.p).retry).getD (BitVec.allOnes 32)
        if x.m &&& x.guardMask i.ctl &&& again == 0 then .next (x.skipOver i (rawSrcs (Raw.ofWord w)))
        else .next (x.raiseIn x.s (badRaise x b))

end Sys2Proof.Machine
end

