-- ==== Sys2Proof/Machine/Memory.lean ====
section
/-!
DEFINITION. LD, ST, PREF and ATOM (R298 to R310): addresses, the checks of each lane, and the accesses that leave
for L1, for a home, for a peer or for the banks of local memory.
-/
namespace Sys2Proof.Machine

/-! ### Addresses (R299, R300) -/

/-- The signed offset of a lane. -/
def Iss.offset (x : Iss) (off : Opnd) (l : Nat) : Int := signExt 32 (x.int .s32 2 off l)

def Iss.address (x : Iss) (w : Win) (a off : Opnd) (l : Nat) : Nat :=
  let base : Nat := match w with
    | .g => x.raw 1 a 2 l
    | .l => localBase + x.raw 1 a 1 l
    | .c => clusterBase + x.raw 1 a 1 l
    | .p => privWindow + x.raw 1 a 1 l
  wrapTo 64 (base + x.offset off l)

/-- Bytes of an access. -/
def accessSize (t : Ty) (x4 : Bool) : Nat := if x4 then 16 else t.bits / 8

/-! ### Checks (R301) -/

/-- What a memory instruction asks of each lane: its size, its kind, what the pages must be, and what it does at
an address. -/
structure MemReq where
  n : Nat
  kind : Kind
  qual : Qual
  expect : Expect
  atomic : Bool
  addr : Nat → Nat
  what : Nat → AccOp

/-- The lines, by virtual number, that the lanes of a plain store write whole (R149). -/
def MemReq.whole (q : MemReq) (ls : List Nat) : List Nat :=
  if q.kind != .write || q.qual != .none then []
  else ((ls.map fun l => q.addr l / 128).eraseDups).filter fun v =>
    (List.range 128).all fun i => ls.any fun l => q.addr l ≤ 128 * v + i && 128 * v + i < q.addr l + q.n

def Expect.coh : Expect → Option Coh
  | .none => none
  | .dir => some .dir
  | .lse => some .lse
  | .unc => some .unc

/-- COH_EXPECT, with the COH found. Local memory has none. -/
def expectFault (e : Expect) (a : Nat) (ps : List Part) : Option LaneFault :=
  match Expect.coh e with
  | none => none
  | some c => ps.findSome? fun p => match p with
    | .phys _ _ _ _ t => if t.attr.coh == c then none else some { cause := .cohExpect, info := t.attr.coh.code, addr := a }
    | .loc .. => some { cause := .cohExpect, info := 0, addr := a }

/-- All checks of one lane. -/
def Iss.checkLane (x : Iss) (q : MemReq) (wholes : List Nat) (l : Nat) : LaneChk :=
  let a := q.addr l
  match x.s.chkLane x.w x.gr l a q.n q.kind (q.qual != .none) (wholes.contains ·) with
  | .parts ps => match expectFault q.expect a ps with
    | some f => .fault f
    | none => if q.atomic && a % q.n != 0 then .fault { cause := .align, info := 0, addr := a } else .parts ps
  | r => r

/-- The checks of every lane, sorted. -/
structure Checked where
  walks : List Nat
  faults : List (Nat × LaneFault)
  good : List (Nat × List Part)
  deriving DecidableEq, Repr

def Iss.checkLanes (x : Iss) (q : MemReq) (ls : List Nat) : Checked :=
  let wholes := q.whole ls
  let rs := ls.map fun l => (l, x.checkLane q wholes l)
  { walks := rs.flatMap fun r => match r.2 with
      | .walk ps => ps
      | _ => []
    faults := rs.filterMap fun r => match r.2 with
      | .fault f => some (r.1, f)
      | _ => none
    good := rs.filterMap fun r => match r.2 with
      | .parts ps => some (r.1, ps)
      | _ => none }

/-- The lanes of a memory instruction: the active ones, or one access for the path. -/
def Iss.memLanes (x : Iss) (i : Instr) : List Nat := if i.laneBound then Mask.lanes x.x else [0]

/-! ### Accesses -/

/-- The part of what a lane does that falls on n bytes from byte k of its value. -/
def AccOp.slice (w : AccOp) (k n : Nat) : AccOp :=
  match w with
  | .store bs => .store ((bs.drop k).take n)
  | w => w

/-- Parts of a lane's access with the place of their first byte in the lane's value. -/
def placed : Nat → List Part → List (Nat × Part)
  | _, [] => []
  | k, .phys va line off n t :: ps => (k, .phys va line off n t) :: placed (k + n) ps
  | k, .loc c off n pos :: ps => (k, .loc c off n pos) :: placed (k + n) ps

/-- An access joins the request for its line; one to a DEVICE page stands alone (R28). -/
def addAcc (rs : List LineReq) (ctx va line : Nat) (t : Trans) (a : Acc) : List LineReq :=
  if t.attr.stor != .device && rs.any fun r => r.line == line && r.tr.attr.coh == t.attr.coh then
    modWhere (fun r => r.line == line && r.tr.attr.coh == t.attr.coh) (fun r => { r with accs := r.accs ++ [a] }) rs
  else rs ++ [{ ctx := ctx, vline := va / 128 * 128, line := line, tr := t, accs := [a] }]

/-- Pieces of a local access, cut after each multiple of `unit` bytes: first granule, offset, place in the value, bytes. -/
def granPieces (unit off k : Nat) : Nat → Nat → List (Nat × Nat × Nat × Nat)
  | 0, _ => []
  | _ + 1, 0 => []
  | f + 1, n =>
    let m := min n (unit - off % unit)
    (off / unit * (unit / 16), off % unit, k, m) :: granPieces unit (off + m) (k + m) f (n - m)

/-- A plain access joins the operation of its instruction on the same 128 bytes through the same window (R73, R300). -/
def addBank (bs : List (Nat × BankOp)) (b : Nat × BankOp) : List (Nat × BankOp) :=
  let same := fun (c : Nat × BankOp) => c.1 == b.1 && c.2.gran == b.2.gran && c.2.pos == b.2.pos
  if b.2.qual == .none && bs.any same then modWhere same (fun c => (c.1, { c.2 with accs := c.2.accs ++ b.2.accs })) bs
  else bs ++ [b]

/-- Everything an instruction sends: requests for lines, and operations for banks with their cores. -/
structure Sends where
  lines : List LineReq
  banks : List (Nat × BankOp)
  deriving DecidableEq, Repr

/-- One placed part of lane l. -/
def Iss.addPart (x : Iss) (q : MemReq) (isStore : Bool) (l : Nat) (ss : Sends) (kp : Nat × Part) : Sends :=
  let acc := fun (k off n : Nat) =>
    ({ wg := x.h, g := x.g, seq := x.gr.nextSeq, lane := l, va := q.addr l, k := k, off := off, n := n, what := (q.what l).slice k n } : Acc)
  match kp.2 with
  | .phys va line off n t => { ss with lines := addAcc ss.lines x.w.ctx va line t (acc kp.1 off n) }
  | .loc core off n pos =>
    { ss with banks := (granPieces (if q.qual == .none then 128 else 16) off kp.1 3 n).foldl (fun bs p =>
        addBank bs (core, { wg := x.h, src := x.gr.core, pos := pos, prior := x.priorOps, qual := q.qual, isStore := isStore
                            eng := false, gran := p.1, accs := [acc p.2.2.1 p.2.1 p.2.2.2] })) ss.banks }

def Iss.sends (x : Iss) (q : MemReq) (isStore : Bool) (good : List (Nat × List Part)) : Sends :=
  good.foldl (fun ss lp => (placed 0 lp.2).foldl (x.addPart q isStore lp.1) ss) { lines := [], banks := [] }

/-- Requests for lines leave one after another; none where one of them must wait. -/
def State.sendLines (s : State) (core lease : Nat) (wide : Bool) : List LineReq → Option State
  | [] => some s
  | r :: rs => match s.sendLine core r lease wide with
    | .ok s => s.sendLines core lease wide rs
    | .wait => none

def Part.trans : Part → Option Trans
  | .phys _ _ _ _ t => some t
  | .loc .. => none

/-- The pages of an instruction are used (R32), then it goes on. -/
def Iss.using (x : Iss) (wr : Bool) (ts : List Trans) (go : State → Res) : Res :=
  match x.s.useAll x.gr.core wr ts with
  | .wait as => .stall .busy (x.s.asks as)
  | .ok s => go s

/-- The cause an instruction takes for its faulting lanes: the lowest lane's, with every lane in P31. -/
def Iss.laneRaise (x : Iss) (i : Instr) (fs : List (Nat × LaneFault)) : Raise :=
  let f := (fs.head?.map (·.2)).getD { cause := .addrForm, info := 0, addr := 0 }
  { cls := .lane, cause := f.cause, info := f.info, faddr := f.addr,
    p31 := if i.laneBound then Mask.ofLanes (fs.map (·.1)) else x.m }

/-- A store or an atomic to a table line holds its time at every scope up to PKG (R39). -/
def Iss.memScope (x : Iss) (q : MemReq) (scope : Scope) (ss : Sends) : Scope :=
  if q.kind != .read && ss.lines.any (fun r => x.s.isTable r.line) && !scope.covers .pkg then .pkg else scope

/-- The operation of a memory instruction. A path waits for a qualified form, for an acquire, and, where lanes
have faulted, for the others (R301, R306). The flags of .FADD land with no destination as well (R309). -/
def Iss.memOp (x : Iss) (i : Instr) (q : MemReq) (scope : Scope) (isStore : Bool) (ck : Checked) (ss : Sends) : Op :=
  let n := (ss.lines.map (·.accs.length)).sum + (ss.banks.map (·.2.accs.length)).sum
  let r := x.laneRaise i ck.faults
  { x.newOp i (x.dstRegs i) with
    scope := x.memScope q scope ss, qual := q.qual
    landed := !q.atomic && (x.dstRegs i).isEmpty
    isLoad := !isStore && !q.atomic, isStore := isStore, isAtom := q.atomic
    todo := n, owed := if isStore || q.atomic then n else 0
    res := List.replicate ((q.n + 3) / 4) 0
    rows := [0]
    pend := Mask.ofLanes (ck.good.map (·.1))
    fl := if ck.faults.isEmpty then 0 else r.p31
    cause := if ck.faults.isEmpty then none else some (r.cause, r.info, r.faddr)
    leafs := (ck.good.flatMap fun g => g.2.flatMap fun p => (p.trans.map (·.via)).getD []).eraseDups }

/-- A memory instruction: its checks, A and D, its operation, and its accesses. -/
def Iss.access (x : Iss) (i : Instr) (q : MemReq) (scope : Scope) (isStore hold wide : Bool) : Res :=
  let ck := x.checkLanes q (x.memLanes i)
  let met := x.s.dropFaults x.gr.core x.w.ctx
  if !ck.walks.isEmpty then .stall .walk (x.s.askWalks x.gr.core x.w.ctx q.kind x.gr.sup ck.walks)
  else if ck.good.isEmpty then .state (x.raiseIn met (x.laneRaise i ck.faults))
  else
    x.using (isStore || q.atomic) (ck.good.flatMap fun g => g.2.filterMap (·.trans)) fun s =>
      let s := if ck.faults.isEmpty then s else s.dropFaults x.gr.core x.w.ctx
      let ss := x.sends q isStore ck.good
      let o := x.memOp i q scope isStore ck ss
      let y := { x with s := s }
      let t := if hold || !ck.faults.isEmpty then y.holdOp i o else y.launchOp i o
      -- an instruction with faulting lanes is executed again: its ports keep their words
      let t := if ck.faults.isEmpty then t else t.modGroup x.h x.g fun gr => { gr with ports := x.gr.ports }
      match t.sendLines x.gr.core (bitsOf x.gr.sr.lease.toNat 11 0) wide ss.lines with
      | none => .stall .busy x.s
      | some t => .state (t.sendBanks ss.banks)

/-! ### LD -/

/-- Where a qualified store must wait: for earlier loads and atomics of its path, and for its earlier stores
through the local or cluster window (R161). -/
def Iss.storesBefore (x : Iss) : Bool :=
  (x.gr.ops.any fun o => o.paths.contains x.p && (o.isLoad || o.isAtom) && o.todo != 0)
  || x.s.cores.any fun c => c.2.bankQ.any fun b => x.precedes b && b.isStore

def Iss.loadReq (x : Iss) (f : LdForm) (qual : Qual) : MemReq :=
  { n := accessSize f.ty f.x4, kind := .read, qual := qual, expect := f.expect, atomic := false
    addr := fun l => x.address f.win f.a (if qual == .peek then .none else f.off) l
    what := fun _ => .load }

def ldBody (i : Instr) (f : LdForm) (qual : Qual) (x : Iss) : Res :=
  x.access i (x.loadReq f qual) .sys false (qual != .none) false

def execLd (c : Ctl) (f : LdForm) (s : State) : Out := issue (.ld c f) s (ldBody (.ld c f) f .none)

def execLdWait (c : Ctl) (f : LdForm) (s : State) : Out := issue (.ldWait c f) s (ldBody (.ldWait c f) f .wait)

def execLdTake (c : Ctl) (f : LdForm) (s : State) : Out := issue (.ldTake c f) s (ldBody (.ldTake c f) f .take)

def execLdPeek (c : Ctl) (f : LdForm) (s : State) : Out := issue (.ldPeek c f) s (ldBody (.ldPeek c f) f .peek)

/-! ### ST -/

/-- The bytes a lane stores: the low bytes of D, a short immediate sign-extended first. XM on D is ignored. -/
def Iss.storeBytes (x : Iss) (f : StForm) (l : Nat) : List Byte :=
  bytesOfNat (accessSize f.ty f.x4) (match f.d with
    | .imm v => wrapTo 64 v.toInt
    | d => x.raw 0 d (memRegs f.ty f.x4) l)

def Iss.storeReq (x : Iss) (f : StForm) (qual : Qual) : MemReq :=
  { n := accessSize f.ty f.x4, kind := .write, qual := qual, expect := f.expect, atomic := false
    addr := fun l => x.address f.win f.a (if qual == .peek then .none else f.off) l
    what := fun l => .store (x.storeBytes f l) }

def stBody (i : Instr) (f : StForm) (qual : Qual) (x : Iss) : Res :=
  if qual != .none && x.storesBefore then .stall .requests x.s
  else x.access i (x.storeReq f qual) (scopeSel x.w f.scope) true (qual != .none) false

def execSt (c : Ctl) (f : StForm) (s : State) : Out := issue (.st c f) s (stBody (.st c f) f .none)

def execStWait (c : Ctl) (f : StForm) (s : State) : Out := issue (.stWait c f) s (stBody (.stWait c f) f .wait)

def execStTake (c : Ctl) (f : StForm) (s : State) : Out := issue (.stTake c f) s (stBody (.stTake c f) f .take)

def execStPeek (c : Ctl) (f : StForm) (s : State) : Out := issue (.stPeek c f) s (stBody (.stPeek c f) f .peek)

/-! ### PREF (R307) -/

/-- One line is requested as a load would; with `own`, a DIR line for ownership. Where the request would have to wait, none
is made. -/
def State.prefetch (s : State) (core ctx va line : Nat) (t : Trans) (own : Bool) (lease : Nat) : State :=
  let vline := va / 128 * 128
  let here := (s.core core).l1d.find? fun l => l.ctx == ctx && l.vline == vline
  match t.attr.coh with
  | .dir =>
    let elsewhere := (coresOfQuad (quadOf core)).any fun d => (s.core d).misses.any fun m =>
      m.line == line && (d == core || !(m.ctx == ctx && m.vline == vline))
    let ask := fun (s : State) (k : ReqKind) =>
      let m : Miss := { line := line, ctx := ctx, vline := vline, kind := k, tr := t, accs := [] }
      match s.placeFor core ctx vline with
      | none => s
      | some s => (s.modCore core fun c => { c with misses := c.misses ++ [m] }).send core line true
          (.req (.dir core k (s.tenancyOf ctx)))
    if elsewhere then s
    else match here with
      | some l => if own && (l.st == .s || l.st == .o) then ask s .upg else s
      | none => ask (s.dropSynonyms core ctx vline line) (if own then .rfo else .rd)
  | .lse =>
    if lease == 0 || here.any (fun l => l.leased s.tick) then s
    else if isPeer line then s.askPeer core line ctx vline (some t) lease [] fun tag => .lseRead tag (line % 2 ^ 41) lease
    else s.send core line true (.req (.lseRead core lease ctx vline t []))
  | .unc => s

def prefBody (i : Instr) (own : Bool) (win : Win) (a off : Opnd) (x : Iss) : Res :=
  let q : MemReq := { n := 1, kind := .read, qual := .none, expect := .none, atomic := false
                      addr := fun l => x.address win a off l, what := fun _ => .load }
  let ck := x.checkLanes q (x.memLanes i)
  if !ck.walks.isEmpty then .stall .walk (x.s.askWalks x.gr.core x.w.ctx .read x.gr.sup ck.walks)
  else
    x.using false (ck.good.flatMap fun g => g.2.filterMap (·.trans)) fun s =>
    let s := if ck.faults.isEmpty then s else s.dropFaults x.gr.core x.w.ctx
    let s := (ck.good.flatMap (·.2)).foldl (fun s p => match p with
      | .phys va line _ _ t =>
        if t.attr.stor == .device then s
        else s.prefetch x.gr.core x.w.ctx va line t own (bitsOf x.gr.sr.lease.toNat 11 0)
      | .loc .. => s) s
    .state (s.modGroup x.h x.g fun gr => x.onward i { gr with ports := (x.popped i).ports })

def execPref (c : Ctl) (own : Bool) (win : Win) (a off : Opnd) (s : State) : Out :=
  issue (.pref c own win a off) s (prefBody (.pref c own win a off) own win a off)

/-! ### ATOM (R308 to R310, R156, R146) -/

/-- The operand of a lane, and for CAS the compare and the new value. -/
def Iss.atomArgs (x : Iss) (op : AtomOp) (t : Ty) (b : Opnd) (l : Nat) : BitVec 64 × BitVec 64 :=
  match op with
  | .cas =>
    let v := x.raw 2 b (2 * t.regs) l
    let neg := fun (u : Nat) => if b.xm then (2 ^ t.bits - u % 2 ^ t.bits) % 2 ^ t.bits else u
    (BitVec.ofNat 64 (neg (v % 2 ^ t.bits)), BitVec.ofNat 64 (neg (v / 2 ^ t.bits)))
  | .fadd => (BitVec.ofNat 64 (x.float t 2 b l), 0)
  | _ => (BitVec.ofNat 64 (x.int t 2 b l), 0)

/-- An atomic performs at its home from scope QUAD up (Table 6.9). -/
def wideScope (sc : Scope) : Bool := 3 ≤ sc.num

def atomBody (i : Instr) (op : AtomOp) (win : Win) (scope : ScopeSel) (ord : Ord4) (t : Ty) (a b : Opnd) (x : Iss) :
    Res :=
  let sc := scopeSel x.w scope
  let q : MemReq :=
    { n := t.bits / 8, kind := .both, qual := .none, expect := .none, atomic := true
      addr := fun l => x.address win a .none l
      what := fun l => .atom op t (x.atomArgs op t b l).1 (x.atomArgs op t b l).2 }
  let go := x.access i q sc false (ord == .acq || ord == .ar) (wideScope sc)
  if ord == .rel || ord == .ar then x.fencing sc go else go

def execAtom (c : Ctl) (op : AtomOp) (win : Win) (scope : ScopeSel) (ord : Ord4) (t : Ty) (d a b : Opnd) (s : State) : Out :=
  let i := Instr.atom c op win scope ord t d a b
  issue i s (atomBody i op win scope ord t a b)

end Sys2Proof.Machine
end

