-- ==== Sys2Proof/Machine/Copy.lean ====
section
/-!
DEFINITION. COPY and COPYX (R319 to R323): parameters, extents, the translation of every page with the prefix of
R117, the runs (R105), the need (R108), recording, collapse, supersession (R106, R114 to R116), and eager moves.
-/
namespace Sys2Proof.Machine

/-! ### Parameters (R320, Table 5.2) -/

/-- A parameter block with one field set; the field was 0. -/
def setField (p : BitVec 256) (hi lo v : Nat) : BitVec 256 := p ||| BitVec.ofNat 256 (v % 2 ^ (hi + 1 - lo) * 2 ^ lo)

/-- A field replaced. -/
def putField (p : BitVec 256) (hi lo v : Nat) : BitVec 256 :=
  setField (p &&& ~~~ BitVec.ofNat 256 ((2 ^ (hi + 1 - lo) - 1) * 2 ^ lo)) hi lo v

/-- A COPY or COPYX as its operands give it: transform, parameters (SIDE 1 where UNPACK names a side list), the
bytes of both ranges (Table 13.8), and the side list. -/
structure CopyJob where
  xf : Xf
  param : BitVec 256
  dn : Nat
  sn : Nat
  sideVa : Nat
  sideN : Nat
  deriving DecidableEq, Repr

/-- Register k of a parameter block. -/
def blockReg (v k : Nat) : Nat := bitsOf v (32 * k + 31) (32 * k)

def plainJob (len : Nat) : CopyJob := { xf := .ident, param := 0, dn := len, sn := len, sideVa := 0, sideN := 0 }

def t2dJob (v : Nat) : CopyJob :=
  let r := blockReg v
  let p := setField (setField (setField 0 191 176 (r 0 / 2 ^ 16)) 175 160 (r 0)) 159 136 (r 1)
  let p := setField (setField (setField p 135 112 (r 2)) 111 110 (r 3)) 109 109 (r 3 / 4)
  let e := blankEnt .t2d p
  { xf := .t2d, param := p, dn := (e.nr - 1) * e.dpitch + e.nc * e.esz, sn := (e.rows - 1) * e.apitch + e.cols * e.esz,
    sideVa := 0, sideN := 0 }

def packJob (xf : Xf) (v : Nat) : CopyJob :=
  let r := blockReg v
  let p := setField (setField (setField 0 191 160 (r 0)) 159 128 (r 1)) 127 96 (r 2)
  let p := setField (setField (setField p 95 95 (r 3)) 94 91 (r 3 / 2)) 90 89 (r 3 / 32)
  let e := blankEnt xf p
  let n := max 1 e.blockElems
  { xf := xf, param := p, dn := 64 * ((e.nelem + n - 1) / n), sn := e.nelem * e.srcSize,
    sideVa := r 4 + 2 ^ 32 * r 5, sideN := r 6 }

def unpackJob (v : Nat) : CopyJob :=
  let r := blockReg v
  let va := r 4 + 2 ^ 32 * r 5
  let p := setField (setField (setField 0 191 160 (r 0)) 159 128 (r 2)) 127 127 (r 3)
  let p := if va == 0 then p else setField (setField p 126 75 1) 74 53 (r 6)
  let e := blankEnt .unpack p
  { xf := .unpack, param := p, dn := e.nelem * e.dstSize, sn := 64 * ((e.nelem + 123) / 124), sideVa := va, sideN := r 6 }

/-- COPY_FORMAT (R322). -/
def CopyJob.bad (j : CopyJob) (d a : Nat) : Bool :=
  let e := blankEnt j.xf j.param
  let side := j.sideVa != 0 && j.sideVa % 64 != 0
  match j.xf with
  | .ident => false
  | .t2d => e.rows == 0 || e.cols == 0 || e.apitch < e.cols * e.esz || e.dpitch < e.nc * e.esz
      || d % e.esz != 0 || a % e.esz != 0
  | .pack => 4 < e.dcode || d % 64 != 0 || side
  | .hadq => !(e.dcode == 8 || e.dcode == 9 || e.dcode == 10) || e.bits 90 89 != e.dcode - 8 || d % 64 != 0 || side
  | .unpack => a % 64 != 0 || side || (j.sideVa != 0 && j.sideN % 8 != 0)

/-! ### Ranges at issue (R105, R323) -/

/-- A range as its translation finds it: pages to walk, a cause of the whole range, pages that fault with their
offset and bytes, and the pieces that do not. -/
structure Ranged where
  walks : List Nat
  bad : Option LaneFault
  faults : List (Nat × Nat × LaneFault)
  segs : List Seg
  trans : List Trans
  deriving DecidableEq, Repr

/-- A piece of local memory. -/
def locSeg (h a n core off : Nat) : Seg :=
  { off := 0, n := n, va := a, place := .loc h core off, coh := .unc, normal := false }

/-- The piece of a page. -/
def Trans.seg (t : Trans) (off n va : Nat) : Seg :=
  { off := off, n := n, va := va, place := .phys (t.physOf va), coh := t.attr.coh, normal := t.attr.stor == .normal }

def Iss.copyRange (x : Iss) (k : Kind) (a n : Nat) : Ranged :=
  let none : Ranged := { walks := [], bad := .none, faults := [], segs := [], trans := [] }
  let bad := fun (c : Cause) => { none with bad := some { cause := c, info := 0, addr := a } }
  let loc := fun (c : LaneChk) => match c with
    | .parts [.loc core off _ _] => { none with segs := [locSeg x.h a n core off] }
    | .fault f => { none with bad := some f }
    | _ => none
  if n == 0 then none
  else if 2 ^ 55 ≤ a then bad .addrForm
  else match windowOfRange a n with
    | .global =>
      let found := (pageCuts a (n / 0x1_0000 + 2) n).map fun c => (c, x.s.findPiece x.gr.core x.w.ctx c.1 c.2 k x.gr.sup)
      found.foldl (fun r f => match f.2 with
        | .miss => { r with walks := r.walks ++ [pageOf f.1.1] }
        | .fault c i => { r with faults := r.faults ++ [(f.1.1 - a, f.1.2, { cause := c, info := i, addr := f.1.1 })] }
        | .tr t => { r with segs := r.segs ++ [t.seg (f.1.1 - a) f.1.2 f.1.1], trans := r.trans ++ [t] }) none
    | .localMem => loc (chkLocal x.w x.gr.core a n)
    | .cluster => loc (chkCluster x.w x.gr.core a n)
    | _ => bad .windowHole

/-- The lowest destination offset that needs a byte of the source bytes q to q + n − 1 (R117). -/
def CopyJob.firstUse (j : CopyJob) (q n : Nat) : Option Nat :=
  let e := blankEnt j.xf j.param
  match j.xf with
  | .ident => some q
  | .pack | .hadq => some (64 * (q / (e.blockElems * e.srcSize)))
  | .unpack => some (124 * e.dstSize * (q / 64))
  | .t2d =>
    let r := q / e.apitch
    let c := q % e.apitch
    let next := (r + 1) * e.apitch < q + n && r + 1 < e.rows
    if e.trans then
      if c == 0 then some (r * e.esz)
      else if next then some ((r + 1) * e.esz)
      else if c < e.cols * e.esz then some (c / e.esz * e.dpitch + r * e.esz) else none
    else if c < e.cols * e.esz then some (r * e.dpitch + c)
    else if next then some ((r + 1) * e.dpitch) else none

/-- The destination bytes that an instruction with faulting pages handles: those below the 64 KiB destination page
boundary at or below the lowest offset that faults. DESIGN CHOICE (log 129): a page of a side list that faults counts as
offset 0; the manual gives no offset for it. -/
def CopyJob.upTo (j : CopyJob) (d : Nat) (dst src side : Ranged) : Nat :=
  let fs := dst.faults.map (·.1) ++ src.faults.filterMap (fun f => j.firstUse f.1 f.2.1) ++ side.faults.map fun _ => 0
  if fs.isEmpty then j.dn
  else
    let f := fs.foldl min j.dn
    (d + f) / 0x1_0000 * 0x1_0000 - d

/-- The fault of the lowest faulting page. -/
def lowestFault (fs : List (Nat × Nat × LaneFault)) : Option LaneFault :=
  fs.foldl (fun (b : Option LaneFault) f => match b with
    | none => some f.2.2
    | some g => if f.2.2.addr < g.addr then some f.2.2 else some g) none

/-! ### Runs (R105) -/

/-- The place of byte q of a range. -/
def placeAt (segs : List Seg) (q : Nat) : Option Place :=
  (segs.find? fun g => g.off ≤ q && q < g.off + g.n).map fun g => match g.place with
    | .phys pa => .phys (pa + (q - g.off))
    | .loc h c o => .loc h c (o + (q - g.off))

/-- Whether a piece goes on where the other ends, in one die and in one kind of memory. -/
def Seg.joins (a b : Seg) : Bool :=
  a.off + a.n == b.off && (match a.place, b.place with
    | .phys p, .phys q => p + a.n == q && homeDie p == homeDie q && isPeer p == isPeer q
    | .loc h c o, .loc i d p => h == i && c == d && o + a.n == p
    | _, _ => false)

/-- Bytes of a piece from q on that lie in one die. -/
def Seg.oneDie (g : Seg) (q : Nat) : Nat :=
  match g.place with
  | .phys pa =>
    let a := pa + (q - g.off)
    if isHbm a then min (g.off + g.n - q) ((a / hbmDie + 1) * hbmDie - a) else g.off + g.n - q
  | .loc .. => g.off + g.n - q

/-- Bytes from q on that lie in one contiguous run of one die. -/
def contigFrom : List Seg → Nat → Nat
  | [], _ => 0
  | g :: gs, q =>
    if q < g.off || g.off + g.n ≤ q then contigFrom gs q
    else match gs with
      | [] => g.oneDie q
      | h :: _ => if g.oneDie q == g.off + g.n - q && g.joins h then g.n - (q - g.off) + contigFrom gs h.off else g.oneDie q

/-- The source bytes that a run may need: offset and bytes; none where its bytes are pitch gap only. -/
def CopyRun.span (r : CopyRun) : Option (Nat × Nat) :=
  let e := blankEnt r.xf r.param
  match r.xf with
  | .t2d =>
    let i0 := r.y / e.dpitch
    let i1 := min ((r.y + r.len - 1) / e.dpitch) (e.nr - 1)
    if i1 < i0 then none
    else if e.trans then some (i0 * e.esz, (e.nc - 1) * e.apitch + (i1 + 1 - i0) * e.esz)
    else some (i0 * e.apitch, (i1 - i0) * e.apitch + e.nc * e.esz)
  | _ => (e.needs r.y r.len).head?

/-- Bytes of the run that starts at y. -/
def CopyJob.runLen (j : CopyJob) (dst src : List Seg) (y last : Nat) : Nat :=
  let e := blankEnt j.xf j.param
  let n := min (min (last - y) (contigFrom dst y)) 0x20_0000
  match j.xf with
  | .ident => min n (contigFrom src y)
  | .t2d => n
  | .pack | .hadq =>
    let b := e.blockElems * e.srcSize
    let c := contigFrom src (b * (y / 64))
    if j.sn ≤ b * (y / 64) + c then min n (64 * (0x20_0000 / b)) else min n (64 * max 1 (min c 0x20_0000 / b))
  | .unpack =>
    let w := 124 * e.dstSize
    min n (w * (y / w + contigFrom src (64 * (y / w)) / 64) - y)

def Seg.meets (g : Seg) (q n : Nat) : Bool := g.off < q + n && q < g.off + g.n

/-- The runs of the destination bytes y to last − 1. -/
def CopyJob.runs (j : CopyJob) (proto : CopyRun) (y last : Nat) : Nat → List CopyRun
  | 0 => []
  | f + 1 =>
    if last ≤ y then []
    else
      let n := max 1 (j.runLen proto.dst proto.src y last)
      let r := { proto with y := y, len := n }
      let r := { r with
        dst := r.dst.filter (·.meets y n)
        src := match r.span with
          | some (q, k) => r.src.filter (·.meets q k)
          | none => [] }
      r :: j.runs proto (y + n) last f

/-! ### What a run would record -/


/-- All of a range is NORMAL memory in one contiguous run of local HBM: its first byte. -/
def plainAt (segs : List Seg) (q n : Nat) : Option Nat :=
  match placeAt segs q with
  | some (.phys pa) =>
    if n ≤ contigFrom segs q && isHbm pa && (segs.filter (·.meets q n)).all (·.normal) then some pa else none
  | _ => none

/-- The entry a run records where no other entry matters (R104, Table 5.5); none where it is performed eagerly. -/
def CopyRun.cand (ctx : Nat) (r : CopyRun) : Option PnEnt :=
  let e := blankEnt r.xf r.param
  match plainAt r.dst r.y r.len, r.span with
  | some d, some (q, n) => match plainAt r.src q n with
    | none => none
    | some a =>
      let sl := (r.side.map (·.n)).sum
      let side := if sl == 0 then some 0 else plainAt r.side 0 sl
      match side with
      | none => none
      | some sb =>
        if n == 0 || 0x20_0000 < n || rangesMeet d r.len a n
          || (sl != 0 && (sb / 0x1_0000 != (sb + sl - 1) / 0x1_0000 || rangesMeet d r.len sb sl)) then
          none
        else
          let p := putField (putField r.param 255 224 r.y) 223 192 q
          some { e with
            ctx := ctx, dbase := d, dext := r.len, lo := 0, hi := r.len, hlim := r.hlim, abase := a, aext := n
            param := if sl == 0 then p else putField p 126 75 sb }
  | _, _ => none

/-- No byte of a T2D destination range lies in a pitch gap. -/
def PnEnt.gapFree (e : PnEnt) (y n : Nat) : Bool :=
  (e.dpitch == e.nc * e.esz && y + n ≤ e.nr * e.dpitch)
  || (y / e.dpitch < e.nr && y % e.dpitch + n ≤ e.nc * e.esz)

/-- A run's entry n collapsed onto entry e, whose window holds its whole source (R115, Table 5.6). -/
def PnEnt.collapse (e n : PnEnt) : Option PnEnt :=
  let delta := n.abase - e.dbase
  if e.st == .resolving || n.abase < e.winLo || e.winHi < n.abase + n.aext then none
  else if e.xf == .ident && e.doff == e.aoff then some { n with abase := e.abase + delta }
  else if n.xf == .ident then
    if e.xf == .t2d && !e.gapFree (e.doff + delta) n.dext then none
    else some { n with
      xf := e.xf, abase := e.abase, aext := e.aext, param := putField e.param 255 224 (e.doff + delta) }
  else if e.xf == .t2d && n.xf == .t2d && e.esz == n.esz && n.abase + e.doff == e.dbase + n.aoff
      && n.apitch == e.dpitch && n.rows == e.nr && n.cols == e.nc then
    some { n with
      abase := e.abase, aext := e.aext
      param := putField (putField (putField e.param 255 224 n.doff) 135 112 n.dpitch) 109 109
        (if e.trans == n.trans then 0 else 1) }
  else none

/-- The entry after collapse in the present state, with whether it collapsed. -/
def State.planned (s : State) (n : PnEnt) : PnEnt × Bool :=
  match s.pn.filter (·.meets n.abase n.aext) with
  | [e] => match e.collapse n with
    | some c => (c, true)
    | none => (n, false)
  | _ => (n, false)

/-! ### The need (R108) -/

/-- The pieces of an IDENT run between the edges of live windows in its source (R105). -/
def State.cutRun (s : State) (r : CopyRun) : List CopyRun :=
  match r.xf, plainAt r.src r.y r.len with
  | .ident, some a =>
    let edges := (s.pn.flatMap fun e => [e.winLo, e.winHi]).filter fun x => a < x && x < a + r.len
    let cut := fun (rs : List CopyRun) (x : Nat) => rs.flatMap fun r =>
      let y := r.y
      let p := match rs.head? with
        | some q => q.y + (x - a)
        | none => 0
      if y < p && p < y + r.len then
        [{ r with len := p - y, dst := r.dst.filter (·.meets y (p - y)), src := r.src.filter (·.meets y (p - y)) },
         { r with y := p, len := y + r.len - p, dst := r.dst.filter (·.meets p (y + r.len - p)),
                  src := r.src.filter (·.meets p (y + r.len - p)) }]
      else [r]
    edges.foldl cut [r]
  | _, _ => [r]

/-- Entries whose window the whole lines of a destination lie strictly inside. -/
def State.splitsOf (s : State) (n : PnEnt) : List PnEnt :=
  s.pn.filter fun g => g.winLo < lineOf n.dbase && (n.dbase + n.dext + 127) / 128 * 128 < g.winHi

/-- Homes of an entry's index records. -/
def PnEnt.indexDies (e : PnEnt) : List Nat :=
  homeDie e.abase :: (if e.xf == .unpack && e.side != 0 then [homeDie e.side] else [])

/-- Whether an instruction's entries fit. -/
def State.fits (s : State) (ctx : Nat) (es : List PnEnt) : Bool :=
  let all := es.map (fun e => (s.planned e).1) ++ es.flatMap s.splitsOf
  decide (all.length ≤ s.pnQuota ctx - s.pnHeld ctx)
  && (List.range 8).all fun d =>
    decide (s.pnOnDie d + (all.filter (·.die == d)).length ≤ 8192)
    && decide (s.idxOnDie d + ((all.flatMap (·.indexDies)).filter (· == d)).length ≤ 8192)

/-- Whether a run has nothing left to do. -/
def CopyRun.over (r : CopyRun) : Bool := r.done == r.len && !(r.listing && r.snap.isNone)

/-- The instruction reaches its homes: runs are cut at window edges, and it is decided whether it records. -/
def State.decideCopy (s : State) (core h g seq ctx : Nat) : State :=
  let mine := fun (r : CopyRun) => r.wg == h && r.g == g && r.seq == seq
  let rs := (s.core core).copyQ.flatMap fun r => if mine r && !r.listing then s.cutRun r else [r]
  let s := s.modCore core fun c => { c with copyQ := rs }
  let fit := s.fits ctx ((rs.filter fun r => mine r && !r.listing).filterMap (·.cand ctx))
  s.modGroup h g fun gr => gr.modOp seq fun o =>
    { o with args := [if fit then 0 else 1], todo := (rs.filter mine).length }

/-! ### Order (R165) -/

/-- A run may start: R165, points 1 and 2; a side list is written before the entries of its instruction. -/
def State.runClear (s : State) (core : Nat) (prior : List Nat) (r : CopyRun) : Bool :=
  let gs := r.dst ++ r.src ++ r.side
  s.accessesDone r.wg r.g prior gs
  && (s.core core).copyQ.all fun q =>
    !(q.wg == r.wg && q.g == r.g)
    || (if q.seq == r.seq then r.listing || !q.listing || q.over
        else decide (r.seq < q.seq) || !((q.dst ++ q.src ++ q.side).any (Seg.touches gs)))

/-! ### Recording (R105, R106, R116) -/

/-- Lines of a range. -/
def linesOf (a n : Nat) : List Nat := (List.range ((a + n + 127) / 128 - a / 128)).map fun k => 128 * (a / 128 + k)

/-- The coherence attribute of a physical line among pieces. -/
def cohAt (gs : List Seg) (line : Nat) : Coh :=
  ((gs.find? fun g => match g.place with
    | .phys pa => rangesMeet pa g.n line 128
    | .loc .. => false).map (·.coh)).getD .unc

/-- The virtual address of a physical line among pieces. -/
def vaOf (gs : List Seg) (line : Nat) : Nat :=
  (gs.findSome? fun g => match g.place with
    | .phys pa => if rangesMeet pa g.n line 128 then some (g.va + (max pa line - pa)) else none
    | .loc .. => none).getD 0

/-- How a step of a run ends: done; only begun, entries having gone RESOLVING; not possible now, where translations formed
from a table line must go first (R38); or at a lost line. -/
inductive Moved where
  | ok (s : State)
  | part (s : State)
  | wait (round : Option Nat)
  | lost (line : Nat)
  deriving DecidableEq, Repr

/-- Entries go RESOLVING; none where all of them are already, and wait for their completion. -/
def State.startResolving (s : State) (es : List PnEnt) : Option State :=
  if es.all (·.st == .resolving) then none
  else some { s with pn := s.pn.map fun e => if es.any (·.id == e.id) then { e with st := .resolving } else e }

/-- Part of windows is superseded by whole lines; lines that are covered in part are resolved first (R116). -/
def State.supersede (s : State) (a n : Nat) : State :=
  let ends := (if a % 128 == 0 then [] else [lineOf a]) ++ (if (a + n) % 128 == 0 then [] else [lineOf (a + n)])
  let s := ends.foldl (fun s l => s.trimLine l) s
  (s.pn.filter (·.meets a n)).foldl (fun s e => s.cutWindow e (max a e.winLo - e.dbase) (min (a + n) e.winHi - e.dbase)) s

/-- Every copy of a line that a window now covers goes, its bytes written back first. -/
def State.coverLine (s : State) (coh : Coh) (line : Nat) : State :=
  (if coh == .dir then s.takeBack line else s).dropL2 line

/-- Entries are resolved whole (R112). One that cannot be goes RESOLVING, and stops at its first lost line (R122). -/
def State.resolveSet (s : State) (es : List PnEnt) : Moved :=
  let ls := es.flatMap (·.lines)
  if es.any (s.stuck ·) then
    match s.startResolving (es.filter (s.stuck ·)) with
    | some s => .part s
    | none => .wait none
  else if es.any (·.st == .resolving) || ls.any (!s.quiet ·) then .wait none
  else match s.translated? ls with
    | some l => .wait (some l)
    | none => .ok (es.foldl (fun s e => if s.pn.any (·.id == e.id) then s.resolveEntry e else s) s)

/-- An entry is recorded over its destination: windows under it are superseded, copies of the lines it covers go, those
of its antecedent become Shared, and it stands in the table (R106, R116). -/
def State.enterEntry (s : State) (dst : List Seg) (n : PnEnt) (ante : List Nat) : Moved :=
  let lines := linesOf n.dbase n.dext
  let ends := lines.filter fun l => l < n.dbase || n.dbase + n.dext < l + 128
  let spills := (s.pn.filter fun e => e.meets n.dbase n.dext && !s.pnRoom e).flatMap (·.lines)
  match ante.find? s.isLost, lines.find? (fun l => s.dieLost l || (s.isLost l && ends.contains l)), ends.findSome? s.lackAt with
  | some l, _, _ | none, some l, _ | none, none, some l => .lost l
  | none, none, none =>
    if (lines ++ ante).any (!s.quiet ·) || lines.any s.resolvingAt
        || lines.any (fun l => cohAt dst l == .lse && !s.leaseFree l) then .wait none
    else match s.translated? (lines ++ spills) with
      | some l => .wait (some l)
      | none =>
        let s := lines.foldl (fun s l => s.clearLost l) s
        let s := s.supersede n.dbase n.dext
        let s := lines.foldl (fun s l => s.coverLine (cohAt dst l) l) s
        let s := ante.foldl (fun s l => s.shareLine l) s
        .ok { s with pn := s.pn ++ [{ n with id := s.nextPn }], nextPn := s.nextPn + 1 }

/-- Lines of an antecedent and of a side list. -/
def PnEnt.anteLines (n : PnEnt) : List Nat :=
  linesOf n.abase n.aext ++ (if n.xf == .unpack && n.side != 0 then linesOf n.side n.sideLen else [])

/-- A run is recorded as entry n, in one step, in the order of R105: entries whose antecedent or side list the destination
meets are resolved; then the run collapses onto the entry that holds its source, or those that meet it are resolved; then
it supersedes and is entered. -/
def State.recordRun (s : State) (r : CopyRun) (n : PnEnt) : Moved :=
  match s.resolveSet (s.pn.filter (·.anteMeets n.dbase n.dext)) with
  | .ok t =>
    let (m, collapsed) := t.planned n
    let under := if collapsed then [] else t.pn.filter (·.meets n.abase n.aext)
    let sides := if n.xf == .unpack && n.side != 0 then t.pn.filter (·.meets n.side n.sideLen) else []
    match t.resolveSet (under ++ sides) with
    | .ok u => u.enterEntry r.dst m (n.anteLines ++ m.anteLines)
    | x => x
  | x => x

/-! ### Eager moves -/

/-- The lines that some parts of a range lie in. -/
def neededLines (segs : List Seg) (ps : List (Nat × Nat)) : List Nat :=
  (ps.flatMap fun p => segs.flatMap fun g =>
    if g.meets p.1 p.2 then
      match g.place with
      | .phys pa =>
        let lo := max g.off p.1
        linesOf (pa + (lo - g.off)) (min (g.off + g.n) (p.1 + p.2) - lo)
      | .loc .. => []
    else []).eraseDups

/-- Lines read coherently, one after another. -/
def State.readLines (s : State) : List Nat → Coll (List (Nat × Row) × State)
  | [] => .ok ([], s)
  | l :: ls => match s.readLine l with
    | .lost => .lost
    | .busy r => .busy r
    | .ok (row, s) => match s.readLines ls with
      | .ok (rs, s) => .ok ((l, row) :: rs, s)
      | r => r

/-- Byte q of a range whose lines have been read. -/
def State.rangeByte (s : State) (segs : List Seg) (rows : List (Nat × Row)) (q : Nat) : Byte :=
  match placeAt segs q with
  | some (.phys pa) => ((find? rows (lineOf pa)).getD 0).byte (pa % 128)
  | some (.loc h c o) => (s.gran h c (o / 16)).row.byte (o % 16)
  | none => 0

/-- The values of bytes y to y + n − 1 of the destination array. -/
def State.formBytes (s : State) (r : CopyRun) (y n : Nat) : Coll (List Byte × State) :=
  let e := blankEnt r.xf r.param
  let sl := (r.side.map (·.n)).sum
  match s.readLines ((neededLines r.src (e.needs y n) ++ neededLines r.side [(0, sl)]).eraseDups) with
  | .ok (rows, t) => .ok (e.form (s.rangeByte r.src rows) (s.rangeByte r.side rows) (fun _ => 0) sl y n, t)
  | .busy r => .busy r
  | .lost => .lost

/-- The side list that PACK or HADQ writes: as resolving would produce it, up to its capacity (R322, R233). The elements are
those of the blocks that the instruction handles (R117). -/
def State.listBytes (s : State) (r : CopyRun) : Coll (List Byte × State) :=
  let e := blankEnt r.xf r.param
  let n := max 1 e.blockElems
  match s.readLines (neededLines r.src [(0, e.nelem * e.srcSize)]) with
  | .ok (rows, t) =>
    let es := (List.range ((e.nelem + n - 1) / n)).flatMap fun k =>
      (e.packed (s.rangeByte r.src rows) k).side.map fun x => (n * k + x.1, x.2)
    let cap := ((r.dst.map (·.n)).sum) / 8
    .ok ((es.take cap).flatMap fun x => bytesOfNat 4 x.1 ++ bytesOfNat 4 x.2, t)
  | .busy r => .busy r
  | .lost => .lost

/-- Bytes of a piece that belong to the copy, in parts without a pitch gap: (offset in the piece, bytes). -/
def chunksOf (ok : Nat → Bool) : Nat → List Byte → List (Nat × List Byte)
  | _, [] => []
  | k, b :: bs =>
    let rest := chunksOf ok (k + 1) bs
    if !ok k then rest
    else match rest with
      | (j, cs) :: r => if j == k + 1 then (k, b :: cs) :: r else (k, [b]) :: rest
      | [] => [(k, [b])]

/-- A piece of an eager run at virtual address `va` leaves for its home or peer as stores, or for its granules. -/
def State.writePiece (s : State) (core : Nat) (r : CopyRun) (place : Place) (coh : Coh) (va : Nat)
    (cs : List (Nat × List Byte)) : State :=
  cs.foldl (fun s p => match place with
    | .phys pa => s.sendStore core coh (lineOf pa)
        { wg := r.wg, g := r.g, seq := r.seq, lane := 0, va := va + p.1, k := 0, off := pa % 128 + p.1, n := p.2.length
          what := .store p.2 }
    | .loc h c off => s.engineWrite c h r.g r.seq (off + p.1) p.2) s

/-- The next piece of a run: at most a line, in one piece of the destination: its place, treatment, virtual address, offset
and bytes. -/
def CopyRun.nextPiece (r : CopyRun) : Option (Place × Coh × Nat × Nat × Nat) :=
  let y := r.y + r.done
  match r.dst.find? (fun g => g.off ≤ y && y < g.off + g.n), placeAt r.dst y with
  | some g, some p =>
    let a := match p with
      | .phys pa => pa
      | .loc _ _ o => o
    some (p, g.coh, g.va + (y - g.off), y, min (min (r.len - r.done) (g.off + g.n - y)) (128 - a % 128))
  | _, _ => none

/-- Whether a run overlaps its own source (R116). -/
def CopyRun.selfMeets (r : CopyRun) : Bool :=
  let gs := r.dst.filter (·.meets r.y r.len)
  (r.src ++ r.side).any (Seg.touches gs)

/-- One step of an eager run: what a memmove or a side list writes is read whole first; else one piece is read
and written. The new run is returned. -/
def State.eagerStep (s : State) (core : Nat) (r : CopyRun) : Coll (CopyRun × State) :=
  if r.listing && r.snap.isNone then
    match s.listBytes r with
    | .ok (bs, s) => .ok ({ r with snap := some bs, len := bs.length }, s)
    | .busy r => .busy r
    | .lost => .lost
  else if r.snap.isNone && r.selfMeets then
    match s.formBytes r r.y r.len with
    | .ok (bs, s) => .ok ({ r with snap := some bs }, s)
    | .busy r => .busy r
    | .lost => .lost
  else match r.nextPiece with
    | none => .ok ({ r with done := r.len }, s)
    | some (p, coh, va, y, n) =>
      let got := match r.snap with
        | some bs => Coll.ok ((bs.drop r.done).take n, s)
        | none => s.formBytes r y n
      match got with
      | .busy r => .busy r
      | .lost => .lost
      | .ok (bs, s) =>
        .ok ({ r with done := r.done + n }, s.writePiece core r p coh va (chunksOf (fun k => r.writesAt (y + k)) 0 bs))

/-- The first lost line among those of a run. -/
def State.lostLineOf (s : State) (r : CopyRun) : Nat :=
  let all := neededLines r.dst [(r.y, r.len)] ++ (match r.span with
    | some p => neededLines r.src [p]
    | none => []) ++ neededLines r.side [(0, (r.side.map (·.n)).sum)]
  (all.find? s.isLost).getD 0

/-! ### The copy engine -/

/-- The i-th run of a core's queue after a step; `time`: it is recorded, and its instruction takes the time of the record
point. A run that is over leaves its instruction one part less. -/
def State.putRun (s : State) (core i : Nat) (r : CopyRun) (time : Bool) : State :=
  let s := s.modCore core fun c => { c with copyQ := modAt (fun _ => r) c.copyQ i }
  s.modGroup r.wg r.g fun gr => match gr.op? r.seq with
    | none => gr
    | some o =>
      let gr := if time then gr.takeTime o (upTick s.cycle) else gr
      if r.over then gr.modOp r.seq fun o => { o with todo := o.todo - 1 } else gr

/-- A run meets a lost line after its issue: it ends, and its path takes HOME_LOST (R149). -/
def State.loseRun (s : State) (core i : Nat) (r : CopyRun) (line : Nat) : State :=
  let s := s.putRun core i { r with done := r.len, snap := some (r.snap.getD []) } false
  s.modGroup r.wg r.g fun gr => match gr.op? r.seq with
    | none => gr
    | some o => gr.addPend
        { path := o.path, cause := .homeLost, info := homeDie line, faddr := vaOf (r.dst ++ r.src ++ r.side) line,
          p31 := o.mask, ap := false }

/-- One step of the i-th run of a core's copy engine. -/
def State.runStep (s : State) (core i : Nat) : Option State :=
  match (s.core core).copyQ[i]? with
  | none => none
  | some r => match (s.group? r.wg r.g).bind (·.op? r.seq), s.wg? r.wg with
    | some o, some w =>
      if r.over || !s.runClear core o.prior r then none
      else if o.args.isEmpty then some (s.decideCopy core r.wg r.g r.seq w.ctx)
      else
        let entry := if r.listing || r.done != 0 || r.snap.isSome || o.args != [0] then none
          else (r.cand w.ctx).filter fun e =>
            s.pnRoom e && !(s.pn.any fun f => f.mirror && f.anteMeets e.dbase e.dext)
        match entry with
        | some e => match s.recordRun r e with
          | .wait round => s.begin? round
          | .part t => some t
          | .lost l => some (s.loseRun core i r l)
          | .ok t => some (t.putRun core i { r with done := r.len } true)
        | none => match s.eagerStep core r with
          | .busy round => s.begin? round
          | .lost => some (s.loseRun core i r (s.lostLineOf r))
          | .ok (r, s) => some (s.putRun core i r false)
    | _, _ => none

/-- RECORD_ENTRY: the copy engine of a core takes the first of its runs that can go on. -/
def State.copyStep (s : State) (core : Nat) : Option State :=
  (List.range (s.core core).copyQ.length).findSome? (s.runStep core)

/-! ### The instructions -/

/-- The runs of an instruction enter the copy engine's queue. -/
def State.enqueueCopy (s : State) (core : Nat) (rs : List CopyRun) : State :=
  s.modCore core fun c => { c with copyQ := c.copyQ ++ rs }

/-- The run that writes the side list of a PACK or HADQ, for the first n bytes of the destination (R105, R117). -/
def CopyJob.listRun (j : CopyJob) (proto : CopyRun) (dst : List Seg) (n : Nat) : CopyRun :=
  let e := blankEnt j.xf j.param
  { proto with
    param := putField j.param 191 160 (min e.nelem (n / 64 * e.blockElems))
    dst := dst, listing := true }

/-- The pages of a copy are used: D is set in those it writes (R32). -/
def State.useCopy (s : State) (core : Nat) (writes reads : List Trans) : Used :=
  match s.useAll core true writes with
  | .ok t => t.useAll core false reads
  | r => r

/-- A COPY or COPYX after its format check. -/
def copyBody (i : Instr) (scope : ScopeSel) (d a : Opnd) (j : CopyJob) (x : Iss) : Res :=
  let da := x.dword 0 d
  let sa := x.dword 1 a
  let listing := j.xf == .pack || j.xf == .hadq
  if j.bad da sa then .trap (x.whole .copyFormat)
  else if j.dn == 0 then .done x.gr [] []
  else
    let sideKind := if listing then Kind.dst else .src
    let dst := x.copyRange .dst da j.dn
    let src := x.copyRange .src sa j.sn
    let side := if j.sideVa == 0 then x.copyRange .src 0 0 else x.copyRange sideKind j.sideVa j.sideN
    let all := [dst, src, side]
    match all.findSome? (·.bad) with
    | some f => .trap { x.whole f.cause f.info with faddr := f.addr }
    | none =>
      if all.any fun r => !r.walks.isEmpty then
        .stall .walk (((x.s.askWalks x.gr.core x.w.ctx .dst x.gr.sup dst.walks).askWalks x.gr.core x.w.ctx .src
          x.gr.sup src.walks).askWalks x.gr.core x.w.ctx sideKind x.gr.sup side.walks)
      else
        let fault := lowestFault (all.flatMap (·.faults))
        let n := j.upTo da dst src side
        let proto : CopyRun :=
          { wg := x.h, g := x.g, seq := x.gr.nextSeq, hlim := bitsOf x.gr.sr.pnheat.toNat 7 0, xf := j.xf
            param := j.param, y := 0, len := 0, dst := dst.segs, src := src.segs
            side := if listing then [] else side.segs
            listing := false, snap := none, done := 0 }
        let runs := j.runs proto 0 n (n + 1)
        let lists := if listing && !side.segs.isEmpty && n != 0 then [j.listRun proto side.segs n] else []
        let used := fun (r : Ranged) (gs : List Seg) => ((r.segs.zip r.trans).filter fun p => gs.contains p.1).map (·.2)
        let writes := used dst (runs.flatMap (·.dst)) ++ (if lists.isEmpty then [] else side.trans)
        let reads := used src (runs.flatMap (·.src)) ++ (if listing || n == 0 then [] else side.trans)
        match x.s.useCopy x.gr.core writes reads with
        | .wait as => .stall .busy (x.s.asks as)
        | .ok s =>
          let s := if fault.isSome then s.dropFaults x.gr.core x.w.ctx else s
          let y := { x with s := s }
          let o := { x.newOp i [] with
            scope := scopeSel x.w scope, todo := (lists ++ runs).length
            leafs := ((dst.trans ++ src.trans ++ side.trans).flatMap (·.via)).eraseDups }
          match fault with
          | none => .state ((y.launchOp i o).enqueueCopy x.gr.core (lists ++ runs))
          | some f =>
            if n == 0 then
              .state (x.raiseIn (s.modGroup x.h x.g fun gr => { gr with sr := { gr.sr with cpbytes := 0 } })
                { x.whole f.cause f.info with faddr := f.addr })
            else
              -- the path waits for the prefix, and takes the fault when that is complete
              let t := y.holdOp i { o with step := n, cause := some (f.cause, f.info, f.addr) }
              .state ((t.modGroup x.h x.g fun gr => { gr with ports := x.gr.ports }).enqueueCopy x.gr.core (lists ++ runs))

def execCopy (c : Ctl) (scope : ScopeSel) (d a b : Opnd) (s : State) : Out :=
  issue (.copy c scope d a b) s fun x => copyBody (.copy c scope d a b) scope d a (plainJob (x.word 2 b)) x

def execCopyxT2d (c : Ctl) (scope : ScopeSel) (d a b : Opnd) (s : State) : Out :=
  issue (.copyxT2d c scope d a b) s fun x => copyBody (.copyxT2d c scope d a b) scope d a (t2dJob (x.raw 2 b 8 0)) x

def execCopyxPack (c : Ctl) (scope : ScopeSel) (d a b : Opnd) (s : State) : Out :=
  issue (.copyxPack c scope d a b) s fun x =>
    copyBody (.copyxPack c scope d a b) scope d a (packJob .pack (x.raw 2 b 8 0)) x

def execCopyxUnpack (c : Ctl) (scope : ScopeSel) (d a b : Opnd) (s : State) : Out :=
  issue (.copyxUnpack c scope d a b) s fun x =>
    copyBody (.copyxUnpack c scope d a b) scope d a (unpackJob (x.raw 2 b 8 0)) x

def execCopyxHadq (c : Ctl) (scope : ScopeSel) (d a b : Opnd) (s : State) : Out :=
  issue (.copyxHadq c scope d a b) s fun x =>
    copyBody (.copyxHadq c scope d a b) scope d a (packJob .hadq (x.raw 2 b 8 0)) x

def execRecordEntry (core : Nat) (s : State) : Out := event "RECORD_ENTRY" (s.copyStep core)

end Sys2Proof.Machine
end

