-- ==== Sys2Proof/Machine/Dist.lean ====
section
/-!
DEFINITION. The distributor: launch records and their checks (R197 to R199), placement (R201, R202, R211, R215),
the state in which a group starts (R200), swaps of banks (R212, R213), the full context switch (R214), the end of a
workgroup (R203) and the settling of a kill (R384).
-/
namespace Sys2Proof.Machine

/-! ### Records -/

/-- Permits of port j (R188). -/
def Workgroup.permitsOf (w : Workgroup) (j : Nat) : Nat := recField w.raw (429 + 7 * j) (423 + 7 * j)

/-- A record as a workgroup that is not placed. -/
def unplaced (handle : Nat) (raw : BitVec 1024) (launcher : Nat := 0) : Workgroup :=
  ({ handle := handle, raw := raw, launcher := launcher, arrived := 0, reserving := false, resume := none } : Queued).dead

/-- Groups that slot j of a placement runs in a quarter (R172). -/
def Workgroup.share (w : Workgroup) (j quarter : Nat) : List Nat :=
  (List.range w.nGroups).filter fun g => g % w.nCores == j && g / w.nCores % 4 == quarter

/-- Primary groups of a quarter, or shadow groups. -/
def quarterSlots (shadow : Bool) : Nat := if shadow then 4 else 16

/-- What one slot of a placement asks of its core: the groups of each quarter with their V and M needs. A
resumable record asks for the holdings it had (R215). -/
structure Need where
  count : Nat
  v : Nat
  m : Nat
  deriving DecidableEq, Repr

def Workgroup.needs (w : Workgroup) (j quarter : Nat) : Need :=
  let gs := w.share j quarter
  let of := fun (pool : Pool) (g : Nat) =>
    max ((w.limits g).floor pool) (((w.group? g).map (·.holding pool)).getD 0)
  { count := gs.length, v := (gs.map (of .v)).sum, m := (gs.map (of .m)).sum }

/-- Whether a workgroup fits an empty device (Table 9.2, FORMAT). -/
def Workgroup.fitsEmpty (w : Workgroup) : Bool :=
  (List.range w.nCores).all fun j => (List.range 4).all fun q =>
    let n := w.needs j q
    decide (n.count ≤ quarterSlots w.preempt) && decide (n.v ≤ poolSize w.preempt .v)
      && decide (n.m ≤ poolSize w.preempt .m)

/-- The checks of FORMAT on a record alone. -/
def Workgroup.formatOk (w : Workgroup) : Bool :=
  recField w.raw 7 0 == 1 && w.level != 3
  && decide (1 ≤ w.threads) && decide (w.threads ≤ 65536) && decide (recField w.raw 405 399 ≤ 64)
  && (w.level != 2 || (decide (8 ≤ w.nCores) && decide (w.nCores ≤ 32) && w.nCores % 4 == 0))
  && decide (recField w.raw 479 451 ≤ 0x1000_0000)
  && (List.range 4).all (fun j => decide (1 ≤ w.permitsOf j) && decide (w.permitsOf j ≤ 64))
  && (List.range 4).all (fun r =>
    let l := limitsOf w.raw r
    decide (l.vFloor ≤ l.vCeil) && decide (l.vCeil ≤ 16) && decide (l.mFloor ≤ l.mCeil) && decide (l.mCeil ≤ 512))
  && w.lanePc % 4 == 0 && w.privBase % 0x1_0000 == 0
  && (!w.preempt || (w.prio == 7 && w.gang == 0))
  && w.fitsEmpty

/-- Records of a priority queue. -/
def State.queue (s : State) (prio : Nat) : List Queued := (s.queues[prio]?).getD []
def State.setQueue (s : State) (prio : Nat) (q : List Queued) : State := { s with queues := modAt (fun _ => q) s.queues prio }

/-- Two records of one gang. DEDUCED (log 59): the identifier counts within the context that launches, so that a member's
CTX may differ from the first member's, which Table 9.2 answers with FORMAT. -/
def Workgroup.sameGang (a b : Workgroup) : Bool := a.gang != 0 && a.gang == b.gang && a.launcher == b.launcher

/-- The checks of FORMAT on a gang member: its queue is that of the first member, and the gang is not placed. -/
def State.gangOk (s : State) (w : Workgroup) : Bool :=
  !(s.wgs.any fun e => e.2.sameGang w)
  && (s.queues.flatMap id).all fun q => !q.dead.sameGang w || (q.resume.isNone && q.dead.prio == w.prio && q.dead.ctx == w.ctx)

/-- The status of Table 9.2. -/
def State.launchStatus (s : State) (r : LaunchReq) : Nat :=
  let w := unplaced 0 r.raw r.ctx
  if !w.formatOk || !s.gangOk w then 2
  else if (w.ctx != r.ctx || w.preempt) && r.ctx != 0 && !r.sup then 3
  else if 1024 ≤ (s.queue w.prio).length then 1
  else 0

/-- A handle that no live workgroup has. -/
def State.freeHandle (s : State) : Nat :=
  let used := s.wgs.map (·.1) ++ (s.queues.flatMap id).map (·.handle)
  let tries := (List.range (used.length + 1)).map fun k => (s.nextHandle + k) % 2 ^ 24
  (tries.find? fun h => !used.contains h).getD 0

/-- The response of a slot (Table 9.3): HANDLE, STATUS and RSEQ, by a plain store. -/
def State.respond (s : State) (page slot seq status handle : Nat) : State :=
  let i := 16 * slot + 9
  let g := s.gran 0 (1024 + page) i
  let bs := bytesOfNat 4 seq ++ bytesOfNat 1 status ++ bytesOfNat 3 handle
  s.setGran 0 (1024 + page) i (g.withRow (g.row.putBytes 0 bs))

/-- The answer to a LAUNCH: to the registers of its instruction, or to the slot of its doorbell, where a record that is
not accepted has no handle (R436). -/
def State.answerLaunch (s : State) (r : LaunchReq) (status handle : Nat) : State :=
  match r.mail with
  | none => s.answer r.wg r.g r.seq [BitVec.ofNat 32 status, BitVec.ofNat 32 handle]
  | some (page, slot, seq) => s.respond page slot seq status (if status == 0 then handle else 0xFF_FFFF)

/-- LAUNCH_ARRIVAL: the oldest record on its way is checked, queued, and answered. -/
def State.launchStep (s : State) : Option State :=
  match s.launches with
  | [] => none
  | r :: rest =>
    let s := { s with launches := rest }
    let st := s.launchStatus r
    if st != 0 then some (s.answerLaunch r st 0xFFFF_FFFF)
    else
      let h := s.freeHandle
      let q : Queued := { handle := h, raw := r.raw, launcher := r.ctx, arrived := s.tick, reserving := false, resume := none }
      let p := (unplaced h r.raw).prio
      let s := { (s.setQueue p (s.queue p ++ [q])) with nextHandle := (h + 1) % 2 ^ 24 }
      some (s.answerLaunch r 0 h)

/-! ### What is free on a core -/

/-- Workgroups of a bank of a core. -/
def State.residents (s : State) (core : Nat) (shadow : Bool) : List Workgroup :=
  (s.wgs.filter fun e => e.2.shadow == shadow && e.2.cores.any (·.core == core)).map (·.2)

/-- The lowest base at which a region of n bytes lies free in a core's local memory. -/
def State.freeBase (s : State) (core n : Nat) : Option Nat :=
  let used := s.wgs.flatMap fun e => (e.2.cores.filter fun c => c.core == core && !c.freed && c.size != 0).map
    fun c => (c.base, c.size)
  let ends := 0 :: used.map fun u => u.1 + u.2
  let ok := ends.filter fun b => b + n ≤ 0x4_0000 && used.all fun u => b + n ≤ u.1 || u.1 + u.2 ≤ b
  ok.foldl (fun m b => match m with
    | none => some b
    | some a => some (min a b)) none

/-- Whether a quarter takes what a slot asks (R201, R192). -/
def State.quarterFits (s : State) (core : Nat) (shadow : Bool) (quarter : Nat) (n : Need) (resumed : Bool) : Bool :=
  let here := (s.quarterGroups core shadow quarter).filter fun x => !(x.2.ended && x.2.ops.isEmpty)
  let floors := fun (pool : Pool) => (here.map fun x => (x.1.limits x.2.gid).floor pool).sum
  decide (here.length + n.count ≤ quarterSlots shadow)
  && decide (floors .v + n.v ≤ poolSize shadow .v) && decide (floors .m + n.m ≤ poolSize shadow .m)
  && (!resumed || (decide (n.v ≤ s.poolFree core shadow quarter .v) && decide (n.m ≤ s.poolFree core shadow quarter .m)))

/-- Whether a core takes slot j of a workgroup (R201). -/
def State.coreFits (s : State) (w : Workgroup) (ten : Nat) (j core : Nat) : Bool :=
  !(s.core core).fenced && !(s.quad (quadOf core)).fenced && !(s.die (dieOf core)).fenced
  && (s.residents core w.preempt).all (fun r => r.tenancy == ten)
  && (s.freeBase core w.localSize).isSome
  && (List.range 4).all fun q => s.quarterFits core w.preempt q (w.needs j q) (!w.groups.isEmpty)

/-! ### Choosing cores -/

/-- The placement a die offers: the lowest core, the lowest quad, or the lowest quads (R201). -/
def State.placeOnDie (s : State) (w : Workgroup) (ten : Nat) (die : Nat) (ok : Nat → Bool) : Option (List Nat) :=
  let fits := fun (j core : Nat) => ok core && s.coreFits w ten j core
  let quads := (List.range 32).map fun k => 32 * die + k
  match w.level with
  | 0 => ((List.range 128).map (128 * die + ·)).find? (fits 0) |>.map ([·])
  | _ =>
    let n := w.nCores / 4
    let got := quads.foldl (fun (cs : List Nat) q =>
      if cs.length < 4 * n && (List.range 4).all fun k => fits (cs.length + k) (4 * q + k) then cs ++ coresOfQuad q
      else cs) []
    if got.length == 4 * n then some got else none

/-- Dies in the order of the search: from the one after the last placement, going up modulo 8. -/
def State.dieOrder (s : State) : List Nat := (List.range 8).map fun k => (s.lastDie + 1 + k) % 8

def State.findPlace (s : State) (w : Workgroup) (ten : Nat) (ok : Nat → Bool) : Option (List Nat) :=
  s.dieOrder.foldl (fun r d => match r with
    | some cs => some cs
    | none => s.placeOnDie w ten d ok) none

/-- The placement of a record; a PREEMPT record prefers cores whose shadow slot holds its tenancy (R211). -/
def State.choose (s : State) (w : Workgroup) (ten : Nat) : Option (List Nat) :=
  if w.preempt then
    match s.findPlace w ten fun c => (s.core c).tenancy.2 == some ten with
    | some cs => some cs
    | none => s.findPlace w ten fun _ => true
  else s.findPlace w ten fun _ => true

/-! ### The start of a group (R171, R200) -/

/-- Lanes of group g that hold a thread. -/
def Workgroup.launchMask (w : Workgroup) (g : Nat) : Mask :=
  Mask.ofLanes ((List.range 32).filter fun l => g * 32 + l < w.threads)

/-- A group at its start, on a core, holding nothing yet. -/
def Group.fresh (s : State) (w : Workgroup) (g core : Nat) : Group :=
  let args : SMap Word := [(0, BitVec.ofNat 32 w.argPtr), (1, BitVec.ofNat 32 (w.argPtr / 2 ^ 32))]
  let first : Path := { Path.free with
    st := .ready, pc := w.lanePc, mask := w.launchMask g, ageFrom := s.clock core }
  { gid := g, slot := g % w.nCores, core := core, quarter := g / w.nCores % 4, started := false, ended := false,
    halted := false, role := w.roleOf g, launch := w.launchMask g, paths := [first, .free, .free, .free], v := [],
    s := args, preds := [], m := [], a := [], sb := [], ops := [], nextSeq := 1, ctrs := [0, 0, 0, 0],
    horizon := List.replicate 8 0
    ap := { st := if w.apPc == 0 then .exited else .running, pc := w.apPc, s := args, p := 0, fbuf := [], wait := none,
            nest := none, fenceAt := none, notBefore := 0 }
    ports := (List.range 4).map fun j => { words := [], permits := w.permitsOf j }
    sr := { GroupSr.reset with tvec := look 0 s.reg.handlers w.ctx }
    vhold := 0, mhold := 0, given := [], joined := false, grantedWhileHalted := [], pend := [] }

/-- A floor is taken at once where it is free, or waits ahead of every claim (R192). -/
def State.takeFloor (s : State) (h g : Nat) (pool : Pool) : State :=
  match s.wg? h, s.group? h g with
  | some w, some gr =>
    let k := (w.limits g).floor pool
    let free := (s.core gr.core).front.moves w.shadow && !((s.core gr.core).claims.any fun c =>
      c.floor && c.shadow == w.shadow && c.quarter == gr.quarter && c.pool == pool)
    if k == 0 || (free && k ≤ s.poolFree gr.core w.shadow gr.quarter pool) then s.modGroup h g (·.acquire pool k)
    else
      let c : Claim := { shadow := w.shadow, quarter := gr.quarter, pool := pool, wg := h, g := g, path := 0, k := k,
                         floor := true }
      s.modCore gr.core fun x => { x with claims := x.claims ++ [c] }
  | _, _ => s

/-- A group starts once no floor of it waits. -/
def State.startGroup (s : State) (h g : Nat) : State :=
  let s := (s.takeFloor h g .v).takeFloor h g .m
  s.modGroup h g fun gr =>
    { gr with started := !((s.core gr.core).claims.any fun c => c.floor && c.wg == h && c.g == g) }

/-! ### Tenancy (R98) -/

/-- L1 lines of a tenancy on a core. -/
def State.tenantLines (s : State) (core ten : Nat) : List L1Line :=
  (s.core core).l1d.filter fun l => s.tenancyOf l.ctx == ten

/-- Dirty lines of the old tenancy are written back, and all of its lines are invalidated. -/
def State.flushTenancy (s : State) (core ten : Nat) : State :=
  let ls := s.tenantLines core ten
  let s := ls.foldl (fun s l => s.evictLine core l) s
  s.modCore core fun c => { c with l1i := c.l1i.filter fun l => s.tenancyOf l.ctx != ten }

/-- The primary slot of a core takes a tenancy. -/
def State.takeTenancy (s : State) (core ten : Nat) : State :=
  let old := (s.core core).tenancy.1
  if old == some ten then s
  else
    let s := match old with
      | some o => s.flushTenancy core o
      | none => s
    s.modCore core fun c => { c with tenancy := (some ten, c.tenancy.2) }

/-! ### Placement -/

/-- The parts of a workgroup on its cores: cleared regions, no cluster (R74, R75). -/
def State.parts (s : State) (w : Workgroup) (cores : List Nat) : List WgCore :=
  cores.map fun c =>
    { core := c, base := (s.freeBase c w.localSize).getD 0, size := w.localSize, grans := [], freed := false,
      cluster := none, pos := 0, joins := 0, map := [], joining := none, leaving := none, cleaver := none }

/-- The core of group g. -/
def coreAt (cores : List Nat) (w : Workgroup) (g : Nat) : Nat := cores.getD (g % w.nCores) 0

/-- A new workgroup stands on its cores. -/
def State.placeNew (s : State) (q : Queued) (ten : Nat) (cores : List Nat) : State :=
  let w := { q.dead with
    tenancy := ten, shadow := q.dead.preempt, phases := List.replicate 16 0, cores := s.parts q.dead cores }
  let w := { w with groups := (List.range w.nGroups).map fun g => (g, Group.fresh s w g (coreAt cores w g)) }
  let s := s.setWg q.handle w
  let s := if w.shadow then s else cores.foldl (fun s c => s.takeTenancy c ten) s
  (List.range w.nGroups).foldl (fun s g => s.startGroup q.handle g) s

/-! A resumable record (R215). -/

/-- The granules of a region from its saved bytes; the bits are those it had. -/
def gransOf (bs : List Byte) (old : SMap Gran) : SMap Gran :=
  ((List.range (bs.length / 16)).map fun i =>
    (i, ({ data := BitVec.ofNat 128 (natOfBytes ((bs.drop (16 * i)).take 16)),
           full := (look Gran.empty old i).full, waiters := [] } : Gran))).filter fun e => e.2 != Gran.empty

/-- Regions, read back from the save area in the workgroup's context. -/
def State.loadRegions (s : State) (w : Workgroup) : List (Nat × WgCore) → VRes (List WgCore × State)
  | [] => .ok ([], s)
  | (j, c) :: r =>
    match s.vLoad c.core w.ctx false (w.regionAddr j) c.size with
    | .ok (bs, s) => match s.loadRegions w r with
      | .ok (cs, s) => .ok ({ c with grans := gransOf bs c.grans } :: cs, s)
      | x => x
    | .walk s => .walk s
    | .fault f => .fault f
    | .busy => .busy

/-- Groups, each with its image; one that had not started begins anew. -/
def State.loadGroups (s : State) (w : Workgroup) (cores : List Nat) : List (Nat × Group) → VRes (SMap Group × State)
  | [] => .ok ([], s)
  | (g, gr) :: r =>
    let core := coreAt cores w g
    let moved := { gr with core := core, slot := g % w.nCores, quarter := g / w.nCores % 4, joined := false }
    let more := fun (x : Group) (s : State) => match s.loadGroups w cores r with
      | .ok (gs, s) => VRes.ok ((g, x) :: gs, s)
      | x => x
    if gr.ended then more moved s
    else if !gr.started then more (Group.fresh s w g core) s
    else match s.readImage core w.ctx gr.sup (w.slotAddr g) with
      | .ok (m, s) => more (moved.ofImage m (s.clock moved.core)) s
      | .walk s => .walk s
      | .fault f => .fault f
      | .busy => .busy

/-- Saved claims enter the tails of their new queues in the order of their old places. -/
def State.reclaim (s : State) (h : Nat) (cs : List (Nat × Pool × Nat × Nat)) : State :=
  cs.foldl (fun s x => match s.group? h x.1 with
    | none => s
    | some gr =>
      let c : Claim := { shadow := false, quarter := gr.quarter, pool := x.2.1, wg := h, g := x.1, path := x.2.2.1,
                         k := x.2.2.2, floor := false }
      s.modCore gr.core fun y => { y with claims := y.claims ++ [c] }) s

/-- A resumable workgroup stands on new cores. -/
def State.placeAgain (s : State) (old : Workgroup) (ten : Nat) (cores : List Nat) : VRes State :=
  let w := { old with tenancy := ten, shadow := false, evict := .no, claims := [] }
  let parts := (s.parts w cores).zip old.cores |>.map fun p => { p.1 with grans := p.2.grans }
  match s.loadRegions w ((List.range parts.length).zip parts) with
  | .walk s => .walk s
  | .fault f => .fault f
  | .busy => .busy
  | .ok (parts, s) => match s.loadGroups w cores old.groups with
    | .walk s => .walk s
    | .fault f => .fault f
    | .busy => .busy
    | .ok (gs, s) =>
      let s := cores.foldl (fun s c => s.takeTenancy c ten) (s.setWg w.handle { w with cores := parts, groups := gs })
      let s := gs.foldl (fun s g => s.unarrive w.handle g.1) s
      let s := (gs.filter fun g => !g.2.started && !g.2.ended).foldl (fun s g => s.startGroup w.handle g.1) s
      .ok (s.reclaim w.handle old.claims)

/-- One record is placed where it fits: none where it does not. A resumable one whose save area faults is
killed. -/
def State.placeOne (s : State) (q : Queued) : Option (VRes State) :=
  let w := q.resume.getD q.dead
  let ten := s.tenancyOf w.ctx
  match s.choose w ten with
  | none => none
  | some cores =>
    let s' := { s with lastDie := cores.headD 0 / 128 }
    match q.resume with
    | none => some (.ok (s'.placeNew q ten cores))
    | some old => match s'.placeAgain old ten cores with
      | .fault f => some (.ok ((s.setWg old.handle { old with groups := [], cores := [] }).killWg old.handle f.cause.code))
      | r => some r

/-- Several records, one after another, all or none. -/
def State.placeAll (s : State) : List Queued → Option (VRes State)
  | [] => some (.ok s)
  | q :: qs => match s.placeOne q with
    | none => none
    | some (.ok s) => s.placeAll qs
    | r => r

/-- The records that stand or fall with the head of a queue: its gang, once all of it has been accepted. A
resumable head is placed alone. DESIGN CHOICE (log 123): the head's GANGN counts where members give different ones, and
of more members than that the earliest are placed. -/
def State.headGang (s : State) (prio : Nat) : Option (List Queued) :=
  match s.queue prio with
  | [] => none
  | q :: rest =>
    if q.dead.gang == 0 || q.resume.isSome then some [q]
    else
      let gang := (q :: rest).filter fun x => x.dead.sameGang q.dead
      if q.dead.gangN ≤ gang.length then some (gang.take q.dead.gangN) else none

/-- How the try of one queue's head ends. -/
inductive Tried where
  | placed (r : VRes State)
  | blocked
  | empty
  deriving DecidableEq, Repr

def State.tryQueue (s : State) (prio : Nat) : Tried :=
  if (s.queue prio).isEmpty then .empty
  else match s.headGang prio with
    | none => .blocked
    | some qs =>
      match (s.setQueue prio ((s.queue prio).filter fun q => !qs.any (·.handle == q.handle))).placeAll qs with
      | none => .blocked
      | some r => .placed r

/-- Whether a queue's head is reserving: it has waited 1024 ticks (R202). -/
def State.isReserving (s : State) (q : Queued) : Bool := q.reserving || decide (q.arrived + 1024 ≤ s.tick)

/-- PLACEMENT: the head of the highest queue that fits is placed. Below a reserving head nothing is. -/
def State.placeFrom (s : State) : List Nat → Option State
  | [] => none
  | p :: ps => match s.tryQueue p with
    | .placed (.ok s) => some s
    | .placed (.walk as) => s.asked? as
    | .placed _ => none
    | .empty => s.placeFrom ps
    | .blocked => if ((s.queue p).head?).any (s.isReserving ·) then none else s.placeFrom ps

def State.placementStep (s : State) : Option State := s.placeFrom [7, 6, 5, 4, 3, 2, 1, 0]

/-- RESERVING_HEAD: a head that has waited 1024 ticks. -/
def State.reserveStep (s : State) (prio : Nat) : Option State :=
  match s.queue prio with
  | [] => none
  | q :: rest =>
    if q.reserving || s.tick < q.arrived + 1024 then none else some (s.setQueue prio ({ q with reserving := true } :: rest))

/-! ### Swaps (R212, R213) -/

/-- A shadow workgroup of a core that has not ended, wherever its groups are, or a write to a shadow register of the core
that has not landed (R212). -/
def State.shadowBusy (s : State) (core : Nat) : Bool :=
  (s.residents core true).any fun w => w.groups.any fun g =>
    !g.2.ended || (g.2.core == core && g.2.ops.any fun o => !o.landed && !o.dst.isEmpty)

/-- SWAP: the primary bank stops, and the shadow groups may issue at the latest time the rules allow; a change of
the shadow slot's tenancy adds a cycle for each line it flushes, also where the shadow bank holds the core already
(R98). -/
def State.swapStep (s : State) (core : Nat) : Option State :=
  let c := s.core core
  let primary := match c.front with | .primary | .toPrimary _ => true | _ => false
  match (s.residents core true).head? with
  | none => none
  | some w =>
    if !(primary || c.tenancy.2 != some w.tenancy) || !s.shadowBusy core then none
    else
      let now := s.clock core
      match c.tenancy.2 with
      | some o =>
        if o == w.tenancy then some (s.modCore core fun c => { c with front := .toShadow (now + 96) })
        else
          let n := (s.tenantLines core o).length + (c.l1i.filter fun l => s.tenancyOf l.ctx == o).length
          some ((s.flushTenancy core o).modCore core fun c =>
            { c with front := .toShadow (now + 96 + n), tenancy := (c.tenancy.1, some w.tenancy) })
      | none => some (s.modCore core fun c =>
          { c with front := .toShadow (now + 96), tenancy := (c.tenancy.1, some w.tenancy) })

/-- SWAP_BACK: the shadow work has ended and its writes have landed. -/
def State.swapBackStep (s : State) (core : Nat) : Option State :=
  let shadow := match (s.core core).front with | .shadow | .toShadow _ => true | _ => false
  if shadow && !s.shadowBusy core then
    some (s.modCore core fun c => { c with front := .toPrimary (s.clock core + 96) })
  else none

/-! ### The full context switch (R214) -/

/-- Whether nothing a workgroup issued is on its way. -/
def Workgroup.drained (w : Workgroup) : Bool :=
  w.groups.all fun g => g.2.ops.isEmpty && g.2.ctrs.all (· == 0)

/-- Pending claims in the order of their places: by group, pool, path and size. -/
def State.claimsOf (s : State) (h : Nat) : List (Nat × Pool × Nat × Nat) :=
  s.cores.flatMap fun c => (c.2.claims.filter fun x => x.wg == h && !x.floor).map fun x => (x.g, x.pool, x.path, x.k)

/-- Bytes that the device writes and the manual does not encode (Table 11.8): free values. -/
def State.freeBytes (s : State) : Nat → List Byte × State
  | 0 => ([], s)
  | n + 1 =>
    let (r, s) := s.free
    let (bs, s) := s.freeBytes n
    (r.bytes ++ bs, s)

/-- Rows behind the record in the header: the resumable state and the pending claims with their places. DESIGN CHOICE
(log 125): one for each 128 bytes of that is 31 rows, the rest of the header's first 4 KiB. -/
def headerRows : Nat := 31

/-- Rows that hold the full/empty bits of a region, behind its bytes, where its 256 KiB leave room (log 125). -/
def bitRows (size : Nat) : Nat :=
  let n := (size / 128 + 127) / 128
  if size + 128 * n ≤ 0x4_0000 then n else 0

/-- Images, regions with their bits, and the header with the record are written to the save area. -/
def State.saveAll (s : State) (w : Workgroup) : VRes State :=
  let (head, s) := s.freeBytes headerRows
  let slots := (List.range w.cores.length).zip w.cores
  let core := (slots.head?.map (·.2.core)).getD 0
  let (bits, s) := s.freeBytes (w.cores.map fun c => bitRows c.size).sum
  let regions := slots.map fun x =>
    let before := ((w.cores.take x.1).map fun c => bitRows c.size).sum
    (w.regionAddr x.1, s.localBytes w.handle x.2.core 0 x.2.size ++ (bits.drop (128 * before)).take (128 * bitRows x.2.size))
  let images := (w.groups.filter fun g => g.2.started && !g.2.ended).flatMap fun g =>
    (s.image w g.2).map fun x => (w.slotAddr g.1 + x.1, x.2)
  s.vStores core w.ctx (w.groups.any (·.2.sup)) (((w.saveBase, bytesOfNat 128 w.raw.toNat ++ head) :: regions) ++ images)

/-- The workgroup leaves the cores; its record is at the head of its queue, resumable. DESIGN CHOICE (log 124): its wait
for the reserving rule begins here. -/
def State.unplace (s : State) (w : Workgroup) : State :=
  let q : Queued := { handle := w.handle, raw := w.raw, launcher := w.launcher, arrived := s.tick, reserving := false,
                      resume := some { w with claims := s.claimsOf w.handle } }
  let s : State := { s with
    cores := s.cores.map fun c => (c.1, { c.2 with claims := c.2.claims.filter (·.wg != w.handle) })
    wgs := del s.wgs w.handle }
  s.setQueue w.prio (q :: s.queue w.prio)

/-- CONTEXT_SWITCH_SAVE: waiters go first; once everything in flight has returned, the state is saved. A fault of
the save area kills the workgroup. -/
def State.saveStep (s : State) (h : Nat) : Option State :=
  match s.wg? h with
  | none => none
  | some w =>
    if w.evict != .stopping || w.kill.isSome then none
    else
      let s' := w.groups.foldl (fun s g => s.stopWaiters h g.1) s
      match s'.wg? h with
      | none => none
      | some w =>
        if !w.drained then (if s' == s then none else some s')
        else
          let w := w.dissolve
          let s' := s'.setWg h w
          match s'.saveAll w with
          | .ok s => some (s.unplace w)
          | .walk as => some (s'.asks as)
          | .fault f => some (s'.killWg h f.cause.code)
          | .busy => none

/-! ### The end of a workgroup (R203, R384) -/

/-- DONE is translated with the distributor's own quad. -/
def distCore : Nat := 1024

/-- ATOM.ADD.U64 at the peer that holds a DONE word. -/
def State.donePeer (s : State) (h : Nat) (p : Piece) (n : Nat) : State :=
  let k := peerOf p.pa
  let tag := (look Peer.empty s.peers k).nextSeq
  let s := s.askPeer distCore (lineOf p.pa) 0 0 none 0 []
    (fun tag => .atom tag (p.pa % 2 ^ 41) (p.attr.coh == .lse) .add .u64 (BitVec.ofNat 64 n) 0)
  let q := look Peer.empty s.peers k
  { s with peers := put s.peers k { q with waiting := modWhere (·.tag == tag) (fun x => { x with done := some h }) q.waiting } }

/-- A number is added to the word at DONE, as ATOM.ADD.U64 at SYS scope at its home. A word that cannot be reached queues an
event. -/
def State.addDone (s : State) (w : Workgroup) (n : Nat) : VRes State :=
  let a := w.doneAddr
  let unreachable := VRes.ok (s.dstatEvent w.handle 0xFE)
  if a == 0 then .ok s
  else if a % 8 != 0 then unreachable
  else match s.chkRange distCore w.ctx true .both true a 8 with
    | .walk ps => .walk (walksOf distCore w.ctx .both true ps)
    | .fault _ _ => unreachable
    | .pieces ps => match ps.head? with
      | none => unreachable
      | some p =>
        if isPeer p.pa then match s.usePieces distCore true ps with
          | .ok s => .ok (s.donePeer w.handle p n)
          | r => r
        else match s.readPieces ps with
          | .busy => .busy
          | .walk s => .walk s
          | .fault _ => unreachable
          | .ok (bs, s) => match s.writePieces distCore ps (bytesOfNat 8 ((natOfBytes bs + n) % 2 ^ 64)) with
            | .fault _ => .ok (s.dstatEvent w.handle 0xFE)
            | r => r

/-- The largest H(SYS) of a workgroup's groups. -/
def Workgroup.lastTime (w : Workgroup) : Nat := (w.groups.map fun g => g.2.horizonOf .sys).foldl max 0

/-- A workgroup is gone: its barriers and its handle are free. -/
def State.removeWg (s : State) (h : Nat) : State :=
  { s with wgs := del s.wgs h, bars := s.bars.filter fun b => b.wg != h || b.gang.isSome }

/-- WORKGROUP_END: every group has ended, and every operation has returned. -/
def State.endStep (s : State) (h : Nat) : Option State :=
  match s.wg? h with
  | none => none
  | some w =>
    if w.kill.isSome || w.groups.isEmpty || !(w.groups.all fun g => g.2.ended && g.2.ops.isEmpty)
      || s.tick < w.lastTime then none
    else match s.addDone w 1 with
      | .ok s => some (s.removeWg h)
      | .walk as => s.asked? as
      | .fault _ | .busy => none

/-- Accesses and engine work of a workgroup that are still on their way. -/
def State.wgInFlight (s : State) (h : Nat) : Bool :=
  let mine := fun (a : Acc) => a.wg == h
  (s.cores.any fun c => (c.2.misses.any fun m => m.accs.any mine) || c.2.bankQ.any (fun b => b.wg == h || b.acc.wg == h)
    || c.2.engW.any (·.wg == h))
  || (s.msgs.any fun m => match m.kind with
      | .req r => r.accs.any mine
      | _ => false)
  || (s.homes.any fun t => (t.req :: t.queue).any fun r => r.accs.any mine)
  || (s.peers.any fun p => p.2.waiting.any fun x => x.accs.any mine)

/-- Engine work of a killed workgroup that has not started does not perform (R384, step 4). -/
def Core.dropWork (h : Nat) (c : Core) : Core :=
  { c with
    matrixQ := c.matrixQ.filter (·.1 != h), xformQ := c.xformQ.filter (·.1 != h)
    copyQ := c.copyQ.filter (·.wg != h) }

def State.dropWork (s : State) (h : Nat) : State :=
  { s with
    cores := s.cores.map fun c => (c.1, c.2.dropWork h)
    tokenQ := s.tokenQ.filterMap fun t => if t.wg == h then t.giveUp else some t
    launches := s.launches.filter fun l => l.mail.isSome || l.wg != h }

/-- KILL_SETTLE: nothing of the killed workgroup is on its way. The kill value is added at DONE and the event
queued. -/
def State.killSettleStep (s : State) (h : Nat) : Option State :=
  match s.wg? h with
  | none => none
  | some w => match w.kill with
    | none => none
    | some code =>
      let s := s.dropWork h
      if s.wgInFlight h || s.tick < w.lastTime then none
      else match s.addDone w (2 ^ 32) with
        | .ok s => some ((s.dstatEvent h code).removeWg h)
        | .walk as => some (s.asks as)
        | .fault _ | .busy => none

/-- LOCAL_REGION_FREE: the groups on a core have ended, the core is in no cluster, and no write to the region is
on its way (R75). -/
def State.regionFreeStep (s : State) (h core : Nat) : Option State :=
  match (s.wg? h).bind fun w => (w.onCore core).map fun c => (w, c) with
  | none => none
  | some (w, c) =>
    let ended := w.kill.isSome || (w.groups.all fun g => g.2.core != core || g.2.ended)
    let here := fun (g : Seg) => match g.place with
      | .loc wg d _ => wg == h && d == core
      | .phys _ => false
    let busy := (s.core core).engW.any (·.wg == h) || (s.core core).bankQ.any (·.wg == h)
      || (s.cores.any fun x => x.2.copyQ.any fun r => r.dst.any here) || c.grans.any fun g => !g.2.waiters.isEmpty
    if c.freed || !ended || busy || c.cluster.isSome then none
    else some (s.modWg h (·.modCore core fun c => { c with freed := true, grans := [] }))

end Sys2Proof.Machine
end

