-- ==== Sys2Proof/Machine/Engine.lean ====
section
/-!
DEFINITION. What the matrix unit, the transform pipe and the token instructions have in common: the memory of an
operation, translated at issue (R339, R356), read and written line by line in the order of Table 7.4; flags, ash
records and traps at a later boundary (R332); and the end of an operation.
-/
namespace Sys2Proof.Machine

/-! ### Ranges at issue -/

/-- Several ranges as one image: (place in the image, address, bytes). -/
def Iss.imageRange (x : Iss) (k : Kind) (rs : List (Nat × Nat × Nat)) : Ranged :=
  rs.foldl (fun (a : Ranged) r =>
    let b := x.copyRange k.engine r.2.1 r.2.2
    { walks := a.walks ++ b.walks
      bad := match a.bad with
        | some f => some f
        | none => b.bad
      faults := a.faults ++ b.faults
      segs := a.segs ++ b.segs.map fun g => { g with off := g.off + r.1 }
      trans := a.trans ++ b.trans }) { walks := [], bad := none, faults := [], segs := [], trans := [] }

/-- An instruction whose ranges are all there goes on; the causes are group-atomic. -/
def Iss.withImage (x : Iss) (k : Kind) (rs : List (Nat × Nat × Nat)) (go : Ranged → Res) : Res :=
  let r := x.imageRange k rs
  match r.bad, r.walks, lowestFault r.faults with
  | some f, _, _ => .trap { x.whole f.cause f.info with faddr := f.addr }
  | none, _ :: _, _ => .stall .walk (x.s.askWalks x.gr.core x.w.ctx k.engine x.gr.sup r.walks)
  | none, [], some f =>
    .state (x.raiseIn (x.s.dropFaults x.gr.core x.w.ctx) { x.whole f.cause f.info with faddr := f.addr })
  | none, [], none => go r

def Ranged.leafs (r : Ranged) : List Nat := (r.trans.flatMap (·.via)).eraseDups

/-! ### The memory of an operation -/

/-- Bytes of its image. -/
def Op.total (o : Op) : Nat := o.segs.foldl (fun n g => max n (g.off + g.n)) 0

/-- Its physical lines. -/
def Op.lines (o : Op) : List Nat := neededLines o.segs [(0, o.total)]

/-- Notes (a) and (g) of Table 7.4: earlier accesses of the path, and earlier operations of the class, to common
bytes are done. -/
def State.engClear (s : State) (h g : Nat) (gr : Group) (o : Op) : Bool :=
  s.accessesDone h g o.prior o.segs
  && !(gr.ops.any fun p => p.seq < o.seq && p.cls == o.cls && (p.todo != 0 || !s.locLanded h g p.seq)
    && p.segs.any (Seg.touches o.segs))

/-- HOME_LOST met after issue: a cause of class B (R149). -/
def Group.homeLostAt (gr : Group) (o : Op) (line : Nat) : Group :=
  gr.addPend { path := o.path, cause := .homeLost, info := homeDie line, faddr := vaOf o.segs line, p31 := o.mask,
               ap := o.path == apPath }

/-- A load whose home is lost writes no register: its destinations keep their former contents, and are full. -/
def Group.loadLost (gr : Group) (o : Op) (line : Nat) : Group :=
  ({ gr with sb := gr.sb.filter (·.seq != o.seq) }.homeLostAt o line).modOp o.seq fun o =>
    { o with todo := 0, landed := true, fin := true }

/-- One step of reading: `done` where every line has been read. -/
inductive ReadStep where
  | done
  | wait
  | some (s : State)
  deriving DecidableEq, Repr

/-- The next line of an operation is read. -/
def State.engRead (s : State) (h g : Nat) (gr : Group) (o : Op) : ReadStep :=
  match o.lines[o.res.length]? with
  | none => if s.engClear h g gr o then .done else .wait
  | some l =>
    if !s.engClear h g gr o then .wait
    else match s.readLine l with
      | .busy r => match s.begin? r with
        | some s => .some s
        | none => .wait
      | .lost => .some (s.modGroup h g (·.loadLost o l))
      | .ok (row, s) => .some (s.modGroup h g fun gr => gr.modOp o.seq fun o => { o with res := o.res ++ [row] })

/-- Byte q of what an operation has read. Local memory is read as it stands. -/
def State.imageByte (s : State) (o : Op) (rows : List (Nat × Row)) (q : Nat) : Byte := s.rangeByte o.segs rows q

/-- All bytes of what an operation has read. -/
def State.engImage (s : State) (o : Op) : List Byte :=
  let rows := o.lines.zip o.res
  (List.range o.total).map (s.imageByte o rows)

/-- The parts of an image that lie in a line: (offset in the line, bytes). -/
def partsIn (segs : List Seg) (img : List Byte) (line : Nat) : List (Nat × List Byte) :=
  segs.filterMap fun g => match g.place with
    | .phys pa =>
      if rangesMeet pa g.n line 128 then
        let lo := max pa line
        let hi := min (pa + g.n) (line + 128)
        some (lo - line, (img.drop (g.off + (lo - pa))).take (hi - lo))
      else none
    | .loc .. => none

/-- The bytes of rows, in order. -/
def bytesOfRows (rs : List Row) : List Byte := rs.flatMap (·.bytes)

/-- Bytes as rows. -/
def rowsOfBytes (bs : List Byte) : Nat → List Row
  | 0 => []
  | n + 1 => Row.ofBytes (bs.take 128) :: rowsOfBytes (bs.drop 128) n

/-- Whether every line of what an operation stores has left. -/
def Op.allSent (o : Op) : Bool := max 1 o.lines.length ≤ o.step

/-- The next line of what an operation stores, from its rows, leaves for its home or peer; the time of each store comes back
to the operation. With its last line it has one part less to do. -/
def State.engWrite (s : State) (h g : Nat) (gr : Group) (o : Op) : Option State :=
  if o.allSent || !s.engClear h g gr o then none
  else
    let last := o.lines.length ≤ o.step + 1
    let s := s.modGroup h g fun gr => gr.modOp o.seq fun o =>
      { o with step := o.step + 1, todo := if last then o.todo - 1 else o.todo }
    some (match o.lines[o.step]? with
      | none => s
      | some l => (partsIn o.segs (bytesOfRows o.rows) l).foldl (fun s p => s.sendStore gr.core (cohAt o.segs l) l
          { wg := h, g := g, seq := o.seq, lane := 0, va := vaOf o.segs l, k := 0, off := p.1, n := p.2.length
            what := .store p.2 }) s)

/-- The local part of what an operation writes enters the way to its granules. -/
def State.engLocal (s : State) (g : Nat) (o : Op) (img : List Byte) : State :=
  o.segs.foldl (fun s p => match p.place with
    | .loc h core off => s.engineWrite core h g o.seq off ((img.drop p.off).take p.n)
    | .phys _ => s) s

/-! ### Flags and records (R222, R332) -/

/-- Flags of an operation in every lane of its mask; an enabled one traps at a later boundary. -/
def Group.engFlags (gr : Group) (o : Op) (fl : Word) : Group :=
  let gr := gr.raiseFlags (flagsOver o.mask fl)
  let on := fl &&& gr.sr.trapen &&& 0x3F
  if on == 0 then gr
  else gr.addPend { path := o.path, cause := .arith, info := on.toNat, faddr := 0, p31 := o.mask, ap := false }

/-- The records of an operation are appended; its flags come back with AO where one was dropped. -/
def State.engAsh (s : State) (h g : Nat) (o : Op) (fl : Word) (recs : List AshRec) : VRes (State × Word) :=
  match s.wg? h, s.group? h g with
  | some w, some gr =>
    let pages := s.ashPages w.ctx gr recs.length
    if recs.isEmpty then .ok (s, fl)
    else if !pages.isEmpty then .walk (walksOf gr.core w.ctx .write gr.sup pages)
    else match s.appendAsh h g o.pc recs with
      | .ok (s, ao) => .ok (s, ao.foldl (fun w e => w ||| e.2) fl)
      | .walk s => .walk s
      | .fault f => .fault f
      | .busy => .busy
  | _, _ => .ok (s, fl)

/-! ### The end of an operation -/

/-- Whether an operation of an engine class has done everything. -/
def State.engOver (s : State) (h g : Nat) (o : Op) : Bool :=
  o.todo == 0 && o.owed == 0 && o.landed && s.locLanded h g o.seq
  && (match o.instr with
      | .resolve .. => o.args.all fun id => !(s.pn.any (·.id == id.toNat))
      | _ => true)

/-- A COPY that met a fault has done its prefix: its path, which waited, takes the fault (R117). -/
def State.copyFault (s : State) (h g : Nat) (o : Op) : State :=
  match o.cause with
  | none => s
  | some (c, info, addr) =>
    let s := s.modGroup h g fun gr =>
      let gr := { gr with sr := { gr.sr with cpbytes := BitVec.ofNat 32 o.step } }
      gr.modPath o.path fun p =>
        if p.wait == some (Wait.op o.seq) then { p with st := .ready, wait := none, stepOnce := false } else p
    s.raise h g o.path { cls := .group, cause := c, info := info, faddr := addr, p31 := o.mask }

/-- ENGINE_COMPLETION: the oldest operation of a class is over: its counter goes down, and its time is held at its scope
(R107, R153, R157, Tables 7.2 and 7.3). -/
def State.engineDone (s : State) (h g : Nat) (k : CtrClass) : Option State :=
  match s.group? h g with
  | none => none
  | some gr =>
    (((gr.ops.filter (·.cls == some k)).head?).filter (s.engOver h g)).map fun o =>
      let s := s.modGroup h g fun gr => ((gr.lowerCtr k).raiseH o.scope o.gvt).dropOp o.seq
      let s := s.modCore gr.core fun c => { c with copyQ := c.copyQ.filter fun r => !(r.wg == h && r.g == g && r.seq == o.seq) }
      if k == .copy then s.copyFault h g o else s

end Sys2Proof.Machine
end

