-- ==== Sys2Proof/Machine/TokenRec.lean ====
section
/-!
DEFINITION. The records of token arrays (R47 to R53) as their token engine reads them, and what the instructions that
change a sequence do to a descriptor and its block table (R54 to R61).
-/
namespace Sys2Proof.Machine

/-! ### Reading, with every check of R47 -/

/-- Why a token instruction does not go on: pages to walk, a line that is busy, what must come first, an earlier access of
its path that has
not performed (R158), or a cause. -/
inductive TokErr where
  | walk (k : Kind) (pages : List Nat)
  | busy
  | wait (as : List Ask)
  | order
  | fault (f : LaneFault)
  deriving DecidableEq, Repr

abbrev TokM := StateT State (Except TokErr)

/-- For whom a token engine acts: its core, the context, the handler bit, and the instruction (workgroup, group, the
operations before it) where there is one. -/
structure Who where
  core : Nat
  ctx : Nat
  sup : Bool
  own : Option (Nat × Nat × List Nat)
  deriving DecidableEq, Repr

def kvFail {α : Type} (c : Cause) : TokM α := throw (.fault { cause := c, info := 0, addr := 0 })

/-- What a page must be (R47): tables, those in local HBM, slots, or any page that is no device. -/
inductive TokPage where
  | table | pool | slot | plain
  deriving DecidableEq, Repr

def TokPage.allows (q : TokPage) (p : Piece) : Bool :=
  match q with
  | .table => p.attr.coh == .dir && p.attr.stor == .normal
  | .pool => p.attr.coh == .dir && p.attr.stor == .normal && isHbm p.pa
  | .slot => p.attr.stor != .device && isHbm p.pa
  | .plain => true

def Piece.seg (p : Piece) (off : Nat) : Seg :=
  { off := off, n := p.n, va := p.va, place := .phys p.pa, coh := p.attr.coh, normal := p.attr.stor == .normal }

/-- Pieces of one range as parts of an image that begins at `off`. -/
def segsOf (ps : List Piece) (va off : Nat) : List Seg := ps.map fun p => p.seg (off + (p.va - va))

/-- A range translated and checked. Local memory and the cluster window are no DIR pages. -/
def Who.pieces (c : Who) (q : TokPage) (k : Kind) (va n : Nat) : TokM (List Piece) := do
  let s ← get
  let w := windowOfRange va n
  if va < 2 ^ 55 && q != .plain && (w == .localMem || w == .cluster) then kvFail .kvFormat
  else match s.chkRange c.core c.ctx c.sup k (q == .plain) va n with
    | .walk ps => throw (.walk k ps)
    | .fault f _ => throw (.fault f)
    | .pieces ps => if ps.all q.allows then pure ps else kvFail .kvFormat

/-- Bytes of translated pieces. -/
def Who.fetch (c : Who) (ps : List Piece) : TokM (List Byte) := do
  let s ← get
  let clear := match c.own with
    | none => true
    | some (h, g, prior) => s.accessesDone h g prior (ps.map (·.seg 0))
  if !clear then throw .order
  else match s.usePieces c.core false ps with
    | .walk as => throw (.wait as)
    | .fault f => throw (.fault f)
    | .busy => throw .busy
    | .ok s => match s.readPieces ps with
      | .ok (bs, t) => do
        set t
        pure bs
      | .fault f => throw (.fault f)
      | .walk as => throw (.wait as)
      | .busy => throw .busy

def Who.read (c : Who) (q : TokPage) (va n : Nat) : TokM (List Byte) := do
  c.fetch (← c.pieces q .read va n)

/-! ### The token-array record (Table 3.1) -/

structure TokArr where
  va : Nat
  bits : Nat
  deriving DecidableEq, Repr

/-- Row bytes of a format (Table 3.2); reserved formats have none. -/
def rowBytes (fmt hdim : Nat) : Nat :=
  match fmt with
  | 0 => 4 * hdim
  | 1 | 2 => 2 * hdim
  | 3 | 4 => hdim
  | 5 => 64 * ((hdim + 123) / 124)
  | _ => 0

namespace TokArr
variable (a : TokArr)
def seqtab : Nat := bitsOf a.bits 511 448
def pool : Nat := bitsOf a.bits 447 384
def ropetab : Nat := bitsOf a.bits 383 320
def kscale : Nat := bitsOf a.bits 319 288
def vscale : Nat := bitsOf a.bits 287 256
def maxpos : Nat := bitsOf a.bits 255 224
def nseq : Nat := bitsOf a.bits 223 203
def nhead : Nat := bitsOf a.bits 202 194
def hdim : Nat := bitsOf a.bits 193 185
def kfmt : Nat := bitsOf a.bits 184 182
def vfmt : Nat := bitsOf a.bits 181 179
def pen : Bool := bitsOf a.bits 169 169 == 1
def pmember : Nat := bitsOf a.bits 168 165
def pstate : Nat := bitsOf a.bits 164 163
def pgtab : Nat := bitsOf a.bits 127 64
def kb : Nat := rowBytes a.kfmt a.hdim
def vb : Nat := rowBytes a.vfmt a.hdim

/-- Every field lies in its stated range. -/
def ok : Bool :=
  a.bits % 256 == 1 && a.seqtab % 32 == 0 && a.pool % 32 == 0 && decide (1 ≤ a.nseq) && decide (a.nseq ≤ 0x10_0000)
  && decide (1 ≤ a.nhead) && decide (a.nhead ≤ 256) && a.hdim % 2 == 0 && decide (2 ≤ a.hdim) && decide (a.hdim ≤ 256)
  && decide (a.kfmt ≤ 5) && decide (a.vfmt ≤ 5) && decide (a.pmember ≤ 8) && decide (a.pstate ≤ 1)
end TokArr

def Who.arr (c : Who) (va : Nat) : TokM TokArr := do
  let bs ← c.read .table va 64
  let a : TokArr := { va := va, bits := natOfBytes bs }
  if a.ok then pure a else kvFail .kvFormat

/-! ### The pool record (Table 3.3) -/

structure TokPool where
  pa : Nat
  bits : BitVec 256
  deriving DecidableEq, Repr

namespace TokPool
variable (p : TokPool)
def slotbase : Nat := bitsOf p.bits.toNat 255 192
def flist : Nat := bitsOf p.bits.toNat 191 128
def nslot : Nat := bitsOf p.bits.toNat 127 107
def free : Nat := bitsOf p.bits.toNat 106 86
def rsvd : Nat := bitsOf p.bits.toNat 85 65
def slotsz : Nat := bitsOf p.bits.toNat 63 48
/-- FREE and RSVD replaced. -/
def count (free rsvd : Nat) : TokPool := { p with bits := putField (putField p.bits 106 86 free) 85 65 rsvd }
def bytes : List Byte := bytesOfNat 32 p.bits.toNat
/-- R50, R51. -/
def form (a : TokArr) : Bool :=
  p.slotbase % 128 == 0 && decide (1 ≤ p.nslot) && decide (p.nslot ≤ 0x10_0000) && decide (p.free ≤ p.nslot)
  && decide (a.nhead * 16 * (a.kb + a.vb) ≤ 128 * p.slotsz)
/-- The same, and FREE ≥ RSVD (R58). -/
def ok (a : TokArr) : Bool := p.form a && decide (p.rsvd ≤ p.free)
def slotVa (slot : Nat) : Nat := p.slotbase + 128 * p.slotsz * slot
/-- The block of head h in a slot (R50). -/
def blk (a : TokArr) (slot h : Nat) : Nat := p.slotVa slot + h * 16 * (a.kb + a.vb)
def keyRow (a : TokArr) (slot h j : Nat) : Nat := p.blk a slot h + a.kb * j
def valRow (a : TokArr) (slot h j : Nat) : Nat := p.blk a slot h + 16 * a.kb + a.vb * j
end TokPool

/-- The pool record and its pieces, for reading or for reading and writing. -/
def Who.poolForm (c : Who) (k : Kind) (a : TokArr) : TokM (TokPool × List Piece) := do
  let ps ← c.pieces .pool k a.pool 32
  let bs ← c.fetch ps
  let p : TokPool := { pa := ps.head?.elim 0 (·.pa), bits := BitVec.ofNat 256 (natOfBytes bs) }
  if p.form a then pure (p, ps) else kvFail .kvFormat

def Who.pool (c : Who) (k : Kind) (a : TokArr) : TokM (TokPool × List Piece) := do
  let r ← c.poolForm k a
  if r.1.ok a then pure r else kvFail .kvFormat

/-! ### Block-table entries (Table 3.5) -/

structure TokEnt where
  b : Nat
  pos0 : Nat
  slot : Nat
  tag : Nat
  st : Nat
  n : Nat
  low : Nat
  deriving DecidableEq, Repr

namespace TokEnt
variable (e : TokEnt)
def ofNat (b x : Nat) : TokEnt :=
  { b := b, pos0 := bitsOf x 63 32, slot := bitsOf x 31 12, tag := bitsOf x 11 9, st := bitsOf x 8 6
    n := bitsOf x 5 1, low := x % 2 }
def bytes : List Byte :=
  bytesOfNat 8 (e.pos0 % 2 ^ 32 * 2 ^ 32 + e.slot % 2 ^ 20 * 2 ^ 12 + e.tag % 8 * 2 ^ 9 + e.st % 8 * 2 ^ 6
    + e.n % 32 * 2 + e.low % 2)
def isOpen : Bool := e.st == 1
def sealed : Bool := e.st == 2
/-- OPEN or SEALED. -/
def resident : Bool := e.isOpen || e.sealed
end TokEnt

/-! ### Sequences (Table 3.4) -/

/-- A sequence while an instruction works on it: its descriptor, entries FIRSTB to OPENED − 1 (all of them in a
snapshot), the slots it may still open, those it has opened, sealed and freed (with whether they were sealed). -/
structure TokSeq where
  va : Nat
  pa : Nat
  d : BitVec 256
  es : List TokEnt
  avail : List Nat := []
  seals : List Nat := []
  frees : List (Nat × Bool) := []
  deriving DecidableEq, Repr

namespace TokSeq
variable (q : TokSeq)
def get (hi lo : Nat) : Nat := bitsOf q.d.toNat hi lo
def put (hi lo v : Nat) : TokSeq := { q with d := putField q.d hi lo v }
def btab : Nat := q.get 255 192
def loglen : Nat := q.get 191 160
def winlen : Nat := q.get 159 128
def resv : Nat := q.get 127 100
def opened : Nat := q.get 99 72
def firstb : Nat := q.get 71 44
def close : Bool := q.get 7 7 == 1
def clause : Nat := q.get 6 4
def state : Nat := q.get 1 0
def admitted : Bool := q.state == 1

def setEnt (e : TokEnt) : TokSeq := { q with es := modWhere (fun x => x.b == e.b) (fun _ => e) q.es }

/-- The OPEN block, if there is one: the last that was opened. -/
def cur : Option TokEnt := (q.es.getLast?).filter (·.isOpen)

/-- A block is freed, leaving a state behind (R58). DESIGN CHOICE (log 128): its SLOT enters the free list as it stands; that a
SLOT of NSLOT or more is malformed (R53) is found where the slot is read, folded or appended to. -/
def free (e : TokEnt) (st : Nat) : TokSeq :=
  { q.setEnt { e with st := st } with frees := q.frees ++ [(e.slot, e.sealed)] }

/-- A block becomes SEALED (R54). -/
def sealEnt (e : TokEnt) : TokSeq := { q.setEnt { e with st := 2 } with seals := q.seals ++ [e.slot] }

/-- KVSEAL (Table 15.5). -/
def sealOpen : TokSeq :=
  match q.cur with
  | some e => if e.n == 0 then q else q.sealEnt e
  | none => q

/-- SPAN (R56). -/
def span (t : Nat) : TokSeq := if t == q.clause then q else (q.put 6 4 t).sealOpen

/-- FIRSTB passes the leading entries that are RETIRED or WINDOWED. -/
def passed (q : TokSeq) : Nat → TokSeq
  | 0 => q
  | n + 1 =>
    let b := q.firstb
    if b < q.opened && q.es.any (fun e => e.b == b && (e.st == 3 || e.st == 4)) then passed (q.put 71 44 (b + 1)) n else q

/-- What follows every KVAPP, SPANRET and WINDOW (R61). -/
def applyWindow : TokSeq :=
  let w := q.winlen
  let out := fun (e : TokEnt) => w != 0 && e.resident && decide (e.pos0 + e.n + w ≤ q.loglen)
  let q := (q.es.filter out).foldl (fun (q : TokSeq) e => q.free e 4) q
  q.passed q.es.length

/-- SPANRET before the window (R60). -/
def retire (t : Nat) : TokSeq :=
  let r := q.es.foldl (fun (r : TokSeq × Nat) e =>
    if !e.resident then r
    else if e.tag == t then
      if q.close then (r.1.free { e with n := 0 } 3, r.2 + e.n) else (r.1.free e 3, r.2)
    else (r.1.setEnt { e with pos0 := e.pos0 - r.2 }, r.2)) (q, 0)
  r.1.put 191 160 (q.loglen - r.2)

/-- A block is opened in the next slot (R54). -/
def open_ : TokSeq :=
  match q.avail with
  | [] => q
  | slot :: rest =>
    let e : TokEnt := { b := q.opened, pos0 := q.loglen, slot := slot, tag := q.clause, st := 1, n := 0, low := 0 }
    { q.put 99 72 (q.opened + 1) with es := q.es ++ [e], avail := rest }

/-- One token is appended: the slot and the offset that take its rows. -/
def append : TokSeq × Nat × Nat :=
  let q := if q.cur.isNone then q.open_ else q
  match q.cur with
  | none => (q, 0, 0)
  | some e =>
    let e' := { e with n := e.n + 1 }
    let q := (q.setEnt e').put 191 160 (q.loglen + 1)
    (if e'.n == 16 then q.sealEnt e' else q, e.slot, e.n)

/-- Tokens appended one after another, with the slot and offset of each. -/
def appends (q : TokSeq) : Nat → TokSeq × List (Nat × Nat)
  | 0 => (q, [])
  | n + 1 =>
    let (q, slot, j) := q.append
    let (q, l) := q.appends n
    (q, (slot, j) :: l)

/-- The release of ADMIT.REL: every resident block is freed, and the sequence is FREE. -/
def release : TokSeq :=
  ((q.es.filter (·.resident)).foldl (fun (q : TokSeq) e => q.free e 3) q).put 1 0 0
end TokSeq

/-- The home a token operation waits at. -/
def TokenOp.line (t : TokenOp) : Nat := lineOf t.desc

/-- A descriptor with entries `first` to OPENED − 1 (none of a FREE sequence). `adm`: the instruction is an ADMIT,
which does not look at BTAB. -/
def Who.seq (c : Who) (a : TokArr) (s : Nat) (all adm : Bool) : TokM TokSeq := do
  let va := a.seqtab + 32 * s
  let ps ← c.pieces .table .read va 32
  let pa := ps.head?.elim 0 (·.pa)
  -- instructions that took their places earlier perform first (R64)
  if (← get).tokenQ.any (·.line == lineOf pa) then throw .busy
  else
    let bs ← c.fetch ps
    let q : TokSeq := { va := va, pa := pa, d := BitVec.ofNat 256 (natOfBytes bs), es := [] }
    if 1 < q.state then kvFail .kvFormat
    else if !q.admitted then pure q
    else if (!adm && q.btab % 8 != 0) || q.opened < q.firstb || q.resv < q.opened then kvFail .kvFormat
    else if adm then pure q
    else
      let first := if all then 0 else q.firstb
      let n := q.opened - first
      let bs ← c.read .table (q.btab + 8 * first) (8 * n)
      let es := (List.range n).map fun k => TokEnt.ofNat (first + k) (natOfBytes ((bs.drop (8 * k)).take 8))
      if es.any fun e => 5 < e.st || 16 < e.n then kvFail .kvFormat else pure { q with es := es }

/-- The entry of a sequence by its number, by virtual address. -/
def TokSeq.entVa (q : TokSeq) (b : Nat) : Nat := q.btab + 8 * b

/-- The record bytes that differ between two states of a sequence: (virtual address, bytes). -/
def TokSeq.changes (old new : TokSeq) : List (Nat × List Byte) :=
  ((new.es.filter fun e => !(old.es.any (· == e))).map fun e => (old.entVa e.b, e.bytes))
  ++ (if old.d == new.d then [] else [(old.va, bytesOfNat 32 new.d.toNat)])

/-- Pieces for record bytes to be written, with the bytes of each. -/
def Who.puts (c : Who) : List (Nat × List Byte) → TokM (List (Piece × List Byte))
  | [] => pure []
  | (va, bs) :: r => do
    let ps ← c.pieces .table .write va bs.length
    let rest ← c.puts r
    pure (ps.map (fun p => (p, (bs.drop (p.va - va)).take p.n)) ++ rest)

end Sys2Proof.Machine
end

