-- ==== Sys2Proof/Machine/Tokens.lean ====
section
/-!
DEFINITION. The token instructions that change a sequence (R57, R356 to R359), the update of pools (R65), the push of
freed slots (R59), and parity groups (R66, R68).
-/
namespace Sys2Proof.Machine

/-! ### Issue (R356) -/

/-- For whom an instruction's token engine acts. -/
def Iss.who (x : Iss) : Who :=
  { core := x.gr.core, ctx := x.w.ctx, sup := x.gr.sup, own := some (x.h, x.g, x.priorOps) }

/-- The sequence block of an operand (Table 15.1). -/
structure SeqBlock where
  arr : Nat
  s : Nat
  last : Nat
  deriving DecidableEq, Repr

def Iss.seqBlock (x : Iss) (f : Nat) (o : Opnd) : SeqBlock :=
  let v := x.raw f o 4 0
  { arr := v % 2 ^ 64, s := bitsOf v 95 64, last := bitsOf v 127 96 }

/-- How an instruction's reading of the records ends. -/
def Iss.tokEnd (x : Iss) {α : Type} (i : Instr) (rec : Nat) (m : TokM α) (go : α → State → Res) : Res :=
  -- KVLD faults in its active lanes (R360)
  let raised := fun (c : Cause) (info faddr : Nat) => match i with
    | .kvld .. => { x.whole c info .lane with faddr := faddr, p31 := x.x }
    | _ => { x.whole c info with faddr := faddr }
  if rec % 64 != 0 then .trap (raised .align 0 rec)
  else match m.run x.s with
    | .error (.walk k ps) => .stall .walk (x.s.askWalks x.gr.core x.w.ctx k x.gr.sup ps)
    | .error .busy => .stall .busy x.s
    | .error (.wait as) => .stall .busy (x.s.asks as)
    | .error .order => .stall .requests x.s
    | .error (.fault f) => .state (x.raiseIn (x.s.dropFaults x.gr.core x.w.ctx) (raised f.cause f.info f.addr))
    | .ok (a, s) => go a s

/-- What an instruction will do, with the pieces it has translated and those among them it writes. -/
structure TokPlan where
  op : TokenOp
  used : List Piece
  written : List Piece
  deriving DecidableEq, Repr

/-- An operation that changes nothing and answers `value`. -/
def quietPlan (a : TokArr) (q : TokSeq) (value : Nat) : TokPlan :=
  { op := { desc := q.pa, wg := 0, g := 0, seq := 0, core := 0, ctx := 0, sup := false, record := a.va, poolVa := a.pool, pool := 0, step := .none
            value := value, src := [], rows := [], writes := [], taken := [], seals := [], frees := [], parity := none
            folds := [] }
    used := [], written := [] }

/-- The operation takes its place at the home of its descriptor, and the path goes on. -/
def Iss.token (x : Iss) (i : Instr) (rec : Nat) (m : TokM TokPlan) : Res :=
  x.tokEnd i rec m fun p s => match s.useCopy x.gr.core (p.written.map (·.tr)) (p.used.map (·.tr)) with
    | .wait as => .stall .busy (x.s.asks as)
    | .ok s =>
      let o := { x.newOp i (x.dstRegs i) with
        todo := 1, fin := false, segs := p.op.src ++ p.op.rows ++ p.used.map (·.seg 0)
        leafs := (p.used.flatMap (·.via)).eraseDups }
      let s := { x with s := s }.launchOp i o
      .state { s with tokenQ := s.tokenQ ++ [{ p.op with
          wg := x.h, g := x.g, seq := o.seq, core := x.gr.core, ctx := x.w.ctx, sup := x.gr.sup }] }

/-- A sequence that must be ADMITTED (R356), with its array. -/
def Who.admitted (c : Who) (b : SeqBlock) : TokM (TokArr × TokSeq) := do
  let a ← c.arr b.arr
  if a.nseq ≤ b.s then kvFail .kvFormat
  else
    let q ← c.seq a b.s false false
    if q.admitted then pure (a, q) else kvFail .kvSeqstate

/-- A pool no earlier operation still has to update, read for an update (R65). -/
def Who.poolFor (c : Who) (a : TokArr) : TokM (TokPool × List Piece) := do
  let r ← c.pool .both a
  if (← get).tokenQ.any (fun t => t.step != .none && lineOf t.pool == lineOf r.1.pa) then throw .busy else pure r

/-- The parity member of an array that has one: PGTAB's ninth number. -/
def Who.parity (c : Who) (a : TokArr) : TokM (List Nat) := do
  let bs ← c.read .plain a.pgtab 18
  let ds := (List.range 9).map fun j => natOfBytes ((bs.drop (2 * j)).take 2)
  if ds.any (576 ≤ ·) then kvFail .kvFormat else pure ds

/-- The places of whole slots. -/
def Who.slotPlaces (c : Who) (p : TokPool) : List Nat → TokM (List (Nat × List Seg) × List Piece)
  | [] => pure ([], [])
  | k :: r => do
    if p.nslot ≤ k then kvFail .kvFormat
    else
      let ps ← c.pieces .slot .read (p.slotVa k) (128 * p.slotsz)
      let (l, us) ← c.slotPlaces p r
      pure ((k, segsOf ps (p.slotVa k) 0) :: l, ps ++ us)

/-- The plan of a change from one state of a sequence to another. `extra` has been planned before: the pool step, the
answer, sources and slot rows. -/
def Who.plan (c : Who) (a : TokArr) (old new : TokSeq) (extra : TokPlan) : TokM TokPlan := do
  let puts ← c.puts (old.changes new)
  let folding := new.seals ++ (new.frees.filter (·.2)).map (·.1)
  let pool ← if new.frees.isEmpty && (!a.pen || folding.isEmpty) then pure none
    else do
      let r ← c.poolFor a
      pure (some r)
  let op := { extra.op with
    writes := puts.map fun w => (w.1.pa, w.2), seals := new.seals, frees := new.frees
    pool := match pool with
      | some p => p.1.pa
      | none => extra.op.pool }
  let pp := (pool.map (·.2)).getD []
  let used := extra.used ++ puts.map (·.1) ++ pp
  let written := extra.written ++ puts.map (·.1) ++ pp
  let admits := match extra.op.step with
    | .reserve _ => true
    | _ => false
  if !a.pen || !(admits || !new.seals.isEmpty || !new.frees.isEmpty) then pure { op := op, used := used, written := written }
  else
    let ds ← c.parity a
    let (places, us) ← match pool with
      | some p => c.slotPlaces p.1 folding.eraseDups
      | none => pure ([], [])
    pure { op := { op with parity := ds[8]?, folds := places }, used := used ++ us, written := written }

/-! ### ADMIT (R57, R357) -/

/-- The descriptor that an admission of n slots writes. -/
def TokSeq.admitting (q : TokSeq) (n w1 winlen : Nat) : TokSeq :=
  ((((((((q.put 127 100 n).put 99 72 0).put 71 44 0).put 191 160 0).put 6 4 (bitsOf w1 10 8)).put 7 7 (bitsOf w1 11 11)).put
    159 128 winlen).put 1 0 1)

def admitPlan (c : Who) (b : SeqBlock) (v : Nat) : TokM TokPlan := do
  let a ← c.arr b.arr
  if a.nseq ≤ b.s then kvFail .kvFormat
  else
    let q ← c.seq a b.s false true
    if q.admitted then pure (quietPlan a q 2)
    else
      let n := (bitsOf v 31 0 + 15) / 16 + bitsOf v 39 32
      let (p, ps) ← c.poolFor a
      let e := quietPlan a q 0
      c.plan a q (q.admitting n (bitsOf v 63 32) (bitsOf v 95 64))
        { op := { e.op with pool := p.pa, step := .reserve n }, used := ps, written := ps }

def execAdmitSeq (c : Ctl) (d a b : Opnd) (s : State) : Out :=
  issue (.admitSeq c d a b) s fun x =>
    let k := x.seqBlock 1 a
    x.token (.admitSeq c d a b) k.arr (admitPlan x.who k (x.raw 2 b 4 0))

def admitRelPlan (c : Who) (b : SeqBlock) : TokM TokPlan := do
  let a ← c.arr b.arr
  if a.nseq ≤ b.s then kvFail .kvFormat
  else
    let q ← c.seq a b.s false false
    if !q.admitted then pure (quietPlan a q 3)
    else
      let (p, ps) ← c.poolFor a
      if p.rsvd < q.resv - q.opened then kvFail .kvFormat
      else
        let e := quietPlan a q 0
        c.plan a q q.release
          { op := { e.op with pool := p.pa, step := .unreserve (q.resv - q.opened) }, used := ps, written := ps }

def execAdmitRel (c : Ctl) (d a : Opnd) (s : State) : Out :=
  issue (.admitRel c d a) s fun x =>
    let k := x.seqBlock 1 a
    x.token (.admitRel c d a) k.arr (admitRelPlan x.who k)

/-! ### KVAPP (R54, R55, R358) -/

/-- The source of KVAPP, from any window but the private one. -/
def Iss.kvSource (x : Iss) (va n : Nat) : TokM Ranged := do
  let s ← get
  let r := { x with s := s }.copyRange .src va n
  match r.bad, r.walks, lowestFault r.faults with
  | some f, _, _ => throw (.fault f)
  | none, _ :: _, _ => throw (.walk .src r.walks)
  | none, [], some f => throw (.fault f)
  | none, [], none => pure r

/-- The rows of one token: (virtual address, place in the source, bytes). -/
def tokenRows (a : TokArr) (p : TokPool) (t slot j : Nat) : List (Nat × Nat × Nat) :=
  let z := a.nhead * (a.kb + a.vb)
  (List.range a.nhead).flatMap fun h =>
    let o := t * z + h * (a.kb + a.vb)
    [(p.keyRow a slot h j, o, a.kb), (p.valRow a slot h j, o + a.kb, a.vb)]

/-- Slot rows translated for writing. -/
def Who.slotRows (c : Who) : List (Nat × Nat × Nat) → TokM (List Seg × List Piece)
  | [] => pure ([], [])
  | (va, off, n) :: r => do
    let ps ← c.pieces .slot .write va n
    let (gs, us) ← c.slotRows r
    pure (segsOf ps va off ++ gs, ps ++ us)

/-- The slots on top of the free list, top first (R51). -/
def Who.topSlots (c : Who) (p : TokPool) (need : Nat) : TokM (List Nat) := do
  if p.free < need || p.rsvd < need then kvFail .kvFormat
  else
    let bs ← c.read .pool (p.flist + 4 * (p.free - need)) (4 * need)
    let l := ((List.range need).map fun k => natOfBytes ((bs.drop (4 * k)).take 4)).reverse
    if l.any (p.nslot ≤ ·) then kvFail .kvFormat else pure l

def kvappPlan (x : Iss) (b : SeqBlock) (src : Nat) : TokM TokPlan := do
  let c := x.who
  let (a, q) ← c.admitted b
  let nt := b.last % 2 ^ 16
  if nt == 0 then pure (quietPlan a q q.loglen)
  else if a.maxpos < q.loglen + nt then kvFail .posOverflow
  else
    let room := match q.cur with
      | some e => 16 - e.n
      | none => 0
    let need := (nt - room + 15) / 16
    if q.resv < q.opened + need then kvFail .kvReserve
    else
      let r ← x.kvSource src (nt * (a.nhead * (a.kb + a.vb)))
      let (p, ps) ← c.poolFor a
      let slots ← c.topSlots p need
      if q.cur.any fun e => decide (p.nslot ≤ e.slot) then kvFail .kvFormat
      else
        let (q', at') := { q with avail := slots }.appends nt
        let rows := (List.range nt).flatMap fun t => tokenRows a p t (at'.getD t (0, 0)).1 (at'.getD t (0, 0)).2
        let (gs, us) ← c.slotRows rows
        let e := quietPlan a q q.loglen
        let step := if need == 0 then PoolStep.none else .pop need
        c.plan a q q'.applyWindow
          { op := { e.op with pool := p.pa, step := step, src := r.segs, rows := gs, taken := slots }
            used := us ++ (if need == 0 then [] else ps), written := us ++ (if need == 0 then [] else ps) }

def execKvapp (c : Ctl) (d a b : Opnd) (s : State) : Out :=
  issue (.kvapp c d a b) s fun x =>
    let k := x.seqBlock 1 a
    x.token (.kvapp c d a b) k.arr (kvappPlan x k (x.dword 2 b))

/-! ### KVSEAL, SPAN, SPANRET and WINDOW (R359) -/

/-- An instruction that changes an admitted sequence by a function. -/
def changePlan (c : Who) (b : SeqBlock) (f : TokSeq → TokSeq) : TokM TokPlan := do
  let (a, q) ← c.admitted b
  c.plan a q (f q) (quietPlan a q 0)

/-- A tag: bits 2 to 0 (R355). -/
def Iss.tag (x : Iss) (b : Opnd) : Nat := x.word 2 b % 8

def execKvseal (c : Ctl) (a : Opnd) (s : State) : Out :=
  issue (.kvseal c a) s fun x =>
    let k := x.seqBlock 1 a
    x.token (.kvseal c a) k.arr (changePlan x.who k fun q => q.sealOpen)

def execSpan (c : Ctl) (a b : Opnd) (s : State) : Out :=
  issue (.span c a b) s fun x =>
    let k := x.seqBlock 1 a
    x.token (.span c a b) k.arr (changePlan x.who k fun q => q.span (x.tag b))

def execSpanret (c : Ctl) (a b : Opnd) (s : State) : Out :=
  issue (.spanret c a b) s fun x =>
    let k := x.seqBlock 1 a
    x.token (.spanret c a b) k.arr (changePlan x.who k fun q => (q.retire (x.tag b)).applyWindow)

def execWindow (c : Ctl) (a b : Opnd) (s : State) : Out :=
  issue (.window c a b) s fun x =>
    let k := x.seqBlock 1 a
    x.token (.window c a b) k.arr (changePlan x.who k fun q => (q.put 159 128 (x.word 2 b)).applyWindow)

/-! ### POOL_UPDATE (R65) -/

/-- A token operation that meets a lost line after its issue: its path takes HOME_LOST, it changes nothing more, and
slots that it has taken from the pool go back (R356, R149). -/
def State.tokLost (s : State) (t : TokenOp) (line : Nat) : State :=
  let s := s.modGroup t.wg t.g fun gr => match gr.op? t.seq with
    | none => gr
    | some o => gr.loadLost o line
  { s with tokenQ := s.tokenQ.filterMap fun u =>
      if u.wg == t.wg && u.g == t.g && u.seq == t.seq then t.giveUp else some u }

/-- An operation in the queue is replaced. -/
def State.setToken (s : State) (t : TokenOp) : State :=
  { s with tokenQ := modWhere (fun (u : TokenOp) => u.wg == t.wg && u.g == t.g && u.seq == t.seq) (fun _ => t) s.tokenQ }

/-- A pool with slots pushed onto its free list, and RSVD raised by `rsvd`; what breaks R47 to R51 pushes nothing. -/
def pushPlan (c : Who) (rec pool rsvd : Nat) (slots : List Nat) : TokM (List (Nat × List Byte)) := do
  let a ← c.arr rec
  let (p, _) ← c.poolForm .both a
  if a.pool != pool || p.nslot < p.free + slots.length then kvFail .kvFormat
  else
    let ps ← c.pieces .pool .write (p.flist + 4 * p.free) (4 * slots.length)
    let img := slots.flatMap (bytesOfNat 4)
    pure ((ps.map fun q => (q.pa, (img.drop (q.va - (p.flist + 4 * p.free))).take q.n))
      ++ [(p.pa, (p.count (p.free + slots.length) (p.rsvd + rsvd)).bytes)])

/-- Record bytes are written at their homes, in one update. -/
def State.putRecords (s : State) (ws : List (Nat × List Byte)) : Coll State :=
  ws.foldl (fun (r : Coll State) w => match r with
    | .ok s => s.writePhys .dir w.1 w.2
    | r => r) (.ok s)

/-- The token engine of an operation's group, for work that no instruction's order limits any more. -/
def TokenOp.who (t : TokenOp) : Who := { core := t.core, ctx := t.ctx, sup := t.sup, own := none }

/-- What is written to a member's records goes to the parity member's mirror of them as well (R66). DESIGN CHOICE (log 93):
the manual gives the mirror no message and no place. -/
def State.sendMirror (s : State) (peer : Option Nat) (ws : List (Nat × List Byte)) : State :=
  match peer with
  | some p => s.sendFlit p (.mirror ws)
  | none => s

/-- Pages that such work lacks are walked; whatever else stops it is given to `stop`. -/
def State.tokStep {α : Type} (s : State) (c : Who) (m : TokM α) (go : α → State → Option State) (stop : State → Option State) :
    Option State :=
  match m.run s with
  | .error (.walk k ps) => some (s.askWalks c.core c.ctx k c.sup ps)
  | .error (.fault _) => stop s
  | .error (.wait as) => s.asked? as
  | .error _ => none
  | .ok (a, s) => go a s

/-- The pool step of an operation. -/
def State.poolOf (s : State) (t : TokenOp) : Option State :=
  let done := fun (t : TokenOp) (s : State) => s.setToken { t with step := .none }
  let write := fun (t : TokenOp) (p : TokPool) (s : State) => match s.writePhys .dir p.pa p.bytes with
    | .ok s => some (done t s)
    | .lost => some (s.tokLost t (lineOf p.pa))
    | .busy r => s.begin? r
  match t.step with
  | .none => none
  | .back slots =>
    let gone := fun (s : State) => { s with tokenQ := s.tokenQ.filter fun u => !(u.wg == t.wg && u.g == t.g && u.seq == t.seq) }
    s.tokStep t.who (pushPlan t.who t.record t.poolVa slots.length slots.reverse)
      (fun ws s => match s.putRecords ws with
        | .ok s => some (gone s)
        | .lost => some (gone s)
        | .busy r => s.begin? r)
      (fun s => some (gone s))
  | step => match s.readPhys t.pool 32 with
    | .busy r => s.begin? r
    | .lost => some (s.tokLost t (lineOf t.pool))
    | .ok (bs, s) =>
      let p : TokPool := { pa := t.pool, bits := BitVec.ofNat 256 (natOfBytes bs) }
      match step with
      | .reserve n =>
        if p.free < p.rsvd + n then some (done { t with value := 1, writes := [] } s)
        else write t (p.count p.free (p.rsvd + n)) s
      | .pop k => write t (p.count (p.free - k) (p.rsvd - k)) s
      | .unreserve k => write t (p.count p.free (p.rsvd - k)) s
      | _ => none

/-- An operation gives slots back. -/
def TokenOp.givesBack (t : TokenOp) : Bool := match t.step with | .back _ => true | _ => false

/-- POOL_UPDATE: the operation that came to a pool's home first (R65). One gives slots back only after it met its fault, and
no instruction plans an update while another is outstanding, so those updates came last. -/
def State.poolStep (s : State) (line : Nat) : Option State :=
  let at_ := s.tokenQ.filter fun t => t.step != .none && lineOf t.pool == line
  ((at_.find? (!·.givesBack)).or at_.head?).bind s.poolOf

def execPoolUpdate (line : Nat) (s : State) : Out := event "POOL_UPDATE" (s.poolStep line)

/-! ### TOKEN_PERFORM (R64) -/

/-- The lines of some pieces. -/
def segLines (gs : List Seg) : List Nat :=
  (gs.flatMap fun g => match g.place with
    | .phys pa => linesOf pa g.n
    | .loc .. => []).eraseDups

/-- What the source of KVAPP held: byte q. -/
def State.sourceBytes (s : State) (t : TokenOp) (o : Op) (q n : Nat) : List Byte :=
  let rows := (segLines t.src).zip o.res
  (List.range n).map fun k => s.rangeByte t.src rows (q + k)

/-- The next line of slot rows is written. -/
def State.rowStep (s : State) (t : TokenOp) (o : Op) (l : Nat) : Coll State :=
  (t.rows.filter fun g => segsPhys [g] l 128).foldl (fun (r : Coll State) g => match r, g.place with
    | .ok s, .phys pa =>
      let lo := max pa l
      let hi := min (pa + g.n) (l + 128)
      s.writeLine g.coh l (lo - l) (s.sourceBytes t o (g.off + (lo - pa)) (hi - lo))
    | r, _ => r) (.ok s)

/-- The content of a slot. -/
def State.slotBytes (s : State) (gs : List Seg) : Coll (List Byte × State) :=
  gs.foldl (fun (r : Coll (List Byte × State)) g => match r, g.place with
    | .ok (bs, s), .phys pa => match s.readPhys pa g.n with
      | .ok (cs, s) => .ok (bs ++ cs, s)
      | .busy r => .busy r
      | .lost => .lost
    | r, _ => r) (.ok ([], s))

/-- Folds of sealed slots, and of sealed slots that are freed, go to the parity member (R66). -/
def State.sendFolds (s : State) (peer : Nat) (folds : List (Nat × List Seg)) : List Nat → Coll State
  | [] => .ok s
  | k :: r => match s.slotBytes ((find? folds k).getD []) with
    | .busy r => .busy r
    | .lost => .lost
    | .ok (bs, s) => (s.sendFlit peer (.fold k bs)).sendFolds peer folds r

/-- KVLDs that have read the entries of a descriptor and are not complete: their first argument is its address. -/
def State.kvReaders (s : State) (desc : Nat) : List (Nat × Nat × Nat) :=
  s.allGroups.flatMap fun e => (e.2.ops.filter fun o => match o.instr with
    | .kvld .. => (o.args.headD 0).toNat == desc
    | _ => false).map fun o => (e.1, e.2.gid, o.seq)

/-- The slots that an operation frees wait for their push. -/
def State.freeSlots (s : State) (t : TokenOp) : State :=
  let readers := s.kvReaders t.desc
  { s with slotFrees := s.slotFrees ++ t.frees.map fun f =>
      { ctx := t.ctx, core := t.core, sup := t.sup, record := t.record, pool := t.poolVa, line := lineOf t.pool
        slot := f.1, wg := t.wg, g := t.g, seq := t.seq, readers := readers
        folding := if f.2 then t.parity else none, mirror := t.parity } }

/-- The update itself: folds, records, frees, the answer. -/
def State.tokUpdate (s : State) (t : TokenOp) : Option State :=
  let folding := t.seals ++ (t.frees.filter (·.2)).map (·.1)
  let sent := match t.parity with
    | some peer => s.sendFolds peer t.folds folding
    | none => .ok s
  match sent with
  | .busy r => s.begin? r
  | .lost => some (s.tokLost t ((segLines (t.folds.flatMap (·.2))).headD 0))
  | .ok s' => match s'.putRecords t.writes with
    | .busy r => s.begin? r
    | .lost => some (s.tokLost t ((t.writes.head?.map fun w => lineOf w.1).getD 0))
    | .ok s =>
      let pool := if t.pool == 0 then [] else [(t.pool, s.cohBytes t.pool 32)]
      let s := (s.freeSlots t).sendMirror t.parity (t.writes ++ pool)
      let s := { s with tokenQ := s.tokenQ.filter fun u => !(u.wg == t.wg && u.g == t.g && u.seq == t.seq) }
      some ((s.modGroup t.wg t.g fun gr =>
        let gr := match gr.op? t.seq with
          | some o => if t.writes.isEmpty then gr else gr.takeTime o (upTick s.cycle)
          | none => gr
        gr.modOp t.seq fun o =>
          { o.answered [BitVec.ofNat 32 t.value] with fin := true, owed := t.frees.length }))

/-- TOKEN_PERFORM: the first operation at a descriptor's home reads its source and writes its rows, a line at a time,
and then makes its update. -/
def State.tokenStep (s : State) (line : Nat) : Option State :=
  match s.tokenQ.find? fun t => t.line == line && !t.givesBack with
  | none => none
  | some t => match (s.group? t.wg t.g).bind fun gr => (gr.op? t.seq).map fun o => (gr, o) with
    | none => some { s with tokenQ := s.tokenQ.filterMap fun u => if u == t then u.giveUp else some u }
    | some (gr, o) =>
      if t.step != .none || !s.engClear t.wg t.g gr o then none
      else
        let next := fun (s : State) (f : Op → Op) => s.modGroup t.wg t.g fun gr => gr.modOp t.seq f
        match (segLines t.src)[o.res.length]?, (segLines t.rows)[o.step]? with
        | some l, _ => match s.readLine l with
          | .busy r => s.begin? r
          | .lost => some (s.tokLost t l)
          | .ok (row, s) => some (next s fun o => { o with res := o.res ++ [row] })
        | none, some l => match s.rowStep t o l with
          | .busy r => s.begin? r
          | .lost => some (s.tokLost t l)
          | .ok s => some (next s fun o => { o with step := o.step + 1 })
        | none, none => s.tokUpdate t

def execTokenPerform (line : Nat) (s : State) : Out := event "TOKEN_PERFORM" (s.tokenStep line)

/-! ### SLOT_PUSH (R59) -/

/-- Whether a fold of a slot has not been acknowledged by the parity member. -/
def State.foldsOut (s : State) (peer slot : Nat) : Bool :=
  (look Peer.empty s.peers peer).unacked.any fun x => match x.flit with
    | .fold k _ => k == slot
    | _ => false

/-- Whether a freed slot may be pushed: its readers have completed, its content has been folded out, and no update of
the pool that arrived before is outstanding. -/
def State.pushReady (s : State) (f : SlotFree) : Bool :=
  f.readers.all (fun r => ((s.group? r.1 r.2.1).bind (·.op? r.2.2)).isNone)
  && (match f.folding with
      | some p => !s.foldsOut p f.slot && !(look Peer.empty s.peers p).unreachable
      | none => true)
  && !(s.tokenQ.any fun t => t.step != .none && lineOf t.pool == f.line)

/-- SLOT_PUSH: the first freed slot of a pool that may go back does; its instruction's operation owes one less. -/
def State.pushStep (s : State) (line : Nat) : Option State :=
  match s.slotFrees.find? fun f => f.line == line && s.pushReady f with
  | none => none
  | some f =>
    let c : Who := { core := f.core, ctx := f.ctx, sup := f.sup, own := none }
    let gone := fun (s : State) =>
      let s := { s with slotFrees := s.slotFrees.erase f }
      s.modGroup f.wg f.g fun gr => gr.modOp f.seq fun o => { o with owed := o.owed - 1 }
    s.tokStep c (pushPlan c f.record f.pool 0 [f.slot])
      (fun ws s => match s.putRecords ws with
        | .ok s => some (gone (s.sendMirror f.mirror ws))
        | .lost => some (gone s)
        | .busy r => s.begin? r)
      (fun s => some (gone s))

def execSlotPush (line : Nat) (s : State) : Out := event "SLOT_PUSH" (s.pushStep line)

/-! ### Parity (R66, R68) -/

/-- The device's own token engine, for messages of other members. -/
def deviceWho (ctx : Nat) : Who := { core := 0, ctx := ctx, sup := true, own := none }

def xorBytes : List Byte → List Byte → List Byte
  | a :: as, b :: bs => (a ^^^ b) :: xorBytes as bs
  | as, [] => as
  | [], bs => bs

/-- A slot of this device's array: its pieces and its content. -/
def Who.slot (c : Who) (rec k : Nat) (kind : Kind) : TokM (TokArr × List Piece × List Byte) := do
  let a ← c.arr rec
  let (p, _) ← c.pool .read a
  if p.nslot ≤ k then kvFail .kvFormat
  else
    let ps ← c.pieces .slot kind (p.slotVa k) (128 * p.slotsz)
    let bs ← c.fetch ps
    pure (a, ps, bs)

/-- Bytes written to the pieces of a slot. -/
def State.putSlot (s : State) (ps : List Piece) (bs : List Byte) : Coll State :=
  (ps.foldl (fun (r : Coll State × List Byte) p => match r.1 with
    | .ok s => (s.writePhys p.attr.coh p.pa (r.2.take p.n), r.2.drop p.n)
    | c => (c, r.2)) (.ok s, bs)).1

/-- Content folded into, or out of, the parity member's slot. -/
def State.foldIn (s : State) (ctx rec slot : Nat) (bs : List Byte) : Option State :=
  let c := deviceWho ctx
  s.tokStep c (c.slot rec slot .both) (fun r s =>
    if r.1.pmember != 8 then none
    else match s.putSlot r.2.1 (xorBytes r.2.2 (bs.take r.2.2.length)) with
      | .ok s => some s
      | _ => none) fun _ => none

/-- PARITY_FOLD: a fold message reaches this device, the parity member; one for a slot that is being rebuilt is held. -/
def State.parityStep (s : State) (ctx rec slot : Nat) (bs : List Byte) : Option State :=
  if s.parityHold.any fun k => k.1 == ctx && k.2.1 == rec && k.2.2.1 == slot then some { s with foldHeld := s.foldHeld ++ [(ctx, rec, slot, bs)] }
  else s.foldIn ctx rec slot bs

def execParityFold (ctx rec slot : Nat) (bytes : List Byte) (s : State) : Out :=
  event "PARITY_FOLD" (s.parityStep ctx rec slot bytes)

/-- Whether an entry of a sequence counts a slot in: it is SEALED. -/
def Who.countsIn (c : Who) (a : TokArr) (slot : Nat) : Nat → TokM Bool
  | 0 => pure false
  | n + 1 => do
    let q ← c.seq a n true false
    if q.es.any fun e => e.sealed && e.slot == slot then pure true else c.countsIn a slot n

/-- REBUILD_READ: a survivor answers the parity member with its slot if it is counted in, or waits to be folded out; else
with zero. The parity member itself, which the replacement asks, holds the folds for the slot from here on, and reads the
slot of every other shard member (R68, steps 1 and 2). -/
def State.rebuildReadStep (s : State) (peer ctx rec slot : Nat) : Option State :=
  let c := deviceWho ctx
  let waits := s.slotFrees.any fun f => f.ctx == ctx && f.record == rec && f.slot == slot
    && f.folding.any fun p => s.foldsOut p slot
  let answer : TokM (List Nat × List Byte) := do
    let (a, _, bs) ← c.slot rec slot .read
    if a.pmember == 8 then
      let ds ← c.parity a
      pure (ds.take 8, bs)
    else
      let counted ← c.countsIn a slot a.nseq
      pure ([], if counted || waits then bs else bs.map fun _ => 0)
  s.tokStep c answer (fun r s =>
    if r.1.isEmpty then some (s.sendFlit peer (.reply slot r.2 0))
    else if s.parityHold.any fun k => k.1 == ctx && k.2.1 == rec && k.2.2.1 == slot then none
    else
      let s := { s with parityHold := s.parityHold ++ [(ctx, rec, slot, some peer)] }
      some ((r.1.filter (· != peer)).foldl (fun s d => s.sendFlit d (.rebuildRead slot)) s)) fun _ => none

def execRebuildRead (peer ctx rec slot : Nat) (s : State) : Out :=
  event "REBUILD_READ" (s.rebuildReadStep peer ctx rec slot)

/-- The exclusive-or of all answers; none where one is missing. -/
def xorAll : List (Option (List Byte)) → Option (List Byte)
  | [] => some []
  | none :: _ => none
  | some b :: r => (xorAll r).map (xorBytes b)

/-- The folds held for a slot are made, oldest first, and the hold ends. -/
def State.releaseFolds (s : State) (k : Nat × Nat × Nat × Option Nat) : Option State :=
  match s.foldHeld.find? fun f => f.1 == k.1 && f.2.1 == k.2.1 && f.2.2.1 == k.2.2.1 with
  | none => some { s with parityHold := s.parityHold.erase k }
  | some f => (s.foldIn f.1 f.2.1 f.2.2.1 f.2.2.2).map fun s => { s with foldHeld := s.foldHeld.erase f }

/-- At the parity member: the seven survivors have answered, and the exclusive-or of their answers and its own slot goes to
the replacement, or word that one is missing; then the folds held meanwhile are made (R68). -/
def State.parityAnswer (s : State) (k : Nat × Nat × Nat × Option Nat) (answers : List (Option (List Byte))) : Option State :=
  match k.2.2.2 with
  | none => s.releaseFolds k
  | some peer =>
    if answers.length != 7 then none
    else
      let c := deviceWho k.1
      let told := fun (s : State) => { s with parityHold := s.parityHold.map fun j => if j == k then (k.1, k.2.1, k.2.2.1, none) else j }
      match xorAll answers with
      | none => some ((told s).sendFlit peer (.refusal k.2.2.1))
      | some bs => s.tokStep c (c.slot k.2.1 k.2.2.1 .read)
          (fun r s => some ((told s).sendFlit peer (.reply k.2.2.1 (xorBytes r.2.2 bs) 0)))
          fun s => some ((told s).sendFlit peer (.refusal k.2.2.1))

/-- REBUILD_COMPLETE: at the replacement, with the answers of the seven survivors and of the parity member, the slot is
written and its entry SEALED, or the block stays LOST. At the parity member, by slot, its part ends. -/
def State.rebuildStep (s : State) (ctx entry : Nat) (answers : List (Option (List Byte))) : Option State :=
  match s.rebuilds.find? fun r => r.ctx == ctx && r.entry == entry && !r.failed with
  | none => (s.parityHold.find? fun k => k.1 == ctx && k.2.2.1 == entry).bind fun k => s.parityAnswer k answers
  | some r =>
    if answers.length != 8 then none else
    let c : Who := { core := r.core, ctx := ctx, sup := r.sup, own := none }
    let fail := fun (s : State) =>
      { s with rebuilds := modWhere (fun (x : Rebuild) => x == r) (fun x => { x with failed := true }) s.rebuilds }
    match xorAll answers with
    | none => some (fail s)
    | some bs =>
      let work : TokM (List Piece × TokEnt × List Piece) := do
        let (_, ps, _) ← c.slot r.record r.slot .write
        let es ← c.pieces .table .both entry 8
        let eb ← c.fetch es
        pure (ps, TokEnt.ofNat 0 (natOfBytes eb), es)
      s.tokStep c work (fun w s =>
        let s := { s with rebuilds := s.rebuilds.filter (· != r) }
        if w.2.1.st != 5 then some s
        else match s.putSlot w.1 bs with
          | .ok s => match s.putRecords (w.2.2.map fun p => (p.pa, { w.2.1 with st := 2 }.bytes)) with
            | .ok s => some s
            | .busy r => s.begin? r
            | .lost => some s
          | .busy r => s.begin? r
          | .lost => some s) fun s => some (fail s)

def execRebuildComplete (ctx entry : Nat) (answers : List (Option (List Byte))) (s : State) : Out :=
  event "REBUILD_COMPLETE" (s.rebuildStep ctx entry answers)

end Sys2Proof.Machine
end

