-- ==== Sys2Proof/Machine/Links.lean ====
section
/-!
DEFINITION. The Zilber transport (R144, R168, R432): frames and their flits, acknowledgements, resends, peers that
do not answer, and the links' ports.
-/
namespace Sys2Proof.Machine

def State.peer (s : State) (p : Nat) : Peer := look Peer.empty s.peers p
def State.modPeer (s : State) (p : Nat) (f : Peer → Peer) : State := { s with peers := put s.peers p (f (s.peer p)) }
def State.modPort (s : State) (j : Nat) (f : ZPort → ZPort) : State := { s with zports := modAt f s.zports j }
def State.portUp (s : State) (j : Nat) : Bool := (s.zports[j]?).any (·.up)

/-- A peer's request on bytes of this device performs at their home; outside HBM, or over the end of a line, it is
refused (R23). -/
def State.peerRequest (s : State) (peer tag pa n : Nat) (r : HomeReq) : State :=
  if hbmTop < pa + n || lineOf pa != lineOf (pa + n - 1) || n == 0 then s.sendFlit peer (.refusal tag)
  else s.arrive (lineOf pa) r

/-- The stamp of a leased copy of a peer's line (R144): the holder's tick when it asked, and the ticks that
remained, less one for each full 4096. -/
def peerStamp (sentAt remaining : Nat) : BitVec 24 := stampOf (sentAt + remaining - remaining / 4096)

/-- A peer has answered an access: it performs with the bytes that came, and a lease fills the L1. -/
def State.peerAnswer (s : State) (peer tag : Nat) (bs : List Byte) (remaining : Nat) : State :=
  match (s.peer peer).waiting.find? (·.tag == tag) with
  | none => s
  | some x =>
    let s := s.modPeer peer fun p => { p with waiting := p.waiting.filter (·.tag != tag) }
    let whole := x.accs.all (·.isLoad) && x.lease != 0 && bs.length == 128
    let row := if whole then Row.ofBytes bs else Row.putBytes 0 ((x.accs.head?.map (·.off)).getD 0) bs
    let (_, s) := s.performAll row (.later (upTick s.cycle)) x.accs
    match x.tr with
    | none => s
    | some tr =>
      if !whole || s.transGone x.core tr then s
      else
        let l : L1Line := { ctx := x.ctx, vline := x.vline, line := x.line, st := .lse, data := row, tr := tr
                            stamp := peerStamp x.sentAt remaining, lastStore := 0 }
        (s.dropSynonyms x.core x.ctx x.vline x.line).fillL1 x.core l

/-- A request of a peer that performs nothing: its accesses fault (R23, R432); the DONE word of a workgroup was not
reached (R203). -/
def State.lostPeer (s : State) (x : PeerAcc) : State :=
  let s := s.lostAccs x.accs .physRange 0
  match x.done with
  | some h => s.dstatEvent h 0xFE
  | none => s

/-- A peer has refused an access (R23). -/
def State.peerRefusal (s : State) (peer tag : Nat) : State :=
  match (s.peer peer).waiting.find? (·.tag == tag) with
  | none => s
  | some x =>
    (s.modPeer peer fun p => { p with waiting := p.waiting.filter (·.tag != tag) }).lostPeer x

/-- Flits up to a number have been acknowledged; the peer answers (R432). -/
def State.peerAck (s : State) (peer upTo : Nat) : State :=
  s.modPeer peer fun p =>
    { p with unacked := p.unacked.filter fun x => upTo ≤ x.seq, lastAck := s.tick, unreachable := false }

/-- What a flit does. Barrier arrivals, folds and rebuild reads are handed to the units whose events take them. -/
def State.takeFlit (s : State) (peer : Nat) (f : Flit) : State :=
  match f with
  | .load tag pa n => s.peerRequest peer tag pa n (.peer peer tag false (pa % 128) n .load)
  | .store tag pa lse bs =>
    s.peerRequest peer tag pa bs.length (.peer peer tag lse (pa % 128) bs.length (.store bs))
  | .atom tag pa lse op ty b c =>
    s.peerRequest peer tag pa (ty.bits / 8) (.peer peer tag lse (pa % 128) (ty.bits / 8) (.atom op ty b c))
  | .lseRead tag pa lease => s.peerRequest peer tag (lineOf pa) 128 (.peerLse peer tag lease)
  | .reply tag bs remaining => s.peerAnswer peer tag bs remaining
  | .refusal tag => s.peerRefusal peer tag
  | .ack upTo => s.peerAck peer upTo
  | .mirror ws =>
    { s with mirrors := put s.mirrors peer (ws.foldl (fun m w => Memory.write m w.1 w.2) (look [] s.mirrors peer)) }
  | .barrierArrive .. | .fold .. | .rebuildRead _ => s

/-- Flits of a frame whose first ordered flit has number `seq`: each is delivered in its turn, once. An
acknowledgement has no number. -/
def State.takeFlits (s : State) (peer seq : Nat) : List Flit → State
  | [] => s
  | .ack n :: r => (s.takeFlit peer (.ack n)).takeFlits peer seq r
  | f :: r =>
    if seq == (s.peer peer).nextRecv then
      ((s.modPeer peer fun p => { p with nextRecv := p.nextRecv + 1 }).takeFlit peer f).takeFlits peer (seq + 1) r
    else s.takeFlits peer (seq + 1) r

/-- ZILBER_FRAME: a frame arrives on a port that is up. -/
def State.frameStep (s : State) (port ethertype peer seq : Nat) (fs : List Flit) : Option State :=
  if !s.portUp port then none
  else if ethertype != 0x88B6 || fs.isEmpty || 16 < fs.length then
    some (s.modPort port fun z => { z with dropped := z.dropped + 1 })
  else some (s.takeFlits peer seq fs)

def execZilberFrame (port ethertype peer seq : Nat) (fs : List Flit) (s : State) : Out :=
  event "ZILBER_FRAME" (s.frameStep port ethertype peer seq fs)

/-- FLIT_RESEND: an unacknowledged flit, 64 ticks after it was sent. -/
def State.resendStep (s : State) (peer seq port : Nat) : Option State :=
  match (s.peer peer).unacked.find? (·.seq == seq) with
  | none => none
  | some x =>
    if s.tick < x.tick + 64 || !s.portUp port then none
    else
      let s := s.modPeer peer fun p => { p with
        unacked := modWhere (·.seq == seq) (fun x => { x with port := port, tick := s.tick }) p.unacked }
      some (s.modPort port fun z => { z with resent := z.resent + 1 })

def execFlitResend (peer seq port : Nat) (s : State) : Out := event "FLIT_RESEND" (s.resendStep peer seq port)

/-- PEER_UNREACHABLE: 4096 ticks without an acknowledgement; the accesses that wait fault. -/
def State.unreachableStep (s : State) (peer : Nat) : Option State :=
  let p := s.peer peer
  if p.unreachable || p.unacked.isEmpty || s.tick < p.lastAck + 4096 then none
  else
    let s := s.modPeer peer fun p => { p with unreachable := true, waiting := [] }
    some (p.waiting.foldl (·.lostPeer ·) s)

def execPeerUnreachable (peer : Nat) (s : State) : Out := event "PEER_UNREACHABLE" (s.unreachableStep peer)

/-- LINK_UP: the link of a port that is not fenced comes up. -/
def State.linkStep (s : State) (port : Nat) : Option State :=
  match s.zports[port]? with
  | none => none
  | some z => if z.up || z.fenced then none else some (s.modPort port fun z => { z with up := true })

def execLinkUp (port : Nat) (s : State) : Out := event "LINK_UP" (s.linkStep port)

/-- FENCE_PORT (Table 23.4): its unacknowledged flits are sent again on the ports that are up, by device number. -/
def State.fencePortStep (s : State) (port : Nat) : Option State :=
  match s.zports[port]? with
  | none => none
  | some z =>
    if z.fenced then none
    else
      let s := s.modPort port fun z => { z with up := false, fenced := true }
      let ups := (List.range 8).filter s.portUp
      if ups.isEmpty then some s
      else
        let via := fun (peer : Nat) => ups.getD (peer % ups.length) 0
        let moved := s.peers.flatMap fun p => (p.2.unacked.filter (·.port == port)).map fun _ => via p.1
        let s : State := { s with peers := s.peers.map fun p => (p.1, { p.2 with
          unacked := modWhere (·.port == port) (fun x => { x with port := via p.1, tick := s.tick }) p.2.unacked }) }
        some (moved.foldl (fun s j => s.modPort j fun z => { z with resent := z.resent + 1 }) s)

def execFencePort (port : Nat) (s : State) : Out := event "FENCE_PORT" (s.fencePortStep port)

end Sys2Proof.Machine
end

