-- ==== Sys2Proof/Machine/Fence.lean ====
section
/-!
DEFINITION. Fencing of cores, quads, stacks and dies, and the salvage of lines (R147 to R149, R433, Tables 6.10
and 23.4).
-/
namespace Sys2Proof.Machine

/-! ### What a home does about cores that are gone -/

/-- An entry without some cores. -/
def TrackEnt.without (t : TrackEnt) (gone : Nat → Bool) : TrackEnt :=
  let sharers := if t.coarse then t.sharers.filter fun b => !((List.range 16).all fun i => gone (16 * b + i))
    else t.sharers.filter fun c => !gone c
  let t := { t with sharers := sharers }
  let orphan := gone t.owner
  match t.st with
  | .x => if orphan then { t with st := .i, sharers := [], coarse := false } else t
  | .o => if !orphan then t else if sharers.isEmpty then { t with st := .i, coarse := false } else { t with st := .s }
  | .s => if sharers.isEmpty then { t with st := .i, coarse := false } else t
  | .i => t

/-- Lines of its slice that an entry's owner held, where that owner is gone. -/
def TrackEnt.orphans (t : TrackEnt) (gone : Nat → Bool) : List Nat :=
  if (t.st == .x || t.st == .o) && gone t.owner then
    ((List.range (2 ^ t.k / 128)).map fun i => t.base + 128 * i).filter t.covers
  else []

/-- Lines are marked LOST (R147). -/
def State.markLost (s : State) (ls : List Nat) : State :=
  { s with lostLines := s.lostLines ++ (ls.eraseDups.filter fun l => !s.lostLines.contains l) }

/-- A transaction that waits no longer for cores or quads that are gone. -/
def HomeTxn.without (t : HomeTxn) (core quad : Nat → Bool) : HomeTxn :=
  { t with
    wait := match t.wait with
      | .acks cs => .acks (cs.filter fun c => !core c)
      | .tinv qs => .tinv (qs.filter fun q => !quad q)
      | w => w
    heldWb := match t.heldWb with
      | some c => if core c then none else some c
      | none => none }

/-- Every transaction goes on as far as it can. -/
def State.settleHomes (s : State) : State := (s.homes.map (·.line)).foldl (fun s l => s.settleHome l) s

/-- Homes forget cores and quads: write-backs on their way arrive, other messages are gone, acknowledgements count
as received. -/
def State.forget (s : State) (core quad : Nat → Bool) : State :=
  let s := s.msgs.foldl (fun s m => match m.kind with
    | .wb d => if core m.core && !s.isLost m.line then s.putL2 m.line d true else s
    | _ => s) s
  let s : State := { s with
    msgs := s.msgs.filter fun m => !core m.core
    dir := s.dir.map fun t => { t.without core with tshare := t.tshare.filter fun q => !quad q }
    homes := s.homes.map (·.without core quad)
    peers := s.peers.map fun p => (p.1, { p.2 with waiting := p.2.waiting.filter fun x => !core x.core }) }
  s.settleHomes

/-! ### Cores -/

/-- Workgroups on a core are killed with DSTAT cause 0xFF. -/
def State.killOn (s : State) (core : Nat → Bool) : State :=
  ((s.wgs.filter fun e => e.2.cores.any fun c => core c.core).map (·.1)).foldl (fun s h => s.killWg h 0xFF) s

/-- What groups on a core had under way is gone with it. -/
def State.cutGroups (s : State) (core : Nat → Bool) : State :=
  { s with wgs := s.wgs.map fun e => (e.1, { e.2 with groups := e.2.groups.map fun g =>
      (g.1, if core g.2.core then { g.2 with ops := [], sb := [], ctrs := g.2.ctrs.map fun _ => 0 } else g.2) }) }

/-- Lines of which a core alone held the current data. -/
def State.dirtyOf (s : State) (c : Nat) : List Nat :=
  ((s.core c).l1d.filter fun l => l.st == .m || l.st == .o).map (·.line)

/-- A core fails: its workgroups are killed, the lines it held modified are lost, and a spare of its die takes its
place with empty caches; without a spare the core stays fenced. -/
def State.dropCore (s : State) (c : Nat) : State :=
  let d := dieOf c
  let spare := d < 8 && (s.die d).spares != 0
  let s := (s.killOn (· == c)).markLost (s.dirtyOf c)
  let s := (s.cutGroups (· == c)).setCore c { Core.empty with fenced := !spare }
  let s := s.modDie d fun x =>
    if spare then { x with spares := x.spares - 1 } else { x with notReplaced := min (x.notReplaced + 1) 255 }
  s.forget (· == c) fun _ => false

/-- FENCE_CORE. -/
def State.fenceCoreStep (s : State) (c : Nat) : Option State :=
  if 1040 ≤ c || (s.core c).fenced then none else some (s.dropCore c)

def execFenceCore (core : Nat) (s : State) : Out := event "FENCE_CORE" (s.fenceCoreStep core)

/-- FENCE_QUAD: its cores one by one, and its translations. -/
def State.fenceQuadStep (s : State) (q : Nat) : Option State :=
  let cs := (coresOfQuad q).filter fun c => !(s.core c).fenced
  if 260 ≤ q || cs.isEmpty then none
  else
    let s := (cs.foldl (fun s c => s.dropCore c) s).setQuad q { Quad.empty with fenced := (s.quad q).fenced }
    some (s.forget (fun _ => false) (· == q))

def execFenceQuad (quad : Nat) (s : State) : Out := event "FENCE_QUAD" (s.fenceQuadStep quad)

/-! ### Stacks and dies -/

/-- Requests at lines that are lost end as R149 gives; grants on their way to their cores do as well. -/
def State.refuseLost (s : State) : State :=
  let ts := s.homes.filter fun t => s.isLost t.line
  let s : State := { s with
    homes := s.homes.filter fun t => !s.isLost t.line
    msgs := s.msgs.map fun m => match m.kind with
      | .grant .. => if s.isLost m.line then { m with kind := .refuse (homeDie m.line) } else m
      | _ => m }
  ts.foldl (fun s t => (t.req :: t.queue).foldl (fun s r => s.refuse t.line (homeDie t.line) r) s) s

/-- FENCE_STACK: accesses to its lines fault from now on. -/
def State.fenceStackStep (s : State) (d k : Nat) : Option State :=
  if 8 ≤ d || 2 ≤ k || ((s.die d).stackFenced[k]?).getD false then none
  else some (s.modDie d fun x => { x with stackFenced := modAt (fun _ => true) x.stackFenced k }).refuseLost

def execFenceStack (die stack : Nat) (s : State) : Out := event "FENCE_STACK" (s.fenceStackStep die stack)

/-- A salvage record (Table 6.10). -/
def salvageRecord (tick core : Nat) (l : L1Line) : List Byte :=
  bytesOfNat 192 (l.data.toNat * 2 ^ 512 + bitsOf l.line 51 0 * 2 ^ 460 + core % 2 ^ 11 * 2 ^ 449
    + (if l.st == .m then 1 else 2) * 2 ^ 447 + l.ctx % 2 ^ 12 * 2 ^ 435 + tick % 2 ^ 64 * 2 ^ 371 + 1)

/-- Bytes written at their homes, whoever holds their lines. -/
def State.pokeHome (s : State) (a : Nat) (bs : List Byte) : State :=
  (cutLines a bs (bs.length / 128 + 2)).foldl (fun s p =>
    let s := s.takeBack p.1
    s.putL2 p.1 (Row.putBytes (s.homeRow p.1) p.2.1 p.2.2) true) s

/-- The die whose salvage area takes a record of a quad: its own, or the next surviving one with room. -/
def State.salvageDie (s : State) (own : Nat) : Option Nat :=
  ((List.range 8).map fun k => (own + k) % 8).find? fun d =>
    !(s.die d).fenced && (s.die d).salvbase != (s.die d).salvlim

/-- SALVAGE_RECORD (R148): a modified or owned line is written down and leaves the L1; without room it is pinned. -/
def State.salvage (s : State) (core : Nat) (l : L1Line) : State :=
  match s.salvageDie (dieOf core) with
  | none => s.modDie (dieOf core) fun x => { x with salvFull := true }
  | some d =>
    let s := s.pokeHome (s.die d).salvbase.toNat (salvageRecord s.tick core l)
    let s := s.modDie d fun x => { x with salvbase := x.salvbase + 192, salvcnt := (x.salvcnt + 1) &&& 0xFFFFFFFF#64 }
    s.modCore core fun c => { c with l1d := c.l1d.filter (· != l) }

/-- The scan of one core for lines homed on a die. -/
def State.scanCore (s : State) (d core : Nat) : State :=
  let mine := fun (line : Nat) => isHbm line && homeDie line == d
  let dirty := (s.core core).l1d.filter fun l => mine l.line && (l.st == .m || l.st == .o)
  let s := s.modCore core fun c =>
    { c with l1d := c.l1d.filter fun l => !(mine l.line && (l.st == .e || l.st == .s))
             l1i := c.l1i.filter fun l => !mine l.line }
  dirty.foldl (fun s l => s.salvage core l) s

/-- What a quad forgets: everything formed from a table line homed on the die. -/
def Quad.scan (x : Quad) (d descDie : Nat) : Quad :=
  let lost := fun (via : List Nat) => via.any fun l => homeDie l == d
  { x with tc := x.tc.filter fun t => !lost t.via
           wc := x.wc.filter fun w => !lost w.via
           desc := if descDie == d then [] else x.desc }

/-- FENCE_DIE (R147): surviving quads scan, homes forget the die's cores and mark what these owned, the entries and
lines homed on the die are gone, and workgroups with groups on it are killed. -/
def State.fenceDieStep (s : State) (d : Nat) : Option State :=
  if 8 ≤ d || (s.die d).fenced then none
  else
    let core := fun (c : Nat) => dieOf c == d
    let quad := fun (q : Nat) => dieOf (4 * q) == d
    let s := s.modDie d fun x => { x with fenced := true }
    let s := s.killOn core
    let live := (s.cores.map (·.1)).filter fun c => !core c
    let s := live.foldl (fun s c => s.scanCore d c) s
    let s : State := { s with
      quads := s.quads.map fun e =>
        (e.1, if quad e.1 then { Quad.empty with fenced := true } else e.2.scan d (homeDie (s.descAddr 0)))
      dir := s.dir.filter fun t => homeDie t.base != d
      l2 := s.l2.filter fun l => homeDie l.line != d
      pn := s.pn.filter fun e => e.die != d }
    let s := s.markLost (s.dir.flatMap (·.orphans core))
    let s := s.cutGroups core
    let s := (List.range 128).foldl (fun s k => s.setCore (128 * d + k) { Core.empty with fenced := true }) s
    some (s.refuseLost.forget core quad)

def execFenceDie (die : Nat) (s : State) : Out := event "FENCE_DIE" (s.fenceDieStep die)

end Sys2Proof.Machine
end

