-- ==== Sys2Proof/Machine/Fun.lean ====
section
/-!
DEFINITION. The correctly rounded functions of R285 and the sines of R362. Each is enclosed between two
integers over 2^p; where both ends round alike the rounded value is found, and otherwise the precision
doubles. Every argument at which a function is exact is decided before.
-/
namespace Sys2Proof

/-- An interval of naturals over a common power of two. -/
structure Enc where
  lo : Nat
  hi : Nat
  deriving DecidableEq, Repr

namespace Enc

def ceilDiv (a b : Nat) : Nat := (a + b - 1) / b

/-- Product of two numbers with p fractional bits. -/
def times (p : Nat) (a b : Enc) : Enc := { lo := a.lo * b.lo / 2 ^ p, hi := ceilDiv (a.hi * b.hi) (2 ^ p) }

def divBy (a : Enc) (n : Nat) : Enc := { lo := a.lo / n, hi := ceilDiv a.hi n }

def plus (a b : Enc) : Enc := { lo := a.lo + b.lo, hi := a.hi + b.hi }

def minus (a b : Enc) : Enc := { lo := a.lo - b.hi, hi := a.hi - b.lo }

def scale (a : Enc) (n : Nat) : Enc := { lo := a.lo * n, hi := a.hi * n }

/-- A quotient a / b with p fractional bits. -/
def quot (p a b : Nat) : Enc := { lo := a * 2 ^ p / b, hi := ceilDiv (a * 2 ^ p) b }

/-- The quotient of two enclosures. -/
def ratio (p : Nat) (a b : Enc) : Enc := { lo := a.lo * 2 ^ p / b.hi, hi := ceilDiv (a.hi * 2 ^ p) b.lo }

end Enc

/-- e^y for 0 ≤ y < 1: n further terms after the k-th, `t` the k-th term, `acc` the sum so far. -/
def expTerms (p : Nat) (y : Enc) : Nat → Nat → Enc → Enc → Enc
  | 0, _, t, acc => { lo := acc.lo, hi := acc.hi + 2 * t.hi }
  | n + 1, k, t, acc =>
    let t' := (Enc.times p t y).divBy (k + 1)
    if t'.hi ≤ 1 then { lo := acc.lo, hi := acc.hi + 4 } else expTerms p y n (k + 1) t' (acc.plus t')

def expEnc (p : Nat) (y : Enc) : Enc :=
  let one : Enc := { lo := 2 ^ p, hi := 2 ^ p }
  expTerms p y p 0 one one

/-- Σ t^(2k+1)/(2k+1), or with alternating signs, from the term `t` of index k: sums of the terms of
even and of odd index. -/
def oddTerms (p : Nat) (y2 : Enc) : Nat → Nat → Enc → Enc → Enc → Enc × Enc
  | 0, _, t, a, b => ({ a with hi := a.hi + 2 * t.hi }, { b with hi := b.hi + 2 * t.hi })
  | n + 1, k, t, a, b =>
    let u := t.divBy (2 * k + 1)
    let t' := Enc.times p t y2
    if u.hi ≤ 1 then ({ a with hi := a.hi + 4 }, { b with hi := b.hi + 4 })
    else if k % 2 == 0 then oddTerms p y2 n (k + 1) t' (a.plus u) b
    else oddTerms p y2 n (k + 1) t' a (b.plus u)

def zeroEnc : Enc := { lo := 0, hi := 0 }

/-- The inverse hyperbolic tangent of a small number. -/
def atanhEnc (p : Nat) (t : Enc) : Enc :=
  let (a, b) := oddTerms p (Enc.times p t t) p 0 t zeroEnc zeroEnc
  a.plus b

/-- The arc tangent of 1/n. -/
def atanInv (p n : Nat) : Enc :=
  let t := Enc.quot p 1 n
  let (a, b) := oddTerms p (Enc.times p t t) p 0 t zeroEnc zeroEnc
  a.minus b

def ln2Enc (p : Nat) : Enc := (atanhEnc p (Enc.quot p 1 3)).scale 2

/-- π by Machin's formula. -/
def piEnc (p : Nat) : Enc := ((atanInv p 5).scale 16).minus ((atanInv p 239).scale 4)

/-- The series of sine (k = 1, t = y) and cosine (k = 0, t = 1), as sums of the positive and of the
negative terms. -/
def trigTerms (p : Nat) (y2 : Enc) : Nat → Nat → Bool → Enc → Enc → Enc → Enc × Enc
  | 0, _, _, t, a, b => ({ a with hi := a.hi + 2 * t.hi }, { b with hi := b.hi + 2 * t.hi })
  | n + 1, k, neg, t, a, b =>
    let t' := (Enc.times p t y2).divBy ((k + 1) * (k + 2))
    if t.hi ≤ 1 then ({ a with hi := a.hi + 4 }, { b with hi := b.hi + 4 })
    else if neg then trigTerms p y2 n (k + 2) false t' a (b.plus t)
    else trigTerms p y2 n (k + 2) true t' (a.plus t) b

def sinEnc (p : Nat) (y : Enc) : Enc :=
  let (a, b) := trigTerms p (Enc.times p y y) p 1 false y zeroEnc zeroEnc
  a.minus b

def cosEnc (p : Nat) (y : Enc) : Enc :=
  let (a, b) := trigTerms p (Enc.times p y y) p 0 false { lo := 2 ^ p, hi := 2 ^ p } zeroEnc zeroEnc
  a.minus b

/-- Both ends rounded, as inexact values; a result where they agree. -/
def Fmt.settle (f : Fmt) (neg : Bool) (v : Enc) (e : Int) : Option (Nat × Word) :=
  if bitLen v.lo < f.mb + 8 then none
  else
    let a := f.roundFin .rne neg v.lo e true
    let b := f.roundFin .rne neg v.hi e true
    if a == b then some a else none

/-- The first precision of a list that decides; the last one's lower end where none does. -/
def firstSettled (g : Nat → Option (Nat × Word)) : List Nat → Nat × Word
  | [] => (0, 0)
  | p :: ps => match g p with
    | some r => r
    | none => firstSettled g ps

def precisions : List Nat := [96, 192, 384, 768, 1536]

/-- m·2^e ≥ 0 with p fractional bits. -/
def fixedOf (p m : Nat) (e : Int) : Enc :=
  let s : Int := e + p
  if 0 ≤ s then { lo := m * 2 ^ s.toNat, hi := m * 2 ^ s.toNat }
  else { lo := m / 2 ^ (-s).toNat, hi := Enc.ceilDiv m (2 ^ (-s).toNat) }

/-- Floor of m·2^e with its sign. -/
def floorOf (neg : Bool) (m : Nat) (e : Int) : Int :=
  if 0 ≤ e then unitsOf neg m e 0
  else (unitsOf neg m e e) / (2 ^ (-e).toNat : Nat)

/-- 2^x for a finite x ≠ 0. -/
def Fmt.exp2Fin (f : Fmt) (neg : Bool) (m : Nat) (e : Int) : Nat × Word :=
  let top : Int := e + (bitLen m : Int) - 1
  if 10 ≤ top then
    if neg then f.roundFin .rne false (2 ^ 40) (-4000) true
    else (f.overflow .rne false, flOV ||| flNX)
  else
    let n := floorOf neg m e
    let isInt := 0 ≤ e || m % 2 ^ (-e).toNat == 0
    if isInt then
      let r := f.roundFin .rne false 1 n false
      r
    else
      firstSettled (fun p =>
        let whole := fixedOf p m e
        let k : Nat := n.natAbs * 2 ^ p
        -- the fraction f = x − n, in (0, 1)
        let fr : Enc := if neg then { lo := k - whole.hi, hi := k - whole.lo }
          else { lo := whole.lo - k, hi := whole.hi - k }
        f.settle false (expEnc p (Enc.times p fr (ln2Enc p))) (n - p)) precisions

/-- log2 of a finite x > 0. -/
def Fmt.log2Fin (f : Fmt) (m : Nat) (e : Int) : Nat × Word :=
  let b := bitLen m - 1
  let ex : Int := e + b
  if m == 2 ^ b then f.roundFin .rne (ex < 0) ex.natAbs 0 false
  else
    -- mantissa z = m / 2^b in (1, 2); halved above 3/2, so that its logarithm is small
    let up := 3 * 2 ^ b < 2 * m
    let d := if up then 2 ^ (b + 1) else 2 ^ b
    let ez : Int := if up then ex + 1 else ex
    let num := if m < d then d - m else m - d
    let zneg := m < d
    firstSettled (fun p =>
      let l := Enc.ratio p ((atanhEnc p (Enc.quot p num (m + d))).scale 2) (ln2Enc p)
      let k := ez.natAbs * 2 ^ p
      if ez == 0 then f.settle zneg l (-p)
      else if (ez < 0) == zneg then f.settle (ez < 0) { lo := k + l.lo, hi := k + l.hi } (-p)
      else f.settle (ez < 0) { lo := k - l.hi, hi := k - l.lo } (-p)) precisions

/-- Sine or cosine, in radians, of a finite x ≠ 0: x is reduced by the nearest multiple of π/2. -/
def Fmt.trigFin (f : Fmt) (isCos neg : Bool) (m : Nat) (e : Int) : Nat × Word :=
  let ib := (e + (bitLen m : Int)).toNat
  firstSettled (fun p =>
    let w := p + ib + 8
    let half : Enc := { lo := (piEnc w).lo / 2, hi := (piEnc w).hi / 2 + 1 }
    let x := fixedOf w m e
    let k := (2 * x.lo + half.lo) / (2 * half.lo)
    let off : Enc := { lo := k * half.lo, hi := k * half.hi }
    -- r = x − k·π/2
    let r : Option (Bool × Enc) :=
      if off.hi ≤ x.lo then some (false, { lo := x.lo - off.hi, hi := x.hi - off.lo })
      else if x.hi ≤ off.lo then some (true, { lo := off.lo - x.hi, hi := off.hi - x.lo })
      else none
    match r with
    | none => none
    | some (rneg, y) =>
      let q := (if isCos then k + 1 else k) % 4
      -- sin(r + q·π/2)
      if q == 0 then f.settle (neg != rneg && !isCos || isCos && rneg) (sinEnc w y) (-w)
      else if q == 1 then f.settle (neg && !isCos) (cosEnc w y) (-w)
      else if q == 2 then f.settle (if isCos then !rneg else neg == rneg) (sinEnc w y) (-w)
      else f.settle (if isCos then true else !neg) (cosEnc w y) (-w)) precisions

/-- tanh of a finite x ≠ 0. -/
def Fmt.tanhFin (f : Fmt) (neg : Bool) (m : Nat) (e : Int) : Nat × Word :=
  if 6 ≤ e + (bitLen m : Int) then
    f.roundFin .rne neg (2 ^ 80 - 1) (-80) true
  else
    firstSettled (fun p =>
      -- y = 2x = n·ln 2 + r; e^y = 2^n · e^r
      let y := fixedOf p m (e + 1)
      let l2 := ln2Enc p
      let n := y.lo / l2.hi
      let r : Enc := { lo := y.lo - n * l2.hi, hi := y.hi - n * l2.lo }
      let ey := (expEnc p r).scale (2 ^ n)
      let one := 2 ^ p
      f.settle neg (Enc.ratio p { lo := ey.lo - one, hi := ey.hi - one }
        { lo := ey.lo + one, hi := ey.hi + one }) (-p)) precisions

/-- 1/√x of a finite x > 0. -/
def Fmt.rsqrtFin (f : Fmt) (m : Nat) (e : Int) : Nat × Word :=
  let (m, e) := if e % 2 == 0 then (m, e) else (2 * m, e - 1)
  let h := bitLen m / 2 + 60
  let n := 2 ^ (2 * h)
  let r := isqrt (n / m)
  f.roundFin .rne false r (-(e / 2) - h) (r * r * m != n)

/-- The functions of R285. -/
inductive Fn where
  | rcp | rsq | exp2 | log2 | sin | cos | tanh
  deriving DecidableEq, Repr

/-- A function's value and flags (R285, Table 12.13). -/
def Fmt.fn (f : Fmt) (k : Fn) (a : Nat) : Nat × Word :=
  let one := (f.roundFin .rne false 1 0 false).1
  match f.unpack a with
  | .nan s => (f.nan, if s then flNV else 0)
  | .inf n =>
    match k with
    | .rcp => (f.signBit n, 0)
    | .rsq => if n then (f.nan, flNV) else (0, 0)
    | .exp2 => if n then (0, 0) else f.round .rne (.inf false)
    | .log2 => if n then (f.nan, flNV) else f.round .rne (.inf false)
    | .sin | .cos => (f.nan, flNV)
    | .tanh => (one + f.signBit n, 0)
  | .fin n m e =>
    if m == 0 then
      match k with
      | .rcp | .rsq => ((f.round .rne (.inf n)).1, flDZ)
      | .exp2 | .cos => (one, 0)
      | .log2 => ((f.round .rne (.inf true)).1, flDZ)
      | .sin | .tanh => (f.signBit n, 0)
    else
      match k with
      | .rcp => f.div .rne one a
      | .rsq => if n then (f.nan, flNV) else f.rsqrtFin m e
      | .exp2 => f.exp2Fin n m e
      | .log2 => if n then (f.nan, flNV) else f.log2Fin m e
      | .sin => f.trigFin false n m e
      | .cos => f.trigFin true n m e
      | .tanh => f.tanhFin n m e

/-- RoundFP32 of sin or cos of 2π·turn/2^32 (R362). -/
def turnTrig (isCos : Bool) (turn : Nat) : Nat :=
  let t := (if isCos then turn + 2 ^ 30 else turn) % 2 ^ 32
  let q := t / 2 ^ 30
  let g := t % 2 ^ 30
  -- sin(q·π/2 + g·π/2^31)
  let neg := 2 ≤ q
  let viaCos := q % 2 == 1
  let unit := 0x3F800000 + fmt32.signBit neg
  if g == 0 then (if viaCos then unit else 0)
  else
    let swap := 2 ^ 29 < g
    let h := if swap then 2 ^ 30 - g else g
    (firstSettled (fun p =>
      let y := ((piEnc p).scale h).divBy (2 ^ 31)
      fmt32.settle neg (if viaCos != swap then cosEnc p y else sinEnc p y) (-p)) precisions).1

end Sys2Proof
end

