-- ==== Sys2Proof/Machine/TokenRead.lean ====
section
/-!
DEFINITION. KVLD and ROPE (R62, R63, R360 to R362).
-/
namespace Sys2Proof.Machine

/-! ### The status of a position (R62) -/

/-- Table 3.7 with what is found: an offset of a resident block, or a LOST one. -/
inductive KvStat where
  | ok (e : TokEnt)
  | lost (e : TokEnt)
  | code (c : Nat)
  deriving DecidableEq, Repr

def kvOor : Nat := 5
def kvUnmapped : Nat := 1

/-- The status of position p. DESIGN CHOICE (log 128): an EMPTY entry that holds p reads UNMAPPED, for which the case of R62
has no arm. -/
def TokSeq.status (q : TokSeq) (a : TokArr) (p : Nat) : KvStat :=
  if a.maxpos ≤ p then .code kvOor
  else if !q.admitted || q.loglen ≤ p then .code kvUnmapped
  else if q.winlen != 0 && decide (p + q.winlen < q.loglen) then .code 3
  else match q.es.find? fun e => decide (e.pos0 ≤ p) && decide (p < e.pos0 + e.n) with
    | none => .code kvUnmapped
    | some e => match e.st with
      | 1 | 2 => .ok e
      | 3 => .code 2
      | 4 => .code 3
      | 5 => .lost e
      | _ => .code kvUnmapped

/-! ### Issue of KVLD -/

/-- One lane of a KVLD: its position, its status, and the row it reads. -/
structure KvLane where
  l : Nat
  pos : Nat
  st : Nat
  row : Option Nat
  deriving DecidableEq, Repr

/-- Everything a KVLD finds at its issue. -/
structure KvPlan where
  desc : Nat
  arr : TokArr
  lanes : List KvLane
  faults : List (Nat × LaneFault)
  segs : List Seg
  used : List Piece
  deriving DecidableEq, Repr

/-- Whether the rebuild of a LOST block is under way, or starts now, asked of the parity member; false where the block cannot
be rebuilt (R68). -/
def Who.rebuild (c : Who) (a : TokArr) (q : TokSeq) (e : TokEnt) : TokM Bool := do
  let va := q.entVa e.b
  match (← get).rebuilds.find? fun r => r.ctx == c.ctx && r.entry == va with
  | some r => pure (!r.failed)
  | none =>
    if !a.pen then pure false
    else
      let ds ← c.parity a
      let others := ((List.range 9).filter (· != a.pmember)).map fun j => ds.getD j 0
      let s ← get
      let cut := others.any fun d => (look Peer.empty s.peers d).unreachable
      let s : State := { s with rebuilds := s.rebuilds ++
        [{ ctx := c.ctx, core := c.core, sup := c.sup, record := a.va, slot := e.slot, entry := va, failed := cut }] }
      set (if cut then s else s.sendFlit (ds.getD 8 0) (.rebuildRead e.slot))
      pure (!cut)

/-- Bytes of a row that elements e0 to e1 − 1 lie in: first byte and count. -/
def elemBytes (fmt e0 e1 : Nat) : Nat × Nat :=
  let w := match fmt with
    | 0 => 4
    | 1 | 2 => 2
    | _ => 1
  if e1 ≤ e0 then (0, 0)
  else if fmt == 5 then (64 * (e0 / 124), 64 * ((e1 - 1) / 124 + 1 - e0 / 124))
  else (w * e0, w * (e1 - e0))

/-- The place of a lane's row in the image of a KVLD. -/
def kvLaneOff (l : Nat) : Nat := l * 0x1000

/-- One lane after the snapshot: its row translated, its fault, or nothing to read. -/
def Who.kvRow (c : Who) (fmt e0 e1 : Nat) (pl : KvPlan) (r : KvLane) : TokM KvPlan := do
  let kept := { pl with lanes := pl.lanes ++ [r] }
  match r.row with
  | none => pure kept
  | some row =>
    let (o, n) := elemBytes fmt e0 e1
    match (c.pieces .slot .read (row + o) n).run (← get) with
    | .ok (ps, _) => pure { kept with
        segs := pl.segs ++ segsOf ps (row + o) (kvLaneOff r.l + o), used := pl.used ++ ps }
    | .error (.fault f) =>
      if f.cause == .kvFormat then throw (.fault f) else pure { pl with faults := pl.faults ++ [(r.l, f)] }
    | .error e => throw e

/-- Rows one after another. -/
def Who.kvRows (c : Who) (fmt e0 e1 : Nat) : KvPlan → List KvLane → TokM KvPlan
  | pl, [] => pure pl
  | pl, r :: rs => do
    let pl ← c.kvRow fmt e0 e1 pl r
    c.kvRows fmt e0 e1 pl rs

/-- The lanes whose block is LOST: their rebuilds start, or they fault. -/
def Who.kvLost (c : Who) (a : TokArr) (q : TokSeq) : List (Nat × Nat × TokEnt) → TokM (List KvLane × List (Nat × LaneFault))
  | [] => pure ([], [])
  | (l, p, e) :: r => do
    let busy ← c.rebuild a q e
    let (ls, fs) ← c.kvLost a q r
    if busy then pure ({ l := l, pos := p, st := 4, row := none } :: ls, fs)
    else pure (ls, (l, { cause := .kvLost, info := 0, addr := 0 }) :: fs)

/-- No position: 0xFFFF_FFFF (R360). -/
def noPos : Nat := 0xFFFF_FFFF

def kvldPlan (c : Who) (b : SeqBlock) (isV fromEnd : Bool) (k : Nat) (lanes : List (Nat × Nat)) : TokM KvPlan := do
  let a ← c.arr b.arr
  let h := b.last % 2 ^ 8
  let e0 := bitsOf b.last 15 8
  let e1 := min (e0 + k) a.hdim
  let blank : KvPlan := { desc := 2 ^ 63, arr := a, lanes := [], faults := [], segs := [], used := [] }
  if a.nseq ≤ b.s then
    pure { blank with lanes := lanes.map fun x => { l := x.1, pos := if fromEnd then noPos else x.2, st := kvOor, row := none } }
  else
    let q ← c.seq a b.s true false
    let pos := fun (v : Nat) =>
      if !fromEnd then some v else if q.admitted && decide (v < q.loglen) then some (q.loglen - 1 - v) else none
    let found := lanes.map fun x => (x.1, pos x.2,
      if a.nhead ≤ h then KvStat.code kvOor
      else match pos x.2 with
        | none => KvStat.code kvUnmapped
        | some p => q.status a p)
    let anyOk := found.any fun x => match x.2.2 with
      | .ok _ => true
      | _ => false
    let pool ← if anyOk then do
        let r ← c.pool .read a
        pure (some r.1)
      else pure none
    let rowOf := fun (p : Nat) (e : TokEnt) => pool.map fun (t : TokPool) =>
      if isV then t.valRow a e.slot h (p - e.pos0) else t.keyRow a e.slot h (p - e.pos0)
    if found.any fun x => match x.2.2 with
        | .ok e => pool.any fun (t : TokPool) => decide (t.nslot ≤ e.slot)
        | _ => false then kvFail .kvFormat
    else
      let lost := found.filterMap fun x => match x.2.2, x.2.1 with
        | .lost e, some p => some (x.1, p, e)
        | _, _ => none
      let (held, dead) ← c.kvLost a q lost
      let ls := found.filterMap fun x => match x.2.2 with
        | .ok e => some ({ l := x.1, pos := x.2.1.getD noPos, st := 0, row := rowOf (x.2.1.getD 0) e } : KvLane)
        | .code n => some { l := x.1, pos := x.2.1.getD noPos, st := n, row := none }
        | .lost _ => none
      let pl ← c.kvRows (if isV then a.vfmt else a.kfmt) e0 e1 { blank with desc := q.pa } ls
      pure { pl with lanes := pl.lanes ++ held, faults := pl.faults ++ dead }

/-- A row with a value for each of some lanes. -/
def laneVals (vs : List (Nat × Nat)) : Row :=
  vs.foldl (fun (r : Row) v => r.setLane v.1 (BitVec.ofNat 32 v.2)) 0

/-- The operation of a KVLD: its arguments are the descriptor's address, the format, the scale, HDIM and e0; its rows
are flags, positions and statuses; `stat` are the lanes that read a row. -/
def Iss.kvldOp (x : Iss) (i : Instr) (b : SeqBlock) (isV : Bool) (p : KvPlan) (r : Raise) : Op :=
  let a := p.arr
  { x.newOp i (x.dstRegs i) with
    todo := 1, fin := false, segs := p.segs, leafs := (p.used.flatMap (·.via)).eraseDups, isLoad := true
    args := [p.desc, if isV then a.vfmt else a.kfmt, if isV then a.vscale else a.kscale, a.hdim,
      bitsOf b.last 15 8].map (BitVec.ofNat 64)
    rows := [0, laneVals (p.lanes.map fun l => (l.l, l.pos)), laneVals (p.lanes.map fun l => (l.l, l.st))]
    got := Mask.ofLanes (p.lanes.map (·.l))
    stat := Mask.ofLanes ((p.lanes.filter (·.row.isSome)).map (·.l))
    fl := Mask.ofLanes (p.faults.map (·.1))
    cause := if p.faults.isEmpty then none else some (r.cause, r.info, r.faddr) }

def kvldBody (i : Instr) (isV fromEnd : Bool) (k : Nat) (a b : Opnd) (x : Iss) : Res :=
  let blk := x.seqBlock 1 a
  let lanes := (Mask.lanes x.x).map fun l => (l, match b with
    | .imm v => v.toNat
    | o => x.laneWord 2 o l)
  x.tokEnd i blk.arr (kvldPlan x.who blk isV fromEnd k lanes) fun p s =>
    let fs := p.faults.foldl (fun (m : List (Nat × LaneFault)) f => (m.filter fun g => g.1 < f.1) ++ f :: m.filter fun g => f.1 < g.1) []
    let r := x.laneRaise i fs
    let y := { x with s := if fs.isEmpty then s else s.dropFaults x.gr.core x.w.ctx }
    if p.lanes.isEmpty then .state (y.raiseIn y.s r)
    else if fs.isEmpty then .state (y.launchOp i (x.kvldOp i blk isV p r))
    else
      -- executed again for the faulting lanes: its ports keep their words
      .state ((y.holdOp i (x.kvldOp i blk isV p r)).modGroup x.h x.g fun gr => { gr with ports := x.gr.ports })

def execKvld (c : Ctl) (isV fromEnd : Bool) (k : BitVec 5) (d a b : Opnd) (s : State) : Out :=
  issue (.kvld c isV fromEnd k d a b) s (kvldBody (.kvld c isV fromEnd k d a b) isV fromEnd (k.toNat + 1) a b)

/-! ### What a KVLD returns (Table 15.6) -/

/-- An element with its flags. -/
def kvElem (fmt scale raw : Nat) : Nat × Word :=
  let conv := fun (f : Fmt) =>
    let c := (f.unpack raw).toFloat .rne fmt32
    (c.val, c.fl)
  match fmt with
  | 0 => if f32isNan raw then conv fmt32 else (raw, 0)
  | 1 => conv fmtB16
  | 2 => conv fmt16
  | n => fmt32.finish .rne (((if n == 3 then fmtE4 else fmtE5).unpack raw).mul (fmt32.unpack scale))

/-- The elements e0 to e0 + k − 1 of a row, from a reader of its bytes, with flags and listings. -/
def kvRead (fmt scale hdim e0 k : Nat) (rd : Nat → Byte) : List Nat × Word × List (Nat × AshKind) :=
  let es := (List.range k).map fun j => e0 + j
  if fmt == 5 then
    let read := es.filter (· < hdim)
    let blocks := (read.map (· / 124)).eraseDups
    let dec := blocks.map fun b => (b, expandBlock ((List.range 64).map fun i => rd (64 * b + i)) scale)
    let vals := es.map fun e =>
      if e < hdim then ((((dec.find? (·.1 == e / 124)).map (·.2.vals)).getD []).getD (e % 124) 0) else 0
    let bad := dec.flatMap fun d => d.2.bad.filterMap fun x =>
      let e := if x.2 == AshKind.badcode then max e0 (124 * d.1) else 124 * d.1 + x.1
      if e0 ≤ e && e < e0 + k && e < hdim then some (e, x.2) else none
    (vals, dec.foldl (fun (w : Word) d => w ||| d.2.fl) 0, bad)
  else
    let w := match fmt with
      | 0 => 4
      | 1 | 2 => 2
      | _ => 1
    let rs := es.map fun e => if e < hdim then kvElem fmt scale (natOfBytes ((List.range w).map fun i => rd (w * e + i))) else (0, 0)
    (rs.map (·.1), rs.foldl (fun (w : Word) r => w ||| r.2) 0, [])

/-- What a KVLD that has read its rows gives each lane that read one. -/
def State.kvResults (s : State) (o : Op) (k : Nat) : List (Nat × List Nat × Word × List (Nat × AshKind)) :=
  let arg := fun j => (o.args.getD j 0).toNat
  let rows := o.lines.zip o.res
  (Mask.lanes o.stat).map fun l => (l, kvRead (arg 1) (arg 2) (arg 3) (arg 4) k fun q => s.imageByte o rows (kvLaneOff l + q))

/-- Its destination registers take their values. -/
def Group.kvWrite (gr : Group) (o : Op) (k : Nat) (rs : List (Nat × List Nat)) : Group :=
  (List.range o.dst.length).foldl (fun (gr : Group) j => match o.dst[j]? with
    | some (Reg.v i) =>
      let row := if j < k then laneVals (rs.map fun r => (r.1, r.2.getD j 0)) else o.rows.getD (j - k + 1) 0
      let gr := if gr.mayLand (.v i) o.seq then gr.putV i o.got row else gr
      gr.landed (.v i) o.seq
    | _ => gr) gr

/-- A path that waits for the other lanes of a KVLD takes its faults. -/
def State.kvSettle (s : State) (h g : Nat) (o : Op) : State :=
  match o.cause with
  | none => s
  | some (c, info, addr) =>
    let s := s.modGroup h g fun gr => gr.modPath o.path fun p =>
      if p.wait == some (Wait.op o.seq) then { p with st := .ready, wait := none } else p
    s.raise h g o.path { cls := .lane, cause := c, info := info, faddr := addr, p31 := o.fl }

/-- WRITE_LANDS of a KVLD: its rows are read line by line, and then its registers are written. -/
def State.kvLand (s : State) (h g : Nat) (gr : Group) (o : Op) : Option State :=
  let k := o.dst.length - 2
  match s.engRead h g gr o with
  | .wait => none
  | .some s => some (match (s.group? h g).bind (·.op? o.seq) with
    | some o => if o.todo == 0 then s.kvSettle h g o else s
    | none => s)
  | .done =>
    let rs := s.kvResults o k
    let recs := rs.flatMap fun r => r.2.2.2.map fun e => ({ elem := e.1, lane := r.1, kind := e.2, dfmt := 0 } : AshRec)
    let w := ((s.wg? h).map (·.ctx)).getD 0
    let pages := s.ashPages w gr recs.length
    if !recs.isEmpty && !pages.isEmpty then some (s.askWalks gr.core w .write gr.sup pages)
    else match s.appendAsh h g o.pc recs with
      | .walk as => s.asked? as
      | .busy | .fault _ => none
      | .ok (s, ao) =>
        let fl := rs.map (fun r => (r.1, r.2.2.1)) ++ ao
        let s := s.modGroup h g fun gr =>
          let gr := (gr.kvWrite o k (rs.map fun r => (r.1, r.2.1))).raiseFlags fl
          let (on, m) := gr.enabledFlags fl
          let gr := if m == 0 then gr else gr.addPend
            { path := o.path, cause := .arith, info := on.toNat, faddr := 0, p31 := m, ap := false }
          gr.modOp o.seq fun o => { o with todo := 0, fin := true, landed := true }
        some (s.kvSettle h g o)

/-! ### ROPE (R362) -/

/-- a × c ± b × d from exact products, rounded once; an exact zero is +0. -/
def rotate (x c y d : Nat) (sub : Bool) : Nat × Word :=
  let (p, f) := (fmt32.unpack x).mul (fmt32.unpack c)
  let (q, g) := (fmt32.unpack y).mul (fmt32.unpack d)
  let (r, h) := p.add .rne (if sub then q.flip else q)
  match r with
  | .fin _ 0 _ => (0, f ||| g ||| h)
  | r => fmt32.finish .rne (r, f ||| g ||| h)

/-- The rotation frequencies of pairs e0/2 on. -/
def Who.ropeTab (c : Who) (a : TokArr) (e0 k : Nat) : TokM (List Nat × List Piece) := do
  let n := (min (e0 + k) a.hdim - e0) / 2
  let ps ← c.pieces .plain .read (a.ropetab + 4 * (e0 / 2)) (4 * n)
  let bs ← c.fetch ps
  pure ((List.range n).map (fun j => natOfBytes ((bs.drop (4 * j)).take 4)), ps)

def ropePlan (c : Who) (b : SeqBlock) (k : Nat) : TokM (List Nat × List Piece) := do
  let a ← c.arr b.arr
  let e0 := bitsOf b.last 15 8
  if e0 % 2 == 1 then kvFail .kvFormat else c.ropeTab a e0 k

/-- One pair of a lane. -/
def ropePair (tab : List Nat) (x : Iss) (a : Opnd) (k l j : Nat) : (Nat × Nat) × Word :=
  let u := (x.row 1 a (2 * j)).lane l
  let v := (x.row 1 a (2 * j + 1)).lane l
  match tab[j]? with
  | none => ((u.toNat, v.toNat), 0)
  | some t =>
    let turn := ((x.row 1 a k).lane l).toNat * t % 2 ^ 32
    let c := turnTrig true turn
    let s := turnTrig false turn
    let p := rotate u.toNat c v.toNat s true
    let q := rotate u.toNat s v.toNat c false
    ((p.1, q.1), p.2 ||| q.2)

def ropeBody (i : Instr) (k : Nat) (a b : Opnd) (x : Iss) : Res :=
  let blk := x.seqBlock 2 b
  x.tokEnd i blk.arr (ropePlan x.who blk k) fun (t : List Nat × List Piece) s =>
    let lanes := Mask.lanes x.x
    let pair := ropePair t.1 x a k
    let rows := (List.range k).map fun j => laneVals (lanes.map fun l =>
      (l, if j % 2 == 0 then (pair l (j / 2)).1.1 else (pair l (j / 2)).1.2))
    let fl := lanes.map fun l => (l, (List.range (k / 2)).foldl (fun (w : Word) j => w ||| (pair l j).2) 0)
    .state ({ x with s := s }.launchOp i { x.newOp i (x.dstRegs i) with
      res := rows, got := x.x, rows := [flagRow fl], segs := t.2.map fun (p : Piece) => p.seg 0
      leafs := (t.2.flatMap fun (p : Piece) => p.via).eraseDups })

def execRope (c : Ctl) (k : BitVec 5) (d a b : Opnd) (s : State) : Out :=
  issue (.rope c k d a b) s (ropeBody (.rope c k d a b) (k.toNat + 1) a b)

end Sys2Proof.Machine
end

