-- ==== Sys2Proof/Machine/Events.lean ====
section
/-!
DEFINITION. The events of groups, of translation, of coherence, of local memory, of launch and scheduling: each
happens where it is pending, and is refused by name where it is not.
-/
namespace Sys2Proof.Machine

/-! ### Groups and engines -/

/-- PENDING_CAUSE_TAKEN (R379): the oldest pending cause, at its taker's boundary. -/
def State.takePend (s : State) (h g : Nat) : Option State :=
  match s.wg? h, s.group? h g with
  | some w, some gr => match gr.pend with
    | [] => none
    | c :: rest => match gr.taker c with
      | none => none
      | some p =>
        if gr.sup || !s.groupRuns w gr || !(gr.path p).atBoundary then none
        else
          let r : Raise := { cls := .boundary, cause := c.cause, info := c.info, faddr := c.faddr
                             p31 := if c.ap then gr.activeMask else c.p31 }
          some ((s.setGroup h g { gr with pend := rest }).raise h g p r c.ap)
  | _, _ => none

def execPendingCauseTaken (wg g : Nat) (s : State) : Out := event "PENDING_CAUSE_TAKEN" (s.takePend wg g)

/-- WRITE_LANDS (R195): the values of an operation enter its registers, in the program order of nothing but its
own. -/
def State.landStep (s : State) (h g seq : Nat) : Option State :=
  match s.group? h g with
  | none => none
  | some gr => match gr.op? seq with
    | none => none
    | some o =>
      if o.landed then none
      else match o.instr with
      | .kvld .. => s.kvLand h g gr o
      | _ =>
        if o.todo != 0 || !o.fin then none
        else some (s.modGroup h g fun gr =>
          let gr := gr.landAll o
          { gr with ops := gr.ops.filter fun q => !(q.seq == seq && q.over && q.cls.isNone) })

def execWriteLands (wg g seq : Nat) (s : State) : Out := event "WRITE_LANDS" (s.landStep wg g seq)

/-- ENGINE_COMPLETION (R157). -/
def execEngineCompletion (wg g : Nat) (k : CtrClass) (s : State) : Out :=
  event "ENGINE_COMPLETION" (s.engineDone wg g k)

/-- CLAIM_GRANT (R191): bank 1 is the shadow bank. -/
def execClaimGrant (core bank quarter : Nat) (pool : Pool) (s : State) : Out :=
  event "CLAIM_GRANT" (s.grantHead core (bank != 0) quarter pool)

/-- REGISTERS_FREED (R190): registers given up enter the pool once no write targets them. -/
def State.freedStep (s : State) (h g : Nat) : Option State :=
  match s.group? h g with
  | none => none
  | some gr => if gr.given.all gr.targets then none else some (s.setGroup h g gr.freeGiven)

def execRegistersFreed (wg g : Nat) (s : State) : Out := event "REGISTERS_FREED" (s.freedStep wg g)

/-- STORE_ACKNOWLEDGEMENT (R153, R154): the oldest time on its way back to the group. -/
def State.storeAck (s : State) (h g seq : Nat) : Option State :=
  match (s.group? h g).bind (·.op? seq) with
  | none => none
  | some o => match o.acks with
    | [] => none
    | t :: rest => some (s.modGroup h g fun gr =>
      let gr := (gr.takeTime o t).modOp seq fun o => { o with acks := rest, owed := o.owed - 1 }
      { gr with ops := gr.ops.filter fun q => !(q.seq == seq && q.over && q.cls.isNone) })

def execStoreAcknowledgement (wg g seq : Nat) (s : State) : Out :=
  event "STORE_ACKNOWLEDGEMENT" (s.storeAck wg g seq)

/-! ### Translation -/

/-- PAGE_WALK (R29): the quad's first walk; what it faults with is kept for the access that asked (R45). -/
def State.walkStep (s : State) (q : Nat) : Option State :=
  match (s.quad q).walks with
  | [] => none
  | r :: rest =>
    let done := fun (s : State) (f : Option (Cause × Nat)) => some (s.modQuad q fun x =>
      { x with walks := rest
               faults := match f with
                 | some (c, i) => x.faults ++ [{ req := r, cause := c, level := i }]
                 | none => x.faults })
    match s.walk q r with
    | .busy r => s.begin? r
    | .ok _ s => done s none
    | .fault c i s => done s (some (c, i))

def execPageWalk (quad : Nat) (s : State) : Out := event "PAGE_WALK" (s.walkStep quad)
def execTableLineStore (line : Nat) (s : State) : Out := event "TABLE_LINE_STORE" (s.tableStep line)
def execTranslationInvalidation (quad line : Nat) (s : State) : Out :=
  event "TRANSLATION_INVALIDATION" (s.tinvStep quad line)
def execTranslationAck (quad line : Nat) (s : State) : Out := event "TRANSLATION_ACK" (s.tackStep quad line)

/-! ### Coherence -/

def execRd (core line : Nat) (s : State) : Out := event "RD" (s.arriveReq core line (isDirKind .rd))
def execRfo (core line : Nat) (s : State) : Out := event "RFO" (s.arriveReq core line (isDirKind .rfo))
def execRfoz (core line : Nat) (s : State) : Out := event "RFOZ" (s.arriveReq core line (isDirKind .rfoz))
def execUpg (core line : Nat) (s : State) : Out := event "UPG" (s.arriveReq core line (isDirKind .upg))
def execWb (core line : Nat) (s : State) : Out := event "WB" (s.wbArrive core line)
def execInv (core line : Nat) (s : State) : Out := event "INV" (s.probeStep core line .inv)
def execFwdRd (core line : Nat) (s : State) : Out := event "FWD_RD" (s.probeStep core line .fwdRd)
def execFwdRfo (core line : Nat) (s : State) : Out := event "FWD_RFO" (s.probeStep core line .fwdRfo)
def execInvAck (core line : Nat) (s : State) : Out := event "INV_ACK" (s.ackArrive core line)
def execGrant (core line : Nat) (s : State) : Out := event "GRANT" (s.grantStep core line)
def execWbAck (core line : Nat) (s : State) : Out := event "WB_ACK" (s.wbAckStep core line)
def execRakerScan (die line : Nat) (s : State) : Out := event "RAKER_SCAN" (s.rakerStep die line)
def execCleanProbe (core line : Nat) (s : State) : Out := event "CLEAN_PROBE" (s.cleanStep core line)
def execLseRead (core line : Nat) (s : State) : Out := event "LSE_READ" (s.arriveReq core line isLseRead)
def execLseStore (core line : Nat) (s : State) : Out := event "LSE_STORE" (s.arriveReq core line isLseStore)
def execLsePerform (line : Nat) (s : State) : Out := event "LSE_PERFORM" (s.lseStep line)
def execLeaseExpiry (core line : Nat) (s : State) : Out := event "LEASE_EXPIRY" (s.leaseStep core line)
def execUncAccess (core line : Nat) (s : State) : Out := event "UNC_ACCESS" (s.arriveReq core line isUnc)
def execHomeAtomic (core line : Nat) (s : State) : Out := event "HOME_ATOMIC" (s.arriveReq core line isAtomic)

/-! ### Local memory -/

def execGranuleOp (core i : Nat) (s : State) : Out := event "GRANULE_OP" (s.granuleStep core i)
def execEngineWriteLands (core i : Nat) (s : State) : Out := event "ENGINE_WRITE_LANDS" (s.engineLand core i)
def execLocalRegionFree (wg core : Nat) (s : State) : Out := event "LOCAL_REGION_FREE" (s.regionFreeStep wg core)

/-! ### Launch and scheduling -/

def execLaunchArrival (s : State) : Out := event "LAUNCH_ARRIVAL" s.launchStep
def execPlacement (s : State) : Out := event "PLACEMENT" s.placementStep
def execReservingHead (prio : Nat) (s : State) : Out := event "RESERVING_HEAD" (s.reserveStep prio)
def execWorkgroupEnd (wg : Nat) (s : State) : Out := event "WORKGROUP_END" (s.endStep wg)
def execSwap (core : Nat) (s : State) : Out := event "SWAP" (s.swapStep core)
def execSwapBack (core : Nat) (s : State) : Out := event "SWAP_BACK" (s.swapBackStep core)
def execContextSwitchSave (wg : Nat) (s : State) : Out := event "CONTEXT_SWITCH_SAVE" (s.saveStep wg)
def execKillSettle (wg : Nat) (s : State) : Out := event "KILL_SETTLE" (s.killSettleStep wg)

/-- THROTTLE_UPDATE (R210): at a tick boundary each named core receives its demand divider, 1 to 8, and every core the
divider that follows. -/
def State.throttleStep (s : State) (ds : List (Nat × Nat)) : Option State :=
  if s.cycle % 32 != 0 then none
  else some (ds.foldl (fun s d => s.modCore d.1 fun c => { c with demand := min (max d.2 1) 8 }) s).reclock

def execThrottleUpdate (demands : List (Nat × Nat)) (s : State) : Out :=
  event "THROTTLE_UPDATE" (s.throttleStep demands)

end Sys2Proof.Machine
end

