-- ==== Sys2Proof/Machine/Integer.lean ====
section
/-!
DEFINITION. Integer and address instructions (R275 to R279, Tables 12.6 to 12.8).
-/
namespace Sys2Proof.Machine

/-! ### One lane -/

/-- An exact integer result: wrapped, or clamped under XM with OV (R221, R265). -/
def satInt (t : Ty) (sat : Bool) (v : Int) : LaneRes :=
  if sat && v < t.lo then { words := regWords t (wrapTo t.bits t.lo), fl := flOV }
  else if sat && t.hi < v then { words := regWords t (wrapTo t.bits t.hi), fl := flOV }
  else { words := regWords t (wrapTo t.bits v) }

/-- A pattern of the type's width as a result without flags. -/
def plainInt (t : Ty) (v : Nat) : LaneRes := { words := regWords t v }

/-- An operand as the integer its type reads. -/
def Iss.ival (x : Iss) (t : Ty) (f : Nat) (o : Opnd) (l : Nat) : Int := t.intOf (x.int t f o l)

/-- A 32-bit unsigned operand of a shift or a field, whatever the type. -/
def Iss.cnt (x : Iss) (f : Nat) (o : Opnd) (l : Nat) : Nat := x.int .u32 f o l

/-- Conditions of ICMP. -/
def intCond (k : Cond) (a b : Int) : Bool :=
  match k with
  | .eq => a == b
  | .ne => a != b
  | .lt => a < b
  | .le => a ≤ b
  | .gt => b < a
  | .ge => b ≤ a
  | .un => false
  | .ord => true

/-- SHL (Table 12.7). -/
def shlLane (t : Ty) (sat : Bool) (a : Int) (n : Nat) : LaneRes :=
  if n < t.bits then satInt t sat (a * 2 ^ n)
  else if sat && a < 0 then { words := regWords t (wrapTo t.bits t.lo), fl := flOV }
  else if sat && 0 < a then { words := regWords t (wrapTo t.bits t.hi), fl := flOV }
  else plainInt t 0

/-- The number of 1 bits of w bits. -/
def popcount (w x : Nat) : Nat := ((List.range w).filter fun i => x.testBit i).length

/-- Leading zero bits of w bits. -/
def leadZeros (w x : Nat) : Nat := w - bitLen (x % 2 ^ w)

/-- Bits 0 to w − 1 in the opposite order. -/
def bitRev (w x : Nat) : Nat := ((List.range w).map fun i => if x.testBit i then 2 ^ (w - 1 - i) else 0).sum

/-- BFE (R277): bits at w and above read as the sign for a signed type. -/
def bfeLane (t : Ty) (a pos len : Nat) : Nat :=
  let len := min len t.bits
  if len == 0 then 0
  else
    let f := wrapTo len (t.intOf a / (2 : Int) ^ pos)
    if t.signed then wrapTo t.bits (signExt len f) else f

/-- BFI (R277). -/
def bfiLane (t : Ty) (a b c : Nat) : Nat :=
  let pos := c % 256
  let len := min (c / 256 % 256) t.bits
  let m := (2 ^ len - 1) * 2 ^ pos % 2 ^ t.bits
  (b &&& (2 ^ t.bits - 1 - m)) ||| (a * 2 ^ pos % 2 ^ t.bits &&& m)

/-- The draw of a lane (R278). -/
def rngDraw (key ctr gid l : Nat) : Nat :=
  let z := (key + ctr * 0x9E3779B97F4A7C15 + (gid * 32 + l) * 0xD1B54A32D192ED03) % 2 ^ 64
  let z := (z ^^^ z / 2 ^ 30) * 0xBF58476D1CE4E5B9 % 2 ^ 64
  let z := (z ^^^ z / 2 ^ 27) * 0x94D049BB133111EB % 2 ^ 64
  z ^^^ z / 2 ^ 31

/-! ### Instructions -/

/-- MOV: A, or the immediate. -/
def movBody (t : Ty) (d a : Opnd) (x : Iss) : Res :=
  x.lanes d t.regs fun l => plainInt t (x.int t 1 a l)

def execMov (c : Ctl) (t : Ty) (d a : Opnd) (s : State) : Out :=
  issue (.mov c t d a) s (movBody t d a)

/-- IADD. -/
def iaddBody (t : Ty) (d a b : Opnd) (x : Iss) : Res :=
  x.lanes d t.regs fun l => satInt t d.xm (x.ival t 1 a l + x.ival t 2 b l)

def execIadd (c : Ctl) (t : Ty) (d a b : Opnd) (s : State) : Out :=
  issue (.iadd c t d a b) s (iaddBody t d a b)

/-- ISUB. -/
def isubBody (t : Ty) (d a b : Opnd) (x : Iss) : Res :=
  x.lanes d t.regs fun l => satInt t d.xm (x.ival t 1 a l - x.ival t 2 b l)

def execIsub (c : Ctl) (t : Ty) (d a b : Opnd) (s : State) : Out :=
  issue (.isub c t d a b) s (isubBody t d a b)

/-- IMUL. -/
def imulBody (t : Ty) (d a b : Opnd) (x : Iss) : Res :=
  x.lanes d t.regs fun l => satInt t d.xm (x.ival t 1 a l * x.ival t 2 b l)

def execImul (c : Ctl) (t : Ty) (d a b : Opnd) (s : State) : Out :=
  issue (.imul c t d a b) s (imulBody t d a b)

/-- IMULH: bits 2w − 1 to w of the exact product. -/
def imulhBody (t : Ty) (d a b : Opnd) (x : Iss) : Res :=
  x.lanes d t.regs fun l => plainInt t (wrapTo t.bits ((x.ival t 1 a l * x.ival t 2 b l) / (2 : Int) ^ t.bits))

def execImulh (c : Ctl) (t : Ty) (d a b : Opnd) (s : State) : Out :=
  issue (.imulh c t d a b) s (imulhBody t d a b)

/-- IMAD: A × B + C, formed exactly. -/
def imadBody (t : Ty) (d a b cc : Opnd) (x : Iss) : Res :=
  x.lanes d t.regs fun l => satInt t d.xm (x.ival t 1 a l * x.ival t 2 b l + x.ival t 3 cc l)

def execImad (c : Ctl) (t : Ty) (d a b cc : Opnd) (s : State) : Out :=
  issue (.imad c t d a b cc) s (imadBody t d a b cc)

/-- IDIV and IREM of a lane (R221). -/
def divLane (t : Ty) (rem : Bool) (a b : Int) : LaneRes :=
  let (q, r, fl) := divInt t a b
  { words := regWords t (wrapTo t.bits (if rem then r else q)), fl := fl }

/-- IDIV. -/
def idivBody (t : Ty) (d a b : Opnd) (x : Iss) : Res :=
  x.lanes d t.regs fun l => divLane t false (x.ival t 1 a l) (x.ival t 2 b l)

def execIdiv (c : Ctl) (t : Ty) (d a b : Opnd) (s : State) : Out :=
  issue (.idiv c t d a b) s (idivBody t d a b)

/-- IREM. -/
def iremBody (t : Ty) (d a b : Opnd) (x : Iss) : Res :=
  x.lanes d t.regs fun l => divLane t true (x.ival t 1 a l) (x.ival t 2 b l)

def execIrem (c : Ctl) (t : Ty) (d a b : Opnd) (s : State) : Out :=
  issue (.irem c t d a b) s (iremBody t d a b)

/-- IMIN. -/
def iminBody (t : Ty) (d a b : Opnd) (x : Iss) : Res :=
  x.lanes d t.regs fun l => plainInt t (wrapTo t.bits (min (x.ival t 1 a l) (x.ival t 2 b l)))

def execImin (c : Ctl) (t : Ty) (d a b : Opnd) (s : State) : Out :=
  issue (.imin c t d a b) s (iminBody t d a b)

/-- IMAX. -/
def imaxBody (t : Ty) (d a b : Opnd) (x : Iss) : Res :=
  x.lanes d t.regs fun l => plainInt t (wrapTo t.bits (max (x.ival t 1 a l) (x.ival t 2 b l)))

def execImax (c : Ctl) (t : Ty) (d a b : Opnd) (s : State) : Out :=
  issue (.imax c t d a b) s (imaxBody t d a b)

/-- IABS: the most negative number gives itself, or the largest under XM. -/
def iabsBody (t : Ty) (d a : Opnd) (x : Iss) : Res :=
  x.lanes d t.regs fun l => satInt t d.xm (x.ival t 1 a l).natAbs

def execIabs (c : Ctl) (t : Ty) (d a : Opnd) (s : State) : Out :=
  issue (.iabs c t d a) s (iabsBody t d a)

/-- AND. -/
def andBody (t : Ty) (d a b : Opnd) (x : Iss) : Res :=
  x.lanes d t.regs fun l => plainInt t (x.int t 1 a l &&& x.int t 2 b l)

def execAnd (c : Ctl) (t : Ty) (d a b : Opnd) (s : State) : Out :=
  issue (.and c t d a b) s (andBody t d a b)

/-- OR. -/
def orBody (t : Ty) (d a b : Opnd) (x : Iss) : Res :=
  x.lanes d t.regs fun l => plainInt t (x.int t 1 a l ||| x.int t 2 b l)

def execOr (c : Ctl) (t : Ty) (d a b : Opnd) (s : State) : Out :=
  issue (.or c t d a b) s (orBody t d a b)

/-- XOR. -/
def xorBody (t : Ty) (d a b : Opnd) (x : Iss) : Res :=
  x.lanes d t.regs fun l => plainInt t (x.int t 1 a l ^^^ x.int t 2 b l)

def execXor (c : Ctl) (t : Ty) (d a b : Opnd) (s : State) : Out :=
  issue (.xor c t d a b) s (xorBody t d a b)

/-- NOT. -/
def notBody (t : Ty) (d a : Opnd) (x : Iss) : Res :=
  x.lanes d t.regs fun l => plainInt t (2 ^ t.bits - 1 - x.int t 1 a l)

def execNot (c : Ctl) (t : Ty) (d a : Opnd) (s : State) : Out :=
  issue (.not c t d a) s (notBody t d a)

/-- SHL. -/
def shlBody (t : Ty) (d a b : Opnd) (x : Iss) : Res :=
  x.lanes d t.regs fun l => shlLane t d.xm (x.ival t 1 a l) (x.cnt 2 b l)

def execShl (c : Ctl) (t : Ty) (d a b : Opnd) (s : State) : Out :=
  issue (.shl c t d a b) s (shlBody t d a b)

/-- SHR: 0 from w on. -/
def shrBody (t : Ty) (d a b : Opnd) (x : Iss) : Res :=
  x.lanes d t.regs fun l => plainInt t (if x.cnt 2 b l < t.bits then x.int t 1 a l / 2 ^ x.cnt 2 b l else 0)

def execShr (c : Ctl) (t : Ty) (d a b : Opnd) (s : State) : Out :=
  issue (.shr c t d a b) s (shrBody t d a b)

/-- SHRA: all sign bits from w on. -/
def shraBody (t : Ty) (d a b : Opnd) (x : Iss) : Res :=
  x.lanes d t.regs fun l => plainInt t (wrapTo t.bits (signExt t.bits (x.int t 1 a l) / (2 : Int) ^ min (x.cnt 2 b l) t.bits))

def execShra (c : Ctl) (t : Ty) (d a b : Opnd) (s : State) : Out :=
  issue (.shra c t d a b) s (shraBody t d a b)

/-- POPC: one register whatever the type. -/
def popcBody (t : Ty) (d a : Opnd) (x : Iss) : Res :=
  x.lanes d 1 fun l => plainInt .u32 (popcount t.bits (x.int t 1 a l))

def execPopc (c : Ctl) (t : Ty) (d a : Opnd) (s : State) : Out :=
  issue (.popc c t d a) s (popcBody t d a)

/-- CLZ: one register whatever the type. -/
def clzBody (t : Ty) (d a : Opnd) (x : Iss) : Res :=
  x.lanes d 1 fun l => plainInt .u32 (leadZeros t.bits (x.int t 1 a l))

def execClz (c : Ctl) (t : Ty) (d a : Opnd) (s : State) : Out :=
  issue (.clz c t d a) s (clzBody t d a)

/-- BREV. -/
def brevBody (t : Ty) (d a : Opnd) (x : Iss) : Res :=
  x.lanes d t.regs fun l => plainInt t (bitRev t.bits (x.int t 1 a l))

def execBrev (c : Ctl) (t : Ty) (d a : Opnd) (s : State) : Out :=
  issue (.brev c t d a) s (brevBody t d a)

/-- BFE. -/
def bfeBody (t : Ty) (d a b cc : Opnd) (x : Iss) : Res :=
  x.lanes d t.regs fun l => plainInt t (bfeLane t (x.int t 1 a l) (x.cnt 2 b l % 256) (x.cnt 3 cc l % 256))

def execBfe (c : Ctl) (t : Ty) (d a b cc : Opnd) (s : State) : Out :=
  issue (.bfe c t d a b cc) s (bfeBody t d a b cc)

/-- BFI. -/
def bfiBody (t : Ty) (d a b cc : Opnd) (x : Iss) : Res :=
  x.lanes d t.regs fun l => plainInt t (bfiLane t (x.int t 1 a l) (x.int t 2 b l) (x.cnt 3 cc l))

def execBfi (c : Ctl) (t : Ty) (d a b cc : Opnd) (s : State) : Out :=
  issue (.bfi c t d a b cc) s (bfiBody t d a b cc)

/-- LEA: a 64-bit address from a pair and a scaled index. -/
def leaBody (t : Ty) (d a b cc : Opnd) (x : Iss) : Res :=
  x.lanes d 2 fun l => plainInt .u64 (wrapTo 64 (x.int .u64 1 a l + (x.ival t 2 b l) * (2 : Int) ^ (x.cnt 3 cc l % 64)))

def execLea (c : Ctl) (t : Ty) (d a b cc : Opnd) (s : State) : Out :=
  issue (.lea c t d a b cc) s (leaBody t d a b cc)

/-- SEL: a scalar form tests the lowest lane of the path’s mask. -/
def selBody (t : Ty) (d a b cc : Opnd) (x : Iss) : Res :=
  x.lanes d t.regs fun l => plainInt t (if (x.pmask cc).getLsbD (if d.isS 1 then Mask.lowest x.m else l) then x.int t 1 a l else x.int t 2 b l)

def execSel (c : Ctl) (t : Ty) (d a b cc : Opnd) (s : State) : Out :=
  issue (.sel c t d a b cc) s (selBody t d a b cc)

/-- ICMP. -/
def icmpBody (k : Cond) (t : Ty) (d a b : Opnd) (x : Iss) : Res :=
  x.preds d fun l => (intCond k (x.ival t 1 a l) (x.ival t 2 b l), 0)

def execIcmp (c : Ctl) (k : Cond) (t : Ty) (d a b : Opnd) (s : State) : Out :=
  issue (.icmp c k t d a b) s (icmpBody k t d a b)

/-- RNG: the counter advances once per instruction. -/
def rngBody (unit : Bool) (d : Opnd) (x : Iss) : Res :=
  let r := x.gr.sr
  let y : Iss := { x with gr := { x.gr with sr := { r with rngctr := r.rngctr + 1 } } }
  y.lanes d 1 fun l =>
    let z := rngDraw r.rngkey.toNat r.rngctr.toNat x.gr.gid l
    plainInt .u32 (if unit then (fmt32.roundFin .rne false (z / 2 ^ 40) (-24) false).1 else z / 2 ^ 32)

def execRng (c : Ctl) (unit : Bool) (d : Opnd) (s : State) : Out := issue (.rng c unit d) s (rngBody unit d)

end Sys2Proof.Machine
end

