-- ==== Sys2Proof/Machine/FloatOps.lean ====
section
/-!
DEFINITION. Floating point (R280 to R285) and conversions (R286 to R289).
-/
namespace Sys2Proof.Machine

/-! ### One lane -/

/-- A float result: its pattern and flags, saturated under XM (R265). -/
def floatRes (t : Ty) (sat : Bool) (r : Nat × Word) : LaneRes :=
  let r := if sat then t.fmt.sat r else r
  { words := regWords t r.1, fl := r.2 }

/-! ### Arithmetic -/

/-- FADD. -/
def faddBody (r : Rnd) (t : Ty) (d a b : Opnd) (x : Iss) : Res :=
  x.lanes d t.regs fun l => floatRes t d.xm (t.fmt.add r (x.float t 1 a l) (x.float t 2 b l))

def execFadd (c : Ctl) (r : Rnd) (t : Ty) (d a b : Opnd) (s : State) : Out :=
  issue (.fadd c r t d a b) s (faddBody r t d a b)

/-- FSUB. -/
def fsubBody (r : Rnd) (t : Ty) (d a b : Opnd) (x : Iss) : Res :=
  x.lanes d t.regs fun l => floatRes t d.xm (t.fmt.sub r (x.float t 1 a l) (x.float t 2 b l))

def execFsub (c : Ctl) (r : Rnd) (t : Ty) (d a b : Opnd) (s : State) : Out :=
  issue (.fsub c r t d a b) s (fsubBody r t d a b)

/-- FMUL. -/
def fmulBody (r : Rnd) (t : Ty) (d a b : Opnd) (x : Iss) : Res :=
  x.lanes d t.regs fun l => floatRes t d.xm (t.fmt.mul r (x.float t 1 a l) (x.float t 2 b l))

def execFmul (c : Ctl) (r : Rnd) (t : Ty) (d a b : Opnd) (s : State) : Out :=
  issue (.fmul c r t d a b) s (fmulBody r t d a b)

/-- FFMA: one rounding. -/
def ffmaBody (r : Rnd) (t : Ty) (d a b cc : Opnd) (x : Iss) : Res :=
  x.lanes d t.regs fun l => floatRes t d.xm (t.fmt.fma r (x.float t 1 a l) (x.float t 2 b l) (x.float t 3 cc l))

def execFfma (c : Ctl) (r : Rnd) (t : Ty) (d a b cc : Opnd) (s : State) : Out :=
  issue (.ffma c r t d a b cc) s (ffmaBody r t d a b cc)

/-- FMIN. -/
def fminBody (t : Ty) (d a b : Opnd) (x : Iss) : Res :=
  x.lanes d t.regs fun l => floatRes t d.xm (t.fmt.minmax false (x.float t 1 a l) (x.float t 2 b l))

def execFmin (c : Ctl) (t : Ty) (d a b : Opnd) (s : State) : Out :=
  issue (.fmin c t d a b) s (fminBody t d a b)

/-- FMAX. -/
def fmaxBody (t : Ty) (d a b : Opnd) (x : Iss) : Res :=
  x.lanes d t.regs fun l => floatRes t d.xm (t.fmt.minmax true (x.float t 1 a l) (x.float t 2 b l))

def execFmax (c : Ctl) (t : Ty) (d a b : Opnd) (s : State) : Out :=
  issue (.fmax c t d a b) s (fmaxBody t d a b)

/-- FABS: the sign bit cleared. -/
def fabsBody (t : Ty) (d a : Opnd) (x : Iss) : Res :=
  x.lanes d t.regs fun l => floatRes t d.xm ((x.float t 1 a l) % 2 ^ (t.bits - 1), 0)

def execFabs (c : Ctl) (t : Ty) (d a : Opnd) (s : State) : Out :=
  issue (.fabs c t d a) s (fabsBody t d a)

/-- FCMP. -/
def fcmpBody (k : Cond) (t : Ty) (d a b : Opnd) (x : Iss) : Res :=
  x.preds d fun l => t.fmt.cond k (x.float t 1 a l) (x.float t 2 b l)

def execFcmp (c : Ctl) (k : Cond) (t : Ty) (d a b : Opnd) (s : State) : Out :=
  issue (.fcmp c k t d a b) s (fcmpBody k t d a b)

/-- FDIV. -/
def fdivBody (r : Rnd) (t : Ty) (d a b : Opnd) (x : Iss) : Res :=
  x.lanes d t.regs fun l => floatRes t d.xm (t.fmt.div r (x.float t 1 a l) (x.float t 2 b l))

def execFdiv (c : Ctl) (r : Rnd) (t : Ty) (d a b : Opnd) (s : State) : Out :=
  issue (.fdiv c r t d a b) s (fdivBody r t d a b)

/-- FSQRT. -/
def fsqrtBody (r : Rnd) (t : Ty) (d a : Opnd) (x : Iss) : Res :=
  x.lanes d t.regs fun l => floatRes t d.xm (t.fmt.sqrt r (x.float t 1 a l))

def execFsqrt (c : Ctl) (r : Rnd) (t : Ty) (d a : Opnd) (s : State) : Out :=
  issue (.fsqrt c r t d a) s (fsqrtBody r t d a)

/-- FRCP: correctly rounded (R285). -/
def frcpBody (t : Ty) (d a : Opnd) (x : Iss) : Res :=
  x.lanes d t.regs fun l => floatRes t d.xm (t.fmt.fn .rcp (x.float t 1 a l))

def execFrcp (c : Ctl) (t : Ty) (d a : Opnd) (s : State) : Out :=
  issue (.frcp c t d a) s (frcpBody t d a)

/-- FRSQ: correctly rounded (R285). -/
def frsqBody (t : Ty) (d a : Opnd) (x : Iss) : Res :=
  x.lanes d t.regs fun l => floatRes t d.xm (t.fmt.fn .rsq (x.float t 1 a l))

def execFrsq (c : Ctl) (t : Ty) (d a : Opnd) (s : State) : Out :=
  issue (.frsq c t d a) s (frsqBody t d a)

/-- FEXP2: correctly rounded (R285). -/
def fexp2Body (t : Ty) (d a : Opnd) (x : Iss) : Res :=
  x.lanes d t.regs fun l => floatRes t d.xm (t.fmt.fn .exp2 (x.float t 1 a l))

def execFexp2 (c : Ctl) (t : Ty) (d a : Opnd) (s : State) : Out :=
  issue (.fexp2 c t d a) s (fexp2Body t d a)

/-- FLOG2: correctly rounded (R285). -/
def flog2Body (t : Ty) (d a : Opnd) (x : Iss) : Res :=
  x.lanes d t.regs fun l => floatRes t d.xm (t.fmt.fn .log2 (x.float t 1 a l))

def execFlog2 (c : Ctl) (t : Ty) (d a : Opnd) (s : State) : Out :=
  issue (.flog2 c t d a) s (flog2Body t d a)

/-- FSIN: correctly rounded (R285). -/
def fsinBody (t : Ty) (d a : Opnd) (x : Iss) : Res :=
  x.lanes d t.regs fun l => floatRes t d.xm (t.fmt.fn .sin (x.float t 1 a l))

def execFsin (c : Ctl) (t : Ty) (d a : Opnd) (s : State) : Out :=
  issue (.fsin c t d a) s (fsinBody t d a)

/-- FCOS: correctly rounded (R285). -/
def fcosBody (t : Ty) (d a : Opnd) (x : Iss) : Res :=
  x.lanes d t.regs fun l => floatRes t d.xm (t.fmt.fn .cos (x.float t 1 a l))

def execFcos (c : Ctl) (t : Ty) (d a : Opnd) (s : State) : Out :=
  issue (.fcos c t d a) s (fcosBody t d a)

/-- FTANH: correctly rounded (R285). -/
def ftanhBody (t : Ty) (d a : Opnd) (x : Iss) : Res :=
  x.lanes d t.regs fun l => floatRes t d.xm (t.fmt.fn .tanh (x.float t 1 a l))

def execFtanh (c : Ctl) (t : Ty) (d a : Opnd) (s : State) : Out :=
  issue (.ftanh c t d a) s (ftanhBody t d a)

/-- FCLASS: one register. -/
def fclassBody (t : Ty) (d a : Opnd) (x : Iss) : Res :=
  x.lanes d 1 fun l => { words := [t.fmt.fclass (x.float t 1 a l)] }

def execFclass (c : Ctl) (t : Ty) (d a : Opnd) (s : State) : Out :=
  issue (.fclass c t d a) s (fclassBody t d a)

/-! ### Conversions -/

/-- A conversion's record for an element of a lane, where the case is listed (R220, R224). -/
def ashOf (v : Cvt) (elem lane : Nat) (dt : Ty) : List AshRec :=
  match v.ash with
  | some k => [{ elem := elem, lane := lane, kind := k, dfmt := dfmtOf dt }]
  | none => []

/-- CVT. -/
def cvtBody (r : Rnd) (dt st : Ty) (d a : Opnd) (x : Iss) : Res :=
  x.lanes d dt.regs fun l =>
    let v := cvtValue r dt st d.xm (x.typed st 1 a l)
    { words := regWords dt v.val, fl := v.fl, ash := ashOf v 0 l dt }

def execCvt (c : Ctl) (r : Rnd) (dt st : Ty) (d a : Opnd) (s : State) : Out :=
  issue (.cvt c r dt st d a) s (cvtBody r dt st d a)

/-- FRND. -/
def frndBody (r : Rnd) (t : Ty) (d a : Opnd) (x : Iss) : Res :=
  x.lanes d t.regs fun l => floatRes t d.xm (t.fmt.rint r (x.float t 1 a l))

def execFrnd (c : Ctl) (r : Rnd) (t : Ty) (d a : Opnd) (s : State) : Out :=
  issue (.frnd c r t d a) s (frndBody r t d a)

/-- PKCVT of a lane: element 0 from A, element 1 from B. -/
def pkcvtLane (r : Rnd) (t : Ty) (sat : Bool) (a b l : Nat) : LaneRes :=
  let v := cvtValue r t .f32 sat a
  let w := cvtValue r t .f32 sat b
  { words := [BitVec.ofNat 32 (v.val + w.val * 2 ^ t.bits)], fl := v.fl ||| w.fl, ash := ashOf v 0 l t ++ ashOf w 1 l t }

/-- PKCVT. -/
def pkcvtBody (r : Rnd) (t : Ty) (d a b : Opnd) (x : Iss) : Res :=
  x.lanes d 1 fun l => pkcvtLane r t d.xm (x.float .f32 1 a l) (x.float .f32 2 b l) l

def execPkcvt (c : Ctl) (r : Rnd) (t : Ty) (d a b : Opnd) (s : State) : Out :=
  issue (.pkcvt c r t d a b) s (pkcvtBody r t d a b)

/-- A 32-bit pattern of an operand, XM not applied. -/
def Iss.pattern (x : Iss) (f : Nat) (o : Opnd) (l : Nat) : Nat :=
  match o with
  | .imm v => wrapTo 32 v.toInt
  | .imm32 v => v.toNat
  | o => x.raw f o 1 l

/-- UNPK of a lane: element k as FP32; XM inverts the element's sign. -/
def unpkLane (t : Ty) (k : Nat) (neg sat : Bool) (v : Nat) : LaneRes :=
  let e := v / 2 ^ (t.bits * k) % 2 ^ t.bits
  let e := if neg then e ^^^ 2 ^ (t.bits - 1) else e
  let c := cvtValue .rne .f32 t sat e
  { words := regWords .f32 c.val, fl := c.fl }

/-- UNPK. -/
def unpkBody (t : Ty) (k : BitVec 2) (d a : Opnd) (x : Iss) : Res :=
  x.lanes d 1 fun l => unpkLane t k.toNat a.xm d.xm (x.pattern 1 a l)

def execUnpk (c : Ctl) (t : Ty) (k : BitVec 2) (d a : Opnd) (s : State) : Out :=
  issue (.unpk c t k d a) s (unpkBody t k d a)

end Sys2Proof.Machine
end

