-- ==== Sys2Proof/Machine/HostEvents.lean ====
section
/-!
DEFINITION. The events of the debug agent, of owners and device registers, of the host's port and of reset
(R204, R214, R384, R386 to R392, R425 to R431).
-/
namespace Sys2Proof.Machine

/-! ### Debug commands (Table 16.4) -/

/-- NOP. -/
def State.nopCmd (s : State) (agent : Nat) : Option State :=
  match s.takeCmd agent (· == 0) with
  | none => none
  | some (c, s) => some (s.endCmd agent c ((s.cmdCheck agent c false false).getD 0))

/-- HOLD: the path stops at its next boundary; one that is held already stays so. -/
def State.holdCmd (s : State) (agent : Nat) : Option State := s.pathCmd agent 1 fun p => { p with hold := true }
/-- RELEASE. -/
def State.releaseCmd (s : State) (agent : Nat) : Option State :=
  s.pathCmd agent 2 fun p => { p with hold := false, stepOnce := false }
/-- STEP: a held path issues one instruction. -/
def State.stepCmd (s : State) (agent : Nat) : Option State :=
  s.pathCmd agent 3 fun p => { p with stepOnce := p.hold }
/-- STALLSMP, of a workgroup that exists in the target context. -/
def State.stallCmd (s : State) (agent : Nat) : Option State :=
  match s.takeCmd agent (· == 6) with
  | none => none
  | some (c, s') =>
    let found := (s.wg? (cmdWg c)).any fun w => w.ctx == cmdCtx c
    if (s.cmdCheck agent c false false).isNone && !found then some (s'.endCmd agent c 2)
    else s.rightCmd agent 6 fun c r => r.sampling s.tick c
/-- TRACE: bit 0 of ARG enables. -/
def State.traceCmd (s : State) (agent : Nat) : Option State :=
  s.rightCmd agent 7 fun c r => { r with trace := cmdArg c % 2 == 1 }
/-- BKPTEN: bit 0 of ARG enables. -/
def State.bkptCmd (s : State) (agent : Nat) : Option State :=
  s.rightCmd agent 8 fun c r => { r with bkpten := cmdArg c % 2 == 1 }
/-- An unassigned OP. -/
def State.badCmd (s : State) (agent : Nat) : Option State :=
  match s.takeCmd agent (fun op => 8 < op) with
  | none => none
  | some (c, s) => some (s.endCmd agent c 10)

def execDbgNop (agent : Nat) (s : State) : Out := event "DBG_NOP" (s.nopCmd agent)
def execHold (agent : Nat) (s : State) : Out := event "HOLD" (s.holdCmd agent)
def execDbgRelease (agent : Nat) (s : State) : Out := event "DBG_RELEASE" (s.releaseCmd agent)
def execStepPath (agent : Nat) (s : State) : Out := event "STEP" (s.stepCmd agent)
def execHalt (agent : Nat) (s : State) : Out := event "HALT" (s.haltCmd agent)
def execRestore (agent : Nat) (s : State) : Out := event "RESTORE" (s.restoreCmd agent)
def execStallsmp (agent : Nat) (s : State) : Out := event "STALLSMP" (s.stallCmd agent)
def execTrace (agent : Nat) (s : State) : Out := event "TRACE" (s.traceCmd agent)
def execBkpten (agent : Nat) (s : State) : Out := event "BKPTEN" (s.bkptCmd agent)
def execBadcmd (agent : Nat) (s : State) : Out := event "BADCMD" (s.badCmd agent)
def execStallSample (wg g path : Nat) (s : State) : Out := event "STALL_SAMPLE" (s.stallStep wg g path)

/-! ### Masters' writes -/

/-- An access of a master to a BAR: after a failed boot the host's complete with Unsupported Request (R430). -/
def State.barred (s : State) (m : Master) (f : State → State) : State :=
  if m == .host && s.reg.bootFail then { s with out := s.out ++ [.unsupported] } else f s

/-- A write that only owner writes make (R425). -/
def State.owned (s : State) (m : Master) (f : State → State) : State :=
  s.barred m fun s => if s.ownerWrite m then f s else s.deny

/-- EVICT (R214) and KILL (R384). -/
def execEvict (m : Master) (handle : Nat) (s : State) : Out := .next (s.owned m (·.evictWrite handle))
def execKill (m : Master) (handle : Nat) (s : State) : Out := .next (s.owned m (·.killWrite handle))

/-- DEBUG_GRANT (R386). -/
def execDebugGrant (m : Master) (target agent : Nat) (s : State) : Out :=
  .next (s.owned m (·.grantRight (target % 4096) (agent % 4096)))

/-- DEBUG_REVOKE (R392): the owner's write starts it; later it finishes, once earlier commands have completed. -/
def State.revokeDebug (s : State) (m : Master) (target agent : Nat) : Option State :=
  if s.rights.any fun r => r.target == target && r.agent == agent && r.revoking then s.finishRevoke target agent
  else some (s.owned m (·.startRevoke (target % 4096) (agent % 4096)))

def execDebugRevoke (m : Master) (target agent : Nat) (s : State) : Out :=
  event "DEBUG_REVOKE" (s.revokeDebug m target agent)

/-- Ownership (R428). -/
def execClaim (m : Master) (s : State) : Out := .next (s.barred m (·.ownClaim m))
def execOffer (m : Master) (target : BitVec 16) (s : State) : Out := .next (s.barred m (·.ownOffer m target))
def execAccept (m : Master) (s : State) : Out := .next (s.barred m (·.ownAccept m))
def execRelease (m : Master) (s : State) : Out := .next (s.barred m (·.ownRelease m))
def execHandoverTimeout (s : State) : Out := event "HANDOVER_TIMEOUT" s.ownTimeout

/-- ATTNONCE, as a write to the register space at the nonce (R431). -/
def execAttnonceWrite (m : Master) (off : Nat) (bytes : List Byte) (s : State) : Out :=
  .next (s.barred m (·.regWrite m (0x200 + off) bytes))
def execQuoteComplete (s : State) : Out := event "QUOTE_COMPLETE" s.quoteDone
def execDstatRetire (m : Master) (s : State) : Out := .next (s.owned m (·.dstatPop))

/-- A load of FRAMEPOOL (R382); what the host reads leaves over its port. -/
def State.popFrame (s : State) (m : Master) (die : Nat) : State :=
  let (v, s) := s.framePop die
  if m == .host then { s with out := s.out ++ [.data (bytesOfNat 8 v)] } else s

def execFramepoolPop (m : Master) (die : Nat) (s : State) : Out := .next (s.barred m (·.popFrame m die))
def execFramepoolPush (m : Master) (die : Nat) (w : BitVec 64) (s : State) : Out :=
  .next (s.barred m (·.framePush die w.toNat))

def execRegisterWrite (m : Master) (off : Nat) (bytes : List Byte) (s : State) : Out :=
  .next (s.barred m (·.regWrite m off bytes))
def execMailboxWrite (m : Master) (page off : Nat) (bytes : List Byte) (s : State) : Out :=
  .next (s.barred m (·.mailWrite m page off bytes))

/-! ### The host's window into HBM, and reset -/

/-- BAR4_ACCESS (R429): a physical DIR access at the home, or Unsupported Request. -/
def State.bar4 (s : State) (off : Nat) (isWrite : Bool) (n : Nat) (bs : List Byte) : Option State :=
  let a := s.reg.hwin.toNat + off
  let len := if isWrite then bs.length else n
  let no : State := { s with out := s.out ++ [.unsupported] }
  if s.reg.bootFail || 2 ^ 36 < off + len || hbmTop < a + len then some no
  else if isWrite then
    match s.writePhys .dir a bs with
    | .ok s => some s
    | .busy r => s.begin? r
    | .lost => some no
  else match s.readPhys a n with
    | .ok (bs, s) => some { s with out := s.out ++ [.data bs] }
    | .busy r => s.begin? r
    | .lost => some no

def execBar4Access (off : Nat) (isWrite : Bool) (n : Nat) (bytes : List Byte) (s : State) : Out :=
  event "BAR4_ACCESS" (s.bar4 off isWrite n bytes)

def execReset (s : State) : Out := .next s.reboot

end Sys2Proof.Machine
end

