-- ==== Sys2Proof/Machine/Lanes.lean ====
section
/-!
DEFINITION. Lanes and predicates (R290 to R296, Table 12.15). X is the execution mask.
-/
namespace Sys2Proof.Machine

def SegW.width : SegW → Nat
  | .w32 => 32 | .w16 => 16 | .w8 => 8 | .w4 => 4 | .w2 => 2

/-- PAND. -/
def pandBody (d a b : Opnd) (x : Iss) : Res := x.preds d fun l => ((x.pmask a).getLsbD l && (x.pmask b).getLsbD l, 0)

def execPand (c : Ctl) (d a b : Opnd) (s : State) : Out := issue (.pand c d a b) s (pandBody d a b)

/-- POR. -/
def porBody (d a b : Opnd) (x : Iss) : Res := x.preds d fun l => ((x.pmask a).getLsbD l || (x.pmask b).getLsbD l, 0)

def execPor (c : Ctl) (d a b : Opnd) (s : State) : Out := issue (.por c d a b) s (porBody d a b)

/-- PXOR. -/
def pxorBody (d a b : Opnd) (x : Iss) : Res := x.preds d fun l => ((x.pmask a).getLsbD l != (x.pmask b).getLsbD l, 0)

def execPxor (c : Ctl) (d a b : Opnd) (s : State) : Out := issue (.pxor c d a b) s (pxorBody d a b)

/-- PMOV, by the classes of its operands (R291). -/
def pmovBody (d a : Opnd) (x : Iss) : Res :=
  if d.isS 1 then
    let v : Word := if a.isP then x.pmask a &&& x.x else BitVec.ofNat 32 (x.int .b32 1 a 0)
    .done (x.putScalar d [v]) [] []
  else x.preds d fun l => (if a.isP then (x.pmask a).getLsbD l
    else if a.isV 1 then x.raw 1 a 1 l != 0
    else (x.int .b32 1 a 0).testBit l, 0)

def execPmov (c : Ctl) (d a : Opnd) (s : State) : Out := issue (.pmov c d a) s (pmovBody d a)

/-! ### Shuffles (R292) -/

/-- The lane within its segment that SHFL reads. -/
def shflFrom (w _i n : Nat) : Nat := n % w

def shflBody (w : SegW) (t : Ty) (d a b : Opnd) (x : Iss) : Res :=
  x.lanes d t.regs fun l =>
    let w := SegW.width w
    plainInt t (x.int t 1 a (l - l % w + shflFrom w (l % w) (x.cnt 2 b l)))

def execShfl (c : Ctl) (w : SegW) (t : Ty) (d a b : Opnd) (s : State) : Out :=
  issue (.shfl c w t d a b) s (shflBody w t d a b)

/-- The lane within its segment that SHFLUP reads. -/
def shflupFrom (_w i n : Nat) : Nat := if n ≤ i then i - n else i

def shflupBody (w : SegW) (t : Ty) (d a b : Opnd) (x : Iss) : Res :=
  x.lanes d t.regs fun l =>
    let w := SegW.width w
    plainInt t (x.int t 1 a (l - l % w + shflupFrom w (l % w) (x.cnt 2 b l)))

def execShflup (c : Ctl) (w : SegW) (t : Ty) (d a b : Opnd) (s : State) : Out :=
  issue (.shflup c w t d a b) s (shflupBody w t d a b)

/-- The lane within its segment that SHFLDN reads. -/
def shfldnFrom (w i n : Nat) : Nat := if i + n < w then i + n else i

def shfldnBody (w : SegW) (t : Ty) (d a b : Opnd) (x : Iss) : Res :=
  x.lanes d t.regs fun l =>
    let w := SegW.width w
    plainInt t (x.int t 1 a (l - l % w + shfldnFrom w (l % w) (x.cnt 2 b l)))

def execShfldn (c : Ctl) (w : SegW) (t : Ty) (d a b : Opnd) (s : State) : Out :=
  issue (.shfldn c w t d a b) s (shfldnBody w t d a b)

/-- The lane within its segment that SHFLX reads. -/
def shflxFrom (w i n : Nat) : Nat := i ^^^ n % w

def shflxBody (w : SegW) (t : Ty) (d a b : Opnd) (x : Iss) : Res :=
  x.lanes d t.regs fun l =>
    let w := SegW.width w
    plainInt t (x.int t 1 a (l - l % w + shflxFrom w (l % w) (x.cnt 2 b l)))

def execShflx (c : Ctl) (w : SegW) (t : Ty) (d a b : Opnd) (s : State) : Out :=
  issue (.shflx c w t d a b) s (shflxBody w t d a b)

/-! ### Votes (R293) -/

/-- A truth value for every lane of X, or as 0 or 1 in an S register. -/
def Iss.truth (x : Iss) (d : Opnd) (v : Bool) : Res :=
  if d.isS 1 then .done (x.putScalar d [if v then 1 else 0]) [] [] else x.preds d fun _ => (v, 0)

def voteallBody (d a : Opnd) (x : Iss) : Res := x.truth d (x.x &&& ~~~ x.pmask a == 0)

def execVoteall (c : Ctl) (d a : Opnd) (s : State) : Out := issue (.voteall c d a) s (voteallBody d a)

def voteanyBody (d a : Opnd) (x : Iss) : Res := x.truth d (x.x &&& x.pmask a != 0)

def execVoteany (c : Ctl) (d a : Opnd) (s : State) : Out := issue (.voteany c d a) s (voteanyBody d a)

def ballotBody (d a : Opnd) (x : Iss) : Res := x.shared d [x.x &&& x.pmask a] 0

def execBallot (c : Ctl) (d a : Opnd) (s : State) : Out := issue (.ballot c d a) s (ballotBody d a)

/-! ### Reductions (R294) -/

/-- A over the lanes of X, in ascending order. -/
def Iss.xints (x : Iss) (t : Ty) (a : Opnd) : List Int := (Mask.lanes x.x).map fun l => x.ival t 1 a l
def Iss.xfloats (x : Iss) (a : Opnd) : List Nat := (Mask.lanes x.x).map fun l => x.float .f32 1 a l

/-- FMIN or FMAX over a list; a NaN becomes the canonical one. -/
def foldFloat (isMax : Bool) (l : List Nat) : Nat × Word :=
  let fl := l.foldl (fun (w : Word) v => w ||| (fmt32.unpack v).nv) 0
  match l with
  | [] => (if isMax then 0xFF800000 else 0x7F800000, 0)
  | v :: vs =>
    let r := vs.foldl (fun r v => (fmt32.minmax isMax r v).1) v
    (if (fmt32.unpack r).isNan then fmt32.nan else r, fl)

/-- REDADD. -/
def redaddBody (t : Ty) (d a : Opnd) (x : Iss) : Res :=
  let r := if t == .f32 then
      floatRes .f32 d.xm (sumTreeFl ((List.range 32).map fun l => if x.x.getLsbD l then x.float .f32 1 a l else 0))
    else satInt t d.xm (x.xints t a).sum
  x.shared d r.words r.fl

def execRedadd (c : Ctl) (t : Ty) (d a : Opnd) (s : State) : Out := issue (.redadd c t d a) s (redaddBody t d a)

/-- REDMIN. -/
def redminBody (t : Ty) (d a : Opnd) (x : Iss) : Res :=
  let r := if t == .f32 then floatRes .f32 d.xm (foldFloat false (x.xfloats a))
    else plainInt t (wrapTo t.bits ((x.xints t a).foldl min t.hi))
  x.shared d r.words r.fl

def execRedmin (c : Ctl) (t : Ty) (d a : Opnd) (s : State) : Out := issue (.redmin c t d a) s (redminBody t d a)

/-- REDMAX. -/
def redmaxBody (t : Ty) (d a : Opnd) (x : Iss) : Res :=
  let r := if t == .f32 then floatRes .f32 d.xm (foldFloat true (x.xfloats a))
    else plainInt t (wrapTo t.bits ((x.xints t a).foldl max t.lo))
  x.shared d r.words r.fl

def execRedmax (c : Ctl) (t : Ty) (d a : Opnd) (s : State) : Out := issue (.redmax c t d a) s (redmaxBody t d a)

/-- REDAND. -/
def redandBody (t : Ty) (d a : Opnd) (x : Iss) : Res :=
  x.shared d (regWords t ((Mask.lanes x.x).foldl (fun r l => r &&& x.int t 1 a l) (2 ^ t.bits - 1))) 0

def execRedand (c : Ctl) (t : Ty) (d a : Opnd) (s : State) : Out := issue (.redand c t d a) s (redandBody t d a)

/-- REDOR. -/
def redorBody (t : Ty) (d a : Opnd) (x : Iss) : Res :=
  x.shared d (regWords t ((Mask.lanes x.x).foldl (fun r l => r ||| x.int t 1 a l) 0)) 0

def execRedor (c : Ctl) (t : Ty) (d a : Opnd) (s : State) : Out := issue (.redor c t d a) s (redorBody t d a)

/-! ### Prefix sums (R295) -/

/-- One step of an integer scan: the sum and its flag. -/
def scanInt (t : Ty) (sat : Bool) (acc v : Int) : Int × Word :=
  let e := acc + v
  if !sat then (t.intOf (wrapTo t.bits e), 0)
  else if e < t.lo then (t.lo, flOV) else if t.hi < e then (t.hi, flOV) else (e, 0)

/-- A scan of a list: the values written, and the union of the flags. -/
def scanList {α : Type} (add : α → α → α × Word) (zero : α) (excl : Bool) : Option α → List α → List α × Word
  | _, [] => ([], 0)
  | acc, v :: vs =>
    let (now, fl) := match acc with
      | none => (v, 0)
      | some a => add a v
    let (r, w) := scanList add zero excl (some now) vs
    ((if excl then acc.getD zero else now) :: r, fl ||| w)

/-- SCANADD. Its flags are raised in every lane of X (R264). -/
def scanaddBody (excl : Bool) (t : Ty) (d a : Opnd) (x : Iss) : Res :=
  let ls := Mask.lanes x.x
  let (vs, fl) := if t == .f32 then
      let (vs, fl) := scanList (fmt32.add .rne) 0 excl none (x.xfloats a)
      let rs := vs.map fun v => floatRes .f32 d.xm (v, 0)
      (rs.map (·.words), rs.foldl (fun w r => w ||| r.fl) fl)
    else
      let (vs, fl) := scanList (scanInt t d.xm) 0 excl none (x.xints t a)
      (vs.map fun v => regWords t (wrapTo t.bits v), fl)
  let at_ := fun (l : Nat) => ((vs.zip ls).find? (·.2 == l)).map (·.1) |>.getD []
  x.lanes d t.regs fun l => { words := at_ l, fl := fl }

def execScanadd (c : Ctl) (excl : Bool) (t : Ty) (d a : Opnd) (s : State) : Out :=
  issue (.scanadd c excl t d a) s (scanaddBody excl t d a)

/-! ### MATCH (R296) -/

def matchLanesBody (t : Ty) (d a : Opnd) (x : Iss) : Res :=
  x.lanes d 1 fun l => { words := [Mask.ofLanes ((Mask.lanes x.x).filter fun k => x.int t 1 a k == x.int t 1 a l)] }

def execMatchLanes (c : Ctl) (t : Ty) (d a : Opnd) (s : State) : Out :=
  issue (.matchLanes c t d a) s (matchLanesBody t d a)

end Sys2Proof.Machine
end

