-- ==== Sys2Proof/Machine/Pronoun.lean ====
section
/-!
DEFINITION. RESOLVE, PNQ and PNDROP (R324 to R326), and the resolution of entries (R111, R112).
-/
namespace Sys2Proof.Machine

/-! ### The range of an instruction -/

/-- What the range of RESOLVE, PNQ or PNDROP comes to: a stall, a cause, or physical pieces. -/
inductive PhysRange where
  | walk (pages : List Nat)
  | fault (f : LaneFault)
  | pieces (gs : List Seg) (ts : List Trans)
  deriving DecidableEq, Repr

/-- Virtual, or physical with .PA, which only a supervisor handler may use. -/
def Iss.physRange (x : Iss) (pa : Bool) (k : Kind) (a n : Nat) : PhysRange :=
  if pa then
    if !x.gr.sup then .fault { cause := .perm, info := 0, addr := a }
    else if !isHbm a || hbmTop < a + n then .fault { cause := .physRange, info := 0, addr := a }
    else .pieces [{ off := 0, n := n, va := a, place := .phys a, coh := .dir, normal := true }] []
  else
    let r := x.copyRange k a n
    match r.bad, r.walks, lowestFault r.faults with
    | some f, _, _ => .fault f
    | none, p :: ps, _ => .walk (p :: ps)
    | none, [], some f => .fault f
    | none, [], none => .pieces r.segs r.trans

/-- The result where the range is not ready; otherwise the instruction goes on with its pieces. -/
def Iss.withRange (x : Iss) (pa : Bool) (k : Kind) (a n : Nat) (go : List Seg → List Trans → Res) : Res :=
  match x.physRange pa k a n with
  | .walk ps => .stall .walk (x.s.askWalks x.gr.core x.w.ctx k x.gr.sup ps)
  | .fault f =>
    .state (x.raiseIn (x.s.dropFaults x.gr.core x.w.ctx) { x.whole f.cause f.info with faddr := f.addr })
  | .pieces gs ts => go gs ts

/-- The entries whose windows meet some pieces. -/
def State.entriesAt (s : State) (gs : List Seg) : List PnEnt :=
  s.pn.filter fun e => segsPhys gs e.winLo (e.winHi - e.winLo)

/-! ### RESOLVE: its operation holds the entries it waits for -/

def resolveBody (i : Instr) (pa : Bool) (a b : Opnd) (x : Iss) : Res :=
  x.withRange pa .src (x.dword 1 a) (x.word 2 b) fun gs ts => x.using false ts fun t =>
    let es := (x.s.entriesAt gs).filter fun e => !(e.st == .resolving && x.s.stuck e)
    let s := (t.startResolving es).getD t
    .state ({ x with s := s }.launchOp i { x.newOp i [] with args := es.map fun (e : PnEnt) => BitVec.ofNat 64 e.id })

def execResolve (c : Ctl) (pa : Bool) (a b : Opnd) (s : State) : Out :=
  issue (.resolve c pa a b) s (resolveBody (.resolve c pa a b) pa a b)

/-! ### PNQ -/

def Xf.code : Xf → Nat
  | .ident => 0 | .t2d => 1 | .pack => 2 | .unpack => 3 | .hadq => 4

def PnSt.code : PnSt → Nat
  | .live => 1 | .hot => 2 | .resolving => 3

/-- The words of Table 13.9 and R325 for a physical byte. -/
def State.pnStatus (s : State) (ctx : Nat) (showBase : Bool) (a : Nat) : List Word :=
  match s.pn.find? (·.holds a) with
  | none => [0, 0, 0, 0]
  | some e =>
    let base := if showBase then e.abase else 0
    [BitVec.ofNat 32 (e.heat * 2 ^ 8 + (if e.ctx == ctx then 2 ^ 7 else 0) + (if e.mirror then 2 ^ 6 else 0)
        + e.xf.code * 2 ^ 3 + e.st.code * 2 + 1),
     BitVec.ofNat 32 (e.winHi - a), BitVec.ofNat 32 base, BitVec.ofNat 32 (base / 2 ^ 32)]

def pnqBody (i : Instr) (pa : Bool) (a : Opnd) (x : Iss) : Res :=
  x.withRange pa .src (x.dword 1 a) 1 fun gs ts => x.using false ts fun t =>
    let ws := match placeAt gs 0 with
      | some (.phys p) => t.pnStatus x.w.ctx (pa || x.gr.sup) p
      | _ => [0, 0, 0, 0]
    let o := { x.newOp i (x.dstRegs i) with todo := 1 }
    .state (({ x with s := t }.launchOp i o).answer x.h x.g o.seq ws)

def execPnq (c : Ctl) (pa : Bool) (d a : Opnd) (s : State) : Out :=
  issue (.pnq c pa d a) s (pnqBody (.pnq c pa d a) pa a)

/-! ### PNDROP: it performs at its issue, once every access it must follow has performed -/

/-- Whether an entry stopped at a lost line is freed by a drop of every context's entries (R122, R326). -/
def State.freesStuck (s : State) (all : Bool) (e : PnEnt) : Bool := all && e.st == .resolving && s.stuck e

/-- Whether the entries of some pieces can be dropped now: their lines are quiet, the leases of LSE lines have
passed (R166), and no RESOLVING entry is waited for. -/
def State.dropReady (s : State) (all : Bool) (gs : List Seg) : Bool :=
  let es := s.entriesAt gs
  !(es.any fun e => e.st == .resolving && !s.freesStuck all e)
  && (es.flatMap (·.lines)).all fun l => s.quiet l && (cohAt gs l != .lse || s.leaseFree l)

/-- Entries of other contexts that a drop resolves, and that cannot be resolved whole. -/
def State.othersStuck (s : State) (ctx : Nat) (all : Bool) (gs : List Seg) : List PnEnt :=
  (s.entriesAt gs).filter fun e => !all && e.ctx != ctx && e.st != .resolving && s.stuck e

/-- The bytes of one physical range leave every window: those of the context, or of every context; the windows of
others are resolved. -/
def State.dropRange (s : State) (ctx : Nat) (all : Bool) (a n : Nat) : State :=
  let es := s.pn.filter (·.meets a n)
  let freed := es.filter (s.freesStuck all)
  let mine := es.filter fun e => (all || e.ctx == ctx) && !freed.contains e
  let s := (es.filter fun e => !(all || e.ctx == ctx)).foldl (fun s e => s.resolveEntry e) s
  let s : State := { s with pn := s.pn.filter fun e => !(freed.any (·.id == e.id)) }
  let gone := freed.flatMap (·.lines) ++ (mine.flatMap (·.lines)).filter fun l => a ≤ l && l + 128 ≤ a + n
  (gone.foldl (fun s l => (s.takeBack l).dropL2 l) (s.supersede a n))

def pndropBody (i : Instr) (pa : Bool) (scope : ScopeSel) (a b : Opnd) (x : Iss) : Res :=
  x.withRange pa .dst (x.dword 1 a) (x.word 2 b) fun gs ts =>
    if !x.s.accessesDone x.h x.g x.priorOps gs || !x.s.dropReady pa gs then .stall .requests x.s
    else if !(x.s.othersStuck x.w.ctx pa gs).isEmpty then
      .stall .requests ((x.s.startResolving (x.s.othersStuck x.w.ctx pa gs)).getD x.s)
    else match x.s.translated? ((x.s.entriesAt gs).flatMap (·.lines)) with
    | some l => .stall .requests (x.s.begun (some l))
    | none => x.using true ts fun s =>
      let s := gs.foldl (fun s g => match g.place with
        | .phys p => s.dropRange x.w.ctx pa p g.n
        | .loc .. => s) s
      .state ({ x with s := s }.launchOp i { x.newOp i [] with scope := scopeSel x.w scope, gvt := upTick s.cycle })

def execPndrop (c : Ctl) (pa : Bool) (scope : ScopeSel) (a b : Opnd) (s : State) : Out :=
  issue (.pndrop c pa scope a b) s (pndropBody (.pndrop c pa scope a b) pa scope a b)

/-! ### Resolution -/

/-- HOT_RESOLUTION: the Raker of a die takes the entry that became hot first, once the one before it is free. -/
def State.hotStep (s : State) (die : Nat) : Option State :=
  let mine := s.pn.filter fun e => e.die == die
  if mine.any fun e => e.st == .resolving && e.hotAt != 0 && !s.stuck e then none
  else
    let oldest := (mine.filter (·.st == .hot)).foldl (fun (b : Option PnEnt) e => match b with
      | none => some e
      | some c => if e.hotAt < c.hotAt then some e else some c) none
    oldest.bind fun e => s.startResolving [e]

def execHotResolution (die : Nat) (s : State) : Out := event "HOT_RESOLUTION" (s.hotStep die)

/-- The lines of a window are written in ascending order, up to the first whose antecedent is lost, or that translations are
formed from. -/
def resolveUpTo (id : Nat) : List Nat → State → State
  | [], s => s
  | l :: ls, s =>
    if (s.lackAt l).isSome || (s.translated? [l]).isSome then s
    else match s.pn.find? (·.id == id) with
      | none => s
      | some e => resolveUpTo id ls ((s.resolveLine l).setWindow id (min (l + 128) e.winHi - e.dbase) e.hi)

/-- RESOLUTION_COMPLETE: a RESOLVING entry's lines are written; with the last one it is free (R112), and stops where an
antecedent is lost (R122). Translations formed from a line are invalidated before it is written (R38). -/
def State.resolutionStep (s : State) (id : Nat) : Option State :=
  match s.pn.find? (·.id == id) with
  | none => none
  | some e =>
    if e.st != .resolving then none
    else
      let t := resolveUpTo id e.lines s
      if t == s then s.begin? (s.translated? (e.lines.take 1)) else some t

def execResolutionComplete (id : Nat) (s : State) : Out := event "RESOLUTION_COMPLETE" (s.resolutionStep id)

def execRedirectedRead (line : Nat) (s : State) : Out := event "REDIRECTED_READ" (s.redirectStep line)

def execAntecedentWrite (line : Nat) (s : State) : Out := event "ANTECEDENT_WRITE" (s.antecedentStep line)

def execDestinationWrite (line : Nat) (s : State) : Out := event "DESTINATION_WRITE" (s.destinationStep line)

end Sys2Proof.Machine
end

