-- ==== Sys2Proof/Machine/Stacker.lean ====
section
/-!
DEFINITION. The Stackers (R42, R43, R121, R426): moves of 32 leaves onto a new 2 MiB run, and the release of the
frames they leave.
-/
namespace Sys2Proof.Machine

def runSize : Nat := 0x20_0000

/-- Stacker g of a die. -/
def State.stacker (s : State) (d g : Nat) : Stacker := ((s.die d).stackers[g]?).getD Stacker.reset
def State.modStacker (s : State) (d g : Nat) (f : Stacker → Stacker) : State :=
  s.modDie d fun x => { x with stackers := modAt f x.stackers g }

/-- The channel group of a frame (R22). -/
def channelGroup (pa : Nat) : Nat × Nat := (homeDie pa, pa % hbmDie / 0x3_0000_0000)

/-- The level-three entry of a virtual address: its place, through the tables as memory holds them; none where a
table is absent, or the context's pages are not promoted (STK, Table 2.3). -/
def State.leafPlace (s : State) (ctx va : Nat) : Option Nat :=
  let at_ := fun (a : Nat) => entryIn (s.coherentRow (lineOf a)) a
  let d := at_ (s.descAddr ctx)
  if !pteV d || bitsOf d 1 1 != 1 || !isHbm (pteFrame d) then none
  else
    let e1 := at_ (pteFrame d + 8 * bitsOf va 54 42)
    if (tableCheck 1 e1).isSome then none
    else
      let e2 := at_ (pteFrame e1 + 8 * bitsOf va 41 29)
      if pteB e2 || (tableCheck 2 e2).isSome then none
      else some (pteFrame e2 + 8 * bitsOf va 28 16)

/-- The 32 entries from an address on. -/
def State.leafGroup (s : State) (table : Nat) : List Nat :=
  (List.range 32).map fun k => entryIn (s.coherentRow (lineOf (table + 8 * k))) (table + 8 * k)

/-- What a Stacker may move (R43). -/
def movable (podid : Nat) (cg : Nat × Nat) (es : List Nat) : Bool :=
  let key := fun e => (pteCoh e, pteStor e, bitsOf e 9 6)
  es.all fun e => (leafCheck podid 3 e).isNone && bitsOf e 13 13 == 1 && key e == key (es.headD 0)
    && pteStor e == 0 && isHbm (pteFrame e) && channelGroup (pteFrame e) == cg

/-- An entry is recorded with the mirror mark: what it would overlap is resolved or superseded first, as for a
copy, and it does not collapse. -/
def State.recordMirror (s : State) (n : PnEnt) : Moved :=
  match s.resolveSet (s.pn.filter fun e => e.anteMeets n.dbase n.dext || e.meets n.abase n.aext) with
  | .ok s => s.enterEntry [{ off := 0, n := n.dext, va := 0, place := .phys n.dbase, coh := .dir, normal := true }] n n.anteLines
  | r => r

def State.recordMirrors (s : State) : List PnEnt → Moved
  | [] => .ok s
  | n :: r => match s.recordMirror n with
    | .ok s => s.recordMirrors r
    | x => x

/-- The entry of one frame of a move. -/
def mirrorEnt (ctx dst src : Nat) : PnEnt :=
  { blankEnt .ident 0 with
    ctx := ctx, mirror := true, dbase := dst, dext := 0x1_0000, lo := 0, hi := 0x1_0000, hlim := 0
    abase := src, aext := 0x1_0000 }

/-- Entries that are still there for a move's run. -/
def State.mirrorsOf (s : State) (run : Nat) : List PnEnt :=
  s.pn.filter fun e => e.mirror && run ≤ e.dbase && e.dbase < run + runSize

/-- Steps 1 and 2 of R43: a group is chosen, a run taken, and the 32 entries are recorded. -/
def State.startMove (s : State) (d g ctx va : Nat) : Option State :=
  let st := s.stacker d g
  let room := fun (n : Nat) => n + 1024 ≤ 8192
  if 8 ≤ d || 8 ≤ g || (s.die d).fenced || va % runSize != 0 || st.frbase == st.frlim || st.rlbase == st.rllim
    || !room (s.pnOnDie d) || !room (s.idxOnDie d) then none
  else match s.leafPlace ctx va with
    | none => none
    | some table =>
      let es := s.leafGroup table
      if !movable s.podid (d, g) es then none
      else match s.readPhys st.frbase.toNat 8 with
        | .busy r => s.begin? r
        | .lost => none
        | .ok (bs, s) =>
          let run := bitsOf (natOfBytes bs) 51 21 * runSize
          let ents := (List.range 32).map fun k => mirrorEnt ctx (run + 0x1_0000 * k) (pteFrame (es.getD k 0))
          match s.recordMirrors ents with
          | .wait r => s.begin? r
          | .part _ | .lost _ => none
          | .ok s =>
            let m : Move := { ctx := ctx, va := va, run := run, table := table, expect := es, done := false
                              frames := es.map pteFrame }
            some (s.modStacker d g fun x => { x with frbase := x.frbase + 8, moves := x.moves ++ [m] })

/-- An entry that names a new frame, as a member of a contiguous group. -/
def pteMoved (e frame : Nat) : Nat :=
  e - pteFrame e + frame + (if bitsOf e 12 12 == 1 then 0 else 0x1000)

/-- A move is given up: its entries are dropped, which none that is RESOLVING can be (R103), and its run goes back in front of
the free-run list. -/
def State.dropMove (s : State) (d g : Nat) (m : Move) : Option State :=
  if (s.mirrorsOf m.run).any (·.st == .resolving) then none
  else
    let t : State := { s with pn := s.pn.filter fun e => !((s.mirrorsOf m.run).any (·.id == e.id)) }
    match t.writePhys .dir ((s.stacker d g).frbase.toNat - 8) (bytesOfNat 8 m.run) with
    | .busy r => s.begin? r
    | .lost => none
    | .ok s => some (s.modStacker d g fun x => { x with frbase := x.frbase - 8, moves := x.moves.erase m })

/-- Steps 3 and 4: both table lines are rewritten in one operation at their home, after one round of invalidations (R38); or
the move is given up. -/
def State.finishMove (s : State) (d g : Nat) (m : Move) : Option State :=
  let lines := [m.table, m.table + 128]
  let shared := lines.filter fun l => (s.translated? [l]).isSome
  if lines.any fun l => !s.quiet l then none
  else
    let es := s.leafGroup m.table
    if es.map pteFixed != m.expect.map pteFixed then s.dropMove d g m
    else if !shared.isEmpty then some (shared.foldl (fun s l => s.begun (some l)) s)
    else
      match lines.foldl (fun (c : Coll State) l => match c with
          | .ok s => s.clearFor l 0 128
          | c => c) (.ok s) with
      | .busy r => s.begin? r
      | .lost => none
      | .ok s =>
        let s := (List.range 32).foldl (fun s k =>
          let a := m.table + 8 * k
          let s := s.takeBack (lineOf a)
          s.putL2 (lineOf a) (putEntry (s.homeRow (lineOf a)) a (pteMoved (es.getD k 0) (m.run + 0x1_0000 * k))) true) s
        some (s.modStacker d g fun x => { x with moves := modWhere (· == m) (fun m => { m with done := true }) x.moves })

/-- STACKER_MOVE: the move that the Stacker has begun goes on; where it has none, a new one begins. -/
def State.moveStep (s : State) (d g ctx va : Nat) : Option State :=
  match (s.stacker d g).moves.find? fun m => !m.done with
  | some m => if m.ctx == ctx && m.va == va then s.finishMove d g m else none
  | none => s.startMove d g ctx va

def execStackerMove (d g ctx va : Nat) (s : State) : Out := event "STACKER_MOVE" (s.moveStep d g ctx va)

/-- Frames go on the release list while it has room. -/
def State.releaseFrames (s : State) (d g : Nat) : List Nat → Coll (List Nat × State)
  | [] => .ok ([], s)
  | f :: r =>
    let st := s.stacker d g
    if st.rlbase == st.rllim then .ok (f :: r, s)
    else match s.writePhys .dir st.rlbase.toNat (bytesOfNat 8 f) with
      | .busy r => .busy r
      | .lost => .lost
      | .ok s => (s.modStacker d g fun x => { x with rlbase := x.rlbase + 8 }).releaseFrames d g r

/-- STACKER_RELEASE: of the oldest move that has rewritten its lines, an entry is resolved; once none is left, its
old frames are released. -/
def State.releaseStep (s : State) (d g : Nat) : Option State :=
  match (s.stacker d g).moves.find? (·.done) with
  | none => none
  | some m => match s.mirrorsOf m.run with
    | e :: _ => match s.resolveSet [e] with
      | .ok s | .part s => some s
      | .wait r => s.begin? r
      | .lost _ => none
    | [] => match s.releaseFrames d g m.frames with
      | .busy r => s.begin? r
      | .lost => none
      | .ok ([], s) => some (s.modStacker d g fun x => { x with moves := x.moves.erase m })
      | .ok (fs, s) =>
        if fs == m.frames then none
        else some (s.modStacker d g fun x =>
          { x with moves := modWhere (· == m) (fun m => { m with frames := fs }) x.moves })

def execStackerRelease (d g : Nat) (s : State) : Out := event "STACKER_RELEASE" (s.releaseStep d g)

end Sys2Proof.Machine
end

