-- ==== Sys2Proof/Machine/Sync.lean ====
section
/-!
DEFINITION. FENCE, BAR, WAITC (R311 to R314), the stage rings (R315 to R317), CJOIN and CLEAVE (R318), and the
events that complete them.
-/
namespace Sys2Proof.Machine

/-! ### FENCE, BAR, WAITC -/

/-- The counters of a class set are 0. -/
def Group.quietClasses (gr : Group) (classes : BitVec 4) : Bool :=
  [CtrClass.copy, .xform, .matrix, .token].all fun k => !classes.getLsbD k.num || gr.counter k == 0

/-- A FENCE whose every condition holds when it issues completes in 4 cycles (R155). -/
def fenceBody (i : Instr) (scope : ScopeSel) (classes : BitVec 4) (x : Iss) : Res :=
  let slow := fun (gr : Group) =>
    if x.ap || (x.gr.path x.p).slotted then gr
    else gr.modPath x.p fun q => { q with notBefore := max q.notBefore (x.now + 4) }
  x.fencing (scopeSel x.w scope) (if x.gr.quietClasses classes then .state (x.s.setGroup x.h x.g (slow (x.onward i x.gr)))
    else .stall .fence x.keepLimit)

def execFence (c : Ctl) (scope : ScopeSel) (classes : BitVec 4) (s : State) : Out :=
  issue (.fence c scope classes) s (fenceBody (.fence c scope classes) scope classes)

def barBody (scope : ScopeSel) (b : Opnd) (x : Iss) : Res :=
  let sc := x.w.barScope x.gr (scopeSel x.w scope)
  x.fencing sc (match x.s.barArrive x.h x.g x.p sc (x.word 2 b % 16) with
    | none => .trap (x.whole .barScope)
    | some s => .stall .barrier s)

def execBar (c : Ctl) (scope : ScopeSel) (b : Opnd) (s : State) : Out := issue (.bar c scope b) s (barBody scope b)

def waitcBody (k : CtrClass) (b : Opnd) (x : Iss) : Res :=
  if x.gr.counter k ≤ min (x.word 2 b) 255 then .done x.gr [] [] else .stall .fence x.s

def execWaitc (c : Ctl) (k : CtrClass) (b : Opnd) (s : State) : Out := issue (.waitc c k b) s (waitcBody k b)

/-- BARRIER_PHASE_COMPLETE. -/
def execBarrierPhaseComplete (wg key : Nat) (s : State) : Out :=
  event "BARRIER_PHASE_COMPLETE" (s.phaseStep wg key)

/-! ### Stage rings -/

/-- The checks of a stage instruction on its payload registers (R315). -/
def Iss.stageRegs (x : Iss) (d : Opnd) (desc : Nat) : Option Raise :=
  if 512 < d.idx + ringRegs desc then some (x.whole .illegalOpd 0)
  else if !x.gr.vHeld d.idx (ringRegs desc) then some (x.whole .regUnheld 0)
  else none

/-- A slot beyond the local region (R182). -/
def Iss.stageRange (x : Iss) (cur desc : Nat) : Option Raise :=
  let size := ((x.w.onCore x.gr.core).map (·.size)).getD 0
  if size < 16 * (ringSlot cur desc + ringPayload desc + 1) then
    some { x.whole .localRange with faddr := localBase + 16 * ringSlot cur desc }
  else none

/-- An empty register of the payload. -/
def Iss.payloadEmpty (x : Iss) (d : Opnd) (k : Nat) : Option Reg :=
  ((List.range k).map fun j => Reg.v (d.idx + j)).find? fun r => !x.gr.isFull r

/-- The visit of a stage instruction to its header granule: STAGE.OUT waits until it is empty, STAGE.IN until it is full
(R316, R317). Its access stands for the whole slot. -/
def Iss.stageVisit (x : Iss) (out : Bool) (seq cur desc : Nat) : BankOp :=
  let acc : Acc := { wg := x.h, g := x.g, seq := seq, lane := 0, va := 0, k := 0, off := 0, n := 16 * (ringPayload desc + 1)
                     what := .load }
  { wg := x.h, src := x.gr.core, pos := none, prior := x.priorOps, qual := .wait, isStore := out, eng := out,
    gran := ringSlot cur desc, accs := [acc] }

def stageOutBody (i : Instr) (d a b : Opnd) (x : Iss) : Res :=
  let cur := x.word 1 a
  let desc := x.word 2 b
  let k := ringRegs desc
  match x.stageRegs d desc, x.payloadEmpty d k, x.stageRange cur desc with
  | some r, _, _ => .trap r
  | none, some e, _ => if d.eFlag then .trap (x.whole .regEmpty 0) else .stall (.reg (x.gr.producer e)) x.s
  | none, none, some r => .trap r
  | none, none, none =>
    let o := { x.newOp i [] with
      todo := 1, args := [BitVec.ofNat 64 cur, BitVec.ofNat 64 desc]
      rows := (List.range k).map fun j => x.gr.vreg (d.idx + j) }
    .state (((x.launchOp i o).modGroup x.h x.g fun gr =>
      (gr.putS a.idx (BitVec.ofNat 32 (ringAdvance cur desc))).markFull [.s a.idx]).sendBanks
        [(x.gr.core, x.stageVisit true o.seq cur desc)])

def execStageOut (c : Ctl) (d a b : Opnd) (s : State) : Out :=
  issue (.stageOut c d a b) s (stageOutBody (.stageOut c d a b) d a b)

def stageInBody (i : Instr) (d a b : Opnd) (x : Iss) : Res :=
  let cur := x.word 1 a
  let desc := x.word 2 b
  match x.stageRegs d desc, x.stageRange cur desc with
  | some r, _ | none, some r => .trap r
  | none, none =>
    let dst := (List.range (ringRegs desc)).map fun j => Reg.v (d.idx + j)
    let o := { x.newOp i dst with
      qual := .wait, todo := 1, isLoad := true, args := [BitVec.ofNat 64 cur, BitVec.ofNat 64 desc] }
    -- the older producers of the payload are kept for the case of STAGE_PHASE
    let older := x.gr.sb.filter fun e => dst.contains e.reg
    .state (((x.holdOp i o).modGroup x.h x.g fun gr => { gr with sb := gr.sb ++ older }).sendBanks
      [(x.gr.core, x.stageVisit false o.seq cur desc)])

def execStageIn (c : Ctl) (d a b : Opnd) (s : State) : Out :=
  issue (.stageIn c d a b) s (stageInBody (.stageIn c d a b) d a b)

/-- The header of a slot is written: its phase bit; it becomes full, and its waiters are tried again. -/
def State.writeHeader (s : State) (h core : Nat) (o : Op) : State :=
  let g := s.gran h core o.slot
  let ph := bitsOf (o.args.getD 0 0).toNat 8 8
  let s := s.setGran h core o.slot { g with data := BitVec.ofNat 128 (g.data.toNat / 2 * 2 + ph), full := true }
  s.retryAll h core o.slot

/-- STAGE_OUT_WRITE: the payload of a STAGE.OUT has landed, and its header is written: the operation's time is the tick of
this write (R316). -/
def State.stageOutStep (s : State) (h g seq : Nat) : Option State :=
  match s.group? h g with
  | none => none
  | some gr => match gr.op? seq with
    | none => none
    | some o =>
      if !o.isStageOut || o.todo == 0 || o.step == 0
        || (s.core gr.core).engW.any fun e => e.wg == h && e.g == g && e.seq == seq then none
      else
        let s := s.modGroup h g fun gr => (gr.takeTime o (upTick s.cycle)).modOp seq fun o => { o with todo := 0 }
        some (s.writeHeader h gr.core o)

def execStageOutWrite (wg g seq : Nat) (s : State) : Out := event "STAGE_OUT_WRITE" (s.stageOutStep wg g seq)

/-! ### Clusters -/

def cjoinBody (i : Instr) (b : Opnd) (x : Iss) : Res :=
  let k := x.word 2 b
  let o := { x.newOp i (x.dstRegs i) with todo := 1, args := [BitVec.ofNat 64 k] }
  .state ((x.launchOp i o).join x.h x.g o.seq k)

def execCjoin (c : Ctl) (d b : Opnd) (s : State) : Out := issue (.cjoin c d b) s (cjoinBody (.cjoin c d b) b)

def cleaveBody (i : Instr) (x : Iss) : Res :=
  let o := { x.newOp i (x.dstRegs i) with todo := 1 }
  let r := (x.launchOp i o).cleave x.h x.g (some (x.g, o.seq))
  .state (match r.1 with
    | some v => r.2.answer x.h x.g o.seq [BitVec.ofNat 32 v]
    | none => r.2)

def execCleave (c : Ctl) (d : Opnd) (s : State) : Out := issue (.cleave c d) s (cleaveBody (.cleave c d))

def execClusterInstall (wg core : Nat) (s : State) : Out := event "CLUSTER_INSTALL" (s.installStep wg core)

def execClusterRevoke (wg core member : Nat) (s : State) : Out := event "CLUSTER_REVOKE" (s.revokeStep wg core member)

def execCleaveAck (wg core : Nat) (s : State) : Out := event "CLEAVE_ACK" (s.cleaveDone wg core)

end Sys2Proof.Machine
end

