-- ==== Sys2Proof/Machine/System.lean ====
section
/-!
DEFINITION. System instructions (R366 to R372) and RGIVE and RCLAIM (R190, R191, R327).
-/
namespace Sys2Proof.Machine

/-! ### LAUNCH (R367) -/

/-- The record goes to the distributor, and the destinations wait for its answer. -/
def Iss.handRecord (x : Iss) (i : Instr) (bs : List Byte) (s : State) : Res :=
  let o := { x.newOp i (x.dstRegs i) with todo := 1 }
  let l : LaunchReq :=
    { raw := BitVec.ofNat 1024 (natOfBytes bs), ctx := x.w.ctx, sup := x.gr.sup, wg := x.h, g := x.g, seq := o.seq, mail := none }
  let s := { x with s := s }.launchOp i o
  .state { s with launches := s.launches ++ [l] }

/-- Whether no earlier access of the path to local memory is on its way (R160). -/
def Iss.banksQuiet (x : Iss) : Bool :=
  x.s.cores.all fun c => !(c.2.bankQ.any x.precedes)

/-- The record is read as one load, after the path's earlier stores to it; the local and the cluster window
serve it as they serve a load. -/
def launchBody (i : Instr) (a : Opnd) (x : Iss) : Res :=
  let va := x.dword 1 a
  if va % 64 != 0 then .trap { x.whole .align with faddr := va }
  else match localPlace x.w x.gr va 128 with
    | some (.fault f) => .trap { x.whole f.cause f.info with faddr := f.addr }
    | some (.parts [.loc core off _ _]) =>
      if !x.banksQuiet then .stall .requests x.s
      else x.handRecord i (x.s.localBytes x.h core off 128) x.s
    | some _ => .stall .requests x.s
    | none => match x.s.chkRange x.gr.core x.w.ctx x.gr.sup .read true va 128 with
      | .walk ps => .stall .walk (x.s.askWalks x.gr.core x.w.ctx .read x.gr.sup ps)
      | .fault f _ =>
        .state (x.raiseIn (x.s.dropFaults x.gr.core x.w.ctx) { x.whole f.cause f.info with faddr := f.addr })
      | .pieces ps =>
        let segs := ps.map fun p =>
          ({ off := 0, n := p.n, va := p.va, place := .phys p.pa, coh := p.attr.coh, normal := true } : Seg)
        if !x.s.accessesDone x.h x.g x.priorOps segs then .stall .requests x.s
        else x.after (x.s.usePieces x.gr.core false ps) fun s => x.after (s.readPieces ps) fun r => x.handRecord i r.1 r.2

def execLaunch (c : Ctl) (d a : Opnd) (s : State) : Out := issue (.launch c d a) s (launchBody (.launch c d a) a)

/-! ### TRAP, SVC, BKPT (R368) -/

/-- The handler is entered behind the instruction, with a code. -/
def Iss.software (x : Iss) (c : Cause) (b : Opnd) (p31 : Mask) : Res :=
  .trap { cls := .after, cause := c, info := x.word 2 b % 2 ^ 16, p31 := p31 }

def execTrap (c : Ctl) (b : Opnd) (s : State) : Out := issue (.trap c b) s fun x => x.software .trap b x.x

def execSvc (c : Ctl) (b : Opnd) (s : State) : Out := issue (.svc c b) s fun x => x.software .svc b x.m

/-- A BKPT where breakpoints are enabled holds its path behind it, with a record (R388). -/
def bkptBody (i : Instr) (b : Opnd) (x : Iss) : Res :=
  if x.s.holding x.w.ctx then
    let next := (x.pc + 12) % 2 ^ 64
    x.after (x.s.appendSample x.h x.g x.p x.pc 2 (2 ^ 63 + bitsOf next 54 2)) fun s =>
      .state (s.modGroup x.h x.g fun gr => (x.onward i gr).modPath x.p fun q => { q with hold := true })
  else x.software .bkpt b x.m

def execBkpt (c : Ctl) (b : Opnd) (s : State) : Out := issue (.bkpt c b) s (bkptBody (.bkpt c b) b)

/-! ### ERET (R369) -/

def eretBody (i : Instr) (retry : Bool) (x : Iss) : Res :=
  if !x.gr.sup then .trap (x.whole .srAccess 0x034)
  else
    let pc := bitsOf x.gr.sr.epc.toNat 54 2 * 4
    x.after (x.s.traceAt x.h x.g x.p x.pc pc) fun s => .state (s.modGroup x.h x.g fun gr =>
      (gr.eret x.p (if retry then some (gr.pred 31) else none)).modPath x.p (x.issued i))

def execEret (c : Ctl) (s : State) : Out := issue (.eret c) s (eretBody (.eret c) false)

def execEretRetry (c : Ctl) (s : State) : Out := issue (.eretRetry c) s (eretBody (.eretRetry c) true)

/-! ### GETSR (R370) -/

def getsrBody (d b : Opnd) (x : Iss) : Res :=
  let n := (srNumber b).getD 0
  let k := (srWidth n).getD 32 / 32
  if n == 0x040 && x.w.ctx != 0 then .trap (x.whole .srAccess n)
  else
    let word := fun (l j : Nat) => BitVec.ofNat 32 (x.s.srValue x.w x.gr n l / 2 ^ (32 * j))
    if d.isS 1 then .done (x.putScalar d ((List.range k).map (word 0))) [] []
    else .done (x.putVector d k x.m fun j => Row.ofLanes ((List.range 32).map fun l => word l j)) [] []

def execGetsr (c : Ctl) (d b : Opnd) (s : State) : Out := issue (.getsr c d b) s (getsrBody d b)

/-! ### SETSR (R371) -/

/-- Whether the issuer may write a register of a class (R373). -/
def Iss.mayWrite (x : Iss) (k : SrClass) : Bool :=
  match k with
  | .g => true
  | .sup => x.gr.sup
  | .own => x.gr.sup && x.w.ctx == 0 && decide (1024 ≤ x.gr.core)
  | .no => false

/-- The source as one value of the register's width. -/
def Iss.srSource (x : Iss) (n : Nat) (b : Opnd) : Nat :=
  let w := (srWidth n).getD 32
  match b with
  | .imm v => wrapTo w v.toInt
  | .imm32 v => v.toNat
  | o => if w == 64 then x.dword 2 o else x.word 2 o

/-- The value a register takes: writable bits from the source, the others as they were. -/
def srMerge (n old v : Nat) : Nat := (old &&& ((2 ^ 64 - 1) ^^^ srMask n)) ||| (v &&& srMask n)

/-- sr.XFLAGS: flags written as 1 are cleared, in the lanes of the path's mask. -/
def Iss.clearFlags (x : Iss) (b : Opnd) : Group :=
  let row := Row.ofLanes ((List.range 32).map fun l =>
    let v : Word := match b with
      | .v .. => BitVec.ofNat 32 (x.laneWord 2 b l)
      | b => BitVec.ofNat 32 (x.srSource 0x016 b)
    x.gr.sr.xflags.lane l &&& ~~~ v)
  { x.gr with sr := { x.gr.sr with xflags := Row.merge x.m row x.gr.sr.xflags } }

def setsrBody (i : Instr) (n : Nat) (b : Opnd) (x : Iss) : Res :=
  if !x.mayWrite (srClass n) then .trap (x.whole .srAccess n)
  else
    let v := srMerge n (x.s.srValue x.w x.gr n 0) (x.srSource n b)
    let on := fun (s : State) => s.modGroup x.h x.g (x.onward i)
    match n with
    | 0x016 => .done (x.clearFlags b) [] []
    | 0x020 => .state (on { x.s with pnquota := put x.s.pnquota x.w.ctx (BitVec.ofNat 32 v) })
    | 0x040 => .state (on { x.s.forgetTranslations with ctxbase := BitVec.ofNat 64 v })
    | n => .done { x.gr with sr := x.gr.sr.set n v } [] []

def execSetsr (c : Ctl) (n : BitVec 13) (b : Opnd) (s : State) : Out :=
  issue (.setsr c n b) s (setsrBody (.setsr c n b) n.toNat b)

/-! ### SAMPLE (R372) -/

def sampleBody (i : Instr) (a : Opnd) (x : Iss) : Res :=
  let v := match a with
    | .imm v => v.toNat
    | o => x.word 1 o
  x.after (x.s.appendSample x.h x.g x.p x.pc 0 v) fun s => .state (s.modGroup x.h x.g (x.onward i))

def execSample (c : Ctl) (a : Opnd) (s : State) : Out := issue (.sample c a) s (sampleBody (.sample c a) a)

/-! ### RGIVE and RCLAIM (R190, R191, R327) -/

/-- k registers leave a group's holding: the highest granules of its V registers, or rank units. -/
def Group.give (gr : Group) (pool : Pool) (k : Nat) : Group :=
  let left := gr.holding pool - k
  let x : Given := match pool with
    | .v => { pool := pool, n := k, lo := 32 * left, hi := 32 * gr.vhold }
    | .m => { pool := pool, n := k, lo := 0, hi := 0 }
  { gr.setHolding pool left with given := if k == 0 then gr.given else gr.given ++ [x] }

def rgiveBody (i : Instr) (pool : Pool) (b : Opnd) (x : Iss) : Res :=
  let k := x.word 2 b
  let have_ := x.gr.holding pool
  let low := max ((x.w.limits x.gr.gid).floor pool) (match pool with
    | .v => 0
    | .m => x.gr.occupancy)
  if k == 0 then .state (x.s.setGroup x.h x.g (x.onward i x.gr))
  else if have_ < low + k then .trap (x.whole .poolRange)
  else .state (x.s.setGroup x.h x.g ((x.onward i (x.gr.give pool k)).modPath x.p fun q =>
    { q with notBefore := max q.notBefore (x.now + 4) }))

def execRgive (c : Ctl) (pool : Pool) (b : Opnd) (s : State) : Out :=
  issue (.rgive c pool b) s (rgiveBody (.rgive c pool b) pool b)

/-- Whether a group has a claim pending. -/
def State.claims (s : State) (core h g : Nat) : Bool := (s.core core).claims.any fun c => c.wg == h && c.g == g && !c.floor

/-- The claim enters its queue. A path whose own claim waits already has been restored at its RCLAIM and waits on (R390). -/
def rclaimBody (i : Instr) (pool : Pool) (b : Opnd) (x : Iss) : Res :=
  let k := x.word 2 b
  if (x.s.core x.gr.core).claims.any fun c => c.wg == x.h && c.g == x.g && !c.floor && c.path == x.p then .stall .claim x.s
  else if x.s.claims x.gr.core x.h x.g then .trap (x.whole .claimPending)
  else if (x.w.limits x.gr.gid).ceil pool < x.gr.holding pool + k then .trap (x.whole .poolRange)
  else if k == 0 then .state (x.s.setGroup x.h x.g (x.onward i x.gr))
  else
    let c : Claim := { shadow := x.w.shadow, quarter := x.gr.quarter, pool := pool, wg := x.h, g := x.g, path := x.p, k := k, floor := false }
    let s := x.s.setGroup x.h x.g (x.gr.modPath x.p fun q => { x.issued i q with st := .blocked, wait := some .claim })
    .state (s.modCore x.gr.core fun r => { r with claims := r.claims ++ [c] })

def execRclaim (c : Ctl) (pool : Pool) (b : Opnd) (s : State) : Out :=
  issue (.rclaim c pool b) s (rclaimBody (.rclaim c pool b) pool b)

end Sys2Proof.Machine
end

