-- ==== Sys2Proof/Machine/TileAlg.lean ====
section
/-!
DEFINITION. The arithmetic of tiles (R234 to R237, R335 to R345): forms, expansion, products, the
factorisation of RECOMP. Elements are FP32 patterns; factor elements are kept as BF16 patterns. Every
function that rounds collects the union of its flags in a state of type `Word`.
-/
namespace Sys2Proof.Machine

open Sys2Proof

/-- A computation that collects flags (R222). -/
abbrev FM := StateM Word

def raise (w : Word) : FM Unit := modify fun f => f ||| w

def rd (r : Nat × Word) : FM Nat := do raise r.2; pure r.1

def mAdd (a b : Nat) : FM Nat := rd (fmt32.add .rne a b)
def mSub (a b : Nat) : FM Nat := rd (fmt32.sub .rne a b)
def mMul (a b : Nat) : FM Nat := rd (fmt32.mul .rne a b)
def mDiv (a b : Nat) : FM Nat := rd (fmt32.div .rne a b)
def mSqrt (a : Nat) : FM Nat := rd (fmt32.sqrt .rne a)
def mDot (l : List (Nat × Nat)) : FM Nat := rd (dotTreeFl l)

/-- FP32 to BF16 under RNE. -/
def mBf16 (a : Nat) : FM Nat :=
  let c := (fmt32.unpack a).toFloat .rne fmtB16
  rd (c.val, c.fl)

/-- A BF16 pattern as FP32. -/
def bfTo32 (x : Nat) : Nat := x * 65536

/-- A matrix as a list of rows. -/
abbrev Mat := List (List Nat)

def Mat.at (m : Mat) (i j : Nat) : Nat := (((m[i]?).getD [])[j]?).getD 0

def Mat.col (m : Mat) (j : Nat) : List Nat := m.map fun r => r[j]?.getD 0

def Mat.transpose (n : Nat) (m : Mat) : Mat := (List.range n).map m.col

def matOf (r c : Nat) (f : Nat → Nat → Nat) : Mat :=
  (List.range r).map fun i => (List.range c).map (f i)

def matM (r c : Nat) (f : Nat → Nat → FM Nat) : FM Mat :=
  (List.range r).mapM fun i => (List.range c).mapM (f i)

/-- A tile value (R329): factors are lists of columns of BF16 elements, U and V alike. -/
inductive TVal where
  | zero
  | fact (u v : List (List Nat))
  | dense (rows : Mat) (tag : ETag)
  deriving DecidableEq, Repr

/-- Half a rank unit: 32 BF16 elements. -/
def halfCol (bs : List Byte) : Nat → List Nat
  | 0 => []
  | n + 1 => natOfBytes (bs.take 2) :: halfCol (bs.drop 2) n

/-- A rank unit as a column of U and one of V (R235). -/
def unitCols (r : Row) : List Nat × List Nat :=
  let bs := r.bytes
  (halfCol bs 32, halfCol (bs.drop 64) 32)

def unitOf (u v : List Nat) : Row :=
  Row.ofBytes (u.flatMap (bytesOfNat 2) ++ v.flatMap (bytesOfNat 2))

/-- The value an M register holds. -/
def Tile.val (t : Tile) : TVal :=
  match t.form with
  | .zero => .zero
  | .fact => .fact (t.units.map fun r => (unitCols r).1) (t.units.map fun r => (unitCols r).2)
  | .dense => .dense (t.units.map fun r => r.lanes.map (·.toNat)) t.etag

def rowOfNats (l : List Nat) : Row := Row.ofLanes (l.map (BitVec.ofNat 32))

def unitsOfVal : TVal → List Row
  | .zero => []
  | .fact u v => List.zipWith unitOf u v
  | .dense rows _ => rows.map rowOfNats

def TVal.form : TVal → TileForm
  | .zero => .zero
  | .fact .. => .fact
  | .dense .. => .dense

/-- Occupancy in rank units (R330). -/
def TVal.occ : TVal → Nat
  | .zero => 0
  | .fact u _ => u.length
  | .dense .. => 32

def TVal.rank : TVal → Nat := TVal.occ

/-- XM on a tile source: every element negated, in FACT form every element of U (R242). -/
def TVal.negate : TVal → TVal
  | .zero => .zero
  | .fact u v => .fact (u.map fun c => c.map fun x => if x < 0x8000 then x + 0x8000 else x - 0x8000) v
  | .dense rows tag => .dense (rows.map fun r => r.map f32neg) tag

/-- The transpose of .TA and .TB (R341). -/
def TVal.transpose : TVal → TVal
  | .zero => .zero
  | .fact u v => .fact v u
  | .dense rows tag => .dense (Mat.transpose 32 rows) tag

/-- Element i of factor column list c at column k, as FP32. -/
def facAt (cols : List (List Nat)) (i k : Nat) : Nat := bfTo32 ((((cols[k]?).getD [])[i]?).getD 0)

/-- Expand (R340). -/
def TVal.expand : TVal → FM Mat
  | .zero => pure (matOf 32 32 fun _ _ => 0)
  | .dense rows _ => pure rows
  | .fact u v => matM 32 32 fun i j =>
      mDot ((List.range u.length).map fun k => (facAt u i k, facAt v j k))

def TVal.expandDense (p : TVal) (tag : ETag) : FM TVal := do
  let m ← p.expand
  pure (.dense m tag)

/-- A list of 32-element columns rounded to BF16. -/
def colsM (r : Nat) (f : Nat → Nat → FM Nat) : FM (List (List Nat)) :=
  (List.range r).mapM fun k => (List.range 32).mapM fun i => do mBf16 (← f k i)

/-- The product of two FACT tiles (R236). -/
def factProduct (ua va ub vb : List (List Nat)) : FM TVal := do
  let ra := ua.length
  let rb := ub.length
  let kc ← matM ra rb fun i j =>
    mDot ((List.range 32).map fun k => (facAt va k i, facAt ub k j))
  if ra ≤ rb then
    let vr ← colsM ra fun i k =>
      mDot ((List.range rb).map fun j => (facAt vb k j, kc.at i j))
    pure (.fact ua vr)
  else
    let ur ← colsM rb fun j k =>
      mDot ((List.range ra).map fun i => (facAt ua k i, kc.at i j))
    pure (.fact ur vb)

/-- The product P of MMA (R341). -/
def mmaProduct (a b : TVal) : FM TVal :=
  match a, b with
  | .zero, _ => pure .zero
  | _, .zero => pure .zero
  | .fact ua va, .fact ub vb => factProduct ua va ub vb
  | .fact ua va, .dense rb _ => do
    let v ← colsM ua.length fun i k =>
      mDot ((List.range 32).map fun j => (rb.at j k, facAt va j i))
    pure (.fact ua v)
  | .dense ra _, .fact ub vb => do
    let u ← colsM ub.length fun j i =>
      mDot ((List.range 32).map fun k => (ra.at i k, facAt ub k j))
    pure (.fact u vb)
  | .dense ra _, .dense rb _ => do
    let m ← matM 32 32 fun i j => do
      let s ← mDot ((List.range 32).map fun k => (ra.at i k, rb.at k j))
      mAdd 0 s
    pure (.dense m .wide)

/-- The tree sums of a DENSE product before the final addition, for an accumulator (R341). -/
def denseTrees (a b : TVal) : FM Mat :=
  match a, b with
  | .dense ra _, .dense rb _ => matM 32 32 fun i j =>
      mDot ((List.range 32).map fun k => (ra.at i k, rb.at k j))
  | _, _ => pure []

def matAdd (x y : Mat) : FM Mat := matM 32 32 fun i j => mAdd (x.at i j) (y.at i j)

/-! ### RECOMP (R237) -/

def f32Sign (x : Nat) : Nat := if f32lt x 0 then 0xBF800000 else 0x3F800000

/-- A Householder step: the vector from row k on and its squared length. -/
structure Hh where
  k : Nat
  w : List Nat
  bt : Nat

/-- The column with the step applied (R237). -/
def hhApply (h : Hh) (col : List Nat) : FM (List Nat) := do
  let part := col.drop h.k
  let d ← mDot (h.w.zip part)
  let f ← mDiv (← mMul 0x40000000 d) h.bt
  let new ← (part.zip h.w).mapM fun p => do mSub p.1 (← mMul f p.2)
  pure (col.take h.k ++ new)

/-- Columns k to r − 1 of X (given as columns), step by step; the steps are collected, newest first. -/
def houseSteps (r : Nat) : Nat → List (List Nat) → List Hh → FM (List (List Nat) × List Hh)
  | 0, x, hs => pure (x, hs)
  | n + 1, x, hs => do
    let k := r - (n + 1)
    let col := (x[k]?).getD []
    let part := col.drop k
    let nrm ← mSqrt (← mDot (part.zip part))
    if f32abs nrm == 0 then houseSteps r n x hs
    else
      let xkk := part.headD 0
      let a := if f32lt xkk 0 then nrm else f32neg nrm
      let w0 ← mSub xkk a
      let w := w0 :: part.drop 1
      let bt ← mDot (w.zip w)
      let h : Hh := { k := k, w := w, bt := bt }
      let x' ← (List.range r).mapM fun c =>
        if c < k then pure ((x[c]?).getD []) else hhApply h ((x[c]?).getD [])
      houseSteps r n x' (h :: hs)

/-- HouseQR of a 32 × r matrix given as columns: Q as columns, T as rows of its upper triangle. -/
def houseQR (x : List (List Nat)) : FM (List (List Nat) × Mat) := do
  let r := x.length
  let (x', hs) ← houseSteps r r x []
  let t := matOf r r fun i j => if j < i then 0 else (((x'[j]?).getD [])[i]?).getD 0
  let q0 := (List.range r).map fun j =>
    (List.range 32).map fun i => if i == j then 0x3F800000 else 0
  let q ← hs.foldlM (fun q h => q.mapM (hhApply h)) q0
  pure (q, t)

/-- The rotation of columns p and q of a matrix held as columns. -/
def rotCols (c s : Nat) (w : List (List Nat)) (p q : Nat) : FM (List (List Nat)) := do
  let wp := (w[p]?).getD []
  let wq := (w[q]?).getD []
  let pr ← (wp.zip wq).mapM fun e => do
    let a ← mSub (← mMul c e.1) (← mMul s e.2)
    let b ← mAdd (← mMul s e.1) (← mMul c e.2)
    pure (a, b)
  pure ((w.set p (pr.map (·.1))).set q (pr.map (·.2)))

/-- One pair of a sweep (R237), on G and Z as columns. -/
def jacobiPair (g z : List (List Nat)) (p q : Nat) : FM (List (List Nat) × List (List Nat)) := do
  let gp := (g[p]?).getD []
  let gq := (g[q]?).getD []
  let al ← mDot (gp.zip gp)
  let be ← mDot (gq.zip gq)
  let ga ← mDot (gp.zip gq)
  if f32abs ga == 0 then pure (g, z)
  else
    let ze ← mDiv (← mSub be al) (← mMul 0x40000000 ga)
    let root ← mSqrt (← mAdd 0x3F800000 (← mMul ze ze))
    let tn ← mDiv (f32Sign ze) (← mAdd (f32abs ze) root)
    let c ← mDiv 0x3F800000 (← mSqrt (← mAdd 0x3F800000 (← mMul tn tn)))
    let s ← mMul c tn
    pure (← rotCols c s g p q, ← rotCols c s z p q)

/-- The pairs of one sweep in order. -/
def sweepPairs (r : Nat) : List (Nat × Nat) :=
  (List.range (r - 1)).flatMap fun p =>
    ((List.range r).filter fun q => p < q).map fun q => (p, q)

def jacobi (r : Nat) (g z : List (List Nat)) : Nat → FM (List (List Nat) × List (List Nat))
  | 0 => pure (g, z)
  | n + 1 => do
    let (g', z') ← (sweepPairs r).foldlM (fun (a : List (List Nat) × List (List Nat)) pq =>
      jacobiPair a.1 a.2 pq.1 pq.2) (g, z)
    jacobi r g' z' n

/-- Insertion by descending value, NaN last, ahead of its equals: those of lower index are inserted last (R237). -/
def insertSg (e : Nat × Nat) : List (Nat × Nat) → List (Nat × Nat)
  | [] => [e]
  | a :: l =>
    if f32isNan a.2 || (!f32isNan e.2 && !f32lt e.2 a.2) then e :: a :: l else a :: insertSg e l

/-- The tail sums from the back of the ordered list. -/
def tails : List (Nat × Nat) → FM (List Nat)
  | [] => pure []
  | a :: l => do
    let t ← tails l
    let q ← mMul a.2 a.2
    pure ((← mAdd (t.headD 0) q) :: t)

/-- RECOMP (R237, R343): factors as columns of FP32 elements, tolerance, largest kept rank. -/
def recompose (u v : List (List Nat)) (tol cap : Nat) : FM TVal := do
  let r := u.length
  let (qu, tu) ← houseQR u
  let (qv, tv) ← houseQR v
  -- G as columns
  let g0 ← (List.range r).mapM fun j => (List.range r).mapM fun i =>
    mDot ((List.range r).map fun k => (tu.at i k, tv.at j k))
  let z0 := (List.range r).map fun j => (List.range r).map fun i => if i == j then 0x3F800000 else 0
  let (g, z) ← jacobi r g0 z0 6
  let sg ← (List.range r).mapM fun j => do
    let c := (g[j]?).getD []
    pure (j, ← mSqrt (← mDot (c.zip c)))
  let ord := sg.foldr insertSg []
  let tl ← tails ord
  let t := if f32isNan tol || f32lt tol 0 then 0 else tol
  let r2 ←
    if !f32lt t 0x3F800000 then pure 0
    else do
      -- the tolerance test raises no flag (Table 20.3, R417)
      let lim := (fmt32.mul .rne (fmt32.mul .rne t t).1 (tl.headD 0)).1
      pure ((((List.range (r + 1)).find? fun k =>
        (fmt32.cond .le (tl[k]?.getD 0) lim).1)).getD r)
  let keep := (ord.take (min r2 cap)).map (·.1)
  if keep.isEmpty then pure .zero
  else
    let mul (q : List (List Nat)) (c : List Nat) : FM (List Nat) :=
      (List.range 32).mapM fun i => do
        mBf16 (← mDot ((q.map fun col => col[i]?.getD 0).zip c))
    let u' ← keep.mapM fun j => mul qu ((g[j]?).getD [])
    let v' ← keep.mapM fun j => mul qv ((z[j]?).getD [])
    pure (.fact u' v')

end Sys2Proof.Machine
end

