-- ==== Sys2Proof/Machine/Tiles.lean ====
section
/-!
DEFINITION. The matrix unit (R329 to R346): the checks of each instruction at its issue, the queue of a core's unit,
and what an operation does when it starts.
-/
namespace Sys2Proof.Machine

/-! ### Sources and bounds -/

/-- The value of an M or A source, XM applied (R242, R341). -/
def Group.tileSrc (gr : Group) (o : Opnd) : TVal :=
  let v := match o with
    | .a _ _ i =>
      let rows := gr.acc i.toNat
      if rows.isEmpty then TVal.zero else .dense (rows.map fun r => r.lanes.map (·.toNat)) .wide
    | o => (gr.tile o.idx).val
  if o.xm then v.negate else v

/-- Form and rank, which decide bounds at issue. -/
structure Shape where
  form : TileForm
  rank : Nat
  deriving DecidableEq, Repr

def TVal.shape (v : TVal) : Shape := { form := v.form, rank := v.rank }

def Shape.zero : Shape := { form := .zero, rank := 0 }
def Shape.dense : Shape := { form := .dense, rank := 32 }
def Shape.fact (r : Nat) : Shape := { form := .fact, rank := r }

/-- The occupancy bound of a result written by WriteTile (R340); none is RANK_OVF. -/
def Shape.bound (p : Shape) (isA : Bool) (cap : Nat) (ovf : Bool) : Option Nat :=
  match p.form with
  | .fact => if isA then some 32 else if p.rank ≤ cap then some p.rank else if ovf then some 32 else none
  | _ => some p.rank

/-- The form of a product (R341). -/
def mmaShape (a b : Shape) : Shape :=
  match a.form, b.form with
  | .zero, _ | _, .zero => .zero
  | .fact, .fact => .fact (min a.rank b.rank)
  | .fact, .dense => .fact a.rank
  | .dense, .fact => .fact b.rank
  | .dense, .dense => .dense

/-- The form of a sum (R342); none is RANK_OVF. -/
def maddShape (a b : Shape) (isA : Bool) (cap : Nat) (ovf : Bool) : Option Shape :=
  match a.form, b.form with
  | .zero, _ => some b
  | _, .zero => some a
  | .fact, .fact =>
    if isA then some .dense
    else if a.rank + b.rank ≤ cap then some (.fact (a.rank + b.rank)) else if ovf then some .dense else none
  | _, _ => some .dense

/-- The register of a tile operand. -/
def tileReg (o : Opnd) : Reg := if o.isA then .a o.idx else .m o.idx

/-- CAP of a destination at issue, as the last MRANK.CAP of it that has issued gives it (R340, R345); an accumulator has
none. -/
def Group.capOf (gr : Group) (o : Opnd) : Nat :=
  if o.isA then 32
  else
    let caps := gr.ops.filter fun p => !p.fin && (match p.instr with
      | .mrankCap _ d _ => d.idx == o.idx
      | _ => false)
    (caps.getLast?.map fun p => (p.args.getD 1 0).toNat).getD (gr.tile o.idx).cap

def Group.ovf (gr : Group) : Bool := gr.sr.mmode.getLsbD 0

/-! ### Issue (R330, R332) -/

/-- The operation goes to the unit: its arguments are the bound, CAP, and `args`. -/
def Iss.toMatrix (x : Iss) (i : Instr) (bound cap : Nat) (args : List Nat) (r : Ranged) (rows : List Row) : Res :=
  let o := { x.newOp i (x.dstRegs i) with
    todo := 1, fin := false, segs := r.segs, leafs := r.leafs, rows := rows
    args := (bound :: cap :: args).map (BitVec.ofNat 64) }
  .state ((x.launchOp i o).modCore x.gr.core fun c => { c with matrixQ := c.matrixQ ++ [(x.h, x.g, o.seq)] })

/-- TILE_BUDGET, where the destination grows (R330). -/
def Iss.overBudget (x : Iss) (d : Opnd) (bound : Nat) : Bool :=
  let now := x.gr.occOf (tileReg d)
  now < bound && x.gr.mhold < x.gr.occupancy - now + bound

/-- No memory. -/
def noRange : Ranged := { walks := [], bad := none, faults := [], segs := [], trans := [] }

/-- An instruction that writes a tile register and touches no memory. -/
def Iss.tileOp (x : Iss) (i : Instr) (d : Opnd) (bound : Option Nat) (args : List Nat) : Res :=
  match bound with
  | none => .trap (x.whole .rankOvf)
  | some b =>
    if x.overBudget d b then .trap (x.whole .tileBudget) else x.toMatrix i b (x.gr.capOf d) args noRange []

/-! ### Loads and stores (R335 to R339) -/

/-- The memory rows of a dense tile: row k of the image at base + k × pitch. -/
def tileRows (n base pitch : Nat) : List (Nat × Nat × Nat) :=
  (List.range 32).map fun k => (32 * n * k, base + k * pitch, 32 * n)

def Iss.alignTrap (x : Iss) (a : Nat) : Res := .trap { x.whole .align with faddr := a }

/-- A load: budget, alignment, translation. -/
def Iss.tileLoad (x : Iss) (i : Instr) (d : Opnd) (bound : Nat) (aligned : Bool) (base : Nat)
    (rs : List (Nat × Nat × Nat)) (args : List Nat) : Res :=
  if x.overBudget d bound then .trap (x.whole .tileBudget)
  else if !aligned then x.alignTrap base
  else x.withImage .read rs fun r => x.using false r.trans fun s =>
    { x with s := s }.toMatrix i bound (x.gr.capOf d) args r []

/-- A store: alignment, translation, D. -/
def Iss.tileStore (x : Iss) (i : Instr) (aligned : Bool) (base : Nat) (rs : List (Nat × Nat × Nat)) : Res :=
  if !aligned then x.alignTrap base
  else x.withImage .write rs fun r => x.using true r.trans fun s => { x with s := s }.toMatrix i 0 0 [] r []

def rowLoadBody (i : Instr) (t : Ty) (d a b : Opnd) (x : Iss) : Res :=
  let n := t.bits / 8
  let base := x.dword 1 a
  let p := x.word 2 b
  x.tileLoad i d 32 (base % n == 0 && p % n == 0) base (tileRows n base p) []

def rowStoreBody (i : Instr) (t : Ty) (a b : Opnd) (x : Iss) : Res :=
  let n := t.bits / 8
  let base := x.dword 1 a
  let p := x.word 2 b
  x.tileStore i (base % n == 0 && p % n == 0) base (tileRows n base p)

def execMloadRow (c : Ctl) (tr : Bool) (t : Ty) (d a b : Opnd) (s : State) : Out :=
  issue (.mloadRow c tr t d a b) s (rowLoadBody (.mloadRow c tr t d a b) t d a b)

def execAload (c : Ctl) (tr : Bool) (t : Ty) (d a b : Opnd) (s : State) : Out :=
  issue (.aload c tr t d a b) s (rowLoadBody (.aload c tr t d a b) t d a b)

def factLoadBody (i : Instr) (d a b : Opnd) (x : Iss) : Res :=
  let r := x.word 2 b
  let base := x.dword 1 a
  if 32 < r then .trap (x.whole .tileForm)
  else match (if r == 0 then Shape.zero else .fact r).bound false (x.gr.capOf d) x.gr.ovf with
    | none => .trap (x.whole .rankOvf)
    | some bound => x.tileLoad i d bound (base % 128 == 0) base [(0, base, 128 * r)] []

def execMloadFact (c : Ctl) (d a b : Opnd) (s : State) : Out :=
  issue (.mloadFact c d a b) s (factLoadBody (.mloadFact c d a b) d a b)

def execMloadBlk (c : Ctl) (d a b : Opnd) (s : State) : Out :=
  issue (.mloadBlk c d a b) s fun x =>
    let base := x.dword 1 a
    x.tileLoad (.mloadBlk c d a b) d 32 (base % 64 == 0) base [(0, base, 576)] [x.word 2 b]

def execMstoreRow (c : Ctl) (tr : Bool) (t : Ty) (d a b : Opnd) (s : State) : Out :=
  issue (.mstoreRow c tr t d a b) s (rowStoreBody (.mstoreRow c tr t d a b) t a b)

def execAstore (c : Ctl) (tr : Bool) (t : Ty) (d a b : Opnd) (s : State) : Out :=
  issue (.astore c tr t d a b) s (rowStoreBody (.astore c tr t d a b) t a b)

def factStoreBody (i : Instr) (d a : Opnd) (x : Iss) : Res :=
  let v := x.gr.tileSrc d
  let base := x.dword 1 a
  if v.form == .dense then .trap (x.whole .tileForm)
  else x.tileStore i (base % 128 == 0) base [(0, base, 128 * v.rank)]

def execMstoreFact (c : Ctl) (d a : Opnd) (s : State) : Out :=
  issue (.mstoreFact c d a) s (factStoreBody (.mstoreFact c d a) d a)

/-! ### Arithmetic and moves at issue -/

/-- The shape of a tile source. -/
def Iss.shape (x : Iss) (o : Opnd) : Shape := (x.gr.tileSrc o).shape

/-- A result written by WriteTile. -/
def Iss.writes (x : Iss) (i : Instr) (d : Opnd) (p : Shape) (args : List Nat) : Res :=
  x.tileOp i d (p.bound d.isA (x.gr.capOf d) x.gr.ovf) args

def execMma (c : Ctl) (ta tb : Bool) (d a b : Opnd) (s : State) : Out :=
  issue (.mma c ta tb d a b) s fun x =>
    let p := mmaShape (x.shape a) (x.shape b)
    -- a ZERO product leaves an accumulator as it is
    if d.isA && p.form == .zero then x.tileOp (.mma c ta tb d a b) d (some (x.gr.occOf (tileReg d))) []
    else x.writes (.mma c ta tb d a b) d p []

def execMadd (c : Ctl) (d a b : Opnd) (s : State) : Out :=
  issue (.madd c d a b) s fun x => match maddShape (x.shape a) (x.shape b) d.isA (x.gr.capOf d) x.gr.ovf with
    | none => .trap (x.whole .rankOvf)
    | some p => x.writes (.madd c d a b) d p []

def execRecomp (c : Ctl) (d a : Opnd) (s : State) : Out :=
  issue (.recomp c d a) s fun x =>
    let p := x.shape a
    x.tileOp (.recomp c d a) d (some (min p.rank (x.gr.capOf d))) [x.gr.sr.tol.toNat]

def execMdense (c : Ctl) (d a : Opnd) (s : State) : Out :=
  issue (.mdense c d a) s fun x => x.writes (.mdense c d a) d .dense []

def execMrankGet (c : Ctl) (d a : Opnd) (s : State) : Out :=
  issue (.mrankGet c d a) s fun x => x.toMatrix (.mrankGet c d a) 0 0 [] noRange []

def execMrankCap (c : Ctl) (d b : Opnd) (s : State) : Out :=
  issue (.mrankCap c d b) s fun x =>
    x.toMatrix (.mrankCap c d b) (x.gr.occOf (tileReg d)) (min 32 (x.word 2 b)) [] noRange []

def execMzero (c : Ctl) (d : Opnd) (s : State) : Out :=
  issue (.mzero c d) s fun x => x.writes (.mzero c d) d .zero []

def execAzero (c : Ctl) (d : Opnd) (s : State) : Out :=
  issue (.azero c d) s fun x => x.writes (.azero c d) d .zero []

def execMmov (c : Ctl) (d a : Opnd) (s : State) : Out :=
  issue (.mmov c d a) s fun x => x.writes (.mmov c d a) d (x.shape a) []

def execAmov (c : Ctl) (d a : Opnd) (s : State) : Out :=
  issue (.amov c d a) s fun x => x.writes (.amov c d a) d (x.shape a) []

/-! ### What an operation does when it starts -/

/-- What an operation leaves: a tile value, a CAP, a word, or bytes to store; with its flags and records. -/
inductive TileWrite where
  | nothing
  | tile (d : Opnd) (v : TVal)
  | cap (d : Opnd) (n : Nat)
  | word (d : Opnd) (w : Word)
  | store (img : List Byte)
  deriving DecidableEq, Repr

structure TileOut where
  w : TileWrite
  fl : Word := 0
  ash : List AshRec := []
  deriving DecidableEq, Repr

/-- A list of equal parts. -/
def chunk {α : Type} (n : Nat) : Nat → List α → List (List α)
  | 0, _ => []
  | k + 1, l => l.take n :: chunk n k (l.drop n)

/-- Dense values of an image of 32 rows of 32 elements, each converted exactly (R335). -/
def denseOfImage (t : Ty) (tr : Bool) (img : List Byte) : Mat × Word :=
  let cs := (chunk (32 * (t.bits / 8)) 32 img).map fun row =>
    (chunk (t.bits / 8) 32 row).map fun b => (t.fmt.unpack (natOfBytes b)).toFloat .rne fmt32
  let m := cs.map fun r => r.map (·.val)
  (if tr then Mat.transpose 32 m else m, cs.foldl (fun w r => r.foldl (fun w c => w ||| c.fl) w) 0)

/-- ETAG of a dense load (R335). -/
def etagOf (t : Ty) : ETag := if t.bits == 32 then .wide else if t.bits == 16 then .half else .fp8

/-- The bytes of a dense tile stored under a type, with flags and records (R338). -/
def imageOfDense (t : Ty) (tr : Bool) (m : Mat) : List Byte × Word × List AshRec :=
  let cs := (List.range 32).map fun i => (List.range 32).map fun j => (fmt32.unpack (m.at i j)).toFloat .rne t.fmt
  let none : Cvt := { val := 0, fl := 0, ash := .none }
  let at' := fun (i j : Nat) => (((cs[i]?).getD [])[j]?).getD none
  let bytes := (List.range 32).flatMap fun r => (List.range 32).flatMap fun k =>
    bytesOfNat (t.bits / 8) (if tr then at' k r else at' r k).val
  let fl := cs.foldl (fun (w : Word) r => r.foldl (fun w c => w ||| c.fl) w) 0
  let ash := (List.range 32).flatMap fun i => (List.range 32).filterMap fun j =>
    (at' i j).ash.map fun k => ({ elem := 32 * i + j, lane := 0, kind := k, dfmt := dfmtOf t } : AshRec)
  (bytes, fl, ash)

/-- ETAG of nine blocks (R337). -/
def blkTag (codes : List Nat) : ETag :=
  if codes.any fun c => 3 < c then .wide
  else if codes.any (· == 3) then .half
  else if codes.any fun c => c == 1 || c == 2 then .fp8 else .q4x

/-- MLOAD.BLK. -/
def blkResult (d : Opnd) (ts : Nat) (img : List Byte) : TileOut :=
  let bs := chunk 64 9 img
  let es := bs.map fun b => expandBlock b ts
  let vals := (es.flatMap fun e => (e.vals ++ List.replicate (124 - e.vals.length) 0).take 124).take 1024
  let ash := (List.range 9).flatMap fun j => (((es[j]?).map (·.bad)).getD []).filterMap fun e =>
    if 124 * j + e.1 < 1024 then some ({ elem := 124 * j + e.1, lane := 0, kind := e.2, dfmt := 0 } : AshRec) else none
  { w := .tile d (.dense (chunk 32 32 vals) (blkTag (bs.map fun b => blkByte b 0 / 16)))
    fl := es.foldl (fun w e => w ||| e.fl) 0, ash := ash }

/-- WriteTile at the start of an operation (R340): the fallback decided at issue is applied. -/
def fitTile (isA : Bool) (cap : Nat) (p : TVal) : FM TVal :=
  match p with
  | .fact u _ => if isA || cap < u.length then p.expandDense .wide else pure p
  | .dense m t => pure (.dense m (if isA then .wide else t))
  | .zero => pure .zero

/-- A result computed with its flags and written by WriteTile. -/
def tileOut (d : Opnd) (cap : Nat) (p : FM TVal) : TileOut :=
  let r := (do fitTile d.isA cap (← p)).run 0
  { w := .tile d r.1, fl := r.2 }

/-- MMA (R341). -/
def mmaOut (gr : Group) (ta tb : Bool) (d a b : Opnd) (cap : Nat) : TileOut :=
  let x := if ta then (gr.tileSrc a).transpose else gr.tileSrc a
  let y := if tb then (gr.tileSrc b).transpose else gr.tileSrc b
  if !d.isA then tileOut d cap (mmaProduct x y)
  else if x.form == .zero || y.form == .zero then { w := .nothing }
  else
    let old := (gr.acc d.idx).map fun r => r.lanes.map (·.toNat)
    let m : FM Mat := do
      let e ← if x.form == .dense && y.form == .dense then denseTrees x y else do (← mmaProduct x y).expand
      matAdd old e
    let r := m.run 0
    { w := .tile d (.dense r.1 .wide), fl := r.2 }

/-- MADD (R342). -/
def maddOut (a b : TVal) (d : Opnd) (cap : Nat) : TileOut :=
  let sum : FM TVal := do
    let x ← a.expand
    let y ← b.expand
    pure (.dense (← matAdd x y) .wide)
  tileOut d cap (match a, b with
    | .zero, p => pure p
    | p, .zero => pure p
    | .fact ua va, .fact ub vb =>
      if !d.isA && ua.length + ub.length ≤ cap then pure (.fact (ua ++ ub) (va ++ vb)) else sum
    | _, _ => sum)

/-- RECOMP (R343). -/
def recompOut (a : TVal) (d : Opnd) (cap tol : Nat) : TileOut :=
  let r := (match a with
    | .zero => (pure .zero : FM TVal)
    | .fact u v => recompose (u.map fun (c : List Nat) => c.map bfTo32) (v.map fun (c : List Nat) => c.map bfTo32) tol cap
    | .dense m _ => recompose (Mat.transpose 32 m)
        ((List.range 32).map fun j => (List.range 32).map fun i => if i == j then 0x3F800000 else 0) tol cap).run 0
  { w := .tile d r.1, fl := r.2 }

/-- The metadata of an operand as MRANK.GET gives it. -/
def Group.metaOf (gr : Group) (o : Opnd) : Nat :=
  if o.isA then { Tile.zero with form := if (gr.acc o.idx).isEmpty then .zero else .dense }.meta else (gr.tile o.idx).meta

/-- What an operation does, from its sources as they stand and the image it has read. -/
def tileResult (gr : Group) (o : Op) (img : List Byte) : TileOut :=
  let arg := fun k => (o.args.getD k 0).toNat
  let cap := arg 1
  match o.instr with
  | .mloadRow _ tr t d .. =>
    let r := denseOfImage t tr img
    { w := .tile d (.dense r.1 (etagOf t)), fl := r.2 }
  | .aload _ tr t d .. =>
    let r := denseOfImage t tr img
    { w := .tile d (.dense r.1 .wide), fl := r.2 }
  | .mloadFact _ d .. =>
    let us := rowsOfBytes img (img.length / 128)
    tileOut d cap (pure (if us.isEmpty then .zero
      else .fact (us.map fun r => (unitCols r).1) (us.map fun r => (unitCols r).2)))
  | .mloadBlk _ d .. => blkResult d (arg 2) img
  | .mstoreRow _ tr t d .. | .astore _ tr t d .. =>
    let m := (gr.tileSrc d).expand.run 0
    let (bs, fl, ash) := imageOfDense t tr m.1
    { w := .store bs, fl := m.2 ||| fl, ash := ash }
  | .mstoreFact _ d _ => { w := .store (bytesOfRows (unitsOfVal (gr.tileSrc d))) }
  | .mma _ ta tb d a b => mmaOut gr ta tb d a b cap
  | .madd _ d a b => maddOut (gr.tileSrc a) (gr.tileSrc b) d cap
  | .recomp _ d a => recompOut (gr.tileSrc a) d cap (arg 2)
  | .mdense _ d a =>
    tileOut d 32 (match gr.tileSrc a with
      | .dense m t => pure (.dense m t)
      | v => v.expandDense .wide)
  | .mrankGet _ d a => { w := .word d (BitVec.ofNat 32 (gr.metaOf a)) }
  | .mrankCap _ d _ => { w := .cap d cap }
  | .mzero _ d | .azero _ d => { w := .tile d .zero }
  | .mmov _ d a | .amov _ d a => tileOut d cap (pure (gr.tileSrc a))
  | _ => { w := .nothing }

/-- A tile value in its register. CAP is unchanged. -/
def Group.putTile (gr : Group) (d : Opnd) (v : TVal) : Group :=
  if d.isA then gr.putA d.idx (unitsOfVal v)
  else
    let tag := match v with
      | .dense _ t => t
      | _ => .wide
    gr.putM d.idx { form := v.form, cap := (gr.tile d.idx).cap, etag := tag, units := unitsOfVal v }

/-- The group after an operation has started: a register that no later operation will write takes its value and
is full; bytes to store are kept. -/
def Group.tileStart (gr : Group) (o : Op) (r : TileOut) : Group :=
  let may := o.dst.all fun d => gr.mayLand d o.seq
  let gr := match r.w with
    | .tile d v => if may then gr.putTile d v else gr
    | .cap d n => if may then gr.putM d.idx { gr.tile d.idx with cap := n } else gr
    | .word d w => if may then gr.putS d.idx w else gr
    | _ => gr
  let gr := o.dst.foldl (fun gr d => gr.landed d o.seq) gr
  let keep := match r.w with
    | .store img => rowsOfBytes img ((img.length + 127) / 128)
    | _ => []
  gr.modOp o.seq fun o =>
    { o with fin := true, landed := true, rows := keep, todo := if keep.isEmpty then 0 else 1 }

/-- An operation starts on the unit. -/
def State.matrixGo (s : State) (h g : Nat) (gr : Group) (o : Op) : Option State :=
  let r := tileResult gr o (s.engImage o)
  match s.engAsh h g o r.fl r.ash with
  | .walk as => s.asked? as
  | .busy | .fault _ => none
  | .ok (s, fl) =>
    let s := s.modGroup h g fun gr => (gr.tileStart o r).engFlags o fl
    some (match r.w with
      | .store img => s.engLocal g o img
      | _ => s)

/-- One step of the i-th operation at a core's matrix unit: it reads, starts, or stores. The operations of a group
start in their order. -/
def State.matrixAt (s : State) (core i : Nat) : Option State :=
  let q := (s.core core).matrixQ
  match q[i]? with
  | none => none
  | some (h, g, seq) =>
    let gone := s.modCore core fun c => { c with matrixQ := c.matrixQ.eraseIdx i }
    match s.group? h g with
    | none => some gone
    | some gr => match gr.op? seq with
      | none => some gone
      | some o =>
        if o.fin then (if o.todo == 0 || o.allSent then some gone else s.engWrite h g gr o)
        else
          let read := match o.instr with
            | .mstoreRow .. | .mstoreFact .. | .astore .. => if s.engClear h g gr o then ReadStep.done else .wait
            | _ => s.engRead h g gr o
          match read with
          | .some s => some s
          | .wait => none
          | .done =>
            let first := (q.take i).all fun e => !(e.1 == h && e.2.1 == g) || ((gr.op? e.2.2).all (·.fin))
            if first then s.matrixGo h g gr o else none

/-- MATRIX_START: the first operation at a core's unit that can go on. -/
def State.matrixStep (s : State) (core : Nat) : Option State :=
  (List.range (s.core core).matrixQ.length).findSome? (s.matrixAt core)

def execMatrixStart (core : Nat) (s : State) : Out := event "MATRIX_START" (s.matrixStep core)

end Sys2Proof.Machine
end

