-- ==== Sys2Proof/Machine/Transform.lean ====
section
/-!
DEFINITION. The transform pipe (R347 to R352): XFORM and DECODE.
-/
namespace Sys2Proof.Machine

/-! ### Issue -/

/-- The size of the local region of the group's core. -/
def Iss.localSize (x : Iss) : Nat := ((x.w.onCore x.gr.core).map (·.size)).getD 0

/-- Local memory of the group's core, as a piece. -/
def Iss.ownLocal (x : Iss) (off n : Nat) : Seg := locSeg x.h (localBase + off) n x.gr.core off

/-- A cause with the local address it names. -/
def Iss.localTrap (x : Iss) (c : Cause) (off : Nat) : Res := .trap { x.whole c with faddr := localBase + off }

/-- The destination registers of an operation that writes k of them; none for a destination in local memory. -/
def imageRegs (d : Opnd) (k : Nat) : List Reg :=
  if d.isS 1 then [] else (List.range k).map fun j => Reg.v (d.idx + j)

/-- An operation goes to the pipe: `rows` are its source registers, `src` its source in local memory, `k` the
registers of its destination. -/
def Iss.toPipe (x : Iss) (i : Instr) (d : Opnd) (k : Nat) (args : List Nat) (rows : List Row) (src : List Seg) :
    State × Op :=
  let o := { x.newOp i (imageRegs d k) with
    todo := 1, fin := false, rows := rows
    segs := src ++ (if d.isS 1 then [x.ownLocal (x.word 0 d) (128 * k)] else [])
    args := (x.word 0 d :: args).map (BitVec.ofNat 64) }
  ((x.launchOp i o).modCore x.gr.core fun c => { c with xformQ := c.xformQ ++ [(x.h, x.g, o.seq)] }, o)

/-- ALIGN and LOCAL_RANGE of a destination in local memory (R347). -/
def Iss.localDst (x : Iss) (d : Opnd) (k : Nat) : Option Res :=
  if !d.isS 1 then none
  else
    let off := x.word 0 d
    if off % 16 != 0 then some (x.localTrap .align off)
    else if x.localSize < off + 128 * k then some (x.localTrap .localRange off) else none

/-- The registers of an image. -/
def Iss.vrows (x : Iss) (a : Opnd) (k : Nat) : List Row := (List.range k).map fun j => x.gr.vreg (a.idx + j)

/-- An XFORM after its format check. -/
def Iss.xform (x : Iss) (i : Instr) (bad : Bool) (d a : Opnd) (from_ into : Nat) (args : List Nat) : Res :=
  if bad then .trap (x.whole .xfFormat)
  else match x.localDst d into with
    | some r => r
    | none => .state (x.toPipe i d into args (x.vrows a from_) []).1

def execXformQ (c : Ctl) (d a b : Opnd) (s : State) : Out :=
  issue (.xformQ c d a b) s fun x =>
    let r := blockReg (x.raw 2 b 4 0)
    x.xform (.xformQ c d a b) (blockN (r 0 % 16)).isNone d a 8 1 [r 0 % 16, r 1, r 2]

def execXformDq (c : Ctl) (d a b : Opnd) (s : State) : Out :=
  issue (.xformDq c d a b) s fun x =>
    x.xform (.xformDq c d a b) false d a 1 8 [blockReg (x.raw 2 b 4 0) 2]

def execXformHad (c : Ctl) (d a b : Opnd) (s : State) : Out :=
  issue (.xformHad c d a b) s fun x =>
    let h := blockReg (x.raw 2 b 4 0) 0 % 4
    x.xform (.xformHad c d a b) (h == 3) d a 8 8 [hadSize h]

/-- The granule operations of a DECODE that waits: one for each granule. -/
def Iss.decodeOps (x : Iss) (q : Qual) (off nb seq : Nat) : List (Nat × BankOp) :=
  (List.range (4 * nb)).map fun j =>
    let acc : Acc := { wg := x.h, g := x.g, seq := seq, lane := 0, va := 0, k := 16 * j, off := 0, n := 16, what := .load }
    (x.gr.core, { wg := x.h, src := x.gr.core, pos := none, prior := x.priorOps, qual := q, isStore := false,
                  eng := false, gran := off / 16 + j, accs := [acc] })

def decodeBody (i : Instr) (q : DecQual) (d a b : Opnd) (x : Iss) : Res :=
  let nb := blockReg (x.raw 2 b 2 0) 0
  let ts := blockReg (x.raw 2 b 2 0) 1
  let off := x.word 1 a
  let toV := !d.isS 1
  if nb == 0 || 8 < nb then .trap (x.whole .xfFormat)
  else if toV && 512 < d.idx + 4 * nb then .trap (x.whole .illegalOpd 0)
  else if toV && !x.gr.vHeld d.idx (4 * nb) then .trap (x.whole .regUnheld 0)
  else if off % 64 != 0 then x.localTrap .align off
  else if !toV && x.word 0 d % 16 != 0 then x.localTrap .align (x.word 0 d)
  else if x.localSize < off + 64 * nb then x.localTrap .localRange off
  else match x.localDst d (4 * nb) with
    | some r => r
    | none =>
      let r := x.toPipe i d (4 * nb) [nb, ts, off] [] [x.ownLocal off (64 * nb)]
      match q with
      | .none => .state r.1
      | q =>
        let qual := if q == .wait then Qual.wait else .take
        let s := r.1.modGroup x.h x.g fun gr => gr.modOp r.2.seq fun o =>
          { o with qual := qual, todo := 4 * nb, res := List.replicate (16 * nb) 0 }
        .state (s.sendBanks (x.decodeOps qual off nb r.2.seq))

def execDecodeBlk (c : Ctl) (q : DecQual) (d a b : Opnd) (s : State) : Out :=
  issue (.decodeBlk c q d a b) s (decodeBody (.decodeBlk c q d a b) q d a b)

/-! ### What the pipe computes -/

/-- A result: its bytes, its flags, its records. -/
structure XfOut where
  bytes : List Byte
  fl : Word := 0
  ash : List AshRec := []
  deriving DecidableEq, Repr

/-- DFMT of elements that a block code lists (R349). -/
def blockDfmt (code : Nat) : Nat := if blockIsQ4x code then 8 else if code == 1 then 3 else 4

/-- XFORM.Q: two blocks from 256 slots (R349). -/
def xfQ (code thr ts : Nat) (slots : List Nat) : XfOut :=
  let n := (blockN code).getD 0
  let qs := (List.range 2).map fun j => quantBlock code thr ts ((slots.drop (128 * j)).take n)
  { bytes := qs.flatMap (·.bytes)
    fl := qs.foldl (fun w q => w ||| q.fl) 0
    ash := (List.range 2).flatMap fun j => (((qs[j]?).map (·.bad)).getD []).map fun e =>
      { elem := 128 * j + e.1, lane := 0, kind := e.2, dfmt := blockDfmt code } }

/-- Blocks decoded into a block image (R347, R350, R351). -/
def xfDecode (nb ts : Nat) (bs : List Byte) : XfOut :=
  let es := (chunk 64 nb bs).map fun b => expandBlock b ts
  { bytes := es.flatMap fun e => ((e.vals ++ List.replicate (128 - e.vals.length) 0).take 128).flatMap (bytesOfNat 4)
    fl := es.foldl (fun w e => w ||| e.fl) 0
    ash := (List.range nb).flatMap fun j => (((es[j]?).map (·.bad)).getD []).map fun e =>
      { elem := 128 * j + e.1, lane := 0, kind := e.2, dfmt := 0 } }

/-- XFORM.HAD (R350). -/
def xfHad (h : Nat) (slots : List Nat) : XfOut :=
  let r := hadAll h 256 slots
  { bytes := r.1.flatMap (bytesOfNat 4), fl := r.2 }

/-- The slots of an element image. -/
def slotsOf (rows : List Row) : List Nat := rows.flatMap fun r => r.lanes.map (·.toNat)

def xfResult (s : State) (h core : Nat) (o : Op) : XfOut :=
  let arg := fun k => (o.args.getD k 0).toNat
  match o.instr with
  | .xformQ .. => xfQ (arg 1) (arg 2) (arg 3) (slotsOf o.rows)
  | .xformDq .. => xfDecode 2 (arg 1) (bytesOfRows o.rows)
  | .xformHad .. => xfHad (arg 1) (slotsOf o.rows)
  | .decodeBlk _ q .. =>
    xfDecode (arg 1) (arg 2) (match q with
      | .none => s.localBytes h core (arg 3) (64 * arg 1)
      | _ => (List.range (64 * arg 1)).map fun j => ((o.res[j / 4]?).getD 0).byte (j % 4))
  | _ => { bytes := [] }

/-- Whether the memory that an operation reads is ready: a DECODE has met its granules; another one follows what
Table 7.4 keeps before it. -/
def State.xfReady (s : State) (h g : Nat) (gr : Group) (o : Op) : Bool :=
  match o.instr with
  | .decodeBlk _ .wait .. | .decodeBlk _ .take .. => o.todo == 0 && s.engClear h g gr o
  | _ => s.engClear h g gr o

/-- The registers of a destination take their image. -/
def Group.putImage (gr : Group) (o : Op) (bs : List Byte) : Group :=
  (List.range o.dst.length).foldl (fun (gr : Group) j => match o.dst[j]? with
    | some (Reg.v i) =>
      let gr := if gr.mayLand (.v i) o.seq then gr.putV i (BitVec.allOnes 32) (Row.ofBytes ((bs.drop (128 * j)).take 128))
        else gr
      gr.landed (.v i) o.seq
    | _ => gr) gr

/-- One step of the i-th operation at a core's transform pipe. The operations of a group are served in order. -/
def State.transformAt (s : State) (core i : Nat) : Option State :=
  let q := (s.core core).xformQ
  match q[i]? with
  | none => none
  | some (h, g, seq) =>
    let gone := s.modCore core fun c => { c with xformQ := c.xformQ.eraseIdx i }
    match s.group? h g with
    | none => some gone
    | some gr => match gr.op? seq with
      | none => some gone
      | some o =>
        if !s.xfReady h g gr o || (q.take i).any fun e => e.1 == h && e.2.1 == g then none
        else
          let r := xfResult s h core o
          match s.engAsh h g o r.fl r.ash with
          | .walk as => s.asked? as
          | .busy | .fault _ => none
          | .ok (s, fl) =>
            let s := s.modCore core fun c => { c with xformQ := c.xformQ.eraseIdx i }
            let s := s.modGroup h g fun gr =>
              ((gr.putImage o r.bytes).modOp seq fun o => { o with todo := 0, fin := true, landed := true }).engFlags o fl
            some (if o.dst.isEmpty then s.engineWrite core h g seq (o.args.getD 0 0).toNat r.bytes else s)

/-- TRANSFORM_START: the first operation at a core's pipe that can go on. -/
def State.transformStep (s : State) (core : Nat) : Option State :=
  (List.range (s.core core).xformQ.length).findSome? (s.transformAt core)

def execTransformStart (core : Nat) (s : State) : Out := event "TRANSFORM_START" (s.transformStep core)

end Sys2Proof.Machine
end

