-- ==== Sys2Proof/Machine/Dispatch.lean ====
section
/-!
DEFINITION. One arm per constructor of `Instr`: each calls the meaning of its instruction or event.
-/
namespace Sys2Proof.Machine

def exec (i : Instr) (s : State) : Host.Outcome State Fault Refusal :=
  match i with
  | .nop c => Sys2Proof.Machine.execNop c s
  | .bra c t => Sys2Proof.Machine.execBra c t s
  | .brx c tok t => Sys2Proof.Machine.execBrx c tok t s
  | .jmp c a => Sys2Proof.Machine.execJmp c a s
  | .reconv c tok => Sys2Proof.Machine.execReconv c tok s
  | .call c d t => Sys2Proof.Machine.execCall c d t s
  | .callr c d a => Sys2Proof.Machine.execCallr c d a s
  | .ret c a => Sys2Proof.Machine.execRet c a s
  | .exit c => Sys2Proof.Machine.execExit c s
  | .mov c t d a => Sys2Proof.Machine.execMov c t d a s
  | .iadd c t d a b => Sys2Proof.Machine.execIadd c t d a b s
  | .isub c t d a b => Sys2Proof.Machine.execIsub c t d a b s
  | .imul c t d a b => Sys2Proof.Machine.execImul c t d a b s
  | .imulh c t d a b => Sys2Proof.Machine.execImulh c t d a b s
  | .imad c t d a b cc => Sys2Proof.Machine.execImad c t d a b cc s
  | .idiv c t d a b => Sys2Proof.Machine.execIdiv c t d a b s
  | .irem c t d a b => Sys2Proof.Machine.execIrem c t d a b s
  | .imin c t d a b => Sys2Proof.Machine.execImin c t d a b s
  | .imax c t d a b => Sys2Proof.Machine.execImax c t d a b s
  | .iabs c t d a => Sys2Proof.Machine.execIabs c t d a s
  | .and c t d a b => Sys2Proof.Machine.execAnd c t d a b s
  | .or c t d a b => Sys2Proof.Machine.execOr c t d a b s
  | .xor c t d a b => Sys2Proof.Machine.execXor c t d a b s
  | .not c t d a => Sys2Proof.Machine.execNot c t d a s
  | .shl c t d a b => Sys2Proof.Machine.execShl c t d a b s
  | .shr c t d a b => Sys2Proof.Machine.execShr c t d a b s
  | .shra c t d a b => Sys2Proof.Machine.execShra c t d a b s
  | .popc c t d a => Sys2Proof.Machine.execPopc c t d a s
  | .clz c t d a => Sys2Proof.Machine.execClz c t d a s
  | .brev c t d a => Sys2Proof.Machine.execBrev c t d a s
  | .bfe c t d a b cc => Sys2Proof.Machine.execBfe c t d a b cc s
  | .bfi c t d a b cc => Sys2Proof.Machine.execBfi c t d a b cc s
  | .lea c t d a b cc => Sys2Proof.Machine.execLea c t d a b cc s
  | .sel c t d a b cc => Sys2Proof.Machine.execSel c t d a b cc s
  | .icmp c k t d a b => Sys2Proof.Machine.execIcmp c k t d a b s
  | .rng c unit d => Sys2Proof.Machine.execRng c unit d s
  | .fadd c r t d a b => Sys2Proof.Machine.execFadd c r t d a b s
  | .fsub c r t d a b => Sys2Proof.Machine.execFsub c r t d a b s
  | .fmul c r t d a b => Sys2Proof.Machine.execFmul c r t d a b s
  | .ffma c r t d a b cc => Sys2Proof.Machine.execFfma c r t d a b cc s
  | .fmin c t d a b => Sys2Proof.Machine.execFmin c t d a b s
  | .fmax c t d a b => Sys2Proof.Machine.execFmax c t d a b s
  | .fabs c t d a => Sys2Proof.Machine.execFabs c t d a s
  | .fcmp c k t d a b => Sys2Proof.Machine.execFcmp c k t d a b s
  | .fdiv c r t d a b => Sys2Proof.Machine.execFdiv c r t d a b s
  | .fsqrt c r t d a => Sys2Proof.Machine.execFsqrt c r t d a s
  | .frcp c t d a => Sys2Proof.Machine.execFrcp c t d a s
  | .frsq c t d a => Sys2Proof.Machine.execFrsq c t d a s
  | .fexp2 c t d a => Sys2Proof.Machine.execFexp2 c t d a s
  | .flog2 c t d a => Sys2Proof.Machine.execFlog2 c t d a s
  | .fsin c t d a => Sys2Proof.Machine.execFsin c t d a s
  | .fcos c t d a => Sys2Proof.Machine.execFcos c t d a s
  | .ftanh c t d a => Sys2Proof.Machine.execFtanh c t d a s
  | .fclass c t d a => Sys2Proof.Machine.execFclass c t d a s
  | .cvt c r dt st d a => Sys2Proof.Machine.execCvt c r dt st d a s
  | .frnd c r t d a => Sys2Proof.Machine.execFrnd c r t d a s
  | .pkcvt c r t d a b => Sys2Proof.Machine.execPkcvt c r t d a b s
  | .unpk c t k d a => Sys2Proof.Machine.execUnpk c t k d a s
  | .pand c d a b => Sys2Proof.Machine.execPand c d a b s
  | .por c d a b => Sys2Proof.Machine.execPor c d a b s
  | .pxor c d a b => Sys2Proof.Machine.execPxor c d a b s
  | .pmov c d a => Sys2Proof.Machine.execPmov c d a s
  | .shfl c w t d a b => Sys2Proof.Machine.execShfl c w t d a b s
  | .shflup c w t d a b => Sys2Proof.Machine.execShflup c w t d a b s
  | .shfldn c w t d a b => Sys2Proof.Machine.execShfldn c w t d a b s
  | .shflx c w t d a b => Sys2Proof.Machine.execShflx c w t d a b s
  | .voteall c d a => Sys2Proof.Machine.execVoteall c d a s
  | .voteany c d a => Sys2Proof.Machine.execVoteany c d a s
  | .ballot c d a => Sys2Proof.Machine.execBallot c d a s
  | .redadd c t d a => Sys2Proof.Machine.execRedadd c t d a s
  | .redmin c t d a => Sys2Proof.Machine.execRedmin c t d a s
  | .redmax c t d a => Sys2Proof.Machine.execRedmax c t d a s
  | .redand c t d a => Sys2Proof.Machine.execRedand c t d a s
  | .redor c t d a => Sys2Proof.Machine.execRedor c t d a s
  | .scanadd c excl t d a => Sys2Proof.Machine.execScanadd c excl t d a s
  | .matchLanes c t d a => Sys2Proof.Machine.execMatchLanes c t d a s
  | .ld c f => Sys2Proof.Machine.execLd c f s
  | .ldWait c f => Sys2Proof.Machine.execLdWait c f s
  | .ldTake c f => Sys2Proof.Machine.execLdTake c f s
  | .ldPeek c f => Sys2Proof.Machine.execLdPeek c f s
  | .st c f => Sys2Proof.Machine.execSt c f s
  | .stWait c f => Sys2Proof.Machine.execStWait c f s
  | .stTake c f => Sys2Proof.Machine.execStTake c f s
  | .stPeek c f => Sys2Proof.Machine.execStPeek c f s
  | .pref c x win a off => Sys2Proof.Machine.execPref c x win a off s
  | .atom c op win scope ord t d a b => Sys2Proof.Machine.execAtom c op win scope ord t d a b s
  | .fence c scope classes => Sys2Proof.Machine.execFence c scope classes s
  | .bar c scope b => Sys2Proof.Machine.execBar c scope b s
  | .waitc c k b => Sys2Proof.Machine.execWaitc c k b s
  | .stageIn c d a b => Sys2Proof.Machine.execStageIn c d a b s
  | .stageOut c d a b => Sys2Proof.Machine.execStageOut c d a b s
  | .cjoin c d b => Sys2Proof.Machine.execCjoin c d b s
  | .cleave c d => Sys2Proof.Machine.execCleave c d s
  | .copy c scope d a b => Sys2Proof.Machine.execCopy c scope d a b s
  | .copyxT2d c scope d a b => Sys2Proof.Machine.execCopyxT2d c scope d a b s
  | .copyxPack c scope d a b => Sys2Proof.Machine.execCopyxPack c scope d a b s
  | .copyxUnpack c scope d a b => Sys2Proof.Machine.execCopyxUnpack c scope d a b s
  | .copyxHadq c scope d a b => Sys2Proof.Machine.execCopyxHadq c scope d a b s
  | .resolve c pa a b => Sys2Proof.Machine.execResolve c pa a b s
  | .pnq c pa d a => Sys2Proof.Machine.execPnq c pa d a s
  | .pndrop c pa scope a b => Sys2Proof.Machine.execPndrop c pa scope a b s
  | .mloadRow c tr t d a b => Sys2Proof.Machine.execMloadRow c tr t d a b s
  | .mloadFact c d a b => Sys2Proof.Machine.execMloadFact c d a b s
  | .mloadBlk c d a b => Sys2Proof.Machine.execMloadBlk c d a b s
  | .mstoreRow c tr t d a b => Sys2Proof.Machine.execMstoreRow c tr t d a b s
  | .mstoreFact c d a => Sys2Proof.Machine.execMstoreFact c d a s
  | .mma c ta tb d a b => Sys2Proof.Machine.execMma c ta tb d a b s
  | .madd c d a b => Sys2Proof.Machine.execMadd c d a b s
  | .recomp c d a => Sys2Proof.Machine.execRecomp c d a s
  | .mdense c d a => Sys2Proof.Machine.execMdense c d a s
  | .mrankGet c d a => Sys2Proof.Machine.execMrankGet c d a s
  | .mrankCap c d b => Sys2Proof.Machine.execMrankCap c d b s
  | .mzero c d => Sys2Proof.Machine.execMzero c d s
  | .mmov c d a => Sys2Proof.Machine.execMmov c d a s
  | .aload c tr t d a b => Sys2Proof.Machine.execAload c tr t d a b s
  | .astore c tr t d a b => Sys2Proof.Machine.execAstore c tr t d a b s
  | .azero c d => Sys2Proof.Machine.execAzero c d s
  | .amov c d a => Sys2Proof.Machine.execAmov c d a s
  | .xformQ c d a b => Sys2Proof.Machine.execXformQ c d a b s
  | .xformDq c d a b => Sys2Proof.Machine.execXformDq c d a b s
  | .xformHad c d a b => Sys2Proof.Machine.execXformHad c d a b s
  | .decodeBlk c q d a b => Sys2Proof.Machine.execDecodeBlk c q d a b s
  | .admitSeq c d a b => Sys2Proof.Machine.execAdmitSeq c d a b s
  | .admitRel c d a => Sys2Proof.Machine.execAdmitRel c d a s
  | .kvapp c d a b => Sys2Proof.Machine.execKvapp c d a b s
  | .kvld c isV fromEnd k d a b => Sys2Proof.Machine.execKvld c isV fromEnd k d a b s
  | .kvseal c a => Sys2Proof.Machine.execKvseal c a s
  | .span c a b => Sys2Proof.Machine.execSpan c a b s
  | .spanret c a b => Sys2Proof.Machine.execSpanret c a b s
  | .window c a b => Sys2Proof.Machine.execWindow c a b s
  | .rope c k d a b => Sys2Proof.Machine.execRope c k d a b s
  | .nest c a => Sys2Proof.Machine.execNest c a s
  | .apsend c q b => Sys2Proof.Machine.execApsend c q b s
  | .apermit c q b => Sys2Proof.Machine.execApermit c q b s
  | .launch c d a => Sys2Proof.Machine.execLaunch c d a s
  | .trap c b => Sys2Proof.Machine.execTrap c b s
  | .eret c => Sys2Proof.Machine.execEret c s
  | .eretRetry c => Sys2Proof.Machine.execEretRetry c s
  | .svc c b => Sys2Proof.Machine.execSvc c b s
  | .getsr c d b => Sys2Proof.Machine.execGetsr c d b s
  | .setsr c n b => Sys2Proof.Machine.execSetsr c n b s
  | .bkpt c b => Sys2Proof.Machine.execBkpt c b s
  | .sample c a => Sys2Proof.Machine.execSample c a s
  | .rgive c pool b => Sys2Proof.Machine.execRgive c pool b s
  | .rclaim c pool b => Sys2Proof.Machine.execRclaim c pool b s
  | .hintRegionWord w => Sys2Proof.Machine.execHintRegionWord w s
  | .notAnInstruction w => Sys2Proof.Machine.execNotAnInstruction w s
  | .pendingCauseTaken wg g => Sys2Proof.Machine.execPendingCauseTaken wg g s
  | .nestPush wg g => Sys2Proof.Machine.execNestPush wg g s
  | .writeLands wg g seq => Sys2Proof.Machine.execWriteLands wg g seq s
  | .engineCompletion wg g k => Sys2Proof.Machine.execEngineCompletion wg g k s
  | .matrixStart core => Sys2Proof.Machine.execMatrixStart core s
  | .transformStart core => Sys2Proof.Machine.execTransformStart core s
  | .stageOutWrite wg g seq => Sys2Proof.Machine.execStageOutWrite wg g seq s
  | .barrierPhaseComplete wg key => Sys2Proof.Machine.execBarrierPhaseComplete wg key s
  | .claimGrant core bank quarter pool => Sys2Proof.Machine.execClaimGrant core bank quarter pool s
  | .registersFreed wg g => Sys2Proof.Machine.execRegistersFreed wg g s
  | .pageWalk quad => Sys2Proof.Machine.execPageWalk quad s
  | .tableLineStore line => Sys2Proof.Machine.execTableLineStore line s
  | .translationInvalidation quad line => Sys2Proof.Machine.execTranslationInvalidation quad line s
  | .translationAck quad line => Sys2Proof.Machine.execTranslationAck quad line s
  | .stackerMove die cg ctx va => Sys2Proof.Machine.execStackerMove die cg ctx va s
  | .stackerRelease die cg => Sys2Proof.Machine.execStackerRelease die cg s
  | .rd core line => Sys2Proof.Machine.execRd core line s
  | .rfo core line => Sys2Proof.Machine.execRfo core line s
  | .rfoz core line => Sys2Proof.Machine.execRfoz core line s
  | .upg core line => Sys2Proof.Machine.execUpg core line s
  | .wb core line => Sys2Proof.Machine.execWb core line s
  | .inv core line => Sys2Proof.Machine.execInv core line s
  | .fwdRd core line => Sys2Proof.Machine.execFwdRd core line s
  | .fwdRfo core line => Sys2Proof.Machine.execFwdRfo core line s
  | .invAck core line => Sys2Proof.Machine.execInvAck core line s
  | .grant core line => Sys2Proof.Machine.execGrant core line s
  | .wbAck core line => Sys2Proof.Machine.execWbAck core line s
  | .rakerScan die line => Sys2Proof.Machine.execRakerScan die line s
  | .cleanProbe core line => Sys2Proof.Machine.execCleanProbe core line s
  | .lseRead core line => Sys2Proof.Machine.execLseRead core line s
  | .lseStore core line => Sys2Proof.Machine.execLseStore core line s
  | .lsePerform line => Sys2Proof.Machine.execLsePerform line s
  | .leaseExpiry core line => Sys2Proof.Machine.execLeaseExpiry core line s
  | .uncAccess core line => Sys2Proof.Machine.execUncAccess core line s
  | .homeAtomic core line => Sys2Proof.Machine.execHomeAtomic core line s
  | .recordEntry core => Sys2Proof.Machine.execRecordEntry core s
  | .redirectedRead line => Sys2Proof.Machine.execRedirectedRead line s
  | .hotResolution die => Sys2Proof.Machine.execHotResolution die s
  | .antecedentWrite line => Sys2Proof.Machine.execAntecedentWrite line s
  | .resolutionComplete id => Sys2Proof.Machine.execResolutionComplete id s
  | .destinationWrite line => Sys2Proof.Machine.execDestinationWrite line s
  | .granuleOp core k => Sys2Proof.Machine.execGranuleOp core k s
  | .engineWriteLands core k => Sys2Proof.Machine.execEngineWriteLands core k s
  | .localRegionFree wg core => Sys2Proof.Machine.execLocalRegionFree wg core s
  | .clusterInstall wg core => Sys2Proof.Machine.execClusterInstall wg core s
  | .clusterRevoke wg core member => Sys2Proof.Machine.execClusterRevoke wg core member s
  | .cleaveAck wg core => Sys2Proof.Machine.execCleaveAck wg core s
  | .tokenPerform line => Sys2Proof.Machine.execTokenPerform line s
  | .poolUpdate line => Sys2Proof.Machine.execPoolUpdate line s
  | .slotPush line => Sys2Proof.Machine.execSlotPush line s
  | .parityFold ctx rec slot bytes => Sys2Proof.Machine.execParityFold ctx rec slot bytes s
  | .rebuildRead peer ctx rec slot => Sys2Proof.Machine.execRebuildRead peer ctx rec slot s
  | .rebuildComplete ctx entry answers => Sys2Proof.Machine.execRebuildComplete ctx entry answers s
  | .launchArrival => Sys2Proof.Machine.execLaunchArrival s
  | .placement => Sys2Proof.Machine.execPlacement s
  | .reservingHead prio => Sys2Proof.Machine.execReservingHead prio s
  | .workgroupEnd wg => Sys2Proof.Machine.execWorkgroupEnd wg s
  | .mailboxWrite m page off bytes => Sys2Proof.Machine.execMailboxWrite m page off bytes s
  | .throttleUpdate demands => Sys2Proof.Machine.execThrottleUpdate demands s
  | .swap core => Sys2Proof.Machine.execSwap core s
  | .swapBack core => Sys2Proof.Machine.execSwapBack core s
  | .evict m handle => Sys2Proof.Machine.execEvict m handle s
  | .contextSwitchSave wg => Sys2Proof.Machine.execContextSwitchSave wg s
  | .kill m handle => Sys2Proof.Machine.execKill m handle s
  | .killSettle wg => Sys2Proof.Machine.execKillSettle wg s
  | .dbgNop agent => Sys2Proof.Machine.execDbgNop agent s
  | .hold agent => Sys2Proof.Machine.execHold agent s
  | .dbgRelease agent => Sys2Proof.Machine.execDbgRelease agent s
  | .stepPath agent => Sys2Proof.Machine.execStepPath agent s
  | .halt agent => Sys2Proof.Machine.execHalt agent s
  | .restore agent => Sys2Proof.Machine.execRestore agent s
  | .stallsmp agent => Sys2Proof.Machine.execStallsmp agent s
  | .trace agent => Sys2Proof.Machine.execTrace agent s
  | .bkpten agent => Sys2Proof.Machine.execBkpten agent s
  | .badcmd agent => Sys2Proof.Machine.execBadcmd agent s
  | .stallSample wg g path => Sys2Proof.Machine.execStallSample wg g path s
  | .debugGrant m target agent => Sys2Proof.Machine.execDebugGrant m target agent s
  | .debugRevoke m target agent => Sys2Proof.Machine.execDebugRevoke m target agent s
  | .claim m => Sys2Proof.Machine.execClaim m s
  | .offer m target => Sys2Proof.Machine.execOffer m target s
  | .accept m => Sys2Proof.Machine.execAccept m s
  | .release m => Sys2Proof.Machine.execRelease m s
  | .handoverTimeout => Sys2Proof.Machine.execHandoverTimeout s
  | .attnonceWrite m off bytes => Sys2Proof.Machine.execAttnonceWrite m off bytes s
  | .quoteComplete => Sys2Proof.Machine.execQuoteComplete s
  | .dstatRetire m => Sys2Proof.Machine.execDstatRetire m s
  | .framepoolPop m die => Sys2Proof.Machine.execFramepoolPop m die s
  | .framepoolPush m die w => Sys2Proof.Machine.execFramepoolPush m die w s
  | .registerWrite m off bytes => Sys2Proof.Machine.execRegisterWrite m off bytes s
  | .bar4Access off isWrite n bytes => Sys2Proof.Machine.execBar4Access off isWrite n bytes s
  | .reset => Sys2Proof.Machine.execReset s
  | .zilberFrame port ethertype peer seq flits => Sys2Proof.Machine.execZilberFrame port ethertype peer seq flits s
  | .flitResend peer seq port => Sys2Proof.Machine.execFlitResend peer seq port s
  | .peerUnreachable peer => Sys2Proof.Machine.execPeerUnreachable peer s
  | .fenceCore core => Sys2Proof.Machine.execFenceCore core s
  | .fenceQuad quad => Sys2Proof.Machine.execFenceQuad quad s
  | .fenceStack die stack => Sys2Proof.Machine.execFenceStack die stack s
  | .fenceDie die => Sys2Proof.Machine.execFenceDie die s
  | .fencePort port => Sys2Proof.Machine.execFencePort port s
  | .storeAcknowledgement wg g seq => Sys2Proof.Machine.execStoreAcknowledgement wg g seq s
  | .linkUp port => Sys2Proof.Machine.execLinkUp port s

end Sys2Proof.Machine
end

