-- ==== Sys2Proof/Machine/Sched.lean ====
section
/-!
DEFINITION. Turns: what issues or happens in one, and the order that the machine takes by itself where no list of
turns is given. Which of several things comes first is not fixed by the manual; the list of turns in the state
may name any order.
-/
namespace Sys2Proof.Machine

/-! ### Issues -/

/-- The word at a path's PC: of its fetch buffer, or fetched. -/
def State.pathWord (s : State) (w : Workgroup) (gr : Group) (p : Nat) : FetchRes :=
  match bufWord (gr.path p).fbuf (gr.path p).pc with
  | some x => .ok x s
  | none => s.fetch gr.core w.ctx gr.sup (gr.path p).pc

/-- A path waits before it has an instruction. -/
def State.waits (s : State) (h g p : Nat) (w : Wait) : State :=
  s.modGroup h g (·.modPath p fun q => { q with st := .blocked, wait := some w })

/-! ### The quarter's two slots (R205 to R207) -/

/-- Instructions of the vector slot (R205): the class that R181 gives the VECTOR role. -/
def vectorSlot (i : Instr) : Bool := i.roleCode == some 3

/-- Whether an instruction of a path can issue now (R206): nothing it must wait for before it issues. -/
def State.canIssue (s : State) (h g p : Nat) (i : Instr) : Bool :=
  match i with
  | .notAnInstruction _ => true
  | i => match { s with cur := .path h g p }.begin i with
    | .go _ => true
    | .out t => (t.group? h g).all fun gr => (gr.path p).st != .blocked
    | _ => false

/-- An instruction that its SKIP bit drops, which takes no slot (R209). -/
def State.dropped (s : State) (h g p : Nat) (i : Instr) : Bool :=
  i.laneBound && i.ctl.hint.skip && match { s with cur := .path h g p }.issuer with
    | .go x => (x.guardWait i.ctl).isNone && (x.masked i).x == 0
    | _ => false

/-- The ready paths of a quarter for a slot: for each its age's start, its group's place and its own index. A path
whose next word is not in its fetch buffer has no next instruction yet. DESIGN CHOICE (log 1): groups take their places
in a quarter in the order of their workgroups' handles and their own numbers. -/
def State.rivals (s : State) (core quarter : Nat) (vec : Bool) : List (Int × Nat × Nat × Nat) :=
  s.wgs.flatMap fun w => w.2.groups.flatMap fun e => if e.2.core != core || e.2.quarter != quarter then [] else
    (List.range 4).filterMap fun p =>
      let q := e.2.path p
      match bufWord q.fbuf q.pc with
      | none => none
      | some x =>
        let i := decode x
        if s.pathRuns w.2 e.2 p && !q.slotted && vectorSlot i == vec && s.canIssue w.1 e.1 p i && !s.dropped w.1 e.1 p i then
          some (q.ageFrom, w.1, e.1, p)
        else none

/-- Whether the slot is unused in this cycle of the core's clock. -/
def State.slotFree (s : State) (core quarter : Nat) (vec : Bool) : Bool :=
  !(s.core core).slots.contains (quarter, vec, s.clock core)

/-- The order in which a slot takes ready paths: the oldest, then the lowest (R206). -/
def rivalBefore (a b : Int × Nat × Nat × Nat) : Bool :=
  a.1 < b.1 || (a.1 == b.1 && (a.2.1 < b.2.1 || (a.2.1 == b.2.1 && (a.2.2.1 < b.2.2.1
    || (a.2.2.1 == b.2.2.1 && a.2.2.2 < b.2.2.2)))))

/-- Whether a path gets the slot of its instruction now: the slot is free, and no ready path comes before it. -/
def State.getsSlot (s : State) (h g p : Nat) (gr : Group) (i : Instr) : Bool :=
  let vec := vectorSlot i
  s.slotFree gr.core gr.quarter vec
  && !((s.rivals gr.core gr.quarter vec).any fun r => rivalBefore r ((gr.path p).ageFrom, h, g, p))

/-- A slot is used. -/
def Core.useSlot (c : Core) (quarter : Nat) (vec : Bool) (now : Nat) : Core :=
  { c with slots := (quarter, vec, now) :: c.slots.filter (·.2.2 == now) }

/-- Whether a path has issued what it stood at: it does not wait for something before its issue. -/
def State.hasIssued (t : State) (h g p : Nat) : Bool :=
  (t.group? h g).all fun gr => (gr.path p).st != .blocked || (gr.path p).slotted
    || !(gr.path p).wait.all (·.again)

/-- The second instruction of a pair (R207, R252): what stands at PC + 12, where it can be fetched without a fault. -/
inductive Second where
  | alone
  | pair (j : Instr) (s : State)
  | wait (s : State)
  deriving DecidableEq, Repr

/-- The partner of an instruction with PAIR. Both issue at once, so the first waits for what the second waits for. -/
def State.second (s : State) (h g p : Nat) (w : Workgroup) (gr : Group) (i : Instr) : Second :=
  let pc := (gr.path p).pc + 12
  if !i.ctl.hint.pair || (gr.path p).stepOnce || !s.canIssue h g p i then .alone
  else
    let got := match bufWord (gr.path p).fbuf pc with
      | some x => FetchRes.ok x s
      | none => s.fetch gr.core w.ctx gr.sup pc
    match got with
    | .walk as => .wait ((s.asks as).waits h g p .walk)
    | .busy => .wait (s.waits h g p .busy)
    | .fault _ => .alone
    | .ok x t =>
      let j := decode x
      if !i.pairs j then .alone
      else
        let t := t.modGroup h g (·.modPath p fun q => { q with fbuf := bufPut q.fbuf pc x })
        match { t.modGroup h g (·.modPath p fun q => { q with pc := pc }) with cur := .path h g p }.begin j with
        | .out u => match (u.group? h g).map (·.path p) with
          | some q => if q.st == .blocked then .wait (t.modGroup h g (·.modPath p fun r =>
              { r with st := .blocked, wait := q.wait })) else .pair j t
          | none => .pair j t
        | _ => .pair j t

/-- An instruction executes for a path, and takes its slot. -/
def State.take (s : State) (h g p : Nat) (gr : Group) (i : Instr) : Out :=
  match exec i { s with cur := .path h g p } with
  | .next t =>
    if s.dropped h g p i || !t.hasIssued h g p then .next t
    else .next (t.modCore gr.core fun c => c.useSlot gr.quarter (vectorSlot i) (s.clock gr.core))
  | r => r

/-- The second instruction of a pair executes where the first has gone on to it. -/
def State.takeSecond (s : State) (h g p : Nat) (pc : Nat) (j : Instr) : State :=
  match s.group? h g with
  | some gr =>
    if (gr.path p).st != .ready || (gr.path p).pc != pc || (bufWord (gr.path p).fbuf pc).isNone then s
    else
      let t := s.modGroup h g (·.modPath p fun q => { q with notBefore := 0 })
      match exec j { t with cur := .path h g p } with
      | .next t => t
      | _ => s
  | none => s

/-- A path issues its instruction: alone, or as the first of a pair. -/
def State.issueIn (s : State) (h g p : Nat) (w : Workgroup) (gr : Group) (i : Instr) : Out :=
  match s.second h g p w gr i with
  | .wait t => .next t
  | .alone => s.take h g p gr i
  | .pair j s => match s.take h g p gr i with
    | .next t => .next (t.takeSecond h g p (((gr.path p).pc + 12) % 2 ^ 64) j)
    | r => r

/-- An issue of a path: its word is fetched, `pre` words after it are fetched ahead, and it executes where its quarter's
slot takes it (R46, R206, R239). An instruction that waits in its slot needs no other. -/
def State.issuePath (s : State) (h g p pre : Nat) : Out :=
  match s.wg? h with
  | none => .fault (.broken "workgroup")
  | some w => match w.group? g with
    | none => .fault (.broken "group")
    | some gr =>
      if !s.pathRuns w gr p then .refused .notReady
      else match s.pathWord w gr p with
        | .walk as => .next ((s.asks as).waits h g p .walk)
        | .busy => .next (s.waits h g p .busy)
        | .fault f =>
          let r : Raise := { cls := .fetch, cause := f.cause, info := f.info, faddr := f.addr, p31 := (gr.path p).mask }
          .next ((s.modGroup h g (·.modPath p fun q => { q with stepOnce := false })).raise h g p r)
        | .ok x s =>
          let pc := (gr.path p).pc
          let i := decode x
          let s := s.modGroup h g (·.modPath p fun q => { q with fbuf := bufPut q.fbuf pc x })
          let s := s.fetchAhead h g p (pc + 12) pre
          if (gr.path p).slotted then exec i { s with cur := .path h g p }
          else if !s.canIssue h g p i || s.dropped h g p i then s.take h g p gr i
          else match s.group? h g with
            | none => .fault (.broken "group")
            | some gr => if s.getsSlot h g p gr i then s.issueIn h g p w gr i else .refused .notReady

/-- An issue of an access processor. -/
def State.issueAp (s : State) (h g : Nat) : Out :=
  match s.wg? h with
  | none => .fault (.broken "workgroup")
  | some w => match w.group? g with
    | none => .fault (.broken "group")
    | some gr =>
      if !s.apRuns w gr then .refused .notReady
      else
        let wait := fun (s : State) (k : Wait) => s.modGroup h g fun gr => { gr with ap := { gr.ap with wait := some k } }
        let got := match bufWord gr.ap.fbuf gr.ap.pc with
          | some x => FetchRes.ok x s
          | none => s.fetch gr.core w.ctx gr.sup gr.ap.pc
        match got with
        | .walk as => .next (wait (s.asks as) .walk)
        | .busy => .next (wait s .busy)
        | .fault f => .next (s.modGroup h g (·.apFault f.cause f.info f.addr))
        | .ok x s =>
          let s := s.modGroup h g fun gr => 
            { gr with ap := { gr.ap with fbuf := bufPut gr.ap.fbuf gr.ap.pc x, notBefore := s.clock gr.core + 1 } }
          exec (decode x) { s with cur := .ap h g }

/-! ### Replacements the caches choose -/

def State.dropL1 (s : State) (core line : Nat) : Option State :=
  match (s.core core).l1d.find? (·.line == line) with
  | none => none
  | some l => if (s.core core).misses.any (·.line == line) || s.pinned l then none else some (s.evictLine core l)

def State.dropI (s : State) (core line : Nat) : Option State :=
  if (s.core core).l1i.any (·.line == line) then
    some (s.modCore core fun c => { c with l1i := c.l1i.filter (·.line != line) })
  else none

def State.dropHome (s : State) (line : Nat) : Option State :=
  if (s.l2? line).isSome && s.quiet line then some (s.dropL2 line) else none

def State.dropTrans (s : State) (quad va : Nat) : Option State :=
  if (s.quad quad).tc.any (·.va == va) then
    some (s.modQuad quad fun x => { x with tc := x.tc.filter (·.va != va) })
  else none

/-! ### Time -/

/-- A wait that is decided again at the next issue. -/
def Path.wake (q : Path) : Path :=
  if q.st == .blocked && q.wait.all (·.again) then { q with st := .ready, wait := none } else q

def Ap.wake (a : Ap) : Ap := if a.wait.all (·.again) then { a with wait := none } else a

/-- What waits is asked again. -/
def State.wakeAll (s : State) : State :=
  { s with
    wgs := s.wgs.map fun e => (e.1, { e.2 with groups := e.2.groups.map fun g =>
      (g.1, { g.2 with paths := g.2.paths.map (·.wake), ap := g.2.ap.wake }) }) }

/-- A cycle passes; what waits is asked again. -/
def State.pass (s : State) : State := (s.later 1).wakeAll

/-- Whether some ready path could take a free slot in this cycle: time does not pass it by (R205, R206). -/
def State.mustIssue (s : State) : Bool :=
  s.wgs.any fun w => w.2.groups.any fun g => [true, false].any fun vec =>
    s.slotFree g.2.core g.2.quarter vec && !(s.rivals g.2.core g.2.quarter vec).isEmpty

/-- Whether a store that waits at the home is to perform in the tick that ends with this cycle (R141). -/
def State.mustPerform (s : State) : Bool :=
  s.cycle % 32 == 31 && s.homes.any fun t => match t.wait with
    | .perform tp => tp ≤ s.tick
    | _ => false

/-- Cycles pass, in each of which every slot has taken what was ready for it, and every store has performed that was to. -/
def State.elapse (s : State) : Nat → Option State
  | 0 => some s
  | n + 1 => if s.mustIssue || s.mustPerform then none else (s.later 1).elapse n

/-! ### One turn -/

/-- What happens in a turn. -/
def State.run (s : State) (a : Act) : Out :=
  match a with
  | .issue h g p pre => s.issuePath h g p pre
  | .apIssue h g _ => s.issueAp h g
  | .event i => if i.isEvent then exec i { s with cur := .none } else .refused (.notPending "EVENT")
  | .evictL1 c l => event "EVICT_L1" (s.dropL1 c l)
  | .evictI c l => event "EVICT_I" (s.dropI c l)
  | .evictL2 l => event "EVICT_L2" (s.dropHome l)
  | .evictTrans q va => event "EVICT_TRANSLATION" (s.dropTrans q va)
  | .serve p k => event "DOORBELL" (s.doorbell p k)
  | .hostRead mail off n => .next (s.hostRead mail off n)
  | .pass => match s.elapse 1 with
    | some s => .next s.wakeAll
    | none => .refused .notReady

/-! ### What may happen next -/

/-- The event of a message that arrives. -/
def Msg.event (m : Msg) : Instr :=
  match m.kind with
  | .req (.dir _ .rd _) => .rd m.core m.line
  | .req (.dir _ .rfo _) => .rfo m.core m.line
  | .req (.dir _ .rfoz _) => .rfoz m.core m.line
  | .req (.dir _ .upg _) => .upg m.core m.line
  | .req (.lseRead ..) => .lseRead m.core m.line
  | .req (.lseStore ..) => .lseStore m.core m.line
  | .req (.unc ..) => .uncAccess m.core m.line
  | .req _ => .homeAtomic m.core m.line
  | .wb _ => .wb m.core m.line
  | .probe .inv _ _ => .inv m.core m.line
  | .probe .fwdRd _ _ => .fwdRd m.core m.line
  | .probe .fwdRfo _ _ => .fwdRfo m.core m.line
  | .answer .. => .invAck m.core m.line
  | .grant .. | .refuse _ => .grant m.core m.line
  | .wbAck => .wbAck m.core m.line
  | .clean => .cleanProbe m.core m.line

/-- The event a home's line waits for. -/
def HomeTxn.events (t : HomeTxn) : List Instr :=
  match t.wait with
  | .antecedent => [.antecedentWrite t.line]
  | .destination => [.destinationWrite t.line]
  | .table => [.tableLineStore t.line]
  | .redirect => [.redirectedRead t.line]
  | .perform _ => [.lsePerform t.line]
  | _ => []

def quadEvents (q : Nat) (x : Quad) : List Instr :=
  (if x.walks.isEmpty then [] else [.pageWalk q])
  ++ x.tinv.map fun v => if v.arrived.isNone then .translationInvalidation q v.line else .translationAck q v.line

def coreEvents (c : Nat) (x : Core) : List Instr :=
  ((List.range x.engW.length).map fun i => Instr.engineWriteLands c i)
  ++ ((List.range x.bankQ.length).map fun i => Instr.granuleOp c i)
  ++ (if x.copyQ.isEmpty then [] else [.recordEntry c])
  ++ (if x.matrixQ.isEmpty then [] else [.matrixStart c])
  ++ (if x.xformQ.isEmpty then [] else [.transformStart c])
  ++ (x.claims.map fun k => Instr.claimGrant c (if k.shadow then 1 else 0) k.quarter k.pool)
  ++ (match x.front with
    | .shadow | .toShadow _ => [.swapBack c]
    | .primary | .toPrimary _ => [.swap c])

def opEvents (h g : Nat) (o : Op) : List Instr :=
  (if o.acks.isEmpty then [] else [.storeAcknowledgement h g o.seq])
  ++ (if o.landed then [] else [.writeLands h g o.seq])
  ++ (match o.instr with
    | .stageOut .. => [.stageOutWrite h g o.seq]
    | _ => [])
  ++ (match o.cls with
    | some k => [.engineCompletion h g k]
    | none => [])

def groupEvents (h g : Nat) (x : Group) : List Instr :=
  x.ops.flatMap (opEvents h g)
  ++ (if x.pend.isEmpty then [] else [.pendingCauseTaken h g])
  ++ (if x.given.isEmpty then [] else [.registersFreed h g])
  ++ (if x.ap.nest.isSome then [.nestPush h g] else [])

def wgEvents (h : Nat) (w : Workgroup) : List Instr :=
  (w.groups.flatMap fun g => groupEvents h g.1 g.2)
  ++ (w.cores.flatMap fun c => (w.cores.map fun d => Instr.clusterRevoke h c.core d.core)
      ++ [.clusterInstall h c.core, .cleaveAck h c.core, .localRegionFree h c.core])
  ++ (if w.shadow then w.cores.map fun c => Instr.swap c.core else [])
  ++ [.workgroupEnd h, .killSettle h, .contextSwitchSave h]

/-- The event of an agent's oldest debug command. -/
def DbgCmd.event (d : DbgCmd) : Instr :=
  match cmdOp d.cmd with
  | 0 => .dbgNop d.agent
  | 1 => .hold d.agent
  | 2 => .dbgRelease d.agent
  | 3 => .stepPath d.agent
  | 4 => .halt d.agent
  | 5 => .restore d.agent
  | 6 => .stallsmp d.agent
  | 7 => .trace d.agent
  | 8 => .bkpten d.agent
  | _ => .badcmd d.agent

def Right.events (s : State) (r : Right) : List Instr :=
  (if r.revoking then [.debugRevoke .host r.target r.agent] else [])
  ++ r.stalls.flatMap fun x => match s.wg? x.wg with
    | none => []
    | some w => w.groups.flatMap fun g => (List.range 4).map fun p => Instr.stallSample x.wg g.1 p

def dieEvents (d : Nat) (x : Die) : List Instr :=
  (List.range x.stackers.length).flatMap fun g => match x.stackers[g]? with
    | some st => (st.moves.flatMap fun m => if m.done then [.stackerRelease d g] else [.stackerMove d g m.ctx m.va])
    | none => []

/-- Everything that may be pending, in the order in which it is tried. -/
def State.pendingEvents (s : State) : List Instr :=
  (if s.reg.ownSt == .booting && !s.reg.bootReady && !s.reg.bootFail then [.reset] else [])
  ++ s.msgs.map (·.event)
  ++ s.homes.flatMap (·.events)
  ++ (s.pn.filter (·.st == .resolving)).map (fun e => Instr.resolutionComplete e.id)
  ++ (s.quads.flatMap fun q => quadEvents q.1 q.2)
  ++ (s.cores.flatMap fun c => coreEvents c.1 c.2)
  ++ (s.wgs.flatMap fun w => wgEvents w.1 w.2)
  ++ ((List.range s.bars.length).flatMap fun k => s.wgs.map fun w => Instr.barrierPhaseComplete w.1 k)
  ++ (s.tokenQ.flatMap fun t => [Instr.poolUpdate (lineOf t.pool), .tokenPerform (lineOf t.desc)])
  ++ (s.slotFrees.map fun f => Instr.slotPush f.line)
  ++ (if s.launches.isEmpty then [] else [.launchArrival])
  ++ (if s.queues.all (·.isEmpty) then [] else .placement :: (List.range 8).map fun p => Instr.reservingHead p)
  ++ s.rights.flatMap (·.events s)
  ++ s.dbgQ.map (·.event)
  ++ [.handoverTimeout, .quoteComplete]
  ++ ((List.range s.dies.length).flatMap fun d => match s.dies[d]? with
    | some x => dieEvents d x
    | none => [])
  ++ (if s.pn.any (·.st == .hot) then (List.range 8).map fun d => Instr.hotResolution d else [])

/-- Doorbells that a dispatcher may serve. -/
def State.doorbells (s : State) : List Act :=
  s.mail.flatMap fun m => (List.range 16).filterMap fun k =>
    if (s.gran 0 m.1 (16 * k + 8)).full then some (.serve (m.1 - 1024) k) else none

/-- READY paths, the oldest first (R206), then access processors. -/
def State.issues (s : State) : List Act :=
  let ps := s.wgs.flatMap fun w => w.2.groups.flatMap fun g => ((List.range 4).filter fun p =>
    (g.2.path p).st == .ready).map fun p => (w.1, g.1, p, (g.2.path p).ageFrom)
  let old := fun (a b : Nat × Nat × Nat × Int) => decide (a.2.2.2 ≤ b.2.2.2)
  (ps.mergeSort old).map (fun x => Act.issue x.1 x.2.1 x.2.2.1 0)
  ++ (s.wgs.flatMap fun w => (w.2.groups.filter fun g =>
      g.2.ap.st == .running && g.2.ap.wait.isNone && g.2.ap.notBefore ≤ s.clock g.2.core).map fun g =>
    Act.apIssue w.1 g.1 0)

/-- The first of some turns that can be taken. -/
def State.firstOf (s : State) : List Act → Option State
  | [] => none
  | a :: r => match s.run a with
    | .next t => some t
    | _ => s.firstOf r

/-- A turn where no list of turns is left: an event that is pending, else an issue, else a cycle passes. -/
def State.idle (s : State) : Out :=
  match s.firstOf (s.pendingEvents.map Act.event ++ s.doorbells ++ s.issues) with
  | some t => .next t
  | none => .next s.pass

/-- The next turn: of the list where there is one. -/
def State.turn (s : State) : Out :=
  match s.sched with
  | t :: r => match { s with sched := r }.elapse t.dt with
    | some s => s.run t.act
    | none => .refused .notReady
  | [] => s.idle

/-! ### Placing one instruction -/

/-- A handle that no workgroup has. -/
def State.unusedHandle (s : State) : Nat := s.wgs.foldl (fun n e => max n (e.1 + 1)) 1

/-- A launch record of one group of 32 threads at core level, with every role's ceilings at 512. -/
def probeRecord : BitVec 1024 := BitVec.ofNat 1024 (0x1_0000 * 2 ^ 960 + 32 * 2 ^ 406)

/-- A workgroup of handle `h` whose one group is ready to execute a word on core 0. -/
def State.placeWord (s : State) (h : Nat) (w : BitVec 96) : State :=
  let wg := unplaced h probeRecord
  let gr := Group.fresh s wg 0 0
  let first : Path := { gr.path 0 with fbuf := [(wg.lanePc, w)] }
  let gr : Group := { gr with started := true, vhold := 16, mhold := 512, paths := [first, .free, .free, .free] }
  let part : WgCore := { core := 0, base := 0, size := 0, grans := [], freed := false, cluster := none, pos := 0, joins := 0,
                         map := [], joining := none, leaving := none, cleaver := none }
  { (s.setWg h { wg with cores := [part], groups := [(0, gr)], phases := List.replicate 16 0 }) with
    sched := [{ dt := 0, act := .issue h 0 0 0 }] }

end Sys2Proof.Machine
end

