-- ==== Sys2Proof/Machine/Step.lean ====
section
/-!
DEFINITION. One step of the package: one turn.
-/
namespace Sys2Proof.Machine

/-- One step: the next turn of the list, or what the machine takes by itself. -/
def step (s : State) : Host.Outcome State Fault Refusal := s.turn

/-- The state with one instruction where the next step fetches it: in the fetch buffer of a new group's path, whose
issue is the next turn. -/
def State.withFetchWord (s : State) (nbits w : Nat) : State :=
  s.placeWord s.unusedHandle (BitVec.ofNat 96 (w % 2 ^ nbits))

end Sys2Proof.Machine
end

