-- ==== Sys2Proof/Safety.lean ====
section
/-!
DEFINITION. What counts as a safe run and the terms that claims use: which memory is well formed, when an
instruction that is to issue passes every check common to all (R206, R209, R377), what registers hold before and
after, and what an instruction that completes in order leaves.
-/
namespace Sys2Proof.Machine

/-! ### Reading registers -/

/-- Lane `l` of V register `i`. -/
def Group.vword (gr : Group) (i l : Nat) : Word := (gr.vreg i).lane l

/-- An S register of the lanes, or of the access processor. -/
def Group.sword (gr : Group) (ap : Bool) (i : Nat) : Word := if ap then look 0 gr.ap.s i else gr.sreg i

/-- Lane `l` of a predicate, or a predicate of the access processor. -/
def Group.pbit (gr : Group) (ap : Bool) (k l : Nat) : Bool :=
  if ap then gr.ap.p.getLsbD k else (gr.pred k).getLsbD l

/-- The flags of a lane. -/
def Group.flagsOf (gr : Group) (l : Nat) : Word := gr.sr.xflags.lane l

/-! ### An instruction that issues -/

/-- Instruction `i` issues in state `s`, with `x` its issuer, its execution mask and its popped words: every
condition of R377 on the state holds. -/
structure Ready (s : State) (i : Instr) (x : Iss) : Prop where
  /-- The issuer may issue; the mask is that of R209. -/
  issuer : ∃ y, s.issuer = .go y ∧ x = { y.masked i with q := x.q }
  /-- The guard's predicate is full. -/
  guard : x.guardWait i.ctl = none
  /-- A lane-bound instruction has an active lane. -/
  active : i.laneBound = true → x.x ≠ 0
  /-- A uniform transfer has the same guard in every lane. -/
  uniform : x.ap = false → i.uniform = true → x.m &&& x.guardMask i.ctl = 0 ∨ x.m &&& x.guardMask i.ctl = x.m
  /-- The group's role may use the instruction's engine. -/
  role : x.ap = false → ∀ r, i.roleCode = some r → x.gr.role = 0 ∨ x.gr.role = r
  /-- Only an access processor nests and sends. -/
  paths : x.ap = false → (∀ c a, i ≠ .nest c a) ∧ ∀ c q b, i ≠ .apsend c q b
  /-- The access processor executes the instruction, on its own registers. -/
  onAp : x.ap = true → i.apRuns = true ∧
    ∀ u ∈ i.dsts ++ i.srcs, ∀ e m n, u.o = .s e m n → n.toNat + u.n ≤ 128
  /-- Every V register named is held. -/
  held : x.ap = false → ∀ u ∈ i.dsts ++ i.srcs, ∀ e m n, u.o = .v e m n → n.toNat + u.n ≤ 32 * x.gr.vhold
  /-- Every source register is full. -/
  full : ∀ u ∈ i.srcs, ∀ r ∈ u.regs x.ap, x.gr.isFull r = true
  /-- The ports give the Q operands their words. -/
  ports : ∃ ps, Iss.takeQ false i.srcs x.gr.ports = .ok x.q ps
  /-- No counter and no request limit is reached. -/
  room : x.limited i = false

/-- No flag is enabled to trap. -/
abbrev Iss.quiet (x : Iss) : Prop := x.gr.sr.trapen &&& 0x3F = 0

/-! ### What an instruction leaves -/

/-- Destination `d` of `n` registers holds `f l` in the lanes of the execution mask, and what it held in the
others; a scalar destination holds `f 0` (R261, R264). -/
def Iss.destHolds (x : Iss) (gr : Group) (d : Opnd) (n : Nat) (f : Nat → List Word) : Prop :=
  match d with
  | .v _ _ i => ∀ k < n, ∀ l < 32,
      gr.vword (i.toNat + k) l = if x.x.getLsbD l then (f l).getD k 0 else x.gr.vword (i.toNat + k) l
  | .s _ _ i => ∀ k < n, gr.sword x.ap (i.toNat + k) = (f 0).getD k 0
  | _ => False

/-- Predicate destination `d` holds `f l` in the lanes of the execution mask. -/
def Iss.predHolds (x : Iss) (gr : Group) (d : Opnd) (f : Nat → Bool) : Prop :=
  match d with
  | .p _ _ k => if x.ap then gr.pbit true k.toNat 0 = f 0
      else ∀ l < 32, gr.pbit false k.toNat l = if x.x.getLsbD l then f l else x.gr.pbit false k.toNat l
  | _ => False

/-- The lanes in which an instruction with destination `d` raises its flags: a scalar form raises those of its one
result in every lane of the path (R264). -/
def Iss.flagMask (x : Iss) (d : Opnd) : Mask :=
  if d.isS 1 then (if x.ap then x.gr.activeMask else x.m) else x.x

/-- The lane whose result lane `l` takes its flags from. -/
def resultLane (d : Opnd) (l : Nat) : Nat := if d.isS 1 then 0 else l

/-- A lane that computes a result for destination `d`: an active lane, or lane 0 for a scalar. -/
def Iss.computes (x : Iss) (d : Opnd) (l : Nat) : Prop := if d.isS 1 then l = 0 else x.x.getLsbD l = true

/-- The issuer stands behind the instruction, ready. -/
def Iss.behind (x : Iss) (gr : Group) : Prop :=
  if x.ap then gr.ap.pc = (x.pc + 12) % 2 ^ 64 ∧ gr.ap.st = .running ∧ gr.ap.wait = none
  else (gr.path x.p).pc = (x.pc + 12) % 2 ^ 64 ∧ (gr.path x.p).st = .ready ∧ (gr.path x.p).mask = x.m

/-- Instruction `i` has completed in order: only the issuer's group has changed, which stands behind the
instruction with its destinations full and the flags `fl` raised. -/
structure Iss.Completes (x : Iss) (i : Instr) (d : Opnd) (t : State) (gr : Group) (fl : Nat → Word) : Prop where
  state : t = x.s.setGroup x.h x.g gr
  behind : x.behind gr
  full : ∀ r ∈ x.dstRegs i, gr.isFull r = true
  flags : ∀ l < 32, gr.flagsOf l =
    x.gr.flagsOf l ||| (if (x.flagMask d).getLsbD l then fl (resultLane d l) else 0)

/-- The random-number counter after an instruction: RNG advances it by one (R278). -/
def Iss.rngAfter (x : Iss) : Instr → DWord
  | .rng .. => x.gr.sr.rngctr + 1
  | _ => x.gr.sr.rngctr

/-- Register `k` is none of the `n` from `b` on. -/
def apart (k : Nat) (b n : Nat) : Prop := k < b ∨ b + n ≤ k

/-- What an instruction that completes in order with destination `d`, of `n` registers, leaves alone in its group:
every register but its destination, the special registers, the operations, the other paths, and of the issuer's path
the mask, the token and the stack. -/
structure Iss.Frame (x : Iss) (i : Instr) (gr : Group) (d : Opnd) (n : Nat) : Prop where
  /-- Tiles, accumulators, operations, counters, horizons, holdings and pending causes stay; ports lose the popped words. -/
  rest : gr = { x.gr with v := gr.v, s := gr.s, preds := gr.preds, sb := gr.sb, sr := gr.sr, paths := gr.paths,
                          ap := gr.ap, ports := (x.popped i).ports }
  vregs : ∀ k, (∀ e m b, d = .v e m b → apart k b.toNat n) → gr.vreg k = x.gr.vreg k
  sregs : ∀ k, (x.ap = false → ∀ e m b, d = .s e m b → apart k b.toNat n) → gr.sword false k = x.gr.sword false k
  preds : ∀ k, (x.ap = false → ∀ e m b, d = .p e m b → k ≠ b.toNat) → gr.pred k = x.gr.pred k
  apSregs : ∀ k, (x.ap = true → ∀ e m b, d = .s e m b → apart k b.toNat n) → gr.sword true k = x.gr.sword true k
  apPreds : ∀ k, (x.ap = true → ∀ e m b, d = .p e m b → k ≠ b.toNat) → gr.pbit true k 0 = x.gr.pbit true k 0
  /-- Of the special registers only the flags, and RNG's counter. -/
  special : gr.sr = { x.gr.sr with xflags := gr.sr.xflags, rngctr := x.rngAfter i }
  empty : ∀ r, r ∉ x.dstRegs i → gr.isFull r = x.gr.isFull r
  others : ∀ p, (x.ap = false → p ≠ x.p) → gr.path p = x.gr.path p
  own : x.ap = false → (gr.path x.p).mask = x.m ∧ (gr.path x.p).token = (x.gr.path x.p).token
    ∧ (gr.path x.p).origin = (x.gr.path x.p).origin ∧ (gr.path x.p).stack = (x.gr.path x.p).stack
    ∧ (gr.path x.p).spilled = (x.gr.path x.p).spilled ∧ gr.ap = x.gr.ap

/-- Instruction `i` executes and completes in order with words and flags that `R` allows in every lane that
computes, written to `n` registers from `d` on. -/
def InOrder (s : State) (i : Instr) (x : Iss) (d : Opnd) (n : Nat) (R : Nat → List Word → Word → Prop) : Prop :=
  ∃ (t : State) (gr : Group) (ws : Nat → List Word) (fl : Nat → Word),
    exec i s = .next t ∧ x.Completes i d t gr fl ∧ x.Frame i gr d n ∧ x.destHolds gr d n ws
    ∧ ∀ l < 32, x.computes d l → R l (ws l) (fl l)

/-- The same for one predicate. -/
def InOrderPred (s : State) (i : Instr) (x : Iss) (d : Opnd) (R : Nat → Bool → Word → Prop) : Prop :=
  ∃ (t : State) (gr : Group) (b : Nat → Bool) (fl : Nat → Word),
    exec i s = .next t ∧ x.Completes i d t gr fl ∧ x.Frame i gr d 1 ∧ x.predHolds gr d b
    ∧ ∀ l < 32, x.computes d l → R l (b l) (fl l)

/-! ### An instruction that goes on after its issue -/

/-- Operation `o` of instruction `i` is entered: the popped words are gone, its destinations are empty, the counter of
its class is one higher, and nothing else of the group has changed but the issuer's place. -/
structure Iss.Enters (x : Iss) (i : Instr) (o : Op) (gr : Group) : Prop where
  rest : gr = { x.gr with sb := gr.sb, ops := x.gr.ops ++ [o], nextSeq := x.gr.nextSeq + 1, ctrs := gr.ctrs,
                          ports := (x.popped i).ports, paths := gr.paths, ap := gr.ap }
  /-- The operation is the instruction's: the next in its group, with the path's mask and the lanes that execute,
  after its path's operations in flight (R151). -/
  what : o.seq = x.gr.nextSeq ∧ o.instr = i ∧ o.path = x.p ∧ o.pc = x.pc ∧ o.mask = x.m ∧ o.x = x.x
    ∧ o.cls = i.ctrClass ∧ o.paths = [x.p] ∧ o.prior = x.priorOps
  counters : ∀ k : CtrClass, k.num < x.gr.ctrs.length →
    gr.counter k = x.gr.counter k + if i.ctrClass = some k then 1 else 0
  empty : ∀ r, gr.isFull r = (x.gr.isFull r && !decide (r ∈ o.dst))
  apRegs : gr.ap.s = x.gr.ap.s ∧ gr.ap.p = x.gr.ap.p ∧ gr.ap.st = x.gr.ap.st
  others : ∀ p, (x.ap = false → p ≠ x.p) → gr.path p = x.gr.path p
  own : x.ap = false → (gr.path x.p).mask = x.m ∧ (gr.path x.p).token = (x.gr.path x.p).token
    ∧ (gr.path x.p).origin = (x.gr.path x.p).origin ∧ (gr.path x.p).stack = (x.gr.path x.p).stack
    ∧ (gr.path x.p).spilled = (x.gr.path x.p).spilled ∧ gr.ap = x.gr.ap

/-- The issuer waits at its instruction for operation `seq`. -/
def Iss.waits (x : Iss) (gr : Group) (seq : Nat) : Prop :=
  if x.ap then gr.ap.pc = x.pc ∧ gr.ap.wait = some (.op seq)
  else (gr.path x.p).pc = x.pc ∧ (gr.path x.p).st = .blocked ∧ (gr.path x.p).wait = some (.op seq)

/-! ### Where the issuer goes on -/

/-- The issuer stands at `pc`, ready. -/
def Iss.standsAt (x : Iss) (gr : Group) (pc : Nat) : Prop :=
  if x.ap then gr.ap.pc = pc ∧ gr.ap.st = .running ∧ gr.ap.wait = none
  else (gr.path x.p).pc = pc ∧ (gr.path x.p).st = .ready ∧ (gr.path x.p).wait = none

/-- The words fetched ahead for the issuer. -/
def Iss.ahead (x : Iss) (gr : Group) : List (Nat × BitVec 96) := if x.ap then gr.ap.fbuf else (gr.path x.p).fbuf

/-- Only the paths named may have changed; every register, the special registers and the rest of the group are as
they were. -/
structure Iss.OnlyPaths (x : Iss) (gr : Group) (ps : List Nat) : Prop where
  rest : gr = { x.gr with paths := gr.paths }
  others : ∀ p, p ∉ ps → gr.path p = x.gr.path p
  token : (gr.path x.p).token = (x.gr.path x.p).token ∧ (gr.path x.p).origin = (x.gr.path x.p).origin

end Sys2Proof.Machine
end

