-- ==== Sys2Proof/Certificates/Slice0/Obligations.lean ====
section
/-!
DEFINITION. The statements for the provers. Each is about every state and every form of the instructions it names;
the small tables before a statement say, in the words of the instruction tables, what a lane's result is.
-/
namespace Sys2Proof

/-! ### Values of floating-point patterns -/

/-- The value of a finite number; 0 for an infinity or a NaN. -/
def FVal.val : FVal → ℚ
  | .fin n m e => (if n then -1 else 1) * m * 2 ^ e
  | _ => 0

/-- −1, 0 or 1: −∞, a finite number, +∞. -/
def FVal.rank : FVal → Int
  | .inf n => if n then -1 else 1
  | _ => 0

/-- Order of two values that are no NaN. −0 and +0 are equal. -/
def FVal.below (a b : FVal) : Prop := a.rank < b.rank ∨ a.rank = b.rank ∧ a.val < b.val

/-- Equality of two values that are no NaN. -/
def FVal.same (a b : FVal) : Prop := a.rank = b.rank ∧ a.val = b.val

def FVal.negative : FVal → Bool
  | .inf n | .fin n .. => n
  | .nan _ => false

/-- NV where an operand is a signalling NaN. -/
def signals (l : List FVal) : Word := if FVal.nan true ∈ l then flNV else 0

end Sys2Proof

namespace Sys2Proof.Machine

/-! ### Integer and address instructions (Tables 12.6 to 12.8) -/

/-- An exact integer `v` of type `t` as a result: modulo 2^w, or clamped with OV under the saturate modifier (R221,
R265). -/
def Clamped (t : Ty) (sat : Bool) (v : Int) (ws : List Word) (fl : Word) : Prop :=
  ws = regWords t (wrapTo t.bits (if sat then max t.lo (min t.hi v) else v))
  ∧ fl = if sat && !(decide (t.lo ≤ v) && decide (v ≤ t.hi)) then flOV else 0

/-- A number below 2^w whose bits are given, as a result without flags. -/
def BitsAre (t : Ty) (f : Nat → Bool) (ws : List Word) (fl : Word) : Prop :=
  (∃ v, v < 2 ^ t.bits ∧ (∀ i < t.bits, v.testBit i = f i) ∧ ws = regWords t v) ∧ fl = 0

/-- Quotient or remainder (R221): toward zero; division by 0 gives all ones and the dividend with DZ, and the most
negative number over −1 gives itself and 0 with OV. -/
def Divided (t : Ty) (rem : Bool) (a b : Int) (ws : List Word) (fl : Word) : Prop :=
  if b = 0 then ws = regWords t (if rem then wrapTo t.bits a else 2 ^ t.bits - 1) ∧ fl = flDZ
  else if t.signed = true ∧ a = t.lo ∧ b = -1 then ws = regWords t (if rem then 0 else wrapTo t.bits t.lo) ∧ fl = flOV
  else ∃ q r : Int, a = q * b + r ∧ r.natAbs < b.natAbs ∧ (0 < r → 0 < a) ∧ (r < 0 → a < 0)
    ∧ ws = regWords t (wrapTo t.bits (if rem then r else q)) ∧ fl = 0

/-- What an integer instruction with results in registers computes in lane `l` (Tables 12.6 and 12.7): its words and
its flags. -/
def IntResult (x : Iss) (l : Nat) (ws : List Word) (fl : Word) : Instr → Prop
  | .mov _ t _ a => ws = regWords t (x.int t 1 a l) ∧ fl = 0
  | .iadd _ t d a b => Clamped t d.xm (x.ival t 1 a l + x.ival t 2 b l) ws fl
  | .isub _ t d a b => Clamped t d.xm (x.ival t 1 a l - x.ival t 2 b l) ws fl
  | .imul _ t d a b => Clamped t d.xm (x.ival t 1 a l * x.ival t 2 b l) ws fl
  | .imulh _ t _ a b =>
    ws = regWords t (wrapTo t.bits ((x.ival t 1 a l * x.ival t 2 b l) / (2 : Int) ^ t.bits)) ∧ fl = 0
  | .imad _ t d a b c => Clamped t d.xm (x.ival t 1 a l * x.ival t 2 b l + x.ival t 3 c l) ws fl
  | .idiv _ t _ a b => Divided t false (x.ival t 1 a l) (x.ival t 2 b l) ws fl
  | .irem _ t _ a b => Divided t true (x.ival t 1 a l) (x.ival t 2 b l) ws fl
  | .imin _ t _ a b => ws = regWords t (wrapTo t.bits (min (x.ival t 1 a l) (x.ival t 2 b l))) ∧ fl = 0
  | .imax _ t _ a b => ws = regWords t (wrapTo t.bits (max (x.ival t 1 a l) (x.ival t 2 b l))) ∧ fl = 0
  | .iabs _ t d a => Clamped t d.xm ((x.ival t 1 a l).natAbs : Int) ws fl
  | .lea _ t _ a b c =>
    ws = regWords .u64 (wrapTo 64 (x.int .u64 1 a l + x.ival t 2 b l * 2 ^ (x.cnt 3 c l % 64))) ∧ fl = 0
  | .sel _ t d a b c =>
    let k := if d.isS 1 then Mask.lowest x.m else l
    ws = regWords t (if (x.pmask c).getLsbD k then x.int t 1 a l else x.int t 2 b l) ∧ fl = 0
  | .and _ t _ a b => BitsAre t (fun i => (x.int t 1 a l).testBit i && (x.int t 2 b l).testBit i) ws fl
  | .or _ t _ a b => BitsAre t (fun i => (x.int t 1 a l).testBit i || (x.int t 2 b l).testBit i) ws fl
  | .xor _ t _ a b => BitsAre t (fun i => (x.int t 1 a l).testBit i != (x.int t 2 b l).testBit i) ws fl
  | .not _ t _ a => BitsAre t (fun i => !(x.int t 1 a l).testBit i) ws fl
  | .shl _ t d a b => Clamped t d.xm (x.ival t 1 a l * 2 ^ x.cnt 2 b l) ws fl
  | .shr _ t _ a b => BitsAre t (fun i => (x.int t 1 a l).testBit (i + x.cnt 2 b l)) ws fl
  | .shra _ t _ a b =>
    BitsAre t (fun i => (x.int t 1 a l).testBit (min (i + x.cnt 2 b l) (t.bits - 1))) ws fl
  | .popc _ t _ a => ws = [BitVec.ofNat 32 ((List.range t.bits).countP (x.int t 1 a l).testBit)] ∧ fl = 0
  | .clz _ t _ a => fl = 0 ∧ ∃ n ≤ t.bits, ws = [BitVec.ofNat 32 n]
      ∧ (∀ j < n, (x.int t 1 a l).testBit (t.bits - 1 - j) = false)
      ∧ (n < t.bits → (x.int t 1 a l).testBit (t.bits - 1 - n) = true)
  | .brev _ t _ a => BitsAre t (fun i => (x.int t 1 a l).testBit (t.bits - 1 - i)) ws fl
  | .bfe _ t _ a b c =>
    let pos := x.cnt 2 b l % 256
    let len := min (x.cnt 3 c l % 256) t.bits
    let src := fun i => if t.signed then (x.int t 1 a l).testBit (min i (t.bits - 1)) else (x.int t 1 a l).testBit i
    BitsAre t (fun i => if i < len then src (pos + i) else t.signed && decide (0 < len) && src (pos + (len - 1))) ws fl
  | .bfi _ t _ a b c =>
    let pos := x.cnt 3 c l % 256
    let len := min (x.cnt 3 c l / 256 % 256) t.bits
    BitsAre t (fun i => if pos ≤ i ∧ i < pos + len then (x.int t 1 a l).testBit (i - pos)
      else (x.int t 2 b l).testBit i) ws fl
  | .rng _ unit _ =>
    let z := rngDraw x.gr.sr.rngkey.toNat x.gr.sr.rngctr.toNat x.gr.gid l
    fl = 0 ∧ ws = [BitVec.ofNat 32 (if unit then (fmt32.roundFin .rne false (z / 2 ^ 40) (-24) false).1 else z / 2 ^ 32)]
  | _ => False

/-- Destination and registers of an integer instruction with results in registers. -/
def intDest : Instr → Option (Opnd × Nat)
  | .mov _ t d _ | .iadd _ t d .. | .isub _ t d .. | .imul _ t d .. | .imulh _ t d .. | .imad _ t d .. | .idiv _ t d ..
  | .irem _ t d .. | .imin _ t d .. | .imax _ t d .. | .iabs _ t d _ | .and _ t d .. | .or _ t d .. | .xor _ t d ..
  | .not _ t d _ | .shl _ t d .. | .shr _ t d .. | .shra _ t d .. | .brev _ t d _ | .bfe _ t d .. | .bfi _ t d ..
  | .sel _ t d .. => some (d, t.regs)
  | .lea _ _ d .. => some (d, 2)
  | .popc _ _ d _ | .clz _ _ d _ | .rng _ _ d => some (d, 1)
  | _ => none

/-! ### Floating point (R281 to R289) -/

/-- Integer `k` is `v` rounded to an integer (Table 10.2). -/
def RoundsTo (mode : Rnd) (v : ℚ) (k : Int) : Prop :=
  match mode with
  | .rne => |v - k| ≤ 1 / 2 ∧ (|v - k| = 1 / 2 → k % 2 = 0)
  | .rna => |v - k| ≤ 1 / 2 ∧ (|v - k| = 1 / 2 → |v| < |(k : ℚ)|)
  | .rz => |(k : ℚ)| ≤ |v| ∧ |v - k| < 1 ∧ 0 ≤ v * k
  | .ru => v ≤ k ∧ (k : ℚ) < v + 1
  | .rd => (k : ℚ) ≤ v ∧ v < k + 1

/-- Pattern and flags `r` are the value v ≠ 0, rounded once to the format (R218, R219, Table 10.2). -/
structure Rounded (f : Fmt) (mode : Rnd) (v : ℝ) (r : Nat × Word) : Prop where
  /-- Without overflow a finite number of v's sign, inexact exactly where NX says so. -/
  inRange : r.2 &&& flOV = 0 → ∃ n m e, f.unpack r.1 = .fin n m e ∧ (n = true ↔ v < 0)
    ∧ (r.2 &&& flNX = 0 ↔ ((f.unpack r.1).val : ℝ) = v)
  /-- It is the one that the mode chooses among all finite numbers of the format. -/
  chosen : r.2 &&& flOV = 0 → ∀ p < 2 ^ (1 + f.eb + f.mb), (f.unpack p).rank = 0 → (f.unpack p).isNan = false →
    let y : ℝ := (f.unpack r.1).val
    let z : ℝ := (f.unpack p).val
    match mode with
    | .rne => |v - y| ≤ |v - z| ∧ (|v - y| = |v - z| → y ≠ z → r.1 % 2 = 0)
    | .rna => |v - y| ≤ |v - z| ∧ (|v - y| = |v - z| → |z| ≤ |y|)
    | .rz => |y| ≤ |v| ∧ (|z| ≤ |v| → |z| ≤ |y|)
    | .ru => v ≤ y ∧ (v ≤ z → y ≤ z)
    | .rd => y ≤ v ∧ (z ≤ v → z ≤ y)
  /-- Overflow: above the largest finite number, with the result of Table 10.2. -/
  overflow : r.2 &&& flOV ≠ 0 → r.2 = flOV ||| flNX ∧ ((f.unpack f.maxFin).val : ℝ) < |v| ∧
    ∃ n, (n = true ↔ v < 0) ∧ r.1 = f.overflow mode n + f.signBit n
  /-- UF only with NX, and only below the smallest normal number. -/
  underflow : r.2 &&& flUF ≠ 0 → r.2 = flUF ||| flNX ∧ |v| < 2 ^ (1 - (f.bias : Int))

/-- The formats of Table 10.1. -/
def formats : List Fmt := [fmt32, fmt16, fmtB16, fmtE4, fmtE5]

/-- A pattern of a type with its flags as a result: under the saturate modifier an infinity becomes the largest
finite value of its sign, and OV is raised (R265). -/
def Stored (t : Ty) (sat : Bool) (p : Nat) (f : Word) (ws : List Word) (fl : Word) : Prop :=
  if sat = true ∧ (t.fmt.unpack p).rank ≠ 0 then
    ws = regWords t (t.fmt.maxFin + t.fmt.signBit (t.fmt.unpack p).negative) ∧ fl = f ||| flOV
  else ws = regWords t p ∧ fl = f

/-- What an arithmetic instruction computes in lane `l`: the operation of its entry, whose value and flags
`ArithmeticRoundsOnce` gives. -/
def FloatResult (x : Iss) (l : Nat) (ws : List Word) (fl : Word) : Instr → Prop
  | .fadd _ r t d a b => let v := t.fmt.add r (x.float t 1 a l) (x.float t 2 b l); Stored t d.xm v.1 v.2 ws fl
  | .fsub _ r t d a b => let v := t.fmt.sub r (x.float t 1 a l) (x.float t 2 b l); Stored t d.xm v.1 v.2 ws fl
  | .fmul _ r t d a b => let v := t.fmt.mul r (x.float t 1 a l) (x.float t 2 b l); Stored t d.xm v.1 v.2 ws fl
  | .ffma _ r t d a b c =>
    let v := t.fmt.fma r (x.float t 1 a l) (x.float t 2 b l) (x.float t 3 c l); Stored t d.xm v.1 v.2 ws fl
  | .fdiv _ r t d a b => let v := t.fmt.div r (x.float t 1 a l) (x.float t 2 b l); Stored t d.xm v.1 v.2 ws fl
  | .fsqrt _ r t d a => let v := t.fmt.sqrt r (x.float t 1 a l); Stored t d.xm v.1 v.2 ws fl
  | .frcp _ t d a => let v := t.fmt.fn .rcp (x.float t 1 a l); Stored t d.xm v.1 v.2 ws fl
  | .frsq _ t d a => let v := t.fmt.fn .rsq (x.float t 1 a l); Stored t d.xm v.1 v.2 ws fl
  | .fexp2 _ t d a => let v := t.fmt.fn .exp2 (x.float t 1 a l); Stored t d.xm v.1 v.2 ws fl
  | .flog2 _ t d a => let v := t.fmt.fn .log2 (x.float t 1 a l); Stored t d.xm v.1 v.2 ws fl
  | .fsin _ t d a => let v := t.fmt.fn .sin (x.float t 1 a l); Stored t d.xm v.1 v.2 ws fl
  | .fcos _ t d a => let v := t.fmt.fn .cos (x.float t 1 a l); Stored t d.xm v.1 v.2 ws fl
  | .ftanh _ t d a => let v := t.fmt.fn .tanh (x.float t 1 a l); Stored t d.xm v.1 v.2 ws fl
  | _ => False

/-- Destination and type of a float arithmetic instruction. -/
def floatDest : Instr → Option (Opnd × Ty)
  | .fadd _ _ t d .. | .fsub _ _ t d .. | .fmul _ _ t d .. | .ffma _ _ t d .. | .fdiv _ _ t d .. | .fsqrt _ _ t d _
  | .frcp _ t d _ | .frsq _ t d _ | .fexp2 _ t d _ | .flog2 _ t d _ | .fsin _ t d _ | .fcos _ t d _
  | .ftanh _ t d _ => some (d, t)
  | _ => none

/-- FMIN (`big` false) or FMAX of two patterns (R282). -/
def MinOrMax (f : Fmt) (big : Bool) (a b p : Nat) (fl : Word) : Prop :=
  let x := f.unpack a
  let y := f.unpack b
  fl = signals [x, y] ∧
  if x.isNan then p = if y.isNan then f.nan else b
  else if y.isNan then p = a
  else p = a ∧ (¬ (if big then x.below y else y.below x)) ∧ (x.same y → f.neg a = f.neg b ∨ f.neg a = !big)
    ∨ p = b ∧ (¬ (if big then y.below x else x.below y)) ∧ (x.same y → f.neg a = f.neg b ∨ f.neg b = !big)

/-- FMIN, FMAX and FABS in lane `l`. -/
def MinMaxAbs (x : Iss) (l : Nat) (ws : List Word) (fl : Word) : Instr → Prop
  | .fmin _ t d a b => ∃ p f, MinOrMax t.fmt false (x.float t 1 a l) (x.float t 2 b l) p f ∧ Stored t d.xm p f ws fl
  | .fmax _ t d a b => ∃ p f, MinOrMax t.fmt true (x.float t 1 a l) (x.float t 2 b l) p f ∧ Stored t d.xm p f ws fl
  | .fabs _ t d a => ∃ p, p < 2 ^ (t.bits - 1) ∧ (∀ i < t.bits - 1, p.testBit i = (x.float t 1 a l).testBit i)
      ∧ Stored t d.xm p 0 ws fl
  | _ => False

def minMaxDest : Instr → Option (Opnd × Ty)
  | .fmin _ t d .. | .fmax _ t d .. | .fabs _ t d _ => some (d, t)
  | _ => none

/-- The conditions of Table 12.12. -/
def FloatCond (k : Cond) (x y : FVal) : Prop :=
  let un := x.isNan = true ∨ y.isNan = true
  match k with
  | .eq => ¬ un ∧ x.same y
  | .ne => un ∨ ¬ x.same y
  | .lt => ¬ un ∧ x.below y
  | .le => ¬ un ∧ ¬ y.below x
  | .gt => ¬ un ∧ y.below x
  | .ge => ¬ un ∧ ¬ x.below y
  | .un => un
  | .ord => ¬ un

/-- The bit that FCLASS sets (R284). A subnormal number is below the smallest normal one. -/
def classBit (f : Fmt) : FVal → Nat
  | .inf n => if n then 0 else 7
  | .nan s => if s then 8 else 9
  | .fin n m e =>
    if m = 0 then (if n then 3 else 4)
    else if |(FVal.fin n m e).val| < 2 ^ (1 - (f.bias : Int)) then (if n then 2 else 5)
    else (if n then 1 else 6)

/-- FRND of a pattern (R288): `p` with flags `fl`. -/
def Integral (f : Fmt) (mode : Rnd) (a p : Nat) (fl : Word) : Prop :=
  match f.unpack a with
  | .nan s => p = f.nan ∧ fl = if s then flNV else 0
  | .inf _ => p = a ∧ fl = 0
  | .fin n m e =>
    if m = 0 then p = a ∧ fl = 0
    else fl = 0 ∧ ∃ k : Int, RoundsTo mode (FVal.fin n m e).val k
      ∧ ∃ m' e', f.unpack p = .fin n m' e' ∧ (f.unpack p).val = k

/-- A conversion of a pattern of type `st` to type `dt` (R220, R287, Table 10.3): the pattern, its flags and, where
the case is listed, the kind of the record. -/
def Converted (mode : Rnd) (dt st : Ty) (sat : Bool) (a : Nat) (v : Nat) (fl : Word) (listed : Option AshKind) : Prop :=
  let keep := fun (p : Nat) (f : Word) =>
    if sat = true ∧ (dt.fmt.unpack p).rank ≠ 0 then
      v = dt.fmt.maxFin + dt.fmt.signBit (dt.fmt.unpack p).negative ∧ fl = f ||| flOV
    else v = p ∧ fl = f
  let y := st.fmt.unpack a
  if st.isFloat then
    if dt.isFloat then
      match y with
      | .nan s => v = dt.fmt.nan ∧ (fl = if s then flNV else 0) ∧ listed = none
      | .inf n =>
        if dt.fmt.hasInf then keep ((2 ^ dt.fmt.eb - 1) * 2 ^ dt.fmt.mb + dt.fmt.signBit n) 0 ∧ listed = none
        else v = dt.fmt.maxFin + dt.fmt.signBit n ∧ fl = flOV ∧ listed = some (if n then .ninf else .pinf)
      | .fin n m e => listed = none ∧
        if dt = st then keep a 0
        else keep (dt.fmt.roundFin mode n m e false).1 (dt.fmt.roundFin mode n m e false).2
    else match y with
      | .nan _ => v = 0 ∧ fl = flNV ∧ listed = some .nan
      | .inf n => v = wrapTo dt.bits (if n then dt.lo else dt.hi) ∧ fl = flOV ∧ listed = some (if n then .ninf else .pinf)
      | .fin n m e => listed = none ∧ ∃ k : Int, RoundsTo mode (FVal.fin n m e).val k ∧
        v = wrapTo dt.bits (max dt.lo (min dt.hi k)) ∧
        fl = if k < dt.lo ∨ dt.hi < k then flOV ||| flNX else if (FVal.fin n m e).val = k then 0 else flNX
  else
    let k := st.intOf a
    listed = none ∧
    if dt.isFloat then
      keep (dt.fmt.roundFin mode (decide (k < 0)) k.natAbs 0 false).1 (dt.fmt.roundFin mode (decide (k < 0)) k.natAbs 0 false).2
    else v = wrapTo dt.bits (if sat then max dt.lo (min dt.hi k) else k) ∧
      fl = if sat && !(decide (dt.lo ≤ k) && decide (k ≤ dt.hi)) then flOV else 0

/-- What a conversion computes in lane `l` where no record is listed. -/
def ConvertResult (x : Iss) (l : Nat) (ws : List Word) (fl : Word) : Instr → Prop
  | .cvt _ r dt st d a => ∃ v, Converted r dt st d.xm (x.typed st 1 a l) v fl none ∧ ws = regWords dt v
  | .pkcvt _ r t d a b => ∃ v w f g, Converted r t .f32 d.xm (x.float .f32 1 a l) v f none
      ∧ Converted r t .f32 d.xm (x.float .f32 2 b l) w g none
      ∧ ws = [BitVec.ofNat 32 (v + w * 2 ^ t.bits)] ∧ fl = f ||| g
  | .unpk _ t k d a =>
    let e := x.pattern 1 a l / 2 ^ (t.bits * k.toNat) % 2 ^ t.bits
    ∃ v, Converted .rne .f32 t d.xm (if a.xm then e ^^^ 2 ^ (t.bits - 1) else e) v fl none ∧ ws = regWords .f32 v
  | .frnd _ r t d a => ∃ p f, Integral t.fmt r (x.float t 1 a l) p f ∧ Stored t d.xm p f ws fl
  | _ => False

def convertDest : Instr → Option (Opnd × Nat)
  | .cvt _ _ dt _ d _ => some (d, dt.regs)
  | .pkcvt _ _ _ d .. | .unpk _ _ _ d _ => some (d, 1)
  | .frnd _ _ t d _ => some (d, t.regs)
  | _ => none

/-- No lane's conversion to type `dt` is listed: of every lane that computes, neither operand is a NaN or an
infinity that the destination cannot hold (Table 10.3). -/
def Unlisted (x : Iss) : Instr → Prop
  | .cvt _ _ dt st d a => st.isFloat = true → (dt.isFloat = true ∧ dt.fmt.hasInf = true) ∨ ∀ l < 32, x.computes d l →
      (st.fmt.unpack (x.typed st 1 a l)).rank = 0 ∧ (dt.isFloat = false → (st.fmt.unpack (x.typed st 1 a l)).isNan = false)
  | .pkcvt _ _ t d a b => t.fmt.hasInf = true ∨ ∀ l < 32, x.computes d l →
      (fmt32.unpack (x.float .f32 1 a l)).rank = 0 ∧ (fmt32.unpack (x.float .f32 2 b l)).rank = 0
  | _ => True

/-! ### Lanes and predicates (R291 to R296) -/

/-- PAND, POR, PXOR and the forms of PMOV that write a predicate (R291). -/
def PredResult (x : Iss) (l : Nat) (b : Bool) (fl : Word) : Instr → Prop
  | .pand _ _ p q => fl = 0 ∧ b = ((x.pmask p).getLsbD l && (x.pmask q).getLsbD l)
  | .por _ _ p q => fl = 0 ∧ b = ((x.pmask p).getLsbD l || (x.pmask q).getLsbD l)
  | .pxor _ _ p q => fl = 0 ∧ b = ((x.pmask p).getLsbD l != (x.pmask q).getLsbD l)
  | .pmov _ _ a => fl = 0 ∧ (a.isP = true → b = (x.pmask a).getLsbD l)
      ∧ (a.isV 1 = true → b = (x.raw 1 a 1 l != 0))
      ∧ (a.isP = false → a.isV 1 = false → b = (x.int .b32 1 a 0).testBit l)
  | _ => False

/-- The lane of its segment of `w` lanes that lane `i` reads (R292). -/
def shuffleFrom (w i n : Nat) : Instr → Nat
  | .shfl .. => n % w
  | .shflup .. => if n ≤ i then i - n else i
  | .shfldn .. => if i + n < w then i + n else i
  | .shflx .. => i ^^^ (n % w)
  | _ => 0

/-- Width, type and operands of a shuffle. -/
def shuffle : Instr → Option (SegW × Ty × Opnd × Opnd × Opnd)
  | .shfl _ w t d a b | .shflup _ w t d a b | .shfldn _ w t d a b | .shflx _ w t d a b => some (w, t, d, a, b)
  | _ => none

/-- Truth value of a vote over the execution mask (R293). -/
def voteOf (x : Iss) (a : Opnd) : Instr → Bool
  | .voteall .. => (List.range 32).all fun l => !x.x.getLsbD l || (x.pmask a).getLsbD l
  | _ => (List.range 32).any fun l => x.x.getLsbD l && (x.pmask a).getLsbD l

/-- The lanes of the execution mask in ascending order. -/
def Iss.active (x : Iss) : List Nat := (List.range 32).filter fun l => x.x.getLsbD l

/-- The fold of F32 values by FMIN or FMAX (R294). -/
def foldMinMax (big : Bool) : List Nat → Nat × Word
  | [] => (if big then 0xFF800000 else 0x7F800000, 0)
  | v :: vs =>
    let r := vs.foldl (fun r v => (fmt32.minmax big r v).1) v
    (if (fmt32.unpack r).isNan then fmt32.nan else r, signals ((v :: vs).map fmt32.unpack))

/-- What a reduction computes (R294). -/
def ReduceResult (x : Iss) (ws : List Word) (fl : Word) : Instr → Prop
  | .redadd _ t d a =>
    if t = .f32 then
      let v := sumTreeFl ((List.range 32).map fun l => if x.x.getLsbD l then x.float .f32 1 a l else 0)
      Stored .f32 d.xm v.1 v.2 ws fl
    else Clamped t d.xm (x.active.map fun l => x.ival t 1 a l).sum ws fl
  | .redmin _ t d a =>
    if t = .f32 then
      let v := foldMinMax false (x.active.map fun l => x.float .f32 1 a l)
      Stored .f32 d.xm v.1 v.2 ws fl
    else ws = regWords t (wrapTo t.bits ((x.active.map fun l => x.ival t 1 a l).foldl min t.hi)) ∧ fl = 0
  | .redmax _ t d a =>
    if t = .f32 then
      let v := foldMinMax true (x.active.map fun l => x.float .f32 1 a l)
      Stored .f32 d.xm v.1 v.2 ws fl
    else ws = regWords t (wrapTo t.bits ((x.active.map fun l => x.ival t 1 a l).foldl max t.lo)) ∧ fl = 0
  | .redand _ t _ a => BitsAre t (fun i => x.active.all fun l => (x.int t 1 a l).testBit i) ws fl
  | .redor _ t _ a => BitsAre t (fun i => x.active.any fun l => (x.int t 1 a l).testBit i) ws fl
  | _ => False

def reduceDest : Instr → Option (Opnd × Nat)
  | .redadd _ t d _ | .redmin _ t d _ | .redmax _ t d _ | .redand _ t d _ | .redor _ t d _ => some (d, t.regs)
  | _ => none

/-- Sums from the left with the union of their flags. -/
def sumsFrom {α : Type} (add : α → α → α × Word) : List α → Option (α × Word)
  | [] => none
  | v :: vs => some (vs.foldl (fun r v => ((add r.1 v).1, r.2 ||| (add r.1 v).2)) (v, 0))

/-- An integer sum: modulo 2^w, or clamped with OV (R265, R295). -/
def intAdd (t : Ty) (sat : Bool) (a b : Int) : Int × Word :=
  if sat then (max t.lo (min t.hi (a + b)), if t.lo ≤ a + b ∧ a + b ≤ t.hi then 0 else flOV)
  else (t.intOf (wrapTo t.bits (a + b)), 0)

/-- SCANADD in lane `l` of the execution mask (R295): the sum over the lanes up to `l`, or below it. -/
def ScanResult (x : Iss) (excl : Bool) (t : Ty) (d a : Opnd) (l : Nat) (ws : List Word) (fl : Word) : Prop :=
  let upTo := fun (l : Nat) => x.active.filter fun k => if excl then decide (k < l) else decide (k ≤ l)
  if t = .f32 then
    let val := fun (l : Nat) => ((sumsFrom (fmt32.add .rne) ((upTo l).map fun k => x.float .f32 1 a k)).map (·.1)).getD 0
    let all := ((sumsFrom (fmt32.add .rne) (x.active.map fun k => x.float .f32 1 a k)).map (·.2)).getD 0
    (∃ f, Stored .f32 d.xm (val l) 0 ws f) ∧
      fl = all ||| if d.xm && x.active.any (fun k => decide ((fmt32.unpack (val k)).rank ≠ 0)) then flOV else 0
  else
    ws = regWords t (wrapTo t.bits (((sumsFrom (intAdd t d.xm) ((upTo l).map fun k => x.ival t 1 a k)).map (·.1)).getD 0))
    ∧ fl = ((sumsFrom (intAdd t d.xm) (x.active.map fun k => x.ival t 1 a k)).map (·.2)).getD 0

/-! ### Control (R267 to R274) -/

/-- The PC plus a displacement, modulo 2^64, with bits 1 and 0 cleared (R268). -/
def branchTo (pc : Nat) (t : Target) : Nat :=
  ((pc + match t with
    | .rel13 v => 4 * v.toInt
    | .rel32 v => v.toInt) % 2 ^ 64 : Int).toNat / 4 * 4

/-- The target of a uniform transfer (R268, R269): a branch target, or a register pair without its bits 1 and 0. -/
def transferTarget (x : Iss) : Instr → Option Nat
  | .bra _ t | .call _ _ t => some (branchTo x.pc t)
  | .jmp _ a | .callr _ _ a | .ret _ a => some (x.dword 1 a / 4 * 4)
  | _ => none

/-- The pair that takes the return address. -/
def linkPair : Instr → Opnd
  | .call _ d _ | .callr _ d _ => d
  | _ => .none

/-- The stack of path `p` after lanes `l` have exited from path `q` (R179): they leave the division entries of that
path and of every path further up the chain of its origins. -/
def stackAfterExit (gr : Group) (q p : Nat) (l : Mask) : List StackEnt :=
  if p ∈ q :: gr.origins 4 q then (gr.path p).stack.map fun e => match e with
    | .div k m pm pc => .div k (m &&& ~~~l) (pm &&& ~~~l) pc
    | e => e
  else (gr.path p).stack

/-- The lanes that have left path `p` while entries of its stack are spilled, after lanes `l` have exited from path `q`. -/
def goneAfterExit (gr : Group) (q p : Nat) (l : Mask) : Mask :=
  if p ∈ q :: gr.origins 4 q ∧ (gr.path p).spilled ≠ 0 then (gr.path p).gone ||| l else (gr.path p).gone

/-- A push onto the stack of the issuer's path (R180, R255): the state and the group before the entry is on top, and the
entries below it. A full hardware stack first stores its eight oldest entries, 16 bytes each, behind those in the path's
stack region; the time of the store counts for its group. -/
def Pushed (s : State) (x : Iss) (s1 : State) (gr : Group) (below : List StackEnt) : Prop :=
  let q := x.gr.path x.p
  if q.stack.length < 32 then s1 = s ∧ gr = x.gr ∧ below = q.stack
  else s.entsQuiet x.h x.g x.w x.gr x.p q.spilled 8 = true
    ∧ s.vStores x.gr.core x.w.ctx x.gr.sup ((List.range 8).map fun k =>
      (x.w.stackAddr x.g x.p (q.spilled + k), bytesOfNat 16 (q.stack.getD (31 - k) .bad).encode)) = .ok s1
    ∧ s1.group? x.h x.g = some x.gr ∧ gr = x.gr.raiseH .grp (upTick s1.cycle) ∧ below = q.stack.take 24

/-- The youngest spilled entries of the issuer's path, at most eight, are read back into its empty hardware stack,
without the lanes that have exited (R180, R255): the state, the stack and the number of spilled entries that stay. -/
def Filled (s0 : State) (x : Iss) (s1 : State) (stack : List StackEnt) (spilled : Nat) : Prop :=
  let q := x.gr.path x.p
  let n := min 8 q.spilled
  spilled = q.spilled - n ∧ s0.entsQuiet x.h x.g x.w x.gr x.p spilled n = true
  ∧ ∃ bs, s0.vLoad x.gr.core x.w.ctx x.gr.sup (x.w.stackAddr x.g x.p spilled) (16 * n) = .ok (bs, s1)
    ∧ s1.wg? x.h = s0.wg? x.h ∧ s1.tracing x.w.ctx = s0.tracing x.w.ctx
    ∧ stack = (((List.range n).map fun k => StackEnt.decode (natOfBytes ((bs.drop (16 * k)).take 16))).map
      (·.without q.gone)).reverse

/-- A pop from the stack of the issuer's path that leaves `r` of the entries in hardware: where it leaves none over
spilled entries, these are read back. -/
def Popped (s : State) (x : Iss) (r : List StackEnt) (s1 : State) (stack : List StackEnt) (spilled : Nat) : Prop :=
  let q := x.gr.path x.p
  if r ≠ [] ∨ q.spilled = 0 then s1 = s ∧ stack = r ∧ spilled = q.spilled
  else Filled (s.setGroup x.h x.g (x.gr.modPath x.p fun q => { q with stack := r })) x s1 stack spilled

/-- The loop of R179 on a stack: where it ends. `free` are the partners whose path is FREE, and `below` tells that
spilled entries lie below the stack, which are read before the loop goes on. -/
inductive Unwinds (free : Nat → Bool) (below : Bool) : List StackEnt → Unwound → Prop
  | empty : below = false → Unwinds free below [] .free
  | read : below = true → Unwinds free below [] .more
  | pending {k m pm pc r} : pm ≠ 0 → Unwinds free below (.div k m pm pc :: r) (.run pm pc (.div k m 0 pc :: r))
  | gone {k pc r u} : Unwinds free below r u → Unwinds free below (.div k 0 0 pc :: r) u
  | both {k m pc r} : m ≠ 0 → (r ≠ [] ∨ below = false) →
      Unwinds free below (.div k m 0 pc :: r) (.run m ((pc + 12) % 2 ^ 64) r)
  | last {k m pc} : m ≠ 0 → below = true → Unwinds free below [.div k m 0 pc] .more
  | released {k j r u} : free j = true → Unwinds free below r u → Unwinds free below (.split k j :: r) u
  | partner {k j r} : free j = false → Unwinds free below (.split k j :: r) (.join (.split k j :: r))
  | bad {r} : Unwinds free below (.bad :: r) .bad

/-- Where the loop ends for the issuer's path after its EXIT, with the spilled entries that stay and the state. -/
def LoopEnds (s : State) (x : Iss) (u : Unwound) (spilled : Nat) (s1 : State) : Prop :=
  let q := x.gr.path x.p
  let st := stackAfterExit x.gr x.p x.p x.x
  (Unwinds x.gr.isFree (q.spilled != 0) st u ∧ u ≠ .more ∧ spilled = q.spilled ∧ s1 = s)
  ∨ (Unwinds x.gr.isFree (q.spilled != 0) st .more ∧ s1.wg? x.h = s.wg? x.h
    ∧ x.unwindAll s (goneAfterExit x.gr x.p x.p x.x) st q.spilled 129 = .ok ((u, spilled), s1))

/-- Path `o` does not wait at a SPLIT entry for a partner that has come or gone. -/
def Group.calm (gr : Group) (o : Nat) : Prop :=
  ∀ k j r, (gr.path o).st = .join → (gr.path o).stack = .split k j :: r →
    (gr.path j).st ≠ .free ∧ (gr.path j).joinsFor k = false

/-! ### System instructions (R366 to R373) -/

/-- What a raised cause leaves in the special registers (R378, Table 16.2). -/
structure Saved (gr gr' : Group) (p : Nat) (r : Raise) (ap : Bool) : Prop where
  /-- sr.CAUSE: the code in bits 7 to 0, INFO in bits 31 to 16, with bit 15 of INFO for the access processor. -/
  code : gr'.sr.cause.toNat % 2 ^ 16 = r.cause.code
  info : gr'.sr.cause.toNat / 2 ^ 16 =
    if r.cause = .trap ∨ r.cause = .svc ∨ r.cause = .bkpt then r.info % 2 ^ 16
    else r.info % 2 ^ 15 + if ap then 2 ^ 15 else 0
  /-- sr.EPC: the instruction, or for a cause taken after it the next one. -/
  epc : gr'.sr.epc.toNat = (if r.cls = .after then ((gr.path p).pc + 12) % 2 ^ 64 else (gr.path p).pc) % 2 ^ 55 / 4 * 4
  emask : gr'.sr.emask = (gr.path p).mask
  /-- sr.FADDR: the address for codes 0x01 to 0x13, else 0. -/
  faddr : gr'.sr.faddr = if r.cause.code ≤ 0x13 then BitVec.ofNat 64 r.faddr else 0
  /-- sr.ESTAT: SUP set, LANE for class L, the path's number. -/
  estat : gr'.sr.estat = BitVec.ofNat 32 (1 + (if r.cls = .lane then 2 else 0) + 4 * (p % 4))
  /-- No other special register changes. -/
  rest : gr'.sr = { gr.sr with cause := gr'.sr.cause, epc := gr'.sr.epc, emask := gr'.sr.emask, faddr := gr'.sr.faddr,
                               estat := gr'.sr.estat }

/-- The special registers that a group may write, with their writable bits (Table 15.10). -/
def groupWritable : List (Nat × Nat) :=
  [(0x010, 0xFFF), (0x011, 0xFF), (0x013, 1), (0x014, 0xFFFFFFFF), (0x015, 0x3F), (0x017, 0x7FFFFFFFFFFFF0),
   (0x018, 0x7FFFFFFFFFFFF0), (0x019, 0xFFFFFFFFFFFFFFFF), (0x01A, 0xFFFFFFFFFFFFFFFF), (0x01B, 0x7FFFFFFFFFFFE0),
   (0x01C, 0x7FFFFFFFFFFFE0), (0x01D, 0xFFFFFFFF)]

/-- Those that a handler may write, sr.PNQUOTA apart. -/
def handlerWritable : List (Nat × Nat) :=
  [(0x030, 0xFFFF00FF), (0x031, 0x7FFFFFFFFFFFFC), (0x032, 0xFFFFFFFF), (0x035, 0x7FFFFFFFFFFFFC)]

/-- A register's new value (R371, R373): the bits of `mask` from the source, the others as they were. -/
def Written (mask old v new : Nat) : Prop :=
  ∀ k < 64, new.testBit k = if mask.testBit k then v.testBit k else old.testBit k

end Sys2Proof.Machine

open Sys2Proof Sys2Proof.Machine

/-- Tables 12.6 and 12.7: an integer instruction that is ready completes with, in each active lane, the result of its
entry, and raises its flags. -/
def Obligations.IntegerResults : Prop :=
  ∀ (s : State) (i : Instr) (x : Iss) (d : Opnd) (n : Nat),
    i.wf = true → Ready s i x → x.quiet → intDest i = some (d, n) →
    InOrder s i x d n fun l ws fl => IntResult x l ws fl i

/-- Table 12.7: ICMP writes, in each active lane, whether the comparison holds; the access processor's writes its own
predicate. -/
def Obligations.IntegerCompare : Prop :=
  ∀ (s : State) (x : Iss) (c : Ctl) (k : Cond) (t : Ty) (d a b : Opnd),
    (Instr.icmp c k t d a b).wf = true → Ready s (.icmp c k t d a b) x → x.quiet →
    InOrderPred s (.icmp c k t d a b) x d fun l p fl =>
      let u := x.ival t 1 a l
      let v := x.ival t 2 b l
      fl = 0 ∧ (p = true ↔ match k with
        | .eq => u = v | .ne => u ≠ v | .lt => u < v | .le => u ≤ v | .gt => v < u | .ge => v ≤ u
        | .un | .ord => False)

/-- R281, R285: a float arithmetic instruction that is ready completes with the operation of its entry. -/
def Obligations.FloatResults : Prop :=
  ∀ (s : State) (i : Instr) (x : Iss) (d : Opnd) (t : Ty),
    i.wf = true → Ready s i x → x.quiet → floatDest i = some (d, t) →
    InOrder s i x d t.regs fun l ws fl => FloatResult x l ws fl i

/-- R218, R219: one rounding to a format gives the number that the mode chooses among all finite numbers of the
format, with OV, NX and UF as they apply; an inexact significand (`s`) carries three spare bits. -/
def Obligations.RoundingIsCorrect : Prop :=
  ∀ f ∈ formats, ∀ (mode : Rnd) (neg s : Bool) (m : Nat) (e : Int) (v : ℝ),
    m ≠ 0 → (s = true → 2 ^ (f.mb + 3) ≤ m) →
    (if s then (m : ℝ) * 2 ^ e < v ∧ v < (m + 1) * 2 ^ e else v = m * 2 ^ e) →
    Rounded f mode (if neg then -v else v) (f.roundFin mode neg m e s)

/-- R281, R285: of finite operands the sum, difference, product, fused product and sum, quotient, square root,
reciprocal and reciprocal square root are the exact value rounded once. -/
def Obligations.ArithmeticRoundsOnce : Prop :=
  ∀ f ∈ formats, ∀ (mode : Rnd) (a b c : Nat),
    (∃ n m e, f.unpack a = .fin n m e) → (∃ n m e, f.unpack b = .fin n m e) → (∃ n m e, f.unpack c = .fin n m e) →
    let x : ℝ := (f.unpack a).val
    let y : ℝ := (f.unpack b).val
    let z : ℝ := (f.unpack c).val
    (x + y ≠ 0 → Rounded f mode (x + y) (f.add mode a b))
    ∧ (x - y ≠ 0 → Rounded f mode (x - y) (f.sub mode a b))
    ∧ (x * y ≠ 0 → Rounded f mode (x * y) (f.mul mode a b))
    ∧ (x * y + z ≠ 0 → Rounded f mode (x * y + z) (f.fma mode a b c))
    ∧ (x ≠ 0 → y ≠ 0 → Rounded f mode (x / y) (f.div mode a b))
    ∧ (0 < x → Rounded f mode (Real.sqrt x) (f.sqrt mode a))
    ∧ (x ≠ 0 → Rounded f .rne (1 / x) (f.fn .rcp a))
    ∧ (0 < x → Rounded f .rne (1 / Real.sqrt x) (f.fn .rsq a))

/-- R282: FMIN and FMAX return one of their operands, or the canonical NaN, and FABS its operand without the sign
bit. -/
def Obligations.MinMaxAbs : Prop :=
  ∀ (s : State) (i : Instr) (x : Iss) (d : Opnd) (t : Ty),
    i.wf = true → Ready s i x → x.quiet → minMaxDest i = some (d, t) →
    InOrder s i x d t.regs fun l ws fl => Machine.MinMaxAbs x l ws fl i

/-- R283: FCMP. -/
def Obligations.FloatCompare : Prop :=
  ∀ (s : State) (x : Iss) (c : Ctl) (k : Cond) (t : Ty) (d a b : Opnd),
    (Instr.fcmp c k t d a b).wf = true → Ready s (.fcmp c k t d a b) x → x.quiet →
    InOrderPred s (.fcmp c k t d a b) x d fun l p fl =>
      let u := t.fmt.unpack (x.float t 1 a l)
      let v := t.fmt.unpack (x.float t 2 b l)
      fl = signals [u, v] ∧ (p = true ↔ FloatCond k u v)

/-- R284: FCLASS sets exactly one bit. -/
def Obligations.FloatClass : Prop :=
  ∀ (s : State) (x : Iss) (c : Ctl) (t : Ty) (d a : Opnd),
    (Instr.fclass c t d a).wf = true → Ready s (.fclass c t d a) x → x.quiet →
    InOrder s (.fclass c t d a) x d 1 fun l ws fl =>
      fl = 0 ∧ ws = [BitVec.ofNat 32 (2 ^ classBit t.fmt (t.fmt.unpack (x.float t 1 a l)))]

/-- R287 to R289: a conversion of which no lane is listed completes in order; FRND rounds to an integral value. -/
def Obligations.Conversions : Prop :=
  ∀ (s : State) (i : Instr) (x : Iss) (d : Opnd) (n : Nat),
    i.wf = true → Ready s i x → x.quiet → convertDest i = some (d, n) → Unlisted x i →
    InOrder s i x d n fun l ws fl => ConvertResult x l ws fl i

/-- R291: PAND, POR, PXOR, and PMOV by the classes of its operands. -/
def Obligations.PredicateMoves : Prop :=
  (∀ (s : State) (i : Instr) (x : Iss) (d : Opnd), i.wf = true → Ready s i x → x.quiet →
    ((∃ c a b, i = .pand c d a b ∨ i = .por c d a b ∨ i = .pxor c d a b) ∨ d.isP = true ∧ ∃ c a, i = .pmov c d a) →
    InOrderPred s i x d fun l b fl => PredResult x l b fl i)
  ∧ ∀ (s : State) (x : Iss) (c : Ctl) (d a : Opnd), (Instr.pmov c d a).wf = true → d.isS 1 = true →
    Ready s (.pmov c d a) x → x.quiet →
    InOrder s (.pmov c d a) x d 1 fun _ ws fl => fl = 0 ∧ ∃ w : Word, ws = [w] ∧ ∀ k < 32, w.getLsbD k =
      if a.isP then x.x.getLsbD k && (x.pmask a).getLsbD k else (x.int .b32 1 a 0).testBit k

/-- R292: the shuffles. -/
def Obligations.Shuffles : Prop :=
  ∀ (s : State) (i : Instr) (x : Iss) (w : SegW) (t : Ty) (d a b : Opnd),
    i.wf = true → Ready s i x → x.quiet → shuffle i = some (w, t, d, a, b) →
    InOrder s i x d t.regs fun l ws fl =>
      fl = 0 ∧ ws = regWords t (x.int t 1 a (l - l % (SegW.width w) + shuffleFrom (SegW.width w) (l % (SegW.width w)) (x.cnt 2 b l) i))

/-- R293: VOTEALL, VOTEANY and BALLOT. -/
def Obligations.Votes : Prop :=
  ∀ (s : State) (i : Instr) (x : Iss) (c : Ctl) (d a : Opnd), i.wf = true → Ready s i x → x.quiet →
    ((i = .voteall c d a ∨ i = .voteany c d a) → d.isP = true →
      InOrderPred s i x d fun _ b fl => fl = 0 ∧ b = voteOf x a i)
    ∧ ((i = .voteall c d a ∨ i = .voteany c d a) → d.isS 1 = true →
      InOrder s i x d 1 fun _ ws fl => fl = 0 ∧ ws = [if voteOf x a i then 1 else 0])
    ∧ (i = .ballot c d a → InOrder s i x d 1 fun _ ws fl => fl = 0 ∧ ∃ w : Word, ws = [w] ∧
        ∀ k < 32, w.getLsbD k = (x.x.getLsbD k && (x.pmask a).getLsbD k))

/-- R294: the reductions. -/
def Obligations.Reductions : Prop :=
  ∀ (s : State) (i : Instr) (x : Iss) (d : Opnd) (n : Nat),
    i.wf = true → Ready s i x → x.quiet → reduceDest i = some (d, n) →
    InOrder s i x d n fun _ ws fl => ReduceResult x ws fl i

/-- R295, R296: SCANADD and MATCH. -/
def Obligations.ScanAndMatch : Prop :=
  (∀ (s : State) (x : Iss) (c : Ctl) (excl : Bool) (t : Ty) (d a : Opnd), (Instr.scanadd c excl t d a).wf = true →
    Ready s (.scanadd c excl t d a) x → x.quiet →
    InOrder s (.scanadd c excl t d a) x d t.regs (ScanResult x excl t d a))
  ∧ ∀ (s : State) (x : Iss) (c : Ctl) (t : Ty) (d a : Opnd), (Instr.matchLanes c t d a).wf = true →
    Ready s (.matchLanes c t d a) x → x.quiet →
    InOrder s (.matchLanes c t d a) x d 1 fun l ws fl => fl = 0 ∧ ∃ w : Word, ws = [w] ∧ ∀ k < 32,
      w.getLsbD k = (x.x.getLsbD k && x.int t 1 a k == x.int t 1 a l)


/-- R268, R269: BRA, JMP, CALL, CALLR and RET go to their target where the guard passes, with an empty fetch buffer,
and CALL and CALLR write the address behind them; where it does not, they go on behind themselves. -/
def Obligations.Transfers : Prop :=
  ∀ (s : State) (i : Instr) (x : Iss) (target : Nat), i.wf = true → Ready s i x → transferTarget x i = some target →
    (x.ap = false → s.tracing x.w.ctx = false) →
    ∃ gr, exec i s = .next (s.setGroup x.h x.g gr) ∧ gr.sr = x.gr.sr ∧ x.Frame i gr (linkPair i) 2 ∧
      (x.x = x.m → x.standsAt gr target ∧ x.ahead gr = [] ∧ ∀ e m n, linkPair i = .s e m n →
        gr.sword x.ap n.toNat = BitVec.ofNat 32 (x.pc + 12)
        ∧ gr.sword x.ap (n.toNat + 1) = BitVec.ofNat 32 ((x.pc + 12) % 2 ^ 64 / 2 ^ 32))
      ∧ (x.x ≠ x.m → x.behind gr ∧ ∀ k, gr.sword x.ap k = x.gr.sword x.ap k)

/-- R177, R180, R270: BRX. With every lane taken it is a transfer, with none it goes on; otherwise the lanes that are
taken stand in a DIV entry of the stack, or, with the SPLIT hint and a free table entry, in a path of their own, which
comes after what its origin has issued (R151). A full hardware stack spills; a stack of 1024 entries raises
STACK_DEPTH. -/
def Obligations.DivergentBranch : Prop :=
  ∀ (s : State) (x : Iss) (c : Ctl) (tok : BitVec 6) (t : Target),
    let i := Instr.brx c tok t
    let q := x.gr.path x.p
    Ready s i x → (x.ap = false → s.tracing x.w.ctx = false) →
    (x.x = x.m → ∃ gr, exec i s = .next (s.setGroup x.h x.g gr) ∧ gr.sr = x.gr.sr ∧ x.Frame i gr .none 0
      ∧ x.standsAt gr (branchTo x.pc t) ∧ x.ahead gr = [])
    ∧ (x.x ≠ x.m → x.x = 0 → ∃ gr, exec i s = .next (s.setGroup x.h x.g gr) ∧ gr.sr = x.gr.sr ∧ x.Frame i gr .none 0
      ∧ x.behind gr)
    ∧ (x.ap = false → x.x ≠ x.m → x.x ≠ 0 →
      (1024 ≤ q.stack.length + q.spilled →
        exec i s = .next (x.raiseIn s { cls := .group, cause := .stackDepth, p31 := x.m }))
      ∧ (q.stack.length + q.spilled < 1024 → ∀ s1 gr1 below, Pushed s x s1 gr1 below →
        let spilled := if q.stack.length < 32 then q.spilled else q.spilled + 8
        ((c.hint.split = false ∨ (∀ j < 4, (x.gr.path j).st ≠ .free)) → ∃ gr,
          exec i s = .next (s1.setGroup x.h x.g gr) ∧ ({ x with gr := gr1 } : Iss).OnlyPaths gr [x.p]
          ∧ x.standsAt gr ((x.pc + 12) % 2 ^ 64) ∧ (gr.path x.p).mask = x.m &&& ~~~x.x ∧ (gr.path x.p).spilled = spilled
          ∧ (gr.path x.p).stack = .div tok.toNat x.m x.x (branchTo x.pc t % 2 ^ 55 / 4 * 4) :: below)
        ∧ ∀ j < 4, c.hint.split = true → (x.gr.path j).st = .free → (∀ k < j, (x.gr.path k).st ≠ .free) →
          j < x.gr.paths.length → ∃ gr,
          exec i s = .next (s1.setGroup x.h x.g gr) ∧ ({ x with gr := gr1.fork x.p j } : Iss).OnlyPaths gr [x.p, j]
          ∧ (∀ o ∈ gr.ops, x.p ∈ o.paths → j ∈ o.paths)
          ∧ x.standsAt gr ((x.pc + 12) % 2 ^ 64) ∧ (gr.path x.p).mask = x.m &&& ~~~x.x ∧ (gr.path x.p).spilled = spilled
          ∧ (gr.path x.p).stack = .split tok.toNat j :: below
          ∧ (gr.path j).st = .ready ∧ (gr.path j).pc = branchTo x.pc t ∧ (gr.path j).mask = x.x
          ∧ (gr.path j).token = some tok.toNat ∧ (gr.path j).origin = x.p ∧ (gr.path j).stack = []
          ∧ (gr.path j).spilled = 0))

/-- R178, R271: RECONV, by the top of the path's stack: it goes on, starts the other side of a division, ends the
division, merges its partner, or waits in JOIN for it or for its origin; a partner that waits elsewhere raises
JOIN_MISMATCH. A pop that leaves the hardware stack empty over spilled entries fills it (R180). A waiting origin is taken
up again once its partner has come or gone: with lanes at its RECONV, and without with those of its partner or by the
loop of R179. -/
def Obligations.Reconvergence : Prop :=
  (∀ (s : State) (x : Iss) (c : Ctl) (tok : BitVec 6),
    let i := Instr.reconv c tok
    let q := x.gr.path x.p
    let k := tok.toNat
    let next := (x.pc + 12) % 2 ^ 64
    Ready s i x → s.tracing x.w.ctx = false →
    -- no entry with the token: the path goes on
    ((q.stack = [] ∧ q.spilled = 0 ∧ q.token ≠ some k ∨ (∃ t m pm pc r, q.stack = .div t m pm pc :: r ∧ t ≠ k)
        ∨ ∃ t j r, q.stack = .split t j :: r ∧ t ≠ k) →
      ∃ gr, exec i s = .next (s.setGroup x.h x.g gr) ∧ x.behind gr ∧ gr.sr = x.gr.sr ∧ x.Frame i gr .none 0)
    -- the other side starts
    ∧ (∀ m pm pc r, q.stack = .div k m pm pc :: r → pm ≠ 0 → ∃ gr, exec i s = .next (s.setGroup x.h x.g gr)
      ∧ x.OnlyPaths gr [x.p] ∧ x.standsAt gr pc ∧ (gr.path x.p).mask = pm
      ∧ (gr.path x.p).stack = .div k m 0 (x.pc % 2 ^ 55 / 4 * 4) :: r)
    -- both sides are done
    ∧ (∀ m pc r, q.stack = .div k m 0 pc :: r → ∀ s1 st n, Popped s x r s1 st n → ∃ gr,
      exec i s = .next (s1.setGroup x.h x.g gr) ∧ x.OnlyPaths gr [x.p] ∧ x.standsAt gr next ∧ (gr.path x.p).mask = m
      ∧ (gr.path x.p).stack = st ∧ (gr.path x.p).spilled = n)
    -- a partner
    ∧ (∀ j r, q.stack = .split k j :: r → j ≠ x.p →
      let o := x.gr.path j
      let waits := o.st = .join ∧ o.token = some k ∧ o.stack = [] ∧ o.spilled = 0
      (o.st = .free → ∀ s1 st n, Popped s x r s1 st n → ∃ gr, exec i s = .next (s1.setGroup x.h x.g gr)
        ∧ x.OnlyPaths gr [x.p] ∧ x.standsAt gr next ∧ (gr.path x.p).mask = x.m ∧ (gr.path x.p).stack = st
        ∧ (gr.path x.p).spilled = n)
      ∧ (waits → o.pc = x.pc → ∀ s1 st n, Popped s x r s1 st n → ∃ gr, exec i s = .next (s1.setGroup x.h x.g gr)
        ∧ ({ x with gr := x.gr.join x.p j } : Iss).OnlyPaths gr [x.p, j] ∧ (∀ o ∈ gr.ops, j ∈ o.paths → x.p ∈ o.paths)
        ∧ x.standsAt gr next ∧ (gr.path x.p).mask = x.m ||| o.mask ∧ (gr.path x.p).stack = st
        ∧ (gr.path x.p).spilled = n ∧ (gr.path j).st = .free)
      ∧ (waits → o.pc ≠ x.pc → exec i s = .next (x.raiseIn s { cls := .group, cause := .joinMismatch, p31 := x.m })))
    -- the path waits for its partner, or for its origin
    ∧ (((∃ j r, q.stack = .split k j :: r ∧ (x.gr.path j).st ≠ .free ∧ (x.gr.path j).joinsFor k = false)
        ∨ (q.stack = [] ∧ q.spilled = 0 ∧ q.token = some k)) → ∃ gr bars,
      exec i s = .next { s.setGroup x.h x.g gr.wake with bars := bars } ∧ x.OnlyPaths gr [x.p]
      ∧ (gr.path x.p).st = .join ∧ (gr.path x.p).pc = x.pc ∧ (gr.path x.p).mask = x.m ∧ (gr.path x.p).stack = q.stack)
    -- spilled entries under an empty stack come back first; an entry that is none raises STACK_DEPTH
    ∧ (q.stack = [] → q.spilled ≠ 0 → ∀ s1 st n, Filled s x s1 st n → ∃ gr,
      exec i s = .next (s1.setGroup x.h x.g gr) ∧ x.OnlyPaths gr [x.p] ∧ (gr.path x.p).pc = x.pc
      ∧ (gr.path x.p).mask = x.m ∧ (gr.path x.p).stack = st ∧ (gr.path x.p).spilled = n)
    ∧ ∀ r, q.stack = .bad :: r → exec i s = .next (x.raiseIn s { cls := .group, cause := .stackDepth, p31 := x.m }))
  -- waiting origins
  ∧ ∀ gr : Group, ((∀ o, gr.calm o) → gr.wake = gr)
    ∧ ∀ (o k j : Nat) (r : List StackEnt), o < 4 → (gr.path o).st = .join → (gr.path o).stack = .split k j :: r →
      (∀ u, u ≠ o → gr.calm u) →
      let p := gr.path o
      let q := gr.path j
      let elsewhere := ∀ u, u ≠ o → u ≠ j → gr.wake.path u = gr.path u
      (p.mask ≠ 0 → (q.st = .free ∨ q.joinsFor k = true) → gr.wake = gr.setPath o { p with st := .ready })
      ∧ (p.mask = 0 → q.joinsFor k = true → (∀ u t w, u ≠ o → (gr.path u).st = .join → (gr.path u).stack ≠ .split t j :: w) →
        gr.wake = { gr.join o j with paths := gr.wake.paths } ∧ elsewhere ∧ (gr.wake.path o).st = .ready
        ∧ (gr.wake.path o).pc = (q.pc + 12) % 2 ^ 64 ∧ (gr.wake.path o).mask = q.mask ∧ (gr.wake.path o).stack = r
        ∧ (gr.wake.path j).st = .free)
      ∧ (p.mask = 0 → q.st = .free → ∀ m pc st, Unwinds gr.isFree (p.spilled != 0) r (.run m pc st) →
        gr.wake = { gr with paths := gr.wake.paths } ∧ elsewhere ∧ (gr.wake.path o).st = .ready
        ∧ (gr.wake.path o).pc = pc ∧ (gr.wake.path o).mask = m ∧ (gr.wake.path o).stack = st)

/-- R169, R179, R180, R272: EXIT removes the lanes whose guard passes from its path and from the division entries of its
stack and of its origins' stacks. A path that keeps lanes goes on; one that has none left takes up the pending side or
the rest of a division, waits for a partner, or is FREE, which takes up an origin that waits for it; where it was the
last of its group, the group ends and leaves its cluster, once the waits of R169 hold. An entry that is none raises
STACK_DEPTH. The access processor stops. -/
def Obligations.Exits : Prop :=
  ∀ (s : State) (x : Iss) (c : Ctl),
    let i := Instr.exit c
    Ready s i x →
    (x.x = 0 → (x.ap = true ∨ x.m ≠ 0) → ∃ gr, exec i s = .next (s.setGroup x.h x.g gr) ∧ x.behind gr
      ∧ gr.sr = x.gr.sr ∧ x.Frame i gr .none 0)
    ∧ (x.ap = true → x.x ≠ 0 → ∃ gr, exec i s = .next (s.setGroup x.h x.g gr) ∧ gr.ap.st = .exited
      ∧ gr = { x.gr with ap := gr.ap })
    ∧ (x.ap = false → (x.m = 0 ∨ x.x ≠ 0) →
      -- every other path keeps its place, and the lanes are gone from the entries
      let left := fun (gr : Group) => gr = { x.gr with paths := gr.paths } ∧ ∀ p, p ≠ x.p →
        (gr.path p).mask = (x.gr.path p).mask ∧ (gr.path p).st = (x.gr.path p).st ∧ (gr.path p).pc = (x.gr.path p).pc
        ∧ (gr.path p).stack = stackAfterExit x.gr x.p p x.x ∧ (gr.path p).gone = goneAfterExit x.gr x.p p x.x
      (x.m &&& ~~~x.x ≠ 0 → ∃ gr, exec i s = .next (s.setGroup x.h x.g gr) ∧ left gr
        ∧ x.standsAt gr ((x.pc + 12) % 2 ^ 64) ∧ (gr.path x.p).mask = x.m &&& ~~~x.x
        ∧ (gr.path x.p).stack = stackAfterExit x.gr x.p x.p x.x)
      ∧ (x.m &&& ~~~x.x = 0 → ∀ u n s1, LoopEnds s x u n s1 →
        (u = .bad → exec i s = .next (x.raiseIn s { cls := .group, cause := .stackDepth, p31 := x.m }))
        ∧ (∀ m pc st, u = .run m pc st → ∃ gr bars, exec i s = .next { s1.setGroup x.h x.g gr.wake with bars := bars }
          ∧ left gr ∧ x.standsAt gr pc ∧ (gr.path x.p).mask = m ∧ (gr.path x.p).stack = st ∧ (gr.path x.p).spilled = n)
        ∧ (∀ st, u = .join st → ∃ gr bars, exec i s = .next { s1.setGroup x.h x.g gr.wake with bars := bars }
          ∧ left gr ∧ (gr.path x.p).st = .join ∧ (gr.path x.p).mask = 0 ∧ (gr.path x.p).stack = st
          ∧ (gr.path x.p).spilled = n)
        ∧ (u = .free → ∃ gr : Group, left gr ∧ (gr.path x.p).st = .free ∧
          ((∃ p < gr.paths.length, (gr.wake.path p).st ≠ .free) → ∃ bars,
            exec i s = .next { s1.setGroup x.h x.g gr.wake with bars := bars })
          ∧ ((∀ p, (gr.wake.path p).st = .free) → x.gr.fenced x.p x.fenceLimit x.w.exitScope s.tick = true →
            (∀ n ∈ x.gr.ctrs, n = 0) → ∀ here, x.w.onCore x.gr.core = some here →
            let t := s1.setGroup x.h x.g { gr.wake with joined := false, ended := true }
            let fewer := t.modWg x.h (·.modCore x.gr.core fun c => { c with joins := c.joins - 1 })
            ∃ bars, exec i s = .next { (if x.gr.joined = false then t
              else if here.joins ≤ 1 then fewer.modWg x.h (·.startLeave x.gr.core none) else fewer) with bars := bars }))))

/-- R258, R267: NOP and the words of the hint region change nothing but the PC. R155, R311, R314: FENCE goes on behind
itself once its scope's waits and the counters of its classes hold; WAITC once its counter is at most the count. -/
def Obligations.FenceAndWait : Prop :=
  (∀ (s : State) (i : Instr) (x : Iss), ((∃ c, i = .nop c) ∨ ∃ w, i = .hintRegionWord w) → Ready s i x →
    ∃ gr, exec i s = .next (s.setGroup x.h x.g gr) ∧ x.behind gr ∧ gr.sr = x.gr.sr ∧ x.Frame i gr .none 0)
  ∧ (∀ (s : State) (x : Iss) (c : Ctl) (sc : ScopeSel) (k : BitVec 4), Ready s (.fence c sc k) x →
    x.gr.fenced x.p x.fenceLimit (scopeSel x.w sc) s.tick = true →
    (∀ j : CtrClass, k.getLsbD j.num = true → x.gr.counter j = 0) →
    ∃ gr, exec (.fence c sc k) s = .next (s.setGroup x.h x.g gr) ∧ x.behind gr ∧ gr.sr = x.gr.sr
      ∧ x.Frame (.fence c sc k) gr .none 0)
  ∧ ∀ (s : State) (x : Iss) (c : Ctl) (k : CtrClass) (b : Opnd), Ready s (.waitc c k b) x →
    (x.gr.counter k ≤ x.word 2 b → x.gr.counter k ≤ 255 →
      ∃ gr, exec (.waitc c k b) s = .next (s.setGroup x.h x.g gr) ∧ x.behind gr ∧ gr.sr = x.gr.sr
        ∧ x.Frame (.waitc c k b) gr .none 0)
    ∧ (x.word 2 b < x.gr.counter k → exec (.waitc c k b) s = .next (x.waitIn (.waitc c k b) .fence s))

/-- R368: TRAP, SVC and BKPT enter the handler behind themselves with their code; P31 is the active lanes for TRAP and
the path's lanes for the others. -/
def Obligations.SoftwareTraps : Prop :=
  ∀ (s : State) (i : Instr) (x : Iss) (c : Ctl) (b : Opnd), Ready s i x →
    (i = .trap c b →
      exec i s = .next (x.raiseIn s { cls := .after, cause := .trap, info := x.word 2 b % 2 ^ 16, p31 := x.x }))
    ∧ (i = .svc c b →
      exec i s = .next (x.raiseIn s { cls := .after, cause := .svc, info := x.word 2 b % 2 ^ 16, p31 := x.m }))
    ∧ (i = .bkpt c b → s.holding x.w.ctx = false →
      exec i s = .next (x.raiseIn s { cls := .after, cause := .bkpt, info := x.word 2 b % 2 ^ 16, p31 := x.m }))

/-- R375, R376, R378: a cause that a group outside its handler raises with a handler set: its path stands at the
handler, the special registers hold the cause, P31 the lanes, and nothing else changes. -/
def Obligations.ExceptionEntry : Prop :=
  ∀ (s : State) (h g p : Nat) (r : Raise) (ap : Bool) (gr : Group), s.group? h g = some gr → p < gr.paths.length →
    gr.sup = false → gr.sr.tvec.toNat % 2 ^ 55 / 4 ≠ 0 →
    ∃ gr', s.raise h g p r ap = s.setGroup h g gr' ∧ Saved gr gr' p r ap
      ∧ gr' = { gr with sr := gr'.sr, preds := gr'.preds, paths := gr'.paths }
      ∧ gr'.pred 31 = r.p31 ∧ (∀ k, k ≠ 31 → gr'.pred k = gr.pred k)
      ∧ (∀ k, k ≠ p → gr'.path k = gr.path k)
      ∧ (gr'.path p).pc = gr.sr.tvec.toNat % 2 ^ 55 / 4 * 4 ∧ (gr'.path p).st = .ready ∧ (gr'.path p).fbuf = []
      ∧ (gr'.path p).mask = (gr.path p).mask ∧ (gr'.path p).stack = (gr.path p).stack ∧ gr'.sup = true

/-- R378, R380: a cause raised inside the handler, or without a handler, kills the workgroup. -/
def Obligations.KillInsteadOfEntry : Prop :=
  ∀ (s : State) (h g p : Nat) (r : Raise) (ap : Bool) (w : Workgroup) (gr : Group), s.wg? h = some w →
    w.group? g = some gr → (gr.sup = true ∨ gr.sr.tvec.toNat % 2 ^ 55 / 4 = 0) →
    ∃ w', (s.raise h g p r ap).wg? h = some w' ∧ w'.kill.isSome = true ∧ (w.kill = none → w'.kill = some r.cause.code)
      ∧ w'.claims = []

/-- R369: ERET and ERET.RETRY leave the handler: SUP is cleared, the path takes the saved PC and mask, and a stopped
access processor runs again; under .RETRY the next instruction is limited to the lanes of P31. Outside a handler they
raise SR_ACCESS. -/
def Obligations.HandlerReturn : Prop :=
  ∀ (s : State) (i : Instr) (x : Iss) (c : Ctl) (retry : Bool), i = (if retry then .eretRetry c else .eret c) →
    Ready s i x → s.tracing x.w.ctx = false →
    (x.gr.sup = false → exec i s = .next (x.raiseIn s { cls := .group, cause := .srAccess, info := 0x034, p31 := x.m }))
    ∧ (x.gr.sup = true → ∃ gr, exec i s = .next (s.setGroup x.h x.g gr) ∧ gr.sup = false
      ∧ gr = { x.gr with sr := gr.sr, ap := gr.ap, paths := gr.paths }
      ∧ gr.sr = { x.gr.sr with estat := gr.sr.estat } ∧ (∀ k < 32, k ≠ 0 → gr.sr.estat.getLsbD k = x.gr.sr.estat.getLsbD k)
      ∧ gr.ap = { x.gr.ap with st := if x.gr.ap.st = .stopped then .running else x.gr.ap.st }
      ∧ (∀ p, p ≠ x.p → gr.path p = x.gr.path p)
      ∧ x.standsAt gr (x.gr.sr.epc.toNat % 2 ^ 55 / 4 * 4) ∧ (gr.path x.p).mask = x.gr.sr.emask
      ∧ (gr.path x.p).fbuf = [] ∧ (gr.path x.p).retry = (if retry then some (x.gr.pred 31) else none)
      ∧ (gr.path x.p).stack = (x.gr.path x.p).stack)

/-- R370: GETSR writes the value of its register, two words for one of 64 bits, in every lane of the path's mask, or to
S registers. Only context 0 reads sr.CTXBASE. -/
def Obligations.ReadSpecial : Prop :=
  ∀ (s : State) (x : Iss) (c : Ctl) (d b : Opnd) (n : Nat), (Instr.getsr c d b).wf = true →
    Ready s (.getsr c d b) x → srNumber b = some n →
    (n = 0x040 → x.w.ctx ≠ 0 →
      exec (.getsr c d b) s = .next (x.raiseIn s { cls := .group, cause := .srAccess, info := n, p31 := x.m }))
    ∧ ((n = 0x040 → x.w.ctx = 0) → ∃ gr words, exec (.getsr c d b) s = .next (s.setGroup x.h x.g gr) ∧ x.behind gr
      ∧ srWidth n = some (32 * words) ∧ gr.sr = x.gr.sr ∧ x.Frame (.getsr c d b) gr d words
      ∧ (d.isS 1 = true → ∀ j < words, gr.sword false (d.idx + j) = BitVec.ofNat 32 (s.srValue x.w x.gr n 0 / 2 ^ (32 * j)))
      ∧ (d.isV 1 = true → ∀ j < words, ∀ l < 32, gr.vword (d.idx + j) l =
        if x.m.getLsbD l then BitVec.ofNat 32 (s.srValue x.w x.gr n l / 2 ^ (32 * j)) else x.gr.vword (d.idx + j) l))

/-- R371, R373: SETSR writes the writable bits of its register where its class allows the issuer to: a register of the
group; in a handler also the exception registers and sr.PNQUOTA; and in a handler of context 0 on a control core
sr.CTXBASE, which empties every translation cache and L1. Flags of sr.XFLAGS that its source has set are cleared in the
path's lanes. Otherwise it raises SR_ACCESS. No other register changes. -/
def Obligations.WriteSpecial : Prop :=
  ∀ (s : State) (x : Iss) (c : Ctl) (n : BitVec 13) (b : Opnd), (Instr.setsr c n b).wf = true →
    Ready s (.setsr c n b) x →
    let i := Instr.setsr c n b
    let k := n.toNat
    let handler := x.gr.sup = true
    let owner := x.gr.sup = true ∧ x.w.ctx = 0 ∧ 1024 ≤ x.gr.core
    let on := fun (gr : Group) => x.behind gr ∧ ∀ p, p ≠ x.p → gr.path p = x.gr.path p
    (∀ mask, (k, mask) ∈ groupWritable ∨ (k, mask) ∈ handlerWritable ∧ handler → ∃ gr v,
      exec i s = .next (s.setGroup x.h x.g gr) ∧ on gr ∧ gr = { x.gr with sr := gr.sr, paths := gr.paths }
      ∧ Written mask (s.srValue x.w x.gr k 0) (x.srSource k b) v ∧ s.srValue x.w gr k 0 = v
      ∧ ∀ m l, m ≠ k → s.srValue x.w gr m l = s.srValue x.w x.gr m l)
    ∧ (k = 0x016 → ∃ gr, exec i s = .next (s.setGroup x.h x.g gr) ∧ on gr
      ∧ gr = { x.gr with sr := { x.gr.sr with xflags := gr.sr.xflags }, paths := gr.paths }
      ∧ ∀ l < 32, gr.flagsOf l = if x.m.getLsbD l
        then x.gr.flagsOf l &&& ~~~(match b with
          | .v .. => BitVec.ofNat 32 (x.int .u32 2 b l)
          | b => BitVec.ofNat 32 (x.srSource 0x016 b))
        else x.gr.flagsOf l)
    ∧ (k = 0x020 → handler → ∃ gr t v, exec i s = .next t ∧ t = { s.setGroup x.h x.g gr with pnquota := t.pnquota }
      ∧ on gr ∧ gr = { x.gr with paths := gr.paths }
      ∧ Written 0x1FFFF (s.pnQuota x.w.ctx) (x.srSource k b) v ∧ t.pnQuota x.w.ctx = v
      ∧ ∀ ctx, ctx ≠ x.w.ctx → t.pnQuota ctx = s.pnQuota ctx)
    ∧ (k = 0x040 → owner → ∃ gr t v, exec i s = .next t
      ∧ t = { s.forgetTranslations.setGroup x.h x.g gr with ctxbase := BitVec.ofNat 64 v } ∧ on gr
      ∧ gr = { x.gr with paths := gr.paths }
      ∧ (∀ c, (t.core c).l1d = [] ∧ (t.core c).l1i = []) ∧ (∀ q, (t.quad q).tc = [] ∧ (t.quad q).wc = [] ∧ (t.quad q).desc = [])
      ∧ Written 0xFFFFFFFFF0000 s.ctxbase.toNat (x.srSource k b) v)
    ∧ ((∀ mask, (k, mask) ∉ groupWritable) → k ≠ 0x016 → ((∃ mask, (k, mask) ∈ handlerWritable) ∨ k = 0x020 → ¬handler) →
      (k = 0x040 → ¬owner) → exec i s = .next (x.raiseIn s { cls := .group, cause := .srAccess, info := k, p31 := x.m }))

/-- R190, R191: RGIVE takes registers from the group's holding, which its floor and what is in use limit, and RCLAIM
enters a claim and waits for its grant, within the ceiling; outside those limits they raise POOL_RANGE, and a claim
of another path that is pending CLAIM_PENDING; a path that has been restored at its RCLAIM waits on for its own claim. -/
def Obligations.RegisterPools : Prop :=
  ∀ (s : State) (x : Iss) (c : Ctl) (pool : Pool) (b : Opnd), b.isS 1 = true ∨ b.isImm = true ∨ b.isImm32 = true →
    let k := x.word 2 b
    let lim := x.w.limits x.gr.gid
    let low := max (lim.floor pool) (if pool = .m then x.gr.occupancy else 0)
    (Ready s (.rgive c pool b) x →
      (k ≠ 0 → x.gr.holding pool < low + k → exec (.rgive c pool b) s =
        .next (x.raiseIn s { cls := .group, cause := .poolRange, p31 := x.m }))
      ∧ (k = 0 ∨ low + k ≤ x.gr.holding pool → ∃ gr, exec (.rgive c pool b) s = .next (s.setGroup x.h x.g gr)
        ∧ x.behind gr ∧ gr.holding pool = x.gr.holding pool - k
        ∧ (∀ other, other ≠ pool → gr.holding other = x.gr.holding other)
        ∧ gr = { x.gr with paths := gr.paths, vhold := gr.vhold, mhold := gr.mhold, given := gr.given }))
    ∧ (Ready s (.rclaim c pool b) x →
      let own := (s.core x.gr.core).claims.any fun c => c.wg == x.h && c.g == x.g && !c.floor && c.path == x.p
      let pending := (s.core x.gr.core).claims.any fun c => c.wg == x.h && c.g == x.g && !c.floor
      (own = true → exec (.rclaim c pool b) s = .next (x.waitIn (.rclaim c pool b) .claim s))
      ∧ (pending = true → own = false → exec (.rclaim c pool b) s =
        .next (x.raiseIn s { cls := .group, cause := .claimPending, p31 := x.m }))
      ∧ (pending = false → lim.ceil pool < x.gr.holding pool + k → exec (.rclaim c pool b) s =
        .next (x.raiseIn s { cls := .group, cause := .poolRange, p31 := x.m }))
      ∧ (pending = false → x.gr.holding pool + k ≤ lim.ceil pool → k = 0 → ∃ gr,
        exec (.rclaim c pool b) s = .next (s.setGroup x.h x.g gr) ∧ x.behind gr ∧ x.Frame (.rclaim c pool b) gr .none 0)
      ∧ (pending = false → x.gr.holding pool + k ≤ lim.ceil pool → k ≠ 0 → ∃ gr t,
        exec (.rclaim c pool b) s = .next t ∧ x.OnlyPaths gr [x.p] ∧ (gr.path x.p).st = .blocked
        ∧ (gr.path x.p).wait = some .claim ∧ (gr.path x.p).pc = x.pc
        ∧ t = { s.setGroup x.h x.g gr with cores := t.cores }
        ∧ (∀ n, n ≠ x.gr.core → t.core n = s.core n)
        ∧ t.core x.gr.core = { s.core x.gr.core with claims := (s.core x.gr.core).claims ++
            [{ shadow := x.w.shadow, quarter := x.gr.quarter, pool := pool, wg := x.h, g := x.g, path := x.p, k := k,
               floor := false }] }))

namespace Sys2Proof.Machine

/-! ### Sample records and memory instructions -/

/-- A 32-byte record of the issuer goes to the group's sample buffer and leaves state `t` and group `gr` (R372): it is
stored at sr.SMPBASE, which goes on 32 bytes, and its time is held for every scope; or, where the buffer has no room or
the store faults, it is dropped and counted, saturating, and sr.SMPBASE goes on only where the fault was met after the
translation. -/
def SampleTaken (s : State) (x : Iss) (kind value : Nat) (t : State) (gr : Group) : Prop :=
  let base := x.gr.sr.smpbase.toNat
  let stored := s.vRecord x.h x.w x.gr base (sampleRecord s.tick x.pc kind x.p x.gr.gid x.w.handle x.m value)
  ((x.gr.sr.smplim.toNat < base + 32 ∧ gr.sr.smpbase = x.gr.sr.smpbase
      ∨ base + 32 ≤ x.gr.sr.smplim.toNat ∧ ∃ f, stored = .fault f ∧ gr.sr.smpbase =
        if f.cause = .homeLost ∧ (s.lookTrans x.gr.core x.w.ctx base).isSome = true then x.gr.sr.smpbase + 32
        else x.gr.sr.smpbase)
    ∧ t = s.setGroup x.h x.g gr
    ∧ gr = { x.gr with paths := gr.paths, sr := { x.gr.sr with smpdrop := gr.sr.smpdrop, smpbase := gr.sr.smpbase } }
    ∧ gr.sr.smpdrop.toNat = min (x.gr.sr.smpdrop.toNat + 1) 0xFFFFFFFF)
  ∨ (base + 32 ≤ x.gr.sr.smplim.toNat ∧ ∃ s1, stored = .ok s1 ∧ t = s1.setGroup x.h x.g gr
    ∧ gr = { x.gr with paths := gr.paths, sr := { x.gr.sr with smpbase := x.gr.sr.smpbase + 32 }, horizon := gr.horizon }
    ∧ ∀ sc, gr.horizonOf sc = max (x.gr.horizonOf sc) (upTick s1.cycle))

/-- The record can be taken at once: no page of its store is to be walked, and no line of it is busy. -/
def SampleReady (s : State) (x : Iss) (kind value : Nat) : Prop :=
  let base := x.gr.sr.smpbase.toNat
  let stored := s.vRecord x.h x.w x.gr base (sampleRecord s.tick x.pc kind x.p x.gr.gid x.w.handle x.m value)
  x.gr.sr.smplim.toNat < base + 32 ∨ (∃ f, stored = .fault f)
    ∨ ∃ s1, stored = .ok s1 ∧ s1.group? x.h x.g = some x.gr ∧ s1.wg? x.h = some x.w

/-- The address of a lane (R299, R300): a 64-bit pair, or 32 bits in a window, with a signed 32-bit offset, modulo
2^64. -/
def laneAddress (x : Iss) (w : Win) (a off : Opnd) (l : Nat) : Nat :=
  let base : Nat := match w with
    | .g => x.raw 1 a 2 l
    | .l => 0x7F_FC00_0000_0000 + x.raw 1 a 1 l
    | .c => 0x7F_FD00_0000_0000 + x.raw 1 a 1 l
    | .p => 0x7F_FE00_0000_0000 + x.raw 1 a 1 l
  (((base : Int) + (BitVec.ofNat 32 (x.int .s32 2 off l)).toInt) % 2 ^ 64).toNat

/-- What a load, store or atomic asks of each lane, its scope, and whether its path waits for it (R298, R300, R303,
R306, R308, Table 4.3). -/
def memoryRequest (x : Iss) : Instr → Option (MemReq × Scope × Bool)
  | .ld _ f => some (load f .none, .sys, false)
  | .ldWait _ f => some (load f .wait, .sys, true)
  | .ldTake _ f => some (load f .take, .sys, true)
  | .ldPeek _ f => some (load { f with off := .none } .peek, .sys, true)
  | .st _ f => some (store f .none, scopeSel x.w f.scope, false)
  | .stWait _ f => some (store f .wait, scopeSel x.w f.scope, true)
  | .stTake _ f => some (store f .take, scopeSel x.w f.scope, true)
  | .stPeek _ f => some (store { f with off := .none } .peek, scopeSel x.w f.scope, true)
  | .atom _ op w sc ord t _ a b =>
    some ({ n := t.bits / 8, kind := .both, qual := .none, expect := .none, atomic := true
            addr := laneAddress x w a .none
            what := fun l => .atom op t (x.atomArgs op t b l).1 (x.atomArgs op t b l).2 },
      scopeSel x.w sc, ord == .acq || ord == .ar)
  | _ => none
where
  load (f : LdForm) (q : Qual) : MemReq :=
    { n := if f.x4 then 16 else f.ty.bits / 8, kind := .read, qual := q, expect := f.expect, atomic := false
      addr := laneAddress x f.win f.a f.off, what := fun _ => .load }
  store (f : StForm) (q : Qual) : MemReq :=
    { n := if f.x4 then 16 else f.ty.bits / 8, kind := .write, qual := q, expect := f.expect, atomic := false
      addr := laneAddress x f.win f.a f.off, what := fun l => .store (x.storeBytes f l) }

/-- A store that is qualified follows the path's accesses of R161, and a releasing atomic the waits of a fence of its
scope (R156). -/
abbrev memoryOrdered (s : State) (x : Iss) : Instr → Prop
  | .stWait .. | .stTake .. | .stPeek .. => x.storesBefore = false
  | .atom _ _ _ sc ord .. => ord = .rel ∨ ord = .ar → x.gr.fenced x.p x.fenceLimit (scopeSel x.w sc) s.tick = true
  | _ => True

/-- An atomic of scope QUAD or wider performs at its home. -/
def atHome : Scope → Instr → Bool
  | sc, .atom .. => sc ∈ [Scope.quad, .die, .pkg, .pod, .sys]
  | _, _ => false

end Sys2Proof.Machine

/-- R372, R388, R389: SAMPLE appends a record of its value and goes on; BKPT, where breakpoints are enabled, appends one
with the address behind it and holds its path there; and in a traced context a transfer appends one with its target. -/
def Obligations.SampleRecords : Prop :=
  ∀ (s : State) (i : Instr) (x : Iss) (c : Ctl), i.wf = true → Ready s i x →
    (∀ a, i = .sample c a →
      let v := match a with
        | .imm v => v.toNat
        | o => x.word 1 o
      SampleReady s x 0 v → ∃ t gr, exec i s = .next t ∧ SampleTaken s x 0 v t gr ∧ x.behind gr
        ∧ ∀ p, p ≠ x.p → gr.path p = x.gr.path p)
    ∧ (∀ b, i = .bkpt c b → s.holding x.w.ctx = true →
      let v := 2 ^ 63 + (x.pc + 12) % 2 ^ 64 % 2 ^ 55 / 4
      SampleReady s x 2 v → ∃ t gr, exec i s = .next t ∧ SampleTaken s x 2 v t gr ∧ x.behind gr
        ∧ (gr.path x.p).hold = true ∧ ∀ p, p ≠ x.p → gr.path p = x.gr.path p)
    ∧ ∀ target, x.ap = false → s.tracing x.w.ctx = true → transferTarget x i = some target → linkPair i = .none →
      x.x = x.m → SampleReady s x 2 (target % 2 ^ 55 / 4) → ∃ t gr, exec i s = .next t
        ∧ SampleTaken s x 2 (target % 2 ^ 55 / 4) t gr ∧ x.standsAt gr target ∧ x.ahead gr = []
        ∧ ∀ p, p ≠ x.p → gr.path p = x.gr.path p

/-- R209, R257, R260, R377: a word that is no instruction raises ILLEGAL_OPC; one whose modifiers or operands its entry
does not accept raises ILLEGAL_MOD or ILLEGAL_OPD with the field. A lane-bound one without active lanes is passed
over. -/
def Obligations.IllegalWords : Prop :=
  ∀ (s : State) (y : Iss) (w : BitVec 96), s.issuer = .go y →
    let i := Instr.notAnInstruction w
    let raised := fun (c : Cause) (n : Nat) =>
      Host.Outcome.next (y.raiseIn s { cls := .group, cause := c, info := n, p31 := y.m })
    (badCause w = none ∨ badCause w = some .opc → exec i s = raised .illegalOpc 0)
    ∧ (rawLaneBound (Raw.ofWord w) = false ∨ y.guardWait i.ctl = none ∧ y.m &&& y.guardMask i.ctl ≠ 0 →
      (badCause w = some .mod → exec i s = raised .illegalMod 0)
      ∧ ∀ f, badCause w = some (.opd f) → exec i s = raised .illegalOpd f)
    ∧ (rawLaneBound (Raw.ofWord w) = true → y.guardWait i.ctl = none → y.m &&& y.guardMask i.ctl = 0 →
      badCause w ≠ none → badCause w ≠ some .opc → ∃ gr, exec i s = .next (s.setGroup y.h y.g gr) ∧ y.behind gr)

/-- R223: an instruction that raises an enabled flag writes its result and its flags, and then enters the handler behind
itself with ARITH: INFO holds the enabled flags, P31 the lanes. Here IDIV by zero with DZ alone enabled. -/
def Obligations.ArithmeticTrap : Prop :=
  ∀ (s : State) (x : Iss) (c : Ctl) (t : Ty) (d a b : Opnd) (l0 : Nat), (Instr.idiv c t d a b).wf = true →
    d.isV t.regs = true → Ready s (.idiv c t d a b) x → x.gr.sr.trapen &&& 0x3F = flDZ →
    l0 < 32 → x.x.getLsbD l0 = true → x.ival t 2 b l0 = 0 →
    ∃ gr m, exec (.idiv c t d a b) s = .next (x.raiseIn (s.setGroup x.h x.g gr)
        { cls := .after, cause := .arith, info := flDZ.toNat, p31 := m })
      ∧ (∀ l < 32, m.getLsbD l = (x.x.getLsbD l && decide (x.ival t 2 b l = 0)))
      ∧ gr = { x.gr with v := gr.v, sb := gr.sb, sr := gr.sr, ports := (x.popped (.idiv c t d a b)).ports }
      ∧ gr.sr = { x.gr.sr with xflags := gr.sr.xflags }
      ∧ ∃ (ws : Nat → List Word) (fl : Nat → Word), x.destHolds gr d t.regs ws
        ∧ ∀ l < 32, (x.x.getLsbD l = true → Divided t false (x.ival t 1 a l) (x.ival t 2 b l) (ws l) (fl l))
          ∧ gr.flagsOf l = x.gr.flagsOf l ||| (if x.x.getLsbD l then fl l else 0)

/-- R162, R173, R312, R313: once the waits of its scope hold, BAR arrives: its path is BLOCKED at it and stands in a
phase of its identifier, its scope and its instance. A phase of the identifier that has another scope gives BAR_SCOPE. -/
def Obligations.BarrierArrival : Prop :=
  ∀ (s : State) (x : Iss) (c : Ctl) (sc : ScopeSel) (b : Opnd), Ready s (.bar c sc b) x →
    let act := x.w.barScope x.gr (scopeSel x.w sc)
    let id := x.word 2 b % 16
    x.gr.fenced x.p x.fenceLimit act s.tick = true →
    ((∃ f ∈ s.bars, f.id = id ∧ f.has x.w x.gr = true ∧ f.scope ≠ act) →
      exec (.bar c sc b) s = .next (x.raiseIn s { cls := .group, cause := .barScope, p31 := x.m }))
    ∧ ((∀ f ∈ s.bars, f.id = id → f.has x.w x.gr = true → f.scope = act) → ∃ gr bars,
      exec (.bar c sc b) s = .next ({ s with bars := bars }.setGroup x.h x.g gr)
      ∧ x.OnlyPaths gr [x.p] ∧ (gr.path x.p).st = .blocked ∧ (gr.path x.p).wait = some .barrier
      ∧ (gr.path x.p).pc = x.pc ∧ (gr.path x.p).mask = x.m
      ∧ ∃ f ∈ bars, f.id = id ∧ f.scope = act ∧ f.inst = x.w.barInst x.gr act ∧ f.has x.w x.gr = true
        ∧ (x.h, x.g, x.p) ∈ f.arrived)

/-- R298 to R310: a load, store or atomic whose lanes all pass their checks sets A, and D where it writes, in its pages'
entries (R32), enters its operation, sends one access for each part of each lane, and goes on, or waits, where it is
qualified or acquires; a store or an atomic to a table line holds its time at every scope up to PKG (R39). Where some
lanes fault, the others go on and the path waits for them, with the cause of the lowest kept; where every lane faults, the
path takes that cause, with all of them in P31; where a page is to be walked, it waits. -/
def Obligations.MemoryAccesses : Prop :=
  ∀ (s : State) (i : Instr) (x : Iss) (q : MemReq) (sc : Scope) (hold : Bool), i.wf = true → Ready s i x →
    memoryRequest x i = some (q, sc, hold) → memoryOrdered s x i →
    let isStore := q.kind == .write
    let lanes := if i.laneBound then (List.range 32).filter (fun l => x.x.getLsbD l) else [0]
    let ck := x.checkLanes q lanes
    let ss := x.sends q isStore ck.good
    let used := s.useAll x.gr.core (isStore || q.atomic) (ck.good.flatMap fun g => g.2.filterMap (·.trans))
    let entered := fun (o : Op) =>
      o.dst = x.dstRegs i ∧ o.qual = q.qual ∧ o.isStore = isStore ∧ o.isAtom = q.atomic
      ∧ o.scope = (if (isStore = true ∨ q.atomic = true) ∧ (∃ r ∈ ss.lines, s.isTable r.line = true) ∧ sc.covers .pkg = false
        then .pkg else sc)
      ∧ o.todo = (ss.lines.map (·.accs.length)).sum + (ss.banks.map (·.2.accs.length)).sum
    let sent := fun (s1 : State) (gr : Group) (t : State) =>
      (s1.setGroup x.h x.g gr).sendLines x.gr.core (x.gr.sr.lease.toNat % 2 ^ 12) (atHome sc i) ss.lines = some t
    let cause := fun (l : Nat) (f : LaneFault) (r : Raise) => r.cls = .lane ∧ r.cause = f.cause ∧ r.info = f.info
      ∧ r.faddr = f.addr ∧ r.p31 = (if i.laneBound then Mask.ofLanes (ck.faults.map (·.1)) else x.m) ∧ (l, f) ∈ ck.faults
    (ck.walks = [] → ck.faults = [] → ck.good ≠ [] → ∀ s1, used = .ok s1 →
      ∃ gr o, x.Enters i o gr ∧ (if hold then x.waits gr o.seq else x.behind gr) ∧ entered o
        ∧ ∀ t, sent s1 gr t → exec i s = .next (t.sendBanks ss.banks))
    ∧ (ck.walks = [] → ck.good ≠ [] → ∀ l f r s1, ck.faults = (l, f) :: r → used = .ok s1 →
      ∃ mid gr o m, x.Enters i o mid ∧ x.waits mid o.seq ∧ entered o ∧ gr = { mid with ports := x.gr.ports }
        ∧ cause l f m ∧ o.cause = some (m.cause, m.info, m.faddr) ∧ o.fl = m.p31
        ∧ ∀ t, sent (s1.dropFaults x.gr.core x.w.ctx) gr t → exec i s = .next (t.sendBanks ss.banks))
    ∧ (ck.walks = [] → ck.good = [] → ∀ l f r, ck.faults = (l, f) :: r →
      ∃ m, cause l f m ∧ exec i s = .next (x.raiseIn (s.dropFaults x.gr.core x.w.ctx) m))
    ∧ (ck.walks ≠ [] → exec i s =
      .next (x.waitIn i .walk (s.askWalks x.gr.core x.w.ctx q.kind x.gr.sup ck.walks)))

/-- R307: PREF never faults: where no page is to be walked and A is set in its pages' entries, it goes on, and no group
changes but its own, which stands behind it with its registers as they were. -/
def Obligations.Prefetches : Prop :=
  ∀ (s : State) (x : Iss) (c : Ctl) (own : Bool) (w : Win) (a off : Opnd),
    let i := Instr.pref c own w a off
    i.wf = true → Ready s i x →
    let q : MemReq := { n := 1, kind := .read, qual := .none, expect := .none, atomic := false
                        addr := laneAddress x w a off, what := fun _ => .load }
    let lanes := if i.laneBound then (List.range 32).filter (fun l => x.x.getLsbD l) else [0]
    let ck := x.checkLanes q lanes
    ck.walks = [] → (∃ s1, s.useAll x.gr.core false (ck.good.flatMap fun g => g.2.filterMap (·.trans)) = .ok s1) →
    ∃ t gr, exec i s = .next t ∧ t.wgs = (s.setGroup x.h x.g gr).wgs ∧ x.behind gr ∧ x.Frame i gr .none 0

namespace Sys2Proof.Machine

/-! ### Instructions that go on after their issue -/

/-- One core has changed by `f`; nothing else has. -/
def AtCore (s t : State) (core : Nat) (f : Core → Core) : Prop :=
  t = { s with cores := t.cores } ∧ t.core core = f (s.core core) ∧ ∀ n, n ≠ core → t.core n = s.core n

/-- The cursor after one slot (R182). -/
def cursorAfter (cur desc : Nat) : Nat :=
  let idx := cur % 256
  let phase := cur / 256 % 2
  if desc / 16 % 256 < idx + 1 then cur / 512 * 512 + (1 - phase) * 256 else cur / 512 * 512 + phase * 256 + (idx + 1)

/-- A stage instruction's payload registers and its slot: at most 512, held, and within the local region (R315,
R316). `k` registers, header granule `head`, `n` payload granules. -/
def slotFits (x : Iss) (d : Opnd) (k head n : Nat) : Prop :=
  d.idx + k ≤ 512 ∧ d.idx + k ≤ 32 * x.gr.vhold ∧ ∃ c, x.w.onCore x.gr.core = some c ∧ 16 * (head + n + 1) ≤ c.size

/-- The job of a COPY or COPYX (R319, R320). -/
def copyJob (x : Iss) : Instr → Option (ScopeSel × Opnd × Opnd × CopyJob)
  | .copy _ sc d a b => some (sc, d, a, plainJob (x.word 2 b))
  | .copyxT2d _ sc d a b => some (sc, d, a, t2dJob (x.raw 2 b 8 0))
  | .copyxPack _ sc d a b => some (sc, d, a, packJob .pack (x.raw 2 b 8 0))
  | .copyxUnpack _ sc d a b => some (sc, d, a, unpackJob (x.raw 2 b 8 0))
  | .copyxHadq _ sc d a b => some (sc, d, a, packJob .hadq (x.raw 2 b 8 0))
  | _ => none

/-- A range whose every page is translated and may be used. -/
abbrev Ranged.clean (r : Ranged) : Prop := r.bad = none ∧ r.walks = [] ∧ r.faults = []

/-- The occupancy that a tile instruction without memory bounds (R330, R334, R340 to R346); RANK_OVF where none. -/
def tileBound (x : Iss) : Instr → Option (Opnd × Option Nat)
  | .mma _ _ _ d a b =>
    let p := mmaShape (x.shape a) (x.shape b)
    some (d, if d.isA && p.form == .zero then some (x.gr.occOf (tileReg d))
      else p.bound d.isA (x.gr.capOf d) x.gr.ovf)
  | .madd _ d a b => some (d, (maddShape (x.shape a) (x.shape b) d.isA (x.gr.capOf d) x.gr.ovf).bind fun p =>
      p.bound d.isA (x.gr.capOf d) x.gr.ovf)
  | .recomp _ d a => some (d, some (min (x.shape a).rank (x.gr.capOf d)))
  | .mdense _ d _ => some (d, some 32)
  | .mzero _ d | .azero _ d => some (d, some 0)
  | .mmov _ d a | .amov _ d a => some (d, (x.shape a).bound d.isA (x.gr.capOf d) x.gr.ovf)
  | _ => none

/-- The memory of a tile load: whether it is aligned, its rows as (place in the image, address, bytes), the bound of
the occupancy, and where the rank is beyond what the tile form allows (R335 to R339). -/
def tileLoad (x : Iss) : Instr → Option (Opnd × Bool × Nat × List (Nat × Nat × Nat) × Option Nat)
  | .mloadRow _ _ t d a b | .aload _ _ t d a b => some (d, aligned t a b, x.dword 1 a, rows t a b, some 32)
  | .mloadFact _ d a b =>
    let r := x.word 2 b
    if 32 < r then none
    else some (d, x.dword 1 a % 128 == 0, x.dword 1 a, [(0, x.dword 1 a, 128 * r)],
      (if r == 0 then Shape.zero else .fact r).bound false (x.gr.capOf d) x.gr.ovf)
  | .mloadBlk _ d a _ => some (d, x.dword 1 a % 64 == 0, x.dword 1 a, [(0, x.dword 1 a, 576)], some 32)
  | _ => none
where
  aligned (t : Ty) (a b : Opnd) : Bool := x.dword 1 a % (t.bits / 8) == 0 && x.word 2 b % (t.bits / 8) == 0
  rows (t : Ty) (a b : Opnd) : List (Nat × Nat × Nat) :=
    (List.range 32).map fun k => (32 * (t.bits / 8) * k, x.dword 1 a + k * x.word 2 b, 32 * (t.bits / 8))

/-- The memory of a tile store. -/
def tileStore (x : Iss) : Instr → Option (Bool × Nat × List (Nat × Nat × Nat))
  | .mstoreRow _ _ t _ a b | .astore _ _ t _ a b =>
    some (tileLoad.aligned x t a b, x.dword 1 a, tileLoad.rows x t a b)
  | .mstoreFact _ d a =>
    if (x.gr.tileSrc d).form = .dense then none
    else some (x.dword 1 a % 128 == 0, x.dword 1 a, [(0, x.dword 1 a, 128 * (x.gr.tileSrc d).rank)])
  | _ => none

/-- What an XFORM reads and writes: whether its format is one, its destination with the registers that it fills, its
source with its registers (R347 to R351). -/
def transform (x : Iss) : Instr → Option (Bool × Opnd × Nat × Opnd × Nat)
  | .xformQ _ d a b => some ((blockN (x.raw 2 b 4 0 % 16)).isSome, d, 1, a, 8)
  | .xformDq _ d a _ => some (true, d, 8, a, 1)
  | .xformHad _ d a b => some (x.raw 2 b 4 0 % 4 != 3, d, 8, a, 8)
  | _ => none

/-- A destination in local memory is aligned and within the region; one in registers is always allowed. -/
abbrev localFits (x : Iss) (d : Opnd) (k : Nat) : Prop :=
  d.isS 1 = true → x.word 0 d % 16 = 0 ∧ x.word 0 d + 128 * k ≤ x.localSize

/-- What a token instruction that changes a sequence does with it (R357 to R359): the record it names and its plan. -/
def tokenPlan (x : Iss) : Instr → Option (Nat × TokM TokPlan)
  | .admitSeq _ _ a b => some (block a, admitPlan x.who (x.seqBlock 1 a) (x.raw 2 b 4 0))
  | .admitRel _ _ a => some (block a, admitRelPlan x.who (x.seqBlock 1 a))
  | .kvapp _ _ a b => some (block a, kvappPlan x (x.seqBlock 1 a) (x.dword 2 b))
  | .kvseal _ a => some (block a, changePlan x.who (x.seqBlock 1 a) fun q => q.sealOpen)
  | .span _ a b => some (block a, changePlan x.who (x.seqBlock 1 a) fun q => q.span (x.word 2 b % 8))
  | .spanret _ a b => some (block a, changePlan x.who (x.seqBlock 1 a) fun q => (q.retire (x.word 2 b % 8)).applyWindow)
  | .window _ a b => some (block a, changePlan x.who (x.seqBlock 1 a) fun q => (q.put 159 128 (x.word 2 b)).applyWindow)
  | _ => none
where
  block (a : Opnd) : Nat := x.raw 1 a 4 0 % 2 ^ 64

end Sys2Proof.Machine

/-- R182, R183, R315 to R317: STAGE.OUT keeps its payload in its operation, advances the cursor, sends its visit to the
header of its slot, and goes on; STAGE.IN sends its visit and waits with its payload registers empty. -/
def Obligations.StageRings : Prop :=
  ∀ (s : State) (x : Iss) (c : Ctl) (d a b : Opnd),
    let cur := x.word 1 a
    let desc := x.word 2 b
    let n := desc / 2 ^ 12 % 2 ^ 6 + 1
    let k := (n + 7) / 8
    let head := desc / 2 ^ 18 % 2 ^ 14 + cur % 256 * (n + 1)
    let visit := fun (t : State) (gr : Group) (o : Op) (op : BankOp) =>
      AtCore (s.setGroup x.h x.g gr) t x.gr.core (fun r => { r with bankQ := r.bankQ ++ [op] })
      ∧ op.wg = x.h ∧ op.gran = head ∧ op.qual = .wait ∧ op.acc.seq = o.seq ∧ op.acc.g = x.g ∧ op.prior = x.priorOps
    slotFits x d k head n →
    ((Instr.stageOut c d a b).wf = true → Ready s (.stageOut c d a b) x → (∀ j < k, x.gr.isFull (.v (d.idx + j)) = true) →
      ∃ mid gr o op t, exec (.stageOut c d a b) s = .next t ∧ x.Enters (.stageOut c d a b) o mid
        ∧ x.behind mid ∧ o.dst = [] ∧ o.rows = (List.range k).map (fun j => x.gr.vreg (d.idx + j))
        ∧ gr = { mid with s := gr.s, sb := gr.sb } ∧ gr.sreg a.idx = BitVec.ofNat 32 (cursorAfter cur desc)
        ∧ (∀ j, j ≠ a.idx → gr.sreg j = x.gr.sreg j)
        ∧ (∀ r, gr.isFull r = (mid.isFull r || decide (r = .s a.idx)))
        ∧ visit t gr o op ∧ op.isStore = true)
    ∧ ((Instr.stageIn c d a b).wf = true → Ready s (.stageIn c d a b) x →
      ∃ mid gr o op t, exec (.stageIn c d a b) s = .next t ∧ x.Enters (.stageIn c d a b) o mid ∧ x.waits mid o.seq
        ∧ o.dst = (List.range k).map (fun j => Reg.v (d.idx + j)) ∧ gr = { mid with sb := gr.sb }
        ∧ (∀ r, gr.isFull r = mid.isFull r)
        ∧ visit t gr o op ∧ op.isStore = false)

/-- R83, R84, R318: CJOIN and CLEAVE mark their destination empty and go on. A CJOIN whose core is not leaving is decided
by Table 4.5: BADNAME, BUSY, FULL, the position that the core has, or the lowest free one, which is installed first;
CLEAVE answers 0 and 1 at once, and the core of the last joined group starts to leave. -/
def Obligations.ClusterMembership : Prop :=
  ∀ (s : State) (x : Iss) (c : Ctl) (here : WgCore), x.w.onCore x.gr.core = some here →
    (∀ d b, (Instr.cjoin c d b).wf = true → Ready s (.cjoin c d b) x → here.leaving = none →
      let k := x.word 2 b
      ∃ gr o, x.Enters (.cjoin c d b) o gr ∧ x.behind gr ∧ o.dst = x.dstRegs (.cjoin c d b) ∧ o.todo = 1 ∧
        let t := s.setGroup x.h x.g gr
        let joined := (t.modWg x.h (·.modCore x.gr.core fun c => { c with joins := c.joins + 1 })).setJoined x.h x.g true
        let ends := fun (t : State) (pos status : Word) =>
          exec (.cjoin c d b) s = .next (t.answer x.h x.g o.seq [pos, status])
        (7 < k → ends t 0xFFFFFFFF 3)
        ∧ (k ≤ 7 → ∀ j, here.cluster = some j → j ≠ k → ends t 0xFFFFFFFF 2)
        ∧ (k ≤ 7 → here.cluster = some k → ends (if x.gr.joined then t else joined) (BitVec.ofNat 32 here.pos) 0)
        ∧ (k ≤ 7 → here.cluster = none →
            (∀ p < 16, ∃ m ∈ x.w.cores, m.cluster = some k ∧ m.pos = p) → ends t 0xFFFFFFFF 1)
        ∧ ∀ p < 16, k ≤ 7 → here.cluster = none → (∀ m ∈ x.w.cores, m.cluster = some k → m.pos ≠ p) →
            (∀ p' < p, ∃ m ∈ x.w.cores, m.cluster = some k ∧ m.pos = p') →
            exec (.cjoin c d b) s = .next ((t.modWg x.h (·.modCore x.gr.core fun c =>
              { c with cluster := some k, pos := p, joins := 1, joining := some (x.g, o.seq) })).setJoined x.h x.g true))
    ∧ ∀ d, (Instr.cleave c d).wf = true → Ready s (.cleave c d) x →
      ∃ gr o, x.Enters (.cleave c d) o gr ∧ x.behind gr ∧ o.dst = x.dstRegs (.cleave c d) ∧ o.todo = 1 ∧
        let t := s.setGroup x.h x.g gr
        let left := (t.setJoined x.h x.g false).modWg x.h (·.modCore x.gr.core fun c => { c with joins := c.joins - 1 })
        (x.gr.joined = false → exec (.cleave c d) s = .next (t.answer x.h x.g o.seq [0]))
        ∧ (x.gr.joined = true → 1 < here.joins → exec (.cleave c d) s = .next (left.answer x.h x.g o.seq [1]))
        ∧ (x.gr.joined = true → here.joins ≤ 1 →
          exec (.cleave c d) s = .next (left.modWg x.h (·.startLeave x.gr.core (some (x.g, o.seq)))))

/-- R367: LAUNCH reads its record of 128 bytes as one load, hands it to the distributor with the context and the mode of
the issuer, and goes on with its destinations empty. A record that is not aligned raises ALIGN, one that cannot be read the
cause of its translation. -/
def Obligations.Launches : Prop :=
  ∀ (s : State) (x : Iss) (c : Ctl) (d a : Opnd), (Instr.launch c d a).wf = true → Ready s (.launch c d a) x →
    let va := x.dword 1 a
    let i := Instr.launch c d a
    let handed := fun (s1 : State) (bs : List Byte) => ∃ gr o, x.Enters i o gr ∧ x.behind gr ∧ o.dst = x.dstRegs i ∧
      exec i s = .next { s1.setGroup x.h x.g gr with
        launches := s1.launches ++ [{ raw := BitVec.ofNat 1024 (natOfBytes bs), ctx := x.w.ctx, sup := x.gr.sup,
                                      wg := x.h, g := x.g, seq := o.seq, mail := none }] }
    (va % 64 ≠ 0 → exec i s = .next (x.raiseIn s { cls := .group, cause := .align, faddr := va, p31 := x.m }))
    ∧ (va % 64 = 0 → localPlace x.w x.gr va 128 = none → ∀ ps bs s1 s2,
      s.chkRange x.gr.core x.w.ctx x.gr.sup .read true va 128 = .pieces ps → s.usePieces x.gr.core false ps = .ok s1 →
      s1.readPieces ps = .ok (bs, s2) →
      s.accessesDone x.h x.g x.priorOps (ps.map fun p =>
        { off := 0, n := p.n, va := p.va, place := .phys p.pa, coh := p.attr.coh, normal := true }) = true → handed s2 bs)
    ∧ (va % 64 = 0 → localPlace x.w x.gr va 128 = none → ∀ f ps,
      s.chkRange x.gr.core x.w.ctx x.gr.sup .read true va 128 = .fault f ps → exec i s =
        .next (x.raiseIn (s.dropFaults x.gr.core x.w.ctx)
          { cls := .group, cause := f.cause, info := f.info, faddr := f.addr, p31 := x.m }))
    ∧ (va % 64 = 0 → ∀ f, localPlace x.w x.gr va 128 = some (.fault f) → exec i s =
        .next (x.raiseIn s { cls := .group, cause := f.cause, info := f.info, faddr := f.addr, p31 := x.m }))
    ∧ (va % 64 = 0 → ∀ core off n pos, localPlace x.w x.gr va 128 = some (.parts [.loc core off n pos]) →
      x.banksQuiet = true → handed s (s.localBytes x.h core off 128))

/-- R105, R117, R165, R319 to R323: a COPY or COPYX whose pages are translated enters its operation and hands its runs, which
cover the n bytes of its destination that it will write, to the core's copy engine. Where no page faults, n is DLEN and the
path goes on; where one does, n is the prefix before it, and the path waits for that with the lowest fault, or, with no
prefix, takes the fault at once. One of no bytes completes, and bad parameters raise COPY_FORMAT. -/
def Obligations.Copies : Prop :=
  ∀ (s : State) (i : Instr) (x : Iss) (sc : ScopeSel) (d a : Opnd) (j : CopyJob), i.wf = true → Ready s i x →
    copyJob x i = some (sc, d, a, j) →
    let da := x.dword 0 d
    let sa := x.dword 1 a
    let listing := j.xf == .pack || j.xf == .hadq
    let dst := x.copyRange .dst da j.dn
    let src := x.copyRange .src sa j.sn
    let side := if j.sideVa = 0 then x.copyRange .src 0 0
      else x.copyRange (if listing then .dst else .src) j.sideVa j.sideN
    let all := [dst, src, side]
    let n := j.upTo da dst src side
    let first : CopyRun :=
      { wg := x.h, g := x.g, seq := x.gr.nextSeq, hlim := bitsOf x.gr.sr.pnheat.toNat 7 0, xf := j.xf, param := j.param
        y := 0, len := 0, dst := dst.segs, src := src.segs, side := if listing then [] else side.segs, listing := false
        snap := none, done := 0 }
    let lists := if listing ∧ side.segs ≠ [] ∧ n ≠ 0 then [j.listRun first side.segs n] else []
    let moves := j.runs first 0 n (n + 1)
    let runs := lists ++ moves
    let under := fun (r : Ranged) (gs : List Seg) => ((r.segs.zip r.trans).filter fun p => gs.contains p.1).map (·.2)
    let covers := runs.all (fun r => r.listing || (decide (r.y + r.len ≤ n) && r.dst.all (dst.segs.contains ·))) = true
      ∧ ∀ q < n, ∃ r ∈ moves, r.y ≤ q ∧ q < r.y + r.len
    let queued := fun (s : State) => s.modCore x.gr.core fun r => { r with copyQ := r.copyQ ++ runs }
    let used := s.useCopy x.gr.core (under dst (moves.flatMap (·.dst)) ++ if lists = [] then [] else side.trans)
      (under src (moves.flatMap (·.src)) ++ if listing ∨ n = 0 then [] else side.trans)
    (j.bad da sa = true → exec i s = .next (x.raiseIn s { cls := .group, cause := .copyFormat, p31 := x.m }))
    ∧ (j.bad da sa = false → j.dn = 0 → ∃ gr, exec i s = .next (s.setGroup x.h x.g gr) ∧ x.behind gr
      ∧ x.Frame i gr .none 0)
    ∧ (j.bad da sa = false → j.dn ≠ 0 → (∀ r ∈ all, r.clean) → ∀ s1, used = .ok s1 →
      ∃ gr o, x.Enters i o gr ∧ x.behind gr ∧ o.dst = [] ∧ o.scope = scopeSel x.w sc ∧ o.todo = runs.length
        ∧ n = j.dn ∧ covers ∧ exec i s = .next (queued (s1.setGroup x.h x.g gr)))
    ∧ (j.bad da sa = false → j.dn ≠ 0 → (∀ r ∈ all, r.bad = none ∧ r.walks = []) → ∀ f,
      lowestFault (all.flatMap (·.faults)) = some f → ∀ s1, used = .ok s1 →
        let s2 := s1.dropFaults x.gr.core x.w.ctx
        (n = 0 → exec i s = .next (x.raiseIn (s2.modGroup x.h x.g fun gr => { gr with sr := { gr.sr with cpbytes := 0 } })
          { cls := .group, cause := f.cause, info := f.info, faddr := f.addr, p31 := x.m }))
        ∧ (n ≠ 0 → ∃ mid gr o, x.Enters i o mid ∧ x.waits mid o.seq ∧ gr = { mid with ports := x.gr.ports }
          ∧ o.step = n ∧ o.cause = some (f.cause, f.info, f.addr) ∧ o.scope = scopeSel x.w sc ∧ o.todo = runs.length
          ∧ covers ∧ exec i s = .next (queued (s2.setGroup x.h x.g gr))))

/-- R324 to R326: RESOLVE of a translated range starts the resolution of the live entries whose windows meet it, and its
operation keeps them; PNQ answers with the entry that holds its byte, or zeros; PNDROP, once the accesses before it have
performed, drops what its range holds, and its operation keeps the time of that. All three go on. A range that faults is
the instruction's cause. -/
def Obligations.PronounInstructions : Prop :=
  ∀ (s : State) (x : Iss) (c : Ctl) (pa : Bool) (gs : List Seg) (ts : List Trans),
    (∀ a b, (Instr.resolve c pa a b).wf = true → Ready s (.resolve c pa a b) x →
      x.physRange pa .src (x.dword 1 a) (x.word 2 b) = .pieces gs ts → ∀ s1, s.useAll x.gr.core false ts = .ok s1 →
      let es := s.pn.filter fun e =>
        segsPhys gs e.winLo (e.winHi - e.winLo) && !(e.st == .resolving && s.stuck e)
      ∃ gr o pn, x.Enters (.resolve c pa a b) o gr ∧ x.behind gr ∧ o.args = es.map (fun e => BitVec.ofNat 64 e.id)
        ∧ exec (.resolve c pa a b) s = .next ({ s1 with pn := pn }.setGroup x.h x.g gr)
        ∧ pn = s1.pn.map fun e => if es.any (·.id == e.id) && !(es.all (·.st == .resolving)) then { e with st := .resolving }
            else e)
    ∧ (∀ d a, (Instr.pnq c pa d a).wf = true → Ready s (.pnq c pa d a) x →
      x.physRange pa .src (x.dword 1 a) 1 = .pieces gs ts → ∀ s1, s.useAll x.gr.core false ts = .ok s1 →
      ∃ gr o ws, x.Enters (.pnq c pa d a) o gr ∧ x.behind gr ∧ o.dst = x.dstRegs (.pnq c pa d a)
        ∧ exec (.pnq c pa d a) s = .next ((s1.setGroup x.h x.g gr).answer x.h x.g o.seq ws)
        ∧ (∀ p, placeAt gs 0 = some (.phys p) → (∀ e ∈ s1.pn, e.holds p = false) → ws = [0, 0, 0, 0])
        ∧ ∀ p e, placeAt gs 0 = some (.phys p) → s1.pn.find? (·.holds p) = some e →
          let base := if pa || x.gr.sup then e.abase else 0
          ws = [BitVec.ofNat 32 (e.heat * 2 ^ 8 + (if e.ctx = x.w.ctx then 128 else 0) + (if e.mirror then 64 else 0)
              + (match e.xf with | .ident => 0 | .t2d => 1 | .pack => 2 | .unpack => 3 | .hadq => 4) * 8
              + (match e.st with | .live => 1 | .hot => 2 | .resolving => 3) * 2 + 1),
            BitVec.ofNat 32 (e.winHi - p), BitVec.ofNat 32 base, BitVec.ofNat 32 (base / 2 ^ 32)])
    ∧ (∀ sc a b, (Instr.pndrop c pa sc a b).wf = true → Ready s (.pndrop c pa sc a b) x →
      x.physRange pa .dst (x.dword 1 a) (x.word 2 b) = .pieces gs ts → s.accessesDone x.h x.g x.priorOps gs = true →
      s.dropReady pa gs = true → s.othersStuck x.w.ctx pa gs = [] →
      s.translated? ((s.entriesAt gs).flatMap (·.lines)) = none → ∀ s1, s.useAll x.gr.core true ts = .ok s1 →
      ∃ gr o, x.Enters (.pndrop c pa sc a b) o gr ∧ x.behind gr ∧ o.scope = scopeSel x.w sc ∧
        let s2 := gs.foldl (fun s g => match g.place with
          | .phys p => s.dropRange x.w.ctx pa p g.n
          | .loc .. => s) s1
        o.gvt = upTick s2.cycle ∧ exec (.pndrop c pa sc a b) s = .next (s2.setGroup x.h x.g gr))
    ∧ ∀ i k va n f, i.wf = true → Ready s i x →
      ((∃ a b, i = .resolve c pa a b ∧ k = .src ∧ va = x.dword 1 a ∧ n = x.word 2 b)
        ∨ (∃ d a, i = .pnq c pa d a ∧ k = .src ∧ va = x.dword 1 a ∧ n = 1)
        ∨ ∃ sc a b, i = .pndrop c pa sc a b ∧ k = .dst ∧ va = x.dword 1 a ∧ n = x.word 2 b) →
      x.physRange pa k va n = .fault f → exec i s = .next (x.raiseIn (s.dropFaults x.gr.core x.w.ctx)
        { cls := .group, cause := f.cause, info := f.info, faddr := f.addr, p31 := x.m })

/-- R330, R334, R340 to R346: a tile instruction without memory goes to the matrix unit where the bound of its result
exists and its group's tile holding has room; otherwise it raises RANK_OVF or TILE_BUDGET. -/
def Obligations.TileArithmetic : Prop :=
  ∀ (s : State) (i : Instr) (x : Iss), i.wf = true → Ready s i x →
    let goes := ∃ gr o t, exec i s = .next t ∧ x.Enters i o gr ∧ x.behind gr ∧ o.dst = x.dstRegs i ∧ o.fin = false ∧ o.segs = []
      ∧ AtCore (s.setGroup x.h x.g gr) t x.gr.core (fun r => { r with matrixQ := r.matrixQ ++ [(x.h, x.g, o.seq)] })
    (∀ d bound, tileBound x i = some (d, bound) →
      let now := x.gr.occOf (tileReg d)
      (bound = none → exec i s = .next (x.raiseIn s { cls := .group, cause := .rankOvf, p31 := x.m }))
      ∧ (∀ n, bound = some n → now < n → x.gr.mhold < x.gr.occupancy - now + n →
        exec i s = .next (x.raiseIn s { cls := .group, cause := .tileBudget, p31 := x.m }))
      ∧ ∀ n, bound = some n → (n ≤ now ∨ x.gr.occupancy - now + n ≤ x.gr.mhold) → goes)
    ∧ ((∃ c d a, i = .mrankGet c d a) ∨ (∃ c d b, i = .mrankCap c d b) → goes)

/-- R330, R335 to R339: a tile load or store whose ranges are clean, aligned and within the budget goes to the matrix
unit with its translated memory; a load beyond the budget raises TILE_BUDGET, bad alignment ALIGN, and a range that faults its
cause. -/
def Obligations.TileMemory : Prop :=
  ∀ (s : State) (i : Instr) (x : Iss), i.wf = true → Ready s i x →
    let goes := fun (s1 : State) (r : Ranged) => ∃ gr o t, exec i s = .next t ∧ x.Enters i o gr ∧ x.behind gr
      ∧ o.dst = x.dstRegs i ∧ o.fin = false ∧ o.segs = r.segs
      ∧ AtCore (s1.setGroup x.h x.g gr) t x.gr.core (fun c => { c with matrixQ := c.matrixQ ++ [(x.h, x.g, o.seq)] })
    let misaligned := fun (a : Nat) => exec i s = .next (x.raiseIn s { cls := .group, cause := .align, faddr := a, p31 := x.m })
    let faulty := fun (k : Kind) (rows : List (Nat × Nat × Nat)) =>
      let r := x.imageRange k rows
      let raised := fun (s : State) (f : LaneFault) => exec i s =
        .next (x.raiseIn s { cls := .group, cause := f.cause, info := f.info, faddr := f.addr, p31 := x.m })
      (∀ f, r.bad = some f → raised s f)
      ∧ (∀ f, r.bad = none → r.walks = [] → lowestFault r.faults = some f → exec i s =
        .next (x.raiseIn (s.dropFaults x.gr.core x.w.ctx)
          { cls := .group, cause := f.cause, info := f.info, faddr := f.addr, p31 := x.m }))
    (∀ d ok base rows n, tileLoad x i = some (d, ok, base, rows, some n) →
      let now := x.gr.occOf (tileReg d)
      let over_ := now < n ∧ x.gr.mhold < x.gr.occupancy - now + n
      (over_ → exec i s = .next (x.raiseIn s { cls := .group, cause := .tileBudget, p31 := x.m }))
      ∧ (¬over_ → ok = false → misaligned base)
      ∧ (¬over_ → ok = true → (x.imageRange .read rows).clean →
        ∀ s1, s.useAll x.gr.core false (x.imageRange .read rows).trans = .ok s1 → goes s1 (x.imageRange .read rows))
      ∧ (¬over_ → ok = true → faulty .read rows))
    ∧ ∀ ok base rows, tileStore x i = some (ok, base, rows) →
      (ok = false → misaligned base)
      ∧ (ok = true → (x.imageRange .write rows).clean →
        ∀ s1, s.useAll x.gr.core true (x.imageRange .write rows).trans = .ok s1 → goes s1 (x.imageRange .write rows))
      ∧ (ok = true → faulty .write rows)

/-- R347 to R352: XFORM and DECODE go to the core's transform pipe with their source; a format that is none raises
XF_FORMAT, and a local destination that does not fit ALIGN or LOCAL_RANGE. -/
def Obligations.Transforms : Prop :=
  ∀ (s : State) (i : Instr) (x : Iss), i.wf = true → Ready s i x →
    let bad := exec i s = .next (x.raiseIn s { cls := .group, cause := .xfFormat, p31 := x.m })
    let goes := fun (d : Opnd) (k : Nat) (rows : List Row) (o : Op) (gr : Group) (t : State) =>
      x.Enters i o gr ∧ x.behind gr ∧ o.rows = rows ∧ o.fin = false
      ∧ o.dst = (if d.isS 1 then [] else (List.range k).map fun j => Reg.v (d.idx + j))
      ∧ AtCore (s.setGroup x.h x.g gr) t x.gr.core (fun c => { c with xformQ := c.xformQ ++ [(x.h, x.g, o.seq)] })
    (∀ ok d k a n, transform x i = some (ok, d, k, a, n) →
      (ok = false → bad)
      ∧ (ok = true → localFits x d k → ∃ gr o t, exec i s = .next t
        ∧ goes d k ((List.range n).map fun j => x.gr.vreg (a.idx + j)) o gr t))
    ∧ ∀ c q d a b, i = .decodeBlk c q d a b →
      let nb := x.raw 2 b 2 0 % 2 ^ 32
      let off := x.word 1 a
      (nb = 0 ∨ 8 < nb → bad)
      ∧ (1 ≤ nb → nb ≤ 8 → (d.isS 1 = false → d.idx + 4 * nb ≤ 512 ∧ d.idx + 4 * nb ≤ 32 * x.gr.vhold) → off % 64 = 0 →
        off + 64 * nb ≤ x.localSize → localFits x d (4 * nb) → ∃ gr o t, goes d (4 * nb) [] o gr t ∧ exec i s = .next
          (match q with
            | .none => t
            | q => (t.modGroup x.h x.g (·.modOp o.seq fun o => { o with
                qual := if q == .wait then .wait else .take, todo := 4 * nb, res := List.replicate (16 * nb) 0 })).sendBanks
                (x.decodeOps (if q == .wait then .wait else .take) off nb o.seq)))

/-- R57, R356 to R359: ADMIT, KVAPP, KVSEAL, SPAN, SPANRET and WINDOW whose records can be read take their place at the
home of the sequence's descriptor with the change that they will make, and go on; a record that is not aligned raises
ALIGN. -/
def Obligations.SequenceInstructions : Prop :=
  ∀ (s : State) (i : Instr) (x : Iss) (rec_ : Nat) (m : TokM TokPlan), i.wf = true → Ready s i x →
    tokenPlan x i = some (rec_, m) →
    (rec_ % 64 ≠ 0 → exec i s = .next (x.raiseIn s { cls := .group, cause := .align, faddr := rec_, p31 := x.m }))
    ∧ ∀ p s1 s2, rec_ % 64 = 0 → m.run s = .ok (p, s1) → s1.useCopy x.gr.core (p.written.map (·.tr)) (p.used.map (·.tr)) = .ok s2 →
      ∃ gr o, x.Enters i o gr ∧ x.behind gr ∧ o.dst = x.dstRegs i ∧ o.todo = 1 ∧ o.fin = false ∧
        exec i s = .next { s2.setGroup x.h x.g gr with
          tokenQ := s2.tokenQ ++ [{ p.op with
            wg := x.h, g := x.g, seq := o.seq, core := x.gr.core, ctx := x.w.ctx, sup := x.gr.sup }] }

/-- R62, R360 to R362: KVLD with lanes that have a row, or a status, enters its operation, and goes on, or waits where
other lanes fault; where every lane faults, it takes their cause. ROPE whose table can be read goes on with the rotated
pairs. -/
def Obligations.TokenReads : Prop :=
  ∀ (s : State) (x : Iss) (c : Ctl),
    (∀ isV fromEnd k d a b, let i := Instr.kvld c isV fromEnd k d a b
      i.wf = true → Ready s i x → x.raw 1 a 4 0 % 64 = 0 →
      let lanes := ((List.range 32).filter fun l => x.x.getLsbD l).map fun l => (l, match b with
        | .imm v => v.toNat
        | o => x.int .u32 2 o l)
      ∀ p s1, (kvldPlan x.who (x.seqBlock 1 a) isV fromEnd (k.toNat + 1) lanes).run s = .ok (p, s1) →
      let met := s1.dropFaults x.gr.core x.w.ctx
      let entered := fun (o : Op) => o.dst = x.dstRegs i ∧ o.got = Mask.ofLanes (p.lanes.map (·.l))
        ∧ o.fl = Mask.ofLanes (p.faults.map (·.1))
      let lowest := fun (f : LaneFault) => ∃ l, (l, f) ∈ p.faults ∧ ∀ m ∈ p.faults, l ≤ m.1
      (p.faults = [] → p.lanes ≠ [] → ∃ gr o, x.Enters i o gr ∧ x.behind gr ∧ entered o ∧ o.cause = none
        ∧ exec i s = .next (s1.setGroup x.h x.g gr))
      ∧ (p.faults ≠ [] → p.lanes ≠ [] → ∃ mid gr o f, x.Enters i o mid ∧ x.waits mid o.seq ∧ entered o
        ∧ gr = { mid with ports := x.gr.ports } ∧ lowest f ∧ o.cause = some (f.cause, f.info, f.addr)
        ∧ exec i s = .next (met.setGroup x.h x.g gr))
      ∧ (p.faults ≠ [] → p.lanes = [] → ∃ f, lowest f ∧ exec i s = .next (x.raiseIn met
        { cls := .lane, cause := f.cause, info := f.info, faddr := f.addr, p31 := Mask.ofLanes (p.faults.map (·.1)) })))
    ∧ ∀ k d a b, let i := Instr.rope c k d a b
      i.wf = true → Ready s i x → x.raw 2 b 4 0 % 64 = 0 → ∀ tab ps s1,
      (ropePlan x.who (x.seqBlock 2 b) (k.toNat + 1)).run s = .ok ((tab, ps), s1) →
      ∃ gr o, x.Enters i o gr ∧ x.behind gr ∧ o.dst = x.dstRegs i ∧ o.got = x.x
        ∧ exec i s = .next (s1.setGroup x.h x.g gr)
        ∧ ∀ j ≤ k.toNat, ∀ l < 32, x.x.getLsbD l = true →
          let p := (ropePair tab x a (k.toNat + 1) l (j / 2)).1
          (o.res.getD j 0).lane l = BitVec.ofNat 32 (if j % 2 = 0 then p.1 else p.2)

/-- R184 to R188, R363 to R365: on the access processor, NEST with a good record waits with its place kept, or anew from
the first element, and pushes nothing itself; APSEND pushes its word where the port has room and a permit, and waits
where not; APERMIT, at the lanes, gives permits back, at most 64. -/
def Obligations.AccessQueues : Prop :=
  ∀ (s : State) (x : Iss) (c : Ctl),
    (∀ a, (Instr.nest c a).wf = true → Ready s (.nest c a) x →
      let rec_ := x.gr.ap.nestRec a.idx
      (rec_.bad = true → exec (.nest c a) s = .next (x.raiseIn s { cls := .group, cause := .nestFormat, p31 := x.m }))
      ∧ (rec_.bad = false → ∃ gr, exec (.nest c a) s = .next (s.setGroup x.h x.g gr)
        ∧ gr = { x.gr with ap := { x.gr.ap with wait := some .port, nest := gr.ap.nest } }
        ∧ gr.ap.nest = some (match x.gr.ap.nest with
          | some n => { n with reg := a.idx }
          | none => { reg := a.idx, idx := [0, 0, 0, 0, 0], opnd := 0 })))
    ∧ (∀ q b, (Instr.apsend c q b).wf = true → Ready s (.apsend c q b) x → q.toNat < x.gr.ports.length →
      let p := x.gr.port q.toNat
      (p.words.length < 64 → 0 < p.permits → ∃ gr, exec (.apsend c q b) s = .next (s.setGroup x.h x.g gr) ∧ x.behind gr
        ∧ gr = { x.gr with ap := gr.ap, ports := gr.ports }
        ∧ gr.port q.toNat = { words := p.words ++ [BitVec.ofNat 32 (x.word 2 b)], permits := p.permits - 1 }
        ∧ ∀ j, j ≠ q.toNat → gr.port j = x.gr.port j)
      ∧ (64 ≤ p.words.length ∨ p.permits = 0 → exec (.apsend c q b) s = .next (x.block .port s)))
    ∧ ∀ q b, (Instr.apermit c q b).wf = true → Ready s (.apermit c q b) x → q.toNat < x.gr.ports.length →
      ∃ gr, exec (.apermit c q b) s = .next (s.setGroup x.h x.g gr) ∧ x.behind gr
        ∧ gr = { x.gr with ap := gr.ap, ports := gr.ports, paths := gr.paths }
        ∧ gr.port q.toNat = { x.gr.port q.toNat with permits := min 64 ((x.gr.port q.toNat).permits + x.word 2 b) }
        ∧ ∀ j, j ≠ q.toNat → gr.port j = x.gr.port j

/-! ### What happens by itself -/

/-- R188, R379, R154, R157, R190, R191: events of a group. A pending cause enters the handler at its taker's boundary;
NEST pushes its next word; a time that comes back raises the horizons its scope covers, or is kept by its engine operation;
the oldest operation of a class ends, its counter goes down and its time is held, and a COPY that met a fault takes it; registers given up that no write targets enter the pool; and a claim at the head
of its queue is granted whole. -/
def Obligations.GroupEvents : Prop :=
  ∀ (s : State) (h g : Nat) (w : Workgroup) (gr : Group), s.wg? h = some w → w.group? g = some gr →
    (∀ c rest p, gr.pend = c :: rest → gr.taker c = some p →
      (gr.sup = false → s.groupRuns w gr = true → (gr.path p).atBoundary = true →
        exec (.pendingCauseTaken h g) s = .next ((s.setGroup h g { gr with pend := rest }).raise h g p
          { cls := .boundary, cause := c.cause, info := c.info, faddr := c.faddr
            p31 := if c.ap then gr.activeMask else c.p31 } c.ap))
      ∧ (gr.sup = true → exec (.pendingCauseTaken h g) s = .refused (.notPending "PENDING_CAUSE_TAKEN")))
    ∧ (∀ n, gr.ap.nest = some n → s.groupRuns w gr = true → gr.ap.st = .running → gr.ap.wait = some .port →
      let r := gr.ap.nestRec n.reg
      r.port < gr.ports.length → (gr.port r.port).words.length < 64 → 0 < (gr.port r.port).permits →
      ∃ gr', exec (.nestPush h g) s = .next (s.setGroup h g gr') ∧ gr' = { gr with ap := gr'.ap, ports := gr'.ports }
        ∧ (gr'.port r.port).words = (gr.port r.port).words ++ [r.word n.idx n.opnd]
        ∧ (gr'.port r.port).permits = (gr.port r.port).permits - 1
        ∧ (r.two = true → n.opnd = 0 → gr'.ap = { gr.ap with nest := some { n with opnd := 1 } })
        ∧ ((r.two = false ∨ n.opnd ≠ 0) → gr'.ap = match r.next n.idx r.depth 0 with
          | some idx => { gr.ap with nest := some { n with idx := idx, opnd := 0 } }
          | none => { gr.ap with nest := none, wait := none, pc := (gr.ap.pc + 12) % 2 ^ 64 }))
    ∧ (∀ seq o t rest, gr.op? seq = some o → o.acks = t :: rest →
      ∃ gr', exec (.storeAcknowledgement h g seq) s = .next (s.setGroup h g gr')
        ∧ gr' = { gr with horizon := gr'.horizon, ops := gr'.ops }
        ∧ (∀ sc, gr'.horizonOf sc =
          if o.cls = none ∧ o.scope.covers sc = true then max (gr.horizonOf sc) t else gr.horizonOf sc)
        ∧ (∀ q, q.seq ≠ seq → (q ∈ gr'.ops ↔ q ∈ gr.ops))
        ∧ ∀ q ∈ gr'.ops, q.seq = seq → ∃ q0 ∈ gr.ops,
          q = { q0 with acks := rest, owed := q0.owed - 1, gvt := if o.cls = none then q0.gvt else max q0.gvt t })
    ∧ (∀ (k : CtrClass) o rest, gr.ops.filter (·.cls == some k) = o :: rest → s.engOver h g o = true →
      k.num < gr.ctrs.length → ∃ gr' t, t = { s.setGroup h g gr' with cores := t.cores }
        ∧ gr' = { gr with ctrs := gr'.ctrs, horizon := gr'.horizon, ops := gr.ops.filter (·.seq != o.seq) }
        ∧ gr'.counter k = gr.counter k - 1 ∧ (∀ j, j ≠ k → gr'.counter j = gr.counter j)
        ∧ (∀ sc, gr'.horizonOf sc = if o.scope.covers sc then max (gr.horizonOf sc) o.gvt else gr.horizonOf sc)
        ∧ (k ≠ .copy ∨ o.cause = none → exec (.engineCompletion h g k) s = .next t)
        ∧ ∀ c info addr, k = .copy → o.cause = some (c, info, addr) → exec (.engineCompletion h g k) s = .next
          ((t.setGroup h g ({ gr' with sr := { gr'.sr with cpbytes := BitVec.ofNat 32 o.step } }.modPath o.path fun p =>
            if p.wait == some (Wait.op o.seq) then { p with st := .ready, wait := none, stepOnce := false } else p)).raise h g
              o.path { cls := .group, cause := c, info := info, faddr := addr, p31 := o.mask }))
    ∧ ((∃ y ∈ gr.given, gr.targets y = false) → exec (.registersFreed h g) s =
      .next (s.setGroup h g { gr with given := gr.given.filter gr.targets }))
    ∧ ∀ (core bank quarter : Nat) (pool : Pool) (c : Claim) (rest : List Claim),
      (s.core core).queue (bank != 0) quarter pool = c :: rest → (s.core core).front.moves (bank != 0) = true →
      c.k ≤ s.poolFree core (bank != 0) quarter pool → c.wg = h → c.g = g → gr.halted = false →
      ∃ gr' t, exec (.claimGrant core bank quarter pool) s = .next t
        ∧ t = { s.setGroup h g gr' with cores := t.cores }
        ∧ (t.core core).claims = (s.core core).claims.erase c
        ∧ gr'.holding pool = gr.holding pool + c.k ∧ (∀ o, o ≠ pool → gr'.holding o = gr.holding o)
        ∧ (pool = .v → ∀ r, 32 * gr.vhold ≤ r → r < 32 * (gr.vhold + c.k) → gr'.vreg r = 0 ∧ gr'.isFull (.v r) = true)
        ∧ (c.floor = false → c.path < gr.paths.length → (gr'.path c.path).st = .ready
          ∧ (gr'.path c.path).pc = ((gr.path c.path).pc + 12) % 2 ^ 64)

/-- R195, R209, R264, R298, R309, R360: an operation whose values have come lands: each of its registers that no write of a
younger instruction has superseded takes its value in the lanes that it writes, and is full, and no other register changes;
flags that the values carry are raised, and an enabled one is kept as the cause of its path. A KVLD whose rows have been
read, with no ash record to append, writes what it read and its two rows of flags, in its lanes. -/
def Obligations.WritesLand : Prop :=
  ∀ (s : State) (h g seq : Nat) (w : Workgroup) (gr : Group) (o : Op), s.wg? h = some w → w.group? g = some gr →
    gr.op? seq = some o → o.landed = false → o.dst.Nodup →
    ((∀ c v e k d a b, o.instr ≠ .kvld c v e k d a b) → o.todo = 0 → o.fin = true →
      let fl := o.flagsByLane gr
      let hit := (List.range 32).filter fun l => fl.lane l &&& gr.sr.trapen &&& 0x3F != 0
      let may := fun r => r ∈ o.dst ∧ gr.mayLand r o.seq = true ∧ o.got ≠ 0
      ∃ gr', exec (.writeLands h g seq) s = .next (s.setGroup h g gr')
        ∧ gr' = { gr with v := gr'.v, s := gr'.s, preds := gr'.preds, ap := { gr.ap with s := gr'.ap.s, p := gr'.ap.p }
                          sb := gr'.sb, ops := gr'.ops, sr := { gr.sr with xflags := gr.sr.xflags ||| fl }, pend := gr'.pend }
        ∧ (∀ r, gr'.isFull r = true ↔ ∀ e ∈ gr.sb, e.reg = r → o.seq = e.seq ∧ r ∈ o.dst ∧ gr.mayLand r o.seq = true)
        ∧ (∀ j k, o.dst[j]? = some (.v k) → may (.v k) → ∀ l < 32,
          gr'.vword k l = if o.writes.getLsbD l then o.word j (o.source l) else gr.vword k l)
        ∧ (∀ j k, o.dst[j]? = some (.s k) → may (.s k) → ∃ l, o.got.getLsbD l = true ∧ gr'.sreg k = o.word j l)
        ∧ (∀ k, may (.p k) → ∀ l < 32, (gr'.pred k).getLsbD l =
          if (if o.instr.laneBound then o.x else o.mask).getLsbD l then o.stat.getLsbD (o.source l)
          else (gr.pred k).getLsbD l)
        ∧ (∀ j k, o.dst[j]? = some (.aps k) → may (.aps k) → look 0 gr'.ap.s k = o.word j 0)
        ∧ (∀ k < 32, may (.app k) → gr'.ap.p.getLsbD k = o.stat.getLsbD 0)
        ∧ (∀ k, ¬may (.v k) → gr'.vreg k = gr.vreg k) ∧ (∀ k, ¬may (.s k) → gr'.sreg k = gr.sreg k)
        ∧ (∀ k, ¬may (.p k) → gr'.pred k = gr.pred k) ∧ (∀ k, ¬may (.aps k) → look 0 gr'.ap.s k = look 0 gr.ap.s k)
        ∧ (∀ k, ¬may (.app k) → gr'.ap.p.getLsbD k = gr.ap.p.getLsbD k)
        ∧ (hit = [] → gr'.pend = gr.pend)
        ∧ (hit ≠ [] → ∃ c : PendCause, gr'.pend = (gr.addPend c).pend ∧ c.path = o.path ∧ c.cause = .arith
          ∧ c.p31 = Mask.ofLanes hit ∧ c.ap = (o.path == apPath)
          ∧ ∀ k < 32, c.info.testBit k = true ↔ ∃ l ∈ hit, (fl.lane l &&& gr.sr.trapen &&& 0x3F).getLsbD k = true))
    ∧ (∀ c v e kk d a b, o.instr = .kvld c v e kk d a b → s.engRead h g gr o = .done →
      let k := o.dst.length - 2
      let rs := s.kvResults o k
      let fl := rs.map fun r => (r.1, r.2.2.1)
      (∀ r ∈ rs, r.2.2.2 = []) → ∃ gr', exec (.writeLands h g seq) s = .next ((s.setGroup h g gr').kvSettle h g o)
        ∧ gr' = { gr with v := gr'.v, sb := gr'.sb, ops := gr'.ops, sr := { gr.sr with xflags := gr.sr.xflags ||| flagRow fl }
                          pend := gr'.pend }
        ∧ (∀ r, gr'.isFull r = true ↔ ∀ e ∈ gr.sb, e.reg = r →
          o.seq = e.seq ∧ r ∈ o.dst ∧ gr.mayLand r o.seq = true ∧ ∃ i, r = .v i)
        ∧ (∀ j i, o.dst[j]? = some (.v i) → gr.mayLand (.v i) o.seq = true → ∀ l < 32, gr'.vword i l =
          if !o.got.getLsbD l then gr.vword i l
          else if j < k then BitVec.ofNat 32 (((rs.find? (·.1 == l)).map fun r => r.2.1.getD j 0).getD 0)
          else (o.rows.getD (j - k + 1) 0).lane l)
        ∧ (∀ i, Reg.v i ∉ o.dst ∨ gr.mayLand (.v i) o.seq = false → gr'.vreg i = gr.vreg i)
        ∧ ∀ q ∈ gr'.ops, q.seq = seq → q.todo = 0 ∧ q.fin = true ∧ q.landed = true)
    ∧ ∀ c v e kk d a b s1 gr1 o1, o.instr = .kvld c v e kk d a b → s.engRead h g gr o = .some s1 →
      s1.group? h g = some gr1 → gr1.op? seq = some o1 → exec (.writeLands h g seq) s =
        .next (if o1.todo = 0 then s1.kvSettle h g o1 else s1)

/-- R77, R78, R84, R105, R173, R174, R303, R316, R332, Tables 4.3 and 8.2: events of a core and of a barrier. An
operation on a granule waits in its queue or performs, with the bit of Table 4.3; a visit of a stage ring meets its header,
or raises STAGE_PHASE; an engine write lands, and with its operation's last byte there fills its granule; the header of a
stage slot is written once its payload has landed; a phase that is complete lets its paths go on; the units
take the first operation that waits for them; and a position is installed, revoked and freed. -/
def Obligations.CoreEvents : Prop :=
  ∀ (s : State) (core : Nat),
    let erased := fun (k : Nat) => s.modCore core fun c => { c with bankQ := c.bankQ.eraseIdx k }
    let there := fun (wg : Nat) => core < 1024 → ((s.wg? wg).bind (·.onCore core)).isSome = true
    (∀ (k : Nat) (b : BankOp), (s.core core).bankNext k = some b → s.stageBehind b = false →
      let gn := s.gran b.wg core b.gran
      let op := (s.group? b.acc.wg b.acc.g).bind (·.op? b.acc.seq)
      let sound := ∀ a ∈ b.accs, ∀ o, (s.group? a.wg a.g).bind (·.op? a.seq) = some o → o.cause = none ∧ o.isStageIn = false
      (gn.waits b.qual b.isStore = true → exec (.granuleOp core k) s =
        .next ((erased k).setGran b.wg core b.gran { gn with waiters := gn.waiters ++ [b] }))
      ∧ (b.qual = .none → b.eng = false → there b.wg → sound → op.all (!·.isStageIn) = true →
        ∃ t, exec (.granuleOp core k) s = .next t ∧ ∀ i < 8,
          let row := b.accs.foldl (fun (r : Row) a => (a.apply r).1) (s.granRow b.wg core b.gran)
          let was := s.gran b.wg core (b.gran + i)
          t.gran b.wg core (b.gran + i) =
            if b.accs.any (fun a => a.writes && rangesMeet a.off a.n (16 * i) 16)
            then { was with data := (row >>> (128 * i)).setWidth 128 } else was)
      ∧ (b.qual ≠ .none → b.eng = false → gn.waits b.qual b.isStore = false → gn.waiters = [] → there b.wg → sound →
        ∃ t, exec (.granuleOp core k) s = .next t
          ∧ (t.gran b.wg core b.gran).full = (match b.qual, b.isStore with
            | .none, _ | .peek, false => gn.full
            | .take, false => false
            | .wait, false | .wait, true | .take, true | .peek, true => true)
          ∧ (t.gran b.wg core b.gran).data = (if b.qual = .peek ∧ b.isStore = true ∧ gn.full = true then gn.data
            else (b.acc.apply gn.row).1.setWidth 128))
      ∧ (b.eng = true → gn.waits b.qual b.isStore = false → ∀ o, op = some o → o.isStageIn = false →
        exec (.granuleOp core k) s = .next ((((erased k).modGroup b.acc.wg b.acc.g fun gr =>
          gr.modOp o.seq fun o => { o with step := 1 })).engineWrite core b.wg b.acc.g o.seq (16 * (o.slot + 1))
            ((o.rows.flatMap (·.bytes)).take (16 * o.payload))))
      ∧ (b.eng = false → gn.waits b.qual b.isStore = false → ∀ o, op = some o → o.isStageIn = true → there b.wg →
        (∀ i ≤ o.payload, (s.gran b.wg core (b.gran + i)).waiters = []) →
        let cur := (o.args.getD 0 0).toNat
        ∃ t, exec (.granuleOp core k) s = .next t
          ∧ (gn.data.getLsbD 0 = cur.testBit 8 → (∀ i ≤ o.payload, (t.gran b.wg core (b.gran + i)).full = false)
            ∧ ∀ i, (t.gran b.wg core i).data = (s.gran b.wg core i).data)
          ∧ (gn.data.getLsbD 0 ≠ cur.testBit 8 → t = ((erased k).modGroup b.acc.wg b.acc.g fun gr =>
            ({ gr with sb := gr.sb.filter (·.seq != o.seq) }.dropOp o.seq).modPath o.path fun q =>
              { q with st := .ready, wait := none }).raise b.acc.wg b.acc.g o.path
                { cls := .group, cause := .stagePhase, p31 := o.mask })))
    ∧ (∀ (k : Nat) (e : EngWrite), (s.core core).engW[k]? = some e → (s.gran e.wg core e.gran).waiters = [] → there e.wg →
      ∃ t, exec (.engineWriteLands core k) s = .next t ∧ (t.core core).engW = (s.core core).engW.eraseIdx k
        ∧ (t.gran e.wg core e.gran).data = ((s.gran e.wg core e.gran).row.putBytes e.off e.bytes).setWidth 128
        ∧ (t.gran e.wg core e.gran).full = ((s.gran e.wg core e.gran).full
          || !(((s.core core).engW.eraseIdx k).any (fun f => f.wg == e.wg && f.g == e.g && f.seq == e.seq && f.gran == e.gran)
            || s.cores.any fun c => c.2.copyQ.any fun r => r.wg == e.wg && r.g == e.g && r.seq == e.seq && r.owes core e.gran)))
    ∧ (∀ (h g seq : Nat) (gr : Group) (o : Op), s.group? h g = some gr → gr.op? seq = some o → o.isStageOut = true → o.todo ≠ 0 →
      o.step ≠ 0 → (∀ e ∈ (s.core gr.core).engW, ¬(e.wg = h ∧ e.g = g ∧ e.seq = seq)) →
      ∃ gr' : Group, exec (.stageOutWrite h g seq) s = .next ((s.setGroup h g gr').writeHeader h gr.core o)
        ∧ gr' = { gr with horizon := gr'.horizon, ops := gr'.ops }
        ∧ (∀ sc, gr'.horizonOf sc =
          if o.cls = none ∧ o.scope.covers sc = true then max (gr.horizonOf sc) (upTick s.cycle) else gr.horizonOf sc)
        ∧ ∀ q ∈ gr'.ops, q.seq = seq → q.todo = 0 ∧ (o.cls ≠ none → upTick s.cycle ≤ q.gvt))
    ∧ (∀ (h : Nat) (o : Op) (w : Workgroup) (c : WgCore), s.wg? h = some w → w.onCore core = some c →
      let gn := s.gran h core o.slot
      gn.waiters = [] → core < 1024 → ((s.writeHeader h core o).gran h core o.slot).full = true
        ∧ ((s.writeHeader h core o).gran h core o.slot).data.toNat =
          gn.data.toNat / 2 * 2 + if (o.args.getD 0 0).toNat.testBit 8 then 1 else 0)
    ∧ (∀ (h k : Nat) (b : BarPhase), s.bars[k]? = some b → s.phaseDone b = true → b.gang = none → b.wg = h →
      ∃ t : State, exec (.barrierPhaseComplete h k) s = .next t
        ∧ ∀ (j g p : Nat) (gr : Group), (j, g, p) ∈ b.arrived → s.group? j g = some gr → gr.halted = false →
          (gr.path p).wait = some .barrier → p < gr.paths.length → ∃ gr' : Group, t.group? j g = some gr'
            ∧ (gr'.path p).st = .ready ∧ (gr'.path p).pc = ((gr.path p).pc + 12) % 2 ^ 64
            ∧ (gr'.path p).mask = (gr.path p).mask)
    ∧ (∀ (h g seq : Nat) (rest : List (Nat × Nat × Nat)) (gr : Group) (o : Op), (s.core core).matrixQ = (h, g, seq) :: rest → s.group? h g = some gr →
      gr.op? seq = some o → o.fin = false → o.segs = [] → s.engClear h g gr o = true → (tileResult gr o []).ash = [] →
      (∀ img, (tileResult gr o []).w ≠ .store img) →
      exec (.matrixStart core) s = .next (s.setGroup h g ((gr.tileStart o (tileResult gr o [])).engFlags o (tileResult gr o []).fl)))
    ∧ (∀ (h g seq : Nat) (rest : List (Nat × Nat × Nat)) (gr : Group) (o : Op), (s.core core).xformQ = (h, g, seq) :: rest → s.group? h g = some gr →
      gr.op? seq = some o → s.xfReady h g gr o = true → (xfResult s h core o).ash = [] →
      ∃ (gr' : Group) (t : State), t = { s.setGroup h g gr' with cores := t.cores } ∧ (t.core core).xformQ = rest
        ∧ exec (.transformStart core) s = .next (if o.dst = []
          then t.engineWrite core h g seq (o.args.getD 0 0).toNat (xfResult s h core o).bytes else t)
        ∧ gr' = ((gr.putImage o (xfResult s h core o).bytes).modOp seq fun o =>
          { o with todo := 0, fin := true, landed := true }).engFlags o (xfResult s h core o).fl)
    ∧ (∀ (r : CopyRun) (rest : List CopyRun) (w : Workgroup) (gr : Group) (o : Op), (s.core core).copyQ = r :: rest → s.wg? r.wg = some w → w.group? r.g = some gr →
      gr.op? r.seq = some o → r.over = false → s.runClear core o.prior r = true →
      (o.args = [] → exec (.recordEntry core) s = .next (s.decideCopy core r.wg r.g r.seq w.ctx))
      ∧ (o.args = [1] → ∀ r' t, s.eagerStep core r = .ok (r', t) →
        exec (.recordEntry core) s = .next (t.putRun core 0 r' false))
      ∧ (o.args = [0] → r.listing = false → r.done = 0 → r.snap = none → ∀ e t, r.cand w.ctx = some e → s.pnRoom e = true →
        (∀ f ∈ s.pn, f.mirror = true → f.anteMeets e.dbase e.dext = false) → s.recordRun r e = .ok t →
        exec (.recordEntry core) s = .next (t.putRun core 0 { r with done := r.len } true)))
    ∧ ∀ (h : Nat) (w : Workgroup) (c : WgCore), s.wg? h = some w → w.onCore core = some c →
      (∀ (g seq : Nat), c.joining = some (g, seq) → ∃ w' : Workgroup,
        exec (.clusterInstall h core) s = .next ((s.setWg h w').answer h g seq [BitVec.ofNat 32 c.pos, 0])
        ∧ w'.groups = w.groups ∧ w'.cores.length = w.cores.length ∧ ∀ (k : Nat) (d : WgCore), w.cores[k]? = some d → ∃ d' : WgCore,
          w'.cores[k]? = some d' ∧ d'.core = d.core ∧ d'.cluster = d.cluster ∧ d'.pos = d.pos
          ∧ (d.core = core → d'.joining = none)
          ∧ (d.core ≠ core → d.cluster = c.cluster → d.leaving = none →
            { pos := c.pos, core := core, revoking := false } ∈ d'.map)
          ∧ (d.core ≠ core → d.cluster ≠ c.cluster ∨ d.leaving ≠ none → d' = d))
      ∧ (∀ (ms : List Nat) (m : Nat), c.leaving = some ms → m ∈ ms → c.joining = none →
        s.engineBehind h core m c.pos w = false →
        (∀ d ∈ s.cores, ∀ b ∈ d.2.bankQ, ¬(b.wg = h ∧ behindLeave m core c.pos b = true)) →
        (∀ d ∈ w.cores, ∀ e ∈ d.grans, ∀ b ∈ e.2.waiters, ¬(b.wg = h ∧ behindLeave m core c.pos b = true)) →
        ∃ w' : Workgroup, exec (.clusterRevoke h core m) s = .next (s.setWg h w') ∧ w'.groups = w.groups
          ∧ (∃ c' : WgCore, w'.onCore core = some c' ∧ c'.leaving = some (ms.erase m))
          ∧ ∀ d' : WgCore, w'.onCore m = some d' → ∀ e ∈ d'.map, m = core ∨ e.pos = c.pos → e.revoking = true)
      ∧ (c.leaving = some [] → (∀ x ∈ w.groups, x.2.core = core → ∀ o ∈ x.2.ops, o.todo ≠ 0 → ∀ c d b, o.instr ≠ .cjoin c d b) →
        ∃ (t : State) (w' : Workgroup) (c' : WgCore), exec (.cleaveAck h core) s = .next t ∧ t.wg? h = some w' ∧ w'.onCore core = some c'
          ∧ c'.cluster = none ∧ c'.map = [] ∧ c'.leaving = none ∧ c'.joins = 0
          ∧ (∀ d' ∈ w'.cores, d'.core ≠ core → d'.cluster = c.cluster → ∀ e ∈ d'.map, e.pos ≠ c.pos)
          ∧ ∀ (g seq : Nat) (gr : Group) (o : Op), c.cleaver = some (g, seq) → w.group? g = some gr → gr.op? seq = some o →
            ∃ (gr' : Group) (o' : Op), w'.group? g = some gr' ∧ gr'.op? seq = some o' ∧ o'.res = [Row.splat 2] ∧ o'.todo = 0)
      ∧ (c.freed = false → (∀ x ∈ w.groups, x.2.core = core → x.2.ended = true) → c.cluster = none →
        (∀ e ∈ (s.core core).engW, e.wg ≠ h) → (∀ b ∈ (s.core core).bankQ, b.wg ≠ h) → (∀ e ∈ c.grans, e.2.waiters = []) →
        (∀ x ∈ s.cores, ∀ r ∈ x.2.copyQ, ∀ p ∈ r.dst, ∀ o, p.place ≠ .loc h core o) →
        exec (.localRegionFree h core) s =
          .next (s.modWg h (·.modCore core fun c => { c with freed := true, grans := [] })))

namespace Sys2Proof.Machine

/-- The lines of a quad's L1s that came through a table line and hold dirty data. -/
def State.dirtyVia (s : State) (q line : Nat) : List L1Line :=
  (coresOfQuad q).flatMap fun c => (s.core c).l1d.filter fun l => l.tr.via.contains line && (l.st == .m || l.st == .o)

end Sys2Proof.Machine

open Sys2Proof Sys2Proof.Machine

/-- R29, R30, R32, R34, R38, Table 2.6: events of translation. A walk whose level-two table the quad knows reads the leaf
entry, keeps the fault of its first failing check or enters the translation, in a set of eight; the first access that uses it
sets A, and a write D, by compare-and-set, and an entry that differs from what the walk read ends the translation; a store to
a table line sends an invalidation to every translation sharer; at a quad everything formed from the line goes, its dirty data
home; and the acknowledgement leaves 40 cycles after the arrival at the soonest, when no access under the line is unfinished.
Which bits choose the set, and which translation leaves a full one, is the model's choice (log 127). -/
def Obligations.TranslationEvents : Prop :=
  ∀ (s : State) (q : Nat),
    (∀ (r : WalkReq) (rest : List WalkReq) (w : WalkEnt), (s.quad q).walks = r :: rest → w.next % 0x1_0000 = 0 →
      (s.quad q).wc.find? (fun w => w.ctx == r.ctx && w.level == 2 && w.va == r.page / 0x2000_0000 * 0x2000_0000) = some w →
      let a := w.next + 8 * bitsOf r.page 28 16
      let l := lineOf a
      let met := fun (s1 : State) (c : Cause) (i : Nat) => ∃ t : State, exec (.pageWalk q) s = .next t ∧ (t.quad q).walks = rest
        ∧ (t.quad q).faults = (s1.quad q).faults ++ [{ req := r, cause := c, level := i }] ∧ (t.quad q).tc = (s1.quad q).tc
      let lost := s.isLost l || (s.redirects l && (s.lackAt l).isSome)
      (lost = true → met s .homeLost (homeDie a))
      ∧ (lost = false → s.quiet l = false → exec (.pageWalk q) s = .refused (.notPending "PAGE_WALK"))
      ∧ (lost = false → s.quiet l = true → ∀ b t, s.tableTrack l (s.tenancyOf r.ctx) = .busy (some b) →
        s.begin? (some b) = some t → exec (.pageWalk q) s = .next t)
      ∧ (lost = false → s.quiet l = true → ∀ s1, s.tableTrack l (s.tenancyOf r.ctx) = .ok s1 →
        let e := entryIn (s1.readShared l).1 a
        let backed := isBacked (pteFrame e + (r.page - r.page / 0x1_0000 * 0x1_0000))
        let met := met s1
        (∀ c i, leafCheck s.podid 3 e = some (c, i) → met c i)
        ∧ (leafCheck s.podid 3 e = none → (pteAttr e).permits r.kind r.sup = false → met .perm 0)
        ∧ (leafCheck s.podid 3 e = none → (pteAttr e).permits r.kind r.sup = true → backed = false → met .physRange 0)
        ∧ (leafCheck s.podid 3 e = none → (pteAttr e).permits r.kind r.sup = true → backed = true → bitsOf e 12 12 = 0 →
          let tr : Trans := { ctx := r.ctx, va := r.page / 0x1_0000 * 0x1_0000, size := 0x1_0000, pa := pteFrame e,
                              attr := pteAttr e, aknown := bitsOf e 10 10 == 1, dknown := bitsOf e 11 11 == 1, leaf := a
                              seen := [e], via := l :: w.via }
          let others := (s1.quad q).tc.filter fun u => !(u.ctx == tr.ctx && u.va == tr.va && u.size == tr.size)
          let set := others.filter fun u => u.set == tr.set
          ∃ t : State, exec (.pageWalk q) s = .next t ∧ (t.quad q).walks = rest ∧ (t.quad q).faults = (s1.quad q).faults
            ∧ (t.quad q).tc = tr :: (if set.length < 8 then others else match set.getLast? with
              | some v => others.erase v
              | none => others)
            ∧ q ∈ t.tableSharers l ∧ t.isTable l = true ∧ t.wgs = s1.wgs ∧ t.homes = s1.homes ∧ t.msgs = s1.msgs)))
    ∧ (∀ (core : Nat) (wr : Bool) (t : Trans) (e : Nat), t.size ≠ 0x20_0000 → t.leaf % 8 = 0 → t.seen = [e] →
      let l := lineOf t.leaf
      let need := (if t.aknown then 0 else 2 ^ 10) + (if wr && !t.dknown then 2 ^ 11 else 0)
      let old := entryIn (s.coherentRow l) t.leaf
      (need = 0 → s.useTrans core wr t = .ok s)
      ∧ (old ||| need ≠ old → pteFixed old ≠ pteFixed e → s.useTrans core wr t = .wait [.stale l (quadOf core)])
      ∧ (∀ s1, need ≠ 0 → s.useTrans core wr t = .ok s1 → entryIn (s1.coherentRow l) t.leaf = old ||| need
        ∧ ∀ u ∈ (s1.quad (quadOf core)).tc, u.leaf = t.leaf → u.size = t.size → u.ctx = t.ctx →
          u.aknown = true ∧ (wr = true → u.dknown = true)))
    ∧ ∀ line : Nat,
      (∀ x : HomeTxn, s.txn? line = some x → x.wait = .table → s.tableSharers line ≠ [] →
        ∃ t : State, exec (.tableLineStore line) s = .next t ∧ t.txn? line = some { x with wait := .tinv (s.tableSharers line) }
          ∧ t.tableSharers line = [] ∧ (∀ k ∈ s.tableSharers line, ({ line := line, arrived := none } : TInv) ∈ (t.quad k).tinv)
          ∧ (∀ k, k ∉ s.tableSharers line → t.quad k = s.quad k)
          ∧ t = { s with quads := t.quads, dir := t.dir, homes := t.homes })
      ∧ ((∃ x ∈ (s.quad q).tinv, x.line = line ∧ x.arrived = none) →
        let u := s.quad q
        ∃ t : State, exec (.translationInvalidation q line) s = .next t
          ∧ t.quad q = { u with
              tc := u.tc.filter fun x => !x.via.contains line
              wc := u.wc.filter fun x => !x.via.contains line
              desc := u.desc.filter fun d => lineOf (s.ctxbase.toNat + 16 * d.1) != line
              faults := []
              tinv := modWhere (·.line == line) (fun x => { x with arrived := some s.cycle }) u.tinv }
          ∧ (∀ c ∈ coresOfQuad q, (t.core c).l1d = (s.core c).l1d.filter (fun l => !l.tr.via.contains line)
            ∧ (t.core c).l1i = (s.core c).l1i.filter (fun l => !l.tr.via.contains line))
          ∧ (∀ c, c ∉ coresOfQuad q → t.core c = s.core c)
          ∧ (∀ l, s.dirtyVia q line = [l] → ∃ x, t.l2? l.line = some x ∧ x.data = l.data ∧ x.dirty = true)
          ∧ t = { s with quads := t.quads, cores := t.cores, l2 := t.l2, mem := t.mem, highWater := t.highWater })
      ∧ ∀ (x : TInv) (c : Nat), (s.quad q).tinv.find? (·.line == line) = some x → x.arrived = some c →
        (s.cycle < c + 40 ∨ s.drained line q = false →
          exec (.translationAck q line) s = .refused (.notPending "TRANSLATION_ACK"))
        ∧ (c + 40 ≤ s.cycle → s.drained line q = true →
          let acked := (s.modQuad q fun u => { u with tinv := u.tinv.filter (·.line != line) }).modTxn line fun t =>
            { t with wait := match t.wait with
                | .tinv qs => .tinv (qs.erase q)
                | w => w }
          exec (.translationAck q line) s = .next (acked.settleHome line)
          ∧ ∀ (y : HomeTxn) (qs : List Nat), s.txn? line = some y → y.wait = .tinv qs → qs.erase q ≠ [] →
            acked.settleHome line = acked.settleRest)

/-- R43, R100, R109, R111 to R114, R116, Tables 5.3 and 5.4: events of windows and of Stackers. A read that misses L2 in a window takes its
values through it and heats its entries; the entry of a die that became hot first goes RESOLVING; a write of antecedents
makes the entries it affects RESOLVING; a RESOLVING entry whose lines are not lost is resolved and free; and a write of
a destination resolves its line, which the windows over it lose. A Stacker records a mirror entry for each of the 32
frames, rewrites their entries where none has changed, gives the move up where one has, and releases the frames when
the entries are resolved. -/
def Obligations.WindowEvents : Prop :=
  ∀ (s : State) (line : Nat) (x : HomeTxn),
    (s.txn? line = some x → x.wait = .redirect → s.redirects line = true → s.lackAt line = none →
      let hot := s.heatLine line
      exec (.redirectedRead line) s = .next ((if isUnc x.req then hot.modTxn line fun t => { t with data := some (s.homeValue line) }
        else hot.putL2 line (s.homeValue line) false).settleHome line)
      ∧ hot = { s with pn := hot.pn } ∧ hot.pn.length = s.pn.length
      ∧ ∀ (k : Nat) (e : PnEnt), s.pn[k]? = some e →
        (e.meets line 128 = false ∨ e.st = .resolving → hot.pn[k]? = some e)
        ∧ (e.meets line 128 = true → e.st ≠ .resolving → hot.pn[k]? = some (
          if e.st = .live ∧ e.hlim ≠ 0 ∧ min (e.heat + 1) 255 = e.hlim then
            { e with heat := min (e.heat + 1) 255, st := .hot, hotAt := s.cycle }
          else { e with heat := min (e.heat + 1) 255 })))
    ∧ (∀ (die : Nat) (e : PnEnt), e ∈ s.pn → e.die = die → e.st = .hot →
      (∀ f ∈ s.pn, f.die = die → f.st = .hot → e.hotAt < f.hotAt ∨ f = e) →
      (∀ f ∈ s.pn, f.die = die → f.st = .resolving → f.hotAt = 0 ∨ s.stuck f = true) →
      exec (.hotResolution die) s = .next { s with pn := modWhere (·.id == e.id) (fun e => { e with st := .resolving }) s.pn })
    ∧ (∀ off n, s.txn? line = some x → x.wait = .antecedent → x.req.span = some (off, n) →
      (∃ e ∈ s.anteOf (line + off) n, e.st ≠ .resolving) →
      exec (.antecedentWrite line) s = .next { s with
        pn := modWhere (fun e => !e.mirror && e.anteMeets (line + off) n) (fun e => { e with st := .resolving }) s.pn })
    ∧ (∀ e : PnEnt, s.pn.find? (·.id == e.id) = some e → e.st = .resolving → e.lo < e.hi →
      (∀ l, s.isLost l = false) → (∀ l ∈ e.lines, s.translated? [l] = none) →
      ∃ t : State, exec (.resolutionComplete e.id) s = .next t ∧ t.pn = s.pn.filter (·.id != e.id)
        ∧ t = { s with pn := t.pn, l2 := t.l2, mem := t.mem, highWater := t.highWater }
        ∧ ∀ l, e.lines = [l] → ∃ y, t.l2? l = some y ∧ y.data = s.homeValue l ∧ y.dirty = true)
    ∧ (s.txn? line = some x → x.wait = .destination → s.resolvingAt line = false → s.lackAt line = none →
      s.translated? ((s.spills line).filter (· != line)) = none → exec (.destinationWrite line) s = .next ((s.trimLine line).settleHome line)
      ∧ ∀ e : PnEnt, s.windowsOf line = [e] → e.lo < e.hi → (∀ f ∈ s.pn, f.id = e.id → f = e) →
        let lo := max line e.winLo - e.dbase
        let hi := min (line + 128) e.winHi - e.dbase
        let others := s.pn.filter (·.id != e.id)
        (lo ≤ e.lo ∨ e.hi ≤ hi ∨ s.pnRoom e = true →
          ∃ y, (s.trimLine line).l2? line = some y ∧ y.data = s.homeValue line ∧ y.dirty = true)
        ∧ (lo ≤ e.lo → e.hi ≤ hi → (s.trimLine line).pn = others)
        ∧ (lo ≤ e.lo → hi < e.hi →
          (s.trimLine line).pn = modWhere (·.id == e.id) (fun e => { e with lo := hi }) s.pn)
        ∧ (e.lo < lo → e.hi ≤ hi →
          (s.trimLine line).pn = modWhere (·.id == e.id) (fun e => { e with hi := lo }) s.pn)
        ∧ (e.lo < lo → hi < e.hi → s.pnRoom e = true →
          (s.trimLine line).pn = modWhere (·.id == e.id) (fun e => { e with hi := lo }) s.pn ++ [{ e with id := s.nextPn, lo := hi }]))
    ∧ ∀ (d g ctx va : Nat), d < 8 → g < 8 → d < s.dies.length → g < (s.die d).stackers.length →
      (∀ m : Move, (s.stacker d g).moves.find? (!·.done) = some m → m.ctx = ctx → m.va = va → m.table % 256 = 0 → isHbm (m.table + 255) = true →
        (∀ l, l = m.table ∨ l = m.table + 128 → s.quiet l = true) →
        let es := s.leafGroup m.table
        let without : State := { s with pn := s.pn.filter fun e => !((s.mirrorsOf m.run).any (·.id == e.id)) }
        (es.map pteFixed ≠ m.expect.map pteFixed → (∀ e ∈ s.mirrorsOf m.run, e.st ≠ .resolving) →
          ∀ s1, without.writePhys .dir ((s.stacker d g).frbase.toNat - 8) (bytesOfNat 8 m.run) = .ok s1 →
          exec (.stackerMove d g ctx va) s = .next (s1.modStacker d g fun x =>
            { x with frbase := x.frbase - 8, moves := x.moves.erase m }))
        ∧ (es.map pteFixed = m.expect.map pteFixed →
          (∀ l, l = m.table ∨ l = m.table + 128 → s.isLost l = false ∧ s.windowsOf l = [] ∧ s.anteOf l 128 = [] ∧
            s.mirrorOf l 128 = [] ∧ s.translated? [l] = none) →
          ∃ t : State, exec (.stackerMove d g ctx va) s = .next t
            ∧ (t.stacker d g) = { s.stacker d g with
                moves := modWhere (· == m) (fun m => { m with done := true }) (s.stacker d g).moves }
            ∧ ∀ k < 32, entryIn (t.coherentRow (lineOf (m.table + 8 * k))) (m.table + 8 * k) =
              (pteMoved (es.getD k 0) (m.run + 0x1_0000 * k)) % 2 ^ 64))
      ∧ (∀ (table : Nat) (bs : List Byte) (s1 s2 : State),
        (s.stacker d g).moves.find? (!·.done) = none → (s.die d).fenced = false →
        va % 0x20_0000 = 0 → (s.stacker d g).frbase ≠ (s.stacker d g).frlim → (s.stacker d g).rlbase ≠ (s.stacker d g).rllim →
        s.pnOnDie d + 1024 ≤ 8192 → s.idxOnDie d + 1024 ≤ 8192 → s.leafPlace ctx va = some table →
        movable s.podid (d, g) (s.leafGroup table) = true → s.readPhys (s.stacker d g).frbase.toNat 8 = .ok (bs, s1) →
        let run := bitsOf (natOfBytes bs) 51 21 * 0x20_0000
        s1.recordMirrors ((List.range 32).map fun k =>
          mirrorEnt ctx (run + 0x1_0000 * k) (pteFrame ((s.leafGroup table).getD k 0))) = .ok s2 →
        exec (.stackerMove d g ctx va) s = .next (s2.modStacker d g fun x =>
          { x with
            frbase := x.frbase + 8
            moves := x.moves ++ [{ ctx := ctx, va := va, run := run, table := table, expect := s.leafGroup table,
                                   done := false, frames := (s.leafGroup table).map pteFrame }] }))
      ∧ ∀ m : Move, (s.stacker d g).moves.find? (·.done) = some m →
        (∀ e rest, s.mirrorsOf m.run = e :: rest → s.stuck e = false → e.st ≠ .resolving →
          (∀ l ∈ e.lines, s.quiet l = true) → s.translated? e.lines = none →
          exec (.stackerRelease d g) s = .next (s.resolveEntry e))
        ∧ (s.mirrorsOf m.run = [] → ∀ fs s1, s.releaseFrames d g m.frames = .ok (fs, s1) →
          (fs = [] → exec (.stackerRelease d g) s = .next (s1.modStacker d g fun x => { x with moves := x.moves.erase m }))
          ∧ (fs ≠ [] → fs ≠ m.frames → exec (.stackerRelease d g) s = .next (s1.modStacker d g fun x =>
            { x with moves := modWhere (· == m) (fun m => { m with frames := fs }) x.moves }))
          ∧ (fs ≠ [] → fs = m.frames → exec (.stackerRelease d g) s = .refused (.notPending "STACKER_RELEASE")))

namespace Sys2Proof.Machine

/-- The event of a request for a DIR line, and of a probe. -/
def ReqKind.event (k : ReqKind) (core line : Nat) : Instr :=
  match k with
  | .rd => .rd core line
  | .rfo => .rfo core line
  | .rfoz => .rfoz core line
  | .upg => .upg core line
def ProbeKind.event (k : ProbeKind) (core line : Nat) : Instr :=
  match k with
  | .inv => .inv core line
  | .fwdRd => .fwdRd core line
  | .fwdRfo => .fwdRfo core line

/-- The probes for ownership of Table 6.3: the owner is forwarded to, and every sharer is invalidated, but for the
core that asks. -/
def TrackEnt.ownProbes (e : TrackEnt) (core : Nat) : List (Nat × ProbeKind) :=
  match e.st with
  | .i => []
  | .s => (e.sharers.filter (· != core)).map fun c => (c, .inv)
  | .x => if e.owner = core then [] else [(e.owner, .fwdRfo)]
  | .o => (if e.owner = core then [] else [(e.owner, .fwdRfo)])
      ++ (e.sharers.filter fun c => c != core && c != e.owner).map fun c => (c, .inv)

/-- A line that is idle at its home, not lost, and under no window. -/
abbrev State.idleLine (s : State) (line : Nat) : Prop :=
  s.txn? line = none ∧ s.isLost line = false ∧ s.windowsOf line = []

/-- A line that is no antecedent and no table line. -/
abbrev State.plainLine (s : State) (line : Nat) : Prop :=
  s.anteOf line 128 = [] ∧ s.mirrorOf line 128 = [] ∧ s.isTable line = false

/-- An entry of the directory for one line, named exactly, of one tenancy. -/
abbrev TrackEnt.exactFor (e : TrackEnt) (ten : Nat) : Prop :=
  e.isLine = true ∧ e.coarse = false ∧ e.mixed = false ∧ e.tenancy = ten

end Sys2Proof.Machine

open Sys2Proof Sys2Proof.Machine

/-- R97, R127 to R133, R136, R149, Table 6.3: a request for a DIR line, those of one cycle by core, waits behind the one in
progress, or starts: it is refused where the line is lost, waits at its first stage that is not clear, sends the probes of
Table 6.3, or is granted, a request for ownership with the time at which the last answer came. A probe is answered by the core
with what it held, an invalidation drops it; and with the last answer the line is granted. Of a line entry of one tenancy that
names its cores, the probes, grants and new states are given one by one. What a new entry covers, what the home keeps after an
answer from a write-back buffer, when an entry counts as mixed, and that a core whose own request is queued answers a probe at
once, are the model's choices (logs 130, 131, 132, 134). -/
def Obligations.LineRequests : Prop :=
  ∀ (s s0 : State) (core line ten : Nat) (k : ReqKind),
    (s.take? core line true = some (.req (.dir core k ten), s0) → s0.inOrder core line = true →
      let s1 : State := { s0 with arrivals := (line, s0.cycle, core) :: s0.arrivals.filter (·.2.1 == s0.cycle) }
      let req : HomeReq := .dir core k ten
      let txn := fun (w : HomeWait) (exact : Bool) => ({ line := line, req := req, wait := w, data := none, answers := []
                                                         exact := exact, heldWb := none, queue := [] } : HomeTxn)
      let starts := fun (s2 : State) (w : HomeWait) (exact : Bool) => exec (k.event core line) s =
        .next (State.settleRest { s2 with homes := s2.homes ++ [txn w exact] })
      let atHome := k ≠ .rd ∧ (s1.isTable line = true ∨ s1.mirrorOf line 128 ≠ [])
      let busy := fun (s2 : State) (e : TrackEnt) (ps : List (Nat × ProbeKind)) (exact : Bool) =>
        exec (k.event core line) s = .next (State.settleRest { s2 with
          homes := s2.homes ++ [txn (.acks (ps.map (·.1))) exact]
          msgs := s2.msgs ++ ps.map fun p =>
            { core := p.1, line := line, toHome := false
              kind := .probe p.2 (!e.coarse || ((e.st == .x || e.st == .o) && p.1 == e.owner)) e.tenancy } })
      let grant := fun (s2 : State) (e' : TrackEnt) (st : L1St) (data : Option Row) (gvt : Nat) =>
        exec (k.event core line) s =
          .next (((s2.setTrack line fun _ => e').send core line false (.grant st data gvt)).settleRest)
      (∀ x, s1.txn? line = some x → exec (k.event core line) s =
        .next ((s1.modTxn line fun t => { t with queue := t.queue ++ [req] })))
      ∧ (s1.txn? line = none → ∀ m, atHome → (s1.core core).miss? line = some m → exec (k.event core line) s =
        .next (State.settleHome { (s1.modCore core fun x => { x with misses := x.misses.filter (· != m) }) with
          homes := s1.homes ++ [{ txn .antecedent false with req := .tableStore core .dir m.accs }] } line))
      ∧ (s1.txn? line = none → (atHome → (s1.core core).miss? line = none) →
        exec (k.event core line) s =
          .next (State.settleHome { s1 with homes := s1.homes ++ [txn .antecedent false] } line)
        ∧ (s1.refuses line req = true → exec (k.event core line) s =
          .next ((s1.send core line false (.refuse (homeDie line))).settleRest))
        ∧ (s1.refuses line req = false →
          let blocked := !(s1.anteOf line 128).isEmpty || s1.mirrorResolving line 0 128
          (k ≠ .rd → blocked = true → starts s1 .antecedent false)
          ∧ (k ≠ .rd → blocked = false → (s1.translated? [line]).isSome = true → starts s1 .table false)
          ∧ (k ≠ .rd → blocked = false → (s1.translated? [line]).isSome = false → s1.windowsOf line ≠ [] →
            starts s1 .destination false)
          ∧ ((k ≠ .rd → blocked = false ∧ (s1.translated? [line]).isSome = false ∧ s1.windowsOf line = []) →
            (s1.trackFor line req = .busy none → starts s1 .copies false)
            ∧ (∀ c s2 e, s1.trackFor line req = .ok (c, s2) → s2.track? line = some e →
              let ps := e.probes req c
              (ps ≠ [] → busy s2 e ps c)
              ∧ (ps = [] → k = .rd → s2.redirects line = true → starts s2 .redirect c)
              ∧ (ps = [] → k = .rd → s2.redirects line = false →
                let next := e.afterRd core ten s.tick (s2.sharedOnly line) c none []
                grant (s2.putL2 line (s2.homeValue line) false) next.1 next.2 (some (s2.homeValue line)) 0)
              ∧ (ps = [] → k ≠ .rd → exec (k.event core line) s = .next ((((if k = .rfoz then s2.clearLost line else s2).setTrack
                line fun e => e.afterRfo core ten s.tick).send core line false (.grant .m
                  (if k = .rfoz ∨ (k = .upg ∧ ((s2.core core).l1? line).isSome = true) then none else some (s2.homeValue line))
                  (upTick s.cycle))).settleRest))))))
      ∧ ∀ e : TrackEnt, s1.idleLine line → s1.track? line = some e → e.exactFor ten →
        (∀ f ∈ s1.dir, f.covers line = true → f = e) →
        (k = .rd →
          let row := s1.homeValue line
          let s2 := s1.putL2 line row false
          let shared := s1.sharedOnly line
          (e.st = .i → shared = false →
            grant s2 { e with st := .x, owner := core, sharers := [], ownAt := s.tick } .e (some row) 0)
          ∧ (e.st = .i → shared = true → grant s2 { e with st := .s, sharers := [core] } .s (some row) 0)
          ∧ (e.st = .s → core ∈ e.sharers →
            grant s2 { e with sharers := e.sharers.filter (· != core) ++ [core] } .s (some row) 0)
          ∧ (e.st = .s → core ∉ e.sharers → e.sharers.length < 4 →
            grant s2 { e with sharers := e.sharers ++ [core] } .s (some row) 0)
          ∧ (e.st = .s → core ∉ e.sharers → 4 ≤ e.sharers.length →
            grant s2 { e with coarse := true, sharers := ((e.sharers ++ [core]).map (· / 16)).eraseDups } .s (some row) 0)
          ∧ (e.st = .x ∨ e.st = .o → e.owner ≠ core → busy s1 e [(e.owner, .fwdRd)] false))
        ∧ (k ≠ .rd → s1.plainLine line →
          let ps := e.ownProbes core
          (ps ≠ [] → busy s1 e ps false)
          ∧ (ps = [] → grant (if k = .rfoz then s1.clearLost line else s1)
            { e with st := .x, owner := core, sharers := [], ownAt := s.tick } .m
            (if k = .rfoz ∨ (k = .upg ∧ ((s1.core core).l1? line).isSome = true) then none else some (s1.homeValue line))
            (upTick s.cycle))))
    ∧ (∀ (p : ProbeKind) (ex : Bool), s.take? core line false = some (.probe p ex ten, s0) →
      let c := s0.core core
      let sees := s0.probeSees core ex ten
      let found := c.l1d.find? fun l => l.line == line && l.st != .lse && sees l.ctx
      let buffered := c.wbuf.find? fun w => w.line == line && s0.probePasses core ex ten
      let dropped := s0.modCore core fun c => { c with
        l1d := c.l1d.filter fun l => l.line != line || l.st == .lse || !sees l.ctx
        l1i := c.l1i.filter fun l => l.line != line || !sees l.ctx }
      let answer := fun (s2 : State) (held : Option L1St) (data : Option Row) (fromWb : Bool) =>
        exec (p.event core line) s = .next (s2.send core line true (.answer held data fromWb))
      (∀ l, found = some l →
        let shared : L1Line := { l with st := if l.st = .m ∨ l.st = .o then .o else .s }
        (p = .fwdRd → answer (s0.modCore core fun c => { c with l1d := modWhere (· == l) (fun _ => shared) c.l1d })
          (some l.st) (some l.data) false)
        ∧ (p = .fwdRfo → answer dropped (some l.st) (some l.data) false)
        ∧ (p = .inv → answer dropped (some l.st) (if l.st = .m ∨ l.st = .o then some l.data else none) false))
      ∧ (found = none → ∀ w, buffered = some w → answer s0 (some .m) (if p = .inv then none else some w.data) true)
      ∧ (found = none → buffered = none →
        (p = .fwdRd → answer s0 (if c.l1i.any fun l => l.line == line && sees l.ctx then some .s else none) none false)
        ∧ (p ≠ .fwdRd → answer dropped none none false)))
    ∧ ∀ (held : Option L1St) (data : Option Row) (fromWb : Bool), s.take? core line true = some (.answer held data fromWb, s0) →
      let a : Answer := { core := core, held := held, fromWb := fromWb }
      let s1 := if (s0.txn? line).any (·.heldWb == some core) then s0.send core line false .wbAck else s0
      let told := s1.modTxn line fun t => { t with
        wait := match t.wait with
          | .acks cs => .acks (cs.erase core)
          | w => w
        answers := t.answers ++ [a]
        data := data.or t.data
        heldWb := if t.heldWb == some core then none else t.heldWb }
      exec (.invAck core line) s = .next (told.settleHome line)
      ∧ ∀ (x : HomeTxn) (cs : List Nat), s1.txn? line = some x → x.wait = .acks cs →
        (cs.erase core ≠ [] → told.settleHome line = told.settleRest)
        ∧ (cs.erase core = [] → x.queue = [] → ∀ c, x.req = .dir c k ten →
          let ended : State := { s1 with homes := s1.homes.filter (·.line != line) }
          let row := (data.or x.data).getD (s1.homeValue line)
          (k ≠ .rd → told.settleHome line = (((if k = .rfoz then ended.clearLost line else ended).setTrack
              line fun e => e.afterRfo c ten s.tick).send c line false (.grant .m
                (if k = .rfoz ∨ (k = .upg ∧ ((s1.core c).l1? line).isSome = true ∧ data.or x.data = none) then none else some row)
                (upTick s.cycle))).settleRest)
          ∧ (k = .rd → data.or x.data = none → s1.redirects line = false → ∀ e, s1.track? line = some e →
            let ans := if e.st = .x ∨ e.st = .o then (x.answers ++ [a]).find? (·.core == e.owner) else none
            let others := (x.answers ++ [a]).filter fun a => !(a.core == e.owner && (e.st == .x || e.st == .o))
            let next := e.afterRd c ten s.tick (ended.sharedOnly line) x.exact ans others
            told.settleHome line = (((ended.putL2 line row false).setTrack line fun _ => next.1).send c line false
              (.grant next.2 (some row) 0)).settleRest)
          ∧ (k = .rd → ∀ (e : TrackEnt) (d : Row), s1.track? line = some e → e.exactFor ten → e.st = .x → e.owner = core →
            c ≠ core → held = some .m → fromWb = false → data = some d → x.answers = [] → x.exact = false →
            told.settleHome line = ((ended.setTrack line fun _ => { e with st := .o, sharers := [c] }).send c line
              false (.grant .s (some d) 0)).settleRest))

namespace Sys2Proof.Machine

/-- What the accesses `as` of a request to the idle line `line` write meets no antecedent. -/
def State.freeWrites (s : State) (line : Nat) (as : List Acc) : Prop :=
  s.isTable line = false
  ∧ ∀ off n, spanOf as = some (off, n) → s.anteOf (line + off) n = [] ∧ s.mirrorOf (line + off) n = []

/-- Accesses have performed at the home of a line, which L2 holds, dirty where one of them writes; and the groups. -/
def State.DoneAtHome (s t : State) (line : Nat) (as : List Acc) (gvt : Gvt) : Prop :=
  let r := s.performAll (s.homeValue line) gvt as
  t.wgs = r.2.wgs ∧ t.homes = s.homes
  ∧ ∃ y, t.l2? line = some y ∧ y.data = r.1 ∧ (spanOf as ≠ none → y.dirty = true)

/-- A request of a core has reached a home in the present cycle. -/
abbrev State.reached (s : State) (core line : Nat) : State :=
  { s with arrivals := (line, s.cycle, core) :: s.arrivals.filter (·.2.1 == s.cycle) }

/-- A way is free for a tag in its L1 set, beside the lines and the misses of other tags. -/
abbrev Core.hasWay (c : Core) (ctx vline : Nat) : Prop :=
  (c.l1d.filter fun l => sameSet l.vline vline && !(l.ctx == ctx && l.vline == vline)).length
    + (c.misses.filter fun m => sameSet m.vline vline).length < 8

end Sys2Proof.Machine

open Sys2Proof Sys2Proof.Machine

/-- R94, R95, R97, R128 to R131, R138 to R143, R149, Tables 6.2, 6.3 and 6.9: what comes to a core and to a home. A grant
performs the accesses that waited, those behind a store that met a Shared line going on as a request for ownership, and fills
the L1; a write-back enters L2 or is held behind a forward; the Raker cleans L2 and asks owners to clean; an LSE read leases
its line, an LSE store waits for the leases to pass, and a copy whose lease has passed leaves; UNC accesses perform at the
home, and atomics of wide scope too, once every copy has come back. Which line leaves a full set of L2, and which bits choose
the set, are the model's choices (logs 122, 126). -/
def Obligations.HomeEvents : Prop :=
  ∀ (s s1 : State) (core line : Nat),
    (∀ (st : L1St) (data : Option Row) (gvt : Nat), s.take? core line false = some (.grant st data gvt, s1) →
      ((s1.core core).miss? line = none → exec (.grant core line) s = .next s1)
      ∧ ∀ m, (s1.core core).miss? line = some m →
        let s2 := (s1.modCore core fun c => { c with misses := c.misses.filter (· != m) }).dropSynonyms core m.ctx m.vline line
        let row := data.getD ((((s2.core core).l1? line).map (·.data)).getD (s2.homeRow line))
        let parts := if st = .s then splitLoads m.accs else (m.accs, [])
        let r := (if st = .m then s2.modCore core (·.dropCode line) else s2).performAll row
          (.now (if st = .m then gvt else upTick s.cycle)) parts.1
        ∃ t : State, exec (.grant core line) s = .next t ∧ t.wgs = r.2.wgs ∧ t.homes = s1.homes
          ∧ (parts.2 = [] → (t.core core).misses = (s1.core core).misses.filter (· != m))
          ∧ (parts.2 ≠ [] → ∃ m' : Miss, m' ∈ (t.core core).misses ∧ m'.line = m.line ∧ m'.accs = parts.2
            ∧ m'.kind = (if s1.transGone core m.tr then .rfo else .upg)
            ∧ t.msgs.getLast? = some { core := core, line := line, toHome := true
                                       kind := .req (.dir core m'.kind (s.tenancyOf m.ctx)) })
          ∧ (s1.transGone core m.tr = false →
            ((s1.modCore core fun c => { c with misses := c.misses.filter (· != m) }).core core).hasWay m.ctx m.vline →
            ∃ l ∈ (t.core core).l1d, l.ctx = m.ctx ∧ l.vline = m.vline ∧ l.line = line ∧ l.data = r.1
              ∧ l.st = if parts.1.any (·.writes) then .m else st))
    ∧ (∀ die : Nat, s.take? core line false = some (.refuse die, s1) →
      ((s1.core core).miss? line = none → exec (.grant core line) s = .next s1)
      ∧ ∀ m, (s1.core core).miss? line = some m → exec (.grant core line) s =
        .next ((s1.modCore core fun c => { c with misses := c.misses.filter (· != m) }).lostAccs m.accs .homeLost die))
    ∧ (s.take? core line false = some (.wbAck, s1) → exec (.wbAck core line) s =
      .next (s1.modCore core fun c => { c with wbuf := c.wbuf.eraseP (·.line == line) }))
    ∧ (∀ d : Row, s.take? core line true = some (.wb d, s1) →
      (∀ (x : HomeTxn) (cs : List Nat), s1.txn? line = some x → x.wait = .acks cs → core ∈ cs →
        exec (.wb core line) s = .next (s1.modTxn line fun t => { t with heldWb := some core }))
      ∧ ((∀ (x : HomeTxn) (cs : List Nat), s1.txn? line = some x → x.wait = .acks cs → core ∉ cs) →
        let owns := fun e : TrackEnt => (e.st == .x || e.st == .o) && e.owner == core
        let put := s1.putL2 line d true
        ((∀ e, s1.track? line = some e → owns e = false) → exec (.wb core line) s = .next (s1.send core line false .wbAck))
        ∧ ∀ e, s1.track? line = some e → owns e = true →
          (e.isLine = false → exec (.wb core line) s = .next (put.send core line false .wbAck))
          ∧ (e.isLine = true → exec (.wb core line) s = .next ((put.setTrack line fun e => if e.st = .o then { e with st := .s }
            else { e with st := .i, sharers := [], coarse := false }).send core line false .wbAck))))
    ∧ (s.take? core line false = some (.clean, s1) →
      let age := max 1 (bitsOf (s.die (homeDie line)).rakectl.toNat 19 8)
      ((s1.core core).l1? line = none → exec (.cleanProbe core line) s = .next s1)
      ∧ ∀ l : L1Line, (s1.core core).l1? line = some l →
        let cleaned := fun (st : L1St) => (s1.putL2 line l.data true).modCore core fun c =>
          { c with l1d := modWhere (· == l) (fun _ => { l with st := st }) c.l1d }
        (l.st = .m → l.lastStore + age ≤ s.tick → exec (.cleanProbe core line) s = .next (cleaned .e))
        ∧ (l.st = .o → l.lastStore + age ≤ s.tick → exec (.cleanProbe core line) s =
          .next ((cleaned .s).setTrack line fun e =>
            if e.isLine && e.st == .o && e.owner == core then { e with st := .s }.addSharer core else e))
        ∧ ((l.st ≠ .m ∧ l.st ≠ .o) ∨ s.tick < l.lastStore + age → exec (.cleanProbe core line) s = .next s1))
    ∧ (∀ d : Nat, homeDie line = d → d < 8 → (s.die d).fenced = false →
      let x := (s.die d).rakectl.toNat
      let runs := bitsOf x 0 0 = 1 ∧ bitsOf x 23 20 ≠ 0
      let clean : Msg := { core := ((s.track? line).map (·.owner)).getD 0, line := line, toHome := false, kind := .clean }
      ∃ t : State, exec (.rakerScan d line) s = .next t ∧ t.wgs = s.wgs ∧ t.cores = s.cores
        ∧ (∀ y, runs → bitsOf x 1 1 = 1 → s.l2? line = some y → y.dirty = true →
          t.mem = Memory.write s.mem line y.data.bytes ∧ ∃ y', t.l2? line = some y' ∧ y'.data = y.data ∧ y'.dirty = false)
        ∧ (¬(runs ∧ bitsOf x 1 1 = 1) → t.mem = s.mem)
        ∧ (∀ y, s.l2? line = some y → ∃ y', t.l2? line = some y' ∧ y'.stamps = y.stamps.age (stampOf s.tick))
        ∧ t.msgs = if runs ∧ bitsOf x 2 2 = 1 ∧ s.quiet line = true ∧ (∃ e, s.track? line = some e
            ∧ (e.st = .x ∨ e.st = .o) ∧ e.ownAt + max 1 (bitsOf x 19 8) < s.tick ∧ s.requestsOf e.owner < 3584)
          then s.msgs ++ [clean] else s.msgs)
    ∧ ((∃ l ∈ (s.core core).l1d, l.line = line ∧ l.st = .lse ∧ l.leased s.tick = false) →
      exec (.leaseExpiry core line) s =
        .next (s.modCore core fun c => { c with l1d := c.l1d.filter fun l => !(l.line == line && l.st == .lse) }))
    ∧ (∀ (n ctx vline : Nat) (tr : Trans) (as : List Acc), s.take? core line true = some (.req (.lseRead core n ctx vline tr as), s1) →
      s1.inOrder core line = true → (s1.reached core line).idleLine line →
      let s1 := s1.reached core line
      let row := s1.homeValue line
      ∃ t : State, exec (.lseRead core line) s = .next t.settleRest ∧ t.wgs = (s1.performAll row .no as).2.wgs ∧ t.homes = s1.homes
        ∧ (∃ y, t.l2? line = some y ∧ y.data = row)
        ∧ (n ≠ 0 → let granted := stampOf (s.tick + n)
          let ls := match s1.l2? line with
            | some y => if y.stamps.lv then laterStamp y.stamps.ls granted else granted
            | none => granted
          (∃ y, t.l2? line = some y ∧ y.data = row ∧ y.stamps.lv = true ∧ y.stamps.ls = ls)
          ∧ (s1.transGone core tr = false → (s1.core core).hasWay ctx vline →
            ∃ l ∈ (t.core core).l1d, l.line = line ∧ l.ctx = ctx ∧ l.vline = vline ∧ l.st = .lse ∧ l.data = row ∧ l.stamp = ls)))
    ∧ (∀ as : List Acc, s.take? core line true = some (.req (.lseStore core as), s1) → s1.inOrder core line = true →
      (s1.reached core line).idleLine line → (s1.reached core line).freeWrites line as → spanOf as ≠ none →
      let s1 := s1.reached core line
      let tp := s1.performTick line
      (s.tick < tp → ∃ t : State, exec (.lseStore core line) s = .next t.settleRest ∧ t.l2 = s1.l2
        ∧ (t.txn? line).map (·.wait) = some (.perform tp))
      ∧ (tp ≤ s.tick → ∃ t : State, exec (.lseStore core line) s = .next t.settleRest
        ∧ s1.DoneAtHome t line as (.later (upTick s.cycle))
        ∧ ∃ y, t.l2? line = some y ∧ y.stamps.ws = stampOf tp ∧ y.stamps.lv = false))
    ∧ (∀ (x : HomeTxn) (tp : Nat), s.txn? line = some x → x.wait = .perform tp →
      (s.tick < tp → exec (.lsePerform line) s = .refused (.notPending "LSE_PERFORM"))
      ∧ (tp ≤ s.tick → ∀ as, x.req = .lseStore core as → x.queue = [] → s.windowsOf line = [] → s.freeWrites line as →
        spanOf as ≠ none →
        ∃ t : State, exec (.lsePerform line) s = .next t.settleRest
          ∧ State.DoneAtHome { s with homes := s.homes.filter (·.line != line) } t line as .no
          ∧ ∃ y, t.l2? line = some y ∧ y.stamps.ws = stampOf tp ∧ y.stamps.lv = false))
    ∧ (∀ as : List Acc, s.take? core line true = some (.req (.unc core as), s1) → s1.inOrder core line = true →
      (s1.reached core line).idleLine line → (s1.reached core line).freeWrites line as →
      let s1 := s1.reached core line
      (isReg line = false →
        ∃ t : State, exec (.uncAccess core line) s = .next t.settleRest ∧ s1.DoneAtHome t line as (.later (upTick s.cycle)))
      ∧ ∀ a w, isReg line = true → as = [a] → s1.wg? a.wg = some w →
        let r := s1.devAccess (.ctx w.ctx) (line - regBase + a.off) a
        exec (.uncAccess core line) s = .next (State.settleRest
          { r.2.performed a r.1 0 (.later (upTick s.cycle)) with
            homes := (r.2.performed a r.1 0 (.later (upTick s.cycle))).homes.filter (·.line != line) }))
    ∧ ∀ as : List Acc, s.take? core line true = some (.req (.atomic core as), s1) → s1.inOrder core line = true →
      (s1.reached core line).idleLine line → (s1.reached core line).freeWrites line as →
      let s1 := s1.reached core line
      (s1.track? line = none →
        ∃ t : State, exec (.homeAtomic core line) s = .next t.settleRest ∧ s1.DoneAtHome t line as (.now (upTick s.cycle)))
      ∧ ∀ c s2 e, s1.trackFor line (.atomic core as) = .ok (c, s2) → s2.track? line = some e →
        let ps := e.probes (.atomic core as) c
        (ps = [] → ∃ t : State, exec (.homeAtomic core line) s = .next t.settleRest
          ∧ s2.DoneAtHome t line as (.now (upTick s.cycle)))
        ∧ (ps ≠ [] → exec (.homeAtomic core line) s = .next (State.settleRest { s2 with
            homes := s2.homes ++ [{ line := line, req := .atomic core as, wait := .acks (ps.map (·.1)), data := none
                                    answers := [], exact := c, heldWb := none, queue := [] }]
            msgs := s2.msgs ++ ps.map fun p =>
              { core := p.1, line := line, toHome := false
                kind := .probe p.2 (!e.coarse || ((e.st == .x || e.st == .o) && p.1 == e.owner)) e.tenancy } }))
        ∧ (e.isLine = true → e.coarse = false → e.st = .x → ps = [(e.owner, .fwdRfo)])

/-- R58, R59, R64 to R66, R68, Tables 3.3 and 3.5: events of token arrays. An operation at the head of its descriptor's
home reads its source and writes its rows a line at a time, and then makes its update at once, with its answer, its folds and
what the parity member mirrors; a pool record counts what is reserved, taken, given up and given back; a freed slot goes back
to the free list when nothing reads it; and slots are folded into the parity member, which for a rebuild holds the folds, reads
the survivors and answers the replacement with the exclusive-or, and the block is rebuilt. That the mirror travels as the bytes
an operation writes is the model's choice (log 93). -/
def Obligations.TokenEvents : Prop :=
  ∀ s : State,
    (∀ (line : Nat) (q : TokenOp) (gr : Group) (o : Op),
      s.tokenQ.find? (fun t => t.line == line && !t.givesBack) = some q →
      s.group? q.wg q.g = some gr → gr.op? q.seq = some o → q.step = .none → s.engClear q.wg q.g gr o = true →
      let goes := fun (s1 : State) (f : Op → Op) =>
        exec (.tokenPerform line) s = .next (s1.modGroup q.wg q.g fun gr => gr.modOp q.seq f)
      (∀ l row s1, (segLines q.src)[o.res.length]? = some l → s.readLine l = .ok (row, s1) →
        goes s1 fun o => { o with res := o.res ++ [row] })
      ∧ (∀ l s1, (segLines q.src)[o.res.length]? = none → (segLines q.rows)[o.step]? = some l → s.rowStep q o l = .ok s1 →
        goes s1 fun o => { o with step := o.step + 1 })
      ∧ ∀ s0 s1, (segLines q.src)[o.res.length]? = none → (segLines q.rows)[o.step]? = none →
        (q.parity = none → s0 = s) →
        (∀ peer, q.parity = some peer → s.sendFolds peer q.folds (q.seals ++ (q.frees.filter (·.2)).map (·.1)) = .ok s0) →
        s0.putRecords q.writes = .ok s1 →
        let s2 := s1.sendMirror q.parity (q.writes ++ if q.pool = 0 then [] else [(q.pool, s1.cohBytes q.pool 32)])
        ∃ t : State, exec (.tokenPerform line) s = .next t
          ∧ t = { s2 with tokenQ := t.tokenQ, slotFrees := t.slotFrees, wgs := t.wgs }
          ∧ t.tokenQ = s1.tokenQ.filter (fun u => !(u.wg == q.wg && u.g == q.g && u.seq == q.seq))
          ∧ (∃ fs, t.slotFrees = s1.slotFrees ++ fs ∧ fs.map (·.slot) = q.frees.map (·.1)
            ∧ fs.map (·.folding) = q.frees.map (fun f => if f.2 then q.parity else none)
            ∧ ∀ f ∈ fs, f.pool = q.poolVa ∧ f.line = lineOf q.pool ∧ f.wg = q.wg ∧ f.g = q.g ∧ f.seq = q.seq
              ∧ f.mirror = q.parity)
          ∧ ∀ gr1 o1, s1.group? q.wg q.g = some gr1 → gr1.op? q.seq = some o1 →
            let time := if q.writes = [] then 0 else upTick s1.cycle
            ∃ gr2, t.group? q.wg q.g = some gr2 ∧ gr2.op? q.seq = some
              { o1 with res := [Row.splat (BitVec.ofNat 32 q.value)], got := BitVec.allOnes 32, todo := 0, fin := true,
                        owed := q.frees.length, gvt := if o1.cls = none then o1.gvt else max o1.gvt time }
              ∧ ∀ sc, gr2.horizonOf sc = if o1.cls = none ∧ o1.scope.covers sc then max (gr1.horizonOf sc) time
                  else gr1.horizonOf sc)
    ∧ (∀ (line : Nat) (q : TokenOp) (bs : List Byte) (s1 : State),
      s.tokenQ.find? (fun t => t.step != .none && lineOf t.pool == line && !t.givesBack) = some q →
      s.readPhys q.pool 32 = .ok (bs, s1) →
      let p : TokPool := { pa := q.pool, bits := BitVec.ofNat 256 (natOfBytes bs) }
      let counted := fun (free rsvd : Nat) => ∀ s2, s1.writePhys .dir q.pool (p.count free rsvd).bytes = .ok s2 →
        exec (.poolUpdate line) s = .next (s2.setToken { q with step := .none })
      (∀ n, q.step = .reserve n → (p.free < p.rsvd + n →
          exec (.poolUpdate line) s = .next (s1.setToken { q with step := .none, value := 1, writes := [] }))
        ∧ (p.rsvd + n ≤ p.free → counted p.free (p.rsvd + n)))
      ∧ (∀ k, q.step = .pop k → counted (p.free - k) (p.rsvd - k))
      ∧ (∀ k, q.step = .unreserve k → counted p.free (p.rsvd - k)))
    ∧ (∀ (line : Nat) (q : TokenOp) (slots : List Nat) (ws : List (Nat × List Byte)) (s1 s2 : State),
      (∀ t ∈ s.tokenQ, t.step ≠ .none → lineOf t.pool = line → t.givesBack = true) →
      s.tokenQ.find? (fun t => t.step != .none && lineOf t.pool == line) = some q → q.step = .back slots →
      (pushPlan q.who q.record q.poolVa slots.length slots.reverse).run s = .ok (ws, s1) → s1.putRecords ws = .ok s2 →
      exec (.poolUpdate line) s = .next { s2 with
        tokenQ := s2.tokenQ.filter fun u => !(u.wg == q.wg && u.g == q.g && u.seq == q.seq) })
    ∧ (∀ (line : Nat) (f : SlotFree) (ws : List (Nat × List Byte)) (s1 s2 : State),
      s.slotFrees.find? (fun f => f.line == line && s.pushReady f) = some f →
      (pushPlan { core := f.core, ctx := f.ctx, sup := f.sup, own := none } f.record f.pool 0 [f.slot]).run s = .ok (ws, s1) →
      s1.putRecords ws = .ok s2 →
      let s3 := s2.sendMirror f.mirror ws
      exec (.slotPush line) s = .next ({ s3 with slotFrees := s3.slotFrees.erase f }.modGroup f.wg f.g fun gr =>
        gr.modOp f.seq fun o => { o with owed := o.owed - 1 }))
    ∧ (∀ (ctx rec_ slot : Nat) (bs : List Byte),
      ((∃ h, (ctx, rec_, slot, h) ∈ s.parityHold) → exec (.parityFold ctx rec_ slot bs) s =
        .next { s with foldHeld := s.foldHeld ++ [(ctx, rec_, slot, bs)] })
      ∧ ∀ a ps cs s1 s2, (∀ h, (ctx, rec_, slot, h) ∉ s.parityHold) →
        ((deviceWho ctx).slot rec_ slot .both).run s = .ok ((a, ps, cs), s1) → a.pmember = 8 →
        s1.putSlot ps (xorBytes cs (bs.take cs.length)) = .ok s2 → exec (.parityFold ctx rec_ slot bs) s = .next s2)
    ∧ (∀ (peer ctx rec_ slot : Nat) (a : TokArr) (ps : List Piece) (bs : List Byte) (s1 s2 : State),
      ((deviceWho ctx).slot rec_ slot .read).run s = .ok ((a, ps, bs), s1) →
      (∀ ds, a.pmember = 8 → (∀ h, (ctx, rec_, slot, h) ∉ s2.parityHold) → ((deviceWho ctx).parity a).run s1 = .ok (ds, s2) →
        exec (.rebuildRead peer ctx rec_ slot) s = .next (((ds.take 8).filter (· != peer)).foldl
          (fun s d => s.sendFlit d (.rebuildRead slot))
          { s2 with parityHold := s2.parityHold ++ [(ctx, rec_, slot, some peer)] }))
      ∧ ∀ counted, a.pmember ≠ 8 → ((deviceWho ctx).countsIn a slot a.nseq).run s1 = .ok (counted, s2) →
        (counted = true ∨ (∀ f ∈ s.slotFrees, f.slot ≠ slot) →
          exec (.rebuildRead peer ctx rec_ slot) s =
            .next (s2.sendFlit peer (.reply slot (if counted then bs else bs.map fun _ => 0) 0)))
        ∧ (∀ f ∈ s.slotFrees, ∀ p, f.ctx = ctx → f.record = rec_ → f.slot = slot → f.folding = some p →
          s.foldsOut p slot = true → exec (.rebuildRead peer ctx rec_ slot) s = .next (s2.sendFlit peer (.reply slot bs 0))))
    ∧ (∀ (ctx rec_ slot : Nat) (peer : Option Nat) (answers : List (Option (List Byte))),
      (∀ r ∈ s.rebuilds, r.ctx = ctx → r.entry = slot → r.failed = true) →
      s.parityHold.find? (fun k => k.1 == ctx && k.2.2.1 == slot) = some (ctx, rec_, slot, peer) →
      let told := fun (s : State) => { s with
        parityHold := s.parityHold.map fun j => if j = (ctx, rec_, slot, peer) then (ctx, rec_, slot, none) else j }
      (∀ r, peer = some r → answers.length = 7 →
        (xorAll answers = none → exec (.rebuildComplete ctx slot answers) s = .next ((told s).sendFlit r (.refusal slot)))
        ∧ ∀ a ps bs cs s1, xorAll answers = some bs → ((deviceWho ctx).slot rec_ slot .read).run s = .ok ((a, ps, cs), s1) →
          exec (.rebuildComplete ctx slot answers) s = .next ((told s1).sendFlit r (.reply slot (xorBytes cs bs) 0)))
      ∧ (peer = none →
        ((∀ f ∈ s.foldHeld, ¬(f.1 = ctx ∧ f.2.1 = rec_ ∧ f.2.2.1 = slot)) → exec (.rebuildComplete ctx slot answers) s =
          .next { s with parityHold := s.parityHold.erase (ctx, rec_, slot, none) })
        ∧ ∀ bs a ps cs s1 s2,
          s.foldHeld.find? (fun f => f.1 == ctx && f.2.1 == rec_ && f.2.2.1 == slot) = some (ctx, rec_, slot, bs) →
          ((deviceWho ctx).slot rec_ slot .both).run s = .ok ((a, ps, cs), s1) → a.pmember = 8 →
          s1.putSlot ps (xorBytes cs (bs.take cs.length)) = .ok s2 → exec (.rebuildComplete ctx slot answers) s =
            .next { s2 with foldHeld := s2.foldHeld.erase (ctx, rec_, slot, bs) }))
    ∧ ∀ (ctx entry : Nat) (answers : List (Option (List Byte))) (r : Rebuild),
      s.rebuilds.find? (fun r => r.ctx == ctx && r.entry == entry && !r.failed) = some r → answers.length = 8 →
      (xorAll answers = none → exec (.rebuildComplete ctx entry answers) s = .next
        { s with rebuilds := modWhere (fun x => x == r) (fun x => { x with failed := true }) s.rebuilds })
      ∧ ∀ bs a ps cs es eb s1 s2 s3 s4 s5, xorAll answers = some bs →
        let c : Who := { core := r.core, ctx := ctx, sup := r.sup, own := none }
        (c.slot r.record r.slot .write).run s = .ok ((a, ps, cs), s1) → (c.pieces .table .both entry 8).run s1 = .ok (es, s2) →
        (c.fetch es).run s2 = .ok (eb, s3) →
        let e := TokEnt.ofNat 0 (natOfBytes eb)
        let ended : State := { s3 with rebuilds := s3.rebuilds.filter (· != r) }
        (e.st ≠ 5 → exec (.rebuildComplete ctx entry answers) s = .next ended)
        ∧ (e.st = 5 → ended.putSlot ps bs = .ok s4 →
          s4.putRecords (es.map fun p => (p.pa, { e with st := 2 }.bytes)) = .ok s5 →
          exec (.rebuildComplete ctx entry answers) s = .next s5)

/-- R171, R197 to R203, R210 to R214, R384, R436, Tables 9.2 and 9.3: events of the distributor. A record is checked, queued
under a handle that no live workgroup has, and answered, to the registers of its LAUNCH or to the slot of its doorbell; the head
of the highest queue is placed, with every group at its first instruction, and nothing passes a head that has waited 1024 ticks;
a workgroup whose groups have ended adds 1 at DONE and is gone; the dividers of a tick follow the demands; and the banks of a
core are swapped, a stopped workgroup is saved, and a killed one settles. -/
def Obligations.LaunchEvents : Prop :=
  ∀ s : State,
    (∀ (r : LaunchReq) (rest : List LaunchReq), s.launches = r :: rest →
      let s1 : State := { s with launches := rest }
      let w := unplaced 0 r.raw r.ctx
      let st : Nat := if w.formatOk = false ∨ s1.gangOk w = false then 2
        else if (w.ctx ≠ r.ctx ∨ w.preempt = true) ∧ r.ctx ≠ 0 ∧ r.sup = false then 3
        else if 1024 ≤ (s.queue w.prio).length then 1 else 0
      let told := fun (t : State) (status handle : Nat) => match r.mail with
        | none => t.answer r.wg r.g r.seq [BitVec.ofNat 32 status, BitVec.ofNat 32 handle]
        | some (page, slot, seq) =>
          let g := t.gran 0 (1024 + page) (16 * slot + 9)
          t.setGran 0 (1024 + page) (16 * slot + 9) (g.withRow (g.row.putBytes 0
            (bytesOfNat 4 seq ++ bytesOfNat 1 status ++ bytesOfNat 3 (if status = 0 then handle else 0xFFFFFF))))
      (st ≠ 0 → exec .launchArrival s = .next (told s1 st 0xFFFFFFFF))
      ∧ (st = 0 → (s.wgs.map (·.1) ++ (s.queues.flatMap id).map (·.handle)).length < 2 ^ 24 →
        ∃ h, h < 2 ^ 24 ∧ (∀ e ∈ s.wgs, e.1 ≠ h) ∧ (∀ l ∈ s.queues, ∀ q ∈ l, q.handle ≠ h) ∧
          let q : Queued := { handle := h, raw := r.raw, launcher := r.ctx, arrived := s.tick, reserving := false, resume := none }
          exec .launchArrival s = .next (told { s1.setQueue w.prio (s.queue w.prio ++ [q]) with
            nextHandle := (h + 1) % 2 ^ 24 } 0 h)))
    ∧ (∀ (p : Nat) (q : Queued) (rest : List Queued) (cores : List Nat), p < 8 → p < s.queues.length →
      (∀ k, p < k → s.queue k = []) → s.queue p = q :: rest → q.dead.gang = 0 → q.resume = none →
      let ten := s.tenancyOf q.dead.ctx
      let chosen := (s.setQueue p (rest.filter (·.handle != q.handle))).choose q.dead ten
      (chosen = none → q.reserving = true ∨ q.arrived + 1024 ≤ s.tick →
        exec .placement s = .refused (.notPending "PLACEMENT"))
      ∧ (chosen = some cores →
        ∃ (t : State) (w : Workgroup), exec .placement s = .next t ∧ t.queue p = rest.filter (·.handle != q.handle)
        ∧ t.wg? q.handle = some w ∧ w.raw = q.raw ∧ w.launcher = q.launcher ∧ w.tenancy = ten ∧ w.shadow = q.dead.preempt ∧ w.kill = none
        ∧ w.cores.map (·.core) = cores ∧ (∀ c ∈ w.cores, c.grans = [] ∧ c.cluster = none ∧ c.size = q.dead.localSize)
        ∧ w.phases = List.replicate 16 0
        ∧ ∀ g < q.dead.nGroups, ∃ gr, w.group? g = some gr ∧ gr.gid = g ∧ gr.core = cores.getD (g % q.dead.nCores) 0
          ∧ gr.quarter = g / q.dead.nCores % 4 ∧ gr.role = w.roleOf g ∧ gr.ended = false
          ∧ (gr.path 0).st = .ready ∧ (gr.path 0).pc = q.dead.lanePc
          ∧ (∀ l < 32, (gr.path 0).mask.getLsbD l = decide (g * 32 + l < q.dead.threads))
          ∧ (∀ j, 1 ≤ j → j ≤ 3 → (gr.path j).st = .free)
          ∧ gr.sreg 0 = BitVec.ofNat 32 q.dead.argPtr ∧ gr.sreg 1 = BitVec.ofNat 32 (q.dead.argPtr / 2 ^ 32)
          ∧ (∀ k, 2 ≤ k → gr.sreg k = 0) ∧ (∀ k, gr.vreg k = 0) ∧ (∀ k, gr.pred k = 0)
          ∧ gr.ap.pc = q.dead.apPc ∧ gr.ap.st = (if q.dead.apPc = 0 then .exited else .running)
          ∧ (∀ j < 4, gr.port j = { words := [], permits := q.dead.permitsOf j })
          ∧ gr.sr = { GroupSr.reset with tvec := look 0 s.reg.handlers q.dead.ctx }))
    ∧ (∀ (p : Nat) (q : Queued) (rest : List Queued), s.queue p = q :: rest →
      (q.reserving = false → q.arrived + 1024 ≤ s.tick →
        exec (.reservingHead p) s = .next (s.setQueue p ({ q with reserving := true } :: rest)))
      ∧ (q.reserving = true ∨ s.tick < q.arrived + 1024 →
        exec (.reservingHead p) s = .refused (.notPending "RESERVING_HEAD")))
    ∧ (∀ (h : Nat) (w : Workgroup), s.wg? h = some w →
      (w.kill = none → w.groups ≠ [] → (∀ g ∈ w.groups, g.2.ended = true ∧ g.2.ops = []) → w.lastTime ≤ s.tick →
        (w.doneAddr = 0 → exec (.workgroupEnd h) s = .next (s.removeWg h))
        ∧ (w.doneAddr ≠ 0 → w.doneAddr % 8 = 0 → ∀ ps p s1,
          s.chkRange 1024 w.ctx true .both true w.doneAddr 8 = .pieces ps → ps.head? = some p →
          (isPeer p.pa = true → s.usePieces 1024 true ps = .ok s1 →
            exec (.workgroupEnd h) s = .next ((s1.donePeer h p 1).removeWg h))
          ∧ ∀ bs s2, isPeer p.pa = false → s.readPieces ps = .ok (bs, s1) →
            s1.writePieces 1024 ps (bytesOfNat 8 ((natOfBytes bs + 1) % 2 ^ 64)) = .ok s2 →
            exec (.workgroupEnd h) s = .next (s2.removeWg h)))
      ∧ (∀ code, w.kill = some code → (s.dropWork h).wgInFlight h = false → w.lastTime ≤ s.tick →
        (w.doneAddr = 0 → exec (.killSettle h) s = .next (((s.dropWork h).dstatEvent h code).removeWg h))
        ∧ (w.doneAddr ≠ 0 → w.doneAddr % 8 = 0 → ∀ ps p s1,
          (s.dropWork h).chkRange 1024 w.ctx true .both true w.doneAddr 8 = .pieces ps → ps.head? = some p →
          (isPeer p.pa = true → (s.dropWork h).usePieces 1024 true ps = .ok s1 →
            exec (.killSettle h) s = .next (((s1.donePeer h p (2 ^ 32)).dstatEvent h code).removeWg h))
          ∧ ∀ bs s2, isPeer p.pa = false → (s.dropWork h).readPieces ps = .ok (bs, s1) →
            s1.writePieces 1024 ps (bytesOfNat 8 ((natOfBytes bs + 2 ^ 32) % 2 ^ 64)) = .ok s2 →
            exec (.killSettle h) s = .next ((s2.dstatEvent h code).removeWg h)))
      ∧ (w.evict = .stopping → w.kill = none →
        let s1 := w.groups.foldl (fun s g => s.stopWaiters h g.1) s
        ∀ w1 : Workgroup, s1.wg? h = some w1 →
          (w1.drained = false → s1 ≠ s → exec (.contextSwitchSave h) s = .next s1)
          ∧ (w1.drained = true → ∀ s2, (s1.setWg h w1.dissolve).saveAll w1.dissolve = .ok s2 →
            exec (.contextSwitchSave h) s = .next (s2.unplace w1.dissolve))))
    ∧ (∀ ds : List (Nat × Nat), s.cycle % 32 = 0 → (ds.map (·.1)).Nodup →
      ∃ t s1 : State, exec (.throttleUpdate ds) s = .next t ∧ t = { s with cores := t.cores } ∧ s1 = { s with cores := s1.cores }
        ∧ (∀ d ∈ ds, s1.core d.1 = { s.core d.1 with demand := min (max d.2 1) 8 })
        ∧ (∀ c, (∀ d ∈ ds, d.1 ≠ c) → s1.core c = s.core c)
        ∧ ∀ c, (t.core c).div = s1.clkDiv c ∧ t.clock c = s.clock c ∧ t.core c =
          { s1.core c with div := (t.core c).div, clkBase := (t.core c).clkBase, clkSince := (t.core c).clkSince })
    ∧ ∀ core : Nat,
      (∀ (w : Workgroup) (ws : List Workgroup), s.residents core true = w :: ws → s.shadowBusy core = true →
        let goes := fun (s1 : State) (n : Nat) => exec (.swap core) s = .next (s1.modCore core fun c =>
          { c with front := .toShadow (s.clock core + 96 + n), tenancy := (c.tenancy.1, some w.tenancy) })
        ((s.core core).tenancy.2 = some w.tenancy → (s.core core).front = .primary ∨ (∃ k, (s.core core).front = .toPrimary k) →
          goes s 0)
        ∧ ((s.core core).tenancy.2 = none → goes s 0)
        ∧ ∀ o, (s.core core).tenancy.2 = some o → o ≠ w.tenancy → goes (s.flushTenancy core o)
          ((s.tenantLines core o).length + ((s.core core).l1i.filter fun l => s.tenancyOf l.ctx == o).length))
      ∧ (s.shadowBusy core = false → ((s.core core).front = .shadow ∨ ∃ k, (s.core core).front = .toShadow k) →
        exec (.swapBack core) s = .next (s.modCore core fun c => { c with front := .toPrimary (s.clock core + 96) }))

namespace Sys2Proof.Machine

/-- The oldest command of an agent has this operation, and its agent has a right on the command's context. -/
def State.Commands (s : State) (agent op : Nat) (c : BitVec 128) (s1 : State) : Prop :=
  s.takeCmd agent (· == op) = some (c, s1) ∧ ∃ r ∈ s.rights, r.target = cmdCtx c ∧ r.agent = agent

/-- A command names a group of its context that runs. -/
def State.named (s : State) (c : BitVec 128) (w : Workgroup) (gr : Group) : Prop :=
  s.wg? (cmdWg c) = some w ∧ w.ctx = cmdCtx c ∧ w.group? (cmdGroup c) = some gr ∧ gr.started = true ∧ gr.ended = false

/-- A write of a master reaches its register: the host's does not after a failed boot (R430). -/
abbrev State.reaches (s : State) (m : Master) : Prop := ¬(m = .host ∧ s.reg.bootFail = true)

end Sys2Proof.Machine

open Sys2Proof Sys2Proof.Machine

/-- R386 to R392, Tables 16.4 to 16.6: the debug agent. A command of an agent without the right ends NORIGHT, one that
names nothing NOTARGET; HOLD, RELEASE and STEP change the named path; HALT stops a group, saves its image and keeps it
still; RESTORE runs the image; STALLSMP, TRACE and BKPTEN change the right; a grant and a revocation report DONE. -/
def Obligations.DebugEvents : Prop :=
  ∀ (s s1 : State) (agent : Nat) (c : BitVec 128),
    let ends := fun (i : Instr) (t : State) (status : Nat) => exec i s = .next (t.endCmd agent c status)
    (∀ status, (s.endCmd agent c status) = { s with dbgstat := put s.dbgstat agent (BitVec.ofNat 128
      ((((s.group? (cmdWg c) (cmdGroup c)).map fun (gr : Group) => (gr.path (cmdPath c)).mask).getD 0).toNat * 2 ^ 96
        + bitsOf (((s.group? (cmdWg c) (cmdGroup c)).map fun (gr : Group) => (gr.path (cmdPath c)).pc).getD 0) 54 2 * 2 ^ 43
        + (if s.dbgQ.any (·.agent == agent) then 256 else 0) + status)) })
    ∧ (∀ op i, (op, i) ∈ [(0, Instr.dbgNop agent), (1, .hold agent), (2, .dbgRelease agent), (3, .stepPath agent),
        (4, .halt agent), (5, .restore agent), (6, .stallsmp agent), (7, .trace agent), (8, .bkpten agent)] →
      s.takeCmd agent (· == op) = some (c, s1) → (∀ r ∈ s.rights, r.target = cmdCtx c → r.agent ≠ agent) → ends i s1 1)
    ∧ (s.takeCmd agent (fun op => 8 < op) = some (c, s1) → ends (.badcmd agent) s1 10)
    ∧ (s.Commands agent 0 c s1 → ends (.dbgNop agent) s1 0)
    ∧ (∀ op i (f : Path → Path), (op, i, f) ∈ [(1, Instr.hold agent, fun p => { p with hold := true }),
        (2, .dbgRelease agent, fun p => { p with hold := false, stepOnce := false }),
        (3, .stepPath agent, fun p => { p with stepOnce := p.hold })] → s.Commands agent op c s1 →
      (s.wg? (cmdWg c) = none → ends i s1 2)
      ∧ ∀ w gr, s.named c w gr → ((gr.path (cmdPath c)).st = .free → ends i s1 2)
        ∧ ((gr.path (cmdPath c)).st ≠ .free → ends i (s1.setGroup (cmdWg c) (cmdGroup c) (gr.modPath (cmdPath c) f)) 0))
    ∧ (s.Commands agent 4 c s1 → ∀ w gr, s.named c w gr →
      let x : Halting := { agent := agent, wg := cmdWg c, g := cmdGroup c }
      ((∀ y ∈ s.halting, ¬(y.wg = cmdWg c ∧ y.g = cmdGroup c)) →
        (gr.halted = false → exec (.halt agent) s = .next { s with halting := s.halting ++ [x] })
        ∧ (gr.halted = true → ends (.halt agent) s1 0))
      ∧ ∀ gr' t, (∃ y ∈ s.halting, y.wg = cmdWg c ∧ y.g = cmdGroup c) →
        (s.stopWaiters (cmdWg c) (cmdGroup c)).group? (cmdWg c) (cmdGroup c) = some gr' →
        (gr'.ops ≠ [] → exec (.halt agent) s = .refused (.notPending "HALT"))
        ∧ (gr'.ops = [] → (s.stopWaiters (cmdWg c) (cmdGroup c)).saveGroup (cmdWg c) (cmdGroup c) = .ok t →
          ends (.halt agent) { t.modGroup (cmdWg c) (cmdGroup c) fun gr => { gr with halted := true } with
            halting := t.halting.filter fun y => !(y.wg == cmdWg c && y.g == cmdGroup c)
            dbgQ := s1.dbgQ } 0))
    ∧ (s.Commands agent 5 c s1 → ∀ w gr, s.named c w gr →
      (gr.halted = false → ends (.restore agent) s1 3)
      ∧ (gr.halted = true → ∀ m t w' gr' st,
        s.readImage gr.core (if cmdArg c = 0 then w.ctx else agent) gr.sup
          (if cmdArg c = 0 then w.slotAddr (cmdGroup c) else cmdArg c) = .ok (m, t) →
        t.wg? (cmdWg c) = some w' → w'.group? (cmdGroup c) = some gr' → t.imageCheck w' gr' m = some st →
        (st = 0 → ends (.restore agent) { (t.unarrive (cmdWg c) (cmdGroup c)).setGroup (cmdWg c) (cmdGroup c)
            (gr'.restore m (t.clock gr'.core)) with dbgQ := s1.dbgQ } 0)
        ∧ (st ≠ 0 → ends (.restore agent) { t with dbgQ := s1.dbgQ } st)))
    ∧ (let changed := fun (f : Right → Right) => ({ s1 with
        rights := modWhere (fun r => r.target == cmdCtx c && r.agent == agent) f s1.rights } : State)
      (s.Commands agent 6 c s1 → ∀ w, s.wg? (cmdWg c) = some w → w.ctx = cmdCtx c →
        let x : StallSampling := { wg := cmdWg c, period := cmdArg c, start := s.tick, seen := [] }
        ends (.stallsmp agent) (changed fun r =>
          { r with stalls := r.stalls.filter (·.wg != cmdWg c) ++ (if cmdArg c = 0 then [] else [x]) }) 0)
      ∧ (s.Commands agent 7 c s1 → ends (.trace agent) (changed fun r => { r with trace := cmdArg c % 2 == 1 }) 0)
      ∧ (s.Commands agent 8 c s1 → ends (.bkpten agent) (changed fun r => { r with bkpten := cmdArg c % 2 == 1 }) 0))
    ∧ (∀ (h g p : Nat) (w : Workgroup) (gr : Group) (reason pc : Nat) (right : Right), s.wg? h = some w → w.group? g = some gr →
      (gr.path p).stallReason = some (reason, pc) → s.rightOn w.ctx = some right →
      (∃ x ∈ right.stalls, x.wg = h ∧ x.due s.tick g p = true) →
      ∀ t, s.appendSample h g p (gr.path p).pc 1 (reason * 2 ^ 60 + bitsOf pc 54 2) = .ok t →
      exec (.stallSample h g p) s = .next { t with rights := modWhere (·.target == w.ctx) (fun r =>
        { r with stalls := modWhere (·.wg == h) (·.saw s.tick g p) r.stalls }) t.rights })
    ∧ ∀ (m : Master) (target : Nat), target < 4096 → agent < 4096 → s.reaches m →
      (s.ownerWrite m = false → exec (.debugGrant m target agent) s = .next s.deny)
      ∧ (s.ownerWrite m = true →
        (s.rightOn target = none → exec (.debugGrant m target agent) s = .next { s with
          rights := s.rights ++ [{ target := target, agent := agent, revoking := false, trace := false, bkpten := false, stalls := [] }]
          revoked := s.revoked.filter (· != (target, agent))
          reg := { s.reg with grant := BitVec.ofNat 64 (target + agent * 4096 + 2 ^ 63) } })
        ∧ (s.rightOn target ≠ none → exec (.debugGrant m target agent) s = .next { s with
          reg := { s.reg with grant := BitVec.ofNat 64 (target + agent * 4096) } })
        ∧ ((∃ r ∈ s.rights, r.target = target ∧ r.agent = agent) → (∀ r ∈ s.rights, r.target = target → r.revoking = false) →
          exec (.debugRevoke m target agent) s = .next { s with
            rights := modWhere (fun r => r.target == target && r.agent == agent) (fun r => { r with revoking := true }) s.rights
            revoked := (target, agent) :: s.revoked.filter (· != (target, agent))
            reg := { s.reg with grant := BitVec.ofNat 64 (target + agent * 4096) } })
        ∧ ((∀ r ∈ s.rights, r.target = target → r.agent ≠ agent) → exec (.debugRevoke m target agent) s = .next { s with
            reg := { s.reg with grant := BitVec.ofNat 64 (target + agent * 4096) } }))
      ∧ ((∃ r ∈ s.rights, r.target = target ∧ r.agent = agent ∧ r.revoking = true) → (∀ d ∈ s.dbgQ, d.agent ≠ agent) →
        s.haltedOf target = [] → exec (.debugRevoke m target agent) s = .next { s with
          wgs := s.wgs.map (fun e => if e.2.ctx = target then (e.1, e.2.unhold) else e)
          rights := s.rights.filter (fun r => !(r.target == target && r.agent == agent))
          reg := { s.reg with grant := BitVec.ofNat 64 (target + agent * 4096 + 2 ^ 63) } })

/-- R204, R214, R382, R384, R425 to R431, R435, Tables 16.3 and 23.1 to 23.3: what a master writes. Claims, offers, acceptances and
releases move the ownership as Table 23.2 gives, and are denied where it is not theirs; a write that its owner alone may make is
dropped and counted when another makes it; EVICT, KILL, the event queue, the frame pools, the nonce and the quote, the mailbox,
the registers, the window into HBM and the reset do what their entries say, each completing in every case. After a failed boot
the host's accesses end with Unsupported Request. That a mailbox write sets a granule full where it writes read-only bytes alone
is the model's choice (log 66). -/
def Obligations.OwnerEvents : Prop :=
  ∀ (s : State) (m : Master),
    s.deny = { s with reg := { s.reg with
      denied := if s.reg.denied = BitVec.allOnes 64 then s.reg.denied else s.reg.denied + 1 } }
    ∧ (m = .host → s.reg.bootFail = true → ∀ (h page off target agent d : Nat) (x : BitVec 16) (w : BitVec 64) (bs : List Byte),
      ∀ i ∈ [Instr.claim m, .offer m x, .accept m, .release m, .evict m h, .kill m h, .dstatRetire m, .mailboxWrite m page off bs,
          .attnonceWrite m off bs, .registerWrite m off bs, .framepoolPop m d, .framepoolPush m d w, .debugGrant m target agent],
        exec i s = .next { s with out := s.out ++ [.unsupported] })
    ∧ (s.reaches m →
      (∀ (c : Nat) (target : BitVec 16), m = .ctx c →
        exec (.claim m) s = .next s.deny ∧ exec (.accept m) s = .next s.deny
        ∧ (c ≠ 0 ∨ s.reg.master = 0xFFFF →
          exec (.offer m target) s = .next s.deny ∧ exec (.release m) s = .next s.deny))
      ∧ (∀ (k : Nat) (target : BitVec 16), masterCode m = some k ∨ (m = .ctx 0 ∧ s.reg.master ≠ 0xFFFF ∧ s.reg.master.toNat = k) →
        let owns := s.reg.master ≠ 0xFFFF ∧ s.reg.master.toNat = k ∧ s.reg.ownSt ≠ .booting
        let next := fun (i : Instr) (r : DevRegs) => exec i s = .next { s with reg := r }
        let epoch := (s.reg.epoch + 1) % 2 ^ 16
        (m ≠ .ctx 0 → (s.reg.ownSt = .free → next (.claim m) { s.reg with epoch := epoch, master := BitVec.ofNat 16 k, ownSt := .owned })
          ∧ (s.reg.ownSt ≠ .free → exec (.claim m) s = .next s.deny)
          ∧ (s.reg.ownSt = .handover → s.reg.target.toNat = k →
            next (.accept m) { s.reg with epoch := epoch, master := BitVec.ofNat 16 k, ownSt := .owned })
          ∧ (s.reg.ownSt ≠ .handover ∨ s.reg.target.toNat ≠ k → exec (.accept m) s = .next s.deny))
        ∧ (owns → next (.offer m target) { s.reg with target := target, ownSt := .handover, handoverAt := s.tick })
        ∧ (¬owns → exec (.offer m target) s = .next s.deny)
        ∧ (owns → next (.release m) { s.reg with epoch := epoch, master := 0xFFFF, ownSt := .free })
        ∧ (¬owns → exec (.release m) s = .next s.deny))
      ∧ (s.ownerWrite m = false →
        (∀ h, exec (.evict m h) s = .next s.deny ∧ exec (.kill m h) s = .next s.deny) ∧ exec (.dstatRetire m) s = .next s.deny
        ∧ (∀ page off bs, exec (.mailboxWrite m page off bs) s = .next s)
        ∧ (∀ off bs, bs.length = 8 ∨ bs.length = 16 → off % bs.length = 0 → off + bs.length ≤ 32 →
          exec (.attnonceWrite m off bs) s = .next s.deny)
        ∧ (∀ off bs, bs.length = 16 → off % 16 = 0 → readOnlyPart off = true → exec (.registerWrite m off bs) s = .next s.deny)
        ∧ ∀ off bs, bs.length = 8 → off % 8 = 0 → ownerRegister off = true ∨ readOnlyRegister off = true →
          exec (.registerWrite m off bs) s = .next s.deny)
      ∧ (s.ownerWrite m = true →
        (∀ h, exec (.kill m h) s = .next (s.killWg h 0xFD))
        ∧ (∀ h, s.wg? h = none → exec (.evict m h) s = .next s)
        ∧ (∀ h w, s.wg? h = some w → exec (.evict m h) s = .next (s.setWg h
            (if w.shadow = false ∧ w.kill = none ∧ w.groups ≠ [] then { w with evict := .stopping } else w)))
        ∧ (s.dstat = [] → exec (.dstatRetire m) s = .next s)
        ∧ (∀ e rest, s.dstat = e :: rest → exec (.dstatRetire m) s = .next { s with dstat := rest, dstatLost := 0 })
        ∧ (∀ off bs, bs.length = 8 ∨ bs.length = 16 → off % bs.length = 0 → off + bs.length ≤ 32 →
          ∃ t : State, exec (.attnonceWrite m off bs) s = .next t
          ∧ t = { s with reg := { s.reg with nonce := t.reg.nonce, quoteValid := false, quoting := t.reg.quoting } }
          ∧ (t.reg.quoting = true ↔ s.reg.quoting = true ∨ off + bs.length = 32)
          ∧ ∀ k < 32, BitVec.extractLsb' (8 * k) 8 t.reg.nonce =
            if off ≤ k ∧ k < off + bs.length then bs.getD (k - off) 0 else BitVec.extractLsb' (8 * k) 8 s.reg.nonce)
        ∧ (∀ page off bs, 16 ≤ page ∨ 4096 < off + bs.length ∨ bs = [] → exec (.mailboxWrite m page off bs) s = .next s)
        ∧ (∀ page off bs, page < 16 → off + bs.length ≤ 4096 →
          let met := fun (i : Nat) => off < 16 * i + 16 ∧ 16 * i < off + bs.length
          (∀ i, met i → (s.gran 0 (1024 + page) i).full = true ∨ (s.gran 0 (1024 + page) i).waiters = []) →
          ∃ t : State, exec (.mailboxWrite m page off bs) s = .next t ∧ t = { s with mail := t.mail }
            ∧ ∀ i < 256, (¬met i → t.gran 0 (1024 + page) i = s.gran 0 (1024 + page) i)
              ∧ (bs ≠ [] → met i → (t.gran 0 (1024 + page) i).full = true
                ∧ (t.gran 0 (1024 + page) i).waiters = (s.gran 0 (1024 + page) i).waiters
                ∧ ∀ k < 16, BitVec.extractLsb' (8 * k) 8 (t.gran 0 (1024 + page) i).data =
                  if off ≤ 16 * i + k ∧ 16 * i + k < off + bs.length ∧ (16 * i + k) % 256 < 132 then bs.getD (16 * i + k - off) 0
                  else BitVec.extractLsb' (8 * k) 8 (s.gran 0 (1024 + page) i).data))
        ∧ ∀ bs, bs.length = 8 →
          let v := natOfBytes bs
          let same := fun (off : Nat) (i : Instr) => exec (.registerWrite m off bs) s = exec i s
          let set := fun (off : Nat) (f : DevRegs → DevRegs) => exec (.registerWrite m off bs) s = .next { s with reg := f s.reg }
          let setDie := fun (d off : Nat) (f : Die → Die) =>
            exec (.registerWrite m (0x10_0000 + 0x1_0000 * d + off) bs) s = .next (s.modDie d f)
          set 0x10 (fun r => { r with podcfg := BitVec.ofNat 64 (v % 2 ^ 20) })
          ∧ set 0x20_0000 (fun r => { r with hwin := BitVec.ofNat 64 (v % 2 ^ 52 / 2 ^ 36 * 2 ^ 36) })
          ∧ (∀ c < 4096, set (0x3_0000 + 8 * c) fun r => { r with
              handlers := put s.reg.handlers c (BitVec.ofNat 64 v &&& 0x7FFFFFFFFFFFFC) })
          ∧ (bitsOf v 63 63 = 1 → same 0x1_0000 (.dstatRetire m))
          ∧ (bitsOf v 63 63 = 0 → exec (.registerWrite m 0x1_0000 bs) s = .next s)
          ∧ same 0x1_0008 (.evict m (v % 2 ^ 24)) ∧ same 0x1_0010 (.kill m (v % 2 ^ 24))
          ∧ (bitsOf v 24 24 = 1 → same 0x2_0020 (.debugGrant m (bitsOf v 11 0) (bitsOf v 23 12)))
          ∧ (bitsOf v 24 24 = 0 → bitsOf v 25 25 = 1 → (∀ r ∈ s.rights, r.revoking = false) →
            same 0x2_0020 (.debugRevoke m (bitsOf v 11 0) (bitsOf v 23 12)))
          ∧ (bitsOf v 24 24 = 0 → bitsOf v 25 25 = 0 → exec (.registerWrite m 0x2_0020 bs) s = .next s)
          ∧ (∀ d < 8, setDie d 0 (fun x => { x with rakectl := BitVec.ofNat 64 v &&& 0xFFFF07 })
            ∧ setDie d 0x10 (fun x => { x with salvbase := BitVec.ofNat 64 v &&& 0xFFFFFFFFFFFC0 })
            ∧ setDie d 0x18 (fun x => { x with salvlim := BitVec.ofNat 64 v &&& 0xFFFFFFFFFFFC0 })
            ∧ setDie d 0x20 (fun x => { x with salvcnt := BitVec.ofNat 64 v &&& 0xFFFFFFFF })
            ∧ ∀ g < 8, let stk := fun (f : Stacker → Stacker) (x : Die) => { x with stackers := modAt f x.stackers g }
              setDie d (0x100 + 0x20 * g) (stk fun y => { y with frbase := BitVec.ofNat 64 v })
              ∧ setDie d (0x108 + 0x20 * g) (stk fun y => { y with frlim := BitVec.ofNat 64 v })
              ∧ setDie d (0x110 + 0x20 * g) (stk fun y => { y with rlbase := BitVec.ofNat 64 v })
              ∧ setDie d (0x118 + 0x20 * g) (stk fun y => { y with rllim := BitVec.ofNat 64 v }))
          ∧ ∀ off, readOnlyRegister off = true → off % 8 = 0 → exec (.registerWrite m off bs) s = .next s)
      ∧ (∀ off bs, exec (.attnonceWrite m off bs) s = exec (.registerWrite m (0x200 + off) bs) s)
      ∧ (∀ off bs, bs.length ≠ 8 → bs.length ≠ 16 → exec (.registerWrite m off bs) s = .next s)
      ∧ (∀ bs, bs.length = 16 → exec (.registerWrite m 0x2_0000 bs) s = .next (match m with
          | .ctx c => s.acceptCmd c (BitVec.ofNat 128 (natOfBytes bs))
          | _ => s.deny))
      ∧ (∀ bs, bs.length = 8 →
        let v := natOfBytes bs
        let i := match bitsOf v 45 43 with
          | 1 => some (Instr.claim m)
          | 2 => some (.offer m (BitVec.ofNat 16 (bitsOf v 31 16)))
          | 3 => some (.accept m)
          | 4 => some (.release m)
          | _ => none
        exec (.registerWrite m 0 bs) s = (match i with
          | some i => exec i s
          | none => .next s)
        ∧ (∀ d < 8, exec (.registerWrite m (0x10_0008 + 0x1_0000 * d) bs) s = exec (.framepoolPush m d (BitVec.ofNat 64 v)) s)
        ∧ ∀ off, off % 8 ≠ 0 → exec (.registerWrite m off bs) s = .next s)
      ∧ (∀ d,
        let read := fun (t : State) (v : Nat) => exec (.framepoolPop m d) s =
          .next (if m = .host then { t with out := t.out ++ [.data (bytesOfNat 8 v)] } else t)
        ((s.die d).frames = [] → read s 0)
        ∧ (∀ f rest, (s.die d).frames = f :: rest → read (s.modDie d fun x => { x with frames := rest })
          (min rest.length 0xFFF * 2 ^ 52 + f % 2 ^ 52 / 2 ^ 16 * 2 ^ 16 + 1))
        ∧ ∀ w : BitVec 64, exec (.framepoolPush m d w) s = .next (if (s.die d).frames.length < 65536 then
            s.modDie d fun x => { x with frames := (w.toNat % 2 ^ 52 / 2 ^ 16 * 2 ^ 16) :: x.frames } else s)))
    ∧ (s.reg.ownSt = .handover →
      (s.reg.handoverAt + 65536 ≤ s.tick → exec .handoverTimeout s = .next { s with reg := { s.reg with ownSt := .owned } })
      ∧ (s.tick < s.reg.handoverAt + 65536 → exec .handoverTimeout s = .refused (.notPending "HANDOVER_TIMEOUT")))
    ∧ (s.reg.quoting = true → ∃ t : State, exec .quoteComplete s = .next t
      ∧ t = { s with reg := { s.reg with quote := t.reg.quote, quoteValid := true, quoting := false } }
      ∧ t.reg.quote = Config.mldsaSign (Config.sha3 (bytesOfNat 32 s.reg.nonce.toNat
          ++ s.reg.meas.flatMap (fun m => bytesOfNat 32 m.toNat) ++ s.flash.serial)))
    ∧ (∀ off isWrite n bs, let a := s.reg.hwin.toNat + off
      let len := if isWrite then bs.length else n
      (s.reg.bootFail = true ∨ 2 ^ 36 < off + len ∨ hbmTop < a + len →
        exec (.bar4Access off isWrite n bs) s = .next { s with out := s.out ++ [.unsupported] })
      ∧ (s.reg.bootFail = false → off + len ≤ 2 ^ 36 → a + len ≤ hbmTop →
        (isWrite = true → (∀ t, s.writePhys .dir a bs = .ok t → exec (.bar4Access off isWrite n bs) s = .next t)
          ∧ (s.writePhys .dir a bs = .lost → exec (.bar4Access off isWrite n bs) s = .next { s with out := s.out ++ [.unsupported] }))
        ∧ (isWrite = false → (∀ cs t, s.readPhys a n = .ok (cs, t) →
            exec (.bar4Access off isWrite n bs) s = .next { t with out := t.out ++ [.data cs] })
          ∧ (s.readPhys a n = .lost →
            exec (.bar4Access off isWrite n bs) s = .next { s with out := s.out ++ [.unsupported] }))))
    ∧ ∃ t : State, exec .reset s = .next t ∧ t.mem = s.mem ∧ t.flash = s.flash ∧ t.wgs = [] ∧ t.cores = [] ∧ t.quads = []
      ∧ t.l2 = [] ∧ t.dir = [] ∧ t.homes = [] ∧ t.msgs = [] ∧ t.pn = [] ∧ t.rights = [] ∧ t.cycle = 0 ∧ t.reg.epoch = 0
      ∧ t.reg.target = 0xFFFF ∧ t.reg.master = 0xFFFF ∧ (∀ d < 8, (t.die d).rakectl = 0x404007 ∧ (t.die d).fenced = false)
      ∧ (∀ k a, bootSlot s.flash.fuses s.flash.slotA = a → bootSlot s.flash.fuses s.flash.slotB = k →
        (∀ x, a = some x → t.reg.bootReady = true ∧ t.reg.bootFail = false ∧ t.reg.bootSlot = 0 ∧ t.reg.ownSt = .free ∧ t.reg.meas.take x.length = x)
        ∧ (∀ x, a = none → k = some x →
          t.reg.bootReady = true ∧ t.reg.bootFail = false ∧ t.reg.bootSlot = 1 ∧ t.reg.ownSt = .free ∧ t.reg.meas.take x.length = x)
        ∧ (a = none → k = none → t.reg.bootReady = false ∧ t.reg.bootFail = true ∧ t.reg.ownSt = .booting))

/-- R23, R144, R147 to R149, R168, R432, R433, Tables 23.4 and 6.10: events of links and of fencing. A frame's flits are
taken in order, each once; one that is not acknowledged is sent again after 64 ticks, and a peer that acknowledges
nothing for 4096 is unreachable; a fenced core's workgroups are killed and its lines lost; and the lines of a fenced
stack or die are lost. -/
def Obligations.LinkEvents : Prop :=
  ∀ s : State,
    (∀ (port ethertype peer seq : Nat) (fs : List Flit), s.portUp port = true →
      (ethertype ≠ 0x88B6 ∨ fs = [] ∨ 16 < fs.length → exec (.zilberFrame port ethertype peer seq fs) s =
        .next (s.modPort port fun z => { z with dropped := z.dropped + 1 }))
      ∧ (ethertype = 0x88B6 → seq = (s.peer peer).nextRecv →
        let s1 := s.modPeer peer fun p => { p with nextRecv := p.nextRecv + 1 }
        (∀ ws, fs = [.mirror ws] → exec (.zilberFrame port ethertype peer seq fs) s = .next { s1 with
          mirrors := put s.mirrors peer (ws.foldl (fun m w => Memory.write m w.1 w.2) (look [] s.mirrors peer)) })
        ∧ ∀ (tag : Nat) (x : PeerAcc), (s.peer peer).waiting.find? (·.tag == tag) = some x →
          let s2 := s1.modPeer peer fun p => { p with waiting := p.waiting.filter (·.tag != tag) }
          (fs = [.refusal tag] → exec (.zilberFrame port ethertype peer seq fs) s = .next (s2.lostPeer x))
          ∧ ∀ (bs : List Byte) (remaining : Nat), fs = [.reply tag bs remaining] →
            let whole := (∀ a ∈ x.accs, a.isLoad = true) ∧ x.lease ≠ 0 ∧ bs.length = 128
            let r := fun (row : Row) => (s2.performAll row (.later (upTick s.cycle)) x.accs).2
            (¬whole → exec (.zilberFrame port ethertype peer seq fs) s =
              .next (r (Row.putBytes 0 ((x.accs.head?.map (·.off)).getD 0) bs)))
            ∧ ∀ tr, whole → x.tr = some tr → let s3 := r (Row.ofBytes bs)
              (s3.transGone x.core tr = true → exec (.zilberFrame port ethertype peer seq fs) s = .next s3)
              ∧ (s3.transGone x.core tr = false → (s3.core x.core).hasWay x.ctx x.vline → ∃ t : State,
                exec (.zilberFrame port ethertype peer seq fs) s = .next t
                ∧ ∃ l ∈ (t.core x.core).l1d, l.line = x.line ∧ l.ctx = x.ctx ∧ l.vline = x.vline ∧ l.st = .lse
                  ∧ l.data = Row.ofBytes bs ∧ l.stamp = stampOf (x.sentAt + remaining - remaining / 4096)))
      ∧ (∀ f, ethertype = 0x88B6 → fs = [f] → (∀ n, f ≠ .ack n) →
        (seq = (s.peer peer).nextRecv → exec (.zilberFrame port ethertype peer seq fs) s =
          .next ((s.modPeer peer fun p => { p with nextRecv := p.nextRecv + 1 }).takeFlit peer f))
        ∧ (seq ≠ (s.peer peer).nextRecv → exec (.zilberFrame port ethertype peer seq fs) s = .next s))
      ∧ (∀ n, ethertype = 0x88B6 → fs = [.ack n] → exec (.zilberFrame port ethertype peer seq fs) s =
        .next (s.modPeer peer fun p =>
          { p with unacked := p.unacked.filter (fun x => n ≤ x.seq), lastAck := s.tick, unreachable := false }))
      ∧ ∀ x : Sent, (s.peer peer).unacked.find? (·.seq == seq) = some x →
        (x.tick + 64 ≤ s.tick → exec (.flitResend peer seq port) s = .next ((s.modPeer peer fun p => { p with
          unacked := modWhere (·.seq == seq) (fun x => { x with port := port, tick := s.tick }) p.unacked }).modPort port
            fun z => { z with resent := z.resent + 1 }))
        ∧ (s.tick < x.tick + 64 → exec (.flitResend peer seq port) s = .refused (.notPending "FLIT_RESEND")))
    ∧ (∀ peer, (s.peer peer).unreachable = false → (s.peer peer).unacked ≠ [] → (s.peer peer).lastAck + 4096 ≤ s.tick →
      exec (.peerUnreachable peer) s = .next ((s.peer peer).waiting.foldl (fun t x =>
        let t := t.lostAccs x.accs .physRange 0
        match x.done with
        | some h => t.dstatEvent h 0xFE
        | none => t) (s.modPeer peer fun p => { p with unreachable := true, waiting := [] })))
    ∧ (∀ (port : Nat) (z : ZPort), s.zports[port]? = some z → z.fenced = false →
      (z.up = false → exec (.linkUp port) s = .next (s.modPort port fun z => { z with up := true }))
      ∧ ∃ t : State, exec (.fencePort port) s = .next t ∧ t = { s with zports := t.zports, peers := t.peers }
        ∧ t.portUp port = false ∧ ((t.zports[port]?).any (·.fenced) = true)
        ∧ ((∃ j < 8, j ≠ port ∧ s.portUp j = true) → ∀ p x, x ∈ (t.peer p).unacked →
          x.port ≠ port ∧ (x ∈ (s.peer p).unacked ∨ (t.portUp x.port = true ∧ x.tick = s.tick))))
    ∧ (∀ c, c < 1040 → (s.core c).fenced = false → ∃ t : State, exec (.fenceCore c) s = .next t
      ∧ (s.homes = [] → t.core c = { Core.empty with fenced := decide (8 ≤ dieOf c ∨ (s.die (dieOf c)).spares = 0) }
        ∧ (∀ l ∈ (s.core c).l1d, l.st = .m ∨ l.st = .o → l.line ∈ t.lostLines)
        ∧ (∀ e ∈ t.dir, (e.st = .x ∨ e.st = .o → e.owner ≠ c) ∧ (e.coarse = false → e.st = .s → c ∉ e.sharers))
        ∧ ∀ h w, s.wg? h = some w → (∃ k ∈ w.cores, k.core = c) → ∃ w', t.wg? h = some w' ∧ w'.kill ≠ none))
    ∧ (∀ q, q < 260 → (∃ c ∈ coresOfQuad q, (s.core c).fenced = false) → ∃ t : State, exec (.fenceQuad q) s = .next t
      ∧ (s.homes = [] → t.quad q = { Quad.empty with fenced := (s.quad q).fenced }))
    ∧ (∀ d k, d < 8 → k < 2 → d < s.dies.length → k < (s.die d).stackFenced.length → ((s.die d).stackFenced[k]?).getD false = false →
      ∃ t : State, exec (.fenceStack d k) s = .next t ∧ (t.die d).stackFenced = (s.die d).stackFenced.set k true
        ∧ (∀ l, isHbm l = true → homeDie l = d → stackOf l = k → t.isLost l = true)
        ∧ ∀ x ∈ t.homes, t.isLost x.line = false)
    ∧ ∀ d, d < 8 → d < s.dies.length → (s.die d).fenced = false → ∃ t : State, exec (.fenceDie d) s = .next t
      ∧ (s.homes = [] → (t.die d).fenced = true ∧ (∀ l, isHbm l = true → homeDie l = d → t.isLost l = true)
        ∧ (∀ k < 128, t.core (128 * d + k) = { Core.empty with fenced := true })
        ∧ ∀ h w, s.wg? h = some w → (∃ k ∈ w.cores, dieOf k.core = d) → ∃ w', t.wg? h = some w' ∧ w'.kill ≠ none)

/-! ### Reset, decoding and steps -/

/-- Tables 4.7, 5.7, 5.9, 6.8, 10.7, 10.12, 12.9, 12.10, 23.2: what the reset columns give, and that memory then has its
canonical form. That no byte of memory is listed, so that every byte reads 0, is the model's choice (log entry 2). -/
def Obligations.ResetState : Prop :=
  let s := State.reset
  s.reg.epoch = 0 ∧ s.reg.target = 0xFFFF ∧ s.reg.master = 0xFFFF
  ∧ (∀ d < 8, bitsOf (s.die d).rakectl.toNat 23 20 = 4 ∧ bitsOf (s.die d).rakectl.toNat 19 8 = 0x40
    ∧ bitsOf (s.die d).rakectl.toNat 2 2 = 1 ∧ bitsOf (s.die d).rakectl.toNat 1 1 = 1 ∧ bitsOf (s.die d).rakectl.toNat 0 0 = 1)
  ∧ (∀ c, s.pnQuota c = 0x400) ∧ s.pn = []
  ∧ GroupSr.reset.lease = 0x10 ∧ GroupSr.reset.pnheat = 0x40 ∧ GroupSr.reset.tol = 0x3A83126F ∧ GroupSr.reset.mmode = 0
  ∧ GroupSr.reset.ashbase = 0 ∧ GroupSr.reset.ashlim = 0 ∧ GroupSr.reset.rngkey = 0 ∧ GroupSr.reset.rngctr = 0
  ∧ Memory.wf s.mem = true

/-- R239 to R250: words that the encoding tables and the worked examples of the manual spell out, one or more of each
opcode group, decode to the instructions they stand for. -/
def Obligations.WordsDecode : Prop :=
  let h : Hint := { pair := false, yield := false, split := false, skip := false, reuseA := false, reuseB := false, stall := 0 }
  let c : Ctl := { guard := .always, hint := h }
  let v := fun (i : BitVec 9) => Opnd.v false false i
  let r := fun (i : BitVec 10) => Opnd.s false false i
  decode 0x80000404_20060000_0E005002 = .brx { guard := .pred false 2, hint := { h with split := true } } 5 (.rel32 0x60)
  ∧ decode 0x80008000_02345400_3400A101 = .iadd c .s32 (r 10) (r 3) (.imm32 0x12345)
  ∧ decode 0x00C00000_0E001C00_8200110F = .shl c .s32 (v 1) (.lane false false) (.imm 1)
  ∧ decode 0x20020004_32802200_1200821A = .ffma { c with guard := .pred false 3 } .rz .f32 (v 8) (v 1) (.v false true 2) (r 4)
  ∧ decode 0x00C00004_10000200_2400640B = .redadd { c with guard := .pred false 1 } .s32 (r 6) (v 2)
  ∧ decode 0x01C12000_0E010400_32009500 =
      .ldWait c { win := .l, expect := .none, ty := .b32, x4 := false, d := v 9, a := r 3, off := .imm 16 }
  ∧ decode 0x39C00000_0E000200_42001501 =
      .st c { win := .g, expect := .none, scope := .sc .sys, ty := .b32, x4 := false, d := v 1, a := v 4, off := .imm 0 }
  ∧ decode 0x1CC00000_02002400_82004600 = .atom c .add .g (.sc .quad) .rel .s32 (v 4) (r 8) (v 2)
  ∧ decode 0x18000000_0E000000_00000602 = .bar c (.sc .quad) (.imm 0)
  ∧ decode 0x38000000_0E140400_A400C700 = .copy c (.sc .sys) (r 12) (r 10) (.imm 320)
  ∧ decode 0x00004000_08004800_1A002802 = .mma c false true (.a false false 2) (.m false false 1) (.m false false 4)
  ∧ decode 0x00002000_0400A400_82020901 = .decodeBlk c .wait (v 32) (r 8) (r 10)
  ∧ decode 0x0000C000_02003401_02028A02 = .kvld c false true 1 (v 40) (r 16) (v 3)
  ∧ decode 0x00000000_0E00A000_0E010C05 = .setsr c 0x010 (.imm 10)
  ∧ decode 0 = .nop c

/-- R239 to R248, R260: no bit of an instruction is lost in its word. Every well-formed instruction, with every operand,
modifier, guard and hint that its entry admits, is what its word decodes to. -/
def Obligations.EncodingRoundTrip : Prop :=
  ∀ i : Instr, i.wf = true → i.isEvent = false → (∀ w, i ≠ .notAnInstruction w) → decode (encode i) = i

namespace Sys2Proof.Machine

/-- What an instruction that executes leaves: the slot it took in its quarter is used in this cycle of its core's clock, unless
its SKIP bit dropped it or it still waits for its issue. -/
def State.taking (s : State) (h g p : Nat) (gr : Group) (i : Instr) : Out :=
  match exec i { s with cur := .path h g p } with
  | .next t => .next (if s.dropped h g p i = true ∨ t.hasIssued h g p = false then t
      else t.modCore gr.core fun c =>
        { c with slots := (gr.quarter, vectorSlot i, s.clock gr.core) :: c.slots.filter (·.2.2 == s.clock gr.core) })
  | r => r

end Sys2Proof.Machine

open Sys2Proof Sys2Proof.Machine

/-- R46, R89, R205 to R207, R209, R239: a step whose turn is an issue of a path that may run executes the instruction that the
word at its PC decodes to, in its quarter's slot: the oldest ready path takes it, a SKIPped instruction takes none, and the
second of a pair goes with the first; a fetch that lacks a translation waits, and one that faults raises its cause; an access
processor does likewise; a turn that is an event is that event. A fetch from a line that no cache holds reads the 12 bytes at
the PC from their home. The order of groups of one age in a quarter is the model's choice (log 1). -/
def Obligations.StepRunsDecodedWord : Prop :=
  ∀ (s s0 : State) (dt h g p pre : Nat) (act : Act) (rest : List Turn) (w : Workgroup) (gr : Group),
    (s.sched = { dt := dt, act := act } :: rest → State.elapse { s with sched := rest } dt = none → step s = .refused .notReady)
    ∧ (s.sched = { dt := dt, act := act } :: rest → State.elapse { s with sched := rest } dt = some s0 →
      s0.cycle = s.cycle + dt
      ∧ (act = .issue h g p pre → s0.wg? h = some w → w.group? g = some gr →
        (s0.pathRuns w gr p = false → step s = .refused .notReady)
        ∧ (s0.pathRuns w gr p = true →
          (∀ x s1, s0.pathWord w gr p = .ok x s1 →
            let i := decode x
            let s3 := (s1.modGroup h g (·.modPath p fun q => { q with fbuf := bufPut q.fbuf (gr.path p).pc x })).fetchAhead
              h g p ((gr.path p).pc + 12) pre
            ((gr.path p).slotted = true → step s = exec i { s3 with cur := .path h g p })
            ∧ ((gr.path p).slotted = false →
              (s3.canIssue h g p i = false ∨ s3.dropped h g p i = true → step s = s3.taking h g p gr i)
              ∧ ∀ gr3, s3.canIssue h g p i = true → s3.dropped h g p i = false → s3.group? h g = some gr3 →
                ((s3.slotFree gr3.core gr3.quarter (vectorSlot i) = false
                  ∨ ∃ r ∈ s3.rivals gr3.core gr3.quarter (vectorSlot i), rivalBefore r ((gr3.path p).ageFrom, h, g, p) = true) →
                  step s = .refused .notReady)
                ∧ (s3.slotFree gr3.core gr3.quarter (vectorSlot i) = true →
                  (∀ r ∈ s3.rivals gr3.core gr3.quarter (vectorSlot i), rivalBefore r ((gr3.path p).ageFrom, h, g, p) = false) →
                  (i.ctl.hint.pair = false ∨ (gr3.path p).stepOnce = true → step s = s3.taking h g p gr3 i)
                  ∧ (∀ s4, s3.second h g p w gr3 i = .wait s4 → step s = .next s4)
                  ∧ (s3.second h g p w gr3 i = .alone → step s = s3.taking h g p gr3 i)
                  ∧ ∀ j s4 t, s3.second h g p w gr3 i = .pair j s4 → s4.taking h g p gr3 i = .next t →
                    i.pairs j = true ∧ step s = .next (t.takeSecond h g p (((gr3.path p).pc + 12) % 2 ^ 64) j))))
          ∧ (∀ as, s0.pathWord w gr p = .walk as → step s = .next ((s0.asks as).waits h g p .walk))
          ∧ (s0.pathWord w gr p = .busy → step s = .next (s0.waits h g p .busy))
          ∧ ∀ f, s0.pathWord w gr p = .fault f → step s = .next
            ((s0.modGroup h g (·.modPath p fun q => { q with stepOnce := false })).raise h g p
              { cls := .fetch, cause := f.cause, info := f.info, faddr := f.addr, p31 := (gr.path p).mask })))
      ∧ (act = .apIssue h g pre → s0.wg? h = some w → w.group? g = some gr → s0.apRuns w gr = true →
        let runs := fun (s1 : State) (x : BitVec 96) => step s = exec (decode x) { s1.modGroup h g fun gr =>
          { gr with ap := { gr.ap with fbuf := bufPut gr.ap.fbuf gr.ap.pc x, notBefore := s1.clock gr.core + 1 } }
          with cur := .ap h g }
        (∀ x, bufWord gr.ap.fbuf gr.ap.pc = some x → runs s0 x)
        ∧ (bufWord gr.ap.fbuf gr.ap.pc = none →
          (∀ x s1, s0.fetch gr.core w.ctx gr.sup gr.ap.pc = .ok x s1 → runs s1 x)
          ∧ ∀ f, s0.fetch gr.core w.ctx gr.sup gr.ap.pc = .fault f →
            step s = .next (s0.modGroup h g (·.apFault f.cause f.info f.addr))))
      ∧ ∀ i, act = .event i → i.isEvent = true → step s = exec i { s0 with cur := .none })
    ∧ ∀ (core ctx pc : Nat) (sup : Bool) (t : Trans) (u u1 : State) (exact : Bool), pc % 128 ≤ 116 → pc + 12 ≤ 0x7F_FC00_0000_0000 →
      (s.core core).iline? ctx pc = none → s.find core ctx pc .exec sup false = .tr t → s.useAll core false [t] = .ok u →
      (u.core core).iline? ctx pc = none →
      let line := lineOf (t.physOf pc)
      u.isLost line = false → u.quiet line = true → (u.redirects line = true → u.lackAt line = none) →
      u.trackFor line (.dir core .rd (u.tenancyOf ctx)) = .ok (exact, u1) → u1.track? line ≠ none → u1.owner? line = none →
      u1.movingData line = none → (∀ t ∈ u1.homes, t.line ≠ line) →
      ∃ s1, s.fetch core ctx sup pc =
        .ok (wordOfBytes ((List.range 12).map fun k => (u1.homeValue line).byte (pc % 128 + k))) s1

/-- The model's memory keeps its canonical form: strictly rising addresses, and no cell with the byte that an unlisted
address reads as, whatever the step does (the form is the model's, log entry 2). -/
def Obligations.StepsKeepMemoryForm : Prop :=
  ∀ s t : State, Memory.wf s.mem = true → step s = .next t → Memory.wf t.mem = true
end

