-- ==== Sys2Proof/Laws/Maps.lean ====
section
/-!
SUPPORT. Laws of the sparse maps, of lists changed at a place, and of rows and lane masks.
-/
namespace Sys2Proof

/-! ### Sparse maps -/

@[simp] theorem look_put_same {α : Type} (d a : α) (m : SMap α) (k : Nat) : look d (put m k a) k = a := by
  induction m with
  | nil => simp [put, look]
  | cons e m ih =>
    obtain ⟨j, b⟩ := e
    simp only [put]
    split
    · simp [look]
    · split
      · simp [look]
      · rename_i h; simp [look, h, ih]

theorem look_put_ne {α : Type} (d a : α) (m : SMap α) {k j : Nat} (h : j ≠ k) : look d (put m k a) j = look d m j := by
  induction m with
  | nil => simp [put, look, h]
  | cons e m ih =>
    obtain ⟨i, b⟩ := e
    simp only [put]
    split
    · simp [look, h]
    · split
      · rename_i h2; subst h2; simp [look, h]
      · simp [look, ih]

theorem look_put {α : Type} (d a : α) (m : SMap α) (k j : Nat) :
    look d (put m k a) j = if j = k then a else look d m j := by
  split
  · rename_i h; subst h; simp
  · rename_i h; exact look_put_ne d a m h

@[simp] theorem find?_put_same {α : Type} (a : α) (m : SMap α) (k : Nat) : find? (put m k a) k = some a := by
  induction m with
  | nil => simp [put, find?]
  | cons e m ih =>
    obtain ⟨j, b⟩ := e
    simp only [put]
    split
    · simp [find?]
    · split
      · simp [find?]
      · rename_i h; simp [find?, h, ih]

theorem find?_put_ne {α : Type} (a : α) (m : SMap α) {k j : Nat} (h : j ≠ k) : find? (put m k a) j = find? m j := by
  induction m with
  | nil => simp [put, find?, h]
  | cons e m ih =>
    obtain ⟨i, b⟩ := e
    simp only [put]
    split
    · simp [find?, h]
    · split
      · rename_i h2; subst h2; simp [find?, h]
      · simp [find?, ih]

@[simp] theorem put_put {α : Type} (a b : α) (m : SMap α) (k : Nat) : put (put m k a) k b = put m k b := by
  induction m with
  | nil => simp [put]
  | cons e m ih =>
    obtain ⟨j, c⟩ := e
    simp only [put]
    split
    · simp [put]
    · split
      · simp [put]
      · rename_i h1 h2; simp [put, h1, h2, ih]

/-! ### Lists changed at a place -/

@[simp] theorem modAt_length {α : Type} (f : α → α) (l : List α) (i : Nat) : (modAt f l i).length = l.length := by
  induction l generalizing i with
  | nil => rfl
  | cons a l ih => cases i <;> simp [modAt, ih]

theorem modAt_getElem? {α : Type} (f : α → α) (l : List α) (i j : Nat) :
    (modAt f l i)[j]? = if j = i then (l[j]?).map f else l[j]? := by
  induction l generalizing i j with
  | nil => simp [modAt]
  | cons a l ih =>
    cases i with
    | zero => cases j <;> simp [modAt]
    | succ i =>
      cases j with
      | zero => simp [modAt]
      | succ j => simp [modAt, ih]

@[simp] theorem modAt_modAt {α : Type} (f g : α → α) (l : List α) (i : Nat) :
    modAt g (modAt f l i) i = modAt (fun a => g (f a)) l i := by
  induction l generalizing i with
  | nil => rfl
  | cons a l ih => cases i <;> simp [modAt, ih]

/-! ### Rows and masks -/

theorem Row.lane_getLsbD (r : Row) (l j : Nat) : (r.lane l).getLsbD j = (decide (j < 32) && r.getLsbD (32 * l + j)) := by
  simp [Row.lane]

theorem Row.ofLanes_getLsbD (ws : List Word) (i : Nat) (h : i < 1024) :
    (Row.ofLanes ws).getLsbD i = ((ws[i / 32]?).getD 0).getLsbD (i % 32) := by
  induction ws generalizing i with
  | nil => simp [Row.ofLanes]
  | cons w ws ih =>
    simp only [Row.ofLanes, BitVec.getLsbD_or, BitVec.getLsbD_setWidth, BitVec.getLsbD_shiftLeft]
    by_cases h2 : i < 32
    · have : i / 32 = 0 := by omega
      have h3 : i % 32 = i := by omega
      simp [this, h3, h2, h]
    · have h3 : i / 32 = (i - 32) / 32 + 1 := by omega
      have h4 : (i - 32) % 32 = i % 32 := by omega
      have h5 : w.getLsbD i = false := BitVec.getLsbD_of_ge w i (by omega)
      rw [ih (i - 32) (by omega), h3, h4]
      simp [h2, h, h5]

@[simp] theorem Row.lane_ofLanes (ws : List Word) {l : Nat} (h : l < 32) : (Row.ofLanes ws).lane l = (ws[l]?).getD 0 := by
  ext j hj
  have hj' : j < 32 := hj
  have := Row.ofLanes_getLsbD ws (32 * l + j) (by omega)
  have h1 : (32 * l + j) / 32 = l := by omega
  have h2 : (32 * l + j) % 32 = j := by omega
  rw [h1, h2] at this
  simpa [← BitVec.getLsbD_eq_getElem, Row.lane_getLsbD, hj'] using this

@[simp] theorem Row.lane_splat (w : Word) {l : Nat} (h : l < 32) : (Row.splat w).lane l = w := by
  rw [Row.splat, Row.lane_ofLanes _ h, List.getElem?_replicate]
  simp [h]

@[simp] theorem Row.lane_merge (m : Mask) (a b : Row) {l : Nat} (h : l < 32) :
    (Row.merge m a b).lane l = if m.getLsbD l then a.lane l else b.lane l := by
  simp [Row.merge, h]

@[simp] theorem Row.lane_or (a b : Row) (l : Nat) : (a ||| b).lane l = a.lane l ||| b.lane l := by
  ext j hj
  simp [← BitVec.getLsbD_eq_getElem, Row.lane_getLsbD, hj]

theorem Row.ext_lane {a b : Row} (h : ∀ l < 32, a.lane l = b.lane l) : a = b := by
  apply BitVec.eq_of_getLsbD_eq
  intro i hi
  have h1 := congrArg (·.getLsbD (i % 32)) (h (i / 32) (by omega))
  simp only [Row.lane_getLsbD] at h1
  have h2 : 32 * (i / 32) + i % 32 = i := by omega
  have h3 : i % 32 < 32 := by omega
  simpa [h2, h3] using h1

@[simp] theorem Row.lane_zero (l : Nat) : (0 : Row).lane l = 0 := by
  ext j hj
  simp [← BitVec.getLsbD_eq_getElem, Row.lane_getLsbD]

theorem Row.setLane_lane (r : Row) (w : Word) {l k : Nat} (hl : l < 32) (hk : k < 32) :
    (r.setLane k w).lane l = if l = k then w else r.lane l := by
  ext j hj
  have hj' : j < 32 := hj
  rw [← BitVec.getLsbD_eq_getElem, Row.lane_getLsbD]
  simp only [Row.setLane, BitVec.getLsbD_or, BitVec.getLsbD_and, BitVec.getLsbD_not, BitVec.getLsbD_shiftLeft,
    BitVec.getLsbD_setWidth, BitVec.getLsbD_allOnes]
  by_cases h : l = k
  · subst h
    have h1 : 32 * l + j < 1024 := by omega
    have h2 : j < 1024 := by omega
    simp [h1, h2, hj']
  · by_cases h2 : l < k
    · have h1 : 32 * l + j < 32 * k := by omega
      have h3 : 32 * l + j < 1024 := by omega
      simp [h, h1, hj', h3, ← BitVec.getLsbD_eq_getElem, Row.lane_getLsbD]
    · have h1 : ¬ (32 * l + j < 32 * k) := by omega
      have h3 : 32 * l + j < 1024 := by omega
      have h4 : ¬ (32 * l + j - 32 * k < 32) := by omega
      have h5 : w.getLsbD (32 * l + j - 32 * k) = false := BitVec.getLsbD_of_ge _ _ (by omega)
      simp [h, h1, hj', h3, h4, h5, ← BitVec.getLsbD_eq_getElem, Row.lane_getLsbD]

theorem Mask.one_getLsbD (k l : Nat) : (Mask.one k).getLsbD l = (decide (l < 32) && decide (l = k)) := by
  simp only [Mask.one, BitVec.getLsbD_ofNat, Nat.testBit_two_pow]
  by_cases h : l = k
  · simp [h]
  · simp [h, Ne.symm h]

theorem Mask.ofLanes_getLsbD (ls : List Nat) {l : Nat} (h : l < 32) : (Mask.ofLanes ls).getLsbD l = decide (l ∈ ls) := by
  have key : ∀ (ls : List Nat) (m : Mask),
      (ls.foldl (fun m k => m ||| Mask.one k) m).getLsbD l = (m.getLsbD l || decide (l ∈ ls)) := by
    intro ls
    induction ls with
    | nil => intro m; simp
    | cons k ls ih =>
      intro m
      simp only [List.foldl_cons, ih, BitVec.getLsbD_or, Mask.one_getLsbD, h, decide_true, Bool.true_and,
        List.mem_cons]
      by_cases h2 : l = k <;> simp [h2]
  simpa [Mask.ofLanes] using key ls 0

@[simp] theorem Mask.mem_lanes (m : Mask) (l : Nat) : l ∈ Mask.lanes m ↔ l < 32 ∧ m.getLsbD l = true := by
  simp [Mask.lanes]

end Sys2Proof
end

