-- ==== Sys2Proof/Laws/State.lean ====
section
/-!
SUPPORT. Records: for each named update of the state, of a workgroup, of a group and of a path one lemma per field,
true by definition.
-/
namespace Sys2Proof.Machine

/-! ### The state -/

@[simp] theorem State.setCore_cycle (s : State) (c : Nat) (x : Core) : (s.setCore c x).cycle = s.cycle := rfl
@[simp] theorem State.setCore_sched (s : State) (c : Nat) (x : Core) : (s.setCore c x).sched = s.sched := rfl
@[simp] theorem State.setCore_cur (s : State) (c : Nat) (x : Core) : (s.setCore c x).cur = s.cur := rfl
@[simp] theorem State.setCore_fresh (s : State) (c : Nat) (x : Core) : (s.setCore c x).fresh = s.fresh := rfl
@[simp] theorem State.setCore_mem (s : State) (c : Nat) (x : Core) : (s.setCore c x).mem = s.mem := rfl
@[simp] theorem State.setCore_l2 (s : State) (c : Nat) (x : Core) : (s.setCore c x).l2 = s.l2 := rfl
@[simp] theorem State.setCore_dir (s : State) (c : Nat) (x : Core) : (s.setCore c x).dir = s.dir := rfl
@[simp] theorem State.setCore_homes (s : State) (c : Nat) (x : Core) : (s.setCore c x).homes = s.homes := rfl
@[simp] theorem State.setCore_msgs (s : State) (c : Nat) (x : Core) : (s.setCore c x).msgs = s.msgs := rfl
@[simp] theorem State.setCore_arrivals (s : State) (c : Nat) (x : Core) : (s.setCore c x).arrivals = s.arrivals := rfl
@[simp] theorem State.setCore_highWater (s : State) (c : Nat) (x : Core) : (s.setCore c x).highWater = s.highWater := rfl
@[simp] theorem State.setCore_lostLines (s : State) (c : Nat) (x : Core) : (s.setCore c x).lostLines = s.lostLines := rfl
@[simp] theorem State.setCore_cores (s : State) (c : Nat) (x : Core) : (s.setCore c x).cores = put s.cores c x := rfl
@[simp] theorem State.setCore_quads (s : State) (c : Nat) (x : Core) : (s.setCore c x).quads = s.quads := rfl
@[simp] theorem State.setCore_dies (s : State) (c : Nat) (x : Core) : (s.setCore c x).dies = s.dies := rfl
@[simp] theorem State.setCore_pn (s : State) (c : Nat) (x : Core) : (s.setCore c x).pn = s.pn := rfl
@[simp] theorem State.setCore_nextPn (s : State) (c : Nat) (x : Core) : (s.setCore c x).nextPn = s.nextPn := rfl
@[simp] theorem State.setCore_pnquota (s : State) (c : Nat) (x : Core) : (s.setCore c x).pnquota = s.pnquota := rfl
@[simp] theorem State.setCore_wgs (s : State) (c : Nat) (x : Core) : (s.setCore c x).wgs = s.wgs := rfl
@[simp] theorem State.setCore_bars (s : State) (c : Nat) (x : Core) : (s.setCore c x).bars = s.bars := rfl
@[simp] theorem State.setCore_queues (s : State) (c : Nat) (x : Core) : (s.setCore c x).queues = s.queues := rfl
@[simp] theorem State.setCore_launches (s : State) (c : Nat) (x : Core) : (s.setCore c x).launches = s.launches := rfl
@[simp] theorem State.setCore_nextHandle (s : State) (c : Nat) (x : Core) : (s.setCore c x).nextHandle = s.nextHandle := rfl
@[simp] theorem State.setCore_lastDie (s : State) (c : Nat) (x : Core) : (s.setCore c x).lastDie = s.lastDie := rfl
@[simp] theorem State.setCore_dstat (s : State) (c : Nat) (x : Core) : (s.setCore c x).dstat = s.dstat := rfl
@[simp] theorem State.setCore_dstatLost (s : State) (c : Nat) (x : Core) : (s.setCore c x).dstatLost = s.dstatLost := rfl
@[simp] theorem State.setCore_rights (s : State) (c : Nat) (x : Core) : (s.setCore c x).rights = s.rights := rfl
@[simp] theorem State.setCore_dbgQ (s : State) (c : Nat) (x : Core) : (s.setCore c x).dbgQ = s.dbgQ := rfl
@[simp] theorem State.setCore_halting (s : State) (c : Nat) (x : Core) : (s.setCore c x).halting = s.halting := rfl
@[simp] theorem State.setCore_dbgstat (s : State) (c : Nat) (x : Core) : (s.setCore c x).dbgstat = s.dbgstat := rfl
@[simp] theorem State.setCore_revoked (s : State) (c : Nat) (x : Core) : (s.setCore c x).revoked = s.revoked := rfl
@[simp] theorem State.setCore_ctxbase (s : State) (c : Nat) (x : Core) : (s.setCore c x).ctxbase = s.ctxbase := rfl
@[simp] theorem State.setCore_reg (s : State) (c : Nat) (x : Core) : (s.setCore c x).reg = s.reg := rfl
@[simp] theorem State.setCore_flash (s : State) (c : Nat) (x : Core) : (s.setCore c x).flash = s.flash := rfl
@[simp] theorem State.setCore_mail (s : State) (c : Nat) (x : Core) : (s.setCore c x).mail = s.mail := rfl
@[simp] theorem State.setCore_zports (s : State) (c : Nat) (x : Core) : (s.setCore c x).zports = s.zports := rfl
@[simp] theorem State.setCore_peers (s : State) (c : Nat) (x : Core) : (s.setCore c x).peers = s.peers := rfl
@[simp] theorem State.setCore_out (s : State) (c : Nat) (x : Core) : (s.setCore c x).out = s.out := rfl
@[simp] theorem State.setCore_slotFrees (s : State) (c : Nat) (x : Core) : (s.setCore c x).slotFrees = s.slotFrees := rfl
@[simp] theorem State.setCore_tokenQ (s : State) (c : Nat) (x : Core) : (s.setCore c x).tokenQ = s.tokenQ := rfl
@[simp] theorem State.setCore_rebuilds (s : State) (c : Nat) (x : Core) : (s.setCore c x).rebuilds = s.rebuilds := rfl
@[simp] theorem State.setCore_parityHold (s : State) (c : Nat) (x : Core) : (s.setCore c x).parityHold = s.parityHold := rfl
@[simp] theorem State.setCore_foldHeld (s : State) (c : Nat) (x : Core) : (s.setCore c x).foldHeld = s.foldHeld := rfl
@[simp] theorem State.setCore_mirrors (s : State) (c : Nat) (x : Core) : (s.setCore c x).mirrors = s.mirrors := rfl
@[simp] theorem State.setQuad_cycle (s : State) (c : Nat) (x : Quad) : (s.setQuad c x).cycle = s.cycle := rfl
@[simp] theorem State.setQuad_sched (s : State) (c : Nat) (x : Quad) : (s.setQuad c x).sched = s.sched := rfl
@[simp] theorem State.setQuad_cur (s : State) (c : Nat) (x : Quad) : (s.setQuad c x).cur = s.cur := rfl
@[simp] theorem State.setQuad_fresh (s : State) (c : Nat) (x : Quad) : (s.setQuad c x).fresh = s.fresh := rfl
@[simp] theorem State.setQuad_mem (s : State) (c : Nat) (x : Quad) : (s.setQuad c x).mem = s.mem := rfl
@[simp] theorem State.setQuad_l2 (s : State) (c : Nat) (x : Quad) : (s.setQuad c x).l2 = s.l2 := rfl
@[simp] theorem State.setQuad_dir (s : State) (c : Nat) (x : Quad) : (s.setQuad c x).dir = s.dir := rfl
@[simp] theorem State.setQuad_homes (s : State) (c : Nat) (x : Quad) : (s.setQuad c x).homes = s.homes := rfl
@[simp] theorem State.setQuad_msgs (s : State) (c : Nat) (x : Quad) : (s.setQuad c x).msgs = s.msgs := rfl
@[simp] theorem State.setQuad_arrivals (s : State) (c : Nat) (x : Quad) : (s.setQuad c x).arrivals = s.arrivals := rfl
@[simp] theorem State.setQuad_highWater (s : State) (c : Nat) (x : Quad) : (s.setQuad c x).highWater = s.highWater := rfl
@[simp] theorem State.setQuad_lostLines (s : State) (c : Nat) (x : Quad) : (s.setQuad c x).lostLines = s.lostLines := rfl
@[simp] theorem State.setQuad_cores (s : State) (c : Nat) (x : Quad) : (s.setQuad c x).cores = s.cores := rfl
@[simp] theorem State.setQuad_quads (s : State) (c : Nat) (x : Quad) : (s.setQuad c x).quads = put s.quads c x := rfl
@[simp] theorem State.setQuad_dies (s : State) (c : Nat) (x : Quad) : (s.setQuad c x).dies = s.dies := rfl
@[simp] theorem State.setQuad_pn (s : State) (c : Nat) (x : Quad) : (s.setQuad c x).pn = s.pn := rfl
@[simp] theorem State.setQuad_nextPn (s : State) (c : Nat) (x : Quad) : (s.setQuad c x).nextPn = s.nextPn := rfl
@[simp] theorem State.setQuad_pnquota (s : State) (c : Nat) (x : Quad) : (s.setQuad c x).pnquota = s.pnquota := rfl
@[simp] theorem State.setQuad_wgs (s : State) (c : Nat) (x : Quad) : (s.setQuad c x).wgs = s.wgs := rfl
@[simp] theorem State.setQuad_bars (s : State) (c : Nat) (x : Quad) : (s.setQuad c x).bars = s.bars := rfl
@[simp] theorem State.setQuad_queues (s : State) (c : Nat) (x : Quad) : (s.setQuad c x).queues = s.queues := rfl
@[simp] theorem State.setQuad_launches (s : State) (c : Nat) (x : Quad) : (s.setQuad c x).launches = s.launches := rfl
@[simp] theorem State.setQuad_nextHandle (s : State) (c : Nat) (x : Quad) : (s.setQuad c x).nextHandle = s.nextHandle := rfl
@[simp] theorem State.setQuad_lastDie (s : State) (c : Nat) (x : Quad) : (s.setQuad c x).lastDie = s.lastDie := rfl
@[simp] theorem State.setQuad_dstat (s : State) (c : Nat) (x : Quad) : (s.setQuad c x).dstat = s.dstat := rfl
@[simp] theorem State.setQuad_dstatLost (s : State) (c : Nat) (x : Quad) : (s.setQuad c x).dstatLost = s.dstatLost := rfl
@[simp] theorem State.setQuad_rights (s : State) (c : Nat) (x : Quad) : (s.setQuad c x).rights = s.rights := rfl
@[simp] theorem State.setQuad_dbgQ (s : State) (c : Nat) (x : Quad) : (s.setQuad c x).dbgQ = s.dbgQ := rfl
@[simp] theorem State.setQuad_halting (s : State) (c : Nat) (x : Quad) : (s.setQuad c x).halting = s.halting := rfl
@[simp] theorem State.setQuad_dbgstat (s : State) (c : Nat) (x : Quad) : (s.setQuad c x).dbgstat = s.dbgstat := rfl
@[simp] theorem State.setQuad_revoked (s : State) (c : Nat) (x : Quad) : (s.setQuad c x).revoked = s.revoked := rfl
@[simp] theorem State.setQuad_ctxbase (s : State) (c : Nat) (x : Quad) : (s.setQuad c x).ctxbase = s.ctxbase := rfl
@[simp] theorem State.setQuad_reg (s : State) (c : Nat) (x : Quad) : (s.setQuad c x).reg = s.reg := rfl
@[simp] theorem State.setQuad_flash (s : State) (c : Nat) (x : Quad) : (s.setQuad c x).flash = s.flash := rfl
@[simp] theorem State.setQuad_mail (s : State) (c : Nat) (x : Quad) : (s.setQuad c x).mail = s.mail := rfl
@[simp] theorem State.setQuad_zports (s : State) (c : Nat) (x : Quad) : (s.setQuad c x).zports = s.zports := rfl
@[simp] theorem State.setQuad_peers (s : State) (c : Nat) (x : Quad) : (s.setQuad c x).peers = s.peers := rfl
@[simp] theorem State.setQuad_out (s : State) (c : Nat) (x : Quad) : (s.setQuad c x).out = s.out := rfl
@[simp] theorem State.setQuad_slotFrees (s : State) (c : Nat) (x : Quad) : (s.setQuad c x).slotFrees = s.slotFrees := rfl
@[simp] theorem State.setQuad_tokenQ (s : State) (c : Nat) (x : Quad) : (s.setQuad c x).tokenQ = s.tokenQ := rfl
@[simp] theorem State.setQuad_rebuilds (s : State) (c : Nat) (x : Quad) : (s.setQuad c x).rebuilds = s.rebuilds := rfl
@[simp] theorem State.setQuad_parityHold (s : State) (c : Nat) (x : Quad) : (s.setQuad c x).parityHold = s.parityHold := rfl
@[simp] theorem State.setQuad_foldHeld (s : State) (c : Nat) (x : Quad) : (s.setQuad c x).foldHeld = s.foldHeld := rfl
@[simp] theorem State.setQuad_mirrors (s : State) (c : Nat) (x : Quad) : (s.setQuad c x).mirrors = s.mirrors := rfl
@[simp] theorem State.modDie_cycle (s : State) (d : Nat) (f : Die → Die) : (s.modDie d f).cycle = s.cycle := rfl
@[simp] theorem State.modDie_sched (s : State) (d : Nat) (f : Die → Die) : (s.modDie d f).sched = s.sched := rfl
@[simp] theorem State.modDie_cur (s : State) (d : Nat) (f : Die → Die) : (s.modDie d f).cur = s.cur := rfl
@[simp] theorem State.modDie_fresh (s : State) (d : Nat) (f : Die → Die) : (s.modDie d f).fresh = s.fresh := rfl
@[simp] theorem State.modDie_mem (s : State) (d : Nat) (f : Die → Die) : (s.modDie d f).mem = s.mem := rfl
@[simp] theorem State.modDie_l2 (s : State) (d : Nat) (f : Die → Die) : (s.modDie d f).l2 = s.l2 := rfl
@[simp] theorem State.modDie_dir (s : State) (d : Nat) (f : Die → Die) : (s.modDie d f).dir = s.dir := rfl
@[simp] theorem State.modDie_homes (s : State) (d : Nat) (f : Die → Die) : (s.modDie d f).homes = s.homes := rfl
@[simp] theorem State.modDie_msgs (s : State) (d : Nat) (f : Die → Die) : (s.modDie d f).msgs = s.msgs := rfl
@[simp] theorem State.modDie_arrivals (s : State) (d : Nat) (f : Die → Die) : (s.modDie d f).arrivals = s.arrivals := rfl
@[simp] theorem State.modDie_highWater (s : State) (d : Nat) (f : Die → Die) : (s.modDie d f).highWater = s.highWater := rfl
@[simp] theorem State.modDie_lostLines (s : State) (d : Nat) (f : Die → Die) : (s.modDie d f).lostLines = s.lostLines := rfl
@[simp] theorem State.modDie_cores (s : State) (d : Nat) (f : Die → Die) : (s.modDie d f).cores = s.cores := rfl
@[simp] theorem State.modDie_quads (s : State) (d : Nat) (f : Die → Die) : (s.modDie d f).quads = s.quads := rfl
@[simp] theorem State.modDie_dies (s : State) (d : Nat) (f : Die → Die) : (s.modDie d f).dies = modAt f s.dies d := rfl
@[simp] theorem State.modDie_pn (s : State) (d : Nat) (f : Die → Die) : (s.modDie d f).pn = s.pn := rfl
@[simp] theorem State.modDie_nextPn (s : State) (d : Nat) (f : Die → Die) : (s.modDie d f).nextPn = s.nextPn := rfl
@[simp] theorem State.modDie_pnquota (s : State) (d : Nat) (f : Die → Die) : (s.modDie d f).pnquota = s.pnquota := rfl
@[simp] theorem State.modDie_wgs (s : State) (d : Nat) (f : Die → Die) : (s.modDie d f).wgs = s.wgs := rfl
@[simp] theorem State.modDie_bars (s : State) (d : Nat) (f : Die → Die) : (s.modDie d f).bars = s.bars := rfl
@[simp] theorem State.modDie_queues (s : State) (d : Nat) (f : Die → Die) : (s.modDie d f).queues = s.queues := rfl
@[simp] theorem State.modDie_launches (s : State) (d : Nat) (f : Die → Die) : (s.modDie d f).launches = s.launches := rfl
@[simp] theorem State.modDie_nextHandle (s : State) (d : Nat) (f : Die → Die) : (s.modDie d f).nextHandle = s.nextHandle := rfl
@[simp] theorem State.modDie_lastDie (s : State) (d : Nat) (f : Die → Die) : (s.modDie d f).lastDie = s.lastDie := rfl
@[simp] theorem State.modDie_dstat (s : State) (d : Nat) (f : Die → Die) : (s.modDie d f).dstat = s.dstat := rfl
@[simp] theorem State.modDie_dstatLost (s : State) (d : Nat) (f : Die → Die) : (s.modDie d f).dstatLost = s.dstatLost := rfl
@[simp] theorem State.modDie_rights (s : State) (d : Nat) (f : Die → Die) : (s.modDie d f).rights = s.rights := rfl
@[simp] theorem State.modDie_dbgQ (s : State) (d : Nat) (f : Die → Die) : (s.modDie d f).dbgQ = s.dbgQ := rfl
@[simp] theorem State.modDie_halting (s : State) (d : Nat) (f : Die → Die) : (s.modDie d f).halting = s.halting := rfl
@[simp] theorem State.modDie_dbgstat (s : State) (d : Nat) (f : Die → Die) : (s.modDie d f).dbgstat = s.dbgstat := rfl
@[simp] theorem State.modDie_revoked (s : State) (d : Nat) (f : Die → Die) : (s.modDie d f).revoked = s.revoked := rfl
@[simp] theorem State.modDie_ctxbase (s : State) (d : Nat) (f : Die → Die) : (s.modDie d f).ctxbase = s.ctxbase := rfl
@[simp] theorem State.modDie_reg (s : State) (d : Nat) (f : Die → Die) : (s.modDie d f).reg = s.reg := rfl
@[simp] theorem State.modDie_flash (s : State) (d : Nat) (f : Die → Die) : (s.modDie d f).flash = s.flash := rfl
@[simp] theorem State.modDie_mail (s : State) (d : Nat) (f : Die → Die) : (s.modDie d f).mail = s.mail := rfl
@[simp] theorem State.modDie_zports (s : State) (d : Nat) (f : Die → Die) : (s.modDie d f).zports = s.zports := rfl
@[simp] theorem State.modDie_peers (s : State) (d : Nat) (f : Die → Die) : (s.modDie d f).peers = s.peers := rfl
@[simp] theorem State.modDie_out (s : State) (d : Nat) (f : Die → Die) : (s.modDie d f).out = s.out := rfl
@[simp] theorem State.modDie_slotFrees (s : State) (d : Nat) (f : Die → Die) : (s.modDie d f).slotFrees = s.slotFrees := rfl
@[simp] theorem State.modDie_tokenQ (s : State) (d : Nat) (f : Die → Die) : (s.modDie d f).tokenQ = s.tokenQ := rfl
@[simp] theorem State.modDie_rebuilds (s : State) (d : Nat) (f : Die → Die) : (s.modDie d f).rebuilds = s.rebuilds := rfl
@[simp] theorem State.modDie_parityHold (s : State) (d : Nat) (f : Die → Die) : (s.modDie d f).parityHold = s.parityHold := rfl
@[simp] theorem State.modDie_foldHeld (s : State) (d : Nat) (f : Die → Die) : (s.modDie d f).foldHeld = s.foldHeld := rfl
@[simp] theorem State.modDie_mirrors (s : State) (d : Nat) (f : Die → Die) : (s.modDie d f).mirrors = s.mirrors := rfl
@[simp] theorem State.setWg_cycle (s : State) (h : Nat) (w : Workgroup) : (s.setWg h w).cycle = s.cycle := rfl
@[simp] theorem State.setWg_sched (s : State) (h : Nat) (w : Workgroup) : (s.setWg h w).sched = s.sched := rfl
@[simp] theorem State.setWg_cur (s : State) (h : Nat) (w : Workgroup) : (s.setWg h w).cur = s.cur := rfl
@[simp] theorem State.setWg_fresh (s : State) (h : Nat) (w : Workgroup) : (s.setWg h w).fresh = s.fresh := rfl
@[simp] theorem State.setWg_mem (s : State) (h : Nat) (w : Workgroup) : (s.setWg h w).mem = s.mem := rfl
@[simp] theorem State.setWg_l2 (s : State) (h : Nat) (w : Workgroup) : (s.setWg h w).l2 = s.l2 := rfl
@[simp] theorem State.setWg_dir (s : State) (h : Nat) (w : Workgroup) : (s.setWg h w).dir = s.dir := rfl
@[simp] theorem State.setWg_homes (s : State) (h : Nat) (w : Workgroup) : (s.setWg h w).homes = s.homes := rfl
@[simp] theorem State.setWg_msgs (s : State) (h : Nat) (w : Workgroup) : (s.setWg h w).msgs = s.msgs := rfl
@[simp] theorem State.setWg_arrivals (s : State) (h : Nat) (w : Workgroup) : (s.setWg h w).arrivals = s.arrivals := rfl
@[simp] theorem State.setWg_highWater (s : State) (h : Nat) (w : Workgroup) : (s.setWg h w).highWater = s.highWater := rfl
@[simp] theorem State.setWg_lostLines (s : State) (h : Nat) (w : Workgroup) : (s.setWg h w).lostLines = s.lostLines := rfl
@[simp] theorem State.setWg_cores (s : State) (h : Nat) (w : Workgroup) : (s.setWg h w).cores = s.cores := rfl
@[simp] theorem State.setWg_quads (s : State) (h : Nat) (w : Workgroup) : (s.setWg h w).quads = s.quads := rfl
@[simp] theorem State.setWg_dies (s : State) (h : Nat) (w : Workgroup) : (s.setWg h w).dies = s.dies := rfl
@[simp] theorem State.setWg_pn (s : State) (h : Nat) (w : Workgroup) : (s.setWg h w).pn = s.pn := rfl
@[simp] theorem State.setWg_nextPn (s : State) (h : Nat) (w : Workgroup) : (s.setWg h w).nextPn = s.nextPn := rfl
@[simp] theorem State.setWg_pnquota (s : State) (h : Nat) (w : Workgroup) : (s.setWg h w).pnquota = s.pnquota := rfl
@[simp] theorem State.setWg_wgs (s : State) (h : Nat) (w : Workgroup) : (s.setWg h w).wgs = put s.wgs h w := rfl
@[simp] theorem State.setWg_bars (s : State) (h : Nat) (w : Workgroup) : (s.setWg h w).bars = s.bars := rfl
@[simp] theorem State.setWg_queues (s : State) (h : Nat) (w : Workgroup) : (s.setWg h w).queues = s.queues := rfl
@[simp] theorem State.setWg_launches (s : State) (h : Nat) (w : Workgroup) : (s.setWg h w).launches = s.launches := rfl
@[simp] theorem State.setWg_nextHandle (s : State) (h : Nat) (w : Workgroup) : (s.setWg h w).nextHandle = s.nextHandle := rfl
@[simp] theorem State.setWg_lastDie (s : State) (h : Nat) (w : Workgroup) : (s.setWg h w).lastDie = s.lastDie := rfl
@[simp] theorem State.setWg_dstat (s : State) (h : Nat) (w : Workgroup) : (s.setWg h w).dstat = s.dstat := rfl
@[simp] theorem State.setWg_dstatLost (s : State) (h : Nat) (w : Workgroup) : (s.setWg h w).dstatLost = s.dstatLost := rfl
@[simp] theorem State.setWg_rights (s : State) (h : Nat) (w : Workgroup) : (s.setWg h w).rights = s.rights := rfl
@[simp] theorem State.setWg_dbgQ (s : State) (h : Nat) (w : Workgroup) : (s.setWg h w).dbgQ = s.dbgQ := rfl
@[simp] theorem State.setWg_halting (s : State) (h : Nat) (w : Workgroup) : (s.setWg h w).halting = s.halting := rfl
@[simp] theorem State.setWg_dbgstat (s : State) (h : Nat) (w : Workgroup) : (s.setWg h w).dbgstat = s.dbgstat := rfl
@[simp] theorem State.setWg_revoked (s : State) (h : Nat) (w : Workgroup) : (s.setWg h w).revoked = s.revoked := rfl
@[simp] theorem State.setWg_ctxbase (s : State) (h : Nat) (w : Workgroup) : (s.setWg h w).ctxbase = s.ctxbase := rfl
@[simp] theorem State.setWg_reg (s : State) (h : Nat) (w : Workgroup) : (s.setWg h w).reg = s.reg := rfl
@[simp] theorem State.setWg_flash (s : State) (h : Nat) (w : Workgroup) : (s.setWg h w).flash = s.flash := rfl
@[simp] theorem State.setWg_mail (s : State) (h : Nat) (w : Workgroup) : (s.setWg h w).mail = s.mail := rfl
@[simp] theorem State.setWg_zports (s : State) (h : Nat) (w : Workgroup) : (s.setWg h w).zports = s.zports := rfl
@[simp] theorem State.setWg_peers (s : State) (h : Nat) (w : Workgroup) : (s.setWg h w).peers = s.peers := rfl
@[simp] theorem State.setWg_out (s : State) (h : Nat) (w : Workgroup) : (s.setWg h w).out = s.out := rfl
@[simp] theorem State.setWg_slotFrees (s : State) (h : Nat) (w : Workgroup) : (s.setWg h w).slotFrees = s.slotFrees := rfl
@[simp] theorem State.setWg_tokenQ (s : State) (h : Nat) (w : Workgroup) : (s.setWg h w).tokenQ = s.tokenQ := rfl
@[simp] theorem State.setWg_rebuilds (s : State) (h : Nat) (w : Workgroup) : (s.setWg h w).rebuilds = s.rebuilds := rfl
@[simp] theorem State.setWg_parityHold (s : State) (h : Nat) (w : Workgroup) : (s.setWg h w).parityHold = s.parityHold := rfl
@[simp] theorem State.setWg_foldHeld (s : State) (h : Nat) (w : Workgroup) : (s.setWg h w).foldHeld = s.foldHeld := rfl
@[simp] theorem State.setWg_mirrors (s : State) (h : Nat) (w : Workgroup) : (s.setWg h w).mirrors = s.mirrors := rfl

/-! ### A workgroup -/

@[simp] theorem Workgroup.setGroup_handle (w : Workgroup) (g : Nat) (x : Group) : (w.setGroup g x).handle = w.handle := rfl
@[simp] theorem Workgroup.setGroup_raw (w : Workgroup) (g : Nat) (x : Group) : (w.setGroup g x).raw = w.raw := rfl
@[simp] theorem Workgroup.setGroup_launcher (w : Workgroup) (g : Nat) (x : Group) : (w.setGroup g x).launcher = w.launcher := rfl
@[simp] theorem Workgroup.setGroup_tenancy (w : Workgroup) (g : Nat) (x : Group) : (w.setGroup g x).tenancy = w.tenancy := rfl
@[simp] theorem Workgroup.setGroup_shadow (w : Workgroup) (g : Nat) (x : Group) : (w.setGroup g x).shadow = w.shadow := rfl
@[simp] theorem Workgroup.setGroup_cores (w : Workgroup) (g : Nat) (x : Group) : (w.setGroup g x).cores = w.cores := rfl
@[simp] theorem Workgroup.setGroup_groups (w : Workgroup) (g : Nat) (x : Group) : (w.setGroup g x).groups = put w.groups g x := rfl
@[simp] theorem Workgroup.setGroup_kill (w : Workgroup) (g : Nat) (x : Group) : (w.setGroup g x).kill = w.kill := rfl
@[simp] theorem Workgroup.setGroup_evict (w : Workgroup) (g : Nat) (x : Group) : (w.setGroup g x).evict = w.evict := rfl
@[simp] theorem Workgroup.setGroup_claims (w : Workgroup) (g : Nat) (x : Group) : (w.setGroup g x).claims = w.claims := rfl
@[simp] theorem Workgroup.setGroup_phases (w : Workgroup) (g : Nat) (x : Group) : (w.setGroup g x).phases = w.phases := rfl

/-! ### A group -/

@[simp] theorem Group.setPath_gid (gr : Group) (p : Nat) (x : Path) : (gr.setPath p x).gid = gr.gid := rfl
@[simp] theorem Group.setPath_slot (gr : Group) (p : Nat) (x : Path) : (gr.setPath p x).slot = gr.slot := rfl
@[simp] theorem Group.setPath_core (gr : Group) (p : Nat) (x : Path) : (gr.setPath p x).core = gr.core := rfl
@[simp] theorem Group.setPath_quarter (gr : Group) (p : Nat) (x : Path) : (gr.setPath p x).quarter = gr.quarter := rfl
@[simp] theorem Group.setPath_started (gr : Group) (p : Nat) (x : Path) : (gr.setPath p x).started = gr.started := rfl
@[simp] theorem Group.setPath_ended (gr : Group) (p : Nat) (x : Path) : (gr.setPath p x).ended = gr.ended := rfl
@[simp] theorem Group.setPath_halted (gr : Group) (p : Nat) (x : Path) : (gr.setPath p x).halted = gr.halted := rfl
@[simp] theorem Group.setPath_role (gr : Group) (p : Nat) (x : Path) : (gr.setPath p x).role = gr.role := rfl
@[simp] theorem Group.setPath_launch (gr : Group) (p : Nat) (x : Path) : (gr.setPath p x).launch = gr.launch := rfl
@[simp] theorem Group.setPath_paths (gr : Group) (p : Nat) (x : Path) : (gr.setPath p x).paths = modAt (fun _ => x) gr.paths p := rfl
@[simp] theorem Group.setPath_v (gr : Group) (p : Nat) (x : Path) : (gr.setPath p x).v = gr.v := rfl
@[simp] theorem Group.setPath_s (gr : Group) (p : Nat) (x : Path) : (gr.setPath p x).s = gr.s := rfl
@[simp] theorem Group.setPath_preds (gr : Group) (p : Nat) (x : Path) : (gr.setPath p x).preds = gr.preds := rfl
@[simp] theorem Group.setPath_m (gr : Group) (p : Nat) (x : Path) : (gr.setPath p x).m = gr.m := rfl
@[simp] theorem Group.setPath_a (gr : Group) (p : Nat) (x : Path) : (gr.setPath p x).a = gr.a := rfl
@[simp] theorem Group.setPath_sb (gr : Group) (p : Nat) (x : Path) : (gr.setPath p x).sb = gr.sb := rfl
@[simp] theorem Group.setPath_ops (gr : Group) (p : Nat) (x : Path) : (gr.setPath p x).ops = gr.ops := rfl
@[simp] theorem Group.setPath_nextSeq (gr : Group) (p : Nat) (x : Path) : (gr.setPath p x).nextSeq = gr.nextSeq := rfl
@[simp] theorem Group.setPath_ctrs (gr : Group) (p : Nat) (x : Path) : (gr.setPath p x).ctrs = gr.ctrs := rfl
@[simp] theorem Group.setPath_horizon (gr : Group) (p : Nat) (x : Path) : (gr.setPath p x).horizon = gr.horizon := rfl
@[simp] theorem Group.setPath_ap (gr : Group) (p : Nat) (x : Path) : (gr.setPath p x).ap = gr.ap := rfl
@[simp] theorem Group.setPath_ports (gr : Group) (p : Nat) (x : Path) : (gr.setPath p x).ports = gr.ports := rfl
@[simp] theorem Group.setPath_sr (gr : Group) (p : Nat) (x : Path) : (gr.setPath p x).sr = gr.sr := rfl
@[simp] theorem Group.setPath_vhold (gr : Group) (p : Nat) (x : Path) : (gr.setPath p x).vhold = gr.vhold := rfl
@[simp] theorem Group.setPath_mhold (gr : Group) (p : Nat) (x : Path) : (gr.setPath p x).mhold = gr.mhold := rfl
@[simp] theorem Group.setPath_given (gr : Group) (p : Nat) (x : Path) : (gr.setPath p x).given = gr.given := rfl
@[simp] theorem Group.setPath_joined (gr : Group) (p : Nat) (x : Path) : (gr.setPath p x).joined = gr.joined := rfl
@[simp] theorem Group.setPath_grantedWhileHalted (gr : Group) (p : Nat) (x : Path) : (gr.setPath p x).grantedWhileHalted = gr.grantedWhileHalted := rfl
@[simp] theorem Group.setPath_pend (gr : Group) (p : Nat) (x : Path) : (gr.setPath p x).pend = gr.pend := rfl
@[simp] theorem Group.modPath_gid (gr : Group) (p : Nat) (f : Path → Path) : (gr.modPath p f).gid = gr.gid := rfl
@[simp] theorem Group.modPath_slot (gr : Group) (p : Nat) (f : Path → Path) : (gr.modPath p f).slot = gr.slot := rfl
@[simp] theorem Group.modPath_core (gr : Group) (p : Nat) (f : Path → Path) : (gr.modPath p f).core = gr.core := rfl
@[simp] theorem Group.modPath_quarter (gr : Group) (p : Nat) (f : Path → Path) : (gr.modPath p f).quarter = gr.quarter := rfl
@[simp] theorem Group.modPath_started (gr : Group) (p : Nat) (f : Path → Path) : (gr.modPath p f).started = gr.started := rfl
@[simp] theorem Group.modPath_ended (gr : Group) (p : Nat) (f : Path → Path) : (gr.modPath p f).ended = gr.ended := rfl
@[simp] theorem Group.modPath_halted (gr : Group) (p : Nat) (f : Path → Path) : (gr.modPath p f).halted = gr.halted := rfl
@[simp] theorem Group.modPath_role (gr : Group) (p : Nat) (f : Path → Path) : (gr.modPath p f).role = gr.role := rfl
@[simp] theorem Group.modPath_launch (gr : Group) (p : Nat) (f : Path → Path) : (gr.modPath p f).launch = gr.launch := rfl
@[simp] theorem Group.modPath_paths (gr : Group) (p : Nat) (f : Path → Path) : (gr.modPath p f).paths = modAt f gr.paths p := rfl
@[simp] theorem Group.modPath_v (gr : Group) (p : Nat) (f : Path → Path) : (gr.modPath p f).v = gr.v := rfl
@[simp] theorem Group.modPath_s (gr : Group) (p : Nat) (f : Path → Path) : (gr.modPath p f).s = gr.s := rfl
@[simp] theorem Group.modPath_preds (gr : Group) (p : Nat) (f : Path → Path) : (gr.modPath p f).preds = gr.preds := rfl
@[simp] theorem Group.modPath_m (gr : Group) (p : Nat) (f : Path → Path) : (gr.modPath p f).m = gr.m := rfl
@[simp] theorem Group.modPath_a (gr : Group) (p : Nat) (f : Path → Path) : (gr.modPath p f).a = gr.a := rfl
@[simp] theorem Group.modPath_sb (gr : Group) (p : Nat) (f : Path → Path) : (gr.modPath p f).sb = gr.sb := rfl
@[simp] theorem Group.modPath_ops (gr : Group) (p : Nat) (f : Path → Path) : (gr.modPath p f).ops = gr.ops := rfl
@[simp] theorem Group.modPath_nextSeq (gr : Group) (p : Nat) (f : Path → Path) : (gr.modPath p f).nextSeq = gr.nextSeq := rfl
@[simp] theorem Group.modPath_ctrs (gr : Group) (p : Nat) (f : Path → Path) : (gr.modPath p f).ctrs = gr.ctrs := rfl
@[simp] theorem Group.modPath_horizon (gr : Group) (p : Nat) (f : Path → Path) : (gr.modPath p f).horizon = gr.horizon := rfl
@[simp] theorem Group.modPath_ap (gr : Group) (p : Nat) (f : Path → Path) : (gr.modPath p f).ap = gr.ap := rfl
@[simp] theorem Group.modPath_ports (gr : Group) (p : Nat) (f : Path → Path) : (gr.modPath p f).ports = gr.ports := rfl
@[simp] theorem Group.modPath_sr (gr : Group) (p : Nat) (f : Path → Path) : (gr.modPath p f).sr = gr.sr := rfl
@[simp] theorem Group.modPath_vhold (gr : Group) (p : Nat) (f : Path → Path) : (gr.modPath p f).vhold = gr.vhold := rfl
@[simp] theorem Group.modPath_mhold (gr : Group) (p : Nat) (f : Path → Path) : (gr.modPath p f).mhold = gr.mhold := rfl
@[simp] theorem Group.modPath_given (gr : Group) (p : Nat) (f : Path → Path) : (gr.modPath p f).given = gr.given := rfl
@[simp] theorem Group.modPath_joined (gr : Group) (p : Nat) (f : Path → Path) : (gr.modPath p f).joined = gr.joined := rfl
@[simp] theorem Group.modPath_grantedWhileHalted (gr : Group) (p : Nat) (f : Path → Path) : (gr.modPath p f).grantedWhileHalted = gr.grantedWhileHalted := rfl
@[simp] theorem Group.modPath_pend (gr : Group) (p : Nat) (f : Path → Path) : (gr.modPath p f).pend = gr.pend := rfl
@[simp] theorem Group.markFull_gid (gr : Group) (rs : List Reg) : (gr.markFull rs).gid = gr.gid := rfl
@[simp] theorem Group.markFull_slot (gr : Group) (rs : List Reg) : (gr.markFull rs).slot = gr.slot := rfl
@[simp] theorem Group.markFull_core (gr : Group) (rs : List Reg) : (gr.markFull rs).core = gr.core := rfl
@[simp] theorem Group.markFull_quarter (gr : Group) (rs : List Reg) : (gr.markFull rs).quarter = gr.quarter := rfl
@[simp] theorem Group.markFull_started (gr : Group) (rs : List Reg) : (gr.markFull rs).started = gr.started := rfl
@[simp] theorem Group.markFull_ended (gr : Group) (rs : List Reg) : (gr.markFull rs).ended = gr.ended := rfl
@[simp] theorem Group.markFull_halted (gr : Group) (rs : List Reg) : (gr.markFull rs).halted = gr.halted := rfl
@[simp] theorem Group.markFull_role (gr : Group) (rs : List Reg) : (gr.markFull rs).role = gr.role := rfl
@[simp] theorem Group.markFull_launch (gr : Group) (rs : List Reg) : (gr.markFull rs).launch = gr.launch := rfl
@[simp] theorem Group.markFull_paths (gr : Group) (rs : List Reg) : (gr.markFull rs).paths = gr.paths := rfl
@[simp] theorem Group.markFull_v (gr : Group) (rs : List Reg) : (gr.markFull rs).v = gr.v := rfl
@[simp] theorem Group.markFull_s (gr : Group) (rs : List Reg) : (gr.markFull rs).s = gr.s := rfl
@[simp] theorem Group.markFull_preds (gr : Group) (rs : List Reg) : (gr.markFull rs).preds = gr.preds := rfl
@[simp] theorem Group.markFull_m (gr : Group) (rs : List Reg) : (gr.markFull rs).m = gr.m := rfl
@[simp] theorem Group.markFull_a (gr : Group) (rs : List Reg) : (gr.markFull rs).a = gr.a := rfl
@[simp] theorem Group.markFull_sb (gr : Group) (rs : List Reg) : (gr.markFull rs).sb = gr.sb.filter (fun e => !rs.contains e.reg) := rfl
@[simp] theorem Group.markFull_ops (gr : Group) (rs : List Reg) : (gr.markFull rs).ops = gr.ops := rfl
@[simp] theorem Group.markFull_nextSeq (gr : Group) (rs : List Reg) : (gr.markFull rs).nextSeq = gr.nextSeq := rfl
@[simp] theorem Group.markFull_ctrs (gr : Group) (rs : List Reg) : (gr.markFull rs).ctrs = gr.ctrs := rfl
@[simp] theorem Group.markFull_horizon (gr : Group) (rs : List Reg) : (gr.markFull rs).horizon = gr.horizon := rfl
@[simp] theorem Group.markFull_ap (gr : Group) (rs : List Reg) : (gr.markFull rs).ap = gr.ap := rfl
@[simp] theorem Group.markFull_ports (gr : Group) (rs : List Reg) : (gr.markFull rs).ports = gr.ports := rfl
@[simp] theorem Group.markFull_sr (gr : Group) (rs : List Reg) : (gr.markFull rs).sr = gr.sr := rfl
@[simp] theorem Group.markFull_vhold (gr : Group) (rs : List Reg) : (gr.markFull rs).vhold = gr.vhold := rfl
@[simp] theorem Group.markFull_mhold (gr : Group) (rs : List Reg) : (gr.markFull rs).mhold = gr.mhold := rfl
@[simp] theorem Group.markFull_given (gr : Group) (rs : List Reg) : (gr.markFull rs).given = gr.given := rfl
@[simp] theorem Group.markFull_joined (gr : Group) (rs : List Reg) : (gr.markFull rs).joined = gr.joined := rfl
@[simp] theorem Group.markFull_grantedWhileHalted (gr : Group) (rs : List Reg) : (gr.markFull rs).grantedWhileHalted = gr.grantedWhileHalted := rfl
@[simp] theorem Group.markFull_pend (gr : Group) (rs : List Reg) : (gr.markFull rs).pend = gr.pend := rfl
@[simp] theorem Group.markEmpty_gid (gr : Group) (rs : List Reg) (seq pc : Nat) : (gr.markEmpty rs seq pc).gid = gr.gid := rfl
@[simp] theorem Group.markEmpty_slot (gr : Group) (rs : List Reg) (seq pc : Nat) : (gr.markEmpty rs seq pc).slot = gr.slot := rfl
@[simp] theorem Group.markEmpty_core (gr : Group) (rs : List Reg) (seq pc : Nat) : (gr.markEmpty rs seq pc).core = gr.core := rfl
@[simp] theorem Group.markEmpty_quarter (gr : Group) (rs : List Reg) (seq pc : Nat) : (gr.markEmpty rs seq pc).quarter = gr.quarter := rfl
@[simp] theorem Group.markEmpty_started (gr : Group) (rs : List Reg) (seq pc : Nat) : (gr.markEmpty rs seq pc).started = gr.started := rfl
@[simp] theorem Group.markEmpty_ended (gr : Group) (rs : List Reg) (seq pc : Nat) : (gr.markEmpty rs seq pc).ended = gr.ended := rfl
@[simp] theorem Group.markEmpty_halted (gr : Group) (rs : List Reg) (seq pc : Nat) : (gr.markEmpty rs seq pc).halted = gr.halted := rfl
@[simp] theorem Group.markEmpty_role (gr : Group) (rs : List Reg) (seq pc : Nat) : (gr.markEmpty rs seq pc).role = gr.role := rfl
@[simp] theorem Group.markEmpty_launch (gr : Group) (rs : List Reg) (seq pc : Nat) : (gr.markEmpty rs seq pc).launch = gr.launch := rfl
@[simp] theorem Group.markEmpty_paths (gr : Group) (rs : List Reg) (seq pc : Nat) : (gr.markEmpty rs seq pc).paths = gr.paths := rfl
@[simp] theorem Group.markEmpty_v (gr : Group) (rs : List Reg) (seq pc : Nat) : (gr.markEmpty rs seq pc).v = gr.v := rfl
@[simp] theorem Group.markEmpty_s (gr : Group) (rs : List Reg) (seq pc : Nat) : (gr.markEmpty rs seq pc).s = gr.s := rfl
@[simp] theorem Group.markEmpty_preds (gr : Group) (rs : List Reg) (seq pc : Nat) : (gr.markEmpty rs seq pc).preds = gr.preds := rfl
@[simp] theorem Group.markEmpty_m (gr : Group) (rs : List Reg) (seq pc : Nat) : (gr.markEmpty rs seq pc).m = gr.m := rfl
@[simp] theorem Group.markEmpty_a (gr : Group) (rs : List Reg) (seq pc : Nat) : (gr.markEmpty rs seq pc).a = gr.a := rfl
@[simp] theorem Group.markEmpty_sb (gr : Group) (rs : List Reg) (seq pc : Nat) : (gr.markEmpty rs seq pc).sb = rs.map (fun r => { reg := r, seq := seq, pc := pc, least := gr.leastFor r seq }) ++ gr.sb.filter (fun e => !rs.contains e.reg) := rfl
@[simp] theorem Group.markEmpty_ops (gr : Group) (rs : List Reg) (seq pc : Nat) : (gr.markEmpty rs seq pc).ops = gr.ops := rfl
@[simp] theorem Group.markEmpty_nextSeq (gr : Group) (rs : List Reg) (seq pc : Nat) : (gr.markEmpty rs seq pc).nextSeq = gr.nextSeq := rfl
@[simp] theorem Group.markEmpty_ctrs (gr : Group) (rs : List Reg) (seq pc : Nat) : (gr.markEmpty rs seq pc).ctrs = gr.ctrs := rfl
@[simp] theorem Group.markEmpty_horizon (gr : Group) (rs : List Reg) (seq pc : Nat) : (gr.markEmpty rs seq pc).horizon = gr.horizon := rfl
@[simp] theorem Group.markEmpty_ap (gr : Group) (rs : List Reg) (seq pc : Nat) : (gr.markEmpty rs seq pc).ap = gr.ap := rfl
@[simp] theorem Group.markEmpty_ports (gr : Group) (rs : List Reg) (seq pc : Nat) : (gr.markEmpty rs seq pc).ports = gr.ports := rfl
@[simp] theorem Group.markEmpty_sr (gr : Group) (rs : List Reg) (seq pc : Nat) : (gr.markEmpty rs seq pc).sr = gr.sr := rfl
@[simp] theorem Group.markEmpty_vhold (gr : Group) (rs : List Reg) (seq pc : Nat) : (gr.markEmpty rs seq pc).vhold = gr.vhold := rfl
@[simp] theorem Group.markEmpty_mhold (gr : Group) (rs : List Reg) (seq pc : Nat) : (gr.markEmpty rs seq pc).mhold = gr.mhold := rfl
@[simp] theorem Group.markEmpty_given (gr : Group) (rs : List Reg) (seq pc : Nat) : (gr.markEmpty rs seq pc).given = gr.given := rfl
@[simp] theorem Group.markEmpty_joined (gr : Group) (rs : List Reg) (seq pc : Nat) : (gr.markEmpty rs seq pc).joined = gr.joined := rfl
@[simp] theorem Group.markEmpty_grantedWhileHalted (gr : Group) (rs : List Reg) (seq pc : Nat) : (gr.markEmpty rs seq pc).grantedWhileHalted = gr.grantedWhileHalted := rfl
@[simp] theorem Group.markEmpty_pend (gr : Group) (rs : List Reg) (seq pc : Nat) : (gr.markEmpty rs seq pc).pend = gr.pend := rfl
@[simp] theorem Group.raiseCtr_gid (gr : Group) (k : CtrClass) : (gr.raiseCtr k).gid = gr.gid := rfl
@[simp] theorem Group.raiseCtr_slot (gr : Group) (k : CtrClass) : (gr.raiseCtr k).slot = gr.slot := rfl
@[simp] theorem Group.raiseCtr_core (gr : Group) (k : CtrClass) : (gr.raiseCtr k).core = gr.core := rfl
@[simp] theorem Group.raiseCtr_quarter (gr : Group) (k : CtrClass) : (gr.raiseCtr k).quarter = gr.quarter := rfl
@[simp] theorem Group.raiseCtr_started (gr : Group) (k : CtrClass) : (gr.raiseCtr k).started = gr.started := rfl
@[simp] theorem Group.raiseCtr_ended (gr : Group) (k : CtrClass) : (gr.raiseCtr k).ended = gr.ended := rfl
@[simp] theorem Group.raiseCtr_halted (gr : Group) (k : CtrClass) : (gr.raiseCtr k).halted = gr.halted := rfl
@[simp] theorem Group.raiseCtr_role (gr : Group) (k : CtrClass) : (gr.raiseCtr k).role = gr.role := rfl
@[simp] theorem Group.raiseCtr_launch (gr : Group) (k : CtrClass) : (gr.raiseCtr k).launch = gr.launch := rfl
@[simp] theorem Group.raiseCtr_paths (gr : Group) (k : CtrClass) : (gr.raiseCtr k).paths = gr.paths := rfl
@[simp] theorem Group.raiseCtr_v (gr : Group) (k : CtrClass) : (gr.raiseCtr k).v = gr.v := rfl
@[simp] theorem Group.raiseCtr_s (gr : Group) (k : CtrClass) : (gr.raiseCtr k).s = gr.s := rfl
@[simp] theorem Group.raiseCtr_preds (gr : Group) (k : CtrClass) : (gr.raiseCtr k).preds = gr.preds := rfl
@[simp] theorem Group.raiseCtr_m (gr : Group) (k : CtrClass) : (gr.raiseCtr k).m = gr.m := rfl
@[simp] theorem Group.raiseCtr_a (gr : Group) (k : CtrClass) : (gr.raiseCtr k).a = gr.a := rfl
@[simp] theorem Group.raiseCtr_sb (gr : Group) (k : CtrClass) : (gr.raiseCtr k).sb = gr.sb := rfl
@[simp] theorem Group.raiseCtr_ops (gr : Group) (k : CtrClass) : (gr.raiseCtr k).ops = gr.ops := rfl
@[simp] theorem Group.raiseCtr_nextSeq (gr : Group) (k : CtrClass) : (gr.raiseCtr k).nextSeq = gr.nextSeq := rfl
@[simp] theorem Group.raiseCtr_ctrs (gr : Group) (k : CtrClass) : (gr.raiseCtr k).ctrs = modAt (· + 1) gr.ctrs k.num := rfl
@[simp] theorem Group.raiseCtr_horizon (gr : Group) (k : CtrClass) : (gr.raiseCtr k).horizon = gr.horizon := rfl
@[simp] theorem Group.raiseCtr_ap (gr : Group) (k : CtrClass) : (gr.raiseCtr k).ap = gr.ap := rfl
@[simp] theorem Group.raiseCtr_ports (gr : Group) (k : CtrClass) : (gr.raiseCtr k).ports = gr.ports := rfl
@[simp] theorem Group.raiseCtr_sr (gr : Group) (k : CtrClass) : (gr.raiseCtr k).sr = gr.sr := rfl
@[simp] theorem Group.raiseCtr_vhold (gr : Group) (k : CtrClass) : (gr.raiseCtr k).vhold = gr.vhold := rfl
@[simp] theorem Group.raiseCtr_mhold (gr : Group) (k : CtrClass) : (gr.raiseCtr k).mhold = gr.mhold := rfl
@[simp] theorem Group.raiseCtr_given (gr : Group) (k : CtrClass) : (gr.raiseCtr k).given = gr.given := rfl
@[simp] theorem Group.raiseCtr_joined (gr : Group) (k : CtrClass) : (gr.raiseCtr k).joined = gr.joined := rfl
@[simp] theorem Group.raiseCtr_grantedWhileHalted (gr : Group) (k : CtrClass) : (gr.raiseCtr k).grantedWhileHalted = gr.grantedWhileHalted := rfl
@[simp] theorem Group.raiseCtr_pend (gr : Group) (k : CtrClass) : (gr.raiseCtr k).pend = gr.pend := rfl
@[simp] theorem Group.lowerCtr_gid (gr : Group) (k : CtrClass) : (gr.lowerCtr k).gid = gr.gid := rfl
@[simp] theorem Group.lowerCtr_slot (gr : Group) (k : CtrClass) : (gr.lowerCtr k).slot = gr.slot := rfl
@[simp] theorem Group.lowerCtr_core (gr : Group) (k : CtrClass) : (gr.lowerCtr k).core = gr.core := rfl
@[simp] theorem Group.lowerCtr_quarter (gr : Group) (k : CtrClass) : (gr.lowerCtr k).quarter = gr.quarter := rfl
@[simp] theorem Group.lowerCtr_started (gr : Group) (k : CtrClass) : (gr.lowerCtr k).started = gr.started := rfl
@[simp] theorem Group.lowerCtr_ended (gr : Group) (k : CtrClass) : (gr.lowerCtr k).ended = gr.ended := rfl
@[simp] theorem Group.lowerCtr_halted (gr : Group) (k : CtrClass) : (gr.lowerCtr k).halted = gr.halted := rfl
@[simp] theorem Group.lowerCtr_role (gr : Group) (k : CtrClass) : (gr.lowerCtr k).role = gr.role := rfl
@[simp] theorem Group.lowerCtr_launch (gr : Group) (k : CtrClass) : (gr.lowerCtr k).launch = gr.launch := rfl
@[simp] theorem Group.lowerCtr_paths (gr : Group) (k : CtrClass) : (gr.lowerCtr k).paths = gr.paths := rfl
@[simp] theorem Group.lowerCtr_v (gr : Group) (k : CtrClass) : (gr.lowerCtr k).v = gr.v := rfl
@[simp] theorem Group.lowerCtr_s (gr : Group) (k : CtrClass) : (gr.lowerCtr k).s = gr.s := rfl
@[simp] theorem Group.lowerCtr_preds (gr : Group) (k : CtrClass) : (gr.lowerCtr k).preds = gr.preds := rfl
@[simp] theorem Group.lowerCtr_m (gr : Group) (k : CtrClass) : (gr.lowerCtr k).m = gr.m := rfl
@[simp] theorem Group.lowerCtr_a (gr : Group) (k : CtrClass) : (gr.lowerCtr k).a = gr.a := rfl
@[simp] theorem Group.lowerCtr_sb (gr : Group) (k : CtrClass) : (gr.lowerCtr k).sb = gr.sb := rfl
@[simp] theorem Group.lowerCtr_ops (gr : Group) (k : CtrClass) : (gr.lowerCtr k).ops = gr.ops := rfl
@[simp] theorem Group.lowerCtr_nextSeq (gr : Group) (k : CtrClass) : (gr.lowerCtr k).nextSeq = gr.nextSeq := rfl
@[simp] theorem Group.lowerCtr_ctrs (gr : Group) (k : CtrClass) : (gr.lowerCtr k).ctrs = modAt (· - 1) gr.ctrs k.num := rfl
@[simp] theorem Group.lowerCtr_horizon (gr : Group) (k : CtrClass) : (gr.lowerCtr k).horizon = gr.horizon := rfl
@[simp] theorem Group.lowerCtr_ap (gr : Group) (k : CtrClass) : (gr.lowerCtr k).ap = gr.ap := rfl
@[simp] theorem Group.lowerCtr_ports (gr : Group) (k : CtrClass) : (gr.lowerCtr k).ports = gr.ports := rfl
@[simp] theorem Group.lowerCtr_sr (gr : Group) (k : CtrClass) : (gr.lowerCtr k).sr = gr.sr := rfl
@[simp] theorem Group.lowerCtr_vhold (gr : Group) (k : CtrClass) : (gr.lowerCtr k).vhold = gr.vhold := rfl
@[simp] theorem Group.lowerCtr_mhold (gr : Group) (k : CtrClass) : (gr.lowerCtr k).mhold = gr.mhold := rfl
@[simp] theorem Group.lowerCtr_given (gr : Group) (k : CtrClass) : (gr.lowerCtr k).given = gr.given := rfl
@[simp] theorem Group.lowerCtr_joined (gr : Group) (k : CtrClass) : (gr.lowerCtr k).joined = gr.joined := rfl
@[simp] theorem Group.lowerCtr_grantedWhileHalted (gr : Group) (k : CtrClass) : (gr.lowerCtr k).grantedWhileHalted = gr.grantedWhileHalted := rfl
@[simp] theorem Group.lowerCtr_pend (gr : Group) (k : CtrClass) : (gr.lowerCtr k).pend = gr.pend := rfl
@[simp] theorem Group.modOp_gid (gr : Group) (seq : Nat) (f : Op → Op) : (gr.modOp seq f).gid = gr.gid := rfl
@[simp] theorem Group.modOp_slot (gr : Group) (seq : Nat) (f : Op → Op) : (gr.modOp seq f).slot = gr.slot := rfl
@[simp] theorem Group.modOp_core (gr : Group) (seq : Nat) (f : Op → Op) : (gr.modOp seq f).core = gr.core := rfl
@[simp] theorem Group.modOp_quarter (gr : Group) (seq : Nat) (f : Op → Op) : (gr.modOp seq f).quarter = gr.quarter := rfl
@[simp] theorem Group.modOp_started (gr : Group) (seq : Nat) (f : Op → Op) : (gr.modOp seq f).started = gr.started := rfl
@[simp] theorem Group.modOp_ended (gr : Group) (seq : Nat) (f : Op → Op) : (gr.modOp seq f).ended = gr.ended := rfl
@[simp] theorem Group.modOp_halted (gr : Group) (seq : Nat) (f : Op → Op) : (gr.modOp seq f).halted = gr.halted := rfl
@[simp] theorem Group.modOp_role (gr : Group) (seq : Nat) (f : Op → Op) : (gr.modOp seq f).role = gr.role := rfl
@[simp] theorem Group.modOp_launch (gr : Group) (seq : Nat) (f : Op → Op) : (gr.modOp seq f).launch = gr.launch := rfl
@[simp] theorem Group.modOp_paths (gr : Group) (seq : Nat) (f : Op → Op) : (gr.modOp seq f).paths = gr.paths := rfl
@[simp] theorem Group.modOp_v (gr : Group) (seq : Nat) (f : Op → Op) : (gr.modOp seq f).v = gr.v := rfl
@[simp] theorem Group.modOp_s (gr : Group) (seq : Nat) (f : Op → Op) : (gr.modOp seq f).s = gr.s := rfl
@[simp] theorem Group.modOp_preds (gr : Group) (seq : Nat) (f : Op → Op) : (gr.modOp seq f).preds = gr.preds := rfl
@[simp] theorem Group.modOp_m (gr : Group) (seq : Nat) (f : Op → Op) : (gr.modOp seq f).m = gr.m := rfl
@[simp] theorem Group.modOp_a (gr : Group) (seq : Nat) (f : Op → Op) : (gr.modOp seq f).a = gr.a := rfl
@[simp] theorem Group.modOp_sb (gr : Group) (seq : Nat) (f : Op → Op) : (gr.modOp seq f).sb = gr.sb := rfl
@[simp] theorem Group.modOp_ops (gr : Group) (seq : Nat) (f : Op → Op) : (gr.modOp seq f).ops = modWhere (·.seq == seq) f gr.ops := rfl
@[simp] theorem Group.modOp_nextSeq (gr : Group) (seq : Nat) (f : Op → Op) : (gr.modOp seq f).nextSeq = gr.nextSeq := rfl
@[simp] theorem Group.modOp_ctrs (gr : Group) (seq : Nat) (f : Op → Op) : (gr.modOp seq f).ctrs = gr.ctrs := rfl
@[simp] theorem Group.modOp_horizon (gr : Group) (seq : Nat) (f : Op → Op) : (gr.modOp seq f).horizon = gr.horizon := rfl
@[simp] theorem Group.modOp_ap (gr : Group) (seq : Nat) (f : Op → Op) : (gr.modOp seq f).ap = gr.ap := rfl
@[simp] theorem Group.modOp_ports (gr : Group) (seq : Nat) (f : Op → Op) : (gr.modOp seq f).ports = gr.ports := rfl
@[simp] theorem Group.modOp_sr (gr : Group) (seq : Nat) (f : Op → Op) : (gr.modOp seq f).sr = gr.sr := rfl
@[simp] theorem Group.modOp_vhold (gr : Group) (seq : Nat) (f : Op → Op) : (gr.modOp seq f).vhold = gr.vhold := rfl
@[simp] theorem Group.modOp_mhold (gr : Group) (seq : Nat) (f : Op → Op) : (gr.modOp seq f).mhold = gr.mhold := rfl
@[simp] theorem Group.modOp_given (gr : Group) (seq : Nat) (f : Op → Op) : (gr.modOp seq f).given = gr.given := rfl
@[simp] theorem Group.modOp_joined (gr : Group) (seq : Nat) (f : Op → Op) : (gr.modOp seq f).joined = gr.joined := rfl
@[simp] theorem Group.modOp_grantedWhileHalted (gr : Group) (seq : Nat) (f : Op → Op) : (gr.modOp seq f).grantedWhileHalted = gr.grantedWhileHalted := rfl
@[simp] theorem Group.modOp_pend (gr : Group) (seq : Nat) (f : Op → Op) : (gr.modOp seq f).pend = gr.pend := rfl
@[simp] theorem Group.dropOp_gid (gr : Group) (seq : Nat) : (gr.dropOp seq).gid = gr.gid := rfl
@[simp] theorem Group.dropOp_slot (gr : Group) (seq : Nat) : (gr.dropOp seq).slot = gr.slot := rfl
@[simp] theorem Group.dropOp_core (gr : Group) (seq : Nat) : (gr.dropOp seq).core = gr.core := rfl
@[simp] theorem Group.dropOp_quarter (gr : Group) (seq : Nat) : (gr.dropOp seq).quarter = gr.quarter := rfl
@[simp] theorem Group.dropOp_started (gr : Group) (seq : Nat) : (gr.dropOp seq).started = gr.started := rfl
@[simp] theorem Group.dropOp_ended (gr : Group) (seq : Nat) : (gr.dropOp seq).ended = gr.ended := rfl
@[simp] theorem Group.dropOp_halted (gr : Group) (seq : Nat) : (gr.dropOp seq).halted = gr.halted := rfl
@[simp] theorem Group.dropOp_role (gr : Group) (seq : Nat) : (gr.dropOp seq).role = gr.role := rfl
@[simp] theorem Group.dropOp_launch (gr : Group) (seq : Nat) : (gr.dropOp seq).launch = gr.launch := rfl
@[simp] theorem Group.dropOp_paths (gr : Group) (seq : Nat) : (gr.dropOp seq).paths = gr.paths := rfl
@[simp] theorem Group.dropOp_v (gr : Group) (seq : Nat) : (gr.dropOp seq).v = gr.v := rfl
@[simp] theorem Group.dropOp_s (gr : Group) (seq : Nat) : (gr.dropOp seq).s = gr.s := rfl
@[simp] theorem Group.dropOp_preds (gr : Group) (seq : Nat) : (gr.dropOp seq).preds = gr.preds := rfl
@[simp] theorem Group.dropOp_m (gr : Group) (seq : Nat) : (gr.dropOp seq).m = gr.m := rfl
@[simp] theorem Group.dropOp_a (gr : Group) (seq : Nat) : (gr.dropOp seq).a = gr.a := rfl
@[simp] theorem Group.dropOp_sb (gr : Group) (seq : Nat) : (gr.dropOp seq).sb = gr.sb := rfl
@[simp] theorem Group.dropOp_ops (gr : Group) (seq : Nat) : (gr.dropOp seq).ops = gr.ops.filter (·.seq != seq) := rfl
@[simp] theorem Group.dropOp_nextSeq (gr : Group) (seq : Nat) : (gr.dropOp seq).nextSeq = gr.nextSeq := rfl
@[simp] theorem Group.dropOp_ctrs (gr : Group) (seq : Nat) : (gr.dropOp seq).ctrs = gr.ctrs := rfl
@[simp] theorem Group.dropOp_horizon (gr : Group) (seq : Nat) : (gr.dropOp seq).horizon = gr.horizon := rfl
@[simp] theorem Group.dropOp_ap (gr : Group) (seq : Nat) : (gr.dropOp seq).ap = gr.ap := rfl
@[simp] theorem Group.dropOp_ports (gr : Group) (seq : Nat) : (gr.dropOp seq).ports = gr.ports := rfl
@[simp] theorem Group.dropOp_sr (gr : Group) (seq : Nat) : (gr.dropOp seq).sr = gr.sr := rfl
@[simp] theorem Group.dropOp_vhold (gr : Group) (seq : Nat) : (gr.dropOp seq).vhold = gr.vhold := rfl
@[simp] theorem Group.dropOp_mhold (gr : Group) (seq : Nat) : (gr.dropOp seq).mhold = gr.mhold := rfl
@[simp] theorem Group.dropOp_given (gr : Group) (seq : Nat) : (gr.dropOp seq).given = gr.given := rfl
@[simp] theorem Group.dropOp_joined (gr : Group) (seq : Nat) : (gr.dropOp seq).joined = gr.joined := rfl
@[simp] theorem Group.dropOp_grantedWhileHalted (gr : Group) (seq : Nat) : (gr.dropOp seq).grantedWhileHalted = gr.grantedWhileHalted := rfl
@[simp] theorem Group.dropOp_pend (gr : Group) (seq : Nat) : (gr.dropOp seq).pend = gr.pend := rfl
@[simp] theorem Group.fork_gid (gr : Group) (p j : Nat) : (gr.fork p j).gid = gr.gid := rfl
@[simp] theorem Group.fork_slot (gr : Group) (p j : Nat) : (gr.fork p j).slot = gr.slot := rfl
@[simp] theorem Group.fork_core (gr : Group) (p j : Nat) : (gr.fork p j).core = gr.core := rfl
@[simp] theorem Group.fork_quarter (gr : Group) (p j : Nat) : (gr.fork p j).quarter = gr.quarter := rfl
@[simp] theorem Group.fork_started (gr : Group) (p j : Nat) : (gr.fork p j).started = gr.started := rfl
@[simp] theorem Group.fork_ended (gr : Group) (p j : Nat) : (gr.fork p j).ended = gr.ended := rfl
@[simp] theorem Group.fork_halted (gr : Group) (p j : Nat) : (gr.fork p j).halted = gr.halted := rfl
@[simp] theorem Group.fork_role (gr : Group) (p j : Nat) : (gr.fork p j).role = gr.role := rfl
@[simp] theorem Group.fork_launch (gr : Group) (p j : Nat) : (gr.fork p j).launch = gr.launch := rfl
@[simp] theorem Group.fork_paths (gr : Group) (p j : Nat) : (gr.fork p j).paths = gr.paths := rfl
@[simp] theorem Group.fork_v (gr : Group) (p j : Nat) : (gr.fork p j).v = gr.v := rfl
@[simp] theorem Group.fork_s (gr : Group) (p j : Nat) : (gr.fork p j).s = gr.s := rfl
@[simp] theorem Group.fork_preds (gr : Group) (p j : Nat) : (gr.fork p j).preds = gr.preds := rfl
@[simp] theorem Group.fork_m (gr : Group) (p j : Nat) : (gr.fork p j).m = gr.m := rfl
@[simp] theorem Group.fork_a (gr : Group) (p j : Nat) : (gr.fork p j).a = gr.a := rfl
@[simp] theorem Group.fork_sb (gr : Group) (p j : Nat) : (gr.fork p j).sb = gr.sb := rfl
@[simp] theorem Group.fork_ops (gr : Group) (p j : Nat) : (gr.fork p j).ops = gr.ops.map fun o => { o with paths := if o.paths.contains p then j :: o.paths.erase j else o.paths.erase j } := rfl
@[simp] theorem Group.fork_nextSeq (gr : Group) (p j : Nat) : (gr.fork p j).nextSeq = gr.nextSeq := rfl
@[simp] theorem Group.fork_ctrs (gr : Group) (p j : Nat) : (gr.fork p j).ctrs = gr.ctrs := rfl
@[simp] theorem Group.fork_horizon (gr : Group) (p j : Nat) : (gr.fork p j).horizon = gr.horizon := rfl
@[simp] theorem Group.fork_ap (gr : Group) (p j : Nat) : (gr.fork p j).ap = gr.ap := rfl
@[simp] theorem Group.fork_ports (gr : Group) (p j : Nat) : (gr.fork p j).ports = gr.ports := rfl
@[simp] theorem Group.fork_sr (gr : Group) (p j : Nat) : (gr.fork p j).sr = gr.sr := rfl
@[simp] theorem Group.fork_vhold (gr : Group) (p j : Nat) : (gr.fork p j).vhold = gr.vhold := rfl
@[simp] theorem Group.fork_mhold (gr : Group) (p j : Nat) : (gr.fork p j).mhold = gr.mhold := rfl
@[simp] theorem Group.fork_given (gr : Group) (p j : Nat) : (gr.fork p j).given = gr.given := rfl
@[simp] theorem Group.fork_joined (gr : Group) (p j : Nat) : (gr.fork p j).joined = gr.joined := rfl
@[simp] theorem Group.fork_grantedWhileHalted (gr : Group) (p j : Nat) : (gr.fork p j).grantedWhileHalted = gr.grantedWhileHalted := rfl
@[simp] theorem Group.fork_pend (gr : Group) (p j : Nat) : (gr.fork p j).pend = gr.pend := rfl
@[simp] theorem Group.join_gid (gr : Group) (p j : Nat) : (gr.join p j).gid = gr.gid := rfl
@[simp] theorem Group.join_slot (gr : Group) (p j : Nat) : (gr.join p j).slot = gr.slot := rfl
@[simp] theorem Group.join_core (gr : Group) (p j : Nat) : (gr.join p j).core = gr.core := rfl
@[simp] theorem Group.join_quarter (gr : Group) (p j : Nat) : (gr.join p j).quarter = gr.quarter := rfl
@[simp] theorem Group.join_started (gr : Group) (p j : Nat) : (gr.join p j).started = gr.started := rfl
@[simp] theorem Group.join_ended (gr : Group) (p j : Nat) : (gr.join p j).ended = gr.ended := rfl
@[simp] theorem Group.join_halted (gr : Group) (p j : Nat) : (gr.join p j).halted = gr.halted := rfl
@[simp] theorem Group.join_role (gr : Group) (p j : Nat) : (gr.join p j).role = gr.role := rfl
@[simp] theorem Group.join_launch (gr : Group) (p j : Nat) : (gr.join p j).launch = gr.launch := rfl
@[simp] theorem Group.join_paths (gr : Group) (p j : Nat) : (gr.join p j).paths = gr.paths := rfl
@[simp] theorem Group.join_v (gr : Group) (p j : Nat) : (gr.join p j).v = gr.v := rfl
@[simp] theorem Group.join_s (gr : Group) (p j : Nat) : (gr.join p j).s = gr.s := rfl
@[simp] theorem Group.join_preds (gr : Group) (p j : Nat) : (gr.join p j).preds = gr.preds := rfl
@[simp] theorem Group.join_m (gr : Group) (p j : Nat) : (gr.join p j).m = gr.m := rfl
@[simp] theorem Group.join_a (gr : Group) (p j : Nat) : (gr.join p j).a = gr.a := rfl
@[simp] theorem Group.join_sb (gr : Group) (p j : Nat) : (gr.join p j).sb = gr.sb := rfl
@[simp] theorem Group.join_ops (gr : Group) (p j : Nat) : (gr.join p j).ops = gr.ops.map fun o => { o with paths := if o.paths.contains j && !o.paths.contains p then p :: o.paths else o.paths } := rfl
@[simp] theorem Group.join_nextSeq (gr : Group) (p j : Nat) : (gr.join p j).nextSeq = gr.nextSeq := rfl
@[simp] theorem Group.join_ctrs (gr : Group) (p j : Nat) : (gr.join p j).ctrs = gr.ctrs := rfl
@[simp] theorem Group.join_horizon (gr : Group) (p j : Nat) : (gr.join p j).horizon = gr.horizon := rfl
@[simp] theorem Group.join_ap (gr : Group) (p j : Nat) : (gr.join p j).ap = gr.ap := rfl
@[simp] theorem Group.join_ports (gr : Group) (p j : Nat) : (gr.join p j).ports = gr.ports := rfl
@[simp] theorem Group.join_sr (gr : Group) (p j : Nat) : (gr.join p j).sr = gr.sr := rfl
@[simp] theorem Group.join_vhold (gr : Group) (p j : Nat) : (gr.join p j).vhold = gr.vhold := rfl
@[simp] theorem Group.join_mhold (gr : Group) (p j : Nat) : (gr.join p j).mhold = gr.mhold := rfl
@[simp] theorem Group.join_given (gr : Group) (p j : Nat) : (gr.join p j).given = gr.given := rfl
@[simp] theorem Group.join_joined (gr : Group) (p j : Nat) : (gr.join p j).joined = gr.joined := rfl
@[simp] theorem Group.join_grantedWhileHalted (gr : Group) (p j : Nat) : (gr.join p j).grantedWhileHalted = gr.grantedWhileHalted := rfl
@[simp] theorem Group.join_pend (gr : Group) (p j : Nat) : (gr.join p j).pend = gr.pend := rfl
@[simp] theorem Group.modPort_gid (gr : Group) (j : Nat) (f : Port → Port) : (gr.modPort j f).gid = gr.gid := rfl
@[simp] theorem Group.modPort_slot (gr : Group) (j : Nat) (f : Port → Port) : (gr.modPort j f).slot = gr.slot := rfl
@[simp] theorem Group.modPort_core (gr : Group) (j : Nat) (f : Port → Port) : (gr.modPort j f).core = gr.core := rfl
@[simp] theorem Group.modPort_quarter (gr : Group) (j : Nat) (f : Port → Port) : (gr.modPort j f).quarter = gr.quarter := rfl
@[simp] theorem Group.modPort_started (gr : Group) (j : Nat) (f : Port → Port) : (gr.modPort j f).started = gr.started := rfl
@[simp] theorem Group.modPort_ended (gr : Group) (j : Nat) (f : Port → Port) : (gr.modPort j f).ended = gr.ended := rfl
@[simp] theorem Group.modPort_halted (gr : Group) (j : Nat) (f : Port → Port) : (gr.modPort j f).halted = gr.halted := rfl
@[simp] theorem Group.modPort_role (gr : Group) (j : Nat) (f : Port → Port) : (gr.modPort j f).role = gr.role := rfl
@[simp] theorem Group.modPort_launch (gr : Group) (j : Nat) (f : Port → Port) : (gr.modPort j f).launch = gr.launch := rfl
@[simp] theorem Group.modPort_paths (gr : Group) (j : Nat) (f : Port → Port) : (gr.modPort j f).paths = gr.paths := rfl
@[simp] theorem Group.modPort_v (gr : Group) (j : Nat) (f : Port → Port) : (gr.modPort j f).v = gr.v := rfl
@[simp] theorem Group.modPort_s (gr : Group) (j : Nat) (f : Port → Port) : (gr.modPort j f).s = gr.s := rfl
@[simp] theorem Group.modPort_preds (gr : Group) (j : Nat) (f : Port → Port) : (gr.modPort j f).preds = gr.preds := rfl
@[simp] theorem Group.modPort_m (gr : Group) (j : Nat) (f : Port → Port) : (gr.modPort j f).m = gr.m := rfl
@[simp] theorem Group.modPort_a (gr : Group) (j : Nat) (f : Port → Port) : (gr.modPort j f).a = gr.a := rfl
@[simp] theorem Group.modPort_sb (gr : Group) (j : Nat) (f : Port → Port) : (gr.modPort j f).sb = gr.sb := rfl
@[simp] theorem Group.modPort_ops (gr : Group) (j : Nat) (f : Port → Port) : (gr.modPort j f).ops = gr.ops := rfl
@[simp] theorem Group.modPort_nextSeq (gr : Group) (j : Nat) (f : Port → Port) : (gr.modPort j f).nextSeq = gr.nextSeq := rfl
@[simp] theorem Group.modPort_ctrs (gr : Group) (j : Nat) (f : Port → Port) : (gr.modPort j f).ctrs = gr.ctrs := rfl
@[simp] theorem Group.modPort_horizon (gr : Group) (j : Nat) (f : Port → Port) : (gr.modPort j f).horizon = gr.horizon := rfl
@[simp] theorem Group.modPort_ap (gr : Group) (j : Nat) (f : Port → Port) : (gr.modPort j f).ap = gr.ap := rfl
@[simp] theorem Group.modPort_ports (gr : Group) (j : Nat) (f : Port → Port) : (gr.modPort j f).ports = modAt f gr.ports j := rfl
@[simp] theorem Group.modPort_sr (gr : Group) (j : Nat) (f : Port → Port) : (gr.modPort j f).sr = gr.sr := rfl
@[simp] theorem Group.modPort_vhold (gr : Group) (j : Nat) (f : Port → Port) : (gr.modPort j f).vhold = gr.vhold := rfl
@[simp] theorem Group.modPort_mhold (gr : Group) (j : Nat) (f : Port → Port) : (gr.modPort j f).mhold = gr.mhold := rfl
@[simp] theorem Group.modPort_given (gr : Group) (j : Nat) (f : Port → Port) : (gr.modPort j f).given = gr.given := rfl
@[simp] theorem Group.modPort_joined (gr : Group) (j : Nat) (f : Port → Port) : (gr.modPort j f).joined = gr.joined := rfl
@[simp] theorem Group.modPort_grantedWhileHalted (gr : Group) (j : Nat) (f : Port → Port) : (gr.modPort j f).grantedWhileHalted = gr.grantedWhileHalted := rfl
@[simp] theorem Group.modPort_pend (gr : Group) (j : Nat) (f : Port → Port) : (gr.modPort j f).pend = gr.pend := rfl
@[simp] theorem Group.putV_gid (gr : Group) (i : Nat) (m : Mask) (r : Row) : (gr.putV i m r).gid = gr.gid := rfl
@[simp] theorem Group.putV_slot (gr : Group) (i : Nat) (m : Mask) (r : Row) : (gr.putV i m r).slot = gr.slot := rfl
@[simp] theorem Group.putV_core (gr : Group) (i : Nat) (m : Mask) (r : Row) : (gr.putV i m r).core = gr.core := rfl
@[simp] theorem Group.putV_quarter (gr : Group) (i : Nat) (m : Mask) (r : Row) : (gr.putV i m r).quarter = gr.quarter := rfl
@[simp] theorem Group.putV_started (gr : Group) (i : Nat) (m : Mask) (r : Row) : (gr.putV i m r).started = gr.started := rfl
@[simp] theorem Group.putV_ended (gr : Group) (i : Nat) (m : Mask) (r : Row) : (gr.putV i m r).ended = gr.ended := rfl
@[simp] theorem Group.putV_halted (gr : Group) (i : Nat) (m : Mask) (r : Row) : (gr.putV i m r).halted = gr.halted := rfl
@[simp] theorem Group.putV_role (gr : Group) (i : Nat) (m : Mask) (r : Row) : (gr.putV i m r).role = gr.role := rfl
@[simp] theorem Group.putV_launch (gr : Group) (i : Nat) (m : Mask) (r : Row) : (gr.putV i m r).launch = gr.launch := rfl
@[simp] theorem Group.putV_paths (gr : Group) (i : Nat) (m : Mask) (r : Row) : (gr.putV i m r).paths = gr.paths := rfl
@[simp] theorem Group.putV_v (gr : Group) (i : Nat) (m : Mask) (r : Row) : (gr.putV i m r).v = put gr.v i (Row.merge m r (gr.vreg i)) := rfl
@[simp] theorem Group.putV_s (gr : Group) (i : Nat) (m : Mask) (r : Row) : (gr.putV i m r).s = gr.s := rfl
@[simp] theorem Group.putV_preds (gr : Group) (i : Nat) (m : Mask) (r : Row) : (gr.putV i m r).preds = gr.preds := rfl
@[simp] theorem Group.putV_m (gr : Group) (i : Nat) (m : Mask) (r : Row) : (gr.putV i m r).m = gr.m := rfl
@[simp] theorem Group.putV_a (gr : Group) (i : Nat) (m : Mask) (r : Row) : (gr.putV i m r).a = gr.a := rfl
@[simp] theorem Group.putV_sb (gr : Group) (i : Nat) (m : Mask) (r : Row) : (gr.putV i m r).sb = gr.sb := rfl
@[simp] theorem Group.putV_ops (gr : Group) (i : Nat) (m : Mask) (r : Row) : (gr.putV i m r).ops = gr.ops := rfl
@[simp] theorem Group.putV_nextSeq (gr : Group) (i : Nat) (m : Mask) (r : Row) : (gr.putV i m r).nextSeq = gr.nextSeq := rfl
@[simp] theorem Group.putV_ctrs (gr : Group) (i : Nat) (m : Mask) (r : Row) : (gr.putV i m r).ctrs = gr.ctrs := rfl
@[simp] theorem Group.putV_horizon (gr : Group) (i : Nat) (m : Mask) (r : Row) : (gr.putV i m r).horizon = gr.horizon := rfl
@[simp] theorem Group.putV_ap (gr : Group) (i : Nat) (m : Mask) (r : Row) : (gr.putV i m r).ap = gr.ap := rfl
@[simp] theorem Group.putV_ports (gr : Group) (i : Nat) (m : Mask) (r : Row) : (gr.putV i m r).ports = gr.ports := rfl
@[simp] theorem Group.putV_sr (gr : Group) (i : Nat) (m : Mask) (r : Row) : (gr.putV i m r).sr = gr.sr := rfl
@[simp] theorem Group.putV_vhold (gr : Group) (i : Nat) (m : Mask) (r : Row) : (gr.putV i m r).vhold = gr.vhold := rfl
@[simp] theorem Group.putV_mhold (gr : Group) (i : Nat) (m : Mask) (r : Row) : (gr.putV i m r).mhold = gr.mhold := rfl
@[simp] theorem Group.putV_given (gr : Group) (i : Nat) (m : Mask) (r : Row) : (gr.putV i m r).given = gr.given := rfl
@[simp] theorem Group.putV_joined (gr : Group) (i : Nat) (m : Mask) (r : Row) : (gr.putV i m r).joined = gr.joined := rfl
@[simp] theorem Group.putV_grantedWhileHalted (gr : Group) (i : Nat) (m : Mask) (r : Row) : (gr.putV i m r).grantedWhileHalted = gr.grantedWhileHalted := rfl
@[simp] theorem Group.putV_pend (gr : Group) (i : Nat) (m : Mask) (r : Row) : (gr.putV i m r).pend = gr.pend := rfl
@[simp] theorem Group.putS_gid (gr : Group) (i : Nat) (x : Word) : (gr.putS i x).gid = gr.gid := rfl
@[simp] theorem Group.putS_slot (gr : Group) (i : Nat) (x : Word) : (gr.putS i x).slot = gr.slot := rfl
@[simp] theorem Group.putS_core (gr : Group) (i : Nat) (x : Word) : (gr.putS i x).core = gr.core := rfl
@[simp] theorem Group.putS_quarter (gr : Group) (i : Nat) (x : Word) : (gr.putS i x).quarter = gr.quarter := rfl
@[simp] theorem Group.putS_started (gr : Group) (i : Nat) (x : Word) : (gr.putS i x).started = gr.started := rfl
@[simp] theorem Group.putS_ended (gr : Group) (i : Nat) (x : Word) : (gr.putS i x).ended = gr.ended := rfl
@[simp] theorem Group.putS_halted (gr : Group) (i : Nat) (x : Word) : (gr.putS i x).halted = gr.halted := rfl
@[simp] theorem Group.putS_role (gr : Group) (i : Nat) (x : Word) : (gr.putS i x).role = gr.role := rfl
@[simp] theorem Group.putS_launch (gr : Group) (i : Nat) (x : Word) : (gr.putS i x).launch = gr.launch := rfl
@[simp] theorem Group.putS_paths (gr : Group) (i : Nat) (x : Word) : (gr.putS i x).paths = gr.paths := rfl
@[simp] theorem Group.putS_v (gr : Group) (i : Nat) (x : Word) : (gr.putS i x).v = gr.v := rfl
@[simp] theorem Group.putS_s (gr : Group) (i : Nat) (x : Word) : (gr.putS i x).s = put gr.s i x := rfl
@[simp] theorem Group.putS_preds (gr : Group) (i : Nat) (x : Word) : (gr.putS i x).preds = gr.preds := rfl
@[simp] theorem Group.putS_m (gr : Group) (i : Nat) (x : Word) : (gr.putS i x).m = gr.m := rfl
@[simp] theorem Group.putS_a (gr : Group) (i : Nat) (x : Word) : (gr.putS i x).a = gr.a := rfl
@[simp] theorem Group.putS_sb (gr : Group) (i : Nat) (x : Word) : (gr.putS i x).sb = gr.sb := rfl
@[simp] theorem Group.putS_ops (gr : Group) (i : Nat) (x : Word) : (gr.putS i x).ops = gr.ops := rfl
@[simp] theorem Group.putS_nextSeq (gr : Group) (i : Nat) (x : Word) : (gr.putS i x).nextSeq = gr.nextSeq := rfl
@[simp] theorem Group.putS_ctrs (gr : Group) (i : Nat) (x : Word) : (gr.putS i x).ctrs = gr.ctrs := rfl
@[simp] theorem Group.putS_horizon (gr : Group) (i : Nat) (x : Word) : (gr.putS i x).horizon = gr.horizon := rfl
@[simp] theorem Group.putS_ap (gr : Group) (i : Nat) (x : Word) : (gr.putS i x).ap = gr.ap := rfl
@[simp] theorem Group.putS_ports (gr : Group) (i : Nat) (x : Word) : (gr.putS i x).ports = gr.ports := rfl
@[simp] theorem Group.putS_sr (gr : Group) (i : Nat) (x : Word) : (gr.putS i x).sr = gr.sr := rfl
@[simp] theorem Group.putS_vhold (gr : Group) (i : Nat) (x : Word) : (gr.putS i x).vhold = gr.vhold := rfl
@[simp] theorem Group.putS_mhold (gr : Group) (i : Nat) (x : Word) : (gr.putS i x).mhold = gr.mhold := rfl
@[simp] theorem Group.putS_given (gr : Group) (i : Nat) (x : Word) : (gr.putS i x).given = gr.given := rfl
@[simp] theorem Group.putS_joined (gr : Group) (i : Nat) (x : Word) : (gr.putS i x).joined = gr.joined := rfl
@[simp] theorem Group.putS_grantedWhileHalted (gr : Group) (i : Nat) (x : Word) : (gr.putS i x).grantedWhileHalted = gr.grantedWhileHalted := rfl
@[simp] theorem Group.putS_pend (gr : Group) (i : Nat) (x : Word) : (gr.putS i x).pend = gr.pend := rfl
@[simp] theorem Group.putP_gid (gr : Group) (k : Nat) (m x : Mask) : (gr.putP k m x).gid = gr.gid := rfl
@[simp] theorem Group.putP_slot (gr : Group) (k : Nat) (m x : Mask) : (gr.putP k m x).slot = gr.slot := rfl
@[simp] theorem Group.putP_core (gr : Group) (k : Nat) (m x : Mask) : (gr.putP k m x).core = gr.core := rfl
@[simp] theorem Group.putP_quarter (gr : Group) (k : Nat) (m x : Mask) : (gr.putP k m x).quarter = gr.quarter := rfl
@[simp] theorem Group.putP_started (gr : Group) (k : Nat) (m x : Mask) : (gr.putP k m x).started = gr.started := rfl
@[simp] theorem Group.putP_ended (gr : Group) (k : Nat) (m x : Mask) : (gr.putP k m x).ended = gr.ended := rfl
@[simp] theorem Group.putP_halted (gr : Group) (k : Nat) (m x : Mask) : (gr.putP k m x).halted = gr.halted := rfl
@[simp] theorem Group.putP_role (gr : Group) (k : Nat) (m x : Mask) : (gr.putP k m x).role = gr.role := rfl
@[simp] theorem Group.putP_launch (gr : Group) (k : Nat) (m x : Mask) : (gr.putP k m x).launch = gr.launch := rfl
@[simp] theorem Group.putP_paths (gr : Group) (k : Nat) (m x : Mask) : (gr.putP k m x).paths = gr.paths := rfl
@[simp] theorem Group.putP_v (gr : Group) (k : Nat) (m x : Mask) : (gr.putP k m x).v = gr.v := rfl
@[simp] theorem Group.putP_s (gr : Group) (k : Nat) (m x : Mask) : (gr.putP k m x).s = gr.s := rfl
@[simp] theorem Group.putP_preds (gr : Group) (k : Nat) (m x : Mask) : (gr.putP k m x).preds = put gr.preds k ((gr.pred k &&& ~~~ m) ||| (x &&& m)) := rfl
@[simp] theorem Group.putP_m (gr : Group) (k : Nat) (m x : Mask) : (gr.putP k m x).m = gr.m := rfl
@[simp] theorem Group.putP_a (gr : Group) (k : Nat) (m x : Mask) : (gr.putP k m x).a = gr.a := rfl
@[simp] theorem Group.putP_sb (gr : Group) (k : Nat) (m x : Mask) : (gr.putP k m x).sb = gr.sb := rfl
@[simp] theorem Group.putP_ops (gr : Group) (k : Nat) (m x : Mask) : (gr.putP k m x).ops = gr.ops := rfl
@[simp] theorem Group.putP_nextSeq (gr : Group) (k : Nat) (m x : Mask) : (gr.putP k m x).nextSeq = gr.nextSeq := rfl
@[simp] theorem Group.putP_ctrs (gr : Group) (k : Nat) (m x : Mask) : (gr.putP k m x).ctrs = gr.ctrs := rfl
@[simp] theorem Group.putP_horizon (gr : Group) (k : Nat) (m x : Mask) : (gr.putP k m x).horizon = gr.horizon := rfl
@[simp] theorem Group.putP_ap (gr : Group) (k : Nat) (m x : Mask) : (gr.putP k m x).ap = gr.ap := rfl
@[simp] theorem Group.putP_ports (gr : Group) (k : Nat) (m x : Mask) : (gr.putP k m x).ports = gr.ports := rfl
@[simp] theorem Group.putP_sr (gr : Group) (k : Nat) (m x : Mask) : (gr.putP k m x).sr = gr.sr := rfl
@[simp] theorem Group.putP_vhold (gr : Group) (k : Nat) (m x : Mask) : (gr.putP k m x).vhold = gr.vhold := rfl
@[simp] theorem Group.putP_mhold (gr : Group) (k : Nat) (m x : Mask) : (gr.putP k m x).mhold = gr.mhold := rfl
@[simp] theorem Group.putP_given (gr : Group) (k : Nat) (m x : Mask) : (gr.putP k m x).given = gr.given := rfl
@[simp] theorem Group.putP_joined (gr : Group) (k : Nat) (m x : Mask) : (gr.putP k m x).joined = gr.joined := rfl
@[simp] theorem Group.putP_grantedWhileHalted (gr : Group) (k : Nat) (m x : Mask) : (gr.putP k m x).grantedWhileHalted = gr.grantedWhileHalted := rfl
@[simp] theorem Group.putP_pend (gr : Group) (k : Nat) (m x : Mask) : (gr.putP k m x).pend = gr.pend := rfl
@[simp] theorem Group.putM_gid (gr : Group) (k : Nat) (t : Tile) : (gr.putM k t).gid = gr.gid := rfl
@[simp] theorem Group.putM_slot (gr : Group) (k : Nat) (t : Tile) : (gr.putM k t).slot = gr.slot := rfl
@[simp] theorem Group.putM_core (gr : Group) (k : Nat) (t : Tile) : (gr.putM k t).core = gr.core := rfl
@[simp] theorem Group.putM_quarter (gr : Group) (k : Nat) (t : Tile) : (gr.putM k t).quarter = gr.quarter := rfl
@[simp] theorem Group.putM_started (gr : Group) (k : Nat) (t : Tile) : (gr.putM k t).started = gr.started := rfl
@[simp] theorem Group.putM_ended (gr : Group) (k : Nat) (t : Tile) : (gr.putM k t).ended = gr.ended := rfl
@[simp] theorem Group.putM_halted (gr : Group) (k : Nat) (t : Tile) : (gr.putM k t).halted = gr.halted := rfl
@[simp] theorem Group.putM_role (gr : Group) (k : Nat) (t : Tile) : (gr.putM k t).role = gr.role := rfl
@[simp] theorem Group.putM_launch (gr : Group) (k : Nat) (t : Tile) : (gr.putM k t).launch = gr.launch := rfl
@[simp] theorem Group.putM_paths (gr : Group) (k : Nat) (t : Tile) : (gr.putM k t).paths = gr.paths := rfl
@[simp] theorem Group.putM_v (gr : Group) (k : Nat) (t : Tile) : (gr.putM k t).v = gr.v := rfl
@[simp] theorem Group.putM_s (gr : Group) (k : Nat) (t : Tile) : (gr.putM k t).s = gr.s := rfl
@[simp] theorem Group.putM_preds (gr : Group) (k : Nat) (t : Tile) : (gr.putM k t).preds = gr.preds := rfl
@[simp] theorem Group.putM_m (gr : Group) (k : Nat) (t : Tile) : (gr.putM k t).m = put gr.m k t := rfl
@[simp] theorem Group.putM_a (gr : Group) (k : Nat) (t : Tile) : (gr.putM k t).a = gr.a := rfl
@[simp] theorem Group.putM_sb (gr : Group) (k : Nat) (t : Tile) : (gr.putM k t).sb = gr.sb := rfl
@[simp] theorem Group.putM_ops (gr : Group) (k : Nat) (t : Tile) : (gr.putM k t).ops = gr.ops := rfl
@[simp] theorem Group.putM_nextSeq (gr : Group) (k : Nat) (t : Tile) : (gr.putM k t).nextSeq = gr.nextSeq := rfl
@[simp] theorem Group.putM_ctrs (gr : Group) (k : Nat) (t : Tile) : (gr.putM k t).ctrs = gr.ctrs := rfl
@[simp] theorem Group.putM_horizon (gr : Group) (k : Nat) (t : Tile) : (gr.putM k t).horizon = gr.horizon := rfl
@[simp] theorem Group.putM_ap (gr : Group) (k : Nat) (t : Tile) : (gr.putM k t).ap = gr.ap := rfl
@[simp] theorem Group.putM_ports (gr : Group) (k : Nat) (t : Tile) : (gr.putM k t).ports = gr.ports := rfl
@[simp] theorem Group.putM_sr (gr : Group) (k : Nat) (t : Tile) : (gr.putM k t).sr = gr.sr := rfl
@[simp] theorem Group.putM_vhold (gr : Group) (k : Nat) (t : Tile) : (gr.putM k t).vhold = gr.vhold := rfl
@[simp] theorem Group.putM_mhold (gr : Group) (k : Nat) (t : Tile) : (gr.putM k t).mhold = gr.mhold := rfl
@[simp] theorem Group.putM_given (gr : Group) (k : Nat) (t : Tile) : (gr.putM k t).given = gr.given := rfl
@[simp] theorem Group.putM_joined (gr : Group) (k : Nat) (t : Tile) : (gr.putM k t).joined = gr.joined := rfl
@[simp] theorem Group.putM_grantedWhileHalted (gr : Group) (k : Nat) (t : Tile) : (gr.putM k t).grantedWhileHalted = gr.grantedWhileHalted := rfl
@[simp] theorem Group.putM_pend (gr : Group) (k : Nat) (t : Tile) : (gr.putM k t).pend = gr.pend := rfl
@[simp] theorem Group.putA_gid (gr : Group) (k : Nat) (rows : List Row) : (gr.putA k rows).gid = gr.gid := rfl
@[simp] theorem Group.putA_slot (gr : Group) (k : Nat) (rows : List Row) : (gr.putA k rows).slot = gr.slot := rfl
@[simp] theorem Group.putA_core (gr : Group) (k : Nat) (rows : List Row) : (gr.putA k rows).core = gr.core := rfl
@[simp] theorem Group.putA_quarter (gr : Group) (k : Nat) (rows : List Row) : (gr.putA k rows).quarter = gr.quarter := rfl
@[simp] theorem Group.putA_started (gr : Group) (k : Nat) (rows : List Row) : (gr.putA k rows).started = gr.started := rfl
@[simp] theorem Group.putA_ended (gr : Group) (k : Nat) (rows : List Row) : (gr.putA k rows).ended = gr.ended := rfl
@[simp] theorem Group.putA_halted (gr : Group) (k : Nat) (rows : List Row) : (gr.putA k rows).halted = gr.halted := rfl
@[simp] theorem Group.putA_role (gr : Group) (k : Nat) (rows : List Row) : (gr.putA k rows).role = gr.role := rfl
@[simp] theorem Group.putA_launch (gr : Group) (k : Nat) (rows : List Row) : (gr.putA k rows).launch = gr.launch := rfl
@[simp] theorem Group.putA_paths (gr : Group) (k : Nat) (rows : List Row) : (gr.putA k rows).paths = gr.paths := rfl
@[simp] theorem Group.putA_v (gr : Group) (k : Nat) (rows : List Row) : (gr.putA k rows).v = gr.v := rfl
@[simp] theorem Group.putA_s (gr : Group) (k : Nat) (rows : List Row) : (gr.putA k rows).s = gr.s := rfl
@[simp] theorem Group.putA_preds (gr : Group) (k : Nat) (rows : List Row) : (gr.putA k rows).preds = gr.preds := rfl
@[simp] theorem Group.putA_m (gr : Group) (k : Nat) (rows : List Row) : (gr.putA k rows).m = gr.m := rfl
@[simp] theorem Group.putA_a (gr : Group) (k : Nat) (rows : List Row) : (gr.putA k rows).a = put gr.a k rows := rfl
@[simp] theorem Group.putA_sb (gr : Group) (k : Nat) (rows : List Row) : (gr.putA k rows).sb = gr.sb := rfl
@[simp] theorem Group.putA_ops (gr : Group) (k : Nat) (rows : List Row) : (gr.putA k rows).ops = gr.ops := rfl
@[simp] theorem Group.putA_nextSeq (gr : Group) (k : Nat) (rows : List Row) : (gr.putA k rows).nextSeq = gr.nextSeq := rfl
@[simp] theorem Group.putA_ctrs (gr : Group) (k : Nat) (rows : List Row) : (gr.putA k rows).ctrs = gr.ctrs := rfl
@[simp] theorem Group.putA_horizon (gr : Group) (k : Nat) (rows : List Row) : (gr.putA k rows).horizon = gr.horizon := rfl
@[simp] theorem Group.putA_ap (gr : Group) (k : Nat) (rows : List Row) : (gr.putA k rows).ap = gr.ap := rfl
@[simp] theorem Group.putA_ports (gr : Group) (k : Nat) (rows : List Row) : (gr.putA k rows).ports = gr.ports := rfl
@[simp] theorem Group.putA_sr (gr : Group) (k : Nat) (rows : List Row) : (gr.putA k rows).sr = gr.sr := rfl
@[simp] theorem Group.putA_vhold (gr : Group) (k : Nat) (rows : List Row) : (gr.putA k rows).vhold = gr.vhold := rfl
@[simp] theorem Group.putA_mhold (gr : Group) (k : Nat) (rows : List Row) : (gr.putA k rows).mhold = gr.mhold := rfl
@[simp] theorem Group.putA_given (gr : Group) (k : Nat) (rows : List Row) : (gr.putA k rows).given = gr.given := rfl
@[simp] theorem Group.putA_joined (gr : Group) (k : Nat) (rows : List Row) : (gr.putA k rows).joined = gr.joined := rfl
@[simp] theorem Group.putA_grantedWhileHalted (gr : Group) (k : Nat) (rows : List Row) : (gr.putA k rows).grantedWhileHalted = gr.grantedWhileHalted := rfl
@[simp] theorem Group.putA_pend (gr : Group) (k : Nat) (rows : List Row) : (gr.putA k rows).pend = gr.pend := rfl

/-! ### A path -/

@[simp] theorem Path.flush_st (q : Path) : q.flush.st = q.st := rfl
@[simp] theorem Path.flush_pc (q : Path) : q.flush.pc = q.pc := rfl
@[simp] theorem Path.flush_mask (q : Path) : q.flush.mask = q.mask := rfl
@[simp] theorem Path.flush_token (q : Path) : q.flush.token = q.token := rfl
@[simp] theorem Path.flush_origin (q : Path) : q.flush.origin = q.origin := rfl
@[simp] theorem Path.flush_stack (q : Path) : q.flush.stack = q.stack := rfl
@[simp] theorem Path.flush_spilled (q : Path) : q.flush.spilled = q.spilled := rfl
@[simp] theorem Path.flush_gone (q : Path) : q.flush.gone = q.gone := rfl
@[simp] theorem Path.flush_fbuf (q : Path) : q.flush.fbuf = [] := rfl
@[simp] theorem Path.flush_wait (q : Path) : q.flush.wait = q.wait := rfl
@[simp] theorem Path.flush_notBefore (q : Path) : q.flush.notBefore = q.notBefore := rfl
@[simp] theorem Path.flush_ageFrom (q : Path) : q.flush.ageFrom = q.ageFrom := rfl
@[simp] theorem Path.flush_hold (q : Path) : q.flush.hold = q.hold := rfl
@[simp] theorem Path.flush_stepOnce (q : Path) : q.flush.stepOnce = q.stepOnce := rfl
@[simp] theorem Path.flush_retry (q : Path) : q.flush.retry = q.retry := rfl
@[simp] theorem Path.flush_fenceAt (q : Path) : q.flush.fenceAt = q.fenceAt := rfl
@[simp] theorem Path.flush_slotted (q : Path) : q.flush.slotted = q.slotted := rfl
@[simp] theorem Path.goTo_st (q : Path) (pc : Nat) : (q.goTo pc).st = .ready := rfl
@[simp] theorem Path.goTo_pc (q : Path) (pc : Nat) : (q.goTo pc).pc = pc := rfl
@[simp] theorem Path.goTo_mask (q : Path) (pc : Nat) : (q.goTo pc).mask = q.mask := rfl
@[simp] theorem Path.goTo_token (q : Path) (pc : Nat) : (q.goTo pc).token = q.token := rfl
@[simp] theorem Path.goTo_origin (q : Path) (pc : Nat) : (q.goTo pc).origin = q.origin := rfl
@[simp] theorem Path.goTo_stack (q : Path) (pc : Nat) : (q.goTo pc).stack = q.stack := rfl
@[simp] theorem Path.goTo_spilled (q : Path) (pc : Nat) : (q.goTo pc).spilled = q.spilled := rfl
@[simp] theorem Path.goTo_gone (q : Path) (pc : Nat) : (q.goTo pc).gone = q.gone := rfl
@[simp] theorem Path.goTo_fbuf (q : Path) (pc : Nat) : (q.goTo pc).fbuf = q.fbuf := rfl
@[simp] theorem Path.goTo_wait (q : Path) (pc : Nat) : (q.goTo pc).wait = none := rfl
@[simp] theorem Path.goTo_notBefore (q : Path) (pc : Nat) : (q.goTo pc).notBefore = q.notBefore := rfl
@[simp] theorem Path.goTo_ageFrom (q : Path) (pc : Nat) : (q.goTo pc).ageFrom = q.ageFrom := rfl
@[simp] theorem Path.goTo_hold (q : Path) (pc : Nat) : (q.goTo pc).hold = q.hold := rfl
@[simp] theorem Path.goTo_stepOnce (q : Path) (pc : Nat) : (q.goTo pc).stepOnce = q.stepOnce := rfl
@[simp] theorem Path.goTo_retry (q : Path) (pc : Nat) : (q.goTo pc).retry = q.retry := rfl
@[simp] theorem Path.goTo_fenceAt (q : Path) (pc : Nat) : (q.goTo pc).fenceAt = none := rfl
@[simp] theorem Path.goTo_slotted (q : Path) (pc : Nat) : (q.goTo pc).slotted = false := rfl
@[simp] theorem Path.advance_st (q : Path) : q.advance.st = .ready := rfl
@[simp] theorem Path.advance_pc (q : Path) : q.advance.pc = (q.pc + 12) % 2 ^ 64 := rfl
@[simp] theorem Path.advance_mask (q : Path) : q.advance.mask = q.mask := rfl
@[simp] theorem Path.advance_token (q : Path) : q.advance.token = q.token := rfl
@[simp] theorem Path.advance_origin (q : Path) : q.advance.origin = q.origin := rfl
@[simp] theorem Path.advance_stack (q : Path) : q.advance.stack = q.stack := rfl
@[simp] theorem Path.advance_spilled (q : Path) : q.advance.spilled = q.spilled := rfl
@[simp] theorem Path.advance_gone (q : Path) : q.advance.gone = q.gone := rfl
@[simp] theorem Path.advance_fbuf (q : Path) : q.advance.fbuf = q.fbuf := rfl
@[simp] theorem Path.advance_wait (q : Path) : q.advance.wait = none := rfl
@[simp] theorem Path.advance_notBefore (q : Path) : q.advance.notBefore = q.notBefore := rfl
@[simp] theorem Path.advance_ageFrom (q : Path) : q.advance.ageFrom = q.ageFrom := rfl
@[simp] theorem Path.advance_hold (q : Path) : q.advance.hold = q.hold := rfl
@[simp] theorem Path.advance_stepOnce (q : Path) : q.advance.stepOnce = q.stepOnce := rfl
@[simp] theorem Path.advance_retry (q : Path) : q.advance.retry = none := rfl
@[simp] theorem Path.advance_fenceAt (q : Path) : q.advance.fenceAt = none := rfl
@[simp] theorem Path.advance_slotted (q : Path) : q.advance.slotted = false := rfl

end Sys2Proof.Machine
end

