-- ==== Sys2Proof/Laws/Groups.lean ====
section
/-!
SUPPORT. Workgroups and groups as parts of the state: reading one after an update, and what an update of one leaves
alone.
-/
namespace Sys2Proof.Machine

/-! ### What an update of a part leaves alone -/

@[simp] theorem State.modCore_cycle (s : State) (c : Nat) (f : Core → Core) : (s.modCore c f).cycle = s.cycle := rfl
@[simp] theorem State.modCore_sched (s : State) (c : Nat) (f : Core → Core) : (s.modCore c f).sched = s.sched := rfl
@[simp] theorem State.modCore_cur (s : State) (c : Nat) (f : Core → Core) : (s.modCore c f).cur = s.cur := rfl
@[simp] theorem State.modCore_fresh (s : State) (c : Nat) (f : Core → Core) : (s.modCore c f).fresh = s.fresh := rfl
@[simp] theorem State.modCore_mem (s : State) (c : Nat) (f : Core → Core) : (s.modCore c f).mem = s.mem := rfl
@[simp] theorem State.modCore_l2 (s : State) (c : Nat) (f : Core → Core) : (s.modCore c f).l2 = s.l2 := rfl
@[simp] theorem State.modCore_dir (s : State) (c : Nat) (f : Core → Core) : (s.modCore c f).dir = s.dir := rfl
@[simp] theorem State.modCore_homes (s : State) (c : Nat) (f : Core → Core) : (s.modCore c f).homes = s.homes := rfl
@[simp] theorem State.modCore_msgs (s : State) (c : Nat) (f : Core → Core) : (s.modCore c f).msgs = s.msgs := rfl
@[simp] theorem State.modCore_arrivals (s : State) (c : Nat) (f : Core → Core) : (s.modCore c f).arrivals = s.arrivals := rfl
@[simp] theorem State.modCore_highWater (s : State) (c : Nat) (f : Core → Core) : (s.modCore c f).highWater = s.highWater := rfl
@[simp] theorem State.modCore_lostLines (s : State) (c : Nat) (f : Core → Core) : (s.modCore c f).lostLines = s.lostLines := rfl
@[simp] theorem State.modCore_quads (s : State) (c : Nat) (f : Core → Core) : (s.modCore c f).quads = s.quads := rfl
@[simp] theorem State.modCore_dies (s : State) (c : Nat) (f : Core → Core) : (s.modCore c f).dies = s.dies := rfl
@[simp] theorem State.modCore_pn (s : State) (c : Nat) (f : Core → Core) : (s.modCore c f).pn = s.pn := rfl
@[simp] theorem State.modCore_nextPn (s : State) (c : Nat) (f : Core → Core) : (s.modCore c f).nextPn = s.nextPn := rfl
@[simp] theorem State.modCore_pnquota (s : State) (c : Nat) (f : Core → Core) : (s.modCore c f).pnquota = s.pnquota := rfl
@[simp] theorem State.modCore_wgs (s : State) (c : Nat) (f : Core → Core) : (s.modCore c f).wgs = s.wgs := rfl
@[simp] theorem State.modCore_bars (s : State) (c : Nat) (f : Core → Core) : (s.modCore c f).bars = s.bars := rfl
@[simp] theorem State.modCore_queues (s : State) (c : Nat) (f : Core → Core) : (s.modCore c f).queues = s.queues := rfl
@[simp] theorem State.modCore_launches (s : State) (c : Nat) (f : Core → Core) : (s.modCore c f).launches = s.launches := rfl
@[simp] theorem State.modCore_nextHandle (s : State) (c : Nat) (f : Core → Core) : (s.modCore c f).nextHandle = s.nextHandle := rfl
@[simp] theorem State.modCore_lastDie (s : State) (c : Nat) (f : Core → Core) : (s.modCore c f).lastDie = s.lastDie := rfl
@[simp] theorem State.modCore_dstat (s : State) (c : Nat) (f : Core → Core) : (s.modCore c f).dstat = s.dstat := rfl
@[simp] theorem State.modCore_dstatLost (s : State) (c : Nat) (f : Core → Core) : (s.modCore c f).dstatLost = s.dstatLost := rfl
@[simp] theorem State.modCore_rights (s : State) (c : Nat) (f : Core → Core) : (s.modCore c f).rights = s.rights := rfl
@[simp] theorem State.modCore_dbgQ (s : State) (c : Nat) (f : Core → Core) : (s.modCore c f).dbgQ = s.dbgQ := rfl
@[simp] theorem State.modCore_halting (s : State) (c : Nat) (f : Core → Core) : (s.modCore c f).halting = s.halting := rfl
@[simp] theorem State.modCore_dbgstat (s : State) (c : Nat) (f : Core → Core) : (s.modCore c f).dbgstat = s.dbgstat := rfl
@[simp] theorem State.modCore_revoked (s : State) (c : Nat) (f : Core → Core) : (s.modCore c f).revoked = s.revoked := rfl
@[simp] theorem State.modCore_ctxbase (s : State) (c : Nat) (f : Core → Core) : (s.modCore c f).ctxbase = s.ctxbase := rfl
@[simp] theorem State.modCore_reg (s : State) (c : Nat) (f : Core → Core) : (s.modCore c f).reg = s.reg := rfl
@[simp] theorem State.modCore_flash (s : State) (c : Nat) (f : Core → Core) : (s.modCore c f).flash = s.flash := rfl
@[simp] theorem State.modCore_mail (s : State) (c : Nat) (f : Core → Core) : (s.modCore c f).mail = s.mail := rfl
@[simp] theorem State.modCore_zports (s : State) (c : Nat) (f : Core → Core) : (s.modCore c f).zports = s.zports := rfl
@[simp] theorem State.modCore_peers (s : State) (c : Nat) (f : Core → Core) : (s.modCore c f).peers = s.peers := rfl
@[simp] theorem State.modCore_out (s : State) (c : Nat) (f : Core → Core) : (s.modCore c f).out = s.out := rfl
@[simp] theorem State.modCore_slotFrees (s : State) (c : Nat) (f : Core → Core) : (s.modCore c f).slotFrees = s.slotFrees := rfl
@[simp] theorem State.modCore_tokenQ (s : State) (c : Nat) (f : Core → Core) : (s.modCore c f).tokenQ = s.tokenQ := rfl
@[simp] theorem State.modCore_rebuilds (s : State) (c : Nat) (f : Core → Core) : (s.modCore c f).rebuilds = s.rebuilds := rfl
@[simp] theorem State.modCore_parityHold (s : State) (c : Nat) (f : Core → Core) : (s.modCore c f).parityHold = s.parityHold := rfl
@[simp] theorem State.modCore_foldHeld (s : State) (c : Nat) (f : Core → Core) : (s.modCore c f).foldHeld = s.foldHeld := rfl
@[simp] theorem State.modCore_mirrors (s : State) (c : Nat) (f : Core → Core) : (s.modCore c f).mirrors = s.mirrors := rfl
@[simp] theorem State.modQuad_cycle (s : State) (c : Nat) (f : Quad → Quad) : (s.modQuad c f).cycle = s.cycle := rfl
@[simp] theorem State.modQuad_sched (s : State) (c : Nat) (f : Quad → Quad) : (s.modQuad c f).sched = s.sched := rfl
@[simp] theorem State.modQuad_cur (s : State) (c : Nat) (f : Quad → Quad) : (s.modQuad c f).cur = s.cur := rfl
@[simp] theorem State.modQuad_fresh (s : State) (c : Nat) (f : Quad → Quad) : (s.modQuad c f).fresh = s.fresh := rfl
@[simp] theorem State.modQuad_mem (s : State) (c : Nat) (f : Quad → Quad) : (s.modQuad c f).mem = s.mem := rfl
@[simp] theorem State.modQuad_l2 (s : State) (c : Nat) (f : Quad → Quad) : (s.modQuad c f).l2 = s.l2 := rfl
@[simp] theorem State.modQuad_dir (s : State) (c : Nat) (f : Quad → Quad) : (s.modQuad c f).dir = s.dir := rfl
@[simp] theorem State.modQuad_homes (s : State) (c : Nat) (f : Quad → Quad) : (s.modQuad c f).homes = s.homes := rfl
@[simp] theorem State.modQuad_msgs (s : State) (c : Nat) (f : Quad → Quad) : (s.modQuad c f).msgs = s.msgs := rfl
@[simp] theorem State.modQuad_arrivals (s : State) (c : Nat) (f : Quad → Quad) : (s.modQuad c f).arrivals = s.arrivals := rfl
@[simp] theorem State.modQuad_highWater (s : State) (c : Nat) (f : Quad → Quad) : (s.modQuad c f).highWater = s.highWater := rfl
@[simp] theorem State.modQuad_lostLines (s : State) (c : Nat) (f : Quad → Quad) : (s.modQuad c f).lostLines = s.lostLines := rfl
@[simp] theorem State.modQuad_cores (s : State) (c : Nat) (f : Quad → Quad) : (s.modQuad c f).cores = s.cores := rfl
@[simp] theorem State.modQuad_dies (s : State) (c : Nat) (f : Quad → Quad) : (s.modQuad c f).dies = s.dies := rfl
@[simp] theorem State.modQuad_pn (s : State) (c : Nat) (f : Quad → Quad) : (s.modQuad c f).pn = s.pn := rfl
@[simp] theorem State.modQuad_nextPn (s : State) (c : Nat) (f : Quad → Quad) : (s.modQuad c f).nextPn = s.nextPn := rfl
@[simp] theorem State.modQuad_pnquota (s : State) (c : Nat) (f : Quad → Quad) : (s.modQuad c f).pnquota = s.pnquota := rfl
@[simp] theorem State.modQuad_wgs (s : State) (c : Nat) (f : Quad → Quad) : (s.modQuad c f).wgs = s.wgs := rfl
@[simp] theorem State.modQuad_bars (s : State) (c : Nat) (f : Quad → Quad) : (s.modQuad c f).bars = s.bars := rfl
@[simp] theorem State.modQuad_queues (s : State) (c : Nat) (f : Quad → Quad) : (s.modQuad c f).queues = s.queues := rfl
@[simp] theorem State.modQuad_launches (s : State) (c : Nat) (f : Quad → Quad) : (s.modQuad c f).launches = s.launches := rfl
@[simp] theorem State.modQuad_nextHandle (s : State) (c : Nat) (f : Quad → Quad) : (s.modQuad c f).nextHandle = s.nextHandle := rfl
@[simp] theorem State.modQuad_lastDie (s : State) (c : Nat) (f : Quad → Quad) : (s.modQuad c f).lastDie = s.lastDie := rfl
@[simp] theorem State.modQuad_dstat (s : State) (c : Nat) (f : Quad → Quad) : (s.modQuad c f).dstat = s.dstat := rfl
@[simp] theorem State.modQuad_dstatLost (s : State) (c : Nat) (f : Quad → Quad) : (s.modQuad c f).dstatLost = s.dstatLost := rfl
@[simp] theorem State.modQuad_rights (s : State) (c : Nat) (f : Quad → Quad) : (s.modQuad c f).rights = s.rights := rfl
@[simp] theorem State.modQuad_dbgQ (s : State) (c : Nat) (f : Quad → Quad) : (s.modQuad c f).dbgQ = s.dbgQ := rfl
@[simp] theorem State.modQuad_halting (s : State) (c : Nat) (f : Quad → Quad) : (s.modQuad c f).halting = s.halting := rfl
@[simp] theorem State.modQuad_dbgstat (s : State) (c : Nat) (f : Quad → Quad) : (s.modQuad c f).dbgstat = s.dbgstat := rfl
@[simp] theorem State.modQuad_revoked (s : State) (c : Nat) (f : Quad → Quad) : (s.modQuad c f).revoked = s.revoked := rfl
@[simp] theorem State.modQuad_ctxbase (s : State) (c : Nat) (f : Quad → Quad) : (s.modQuad c f).ctxbase = s.ctxbase := rfl
@[simp] theorem State.modQuad_reg (s : State) (c : Nat) (f : Quad → Quad) : (s.modQuad c f).reg = s.reg := rfl
@[simp] theorem State.modQuad_flash (s : State) (c : Nat) (f : Quad → Quad) : (s.modQuad c f).flash = s.flash := rfl
@[simp] theorem State.modQuad_mail (s : State) (c : Nat) (f : Quad → Quad) : (s.modQuad c f).mail = s.mail := rfl
@[simp] theorem State.modQuad_zports (s : State) (c : Nat) (f : Quad → Quad) : (s.modQuad c f).zports = s.zports := rfl
@[simp] theorem State.modQuad_peers (s : State) (c : Nat) (f : Quad → Quad) : (s.modQuad c f).peers = s.peers := rfl
@[simp] theorem State.modQuad_out (s : State) (c : Nat) (f : Quad → Quad) : (s.modQuad c f).out = s.out := rfl
@[simp] theorem State.modQuad_slotFrees (s : State) (c : Nat) (f : Quad → Quad) : (s.modQuad c f).slotFrees = s.slotFrees := rfl
@[simp] theorem State.modQuad_tokenQ (s : State) (c : Nat) (f : Quad → Quad) : (s.modQuad c f).tokenQ = s.tokenQ := rfl
@[simp] theorem State.modQuad_rebuilds (s : State) (c : Nat) (f : Quad → Quad) : (s.modQuad c f).rebuilds = s.rebuilds := rfl
@[simp] theorem State.modQuad_parityHold (s : State) (c : Nat) (f : Quad → Quad) : (s.modQuad c f).parityHold = s.parityHold := rfl
@[simp] theorem State.modQuad_foldHeld (s : State) (c : Nat) (f : Quad → Quad) : (s.modQuad c f).foldHeld = s.foldHeld := rfl
@[simp] theorem State.modQuad_mirrors (s : State) (c : Nat) (f : Quad → Quad) : (s.modQuad c f).mirrors = s.mirrors := rfl
@[simp] theorem State.modWg_cycle (s : State) (h : Nat) (f : Workgroup → Workgroup) : (s.modWg h f).cycle = s.cycle := by
  unfold State.modWg; split <;> rfl
@[simp] theorem State.modWg_sched (s : State) (h : Nat) (f : Workgroup → Workgroup) : (s.modWg h f).sched = s.sched := by
  unfold State.modWg; split <;> rfl
@[simp] theorem State.modWg_cur (s : State) (h : Nat) (f : Workgroup → Workgroup) : (s.modWg h f).cur = s.cur := by
  unfold State.modWg; split <;> rfl
@[simp] theorem State.modWg_fresh (s : State) (h : Nat) (f : Workgroup → Workgroup) : (s.modWg h f).fresh = s.fresh := by
  unfold State.modWg; split <;> rfl
@[simp] theorem State.modWg_mem (s : State) (h : Nat) (f : Workgroup → Workgroup) : (s.modWg h f).mem = s.mem := by
  unfold State.modWg; split <;> rfl
@[simp] theorem State.modWg_l2 (s : State) (h : Nat) (f : Workgroup → Workgroup) : (s.modWg h f).l2 = s.l2 := by
  unfold State.modWg; split <;> rfl
@[simp] theorem State.modWg_dir (s : State) (h : Nat) (f : Workgroup → Workgroup) : (s.modWg h f).dir = s.dir := by
  unfold State.modWg; split <;> rfl
@[simp] theorem State.modWg_homes (s : State) (h : Nat) (f : Workgroup → Workgroup) : (s.modWg h f).homes = s.homes := by
  unfold State.modWg; split <;> rfl
@[simp] theorem State.modWg_msgs (s : State) (h : Nat) (f : Workgroup → Workgroup) : (s.modWg h f).msgs = s.msgs := by
  unfold State.modWg; split <;> rfl
@[simp] theorem State.modWg_arrivals (s : State) (h : Nat) (f : Workgroup → Workgroup) : (s.modWg h f).arrivals = s.arrivals := by
  unfold State.modWg; split <;> rfl
@[simp] theorem State.modWg_highWater (s : State) (h : Nat) (f : Workgroup → Workgroup) : (s.modWg h f).highWater = s.highWater := by
  unfold State.modWg; split <;> rfl
@[simp] theorem State.modWg_lostLines (s : State) (h : Nat) (f : Workgroup → Workgroup) : (s.modWg h f).lostLines = s.lostLines := by
  unfold State.modWg; split <;> rfl
@[simp] theorem State.modWg_cores (s : State) (h : Nat) (f : Workgroup → Workgroup) : (s.modWg h f).cores = s.cores := by
  unfold State.modWg; split <;> rfl
@[simp] theorem State.modWg_quads (s : State) (h : Nat) (f : Workgroup → Workgroup) : (s.modWg h f).quads = s.quads := by
  unfold State.modWg; split <;> rfl
@[simp] theorem State.modWg_dies (s : State) (h : Nat) (f : Workgroup → Workgroup) : (s.modWg h f).dies = s.dies := by
  unfold State.modWg; split <;> rfl
@[simp] theorem State.modWg_pn (s : State) (h : Nat) (f : Workgroup → Workgroup) : (s.modWg h f).pn = s.pn := by
  unfold State.modWg; split <;> rfl
@[simp] theorem State.modWg_nextPn (s : State) (h : Nat) (f : Workgroup → Workgroup) : (s.modWg h f).nextPn = s.nextPn := by
  unfold State.modWg; split <;> rfl
@[simp] theorem State.modWg_pnquota (s : State) (h : Nat) (f : Workgroup → Workgroup) : (s.modWg h f).pnquota = s.pnquota := by
  unfold State.modWg; split <;> rfl
@[simp] theorem State.modWg_bars (s : State) (h : Nat) (f : Workgroup → Workgroup) : (s.modWg h f).bars = s.bars := by
  unfold State.modWg; split <;> rfl
@[simp] theorem State.modWg_queues (s : State) (h : Nat) (f : Workgroup → Workgroup) : (s.modWg h f).queues = s.queues := by
  unfold State.modWg; split <;> rfl
@[simp] theorem State.modWg_launches (s : State) (h : Nat) (f : Workgroup → Workgroup) : (s.modWg h f).launches = s.launches := by
  unfold State.modWg; split <;> rfl
@[simp] theorem State.modWg_nextHandle (s : State) (h : Nat) (f : Workgroup → Workgroup) : (s.modWg h f).nextHandle = s.nextHandle := by
  unfold State.modWg; split <;> rfl
@[simp] theorem State.modWg_lastDie (s : State) (h : Nat) (f : Workgroup → Workgroup) : (s.modWg h f).lastDie = s.lastDie := by
  unfold State.modWg; split <;> rfl
@[simp] theorem State.modWg_dstat (s : State) (h : Nat) (f : Workgroup → Workgroup) : (s.modWg h f).dstat = s.dstat := by
  unfold State.modWg; split <;> rfl
@[simp] theorem State.modWg_dstatLost (s : State) (h : Nat) (f : Workgroup → Workgroup) : (s.modWg h f).dstatLost = s.dstatLost := by
  unfold State.modWg; split <;> rfl
@[simp] theorem State.modWg_rights (s : State) (h : Nat) (f : Workgroup → Workgroup) : (s.modWg h f).rights = s.rights := by
  unfold State.modWg; split <;> rfl
@[simp] theorem State.modWg_dbgQ (s : State) (h : Nat) (f : Workgroup → Workgroup) : (s.modWg h f).dbgQ = s.dbgQ := by
  unfold State.modWg; split <;> rfl
@[simp] theorem State.modWg_halting (s : State) (h : Nat) (f : Workgroup → Workgroup) : (s.modWg h f).halting = s.halting := by
  unfold State.modWg; split <;> rfl
@[simp] theorem State.modWg_dbgstat (s : State) (h : Nat) (f : Workgroup → Workgroup) : (s.modWg h f).dbgstat = s.dbgstat := by
  unfold State.modWg; split <;> rfl
@[simp] theorem State.modWg_revoked (s : State) (h : Nat) (f : Workgroup → Workgroup) : (s.modWg h f).revoked = s.revoked := by
  unfold State.modWg; split <;> rfl
@[simp] theorem State.modWg_ctxbase (s : State) (h : Nat) (f : Workgroup → Workgroup) : (s.modWg h f).ctxbase = s.ctxbase := by
  unfold State.modWg; split <;> rfl
@[simp] theorem State.modWg_reg (s : State) (h : Nat) (f : Workgroup → Workgroup) : (s.modWg h f).reg = s.reg := by
  unfold State.modWg; split <;> rfl
@[simp] theorem State.modWg_flash (s : State) (h : Nat) (f : Workgroup → Workgroup) : (s.modWg h f).flash = s.flash := by
  unfold State.modWg; split <;> rfl
@[simp] theorem State.modWg_mail (s : State) (h : Nat) (f : Workgroup → Workgroup) : (s.modWg h f).mail = s.mail := by
  unfold State.modWg; split <;> rfl
@[simp] theorem State.modWg_zports (s : State) (h : Nat) (f : Workgroup → Workgroup) : (s.modWg h f).zports = s.zports := by
  unfold State.modWg; split <;> rfl
@[simp] theorem State.modWg_peers (s : State) (h : Nat) (f : Workgroup → Workgroup) : (s.modWg h f).peers = s.peers := by
  unfold State.modWg; split <;> rfl
@[simp] theorem State.modWg_out (s : State) (h : Nat) (f : Workgroup → Workgroup) : (s.modWg h f).out = s.out := by
  unfold State.modWg; split <;> rfl
@[simp] theorem State.modWg_slotFrees (s : State) (h : Nat) (f : Workgroup → Workgroup) : (s.modWg h f).slotFrees = s.slotFrees := by
  unfold State.modWg; split <;> rfl
@[simp] theorem State.modWg_tokenQ (s : State) (h : Nat) (f : Workgroup → Workgroup) : (s.modWg h f).tokenQ = s.tokenQ := by
  unfold State.modWg; split <;> rfl
@[simp] theorem State.modWg_rebuilds (s : State) (h : Nat) (f : Workgroup → Workgroup) : (s.modWg h f).rebuilds = s.rebuilds := by
  unfold State.modWg; split <;> rfl
@[simp] theorem State.modWg_parityHold (s : State) (h : Nat) (f : Workgroup → Workgroup) : (s.modWg h f).parityHold = s.parityHold := by
  unfold State.modWg; split <;> rfl
@[simp] theorem State.modWg_foldHeld (s : State) (h : Nat) (f : Workgroup → Workgroup) : (s.modWg h f).foldHeld = s.foldHeld := by
  unfold State.modWg; split <;> rfl
@[simp] theorem State.modWg_mirrors (s : State) (h : Nat) (f : Workgroup → Workgroup) : (s.modWg h f).mirrors = s.mirrors := by
  unfold State.modWg; split <;> rfl
@[simp] theorem State.setGroup_cycle (s : State) (h g : Nat) (x : Group) : (s.setGroup h g x).cycle = s.cycle := by
  simp [State.setGroup]
@[simp] theorem State.setGroup_sched (s : State) (h g : Nat) (x : Group) : (s.setGroup h g x).sched = s.sched := by
  simp [State.setGroup]
@[simp] theorem State.setGroup_cur (s : State) (h g : Nat) (x : Group) : (s.setGroup h g x).cur = s.cur := by
  simp [State.setGroup]
@[simp] theorem State.setGroup_fresh (s : State) (h g : Nat) (x : Group) : (s.setGroup h g x).fresh = s.fresh := by
  simp [State.setGroup]
@[simp] theorem State.setGroup_mem (s : State) (h g : Nat) (x : Group) : (s.setGroup h g x).mem = s.mem := by
  simp [State.setGroup]
@[simp] theorem State.setGroup_l2 (s : State) (h g : Nat) (x : Group) : (s.setGroup h g x).l2 = s.l2 := by
  simp [State.setGroup]
@[simp] theorem State.setGroup_dir (s : State) (h g : Nat) (x : Group) : (s.setGroup h g x).dir = s.dir := by
  simp [State.setGroup]
@[simp] theorem State.setGroup_homes (s : State) (h g : Nat) (x : Group) : (s.setGroup h g x).homes = s.homes := by
  simp [State.setGroup]
@[simp] theorem State.setGroup_msgs (s : State) (h g : Nat) (x : Group) : (s.setGroup h g x).msgs = s.msgs := by
  simp [State.setGroup]
@[simp] theorem State.setGroup_arrivals (s : State) (h g : Nat) (x : Group) : (s.setGroup h g x).arrivals = s.arrivals := by
  simp [State.setGroup]
@[simp] theorem State.setGroup_highWater (s : State) (h g : Nat) (x : Group) : (s.setGroup h g x).highWater = s.highWater := by
  simp [State.setGroup]
@[simp] theorem State.setGroup_lostLines (s : State) (h g : Nat) (x : Group) : (s.setGroup h g x).lostLines = s.lostLines := by
  simp [State.setGroup]
@[simp] theorem State.setGroup_cores (s : State) (h g : Nat) (x : Group) : (s.setGroup h g x).cores = s.cores := by
  simp [State.setGroup]
@[simp] theorem State.setGroup_quads (s : State) (h g : Nat) (x : Group) : (s.setGroup h g x).quads = s.quads := by
  simp [State.setGroup]
@[simp] theorem State.setGroup_dies (s : State) (h g : Nat) (x : Group) : (s.setGroup h g x).dies = s.dies := by
  simp [State.setGroup]
@[simp] theorem State.setGroup_pn (s : State) (h g : Nat) (x : Group) : (s.setGroup h g x).pn = s.pn := by
  simp [State.setGroup]
@[simp] theorem State.setGroup_nextPn (s : State) (h g : Nat) (x : Group) : (s.setGroup h g x).nextPn = s.nextPn := by
  simp [State.setGroup]
@[simp] theorem State.setGroup_pnquota (s : State) (h g : Nat) (x : Group) : (s.setGroup h g x).pnquota = s.pnquota := by
  simp [State.setGroup]
@[simp] theorem State.setGroup_bars (s : State) (h g : Nat) (x : Group) : (s.setGroup h g x).bars = s.bars := by
  simp [State.setGroup]
@[simp] theorem State.setGroup_queues (s : State) (h g : Nat) (x : Group) : (s.setGroup h g x).queues = s.queues := by
  simp [State.setGroup]
@[simp] theorem State.setGroup_launches (s : State) (h g : Nat) (x : Group) : (s.setGroup h g x).launches = s.launches := by
  simp [State.setGroup]
@[simp] theorem State.setGroup_nextHandle (s : State) (h g : Nat) (x : Group) : (s.setGroup h g x).nextHandle = s.nextHandle := by
  simp [State.setGroup]
@[simp] theorem State.setGroup_lastDie (s : State) (h g : Nat) (x : Group) : (s.setGroup h g x).lastDie = s.lastDie := by
  simp [State.setGroup]
@[simp] theorem State.setGroup_dstat (s : State) (h g : Nat) (x : Group) : (s.setGroup h g x).dstat = s.dstat := by
  simp [State.setGroup]
@[simp] theorem State.setGroup_dstatLost (s : State) (h g : Nat) (x : Group) : (s.setGroup h g x).dstatLost = s.dstatLost := by
  simp [State.setGroup]
@[simp] theorem State.setGroup_rights (s : State) (h g : Nat) (x : Group) : (s.setGroup h g x).rights = s.rights := by
  simp [State.setGroup]
@[simp] theorem State.setGroup_dbgQ (s : State) (h g : Nat) (x : Group) : (s.setGroup h g x).dbgQ = s.dbgQ := by
  simp [State.setGroup]
@[simp] theorem State.setGroup_halting (s : State) (h g : Nat) (x : Group) : (s.setGroup h g x).halting = s.halting := by
  simp [State.setGroup]
@[simp] theorem State.setGroup_dbgstat (s : State) (h g : Nat) (x : Group) : (s.setGroup h g x).dbgstat = s.dbgstat := by
  simp [State.setGroup]
@[simp] theorem State.setGroup_revoked (s : State) (h g : Nat) (x : Group) : (s.setGroup h g x).revoked = s.revoked := by
  simp [State.setGroup]
@[simp] theorem State.setGroup_ctxbase (s : State) (h g : Nat) (x : Group) : (s.setGroup h g x).ctxbase = s.ctxbase := by
  simp [State.setGroup]
@[simp] theorem State.setGroup_reg (s : State) (h g : Nat) (x : Group) : (s.setGroup h g x).reg = s.reg := by
  simp [State.setGroup]
@[simp] theorem State.setGroup_flash (s : State) (h g : Nat) (x : Group) : (s.setGroup h g x).flash = s.flash := by
  simp [State.setGroup]
@[simp] theorem State.setGroup_mail (s : State) (h g : Nat) (x : Group) : (s.setGroup h g x).mail = s.mail := by
  simp [State.setGroup]
@[simp] theorem State.setGroup_zports (s : State) (h g : Nat) (x : Group) : (s.setGroup h g x).zports = s.zports := by
  simp [State.setGroup]
@[simp] theorem State.setGroup_peers (s : State) (h g : Nat) (x : Group) : (s.setGroup h g x).peers = s.peers := by
  simp [State.setGroup]
@[simp] theorem State.setGroup_out (s : State) (h g : Nat) (x : Group) : (s.setGroup h g x).out = s.out := by
  simp [State.setGroup]
@[simp] theorem State.setGroup_slotFrees (s : State) (h g : Nat) (x : Group) : (s.setGroup h g x).slotFrees = s.slotFrees := by
  simp [State.setGroup]
@[simp] theorem State.setGroup_tokenQ (s : State) (h g : Nat) (x : Group) : (s.setGroup h g x).tokenQ = s.tokenQ := by
  simp [State.setGroup]
@[simp] theorem State.setGroup_rebuilds (s : State) (h g : Nat) (x : Group) : (s.setGroup h g x).rebuilds = s.rebuilds := by
  simp [State.setGroup]
@[simp] theorem State.setGroup_parityHold (s : State) (h g : Nat) (x : Group) : (s.setGroup h g x).parityHold = s.parityHold := by
  simp [State.setGroup]
@[simp] theorem State.setGroup_foldHeld (s : State) (h g : Nat) (x : Group) : (s.setGroup h g x).foldHeld = s.foldHeld := by
  simp [State.setGroup]
@[simp] theorem State.setGroup_mirrors (s : State) (h g : Nat) (x : Group) : (s.setGroup h g x).mirrors = s.mirrors := by
  simp [State.setGroup]
@[simp] theorem State.modGroup_cycle (s : State) (h g : Nat) (f : Group → Group) : (s.modGroup h g f).cycle = s.cycle := by
  unfold State.modGroup; split <;> simp
@[simp] theorem State.modGroup_sched (s : State) (h g : Nat) (f : Group → Group) : (s.modGroup h g f).sched = s.sched := by
  unfold State.modGroup; split <;> simp
@[simp] theorem State.modGroup_cur (s : State) (h g : Nat) (f : Group → Group) : (s.modGroup h g f).cur = s.cur := by
  unfold State.modGroup; split <;> simp
@[simp] theorem State.modGroup_fresh (s : State) (h g : Nat) (f : Group → Group) : (s.modGroup h g f).fresh = s.fresh := by
  unfold State.modGroup; split <;> simp
@[simp] theorem State.modGroup_mem (s : State) (h g : Nat) (f : Group → Group) : (s.modGroup h g f).mem = s.mem := by
  unfold State.modGroup; split <;> simp
@[simp] theorem State.modGroup_l2 (s : State) (h g : Nat) (f : Group → Group) : (s.modGroup h g f).l2 = s.l2 := by
  unfold State.modGroup; split <;> simp
@[simp] theorem State.modGroup_dir (s : State) (h g : Nat) (f : Group → Group) : (s.modGroup h g f).dir = s.dir := by
  unfold State.modGroup; split <;> simp
@[simp] theorem State.modGroup_homes (s : State) (h g : Nat) (f : Group → Group) : (s.modGroup h g f).homes = s.homes := by
  unfold State.modGroup; split <;> simp
@[simp] theorem State.modGroup_msgs (s : State) (h g : Nat) (f : Group → Group) : (s.modGroup h g f).msgs = s.msgs := by
  unfold State.modGroup; split <;> simp
@[simp] theorem State.modGroup_arrivals (s : State) (h g : Nat) (f : Group → Group) : (s.modGroup h g f).arrivals = s.arrivals := by
  unfold State.modGroup; split <;> simp
@[simp] theorem State.modGroup_highWater (s : State) (h g : Nat) (f : Group → Group) : (s.modGroup h g f).highWater = s.highWater := by
  unfold State.modGroup; split <;> simp
@[simp] theorem State.modGroup_lostLines (s : State) (h g : Nat) (f : Group → Group) : (s.modGroup h g f).lostLines = s.lostLines := by
  unfold State.modGroup; split <;> simp
@[simp] theorem State.modGroup_cores (s : State) (h g : Nat) (f : Group → Group) : (s.modGroup h g f).cores = s.cores := by
  unfold State.modGroup; split <;> simp
@[simp] theorem State.modGroup_quads (s : State) (h g : Nat) (f : Group → Group) : (s.modGroup h g f).quads = s.quads := by
  unfold State.modGroup; split <;> simp
@[simp] theorem State.modGroup_dies (s : State) (h g : Nat) (f : Group → Group) : (s.modGroup h g f).dies = s.dies := by
  unfold State.modGroup; split <;> simp
@[simp] theorem State.modGroup_pn (s : State) (h g : Nat) (f : Group → Group) : (s.modGroup h g f).pn = s.pn := by
  unfold State.modGroup; split <;> simp
@[simp] theorem State.modGroup_nextPn (s : State) (h g : Nat) (f : Group → Group) : (s.modGroup h g f).nextPn = s.nextPn := by
  unfold State.modGroup; split <;> simp
@[simp] theorem State.modGroup_pnquota (s : State) (h g : Nat) (f : Group → Group) : (s.modGroup h g f).pnquota = s.pnquota := by
  unfold State.modGroup; split <;> simp
@[simp] theorem State.modGroup_bars (s : State) (h g : Nat) (f : Group → Group) : (s.modGroup h g f).bars = s.bars := by
  unfold State.modGroup; split <;> simp
@[simp] theorem State.modGroup_queues (s : State) (h g : Nat) (f : Group → Group) : (s.modGroup h g f).queues = s.queues := by
  unfold State.modGroup; split <;> simp
@[simp] theorem State.modGroup_launches (s : State) (h g : Nat) (f : Group → Group) : (s.modGroup h g f).launches = s.launches := by
  unfold State.modGroup; split <;> simp
@[simp] theorem State.modGroup_nextHandle (s : State) (h g : Nat) (f : Group → Group) : (s.modGroup h g f).nextHandle = s.nextHandle := by
  unfold State.modGroup; split <;> simp
@[simp] theorem State.modGroup_lastDie (s : State) (h g : Nat) (f : Group → Group) : (s.modGroup h g f).lastDie = s.lastDie := by
  unfold State.modGroup; split <;> simp
@[simp] theorem State.modGroup_dstat (s : State) (h g : Nat) (f : Group → Group) : (s.modGroup h g f).dstat = s.dstat := by
  unfold State.modGroup; split <;> simp
@[simp] theorem State.modGroup_dstatLost (s : State) (h g : Nat) (f : Group → Group) : (s.modGroup h g f).dstatLost = s.dstatLost := by
  unfold State.modGroup; split <;> simp
@[simp] theorem State.modGroup_rights (s : State) (h g : Nat) (f : Group → Group) : (s.modGroup h g f).rights = s.rights := by
  unfold State.modGroup; split <;> simp
@[simp] theorem State.modGroup_dbgQ (s : State) (h g : Nat) (f : Group → Group) : (s.modGroup h g f).dbgQ = s.dbgQ := by
  unfold State.modGroup; split <;> simp
@[simp] theorem State.modGroup_halting (s : State) (h g : Nat) (f : Group → Group) : (s.modGroup h g f).halting = s.halting := by
  unfold State.modGroup; split <;> simp
@[simp] theorem State.modGroup_dbgstat (s : State) (h g : Nat) (f : Group → Group) : (s.modGroup h g f).dbgstat = s.dbgstat := by
  unfold State.modGroup; split <;> simp
@[simp] theorem State.modGroup_revoked (s : State) (h g : Nat) (f : Group → Group) : (s.modGroup h g f).revoked = s.revoked := by
  unfold State.modGroup; split <;> simp
@[simp] theorem State.modGroup_ctxbase (s : State) (h g : Nat) (f : Group → Group) : (s.modGroup h g f).ctxbase = s.ctxbase := by
  unfold State.modGroup; split <;> simp
@[simp] theorem State.modGroup_reg (s : State) (h g : Nat) (f : Group → Group) : (s.modGroup h g f).reg = s.reg := by
  unfold State.modGroup; split <;> simp
@[simp] theorem State.modGroup_flash (s : State) (h g : Nat) (f : Group → Group) : (s.modGroup h g f).flash = s.flash := by
  unfold State.modGroup; split <;> simp
@[simp] theorem State.modGroup_mail (s : State) (h g : Nat) (f : Group → Group) : (s.modGroup h g f).mail = s.mail := by
  unfold State.modGroup; split <;> simp
@[simp] theorem State.modGroup_zports (s : State) (h g : Nat) (f : Group → Group) : (s.modGroup h g f).zports = s.zports := by
  unfold State.modGroup; split <;> simp
@[simp] theorem State.modGroup_peers (s : State) (h g : Nat) (f : Group → Group) : (s.modGroup h g f).peers = s.peers := by
  unfold State.modGroup; split <;> simp
@[simp] theorem State.modGroup_out (s : State) (h g : Nat) (f : Group → Group) : (s.modGroup h g f).out = s.out := by
  unfold State.modGroup; split <;> simp
@[simp] theorem State.modGroup_slotFrees (s : State) (h g : Nat) (f : Group → Group) : (s.modGroup h g f).slotFrees = s.slotFrees := by
  unfold State.modGroup; split <;> simp
@[simp] theorem State.modGroup_tokenQ (s : State) (h g : Nat) (f : Group → Group) : (s.modGroup h g f).tokenQ = s.tokenQ := by
  unfold State.modGroup; split <;> simp
@[simp] theorem State.modGroup_rebuilds (s : State) (h g : Nat) (f : Group → Group) : (s.modGroup h g f).rebuilds = s.rebuilds := by
  unfold State.modGroup; split <;> simp
@[simp] theorem State.modGroup_parityHold (s : State) (h g : Nat) (f : Group → Group) : (s.modGroup h g f).parityHold = s.parityHold := by
  unfold State.modGroup; split <;> simp
@[simp] theorem State.modGroup_foldHeld (s : State) (h g : Nat) (f : Group → Group) : (s.modGroup h g f).foldHeld = s.foldHeld := by
  unfold State.modGroup; split <;> simp
@[simp] theorem State.modGroup_mirrors (s : State) (h g : Nat) (f : Group → Group) : (s.modGroup h g f).mirrors = s.mirrors := by
  unfold State.modGroup; split <;> simp

/-! ### Reading a part after an update -/

@[simp] theorem State.wg?_setWg_same (s : State) (h : Nat) (w : Workgroup) : (s.setWg h w).wg? h = some w := by
  simp [State.wg?]

theorem State.wg?_setWg_ne (s : State) {h k : Nat} (w : Workgroup) (hk : k ≠ h) : (s.setWg h w).wg? k = s.wg? k := by
  simp [State.wg?, find?_put_ne _ _ hk]

@[simp] theorem Workgroup.group?_setGroup_same (w : Workgroup) (g : Nat) (x : Group) :
    (w.setGroup g x).group? g = some x := by
  simp [Workgroup.group?]

theorem Workgroup.group?_setGroup_ne (w : Workgroup) {g k : Nat} (x : Group) (hk : k ≠ g) :
    (w.setGroup g x).group? k = w.group? k := by
  simp [Workgroup.group?, find?_put_ne _ _ hk]

theorem State.setGroup_eq {s : State} {h : Nat} {w : Workgroup} (hw : s.wg? h = some w) (g : Nat) (x : Group) :
    s.setGroup h g x = s.setWg h (w.setGroup g x) := by
  simp [State.setGroup, State.modWg, hw]

theorem State.group?_of {s : State} {h g : Nat} {w : Workgroup} {x : Group} (hw : s.wg? h = some w)
    (hg : w.group? g = some x) : s.group? h g = some x := by
  simp [State.group?, hw, hg]

theorem State.group?_some {s : State} {h g : Nat} {x : Group} (hx : s.group? h g = some x) :
    ∃ w, s.wg? h = some w ∧ w.group? g = some x := by
  simpa [State.group?, Option.bind_eq_some_iff] using hx

theorem State.wg?_setGroup_same {s : State} {h : Nat} {w : Workgroup} (hw : s.wg? h = some w) (g : Nat) (x : Group) :
    (s.setGroup h g x).wg? h = some (w.setGroup g x) := by
  simp [State.setGroup_eq hw]

theorem State.wg?_setGroup_ne (s : State) {h k : Nat} (g : Nat) (x : Group) (hk : k ≠ h) :
    (s.setGroup h g x).wg? k = s.wg? k := by
  unfold State.setGroup State.modWg
  split
  · rfl
  · exact State.wg?_setWg_ne s _ hk

theorem State.group?_setGroup_same {s : State} {h : Nat} {w : Workgroup} (hw : s.wg? h = some w) (g : Nat)
    (x : Group) : (s.setGroup h g x).group? h g = some x := by
  simp [State.group?, State.wg?_setGroup_same hw]

/-- The other groups keep what they are. -/
theorem State.group?_setGroup_ne (s : State) {h g k j : Nat} (x : Group) (hk : ¬(k = h ∧ j = g)) :
    (s.setGroup h g x).group? k j = s.group? k j := by
  unfold State.group? State.setGroup State.modWg
  cases hw : s.wg? h with
  | none => rfl
  | some w =>
    by_cases h1 : k = h
    · subst h1
      simp [hw, Workgroup.group?_setGroup_ne w x (fun h2 => hk ⟨rfl, h2⟩)]
    · simp [State.wg?_setWg_ne s _ h1]

@[simp] theorem State.setGroup_setGroup (s : State) (h g : Nat) (x y : Group) :
    (s.setGroup h g x).setGroup h g y = s.setGroup h g y := by
  cases hw : s.wg? h with
  | none => simp [State.setGroup, State.modWg, hw]
  | some w =>
    rw [State.setGroup_eq (State.wg?_setGroup_same hw g x), State.setGroup_eq hw, State.setGroup_eq hw]
    simp [State.setWg, Workgroup.setGroup]

theorem State.modGroup_eq {s : State} {h g : Nat} {x : Group} (hx : s.group? h g = some x) (f : Group → Group) :
    s.modGroup h g f = s.setGroup h g (f x) := by
  simp [State.modGroup, hx]

/-- A change after a change is one change. -/
theorem State.modGroup_setGroup {s : State} {h : Nat} {w : Workgroup} (hw : s.wg? h = some w) (g : Nat) (x : Group)
    (f : Group → Group) : (s.setGroup h g x).modGroup h g f = s.setGroup h g (f x) := by
  rw [State.modGroup_eq (State.group?_setGroup_same hw g x)]
  simp

@[simp] theorem State.core_setCore_same (s : State) (c : Nat) (x : Core) : (s.setCore c x).core c = x := by
  simp [State.core]

theorem State.core_setCore_ne (s : State) {c d : Nat} (x : Core) (h : d ≠ c) : (s.setCore c x).core d = s.core d := by
  simp [State.core, look_put_ne _ _ _ h]

@[simp] theorem State.core_modCore_same (s : State) (c : Nat) (f : Core → Core) : (s.modCore c f).core c = f (s.core c) := by
  simp [State.modCore]

@[simp] theorem State.core_setGroup (s : State) (h g : Nat) (x : Group) (c : Nat) : (s.setGroup h g x).core c = s.core c := by
  simp [State.core]

@[simp] theorem State.core_modGroup (s : State) (h g : Nat) (f : Group → Group) (c : Nat) :
    (s.modGroup h g f).core c = s.core c := by
  simp [State.core]

@[simp] theorem State.wg?_modCore (s : State) (c : Nat) (f : Core → Core) (h : Nat) : (s.modCore c f).wg? h = s.wg? h := rfl

@[simp] theorem State.group?_modCore (s : State) (c : Nat) (f : Core → Core) (h g : Nat) :
    (s.modCore c f).group? h g = s.group? h g := rfl

/-! ### Paths and registers of a group -/

theorem Group.path_modPath (gr : Group) (p : Nat) (f : Path → Path) (q : Nat) :
    (gr.modPath p f).path q = if q = p ∧ q < gr.paths.length then f (gr.path q) else gr.path q := by
  unfold Group.path
  simp only [Group.modPath_paths, modAt_getElem?]
  by_cases h : q = p
  · subst h
    by_cases h2 : q < gr.paths.length
    · simp [h2]
    · simp [h2]
  · simp [h]

theorem Group.path_setPath (gr : Group) (p : Nat) (x : Path) (q : Nat) :
    (gr.setPath p x).path q = if q = p ∧ q < gr.paths.length then x else gr.path q :=
  gr.path_modPath p (fun _ => x) q

/-- A path that is not FREE is an entry of the table. -/
theorem Group.path_lt {gr : Group} {p : Nat} (h : (gr.path p).st ≠ .free) : p < gr.paths.length := by
  by_contra h2
  exact h (by simp [Group.path, List.getElem?_eq_none (Nat.le_of_not_lt h2), Path.free])

@[simp] theorem Group.isFull_markFull (gr : Group) (rs : List Reg) (r : Reg) :
    (gr.markFull rs).isFull r = (rs.contains r || gr.isFull r) := by
  by_cases h : r ∈ rs
  · have h1 : rs.contains r = true := by simpa using h
    simp only [Group.isFull, Group.markFull_sb, h1, Bool.true_or, Bool.not_eq_true', List.any_eq_false, List.mem_filter,
      beq_iff_eq]
    rintro e ⟨-, h2⟩ rfl
    simp [h] at h2
  · have h1 : rs.contains r = false := by simpa using h
    simp only [Group.isFull, Group.markFull_sb, h1, Bool.false_or]
    congr 1
    rw [Bool.eq_iff_iff]
    simp only [List.any_eq_true, List.mem_filter, beq_iff_eq]
    constructor
    · rintro ⟨e, ⟨he, -⟩, rfl⟩; exact ⟨e, he, rfl⟩
    · rintro ⟨e, he, rfl⟩; exact ⟨e, ⟨he, by simpa using h⟩, rfl⟩

theorem Group.isFull_markEmpty (gr : Group) (rs : List Reg) (seq pc : Nat) (r : Reg) :
    (gr.markEmpty rs seq pc).isFull r = (!rs.contains r && gr.isFull r) := by
  by_cases h : r ∈ rs
  · have h1 : rs.contains r = true := by simpa using h
    simp only [Group.isFull, Group.markEmpty_sb, h1, Bool.not_true, Bool.false_and, Bool.not_eq_false',
      List.any_append, List.any_map, Bool.or_eq_true]
    left
    simpa [List.any_eq_true] using h
  · have h1 : rs.contains r = false := by simpa using h
    simp only [Group.isFull, Group.markEmpty_sb, h1, Bool.not_false, Bool.true_and]
    congr 1
    rw [Bool.eq_iff_iff]
    simp only [List.any_append, Bool.or_eq_true, List.any_eq_true, List.mem_filter, List.mem_map, beq_iff_eq]
    constructor
    · rintro (⟨e, ⟨a, ha, rfl⟩, rfl⟩ | ⟨e, ⟨he, -⟩, rfl⟩)
      · exact absurd ha h
      · exact ⟨e, he, rfl⟩
    · rintro ⟨e, he, rfl⟩; exact .inr ⟨e, ⟨he, by simpa using h⟩, rfl⟩

end Sys2Proof.Machine
end

