-- ==== Sys2Proof/Laws/Issue.lean ====
section
/-!
SUPPORT. Issuing: who the issuer is, what a common check leads to, and what an instruction that completes, is handed
on or is held leaves of the state.
-/
namespace Sys2Proof.Machine

/-! ### The issuer -/

/-- An issuer that goes on stands in the state as its workgroup, its group and its path or access processor, and may
issue. -/
theorem State.issuer_go {s : State} {y : Iss} (h : s.issuer = .go y) :
    y.s = s ∧ s.wg? y.h = some y.w ∧ y.w.group? y.g = some y.gr ∧ y.q = [] ∧
    (if y.ap then s.cur = .ap y.h y.g ∧ s.apRuns y.w y.gr = true ∧ y.p = apPath ∧ y.m = 1 ∧ y.x = 1 ∧ y.pc = y.gr.ap.pc
     else s.cur = .path y.h y.g y.p ∧ s.pathRuns y.w y.gr y.p = true ∧ y.m = (y.gr.path y.p).mask
      ∧ y.x = (y.gr.path y.p).mask ∧ y.pc = (y.gr.path y.p).pc) := by
  unfold State.issuer at h
  split at h
  · cases h
  · rename_i h' g' p' hcur
    split at h
    · cases h
    · rename_i w hw
      split at h
      · cases h
      · rename_i gr hg
        split at h
        · rename_i hr
          cases h
          simp [hw, hg, hr, hcur]
        · cases h
  · rename_i h' g' hcur
    split at h
    · cases h
    · rename_i w hw
      split at h
      · cases h
      · rename_i gr hg
        split at h
        · rename_i hr
          cases h
          simp [hw, hg, hr, hcur]
        · cases h

/-- A path that may issue is an entry of its group's table, and is not FREE. -/
theorem State.pathRuns_path {s : State} {w : Workgroup} {gr : Group} {p : Nat} (h : s.pathRuns w gr p = true) :
    (gr.path p).st ≠ .free ∧ p < gr.paths.length := by
  have h1 : (gr.path p).st ≠ .free := by
    intro h2
    simp [State.pathRuns, Path.atBoundary, h2] at h
  exact ⟨h1, Group.path_lt h1⟩

theorem State.apRuns_running {s : State} {w : Workgroup} {gr : Group} (h : s.apRuns w gr = true) :
    gr.ap.st = .running := by
  simp only [State.apRuns, Bool.and_eq_true, beq_iff_eq] at h
  exact h.1.2

/-! ### A path that has issued -/

@[simp] theorem Iss.issued_st (x : Iss) (i : Instr) (q : Path) : (x.issued i q).st = q.st := by
  unfold Iss.issued; split <;> rfl
@[simp] theorem Iss.issued_pc (x : Iss) (i : Instr) (q : Path) : (x.issued i q).pc = q.pc := by
  unfold Iss.issued; split <;> rfl
@[simp] theorem Iss.issued_mask (x : Iss) (i : Instr) (q : Path) : (x.issued i q).mask = q.mask := by
  unfold Iss.issued; split <;> rfl
@[simp] theorem Iss.issued_token (x : Iss) (i : Instr) (q : Path) : (x.issued i q).token = q.token := by
  unfold Iss.issued; split <;> rfl
@[simp] theorem Iss.issued_origin (x : Iss) (i : Instr) (q : Path) : (x.issued i q).origin = q.origin := by
  unfold Iss.issued; split <;> rfl
@[simp] theorem Iss.issued_stack (x : Iss) (i : Instr) (q : Path) : (x.issued i q).stack = q.stack := by
  unfold Iss.issued; split <;> rfl
@[simp] theorem Iss.issued_spilled (x : Iss) (i : Instr) (q : Path) : (x.issued i q).spilled = q.spilled := by
  unfold Iss.issued; split <;> rfl
@[simp] theorem Iss.issued_gone (x : Iss) (i : Instr) (q : Path) : (x.issued i q).gone = q.gone := by
  unfold Iss.issued; split <;> rfl
@[simp] theorem Iss.issued_fbuf (x : Iss) (i : Instr) (q : Path) : (x.issued i q).fbuf = q.fbuf := by
  unfold Iss.issued; split <;> rfl
@[simp] theorem Iss.issued_wait (x : Iss) (i : Instr) (q : Path) : (x.issued i q).wait = q.wait := by
  unfold Iss.issued; split <;> rfl
@[simp] theorem Iss.issued_hold (x : Iss) (i : Instr) (q : Path) : (x.issued i q).hold = q.hold := by
  unfold Iss.issued; split <;> rfl
@[simp] theorem Iss.issued_retry (x : Iss) (i : Instr) (q : Path) : (x.issued i q).retry = q.retry := by
  unfold Iss.issued; split <;> rfl
@[simp] theorem Iss.issued_fenceAt (x : Iss) (i : Instr) (q : Path) : (x.issued i q).fenceAt = q.fenceAt := by
  unfold Iss.issued; split <;> rfl
@[simp] theorem Iss.issued_slotted (x : Iss) (i : Instr) (q : Path) : (x.issued i q).slotted = q.slotted := by
  unfold Iss.issued; split <;> rfl
@[simp] theorem Iss.issued_stepOnce (x : Iss) (i : Instr) (q : Path) : (x.issued i q).stepOnce = false := by
  unfold Iss.issued; split <;> rfl

/-! ### Flags -/

/-- The flags of a lane after some are raised: those it had, with every one raised in it. -/
theorem Group.raiseFlags_lane (gr : Group) (fl : List (Nat × Word)) (hfl : ∀ e ∈ fl, e.1 < 32) {l : Nat} (hl : l < 32) :
    (gr.raiseFlags fl).sr.xflags.lane l = gr.sr.xflags.lane l |||
      ((fl.filter fun e => e.1 == l).map (·.2)).foldl (· ||| ·) 0 := by
  have key : ∀ (fl : List (Nat × Word)) (r : Row), (∀ e ∈ fl, e.1 < 32) →
      (fl.foldl (fun (r : Row) e => r.setLane e.1 (r.lane e.1 ||| e.2)) r).lane l
        = ((fl.filter fun e => e.1 == l).map (·.2)).foldl (· ||| ·) (r.lane l) := by
    intro fl
    induction fl with
    | nil => intro r _; rfl
    | cons e fl ih =>
      intro r h
      have he := h e (by simp)
      rw [List.foldl_cons, ih _ (fun a ha => h a (by simp [ha])), Row.setLane_lane _ _ hl he]
      by_cases h2 : e.1 = l
      · subst h2; simp
      · have : l ≠ e.1 := fun h => h2 h.symm
        simp [h2, this]
  simp only [Group.raiseFlags, Row.lane_or, flagRow, key fl 0 hfl, Row.lane_zero]

theorem Group.enabledFlags_quiet {gr : Group} (h : gr.sr.trapen &&& 0x3F = 0) (fl : List (Nat × Word)) :
    (gr.enabledFlags fl).2 = 0 := by
  have : fl.filter (fun e => e.2 &&& gr.sr.trapen &&& 0x3F != 0) = [] := by
    rw [List.filter_eq_nil_iff]
    intro e _
    have : e.2 &&& gr.sr.trapen &&& 0x3F = 0 := by rw [BitVec.and_assoc, h]; simp
    simpa using this
  simp only [Group.enabledFlags, this]
  rfl

/-! ### Completion in order -/

@[simp] theorem State.appendAsh_nil (s : State) (h g pc : Nat) : s.appendAsh h g pc [] = .ok (s, []) := rfl

/-- An instruction without ash records that raises no enabled flag completes: its group alone changes. -/
theorem Iss.complete_quiet {x : Iss} {w : Workgroup} (hw : x.s.wg? x.h = some w) (i : Instr) (gr : Group)
    (fl : List (Nat × Word)) (hq : gr.sr.trapen &&& 0x3F = 0) :
    x.complete i gr fl [] = x.s.setGroup x.h x.g
      (x.onward i ((({ gr with ports := (x.popped i).ports } : Group).markFull (x.dstRegs i)).raiseFlags fl)) := by
  have h2 : ∀ g : Group, g.sr.trapen = gr.sr.trapen → (g.enabledFlags fl).2 = 0 := fun g hg =>
    Group.enabledFlags_quiet (by rw [hg]; exact hq) fl
  simp only [Iss.complete, State.appendAsh_nil, List.isEmpty_nil, Bool.not_true, Bool.false_and, Bool.false_eq_true,
    if_false, List.append_nil]
  rw [State.modGroup_setGroup hw]
  have h3 := h2 (({ gr with ports := (x.popped i).ports } : Group).markFull (x.dstRegs i)) rfl
  simp only [h3, beq_self_eq_true, if_true]
  rw [State.modGroup_setGroup hw]

/-- An instruction that raises no flag completes likewise. -/
theorem Iss.complete_calm {x : Iss} {w : Workgroup} (hw : x.s.wg? x.h = some w) (i : Instr) (gr : Group) :
    x.complete i gr [] [] = x.s.setGroup x.h x.g
      (x.onward i ((({ gr with ports := (x.popped i).ports } : Group).markFull (x.dstRegs i)).raiseFlags [])) := by
  simp only [Iss.complete, State.appendAsh_nil, List.isEmpty_nil, Bool.not_true, Bool.false_and, Bool.false_eq_true,
    if_false, List.append_nil]
  rw [State.modGroup_setGroup hw]
  have h3 : ∀ g : Group, (g.enabledFlags []).2 = 0 := fun g => rfl
  simp only [h3, beq_self_eq_true, if_true]
  rw [State.modGroup_setGroup hw]

theorem Group.raiseFlags_nil (gr : Group) : gr.raiseFlags [] = gr := by
  have : gr.sr.xflags ||| flagRow [] = gr.sr.xflags := by simp [flagRow]
  simp only [Group.raiseFlags, this]

end Sys2Proof.Machine
end

