-- ==== Sys2Proof/Laws/Integer.lean ====
section
/-!
SUPPORT. What the shared integer operations compute, in the words of the statements: exact values modulo 2^w or clamped, and
results given bit by bit.
-/
open Sys2Proof Sys2Proof.Machine
namespace Sys2Proof.Machine

theorem regWords_length (t : Ty) (v : Nat) : (regWords t v).length = t.regs := by
  unfold regWords Ty.regs; split <;> rfl

theorem satInt_clamped (t : Ty) (sat : Bool) (v : Int) : Clamped t sat v (satInt t sat v).words (satInt t sat v).fl := by
  have hlh : t.lo ≤ t.hi := by cases t <;> decide
  unfold Clamped satInt
  cases sat
  · simp
  · simp only [Bool.true_and, decide_eq_true_eq, if_true]
    split
    · have h1 : min t.hi v = v := by omega
      have h2 : max t.lo v = t.lo := by omega
      have h3 : ¬ (t.lo ≤ v) := by omega
      simp [h1, h2, h3]
    · split
      · have h1 : min t.hi v = t.hi := by omega
        have h2 : max t.lo t.hi = t.hi := by omega
        have h3 : ¬ (v ≤ t.hi) := by omega
        simp [h1, h2, h3]
      · have h1 : min t.hi v = v := by omega
        have h2 : max t.lo v = v := by omega
        have h3 : (t.lo ≤ v) := by omega
        have h4 : (v ≤ t.hi) := by omega
        simp [h1, h2, h3, h4]

theorem wrapTo_lt (n : Nat) (v : Int) : wrapTo n v < 2 ^ n := by
  unfold wrapTo
  have h : (0:Int) < (2 ^ n : Nat) := by positivity
  have := Int.emod_lt_of_pos v h
  have := Int.emod_nonneg v (ne_of_gt h)
  omega

theorem int_lt (x : Iss) (t : Ty) (f : Nat) (o : Opnd) (l : Nat) : x.int t f o l < 2 ^ t.bits := by
  unfold Iss.int
  have h : 0 < 2 ^ t.bits := by positivity
  split
  · exact wrapTo_lt _ _
  · split
    · exact wrapTo_lt _ _
    · exact Nat.mod_lt _ h
  · split
    · exact Nat.mod_lt _ h
    · exact Nat.mod_lt _ h

theorem bitsAre_of {t : Ty} {f : Nat → Bool} {v : Nat} (h1 : v < 2 ^ t.bits) (h2 : ∀ i < t.bits, v.testBit i = f i) :
    BitsAre t f (plainInt t v).words (plainInt t v).fl := ⟨⟨v, h1, h2, rfl⟩, rfl⟩

theorem shl_clamped (t : Ty) (sat : Bool) (a : Int) (n : Nat) : Clamped t sat (a * 2 ^ n) (shlLane t sat a n).words (shlLane t sat a n).fl := by
  unfold shlLane
  split
  · exact satInt_clamped _ _ _
  · rename_i hn
    have hlo : -(2:Int) ^ t.bits < t.lo ∧ t.lo ≤ 0 := by cases t <;> decide
    have hhi : t.hi < (2:Int) ^ t.bits ∧ 0 ≤ t.hi := by cases t <;> decide
    have hp : (2:Int) ^ t.bits ≤ 2 ^ n := pow_le_pow_right₀ (by norm_num) (by omega)
    have hp0 : (0:Int) < 2 ^ t.bits := by positivity
    unfold Clamped
    rcases lt_trichotomy a 0 with ha | ha | ha
    · have h1 : a * 2 ^ n < t.lo := by nlinarith
      cases sat
      · simp only [Bool.false_and, Bool.false_eq_true, if_false]
        refine ⟨?_, rfl⟩
        have : wrapTo t.bits (a * 2 ^ n) = 0 := by
          unfold wrapTo
          have : a * 2 ^ n % ((2 ^ t.bits : Nat) : Int) = 0 := by
            apply Int.emod_eq_zero_of_dvd
            push_cast
            exact Dvd.dvd.mul_left (pow_dvd_pow 2 (by omega)) a
          rw [this]; rfl
        rw [this]; rfl
      · have h2 : min t.hi (a * 2 ^ n) = a * 2 ^ n := by omega
        have h3 : max t.lo (a * 2 ^ n) = t.lo := by omega
        have h4 : ¬ t.lo ≤ a * 2 ^ n := by omega
        simp [ha, h2, h3, h4]
    · subst ha
      have h5 : t.lo ≤ 0 := hlo.2
      have h6 : 0 ≤ t.hi := hhi.2
      have h7 : max t.lo (min t.hi 0) = 0 := by omega
      have h8 : wrapTo t.bits 0 = 0 := by simp [wrapTo]
      cases sat <;> simp [h5, h6, h7, h8, plainInt]
    · have h1 : t.hi < a * 2 ^ n := by nlinarith
      cases sat
      · simp only [Bool.false_and, Bool.false_eq_true, if_false]
        refine ⟨?_, rfl⟩
        have : wrapTo t.bits (a * 2 ^ n) = 0 := by
          unfold wrapTo
          have : a * 2 ^ n % ((2 ^ t.bits : Nat) : Int) = 0 := by
            apply Int.emod_eq_zero_of_dvd
            push_cast
            exact Dvd.dvd.mul_left (pow_dvd_pow 2 (by omega)) a
          rw [this]; rfl
        rw [this]; rfl
      · have h2 : min t.hi (a * 2 ^ n) = t.hi := by omega
        have h3 : max t.lo t.hi = t.hi := by omega
        have h4 : ¬ a * 2 ^ n ≤ t.hi := by omega
        have h5 : ¬ a < 0 := by omega
        simp [ha, h2, h3, h4, h5]

theorem ival_unsigned (x : Iss) (t : Ty) (f o l) (h : t.signed = false) : x.ival t f o l = (x.int t f o l : Int) := by
  unfold Iss.ival Ty.intOf
  simp [h, Nat.mod_eq_of_lt (int_lt x t f o l)]

theorem div_divided (t : Ty) (rem : Bool) (a b : Int) : Divided t rem a b (divLane t rem a b).words (divLane t rem a b).fl := by
  unfold Divided divLane divInt
  by_cases hb : b = 0
  · subst hb
    simp only [beq_self_eq_true, if_true]
    cases rem
    · refine ⟨?_, trivial⟩
      have : wrapTo t.bits (if t.signed = true then -1 else t.hi) = 2 ^ t.bits - 1 := by cases t <;> decide
      simp [this]
    · simp
  · have hb' : (b == 0) = false := by simpa using hb
    simp only [hb, hb', Bool.false_eq_true, if_false]
    by_cases hc : t.signed = true ∧ a = t.lo ∧ b = -1
    · obtain ⟨h1, h2, h3⟩ := hc
      subst h2 h3
      simp only [h1, beq_self_eq_true, Bool.and_self, if_true, and_self]
      have h8 : wrapTo t.bits 0 = 0 := by simp [wrapTo]
      cases rem <;> simp [h8]
    · have hc' : (t.signed && a == t.lo && b == -1) = false := by
        rw [Bool.eq_false_iff]; intro h; simp at h; exact hc ⟨h.1.1, h.1.2, h.2⟩
      simp only [hc, hc', Bool.false_eq_true, if_false]
      refine ⟨a.tdiv b, a - a.tdiv b * b, by ring, ?_, ?_, ?_, rfl, trivial⟩
      · have : a - a.tdiv b * b = a.tmod b := by rw [Int.tmod_def]; ring
        rw [this, Int.natAbs_tmod]
        exact Nat.mod_lt _ (by omega)
      · intro h
        have : a - a.tdiv b * b = a.tmod b := by rw [Int.tmod_def]; ring
        rw [this] at h
        by_contra h2
        have h4 : a.tmod b = -((-a).tmod b) := by rw [Int.neg_tmod]; ring
        have := Int.tmod_nonneg b (a := -a) (by omega)
        omega
      · intro h
        have : a - a.tdiv b * b = a.tmod b := by rw [Int.tmod_def]; ring
        rw [this] at h
        by_contra h2
        have := Int.tmod_nonneg b (a := a) (by omega)
        omega

def ib (v : Int) (i : Nat) : Bool := decide ((v / 2 ^ i) % 2 = 1)

theorem ib_add_mul (v q : Int) {i n : Nat} (h : i < n) : ib (v + 2 ^ n * q) i = ib v i := by
  unfold ib
  obtain ⟨k, rfl⟩ : ∃ k, n = i + (k + 1) := ⟨n - i - 1, by omega⟩
  have : (v + 2 ^ (i + (k + 1)) * q) / 2 ^ i = v / 2 ^ i + 2 * (2 ^ k * q) := by
    have e : (2:Int) ^ (i + (k + 1)) * q = 2 ^ i * (2 * (2 ^ k * q)) := by ring
    rw [e, Int.add_mul_ediv_left _ _ (by positivity)]
  rw [this]
  have : (v / 2 ^ i + 2 * (2 ^ k * q)) % 2 = v / 2 ^ i % 2 := by omega
  rw [this]

theorem ib_nat (x i : Nat) : ib (x : Int) i = x.testBit i := by
  unfold ib
  rw [Nat.testBit_eq_decide_div_mod_eq]
  have : ((x : Int) / 2 ^ i) % 2 = ((x / 2 ^ i % 2 : Nat) : Int) := by push_cast; rfl
  rw [this]
  congr 1
  rw [eq_iff_iff]; omega

theorem testBit_wrapTo (n : Nat) (v : Int) (i : Nat) : (wrapTo n v).testBit i = (decide (i < n) && ib v i) := by
  by_cases h : i < n
  · simp only [h, decide_true, Bool.true_and]
    rw [← ib_nat]
    have h0 : (0:Int) < (2 ^ n : Nat) := by positivity
    have : ((wrapTo n v : Nat) : Int) = v % (2^n : Nat) := by
      unfold wrapTo; exact Int.toNat_of_nonneg (Int.emod_nonneg v (ne_of_gt h0))
    rw [this]
    have e : v = v % (2^n : Nat) + 2 ^ n * (v / (2^n : Nat)) := by
      have := Int.emod_add_mul_ediv v (2^n : Nat); push_cast at this ⊢; linarith
    conv_rhs => rw [e, ib_add_mul _ _ h]
  · simp only [h, decide_false, Bool.false_and]
    exact Nat.testBit_lt_two_pow (lt_of_lt_of_le (wrapTo_lt n v) (Nat.pow_le_pow_right (by norm_num) (by omega)))

theorem ib_div (v : Int) (k i : Nat) : ib (v / 2 ^ k) i = ib v (k + i) := by
  unfold ib
  rw [Int.ediv_ediv_of_nonneg (by positivity), ← pow_add]

theorem ib_signExt {w x : Nat} (hw : 0 < w) (hx : x < 2 ^ w) (i : Nat) : ib (signExt w x) i = x.testBit (min i (w - 1)) := by
  unfold signExt
  rw [Nat.mod_eq_of_lt hx]
  obtain ⟨w, rfl⟩ : ∃ k, w = k + 1 := ⟨w - 1, by omega⟩
  simp only [Nat.add_sub_cancel]
  have hp : (2:Nat) ^ (w + 1) = 2 * 2 ^ w := by ring
  by_cases hi : i ≤ w
  · rw [min_eq_left hi]
    split
    · exact ib_nat _ _
    · have : (x : Int) - (2 ^ (w+1) : Nat) = x + 2 ^ (w+1) * (-1) := by push_cast; ring
      rw [this, ib_add_mul _ _ (by omega), ib_nat]
  · rw [min_eq_right (by omega)]
    split
    · rename_i h
      rw [ib_nat, Nat.testBit_lt_two_pow h,
          Nat.testBit_lt_two_pow (lt_of_lt_of_le h (Nat.pow_le_pow_right (by norm_num) (by omega)))]
    · rename_i h
      have h1 : x.testBit w = true := by
        rw [Nat.testBit_eq_decide_div_mod_eq]
        have : x / 2 ^ w = 1 := by
          apply Nat.div_eq_of_lt_le <;> omega
        simp [this]
      rw [h1]
      unfold ib
      have h2 : ((x : Int) - (2 ^ (w+1) : Nat)) / 2 ^ i = -1 := by
        have hle : (2:Nat) ^ (w+1) ≤ 2 ^ i := Nat.pow_le_pow_right (by norm_num) (by omega)
        have hle' : ((2:Nat) ^ (w+1) : Int) ≤ 2 ^ i := by exact_mod_cast hle
        have hx' : (x : Int) < (2:Nat)^(w+1) := by exact_mod_cast hx
        push_cast at *
        rw [Int.ediv_eq_iff_of_pos (by positivity)]
        constructor <;> omega
      rw [h2]; rfl

theorem ib_ival (x : Iss) (t : Ty) (f : Nat) (o : Opnd) (l i : Nat) : ib (t.intOf (x.int t f o l)) i =
    if t.signed then (x.int t f o l).testBit (min i (t.bits - 1)) else (x.int t f o l).testBit i := by
  unfold Ty.intOf
  have := int_lt x t f o l
  split
  · exact ib_signExt (by cases t <;> decide) this i
  · rw [Nat.mod_eq_of_lt this]; exact ib_nat _ _

theorem lt_of_testBit {n v : Nat} (h : ∀ i, n ≤ i → v.testBit i = false) : v < 2 ^ n := by
  by_contra hc
  obtain ⟨i, hi, hb⟩ := Nat.exists_ge_and_testBit_of_ge_two_pow (Nat.le_of_not_lt hc)
  rw [h i hi] at hb; cases hb

theorem shr_bits (t : Ty) {a : Nat} (ha : a < 2 ^ t.bits) (n : Nat) :
    BitsAre t (fun i => a.testBit (i + n)) (plainInt t (if n < t.bits then a / 2 ^ n else 0)).words (plainInt t (if n < t.bits then a / 2 ^ n else 0)).fl := by
  apply bitsAre_of
  · split
    · exact lt_of_le_of_lt (Nat.div_le_self _ _) ha
    · positivity
  · intro i hi
    split
    · rw [Nat.testBit_div_two_pow]
    · rename_i h
      rw [Nat.zero_testBit]
      exact (Nat.testBit_lt_two_pow (lt_of_lt_of_le ha (Nat.pow_le_pow_right (by norm_num) (by omega)))).symm

theorem shra_bits (t : Ty) {a : Nat} (ha : a < 2 ^ t.bits) (n : Nat) :
    BitsAre t (fun i => a.testBit (min (i + n) (t.bits - 1))) (plainInt t (wrapTo t.bits (signExt t.bits a / (2 : Int) ^ min n t.bits))).words (plainInt t (wrapTo t.bits (signExt t.bits a / (2 : Int) ^ min n t.bits))).fl := by
  have hw : 0 < t.bits := by cases t <;> decide
  apply bitsAre_of (wrapTo_lt _ _)
  intro i hi
  rw [testBit_wrapTo]
  simp only [hi, decide_true, Bool.true_and, ib_div]
  rw [ib_signExt hw ha]
  congr 1
  omega

theorem add_eq_or : ∀ (a b : Nat), a &&& b = 0 → a + b = a ||| b := by
  intro a
  induction a using Nat.strongRecOn with
  | ind a ih =>
    intro b h
    by_cases h0 : a = 0
    · subst h0; simp
    · have h1 : a / 2 &&& b / 2 = 0 := by rw [← Nat.and_div_two, h]
      have h2 := ih (a / 2) (by omega) (b / 2) h1
      have h3 : (a ||| b) / 2 = a / 2 ||| b / 2 := Nat.or_div_two
      have h4 : (a &&& b) % 2 = 0 := by rw [h]
      have h5 := @Nat.or_mod_two_eq_one a b
      have h6 := @Nat.and_mod_two_eq_one a b
      omega

theorem brev_bits (t : Ty) (a : Nat) :
    BitsAre t (fun i => a.testBit (t.bits - 1 - i)) (plainInt t (bitRev t.bits a)).words (plainInt t (bitRev t.bits a)).fl := by
  have key : ∀ n, n ≤ t.bits →
      let s := (((List.range n).map fun i => if a.testBit i then 2 ^ (t.bits - 1 - i) else 0).sum)
      s < 2 ^ t.bits ∧ (∀ i,
          s.testBit i = (decide (i < t.bits) && decide (t.bits - n ≤ i) && a.testBit (t.bits - 1 - i))) := by
    intro n
    induction n with
    | zero => intro _; refine ⟨by simp, ?_⟩; intro i; simp
    | succ n ih =>
      intro hn
      obtain ⟨h1, h2⟩ := ih (by omega)
      simp only [List.range_succ, List.map_append, List.map_cons, List.map_nil, List.sum_append, List.sum_cons,
          List.sum_nil, Nat.add_zero]
      generalize hs : (((List.range n).map fun i => if a.testBit i then 2 ^ (t.bits - 1 - i) else 0).sum) = s at h1 h2
      have hdis : s &&& (if a.testBit n then 2 ^ (t.bits - 1 - n) else 0) = 0 := by
        apply Nat.eq_of_testBit_eq
        intro i
        rw [Nat.testBit_and, h2]
        split
        · rw [Nat.testBit_two_pow]
          by_cases h : t.bits - 1 - n = i
          · have : ¬ (t.bits - n ≤ i) := by omega
            simp [this]
          · simp [h]
        · simp
      have hor : s + (if a.testBit n then 2 ^ (t.bits - 1 - n) else 0) = s ||| (if a.testBit n then 2 ^ (t.bits - 1 - n) else 0) := add_eq_or _ _ hdis
      have hb : ∀ i,
          (s + (if a.testBit n then 2 ^ (t.bits - 1 - n) else 0)).testBit i = (decide (i < t.bits) && decide (t.bits - (n+1) ≤ i) && a.testBit (t.bits - 1 - i)) := by
        intro i
        rw [hor, Nat.testBit_or, h2]
        have : (if a.testBit n = true then 2 ^ (t.bits - 1 - n) else 0).testBit i = (decide (t.bits - 1 - n = i) && a.testBit n) := by
          split
          · rename_i h; rw [Nat.testBit_two_pow, h]; simp
          · rename_i h; simp [h]
        rw [this]
        by_cases h : t.bits - 1 - n = i
        · have e : t.bits - 1 - i = n := by omega
          have e2 : ¬ t.bits - n ≤ i := by omega
          have e3 : t.bits - (n+1) ≤ i := by omega
          have e4 : i < t.bits := by omega
          simp [h, e, e2, e3, e4]
        · have e3 : decide (t.bits - (n+1) ≤ i) = decide (t.bits - n ≤ i) := by
            rw [decide_eq_decide]; omega
          simp only [h, e3, decide_false, Bool.false_and, Bool.or_false]
      refine ⟨?_, hb⟩
      apply lt_of_testBit
      intro i hi
      rw [hb]
      have : ¬ i < t.bits := by omega
      simp [this]
  obtain ⟨h1, h2⟩ := key t.bits le_rfl
  apply bitsAre_of h1
  intro i hi
  have : bitRev t.bits a = (((List.range t.bits).map fun i => if a.testBit i then 2 ^ (t.bits - 1 - i) else 0).sum) := rfl
  rw [h2]
  simp [hi]

theorem bfi_bits (t : Ty) {b : Nat} (hb : b < 2 ^ t.bits) (a c : Nat) :
   BitsAre t (fun i => if c % 256 ≤ i ∧
       i < c % 256 + min (c / 256 % 256) t.bits then a.testBit (i - c % 256) else b.testBit i)
     (plainInt t (bfiLane t a b c)).words (plainInt t (bfiLane t a b c)).fl := by
  unfold bfiLane
  generalize hp : c % 256 = pos
  generalize hl : min (c / 256 % 256) t.bits = len
  have hm : ∀ i,
      ((2 ^ len - 1) * 2 ^ pos % 2 ^ t.bits).testBit i = (decide (i < t.bits) && (decide (pos ≤ i) && decide (i < pos + len))) := by
    intro i
    rw [Nat.testBit_mod_two_pow, Nat.testBit_mul_two_pow, Nat.testBit_two_pow_sub_one]
    by_cases h : pos ≤ i
    · have : decide (i - pos < len) = decide (i < pos + len) := by rw [decide_eq_decide]; omega
      simp only [h, decide_true, Bool.true_and, this]
    · simp [h]
  simp only
  set m := (2 ^ len - 1) * 2 ^ pos % 2 ^ t.bits with hmm
  have hml : m < 2 ^ t.bits := Nat.mod_lt _ (by positivity)
  have hval : ∀ i,
      ((b &&& (2 ^ t.bits - 1 - m)) ||| (a * 2 ^ pos % 2 ^ t.bits &&& m)).testBit i = (decide (i < t.bits) && if pos ≤ i ∧ i < pos + len then a.testBit (i - pos) else b.testBit i) := by
    intro i
    have : 2 ^ t.bits - 1 - m = 2 ^ t.bits - (m + 1) := by omega
    rw [Nat.testBit_or, Nat.testBit_and, Nat.testBit_and, this, Nat.testBit_two_pow_sub_succ hml, hm,
        Nat.testBit_mod_two_pow, Nat.testBit_mul_two_pow]
    by_cases h1 : i < t.bits <;> by_cases h2 : pos ≤ i <;> by_cases h3 : i < pos + len <;> simp [h1, h2, h3]
  refine bitsAre_of ?_ ?_
  · apply lt_of_testBit
    intro i hi
    rw [hval]
    have : ¬ i < t.bits := by omega
    simp [this]
  · intro i hi
    rw [hval]; simp [hi]

theorem bfe_bits (x : Iss) (t : Ty) (f : Nat) (o : Opnd) (l pos len : Nat) :
   let src := fun i => if t.signed then (x.int t f o l).testBit (min i (t.bits - 1)) else (x.int t f o l).testBit i
   BitsAre t (fun i => if i < min len t.bits then src (pos + i) else t.signed && decide (0 < min len t.bits) && src (pos + (min len t.bits - 1)))
     (plainInt t (bfeLane t (x.int t f o l) pos len)).words (plainInt t (bfeLane t (x.int t f o l) pos len)).fl := by
  intro src
  have hsrc : ∀ i, ib (t.intOf (x.int t f o l)) i = src i := fun i => ib_ival x t f o l i
  unfold bfeLane
  generalize hn : min len t.bits = n
  have hnb : n ≤ t.bits := by omega
  simp only [beq_iff_eq]
  by_cases h0 : n = 0
  · simp only [h0, if_true]
    apply bitsAre_of (by positivity)
    intro i _
    simp
  · simp only [h0, if_false]
    have h1 : ∀ i,
        (wrapTo n (t.intOf (x.int t f o l) / (2:Int) ^ pos)).testBit i = (decide (i < n) && src (pos + i)) := by
      intro i; rw [testBit_wrapTo, ib_div, hsrc]
    split
    · rename_i hs
      apply bitsAre_of (wrapTo_lt _ _)
      intro i hi
      rw [testBit_wrapTo, ib_signExt (by omega) (wrapTo_lt _ _), h1]
      by_cases h2 : i < n
      · have : min i (n - 1) = i := by omega
        simp [hi, this, h2]
      · have : min i (n - 1) = n - 1 := by omega
        have h3 : n - 1 < n := by omega
        have h4 : 0 < n := by omega
        simp [hi, this, h2, h3, hs, h4]
    · rename_i hs
      apply bitsAre_of
      · exact lt_of_lt_of_le (wrapTo_lt _ _) (Nat.pow_le_pow_right (by norm_num) hnb)
      · intro i hi
        rw [h1]
        by_cases h2 : i < n <;> simp [h2, hs]

theorem clz_spec {w a : Nat} (ha : a < 2 ^ w) : leadZeros w a ≤ w ∧ (∀ j < leadZeros w a,
    a.testBit (w - 1 - j) = false) ∧
    (leadZeros w a < w → a.testBit (w - 1 - leadZeros w a) = true) := by
  unfold leadZeros
  rw [Nat.mod_eq_of_lt ha]
  unfold bitLen
  split
  · rename_i h; subst h; simp
  · rename_i h
    have hl : Nat.log2 a < w := (Nat.log2_lt h).2 ha
    have h2 := Nat.testBit_log2 h
    refine ⟨by omega, ?_, ?_⟩
    · intro j hj
      apply Nat.testBit_lt_two_pow
      exact (Nat.log2_lt h).1 (by omega)
    · intro _
      have : w - 1 - (w - (Nat.log2 a + 1)) = Nat.log2 a := by omega
      rw [this]; exact h2

theorem not_bits (t : Ty) {a : Nat} (ha : a < 2 ^ t.bits) : BitsAre t (fun i => !a.testBit i) (plainInt t (2 ^ t.bits - 1 - a)).words (plainInt t (2 ^ t.bits - 1 - a)).fl := by
  have h0 : 2 ^ t.bits - 1 - a = 2 ^ t.bits - (a + 1) := by omega
  refine bitsAre_of (by omega) ?_
  intro i hi
  rw [h0, Nat.testBit_two_pow_sub_succ ha]
  simp [hi]

theorem popcount_eq (w a : Nat) : popcount w a = (List.range w).countP a.testBit := by
  rw [popcount, List.countP_eq_length_filter]

theorem plainInt_u32 (v : Nat) : (plainInt .u32 v).words = [BitVec.ofNat 32 v] := by
  simp [plainInt, regWords, Ty.is64, Ty.signed, Ty.bits, BitVec.ofNat_eq_ofNat]
  apply BitVec.eq_of_toNat_eq; simp

end Sys2Proof.Machine
end

