-- ==== Sys2Proof/Laws/Ready.lean ====
section
/-!
SUPPORT. An instruction that is ready passes every common check, and what one that completes in order, lane by lane
or as a scalar, leaves.
-/
namespace Sys2Proof.Machine

theorem Ready.unheld {s i x} (h : Ready s i x) (ha : x.ap = false) : x.unheld i = none := by
  unfold Iss.unheld
  have key : ∀ l, l = [] → Iss.lowField l = none := by rintro _ rfl; rfl
  apply key
  · rw [List.filterMap_eq_nil_iff]
    intro u hu
    have := h.held ha u hu
    split
    · rename_i e m n ho
      have h2 := this e m n ho
      simp [Group.vHeld, h2]
    · rfl

theorem Ready.apBeyond {s i x} (h : Ready s i x) (ha : x.ap = true) : Iss.apBeyond i = none := by
  unfold Iss.apBeyond
  have key : ∀ l, l = [] → Iss.lowField l = none := by rintro _ rfl; rfl
  apply key
  · rw [List.filterMap_eq_nil_iff]
    intro u hu
    have := (h.onAp ha).2 u hu
    split
    · rename_i e m n ho
      simp [this e m n ho]
    · rfl

theorem Ready.empties {s i x} (h : Ready s i x) : x.empties i = [] := by
  unfold Iss.empties
  rw [List.flatMap_eq_nil_iff]
  intro u hu
  have : (u.regs x.ap).filter (fun r => !x.gr.isFull r) = [] := by
    rw [List.filter_eq_nil_iff]
    intro r hr
    simp [h.full u hu r hr]
  simp [this]

theorem Ready.begin {s i x} (h : Ready s i x) : s.begin i = .go x := by
  obtain ⟨y, hy, hx⟩ := h.issuer
  have e1 := h.guard
  have e2 := h.active
  have e3 := h.uniform
  have e4 := h.role
  have e5 := h.paths
  have e6 := h.onAp
  have e7 := h.room
  have e8 := h.unheld
  have e9 := h.apBeyond
  have e10 := h.empties
  obtain ⟨ps, e11⟩ := h.ports
  obtain ⟨hs, -, -, hq, -⟩ := State.issuer_go hy
  have f : x = { y.masked i with q := x.q } := hx
  have hgw : y.guardWait i.ctl = none := by rw [← e1, f]; rfl
  have hr : (y.masked i).beginRole i = .go x := by
    generalize hz : y.masked i = z at *
    have g1 : z.x = x.x := by rw [f]
    have g2 : z.ap = x.ap := by rw [f]
    have g3 : z.gr = x.gr := by rw [f]
    have g4 : z.m = x.m := by rw [f]
    have hregs : z.beginRegs i = .go x := by
      have hq : z.beginQ i = .go x := by
        unfold Iss.beginQ
        rw [g3, e11]
        have : z.limited i = false := by rw [← e7, f]; rfl
        simp only [this]
        rw [f]; simp
      unfold Iss.beginRegs
      have : z.empties i = [] := by rw [← e10, f]; rfl
      have h3 : (if z.ap then none else z.unheld i) = none := by
        split
        · rfl
        · rename_i h; rw [← e8 (by rw [← g2]; simpa using h), f]; rfl
      simp only [h3, this, List.find?_nil, List.map_nil]
      exact hq
    unfold Iss.beginRole
    have g5 : z.guardMask i.ctl = x.guardMask i.ctl := by rw [f]; rfl
    simp only [g5, g4, g2, g3]
    by_cases ha : x.ap = true
    · simp only [ha, if_true, e9 ha, (e6 ha).1, hregs]
    · have ha : x.ap = false := by simpa using ha
      have hu : (i.uniform && (x.m &&& x.guardMask i.ctl) != 0 && (x.m &&& x.guardMask i.ctl) != x.m) = false := by
        cases hu : i.uniform
        · simp
        · rcases e3 ha hu with h | h <;> simp [h]
      have hro : (i.roleCode.any fun r => x.gr.role != 0 && x.gr.role != r) = false := by
        cases hr : i.roleCode with
        | none => rfl
        | some r => rcases e4 ha r hr with h | h <;> simp [h]
      simp only [ha, hu, hro]
      cases i <;> first | exact hregs | exact absurd rfl ((e5 ha).1 _ _) | exact absurd rfl ((e5 ha).2 _ _ _)
  unfold State.begin
  simp only [hy, Iss.start, hgw]
  have hl : (i.laneBound && (y.masked i).x == 0) = false := by
    cases hb : i.laneBound
    · simp
    · have := e2 hb
      have g1 : (y.masked i).x = x.x := by rw [f]
      simpa [g1] using this
  simp only [hl, hr]
  simp

theorem Ready.facts {s i x} (h : Ready s i x) : x.s = s ∧ s.wg? x.h = some x.w ∧ x.w.group? x.g = some x.gr ∧
   (x.ap = true → x.gr.ap.st = .running ∧ x.pc = x.gr.ap.pc ∧ x.m = 1) ∧
   (x.ap = false → x.p < x.gr.paths.length ∧ x.pc = (x.gr.path x.p).pc ∧ x.m = (x.gr.path x.p).mask) := by
  obtain ⟨y, hy, hx⟩ := h.issuer
  obtain ⟨h1, h2, h3, -, h5⟩ := State.issuer_go hy
  rw [hx]
  refine ⟨h1, h2, h3, ?_, ?_⟩
  · intro ha
    have ha : y.ap = true := ha
    simp only [ha, if_true] at h5
    exact ⟨State.apRuns_running h5.2.1, h5.2.2.2.2.2, h5.2.2.2.1⟩
  · intro ha
    have ha : y.ap = false := ha
    simp only [ha] at h5
    exact ⟨(State.pathRuns_path h5.2.1).2, h5.2.2.2.2, h5.2.2.1⟩

/-- In-order completion. -/
theorem done_completes {s i x gr fl} {body : Iss → Res} (h : Ready s i x) (hq : x.quiet) (d : Opnd) (F : Nat → Word)
    (hb : body x = .done gr fl []) (h1 : gr.paths = x.gr.paths) (h2 : gr.ap.st = x.gr.ap.st) (h3 : gr.sr.trapen = x.gr.sr.trapen)
    (h4 : gr.sr.xflags = x.gr.sr.xflags)
    (hfl : ∀ e ∈ fl, e.1 < 32)
    (hF : ∀ l < 32, ((fl.filter fun e => e.1 == l).map (·.2)).foldl (· ||| ·) 0 = if (x.flagMask d).getLsbD l then F (resultLane d l) else 0) :
    ∃ t gr', issue i s body = .next t ∧ x.Completes i d t gr' F ∧ gr'.v = gr.v ∧ gr'.s = gr.s ∧ gr'.ap.s = gr.ap.s ∧ gr'.ap.p = gr.ap.p ∧ gr'.preds = gr.preds
      ∧ gr' = x.onward i ((({ gr with ports := (x.popped i).ports } : Group).markFull (x.dstRegs i)).raiseFlags fl) := by
  obtain ⟨e1, e2, e3, e4, e5⟩ := h.facts
  have hw : x.s.wg? x.h = some x.w := by rw [e1]; exact e2
  refine ⟨x.s.setGroup x.h x.g (x.onward i ((({ gr with ports := (x.popped i).ports } : Group).markFull (x.dstRegs i)).raiseFlags fl)),
    (x.onward i ((({ gr with ports := (x.popped i).ports } : Group).markFull (x.dstRegs i)).raiseFlags fl)), ?_, ⟨?_, ?_, ?_, ?_⟩, ?_⟩
  · simp only [issue, h.begin, hb, Iss.finish]
    rw [Iss.complete_quiet hw]
    rw [h3]; exact hq
  · rfl
  · unfold Iss.behind
    by_cases ha : x.ap = true
    · simp [ha, Iss.onward, Group.raiseFlags, Group.markFull, h2, (e4 ha).1]
    · have ha : x.ap = false := by simpa using ha
      obtain ⟨f1, f2, f3⟩ := e5 ha
      have h5 : (Group.raiseFlags (Group.markFull { gr with ports := (x.popped i).ports } (x.dstRegs i)) fl).paths = x.gr.paths := by
        simp [Group.raiseFlags, Group.markFull, h1]
      generalize (Group.raiseFlags (Group.markFull { gr with ports := (x.popped i).ports } (x.dstRegs i)) fl) = G at h5 ⊢
      have this : G.path x.p = x.gr.path x.p := by simp [Group.path, h5]
      simp only [ha, Iss.onward, Bool.false_eq_true, if_false, Group.path_modPath, this, h5, f1, and_self, if_true]
      simp [f2, f3]
  · intro r hr
    have : (x.onward i ((({ gr with ports := (x.popped i).ports } : Group).markFull (x.dstRegs i)).raiseFlags fl)).isFull r = (({ gr with ports := (x.popped i).ports } : Group).markFull (x.dstRegs i)).isFull r := by
      unfold Iss.onward; split <;> rfl
    rw [this, Group.isFull_markFull]
    simp [hr]
  · intro l hl
    have : (x.onward i ((({ gr with ports := (x.popped i).ports } : Group).markFull (x.dstRegs i)).raiseFlags fl)).sr = ((({ gr with ports := (x.popped i).ports } : Group).markFull (x.dstRegs i)).raiseFlags fl).sr := by
      unfold Iss.onward; split <;> rfl
    simp only [Group.flagsOf, this]
    rw [Group.raiseFlags_lane _ _ hfl hl, hF l hl]
    simp [Group.markFull, h4]
  · unfold Iss.onward; split <;> simp [Group.raiseFlags, Group.markFull]

/-- The frame of a group that has completed, from that of the group with the results in it. -/
theorem Iss.frame_of {s : State} {i : Instr} {x : Iss} {gr : Group} {fl d n} (h : Ready s i x)
    (h0 : gr = { x.gr with v := gr.v, s := gr.s, preds := gr.preds, sr := gr.sr,
                           ap := { x.gr.ap with s := gr.ap.s, p := gr.ap.p } })
    (h1 : ∀ k, (∀ e m b, d = .v e m b → apart k b.toNat n) → gr.vreg k = x.gr.vreg k)
    (h2 : ∀ k, (x.ap = false → ∀ e m b, d = .s e m b → apart k b.toNat n) → gr.sword false k = x.gr.sword false k)
    (h3 : ∀ k, (x.ap = false → ∀ e m b, d = .p e m b → k ≠ b.toNat) → gr.pred k = x.gr.pred k)
    (h4 : ∀ k, (x.ap = true → ∀ e m b, d = .s e m b → apart k b.toNat n) → gr.sword true k = x.gr.sword true k)
    (h5 : ∀ k, (x.ap = true → ∀ e m b, d = .p e m b → k ≠ b.toNat) → gr.pbit true k 0 = x.gr.pbit true k 0)
    (h6 : gr.sr = { x.gr.sr with rngctr := x.rngAfter i }) (h7 : x.ap = false → gr.ap = x.gr.ap) :
    x.Frame i (x.onward i ((({ gr with ports := (x.popped i).ports } : Group).markFull (x.dstRegs i)).raiseFlags fl)) d n := by
  obtain ⟨e1, e2, e3, e4, e5⟩ := h.facts
  generalize hG : ((({ gr with ports := (x.popped i).ports } : Group).markFull (x.dstRegs i)).raiseFlags fl) = G
  have gp : G.paths = x.gr.paths := by rw [← hG, h0]; rfl
  have gv : (x.onward i G).v = gr.v := by rw [← hG]; unfold Iss.onward; split <;> rfl
  have gs : (x.onward i G).s = gr.s := by rw [← hG]; unfold Iss.onward; split <;> rfl
  have gq : (x.onward i G).preds = gr.preds := by rw [← hG]; unfold Iss.onward; split <;> rfl
  have ga : (x.onward i G).ap.s = gr.ap.s ∧ (x.onward i G).ap.p = gr.ap.p := by
    rw [← hG]; unfold Iss.onward; split <;> exact ⟨rfl, rfl⟩
  have gr' : (x.onward i G).sr = { x.gr.sr with xflags := (x.onward i G).sr.xflags, rngctr := x.rngAfter i } := by
    have : G.sr = { gr.sr with xflags := G.sr.xflags } := by rw [← hG]; rfl
    have h8 : (x.onward i G).sr = G.sr := by unfold Iss.onward; split <;> rfl
    rw [h8, this, h6]
  refine ⟨?_, ?_, ?_, ?_, ?_, ?_, gr', ?_, ?_, ?_⟩
  · have : G = { x.gr with v := G.v, s := G.s, preds := G.preds, sb := G.sb, sr := G.sr, ap := G.ap,
                           ports := (x.popped i).ports } := by rw [← hG, h0]; rfl
    unfold Iss.onward
    split <;> rw [this]
    rfl
  · intro k hk; rw [Group.vreg, gv]; exact h1 k hk
  · intro k hk; have := h2 k hk; simp only [Group.sword, Group.sreg] at this ⊢; rw [gs]; exact this
  · intro k hk; rw [Group.pred, gq]; exact h3 k hk
  · intro k hk; have := h4 k hk; simp only [Group.sword, if_true] at this ⊢; rw [ga.1]; exact this
  · intro k hk; have := h5 k hk; simp only [Group.pbit, if_true] at this ⊢; rw [ga.2]; exact this
  · intro r hr
    have : (x.onward i G).isFull r = (({ gr with ports := (x.popped i).ports } : Group).markFull (x.dstRegs i)).isFull r := by
      rw [← hG]; unfold Iss.onward; split <;> rfl
    rw [this, Group.isFull_markFull]
    have h9 : ({ gr with ports := (x.popped i).ports } : Group).isFull r = x.gr.isFull r := by
      unfold Group.isFull; rw [h0]
    rw [h9]
    simp [hr]
  · intro p hp
    have hpath : G.path p = x.gr.path p := by simp [Group.path, gp]
    unfold Iss.onward
    by_cases ha : x.ap = true
    · simp only [ha, if_true]; exact hpath
    · have ha : x.ap = false := by simpa using ha
      simp only [ha, Bool.false_eq_true, if_false, Group.path_modPath, hp ha, false_and, hpath]
  · intro ha
    obtain ⟨f1, f2, f3⟩ := e5 ha
    have hpath : G.path x.p = x.gr.path x.p := by simp [Group.path, gp]
    have hap : (x.onward i G).ap = x.gr.ap := by
      rw [← h7 ha, ← hG]; unfold Iss.onward; simp only [ha, Bool.false_eq_true, if_false]; rfl
    rw [hap]
    unfold Iss.onward
    simp only [ha, Bool.false_eq_true, if_false, Group.path_modPath, gp, f1, and_self, if_true, hpath]
    simp [f3]

theorem filter_map_one {f : Nat → Word} (m : Mask) {l : Nat} (hl : l < 32) :
   ((((Mask.lanes m).map fun k => (k, f k)).filter fun e => e.1 == l).map (·.2)).foldl (· ||| ·) 0 = if m.getLsbD l then f l else 0 := by
  have : ∀ (L : List Nat), L.Nodup → ((((L).map fun k => (k, f k)).filter fun e => e.1 == l).map (·.2)) = if l ∈ L then [f l] else [] := by
    intro L hL
    induction L with
    | nil => rfl
    | cons a L ih =>
      rw [List.nodup_cons] at hL
      by_cases h : a = l
      · subst h
        have := ih hL.2
        simp only [hL.1, if_false] at this
        simp [this]
      · have := ih hL.2
        simp [h, this, Ne.symm h]
  rw [this _ (by unfold Mask.lanes; exact (List.nodup_range).filter _)]
  simp only [Mask.mem_lanes, hl, true_and]
  split <;> simp

theorem find?_map {α} (L : List Nat) (f : Nat → α) (l : Nat) : find? (L.map fun k => (k, f k)) l = if l ∈ L then some (f l) else none := by
  induction L with
  | nil => rfl
  | cons a L ih =>
    simp only [List.map_cons, find?, ih, List.mem_cons]
    by_cases h : l = a
    · subst h; simp
    · simp [h]

theorem wordRow_lane (m : Mask) (f : Nat → LaneRes) (j : Nat) {l : Nat} (hl : l < 32) :
   (wordRow ((Mask.lanes m).map fun l => (l, f l)) j).lane l = if m.getLsbD l then (f l).words.getD j 0 else 0 := by
  rw [wordRow, Row.lane_ofLanes _ hl]
  simp only [List.getElem?_map, List.getElem?_range hl, Option.map_some, Option.getD_some, find?_map, Mask.mem_lanes, hl, true_and]
  split <;> simp

theorem foldl_putV (x0 : Group) (i : Nat) (m : Mask) (row : Nat → Row) (n : Nat) :
   let g := (List.range n).foldl (fun gr k => gr.putV (i + k) m (row k)) x0
   (∀ j l, l < 32 → g.vword j l = if i ≤ j ∧ j < i + n ∧ m.getLsbD l then (row (j - i)).lane l else x0.vword j l)
   ∧ g = { x0 with v := g.v } := by
  induction n with
  | zero => exact ⟨by intro j l _; simp; omega, rfl⟩
  | succ n ih =>
    obtain ⟨h1, h2⟩ := ih
    simp only [List.range_succ, List.foldl_append, List.foldl_cons, List.foldl_nil]
    refine ⟨?_, ?_⟩
    · intro j l hl
      simp only [Group.vword, Group.vreg, Group.putV_v, look_put]
      by_cases h : j = i + n
      · subst h
        have h3 := h1 (i + n) l hl
        simp only [Group.vword] at h3
        simp only [if_true, Row.lane_merge _ _ _ hl]
        have : ¬ (i + n < i + n) := by omega
        simp only [this, false_and, and_false, if_false] at h3
        simp only [Group.vreg] at h3 ⊢
        rw [h3]
        simp
      · have h3 := h1 j l hl
        simp only [Group.vword, Group.vreg] at h3
        simp only [h, if_false, h3]
        have : (j < i + n) = (j < i + (n+1)) := by rw [eq_iff_iff]; omega
        simp only [this]
    · have : ∀ g : Group, g = { x0 with v := g.v } → ∀ a b c, g.putV a b c = { x0 with v := (g.putV a b c).v } := by
        intro g hg a b c; rw [hg]; rfl
      exact this _ h2 _ _ _

theorem foldl_putS (x : Iss) (d : Opnd) (ws : List Word) :
    (∀ k < ws.length, (x.putScalar d ws).sword x.ap (d.idx + k) = ws.getD k 0)
    ∧ (∀ k, apart k d.idx ws.length → (x.putScalar d ws).sword x.ap k = x.gr.sword x.ap k)
    ∧ x.putScalar d ws = if x.ap then { x.gr with ap := { x.gr.ap with s := (x.putScalar d ws).ap.s } }
        else { x.gr with s := (x.putScalar d ws).s } := by
  have key : ∀ n, let g := (List.range n).foldl (fun gr k =>
      let w := ws.getD k 0
      if x.ap then { gr with ap := { gr.ap with s := put gr.ap.s (d.idx + k) w } } else gr.putS (d.idx + k) w) x.gr
     (∀ k < n, g.sword x.ap (d.idx + k) = ws.getD k 0) ∧ (∀ k, apart k d.idx n → g.sword x.ap k = x.gr.sword x.ap k)
      ∧ g = if x.ap then { x.gr with ap := { x.gr.ap with s := g.ap.s } } else { x.gr with s := g.s } := by
    intro n
    induction n with
    | zero => simp
    | succ n ih =>
      obtain ⟨h1, h2, h3⟩ := ih
      simp only [List.range_succ, List.foldl_append, List.foldl_cons, List.foldl_nil]
      by_cases ha : x.ap = true
      · simp only [ha, if_true] at *
        refine ⟨?_, ?_, by rw [h3]⟩
        · intro k hk
          simp only [Group.sword, if_true, look_put]
          by_cases h : k = n
          · subst h; simp
          · have := h1 k (by omega)
            simp only [Group.sword, if_true] at this
            rw [if_neg (by omega)]; exact this
        · intro k hk
          have := h2 k (by unfold apart at *; omega)
          simp only [Group.sword, if_true, look_put] at this ⊢
          rw [if_neg (by unfold apart at hk; omega)]; exact this
      · have ha : x.ap = false := by simpa using ha
        simp only [ha] at *
        refine ⟨?_, ?_, by simp only [Bool.false_eq_true, if_false] at *; rw [h3]; rfl⟩
        · intro k hk
          simp only [Group.sword, Group.sreg, Bool.false_eq_true, if_false, Group.putS_s, look_put]
          by_cases h : k = n
          · subst h; simp
          · have := h1 k (by omega)
            simp only [Group.sword, Group.sreg, Bool.false_eq_true, if_false] at this
            rw [if_neg (by omega)]; exact this
        · intro k hk
          have := h2 k (by unfold apart at *; omega)
          simp only [Group.sword, Group.sreg, Bool.false_eq_true, if_false, Group.putS_s, look_put] at this ⊢
          rw [if_neg (by unfold apart at hk; omega)]; exact this
  exact key ws.length

/-- The issuer before and after an instruction changed a register of the group's own: its flags and enables stay. -/
def Iss.sameFlags (x : Iss) (i : Instr) (y : Iss) : Prop :=
  y = { x with gr := { x.gr with sr := { x.gr.sr with rngctr := x.rngAfter i } } }

theorem Iss.sameFlags_rfl (x : Iss) {i : Instr} (h : x.rngAfter i = x.gr.sr.rngctr := by rfl) : x.sameFlags i x := by
  unfold Iss.sameFlags; rw [h]

/-- A form that writes rows in the lanes of the execution mask completes. -/
theorem Ready.vector {s i x} {body : Iss → Res} {d : Opnd} (h : Ready s i x) (hq : x.quiet)
    (he : exec i s = issue i s body) (hd : d.isV 1 = true) {y : Iss} (hy : x.sameFlags i y) {n : Nat} {row : Nat → Row}
    {F : Nat → Word} (hb : body x = .done (y.putVector d n x.x row) ((Mask.lanes x.x).map fun l => (l, F l)) [])
    {R : Nat → List Word → Word → Prop} {W : Nat → List Word}
    (hW : ∀ k < n, ∀ l < 32, x.x.getLsbD l = true → (row k).lane l = (W l).getD k 0)
    (hR : ∀ l < 32, x.x.getLsbD l = true → R l (W l) (F l)) : InOrder s i x d n R := by
  cases hy
  generalize hr : ({ x.gr.sr with rngctr := x.rngAfter i } : GroupSr) = r at hb ⊢
  have hr1 : r.trapen = x.gr.sr.trapen := by rw [← hr]
  have hr2 : r.xflags = x.gr.sr.xflags := by rw [← hr]
  cases d <;> simp only [Opnd.isV, Bool.false_eq_true] at hd
  rename_i e m k
  have hS : Opnd.isS 1 (.v e m k) = false := rfl
  obtain ⟨g1, g2⟩ := foldl_putV { x.gr with sr := r } k.toNat x.x row n
  have hg : Iss.putVector { x with gr := { x.gr with sr := r } } (.v e m k) n x.x row =
    (List.range n).foldl (fun gr j => gr.putV (k.toNat + j) x.x (row j)) { x.gr with sr := r } := rfl
  rw [← hg] at g1 g2
  have hfr : ∀ fl, x.Frame i (x.onward i ((({ (Iss.putVector { x with gr := { x.gr with sr := r } } (.v e m k) n x.x row) with
      ports := (x.popped i).ports } : Group).markFull (x.dstRegs i)).raiseFlags fl)) (.v e m k) n := by
    intro fl
    refine Iss.frame_of h (by rw [g2]) ?_ (fun _ _ => by rw [g2]; rfl) (fun _ _ => by rw [g2]; rfl) (fun _ _ => by rw [g2]; rfl)
      (fun _ _ => by rw [g2]; rfl) (by rw [g2]; exact hr.symm) (fun _ => by rw [g2])
    intro j hj
    have hap := hj e m k rfl
    have : ∀ l < 32, (Group.vreg (Iss.putVector { x with gr := { x.gr with sr := r } } (.v e m k) n x.x row) j).lane l
        = (x.gr.vreg j).lane l := by
      intro l hl
      have h3 := g1 j l hl
      have h4 : ¬ (k.toNat ≤ j ∧ j < k.toNat + n ∧ x.x.getLsbD l = true) := by
        unfold apart at hap; omega
      simp only [h4, if_false] at h3
      exact h3
    exact Row.ext_lane this
  obtain ⟨t, gr', a1, a2, a3, -, -, -, -, a4⟩ := done_completes h hq (.v e m k) F hb (by rw [g2]) (by rw [g2])
    (by rw [g2]; exact hr1) (by rw [g2]; exact hr2)
    (by intro e he; rw [List.mem_map] at he; obtain ⟨l, hl, rfl⟩ := he; exact (Mask.mem_lanes _ _).1 hl |>.1)
    (by intro l hl; rw [filter_map_one _ hl]; simp [Iss.flagMask, hS, resultLane])
  refine ⟨t, gr', W, F, he ▸ a1, a2, a4 ▸ hfr _, ?_, fun l hl hc => hR l hl (by simpa [Iss.computes, hS] using hc)⟩
  intro j hj l hl
  have := g1 (k.toNat + j) l hl
  simp only [Group.vword, Group.vreg, a3] at this ⊢
  rw [this]
  have h3 : k.toNat ≤ k.toNat + j := by omega
  have h4 : k.toNat + j < k.toNat + n := by omega
  simp only [h3, h4, true_and, Nat.add_sub_cancel_left]
  by_cases hx : x.x.getLsbD l = true
  · simp only [hx, if_true, hW j hj l hl hx]
  · simp only [hx]; rfl

/-- A form that writes a scalar destination completes. -/
theorem Ready.scalar {s i x} {body : Iss → Res} {d : Opnd} (h : Ready s i x) (hq : x.quiet)
    (he : exec i s = issue i s body) (hd : d.isS 1 = true) {y : Iss} (hy : x.sameFlags i y) {ws : List Word} {w : Word}
    {fl : List (Nat × Word)} (hb : body x = .done (y.putScalar d ws) fl [])
    (hf : fl = x.flagLanes.map (fun l => (l, w)) ∨ fl = [] ∧ w = 0)
    {R : Nat → List Word → Word → Prop} (hR : R 0 ws w) : InOrder s i x d ws.length R := by
  cases hy
  generalize hr : ({ x.gr.sr with rngctr := x.rngAfter i } : GroupSr) = r at hb ⊢
  have hr1 : r.trapen = x.gr.sr.trapen := by rw [← hr]
  have hr2 : r.xflags = x.gr.sr.xflags := by rw [← hr]
  cases d <;> simp only [Opnd.isS, Bool.false_eq_true] at hd
  rename_i e m k
  have hS : Opnd.isS 1 (.s e m k) = true := hd
  obtain ⟨g1, g5, g6⟩ := foldl_putS { x with gr := { x.gr with sr := r } } (.s e m k) ws
  simp only at g1 g5 g6
  generalize hP : Iss.putScalar { x with gr := { x.gr with sr := r } } (.s e m k) ws = P at *
  have g2 : P.paths = x.gr.paths := by rw [g6]; split <;> rfl
  have g3 : P.sr = r := by rw [g6]; split <;> rfl
  have g4 : P.ap.st = x.gr.ap.st := by rw [g6]; split <;> rfl
  have hfl : ∀ l < 32, ((fl.filter fun e => e.1 == l).map (·.2)).foldl (· ||| ·) 0
      = if (x.flagMask (.s e m k)).getLsbD l then w else 0 := by
    intro l hl
    have hm : x.flagMask (.s e m k) = if x.ap then x.gr.activeMask else x.m := by simp [Iss.flagMask, hS]
    rcases hf with rfl | ⟨rfl, rfl⟩
    · rw [Iss.flagLanes, filter_map_one (f := fun _ => w) _ hl, hm]
    · simp
  obtain ⟨t, gr', a1, a2, a3, a4, a5, -, -, a6⟩ := done_completes h hq (.s e m k) (fun _ => w) hb g2 g4 (by rw [g3]; exact hr1)
    (by rw [g3]; exact hr2)
    (by
      intro e he
      rcases hf with rfl | ⟨rfl, rfl⟩
      · rw [List.mem_map] at he; obtain ⟨l, hl, rfl⟩ := he; exact (Mask.mem_lanes _ _).1 hl |>.1
      · simp at he)
    hfl
  have hfr : ∀ fl, x.Frame i (x.onward i ((({ P with ports := (x.popped i).ports } : Group).markFull (x.dstRegs i)).raiseFlags fl))
      (.s e m k) ws.length := by
    intro fl
    have hs : ∀ b j, (x.ap = b → ∀ e' m' b', Opnd.s e m k = .s e' m' b' → apart j b'.toNat ws.length) →
        P.sword b j = x.gr.sword b j := by
      intro b j hj
      by_cases ha : x.ap = b
      · rw [← ha]; exact g5 j (hj ha e m k rfl)
      · rw [g6]
        cases b
        · have : x.ap = true := by simpa using ha
          rw [this]; rfl
        · have : x.ap = false := by simpa using ha
          rw [this]; rfl
    refine Iss.frame_of h ?_ (fun _ _ => ?_) (hs false) (fun _ _ => ?_) (hs true) (fun _ _ => ?_) (by rw [g3, hr])
      (fun ha => by rw [g6, ha]; rfl)
    · rw [g6]; split <;> rfl
    · rw [g6]; split <;> rfl
    · rw [g6]; split <;> rfl
    · rw [g6]; split <;> rfl
  refine ⟨t, gr', fun _ => ws, fun _ => w, he ▸ a1, a2, a6 ▸ hfr _, ?_, ?_⟩
  · intro j hj
    have := g1 j hj
    rw [← this]
    simp [Group.sword, Group.sreg, a4, a5]
    rfl
  · intro l _ hc
    have : l = 0 := by simpa [Iss.computes, hS] using hc
    rw [this]; exact hR

/-- A vector or scalar form of Table 12.1 completes with the words and flags of its lanes. -/
theorem Ready.lanes {s i x} {body : Iss → Res} {n : Nat} {f : Nat → LaneRes} {d : Opnd} (h : Ready s i x) (hq : x.quiet)
    (he : exec i s = issue i s body) (hd : d.isV 1 = true ∨ d.isS 1 = true) {y : Iss} (hy : x.sameFlags i y)
    (hb : body x = y.lanes d n f) (hn : ∀ l < 32, x.computes d l → (f l).words.length = n)
    (ha : ∀ l < 32, x.computes d l → (f l).ash = []) {R : Nat → List Word → Word → Prop}
    (hR : ∀ l < 32, x.computes d l → R l (f l).words (f l).fl) : InOrder s i x d n R := by
  have hy' := hy
  obtain ⟨r, rfl, -, -⟩ := hy'
  rcases hd with hd | hd
  · have hS : d.isS 1 = false := by cases d <;> simp_all [Opnd.isV, Opnd.isS]
    have hc : ∀ l, x.computes d l ↔ x.x.getLsbD l = true := by intro l; simp [Iss.computes, hS]
    refine h.vector hq he hd hy (n := n) (row := wordRow ((Mask.lanes x.x).map fun l => (l, f l))) (F := fun l => (f l).fl)
      (W := fun l => (f l).words) ?_ ?_ (fun l hl hx => hR l hl ((hc l).2 hx))
    · rw [hb]
      have hash : ((Mask.lanes x.x).map fun l => (l, f l)).flatMap (fun e => e.2.ash) = [] := by
        rw [List.flatMap_eq_nil_iff]; intro e he; rw [List.mem_map] at he; obtain ⟨l, hl, rfl⟩ := he
        exact ha l ((Mask.mem_lanes _ _).1 hl).1 ((hc l).2 ((Mask.mem_lanes _ _).1 hl).2)
      simp only [Iss.lanes, hS, hash, List.map_map, Function.comp_def]
      rfl
    · intro k _ l hl hx
      rw [wordRow_lane _ _ _ hl, if_pos hx]
  · have h0 : x.computes d 0 := by simp [Iss.computes, hd]
    rw [← hn 0 (by decide) h0]
    refine h.scalar hq he hd hy (ws := (f 0).words) (w := (f 0).fl) (fl := x.flagLanes.map fun l => (l, (f 0).fl)) ?_ (.inl rfl)
      (hR 0 (by decide) h0)
    rw [hb]
    simp only [Iss.lanes, hd, if_true, ha 0 (by decide) h0]
    rfl

/-- A result that the lanes share completes. -/
theorem Ready.shared {s i x} {body : Iss → Res} {ws : List Word} {w : Word} {d : Opnd} (h : Ready s i x) (hq : x.quiet)
    (he : exec i s = issue i s body) (hd : d.isV 1 = true ∨ d.isS 1 = true)
    (hb : body x = x.shared d ws w) {R : Nat → List Word → Word → Prop} (hR : ∀ l, R l ws w)
    (hrng : x.rngAfter i = x.gr.sr.rngctr := by rfl) :
    InOrder s i x d ws.length R := by
  rcases hd with hd | hd
  · have hS : d.isS 1 = false := by cases d <;> simp_all [Opnd.isV, Opnd.isS]
    refine h.vector hq he hd (x.sameFlags_rfl hrng) (row := fun k => Row.splat (ws.getD k 0)) (F := fun _ => w) (W := fun _ => ws) ?_ ?_
      (fun l _ _ => hR l)
    · rw [hb]; simp only [Iss.shared, hS]; rfl
    · intro k _ l hl _; exact Row.lane_splat _ hl
  · refine h.scalar hq he hd (x.sameFlags_rfl hrng) (fl := x.flagLanes.map fun l => (l, w)) ?_ (.inl rfl) (hR 0)
    rw [hb]; simp only [Iss.shared, hd, if_true]

/-- A predicate form completes. -/
theorem Ready.preds {s i x} {body : Iss → Res} {f : Nat → Bool × Word} {d : Opnd} (h : Ready s i x) (hq : x.quiet)
    (he : exec i s = issue i s body) (hd : d.isP = true) (hx : x.ap = true → x.x = 1)
    (hb : body x = x.preds d f) {R : Nat → Bool → Word → Prop} (hR : ∀ l < 32, x.computes d l → R l (f l).1 (f l).2)
    (hrng : x.rngAfter i = x.gr.sr.rngctr := by rfl) : InOrderPred s i x d R := by
  cases d <;> simp only [Opnd.isP, Bool.false_eq_true] at hd
  rename_i e m k
  have hS : Opnd.isS 1 (.p e m k) = false := rfl
  have hc : ∀ l, x.computes (.p e m k) l ↔ x.x.getLsbD l = true := by intro l; simp [Iss.computes, hS]
  have hm : ∀ l < 32, (Mask.ofLanes (((((Mask.lanes x.x).map fun l => (l, f l)).filter (·.2.1)).map (·.1)))).getLsbD l
      = (x.x.getLsbD l && (f l).1) := by
    intro l hl
    rw [Mask.ofLanes_getLsbD _ hl]
    rw [Bool.eq_iff_iff, decide_eq_true_iff, Bool.and_eq_true]
    simp only [List.mem_map, List.mem_filter, Mask.mem_lanes]
    constructor
    · rintro ⟨_, ⟨⟨a, ha, rfl⟩, hb⟩, rfl⟩; exact ⟨ha.2, hb⟩
    · rintro ⟨h1, h2⟩; exact ⟨(l, f l), ⟨⟨l, ⟨hl, h1⟩, rfl⟩, h2⟩, rfl⟩
  have hb2 : body x = .done (x.putPred (.p e m k) x.x (Mask.ofLanes (((((Mask.lanes x.x).map fun l => (l, f l)).filter (·.2.1)).map (·.1)))))
      ((Mask.lanes x.x).map fun l => (l, (f l).2)) [] := by
    rw [hb]; simp only [Iss.preds, List.map_map, Function.comp_def]
  generalize hM : Mask.ofLanes (((((Mask.lanes x.x).map fun l => (l, f l)).filter (·.2.1)).map (·.1))) = M at hm hb2
  have hp : (x.putPred (.p e m k) x.x M).paths = x.gr.paths ∧ (x.putPred (.p e m k) x.x M).ap.st = x.gr.ap.st
      ∧ (x.putPred (.p e m k) x.x M).sr = x.gr.sr := by
    unfold Iss.putPred; split <;> exact ⟨rfl, rfl, rfl⟩
  have hfr : ∀ fl, x.Frame i (x.onward i ((({ (x.putPred (.p e m k) x.x M) with
      ports := (x.popped i).ports } : Group).markFull (x.dstRegs i)).raiseFlags fl)) (.p e m k) 1 := by
    intro fl
    have hh : (x.ap = true → x.putPred (.p e m k) x.x M = { x.gr with ap := { x.gr.ap with p := (x.putPred (.p e m k) x.x M).ap.p } })
        ∧ (x.ap = false → x.putPred (.p e m k) x.x M = { x.gr with preds := (x.putPred (.p e m k) x.x M).preds }) := by
      unfold Iss.putPred; constructor <;> intro ha <;> simp only [ha, if_true, Bool.false_eq_true, if_false] <;> rfl
    by_cases ha : x.ap = true
    · have hh := hh.1 ha
      refine Iss.frame_of h (by rw [hh]) (fun _ _ => by rw [hh]; rfl) (fun _ _ => by rw [hh]; rfl) (fun _ _ => by rw [hh]; rfl)
        (fun _ _ => by rw [hh]; rfl) ?_ (by rw [hh, hrng]) (by simp [ha])
      intro j hj
      have hj := hj ha e m k rfl
      have h9 : (Mask.one k.toNat).getLsbD j = false := by
        rw [Mask.one_getLsbD]; simp; omega
      simp only [Group.pbit, if_true, Iss.putPred, ha, Opnd.idx, BitVec.getLsbD_or, BitVec.getLsbD_and, BitVec.getLsbD_not, h9]
      by_cases hj32 : j < 32
      · have h10 : (if (M == 0) = true then (0 : Mask) else Mask.one k.toNat).getLsbD j = false := by
          split
          · simp
          · exact h9
        rw [h10]; simp [hj32]
      · simp [BitVec.getLsbD_of_ge _ j (show 32 ≤ j by omega)]
    · have ha : x.ap = false := by simpa using ha
      have hh := hh.2 ha
      refine Iss.frame_of h (by rw [hh]) (fun _ _ => by rw [hh]; rfl) (fun _ _ => by rw [hh]; rfl) ?_
        (fun _ _ => by rw [hh]; rfl) (fun _ _ => by rw [hh]; rfl) (by rw [hh, hrng]) (fun _ => by rw [hh])
      intro j hj
      have hj := hj ha e m k rfl
      simp only [Group.pred, Iss.putPred, ha, Bool.false_eq_true, if_false, Group.putP, Opnd.idx, look_put, hj]
  obtain ⟨t, gr', a1, a2, -, -, -, a6, a7, a8⟩ := done_completes h hq (.p e m k) (fun l => (f l).2) hb2 hp.1 hp.2.1 (by rw [hp.2.2])
    (by rw [hp.2.2])
    (by intro e he; rw [List.mem_map] at he; obtain ⟨l, hl, rfl⟩ := he; exact (Mask.mem_lanes _ _).1 hl |>.1)
    (by intro l hl; rw [filter_map_one _ hl]; simp [Iss.flagMask, hS, resultLane])
  refine ⟨t, gr', fun l => (f l).1, fun l => (f l).2, he ▸ a1, a2, a8 ▸ hfr _, ?_, hR⟩
  simp only [Iss.predHolds]
  by_cases hap : x.ap = true
  · have h0 := hm 0 (by decide)
    have h1 := hx hap
    rw [h1] at h0
    simp only [hap, if_true, Group.pbit, a6, Iss.putPred, Opnd.idx]
    have hk : k.toNat < 32 := by omega
    have hM' : M = if (f 0).1 then 1 else 0 := by
      apply BitVec.eq_of_getLsbD_eq
      intro l hl
      rw [hm l hl, h1]
      by_cases hl0 : l = 0
      · subst hl0; cases (f 0).1 <;> simp
      · have : ((1#32).getLsbD l) = false := by simp [BitVec.getLsbD_one, hl0]
        rw [show (1 : Mask) = 1#32 from rfl, this]
        cases (f 0).1 <;> simp [hl0]
    rw [hM']
    cases (f 0).1 <;> simp [Mask.one_getLsbD, hk]
  · have hap : x.ap = false := by simpa using hap
    simp only [hap, Bool.false_eq_true, if_false]
    intro l hl
    simp only [Group.pbit, Group.pred, Bool.false_eq_true, if_false, a7]
    have : (x.putPred (.p e m k) x.x M).preds = (x.gr.putP k.toNat x.x M).preds := by
      unfold Iss.putPred; simp only [hap, Bool.false_eq_true, if_false, Opnd.idx]
    rw [this]
    simp only [Group.putP, look_put]
    simp only [if_true, BitVec.getLsbD_or, BitVec.getLsbD_and, BitVec.getLsbD_not, hm l hl, hl, decide_true, Bool.true_and]
    cases x.x.getLsbD l <;> simp [Group.pred]

end Sys2Proof.Machine
end

