-- ==== Sys2Proof/Laws/Float.lean ====
section
/-!
SUPPORT. What the shared float operations compute: comparison, minimum and maximum, classes, one rounding, packing of exact
values, conversions and integral values.
-/
open Sys2Proof Sys2Proof.Machine
namespace Sys2Proof.Machine

theorem FVal.rank_ne (v : FVal) : v.rank ≠ 0 ↔ ∃ n, v = .inf n := by
  cases v <;> simp [FVal.rank]; split <;> simp

theorem floatRes_stored (t : Ty) (sat : Bool) (r : Nat × Word) : Stored t sat r.1 r.2 (floatRes t sat r).words (floatRes t sat r).fl := by
  unfold Stored floatRes Fmt.sat
  cases sat
  · simp
  · cases hu : t.fmt.unpack r.1 <;> simp [FVal.rank, FVal.negative, hu]
    split <;> simp

theorem floatRes_ok (t : Ty) (sat : Bool) (r : Nat × Word) : (floatRes t sat r).words.length = t.regs ∧
    (floatRes t sat r).ash = [] :=
  ⟨regWords_length _ _, rfl⟩

theorem unitsOf_val {n : Bool} {m : Nat} {e q : Int} (h : q ≤ e) : (unitsOf n m e q : ℚ) * 2 ^ q = (FVal.fin n m e).val := by
  unfold unitsOf FVal.val
  have h2 : (2:ℚ) ^ (e - q).toNat * 2 ^ q = 2 ^ e := by
    rw [← zpow_natCast, ← zpow_add₀ (by norm_num)]; congr 1; omega
  cases n <;> simp <;> push_cast <;> rw [← h2] <;> ring

theorem cmp_spec (a b : FVal) (ha : a.isNan = false) (hb : b.isNan = false) :
   (a.cmp b < 0 ↔ a.below b) ∧ (a.cmp b = 0 ↔ a.same b) ∧ (0 < a.cmp b ↔ b.below a) := by
  cases a with
  | nan _ => cases ha
  | inf x => cases b with
    | nan _ => cases hb
    | inf y => cases x <;> cases y <;> simp [FVal.cmp, FVal.below, FVal.same, FVal.rank, FVal.val]
    | fin y m e => cases x <;> simp [FVal.cmp, FVal.below, FVal.same, FVal.rank]
  | fin x m e => cases b with
    | nan _ => cases hb
    | inf y => cases y <;> simp [FVal.cmp, FVal.below, FVal.same, FVal.rank]
    | fin y n d =>
      simp only [FVal.cmp, FVal.below, FVal.same, FVal.rank, lt_irrefl, false_or, true_and]
      generalize hq : (if e ≤ d then e else d) = q
      have h1 : q ≤ e := by split at hq <;> omega
      have h2 : q ≤ d := by split at hq <;> omega
      rw [← unitsOf_val h1, ← unitsOf_val h2]
      have hp : (0:ℚ) < 2 ^ q := by positivity
      rw [mul_lt_mul_iff_left₀ hp, mul_lt_mul_iff_left₀ hp, mul_left_inj' (ne_of_gt hp)]
      refine ⟨?_, ?_, ?_⟩
      · rw [Int.sign_neg_iff, sub_neg]; exact_mod_cast Iff.rfl
      · rw [Int.sign_eq_zero_iff_zero, sub_eq_zero]; exact_mod_cast Iff.rfl
      · rw [Int.sign_pos_iff, sub_pos]; exact_mod_cast Iff.rfl

theorem signals_eq (x y : FVal) : x.nv ||| y.nv = signals [x, y] := by
  have key : ∀ z : FVal, z.nv = if FVal.nan true = z then flNV else 0 := by
    intro z; rcases z with ((_ | _) | _ | _) <;> simp [FVal.nv]
  rw [key, key]
  by_cases h1 : FVal.nan true = x <;> by_cases h2 : FVal.nan true = y <;> simp [signals, h1,
      h2] <;> subst_vars <;> simp_all

theorem minmax_spec (f : Fmt) (big : Bool) (a b : Nat) (ha : a < 2 ^ (f.eb + f.mb + 1)) (hb : b < 2 ^ (f.eb + f.mb + 1)) :
    MinOrMax f big a b (f.minmax big a b).1 (f.minmax big a b).2 := by
  unfold MinOrMax Fmt.minmax
  simp only [Nat.mod_eq_of_lt ha, Nat.mod_eq_of_lt hb]
  cases hx : (f.unpack a).isNan
  · cases hy : (f.unpack b).isNan
    · have hc := cmp_spec _ _ hx hy
      simp only [signals_eq, Bool.false_eq_true, if_false, true_and]
      generalize (f.unpack a).cmp (f.unpack b) = c at hc
      obtain ⟨h1, h2, h3⟩ := hc
      cases big
      · simp only [Bool.false_eq_true, if_false, ← h3, ← h1, ← h2]
        by_cases hl : c < 0
        · left; simp [hl]; omega
        · by_cases h0 : c = 0
          · subst h0
            cases hna : f.neg a <;> cases hnb : f.neg b <;> simp
          · right; have hl' : ¬ c < 0 := hl
            simp [h0, hl]; 
      · simp only [if_true, ← h3, ← h1, ← h2]
        by_cases hl : c < 0
        · right; simp [hl]; omega
        · by_cases h0 : c = 0
          · subst h0
            cases hna : f.neg a <;> cases hnb : f.neg b <;> simp
          · left; simp [h0, hl]
    · simp [signals_eq]
  · simp [signals_eq]

theorem signBit_le (f : Fmt) (n : Bool) : f.signBit n ≤ 2 ^ (f.eb + f.mb) := by unfold Fmt.signBit; split <;> simp

theorem roundFin_lt {f : Fmt} (hf : f ∈ formats) (mode n m e s) : (f.roundFin mode n m e s).1 < 2 ^ (f.eb + f.mb + 1) := by
  have h1 : f.maxFin < 2 ^ (f.eb + f.mb) ∧ ∀ mode n, f.overflow mode n < 2 ^ (f.eb + f.mb) := by
    simp only [formats, List.mem_cons, List.not_mem_nil, or_false] at hf
    rcases hf with rfl | rfl | rfl | rfl | rfl <;> refine ⟨by decide, ?_⟩ <;> intro mode n <;> cases mode <;> cases n <;> decide
  have h2 := signBit_le f n
  have h3 : 2 ^ (f.eb + f.mb + 1) = 2 * 2 ^ (f.eb + f.mb) := by ring
  have h4 : 0 < 2 ^ (f.eb + f.mb) := by positivity
  unfold Fmt.roundFin
  split
  · show f.signBit n < _; omega
  · dsimp only
    generalize (if e + ↑(bitLen m) - 1 - ↑f.mb < 1 - ↑f.bias - ↑f.mb then 1 - ↑f.bias - ↑f.mb else e + ↑(bitLen m) - 1 - ↑f.mb : Int) = q
    generalize (roundAt mode n m e s q).1 + (q - (1 - ↑f.bias - ↑f.mb)).toNat * 2 ^ f.mb = mag
    split
    · have := h1.2 mode n; show f.overflow mode n + f.signBit n < _; omega
    · show mag + f.signBit n < _; omega

theorem fmt_mem (t : Ty) : t.fmt ∈ formats := by cases t <;> decide

theorem float_lt (x : Iss) (t : Ty) (ht : t.isFloat = true) (f o l) : x.float t f o l < 2 ^ t.bits := by
  unfold Iss.float
  have hb : t.bits = t.fmt.eb + t.fmt.mb + 1 := by cases t <;> simp_all [Ty.isFloat] <;> rfl
  have h : 0 < 2 ^ t.bits := by positivity
  split
  · unfold floatOfImm Fmt.round FVal.ofInt
    rw [hb]; exact roundFin_lt (fmt_mem t) _ _ _ _ _
  · exact Nat.mod_lt _ h
  · simp only
    split
    · refine Nat.xor_lt_two_pow (Nat.mod_lt _ h) ?_
      rw [hb]; simp only [Nat.add_sub_cancel]; exact Nat.pow_lt_pow_right (by decide) (by omega)
    · exact Nat.mod_lt _ h

theorem isFT_float {t : Ty} (h : t.isFT = true) : t.isFloat = true ∧ t.bits = t.fmt.eb + t.fmt.mb + 1 :=
    by cases t <;> simp_all [Ty.isFT] <;> decide

theorem cond_spec (f : Fmt) (k : Cond) (a b : Nat) : (f.cond k a b).2 = signals [f.unpack a, f.unpack b] ∧
   ((f.cond k a b).1 = true ↔ FloatCond k (f.unpack a) (f.unpack b)) := by
  refine ⟨signals_eq _ _, ?_⟩
  unfold Fmt.cond FloatCond
  cases hx : (f.unpack a).isNan
  · cases hy : (f.unpack b).isNan
    · obtain ⟨h1, h2, h3⟩ := cmp_spec _ _ hx hy
      cases k <;> simp [← h1, ← h2, ← h3, hx, hy]
    · cases k <;> simp [hx, hy]
  · cases k <;> simp [hx]

theorem unpack_fin {f : Fmt} {a : Nat} {n m e} (h : f.unpack a = .fin n m e) :
   n = f.neg a ∧ ((a % 2 ^ (f.eb + f.mb) / 2 ^ f.mb = 0 ∧ m < 2 ^ f.mb ∧ e = 1 - (f.bias : Int) - f.mb) ∨
    (a % 2 ^ (f.eb + f.mb) / 2 ^ f.mb ≠ 0 ∧ 2 ^ f.mb ≤ m ∧ 1 - (f.bias : Int) - f.mb ≤ e)) := by
  unfold Fmt.unpack at h
  simp only at h
  split at h
  · cases h
  · split at h
    · split at h <;> cases h
    · split at h
      · rename_i h0
        cases h
        refine ⟨rfl, .inl ⟨by simpa using h0, Nat.mod_lt _ (by positivity), rfl⟩⟩
      · rename_i h0
        cases h
        refine ⟨rfl, .inr ⟨by simpa using h0, by omega, ?_⟩⟩
        have h1 : a % 2 ^ (f.eb + f.mb) / 2 ^ f.mb ≠ 0 := by simpa using h0
        generalize a % 2 ^ (f.eb + f.mb) / 2 ^ f.mb = z at *
        omega

theorem fclass_spec (f : Fmt) (a : Nat) : f.fclass a = BitVec.ofNat 32 (2 ^ classBit f (f.unpack a)) := by
  unfold Fmt.fclass classBit
  cases h : f.unpack a with
  | inf n => cases n <;> rfl
  | nan n => cases n <;> rfl
  | fin n m e =>
    obtain ⟨h1, h2⟩ := unpack_fin h
    subst h1
    dsimp only
    by_cases hm : m = 0
    · subst hm; cases hn : f.neg a <;> simp
    · have hpow : (0:ℚ) < 2 ^ e := by positivity
      have habs : |(FVal.fin (f.neg a) m e).val| = m * 2 ^ e := by
        simp only [FVal.val]
        cases f.neg a <;> simp [abs_mul, abs_of_pos hpow]
      rw [habs]
      rcases h2 with ⟨h3, h4, h5⟩ | ⟨h3, h4, h5⟩
      · have : (m : ℚ) * 2 ^ e < 2 ^ (1 - (f.bias : Int)) := by
          have : (2:ℚ) ^ (1 - (f.bias : Int)) = 2 ^ f.mb * 2 ^ e := by
            rw [← zpow_natCast, ← zpow_add₀ (by norm_num), h5]; congr 1; ring
          rw [this]
          exact mul_lt_mul_of_pos_right (by exact_mod_cast h4) hpow
        simp only [hm, beq_iff_eq, h3, if_true, if_false, this]
        cases f.neg a <;> simp
      · have : ¬ (m : ℚ) * 2 ^ e < 2 ^ (1 - (f.bias : Int)) := by
          rw [not_lt]
          have : (2:ℚ) ^ (1 - (f.bias : Int)) = 2 ^ f.mb * 2 ^ (1 - (f.bias : Int) - f.mb) := by
            rw [← zpow_natCast, ← zpow_add₀ (by norm_num)]; congr 1; ring
          rw [this]
          exact mul_le_mul (by exact_mod_cast h4) (zpow_le_zpow_right₀ (by norm_num) h5) (by positivity) (by positivity)
        simp only [hm, beq_iff_eq, h3, if_false, this]
        cases f.neg a <;> simp

/-- A magnitude u ≥ 0 rounded to the natural number n under the sign `neg`. -/
def MagRounds (mode : Rnd) (neg : Bool) (u : ℝ) (n : Nat) : Prop :=
  match mode with
  | .rne => |u - n| ≤ 1 / 2 ∧ (|u - n| = 1 / 2 → n % 2 = 0)
  | .rna => |u - n| ≤ 1 / 2 ∧ (|u - n| = 1 / 2 → u < n)
  | .rz => n ≤ u ∧ u < n + 1
  | .ru => if neg then n ≤ u ∧ u < n + 1 else u ≤ n ∧ n < u + 1
  | .rd => if neg then u ≤ n ∧ n < u + 1 else n ≤ u ∧ u < n + 1

theorem magRounds_exact (mode : Rnd) (neg : Bool) (n : Nat) : MagRounds mode neg n n := by
  unfold MagRounds
  cases mode <;> cases neg <;> simp

/-- What `roundAt` does to a significand with a rest d in [0, 1) of its unit, 0 unless `s`. -/
theorem roundAt_spec (mode : Rnd) (neg s : Bool) (m : Nat) (e q : Int) (d : ℝ) (h0 : 0 ≤ d) (h1 : d < 1)
    (hs : s = true ↔ 0 < d) (hq : s = true → e < q) :
    MagRounds mode neg ((m + d) * 2 ^ e / 2 ^ q) (roundAt mode neg m e s q).1
    ∧ ((roundAt mode neg m e s q).2 = false ↔ (m + d) * 2 ^ e / 2 ^ q = ((roundAt mode neg m e s q).1 : ℝ)) := by
  unfold roundAt
  by_cases hqe : q ≤ e
  · have hs' : s = false := by cases s; rfl; exact absurd (hq rfl) (by omega)
    have hd : d = 0 := by
      rcases h0.lt_or_eq with h | h
      · rw [← hs] at h; rw [hs'] at h; cases h
      · exact h.symm
    subst hd hs'
    simp only [hqe, if_true, add_zero]
    have : (m : ℝ) * 2 ^ e / 2 ^ q = ((m * 2 ^ (e - q).toNat : Nat) : ℝ) := by
      push_cast
      rw [mul_div_assoc, ← zpow_sub₀ (by norm_num), ← zpow_natCast]
      congr 2; omega
    rw [this]
    exact ⟨magRounds_exact _ _ _, by simp⟩
  · simp only [hqe, if_false]
    generalize hsh : (q - e).toNat = sh
    obtain ⟨k, rfl⟩ : ∃ k, sh = k + 1 := ⟨sh - 1, by omega⟩
    have hu : (m + d) * 2 ^ e / 2 ^ q = (m + d) / 2 ^ (k + 1) := by
      rw [mul_div_assoc, ← zpow_sub₀ (by norm_num), ← zpow_natCast, div_eq_mul_inv, ← zpow_neg]
      congr 2; omega
    rw [hu]
    simp only [Nat.add_sub_cancel]
    have hP : (0:ℝ) < 2 ^ k := by positivity
    have hPn : 0 < 2 ^ k := by positivity
    have hdm := Nat.div_add_mod m (2 ^ (k + 1))
    have hml : m % 2 ^ (k + 1) < 2 ^ (k + 1) := Nat.mod_lt _ (by positivity)
    generalize m / 2 ^ (k + 1) = n at *
    generalize m % 2 ^ (k + 1) = r at *
    have h2 : (2:Nat) ^ (k + 1) = 2 * 2 ^ k := by ring
    have h2r : (2:ℝ) ^ (k + 1) = 2 * 2 ^ k := by ring
    rw [h2] at hdm hml
    -- u = n + f with f = (r + d) / (2 P)
    obtain ⟨f, hf⟩ : ∃ f : ℝ, f = (r + d) / (2 * 2 ^ k) := ⟨_, rfl⟩
    have hu2 : (m + d) / 2 ^ (k + 1) = n + f := by
      rw [hf, h2r, ← hdm]; push_cast; field_simp; ring
    have hf0 : 0 ≤ f := by rw [hf]; positivity
    have hf1 : f < 1 := by
      rw [hf, div_lt_one (by positivity)]
      have : (r : ℝ) + 1 ≤ 2 * 2 ^ k := by exact_mod_cast hml
      linarith
    have hfz : f = 0 ↔ (r = 0 ∧ s = false) := by
      rw [hf, div_eq_zero_iff]
      have : (2 * 2 ^ k : ℝ) ≠ 0 := by positivity
      simp only [this, or_false]
      have hr : (0:ℝ) ≤ r := by positivity
      constructor
      · intro h
        have : d = 0 := by linarith
        have h3 : (r : ℝ) = 0 := by linarith
        refine ⟨by exact_mod_cast h3, ?_⟩
        cases s; rfl; have := hs.1 rfl; linarith
      · rintro ⟨rfl, rfl⟩
        have : d = 0 := by
          rcases h0.lt_or_eq with h | h
          · rw [← hs] at h; cases h
          · exact h.symm
        simp [this]
    have hhalf : (f < 1 / 2 ↔ r < 2 ^ k) ∧ (f = 1 / 2 ↔ r = 2 ^ k ∧ s = false) := by
      have e1 : f < 1 / 2 ↔ (r : ℝ) + d < 2 ^ k := by
        rw [hf, div_lt_div_iff₀ (by positivity) (by norm_num)]; constructor <;> intro h <;> linarith
      have e2 : f = 1 / 2 ↔ (r : ℝ) + d = 2 ^ k := by
        rw [hf, div_eq_div_iff (by positivity) (by norm_num)]; constructor <;> intro h <;> linarith
      rw [e1, e2]
      refine ⟨⟨fun h => ?_, fun h => ?_⟩, ⟨fun h => ?_, ?_⟩⟩
      · have : (r : ℝ) < 2 ^ k := by linarith
        exact_mod_cast this
      · have : (r : ℝ) + 1 ≤ 2 ^ k := by exact_mod_cast h
        linarith
      · have h3 : (r : ℝ) ≤ 2 ^ k := by linarith
        have h3 : r ≤ 2 ^ k := by exact_mod_cast h3
        rcases Nat.lt_or_eq_of_le h3 with h4 | h4
        · have : (r : ℝ) + 1 ≤ 2 ^ k := by exact_mod_cast h4
          linarith
        · refine ⟨h4, ?_⟩
          have : (r : ℝ) = 2 ^ k := by rw [h4]; push_cast; rfl
          cases s; rfl; have := hs.1 rfl; linarith
      · rintro ⟨rfl, rfl⟩
        have : d = 0 := by
          rcases h0.lt_or_eq with h | h
          · rw [← hs] at h; cases h
          · exact h.symm
        rw [this]; push_cast; ring
    rw [hu2]
    have hix : ((r != 0 || s) = false ↔ f = 0) := by rw [hfz]; cases s <;> simp
    obtain ⟨hlt, heq⟩ := hhalf
    -- outcome up or not
    have key : (roundsUp mode neg n r (2 ^ k) s = false → MagRounds mode neg (n + f) n) ∧
        (roundsUp mode neg n r (2 ^ k) s = true → MagRounds mode neg (n + f) (n + 1) ∧ f ≠ 0) := by
      unfold roundsUp MagRounds
      cases mode
      · -- rne
        constructor
        · intro h
          simp only [Bool.or_eq_false_iff, decide_eq_false_iff_not, Bool.and_eq_false_iff, beq_eq_false_iff_ne] at h
          have hr : r ≤ 2 ^ k := by omega
          have hle : f ≤ 1 / 2 := by
            rcases Nat.lt_or_eq_of_le hr with h3 | h3
            · exact le_of_lt (hlt.2 h3)
            · refine le_of_eq (heq.2 ⟨h3, ?_⟩); rcases h.2 with h4 | h4; exact absurd h3 h4; exact h4.1
          refine ⟨by rw [add_sub_cancel_left, abs_of_nonneg hf0]; exact hle, ?_⟩
          rw [add_sub_cancel_left, abs_of_nonneg hf0]
          intro h3
          have := heq.1 h3
          rcases h.2 with h4 | h4
          · exact absurd this.1 h4
          · have := h4.2; omega
        · intro h
          simp only [Bool.or_eq_true, decide_eq_true_eq, Bool.and_eq_true, beq_iff_eq] at h
          have hge : 1 / 2 ≤ f := by rw [← not_lt, hlt]; omega
          have e : ((n : ℝ) + f) - (n + 1 : Nat) = -(1 - f) := by push_cast; ring
          rw [e, abs_neg, abs_of_nonneg (by linarith)]
          refine ⟨⟨by linarith, ?_⟩, by intro h; linarith⟩
          intro h3
          have := heq.1 (by linarith)
          rcases h with h | ⟨h4, h5 | h5⟩
          · omega
          · rw [this.2] at h5; cases h5
          · omega
      · -- rna
        constructor
        · intro h
          have hr : r < 2 ^ k := by
            simp only [Bool.and_eq_false_iff, decide_eq_false_iff_not, bne_eq_false_iff_eq] at h; omega
          have := hlt.2 hr
          refine ⟨by rw [add_sub_cancel_left, abs_of_nonneg hf0]; linarith, ?_⟩
          rw [add_sub_cancel_left, abs_of_nonneg hf0]
          intro h3; linarith
        · intro h
          simp only [Bool.and_eq_true, decide_eq_true_eq] at h
          have hge : 1 / 2 ≤ f := by rw [← not_lt, hlt]; omega
          have e : ((n : ℝ) + f) - (n + 1 : Nat) = -(1 - f) := by push_cast; ring
          rw [e, abs_neg, abs_of_nonneg (by linarith)]
          exact ⟨⟨by linarith, fun _ => by push_cast; linarith⟩, by intro h; linarith⟩
      · exact ⟨fun _ => ⟨by linarith, by linarith⟩, fun h => by cases h⟩
      · cases neg
        · constructor
          · intro h
            have : f = 0 := hix.1 (by simpa using h)
            simp [this]
          · intro h
            have : f ≠ 0 := fun h3 => by simp only [hix.2 h3] at h; cases h
            have : 0 < f := lt_of_le_of_ne hf0 (Ne.symm this)
            refine ⟨?_, by assumption⟩
            simp only [Bool.false_eq_true, if_false]
            push_cast; constructor <;> linarith
        · exact ⟨fun _ => ⟨by linarith, by linarith⟩, fun h => by simp at h⟩
      · cases neg
        · exact ⟨fun _ => ⟨by linarith, by linarith⟩, fun h => by simp at h⟩
        · constructor
          · intro h
            have : f = 0 := hix.1 (by simpa using h)
            simp [this]
          · intro h
            have : f ≠ 0 := fun h3 => by simp only [hix.2 h3] at h; cases h
            have : 0 < f := lt_of_le_of_ne hf0 (Ne.symm this)
            refine ⟨?_, by assumption⟩
            simp only [if_true]
            push_cast; constructor <;> linarith
    cases hr : roundsUp mode neg n r (2 ^ k) s
    · refine ⟨key.1 hr, ?_⟩
      simp only [Bool.false_eq_true, if_false]
      rw [hix]; constructor <;> intro h <;> linarith
    · have h3 := key.2 hr
      refine ⟨by simpa using h3.1, ?_⟩
      simp only [if_true]
      rw [hix]
      constructor
      · intro h; exact absurd h h3.2
      · intro h; push_cast at h; linarith

theorem absLe {u : ℚ} {n : Nat} (h : |(u:ℝ) - n| ≤ 1 / 2) : |u - n| ≤ 1 / 2 := by
  rw [abs_le] at h ⊢
  constructor
  · have : ((-(1/2) : ℚ) : ℝ) ≤ ((u - n : ℚ) : ℝ) := by push_cast; linarith [h.1]
    exact_mod_cast this
  · have : ((u - n : ℚ) : ℝ) ≤ ((1/2 : ℚ) : ℝ) := by push_cast; linarith [h.2]
    exact_mod_cast this

theorem roundsTo_of {mode : Rnd} {neg : Bool} {m : Nat} {e : Int} {n : Nat} (h : MagRounds mode neg ((m : ℝ) * 2 ^ e) n) :
    RoundsTo mode (FVal.fin neg m e).val (if neg then -(n : Int) else n) := by
  have hu : (((m : ℚ) * 2 ^ e : ℚ) : ℝ) = (m : ℝ) * 2 ^ e := by push_cast; rfl
  have h0 : (0:ℚ) ≤ (m : ℚ) * 2 ^ e := by positivity
  rw [← hu] at h
  have hv : (FVal.fin neg m e).val = (if neg then -1 else 1) * ((m : ℚ) * 2 ^ e) := by simp only [FVal.val]; ring
  rw [hv]
  generalize (m : ℚ) * 2 ^ e = u at h h0
  unfold RoundsTo
  unfold MagRounds at h
  have hn : (0:ℚ) ≤ n := by positivity
  cases mode <;> simp only at h ⊢
  · obtain ⟨h1, h2⟩ := h
    have h1' : |u - n| ≤ 1 / 2 := absLe h1
    have hc : ((u:ℝ) - n) = ((u - n : ℚ) : ℝ) := by push_cast; rfl
    have h2' : |u - n| = 1 / 2 → n % 2 = 0 := by
      intro h3
      apply h2
      rw [hc, ← Rat.cast_abs, h3]
      norm_num
    cases neg
    · simp only [Bool.false_eq_true, if_false, one_mul]; refine ⟨by exact_mod_cast h1', ?_⟩
      intro h3; have := h2' (by exact_mod_cast h3); omega
    · simp only [if_true]
      have e : (-1 * u - ((-(n:Int) : Int) : ℚ)) = -(u - n) := by push_cast; ring
      rw [e, abs_neg]
      exact ⟨h1', fun h3 => by have := h2' h3; omega⟩
  · obtain ⟨h1, h2⟩ := h
    have h1' : |u - n| ≤ 1 / 2 := absLe h1
    have hc : ((u:ℝ) - n) = ((u - n : ℚ) : ℝ) := by push_cast; rfl
    have h2' : |u - n| = 1 / 2 → u < n := by
      intro h3
      have := h2 (by rw [hc, ← Rat.cast_abs, h3]; norm_num)
      exact_mod_cast this
    cases neg
    · simp only [Bool.false_eq_true, if_false, one_mul]; refine ⟨by exact_mod_cast h1', ?_⟩
      intro h3; have := h2' (by exact_mod_cast h3)
      rw [abs_of_nonneg h0]; push_cast; rw [abs_of_nonneg hn]; exact this
    · simp only [if_true]
      have e : (-1 * u - ((-(n:Int) : Int) : ℚ)) = -(u - n) := by push_cast; ring
      rw [e, abs_neg]
      refine ⟨h1', fun h3 => ?_⟩
      have := h2' h3
      push_cast
      rw [abs_neg, abs_of_nonneg hn, neg_one_mul, abs_neg, abs_of_nonneg h0]; exact this
  · have h' : (n:ℚ) ≤ u ∧ u < n + 1 := ⟨by exact_mod_cast h.1, by exact_mod_cast h.2⟩
    cases neg
    · simp only [Bool.false_eq_true, if_false, one_mul]; push_cast; rw [abs_of_nonneg hn, abs_of_nonneg h0,
        abs_of_nonneg (by linarith)]
      exact ⟨h'.1, by linarith, by positivity⟩
    · simp only [if_true]; push_cast
      have e : (-1 * u - -(n:ℚ)) = -(u - n) := by ring
      rw [e, abs_neg, abs_neg, neg_one_mul, abs_neg, abs_of_nonneg hn, abs_of_nonneg h0, abs_of_nonneg (by linarith)]
      exact ⟨h'.1, by linarith, by nlinarith⟩
  · cases neg
    · simp only [Bool.false_eq_true, if_false, one_mul] at h ⊢
      exact ⟨by exact_mod_cast h.1, by exact_mod_cast h.2⟩
    · simp only [if_true] at h ⊢
      have h' : (n:ℚ) ≤ u ∧ u < n + 1 := ⟨by exact_mod_cast h.1, by exact_mod_cast h.2⟩
      push_cast; constructor <;> linarith
  · cases neg
    · simp only [Bool.false_eq_true, if_false, one_mul] at h ⊢
      exact ⟨by exact_mod_cast h.1, by exact_mod_cast h.2⟩
    · simp only [if_true] at h ⊢
      have h' : u ≤ (n:ℚ) ∧ (n:ℚ) < u + 1 := ⟨by exact_mod_cast h.1, by exact_mod_cast h.2⟩
      push_cast; constructor <;> linarith

theorem round0_spec (mode : Rnd) (neg : Bool) (m : Nat) (e : Int) :
    RoundsTo mode (FVal.fin neg m e).val (if neg then -((roundAt mode neg m e false 0).1 : Int) else (roundAt mode neg m e false 0).1)
    ∧ ((roundAt mode neg m e false 0).2 = false ↔
        (FVal.fin neg m e).val = ((if neg then -((roundAt mode neg m e false 0).1 : Int) else (roundAt mode neg m e false 0).1 : Int) : ℚ)) := by
  have h := roundAt_spec mode neg false m e 0 0 (le_refl _) (by norm_num) (by simp) (by simp)
  simp only [add_zero, zpow_zero, div_one] at h
  refine ⟨roundsTo_of h.1, ?_⟩
  rw [h.2]
  have : (m : ℝ) * 2 ^ e = (((m : ℚ) * 2 ^ e : ℚ) : ℝ) := by push_cast; rfl
  rw [this]
  have hv : (FVal.fin neg m e).val = (if neg then -1 else 1) * ((m : ℚ) * 2 ^ e) := by simp only [FVal.val]; ring
  rw [hv]
  generalize (roundAt mode neg m e false 0).1 = n
  constructor
  · intro h3
    have : (m : ℚ) * 2 ^ e = n := by exact_mod_cast h3
    rw [this]; cases neg <;> simp
  · intro h3
    have : (m : ℚ) * 2 ^ e = n := by cases neg <;> simp at h3 <;> linarith
    rw [this]; simp

theorem clampW (t : Ty) (k : Int) (hlh : t.lo ≤ t.hi) : (if k < t.lo then t.lo else if t.hi < k then t.hi else k) = max t.lo (min t.hi k) := by
  split
  · omega
  · split <;> omega

theorem lo_hi (t : Ty) : t.lo ≤ t.hi := by cases t <;> decide

theorem keep_spec (dt : Ty) (sat : Bool) (p : Nat) (f : Word) :
   let r := if sat then dt.fmt.sat (p, f) else (p, f)
   if sat = true ∧ (dt.fmt.unpack p).rank ≠ 0 then
      r.1 = dt.fmt.maxFin + dt.fmt.signBit (dt.fmt.unpack p).negative ∧ r.2 = f ||| flOV
    else r.1 = p ∧ r.2 = f := by
  unfold Fmt.sat
  cases sat
  · simp
  · cases hu : dt.fmt.unpack p <;> simp [FVal.rank, FVal.negative, hu]
    split <;> simp

theorem infPat (f : Fmt) (n : Bool) : (f.round .rne (.inf n)) = if f.hasInf then ((2 ^ f.eb - 1) * 2 ^ f.mb + f.signBit n, 0) else (f.maxFin + f.signBit n, flOV) := rfl

theorem cvt_spec (mode : Rnd) (dt st : Ty) (hdt : dt.isCvt = true) (sat : Bool) {a : Nat} (ha : a < 2 ^ st.bits) :
    Converted mode dt st sat a (cvtValue mode dt st sat a).val (cvtValue mode dt st sat a).fl (cvtValue mode dt st sat a).ash := by
  unfold Converted cvtValue
  simp only [Nat.mod_eq_of_lt ha]
  by_cases hs : st.isFloat = true
  · simp only [hs, if_true]
    by_cases hd : dt.isFloat = true
    · simp only [hd, if_true]
      by_cases he : dt = st
      · subst he
        simp only [beq_self_eq_true, if_true]
        cases hu : dt.fmt.unpack a with
        | nan s => simp
        | inf n =>
          simp only
          have hInf : dt.fmt.hasInf = true := by
            by_contra hc
            have : dt.fmt = fmtE4 := by cases dt <;> simp_all [Ty.fmt] <;> simp_all [fmt32, fmt16, fmtB16, fmtE5]
            unfold Fmt.unpack at hu
            rw [this] at hu
            simp [fmtE4] at hu
            split at hu <;> [skip; split at hu] <;> cases hu
          simp only [hInf, if_true]
          have hp : a = (2 ^ dt.fmt.eb - 1) * 2 ^ dt.fmt.mb + dt.fmt.signBit n := by
            have hb : dt.bits = dt.fmt.eb + dt.fmt.mb + 1 := by cases dt <;> simp_all [Ty.isFloat] <;> rfl
            unfold Fmt.unpack at hu
            simp only [hInf, Bool.not_true, Bool.false_and, Bool.false_eq_true, if_false, Bool.true_and] at hu
            split at hu
            · rename_i hx
              split at hu
              · rename_i hf
                cases hu
                simp only [beq_iff_eq] at hx hf
                have h1 := Nat.div_add_mod (a % 2 ^ (dt.fmt.eb + dt.fmt.mb)) (2 ^ dt.fmt.mb)
                have h2 := Nat.div_add_mod a (2 ^ (dt.fmt.eb + dt.fmt.mb))
                have h3 : a / 2 ^ (dt.fmt.eb + dt.fmt.mb) < 2 := by
                  rw [Nat.div_lt_iff_lt_mul (by positivity)]; rw [hb, pow_succ] at ha; rw [mul_comm]; exact ha
                rw [hx, hf] at h1
                rw [← h1] at h2
                unfold Fmt.signBit Fmt.neg
                generalize a / 2 ^ (dt.fmt.eb + dt.fmt.mb) = z at h2 h3 ⊢
                have : z = 0 ∨ z = 1 := by omega
                rcases this with h4 | h4 <;> rw [h4] at h2 ⊢ <;> simp <;> rw [mul_comm (2 ^ dt.fmt.mb)] at h2 <;> omega
              · cases hu
            · split at hu <;> cases hu
          rw [← hp]
          exact ⟨keep_spec dt sat a 0, by trivial⟩
        | fin n m e =>
          simp only
          refine ⟨trivial, ?_⟩
          have := keep_spec dt sat a 0
          rw [hu] at this
          exact this
      · have : (dt == st) = false := by simpa using he
        simp only [this, Bool.false_eq_true, if_false]
        cases hu : st.fmt.unpack a with
        | nan s =>
          simp only [FVal.toFloat]
          have hn : (dt.fmt.unpack dt.fmt.nan).rank = 0 := by cases dt <;> decide
          have := keep_spec dt sat dt.fmt.nan (if s then flNV else 0)
          simp only [hn, ne_eq, not_true_eq_false, and_false, if_false] at this
          exact ⟨this.1, this.2, trivial⟩
        | inf n =>
          have h := keep_spec dt sat (dt.fmt.round mode (.inf n)).1 (dt.fmt.round mode (.inf n)).2
          simp only [FVal.toFloat]
          by_cases hI : dt.fmt.hasInf = true
          · simp only [hI, if_true]
            simp only [Fmt.round, hI, if_true] at h ⊢
            exact ⟨h, trivial⟩
          · simp only [hI]
            simp only [Fmt.round, hI] at h ⊢
            have hE : dt.fmt = fmtE4 := by cases dt <;> simp_all [Ty.fmt] <;> simp_all [fmt32, fmt16, fmtB16, fmtE5]
            have hr : (dt.fmt.unpack (dt.fmt.maxFin + dt.fmt.signBit n)).rank = 0 := by rw [hE]; cases n <;> decide
            simp only [Bool.false_eq_true, if_false, hr, ne_eq, not_true_eq_false, and_false] at h ⊢
            exact ⟨h.1, h.2, trivial⟩
        | fin n m e =>
          simp only [FVal.toFloat, he, if_false]
          exact ⟨trivial, keep_spec dt sat _ _⟩
    · simp only [hd]
      cases hu : st.fmt.unpack a with
      | nan s => simp [FVal.toInt]
      | inf n => simp [FVal.toInt]
      | fin n m e =>
        simp only [FVal.toInt, Bool.false_eq_true, if_false]
        obtain ⟨h1, h2⟩ := round0_spec mode n m e
        generalize (roundAt mode n m e false 0) = r at h1 h2
        have hk : (if n then -(r.1 : Int) else (r.1 : Int)) = if n = true then -(r.1 : Int) else r.1 := rfl
        generalize hkk : (if n = true then -(r.1 : Int) else r.1 : Int) = k at h1 h2
        have hlh := lo_hi dt
        by_cases c1 : k < dt.lo
        · simp only [c1, if_true]
          refine ⟨trivial, k, h1, ?_, by simp [c1]⟩
          congr 1; omega
        · by_cases c2 : dt.hi < k
          · simp only [c1, c2, if_true, if_false]
            refine ⟨trivial, k, h1, ?_, by simp [c2]⟩
            congr 1; omega
          · simp only [c1, c2, if_false]
            refine ⟨trivial, k, h1, by congr 1; omega, ?_⟩
            have hor : ¬ (k < dt.lo ∨ dt.hi < k) := by omega
            try simp only [hor, if_false]
            cases hr : r.2
            · have := h2.1 hr; simp [this]
            · have : ¬ (FVal.fin n m e).val = k := fun h => by rw [h2.2 h] at hr; cases hr
              simp [this]
  · simp only [hs, Bool.false_eq_true, if_false]
    by_cases hd : dt.isFloat = true
    · simp only [hd, if_true]
      exact ⟨trivial, keep_spec dt sat _ _⟩
    · simp only [hd, Bool.false_eq_true, if_false]
      have hlh := lo_hi dt
      cases sat
      · simp
      · simp only [if_true, Bool.true_and]
        by_cases c1 : st.intOf a < dt.lo
        · have : max dt.lo (min dt.hi (st.intOf a)) = dt.lo := by omega
          rw [this]
          simp [c1, not_le.2 c1]
        · by_cases c2 : dt.hi < st.intOf a
          · have : max dt.lo (min dt.hi (st.intOf a)) = dt.hi := by omega
            rw [this]
            simp [c1, c2, not_le.2 c2]
          · have : max dt.lo (min dt.hi (st.intOf a)) = st.intOf a := by omega
            rw [this]
            simp [c1, c2, not_lt.1 c1, not_lt.1 c2]

/-- Facts that hold of each format. -/
theorem fmt_facts {f : Fmt} (hf : f ∈ formats) : 0 < f.eb ∧ (0 < f.mb ∧ 0 < f.bias) ∧ f.maxFin < 2 ^ (f.eb + f.mb) ∧
   (f.hasInf = true → f.maxFin + 1 = (2 ^ f.eb - 1) * 2 ^ f.mb) ∧ (f.hasInf = false →
       f.maxFin + 2 = 2 ^ (f.eb + f.mb)) := by
  simp only [formats, List.mem_cons, List.not_mem_nil, or_false] at hf
  rcases hf with rfl | rfl | rfl | rfl | rfl <;> decide

/-- A normalised significand, packed, decodes to its value. -/
theorem unpack_pack {f : Fmt} (hf : f ∈ formats) (neg : Bool) {n : Nat} {q : Int} (hq : 1 - (f.bias : Int) - f.mb ≤ q)
    (hn : n ≤ 2 ^ (f.mb + 1)) (hn2 : 1 - (f.bias : Int) - f.mb < q → 2 ^ f.mb ≤ n)
    (hm : n + (q - (1 - (f.bias : Int) - f.mb)).toNat * 2 ^ f.mb ≤ f.maxFin) :
    ∃ m e, f.unpack (n + (q - (1 - (f.bias : Int) - f.mb)).toNat * 2 ^ f.mb + f.signBit neg) = .fin neg m e
      ∧ (m : ℚ) * 2 ^ e = n * 2 ^ q := by
  obtain ⟨h1, ⟨h2, hbias⟩, h3, h4, h5⟩ := fmt_facts hf
  obtain ⟨k, rfl⟩ : ∃ k : Nat, q = 1 - (f.bias : Int) - f.mb + k := ⟨(q - (1 - (f.bias : Int) - f.mb)).toNat,
      by omega⟩
  have e1 : (1 - (f.bias : Int) - f.mb + k - (1 - (f.bias : Int) - f.mb)).toNat = k := by omega
  rw [e1] at hm ⊢
  have hlt : n + k * 2 ^ f.mb < 2 ^ (f.eb + f.mb) := by omega
  have hneg : f.neg (n + k * 2 ^ f.mb + f.signBit neg) = neg ∧
      (n + k * 2 ^ f.mb + f.signBit neg) % 2 ^ (f.eb + f.mb) = n + k * 2 ^ f.mb := by
    unfold Fmt.neg Fmt.signBit
    cases neg
    · simp [Nat.div_eq_of_lt hlt, Nat.mod_eq_of_lt hlt]
    · simp only [if_true]
      rw [Nat.add_div_right _ (by positivity), Nat.div_eq_of_lt hlt, Nat.add_mod_right, Nat.mod_eq_of_lt hlt]
      simp
  have hP : 0 < 2 ^ f.mb := by positivity
  have hPs : 2 ^ (f.mb + 1) = 2 * 2 ^ f.mb := by ring
  unfold Fmt.unpack
  rw [hneg.1, hneg.2]
  have hEM : 2 ^ (f.eb + f.mb) = 2 ^ f.eb * 2 ^ f.mb := by ring
  dsimp only
  have c1 : (!f.hasInf && n + k * 2 ^ f.mb == 2 ^ (f.eb + f.mb) - 1) = false := by
    cases hI : f.hasInf
    · have := h5 hI; simp; omega
    · simp
  have c2 : (f.hasInf && (n + k * 2 ^ f.mb) / 2 ^ f.mb == 2 ^ f.eb - 1) = false := by
    cases hI : f.hasInf
    · simp
    · have := h4 hI
      have : (n + k * 2 ^ f.mb) / 2 ^ f.mb < 2 ^ f.eb - 1 := by rw [Nat.div_lt_iff_lt_mul hP]; omega
      simp; omega
  simp only [c1, c2, Bool.false_eq_true, if_false, beq_iff_eq]
  rw [Nat.add_mul_div_right _ _ hP, Nat.add_mul_mod_self_right]
  have hz : (2:ℚ) ≠ 0 := by norm_num
  rcases lt_or_ge n (2 ^ f.mb) with hA | hA
  · have hk : k = 0 := by
      by_contra hc
      have := hn2 (by omega); omega
    subst hk
    simp only [Nat.div_eq_of_lt hA, Nat.add_zero, if_true, Nat.mod_eq_of_lt hA]
    exact ⟨_, _, rfl, by simp⟩
  · rcases lt_or_eq_of_le hn with hB | hB
    · have e2 : n / 2 ^ f.mb = 1 := by
        exact Nat.div_eq_of_lt_le (n := 2 ^ f.mb) (k := 1) (m := n) (by omega) (by omega)
      have e3 : n % 2 ^ f.mb = n - 2 ^ f.mb := by
        have := Nat.div_add_mod n (2 ^ f.mb); rw [e2] at this; omega
      rw [e2, e3]
      have : ¬ (1 + k = 0) := by omega
      simp only [this, if_false]
      refine ⟨_, _, rfl, ?_⟩
      have : 2 ^ f.mb + (n - 2 ^ f.mb) = n := by omega
      rw [this]; congr 2; push_cast; omega
    · have e2 : n / 2 ^ f.mb = 2 := by rw [hB, hPs]; exact Nat.mul_div_cancel _ hP
      have e3 : n % 2 ^ f.mb = 0 := by rw [hB, hPs]; exact Nat.mul_mod_left _ _
      rw [e2, e3]
      have : ¬ (2 + k = 0) := by omega
      simp only [this, if_false]
      refine ⟨_, _, rfl, ?_⟩
      rw [hB]; push_cast
      rw [add_zero, ← zpow_natCast, ← zpow_natCast]
      rw [← zpow_add₀ hz, ← zpow_add₀ hz]
      congr 1; push_cast; omega

theorem bitLen_spec {n : Nat} (h : n ≠ 0) : 2 ^ (bitLen n - 1) ≤ n ∧ n < 2 ^ bitLen n ∧ 0 < bitLen n := by
  unfold bitLen
  simp only [h, if_false, Nat.add_sub_cancel]
  exact ⟨Nat.log2_self_le h, Nat.lt_log2_self, by omega⟩

/-- A finite value of the format is packed exactly: the number n at exponent 0, n = m·2^(e') of a finite pattern. -/
theorem roundFin_exact {f : Fmt} (hf : f ∈ formats) (mode : Rnd) (neg : Bool) {n : Nat} (h0 : n ≠ 0) {c : Nat} {j : Nat}
    (hc : n = c * 2 ^ j) (hc2 : c < 2 ^ (f.mb + 1)) (hb : (f.mb : Int) + f.bias ≥ 1)
    (hmax : ∀ k, k ≤ bitLen n - 1 → k + f.bias + 1 < 2 ^ f.eb) :
    ∃ m e, f.unpack (f.roundFin mode neg n 0 false).1 = .fin neg m e ∧ (m : ℚ) * 2 ^ e = n := by
  obtain ⟨h1, ⟨h2, hbias⟩, h3, h4, h5⟩ := fmt_facts hf
  obtain ⟨b1, b2, b3⟩ := bitLen_spec h0
  unfold Fmt.roundFin
  have hne : (n == 0 && !false) = false := by simp [h0]
  simp only [hne, Bool.false_eq_true, if_false]
  generalize hq : (if (0:Int) + ↑(bitLen n) - 1 - ↑f.mb < 1 - ↑f.bias - ↑f.mb then 1 - ↑f.bias - ↑f.mb else 0 + ↑(bitLen n) - 1 - ↑f.mb : Int) = q
  have hqs : 1 - (f.bias : Int) - f.mb ≤ q := by split at hq <;> omega
  have hqt : (bitLen n : Int) - 1 - f.mb ≤ q := by split at hq <;> omega
  have hq2 : 1 - (f.bias : Int) - f.mb < q → q = (bitLen n : Int) - 1 - f.mb := by intro h; split at hq <;> omega
  -- the shift is exact
  have hex : ∃ r, (roundAt mode neg n 0 false q).1 = r ∧ (r : ℚ) * 2 ^ q = n := by
    refine ⟨_, rfl, ?_⟩
    unfold roundAt
    split
    · rename_i hq0
      push_cast
      rw [mul_assoc, ← zpow_natCast, ← zpow_add₀ (by norm_num)]
      have : ((0 - q).toNat : Int) + q = 0 := by omega
      rw [this]; simp
    · rename_i hq0
      have hpos : 0 < q := by omega
      have hqeq := hq2 (by omega)
      -- 2^q divides n
      have hqj : (q - 0).toNat ≤ j := by
        by_contra hcon
        have : n < 2 ^ (f.mb + 1) * 2 ^ j := by rw [hc]; exact Nat.mul_lt_mul_of_pos_right hc2 (by positivity)
        have h7 : 2 ^ (f.mb + 1) * 2 ^ j ≤ 2 ^ (bitLen n - 1) := by rw [← pow_add]; exact Nat.pow_le_pow_right (by decide) (by omega)
        omega
      obtain ⟨d, hd⟩ : ∃ d, n = d * 2 ^ (q - 0).toNat :=
        ⟨c * 2 ^ (j - (q - 0).toNat), by
          rw [hc, mul_assoc, ← pow_add]
          congr 2
          omega⟩
      have hr : n % 2 ^ (q - 0).toNat = 0 := by rw [hd]; exact Nat.mul_mod_left _ _
      have hdv : n / 2 ^ (q - 0).toNat = d := by rw [hd]; exact Nat.mul_div_cancel _ (by positivity)
      simp only [hr, hdv]
      obtain ⟨z, hz⟩ : ∃ z, (q - 0).toNat = z + 1 := ⟨(q-0).toNat - 1, by omega⟩
      have hru : roundsUp mode neg d 0 (2 ^ ((q - 0).toNat - 1)) false = false := by
        unfold roundsUp
        have : 0 < 2 ^ ((q - 0).toNat - 1) := by positivity
        generalize (2 ^ ((q - 0).toNat - 1)) = P at this ⊢
        cases mode <;> simp <;> omega
      simp only [hru, Bool.false_eq_true, if_false]
      rw [hd]; push_cast
      rw [← zpow_natCast]; congr 2; omega
  obtain ⟨r, hr1, hr2⟩ := hex
  rw [hr1]
  -- r is normalised
  have hrN : ∀ k : Nat, (q = (k : Int) → r * 2 ^ k = n) ∧ (q = -(k : Int) → r = n * 2 ^ k) := by
    intro k
    constructor
    · intro h; rw [h, zpow_natCast] at hr2; exact_mod_cast hr2
    · intro h; rw [h, zpow_neg, zpow_natCast] at hr2
      have : (r : ℚ) = n * 2 ^ k := by field_simp at hr2; linarith
      exact_mod_cast this
  have hup : r < 2 ^ (f.mb + 1) := by
    rcases le_total 0 q with hq0 | hq0
    · have := (hrN q.toNat).1 (by omega)
      have h8 : r * 2 ^ q.toNat < 2 ^ (f.mb + 1) * 2 ^ q.toNat := by
        rw [this, ← pow_add]; exact lt_of_lt_of_le b2 (Nat.pow_le_pow_right (by decide) (by omega))
      exact Nat.lt_of_mul_lt_mul_right h8
    · have := (hrN (-q).toNat).2 (by omega)
      rw [this]
      calc n * 2 ^ (-q).toNat < 2 ^ bitLen n * 2 ^ (-q).toNat := Nat.mul_lt_mul_of_pos_right b2 (by positivity)
        _ = 2 ^ (bitLen n + (-q).toNat) := by rw [pow_add]
        _ ≤ _ := Nat.pow_le_pow_right (by decide) (by omega)
  have hlo : 1 - (f.bias : Int) - f.mb < q → 2 ^ f.mb ≤ r := by
    intro h
    have hqe := hq2 h
    rcases le_total 0 q with hq0 | hq0
    · have h9 := (hrN q.toNat).1 (by omega)
      have h8 : 2 ^ f.mb * 2 ^ q.toNat ≤ r * 2 ^ q.toNat := by
        rw [h9, ← pow_add]; exact le_trans (Nat.pow_le_pow_right (by decide) (by omega)) b1
      exact Nat.le_of_mul_le_mul_right h8 (by positivity)
    · have h9 := (hrN (-q).toNat).2 (by omega)
      rw [h9]
      calc 2 ^ f.mb ≤ 2 ^ (bitLen n - 1 + (-q).toNat) := Nat.pow_le_pow_right (by decide) (by omega)
        _ = 2 ^ (bitLen n - 1) * 2 ^ (-q).toNat := by rw [pow_add]
        _ ≤ _ := Nat.mul_le_mul_right _ b1
  have hmag : r + (q - (1 - (f.bias : Int) - f.mb)).toNat * 2 ^ f.mb ≤ f.maxFin := by
    have hk := hmax (bitLen n - 1) (le_refl _)
    have hbound : ((q - (1 - (f.bias : Int) - f.mb)).toNat + 2 ≤ 2 ^ f.eb - 1) := by
      by_cases hh : 1 - (f.bias : Int) - f.mb < q
      · have := hq2 hh; omega
      · omega
    have hmul : ((q - (1 - (f.bias : Int) - f.mb)).toNat + 2) * 2 ^ f.mb ≤ (2 ^ f.eb - 1) * 2 ^ f.mb := Nat.mul_le_mul_right _ hbound
    have hP : 0 < 2 ^ f.mb := by positivity
    have hPs : 2 ^ (f.mb + 1) = 2 * 2 ^ f.mb := by ring
    rw [Nat.add_mul] at hmul
    cases hI : f.hasInf
    · have := h5 hI
      have hEM : 2 ^ (f.eb + f.mb) = (2 ^ f.eb - 1) * 2 ^ f.mb + 2 ^ f.mb := by
        have : 0 < 2 ^ f.eb := by positivity
        rw [pow_add, Nat.sub_mul]; have := Nat.le_mul_of_pos_left (2 ^ f.mb) this; omega
      have : 2 ≤ 2 ^ f.mb := by calc 2 = 2 ^ 1 := rfl
                                     _ ≤ _ := Nat.pow_le_pow_right (by decide) h2
      omega
    · have := h4 hI; omega
  rw [if_neg (by omega)]
  obtain ⟨m, e, hu, hv⟩ := unpack_pack hf neg hqs (by omega) hlo hmag
  exact ⟨m, e, hu, by rw [hv]; exact hr2⟩

theorem rint_spec {f : Fmt} (hf : f = fmt32 ∨ f = fmt16 ∨
    f = fmtB16) (mode : Rnd) {a : Nat} (ha : a < 2 ^ (f.eb + f.mb + 1)) :
    Integral f mode a (f.rint mode a).1 (f.rint mode a).2 := by
  have hI : f.hasInf = true := by rcases hf with rfl | rfl | rfl <;> rfl
  have hf' : f ∈ formats := by rcases hf with rfl | rfl | rfl <;> decide
  obtain ⟨g1, ⟨g2, -⟩, g3, g4, g5⟩ := fmt_facts hf'
  have h2 := Nat.div_add_mod a (2 ^ (f.eb + f.mb))
  have h3 : a / 2 ^ (f.eb + f.mb) < 2 := by
    rw [Nat.div_lt_iff_lt_mul (by positivity)]; rw [pow_succ] at ha; rw [mul_comm]; exact ha
  unfold Integral Fmt.rint
  cases hu : f.unpack a with
  | nan s => simp
  | inf n =>
    simp only [Fmt.round, hI, if_true]
    refine ⟨?_, trivial⟩
    unfold Fmt.unpack at hu
    simp only [hI, Bool.not_true, Bool.false_and, Bool.false_eq_true, if_false, Bool.true_and] at hu
    split at hu
    · rename_i hx
      split at hu
      · rename_i hz
        cases hu
        simp only [beq_iff_eq] at hx hz
        have h1 := Nat.div_add_mod (a % 2 ^ (f.eb + f.mb)) (2 ^ f.mb)
        rw [hx, hz] at h1
        rw [← h1] at h2
        unfold Fmt.signBit Fmt.neg
        generalize a / 2 ^ (f.eb + f.mb) = z at h2 h3 ⊢
        have : z = 0 ∨ z = 1 := by omega
        rcases this with h4 | h4 <;> rw [h4] at h2 ⊢ <;> simp <;> rw [mul_comm (2 ^ f.mb)] at h2 <;> omega
      · cases hu
    · split at hu <;> cases hu
  | fin n m e =>
    simp only
    by_cases hm : m = 0
    · subst hm
      simp only [beq_self_eq_true, if_true]
      refine ⟨?_, trivial⟩
      obtain ⟨q1, q2⟩ := unpack_fin hu
      -- a is the sign bit
      unfold Fmt.unpack at hu
      simp only at hu
      split at hu
      · cases hu
      · split at hu
        · split at hu <;> cases hu
        · split at hu
          · rename_i hx
            simp only [FVal.fin.injEq] at hu
            obtain ⟨rfl, hfr, -⟩ := hu
            have h1 := Nat.div_add_mod (a % 2 ^ (f.eb + f.mb)) (2 ^ f.mb)
            simp only [beq_iff_eq] at hx
            rw [hx, hfr] at h1
            rw [← h1] at h2
            unfold Fmt.signBit Fmt.neg
            generalize a / 2 ^ (f.eb + f.mb) = z at h2 h3 ⊢
            have : z = 0 ∨ z = 1 := by omega
            rcases this with h4 | h4 <;> rw [h4] at h2 ⊢ <;> simp <;> omega
          · have : 0 < 2 ^ f.mb := by positivity
            simp only [FVal.fin.injEq] at hu
            omega
    · simp only [hm, beq_iff_eq, if_false]
      refine ⟨trivial, _, (round0_spec mode n m e).1, ?_⟩
      generalize hr : (roundAt mode n m e false 0).1 = r
      by_cases h0 : r = 0
      · subst h0
        have : (f.roundFin mode n 0 0 false).1 = f.signBit n := by simp [Fmt.roundFin]
        rw [this]
        have : ∃ e', f.unpack (f.signBit n) = .fin n 0 e' := by
          rcases hf with rfl | rfl | rfl <;> cases n <;> exact ⟨_, rfl⟩
        obtain ⟨e', he'⟩ := this
        exact ⟨0, e', he', by rw [he']; cases n <;> simp [FVal.val]⟩
      · -- bounds of m and e
        have hme : m < 2 ^ (f.mb + 1) ∧ e + f.mb + f.bias + 1 < 2 ^ f.eb := by
          unfold Fmt.unpack at hu
          simp only [hI, Bool.not_true, Bool.false_and, Bool.false_eq_true, if_false, Bool.true_and] at hu
          have hex : a % 2 ^ (f.eb + f.mb) / 2 ^ f.mb < 2 ^ f.eb := by
            rw [Nat.div_lt_iff_lt_mul (by positivity), ← pow_add]; exact Nat.mod_lt _ (by positivity)
          have hfr : a % 2 ^ (f.eb + f.mb) % 2 ^ f.mb < 2 ^ f.mb := Nat.mod_lt _ (by positivity)
          have : (2:Nat) ^ (f.mb + 1) = 2 * 2 ^ f.mb := by ring
          have h4 : 4 ≤ 2 ^ f.eb := by rcases hf with rfl | rfl | rfl <;> decide
          have h4' : ((2 ^ f.eb : Nat) : Int) = 2 ^ f.eb := by push_cast; rfl
          split at hu
          · split at hu <;> cases hu
          · rename_i hne
            simp only [beq_iff_eq] at hne
            generalize a % 2 ^ (f.eb + f.mb) / 2 ^ f.mb = ex at *
            generalize a % 2 ^ (f.eb + f.mb) % 2 ^ f.mb = fr at *
            split at hu <;> cases hu <;> constructor <;> omega
        obtain ⟨hm1, he1⟩ := hme
        have hshape : ∃ c j, r = c * 2 ^ j ∧ c < 2 ^ (f.mb + 1) ∧ (bitLen r : Int) + f.bias < 2 ^ f.eb := by
          have hmb : bitLen m ≤ f.mb + 1 := by
            by_contra hc
            have := (bitLen_spec hm).1
            have : 2 ^ (f.mb + 1) ≤ 2 ^ (bitLen m - 1) := Nat.pow_le_pow_right (by decide) (by omega)
            omega
          unfold roundAt at hr
          split at hr
          · rename_i he0
            refine ⟨m, (e - 0).toNat, hr.symm, hm1, ?_⟩
            have hlt : r < 2 ^ (f.mb + 1 + (e - 0).toNat) := by
              rw [← hr, pow_add]; exact Nat.mul_lt_mul_of_pos_right hm1 (by positivity)
            have : bitLen r ≤ f.mb + 1 + (e - 0).toNat := by
              by_contra hc
              have h9 := (bitLen_spec h0).1
              have : 2 ^ (f.mb + 1 + (e - 0).toNat) ≤ 2 ^ (bitLen r - 1) := Nat.pow_le_pow_right (by decide) (by omega)
              omega
            omega
          · rename_i he0
            have hle : r ≤ 2 ^ f.mb := by
              obtain ⟨z, hz⟩ : ∃ z, (0 - e).toNat = z + 1 := ⟨(0 - e).toNat - 1, by omega⟩
              simp only at hr
              have h8 : m / 2 ^ (0 - e).toNat < 2 ^ f.mb := by
                rw [Nat.div_lt_iff_lt_mul (by positivity), ← pow_add]
                exact lt_of_lt_of_le hm1 (Nat.pow_le_pow_right (by decide) (by omega))
              split at hr <;> omega
            have hpw : 2 ^ f.mb < 2 ^ (f.mb + 1) := Nat.pow_lt_pow_right (by decide) (by omega)
            refine ⟨r, 0, by simp, by omega, ?_⟩
            have : bitLen r ≤ f.mb + 1 := by
              by_contra hc
              have h9 := (bitLen_spec h0).1
              have : 2 ^ (f.mb + 1) ≤ 2 ^ (bitLen r - 1) := Nat.pow_le_pow_right (by decide) (by omega)
              omega
            have : (f.mb : Int) + 1 + f.bias < 2 ^ f.eb := by rcases hf with rfl | rfl | rfl <;> decide
            omega
        obtain ⟨c, j, hc1, hc2, hc3⟩ := hshape
        have hc3' : bitLen r + f.bias < 2 ^ f.eb := by exact_mod_cast hc3
        obtain ⟨m', e', hv1,
            hv2⟩ := roundFin_exact hf' mode n h0 hc1 hc2 (by rcases hf with rfl | rfl | rfl <;> decide)
          (fun k hk => by have := (bitLen_spec h0).2.2; omega)
        refine ⟨m', e', hv1, ?_⟩
        rw [hv1]
        simp only [FVal.val]
        rw [mul_assoc, hv2]
        cases n <;> simp

end Sys2Proof.Machine
end

