-- ==== Sys2Proof/Laws/Lanes.lean ====
section
/-!
SUPPORT. What the shared lane operations compute: the lanes of a mask, folds over them, and prefix sums.
-/
open Sys2Proof Sys2Proof.Machine
namespace Sys2Proof.Machine

theorem typed_lt (x : Iss) (t : Ty) (f o l) : x.typed t f o l < 2 ^ t.bits := by
  unfold Iss.typed; split
  · exact float_lt x t (by assumption) f o l
  · exact int_lt x t f o l

theorem Fmt.isFT_fmt {t : Ty} (h : t.isFT = true) : t.fmt = fmt32 ∨ t.fmt = fmt16 ∨ t.fmt = fmtB16 := by
  cases t <;> simp_all [Ty.isFT] <;> simp [Ty.fmt]

theorem ashOf_nil {v : Cvt} {e l : Nat} {dt : Ty} (h : v.ash = none) : ashOf v e l dt = [] := by simp [ashOf, h]

/-- The listed cases are those of Unlisted. -/
theorem cvt_unlisted (mode : Rnd) (dt st : Ty) (hdt : dt.isCvt = true) (sat : Bool) {a : Nat} (ha : a < 2 ^ st.bits)
    (h : st.isFloat = true → (dt.isFloat = true ∧ dt.fmt.hasInf = true) ∨
      (st.fmt.unpack a).rank = 0 ∧ (dt.isFloat = false → (st.fmt.unpack a).isNan = false)) :
    (cvtValue mode dt st sat a).ash = none := by
  have hc := cvt_spec mode dt st hdt sat ha
  generalize cvtValue mode dt st sat a = c at hc ⊢
  unfold Converted at hc
  by_cases hs : st.isFloat = true
  · have h := h hs
    simp only [hs, if_true] at hc
    by_cases hd : dt.isFloat = true
    · simp only [hd, if_true] at hc
      cases hu : st.fmt.unpack a with
      | nan s => rw [hu] at hc; exact hc.2.2
      | inf n =>
        rw [hu] at hc h
        rcases h with h | h
        · simp only [h.2, if_true] at hc; exact hc.2
        · have := h.1; cases n <;> simp [FVal.rank] at this
      | fin n m e => rw [hu] at hc; exact hc.1
    · have hd : dt.isFloat = false := by simpa using hd
      simp only [hd, Bool.false_eq_true, if_false] at hc
      rcases h with h | h
      · rw [hd] at h; cases h.1
      · cases hu : st.fmt.unpack a with
        | nan s => have := h.2 hd; rw [hu] at this; cases this
        | inf n => have := h.1; rw [hu] at this; cases n <;> simp [FVal.rank] at this
        | fin n m e => rw [hu] at hc; exact hc.1
  · simp only [hs] at hc
    exact hc.1

theorem isPk_cvt {t : Ty} (h : t.isPk = true) : t.isCvt = true ∧ t.isFloat = true :=
    by cases t <;> simp_all [Ty.isPk, Ty.isCvt, Ty.isFloat]

theorem word_of_bits (f : Nat → Bool) : ∃ w : Word, ∀ k < 32, w.getLsbD k = f k :=
  ⟨Mask.ofLanes ((List.range 32).filter f), fun k hk => by rw [Mask.ofLanes_getLsbD _ hk]; simp [hk]⟩

theorem bv_and_not_zero (a b : BitVec 32) : ((a &&& ~~~ b == 0) = ((List.range 32).all fun l => !a.getLsbD l || b.getLsbD l)) := by
  rw [Bool.eq_iff_iff, beq_iff_eq, List.all_eq_true]
  constructor
  · intro h l hl
    have := congrArg (fun m => BitVec.getLsbD m l) h
    simp at hl this
    cases h1 : a.getLsbD l <;> cases h2 : b.getLsbD l <;> simp_all
  · intro h
    apply BitVec.eq_of_getLsbD_eq
    intro l hl
    have := h l (by simpa using hl)
    simp [hl]
    have h3 : (!a.getLsbD l || b.getLsbD l) = true := this
    rw [← BitVec.getLsbD_eq_getElem, ← BitVec.getLsbD_eq_getElem]
    revert h3
    cases a.getLsbD l <;> cases b.getLsbD l <;> simp

theorem bv_and_ne_zero (a b : BitVec 32) : ((a &&& b != 0) = ((List.range 32).any fun l => a.getLsbD l && b.getLsbD l)) := by
  have := bv_and_not_zero a (~~~ b)
  simp only [BitVec.not_not] at this
  rw [bne, this, Bool.eq_iff_iff]
  simp
  constructor
  · rintro ⟨l, hl, h1, h2⟩; exact ⟨l, hl, h1, h2 hl⟩
  · rintro ⟨l, hl, h1, h2⟩; exact ⟨l, hl, h1, fun _ => h2⟩

theorem lanes_active (x : Iss) : Mask.lanes x.x = x.active := rfl

theorem foldFloat_eq (big : Bool) (l : List Nat) : foldFloat big l = foldMinMax big l := by
  cases l with
  | nil => rfl
  | cons v vs =>
    unfold foldFloat foldMinMax
    simp only
    congr 1
    have key : ∀ (l : List Nat) (w : Word),
        l.foldl (fun (w : Word) v => w ||| (fmt32.unpack v).nv) w = w ||| signals (l.map fmt32.unpack) := by
      intro l
      induction l with
      | nil => intro w; simp [signals]
      | cons a l ih =>
        intro w
        rw [List.foldl_cons, ih]
        have hz : (fmt32.unpack a).nv = if FVal.nan true = fmt32.unpack a then flNV else 0 := by
          rcases (fmt32.unpack a) with ((_ | _) | _ | _) <;> simp [FVal.nv]
        rw [hz, BitVec.or_assoc]
        congr 1
        unfold signals
        simp only [List.map_cons, List.mem_cons]
        split_ifs <;> first | (exfalso; tauto) | simp
    rw [key]; simp

theorem redand_bits (x : Iss) (t : Ty) (a : Opnd) (L : List Nat) :
   let r := L.foldl (fun r l => r &&& x.int t 1 a l) (2 ^ t.bits - 1)
   r < 2 ^ t.bits ∧ ∀ i < t.bits, r.testBit i = L.all fun l => (x.int t 1 a l).testBit i := by
  have key : ∀ (L : List Nat) r0, r0 < 2 ^ t.bits → (L.foldl (fun r l => r &&& x.int t 1 a l) r0) < 2 ^ t.bits ∧
      ∀ i, (L.foldl (fun r l => r &&& x.int t 1 a l) r0).testBit i = (r0.testBit i && L.all fun l => (x.int t 1 a l).testBit i) := by
    intro L
    induction L with
    | nil => intro r0 h; exact ⟨h, by simp⟩
    | cons b L ih =>
      intro r0 h
      have := ih (r0 &&& x.int t 1 a b) (Nat.and_lt_two_pow _ (int_lt _ _ _ _ _))
      refine ⟨this.1, fun i => ?_⟩
      rw [List.foldl_cons, this.2, Nat.testBit_and]; simp [Bool.and_assoc]
  have h0 : (2:Nat) ^ t.bits - 1 < 2 ^ t.bits := by exact Nat.sub_lt (by positivity) (by decide)
  have := key L _ h0
  refine ⟨this.1, fun i hi => ?_⟩
  rw [this.2, Nat.testBit_two_pow_sub_one]; simp [hi]

theorem redor_bits (x : Iss) (t : Ty) (a : Opnd) (L : List Nat) :
   let r := L.foldl (fun r l => r ||| x.int t 1 a l) 0
   r < 2 ^ t.bits ∧ ∀ i < t.bits, r.testBit i = L.any fun l => (x.int t 1 a l).testBit i := by
  have key : ∀ (L : List Nat) r0, r0 < 2 ^ t.bits → (L.foldl (fun r l => r ||| x.int t 1 a l) r0) < 2 ^ t.bits ∧
      ∀ i, (L.foldl (fun r l => r ||| x.int t 1 a l) r0).testBit i = (r0.testBit i || L.any fun l => (x.int t 1 a l).testBit i) := by
    intro L
    induction L with
    | nil => intro r0 h; exact ⟨h, by simp⟩
    | cons b L ih =>
      intro r0 h
      have := ih (r0 ||| x.int t 1 a b) (Nat.or_lt_two_pow h (int_lt _ _ _ _ _))
      refine ⟨this.1, fun i => ?_⟩
      rw [List.foldl_cons, this.2, Nat.testBit_or]; simp [Bool.or_assoc]
  have := key L 0 (by positivity)
  refine ⟨this.1, fun i hi => ?_⟩
  rw [this.2]; simp

theorem satInt_len (t b v) : (satInt t b v).words.length = t.regs ∧ (satInt t b v).ash = [] := by
  unfold satInt; split <;> [skip; split] <;> exact ⟨regWords_length _ _, rfl⟩

section scan

variable {α : Type} (add : α → α → α × Word)

/-- The sum of a list that continues `acc`. -/
def sumsOn (acc : Option α) (xs : List α) : Option (α × Word) :=
  match acc with
  | none => sumsFrom add xs
  | some a => some (xs.foldl (fun r v => ((add r.1 v).1, r.2 ||| (add r.1 v).2)) (a, 0))

theorem foldl_flags (xs : List α) (a : α) (w : Word) :
   xs.foldl (fun r v => ((add r.1 v).1, r.2 ||| (add r.1 v).2)) (a, w) =
   ((xs.foldl (fun r v => ((add r.1 v).1, r.2 ||| (add r.1 v).2)) (a, 0)).1,
       w ||| (xs.foldl (fun r v => ((add r.1 v).1, r.2 ||| (add r.1 v).2)) (a, 0)).2) := by
  induction xs generalizing a w with
  | nil => simp
  | cons v vs ih =>
    simp only [List.foldl_cons]
    rw [ih, ih (add a v).1 ((0:Word) ||| (add a v).2)]
    simp [BitVec.or_assoc]

/-- The next value. -/
def nowOf (acc : Option α) (v : α) : α × Word := match acc with | none => (v, 0) | some a => add a v

theorem sumsOn_cons (acc : Option α) (v : α) (xs : List α) :
   sumsOn add acc (v :: xs) = some ((sumsOn add (some (nowOf add acc v).1) xs).elim (nowOf add acc v).1 (·.1),
      (nowOf add acc v).2 ||| ((sumsOn add (some (nowOf add acc v).1) xs).map (·.2)).getD 0) := by
  cases acc with
  | none => simp [sumsOn, sumsFrom, nowOf]
  | some a =>
    simp only [sumsOn, nowOf, List.foldl_cons, Option.elim, Option.map_some, Option.getD_some]
    rw [foldl_flags]; simp

theorem scanList_cons (zero : α) (excl : Bool) (acc : Option α) (v : α) (vs : List α) :
   scanList add zero excl acc (v :: vs) = ((if excl then acc.getD zero else (nowOf add acc v).1) :: (scanList add zero excl (some (nowOf add acc v).1) vs).1,
     (nowOf add acc v).2 ||| (scanList add zero excl (some (nowOf add acc v).1) vs).2) := by cases acc <;> rfl

theorem scanList_spec (zero : α) (excl : Bool) (val : Nat →
    α) (ls : List Nat) (hs : ls.Pairwise (· < ·)) (acc : Option α) :
   scanList add zero excl acc (ls.map val) =
    (ls.map (fun l => ((sumsOn add acc ((ls.filter fun k => if excl then decide (k < l) else decide (k ≤ l)).map val)).map (·.1)).getD zero),
     ((sumsOn add acc (ls.map val)).map (·.2)).getD 0) := by
  induction ls generalizing acc with
  | nil => cases acc <;> simp [scanList, sumsOn, sumsFrom]
  | cons k ls ih =>
    rw [List.pairwise_cons] at hs
    rw [List.map_cons, scanList_cons, ih hs.2]
    simp only
    have e0 : ls.filter (fun j => if excl then decide (j < k) else decide (j ≤ k)) = [] := by
      rw [List.filter_eq_nil_iff]; intro j hj; have := hs.1 j hj; cases excl <;> simp <;> omega
    refine Prod.ext ?_ ?_
    · simp only
      congr 1
      · cases excl
        · simp only [List.filter_cons, Bool.false_eq_true, if_false] at e0 ⊢
          simp only [le_refl, decide_true, if_true, e0, List.map_cons, List.map_nil, sumsOn_cons]
          simp [sumsOn]
        · simp only [List.filter_cons, if_true] at e0 ⊢
          simp only [lt_irrefl, decide_false, Bool.false_eq_true, if_false, e0, List.map_nil]
          cases acc <;> simp [sumsOn, sumsFrom]
      · apply List.map_congr_left
        intro l hl
        have hkl := hs.1 l hl
        have : (if excl then decide (k < l) else decide (k ≤ l)) = true := by cases excl <;> simp <;> omega
        simp only [List.filter_cons, this, if_true, List.map_cons, sumsOn_cons]
        simp [sumsOn]
    · simp only [sumsOn_cons, Option.map_some, Option.getD_some]

end scan

theorem scanInt_eq (t : Ty) (sat : Bool) (a b : Int) : scanInt t sat a b = intAdd t sat a b := by
  have := lo_hi t
  unfold scanInt intAdd
  cases sat
  · simp
  · simp only [Bool.not_true, Bool.false_eq_true, if_false, if_true]
    by_cases c1 : a + b < t.lo
    · have h2 : ¬ (t.lo ≤ a + b ∧ a + b ≤ t.hi) := by omega
      simp only [c1, if_true, h2, if_false]; congr 1; omega
    · by_cases c2 : t.hi < a + b
      · have h2 : ¬ (t.lo ≤ a + b ∧ a + b ≤ t.hi) := by omega
        simp only [c1, c2, if_true, h2, if_false]; congr 1; omega
      · have h2 : (t.lo ≤ a + b ∧ a + b ≤ t.hi) := by omega
        simp only [c1, c2, if_false, h2]; congr 1; omega

theorem zip_find {β : Type} (f : Nat → β) (ls : List Nat) (l : Nat) (hl : l ∈ ls) :
   (((ls.map f).zip ls).find? (·.2 == l)).map (·.1) = some (f l) := by
  induction ls with
  | nil => cases hl
  | cons k ls ih =>
    simp only [List.map_cons, List.zip_cons_cons, List.find?_cons]
    by_cases h : k = l
    · subst h; simp
    · simp only [beq_eq_false_iff_ne.2 h]
      exact ih (by simpa [Ne.symm h] using hl)

theorem active_pairwise (x : Iss) : x.active.Pairwise (· < ·) := List.Pairwise.filter _ List.pairwise_lt_range

theorem mem_active {x : Iss} {l : Nat} (hl : l < 32) (h : x.x.getLsbD l = true) : l ∈ x.active := by
  simp [Iss.active, hl, h]

end Sys2Proof.Machine
end

