-- ==== Sys2Proof/Laws/Control.lean ====
section
/-!
SUPPORT. What the shared operations of an issue leave: the frame of an instruction in order, the PC that goes on or jumps,
workgroups under a kill, and paths that are latched or woken.
-/
open Sys2Proof Sys2Proof.Machine
namespace Sys2Proof.Machine

theorem Ready.popped_none {s i x} (h : Ready s i x) (hq : ∀ u ∈ i.srcs, u.o.portOf = none) : x.popped i = x.gr := by
  unfold Iss.popped
  have : ∀ l : List Use, (∀ u ∈ l, u.o.portOf = none) → ∀ ps, Iss.takeQ false l ps = .ok [] ps := by
    intro l
    induction l with
    | nil => intros; rfl
    | cons a l ih => intro hl ps; simp only [Iss.takeQ, hl a (by simp)]; exact ih (fun u hu => hl u (by simp [hu])) ps
  rw [this _ hq]

theorem frame_step {s i x gr d n} (h : Ready s i x) (hp : ∀ u ∈ i.srcs, u.o.portOf = none)
    (h0 : gr = { x.gr with s := gr.s, sb := gr.sb, ap := { x.gr.ap with s := gr.ap.s } })
    (h2 : ∀ b k, (x.ap = b → ∀ e m b, d = .s e m b → apart k b.toNat n) → gr.sword b k = x.gr.sword b k)
    (h6 : x.rngAfter i = x.gr.sr.rngctr) (h7 : x.ap = false → gr.ap = x.gr.ap)
    (h8 : ∀ r, r ∉ x.dstRegs i → gr.isFull r = x.gr.isFull r) {j : Group → Group}
    (hj : j gr = if x.ap then { gr with ap := { (j gr).ap with s := gr.ap.s, p := gr.ap.p } } else gr.modPath x.p ((fun q p => { q with pc := p.pc, st := p.st, wait := p.wait, fenceAt := p.fenceAt, fbuf := p.fbuf, retry := p.retry, notBefore := p.notBefore, ageFrom := p.ageFrom, stepOnce := p.stepOnce, slotted := p.slotted }) · ((j gr).path x.p))) :
    x.Frame i (j gr) d n := by
  obtain ⟨e1, e2, e3, e4, e5⟩ := h.facts
  have hpop := h.popped_none hp
  have hh := hj
  generalize j gr = J at hh ⊢
  have gp : gr.paths = x.gr.paths := by rw [h0]
  have hpath : ∀ p, gr.path p = x.gr.path p := fun p => by simp [Group.path, gp]
  by_cases ha : x.ap = true
  · simp only [ha, if_true] at hh
    refine ⟨?_, ?_, ?_, ?_, ?_, ?_, ?_, ?_, ?_, by simp [ha]⟩
    · rw [hpop, hh, h0]
    · intro k _; rw [hh, h0]; rfl
    · intro k hk; rw [← h2 false k hk, hh]; rfl
    · intro k hk; rw [hh, h0]; rfl
    · intro k hk; rw [← h2 true k hk, hh]; rfl
    · intro k hk; rw [hh, h0]; rfl
    · rw [h6, hh, h0]
    · intro r hr; rw [← h8 r hr, hh]; rfl
    · intro p _; rw [← hpath p, hh]; rfl
  · have ha : x.ap = false := by simpa using ha
    obtain ⟨f1, f2, f3⟩ := e5 ha
    simp only [ha, Bool.false_eq_true, if_false] at hh
    have hap : gr.ap = x.gr.ap := h7 ha
    refine ⟨?_, ?_, ?_, ?_, ?_, ?_, ?_, ?_, ?_, ?_⟩
    · rw [hpop, hh, h0]; rfl
    · intro k _; rw [hh, h0]; rfl
    · intro k hk; rw [← h2 false k hk, hh]; rfl
    · intro k hk; rw [hh, h0]; rfl
    · intro k hk; rw [← h2 true k hk, hh]; rfl
    · intro k hk; rw [hh, h0]; rfl
    · rw [h6, hh, h0]; rfl
    · intro r hr; rw [← h8 r hr, hh]; rfl
    · intro p hp; rw [hh, Group.path_modPath]; simp only [hp ha, false_and, if_false, hpath]
    · intro _
      have hJ : J.ap = x.gr.ap := by rw [hh, ← hap]; rfl
      rw [hJ]
      have : (J.path x.p) = { gr.path x.p with pc := (J.path x.p).pc, st := (J.path x.p).st, wait := (J.path x.p).wait, fenceAt := (J.path x.p).fenceAt, fbuf := (J.path x.p).fbuf, retry := (J.path x.p).retry, notBefore := (J.path x.p).notBefore, ageFrom := (J.path x.p).ageFrom, stepOnce := (J.path x.p).stepOnce, slotted := (J.path x.p).slotted } := by
        conv_lhs => rw [hh, Group.path_modPath]
        rw [if_pos ⟨rfl, by rw [gp]; exact f1⟩]
      rw [this, hpath]
      simp [f3]

theorem modAt_congr {α} {f g : α → α} (l : List α) (k : Nat) (h : ∀ a, l[k]? = some a →
    f a = g a) : modAt f l k = modAt g l k := by
  apply List.ext_getElem?
  intro j
  rw [modAt_getElem?, modAt_getElem?]
  by_cases hj : j = k
  · subst hj
    cases hl : l[j]? with
    | none => simp
    | some a => simp [h a hl]
  · simp [hj]

theorem Group.modPath_congr {gr : Group} {p : Nat} {f g : Path → Path} (h : f (gr.path p) = g (gr.path p)) : gr.modPath p f = gr.modPath p g := by
  unfold Group.modPath
  rw [modAt_congr _ _ (f := f) (g := g)]
  intro a ha
  have : gr.path p = a := by simp [Group.path, ha]
  rw [← this, h]

theorem step_jump (x : Iss) (i : Instr) (pc : Nat) (hlt : x.ap = false →
    x.p < x.gr.paths.length) (g : Group) (hg : g.paths = x.gr.paths) : x.jump i pc g = if x.ap then { g with ap := { (x.jump i pc g).ap with s := g.ap.s, p := g.ap.p } } else g.modPath x.p ((fun q p => { q with pc := p.pc, st := p.st, wait := p.wait, fenceAt := p.fenceAt, fbuf := p.fbuf, retry := p.retry, notBefore := p.notBefore, ageFrom := p.ageFrom, stepOnce := p.stepOnce, slotted := p.slotted }) · ((x.jump i pc g).path x.p)) := by
  unfold Iss.jump
  cases ha : x.ap
  · simp only [Bool.false_eq_true, if_false]
    rw [Group.path_modPath, if_pos ⟨rfl, by rw [hg]; exact hlt ha⟩]
    apply Group.modPath_congr
    simp only [Iss.issued]; split <;> rfl
  · simp

theorem step_onward (x : Iss) (i : Instr) (hlt : x.ap = false →
    x.p < x.gr.paths.length) (g : Group) (hg : g.paths = x.gr.paths) : x.onward i g = if x.ap then { g with ap := { (x.onward i g).ap with s := g.ap.s, p := g.ap.p } } else g.modPath x.p ((fun q p => { q with pc := p.pc, st := p.st, wait := p.wait, fenceAt := p.fenceAt, fbuf := p.fbuf, retry := p.retry, notBefore := p.notBefore, ageFrom := p.ageFrom, stepOnce := p.stepOnce, slotted := p.slotted }) · ((x.onward i g).path x.p)) := by
  unfold Iss.onward
  cases ha : x.ap
  · simp only [Bool.false_eq_true, if_false]
    rw [Group.path_modPath, if_pos ⟨rfl, by rw [hg]; exact hlt ha⟩]
    apply Group.modPath_congr
    simp only [Iss.issued]; split <;> rfl
  · simp

theorem sword_jump (x : Iss) (i : Instr) (pc : Nat) (g : Group) (b : Bool) (k : Nat) : (x.jump i pc g).sword b k = g.sword b k := by
  unfold Iss.jump; split <;> cases b <;> rfl

theorem sword_onward (x : Iss) (i : Instr) (g : Group) (b : Bool) (k : Nat) : (x.onward i g).sword b k = g.sword b k := by
  unfold Iss.onward; split <;> cases b <;> rfl

theorem isS_portOf {a : Opnd} {n : Nat} (h : a.isS n = true) : a.portOf = none := by
  cases a <;> first | rfl | cases h

theorem targetOf_eq (pc : Nat) (t : Target) : targetOf pc t = branchTo pc t := by
  unfold targetOf wrapTo branchTo
  cases t <;> rfl

theorem traceAt_off {s : State} {h g p pc t : Nat} {w : Workgroup} (hw : s.wg? h = some w) (ht : s.tracing w.ctx = false) : s.traceAt h g p pc t = .ok s := by
  unfold State.traceAt; rw [hw]; simp [ht]

theorem onward_behind {s i x} (h : Ready s i x) {g : Group} (hp : g.paths = x.gr.paths) (ha : g.ap.st = x.gr.ap.st) : x.behind (x.onward i g) := by
  obtain ⟨e1, e2, e3, e4, e5⟩ := h.facts
  unfold Iss.behind
  cases hap : x.ap
  · obtain ⟨f1, f2, f3⟩ := e5 hap
    have hg : g.path x.p = x.gr.path x.p := by simp [Group.path, hp]
    simp [Iss.onward, hap, Group.path_modPath, hp, f1, hg, f2, f3, Path.advance, Path.goTo]
  · simp [Iss.onward, hap, ha, (e4 hap).1]

/-- What a `.done x.gr [] []` result gives. -/
theorem exec_of {s i x} {body : Iss → Res} (h : Ready s i x) (he : exec i s = issue i s body) : exec i s = x.finish i (body x) := by
  rw [he]; simp only [issue, h.begin]

theorem not_ap {s i x} (h : Ready s i x) (hr : i.apRuns = false) : x.ap = false := by
  cases ha : x.ap
  · rfl
  · have := (h.onAp ha).1; rw [hr] at this; cases this

theorem bitsOf54 (n : Nat) : bitsOf n 54 2 = n % 2 ^ 55 / 4 := by
  unfold bitsOf; omega

theorem code_lt (c : Cause) : c.code < 2 ^ 16 := by cases c <;> decide

theorem find?_mem {α} {l : List (Nat × α)} {k : Nat} {a : α} (h : find? l k = some a) : (k, a) ∈ l := by
  induction l with
  | nil => cases h
  | cons e l ih =>
    unfold find? at h
    split at h
    · rename_i hk; cases h; rw [List.mem_cons]; left; rw [hk]
    · exact List.mem_cons_of_mem _ (ih h)

theorem modWg_wg (s : State) (h k : Nat) (f : Workgroup →
    Workgroup) : (s.modWg k f).wg? h = if h = k then (s.wg? h).map f else s.wg? h := by
  unfold State.modWg
  by_cases hk : h = k
  · subst hk
    cases hw : s.wg? h with
    | none => simp [hw]
    | some w => simp [State.wg?, State.setWg, find?_put_same]
  · cases hw : s.wg? k with
    | none => simp [hk]
    | some w => simp [hk, State.wg?_setWg_ne _ _ hk]

theorem killOne_wg (s : State) (code h k : Nat) : ∃ f : Workgroup → Workgroup, (∀ w, (f w).claims = [] ∧
    (f w).kill = some (w.kill.getD code)) ∧
        (s.killOne code k).wg? h = if h = k then (s.wg? h).map f else s.wg? h := by
  refine ⟨fun w => { w with kill := some (w.kill.getD code), cores := w.cores.map fun c => { c with grans := c.grans.map fun e => (e.1, e.2.dropWaiters k) }, claims := [] }, fun w => ⟨rfl, rfl⟩, ?_⟩
  show (s.modWg k _).wg? h = _
  rw [modWg_wg]

theorem killFold (code h : Nat) (l : List Nat) (s : State) (w : Workgroup) (hw : s.wg? h = some w) :
   ∃ w', (l.foldl (fun s k => s.killOne code k) s).wg? h = some w' ∧ (w = w' ∨ w'.kill = some (w.kill.getD code) ∧
       w'.claims = []) ∧ (h ∈ l → w'.kill = some (w.kill.getD code) ∧ w'.claims = []) := by
  induction l generalizing s w with
  | nil => exact ⟨w, hw, .inl rfl, by simp⟩
  | cons k l ih =>
    obtain ⟨f, hf, hk⟩ := killOne_wg s code h k
    rw [List.foldl_cons]
    by_cases e : h = k
    · rw [if_pos e, hw] at hk
      obtain ⟨w', g1, g2, g3⟩ := ih _ _ hk
      have : w'.kill = some (w.kill.getD code) ∧ w'.claims = [] := by
        rcases g2 with g2 | g2
        · rw [← g2]; exact ⟨(hf w).2, (hf w).1⟩
        · rw [(hf w).2] at g2; exact g2
      exact ⟨w', g1, .inr this, fun _ => this⟩
    · rw [if_neg e, hw] at hk
      obtain ⟨w', g1, g2, g3⟩ := ih _ _ hk
      refine ⟨w', g1, g2, fun hm => g3 ?_⟩
      rcases List.mem_cons.1 hm with h | h
      · exact absurd h e
      · exact h

theorem done_calm {s i x} (h : Ready s i x) {body : Iss → Res} (he : exec i s = issue i s body) {gr : Group} (hb : body x = .done gr [] []) :
    exec i s = .next (s.setGroup x.h x.g (x.onward i (({ gr with ports := (x.popped i).ports } : Group).markFull (x.dstRegs i)))) := by
  obtain ⟨e1, e2, -⟩ := h.facts
  rw [exec_of h he, hb, Iss.finish, Iss.complete_calm (by rw [e1]; exact e2), Group.raiseFlags_nil, e1]

theorem sr_onward (x : Iss) (i : Instr) (g : Group) : (x.onward i g).sr = g.sr := by unfold Iss.onward; split <;> rfl

theorem v_onward (x : Iss) (i : Instr) (g : Group) : (x.onward i g).v = g.v := by unfold Iss.onward; split <;> rfl

theorem frame_vector {s i x} (h : Ready s i x) {e m : Bool} {k : BitVec 9} {n : Nat} {msk : Mask} {row : Nat → Row} (hr : x.rngAfter i = x.gr.sr.rngctr) (fl) :
   x.Frame i (x.onward i ((({ (x.putVector (.v e m k) n msk row) with
      ports := (x.popped i).ports } : Group).markFull (x.dstRegs i)).raiseFlags fl)) (.v e m k) n := by
  obtain ⟨g1, g2⟩ := foldl_putV x.gr k.toNat msk row n
  have hg : x.putVector (.v e m k) n msk row =
    (List.range n).foldl (fun gr j => gr.putV (k.toNat + j) msk (row j)) x.gr := rfl
  rw [← hg] at g1 g2
  refine Iss.frame_of h (by rw [g2]) ?_ (fun _ _ => by rw [g2]; rfl) (fun _ _ => by rw [g2]; rfl) (fun _ _ => by rw [g2]; rfl)
      (fun _ _ => by rw [g2]; rfl) (by rw [g2, hr]) (fun _ => by rw [g2])
  intro j hj
  have hap := hj e m k rfl
  refine Row.ext_lane ?_
  intro l hl
  have h3 := g1 j l hl
  have h4 : ¬ (k.toNat ≤ j ∧ j < k.toNat + n ∧ msk.getLsbD l = true) := by
        unfold apart at hap; omega
  simp only [h4, if_false] at h3
  exact h3

theorem frame_scalar {s i x} (h : Ready s i x) {e m : Bool} {k : BitVec 10} {ws : List Word} (hr : x.rngAfter i = x.gr.sr.rngctr) (fl) :
   x.Frame i (x.onward i ((({ (x.putScalar (.s e m k) ws) with
      ports := (x.popped i).ports } : Group).markFull (x.dstRegs i)).raiseFlags fl)) (.s e m k) ws.length := by
  obtain ⟨g1, g5, g6⟩ := foldl_putS x (.s e m k) ws
  generalize hP : x.putScalar (.s e m k) ws = P at *
  have hs : ∀ b j, (x.ap = b → ∀ e' m' b', Opnd.s e m k = .s e' m' b' → apart j b'.toNat ws.length) →
        P.sword b j = x.gr.sword b j := by
      intro b j hj
      by_cases ha : x.ap = b
      · rw [← ha]; exact g5 j (hj ha e m k rfl)
      · rw [g6]
        cases b
        · have : x.ap = true := by simpa using ha
          rw [this]; rfl
        · have : x.ap = false := by simpa using ha
          rw [this]; rfl
  refine Iss.frame_of h ?_ (fun _ _ => ?_) (hs false) (fun _ _ => ?_) (hs true) (fun _ _ => ?_) (by rw [hr, g6]; split <;> rfl)
      (fun ha => by rw [g6, ha]; rfl)
  · rw [g6]; split <;> rfl
  · rw [g6]; split <;> rfl
  · rw [g6]; split <;> rfl
  · rw [g6]; split <;> rfl

theorem srWidth_cases {n w : Nat} (h : srWidth n = some w) : w = 32 ∨ w = 64 := by
  have key : ∀ (p : Prop) [Decidable p] (v : Nat) (r : Option Nat), (v = 32 ∨ v = 64) → (r = some w → w = 32 ∨
      w = 64) → (if p then some v else r) = some w → w = 32 ∨ w = 64 := by
    intro p _ v r hv hr h
    split at h
    · rw [← Option.some.inj h]; exact hv
    · exact hr h
  have keyn : ∀ (p : Prop) [Decidable p] (r : Option Nat), (r = some w → w = 32 ∨ w = 64) →
      (if p then none else r) = some w → w = 32 ∨ w = 64 := by
    intro p _ r hr h
    split at h
    · cases h
    · exact hr h
  unfold srWidth at h
  revert h
  refine key _ _ _ (.inl rfl) (key _ _ _ (.inr rfl) (keyn _ _ (key _ _ _ (.inl rfl) (key _ _ _ (.inr rfl) (key _ _ _ (.inl rfl) (key _ _ _ (.inl rfl) (key _ _ _ (.inr rfl) (key _ _ _ (.inl rfl) (key _ _ _ (.inr rfl) (key _ _ _ (.inl rfl) (key _ _ _ (.inr rfl) ?_)))))))))))
  intro h; cases h

theorem isS_one {d : Opnd} {n : Nat} (h : d.isS n = true) : d.isS 1 = true := by
  cases d
  case s e m k => show (k.toNat % 1 == 0) = true; rw [Nat.mod_one]; rfl
  all_goals exact absurd h Bool.false_ne_true

theorem paths_onward {x : Iss} {i : Instr} (hap : x.ap = false) (g : Group) : x.onward i g = { g with paths := (x.onward i g).paths } := by
  unfold Iss.onward; rw [hap]; rfl

theorem path_onward {x : Iss} {i : Instr} (hap : x.ap = false) (g : Group) (p : Nat) : (x.onward i g).path p = if p = x.p ∧ p < g.paths.length then x.issued i (g.path p).advance else g.path p := by
  unfold Iss.onward; rw [hap]; simp only [Bool.false_eq_true, if_false]; rw [Group.path_modPath]

theorem path_jump {x : Iss} {i : Instr} {pc : Nat} (hap : x.ap = false) (g : Group) (p : Nat) : (x.jump i pc g).path p = if p = x.p ∧ p < g.paths.length then { x.issued i ((g.path p).goTo pc).flush with retry := none } else g.path p := by
  unfold Iss.jump; rw [hap]; simp only [Bool.false_eq_true, if_false]; rw [Group.path_modPath]

theorem fillEnts_calm {s : State} {h g p : Nat} {w : Workgroup} {gr : Group} (hw : s.wg? h = some w) (hg : w.group? g = some gr) (hc : (gr.path p).stack ≠ [] ∨ (gr.path p).spilled = 0) : s.fillEnts h g p = .ok s := by
  have hgr := State.group?_of hw hg
  unfold State.fillEnts; rw [hw, hgr]
  simp only
  rw [if_pos]
  rcases hc with hc | hc
  · cases hs : (gr.path p).stack with
    | nil => exact absurd hs hc
    | cons a l => rfl
  · simp [hc]

theorem popEnt_calm {s : State} {h g p : Nat} {w : Workgroup} {gr : Group} {e : StackEnt} {r : List StackEnt} (hw : s.wg? h = some w) (hg : w.group? g = some gr) (hp : p < gr.paths.length) (hs : (gr.path p).stack = e :: r) (hc : r ≠ [] ∨ (gr.path p).spilled = 0) :
   s.popEnt h g p = .ok (s.setGroup h g (gr.modPath p fun q => { q with stack := q.stack.tail })) := by
  have hgr := State.group?_of hw hg
  unfold State.popEnt
  rw [State.modGroup_eq hgr]
  have hw2 := State.wg?_setGroup_same hw g (gr.modPath p fun q => { q with stack := q.stack.tail })
  refine fillEnts_calm hw2 (by simp [Workgroup.group?, Workgroup.setGroup]; rfl) ?_
  rw [Group.path_modPath, if_pos ⟨rfl, hp⟩]
  simp only [hs, List.tail_cons]
  exact hc

theorem joinsFor_iff (q : Path) (k : Nat) : q.joinsFor k = true ↔ (q.st = .join ∧ q.token = some k ∧ q.stack = [] ∧
    q.spilled = 0) := by
  unfold Path.joinsFor
  cases h : q.stack <;> simp [h, and_assoc]

theorem wake_calm {gr : Group} (h : ∀ o, (gr.path o).st = .join → ∀ k j r, (gr.path o).stack = .split k j :: r →
    (gr.path j).st ≠ .free ∧ (gr.path j).joinsFor k = false) : gr.wake = gr := by
  unfold Group.wake
  have h1 : ∀ o, gr.wakeOne o = gr := by
    intro o
    unfold Group.wakeOne
    simp only
    split
    · rename_i k j r hst hstk
      have := h o hst k j r hstk
      have h2 : ((gr.path j).st == PState.free || (gr.path j).joinsFor k) = false := by
        simp [this.1, this.2]
      simp [h2]
    · rfl
  have : ∀ l : List Nat, l.foldl (fun gr o => gr.wakeOne o) gr = gr := by
    intro l; induction l with
    | nil => rfl
    | cons a l ih => rw [List.foldl_cons, h1, ih]
  exact this _

theorem latch_calm {s : State} {h g : Nat} : ∃ bars, s.latch h g = { s with bars := bars } := by
  unfold State.latch; split
  · exact ⟨_, rfl⟩
  · exact ⟨s.bars, rfl⟩

end Sys2Proof.Machine
end

