-- ==== Sys2Proof/Laws/Enter.lean ====
section
/-!
SUPPORT. An instruction that is handed on: what entering its operation leaves of its group, whether the issuer goes on
or waits.
-/
namespace Sys2Proof.Machine

theorem Group.counter_raiseCtr (gr : Group) (k j : CtrClass) (h : j.num < gr.ctrs.length) :
    (gr.raiseCtr k).counter j = gr.counter j + if k = j then 1 else 0 := by
  simp only [Group.raiseCtr, Group.counter, modAt_getElem?]
  cases k <;> cases j <;> simp_all [CtrClass.num]

/-- The group after an operation of an instruction has been entered. -/
theorem Iss.enterOp_enters {x : Iss} {i : Instr} {o : Op}
    (hw : o.seq = x.gr.nextSeq ∧ o.instr = i ∧ o.path = x.p ∧ o.pc = x.pc ∧ o.mask = x.m ∧ o.x = x.x
      ∧ o.cls = i.ctrClass ∧ o.paths = [x.p] ∧ o.prior = x.priorOps) {gr : Group}
    (h : gr = { x.enterOp i o with paths := gr.paths, ap := gr.ap }) (h1 : gr.ap.s = x.gr.ap.s ∧ gr.ap.p = x.gr.ap.p ∧ gr.ap.st = x.gr.ap.st)
    (h2 : ∀ p, (x.ap = false → p ≠ x.p) → gr.path p = x.gr.path p)
    (h3 : x.ap = false → (gr.path x.p).mask = x.m ∧ (gr.path x.p).token = (x.gr.path x.p).token
      ∧ (gr.path x.p).origin = (x.gr.path x.p).origin ∧ (gr.path x.p).stack = (x.gr.path x.p).stack
      ∧ (gr.path x.p).spilled = (x.gr.path x.p).spilled ∧ gr.ap = x.gr.ap) :
    x.Enters i o gr := by
  have e1 : (x.popped i) = { x.gr with ports := (x.popped i).ports } := by
    unfold Iss.popped; split <;> rfl
  refine ⟨?_, hw, ?_, ?_, h1, h2, h3⟩
  · rw [h]
    unfold Iss.enterOp
    rw [e1]
    dsimp only
    split <;> rfl
  · intro k hk
    have : gr.counter k = (x.enterOp i o).counter k := by rw [h]; rfl
    rw [this]
    unfold Iss.enterOp
    rw [hw.2.2.2.2.2.2.1]
    dsimp only
    split
    · rename_i j hj
      rw [Group.counter_raiseCtr _ _ _ (by rw [e1]; exact hk), hj]
      rw [e1]
      simp [Group.counter, Group.markEmpty]
    · rename_i hj
      rw [hj, e1]
      simp [Group.counter, Group.markEmpty]
  · intro r
    have : gr.isFull r = (x.enterOp i o).isFull r := by rw [h]; rfl
    rw [this]
    have h4 : (x.enterOp i o).isFull r = ((x.popped i).markEmpty o.dst o.seq o.pc).isFull r := by
      unfold Iss.enterOp
      dsimp only
      split <;> rfl
    rw [h4, Group.isFull_markEmpty, e1]
    by_cases hr : r ∈ o.dst <;> simp [hr, Group.isFull]

/-- An operation is entered and the issuer goes on. -/
theorem Iss.launchOp_enters {x : Iss} {i : Instr} {o : Op}
    (hw : o.seq = x.gr.nextSeq ∧ o.instr = i ∧ o.path = x.p ∧ o.pc = x.pc ∧ o.mask = x.m ∧ o.x = x.x
      ∧ o.cls = i.ctrClass ∧ o.paths = [x.p] ∧ o.prior = x.priorOps)
    (ha : x.ap = true → x.gr.ap.st = .running ∧ x.pc = x.gr.ap.pc ∧ x.m = 1)
    (hp : x.ap = false → x.p < x.gr.paths.length ∧ x.pc = (x.gr.path x.p).pc ∧ x.m = (x.gr.path x.p).mask) :
    ∃ gr, x.launchOp i o = x.s.setGroup x.h x.g gr ∧ x.Enters i o gr ∧ x.behind gr := by
  refine ⟨x.onward i (x.enterOp i o), rfl, ?_, ?_⟩
  · have e1 : (x.enterOp i o).paths = x.gr.paths ∧ (x.enterOp i o).ap = x.gr.ap := by
      unfold Iss.enterOp Iss.popped
      dsimp only
      split <;> split <;> exact ⟨rfl, rfl⟩
    have e2 : ∀ p, (x.enterOp i o).path p = x.gr.path p := fun p => by simp only [Group.path, e1.1]
    apply Iss.enterOp_enters hw
    · unfold Iss.onward; split <;> rfl
    · unfold Iss.onward; split <;> simp [Group.modPath, e1]
    · intro p hq
      unfold Iss.onward
      split
      · exact e2 p
      · rename_i h
        have h5 := hq (by simpa using h)
        rw [Group.path_modPath, if_neg (fun h => h5 h.1), e2]
    · intro h
      unfold Iss.onward
      simp only [h, Bool.false_eq_true, if_false]
      rw [Group.path_modPath, if_pos ⟨rfl, by rw [e1.1]; exact (hp h).1⟩, e2]
      have h6 := (hp h).2.2.symm
      exact ⟨by simpa using h6, by simp, by simp, by simp, by simp, e1.2⟩
  · unfold Iss.behind Iss.onward
    have e1 : (x.enterOp i o).paths = x.gr.paths ∧ (x.enterOp i o).ap = x.gr.ap := by
      unfold Iss.enterOp Iss.popped
      dsimp only
      split <;> split <;> exact ⟨rfl, rfl⟩
    split
    · rename_i h
      exact ⟨rfl, by rw [e1.2]; exact (ha h).1, rfl⟩
    · rename_i h
      have h := hp (by simpa using h)
      rw [Group.path_modPath, if_pos ⟨rfl, by rw [e1.1]; exact h.1⟩]
      simp [Group.path, e1.1, h.2.1, h.2.2]

/-- An operation is entered and the issuer waits for it. -/
theorem Iss.holdOp_enters {x : Iss} {i : Instr} {o : Op}
    (hw : o.seq = x.gr.nextSeq ∧ o.instr = i ∧ o.path = x.p ∧ o.pc = x.pc ∧ o.mask = x.m ∧ o.x = x.x
      ∧ o.cls = i.ctrClass ∧ o.paths = [x.p] ∧ o.prior = x.priorOps)
    (ha : x.ap = true → x.gr.ap.st = .running ∧ x.pc = x.gr.ap.pc ∧ x.m = 1)
    (hp : x.ap = false → x.p < x.gr.paths.length ∧ x.pc = (x.gr.path x.p).pc ∧ x.m = (x.gr.path x.p).mask) :
    ∃ gr, x.holdOp i o = x.s.setGroup x.h x.g gr ∧ x.Enters i o gr ∧ x.waits gr o.seq := by
  have e1 : (x.enterOp i o).paths = x.gr.paths ∧ (x.enterOp i o).ap = x.gr.ap := by
    unfold Iss.enterOp Iss.popped
    dsimp only
    split <;> split <;> exact ⟨rfl, rfl⟩
  have e2 : ∀ p, (x.enterOp i o).path p = x.gr.path p := fun p => by simp only [Group.path, e1.1]
  refine ⟨_, rfl, ?_, ?_⟩
  · apply Iss.enterOp_enters hw
    · split <;> rfl
    · split <;> simp [Group.modPath, e1]
    · intro p hq
      split
      · exact e2 p
      · rename_i h
        have h5 := hq (by simpa using h)
        rw [Group.path_modPath, if_neg (fun h => h5 h.1), e2]
    · intro h
      simp only [h, Bool.false_eq_true, if_false]
      rw [Group.path_modPath, if_pos ⟨rfl, by rw [e1.1]; exact (hp h).1⟩, e2]
      have h6 := (hp h).2.2.symm
      exact ⟨by simpa using h6, by simp, by simp, by simp, by simp, e1.2⟩
  · unfold Iss.waits
    split
    · rename_i h
      simp [h, e1, (ha h).2.1]
    · rename_i h
      have h' : x.ap = false := by simpa using h
      have h := hp h'
      simp only [h', Bool.false_eq_true, if_false]
      rw [Group.path_modPath, if_pos ⟨rfl, by rw [e1.1]; exact h.1⟩, e2]
      simp [h.2.1]

end Sys2Proof.Machine
end

