-- ==== Sys2Proof/Laws/Memory.lean ====
section
/-!
SUPPORT. The laws of memory: a byte is read as it was last written, every operation keeps the canonical form, equal
memories are equal lists, and the three places of the model that write memory keep the form.
-/
namespace Sys2Proof.Machine.Memory

/-- The canonical form of a list with a first cell. -/
theorem wf_cons (c : Host.Cell) (m : List Host.Cell) :
    wf (c :: m) = true ↔ c.2 ≠ 0 ∧ (∀ d ∈ m.head?, c.1 < d.1) ∧ wf m = true := by
  cases m <;> simp [wf, and_assoc]

/-- In canonical form every later cell has a higher address. -/
theorem lt_of_mem {c : Host.Cell} {m : List Host.Cell} (h : wf (c :: m) = true) : ∀ d ∈ m, c.1 < d.1 := by
  induction m generalizing c with
  | nil => simp
  | cons e m ih =>
    obtain ⟨-, h1, h2⟩ := (wf_cons ..).1 h
    intro d hd
    have hce : c.1 < e.1 := h1 e rfl
    rcases List.mem_cons.1 hd with rfl | hd
    · exact hce
    · exact hce.trans (ih h2 d hd)

/-- Below the first address every byte reads as an unlisted one. -/
theorem get_below {m : List Host.Cell} {a : Nat} (h : ∀ d ∈ m, a < d.1) : get m a = 0 := by
  induction m with
  | nil => rfl
  | cons c m ih =>
    have := h c (by simp)
    rw [get, if_neg (by omega), ih fun d hd => h d (by simp [hd])]

/-! ### One byte -/

theorem get_set_self {m : List Host.Cell} (h : wf m = true) (a : Nat) (b : Byte) : get (set m a b) a = b := by
  induction m with
  | nil => by_cases hb : b = 0 <;> simp only [set, hb, if_true, if_false] <;> simp [get]
  | cons c m ih =>
    have low := lt_of_mem h
    obtain ⟨-, -, h2⟩ := (wf_cons ..).1 h
    simp only [set]
    split
    · rename_i hlt
      split
      · rw [get_below, ‹b = 0›]
        intro d hd
        rcases List.mem_cons.1 hd with rfl | hd
        · exact hlt
        · exact hlt.trans (low d hd)
      · simp [get]
    · split
      · rename_i heq
        split
        · rw [get_below, ‹b = 0›]
          exact fun d hd => heq ▸ low d hd
        · simp [get]
      · rename_i hne
        rw [get, if_neg hne, ih h2]

theorem get_set_ne (m : List Host.Cell) {a k : Nat} (b : Byte) (h : k ≠ a) : get (set m a b) k = get m k := by
  induction m with
  | nil => by_cases hb : b = 0 <;> simp only [set, hb, if_true, if_false] <;> simp [get, h]
  | cons c m ih =>
    simp only [set]
    split
    · split <;> simp [get, h]
    · split
      · rename_i heq
        split <;> simp [get, h, ← heq]
      · simp [get, ih]

/-- A write of one byte keeps the canonical form. -/
theorem set_wf {m : List Host.Cell} (h : wf m = true) (a : Nat) (b : Byte) : wf (set m a b) = true := by
  induction m with
  | nil => by_cases hb : b = 0 <;> simp only [set, hb, if_true, if_false] <;> first | rfl | simpa [wf] using hb
  | cons c m ih =>
    obtain ⟨h0, h1, h2⟩ := (wf_cons ..).1 h
    simp only [set]
    split
    · rename_i hlt
      split
      · exact h
      · exact (wf_cons ..).2 ⟨‹_›, by simpa using hlt, h⟩
    · split
      · rename_i heq
        split
        · exact h2
        · exact (wf_cons ..).2 ⟨‹_›, heq ▸ h1, h2⟩
      · rename_i hge hne
        refine (wf_cons ..).2 ⟨h0, ?_, ih h2⟩
        cases m with
        | nil => by_cases hb : b = 0 <;> simp only [set, hb, if_true, if_false] <;> simp; omega
        | cons e m =>
          have he := h1 e rfl
          obtain ⟨-, g1, -⟩ := (wf_cons ..).1 h2
          simp only [set]
          split
          · split
            · simpa using he
            · simp; omega
          · split
            · split
              · intro d hd
                exact he.trans (g1 d hd)
              · simp; omega
            · simpa using he

/-! ### Several bytes -/

/-- A write keeps the canonical form. -/
theorem write_wf {m : List Host.Cell} (h : wf m = true) (a : Nat) (bs : List Byte) : wf (write m a bs) = true := by
  induction bs generalizing m a with
  | nil => exact h
  | cons b bs ih => exact ih (set_wf h a b) (a + 1)

/-- A byte after a write: the byte written, or the one that was there. -/
theorem get_write {m : List Host.Cell} (h : wf m = true) (a : Nat) (bs : List Byte) (k : Nat) :
    get (write m a bs) k = if a ≤ k ∧ k < a + bs.length then bs.getD (k - a) 0 else get m k := by
  induction bs generalizing m a with
  | nil => simp [write]
  | cons b bs ih =>
    rw [write, ih (set_wf h a b)]
    by_cases hk : k = a
    · subst hk
      rw [if_neg (by omega), if_pos (by simp), get_set_self h]
      simp
    · rw [get_set_ne _ _ hk]
      by_cases hr : a + 1 ≤ k ∧ k < a + 1 + bs.length
      · rw [if_pos hr, if_pos (by simp; omega)]
        obtain ⟨j, rfl⟩ := Nat.exists_eq_add_of_le hr.1
        rw [show a + 1 + j - (a + 1) = j by omega, show a + 1 + j - a = j + 1 by omega]
        rfl
      · rw [if_neg hr, if_neg (by simp; omega)]

theorem read_length (m : List Host.Cell) (a n : Nat) : (read m a n).length = n := by
  induction n generalizing a with
  | zero => rfl
  | succ n ih => simp [read, ih]

theorem read_getD (m : List Host.Cell) (a n : Nat) {k : Nat} (h : k < n) : (read m a n).getD k 0 = get m (a + k) := by
  induction n generalizing a k with
  | zero => omega
  | succ n ih =>
    cases k with
    | zero => rfl
    | succ k =>
      rw [read, List.getD_cons_succ, ih _ (by omega), show a + 1 + k = a + (k + 1) by omega]

/-- What was written reads back. -/
theorem read_write {m : List Host.Cell} (h : wf m = true) (a : Nat) (bs : List Byte) :
    read (write m a bs) a bs.length = bs := by
  apply List.ext_getElem (read_length ..)
  intro k h1 h2
  have hd := read_getD (write m a bs) a bs.length h2
  rw [get_write h, if_pos (by omega), Nat.add_sub_cancel_left] at hd
  simpa [List.getD_eq_getElem?_getD, h1, h2] using hd

/-- Bytes outside a write read as before. -/
theorem read_write_disjoint {m : List Host.Cell} (h : wf m = true) (a : Nat) (bs : List Byte) (k n : Nat)
    (hd : k + n ≤ a ∨ a + bs.length ≤ k) : read (write m a bs) k n = read m k n := by
  apply List.ext_getElem (by simp [read_length])
  intro j h1 h2
  have hj : j < n := by simpa [read_length] using h1
  have e1 := read_getD (write m a bs) k n hj
  have e2 := read_getD m k n hj
  rw [get_write h, if_neg (by omega), ← e2] at e1
  simpa [List.getD_eq_getElem?_getD, h1, h2] using e1

/-- Memories in canonical form that read alike are equal lists. -/
theorem ext {m n : List Host.Cell} (hm : wf m = true) (hn : wf n = true) (h : ∀ a, get m a = get n a) : m = n := by
  induction m generalizing n with
  | nil =>
    cases n with
    | nil => rfl
    | cons d n =>
      have := h d.1
      simp only [get, if_pos] at this
      exact absurd this.symm ((wf_cons ..).1 hn).1
  | cons c m ih =>
    cases n with
    | nil =>
      have := h c.1
      simp only [get, if_pos] at this
      exact absurd this ((wf_cons ..).1 hm).1
    | cons d n =>
      have hc := h c.1
      have hd := h d.1
      have c0 := ((wf_cons ..).1 hm).1
      have d0 := ((wf_cons ..).1 hn).1
      have lowm := lt_of_mem hm
      have lown := lt_of_mem hn
      have heq : c.1 = d.1 := by
        rcases Nat.lt_trichotomy c.1 d.1 with hlt | heq | hgt
        · rw [get_below (m := d :: n) fun e he => by
            rcases List.mem_cons.1 he with rfl | he
            · exact hlt
            · exact hlt.trans (lown e he)] at hc
          simp only [get, if_pos] at hc
          exact absurd hc c0
        · exact heq
        · rw [get_below (m := c :: m) fun e he => by
            rcases List.mem_cons.1 he with rfl | he
            · exact hgt
            · exact hgt.trans (lowm e he)] at hd
          simp only [get, if_pos] at hd
          exact absurd hd.symm d0
      have hv : c.2 = d.2 := by simpa [get, heq] using hc
      have htl : m = n := by
        refine ih ((wf_cons ..).1 hm).2.2 ((wf_cons ..).1 hn).2.2 fun a => ?_
        by_cases ha : a = c.1
        · subst ha
          rw [get_below lowm, get_below fun e he => heq ▸ lown e he]
        · have := h a
          simpa [get, ha, heq ▸ ha] using this
      rw [htl, Prod.ext heq hv]

end Sys2Proof.Machine.Memory

namespace Sys2Proof.Machine

/-! ### The places that write memory -/

/-- Memory where a line leaves L2: its data where it is dirty. -/
theorem State.dropL2_mem (s : State) (line : Nat) : (s.dropL2 line).mem =
    match s.l2? line with
    | none => s.mem
    | some l => if l.dirty = true then Memory.write s.mem line l.data.bytes else s.mem := by
  cases h : s.l2? line with
  | none => simp only [State.dropL2, h]
  | some l =>
    simp only [State.dropL2, h]
    cases l.dirty <;> cases l.stamps.lv <;>
      simp only [if_true, if_false, Bool.false_eq_true, Bool.not_true, Bool.not_false]

/-- A line that leaves L2 keeps the form of memory. -/
theorem State.dropL2_wf {s : State} (line : Nat) (h : Memory.wf s.mem = true) : Memory.wf (s.dropL2 line).mem = true := by
  rw [State.dropL2_mem]
  cases s.l2? line with
  | none => exact h
  | some l =>
    cases hd : l.dirty with
    | true => simp only [hd, if_true]; exact Memory.write_wf h _ _
    | false => simp only [hd, Bool.false_eq_true, if_false]; exact h

/-- A line that enters L2 keeps the form of memory. -/
theorem State.putL2_wf {s : State} (line : Nat) (row : Row) (dirty : Bool) (h : Memory.wf s.mem = true) :
    Memory.wf (s.putL2 line row dirty).mem = true := by
  unfold State.putL2
  split
  · exact h
  · have key : ∀ o : Option Nat, Memory.wf (match o with
        | some v => s.dropL2 v
        | none => s).mem = true := fun o => by
      cases o with
      | none => exact h
      | some v => exact State.dropL2_wf v h
    exact key _

theorem State.mergeAt_mem (s : State) (line : Nat) : (s.mergeAt line).mem = s.mem := by
  unfold State.mergeAt
  split
  · rfl
  · split
    · rfl
    · dsimp only
      repeat' split
      all_goals rfl

theorem State.ageStamps_mem (s : State) (line : Nat) : (s.ageStamps line).mem = s.mem := by
  unfold State.ageStamps
  split <;> rfl

/-- Memory where the Raker cleans a line. -/
theorem State.rakerClean_mem (s : State) (line : Nat) : (s.rakerClean line).mem =
    match s.l2? line with
    | none => s.mem
    | some l => if l.dirty = true then Memory.write s.mem line l.data.bytes else s.mem := by
  cases h : s.l2? line with
  | none => simp only [State.rakerClean, h]
  | some l =>
    simp only [State.rakerClean, h]
    cases l.dirty <;> simp only [if_true, if_false, Bool.false_eq_true]

theorem State.rakerAsk_mem (s : State) (age line : Nat) : (s.rakerAsk age line).mem = s.mem := by
  unfold State.rakerAsk
  repeat' split
  all_goals rfl

/-- Memory after a step of the Raker: as before, or with the line's data of L2. -/
theorem State.rakerStep_mem {s t : State} {die line : Nat} (e : s.rakerStep die line = some t) :
    t.mem = s.mem ∨ t.mem = (s.rakerClean line).mem := by
  unfold State.rakerStep at e
  split at e
  · cases e
  · simp only [Option.some.injEq] at e
    subst e
    rw [State.ageStamps_mem, State.mergeAt_mem]
    split <;> split <;> simp only [State.rakerAsk_mem, true_or, or_true]

/-- A step of the Raker keeps the form of memory. -/
theorem State.rakerStep_wf {s t : State} {die line : Nat} (h : Memory.wf s.mem = true)
    (e : s.rakerStep die line = some t) : Memory.wf t.mem = true := by
  rcases State.rakerStep_mem e with hm | hm <;> rw [hm]
  · exact h
  · rw [State.rakerClean_mem]
    cases s.l2? line with
    | none => exact h
    | some l =>
      cases hd : l.dirty with
      | true => simp only [hd, if_true]; exact Memory.write_wf h _ _
      | false => simp only [hd, Bool.false_eq_true, if_false]; exact h

/-- At reset memory lists nothing and has its form. -/
theorem State.reset_wf : Memory.wf State.reset.mem = true := rfl

/-- RESET keeps the form of memory. -/
theorem State.reboot_mem (s : State) : s.reboot.mem = s.mem := by
  unfold State.reboot
  dsimp only
  repeat' split
  all_goals rfl

end Sys2Proof.Machine
end

