-- ==== Sys2Proof/Laws/PerInstr.lean ====
section
/-!
SUPPORT. The family `Encoding`: the guard and the hints of an instruction survive its encoding (R249, R250). One lemma
per constructor of `Instr`.
-/
namespace Sys2Proof

/-- The fields of a word that is made of fields (Table 11.1). -/
theorem Raw.ofWord_toWord (r : Raw) : Raw.ofWord r.toWord = r := by
  cases r
  simp only [Raw.ofWord, Raw.toWord, Raw.mk.injEq]
  refine ⟨?_, ?_, ?_, ?_, ?_, ?_, ?_, ?_, ?_, ?_⟩
  all_goals first
    | (apply BitVec.eq_of_getLsbD_eq; intro k hk
       simp only [BitVec.getLsbD_append, BitVec.getLsbD_extractLsb', hk, decide_true, Bool.true_and]
       repeat rw [if_neg (by omega)]
       first
         | rw [if_pos (by omega)]; congr 1; omega
         | congr 1; omega)
    | simp only [BitVec.getLsbD_append]; simp

/-- The guard and the hints of the fields (R249, R250). -/
theorem mkRaw_ctl (c : Ctl) (opc : BitVec 12) (d a b : BitVec 16) (mod : BitVec 18) (i : Bool) :
    (mkRaw c opc d a b mod i).ctl = c := by
  rcases c with ⟨g, h⟩
  rcases h with ⟨p, y, s, k, ra, rb, st⟩
  have e : BitVec.extractLsb' 1 3 (hintBits ⟨p, y, s, k, ra, rb, st⟩) = st := by
    apply BitVec.eq_of_getLsbD_eq
    intro j hj
    simp only [hintBits, BitVec.getLsbD_append, BitVec.getLsbD_extractLsb', hj, decide_true, Bool.true_and]
    rw [if_neg (by omega), if_pos (by omega)]; congr 1; omega
  cases g <;> simp only [mkRaw, Raw.ctl, e] <;> simp only [hintBits, BitVec.getLsbD_append] <;> simp

theorem encR_ctl (c : Ctl) (opc : BitVec 12) (d a b : Opnd) (mod : BitVec 18) : (encR c opc d a b mod).ctl = c :=
  mkRaw_ctl ..

theorem encI_ctl (c : Ctl) (opc : BitVec 12) (d a b : Opnd) (mod : BitVec 18) (tsel : BitVec 2) :
    (encI c opc d a b mod tsel).ctl = c := by
  cases b <;> exact mkRaw_ctl ..

theorem encC_ctl (c : Ctl) (opc : BitVec 12) (d a b cc : Opnd) (tsel : BitVec 2) :
    (encC c opc d a b cc tsel).ctl = c :=
  mkRaw_ctl ..

theorem encode_ctl {i : Instr} {c : Ctl} (h : (encodeRaw i).ctl = c) : (Raw.ofWord (encode i)).ctl = c := by
  rw [encode, Raw.ofWord_toWord, h]

end Sys2Proof

namespace Sys2Proof.Laws.Encoding

/-- The guard and the hints of an instruction with a word are those of its word. The words of the hint region have
none. -/
def Statement (i : Instr) : Prop :=
  i.isEvent = false → (∀ w, i ≠ .hintRegionWord w) → (Raw.ofWord (encode i)).ctl = i.ctl

theorem nop (c : Ctl) : Statement (.nop c) := fun _ _ => encode_ctl (encR_ctl ..)
theorem bra (c : Ctl) (t : Target) : Statement (.bra c t) := fun _ _ => encode_ctl (encI_ctl ..)
theorem brx (c : Ctl) (tok : BitVec 6) (t : Target) : Statement (.brx c tok t) := fun _ _ => encode_ctl (encI_ctl ..)
theorem jmp (c : Ctl) (a : Opnd) : Statement (.jmp c a) := fun _ _ => encode_ctl (encR_ctl ..)
theorem reconv (c : Ctl) (tok : BitVec 6) : Statement (.reconv c tok) := fun _ _ => encode_ctl (encR_ctl ..)
theorem call (c : Ctl) (d : Opnd) (t : Target) : Statement (.call c d t) := fun _ _ => encode_ctl (encI_ctl ..)
theorem callr (c : Ctl) (d : Opnd) (a : Opnd) : Statement (.callr c d a) := fun _ _ => encode_ctl (encR_ctl ..)
theorem ret (c : Ctl) (a : Opnd) : Statement (.ret c a) := fun _ _ => encode_ctl (encR_ctl ..)
theorem exit (c : Ctl) : Statement (.exit c) := fun _ _ => encode_ctl (encR_ctl ..)
theorem mov (c : Ctl) (t : Ty) (d : Opnd) (a : Opnd) : Statement (.mov c t d a) :=
  by intro _ _; cases a <;> exact encode_ctl (by first | exact encI_ctl .. | exact encR_ctl ..)
theorem iadd (c : Ctl) (t : Ty) (d : Opnd) (a : Opnd) (b : Opnd) : Statement (.iadd c t d a b) :=
  fun _ _ => encode_ctl (encI_ctl ..)
theorem isub (c : Ctl) (t : Ty) (d : Opnd) (a : Opnd) (b : Opnd) : Statement (.isub c t d a b) :=
  fun _ _ => encode_ctl (encI_ctl ..)
theorem imul (c : Ctl) (t : Ty) (d : Opnd) (a : Opnd) (b : Opnd) : Statement (.imul c t d a b) :=
  fun _ _ => encode_ctl (encI_ctl ..)
theorem imulh (c : Ctl) (t : Ty) (d : Opnd) (a : Opnd) (b : Opnd) : Statement (.imulh c t d a b) :=
  fun _ _ => encode_ctl (encI_ctl ..)
theorem imad (c : Ctl) (t : Ty) (d : Opnd) (a : Opnd) (b : Opnd) (cc : Opnd) : Statement (.imad c t d a b cc) :=
  fun _ _ => encode_ctl (encC_ctl ..)
theorem idiv (c : Ctl) (t : Ty) (d : Opnd) (a : Opnd) (b : Opnd) : Statement (.idiv c t d a b) :=
  fun _ _ => encode_ctl (encI_ctl ..)
theorem irem (c : Ctl) (t : Ty) (d : Opnd) (a : Opnd) (b : Opnd) : Statement (.irem c t d a b) :=
  fun _ _ => encode_ctl (encI_ctl ..)
theorem imin (c : Ctl) (t : Ty) (d : Opnd) (a : Opnd) (b : Opnd) : Statement (.imin c t d a b) :=
  fun _ _ => encode_ctl (encI_ctl ..)
theorem imax (c : Ctl) (t : Ty) (d : Opnd) (a : Opnd) (b : Opnd) : Statement (.imax c t d a b) :=
  fun _ _ => encode_ctl (encI_ctl ..)
theorem iabs (c : Ctl) (t : Ty) (d : Opnd) (a : Opnd) : Statement (.iabs c t d a) :=
  fun _ _ => encode_ctl (encR_ctl ..)
theorem and (c : Ctl) (t : Ty) (d : Opnd) (a : Opnd) (b : Opnd) : Statement (.and c t d a b) :=
  fun _ _ => encode_ctl (encI_ctl ..)
theorem or (c : Ctl) (t : Ty) (d : Opnd) (a : Opnd) (b : Opnd) : Statement (.or c t d a b) :=
  fun _ _ => encode_ctl (encI_ctl ..)
theorem xor (c : Ctl) (t : Ty) (d : Opnd) (a : Opnd) (b : Opnd) : Statement (.xor c t d a b) :=
  fun _ _ => encode_ctl (encI_ctl ..)
theorem not (c : Ctl) (t : Ty) (d : Opnd) (a : Opnd) : Statement (.not c t d a) := fun _ _ => encode_ctl (encR_ctl ..)
theorem shl (c : Ctl) (t : Ty) (d : Opnd) (a : Opnd) (b : Opnd) : Statement (.shl c t d a b) :=
  fun _ _ => encode_ctl (encI_ctl ..)
theorem shr (c : Ctl) (t : Ty) (d : Opnd) (a : Opnd) (b : Opnd) : Statement (.shr c t d a b) :=
  fun _ _ => encode_ctl (encI_ctl ..)
theorem shra (c : Ctl) (t : Ty) (d : Opnd) (a : Opnd) (b : Opnd) : Statement (.shra c t d a b) :=
  fun _ _ => encode_ctl (encI_ctl ..)
theorem popc (c : Ctl) (t : Ty) (d : Opnd) (a : Opnd) : Statement (.popc c t d a) :=
  fun _ _ => encode_ctl (encR_ctl ..)
theorem clz (c : Ctl) (t : Ty) (d : Opnd) (a : Opnd) : Statement (.clz c t d a) := fun _ _ => encode_ctl (encR_ctl ..)
theorem brev (c : Ctl) (t : Ty) (d : Opnd) (a : Opnd) : Statement (.brev c t d a) :=
  fun _ _ => encode_ctl (encR_ctl ..)
theorem bfe (c : Ctl) (t : Ty) (d : Opnd) (a : Opnd) (b : Opnd) (cc : Opnd) : Statement (.bfe c t d a b cc) :=
  fun _ _ => encode_ctl (encC_ctl ..)
theorem bfi (c : Ctl) (t : Ty) (d : Opnd) (a : Opnd) (b : Opnd) (cc : Opnd) : Statement (.bfi c t d a b cc) :=
  fun _ _ => encode_ctl (encC_ctl ..)
theorem lea (c : Ctl) (t : Ty) (d : Opnd) (a : Opnd) (b : Opnd) (cc : Opnd) : Statement (.lea c t d a b cc) :=
  fun _ _ => encode_ctl (encC_ctl ..)
theorem sel (c : Ctl) (t : Ty) (d : Opnd) (a : Opnd) (b : Opnd) (cc : Opnd) : Statement (.sel c t d a b cc) :=
  fun _ _ => encode_ctl (encC_ctl ..)
theorem icmp (c : Ctl) (k : Cond) (t : Ty) (d : Opnd) (a : Opnd) (b : Opnd) : Statement (.icmp c k t d a b) :=
  fun _ _ => encode_ctl (encI_ctl ..)
theorem rng (c : Ctl) (unit : Bool) (d : Opnd) : Statement (.rng c unit d) := fun _ _ => encode_ctl (encR_ctl ..)
theorem fadd (c : Ctl) (r : Rnd) (t : Ty) (d : Opnd) (a : Opnd) (b : Opnd) : Statement (.fadd c r t d a b) :=
  fun _ _ => encode_ctl (encI_ctl ..)
theorem fsub (c : Ctl) (r : Rnd) (t : Ty) (d : Opnd) (a : Opnd) (b : Opnd) : Statement (.fsub c r t d a b) :=
  fun _ _ => encode_ctl (encI_ctl ..)
theorem fmul (c : Ctl) (r : Rnd) (t : Ty) (d : Opnd) (a : Opnd) (b : Opnd) : Statement (.fmul c r t d a b) :=
  fun _ _ => encode_ctl (encI_ctl ..)
theorem ffma (c : Ctl) (r : Rnd) (t : Ty) (d : Opnd) (a : Opnd) (b : Opnd) (cc : Opnd) : Statement (.ffma c r t d a b cc) :=
  fun _ _ => encode_ctl (encC_ctl ..)
theorem fmin (c : Ctl) (t : Ty) (d : Opnd) (a : Opnd) (b : Opnd) : Statement (.fmin c t d a b) :=
  fun _ _ => encode_ctl (encI_ctl ..)
theorem fmax (c : Ctl) (t : Ty) (d : Opnd) (a : Opnd) (b : Opnd) : Statement (.fmax c t d a b) :=
  fun _ _ => encode_ctl (encI_ctl ..)
theorem fabs (c : Ctl) (t : Ty) (d : Opnd) (a : Opnd) : Statement (.fabs c t d a) :=
  fun _ _ => encode_ctl (encR_ctl ..)
theorem fcmp (c : Ctl) (k : Cond) (t : Ty) (d : Opnd) (a : Opnd) (b : Opnd) : Statement (.fcmp c k t d a b) :=
  fun _ _ => encode_ctl (encI_ctl ..)
theorem fdiv (c : Ctl) (r : Rnd) (t : Ty) (d : Opnd) (a : Opnd) (b : Opnd) : Statement (.fdiv c r t d a b) :=
  fun _ _ => encode_ctl (encR_ctl ..)
theorem fsqrt (c : Ctl) (r : Rnd) (t : Ty) (d : Opnd) (a : Opnd) : Statement (.fsqrt c r t d a) :=
  fun _ _ => encode_ctl (encR_ctl ..)
theorem frcp (c : Ctl) (t : Ty) (d : Opnd) (a : Opnd) : Statement (.frcp c t d a) :=
  fun _ _ => encode_ctl (encR_ctl ..)
theorem frsq (c : Ctl) (t : Ty) (d : Opnd) (a : Opnd) : Statement (.frsq c t d a) :=
  fun _ _ => encode_ctl (encR_ctl ..)
theorem fexp2 (c : Ctl) (t : Ty) (d : Opnd) (a : Opnd) : Statement (.fexp2 c t d a) :=
  fun _ _ => encode_ctl (encR_ctl ..)
theorem flog2 (c : Ctl) (t : Ty) (d : Opnd) (a : Opnd) : Statement (.flog2 c t d a) :=
  fun _ _ => encode_ctl (encR_ctl ..)
theorem fsin (c : Ctl) (t : Ty) (d : Opnd) (a : Opnd) : Statement (.fsin c t d a) :=
  fun _ _ => encode_ctl (encR_ctl ..)
theorem fcos (c : Ctl) (t : Ty) (d : Opnd) (a : Opnd) : Statement (.fcos c t d a) :=
  fun _ _ => encode_ctl (encR_ctl ..)
theorem ftanh (c : Ctl) (t : Ty) (d : Opnd) (a : Opnd) : Statement (.ftanh c t d a) :=
  fun _ _ => encode_ctl (encR_ctl ..)
theorem fclass (c : Ctl) (t : Ty) (d : Opnd) (a : Opnd) : Statement (.fclass c t d a) :=
  fun _ _ => encode_ctl (encR_ctl ..)
theorem cvt (c : Ctl) (r : Rnd) (dt : Ty) (st : Ty) (d : Opnd) (a : Opnd) : Statement (.cvt c r dt st d a) :=
  fun _ _ => encode_ctl (encR_ctl ..)
theorem frnd (c : Ctl) (r : Rnd) (t : Ty) (d : Opnd) (a : Opnd) : Statement (.frnd c r t d a) :=
  fun _ _ => encode_ctl (encR_ctl ..)
theorem pkcvt (c : Ctl) (r : Rnd) (t : Ty) (d : Opnd) (a : Opnd) (b : Opnd) : Statement (.pkcvt c r t d a b) :=
  fun _ _ => encode_ctl (encR_ctl ..)
theorem unpk (c : Ctl) (t : Ty) (k : BitVec 2) (d : Opnd) (a : Opnd) : Statement (.unpk c t k d a) :=
  fun _ _ => encode_ctl (encR_ctl ..)
theorem pand (c : Ctl) (d : Opnd) (a : Opnd) (b : Opnd) : Statement (.pand c d a b) :=
  fun _ _ => encode_ctl (encR_ctl ..)
theorem por (c : Ctl) (d : Opnd) (a : Opnd) (b : Opnd) : Statement (.por c d a b) :=
  fun _ _ => encode_ctl (encR_ctl ..)
theorem pxor (c : Ctl) (d : Opnd) (a : Opnd) (b : Opnd) : Statement (.pxor c d a b) :=
  fun _ _ => encode_ctl (encR_ctl ..)
theorem pmov (c : Ctl) (d : Opnd) (a : Opnd) : Statement (.pmov c d a) := fun _ _ => encode_ctl (encR_ctl ..)
theorem shfl (c : Ctl) (w : SegW) (t : Ty) (d : Opnd) (a : Opnd) (b : Opnd) : Statement (.shfl c w t d a b) :=
  fun _ _ => encode_ctl (encR_ctl ..)
theorem shflup (c : Ctl) (w : SegW) (t : Ty) (d : Opnd) (a : Opnd) (b : Opnd) : Statement (.shflup c w t d a b) :=
  fun _ _ => encode_ctl (encR_ctl ..)
theorem shfldn (c : Ctl) (w : SegW) (t : Ty) (d : Opnd) (a : Opnd) (b : Opnd) : Statement (.shfldn c w t d a b) :=
  fun _ _ => encode_ctl (encR_ctl ..)
theorem shflx (c : Ctl) (w : SegW) (t : Ty) (d : Opnd) (a : Opnd) (b : Opnd) : Statement (.shflx c w t d a b) :=
  fun _ _ => encode_ctl (encR_ctl ..)
theorem voteall (c : Ctl) (d : Opnd) (a : Opnd) : Statement (.voteall c d a) := fun _ _ => encode_ctl (encR_ctl ..)
theorem voteany (c : Ctl) (d : Opnd) (a : Opnd) : Statement (.voteany c d a) := fun _ _ => encode_ctl (encR_ctl ..)
theorem ballot (c : Ctl) (d : Opnd) (a : Opnd) : Statement (.ballot c d a) := fun _ _ => encode_ctl (encR_ctl ..)
theorem redadd (c : Ctl) (t : Ty) (d : Opnd) (a : Opnd) : Statement (.redadd c t d a) :=
  fun _ _ => encode_ctl (encR_ctl ..)
theorem redmin (c : Ctl) (t : Ty) (d : Opnd) (a : Opnd) : Statement (.redmin c t d a) :=
  fun _ _ => encode_ctl (encR_ctl ..)
theorem redmax (c : Ctl) (t : Ty) (d : Opnd) (a : Opnd) : Statement (.redmax c t d a) :=
  fun _ _ => encode_ctl (encR_ctl ..)
theorem redand (c : Ctl) (t : Ty) (d : Opnd) (a : Opnd) : Statement (.redand c t d a) :=
  fun _ _ => encode_ctl (encR_ctl ..)
theorem redor (c : Ctl) (t : Ty) (d : Opnd) (a : Opnd) : Statement (.redor c t d a) :=
  fun _ _ => encode_ctl (encR_ctl ..)
theorem scanadd (c : Ctl) (excl : Bool) (t : Ty) (d : Opnd) (a : Opnd) : Statement (.scanadd c excl t d a) :=
  fun _ _ => encode_ctl (encR_ctl ..)
theorem matchLanes (c : Ctl) (t : Ty) (d : Opnd) (a : Opnd) : Statement (.matchLanes c t d a) :=
  fun _ _ => encode_ctl (encR_ctl ..)
theorem ld (c : Ctl) (f : LdForm) : Statement (.ld c f) := fun _ _ => encode_ctl (encI_ctl ..)
theorem ldWait (c : Ctl) (f : LdForm) : Statement (.ldWait c f) := fun _ _ => encode_ctl (encI_ctl ..)
theorem ldTake (c : Ctl) (f : LdForm) : Statement (.ldTake c f) := fun _ _ => encode_ctl (encI_ctl ..)
theorem ldPeek (c : Ctl) (f : LdForm) : Statement (.ldPeek c f) := fun _ _ => encode_ctl (encI_ctl ..)
theorem st (c : Ctl) (f : StForm) : Statement (.st c f) := fun _ _ => encode_ctl (encI_ctl ..)
theorem stWait (c : Ctl) (f : StForm) : Statement (.stWait c f) := fun _ _ => encode_ctl (encI_ctl ..)
theorem stTake (c : Ctl) (f : StForm) : Statement (.stTake c f) := fun _ _ => encode_ctl (encI_ctl ..)
theorem stPeek (c : Ctl) (f : StForm) : Statement (.stPeek c f) := fun _ _ => encode_ctl (encI_ctl ..)
theorem pref (c : Ctl) (x : Bool) (win : Win) (a : Opnd) (off : Opnd) : Statement (.pref c x win a off) :=
  fun _ _ => encode_ctl (encI_ctl ..)
theorem atom (c : Ctl) (op : AtomOp) (win : Win) (scope : ScopeSel) (ord : Ord4) (t : Ty) (d : Opnd) (a : Opnd) (b : Opnd) : Statement (.atom c op win scope ord t d a b) :=
  fun _ _ => encode_ctl (encR_ctl ..)
theorem fence (c : Ctl) (scope : ScopeSel) (classes : BitVec 4) : Statement (.fence c scope classes) :=
  fun _ _ => encode_ctl (encR_ctl ..)
theorem bar (c : Ctl) (scope : ScopeSel) (b : Opnd) : Statement (.bar c scope b) := fun _ _ => encode_ctl (encI_ctl ..)
theorem waitc (c : Ctl) (k : CtrClass) (b : Opnd) : Statement (.waitc c k b) := fun _ _ => encode_ctl (encI_ctl ..)
theorem stageIn (c : Ctl) (d : Opnd) (a : Opnd) (b : Opnd) : Statement (.stageIn c d a b) :=
  fun _ _ => encode_ctl (encR_ctl ..)
theorem stageOut (c : Ctl) (d : Opnd) (a : Opnd) (b : Opnd) : Statement (.stageOut c d a b) :=
  fun _ _ => encode_ctl (encR_ctl ..)
theorem cjoin (c : Ctl) (d : Opnd) (b : Opnd) : Statement (.cjoin c d b) := fun _ _ => encode_ctl (encI_ctl ..)
theorem cleave (c : Ctl) (d : Opnd) : Statement (.cleave c d) := fun _ _ => encode_ctl (encR_ctl ..)
theorem copy (c : Ctl) (scope : ScopeSel) (d : Opnd) (a : Opnd) (b : Opnd) : Statement (.copy c scope d a b) :=
  fun _ _ => encode_ctl (encR_ctl ..)
theorem copyxT2d (c : Ctl) (scope : ScopeSel) (d : Opnd) (a : Opnd) (b : Opnd) : Statement (.copyxT2d c scope d a b) :=
  fun _ _ => encode_ctl (encR_ctl ..)
theorem copyxPack (c : Ctl) (scope : ScopeSel) (d : Opnd) (a : Opnd) (b : Opnd) : Statement (.copyxPack c scope d a b) :=
  fun _ _ => encode_ctl (encR_ctl ..)
theorem copyxUnpack (c : Ctl) (scope : ScopeSel) (d : Opnd) (a : Opnd) (b : Opnd) : Statement (.copyxUnpack c scope d a b) :=
  fun _ _ => encode_ctl (encR_ctl ..)
theorem copyxHadq (c : Ctl) (scope : ScopeSel) (d : Opnd) (a : Opnd) (b : Opnd) : Statement (.copyxHadq c scope d a b) :=
  fun _ _ => encode_ctl (encR_ctl ..)
theorem resolve (c : Ctl) (pa : Bool) (a : Opnd) (b : Opnd) : Statement (.resolve c pa a b) :=
  fun _ _ => encode_ctl (encR_ctl ..)
theorem pnq (c : Ctl) (pa : Bool) (d : Opnd) (a : Opnd) : Statement (.pnq c pa d a) :=
  fun _ _ => encode_ctl (encR_ctl ..)
theorem pndrop (c : Ctl) (pa : Bool) (scope : ScopeSel) (a : Opnd) (b : Opnd) : Statement (.pndrop c pa scope a b) :=
  fun _ _ => encode_ctl (encR_ctl ..)
theorem mloadRow (c : Ctl) (tr : Bool) (t : Ty) (d : Opnd) (a : Opnd) (b : Opnd) : Statement (.mloadRow c tr t d a b) :=
  fun _ _ => encode_ctl (encR_ctl ..)
theorem mloadFact (c : Ctl) (d : Opnd) (a : Opnd) (b : Opnd) : Statement (.mloadFact c d a b) :=
  fun _ _ => encode_ctl (encR_ctl ..)
theorem mloadBlk (c : Ctl) (d : Opnd) (a : Opnd) (b : Opnd) : Statement (.mloadBlk c d a b) :=
  fun _ _ => encode_ctl (encR_ctl ..)
theorem mstoreRow (c : Ctl) (tr : Bool) (t : Ty) (d : Opnd) (a : Opnd) (b : Opnd) : Statement (.mstoreRow c tr t d a b) :=
  fun _ _ => encode_ctl (encR_ctl ..)
theorem mstoreFact (c : Ctl) (d : Opnd) (a : Opnd) : Statement (.mstoreFact c d a) :=
  fun _ _ => encode_ctl (encR_ctl ..)
theorem mma (c : Ctl) (ta : Bool) (tb : Bool) (d : Opnd) (a : Opnd) (b : Opnd) : Statement (.mma c ta tb d a b) :=
  fun _ _ => encode_ctl (encR_ctl ..)
theorem madd (c : Ctl) (d : Opnd) (a : Opnd) (b : Opnd) : Statement (.madd c d a b) :=
  fun _ _ => encode_ctl (encR_ctl ..)
theorem recomp (c : Ctl) (d : Opnd) (a : Opnd) : Statement (.recomp c d a) := fun _ _ => encode_ctl (encR_ctl ..)
theorem mdense (c : Ctl) (d : Opnd) (a : Opnd) : Statement (.mdense c d a) := fun _ _ => encode_ctl (encR_ctl ..)
theorem mrankGet (c : Ctl) (d : Opnd) (a : Opnd) : Statement (.mrankGet c d a) := fun _ _ => encode_ctl (encR_ctl ..)
theorem mrankCap (c : Ctl) (d : Opnd) (b : Opnd) : Statement (.mrankCap c d b) := fun _ _ => encode_ctl (encR_ctl ..)
theorem mzero (c : Ctl) (d : Opnd) : Statement (.mzero c d) := fun _ _ => encode_ctl (encR_ctl ..)
theorem mmov (c : Ctl) (d : Opnd) (a : Opnd) : Statement (.mmov c d a) := fun _ _ => encode_ctl (encR_ctl ..)
theorem aload (c : Ctl) (tr : Bool) (t : Ty) (d : Opnd) (a : Opnd) (b : Opnd) : Statement (.aload c tr t d a b) :=
  fun _ _ => encode_ctl (encR_ctl ..)
theorem astore (c : Ctl) (tr : Bool) (t : Ty) (d : Opnd) (a : Opnd) (b : Opnd) : Statement (.astore c tr t d a b) :=
  fun _ _ => encode_ctl (encR_ctl ..)
theorem azero (c : Ctl) (d : Opnd) : Statement (.azero c d) := fun _ _ => encode_ctl (encR_ctl ..)
theorem amov (c : Ctl) (d : Opnd) (a : Opnd) : Statement (.amov c d a) := fun _ _ => encode_ctl (encR_ctl ..)
theorem xformQ (c : Ctl) (d : Opnd) (a : Opnd) (b : Opnd) : Statement (.xformQ c d a b) :=
  fun _ _ => encode_ctl (encR_ctl ..)
theorem xformDq (c : Ctl) (d : Opnd) (a : Opnd) (b : Opnd) : Statement (.xformDq c d a b) :=
  fun _ _ => encode_ctl (encR_ctl ..)
theorem xformHad (c : Ctl) (d : Opnd) (a : Opnd) (b : Opnd) : Statement (.xformHad c d a b) :=
  fun _ _ => encode_ctl (encR_ctl ..)
theorem decodeBlk (c : Ctl) (q : DecQual) (d : Opnd) (a : Opnd) (b : Opnd) : Statement (.decodeBlk c q d a b) :=
  fun _ _ => encode_ctl (encR_ctl ..)
theorem admitSeq (c : Ctl) (d : Opnd) (a : Opnd) (b : Opnd) : Statement (.admitSeq c d a b) :=
  fun _ _ => encode_ctl (encR_ctl ..)
theorem admitRel (c : Ctl) (d : Opnd) (a : Opnd) : Statement (.admitRel c d a) := fun _ _ => encode_ctl (encR_ctl ..)
theorem kvapp (c : Ctl) (d : Opnd) (a : Opnd) (b : Opnd) : Statement (.kvapp c d a b) :=
  fun _ _ => encode_ctl (encR_ctl ..)
theorem kvld (c : Ctl) (isV : Bool) (fromEnd : Bool) (k : BitVec 5) (d : Opnd) (a : Opnd) (b : Opnd) : Statement (.kvld c isV fromEnd k d a b) :=
  fun _ _ => encode_ctl (encR_ctl ..)
theorem kvseal (c : Ctl) (a : Opnd) : Statement (.kvseal c a) := fun _ _ => encode_ctl (encR_ctl ..)
theorem span (c : Ctl) (a : Opnd) (b : Opnd) : Statement (.span c a b) := fun _ _ => encode_ctl (encI_ctl ..)
theorem spanret (c : Ctl) (a : Opnd) (b : Opnd) : Statement (.spanret c a b) := fun _ _ => encode_ctl (encI_ctl ..)
theorem window (c : Ctl) (a : Opnd) (b : Opnd) : Statement (.window c a b) := fun _ _ => encode_ctl (encR_ctl ..)
theorem rope (c : Ctl) (k : BitVec 5) (d : Opnd) (a : Opnd) (b : Opnd) : Statement (.rope c k d a b) :=
  fun _ _ => encode_ctl (encR_ctl ..)
theorem nest (c : Ctl) (a : Opnd) : Statement (.nest c a) := fun _ _ => encode_ctl (encR_ctl ..)
theorem apsend (c : Ctl) (q : BitVec 2) (b : Opnd) : Statement (.apsend c q b) := fun _ _ => encode_ctl (encR_ctl ..)
theorem apermit (c : Ctl) (q : BitVec 2) (b : Opnd) : Statement (.apermit c q b) := fun _ _ => encode_ctl (encI_ctl ..)
theorem launch (c : Ctl) (d : Opnd) (a : Opnd) : Statement (.launch c d a) := fun _ _ => encode_ctl (encR_ctl ..)
theorem trap (c : Ctl) (b : Opnd) : Statement (.trap c b) := fun _ _ => encode_ctl (encI_ctl ..)
theorem eret (c : Ctl) : Statement (.eret c) := fun _ _ => encode_ctl (encR_ctl ..)
theorem eretRetry (c : Ctl) : Statement (.eretRetry c) := fun _ _ => encode_ctl (encR_ctl ..)
theorem svc (c : Ctl) (b : Opnd) : Statement (.svc c b) := fun _ _ => encode_ctl (encI_ctl ..)
theorem getsr (c : Ctl) (d : Opnd) (b : Opnd) : Statement (.getsr c d b) := fun _ _ => encode_ctl (encI_ctl ..)
theorem setsr (c : Ctl) (n : BitVec 13) (b : Opnd) : Statement (.setsr c n b) := fun _ _ => encode_ctl (encI_ctl ..)
theorem bkpt (c : Ctl) (b : Opnd) : Statement (.bkpt c b) := fun _ _ => encode_ctl (encI_ctl ..)
theorem sample (c : Ctl) (a : Opnd) : Statement (.sample c a) := fun _ _ => encode_ctl (encR_ctl ..)
theorem rgive (c : Ctl) (pool : Pool) (b : Opnd) : Statement (.rgive c pool b) := fun _ _ => encode_ctl (encI_ctl ..)
theorem rclaim (c : Ctl) (pool : Pool) (b : Opnd) : Statement (.rclaim c pool b) := fun _ _ => encode_ctl (encI_ctl ..)
theorem hintRegionWord (w : BitVec 96) : Statement (.hintRegionWord w) := fun _ h => absurd rfl (h _)
theorem notAnInstruction (w : BitVec 96) : Statement (.notAnInstruction w) := fun _ _ => encode_ctl rfl
theorem pendingCauseTaken (wg : Nat) (g : Nat) : Statement (.pendingCauseTaken wg g) :=
  fun h => Bool.noConfusion (h : true = false)
theorem nestPush (wg : Nat) (g : Nat) : Statement (.nestPush wg g) := fun h => Bool.noConfusion (h : true = false)
theorem writeLands (wg : Nat) (g : Nat) (seq : Nat) : Statement (.writeLands wg g seq) :=
  fun h => Bool.noConfusion (h : true = false)
theorem engineCompletion (wg : Nat) (g : Nat) (k : CtrClass) : Statement (.engineCompletion wg g k) :=
  fun h => Bool.noConfusion (h : true = false)
theorem matrixStart (core : Nat) : Statement (.matrixStart core) := fun h => Bool.noConfusion (h : true = false)
theorem transformStart (core : Nat) : Statement (.transformStart core) := fun h => Bool.noConfusion (h : true = false)
theorem stageOutWrite (wg : Nat) (g : Nat) (seq : Nat) : Statement (.stageOutWrite wg g seq) :=
  fun h => Bool.noConfusion (h : true = false)
theorem barrierPhaseComplete (wg : Nat) (key : Nat) : Statement (.barrierPhaseComplete wg key) :=
  fun h => Bool.noConfusion (h : true = false)
theorem claimGrant (core : Nat) (bank : Nat) (quarter : Nat) (pool : Pool) : Statement (.claimGrant core bank quarter pool) :=
  fun h => Bool.noConfusion (h : true = false)
theorem registersFreed (wg : Nat) (g : Nat) : Statement (.registersFreed wg g) :=
  fun h => Bool.noConfusion (h : true = false)
theorem pageWalk (quad : Nat) : Statement (.pageWalk quad) := fun h => Bool.noConfusion (h : true = false)
theorem tableLineStore (line : Nat) : Statement (.tableLineStore line) := fun h => Bool.noConfusion (h : true = false)
theorem translationInvalidation (quad : Nat) (line : Nat) : Statement (.translationInvalidation quad line) :=
  fun h => Bool.noConfusion (h : true = false)
theorem translationAck (quad : Nat) (line : Nat) : Statement (.translationAck quad line) :=
  fun h => Bool.noConfusion (h : true = false)
theorem stackerMove (die : Nat) (cg : Nat) (ctx : Nat) (va : Nat) : Statement (.stackerMove die cg ctx va) :=
  fun h => Bool.noConfusion (h : true = false)
theorem stackerRelease (die : Nat) (cg : Nat) : Statement (.stackerRelease die cg) :=
  fun h => Bool.noConfusion (h : true = false)
theorem rd (core : Nat) (line : Nat) : Statement (.rd core line) := fun h => Bool.noConfusion (h : true = false)
theorem rfo (core : Nat) (line : Nat) : Statement (.rfo core line) := fun h => Bool.noConfusion (h : true = false)
theorem rfoz (core : Nat) (line : Nat) : Statement (.rfoz core line) := fun h => Bool.noConfusion (h : true = false)
theorem upg (core : Nat) (line : Nat) : Statement (.upg core line) := fun h => Bool.noConfusion (h : true = false)
theorem wb (core : Nat) (line : Nat) : Statement (.wb core line) := fun h => Bool.noConfusion (h : true = false)
theorem inv (core : Nat) (line : Nat) : Statement (.inv core line) := fun h => Bool.noConfusion (h : true = false)
theorem fwdRd (core : Nat) (line : Nat) : Statement (.fwdRd core line) := fun h => Bool.noConfusion (h : true = false)
theorem fwdRfo (core : Nat) (line : Nat) : Statement (.fwdRfo core line) :=
  fun h => Bool.noConfusion (h : true = false)
theorem invAck (core : Nat) (line : Nat) : Statement (.invAck core line) :=
  fun h => Bool.noConfusion (h : true = false)
theorem grant (core : Nat) (line : Nat) : Statement (.grant core line) := fun h => Bool.noConfusion (h : true = false)
theorem wbAck (core : Nat) (line : Nat) : Statement (.wbAck core line) := fun h => Bool.noConfusion (h : true = false)
theorem rakerScan (die : Nat) (line : Nat) : Statement (.rakerScan die line) :=
  fun h => Bool.noConfusion (h : true = false)
theorem cleanProbe (core : Nat) (line : Nat) : Statement (.cleanProbe core line) :=
  fun h => Bool.noConfusion (h : true = false)
theorem lseRead (core : Nat) (line : Nat) : Statement (.lseRead core line) :=
  fun h => Bool.noConfusion (h : true = false)
theorem lseStore (core : Nat) (line : Nat) : Statement (.lseStore core line) :=
  fun h => Bool.noConfusion (h : true = false)
theorem lsePerform (line : Nat) : Statement (.lsePerform line) := fun h => Bool.noConfusion (h : true = false)
theorem leaseExpiry (core : Nat) (line : Nat) : Statement (.leaseExpiry core line) :=
  fun h => Bool.noConfusion (h : true = false)
theorem uncAccess (core : Nat) (line : Nat) : Statement (.uncAccess core line) :=
  fun h => Bool.noConfusion (h : true = false)
theorem homeAtomic (core : Nat) (line : Nat) : Statement (.homeAtomic core line) :=
  fun h => Bool.noConfusion (h : true = false)
theorem recordEntry (core : Nat) : Statement (.recordEntry core) := fun h => Bool.noConfusion (h : true = false)
theorem redirectedRead (line : Nat) : Statement (.redirectedRead line) := fun h => Bool.noConfusion (h : true = false)
theorem hotResolution (die : Nat) : Statement (.hotResolution die) := fun h => Bool.noConfusion (h : true = false)
theorem antecedentWrite (line : Nat) : Statement (.antecedentWrite line) :=
  fun h => Bool.noConfusion (h : true = false)
theorem resolutionComplete (id : Nat) : Statement (.resolutionComplete id) :=
  fun h => Bool.noConfusion (h : true = false)
theorem destinationWrite (line : Nat) : Statement (.destinationWrite line) :=
  fun h => Bool.noConfusion (h : true = false)
theorem granuleOp (core : Nat) (i : Nat) : Statement (.granuleOp core i) :=
  fun h => Bool.noConfusion (h : true = false)
theorem engineWriteLands (core : Nat) (i : Nat) : Statement (.engineWriteLands core i) :=
  fun h => Bool.noConfusion (h : true = false)
theorem localRegionFree (wg : Nat) (core : Nat) : Statement (.localRegionFree wg core) :=
  fun h => Bool.noConfusion (h : true = false)
theorem clusterInstall (wg : Nat) (core : Nat) : Statement (.clusterInstall wg core) :=
  fun h => Bool.noConfusion (h : true = false)
theorem clusterRevoke (wg : Nat) (core : Nat) (member : Nat) : Statement (.clusterRevoke wg core member) :=
  fun h => Bool.noConfusion (h : true = false)
theorem cleaveAck (wg : Nat) (core : Nat) : Statement (.cleaveAck wg core) :=
  fun h => Bool.noConfusion (h : true = false)
theorem tokenPerform (line : Nat) : Statement (.tokenPerform line) := fun h => Bool.noConfusion (h : true = false)
theorem poolUpdate (line : Nat) : Statement (.poolUpdate line) := fun h => Bool.noConfusion (h : true = false)
theorem slotPush (line : Nat) : Statement (.slotPush line) := fun h => Bool.noConfusion (h : true = false)
theorem parityFold (ctx : Nat) (rec : Nat) (slot : Nat) (bytes : List Byte) : Statement (.parityFold ctx rec slot bytes) :=
  fun h => Bool.noConfusion (h : true = false)
theorem rebuildRead (peer : Nat) (ctx : Nat) (rec : Nat) (slot : Nat) : Statement (.rebuildRead peer ctx rec slot) :=
  fun h => Bool.noConfusion (h : true = false)
theorem rebuildComplete (ctx : Nat) (entry : Nat) (answers : List (Option (List Byte))) : Statement (.rebuildComplete ctx entry answers) :=
  fun h => Bool.noConfusion (h : true = false)
theorem launchArrival : Statement .launchArrival := fun h => Bool.noConfusion (h : true = false)
theorem placement : Statement .placement := fun h => Bool.noConfusion (h : true = false)
theorem reservingHead (prio : Nat) : Statement (.reservingHead prio) := fun h => Bool.noConfusion (h : true = false)
theorem workgroupEnd (wg : Nat) : Statement (.workgroupEnd wg) := fun h => Bool.noConfusion (h : true = false)
theorem mailboxWrite (m : Master) (page : Nat) (off : Nat) (bytes : List Byte) : Statement (.mailboxWrite m page off bytes) :=
  fun h => Bool.noConfusion (h : true = false)
theorem throttleUpdate (demands : List (Nat × Nat)) : Statement (.throttleUpdate demands) :=
  fun h => Bool.noConfusion (h : true = false)
theorem swap (core : Nat) : Statement (.swap core) := fun h => Bool.noConfusion (h : true = false)
theorem swapBack (core : Nat) : Statement (.swapBack core) := fun h => Bool.noConfusion (h : true = false)
theorem evict (m : Master) (handle : Nat) : Statement (.evict m handle) := fun h => Bool.noConfusion (h : true = false)
theorem contextSwitchSave (wg : Nat) : Statement (.contextSwitchSave wg) :=
  fun h => Bool.noConfusion (h : true = false)
theorem kill (m : Master) (handle : Nat) : Statement (.kill m handle) := fun h => Bool.noConfusion (h : true = false)
theorem killSettle (wg : Nat) : Statement (.killSettle wg) := fun h => Bool.noConfusion (h : true = false)
theorem dbgNop (agent : Nat) : Statement (.dbgNop agent) := fun h => Bool.noConfusion (h : true = false)
theorem hold (agent : Nat) : Statement (.hold agent) := fun h => Bool.noConfusion (h : true = false)
theorem dbgRelease (agent : Nat) : Statement (.dbgRelease agent) := fun h => Bool.noConfusion (h : true = false)
theorem stepPath (agent : Nat) : Statement (.stepPath agent) := fun h => Bool.noConfusion (h : true = false)
theorem halt (agent : Nat) : Statement (.halt agent) := fun h => Bool.noConfusion (h : true = false)
theorem restore (agent : Nat) : Statement (.restore agent) := fun h => Bool.noConfusion (h : true = false)
theorem stallsmp (agent : Nat) : Statement (.stallsmp agent) := fun h => Bool.noConfusion (h : true = false)
theorem trace (agent : Nat) : Statement (.trace agent) := fun h => Bool.noConfusion (h : true = false)
theorem bkpten (agent : Nat) : Statement (.bkpten agent) := fun h => Bool.noConfusion (h : true = false)
theorem badcmd (agent : Nat) : Statement (.badcmd agent) := fun h => Bool.noConfusion (h : true = false)
theorem stallSample (wg : Nat) (g : Nat) (path : Nat) : Statement (.stallSample wg g path) :=
  fun h => Bool.noConfusion (h : true = false)
theorem debugGrant (m : Master) (target : Nat) (agent : Nat) : Statement (.debugGrant m target agent) :=
  fun h => Bool.noConfusion (h : true = false)
theorem debugRevoke (m : Master) (target : Nat) (agent : Nat) : Statement (.debugRevoke m target agent) :=
  fun h => Bool.noConfusion (h : true = false)
theorem claim (m : Master) : Statement (.claim m) := fun h => Bool.noConfusion (h : true = false)
theorem offer (m : Master) (target : BitVec 16) : Statement (.offer m target) :=
  fun h => Bool.noConfusion (h : true = false)
theorem accept (m : Master) : Statement (.accept m) := fun h => Bool.noConfusion (h : true = false)
theorem release (m : Master) : Statement (.release m) := fun h => Bool.noConfusion (h : true = false)
theorem handoverTimeout : Statement .handoverTimeout := fun h => Bool.noConfusion (h : true = false)
theorem attnonceWrite (m : Master) (off : Nat) (bytes : List Byte) : Statement (.attnonceWrite m off bytes) :=
  fun h => Bool.noConfusion (h : true = false)
theorem quoteComplete : Statement .quoteComplete := fun h => Bool.noConfusion (h : true = false)
theorem dstatRetire (m : Master) : Statement (.dstatRetire m) := fun h => Bool.noConfusion (h : true = false)
theorem framepoolPop (m : Master) (die : Nat) : Statement (.framepoolPop m die) :=
  fun h => Bool.noConfusion (h : true = false)
theorem framepoolPush (m : Master) (die : Nat) (w : BitVec 64) : Statement (.framepoolPush m die w) :=
  fun h => Bool.noConfusion (h : true = false)
theorem registerWrite (m : Master) (off : Nat) (bytes : List Byte) : Statement (.registerWrite m off bytes) :=
  fun h => Bool.noConfusion (h : true = false)
theorem bar4Access (off : Nat) (isWrite : Bool) (n : Nat) (bytes : List Byte) : Statement (.bar4Access off isWrite n bytes) :=
  fun h => Bool.noConfusion (h : true = false)
theorem reset : Statement .reset := fun h => Bool.noConfusion (h : true = false)
theorem zilberFrame (port : Nat) (ethertype : Nat) (peer : Nat) (seq : Nat) (flits : List Flit) : Statement (.zilberFrame port ethertype peer seq flits) :=
  fun h => Bool.noConfusion (h : true = false)
theorem flitResend (peer : Nat) (seq : Nat) (port : Nat) : Statement (.flitResend peer seq port) :=
  fun h => Bool.noConfusion (h : true = false)
theorem peerUnreachable (peer : Nat) : Statement (.peerUnreachable peer) :=
  fun h => Bool.noConfusion (h : true = false)
theorem fenceCore (core : Nat) : Statement (.fenceCore core) := fun h => Bool.noConfusion (h : true = false)
theorem fenceQuad (quad : Nat) : Statement (.fenceQuad quad) := fun h => Bool.noConfusion (h : true = false)
theorem fenceStack (die : Nat) (stack : Nat) : Statement (.fenceStack die stack) :=
  fun h => Bool.noConfusion (h : true = false)
theorem fenceDie (die : Nat) : Statement (.fenceDie die) := fun h => Bool.noConfusion (h : true = false)
theorem fencePort (port : Nat) : Statement (.fencePort port) := fun h => Bool.noConfusion (h : true = false)
theorem storeAcknowledgement (wg : Nat) (g : Nat) (seq : Nat) : Statement (.storeAcknowledgement wg g seq) :=
  fun h => Bool.noConfusion (h : true = false)
theorem linkUp (port : Nat) : Statement (.linkUp port) := fun h => Bool.noConfusion (h : true = false)

end Sys2Proof.Laws.Encoding
end

