-- ==== Sys2Proof/Tests/Slice0.lean ====
section
/-!
SUPPORT. Tests: ill-formed terms that WellFormed refuses, words written out from the encoding tables of the manual,
single instructions against its worked examples, and states that meet the hypotheses of the statements.
-/
open Sys2Proof Sys2Proof.Machine
namespace Sys2Proof.Tests
set_option Elab.async false

/-! ### Building states -/

def noHint : Hint :=
  { pair := false, yield := false, split := false, skip := false, reuseA := false, reuseB := false, stall := 0 }

/-- No guard and no hints. -/
def c0 : Ctl := { guard := .always, hint := noHint }

/-- A guard. -/
def on (inv : Bool) (p : BitVec 5) : Ctl := { guard := .pred inv p, hint := noHint }

def v (i : BitVec 9) : Opnd := .v false false i
def r (i : BitVec 10) : Opnd := .s false false i
def p (i : BitVec 5) : Opnd := .p false false i

/-- A workgroup of one group of 32 lanes on core 0, at 0x1_0000, whose path 0 issues; `f` changes the group. -/
def lanes (f : Group → Group) : State := { (State.reset.placeWord 1 0).modGroup 1 0 f with cur := .path 1 0 0 }

/-- The same, where the group's access processor issues. -/
def access (f : Group → Group) : State :=
  { (State.reset.placeWord 1 0).modGroup 1 0 (fun gr => f { gr with ap := { gr.ap with st := .running, pc := 0x2_0000 } })
    with cur := .ap 1 0 }

def start : State := lanes id

/-- V register `k` holds `ws` in its first lanes. -/
def putV (k : Nat) (ws : List Word) (gr : Group) : Group := { gr with v := put gr.v k (Row.ofLanes ws) }
/-- S register `k` holds `w`. -/
def putS (k : Nat) (w : Word) (gr : Group) : Group := { gr with s := put gr.s k w }
/-- Predicate `k` holds `m`. -/
def putP (k : Nat) (m : Mask) (gr : Group) : Group := { gr with preds := put gr.preds k m }

/-- The group after one instruction. -/
def after (s : State) (i : Instr) : Option Group :=
  match exec i s with
  | .next t => t.group? 1 0
  | _ => none

/-! ### Deciding that an instruction is ready -/

/-- The issuer of `i` with its mask and its popped words. -/
def issuerOf (s : State) (i : Instr) : Option Iss :=
  match s.issuer with
  | .go y => match Iss.takeQ false i.srcs (y.masked i).gr.ports with
    | .ok q _ => some { y.masked i with q := q }
    | .lack .. => none
  | _ => none

/-- `Ready`, decided for the issuer of `i`. -/
def readyFor (s : State) (i : Instr) (f : Iss → Bool) : Bool :=
  match issuerOf s i with
  | none => false
  | some x =>
    f x && (x.guardWait i.ctl).isNone && (!i.laneBound || x.x != 0)
    && (x.ap || !i.uniform || x.m &&& x.guardMask i.ctl == 0 || x.m &&& x.guardMask i.ctl == x.m)
    && (x.ap || (match i.roleCode with
        | some r => x.gr.role == 0 || x.gr.role == r
        | none => true))
    && (x.ap || (match i with
        | .nest .. | .apsend .. => false
        | _ => true))
    && (!x.ap || i.apRuns && (i.dsts ++ i.srcs).all fun u => match u.o with
        | .s _ _ n => decide (n.toNat + u.n ≤ 128)
        | _ => true)
    && (x.ap || (i.dsts ++ i.srcs).all fun u => match u.o with
        | .v _ _ n => decide (n.toNat + u.n ≤ 32 * x.gr.vhold)
        | _ => true)
    && (i.srcs.all fun u => (u.regs x.ap).all fun r => x.gr.isFull r)
    && !x.limited i

theorem ready_of {s : State} {i : Instr} {f : Iss → Bool} (h : readyFor s i f = true) :
    ∃ x, Ready s i x ∧ f x = true := by
  unfold readyFor at h
  split at h
  · cases h
  · rename_i x hx
    simp only [Bool.and_eq_true, Bool.or_eq_true, Bool.not_eq_true', bne_iff_ne, beq_iff_eq,
      Option.isNone_iff_eq_none] at h
    obtain ⟨⟨⟨⟨⟨⟨⟨⟨⟨hf, hg⟩, hl⟩, hu⟩, hr⟩, hp⟩, ha⟩, hv⟩, hs⟩, hq⟩ := h
    unfold issuerOf at hx
    split at hx
    · rename_i y hy
      split at hx
      · rename_i q ps ht
        cases hx
        refine ⟨_, ⟨⟨y, hy, rfl⟩, hg, ?_, ?_, ?_, ?_, ?_, ?_, ?_, ⟨ps, ht⟩, hq⟩, hf⟩
        · intro h1; rcases hl with h | h
          · rw [h1] at h; cases h
          · exact h
        · intro h1 h2; rcases hu with ((h | h) | h) | h
          · rw [h1] at h; cases h
          · rw [h2] at h; cases h
          · exact .inl h
          · exact .inr h
        · intro h1 r h2; rcases hr with h | h
          · rw [h1] at h; cases h
          · rw [h2] at h; simpa using h
        · intro h1; rcases hp with h | h
          · rw [h1] at h; cases h
          · constructor
            · rintro c a rfl; cases h
            · rintro c q b rfl; cases h
        · intro h1; rcases ha with h | h
          · rw [h1] at h; cases h
          · refine ⟨h.1, fun u hu e m n he => ?_⟩
            have := List.all_eq_true.1 h.2 u hu
            rw [he] at this
            simpa using this
        · intro h1 u hu e m n he; rcases hv with h | h
          · rw [h1] at h; cases h
          · have := List.all_eq_true.1 h u hu
            rw [he] at this
            simpa using this
        · intro u hu r hr
          exact List.all_eq_true.1 (List.all_eq_true.1 hs u hu) r hr
      · cases hx
    · cases hx

/-- An instruction that is ready, with what else holds of its issuer. -/
theorem met {s : State} {i : Instr} {P : Iss → Prop} [DecidablePred P]
    (h : readyFor s i (fun x => decide (P x)) = true) : ∃ x, Ready s i x ∧ P x := by
  obtain ⟨x, hx, hp⟩ := ready_of h
  exact ⟨x, hx, of_decide_eq_true hp⟩

/-! ### Words written out from the encoding tables -/

theorem test_words_control :
    decode 0x00000000_00000000_00000000 = .nop c0
    ∧ decode 0x80000000_00100000_00000001 = .bra c0 (.rel32 0x100)
    ∧ decode 0x00000000_0EFFF000_00000001 = .bra c0 (.rel13 0xFFF)
    ∧ decode 0x80000006_30060000_0E005002 = .brx { c0 with guard := .pred true 3 } 5 (.rel32 0x60)
    ∧ decode 0x00000000_00000400_60000003 = .jmp c0 (r 6)
    ∧ decode 0x00000000_00000000_0E005004 = .reconv c0 5
    ∧ decode 0xFFFF8000_0FF00000_04002005 = .call c0 (r 2) (.rel32 0xFFFFFF00)
    ∧ decode 0x00000000_00000400_44002006 = .callr c0 (r 2) (r 4)
    ∧ decode 0x00000000_00000400_20000007 = .ret c0 (r 2)
    ∧ decode 0x00000005_F0000000_00000008 = .exit { c0 with guard := .pred false 31 } := by
  decide +kernel

theorem test_words_integer_1 :
    decode 0x01C00000_00000C00_82003100 = .mov c0 .b32 (v 3) (.lane false false)
    ∧ decode 0x891A2000_05678000_04004100 = .mov c0 .s64 (r 4) (.imm32 0x12345678)
    ∧ decode 0x01600000_04006200_42002101 = .iadd c0 .u64 (v 2) (v 4) (r 6)
    ∧ decode 0x01600000_04006200_42002102 = .isub c0 .u64 (v 2) (v 4) (r 6)
    ∧ decode 0x01600000_04006200_42002103 = .imul c0 .u64 (v 2) (v 4) (r 6)
    ∧ decode 0x01600000_04006200_42002104 = .imulh c0 .u64 (v 2) (v 4) (r 6)
    ∧ decode 0x80002000_00007400_34009101 = .iadd c0 .u32 (r 9) (r 3) (.imm32 7)
    ∧ decode 0x20044000_02006200_42002105 = .imad c0 .s64 (v 2) (v 4) (v 6) (r 8)
    ∧ decode 0x00C00000_0FFFF200_22001106 = .idiv c0 .s32 (v 1) (v 2) (.imm 0x1FFF)
    ∧ decode 0x00C00000_0FFFF200_22001107 = .irem c0 .s32 (v 1) (v 2) (.imm 0x1FFF)
    ∧ decode 0x00C00000_0FFFF200_22001108 = .imin c0 .s32 (v 1) (v 2) (.imm 0x1FFF)
    ∧ decode 0x00C00000_0FFFF200_22001109 = .imax c0 .s32 (v 1) (v 2) (.imm 0x1FFF)
    ∧ decode 0x00E00000_00000200_4200210A = .iabs c0 .s64 (v 2) (v 4)
    ∧ decode 0x01C00000_0C009400_2400110B = .and c0 .b32 (r 1) (r 2) (.zero false false) := by
  decide +kernel

theorem test_words_integer_2 :
    decode 0x01C00000_0C009400_2400110C = .or c0 .b32 (r 1) (r 2) (.zero false false)
    ∧ decode 0x01C00000_0C009400_2400110D = .xor c0 .b32 (r 1) (r 2) (.zero false false)
    ∧ decode 0x01C00000_00000D00_2200110E = .not c0 .b32 (v 1) (.q true false 2)
    ∧ decode 0x01400000_04003200_2200110F = .shl c0 .u32 (v 1) (v 2) (r 3)
    ∧ decode 0x01400000_04003200_22001110 = .shr c0 .u32 (v 1) (v 2) (r 3)
    ∧ decode 0x01400000_04003200_22001111 = .shra c0 .u32 (v 1) (v 2) (r 3)
    ∧ decode 0x00E00000_00000200_22001112 = .popc c0 .s64 (v 1) (v 2)
    ∧ decode 0x00E00000_00000200_22001113 = .clz c0 .s64 (v 1) (v 2)
    ∧ decode 0x01C00000_00000200_22001114 = .brev c0 .b32 (v 1) (v 2)
    ∧ decode 0x70042000_0E004200_22001115 = .bfe c0 .u32 (v 1) (v 2) (.imm 4) (.imm 8)
    ∧ decode 0x2000A000_02006200_42002116 = .bfi c0 .s64 (v 2) (v 4) (v 6) (r 1)
    ∧ decode 0x7001C000_02006400_02004117 = .lea c0 .s64 (v 4) (r 0) (v 6) (.imm 3)
    ∧ decode 0x34020000_02003200_22001118 = .sel c0 .b32 (v 1) (v 2) (v 3) (.p false true 4)
    ∧ decode 0x00C00000_02003200_26001119 = .icmp c0 .eq .s32 (.p false false 1) (v 2) (v 3) := by
  decide +kernel

theorem test_words_integer_3 :
    decode 0x00C02000_02003200_26001119 = .icmp c0 .ne .s32 (.p false false 1) (v 2) (v 3)
    ∧ decode 0x00C04000_02003200_26001119 = .icmp c0 .lt .s32 (.p false false 1) (v 2) (v 3)
    ∧ decode 0x00C06000_02003200_26001119 = .icmp c0 .le .s32 (.p false false 1) (v 2) (v 3)
    ∧ decode 0x00C08000_02003200_26001119 = .icmp c0 .gt .s32 (.p false false 1) (v 2) (v 3)
    ∧ decode 0x00C0A000_02003200_26001119 = .icmp c0 .ge .s32 (.p false false 1) (v 2) (v 3)
    ∧ decode 0x00002000_00000000_0200111A = .rng c0 true (v 1) := by
  decide +kernel

theorem test_words_float_1 :
    decode 0x00200000_02003200_22001203 = .fadd c0 .ru .f16 (v 1) (v 2) (v 3)
    ∧ decode 0x00200000_02003200_2200120B = .fsub c0 .ru .f16 (v 1) (v 2) (v 3)
    ∧ decode 0x00200000_02003200_22001213 = .fmul c0 .ru .f16 (v 1) (v 2) (v 3)
    ∧ decode 0x9FC00000_00000200_22001200 = .fadd c0 .rne .f32 (v 1) (v 2) (.imm32 0x3F800000)
    ∧ decode 0x10024000_02003200_2200121C = .ffma c0 .rd .bf16 (v 1) (v 2) (v 3) (v 4)
    ∧ decode 0x00000000_02003200_22001220 = .fmin c0 .f32 (v 1) (v 2) (v 3)
    ∧ decode 0x00000000_02003200_22001228 = .fmax c0 .f32 (v 1) (v 2) (v 3)
    ∧ decode 0x00400000_00000200_22001230 = .fabs c0 .bf16 (v 1) (v 2)
    ∧ decode 0x00000000_02003200_26001238 = .fcmp c0 .eq .f32 (.p false false 1) (v 2) (v 3)
    ∧ decode 0x00002000_02003200_26001238 = .fcmp c0 .ne .f32 (.p false false 1) (v 2) (v 3)
    ∧ decode 0x00004000_02003200_26001238 = .fcmp c0 .lt .f32 (.p false false 1) (v 2) (v 3)
    ∧ decode 0x00006000_02003200_26001238 = .fcmp c0 .le .f32 (.p false false 1) (v 2) (v 3)
    ∧ decode 0x00008000_02003200_26001238 = .fcmp c0 .gt .f32 (.p false false 1) (v 2) (v 3)
    ∧ decode 0x0000A000_02003200_26001238 = .fcmp c0 .ge .f32 (.p false false 1) (v 2) (v 3) := by
  decide +kernel

theorem test_words_float_2 :
    decode 0x0000C000_02003200_26001238 = .fcmp c0 .un .f32 (.p false false 1) (v 2) (v 3)
    ∧ decode 0x0000E000_02003200_26001238 = .fcmp c0 .ord .f32 (.p false false 1) (v 2) (v 3)
    ∧ decode 0x00000000_02003200_22001241 = .fdiv c0 .rna .f32 (v 1) (v 2) (v 3)
    ∧ decode 0x00200000_00000200_2200124A = .fsqrt c0 .rz .f16 (v 1) (v 2)
    ∧ decode 0x00000000_00000200_22001250 = .frcp c0 .f32 (v 1) (v 2)
    ∧ decode 0x00000000_00000200_22001258 = .frsq c0 .f32 (v 1) (v 2)
    ∧ decode 0x00000000_00000200_22001260 = .fexp2 c0 .f32 (v 1) (v 2)
    ∧ decode 0x00000000_00000200_22001268 = .flog2 c0 .f32 (v 1) (v 2)
    ∧ decode 0x00000000_00000200_22001270 = .fsin c0 .f32 (v 1) (v 2)
    ∧ decode 0x00000000_00000200_22001278 = .fcos c0 .f32 (v 1) (v 2)
    ∧ decode 0x00000000_00000200_22001280 = .ftanh c0 .f32 (v 1) (v 2)
    ∧ decode 0x00000000_00000200_22001288 = .fclass c0 .f32 (v 1) (v 2) := by
  decide +kernel

theorem test_words_convert :
    decode 0x00C00000_00000200_22001302 = .cvt c0 .rz .s32 .f32 (v 1) (v 2)
    ∧ decode 0x00616000_00000200_22001300 = .cvt c0 .rne .e4m3 .u64 (v 1) (v 2)
    ∧ decode 0x00000000_00000200_2200130C = .frnd c0 .rd .f32 (v 1) (v 2)
    ∧ decode 0x00400000_02003200_22001310 = .pkcvt c0 .rne .bf16 (v 1) (v 2) (v 3)
    ∧ decode 0x00806000_00000200_22001318 = .unpk c0 .e5m2 3 (v 1) (v 2) := by
  decide +kernel

theorem test_words_lanes_1 :
    decode 0x00000000_06003680_26001400 = .pand c0 (.p false false 1) (.p false true 2) (.p false false 3)
    ∧ decode 0x00000000_06003680_26001401 = .por c0 (.p false false 1) (.p false true 2) (.p false false 3)
    ∧ decode 0x00000000_06003680_26001402 = .pxor c0 (.p false false 1) (.p false true 2) (.p false false 3)
    ∧ decode 0x00000000_00000400_26001403 = .pmov c0 (.p false false 1) (r 2)
    ∧ decode 0x00E00000_04001200_42002404 = .shfl c0 .w32 .s64 (v 2) (v 4) (r 1)
    ∧ decode 0x00E02000_04001200_42002405 = .shflup c0 .w16 .s64 (v 2) (v 4) (r 1)
    ∧ decode 0x00E04000_04001200_42002406 = .shfldn c0 .w8 .s64 (v 2) (v 4) (r 1)
    ∧ decode 0x00E06000_04001200_42002407 = .shflx c0 .w4 .s64 (v 2) (v 4) (r 1)
    ∧ decode 0x00000000_00000600_34001408 = .voteall c0 (r 1) (.p false false 3)
    ∧ decode 0x00000000_00000600_34001409 = .voteany c0 (r 1) (.p false false 3)
    ∧ decode 0x00000000_00000600_3400140A = .ballot c0 (r 1) (.p false false 3)
    ∧ decode 0x01400000_00000200_3400140B = .redadd c0 .u32 (r 1) (v 3)
    ∧ decode 0x01400000_00000200_3400140C = .redmin c0 .u32 (r 1) (v 3)
    ∧ decode 0x01400000_00000200_3400140D = .redmax c0 .u32 (r 1) (v 3) := by
  decide +kernel

theorem test_words_lanes_2 :
    decode 0x01C00000_00000200_3400140E = .redand c0 .b32 (r 1) (v 3)
    ∧ decode 0x01C00000_00000200_3400140F = .redor c0 .b32 (r 1) (v 3)
    ∧ decode 0x00C02000_00000200_32001410 = .scanadd c0 true .s32 (v 1) (v 3)
    ∧ decode 0x00E00000_00000200_22001411 = .matchLanes c0 .s64 (v 1) (v 2) := by
  decide +kernel

theorem test_words_memory_1 :
    decode 0x01D80000_0E010400_22004500 =
      .ld c0 { win := .g, expect := .lse, ty := .b32, x4 := true, d := v 4, a := r 2, off := .imm 16 }
    ∧ decode 0x8000E000_00000200_22004500 =
      .ld c0 { win := .g, expect := .none, ty := .s16, x4 := false, d := v 4, a := v 2, off := .imm32 0x10000 }
    ∧ decode 0x01224000_02005400_32004500 =
      .ldTake c0 { win := .c, expect := .none, ty := .u8, x4 := false, d := v 4, a := r 3, off := v 5 }
    ∧ decode 0x01C16000_06002400_32004500 =
      .ldPeek c0 { win := .l, expect := .none, ty := .b32, x4 := false, d := v 4, a := r 3, off := .p false false 2 }
    ∧ decode 0x18E70000_00000400_34004501 =
      .st c0 { win := .p, expect := .dir, scope := .sc .quad, ty := .s64, x4 := false, d := r 4, a := r 3, off := .none }
    ∧ decode 0x41C12000_00000400_3E007501 =
      .stWait c0 { win := .l, expect := .none, scope := .wg, ty := .b32, x4 := false, d := .imm 7, a := r 3, off := .none }
    ∧ decode 0x01C14000_00000400_34007501 =
      .stTake c0 { win := .l, expect := .none, scope := .sc .grp, ty := .b32, x4 := false, d := r 7, a := r 3, off := .none }
    ∧ decode 0x09C16000_06001400_34007501 =
      .stPeek c0 { win := .l, expect := .none, scope := .sc .clu, ty := .b32, x4 := false, d := r 7, a := r 3, off := .p false false 1 }
    ∧ decode 0x00012000_00000400_30000502 = .pref c0 true .l (r 3) .none
    ∧ decode 0x2B600000_02006200_22004600 = .atom c0 .add .g (.sc .pkg) .acq .u64 (v 4) (v 2) (v 6)
    ∧ decode 0x2B602000_02006200_22004600 = .atom c0 .min .g (.sc .pkg) .acq .u64 (v 4) (v 2) (v 6)
    ∧ decode 0x2B604000_02006200_22004600 = .atom c0 .max .g (.sc .pkg) .acq .u64 (v 4) (v 2) (v 6)
    ∧ decode 0x17C26000_04006400_20000600 = .atom c0 .and .l (.sc .core) .ar .b32 .none (r 2) (r 6)
    ∧ decode 0x17C28000_04006400_20000600 = .atom c0 .or .l (.sc .core) .ar .b32 .none (r 2) (r 6) := by
  decide +kernel

theorem test_words_memory_2 :
    decode 0x17C2A000_04006400_20000600 = .atom c0 .xor .l (.sc .core) .ar .b32 .none (r 2) (r 6)
    ∧ decode 0x17C2C000_04006400_20000600 = .atom c0 .exch .l (.sc .core) .ar .b32 .none (r 2) (r 6)
    ∧ decode 0x30E0E000_02008200_22004600 = .atom c0 .cas .g (.sc .pod) .relaxed .s64 (v 4) (v 2) (v 8)
    ∧ decode 0x24010000_02008200_22004600 = .atom c0 .fadd .g (.sc .die) .rel .f32 (v 4) (v 2) (v 8)
    ∧ decode 0x01C12000_0E010400_32009500 =
      .ldWait c0 { win := .l, expect := .none, ty := .b32, x4 := false, d := v 9, a := r 3, off := .imm 16 } := by
  decide +kernel

theorem test_words_sync :
    decode 0x2800A000_00000000_00000601 = .fence c0 (.sc .pkg) 5
    ∧ decode 0x20000000_0E00F000_00000602 = .bar c0 (.sc .die) (.imm 15)
    ∧ decode 0x00000000_0E000E00_00000603 = .waitc c0 .copy (.imm 0)
    ∧ decode 0x00000000_0E001E00_10000603 = .waitc c0 .xform (.imm 1)
    ∧ decode 0x00000000_0E002E00_20000603 = .waitc c0 .matrix (.imm 2)
    ∧ decode 0x00000000_0E003E00_30000603 = .waitc c0 .token (.imm 3)
    ∧ decode 0x00000000_04015401_42000604 = .stageIn c0 (v 0) (r 20) (r 21)
    ∧ decode 0x00000000_04015401_42008605 = .stageOut c0 (v 8) (r 20) (r 21)
    ∧ decode 0x00000000_0E007000_04004606 = .cjoin c0 (r 4) (.imm 7)
    ∧ decode 0x00000000_00000000_04004607 = .cleave c0 (r 4) := by
  decide +kernel

theorem test_words_copies :
    decode 0x40000000_0EFFF400_44002700 = .copy c0 .wg (r 2) (r 4) (.imm 4095)
    ∧ decode 0x30002000_04010400_44002701 = .copyxT2d c0 (.sc .pod) (r 2) (r 4) (r 16)
    ∧ decode 0x30004000_04010400_44002701 = .copyxPack c0 (.sc .pod) (r 2) (r 4) (r 16)
    ∧ decode 0x30006000_04010400_44002701 = .copyxUnpack c0 (.sc .pod) (r 2) (r 4) (r 16)
    ∧ decode 0x30008000_04010400_44002701 = .copyxHadq c0 (.sc .pod) (r 2) (r 4) (r 16)
    ∧ decode 0x00002000_04003400_20000702 = .resolve c0 true (r 2) (r 3)
    ∧ decode 0x00000000_00000400_24004703 = .pnq c0 false (r 4) (r 2)
    ∧ decode 0x10002000_0E009400_20000704 = .pndrop c0 true (.sc .core) (r 2) (.imm 9) := by
  decide +kernel

theorem test_words_tiles_1 :
    decode 0x00208000_0E040400_28003800 = .mloadRow c0 true .f16 (.m false false 3) (r 2) (.imm 64)
    ∧ decode 0x00002000_0E020400_28003800 = .mloadFact c0 (.m false false 3) (r 2) (.imm 32)
    ∧ decode 0x00004000_04005400_28003800 = .mloadBlk c0 (.m false false 3) (r 2) (r 5)
    ∧ decode 0x00800000_04005400_28003801 = .mstoreRow c0 false .e5m2 (.m false false 3) (r 2) (r 5)
    ∧ decode 0x00002000_00000400_28003801 = .mstoreFact c0 (.m false false 3) (r 2)
    ∧ decode 0x00002000_08001800_FA007802 =
      .mma c0 true false (.a false false 7) (.m false false 15) (.m false false 1)
    ∧ decode 0x00000000_0A003800_28001803 = .madd c0 (.m false false 1) (.m false false 2) (.a false false 3)
    ∧ decode 0x00000000_00000800_28001804 = .recomp c0 (.m false false 1) (.m false false 2)
    ∧ decode 0x00000000_00000800_28001805 = .mdense c0 (.m false false 1) (.m false false 2)
    ∧ decode 0x00000000_00000800_24004806 = .mrankGet c0 (r 4) (.m false false 2)
    ∧ decode 0x00002000_0E008000_08002806 = .mrankCap c0 (.m false false 2) (.imm 8)
    ∧ decode 0x00000000_00000000_08002807 = .mzero c0 (.m false false 2)
    ∧ decode 0x00000000_00000800_28001808 = .mmov c0 (.m false false 1) (.m false false 2)
    ∧ decode 0x00408000_04004400_2A001809 = .aload c0 true .bf16 (.a false false 1) (r 2) (r 4) := by
  decide +kernel

theorem test_words_tiles_2 :
    decode 0x00000000_04004400_2A00180A = .astore c0 false .f32 (.a false false 1) (r 2) (r 4)
    ∧ decode 0x00000000_00000000_0A00180B = .azero c0 (.a false false 1)
    ∧ decode 0x00000000_00000A00_2800180C = .amov c0 (.m false false 1) (.a false false 2) := by
  decide +kernel

theorem test_words_transforms :
    decode 0x00000000_04004200_84001900 = .xformQ c0 (r 1) (v 8) (r 4)
    ∧ decode 0x00002000_04004200_12008900 = .xformDq c0 (v 8) (v 1) (r 4)
    ∧ decode 0x00004000_04004201_02008900 = .xformHad c0 (v 8) (v 16) (r 4)
    ∧ decode 0x00000000_0400A400_82020901 = .decodeBlk c0 .none (v 32) (r 8) (r 10)
    ∧ decode 0x00002000_0400A400_82020901 = .decodeBlk c0 .wait (v 32) (r 8) (r 10)
    ∧ decode 0x00004000_0400A400_82020901 = .decodeBlk c0 .take (v 32) (r 8) (r 10) := by
  decide +kernel

theorem test_words_tokens :
    decode 0x00000000_04008400_44001A00 = .admitSeq c0 (r 1) (r 4) (r 8)
    ∧ decode 0x00002000_00000400_44001A00 = .admitRel c0 (r 1) (r 4)
    ∧ decode 0x00000000_04002400_44001A01 = .kvapp c0 (r 1) (r 4) (r 2)
    ∧ decode 0x000FE000_0E009400_42008A02 = .kvld c0 true true 31 (v 8) (r 4) (.imm 9)
    ∧ decode 0x00000000_00000400_40000A03 = .kvseal c0 (r 4)
    ∧ decode 0x00000000_0E007400_40000A04 = .span c0 (r 4) (.imm 7)
    ∧ decode 0x80000000_00006400_40000A05 = .spanret c0 (r 4) (.imm32 6)
    ∧ decode 0x00000000_04001400_40000A06 = .window c0 (r 4) (r 1)
    ∧ decode 0x000F8000_04004203_02008A07 = .rope c0 31 (v 8) (v 48) (r 4) := by
  decide +kernel

theorem test_words_ap :
    decode 0x00000000_00000407_80000B00 = .nest c0 (r 120)
    ∧ decode 0x00000000_0FFFF000_0C003B01 = .apsend c0 3 (.imm 0x1FFF)
    ∧ decode 0x80000000_00040000_0C002B02 = .apermit c0 2 (.imm32 64) := by
  decide +kernel

theorem test_words_system :
    decode 0x00000000_00000400_44002C00 = .launch c0 (r 2) (r 4)
    ∧ decode 0x00000000_0E009000_00000C01 = .trap c0 (.imm 9)
    ∧ decode 0x00000000_00000000_00000C02 = .eret c0
    ∧ decode 0x00002000_00000000_00000C02 = .eretRetry c0
    ∧ decode 0x80000000_0FFFF000_00000C03 = .svc c0 (.imm32 0xFFFF)
    ∧ decode 0x00000000_0E009000_02002C04 = .getsr c0 (v 2) (.imm 0x009)
    ∧ decode 0x00000000_02001000_0E016C05 = .setsr c0 0x016 (v 1)
    ∧ decode 0x00000000_04003000_00000C06 = .bkpt c0 (r 3)
    ∧ decode 0x00000000_00000FAB_C0000C07 = .sample c0 (.imm 0x1ABC)
    ∧ decode 0x00002000_0E1F0000_00000C08 = .rgive c0 .m (.imm 496)
    ∧ decode 0x80000000_00004000_00000C09 = .rclaim c0 .v (.imm32 4)
    ∧ decode 0x00000000_00000000_00000F12 = .hintRegionWord 0xF12
    ∧ decode 0x00000000_00000000_00000D00 = .notAnInstruction 0xD00 := by
  decide +kernel


/-! ### Ill-formed terms, one for each check of WellFormed -/

theorem test_wf_register_pair : (Instr.iadd c0 .s64 (v 3) (v 4) (v 6)).wf = false := by decide
theorem test_wf_pair_at_511 : (Instr.iadd c0 .s64 (v 511) (v 4) (v 6)).wf = false := by decide
theorem test_wf_integer_type : (Instr.iadd c0 .f32 (v 1) (v 2) (v 3)).wf = false := by decide
theorem test_wf_bit_type : (Instr.and c0 .u32 (v 1) (v 2) (v 3)).wf = false := by decide
theorem test_wf_float_type : (Instr.fadd c0 .rne .e4m3 (v 1) (v 2) (v 3)).wf = false := by decide
theorem test_wf_iabs_type : (Instr.iabs c0 .u32 (v 1) (v 2)).wf = false := by decide
theorem test_wf_destination_class : (Instr.iadd c0 .s32 (p 1) (v 2) (v 3)).wf = false := by decide
theorem test_wf_vector_source_of_scalar : (Instr.iadd c0 .s32 (r 1) (v 2) (r 3)).wf = false := by decide
theorem test_wf_lane_source_of_scalar : (Instr.mov c0 .b32 (r 1) (.lane false false)).wf = false := by decide
theorem test_wf_immediate_form : (Instr.fdiv c0 .rne .f32 (v 1) (v 2) (.imm32 1)).wf = false := by decide
theorem test_wf_icmp_condition : (Instr.icmp c0 .un .s32 (p 1) (v 2) (v 3)).wf = false := by decide
theorem test_wf_icmp_immediate : (Instr.icmp c0 .lt .s32 (p 1) (v 2) (.imm32 5)).wf = false := by decide
theorem test_wf_select_predicate : (Instr.sel c0 .b32 (v 1) (v 2) (v 3) (r 4)).wf = false := by decide
theorem test_wf_lea_type : (Instr.lea c0 .u64 (v 2) (v 4) (v 6) (.imm 1)).wf = false := by decide
theorem test_wf_jump_pair : (Instr.jmp c0 (r 7)).wf = false := by decide
theorem test_wf_convert_type : (Instr.cvt c0 .rne .b32 .f32 (v 1) (v 2)).wf = false := by decide
theorem test_wf_packed_type : (Instr.pkcvt c0 .rne .f32 (v 1) (v 2) (v 3)).wf = false := by decide
theorem test_wf_unpack_element : (Instr.unpk c0 .f16 2 (v 1) (v 2)).wf = false := by decide
theorem test_wf_predicates : (Instr.pand c0 (p 1) (v 2) (p 3)).wf = false := by decide
theorem test_wf_pmov : (Instr.pmov c0 (r 1) (v 2)).wf = false := by decide
theorem test_wf_shuffle_scalar : (Instr.shfl c0 .w32 .b32 (r 1) (v 2) (r 3)).wf = false := by decide
theorem test_wf_vote : (Instr.voteall c0 (v 1) (p 2)).wf = false := by decide
theorem test_wf_reduction_source : (Instr.redadd c0 .s32 (r 1) (r 2)).wf = false := by decide
theorem test_wf_scan_scalar : (Instr.scanadd c0 false .s32 (r 1) (v 2)).wf = false := by decide
theorem test_wf_load_x4_type :
    (Instr.ld c0 { win := .l, expect := .none, ty := .s32, x4 := true, d := v 4, a := r 2, off := .none }).wf = false := by
  decide
theorem test_wf_load_x4_register :
    (Instr.ld c0 { win := .l, expect := .none, ty := .b32, x4 := true, d := v 2, a := r 2, off := .none }).wf = false := by
  decide
theorem test_wf_load_scalar_by_lanes :
    (Instr.ld c0 { win := .g, expect := .none, ty := .b32, x4 := false, d := r 4, a := v 2, off := .none }).wf = false := by
  decide
theorem test_wf_load_address_pair :
    (Instr.ld c0 { win := .g, expect := .none, ty := .b32, x4 := false, d := v 4, a := r 3, off := .none }).wf = false := by
  decide
theorem test_wf_load_peek_status :
    (Instr.ldPeek c0 { win := .l, expect := .none, ty := .b32, x4 := false, d := v 4, a := r 3, off := .none }).wf = false := by
  decide
theorem test_wf_load_immediate_window :
    (Instr.ld c0 { win := .l, expect := .none, ty := .b32, x4 := false, d := v 4, a := r 3, off := .imm32 4 }).wf = false := by
  decide
theorem test_wf_load_immediate_qualified :
    (Instr.ldWait c0 { win := .g, expect := .none, ty := .b32, x4 := false, d := v 4, a := r 2, off := .imm32 4 }).wf
      = false := by
  decide
theorem test_wf_store_by_path :
    (Instr.st c0 { win := .g, expect := .none, scope := .sc .sys, ty := .b32, x4 := false, d := v 1, a := r 2,
                   off := .none }).wf = false := by
  decide
theorem test_wf_store_immediate_scope :
    (Instr.st c0 { win := .g, expect := .none, scope := .sc .die, ty := .b32, x4 := false, d := r 1, a := r 2,
                   off := .imm32 4 }).wf = false := by
  decide
theorem test_wf_prefetch_immediate : (Instr.pref c0 true .g (r 2) (.imm32 4)).wf = false := by decide
theorem test_wf_atomic_type : (Instr.atom c0 .add .g (.sc .sys) .relaxed .b32 (v 1) (v 2) (v 4)).wf = false := by decide
theorem test_wf_atomic_compare : (Instr.atom c0 .cas .g (.sc .sys) .relaxed .b32 (v 1) (v 2) (v 5)).wf = false := by decide
theorem test_wf_barrier_number : (Instr.bar c0 (.sc .die) (.imm 16)).wf = false := by decide
theorem test_wf_barrier_immediate : (Instr.bar c0 (.sc .die) (.imm32 3)).wf = false := by decide
theorem test_wf_wait_count : (Instr.waitc c0 .copy (.imm 256)).wf = false := by decide
theorem test_wf_stage : (Instr.stageIn c0 (r 0) (r 20) (r 21)).wf = false := by decide
theorem test_wf_cluster_pair : (Instr.cjoin c0 (r 5) (.imm 1)).wf = false := by decide
theorem test_wf_copy_parameters : (Instr.copyxT2d c0 (.sc .sys) (r 2) (r 4) (r 12)).wf = false := by decide
theorem test_wf_pnq : (Instr.pnq c0 false (r 2) (r 4)).wf = false := by decide
theorem test_wf_tile_type : (Instr.mloadRow c0 false .s32 (.m false false 1) (r 2) (r 4)).wf = false := by decide
theorem test_wf_tile_rank : (Instr.mloadFact c0 (.m false false 1) (r 2) (.imm 33)).wf = false := by decide
theorem test_wf_tile_class : (Instr.mma c0 false false (v 1) (.m false false 1) (.m false false 2)).wf = false := by decide
theorem test_wf_amov : (Instr.amov c0 (.m false false 1) (.m false false 2)).wf = false := by decide
theorem test_wf_transform_range : (Instr.xformQ c0 (r 1) (v 505) (r 4)).wf = false := by decide
theorem test_wf_decode_pair : (Instr.decodeBlk c0 .none (v 1) (r 2) (r 3)).wf = false := by decide
theorem test_wf_sequence_block : (Instr.kvseal c0 (r 6)).wf = false := by decide
theorem test_wf_kvld_range : (Instr.kvld c0 false false 31 (v 480) (r 4) (r 1)).wf = false := by decide
theorem test_wf_rope_odd : (Instr.rope c0 2 (v 0) (v 8) (r 4)).wf = false := by decide
theorem test_wf_span_tag : (Instr.span c0 (r 4) (.imm 8)).wf = false := by decide
theorem test_wf_nest_register : (Instr.nest c0 (r 128)).wf = false := by decide
theorem test_wf_special_register : (Instr.getsr c0 (r 2) (.imm 0x00C)).wf = false := by decide
theorem test_wf_flags_scalar : (Instr.getsr c0 (r 2) (.imm 0x016)).wf = false := by decide
theorem test_wf_setsr_pair : (Instr.setsr c0 0x017 (r 3)).wf = false := by decide
theorem test_wf_pool_immediate : (Instr.rgive c0 .m (.imm32 4)).wf = false := by decide
theorem test_wf_code : (Instr.trap c0 (.imm32 0x10000)).wf = false := by decide
theorem test_wf_hint_word : (Instr.hintRegionWord 0x012).wf = false := by decide

/-! ### Instructions against the worked examples and tables of the manual -/

/-- Lanes of the division example (Table 12.8). -/
def division : Group → Group :=
  putV 2 [2, 2, 0, 0xFFFFFFFF] ∘ putV 1 [7, 0xFFFFFFF9, 5, 0x80000000]

def divide (trap : Word) : State := lanes fun gr => putP 1 0xF (division { gr with sr := { gr.sr with trapen := trap } })

/-- Words of the first four lanes of a V register, and their flags. -/
def four (k : Nat) (gr : Group) : List Word := (List.range 4).map (gr.vword k)
def flags (gr : Group) : List Word := (List.range 4).map gr.flagsOf

-- Table 12.8
theorem test_idiv_example : (after (divide 0) (.idiv (on false 1) .s32 (v 3) (v 1) (v 2))).map (fun g => (four 3 g, flags g))
    = some ([3, 0xFFFFFFFD, 0xFFFFFFFF, 0x80000000], [0, 0, flDZ, flOV]) := by decide +kernel
theorem test_irem_example : (after (divide 0) (.irem (on false 1) .s32 (v 3) (v 1) (v 2))).map (four 3)
    = some [1, 0xFFFFFFFF, 5, 0] := by decide +kernel
-- R223 on the same example: with a handler at 0x4_0000 the trap on DZ reports lane 2
theorem test_arith_trap_example :
    (after (lanes fun gr => putP 1 0xF (division { gr with sr := { gr.sr with trapen := flDZ, tvec := 0x4_0000 } }))
      (.idiv (on false 1) .s32 (v 3) (v 1) (v 2))).map (fun g => (g.pred 31, (g.path 0).pc, four 3 g))
    = some (0x4, 0x4_0000, [3, 0xFFFFFFFD, 0xFFFFFFFF, 0x80000000]) := by decide +kernel

-- R265: a clamped sum raises OV; without the modifier it wraps
theorem test_iadd_saturates : (after (lanes (putS 1 0x7FFFFFFF)) (.iadd c0 .s32 (.s false true 3) (r 1) (.imm 1))).map
    (fun g => (g.sreg 3, g.flagsOf 31)) = some (0x7FFFFFFF, flOV) := by decide +kernel
theorem test_iadd_wraps : (after (lanes (putS 1 0x7FFFFFFF)) (.iadd c0 .s32 (r 3) (r 1) (.imm 1))).map
    (fun g => (g.sreg 3, g.flagsOf 31)) = some (0x80000000, 0) := by decide +kernel
theorem test_isub_borrows : (after (lanes (putS 2 1)) (.isub c0 .u64 (r 4) (.zero false false) (r 2))).map
    (fun g => (g.sreg 4, g.sreg 5)) = some (0xFFFFFFFF, 0xFFFFFFFF) := by decide +kernel
theorem test_imulh_signed : (after (lanes (putS 1 0xFFFFFFFF)) (.imulh c0 .s32 (r 3) (r 1) (.imm 2))).map (·.sreg 3)
    = some 0xFFFFFFFF := by decide +kernel
theorem test_imulh_unsigned : (after (lanes (putS 1 0xFFFFFFFF)) (.imulh c0 .u32 (r 3) (r 1) (.imm 2))).map (·.sreg 3)
    = some 1 := by decide +kernel
theorem test_imad_accumulates : (after (lanes (putS 1 3)) (.imad c0 .s32 (r 1) (r 1) (r 1) (.imm 0x1FFF))).map (·.sreg 1)
    = some 8 := by decide +kernel
theorem test_shl_beyond_width : (after (lanes (putS 1 1)) (.shl c0 .u32 (r 3) (r 1) (.imm 32))).map (·.sreg 3)
    = some 0 := by decide +kernel
theorem test_shra_beyond_width : (after (lanes (putS 1 0x80000000)) (.shra c0 .s32 (r 3) (r 1) (.imm 40))).map (·.sreg 3)
    = some 0xFFFFFFFF := by decide +kernel
theorem test_bfe_signed : (after (lanes (putS 1 0x80)) (.bfe c0 .s32 (r 3) (r 1) (.imm 4) (.imm 4))).map (·.sreg 3)
    = some 0xFFFFFFF8 := by decide +kernel
theorem test_bfi_inserts : (after (lanes (putS 1 0xF ∘ putS 2 0xFFFFFFFF)) (.bfi c0 .b32 (r 3) (.zero false false) (r 2)
    (.imm 0x404))).map (·.sreg 3) = some 0xFFFFFF0F := by decide +kernel
theorem test_clz_of_zero : (after start (.clz c0 .s64 (r 3) (r 2))).map (·.sreg 3) = some 64 := by decide +kernel
theorem test_popc_pair : (after (lanes (putS 2 0xFF ∘ putS 3 1)) (.popc c0 .s64 (r 4) (r 2))).map (·.sreg 4)
    = some 9 := by decide +kernel
theorem test_brev : (after (lanes (putS 1 0x6)) (.brev c0 .b32 (r 3) (r 1))).map (·.sreg 3) = some 0x60000000 := by
  decide +kernel
theorem test_lea_negative_index : (after (lanes (putS 2 0x100 ∘ putS 4 0xFFFFFFFF)) (.lea c0 .s32 (r 6) (r 2) (r 4)
    (.imm 2))).map (fun g => (g.sreg 6, g.sreg 7)) = some (0xFC, 0) := by decide +kernel
theorem test_icmp_unsigned : (after (lanes (putV 1 [0xFFFFFFFF, 1])) (.icmp c0 .lt .u32 (p 2) (v 1) (.imm 2))).map (·.pred 2)
    = some 0xFFFFFFFE := by decide +kernel
theorem test_sel_by_lane : (after (lanes (putV 1 [5, 6] ∘ putP 1 0x2)) (.sel c0 .b32 (v 3) (v 1) (.imm 9) (p 1))).map
    (fun g => (four 3 g).take 2) = some [9, 6] := by decide +kernel

-- R282, R283, R284
theorem test_fmin_of_zeros : (after (lanes (putS 1 0x80000000)) (.fmin c0 .f32 (r 3) (.zero false false) (r 1))).map (·.sreg 3)
    = some 0x80000000 := by decide +kernel
theorem test_fmax_of_nan : (after (lanes (putS 1 0x7F800001 ∘ putS 2 0x3F800000)) (.fmax c0 .f32 (r 3) (r 1) (r 2))).map
    (fun g => (g.sreg 3, g.flagsOf 0)) = some (0x3F800000, flNV) := by decide +kernel
theorem test_fabs_of_nan : (after (lanes (putS 1 0xFF800001)) (.fabs c0 .f32 (r 3) (r 1))).map
    (fun g => (g.sreg 3, g.flagsOf 0)) = some (0x7F800001, 0) := by decide +kernel
theorem test_fcmp_zeros_equal : (after (lanes (putS 1 0x80000000)) (.fcmp c0 .eq .f32 (p 1) (r 1) (.zero false false))).map
    (·.pred 1) = some 0xFFFFFFFF := by decide +kernel
theorem test_fclass_of_each_class :
    [0xFF800000, 0xBF800000, 0x80000001, 0x80000000, 0, 1, 0x3F800000, 0x7F800000, 0x7F800001, 0x7FC00000].map
      (fun w => (after (lanes (putS 1 w)) (.fclass c0 .f32 (r 3) (r 1))).map (·.sreg 3))
    = (List.range 10).map fun k => some (BitVec.ofNat 32 (2 ^ k)) := by decide +kernel
-- R281, R219: 1 + 2^-24 ties to even, and rounds up under RU
theorem test_fadd_ties : (after (lanes (putS 1 0x3F800000 ∘ putS 2 0x33800000)) (.fadd c0 .rne .f32 (r 3) (r 1) (r 2))).map
    (fun g => (g.sreg 3, g.flagsOf 0)) = some (0x3F800000, flNX) := by decide +kernel
theorem test_fadd_up : (after (lanes (putS 1 0x3F800000 ∘ putS 2 0x33800000)) (.fadd c0 .ru .f32 (r 3) (r 1) (r 2))).map
    (·.sreg 3) = some 0x3F800001 := by decide +kernel
theorem test_fmul_overflow : (after (lanes (putS 1 0x7F7FFFFF)) (.fmul c0 .rz .f32 (r 3) (r 1) (r 1))).map
    (fun g => (g.sreg 3, g.flagsOf 0)) = some (0x7F7FFFFF, flOV ||| flNX) := by decide +kernel
theorem test_fdiv_by_zero : (after (lanes (putS 1 0xBF800000)) (.fdiv c0 .rne .f32 (r 3) (r 1) (.zero false false))).map
    (fun g => (g.sreg 3, g.flagsOf 0)) = some (0xFF800000, flDZ) := by decide +kernel
theorem test_fsqrt_of_two : (after (lanes (putS 1 0x40000000)) (.fsqrt c0 .rne .f32 (r 3) (r 1))).map (·.sreg 3)
    = some 0x3FB504F3 := by decide +kernel
-- Table 10.3 and R287
theorem test_cvt_clamps : (after (lanes (putS 1 0x4F800000)) (.cvt c0 .rne .s32 .f32 (r 3) (r 1))).map
    (fun g => (g.sreg 3, g.flagsOf 0)) = some (0x7FFFFFFF, flOV ||| flNX) := by decide +kernel
theorem test_frnd_keeps_sign : (after (lanes (putS 1 0xBE800000)) (.frnd c0 .rne .f32 (r 3) (r 1))).map
    (fun g => (g.sreg 3, g.flagsOf 0)) = some (0x80000000, 0) := by decide +kernel
theorem test_pkcvt_places : (after (lanes (putS 1 0x3F800000 ∘ putS 2 0xC0000000)) (.pkcvt c0 .rne .f16 (r 3) (r 1) (r 2))).map
    (·.sreg 3) = some 0xC0003C00 := by decide +kernel
theorem test_unpk_element : (after (lanes (putS 1 0xC0003C00)) (.unpk c0 .f16 1 (r 3) (r 1))).map (·.sreg 3)
    = some 0xC0000000 := by decide +kernel

-- Table 12.16
def sums : Group → Group := putV 1 [0x4B800000, 0, 0x3F800000, 0x3F800000]
theorem test_redadd_example : (after (lanes sums) (.redadd c0 .f32 (r 6) (v 1))).map (fun g => (g.sreg 6, g.flagsOf 31))
    = some (0x4B800001, 0) := by decide +kernel
theorem test_scanadd_example : (after (lanes sums) (.scanadd c0 false .f32 (v 2) (v 1))).map
    (fun g => ((List.range 32).all fun l => g.vword 2 l == 0x4B800000 && g.flagsOf l == flNX)) = some true := by
  decide +kernel
-- R292 to R296
theorem test_shflup_edge : (after (lanes (putV 1 [1, 2, 3, 4, 5])) (.shflup c0 .w4 .b32 (v 2) (v 1) (.imm 1))).map
    (fun g => ((List.range 5).map (g.vword 2))) = some [1, 1, 2, 3, 5] := by decide +kernel
theorem test_voteall_of_no_lane : (after (lanes (putP 1 0)) (.voteall (on false 1) (r 3) (p 1))).map (·.sreg 3)
    = some 1 := by decide +kernel
theorem test_ballot_masked : (after (lanes (putP 1 0xFF ∘ putP 2 0xF0F)) (.ballot (on false 1) (r 3) (p 2))).map (·.sreg 3)
    = some 0x0F := by decide +kernel
theorem test_match_equal_lanes : (after (lanes (putV 1 [7, 8, 7])) (.matchLanes c0 .b32 (v 2) (v 1))).map
    (fun g => ((List.range 2).map (g.vword 2))) = some [5, 2] := by decide +kernel

-- R268 to R272, R177: transfers and divergence
theorem test_call_links : (after start (.call c0 (r 2) (.rel32 0xFFFFFF00))).map (fun g => ((g.path 0).pc, g.sreg 2, g.sreg 3))
    = some (0xFF00, 0x1_000C, 0) := by decide +kernel
theorem test_brx_divides : (after (lanes (putP 1 0xFFFF)) (.brx (on false 1) 3 (.rel32 0x60))).map
    (fun g => ((g.path 0).pc, (g.path 0).mask, (g.path 0).stack))
    = some (0x1_000C, 0xFFFF0000, [.div 3 0xFFFFFFFF 0xFFFF 0x1_0060]) := by decide +kernel
theorem test_exit_keeps_lanes : (after (lanes (putP 1 0xFFFF)) (.exit (on false 1))).map
    (fun g => ((g.path 0).pc, (g.path 0).mask)) = some (0x1_000C, 0xFFFF0000) := by decide +kernel
-- R378, R369: entry and return
def handled : Group → Group := fun gr => { gr with sr := { gr.sr with tvec := 0x4_0000 } }
theorem test_trap_enters : (after (lanes handled) (.trap c0 (.imm 9))).map
    (fun g => ((g.path 0).pc, g.sr.epc, g.sr.cause.toNat / 2 ^ 16, g.sup)) = some (0x4_0000, 0x1_000C, 9, true) := by
  decide +kernel
theorem test_eret_returns : (after (lanes fun gr => { gr with sr := { gr.sr with estat := 1, epc := 0x2_0004, emask := 0xFF } })
    (.eret c0)).map (fun g => ((g.path 0).pc, (g.path 0).mask, g.sup)) = some (0x2_0004, 0xFF, false) := by decide +kernel
theorem test_illegal_word : (after (lanes handled) (.notAnInstruction 0xD00)).map (fun g => ((g.path 0).pc, g.sr.epc))
    = some (0x4_0000, 0x1_0000) := by decide +kernel
-- R190, R370, R371, R154
theorem test_rgive_halves : (after start (.rgive c0 .m (.imm 496))).map (fun g => (g.mhold, g.vhold)) = some (16, 16) := by
  decide +kernel
theorem test_setsr_masks : (after start (.setsr c0 0x010 (.imm 0x1FFF))).map (·.sr.lease) = some 0xFFF := by decide +kernel
theorem test_getsr_groupid : (after start (.getsr c0 (r 4) (.imm 0x001))).map (·.sreg 4) = some 0 := by decide +kernel
-- R188, R364, R365
theorem test_apsend_pushes : (after (access fun gr => { gr with ports := modAt (fun q => { q with permits := 1 }) gr.ports 2 })
    (.apsend c0 2 (.imm 0x1FFF))).map (fun g => ((g.port 2).words, (g.port 2).permits)) = some ([0xFFFFFFFF], 0) := by
  decide +kernel
theorem test_apermit_limits : (after start (.apermit c0 2 (.imm 100))).map (fun g => (g.port 2).permits) = some 64 := by
  decide +kernel
-- Tables 10.11 and 14.13: the worked example of Q4X is formed and decodes to 0.4921875, −0.2734375, 7.875 and 0
def block : List Byte := [0x05, 0x16, 0x0E, 0x1F, 0x57] ++ List.replicate 59 0x55
theorem test_q4x_forms : ((xfQ 0 0x41000000 0x3F800000
    ([0x3F000000, 0xBE800000, 0x41000000, 0x3E000000] ++ List.replicate 252 0)).bytes.take 64) = block := by decide +kernel
theorem test_q4x_decodes : (xfDecode 1 0x3F800000 block).bytes.take 16 = bytesOfNat 16
    (0x3EFC0000 + 0xBE8C0000 * 2 ^ 32 + 0x40FC0000 * 2 ^ 64) := by decide +kernel

/-! ### States and operands that meet the hypotheses of the statements -/

theorem test_meets_IntegerResults :
    (Instr.iadd c0 .s32 (v 0) (v 1) (v 2)).wf = true ∧ intDest (.iadd c0 .s32 (v 0) (v 1) (v 2)) = some (v 0, 1)
    ∧ ∃ x, Ready start (.iadd c0 .s32 (v 0) (v 1) (v 2)) x ∧ x.quiet := ⟨rfl, rfl, met (by decide +kernel)⟩
/-- The same on the access processor, at its last registers. -/
theorem test_meets_IntegerResults_access :
    (Instr.isub c0 .s64 (r 126) (r 0) (.imm 1)).wf = true
    ∧ ∃ x, Ready (access id) (.isub c0 .s64 (r 126) (r 0) (.imm 1)) x ∧ x.quiet ∧ x.ap = true :=
  ⟨rfl, met (by decide +kernel)⟩
theorem test_meets_IntegerCompare :
    (Instr.icmp c0 .lt .u64 (p 31) (v 510) (.imm 0)).wf = true
    ∧ ∃ x, Ready start (.icmp c0 .lt .u64 (p 31) (v 510) (.imm 0)) x ∧ x.quiet := ⟨rfl, met (by decide +kernel)⟩
theorem test_meets_FloatResults :
    (Instr.fadd c0 .rd .f16 (v 511) (v 1) (.imm 1)).wf = true
    ∧ floatDest (.fadd c0 .rd .f16 (v 511) (v 1) (.imm 1)) = some (v 511, .f16)
    ∧ ∃ x, Ready start (.fadd c0 .rd .f16 (v 511) (v 1) (.imm 1)) x ∧ x.quiet := ⟨rfl, rfl, met (by decide +kernel)⟩
/-- An exact significand, and an inexact one with the least number of spare bits. -/
theorem test_meets_RoundingIsCorrect :
    fmt32 ∈ formats ∧ ((5 : ℝ) = (5 : Nat) * 2 ^ (0 : Int))
    ∧ 2 ^ (fmt32.mb + 3) ≤ 2 ^ 26 ∧ ((2 ^ 26 : Nat) : ℝ) * 2 ^ (0 : Int) < 2 ^ 26 + 1 / 2
    ∧ ((2 : ℝ) ^ 26 + 1 / 2) < ((2 ^ 26 : Nat) + 1) * 2 ^ (0 : Int) := by
  refine ⟨by decide, by norm_num, by decide, by norm_num, by norm_num⟩
theorem test_meets_ArithmeticRoundsOnce :
    fmt32 ∈ formats ∧ fmt32.unpack 0x3F800000 = .fin false (2 ^ 23) (-23)
    ∧ ((FVal.fin false (2 ^ 23) (-23)).val : ℝ) = 1 := by
  refine ⟨by decide, by decide +kernel, ?_⟩
  simp only [FVal.val]
  norm_num
theorem test_meets_MinMaxAbs :
    (Instr.fmin c0 .bf16 (v 0) (v 1) (r 2)).wf = true
    ∧ minMaxDest (.fmin c0 .bf16 (v 0) (v 1) (r 2)) = some (v 0, .bf16)
    ∧ ∃ x, Ready start (.fmin c0 .bf16 (v 0) (v 1) (r 2)) x ∧ x.quiet := ⟨rfl, rfl, met (by decide +kernel)⟩
theorem test_meets_FloatCompare :
    (Instr.fcmp c0 .ord .f32 (p 0) (v 1) (.lane false false)).wf = true
    ∧ ∃ x, Ready start (.fcmp c0 .ord .f32 (p 0) (v 1) (.lane false false)) x ∧ x.quiet := ⟨rfl, met (by decide +kernel)⟩
theorem test_meets_FloatClass :
    (Instr.fclass c0 .f16 (r 1023) (r 0)).wf = true
    ∧ ∃ x, Ready start (.fclass c0 .f16 (r 1023) (r 0)) x ∧ x.quiet := ⟨rfl, met (by decide +kernel)⟩
/-- A conversion to an integer of lanes that hold finite values, and one to a type that holds infinities. -/
theorem test_meets_Conversions :
    (Instr.cvt c0 .rne .s8 .f32 (v 0) (v 1)).wf = true
    ∧ convertDest (.cvt c0 .rne .s8 .f32 (v 0) (v 1)) = some (v 0, 1)
    ∧ (∃ x, Ready start (.cvt c0 .rne .s8 .f32 (v 0) (v 1)) x ∧ x.quiet ∧ ∀ l < 32,
        (fmt32.unpack (x.typed .f32 1 (v 1) l)).rank = 0 ∧ (fmt32.unpack (x.typed .f32 1 (v 1) l)).isNan = false)
    ∧ ∃ x, Ready start (.pkcvt c0 .ru .f16 (v 0) (v 1) (v 2)) x ∧ x.quiet ∧ fmt16.hasInf = true :=
  ⟨rfl, rfl, met (by decide +kernel), met (by decide +kernel)⟩
theorem test_meets_PredicateMoves :
    (∃ x, Ready start (.pand c0 (p 1) (p 2) (p 3)) x ∧ x.quiet) ∧ (∃ x, Ready start (.pmov c0 (p 1) (v 3)) x ∧ x.quiet)
    ∧ (Instr.pmov c0 (r 1) (p 3)).wf = true ∧ ∃ x, Ready start (.pmov c0 (r 1) (p 3)) x ∧ x.quiet :=
  ⟨met (by decide +kernel), met (by decide +kernel), rfl, met (by decide +kernel)⟩
theorem test_meets_Shuffles :
    (Instr.shflx c0 .w2 .s64 (v 0) (v 510) (.imm 1)).wf = true
    ∧ shuffle (.shflx c0 .w2 .s64 (v 0) (v 510) (.imm 1)) = some (.w2, .s64, v 0, v 510, .imm 1)
    ∧ ∃ x, Ready start (.shflx c0 .w2 .s64 (v 0) (v 510) (.imm 1)) x ∧ x.quiet := ⟨rfl, rfl, met (by decide +kernel)⟩
theorem test_meets_Votes :
    (∃ x, Ready start (.voteany c0 (p 1) (p 2)) x ∧ x.quiet) ∧ (∃ x, Ready start (.voteall (on false 0) (r 1) (p 2)) x
      ∧ x.quiet ∧ x.x = 0) ∧ ∃ x, Ready start (.ballot c0 (v 1) (p 2)) x ∧ x.quiet :=
  ⟨met (by decide +kernel), met (by decide +kernel), met (by decide +kernel)⟩
theorem test_meets_Reductions :
    (Instr.redmin c0 .u64 (r 2) (v 0)).wf = true ∧ reduceDest (.redmin c0 .u64 (r 2) (v 0)) = some (r 2, 2)
    ∧ ∃ x, Ready start (.redmin c0 .u64 (r 2) (v 0)) x ∧ x.quiet := ⟨rfl, rfl, met (by decide +kernel)⟩
theorem test_meets_ScanAndMatch :
    (∃ x, Ready start (.scanadd c0 true .u32 (v 0) (v 1)) x ∧ x.quiet)
    ∧ ∃ x, Ready start (.matchLanes c0 .b32 (v 0) (v 1)) x ∧ x.quiet := ⟨met (by decide +kernel), met (by decide +kernel)⟩

/-- A transfer that is taken, and one whose guard passes in no lane. -/
theorem test_meets_Transfers :
    (∃ x, Ready start (.call c0 (r 2) (.rel32 8)) x ∧ x.ap = false ∧ x.s.tracing x.w.ctx = false ∧ x.x = x.m
      ∧ transferTarget x (.call c0 (r 2) (.rel32 8)) = some 0x1_0008)
    ∧ ∃ x, Ready start (.bra (on false 0) (.rel32 8)) x ∧ x.x ≠ x.m := ⟨met (by decide +kernel), met (by decide +kernel)⟩

/-- Lanes 0 to 15 take the branch; `stack` is the stack of the path and `spilled` what of it is in memory. -/
def branching (stack : List StackEnt) (spilled : Nat) (f : Group → Group) : State :=
  lanes fun gr => f (putP 1 0xFFFF (gr.modPath 0 fun q => { q with stack := stack, spilled := spilled }))
def split : Ctl := { guard := .pred false 1, hint := { noHint with split := true } }
def full (gr : Group) : Group := { gr with paths := gr.paths.map fun q => { q with st := .ready } }

theorem test_meets_DivergentBranch :
    (∃ x, Ready (branching [] 0 id) (.brx c0 3 (.rel32 8)) x ∧ x.ap = false ∧ x.s.tracing x.w.ctx = false ∧ x.x = x.m)
    ∧ (∃ x, Ready (branching [] 0 id) (.brx (on false 0) 3 (.rel32 8)) x ∧ x.x ≠ x.m ∧ x.x = 0)
    ∧ (∃ x, Ready (branching [] 1024 id) (.brx (on false 1) 3 (.rel32 8)) x ∧ x.x ≠ x.m ∧ x.x ≠ 0
      ∧ 1024 ≤ (x.gr.path x.p).stack.length + (x.gr.path x.p).spilled)
    ∧ (∃ x, Ready (branching (List.replicate 31 (.div 9 0 0 0)) 992 id) (.brx (on false 1) 3 (.rel32 8)) x ∧ x.x ≠ x.m
      ∧ x.x ≠ 0 ∧ (x.gr.path x.p).stack.length + (x.gr.path x.p).spilled < 1024 ∧ (x.gr.path x.p).stack.length < 32)
    ∧ (∃ x, Ready (branching [] 0 full) (.brx split 3 (.rel32 8)) x ∧ ∀ j < 4, (x.gr.path j).st ≠ .free)
    ∧ ∃ x, Ready (branching [] 0 id) (.brx split 3 (.rel32 8)) x ∧ (x.gr.path 1).st = .free ∧ (x.gr.path 0).st ≠ .free
      ∧ 1 < x.gr.paths.length :=
  ⟨met (by decide +kernel), met (by decide +kernel), met (by decide +kernel), met (by decide +kernel),
    met (by decide +kernel), met (by decide +kernel)⟩

/-- Path 0 at a RECONV of token 5 with a stack, and path 1 as its partner. -/
def meeting (stack : List StackEnt) (f : Path → Path) : State :=
  lanes fun gr => (gr.modPath 0 fun q => { q with stack := stack }).modPath 1 f
def waiting (pc : Nat) (q : Path) : Path := { q with st := .join, pc := pc, mask := 0xF, token := some 5 }

theorem test_meets_Reconvergence :
    (∃ x, Ready (meeting [] id) (.reconv c0 5) x ∧ x.s.tracing x.w.ctx = false ∧ (x.gr.path x.p).stack = []
      ∧ (x.gr.path x.p).spilled = 0 ∧ (x.gr.path x.p).token ≠ some 5)
    ∧ (∃ x, Ready (meeting [.div 5 0xFF 0xF 0x2_0000] id) (.reconv c0 5) x
      ∧ (x.gr.path x.p).stack = [.div 5 0xFF 0xF 0x2_0000])
    ∧ (∃ x, Ready (meeting [.div 5 0xFF 0 0x2_0000] id) (.reconv c0 5) x
      ∧ (x.gr.path x.p).stack = [.div 5 0xFF 0 0x2_0000] ∧ (x.gr.path x.p).spilled = 0)
    ∧ (∃ x, Ready (meeting [.split 5 1] id) (.reconv c0 5) x ∧ (x.gr.path 1).st = .free)
    ∧ (∃ x, Ready (meeting [.split 5 1] (waiting 0x1_0000)) (.reconv c0 5) x ∧ (x.gr.path 1).st = .join
      ∧ (x.gr.path 1).token = some 5 ∧ (x.gr.path 1).stack = [] ∧ (x.gr.path 1).spilled = 0 ∧ (x.gr.path 1).pc = x.pc)
    ∧ (∃ x, Ready (meeting [.split 5 1] (waiting 0x1_000C)) (.reconv c0 5) x ∧ (x.gr.path 1).st = .join
      ∧ (x.gr.path 1).pc ≠ x.pc)
    ∧ ∃ x, Ready (meeting [.split 5 1] fun q => { q with st := .ready }) (.reconv c0 5) x ∧ (x.gr.path 1).st ≠ .free
      ∧ ∀ p < 4, p ≠ x.p → (x.gr.path p).st ≠ .join :=
  ⟨met (by decide +kernel), met (by decide +kernel), met (by decide +kernel), met (by decide +kernel),
    met (by decide +kernel), met (by decide +kernel), met (by decide +kernel)⟩

theorem test_meets_Exits :
    (∃ x, Ready start (.exit (on false 0)) x ∧ x.x = 0 ∧ x.m ≠ 0)
    ∧ (∃ x, Ready (access id) (.exit c0) x ∧ x.ap = true ∧ x.x ≠ 0)
    ∧ (∃ x, Ready (lanes (putP 1 0x1)) (.exit (on false 1)) x ∧ x.ap = false ∧ x.x ≠ 0 ∧ x.m &&& ~~~x.x ≠ 0
      ∧ ∀ p < 4, (x.gr.path p).spilled = 0)
    ∧ (∃ x, Ready (lanes (·.modPath 3 fun q => { q with st := .ready })) (.exit c0) x ∧ x.m &&& ~~~x.x = 0
      ∧ (x.gr.path x.p).stack = [] ∧ (x.gr.path 3).st ≠ .free ∧ ∀ p < 4, p ≠ x.p → (x.gr.path p).st ≠ .join)
    ∧ ∃ x, Ready start (.exit c0) x ∧ x.m &&& ~~~x.x = 0 ∧ (∀ p < 4, p ≠ x.p → (x.gr.path p).st = .free)
      ∧ x.gr.fenced x.p x.fenceLimit x.w.exitScope x.s.tick = true ∧ (∀ n ∈ x.gr.ctrs, n = 0) ∧ x.gr.joined = false :=
  ⟨met (by decide +kernel), met (by decide +kernel), met (by decide +kernel), met (by decide +kernel),
    met (by decide +kernel)⟩

/-- A group whose COPY counter is 255. -/
def counting : State := lanes fun gr => { gr with ctrs := [255, 0, 0, 0] }

theorem test_meets_FenceAndWait :
    (∃ x, Ready start (.nop c0) x) ∧ (∃ x, Ready start (.hintRegionWord 0xF00) x)
    ∧ (∃ x, Ready start (.fence c0 (.sc .sys) 0xF) x ∧ x.gr.fenced x.p x.fenceLimit (scopeSel x.w (.sc .sys)) x.s.tick = true
      ∧ x.gr.counter .copy = 0 ∧ x.gr.counter .token = 0)
    ∧ (∃ x, Ready counting (.waitc c0 .copy (.imm 255)) x ∧ x.gr.counter .copy ≤ x.word 2 (.imm 255)
      ∧ x.gr.counter .copy ≤ 255)
    ∧ ∃ x, Ready counting (.waitc c0 .copy (.imm 254)) x ∧ x.word 2 (.imm 254) < x.gr.counter .copy := by
  have all : ∀ {s : State} {i : Instr}, readyFor s i (fun _ => true) = true → ∃ x, Ready s i x := fun h =>
    (ready_of h).imp fun _ h => h.1
  exact ⟨all (by decide +kernel), all (by decide +kernel), met (by decide +kernel), met (by decide +kernel),
    met (by decide +kernel)⟩

theorem test_meets_SoftwareTraps :
    (∃ x, Ready start (.trap c0 (.imm 4095)) x ∧ x.ap = false) ∧ (∃ x, Ready start (.svc c0 (.imm32 0xFFFF)) x ∧ x.ap = false)
    ∧ ∃ x, Ready start (.bkpt c0 (r 3)) x ∧ x.s.holding x.w.ctx = false :=
  ⟨met (by decide +kernel), met (by decide +kernel), met (by decide +kernel)⟩

/-- With a handler, and inside it. -/
theorem test_meets_ExceptionEntry : ((lanes handled).group? 1 0).map (fun gr => (decide (0 < gr.paths.length), gr.sup,
    decide (gr.sr.tvec.toNat % 2 ^ 55 / 4 ≠ 0))) = some (true, false, true) := by decide +kernel
theorem test_meets_KillInsteadOfEntry :
    ((start.group? 1 0).map fun gr => (gr.sup, gr.sr.tvec.toNat % 2 ^ 55 / 4)) = some (false, 0)
    ∧ (((lanes fun gr => { gr with sr := { gr.sr with estat := 1 } }).group? 1 0).map fun gr => gr.sup) = some true
    ∧ (start.wg? 1).isSome = true := by decide +kernel

def handling : State := lanes fun gr => { gr with sr := { gr.sr with estat := 1 } }
theorem test_meets_HandlerReturn :
    (∃ x, Ready start (.eret c0) x ∧ x.s.tracing x.w.ctx = false ∧ x.gr.sup = false)
    ∧ (∃ x, Ready handling (.eret c0) x ∧ x.s.tracing x.w.ctx = false ∧ x.gr.sup = true)
    ∧ ∃ x, Ready handling (.eretRetry c0) x ∧ x.gr.sup = true :=
  ⟨met (by decide +kernel), met (by decide +kernel), met (by decide +kernel)⟩

/-- The workgroup belongs to context 1. -/
def tenant : State := start.modWg 1 fun w => { w with raw := w.raw ||| BitVec.ofNat 1024 (2 ^ 348) }

theorem test_meets_ReadSpecial :
    (Instr.getsr c0 (r 2) (.imm 0x040)).wf = true ∧ srNumber (.imm 0x040) = some 0x040
    ∧ (∃ x, Ready start (.getsr c0 (r 2) (.imm 0x040)) x ∧ x.w.ctx = 0)
    ∧ (∃ x, Ready tenant (.getsr c0 (r 2) (.imm 0x040)) x ∧ x.w.ctx ≠ 0)
    ∧ ∃ x, Ready start (.getsr c0 (v 2) (.imm32 0x01D)) x ∧ x.w.ctx = 0 :=
  ⟨rfl, rfl, met (by decide +kernel), met (by decide +kernel), met (by decide +kernel)⟩

/-- The handler of context 0 on a control core. -/
def control : State := lanes fun gr => { gr with core := 1024, sr := { gr.sr with estat := 1 } }
theorem test_meets_WriteSpecial :
    (∃ x, Ready start (.setsr c0 0x020 (.imm 1)) x ∧ x.gr.sup = false ∧ srClass 0x020 = .sup)
    ∧ (∃ x, Ready start (.setsr c0 0x013 (.imm 1)) x ∧ srClass 0x013 = .g)
    ∧ (∃ x, Ready start (.setsr c0 0x016 (v 1)) x ∧ x.m ≠ 0)
    ∧ (∃ x, Ready handling (.setsr c0 0x020 (.imm 1)) x ∧ x.gr.sup = true)
    ∧ ∃ x, Ready control (.setsr c0 0x040 (r 2)) x ∧ x.gr.sup = true ∧ x.w.ctx = 0 ∧ 1024 ≤ x.gr.core :=
  ⟨met (by decide +kernel), met (by decide +kernel), met (by decide +kernel), met (by decide +kernel),
    met (by decide +kernel)⟩

/-- A record whose ceilings are 18 granules and 520 rank units, with a claim of another path where `c` is set. -/
def pools (c : Bool) : State :=
  let s := start.modWg 1 fun w => { w with raw := w.raw ||| BitVec.ofNat 1024 (2 ^ 512 * (18 * 2 ^ 20 + 520)) }
  if c then s.modCore 0 fun k => { k with claims :=
    [{ shadow := false, quarter := 0, pool := .v, wg := 1, g := 0, path := 1, k := 1, floor := false }] } else s

theorem test_meets_RegisterPools :
    (∃ x, Ready (pools false) (.rgive c0 .v (.imm 17)) x ∧ x.gr.holding .v < (x.w.limits x.gr.gid).floor .v + 17)
    ∧ (∃ x, Ready (pools false) (.rgive c0 .m (.imm 512)) x ∧ max ((x.w.limits x.gr.gid).floor .m) x.gr.occupancy + 512
      ≤ x.gr.holding .m)
    ∧ (∃ x, Ready (pools true) (.rclaim c0 .v (.imm 1)) x ∧ ((x.s.core x.gr.core).claims.any fun c =>
      c.wg == x.h && c.g == x.g && !c.floor) = true)
    ∧ (∃ x, Ready (pools false) (.rclaim c0 .v (.imm 3)) x ∧ (x.w.limits x.gr.gid).ceil .v < x.gr.holding .v + 3)
    ∧ (∃ x, Ready (pools false) (.rclaim c0 .v (.imm 0)) x ∧ x.gr.holding .v ≤ (x.w.limits x.gr.gid).ceil .v)
    ∧ ∃ x, Ready (pools false) (.rclaim c0 .v (.imm 2)) x ∧ x.gr.holding .v + 2 ≤ (x.w.limits x.gr.gid).ceil .v :=
  ⟨met (by decide +kernel), met (by decide +kernel), met (by decide +kernel), met (by decide +kernel),
    met (by decide +kernel), met (by decide +kernel)⟩

/-- A page of context 0 that is translated and may be written: 0x10_0000 at the same physical address. -/
def page : Trans :=
  { ctx := 0, va := 0x10_0000, size := 0x1_0000, pa := 0x10_0000, leaf := 0x8000, seen := [], via := [0x8000], aknown := true, dknown := true
    attr := { rd := true, w := true, x := true, sup := false, coh := .dir, stor := .normal } }
/-- The page behind it, which may be neither read nor written. -/
def page2 : Trans := { page with va := 0x11_0000, pa := 0x11_0000, attr := { page.attr with rd := false, w := false } }
def mapped (s : State) : State := s.modQuad 0 fun q => { q with tc := [page, page2] }
/-- What translations that may be used leave, and what virtual accesses give. -/
def used : Used → Option State
  | .ok s => some s
  | .wait _ => none
def got {α : Type} : VRes α → Option α
  | .ok a => some a
  | _ => none

/-- The sample buffer has no room, or one record's. -/
def sampling (lim : DWord) (trace bkpten : Bool) : State :=
  { mapped (lanes fun gr => { gr with sr := { gr.sr with smpbase := 0x10_0000, smplim := lim } }) with
    rights := [{ target := 0, agent := 1, revoking := false, trace := trace, bkpten := bkpten, stalls := [] }] }
/-- A record at the sample base can be stored at once. -/
def stores (x : Iss) (kind value : Nat) : Bool :=
  match x.s.vRecord x.h x.w x.gr x.gr.sr.smpbase.toNat (sampleRecord x.s.tick x.pc kind x.p x.gr.gid x.w.handle x.m value) with
  | .ok s1 => decide (s1.group? x.h x.g = some x.gr) && decide (s1.wg? x.h = some x.w)
  | _ => false

theorem test_meets_SampleRecords :
    (∃ x, Ready (sampling 0x10_001F false false) (.sample c0 (.imm 5)) x ∧ x.gr.sr.smplim.toNat < x.gr.sr.smpbase.toNat + 32)
    ∧ (∃ x, Ready (sampling 0x10_0020 false false) (.sample c0 (.imm 5)) x ∧ stores x 0 5 = true)
    ∧ (∃ x, Ready (sampling 0x10_0020 false true) (.bkpt c0 (.imm 5)) x ∧ x.s.holding x.w.ctx = true
      ∧ stores x 2 (2 ^ 63 + (x.pc + 12) % 2 ^ 64 % 2 ^ 55 / 4) = true)
    ∧ ∃ x, Ready (sampling 0x10_0020 true false) (.bra c0 (.rel32 0x40)) x ∧ x.s.tracing x.w.ctx = true
      ∧ transferTarget x (.bra c0 (.rel32 0x40)) = some 0x1_0040 ∧ stores x 2 (0x1_0040 % 2 ^ 55 / 4) = true :=
  ⟨met (by decide +kernel), met (by decide +kernel), met (by decide +kernel), met (by decide +kernel)⟩

theorem test_meets_IllegalWords :
    badCause 0xD00 = some .opc ∧ badCause 0 = none
    ∧ badCause 0x01C02000_0E010400_32009101 = some .mod ∧ (∃ f, badCause 0x00000000_00000000_00000003 = some (.opd f))
    ∧ (∃ f, rawLaneBound (Raw.ofWord 0x00C00000_00000200_12003101) = true
      ∧ badCause 0x00C00000_00000200_12003101 = some (.opd f))
    ∧ ∃ y, start.issuer = .go y := by
  refine ⟨by decide +kernel, by decide +kernel, by decide +kernel, ⟨1, by decide +kernel⟩, ⟨2, by decide +kernel⟩, ?_⟩
  have h : (match start.issuer with
      | .go _ => true
      | _ => false) = true := by decide +kernel
  split at h
  · exact ⟨_, ‹_›⟩
  · cases h

theorem test_meets_ArithmeticTrap : ∃ x, Ready (divide flDZ) (.idiv c0 .s32 (v 3) (v 1) (v 2)) x
    ∧ x.gr.sr.trapen &&& 0x3F = flDZ ∧ x.x.getLsbD 2 = true ∧ x.ival .s32 2 (v 2) 2 = 0 := met (by decide +kernel)

/-- A barrier phase of identifier 15 with a scope. -/
def barred (sc : Scope) : State := { start with bars :=
  [{ wg := 1, gang := none, id := 15, scope := sc, inst := 0, set := none, arrived := [(1, 0, 1)], groups := [(1, 0)], lastAt := 0 }] }
theorem test_meets_BarrierArrival :
    (∃ x, Ready (barred .quad) (.bar c0 (.sc .core) (.imm 15)) x
      ∧ x.gr.fenced x.p x.fenceLimit (x.w.barScope x.gr (scopeSel x.w (.sc .core))) x.s.tick = true
      ∧ ∃ f ∈ x.s.bars, f.id = x.word 2 (.imm 15) % 16 ∧ f.has x.w x.gr = true
        ∧ f.scope ≠ x.w.barScope x.gr (scopeSel x.w (.sc .core)))
    ∧ (∃ x, Ready (barred .core) (.bar c0 (.sc .core) (.imm 15)) x ∧ x.gr.fenced x.p x.fenceLimit .core x.s.tick = true
      ∧ ∀ f ∈ x.s.bars, f.id = x.word 2 (.imm 15) % 16 → f.has x.w x.gr = true →
        f.scope = x.w.barScope x.gr (scopeSel x.w (.sc .core)))
    ∧ ∃ x, Ready start (.bar c0 (.sc .grp) (.imm 0)) x ∧ x.s.bars = [] :=
  ⟨met (by decide +kernel), met (by decide +kernel), met (by decide +kernel)⟩

/-- The workgroup holds 4 KiB of local memory on its core. -/
def withLocal (s : State) : State := s.modWg 1 (·.modCore 0 fun c => { c with size := 0x1000 })
/-- The pair S(k), S(k + 1) holds an address. -/
def putA (k a : Nat) : Group → Group := putS k (BitVec.ofNat 32 a) ∘ putS (k + 1) (BitVec.ofNat 32 (a / 2 ^ 32))
/-- The checks of an access in its lanes. -/
def checked (i : Instr) (x : Iss) (f : MemReq → Checked → Bool) : Bool :=
  (memoryRequest x i).any fun q =>
    f q.1 (x.checkLanes q.1 (if i.laneBound then (List.range 32).filter (fun l => x.x.getLsbD l) else [0]))
/-- The translations of an access may be used, and its lines leave. -/
def leaves (x : Iss) (i : Instr) (isStore : Bool) (q : MemReq) (ck : Checked) : Bool :=
  match x.s.useAll x.gr.core isStore (ck.good.flatMap fun g => g.2.filterMap (·.trans)) with
  | .ok s1 => (s1.sendLines x.gr.core 0 (atHome .grp i) (x.sends q isStore ck.good).lines).isSome
  | _ => false

/-- A store of a word and a load that waits, both of the group, in a window. -/
def aStore (w : Win) : Instr :=
  .st c0 { win := w, expect := .none, scope := .sc .grp, ty := .b32, x4 := false, d := r 7, a := r 4, off := .none }
def aLoad (w : Win) : Instr :=
  .ldWait c0 { win := w, expect := .none, ty := .b32, x4 := false, d := v 7, a := v 4, off := .none }

/-- The same, with a part that holds of every issuer. -/
theorem met_with {s : State} {i : Instr} {P Q : Iss → Prop} [DecidablePred P] (hq : ∀ x, Q x)
    (h : readyFor s i (fun x => decide (P x)) = true) : ∃ x, Ready s i x ∧ Q x ∧ P x := by
  obtain ⟨x, hx, hp⟩ := met h
  exact ⟨x, hx, hq x, hp⟩

theorem test_meets_MemoryAccesses :
    (∃ x, Ready (withLocal (lanes (putA 4 0x10))) (aStore .l) x ∧ memoryOrdered x.s x (aStore .l)
      ∧ checked (aStore .l) x (fun q ck => ck.walks.isEmpty && ck.faults.isEmpty && !ck.good.isEmpty
        && leaves x (aStore .l) true q ck) = true)
    ∧ (∃ x, Ready (mapped (lanes (putA 4 0x10_0040))) (aStore .g) x ∧ memoryOrdered x.s x (aStore .g)
      ∧ checked (aStore .g) x (fun q ck => ck.walks.isEmpty && ck.faults.isEmpty && !ck.good.isEmpty
        && leaves x (aStore .g) true q ck) = true)
    ∧ (∃ x, Ready (withLocal (lanes (putV 4 [0x2000, 0x2000]))) (aLoad .l) x ∧ memoryOrdered x.s x (aLoad .l)
      ∧ checked (aLoad .l) x (fun q ck => ck.walks.isEmpty && !ck.faults.isEmpty && !ck.good.isEmpty
        && leaves x (aLoad .l) false q ck) = true)
    ∧ (∃ x, Ready (withLocal (lanes (putA 4 0x2000))) (aStore .l) x ∧ memoryOrdered x.s x (aStore .l)
      ∧ checked (aStore .l) x (fun _ ck => ck.walks.isEmpty && ck.good.isEmpty && !ck.faults.isEmpty) = true)
    ∧ ∃ x, Ready start (aStore .g) x ∧ memoryOrdered x.s x (aStore .g)
      ∧ checked (aStore .g) x (fun _ ck => !ck.walks.isEmpty) = true :=
  ⟨met_with (fun _ => trivial) (by decide +kernel), met_with (fun _ => trivial) (by decide +kernel),
    met_with (fun _ => trivial) (by decide +kernel), met_with (fun _ => trivial) (by decide +kernel),
    met_with (fun _ => trivial) (by decide +kernel)⟩

theorem test_meets_Prefetches : ∃ x, Ready (mapped (lanes (putA 4 0x10_0040))) (.pref c0 true .g (r 4) .none) x
    ∧ let ck := x.checkLanes { n := 1, kind := .read, qual := .none, expect := .none, atomic := false
                               addr := laneAddress x .g (r 4) .none, what := fun _ => .load } [0]
      ck.walks = [] ∧ ck.good.length = 1 ∧ (match x.s.useAll x.gr.core false (ck.good.flatMap fun g => g.2.filterMap (·.trans)) with
        | .ok _ => true
        | _ => false) = true :=
  met (by decide +kernel)
theorem test_meets_StageRings :
    (∃ x, Ready (withLocal (lanes (putS 20 1 ∘ putS 21 0x1003))) (.stageOut c0 (v 8) (r 20) (r 21)) x
      ∧ (∀ j < 1, x.gr.isFull (.v (8 + j)) = true)
      ∧ 8 + 1 ≤ 512 ∧ 8 + 1 ≤ 32 * x.gr.vhold ∧ (x.w.onCore x.gr.core).any (fun k => decide (16 * (3 + 2 + 1) ≤ k.size)) = true)
    ∧ ∃ x, Ready (withLocal (lanes (putS 20 0x103 ∘ putS 21 0x4_0013))) (.stageIn c0 (v 510) (r 20) (r 21)) x
      ∧ 510 + 1 ≤ 512 ∧ 510 + 1 ≤ 32 * x.gr.vhold
      ∧ (x.w.onCore x.gr.core).any (fun k => decide (16 * (1 + 3 * 2 + 1 + 1) ≤ k.size)) = true :=
  ⟨met (by decide +kernel), met (by decide +kernel)⟩

/-- The cluster of the core of the workgroup, the joins of its groups, and whether the group has joined. -/
def clustered (cl : Option Nat) (joins : Nat) (j : Bool) : State :=
  (lanes fun gr => { gr with joined := j }).modWg 1 (·.modCore 0 fun k => { k with cluster := cl, pos := 2, joins := joins })
/-- The core of the issuer. -/
def here (x : Iss) (f : WgCore → Bool) : Bool := (x.w.onCore x.gr.core).any f

theorem test_meets_ClusterMembership :
    (∃ x, Ready start (.cjoin c0 (r 4) (.imm 8)) x ∧ here x (·.leaving == none) = true ∧ x.word 2 (.imm 8) = 8)
    ∧ (∃ x, Ready (clustered (some 6) 1 true) (.cjoin c0 (r 4) (.imm 7)) x
      ∧ here x (fun k => k.leaving == none && k.cluster == some 6) = true)
    ∧ (∃ x, Ready (clustered (some 7) 1 false) (.cjoin c0 (r 4) (.imm 7)) x
      ∧ here x (fun k => k.leaving == none && k.cluster == some 7) = true)
    ∧ (∃ x, Ready start (.cjoin c0 (r 4) (.imm 7)) x ∧ here x (fun k => k.leaving == none && k.cluster == none) = true)
    ∧ (∃ x, Ready start (.cleave c0 (r 4)) x ∧ x.gr.joined = false ∧ here x (fun _ => true) = true)
    ∧ (∃ x, Ready (clustered (some 7) 2 true) (.cleave c0 (r 4)) x ∧ x.gr.joined = true ∧ here x (fun k => 1 < k.joins) = true)
    ∧ ∃ x, Ready (clustered (some 7) 1 true) (.cleave c0 (r 4)) x ∧ x.gr.joined = true ∧ here x (fun k => k.joins ≤ 1) = true :=
  ⟨met (by decide +kernel), met (by decide +kernel), met (by decide +kernel), met (by decide +kernel),
    met (by decide +kernel), met (by decide +kernel), met (by decide +kernel)⟩

theorem test_meets_Launches :
    (∃ x, Ready (lanes (putA 4 0x10_0020)) (.launch c0 (r 2) (r 4)) x ∧ x.dword 1 (r 4) % 64 ≠ 0)
    ∧ (∃ x, Ready (mapped (lanes (putA 4 0x10_0040))) (.launch c0 (r 2) (r 4)) x ∧ x.dword 1 (r 4) % 64 = 0
      ∧ localPlace x.w x.gr (x.dword 1 (r 4)) 128 = none
      ∧ (match x.s.chkRange x.gr.core x.w.ctx x.gr.sup .read true (x.dword 1 (r 4)) 128 with
        | .pieces ps => ((got (x.s.usePieces x.gr.core false ps)).any fun s1 => (got (s1.readPieces ps)).isSome)
          && x.s.accessesDone x.h x.g x.priorOps (ps.map fun p =>
            { off := 0, n := p.n, va := p.va, place := .phys p.pa, coh := p.attr.coh, normal := true })
        | _ => false) = true)
    ∧ (∃ x, Ready (lanes (putA 4 0x7F_FF00_0000_0040)) (.launch c0 (r 2) (r 4)) x ∧ x.dword 1 (r 4) % 64 = 0
      ∧ localPlace x.w x.gr (x.dword 1 (r 4)) 128 = none
      ∧ (match x.s.chkRange x.gr.core x.w.ctx x.gr.sup .read true (x.dword 1 (r 4)) 128 with
        | .fault .. => true
        | _ => false) = true)
    ∧ (∃ x, Ready (lanes (putA 4 0x7F_FC00_0000_0040)) (.launch c0 (r 2) (r 4)) x ∧ x.dword 1 (r 4) % 64 = 0
      ∧ (match localPlace x.w x.gr (x.dword 1 (r 4)) 128 with
        | some (.fault _) => true
        | _ => false) = true)
    ∧ ∃ x, Ready (withLocal (lanes (putA 4 0x7F_FC00_0000_0040))) (.launch c0 (r 2) (r 4)) x
      ∧ x.dword 1 (r 4) % 64 = 0
      ∧ localPlace x.w x.gr (x.dword 1 (r 4)) 128 = some (.parts [.loc 0 0x40 128 none]) ∧ x.banksQuiet = true :=
  ⟨met (by decide +kernel), met (by decide +kernel), met (by decide +kernel), met (by decide +kernel), met (by decide +kernel)⟩

/-- A copy whose ranges are translated, with its lowest fault and the offset its moves end at, and whose translations may be
used. -/
def copies (j : CopyJob) (x : Iss) (d a : Opnd) (f : Option LaneFault → Nat → Bool) : Bool :=
  let listing := j.xf == .pack || j.xf == .hadq
  let dst := x.copyRange .dst (x.dword 0 d) j.dn
  let src := x.copyRange .src (x.dword 1 a) j.sn
  let side := if j.sideVa = 0 then x.copyRange .src 0 0
    else x.copyRange (if listing then .dst else .src) j.sideVa j.sideN
  decide (j.bad (x.dword 0 d) (x.dword 1 a) = false ∧ j.dn ≠ 0)
  && [dst, src, side].all (fun r => r.bad.isNone && r.walks.isEmpty)
  && f (lowestFault ([dst, src, side].flatMap (·.faults))) (j.upTo (x.dword 0 d) dst src side)
  && (used (x.s.useCopy x.gr.core (dst.trans ++ if listing then side.trans else []) src.trans)).isSome

theorem test_meets_Copies :
    (∃ x, Ready start (.copyxT2d c0 (.sc .grp) (r 2) (r 4) (r 16)) x
      ∧ (t2dJob (x.raw 2 (r 16) 8 0)).bad (x.dword 0 (r 2)) (x.dword 1 (r 4)) = true)
    ∧ (∃ x, Ready start (.copy c0 (.sc .grp) (r 2) (r 4) (.imm 0)) x ∧ (plainJob (x.word 2 (.imm 0))).dn = 0
      ∧ (plainJob (x.word 2 (.imm 0))).bad (x.dword 0 (r 2)) (x.dword 1 (r 4)) = false)
    ∧ (∃ x, Ready (mapped (lanes (putA 2 0x10_0100 ∘ putA 4 0x10_0000))) (.copy c0 (.sc .pod) (r 2) (r 4) (.imm 130)) x
      ∧ copies (plainJob (x.word 2 (.imm 130))) x (r 2) (r 4) (fun f n => f.isNone && n == 130) = true)
    ∧ (∃ x, Ready (mapped (lanes (putA 2 0x10_FFC0 ∘ putA 4 0x10_0000))) (.copy c0 (.sc .pod) (r 2) (r 4) (.imm 130)) x
      ∧ copies (plainJob (x.word 2 (.imm 130))) x (r 2) (r 4) (fun f n => f.isSome && n == 64) = true)
    ∧ (∃ x, Ready (mapped (lanes (putA 2 0x11_0000 ∘ putA 4 0x10_0000))) (.copy c0 (.sc .pod) (r 2) (r 4) (.imm 130)) x
      ∧ copies (plainJob (x.word 2 (.imm 130))) x (r 2) (r 4) (fun f n => f.isSome && n == 0) = true)
    ∧ ∃ x, Ready (withLocal (lanes (putA 2 0x7F_FC00_0000_0100 ∘ putA 4 0x7F_FC00_0000_0000)))
        (.copy c0 (.sc .grp) (r 2) (r 4) (.imm 16)) x
      ∧ copies (plainJob (x.word 2 (.imm 16))) x (r 2) (r 4) (fun f n => f.isNone && n == 16) = true :=
  ⟨met (by decide +kernel), met (by decide +kernel), met (by decide +kernel), met (by decide +kernel), met (by decide +kernel),
    met (by decide +kernel)⟩

/-- The pieces of a range and the translations they use. -/
def piecesOf : PhysRange → Option (List Seg × List Trans)
  | .pieces gs ts => some (gs, ts)
  | _ => none

/-- A pronoun of 128 bytes at 0x10_0000. -/
def pronoun : PnEnt :=
  { id := 0, ctx := 0, xf := .ident, mirror := false, st := .live, heat := 0, dbase := 0x10_0000, dext := 128, lo := 0,
    hi := 128, hlim := 128, abase := 0x10_1000, aext := 128, param := 0, hotAt := 0 }

theorem test_meets_PronounInstructions :
    (∃ x, Ready { mapped (lanes (putA 2 0x10_0000 ∘ putS 4 64)) with pn := [pronoun] } (.resolve c0 false (r 2) (r 4)) x
      ∧ (piecesOf (x.physRange false .src (x.dword 1 (r 2)) (x.word 2 (r 4)))).any (fun q =>
        (used (x.s.useAll x.gr.core false q.2)).isSome) = true)
    ∧ (∃ x, Ready (lanes fun gr => { putA 2 (hbmTop - 64) gr with sr := { gr.sr with estat := 1 } }) (.resolve c0 true (r 2) (.imm 64)) x
      ∧ (piecesOf (x.physRange true .src (x.dword 1 (r 2)) (x.word 2 (.imm 64)))).isSome = true)
    ∧ (∃ x, Ready (mapped (lanes (putA 2 0x10_0000))) (.pnq c0 false (r 4) (r 2)) x
      ∧ (piecesOf (x.physRange false .src (x.dword 1 (r 2)) 1)).isSome = true ∧ x.s.pn = [])
    ∧ (∃ x, Ready { mapped (lanes (putA 2 0x10_007F)) with pn := [pronoun] } (.pnq c0 false (r 4) (r 2)) x
      ∧ (piecesOf (x.physRange false .src (x.dword 1 (r 2)) 1)).any (fun q => placeAt q.1 0 == some (.phys 0x10_007F)) = true
      ∧ (x.s.pn.find? (·.holds 0x10_007F)).isSome = true)
    ∧ (∃ x, Ready { mapped (lanes (putA 2 0x10_0000)) with pn := [pronoun] } (.pndrop c0 false (.sc .core) (r 2) (.imm 64)) x
      ∧ (piecesOf (x.physRange false .dst (x.dword 1 (r 2)) (x.word 2 (.imm 64)))).any (fun q =>
        x.s.accessesDone x.h x.g x.priorOps q.1 && x.s.dropReady false q.1 && (x.s.othersStuck x.w.ctx false q.1).isEmpty
        && (x.s.translated? ((x.s.entriesAt q.1).flatMap (·.lines))).isNone && (used (x.s.useAll x.gr.core true q.2)).isSome) = true)
    ∧ ∃ x, Ready (mapped (lanes (putA 2 0x11_0000))) (.pndrop c0 false (.sc .core) (r 2) (.imm 64)) x
      ∧ (match x.physRange false .dst (x.dword 1 (r 2)) (x.word 2 (.imm 64)) with
        | .fault _ => true
        | _ => false) = true :=
  ⟨met (by decide +kernel), met (by decide +kernel), met (by decide +kernel), met (by decide +kernel),
    met (by decide +kernel), met (by decide +kernel)⟩

def mt (k : BitVec 4) : Opnd := .m false false k
def acc (k : BitVec 3) : Opnd := .a false false k
/-- Two tiles of rank 20 with a cap of 32, and the holding `n`. -/
def tiles (n : Nat) : State := lanes fun gr =>
  let t : Tile := { form := .fact, cap := 32, etag := .wide, units := List.replicate 20 0 }
  { gr with m := put (put gr.m 1 t) 2 t, mhold := n }

theorem test_meets_TileArithmetic :
    (∃ x, Ready (tiles 512) (.madd c0 (mt 1) (mt 1) (mt 2)) x ∧ tileBound x (.madd c0 (mt 1) (mt 1) (mt 2)) = some (mt 1, none))
    ∧ (∃ x, Ready (tiles 40) (.mdense c0 (mt 3) (mt 2)) x ∧ tileBound x (.mdense c0 (mt 3) (mt 2)) = some (mt 3, some 32)
      ∧ x.gr.occOf (tileReg (mt 3)) < 32 ∧ x.gr.mhold < x.gr.occupancy - x.gr.occOf (tileReg (mt 3)) + 32)
    ∧ (∃ x, Ready (tiles 72) (.mdense c0 (mt 3) (mt 2)) x ∧ tileBound x (.mdense c0 (mt 3) (mt 2)) = some (mt 3, some 32)
      ∧ x.gr.occupancy - x.gr.occOf (tileReg (mt 3)) + 32 ≤ x.gr.mhold)
    ∧ (∃ x, Ready (tiles 512) (.mrankGet c0 (r 4) (mt 2)) x) ∧ (∃ x, Ready start (.mma c0 true false (acc 7) (mt 15) (mt 1)) x) :=
  ⟨met (by decide +kernel), met (by decide +kernel), met (by decide +kernel),
    (met (P := fun _ => True) (by decide +kernel)).imp fun _ h => h.1,
    (met (P := fun _ => True) (by decide +kernel)).imp fun _ h => h.1⟩

/-- A tile load with its place, or a tile store. -/
def tileAt (i : Instr) (x : Iss) (f : Opnd → Bool → Ranged → Nat → Bool) : Bool :=
  match tileLoad x i with
  | some (d, ok, _, rows, some n) => f d ok (x.imageRange .read rows) n
  | _ => match tileStore x i with
    | some (ok, _, rows) => f .none ok (x.imageRange .write rows) 0
    | _ => false

theorem test_meets_TileMemory :
    (∃ x, Ready { mapped (lanes fun gr => { putA 2 0x10_0000 gr with mhold := 31 }) with bars := [] }
        (.mloadRow c0 true .f16 (mt 3) (r 2) (.imm 64)) x
      ∧ tileAt (.mloadRow c0 true .f16 (mt 3) (r 2) (.imm 64)) x (fun d _ _ n =>
        decide (x.gr.occOf (tileReg d) < n ∧ x.gr.mhold < x.gr.occupancy - x.gr.occOf (tileReg d) + n)) = true)
    ∧ (∃ x, Ready (mapped (lanes (putA 2 0x10_0001))) (.mloadRow c0 true .f16 (mt 3) (r 2) (.imm 64)) x
      ∧ tileAt (.mloadRow c0 true .f16 (mt 3) (r 2) (.imm 64)) x (fun d ok _ n =>
        decide (¬(x.gr.occOf (tileReg d) < n ∧ x.gr.mhold < x.gr.occupancy - x.gr.occOf (tileReg d) + n) ∧ ok = false)) = true)
    ∧ (∃ x, Ready (mapped (lanes (putA 2 0x10_0000))) (.mloadFact c0 (mt 3) (r 2) (.imm 2)) x
      ∧ tileAt (.mloadFact c0 (mt 3) (r 2) (.imm 2)) x (fun d ok rg n =>
        decide (¬(x.gr.occOf (tileReg d) < n ∧ x.gr.mhold < x.gr.occupancy - x.gr.occOf (tileReg d) + n) ∧ ok = true
          ∧ rg.clean ∧ (used (x.s.useAll x.gr.core false rg.trans)).isSome = true)) = true)
    ∧ (∃ x, Ready (lanes (putA 2 0x10_0040)) (.mstoreFact c0 (mt 3) (r 2)) x
      ∧ tileAt (.mstoreFact c0 (mt 3) (r 2)) x (fun _ ok _ _ => !ok) = true)
    ∧ (∃ x, Ready (mapped (lanes (putA 2 0x10_0000))) (.astore c0 false .f32 (acc 1) (r 2) (.imm 128)) x
      ∧ tileAt (.astore c0 false .f32 (acc 1) (r 2) (.imm 128)) x (fun _ ok rg _ =>
        ok && decide rg.clean && (used (x.s.useAll x.gr.core true rg.trans)).isSome) = true)
    ∧ ∃ x, Ready (mapped (lanes (putA 2 0x11_0000))) (.astore c0 false .f32 (acc 1) (r 2) (.imm 128)) x
      ∧ tileAt (.astore c0 false .f32 (acc 1) (r 2) (.imm 128)) x (fun _ ok rg _ =>
        ok && rg.bad.isNone && rg.walks.isEmpty && (lowestFault rg.faults).isSome) = true :=
  ⟨met (by decide +kernel), met (by decide +kernel), met (by decide +kernel), met (by decide +kernel), met (by decide +kernel),
    met (by decide +kernel)⟩
theorem test_meets_Transforms :
    (∃ x, Ready (lanes (putS 4 15)) (.xformQ c0 (r 1) (v 8) (r 4)) x ∧ (transform x (.xformQ c0 (r 1) (v 8) (r 4))).any (!·.1) = true)
    ∧ (∃ x, Ready start (.xformHad c0 (v 8) (v 16) (r 4)) x ∧ localFits x (v 8) 8
      ∧ (transform x (.xformHad c0 (v 8) (v 16) (r 4))).any (·.1) = true)
    ∧ (∃ x, Ready (withLocal start) (.xformQ c0 (r 1) (v 8) (r 4)) x ∧ localFits x (r 1) 1
      ∧ (transform x (.xformQ c0 (r 1) (v 8) (r 4))).any (·.1) = true)
    ∧ (∃ x, Ready start (.decodeBlk c0 .none (v 32) (r 8) (r 10)) x ∧ x.raw 2 (r 10) 2 0 % 2 ^ 32 = 0)
    ∧ (∃ x, Ready (withLocal (lanes (putS 10 8))) (.decodeBlk c0 .none (v 32) (r 8) (r 10)) x
      ∧ x.raw 2 (r 10) 2 0 % 2 ^ 32 = 8 ∧ 32 + 4 * 8 ≤ 32 * x.gr.vhold ∧ x.word 1 (r 8) % 64 = 0
      ∧ x.word 1 (r 8) + 64 * 8 ≤ x.localSize ∧ localFits x (v 32) 32)
    ∧ ∃ x, Ready (withLocal (lanes (putS 10 1 ∘ putS 8 0xFC0))) (.decodeBlk c0 .take (v 32) (r 8) (r 10)) x
      ∧ x.raw 2 (r 10) 2 0 % 2 ^ 32 = 1 ∧ 32 + 4 ≤ 32 * x.gr.vhold ∧ x.word 1 (r 8) % 64 = 0
      ∧ x.word 1 (r 8) + 64 ≤ x.localSize ∧ localFits x (v 32) 4 :=
  ⟨met (by decide +kernel), met (by decide +kernel), met (by decide +kernel), met (by decide +kernel),
    met (by decide +kernel), met (by decide +kernel)⟩

/-- Bytes of memory. -/
def inMem (a : Nat) (bs : List Byte) (s : State) : State := { s with mem := Memory.write s.mem a bs }
/-- A token array of one sequence and one head of dimension 2 at 0x10_0040, its sequence and pool records at 0x10_1000
and 0x10_2000, and its table of angles at 0x10_3000 (Tables 3.1, 3.3, 3.4). -/
def tokens (s : State) : State :=
  inMem 0x10_1000 (bytesOfNat 32 (0x10_4000 * 2 ^ 192 + 1)) <|
  inMem 0x10_2000 (bytesOfNat 32 (0x10_8000 * 2 ^ 192 + 4 * 2 ^ 107 + 4 * 2 ^ 86 + 2 * 2 ^ 48)) <|
  inMem 0x10_0040 (bytesOfNat 64 (0x10_1000 * 2 ^ 448 + 0x10_2000 * 2 ^ 384 + 0x10_3000 * 2 ^ 320 + 64 * 2 ^ 224
    + 1 * 2 ^ 203 + 1 * 2 ^ 194 + 2 * 2 ^ 185 + 1)) (mapped s)

/-- A sequence instruction whose records are read. -/
def planned (i : Instr) (x : Iss) : Bool :=
  (tokenPlan x i).any fun q => q.1 % 64 == 0 && (match q.2.run x.s with
    | .ok (p, s1) => (used (s1.useCopy x.gr.core (p.written.map (·.tr)) (p.used.map (·.tr)))).isSome
    | _ => false)

theorem test_meets_SequenceInstructions :
    (∃ x, Ready (lanes (putA 4 0x10_0020)) (.kvseal c0 (r 4)) x ∧ (tokenPlan x (.kvseal c0 (r 4))).any (·.1 % 64 != 0) = true)
    ∧ (∃ x, Ready (tokens (lanes (putA 4 0x10_0040))) (.kvseal c0 (r 4)) x ∧ planned (.kvseal c0 (r 4)) x = true)
    ∧ (∃ x, Ready (tokens (lanes (putA 4 0x10_0040))) (.span c0 (r 4) (.imm 7)) x ∧ planned (.span c0 (r 4) (.imm 7)) x = true)
    ∧ (∃ x, Ready (tokens (lanes (putA 4 0x10_0040))) (.window c0 (r 4) (r 1)) x ∧ planned (.window c0 (r 4) (r 1)) x = true) :=
  ⟨met (by decide +kernel), met (by decide +kernel), met (by decide +kernel), met (by decide +kernel)⟩

/-- The sequence with one SEALED block of 16 tokens, in a pool whose slots may not be read. -/
def badSlot (s : State) : State :=
  inMem 0x10_4000 (bytesOfNat 8 (2 * 2 ^ 6 + 16 * 2)) <|
  inMem 0x10_2000 (bytesOfNat 32 (0x11_0000 * 2 ^ 192 + 4 * 2 ^ 107 + 4 * 2 ^ 86 + 2 * 2 ^ 48)) <|
  inMem 0x10_1000 (bytesOfNat 32 (0x10_4000 * 2 ^ 192 + 16 * 2 ^ 160 + 2 ^ 100 + 2 ^ 72 + 1)) (tokens s)
/-- The lanes of a KVLD of one register from its A pair, by the positions in B: whether some have a row or a status, and
whether some fault. -/
def kvLanes (x : Iss) (b : Opnd) (good bad : Bool) : Bool :=
  match (kvldPlan x.who (x.seqBlock 1 (r 4)) false false 32
      (((List.range 32).filter fun l => x.x.getLsbD l).map fun l => (l, match b with
        | .imm v => v.toNat
        | o => x.int .u32 2 o l))).run x.s with
  | .ok (p, _) => (!p.lanes.isEmpty) == good && (!p.faults.isEmpty) == bad
  | _ => false

/-- A table of 64 bytes rotates nothing; a sequence without rows has a status for each lane. -/
theorem test_meets_TokenReads :
    (∃ x, Ready (tokens (lanes (putA 4 0x10_0040))) (.kvld c0 false false 31 (v 8) (r 4) (.imm 9)) x
      ∧ x.raw 1 (r 4) 4 0 % 64 = 0 ∧ kvLanes x (.imm 9) true false = true)
    ∧ (∃ x, Ready (badSlot (lanes (putA 4 0x10_0040))) (.kvld c0 false false 31 (v 8) (r 4) (.imm 9)) x
      ∧ x.raw 1 (r 4) 4 0 % 64 = 0 ∧ kvLanes x (.imm 9) false true = true)
    ∧ (∃ x, Ready (badSlot (lanes (putA 4 0x10_0040 ∘ putV 3 [9, 100, 200]))) (.kvld c0 false false 31 (v 8) (r 4) (v 3)) x
      ∧ x.raw 1 (r 4) 4 0 % 64 = 0 ∧ kvLanes x (v 3) true true = true)
    ∧ ∃ x, Ready (tokens (lanes (putA 4 0x10_0040))) (.rope c0 1 (v 8) (v 48) (r 4)) x ∧ x.raw 2 (r 4) 4 0 % 64 = 0
      ∧ (match (ropePlan x.who (x.seqBlock 2 (r 4)) 2).run x.s with
          | .ok _ => true
          | _ => false) = true :=
  ⟨met (by decide +kernel), met (by decide +kernel), met (by decide +kernel), met (by decide +kernel)⟩

/-- An access processor with `ws` in its registers. -/
def nests (ws : List Word) (place : Option NestPlace) : State := access fun gr =>
  { gr with ap := { gr.ap with nest := place, s := (ws.zip (List.range ws.length)).foldl (fun m q => put m q.2 q.1) gr.ap.s } }
/-- Port 3 of the group with `k` words and `m` permits. -/
def portWith (k m : Nat) (gr : Group) : Group := gr.modPort 3 fun _ => { words := List.replicate k 0, permits := m }

theorem test_meets_AccessQueues :
    (∃ x, Ready (nests [3] none) (.nest c0 (r 0)) x ∧ (x.gr.ap.nestRec 0).bad = true)
    ∧ (∃ x, Ready (nests [3, 0, 0x10000] none) (.nest c0 (r 0)) x ∧ (x.gr.ap.nestRec 0).bad = false)
    ∧ (∃ x, Ready (access (portWith 63 1)) (.apsend c0 3 (.imm 0x1FFF)) x ∧ 3 < x.gr.ports.length
      ∧ (x.gr.port 3).words.length < 64 ∧ 0 < (x.gr.port 3).permits)
    ∧ (∃ x, Ready (access (portWith 0 0)) (.apsend c0 3 (.imm 0x1FFF)) x ∧ 3 < x.gr.ports.length ∧ (x.gr.port 3).permits = 0)
    ∧ ∃ x, Ready (lanes (portWith 0 60)) (.apermit c0 3 (.imm 8)) x ∧ 3 < x.gr.ports.length :=
  ⟨met (by decide +kernel), met (by decide +kernel), met (by decide +kernel), met (by decide +kernel),
    met (by decide +kernel)⟩
/-! ### States that meet the hypotheses of the events -/

/-- The state after an instruction or an event. -/
def ran (s : State) (i : Instr) : State :=
  match exec i s with
  | .next t => t
  | _ => s
/-- The group of a state, and its workgroup. -/
def inG (s : State) (f : Workgroup → Group → Bool) : Bool :=
  (s.wg? 1).any fun w => (w.group? 0).any (f w)

def pending (sup : Word) : State := lanes fun gr => { gr with
  pend := [{ path := 0, cause := .stagePhase, info := 0, faddr := 0, p31 := 1, ap := false }], sr := { gr.sr with estat := sup } }
def nesting (opnd : Nat) : State := (nests [3, 0, 0x290000] (some { reg := 0, idx := [2, 0, 0, 0, 0], opnd := opnd })).modGroup 1 0
  fun gr => { gr with ap := { gr.ap with wait := some .port }, ports := (portWith 63 1 (gr.modPort 1 fun _ => { words := [], permits := 1 })).ports }
/-- An operation of the matrix unit that is over, and one of a store that has an acknowledgement. -/
def cleared : State := ran (ran start (.mzero c0 (mt 2))) (.matrixStart 0)
def acked : State := (ran (withLocal (lanes (putA 4 0x10))) (aStore .l)).modGroup 1 0 fun gr =>
  gr.modOp 1 fun o => { o with acks := [5], owed := 1 }
def claiming : State := (lanes fun gr => { gr with vhold := 15 }).modCore 0 fun k => { k with claims :=
  [{ shadow := false, quarter := 0, pool := .v, wg := 1, g := 0, path := 0, k := 1, floor := false }] }

theorem test_meets_GroupEvents :
    inG (pending 0) (fun w gr => gr.pend.any fun c => (gr.taker c).any fun p =>
      !gr.sup && (pending 0).groupRuns w gr && (gr.path p).atBoundary) = true
    ∧ inG (pending 1) (fun _ gr => gr.sup && gr.pend.any fun c => (gr.taker c).isSome) = true
    ∧ (∀ k ∈ [0, 1], inG (nesting k) (fun w gr => gr.ap.nest.any fun n =>
      let r := gr.ap.nestRec n.reg
      (nesting k).groupRuns w gr && decide (gr.ap.st = .running ∧ gr.ap.wait = some .port ∧ r.port < gr.ports.length
        ∧ (gr.port r.port).words.length < 64 ∧ 0 < (gr.port r.port).permits)) = true)
    ∧ inG acked (fun _ gr => (gr.op? 1).any fun o => o.acks == [5]) = true
    ∧ inG cleared (fun _ gr => ((gr.ops.filter (·.cls == some .matrix)).head?).any fun o =>
      cleared.engOver 1 0 o && decide (CtrClass.matrix.num < gr.ctrs.length)) = true
    ∧ inG (lanes fun gr => { gr with given := [{ pool := .v, n := 1, lo := 480, hi := 512 }] })
      (fun _ gr => gr.given.any fun y => !gr.targets y) = true
    ∧ inG claiming (fun _ gr => ((claiming.core 0).queue false 0 .v).any fun c =>
      (claiming.core 0).front.moves false && decide (c.k ≤ claiming.poolFree 0 false 0 .v ∧ c.wg = 1 ∧ c.g = 0
        ∧ gr.halted = false ∧ c.floor = false ∧ c.path < gr.paths.length)) = true := by
  decide +kernel

/-- A copy of the group that has done its prefix, and met a fault behind it. -/
def copyOver : State := (ran (mapped (lanes (putA 2 0x10_0100 ∘ putA 4 0x10_0000))) (.copy c0 (.sc .pod) (r 2) (r 4) (.imm 130))).modGroup
  1 0 fun gr => gr.modOp 1 fun o => { o with todo := 0, step := 64, cause := some (.perm, 0, 0x11_0000) }
theorem test_meets_GroupEvents_copy : inG copyOver (fun _ gr => ((gr.ops.filter (·.cls == some .copy)).head?).any fun o =>
    copyOver.engOver 1 0 o && o.cause.isSome && decide (CtrClass.copy.num < gr.ctrs.length)) = true := by
  decide +kernel

/-- A load whose values have come. -/
def landing (got : Mask) : State := (ran (withLocal (lanes (putV 4 [0x10]))) (aLoad .l)).modGroup 1 0 fun gr =>
  gr.modOp 1 fun o => { o with qual := .none, todo := 0, fin := true, got := got }
/-- KVLDs whose lanes have a status, and whose lanes have a row to read. -/
def kvStatus : State := ran (tokens (lanes (putA 4 0x10_0040))) (.kvld c0 false false 31 (v 8) (r 4) (.imm 9))
def kvRow : State := ran (inMem 0x10_4000 (bytesOfNat 8 (2 * 2 ^ 6 + 16 * 2)) <|
  inMem 0x10_1000 (bytesOfNat 32 (0x10_4000 * 2 ^ 192 + 16 * 2 ^ 160 + 2 ^ 100 + 2 ^ 72 + 1)) (tokens (lanes (putA 4 0x10_0040))))
  (.kvld c0 false false 31 (v 8) (r 4) (.imm 9))
def isKvld (o : Op) : Bool := match o.instr with
  | .kvld .. => true
  | _ => false
theorem test_meets_WritesLand :
    [0, 0xF].all (fun m => inG (landing m) (fun _ gr => (gr.op? 1).any fun o => decide (o.landed = false ∧ o.todo = 0 ∧ o.fin = true
      ∧ o.dst = [.v 7] ∧ gr.mayLand (.v 7) o.seq = true ∧ o.rows.headD 0 = 0) && !isKvld o)) = true
    ∧ inG kvStatus (fun _ gr => (gr.op? 1).any fun o => isKvld o && !o.landed && decide o.dst.Nodup
      && (match kvStatus.engRead 1 0 gr o with
        | .done => true
        | _ => false) && (kvStatus.kvResults o (o.dst.length - 2)).all (·.2.2.2.isEmpty)) = true
    ∧ inG kvRow (fun _ gr => (gr.op? 1).any fun o => isKvld o && !o.landed && decide o.dst.Nodup
      && (match kvRow.engRead 1 0 gr o with
        | .some s1 => inG s1 fun _ g => (g.op? 1).isSome
        | _ => false)) = true := by
  decide +kernel

/-- One core of the workgroup with a change. -/
def onCore0 (f : WgCore → WgCore) (s : State) : State := s.modWg 1 (·.modCore 0 f)
/-- The next operation of the bank queue that no earlier STAGE.OUT holds up, with its granule and its instruction. -/
def bankOps (s : State) (f : BankOp → Gran → Op → Bool) : Bool := ((s.core 0).bankNext 0).any fun b =>
  !s.stageBehind b && ((s.wg? b.wg).bind (·.onCore 0)).isSome
  && ((s.group? b.acc.wg b.acc.g).bind (·.op? b.acc.seq)).any fun o => f b (s.gran b.wg 0 b.gran) o
/-- No access of the operation belongs to an instruction that faulted, or to a STAGE.IN. -/
def sound (s : State) (b : BankOp) : Bool := b.accs.all fun a =>
  ((s.group? a.wg a.g).bind (·.op? a.seq)).all fun o => o.cause.isNone && !o.isStageIn
def stores0 : State := ran (withLocal (lanes (putA 4 0x10))) (aStore .l)
def storeWait : State := ran (withLocal (lanes (putA 4 0x10)))
  (.stWait c0 { win := .l, expect := .none, scope := .sc .grp, ty := .b32, x4 := false, d := r 7, a := r 4, off := .none })
def staged : State := ran (withLocal (lanes (putS 20 1 ∘ putS 21 0x1003))) (.stageIn c0 (v 8) (r 20) (r 21))
/-- The same with a header that is full. -/
def stagedFull (x : BitVec 128) : State :=
  (((staged.core 0).bankNext 0).map fun b => staged.setGran 1 0 b.gran { data := x, full := true, waiters := [] }).getD staged
def stagedOut : State := ran (withLocal (lanes (putS 20 1 ∘ putS 21 0x1003))) (.stageOut c0 (v 8) (r 20) (r 21))
/-- STAGE.OUT has visited its header, and its payload has landed. -/
def visited : State := ran stagedOut (.granuleOp 0 0)
def paid : State := ran (ran visited (.engineWriteLands 0 0)) (.engineWriteLands 0 0)
def engWrites : State := (withLocal start).modCore 0 fun c =>
  { c with engW := [{ wg := 1, g := 0, seq := 0, gran := 3, off := 4, bytes := [7] }] }
def arrived : State := { ran start (.bar c0 (.sc .grp) (.imm 0)) with cycle := 1000 }
def clearing : State := ran start (.mzero c0 (mt 2))
def hadamard : State := ran start (.xformDq c0 (v 8) (v 1) (r 4))
def copying : State := ran (mapped (lanes (putA 2 0x10_0100 ∘ putA 4 0x10_0000))) (.copy c0 (.sc .pod) (r 2) (r 4) (.imm 130))
def decided (k : DWord) : State := copying.modGroup 1 0 fun gr => gr.modOp 1 fun o => { o with args := [k] }
def copyNext (s : State) (f : CopyRun → Op → Bool) : Bool := (s.core 0).copyQ.head?.any fun r => inG s fun _ gr =>
  (gr.op? r.seq).any fun o => decide (r.wg = 1 ∧ r.g = 0 ∧ r.over = false ∧ s.runClear 0 o.prior r = true) && f r o
def done? {α : Type} : Coll α → Bool
  | .ok _ => true
  | _ => false
def joining : State := ran (withLocal start) (.cjoin c0 (r 4) (.imm 7))
def leaving (ms : List Nat) : State := onCore0 (fun c => { c with leaving := some ms, cleaver := some (0, 0) }) (clustered (some 7) 0 false)
def over0 : State := (withLocal start).modGroup 1 0 fun gr => { gr with ended := true }
def atCore0 (s : State) (f : Workgroup → WgCore → Bool) : Bool := (s.wg? 1).any fun w => (w.onCore 0).any (f w)

theorem test_meets_CoreEvents_granules :
    bankOps staged (fun b g _ => g.waits b.qual b.isStore) = true
    ∧ bankOps stores0 (fun b _ o => b.qual == .none && !b.eng && sound stores0 b && !o.isStageIn) = true
    ∧ bankOps storeWait (fun b g _ => b.qual != .none && !b.eng && !g.waits b.qual b.isStore && g.waiters.isEmpty
      && sound storeWait b) = true
    ∧ bankOps stagedOut (fun b g o => b.eng && !g.waits b.qual b.isStore && !o.isStageIn) = true
    ∧ [0, 1].all (fun k => bankOps (stagedFull k) fun b g o => !b.eng && !g.waits b.qual b.isStore && o.isStageIn
      && (List.range (o.payload + 1)).all (fun i => ((stagedFull k).gran b.wg 0 (b.gran + i)).waiters.isEmpty)
      && decide (g.data.getLsbD 0 = (o.args.getD 0 0).toNat.testBit 8) == (k == 0)) = true
    ∧ ((engWrites.core 0).engW.head?.any fun e => decide ((engWrites.gran e.wg 0 e.gran).waiters = []
      ∧ ((engWrites.wg? e.wg).bind (·.onCore 0)).isSome = true)) = true
    ∧ inG paid (fun _ gr => (gr.op? 1).any fun o => decide (o.isStageOut = true ∧ o.todo ≠ 0 ∧ o.step ≠ 0
      ∧ (paid.core 0).engW = [] ∧ (paid.gran 1 0 o.slot).waiters = [])) = true := by
  decide +kernel

theorem test_meets_CoreEvents :
    (arrived.bars[0]?).any (fun b => decide (arrived.phaseDone b = true ∧ b.gang = none ∧ b.wg = 1 ∧ b.arrived = [(1, 0, 0)])) = true
    ∧ inG arrived (fun _ gr => decide (gr.halted = false ∧ (gr.path 0).wait = some .barrier ∧ 0 < gr.paths.length)) = true
    ∧ (clearing.core 0).matrixQ = [(1, 0, 1)] ∧ inG clearing (fun _ gr => (gr.op? 1).any fun o =>
      decide (o.fin = false ∧ o.segs = [] ∧ clearing.engClear 1 0 gr o = true ∧ (tileResult gr o []).ash = [])
      && (match (tileResult gr o []).w with
        | .store _ => false
        | _ => true)) = true
    ∧ (hadamard.core 0).xformQ = [(1, 0, 1)] ∧ inG hadamard (fun _ gr => (gr.op? 1).any fun o =>
      decide (hadamard.xfReady 1 0 gr o = true ∧ (xfResult hadamard 1 0 o).ash = [] ∧ o.dst ≠ [])) = true := by
  decide +kernel

theorem test_meets_CoreEvents_copies :
    copyNext copying (fun _ o => o.args == []) = true
    ∧ copyNext (decided 1) (fun r o => o.args == [1] && done? ((decided 1).eagerStep 0 r)) = true
    ∧ copyNext (decided 0) (fun r o => o.args == [0] && !r.listing && r.done == 0 && r.snap.isNone
      && (r.cand 0).any fun e => (decided 0).pnRoom e && (decided 0).pn.isEmpty && (match (decided 0).recordRun r e with
        | .ok _ => true
        | _ => false)) = true := by
  decide +kernel

theorem test_meets_CoreEvents_clusters :
    atCore0 joining (fun _ c => c.joining == some (0, 1)) = true
    ∧ atCore0 (leaving [0, 3]) (fun w c => decide (c.leaving = some [0, 3] ∧ c.joining = none
      ∧ (leaving [0, 3]).engineBehind 1 0 3 c.pos w = false) && w.cores.all (fun d => d.grans.isEmpty)
      && (leaving [0, 3]).cores.all (fun d => d.2.bankQ.isEmpty)) = true
    ∧ atCore0 (leaving []) (fun w c => c.leaving == some [] && w.groups.all fun x => x.2.ops.isEmpty) = true
    ∧ atCore0 over0 (fun w c => decide (c.freed = false ∧ c.cluster = none ∧ c.grans = [])
      && w.groups.all (·.2.ended) && (over0.core 0).engW.isEmpty && (over0.core 0).bankQ.isEmpty
      && over0.cores.all (·.2.copyQ.isEmpty)) = true := by
  decide +kernel
/-- What waits at core 0 for a line, or at its home. -/
def takes (s : State) (line : Nat) (home : Bool) (f : MsgKind → State → Bool) : Bool :=
  (s.take? 0 line home).any fun q => f q.1 q.2
def line0 : Nat := 0x10_0000
def sent (home : Bool) (k : MsgKind) (s : State) : State := { s with msgs := [{ core := 0, line := line0, toHome := home, kind := k }] }
/-- The directory entry of the line. -/
def entry (st : DirSt) (owner : Nat) (sharers : List Nat) (table : Bool) : TrackEnt :=
  { slice := sliceOf line0, base := line0, k := 7, st := st, owner := owner, coarse := false, sharers := sharers, tenancy := 0,
    mixed := false, table := table, tshare := if table then [0] else [], quietAt := 0, ownAt := 0, used := 0 }
def tracked (e : TrackEnt) (s : State) : State := { s with dir := [e] }
def txn (req : HomeReq) (wait : HomeWait) (s : State) : State := { s with homes :=
  [{ line := line0, req := req, wait := wait, data := none, answers := [], exact := false, heldWb := none, queue := [] }] }
def row9 : Row := Row.ofBytes (List.replicate 128 9)
def cached (st : L1St) (s : State) : State := s.modCore 0 fun c => { c with l1d :=
  [{ ctx := 0, vline := line0, line := line0, st := st, data := row9, tr := page, stamp := 0, lastStore := 0 }] }
/-- A walk whose level-two table is known, with the entry it reads. -/
def walking (pte : Nat) : State := (inMem 0x20_0080 (bytesOfNat 8 pte) State.reset).modQuad 0 fun q =>
  { q with walks := [{ ctx := 0, page := line0, kind := .read, sup := false }], wc := [{ ctx := 0, level := 2, va := 0, next := 0x20_0000, via := [] }] }
def walked (pte : Nat) (f : Nat → Bool) : Bool :=
  match (walking pte).tableTrack 0x20_0080 ((walking pte).tenancyOf 0) with
  | .ok s1 => f (entryIn (s1.readShared 0x20_0080).1 0x20_0080)
  | _ => false
/-- The walk of the quad that reads the entry at 0x20_0080, in a state without requests or marks for its line. -/
def reads (s : State) : Bool :=
  (s.quad 0).walks.head?.any fun r => (s.quad 0).wc.any fun w => w.next % 0x1_0000 == 0 && w.next + 8 * bitsOf r.page 28 16 == 0x20_0080
    && w.va == r.page / 0x2000_0000 * 0x2000_0000
/-- Neither lost nor in use. -/
def readable (s : State) : Bool := !(s.isLost 0x20_0080) && !(s.redirects 0x20_0080) && s.quiet 0x20_0080
def crowd : TrackEnt := { entry .i 0 [] true with slice := sliceOf 0x20_0080, base := 0x20_0080 + 128 * 63 }
/-- The slice of the table line has no entry free. -/
def crowded : State := { walking 3 with dir := List.replicate 8192 crowd }
def invalidating (at_ : Option Nat) (c : Nat) : State := { (cached .m State.reset).modQuad 0 fun q =>
  { q with tc := [page], tinv := [{ line := 0x8000, arrived := at_ }] } with cycle := c }
/-- A translation through the entry at 0x8008 that the walk read as `e`. -/
def through (e : Nat) (a d : Bool) : Trans := { page with leaf := 0x8008, seen := [e], aknown := a, dknown := d }

theorem test_meets_TranslationEvents :
    (∀ x ∈ [0, 0x11_0003, 0x11_0043, 0xD0_0000_0043], reads (walking x) = true ∧ readable (walking x) = true)
    ∧ walked 0 (fun e => leafCheck 0 3 e == some (.ptAbsent, 3)) = true
    ∧ walked 0x11_0003 (fun e => leafCheck 0 3 e == none && !(pteAttr e).permits .read false) = true
    ∧ walked 0x11_0043 (fun e => leafCheck 0 3 e == none && (pteAttr e).permits .read false && isBacked (pteFrame e)
      && bitsOf e 12 12 == 0) = true
    ∧ walked 0xD0_0000_0043 (fun e => leafCheck 0 3 e == none && (pteAttr e).permits .read false && !isBacked (pteFrame e)) = true
    ∧ (let s := { walking 3 with lostLines := [0x20_0080] }; reads s && s.isLost 0x20_0080) = true
    ∧ (let s := { walking 3 with msgs := [{ core := 0, line := 0x20_0080, toHome := false, kind := .wbAck }] }
      reads s && !(s.isLost 0x20_0080) && !(s.redirects 0x20_0080) && !(s.quiet 0x20_0080)) = true
    ∧ (let s := txn (.unc 0 []) .table (tracked (entry .i 0 [] true) State.reset);
      (s.txn? line0).any (·.wait == .table) && s.tableSharers line0 == [0]) = true
    ∧ (((invalidating none 0).quad 0).tinv.any fun x => x.line == 0x8000 && x.arrived == none) = true
    ∧ ((invalidating none 0).dirtyVia 0 0x8000).length = 1
    ∧ (∀ c ∈ [39, 40], (((invalidating (some 0) c).quad 0).tinv.find? (·.line == 0x8000)).any (·.arrived == some 0) = true
      ∧ (invalidating (some 0) c).drained 0x8000 0 = true) := by
  decide +kernel
/-- The walk must wait until what was formed from another table line has gone. -/
theorem crowded_evictee : crowded.evictee 0x20_0080 = some crowd := by
  have hold : ∀ n, (List.replicate n crowd).foldl (fun (a : Option TrackEnt) t => match a with
      | none => some t
      | some u => if t.used < u.used then some t else some u) (some crowd) = some crowd := by
    intro n
    induction n with
    | zero => rfl
    | succ n ih => simpa [List.replicate_succ] using ih
  have h : (crowd.slice == sliceOf 0x20_0080 && !crowded.entryBusy crowd && !crowd.covers 0x20_0080) = true := by decide +kernel
  rw [State.evictee, show crowded.dir = List.replicate 8192 crowd from rfl, List.filter_replicate, if_pos h,
    show 8192 = 8191 + 1 from rfl, List.replicate_succ, List.foldl_cons]
  exact hold 8191
theorem crowded_full : crowded.slotsUsed (sliceOf 0x20_0080) = 16384 := by
  have h : (crowd.slice == sliceOf 0x20_0080) = true := by decide +kernel
  have h2 : crowd.slots = 2 := by decide +kernel
  rw [State.slotsUsed, show crowded.dir = List.replicate 8192 crowd from rfl, List.filter_replicate, if_pos h, List.map_replicate, h2,
    List.sum_replicate_nat]
theorem crowded_other : crowded.track? 0x20_0080 = none := by
  have h : (!crowd.covers 0x20_0080) = true := by decide +kernel
  rw [State.track?, show crowded.dir = List.replicate 8192 crowd from rfl, List.find?_replicate, if_neg (by decide), if_neg]
  simpa using h
theorem crowded_own : crowded.tableSharers crowd.base = [0] := by
  have h : crowd.covers crowd.base = true := by decide +kernel
  rw [State.tableSharers, State.track?, show crowded.dir = List.replicate 8192 crowd from rfl, List.find?_replicate,
    if_neg (by decide), if_pos h]
  rfl
theorem crowded_reads : reads crowded = true ∧ readable crowded = true := by decide +kernel
theorem crowded_quiet : crowded.quiet crowd.base = true := by decide +kernel
theorem crowded_room : crowded.makeRoom 0x20_0080 1 17 = .busy (some crowd.base) := by
  have h : crowd.tshare.isEmpty = false := rfl
  rw [State.makeRoom, crowded_full, crowded_evictee, if_neg (by decide)]
  simp only [h, Bool.false_eq_true, if_false]
theorem tableTrack_full {s : State} {line ten : Nat} {b : Option Nat} (h : s.track? line = none) (hr : s.makeRoom line 1 17 = .busy b) :
    s.tableTrack line ten = .busy b := by
  simp only [State.tableTrack, h, hr]
theorem crowded_track (ten : Nat) : crowded.tableTrack 0x20_0080 ten = .busy (some crowd.base) :=
  tableTrack_full crowded_other crowded_room
theorem crowded_begin : (crowded.begin? (some crowd.base)).isSome = true := by
  simp [State.begin?, crowded_own, crowded_quiet]
theorem test_meets_TranslationEvents_crowded : reads crowded = true ∧ readable crowded = true
    ∧ crowded.tableTrack 0x20_0080 (crowded.tenancyOf 0) = .busy (some crowd.base) ∧ (crowded.begin? (some crowd.base)).isSome = true :=
  ⟨crowded_reads.1, crowded_reads.2, crowded_track _, crowded_begin⟩
/-- The use of a translation whose entry is as it was, has changed, or needs no bit. -/
theorem test_meets_TranslationEvents_use : let s := inMem 0x8008 (bytesOfNat 8 3) State.reset
    ((through 3 true true).size ≠ 0x20_0000 ∧ (through 3 true true).leaf % 8 = 0)
    ∧ (match s.useTrans 0 true (through 3 true false) with
      | .ok s1 => !(s1 == s)
      | _ => false) = true
    ∧ entryIn (s.coherentRow (lineOf 0x8008)) 0x8008 = 3 ∧ pteFixed 3 ≠ pteFixed 5 := by
  decide +kernel
/-- A pronoun over the line in a state, and the antecedent line. -/
def windowed (st : PnSt) (hlim : Nat) (s : State) : State := { s with pn := [{ pronoun with st := st, hlim := hlim, heat := 4 }] }
def ante : Nat := 0x10_1000
def anteTxn (s : State) : State := { s with homes :=
  [{ line := ante, req := .unc 0 [{ wg := 1, g := 0, seq := 0, lane := 0, va := ante, k := 0, off := 4, n := 1, what := .store [7] }],
     wait := .antecedent, data := none, answers := [], exact := false, heldWb := none, queue := [] }] }
/-- A record of a move of 32 frames, of which one is still to be released. -/
def moving (done : Bool) (frames expect : List Nat) (f : Stacker → Stacker) : State :=
  State.reset.modStacker 0 0 fun x => f { x with moves :=
    [{ ctx := 0, va := 0x20_0000, run := 0x40_0000, table := line0, expect := expect, done := done, frames := frames }] }
def atMove (s : State) (f : Move → Bool) : Bool :=
  ((s.stacker 0 0).moves.find? fun m => !m.done && m.ctx == 0 && m.va == 0x20_0000).any fun m =>
    decide (m.table % 256 = 0 ∧ isHbm (m.table + 255) = true ∧ s.quiet m.table = true ∧ s.quiet (m.table + 128) = true
      ∧ 0 < s.dies.length ∧ 0 < (s.die 0).stackers.length) && f m

theorem test_meets_WindowEvents :
    (let s := txn (.dir 0 .rd 0) .redirect (windowed .live 5 State.reset);
      (s.txn? line0).any (·.wait == .redirect) && s.redirects line0 && (s.lackAt line0).isNone
      && s.pn.all fun e => e.meets line0 128 && e.st != .resolving) = true
    ∧ (let s := windowed .hot 0 State.reset;
      s.pn.all fun e => e.die == 0 && e.st == .hot) = true
    ∧ (let s := anteTxn (windowed .live 0 State.reset);
      (s.txn? ante).any (fun x => x.wait == .antecedent && x.req.span == some (4, 1))
      && (s.anteOf (ante + 4) 1).any (·.st != .resolving)) = true
    ∧ (let s := windowed .resolving 0 State.reset;
      (s.pn.find? (·.id == 0)).any fun e => e.st == .resolving && decide (e.lo < e.hi) && e.lines == [line0]
        && !s.isLost line0 && (s.translated? [line0]).isNone) = true
    ∧ (let s := txn (.unc 0 []) .destination (windowed .live 0 State.reset);
      (s.txn? line0).any (·.wait == .destination) && !s.resolvingAt line0 && (s.lackAt line0).isNone
      && s.windowsOf line0 == s.pn
      && (s.translated? ((s.spills line0).filter (· != line0))).isNone) = true
    ∧ atMove (moving false [] [3] id) (fun m => (State.reset.leafGroup m.table).map pteFixed != m.expect.map pteFixed) = true
    ∧ (let s := moving false [] [3] fun x => { x with frbase := 0x6_0008, frlim := 0x6_0100 }
      atMove s (fun m => (s.mirrorsOf m.run).isEmpty && (match s.writePhys .dir ((s.stacker 0 0).frbase.toNat - 8) (bytesOfNat 8 m.run) with
        | .ok _ => true
        | _ => false))) = true
    ∧ (let s := moving false [] (List.replicate 32 0) id;
      atMove s fun m => (s.leafGroup m.table).map pteFixed == m.expect.map pteFixed
        && [m.table, m.table + 128].all fun l => !s.isLost l && (s.windowsOf l).isEmpty && (s.anteOf l 128).isEmpty
          && (s.mirrorOf l 128).isEmpty && (s.translated? [l]).isNone) = true
    ∧ (let s := { moving true [0x20_0000] [] id with pn := [{ pronoun with mirror := true, dbase := 0x40_0000, abase := 0x20_0000, st := .live }] };
      ((s.stacker 0 0).moves.find? (·.done)).any fun m => (s.mirrorsOf m.run).any fun e =>
        !s.stuck e && e.st != .resolving && e.lines.all s.quiet && (s.translated? e.lines).isNone) = true
    ∧ [(0x50_0100, 0), (0x50_0008, 1), (0x50_0000, 2)].all (fun (q : Nat × Nat) =>
      let s := moving true [0x20_0000, 0x21_0000] [] fun x => { x with rlbase := 0x50_0000, rllim := BitVec.ofNat 64 q.1 }
      ((s.stacker 0 0).moves.find? (·.done)).any fun m => (s.mirrorsOf m.run).isEmpty && (match s.releaseFrames 0 0 m.frames with
        | .ok (fs, _) => fs.length == q.2
        | _ => false)) = true := by
  decide +kernel

/-- Tables of context 0 that map 0x20_0000 to 32 pages that may move, and a free run of frames for Stacker 0 of die 0. -/
def movablePages : State :=
  { (inMem 0 (bytesOfNat 8 0x1_0003) <| inMem 0x1_0000 (bytesOfNat 8 0x2_0001) <| inMem 0x2_0000 (bytesOfNat 8 0x3_0001) <|
     inMem 0x6_0000 (bytesOfNat 8 0x40_0000) State.reset).modStacker 0 0 fun x =>
      { x with frbase := 0x6_0000, frlim := 0x6_0100, rllim := 0x100 } with
    l2 := [0, 16].map fun j =>
      { line := 0x3_0100 + 8 * j, dirty := true, stamps := { ws := 0, ls := 0, lv := false }
        data := BitVec.ofNat 1024 (((List.range 16).map fun k => (0x100_2043 + 0x1_0000 * (j + k)) * 2 ^ (64 * k)).sum) } }
theorem test_meets_WindowEvents_move :
    decide ((movablePages.die 0).fenced = false ∧ (movablePages.stacker 0 0).frbase ≠ (movablePages.stacker 0 0).frlim
      ∧ (movablePages.stacker 0 0).rlbase ≠ (movablePages.stacker 0 0).rllim ∧ movablePages.pnOnDie 0 + 1024 ≤ 8192
      ∧ movablePages.idxOnDie 0 + 1024 ≤ 8192) = true
    ∧ movablePages.leafPlace 0 0x20_0000 = some 0x3_0100 := by
  decide +kernel
/-- A state in which nothing but L2 holds a line, and no line is lost. -/
structure Bare (s : State) : Prop where
  cores : s.cores = []
  dir : s.dir = []
  homes : s.homes = []
  msgs : s.msgs = []
  marks : s.lostLines = []
  lost : ∀ l, s.isLost l = false
/-- Nothing of an entry lies where another one's window or antecedent does. -/
def apart (e n : PnEnt) : Bool :=
  e.st == .live && !e.anteMeets n.dbase n.dext && !e.meets n.abase n.aext && !e.meets n.dbase n.dext
/-- An entry of whole lines above all that L2 holds. -/
abbrev wholeLines (s : State) (n : PnEnt) : Prop :=
  n.dbase % 128 = 0 ∧ n.dext % 128 = 0 ∧ ∀ y ∈ s.l2, y.line < n.dbase
theorem wholeLines_line {s : State} {n : PnEnt} (h : wholeLines s n) {l : Nat} (hl : l ∈ linesOf n.dbase n.dext) :
    s.l2? l = none ∧ (decide (l < n.dbase) || decide (n.dbase + n.dext < l + 128)) = false := by
  obtain ⟨h1, h2, h3⟩ := h
  simp only [linesOf, List.mem_map, List.mem_range] at hl
  obtain ⟨k, hk, rfl⟩ := hl
  constructor
  · simp only [State.l2?, List.find?_eq_none, beq_iff_eq]
    intro y hy
    have := h3 y hy
    omega
  · simp only [Bool.or_eq_false_iff, decide_eq_false_iff_not]
    omega
theorem foldl_id {α β : Type} {f : β → α → β} {b : β} : ∀ {l : List α}, (∀ a ∈ l, f b a = b) → l.foldl f b = b
  | [], _ => rfl
  | a :: l, h => by
    rw [List.foldl_cons, h a (by simp)]
    exact foldl_id fun x hx => h x (by simp [hx])
theorem Bare.saveOwner {s : State} (h : Bare s) (l : Nat) : s.saveOwner l = s := by
  simp [State.saveOwner, State.owner?, h.cores]
theorem Bare.recordMirror {s : State} {n : PnEnt} (h : Bare s) (hn : wholeLines s n) (hp : ∀ e ∈ s.pn, apart e n = true) :
    s.recordMirror n = .ok { s with pn := s.pn ++ [{ n with id := s.nextPn }], nextPn := s.nextPn + 1 } := by
  have h0 := h
  obtain ⟨c1, c2, c3, c4, c6, c5⟩ := h0
  simp only [apart, Bool.and_eq_true, beq_iff_eq, Bool.not_eq_true'] at hp
  have e1 : (s.pn.filter fun e => e.anteMeets n.dbase n.dext || e.meets n.abase n.aext) = [] := by
    simp only [List.filter_eq_nil_iff]
    intro e he
    simp [(hp e he).1.1.2, (hp e he).1.2]
  have e2 : (s.pn.filter fun e => e.meets n.dbase n.dext) = [] := by
    simp only [List.filter_eq_nil_iff]
    intro e he
    simp [(hp e he).2]
  have e3 : (s.pn.filter fun e => e.meets n.dbase n.dext && !s.pnRoom e) = [] := by
    simp only [List.filter_eq_nil_iff]
    intro e he
    simp [(hp e he).2]
  have ends : ((linesOf n.dbase n.dext).filter fun l => decide (l < n.dbase) || decide (n.dbase + n.dext < l + 128)) = [] := by
    simp only [List.filter_eq_nil_iff]
    intro l hl
    simp only [(wholeLines_line hn hl).2, Bool.false_eq_true, not_false_eq_true]
  have die : ∀ l, s.dieLost l = false := fun l => by
    have := c5 l
    simp only [State.isLost, Bool.or_eq_false_iff] at this
    exact this.1
  have quiet : ∀ l, s.quiet l = true := fun l => by simp [State.quiet, c3, c4]
  have res : ∀ l, s.resolvingAt l = false := fun l => by
    simp only [State.resolvingAt, State.windowsOf, List.any_eq_false, List.mem_filter]
    intro e he
    simp [(hp e he.1).1.1.1]
  have trans : ∀ ls, s.translated? ls = none := fun ls => by
    simp [State.translated?, State.isTable, State.track?, c2]
  have cl : (linesOf n.dbase n.dext).foldl (fun s l => s.clearLost l) s = s := by
    apply foldl_id
    intro l _
    cases s
    simp only at c6
    subst c6
    rfl
  have cover : ∀ coh, ∀ l ∈ linesOf n.dbase n.dext, s.coverLine coh l = s := by
    intro coh l hl
    have hd : s.dropL2 l = s := by rw [State.dropL2, (wholeLines_line hn hl).1]
    have ht : s.takeBack l = s := by
      rw [State.takeBack, h.saveOwner]
      cases s
      simp only at c1
      subst c1
      rfl
    rw [State.coverLine, ht]
    simp [hd]
  have share : ∀ l, s.shareLine l = s := by
    intro l
    simp only [State.shareLine, h.saveOwner]
    cases s
    simp only at c1 c2
    subst c1 c2
    rfl
  have e4 : s.supersede n.dbase n.dext = s := by
    simp [State.supersede, hn.1, Nat.add_mod, hn.2.1, e2]
  have e5 : s.resolveSet [] = .ok s := by simp [State.resolveSet, trans]
  rw [State.recordMirror, e1, e5]
  simp only [State.enterEntry, ends, e3]
  have a1 : n.anteLines.find? s.isLost = none := by simp [c5]
  have a2 : ((linesOf n.dbase n.dext).find? fun l => s.dieLost l || s.isLost l && ([] : List Nat).contains l) = none := by simp [die]
  simp only [a1, a2, List.findSome?_nil]
  have a3 : ((linesOf n.dbase n.dext ++ n.anteLines).any (!s.quiet ·) || (linesOf n.dbase n.dext).any s.resolvingAt) = false := by
    simp [quiet, res]
  have a4 : ((linesOf n.dbase n.dext).any fun l =>
      cohAt [{ off := 0, n := n.dext, va := 0, place := .phys n.dbase, coh := .dir, normal := true }] l == .lse && !s.leaseFree l) = false := by
    have : ∀ l, (cohAt [{ off := 0, n := n.dext, va := 0, place := .phys n.dbase, coh := .dir, normal := true }] l == Coh.lse) = false := by
      intro l
      simp only [cohAt, List.find?_cons]
      split <;> rfl
    simp [this]
  have f1 : (linesOf n.dbase n.dext).foldl (fun s l => s.coverLine
      (cohAt [{ off := 0, n := n.dext, va := 0, place := .phys n.dbase, coh := .dir, normal := true }] l) l) s = s :=
    foldl_id fun l hl => cover _ l hl
  have f2 : n.anteLines.foldl (fun s l => s.shareLine l) s = s := foldl_id fun l _ => share l
  simp only [a3, a4, Bool.or_self, Bool.false_eq_true, if_false, trans, cl, e4, f1, f2]
theorem not_lost {s : State} (hm : s.lostLines = []) (hd : ∀ d ∈ s.dies, d.fenced = false ∧ ∀ b ∈ d.stackFenced, b = false) (l : Nat) :
    s.isLost l = false := by
  have h : ∀ d, (s.die d).fenced = false ∧ ∀ b ∈ (s.die d).stackFenced, b = false := by
    intro d
    rw [State.die]
    cases h : s.dies[d]? with
    | none => decide
    | some x => exact hd x (List.mem_of_getElem? h)
  have hs : ((s.die (homeDie l)).stackFenced[stackOf l]?).getD false = false := by
    cases h2 : (s.die (homeDie l)).stackFenced[stackOf l]? with
    | none => rfl
    | some b => simpa using (h _).2 b (List.mem_of_getElem? h2)
  simp [State.isLost, State.dieLost, (h _).1, hs, hm]
theorem test_meets_WindowEvents_none_lost : ∀ l, (windowed .resolving 0 State.reset).isLost l = false := not_lost rfl (by decide +kernel)
/-- Entries apart from each other and from those there are can all be recorded. -/
theorem Bare.recordMirrors : ∀ {ns : List PnEnt} {s : State}, Bare s → (∀ n ∈ ns, wholeLines s n) →
    (∀ n ∈ ns, ∀ e ∈ s.pn, apart e n = true) → ns.Pairwise (fun a b => apart a b = true) → ∃ t, s.recordMirrors ns = .ok t
  | [], s, _, _, _, _ => ⟨s, rfl⟩
  | n :: ns, s, h, hw, hp, hs => by
    rw [State.recordMirrors, h.recordMirror (hw n (by simp)) (hp n (by simp))]
    obtain ⟨h1, h2⟩ := List.pairwise_cons.mp hs
    refine recordMirrors ⟨h.cores, h.dir, h.homes, h.msgs, h.marks, h.lost⟩ (fun m hm => hw m (by simp [hm])) ?_ h2
    intro m hm e he
    rcases List.mem_append.mp he with he | he
    · exact hp m (by simp [hm]) e he
    · rw [List.mem_singleton.mp he]
      exact h1 m hm
theorem leafGroup_eq : movablePages.leafGroup 0x3_0100 = (List.range 32).map fun k => 0x100_2043 + 0x1_0000 * k := by decide +kernel
/-- The state after the free run has been read, and the entries of the move. -/
def runRead : State := match movablePages.readPhys 0x6_0000 8 with
  | .ok (_, s) => s
  | _ => State.reset
def mirrorsToBe : List PnEnt := (List.range 32).map fun k =>
  mirrorEnt 0 (0x40_0000 + 0x1_0000 * k) (pteFrame ((movablePages.leafGroup 0x3_0100).getD k 0))
theorem test_meets_WindowEvents_movable :
    movable movablePages.podid (0, 0) (movablePages.leafGroup 0x3_0100) = true
    ∧ (match movablePages.readPhys 0x6_0000 8 with
      | .ok (bs, s1) => bitsOf (natOfBytes bs) 51 21 * 0x20_0000 == 0x40_0000 && s1.pn.isEmpty
      | _ => false) = true := by
  rw [leafGroup_eq]
  decide +kernel
theorem runRead_bare : Bare runRead ∧ runRead.l2.map (·.line) = [0x3_0100, 0x3_0180, 0x6_0000] := by
  have h : (decide (runRead.cores = [] ∧ runRead.dir = [] ∧ runRead.homes = [] ∧ runRead.msgs = [] ∧ runRead.lostLines = []
    ∧ runRead.l2.map (·.line) = [0x3_0100, 0x3_0180, 0x6_0000]) && runRead.dies.all fun d => !d.fenced && d.stackFenced.all (!·)) = true := by
    decide +kernel
  simp only [Bool.and_eq_true, decide_eq_true_eq, List.all_eq_true, Bool.not_eq_true'] at h
  exact ⟨⟨h.1.1, h.1.2.1, h.1.2.2.1, h.1.2.2.2.1, h.1.2.2.2.2.1, not_lost h.1.2.2.2.2.1 h.2⟩, h.1.2.2.2.2.2⟩
theorem runRead_pn : runRead.pn = [] := by decide +kernel
theorem test_meets_WindowEvents_mirrors : ∃ t, runRead.recordMirrors mirrorsToBe = .ok t := by
  rw [mirrorsToBe, leafGroup_eq]
  refine runRead_bare.1.recordMirrors ?_ (by simp [runRead_pn]) (by decide +kernel)
  have h : ∀ n ∈ (List.range 32).map fun k =>
      mirrorEnt 0 (0x40_0000 + 0x1_0000 * k) (pteFrame (((List.range 32).map fun k => 0x100_2043 + 0x1_0000 * k).getD k 0)),
      n.dbase % 128 = 0 ∧ n.dext % 128 = 0 ∧ 0x6_0000 < n.dbase := by decide +kernel
  intro n hn
  refine ⟨(h n hn).1, (h n hn).2.1, fun y hy => ?_⟩
  have : y.line ∈ runRead.l2.map (·.line) := List.mem_map_of_mem hy
  rw [runRead_bare.2] at this
  have := (h n hn).2.2
  simp only [List.mem_cons, List.not_mem_nil, or_false] at *
  omega

def asks (k : ReqKind) (s : State) : State := sent true (.req (.dir 0 k 0)) s
/-- A request of core 0 is taken in its order, in the state that knows that it has come. -/
def took (s : State) (line : Nat) (r : HomeReq) (f : State → Bool) : Bool :=
  takes s line true fun m s0 => m == .req r && s0.inOrder 0 line && f (s0.reached 0 line)
/-- The request of a line that is not lost, with the entry that tracks it. -/
def tracks (s : State) (k : ReqKind) (f : Bool → State → TrackEnt → Bool) : Bool := took s line0 (.dir 0 k 0) fun s1 =>
  (s1.txn? line0).isNone && ((s1.core 0).miss? line0).isNone && !s1.refuses line0 (.dir 0 k 0)
  && (k == .rd || (s1.anteOf line0 128).isEmpty && !s1.mirrorResolving line0 0 128 && (s1.translated? [line0]).isNone
    && (s1.windowsOf line0).isEmpty)
  && (match s1.trackFor line0 (.dir 0 k 0) with
    | .ok (c, s2) => (s2.track? line0).any (f c s2)
    | _ => false)
/-- An idle line whose request is taken, with the one entry of its line. -/
def idle (k : ReqKind) (e : TrackEnt) (f : State → Bool) : Bool := took (asks k (tracked e State.reset)) line0 (.dir 0 k 0) fun s1 =>
  decide (s1.idleLine line0 ∧ e.exactFor 0 ∧ s1.track? line0 = some e) && s1.dir == [e] && f s1
/-- A pronoun whose antecedent is the line. -/
def under (s : State) : State := { s with pn := [{ pronoun with dbase := 0x10_1000, abase := line0 }] }
/-- A miss of core 0 for the line, with the accesses that wait for it. -/
def oneAcc (w : AccOp) : List Acc := [{ wg := 1, g := 0, seq := 0, lane := 0, va := line0, k := 0, off := 4, n := 1, what := w }]
def missing (k : ReqKind) (as : List Acc) (via : List Nat) (s : State) : State := s.modCore 0 fun c => { c with misses :=
  [{ line := line0, ctx := 0, vline := line0, kind := k, tr := { page with via := via }, accs := as }] }
/-- Every entry of the slice of a line is used, and is busy. -/
def packed : State := { State.reset with
  dir := List.replicate 8192 crowd
  homes := [{ line := crowd.base, req := .unc 0 [], wait := .table, data := none, answers := [], exact := false, heldWb := none, queue := [] }]
  msgs := [{ core := 0, line := 0x20_0080, toHome := true, kind := .req (.dir 0 .rd 0) }] }

theorem test_meets_LineRequests :
    took (txn (.dir 1 .rd 0) .redirect (asks .rd State.reset)) line0 (.dir 0 .rd 0) (fun s1 => (s1.txn? line0).isSome) = true
    ∧ took (asks .upg (tracked (entry .s 0 [] true) (missing .upg (oneAcc (.store [7])) [] State.reset))) line0 (.dir 0 .upg 0)
      (fun s1 => (s1.txn? line0).isNone && s1.isTable line0 && ((s1.core 0).miss? line0).isSome) = true
    ∧ took (asks .rd (State.reset.modDie 0 fun d => { d with fenced := true })) line0 (.dir 0 .rd 0) (fun s1 =>
      (s1.txn? line0).isNone && s1.refuses line0 (.dir 0 .rd 0)) = true
    ∧ took (asks .rfo (under State.reset)) line0 (.dir 0 .rfo 0) (fun s1 => (s1.txn? line0).isNone && !s1.isTable line0
      && (s1.mirrorOf line0 128).isEmpty && !s1.refuses line0 (.dir 0 .rfo 0) && !(s1.anteOf line0 128).isEmpty) = true
    ∧ took (asks .rfo (tracked (entry .i 0 [] true) State.reset)) line0 (.dir 0 .rfo 0) (fun s1 => (s1.txn? line0).isNone
      && ((s1.core 0).miss? line0).isNone && !s1.refuses line0 (.dir 0 .rfo 0) && (s1.anteOf line0 128).isEmpty
      && !s1.mirrorResolving line0 0 128 && (s1.translated? [line0]).isSome) = true
    ∧ took (asks .rfo (windowed .live 0 State.reset)) line0 (.dir 0 .rfo 0) (fun s1 => (s1.txn? line0).isNone
      && !s1.isTable line0 && (s1.mirrorOf line0 128).isEmpty && !s1.refuses line0 (.dir 0 .rfo 0)
      && (s1.anteOf line0 128).isEmpty && !s1.mirrorResolving line0 0 128 && (s1.translated? [line0]).isNone
      && !(s1.windowsOf line0).isEmpty) = true
    ∧ tracks (asks .rd (tracked (entry .x 7 [] false) State.reset)) .rd (fun c _ e => !(e.probes (.dir 0 .rd 0) c).isEmpty) = true
    ∧ tracks (asks .rd (windowed .live 0 State.reset)) .rd (fun c s2 e => (e.probes (.dir 0 .rd 0) c).isEmpty
      && s2.redirects line0) = true
    ∧ tracks (asks .rd State.reset) .rd (fun c s2 e => (e.probes (.dir 0 .rd 0) c).isEmpty && !s2.redirects line0) = true
    ∧ tracks (asks .rfoz State.reset) .rfoz (fun c _ e => (e.probes (.dir 0 .rfoz 0) c).isEmpty) = true := by
  decide +kernel
theorem test_meets_LineRequests_entries :
    idle .rd (entry .i 0 [] false) (fun s1 => !s1.sharedOnly line0) = true ∧ idle .rd (entry .i 0 [] true) (fun s1 => s1.sharedOnly line0) = true
    ∧ idle .rd (entry .s 0 [0] false) (fun _ => true) = true ∧ idle .rd (entry .s 0 [1, 2, 3] false) (fun _ => true) = true
    ∧ idle .rd (entry .s 0 [1, 2, 3, 4] false) (fun _ => true) = true ∧ idle .rd (entry .x 7 [] false) (fun _ => true) = true
    ∧ idle .rfo (entry .o 7 [0, 2] false) (fun s1 => decide (s1.plainLine line0)
      && (entry .o 7 [0, 2] false).ownProbes 0 == [(7, .fwdRfo), (2, .inv)]) = true
    ∧ idle .rfoz (entry .s 7 [0] false) (fun s1 => decide (s1.plainLine line0) && (entry .s 7 [0] false).ownProbes 0 == []) = true := by
  decide +kernel
/-- The slice of the line has no entry that could go. -/
theorem test_meets_LineRequests_packed : packed.trackFor 0x20_0080 (.dir 0 .rd 0) = .busy none
    ∧ (packed.take? 0 0x20_0080 true).any (fun m => m.1 == .req (.dir 0 .rd 0)) = true := by
  have hs : packed.slotsUsed (sliceOf 0x20_0080) = 16384 := crowded_full
  have hb : packed.evictee 0x20_0080 = none := by
    have h : (crowd.slice == sliceOf 0x20_0080 && !packed.entryBusy crowd && !crowd.covers 0x20_0080) = false := by decide +kernel
    rw [State.evictee, show packed.dir = List.replicate 8192 crowd from rfl, List.filter_replicate, if_neg (by rw [h]; decide)]
    rfl
  have hr : packed.makeRoom 0x20_0080 1 17 = .busy none := by rw [State.makeRoom, hs, hb, if_neg (by decide)]
  have ht : packed.track? 0x20_0080 = none := crowded_other
  refine ⟨?_, by decide +kernel⟩
  generalize packed = s at hr ht
  simp only [State.trackFor, ht, hr]

def acksOf (held : Option L1St) (d : Option Row) (k : ReqKind) (cs : List Nat) (owner : Nat) : State :=
  tracked (entry .x owner [] false) (txn (.dir 5 k 0) (.acks cs) (sent true (.answer held d false) State.reset))
def answered (s : State) (cs : List Nat) (f : State → Bool) : Bool := takes s line0 true fun m s1 => (match m with
    | .answer .. => true
    | _ => false)
  && ((s1.txn? line0).any fun x => decide (x.wait = .acks cs ∧ x.heldWb = none ∧ x.queue = [] ∧ x.answers = [])) && f s1
/-- A copy in the L1, in the write-back buffer, or none. -/
def probed (s : State) (k : ProbeKind) (f : Option L1Line → Option WbEnt → Bool) : Bool :=
  takes (sent false (.probe k true 0) s) line0 false fun m s1 => m == .probe k true 0 && f
    ((s1.core 0).l1d.find? fun l => l.line == line0 && l.st != .lse && s1.probeSees 0 true 0 l.ctx)
    ((s1.core 0).wbuf.find? fun w => w.line == line0 && s1.probePasses 0 true 0)

theorem test_meets_LineRequests_answers :
    ([ProbeKind.fwdRd, .fwdRfo, .inv].all fun k => probed (cached .m State.reset) k (fun l _ => l.isSome)
      && probed (State.reset.modCore 0 fun c => { c with wbuf := [{ line := line0, data := row9 }] }) k (fun l w => l.isNone && w.isSome)
      && probed State.reset k (fun l w => l.isNone && w.isNone)) = true
    ∧ answered (acksOf none none .rfo [0, 3] 0) [0, 3] (fun _ => true) = true
    ∧ answered (acksOf (some .m) (some row9) .upg [0] 0) [0] (fun _ => true) = true
    ∧ answered (acksOf none none .rd [0] 0) [0] (fun s1 => !s1.redirects line0 && (s1.track? line0).isSome) = true
    ∧ answered (acksOf (some .m) (some row9) .rd [0] 0) [0] (fun s1 => (s1.track? line0).any fun e =>
      decide (e.exactFor 0 ∧ e.st = .x ∧ e.owner = 0)) = true := by
  decide +kernel

/-- A grant meets a miss, which takes its accesses apart where the line is Shared. -/
def granted (s : State) (st : L1St) (f : State → Miss → Bool) : Bool :=
  takes (sent false (.grant st none 5) s) line0 false fun m s1 => m == .grant st none 5 && ((s1.core 0).miss? line0).any (f s1)
def rooms (s1 : State) (m : Miss) : Bool :=
  decide (((s1.modCore 0 fun c => { c with misses := c.misses.filter (· != m) }).core 0).hasWay m.ctx m.vline)
/-- What came back is taken by the core or by the home. -/
def comes (k : MsgKind) (home : Bool) (s : State) (f : State → Bool) : Bool :=
  takes (sent home k s) line0 home fun m s1 => m == k && f s1
def reqOf (r : HomeReq) (s : State) : State := sent true (.req r) s
/-- A request to an idle line whose writes meet no antecedent. -/
def free (s : State) (r : HomeReq) (as : List Acc) (f : State → Bool) : Bool := took (reqOf r s) line0 r fun s1 =>
  decide (s1.idleLine line0 ∧ s1.isTable line0 = false)
  && ((spanOf as).all fun q => (s1.anteOf (line0 + q.1) q.2).isEmpty && (s1.mirrorOf (line0 + q.1) q.2).isEmpty) && f s1
/-- The line in L2 with a lease. -/
def leased (c : Nat) : State := { State.reset with
  cycle := c, l2 := [{ line := line0, data := row9, dirty := false, stamps := { ws := 0, ls := 100, lv := true } }] }
def aStored : List Acc := oneAcc (.store [7])
def wide : TrackEnt := { entry .x 0 [] false with k := 8 }

theorem test_meets_HomeEvents_grant :
    comes (.grant .m none 5) false State.reset (fun s1 => ((s1.core 0).miss? line0).isNone) = true
    ∧ granted (missing .rfo aStored [0] State.reset) .m (fun s1 m => !s1.transGone 0 m.tr && rooms s1 m) = true
    ∧ [[0], []].all (fun via => granted (missing .rd aStored via State.reset) .s (fun s1 m =>
      !(splitLoads m.accs).2.isEmpty && s1.transGone 0 m.tr == via.isEmpty)) = true
    ∧ comes (.refuse 0) false State.reset (fun s1 => ((s1.core 0).miss? line0).isNone) = true
    ∧ comes (.refuse 0) false (missing .rd [] [] State.reset) (fun s1 => ((s1.core 0).miss? line0).isSome) = true
    ∧ comes .wbAck false State.reset (fun _ => true) = true := by
  decide +kernel
theorem test_meets_HomeEvents_back :
    comes (.wb row9) true (txn (.dir 5 .rd 0) (.acks [0]) State.reset) (fun s1 => (s1.txn? line0).any fun x => x.wait == .acks [0]) = true
    ∧ comes (.wb row9) true State.reset (fun s1 => (s1.txn? line0).isNone && (s1.track? line0).isNone) = true
    ∧ comes (.wb row9) true (tracked wide State.reset) (fun s1 => (s1.txn? line0).isNone && s1.track? line0 == some wide && !wide.isLine) = true
    ∧ comes (.wb row9) true (tracked (entry .x 0 [] false) State.reset) (fun s1 => (s1.txn? line0).isNone
      && (s1.track? line0).any fun e => decide (e.isLine = true ∧ e.st = .x ∧ e.owner = 0)) = true
    ∧ comes .clean false State.reset (fun s1 => ((s1.core 0).l1? line0).isNone) = true
    ∧ [L1St.m, .o].all (fun st => [0, 0x40 * 1000].all fun c => comes .clean false { cached st State.reset with cycle := c } fun s1 =>
      ((s1.core 0).l1? line0).any fun l => decide (l.st = st ∧
        (l.lastStore + max 1 (bitsOf (s1.die (homeDie line0)).rakectl.toNat 19 8) ≤ s1.tick ↔ c ≠ 0))) = true
    ∧ comes .clean false (cached .e State.reset) (fun s1 => ((s1.core 0).l1? line0).any (·.st == .e)) = true := by
  decide +kernel
theorem test_meets_HomeEvents_raker : homeDie line0 = 0 ∧ (State.reset.die 0).fenced = false
    ∧ (let s := State.modDie { leased 0 with l2 := [{ line := line0, data := row9, dirty := true, stamps := { ws := 0, ls := 100, lv := true } }] } 0
        fun d => { d with rakectl := BitVec.ofNat 64 (2 ^ 20 + 7) }
      bitsOf (s.die 0).rakectl.toNat 0 0 = 1 ∧ bitsOf (s.die 0).rakectl.toNat 23 20 ≠ 0 ∧ bitsOf (s.die 0).rakectl.toNat 1 1 = 1
        ∧ (s.l2? line0).any (·.dirty) = true)
    ∧ (let s := State.modDie (tracked (entry .x 0 [] false) { State.reset with cycle := 1000 }) 0
        fun d => { d with rakectl := BitVec.ofNat 64 (2 ^ 20 + 7) }
      s.quiet line0 = true ∧ (s.track? line0).any (fun e => decide (e.st = .x
        ∧ e.ownAt + max 1 (bitsOf (s.die 0).rakectl.toNat 19 8) < s.tick ∧ s.requestsOf e.owner < 3584)) = true) := by
  decide +kernel
theorem test_meets_HomeEvents :
    (State.core { cached L1St.lse State.reset with cycle := 100000 } 0).l1d.any (fun l => l.line == line0 && l.st == .lse && !l.leased 50000) = true
    ∧ [State.reset, leased 0].all (fun s => [0, 16].all fun n => free s (.lseRead 0 n 0 line0 { page with via := [0] } []) [] fun s1 =>
      !s1.transGone 0 { page with via := [0] } && decide ((s1.core 0).hasWay 0 line0)) = true
    ∧ [0, 100000].all (fun c => free (leased c) (.lseStore 0 aStored) aStored fun s1 =>
      (spanOf aStored).isSome && decide (s1.tick < s1.performTick line0 ↔ c = 0)) = true
    ∧ [0, 9].all (fun tp => let s := txn (.lseStore 0 aStored) (.perform tp) State.reset;
      (s.txn? line0).any (fun x => x.wait == .perform tp && x.queue.isEmpty) && (s.windowsOf line0).isEmpty && s.tick == 0
      && !s.isTable line0 && (s.anteOf (line0 + 4) 1).isEmpty && (s.mirrorOf (line0 + 4) 1).isEmpty) = true
    ∧ free State.reset (.unc 0 aStored) aStored (fun _ => !isReg line0) = true
    ∧ free State.reset (.atomic 0 aStored) aStored (fun s1 => (s1.track? line0).isNone) = true
    ∧ [entry .i 0 [] false, entry .x 7 [] false].all (fun e => free (tracked e State.reset) (.atomic 0 aStored) aStored fun s1 =>
      match s1.trackFor line0 (.atomic 0 aStored) with
      | .ok (c, s2) => (s2.track? line0).any fun e => (e.probes (.atomic 0 aStored) c).isEmpty == (e.st == .i)
      | _ => false) = true := by
  decide +kernel
/-- An access to a register of the device. -/
theorem test_meets_HomeEvents_register :
    let r : HomeReq := .unc 0 (oneAcc .load)
    let s : State := { start with msgs := [{ core := 0, line := regBase, toHome := true, kind := .req r }] }
    took s regBase r (fun s1 => decide (s1.idleLine regBase) && (s1.wg? 1).isSome) = true ∧ isReg regBase = true := by
  decide +kernel
/-- A KVSEAL whose records are read, at the home of its descriptor. -/
def tokenOp (f : TokenOp → TokenOp) (q0 : Nat) : State :=
  let s := ran (tokens (lanes (putA 4 0x10_0040))) (.kvseal c0 (r 4))
  { s with tokenQ := s.tokenQ.map fun q => if q0 = 0 then f q else q }
def ofToken (s : State) (f : TokenOp → Group → Op → Bool) : Bool := s.tokenQ.head?.any fun q =>
  (s.group? q.wg q.g).any fun gr => (gr.op? q.seq).any fun o => f q gr o
/-- The same array at its parity member, with the devices of its members at 0x10_5000. -/
def parityMember : State := inMem 0x10_0048 (bytesOfNat 8 0x10_5000) (inMem (0x10_0040 + 20) [0, 1] (tokens State.reset))

/-- The result of a reading of records. -/
def readsAs {α : Type} (m : TokM α) (s : State) : Option (α × State) := match m.run s with
  | .ok r => some r
  | _ => none
def okOf {α : Type} : Coll α → Option α
  | .ok a => some a
  | _ => none
/-- The operation at the head of its line, before its first read, its first row, and its update. -/
def seg (pa : Nat) : Seg := { off := 0, n := 16, va := pa, place := .phys pa, coh := .dir, normal := true }
def opAt (src rows : List Seg) (parity : Option Nat) (f : State → TokenOp → Op → Bool) : Bool :=
  let s := tokenOp (fun q => { q with src := src, rows := rows, parity := parity, seals := [3], folds := [(3, [seg 0x10_6000])] }) 0
  ofToken s fun q gr o => q.step == .none && !q.givesBack && s.engClear q.wg q.g gr o && f s q o
def foldsSent (s : State) (q : TokenOp) : Option State := match q.parity with
  | none => some s
  | some p => okOf (s.sendFolds p q.folds (q.seals ++ (q.frees.filter (·.2)).map (·.1)))
def atPool (st : PoolStep) (s : State) : State := { s with tokenQ := (tokenOp id 0).tokenQ.map fun q =>
  { q with step := st, pool := 0x10_2000, poolVa := 0x10_2000 } }
/-- Three slots of the pool are free. -/
def threeFree (s : State) : State := inMem 0x10_2000 (bytesOfNat 32 (0x10_8000 * 2 ^ 192 + 0x10_7000 * 2 ^ 128 + 4 * 2 ^ 107 + 3 * 2 ^ 86 + 2 * 2 ^ 48)) s
def freed (folding : Option Nat) : SlotFree :=
  { ctx := 0, core := 0, sup := false, record := 0x10_0040, pool := 0x10_2000, line := 0x10_2000, slot := 0, wg := 1, g := 0, seq := 0
    readers := [], folding := folding, mirror := none }

theorem test_meets_TokenEvents :
    opAt [seg 0x10_5000] [] none (fun s q o => ((segLines q.src)[o.res.length]?).any fun l => (okOf (s.readLine l)).isSome) = true
    ∧ opAt [] [seg 0x10_5000] none (fun s q o => (segLines q.src)[o.res.length]? == none
      && ((segLines q.rows)[o.step]?).any fun l => (okOf (s.rowStep q o l)).isSome) = true
    ∧ [(none : Option Nat), some 3].all (fun peer => opAt [] [] peer fun s q o => (segLines q.src)[o.res.length]? == none
      && (segLines q.rows)[o.step]? == none && (foldsSent s q).any fun s0 =>
          (okOf (s0.putRecords q.writes)).any fun s1 => (s1.group? q.wg q.g).any fun gr => (gr.op? q.seq).isSome) = true := by
  decide +kernel
theorem test_meets_TokenEvents_pool :
    [PoolStep.reserve 5, .reserve 4, .pop 1, .unreserve 1].all (fun st => let s := atPool st (tokenOp id 0)
      (s.tokenQ.find? fun t => t.step != .none && lineOf t.pool == 0x10_2000 && !t.givesBack).any fun q =>
        (okOf (s.readPhys q.pool 32)).any fun r =>
          let p : TokPool := { pa := q.pool, bits := BitVec.ofNat 256 (natOfBytes r.1) }
          p.free == 4 && p.rsvd == 0 && (okOf (r.2.writePhys .dir q.pool (p.count 4 1).bytes)).isSome) = true
    ∧ (let s := atPool (.back [0]) (threeFree (tokenOp id 0));
      s.tokenQ.all (fun t => t.givesBack) && s.tokenQ.head?.any fun q => q.step == .back [0] && lineOf q.pool == 0x10_2000
        && (readsAs (pushPlan q.who q.record q.poolVa 1 [0]) s).any fun r => (okOf (r.2.putRecords r.1)).isSome) = true
    ∧ (let s := { threeFree (tokens State.reset) with slotFrees := [freed none] };
      (s.slotFrees.find? fun f => f.line == 0x10_2000 && s.pushReady f).any fun f =>
        (readsAs (pushPlan { core := f.core, ctx := f.ctx, sup := f.sup, own := none } f.record f.pool 0 [f.slot]) s).any fun r =>
          (okOf (r.2.putRecords r.1)).isSome) = true := by
  decide +kernel
/-- The device's reading of slot 0 of an array, by its member. -/
def slotOf (s : State) (k : Kind) (f : TokArr → List Piece → List Byte → State → Bool) : Bool :=
  (readsAs ((deviceWho 0).slot 0x10_0040 0 k) s).any fun r => f r.1.1 r.1.2.1 r.1.2.2 r.2
/-- It can be written. -/
def refills (a : TokArr) (ps : List Piece) (bs : List Byte) (s1 : State) : Bool :=
  a.pmember == 8 && (okOf (s1.putSlot ps (xorBytes bs bs))).isSome
theorem test_meets_TokenEvents_parity :
    ((0, 0x10_0040, 0, some 7) ∈ ({ tokens State.reset with parityHold := [(0, 0x10_0040, 0, some 7)] } : State).parityHold)
    ∧ slotOf parityMember .both refills = true
    ∧ slotOf parityMember .read (fun a _ _ s1 => a.pmember == 8 && (readsAs ((deviceWho 0).parity a) s1).any (fun r => r.2.parityHold.isEmpty)) = true
    ∧ slotOf (tokens State.reset) .read (fun a _ _ s1 => a.pmember != 8 && (readsAs ((deviceWho 0).countsIn a 0 a.nseq) s1).any (!·.1)) = true
    ∧ slotOf { tokens State.reset with
        slotFrees := [freed (some 3)], peers := [(3, { Peer.empty with unacked := [{ seq := 0, flit := .fold 0 [], port := 0, tick := 0 }] })] }
      .read (fun a _ _ s1 => a.pmember != 8 && s1.foldsOut 3 0 && (readsAs ((deviceWho 0).countsIn a 0 a.nseq) s1).isSome) = true := by
  decide +kernel
/-- What the parity member holds for slot 0, and the fold that waits there. -/
def holdsFor (peer : Option Nat) (folds : List (Nat × Nat × Nat × List Byte)) : State :=
  { parityMember with parityHold := [(0, 0x10_0040, 0, peer)], foldHeld := folds }
theorem test_meets_TokenEvents_answers :
    [some 7, none].all (fun peer => let s := holdsFor peer [];
      s.rebuilds.isEmpty && s.parityHold.find? (fun k => k.1 == 0 && k.2.2.1 == 0) == some (0, 0x10_0040, 0, peer)) = true
    ∧ ([none, none, none, none, none, none, none] : List (Option (List Byte))).length = 7
    ∧ xorAll [some [1], some [3], some [0], some [0], some [0], some [0], some [4]] = some [6]
    ∧ slotOf (holdsFor (some 7) []) .read (fun _ _ _ _ => true) = true
    ∧ (let s := holdsFor none [(0, 0x10_0040, 0, [])];
      (s.foldHeld.find? fun f => f.1 == 0 && f.2.1 == 0x10_0040 && f.2.2.1 == 0) == some (0, 0x10_0040, 0, [])
      && slotOf s .both refills) = true := by
  decide +kernel
/-- A rebuild of the entry at 0x10_4000, which is LOST or, where the sequence has gone, EMPTY. -/
def rebuilding (e : List Byte) : State := { inMem 0x10_4000 e (tokens State.reset) with
  rebuilds := [{ ctx := 0, core := 0, sup := false, record := 0x10_0040, slot := 0, entry := 0x10_4000, failed := false }] }
theorem test_meets_TokenEvents_rebuilds :
    ((rebuilding []).rebuilds.find? fun r => r.ctx == 0 && r.entry == 0x10_4000 && !r.failed).isSome = true
    ∧ xorAll (List.replicate 8 none) = none ∧ xorAll (List.replicate 8 (some [3])) = some [0]
    ∧ [([0, 0], 0), ([0x40, 1], 5)].all (fun (x : List Byte × Nat) => let c : Who := { core := 0, ctx := 0, sup := false, own := none }
      (readsAs (c.slot 0x10_0040 0 .write) (rebuilding x.1)).any fun r1 => (readsAs (c.pieces .table .both 0x10_4000 8) r1.2).any fun r2 =>
        (readsAs (c.fetch r2.1) r2.2).any fun r3 =>
          let e := TokEnt.ofNat 0 (natOfBytes r3.1)
          e.st == x.2 && (okOf (r3.2.putSlot r1.1.2.1 [0])).any fun s4 =>
            (okOf (s4.putRecords (r2.1.map fun p => (p.pa, { e with st := 2 }.bytes)))).isSome) = true := by
  decide +kernel
/-- A record of one workgroup of `n` threads in context 0, with priority `prio`, and DONE at `done`. -/
def record (n prio preempt done : Nat) : BitVec 1024 := BitVec.ofNat 1024 (0x1_0000 * 2 ^ 960 + done * 2 ^ 704
  + 2 ^ 423 + 2 ^ 430 + 2 ^ 437 + 2 ^ 444 + n * 2 ^ 406 + prio * 2 ^ 388 + preempt * 2 ^ 387 + 1)
def launching (raw : BitVec 1024) (ctx : Nat) : State := { start with launches := [{ raw := raw, ctx := ctx, sup := false, wg := 1, g := 0, seq := 1, mail := none }] }
def queued (resv : Bool) (c : Nat) : State := { State.reset.setQueue 2
  [{ handle := 5, raw := record 40 2 0 0, launcher := 0, arrived := 0, reserving := resv, resume := none }] with cycle := c }
/-- The page is known to the control core as well. -/
def known (s : State) : State := (mapped s).modQuad 256 fun q => { q with tc := [page] }
/-- A workgroup whose groups have ended, with DONE at `done`. -/
def ending (done : Nat) (kill : Option Nat) : State := (known (start.modWg 1 fun w => { w with
  raw := w.raw ||| BitVec.ofNat 1024 (done * 2 ^ 704), kill := kill })).modGroup 1 0 fun gr => { gr with ended := true }
def inWg (s : State) (f : Workgroup → Bool) : Bool := (s.wg? 1).any f
def stopping (b : Bool) : State := known ((lanes fun gr => if b then { gr with ended := true } else gr).modWg 1 fun w =>
  { w with evict := .stopping, raw := w.raw ||| BitVec.ofNat 1024 (0x10 * 2 ^ 309) })
/-- A workgroup of the shadow bank on core 0. -/
def shadowed (f : Front) (t : Option Nat) (ended : Bool) : State := ((lanes fun gr => { gr with ended := ended }).modWg 1 fun w =>
  { w with raw := w.raw ||| BitVec.ofNat 1024 (2 ^ 387), shadow := true }).modCore 0 fun c => { c with front := f, tenancy := (none, t) }

/-- Nothing of the package is free for the head. -/
def allFenced (resv : Bool) (c : Nat) : State := { queued resv c with dies := State.reset.dies.map fun d => { d with fenced := true } }
/-- The page lies at a peer. -/
def far (s : State) : State := s.modQuad 256 fun q => { q with tc := [{ page with pa := 2 ^ 51 + 0x10_0000, attr := { page.attr with coh := .unc } }] }
/-- What DONE is read and written through, at a peer or not. -/
def doneAt (s : State) (peer : Bool) : Bool := match s.chkRange 1024 0 true .both true 0x10_0008 8 with
  | .pieces ps => ps.head?.any fun p => isPeer p.pa == peer && (if peer then (got (s.usePieces 1024 true ps)).isSome
    else (got (s.readPieces ps)).any fun r => (got (r.2.writePieces 1024 ps (bytesOfNat 8 1))).isSome)
  | _ => false

theorem test_meets_LaunchEvents :
    (let w := unplaced 0 (record 40 2 0 0);
      w.formatOk && (launching (record 40 2 0 0) 0).gangOk w && w.ctx == 0 && !w.preempt
      && decide ((start.queue w.prio).length < 1024 ∧ (start.wgs.map (·.1) ++ (start.queues.flatMap id).map (·.handle)).length < 2 ^ 24)) = true
    ∧ (unplaced 0 (record 0 2 0 0)).formatOk = false
    ∧ (let w := unplaced 0 (record 40 7 1 0); w.formatOk && w.preempt && w.ctx != 3) = true
    ∧ (let s := queued false 0;
      (s.queue 2).any (fun q => q.dead.gang == 0 && q.resume.isNone
        && ((s.setQueue 2 []).choose q.dead (s.tenancyOf q.dead.ctx)).isSome)
      && (s.queue 3 ++ s.queue 4 ++ s.queue 5 ++ s.queue 6 ++ s.queue 7).isEmpty && s.queues.length == 8) = true
    ∧ [(true, 0), (false, 1024 * 1000)].all (fun k => let s := allFenced k.1 k.2
      (s.queue 2).any (fun q => q.dead.gang == 0 && q.resume.isNone && (q.reserving || decide (q.arrived + 1024 ≤ s.tick))
        && ((s.setQueue 2 []).choose q.dead (s.tenancyOf q.dead.ctx)).isNone)) = true
    ∧ [(false, 1024 * 1000), (true, 0)].all (fun k =>
      let s := queued k.1 k.2; (s.queue 2).any fun q => q.reserving == k.1 && decide (q.arrived + 1024 ≤ s.tick ↔ k.1 = false)) = true := by
  decide +kernel
/-- A load waits at its granule, and the matrix unit has an operation of the group. -/
def halfway : State := (State.modCore (ran { ran (withLocal (lanes (putV 4 [0x10]))) (.mzero c0 (mt 2)) with cycle := 1 } (aLoad .l)) 0
  fun c => { c with bankQ := [] }).modWg 1 fun w => { w with evict := .stopping }
theorem test_meets_LaunchEvents_ends :
    [0, 0x10_0008].all (fun d => let s := ending d none;
      inWg s fun w => decide (w.kill = none ∧ w.groups ≠ [] ∧ (∀ g ∈ w.groups, g.2.ended = true ∧ g.2.ops = []) ∧ w.lastTime ≤ s.tick
        ∧ w.doneAddr = d)) = true
    ∧ [0, 0x10_0008].all (fun d => let s := ending d (some 0xFD);
      inWg s fun w => w.kill == some 0xFD && !(s.dropWork 1).wgInFlight 1 && w.doneAddr == d && decide (w.lastTime ≤ s.tick)) = true
    ∧ doneAt (ending 0x10_0008 none) false = true ∧ doneAt (far (ending 0x10_0008 none)) true = true
    ∧ doneAt ((ending 0x10_0008 (some 0xFD)).dropWork 1) false = true ∧ doneAt ((far (ending 0x10_0008 (some 0xFD))).dropWork 1) true = true
    ∧ inWg (stopping false) (fun w => w.evict == .stopping && w.kill.isNone) = true
    ∧ (let s1 := halfway.stopWaiters 1 0;
      inWg halfway (fun w => w.groups.map (·.1) == [0] && w.evict == .stopping && w.kill.isNone) && inWg s1 (fun w => !w.drained)
      && s1 != halfway) = true
    ∧ (let s := stopping true;
      let s1 := s.stopWaiters 1 0;
      inWg s (fun w => w.groups.map (·.1) == [0]) && inWg s1 fun w => w.drained && (match (s1.setWg 1 w.dissolve).saveAll w.dissolve with
        | .ok _ => true
        | _ => false)) = true := by
  decide +kernel
theorem test_meets_LaunchEvents_swaps :
    [(none, Front.primary), (some 0, .primary), (some 0, .toPrimary 9), (some 1, .primary)].all (fun (t : Option Nat × Front) =>
      let s := shadowed t.2 t.1 false;
      ((s.residents 0 true).head?.any fun w => w.tenancy == 0) && s.shadowBusy 0 && (s.core 0).tenancy.2 == t.1) = true
    ∧ [Front.shadow, .toShadow 9].all (fun f => !(shadowed f (some 0) true).shadowBusy 0) = true
    ∧ (State.reset.cycle % 32 = 0 ∧ ([(0, 9), (3, 2)].map (·.1) : List Nat).Nodup) := by
  decide +kernel
/-- A command of agent 9 on context 0, its workgroup 1 and its group 0. -/
def command (op path arg wg : Nat) : BitVec 128 := BitVec.ofNat 128 (op * 2 ^ 124 + wg * 2 ^ 88 + path * 2 ^ 75 + arg)
def theRight : Right := { target := 0, agent := 9, revoking := false, trace := false, bkpten := false, stalls := [] }
def debugging (c : BitVec 128) (s : State) : State := { s with rights := [theRight], dbgQ := [{ agent := 9, cmd := c }] }
/-- The command is the oldest, its agent has the right, and it names the group of `start`. -/
def commands (s : State) (op : Nat) (c : BitVec 128) (f : State → Group → Bool) : Bool :=
  (s.takeCmd 9 (· == op)).any fun q => q.1 == c && s.rights.any (fun r => r.target == cmdCtx c && r.agent == 9)
    && cmdWg c == 1 && cmdGroup c == 0 && inG s fun w gr => w.ctx == cmdCtx c && gr.started && !gr.ended && f q.2 gr
/-- A halted group whose image is at 0x120_0000, and one that is to be halted. -/
def saving (h : Bool) : State := ((lanes fun gr => { gr with halted := h, vhold := 0, mhold := 0 }).modWg 1 fun w =>
  { w with raw := w.raw ||| BitVec.ofNat 1024 (0x20 * 2 ^ 309) }).modQuad 0 fun q =>
    { q with tc := [{ page with va := 0x120_0000, size := 0x20_0000, pa := 0x120_0000 },
      { page with va := 0x1_0000, pa := 0x1_0000 }] }
def toHalt : State := { debugging (command 4 0 0 1) (saving false) with halting := [{ agent := 9, wg := 1, g := 0 }] }
def stalled : State := { sampling 0x10_0020 false false with
  cycle := 5000, rights := [{ theRight with stalls := [{ wg := 1, period := 1, start := 0, seen := [] }] }] }
def stalling : State := stalled.modGroup 1 0 fun gr => gr.modPath 0 fun p => { p with st := .blocked, wait := some .barrier }

/-- The 200 KiB of an image that HALT stores and RESTORE reads are too many for the kernel to move here. -/
theorem test_meets_DebugEvents :
    [(0, Instr.dbgNop 9), (8, .bkpten 9)].all (fun k => (({ start with dbgQ := [{ agent := 9, cmd := command k.1 0 0 1 }] } : State).takeCmd
      9 (· == k.1)).isSome) = true
    ∧ (({ start with dbgQ := [{ agent := 9, cmd := command 9 0 0 1 }] } : State).takeCmd 9 (fun op => 8 < op)).isSome = true
    ∧ [0, 1, 2, 3].all (fun op => let c := command op 0 0 1; commands (debugging c start) op c fun _ gr => (gr.path 0).st != .free) = true
    ∧ (let c := command 1 3 0 1; commands (debugging c start) 1 c fun _ gr => cmdPath c == 3 && (gr.path 3).st == .free) = true
    ∧ (let c := command 1 0 0 2;
      ((debugging c start).takeCmd 9 (· == 1)).isSome && ((debugging c start).wg? (cmdWg c)).isNone) = true
    ∧ (let c := command 4 0 0 1; commands (debugging c start) 4 c fun _ gr => !gr.halted && (debugging c start).halting.isEmpty) = true
    ∧ (let c := command 4 0 0 1; commands (debugging c (saving true)) 4 c fun _ gr => gr.halted) = true
    ∧ commands toHalt 4 (command 4 0 0 1) (fun _ _ => inG (toHalt.stopWaiters 1 0) fun _ gr => gr.ops.isEmpty) = true
    ∧ (let s := { debugging (command 4 0 0 1) cleared with halting := [{ agent := 9, wg := 1, g := 0 }] };
      commands s 4 (command 4 0 0 1) fun _ _ => inG (s.stopWaiters 1 0) fun _ gr => !gr.ops.isEmpty) = true
    ∧ (let c := command 5 0 0 1; commands (debugging c (saving true)) 5 c fun _ gr => gr.halted) = true
    ∧ (let c := command 5 0 0 1; commands (debugging c start) 5 c fun _ gr => !gr.halted) = true
    ∧ [6, 7, 8].all (fun op => let c := command op 0 1 1; commands (debugging c start) op c fun _ _ => true) = true := by
  decide +kernel

theorem test_meets_DebugEvents_stalls :
    inG stalling (fun w gr => (gr.path 0).stallReason == some (2, 0) && (stalling.rightOn w.ctx).any (fun r => r.stalls.any fun x =>
      x.wg == 1 && x.due stalling.tick 0 0) && (match stalling.appendSample 1 0 0 (gr.path 0).pc 1 (2 * 2 ^ 60) with
        | .ok _ => true
        | _ => false)) = true := by
  decide +kernel
theorem test_meets_DebugEvents_rights :
    (State.reset.reaches .host ∧ State.reset.ownerWrite .host = false) ∧ State.reset.ownerWrite (.ctx 0) = true
    ∧ State.reset.rightOn 0 = none ∧ (debugging 0 State.reset).rightOn 0 ≠ none
    ∧ (debugging 0 State.reset).rights.all (fun r => r.target == 0 && r.agent == 9 && !r.revoking) = true
    ∧ (∃ x ∈ ({ State.reset with rights := [{ theRight with revoking := true }] } : State).rights, x.target = 0 ∧ x.agent = 9 ∧ x.revoking = true)
    ∧ State.reset.dbgQ = [] ∧ ({ State.reset with rights := [{ theRight with revoking := true }] } : State).haltedOf 0 = [] := by
  decide +kernel

def owning (st : OwnSt) (master : BitVec 16) : State := { State.reset with
  reg := { State.reset.reg with ownSt := st, master := master, target := 7, quoting := true } }
/-- After a failed boot. -/
def failed : State := { State.reset with reg := { State.reset.reg with bootFail := true } }
theorem test_meets_OwnerEvents :
    State.reset.reaches (.port 3) ∧ State.reset.reaches (.ctx 5) ∧ State.reset.reg.master = 0xFFFF
    ∧ (failed.reg.bootFail = true ∧ ¬failed.reaches .host)
    ∧ [OwnSt.free, .owned].all (fun o => let s := owning o 0xFFFF; masterCode (.port 7) == some 7 && s.reg.ownSt == o) = true
    ∧ (let s := owning .handover 3; s.reg.ownSt == .handover && s.reg.target.toNat == 7 && masterCode (.port 7) == some 7) = true
    ∧ (let s := owning .owned 3; s.reg.master != 0xFFFF && s.reg.master.toNat == 3 && s.reg.ownSt != .booting
      && masterCode (.port 3) == some 3 && masterCode (.port 4) == some 4) = true
    ∧ [0, 65536 * 1000].all (fun c => let s := { owning .handover 3 with cycle := c };
      s.reg.ownSt == .handover && decide (s.reg.handoverAt + 65536 ≤ s.tick ↔ c ≠ 0)) = true
    ∧ (owning .owned 3).ownerWrite (.port 4) = false ∧ (owning .owned 3).ownerWrite (.port 3) = true
    ∧ (ownerRegister 0x10 = true ∧ readOnlyRegister 8 = true ∧ (List.range 0x100).any (fun k => readOnlyPart (16 * k)) = true)
    ∧ inWg start (fun w => !w.shadow && w.kill.isNone && !w.groups.isEmpty) = true ∧ start.wg? 2 = none
    ∧ ((State.reset.gran 0 1024 0).waiters = [] ∧ (owning .owned 3).reg.quoting = true ∧ State.reset.dstat = [])
    ∧ (0 < State.reset.dies.length ∧ (State.reset.die 0).frames = [])
    ∧ ((State.reset.modDie 0 fun d => { d with frames := [0x10_0000] }).die 0).frames = [0x10_0000]
    ∧ (bitsOf (2 ^ 63) 63 63 = 1 ∧ bitsOf (2 ^ 24) 24 24 = 1 ∧ bitsOf (2 ^ 25) 24 24 = 0 ∧ bitsOf (2 ^ 25) 25 25 = 1
      ∧ State.reset.rights = []) := by
  decide +kernel
theorem test_meets_OwnerEvents_window :
    (State.reset.reg.bootFail = false ∧ 0x10_0000 + 4 ≤ 2 ^ 36 ∧ State.reset.reg.hwin.toNat + 0x10_0000 + 4 ≤ hbmTop)
    ∧ [State.reset, State.reset.modDie 0 fun d => { d with fenced := true }].map (fun s =>
      ((match s.writePhys .dir 0x10_0000 [1, 2, 3, 4] with
        | .ok _ => 1
        | .lost => 2
        | _ => 0), match s.readPhys 0x10_0000 4 with
        | .ok _ => 1
        | .lost => 2
        | _ => 0)) = [(1, 1), (2, 2)] := by
  decide +kernel
/-- A slot without images does not boot; whether three images do, their signatures say. -/
theorem test_meets_OwnerEvents_boot : bootSlot 0 [] = none ∧ ∀ fuses l, l.length = 3 →
    (∀ i ∈ l, Config.sha3 i.2.2 = fuses ∧ Config.mldsaVerify i.2.2 (Config.sha3 i.1) i.2.1 = true) → ∃ x, bootSlot fuses l = some x := by
  refine ⟨rfl, fun fuses l h hv => ?_⟩
  rw [bootSlot, if_neg (by simp [h]), if_pos (by simpa using fun a b c hm => hv (a, b, c) hm)]
  exact ⟨_, rfl⟩

def linked (k : Nat) (c : Nat) : State := { (State.reset.modPort 0 fun z => { z with up := true }).modPeer 1 fun p =>
  { p with unacked := [{ seq := k, flit := .refusal 0, port := 0, tick := 0 }] } with cycle := c }
/-- A load of a whole line of a peer waits for its answer. -/
def asking (via : List Nat) : State := (linked 5 0).modPeer 1 fun p => { p with waiting :=
  [{ tag := 4, core := 0, line := 2 ^ 51 + 2 ^ 41, ctx := 0, vline := line0, tr := some { page with via := via }, accs := oneAcc .load
     lease := 9, sentAt := 0, done := none }] }
theorem test_meets_LinkEvents :
    (linked 5 0).portUp 0 = true ∧ ((linked 5 0).peer 1).nextRecv = 1
    ∧ [[0], []].all (fun via => (((asking via).peer 1).waiting.find? (·.tag == 4)).any fun x => x.accs.all (·.isLoad) && x.lease != 0
      && x.tr.any (fun tr => (asking via).transGone 0 tr == via.isEmpty) && decide (((asking via).core 0).hasWay x.ctx x.vline)) = true
    ∧ [0, 64000].all (fun c => ((linked 5 c).peer 1).unacked.any fun x => x.seq == 5 && decide (x.tick + 64 ≤ (linked 5 c).tick ↔ c ≠ 0)) = true
    ∧ (let s := linked 5 (4096 * 1000);
      !(s.peer 1).unreachable && !(s.peer 1).unacked.isEmpty && decide ((s.peer 1).lastAck + 4096 ≤ s.tick)) = true
    ∧ (State.reset.zports[0]?).any (fun z => !z.fenced && !z.up) = true
    ∧ ((State.reset.core 0).fenced = false ∧ dieOf 0 < State.reset.dies.length ∧ State.reset.homes = [])
    ∧ (∃ c ∈ coresOfQuad 255, (State.reset.core c).fenced = false)
    ∧ (State.reset.die 7).fenced = false ∧ ((State.reset.die 7).stackFenced[1]?).getD false = false
    ∧ 1 < (State.reset.die 7).stackFenced.length ∧ 7 < State.reset.dies.length := by
  decide +kernel

theorem test_meets_EncodingRoundTrip :
    (Instr.iadd c0 .u32 (r 9) (r 3) (.imm32 7)).wf = true ∧ (Instr.iadd c0 .u32 (r 9) (r 3) (.imm32 7)).isEvent = false := by
  decide +kernel

/-- The state in which a word stands where the next instruction is fetched. -/
def next_ : State := State.reset.withFetchWord 96 0
/-- Path 0 of the group with words in its fetch buffer, whose turn it is. -/
def buffered (is : List Instr) (s : State) : State := { s.modGroup 1 0 (·.modPath 0 fun q => { q with
  fbuf := (is.zip (List.range is.length)).map fun x => (q.pc + 12 * x.2, encode x.1) }) with
  sched := [{ dt := 0, act := .issue 1 0 0 0 }] }
def sum (a b c : BitVec 9) (h : Hint) : Instr := .iadd { c0 with hint := h } .u32 (v a) (v b) (v c)
def paired : Hint := { noHint with pair := true }
/-- The path runs, and its word is there; `f` has the state in which it would issue. -/
def issuing (s : State) (f : State → Workgroup → Group → Instr → Bool) : Bool := inG s fun w gr => s.pathRuns w gr 0
  && (match s.pathWord w gr 0 with
    | .ok x s1 =>
      let s3 := (s1.modGroup 1 0 (·.modPath 0 fun q => { q with fbuf := bufPut q.fbuf (gr.path 0).pc x })).fetchAhead 1 0 0 ((gr.path 0).pc + 12) 0
      (s3.group? 1 0).any fun gr3 => f s3 w gr3 (decode x)
    | _ => false)
/-- It may issue, its slot is free or not, and it is the first or not. -/
def slots (s : State) (free first : Bool) (f : State → Workgroup → Group → Instr → Bool) : Bool := issuing s fun s3 w gr i =>
  s3.canIssue 1 0 0 i && !s3.dropped 1 0 0 i && s3.slotFree gr.core gr.quarter (vectorSlot i) == free
  && (s3.rivals gr.core gr.quarter (vectorSlot i)).any (fun r => rivalBefore r ((gr.path 0).ageFrom, 1, 0, 0)) == !first
  && f s3 w gr i
def secondIs (s : State) (k : Nat) : Bool := slots s true true fun s3 w gr i => match s3.second 1 0 0 w gr i with
  | .wait _ => k == 0
  | .alone => k == 1
  | .pair _ s4 => k == 2 && (match s4.taking 1 0 0 gr i with
    | .next _ => true
    | _ => false)
/-- A path that waits for its turn with the same word, and one that executes from the page. -/
def twoPaths (s : State) : State := s.modGroup 1 0 fun gr => gr.modPath 1 fun _ => { gr.path 0 with ageFrom := -9, mask := 0 }
def paging (s : State) : State := s.modGroup 1 0 (·.modPath 0 fun q => { q with pc := 0x10_0040, fbuf := [] })
/-- A word whose source is still empty. -/
def waits : State := buffered [sum 1 7 2 noHint] (lanes fun gr => { gr with sb := [{ reg := .v 7, seq := 1, pc := 0, least := 1 }] })

theorem test_meets_StepRunsDecodedWord :
    ((buffered [sum 1 2 3 noHint] start).elapse 1 = none ∧ State.reset.elapse 1 ≠ none)
    ∧ inG (buffered [] (start.modGroup 1 0 (·.modPath 0 fun q => { q with hold := true })))
      (fun w gr => !((buffered [] (start.modGroup 1 0 (·.modPath 0 fun q => { q with hold := true }))).pathRuns w gr 0)) = true
    ∧ issuing (buffered [sum 1 2 3 noHint] (start.modGroup 1 0 (·.modPath 0 fun q => { q with slotted := true }))) (fun _ _ gr _ =>
      (gr.path 0).slotted) = true
    ∧ issuing waits (fun s3 _ gr i => !(gr.path 0).slotted && !s3.canIssue 1 0 0 i) = true
    ∧ issuing (buffered [.iadd { on false 1 with hint := { noHint with skip := true } } .u32 (v 1) (v 2) (v 3)] start) (fun s3 _ gr i =>
      !(gr.path 0).slotted && s3.dropped 1 0 0 i) = true
    ∧ slots (buffered [sum 1 2 3 noHint] start) true true (fun _ _ _ i => !i.ctl.hint.pair) = true
    ∧ slots (buffered [sum 1 2 3 noHint] (start.modCore 0 fun c => { c with slots := [(0, true, 0)] })) false true (fun _ _ _ _ => true) = true
    ∧ slots (twoPaths (buffered [sum 1 2 3 noHint] start)) true false (fun _ _ _ _ => true) = true := by
  decide +kernel
theorem test_meets_StepRunsDecodedWord_pairs :
    secondIs (buffered [sum 1 2 3 paired] start) 0 = true ∧ secondIs (buffered [sum 1 2 3 paired, sum 4 1 5 noHint] start) 1 = true
    ∧ secondIs (buffered [sum 1 2 3 paired, sum 4 5 6 noHint] start) 2 = true := by
  decide +kernel
def wordIs (s : State) (k : Nat) : Bool := inG s fun w gr => s.pathRuns w gr 0 && (match s.pathWord w gr 0 with
  | .ok .. => k == 0
  | .walk _ => k == 1
  | .busy => k == 2
  | .fault _ => k == 3)
theorem test_meets_StepRunsDecodedWord_words :
    wordIs (paging (mapped start)) 0 = true ∧ wordIs (paging start) 1 = true
    ∧ wordIs (paging { mapped start with msgs := [{ core := 0, line := 0x10_0000, toHome := false, kind := .wbAck }] }) 2 = true
    ∧ wordIs (paging (start.modQuad 0 fun q => { q with tc := [{ page with attr := { page.attr with x := false } }] })) 3 = true
    ∧ Instr.isEvent .placement = true := by
  decide +kernel
/-- An access processor at 0x10_0040, with its word at hand, to be fetched, or without the right to. -/
def apAt (x b : Bool) : State := (access fun gr => { gr with ap := { gr.ap with pc := 0x10_0040, fbuf := if b then [(0x10_0040, 0)] else [] } }).modQuad
  0 fun q => { q with tc := [{ page with attr := { page.attr with x := x } }] }
theorem test_meets_StepRunsDecodedWord_access :
    [(true, true), (true, false), (false, false)].all (fun k => inG (apAt k.1 k.2) fun w gr => (apAt k.1 k.2).apRuns w gr
      && (bufWord gr.ap.fbuf gr.ap.pc).isSome == k.2 && (k.2 || (match (apAt k.1 k.2).fetch gr.core w.ctx gr.sup gr.ap.pc with
        | .ok .. => k.1
        | .fault _ => !k.1
        | _ => false))) = true := by
  decide +kernel
/-- A fetch that nothing holds up. -/
theorem test_meets_StepRunsDecodedWord_fetch :
    let s := mapped start
    (0x10_0040 % 128 ≤ 116 ∧ 0x10_0040 + 12 ≤ 0x7F_FC00_0000_0000) ∧ (s.core 0).iline? 0 0x10_0040 = none
    ∧ s.find 0 0 0x10_0040 .exec false false = .tr page
    ∧ (used (s.useAll 0 false [page])).any (fun u => ((u.core 0).iline? 0 0x10_0040).isNone && !u.isLost line0 && u.quiet line0
      && !u.redirects line0 && (match u.trackFor line0 (.dir 0 .rd (u.tenancyOf 0)) with
        | .ok (_, u1) => (u1.track? line0).isSome && (u1.owner? line0).isNone && (u1.movingData line0).isNone
          && u1.homes.all (·.line != line0)
        | _ => false)) = true := by
  decide +kernel
theorem test_meets_StepsKeepMemoryForm : Memory.wf next_.mem = true ∧ (match step next_ with
    | .next _ => true
    | _ => false) = true := by
  decide +kernel
end Sys2Proof.Tests
end

/-!
PROOF. O60, StepsKeepMemoryForm: one rule per function of the model that answers a state (the memory that it answers has the
canonical form if the memory that it was given has), in the order of the model's files. A rule follows from those of the
functions that its function calls; most functions leave memory alone, and the only ones that write it do so through
`Memory.write`. The rule of `exec` collects those of the instructions and events, and the rule of `turn` is the obligation.
-/

namespace Sys2Proof.Machine

/-! ### What keeping the form means for each kind of answer -/

/-- The form of memory that the obligation speaks of (log entry 2). -/
abbrev State.MemWf (s : State) : Prop := Memory.wf s.mem = true

/-- The states that the result of an instruction's body carries have it. -/
inductive Res.Wf : Res → Prop
  | done (gr : Group) (fl : List (Nat × Word)) (ash : List AshRec) : Res.Wf (.done gr fl ash)
  | trap (r : Raise) : Res.Wf (.trap r)
  | state {s : State} (h : s.MemWf) : Res.Wf (.state s)
  | stall (w : Wait) {s : State} (h : s.MemWf) : Res.Wf (.stall w s)

/-- The states that the beginning of an instruction carries have it. -/
def Begin.Wf : Begin → Prop
  | .out s => s.MemWf
  | .go x => x.s.MemWf
  | _ => True

/-- The states that a walk answers have it. -/
def WalkRes.Wf : WalkRes → Prop
  | .ok _ s | .fault _ _ s => s.MemWf
  | _ => True

/-- The states that the second of a pair goes with have it. -/
def Second.Wf : Second → Prop
  | .pair _ s | .wait s => s.MemWf
  | _ => True

/-- A token access leaves a memory of that form in that form. -/
def TokM.Keeps {α : Type} (m : TokM α) : Prop := ∀ s a t, s.MemWf → m.run s = .ok (a, t) → t.MemWf

theorem foldl_wf {α : Type} {f : State → α → State} (hf : ∀ s a, s.MemWf → (f s a).MemWf) (l : List α) {s : State}
    (h : s.MemWf) : (l.foldl f s).MemWf := by
  induction l generalizing s with
  | nil => exact h
  | cons a l ih => exact ih (hf s a h)

theorem TokM.keeps_pure {α : Type} (a : α) : TokM.Keeps (pure a : TokM α) := by
  rintro s b t h ⟨⟩
  exact h

theorem TokM.keeps_throw {α : Type} (e : TokErr) : TokM.Keeps (throw e : TokM α) := by
  rintro s b t h ⟨⟩

theorem TokM.keeps_get : TokM.Keeps (get : TokM State) := by
  rintro s b t h ⟨⟩
  exact h

theorem TokM.keeps_bind {α β : Type} {m : TokM α} {f : α → TokM β} (hm : m.Keeps) (hf : ∀ a, (f a).Keeps) :
    TokM.Keeps (m >>= f) := by
  intro s b t h e
  rw [StateT.run_bind] at e
  cases hr : m.run s with
  | error x => rw [hr] at e; cases e
  | ok p =>
    rw [hr] at e
    exact hf p.1 p.2 b t (hm s p.1 p.2 h hr) e

theorem TokM.keeps_ite {α : Type} {c : Prop} [Decidable c] {m n : TokM α} (hm : m.Keeps) (hn : n.Keeps) :
    TokM.Keeps (if c then m else n) := by
  split
  · exact hm
  · exact hn

theorem Res.wf_ite {c : Prop} [Decidable c] {r r2 : Res} (h : r.Wf) (h2 : r2.Wf) : Res.Wf (if c then r else r2) := by
  split
  · exact h
  · exact h2

theorem State.memWf_ite {c : Prop} [Decidable c] {s t : State} (h : s.MemWf) (h2 : t.MemWf) :
    State.MemWf (if c then s else t) := by
  split
  · exact h
  · exact h2

theorem VRes.waits_ne_ok {α : Type} (as : List Ask) (a : α) : VRes.waits as ≠ .ok a := by
  cases as <;> simp [VRes.waits]

theorem brecOn_cons {α β : Type} (x : α) (r : List α) (F : (l : List α) → List.below (motive := fun _ => β) l → β) :
    List.brecOn (x :: r) F = F (x :: r) (List.brecOn.go r F) := rfl

section
open Res TokM

variable {s z : State} {α : Type} {agent core ctx die g h id k lease line n off p pc peer port q rec seq slot tag
  target ten tenancy v va vline wg : Nat} {pa sup wr : Bool} {coh : Coh} {gr : Group} {f : Group → Group} {i :
  Instr} {x : Iss} {as : List Acc} {bs res : List Byte} {args via : List Nat} {ps : List Piece} {m : Master} {o :
  Op} {a b cc d : Opnd} {pool : Pool} {r : Rnd} {scope : ScopeSel} {t : Ty} {c : Who} {w : Workgroup}

/-! ### Machine/Ops -/

theorem State.free_wf (sWf : s.MemWf) : (s.free).2.MemWf := sWf

theorem State.setCore_wf {c : Nat} {x : Core} (sWf : s.MemWf) : (s.setCore c x).MemWf := sWf

theorem State.modCore_wf {c : Nat} {f : Core → Core} (sWf : s.MemWf) : (s.modCore c f).MemWf := sWf

theorem State.setQuad_wf {x : Quad} (sWf : s.MemWf) : (s.setQuad q x).MemWf := sWf

theorem State.modQuad_wf {f : Quad → Quad} (sWf : s.MemWf) : (s.modQuad q f).MemWf := sWf

theorem State.modDie_wf {d : Nat} {f : Die → Die} (sWf : s.MemWf) : (s.modDie d f).MemWf := sWf

theorem State.setWg_wf (sWf : s.MemWf) : (s.setWg h w).MemWf := sWf

theorem State.modWg_wf {f : Workgroup → Workgroup} (sWf : s.MemWf) : (s.modWg h f).MemWf := by
  unfold State.modWg
  split <;> exact sWf

theorem State.setGroup_wf {x : Group} (sWf : s.MemWf) : (s.setGroup h g x).MemWf := State.modWg_wf sWf

theorem State.modGroup_wf (sWf : s.MemWf) : (s.modGroup h g f).MemWf := by
  grind [State.modGroup, State.setGroup_wf]

theorem State.dstatEvent_wf {handle : Nat} {code : Nat} (sWf : s.MemWf) : (s.dstatEvent handle code).MemWf := by
  unfold State.dstatEvent
  split <;> exact sWf

theorem State.killOne_wf {code : Nat} (sWf : s.MemWf) : (s.killOne code h).MemWf := State.modWg_wf sWf

theorem State.unqueue_wf (sWf : s.MemWf) : (s.unqueue h).MemWf := by
  grind [State.unqueue, State.setWg_wf, foldl_wf]

theorem State.killWg_wf {code : Nat} (sWf : s.MemWf) : (s.killWg h code).MemWf := by
  grind [State.killWg, State.killOne_wf, State.unqueue_wf, foldl_wf]

theorem State.raise_wf {r : Raise} {ap : optParam Bool false} (sWf : s.MemWf) : (s.raise h g p r ap).MemWf := by
  grind [State.raise, State.setGroup_wf, State.killWg_wf]

/-! ### Machine/Line -/

theorem State.setStamps_wf {st : Stamps} (sWf : s.MemWf) : (s.setStamps line st).MemWf := sWf

theorem State.visits_wf (sWf : s.MemWf) : (s.visits).MemWf := sWf

theorem State.useL2_wf (sWf : s.MemWf) : (s.useL2 line).MemWf := by
  grind [State.useL2, State.putL2_wf]

theorem State.heatLine_wf (sWf : s.MemWf) : (s.heatLine line).MemWf := sWf

theorem State.saveOwner_wf (sWf : s.MemWf) : (s.saveOwner line).MemWf := by
  grind [State.saveOwner, State.putL2_wf]

theorem State.takeBack_wf (sWf : s.MemWf) : (s.takeBack line).MemWf := State.saveOwner_wf sWf

theorem State.setTrack_wf {f : TrackEnt → TrackEnt} (sWf : s.MemWf) : (s.setTrack line f).MemWf := sWf

theorem State.shareLine_wf (sWf : s.MemWf) : (s.shareLine line).MemWf := by
  grind [State.shareLine, State.setTrack_wf, State.saveOwner_wf]

theorem State.splitTrack_wf (sWf : s.MemWf) : (s.splitTrack line).MemWf := by
  unfold State.splitTrack
  split <;> exact sWf

theorem State.dropEntry_wf {t : TrackEnt} (sWf : s.MemWf) : (s.dropEntry t).MemWf := by
  grind [State.dropEntry, State.takeBack_wf, foldl_wf]

theorem State.makeRoom_wf {need : Nat} {a3 : Nat} (sWf : s.MemWf) (e : s.makeRoom line need a3 = .ok z) : z.MemWf :=
    by
  fun_induction State.makeRoom s line need a3 <;> grind [State.dropEntry_wf]

theorem State.newTrack_wf (sWf : s.MemWf) : (s.newTrack line tenancy).MemWf := sWf

theorem State.exactTrack_wf (sWf : s.MemWf) (e : s.exactTrack line = .ok z) : z.MemWf := by
  grind [State.exactTrack, State.splitTrack_wf, State.makeRoom_wf]

theorem State.readShared_wf (sWf : s.MemWf) : (s.readShared line).2.MemWf := by
  grind [State.readShared, State.useL2_wf, State.heatLine_wf, State.putL2_wf, State.setTrack_wf, State.modCore_wf]

theorem State.tinvAt_wf (sWf : s.MemWf) : (s.tinvAt line q).MemWf := by
  grind [State.tinvAt, State.modCore_wf, State.putL2_wf, State.modQuad_wf, foldl_wf]

theorem State.forgetFaults_wf (sWf : s.MemWf) : (s.forgetFaults).MemWf := sWf

theorem State.resolveLine_wf (sWf : s.MemWf) : (s.resolveLine line).MemWf := by
  grind [State.resolveLine, State.putL2_wf]

theorem State.setWindow_wf {lo : Nat} {hi : Nat} (sWf : s.MemWf) : (s.setWindow id lo hi).MemWf := by
  unfold State.setWindow
  split <;> exact sWf

theorem State.resolveLines_wf {ls : List Nat} (sWf : s.MemWf) : (s.resolveLines ls).MemWf := by
  grind [State.resolveLines, State.resolveLine_wf, foldl_wf]

theorem State.resolveEntry_wf {e : PnEnt} (sWf : s.MemWf) : (s.resolveEntry e).MemWf := State.resolveLines_wf sWf

theorem State.cutWindow_wf {e : PnEnt} {lo : Nat} {hi : Nat} (sWf : s.MemWf) : (s.cutWindow e lo hi).MemWf := by
  grind [State.cutWindow, State.resolveLines_wf, State.setWindow_wf]

theorem State.trimLine_wf (sWf : s.MemWf) : (s.trimLine line).MemWf := by
  grind [State.trimLine, State.cutWindow_wf, State.resolveLine_wf, foldl_wf]

theorem State.sendFlit_wf {f : Flit} (sWf : s.MemWf) : (s.sendFlit peer f).MemWf := sWf

theorem State.readLine_wf {res : Row} (sWf : s.MemWf) (e : s.readLine line = .ok (res, z)) : z.MemWf := by
  grind [State.readLine, State.heatLine_wf, State.useL2_wf, State.free_wf]

theorem State.sendTinv_wf (sWf : s.MemWf) : (s.sendTinv line).2.MemWf := by
  grind [State.sendTinv, State.setTrack_wf, State.modQuad_wf, foldl_wf]

theorem State.begin?_wf {round : Option Nat} (sWf : s.MemWf) (e : s.begin? round = some z) : z.MemWf := by
  unfold State.begin? at e
  (repeat' split at e) <;> grind [State.sendTinv_wf]

theorem State.begun_wf {round : Option Nat} (sWf : s.MemWf) : (s.begun round).MemWf := by
  unfold State.begun
  cases h : s.begin? round with
  | none => exact sWf
  | some t => exact State.begin?_wf sWf h

theorem State.clearWindows_wf (sWf : s.MemWf) (e : s.clearWindows line off n = .ok z) : z.MemWf := by
  grind [State.clearWindows, State.resolveEntry_wf, State.trimLine_wf, foldl_wf]

theorem State.clearFor_wf (sWf : s.MemWf) (e : s.clearFor line off n = .ok z) : z.MemWf := by
  grind [State.clearFor, State.forgetFaults_wf, State.clearWindows_wf]

theorem State.clearLost_wf (sWf : s.MemWf) : (s.clearLost line).MemWf := sWf

theorem State.overwritten_wf (sWf : s.MemWf) : (s.overwritten coh line n).MemWf := by
  unfold State.overwritten
  split <;> exact sWf

theorem State.writeLine_wf (sWf : s.MemWf) (e : s.writeLine coh line off bs = .ok z) : z.MemWf := by
  grind [State.writeLine, State.trimLine_wf, State.setStamps_wf, State.putL2_wf, State.takeBack_wf,
    State.overwritten_wf, → State.clearFor_wf, State.sendFlit_wf, foldl_wf]

theorem State.writePhys_wf {a : Nat} (sWf : s.MemWf) (e : s.writePhys coh a bs = .ok z) : z.MemWf := by
  unfold State.writePhys at e
  suffices H : ∀ z : State, _ = _ → z.MemWf from H z e
  refine List.foldlRecOn (motive := fun r : Coll State => ∀ z, r = .ok z → z.MemWf) _ _ ?_ ?_
  · rintro _ ⟨⟩
    exact sWf
  · rintro (t | _ | _) ht p - z e <;> try cases e
    exact State.writeLine_wf (ht _ rfl) e

theorem State.readPhys_wf {a : Nat} (sWf : s.MemWf) (e : s.readPhys a n = .ok (res, z)) : z.MemWf := by
  unfold State.readPhys at e
  suffices H : ∀ bs (z : State), _ = Coll.ok (bs, z) → z.MemWf from H res z e
  refine List.foldlRecOn (motive := fun r : Coll (List Byte × State) => ∀ bs z, r = .ok (bs, z) → z.MemWf) _ _ ?_ ?_
  · rintro _ _ ⟨⟩
    exact sWf
  · rintro (⟨bs, t⟩ | _ | _) ht p - ds z e <;> try cases e
    grind [State.readLine_wf]

theorem State.casLine_wf {row : Row} (sWf : s.MemWf) : (s.casLine line row).MemWf := by
  grind [State.casLine, State.takeBack_wf, State.putL2_wf]

/-! ### Machine/Walk -/

theorem State.tableTrack_wf (sWf : s.MemWf) (e : s.tableTrack line tenancy = .ok z) : z.MemWf := by
  unfold State.tableTrack at e
  have key : ∀ r : Coll State, (∀ t, r = .ok t → t.MemWf) → (match r with
      | .ok s => if (s.tableSharers line).isEmpty then s.makeRoom line 1 17 else .ok s
      | r => r) = .ok z → z.MemWf := by
    intro r hr e
    grind [State.makeRoom_wf]
  refine key _ ?_ e
  grind [State.makeRoom_wf, State.exactTrack_wf, State.newTrack_wf]

theorem State.tableRead_wf {res : Row} (sWf : s.MemWf) (e : s.tableRead q line tenancy = .ok (res, z)) : z.MemWf :=
    by
  grind [State.tableRead, State.setTrack_wf, State.readShared_wf, State.tableTrack_wf]

theorem State.casLeaf_wf {t : Trans} {bits : Nat} (sWf : s.MemWf) (e : s.casLeaf t bits line = .ok z) : z.MemWf :=
    by
  grind [State.casLeaf, State.casLine_wf, State.clearWindows_wf]

theorem State.setLeafBits_wf {t : Trans} {bits : Nat} (sWf : s.MemWf) (e : s.setLeafBits t bits = .ok z) : z.MemWf
    := by
  unfold State.setLeafBits at e
  suffices H : ∀ z : State, _ = _ → z.MemWf from H z e
  refine List.foldlRecOn (motive := fun r : Cas => ∀ z, r = .ok z → z.MemWf) _ _ ?_ ?_
  · rintro _ ⟨⟩
    exact sWf
  · rintro (t | _ | _) ht p - z e <;> try cases e
    exact State.casLeaf_wf (ht _ rfl) e

theorem State.install_wf {t : Trans} (sWf : s.MemWf) : (s.install q t).MemWf := sWf

theorem State.walkLeaf_wf {r : WalkReq} {level : Nat} {la : Nat} {e : Nat} (sWf : s.MemWf) : (s.walkLeaf q r level
    la e via tenancy).Wf := by
  simp only [State.walkLeaf]
  split
  · exact sWf
  · (repeat' split) <;> grind [WalkRes.Wf, → State.tableRead_wf, State.install_wf]

theorem State.walk3_wf {r : WalkReq} {table : Nat} (sWf : s.MemWf) : (s.walk3 q r table via ten).Wf := by
  grind [State.walk3, WalkRes.Wf, State.walkLeaf_wf, → State.tableRead_wf]

theorem State.keepTable_wf {w : WalkEnt} (sWf : s.MemWf) : (s.keepTable q w).MemWf := sWf

theorem State.walk2_wf {r : WalkReq} {table : Nat} (sWf : s.MemWf) : (s.walk2 q r table via ten).Wf := by
  grind [State.walk2, WalkRes.Wf, State.walk3_wf, State.keepTable_wf, State.walkLeaf_wf, → State.tableRead_wf]

theorem State.walk1_wf {r : WalkReq} {root : Nat} (sWf : s.MemWf) : (s.walk1 q r root via ten).Wf := by
  grind [State.walk1, WalkRes.Wf, State.walk2_wf, State.keepTable_wf, → State.tableRead_wf]

theorem State.walk_wf {r : WalkReq} (sWf : s.MemWf) : (s.walk q r).Wf := by
  grind [State.walk, WalkRes.Wf, State.modQuad_wf, → State.tableRead_wf, State.walk1_wf, State.walk2_wf,
    State.walk3_wf]

theorem State.ask_wf {a1 : Ask} (sWf : s.MemWf) : (s.ask a1).MemWf := by
  unfold State.ask
  (repeat' split) <;> grind [State.tinvAt_wf, State.begun_wf, State.modQuad_wf]

theorem State.asks_wf {as : List Ask} (sWf : s.MemWf) : (s.asks as).MemWf := by
  grind [State.asks, State.ask_wf, foldl_wf]

theorem State.asked?_wf {as : List Ask} (sWf : s.MemWf) (e : s.asked? as = some z) : z.MemWf := by
  grind [State.asked?, State.asks_wf]

theorem State.dropFaults_wf (sWf : s.MemWf) : (s.dropFaults core ctx).MemWf := sWf

theorem State.useTrans_wf {t : Trans} (sWf : s.MemWf) (e : s.useTrans core wr t = .ok z) : z.MemWf := by
  grind [State.useTrans, State.modCore_wf, State.modQuad_wf, → State.setLeafBits_wf, foldl_wf]

theorem State.useAll_wf {ts : List Trans} (sWf : s.MemWf) (e : s.useAll core wr ts = .ok z) : z.MemWf := by
  unfold State.useAll at e
  suffices H : ∀ z : State, _ = _ → z.MemWf from H z e
  refine List.foldlRecOn (motive := fun r : Used => ∀ z, r = .ok z → z.MemWf) _ _ ?_ ?_
  · rintro _ ⟨⟩
    exact sWf
  · rintro (t | _) ht p - z e <;> try cases e
    exact State.useTrans_wf (ht _ rfl) e

theorem State.askWalks_wf {k : Kind} {pages : List Nat} (sWf : s.MemWf) : (s.askWalks core ctx k sup pages).MemWf :=
  State.asks_wf sWf

/-! ### Machine/Barrier -/

theorem State.latch_wf (sWf : s.MemWf) : (s.latch h g).MemWf := by
  unfold State.latch
  split <;> exact sWf

theorem State.barArrive_wf {sc : Scope} (sWf : s.MemWf) (e : s.barArrive h g p sc id = some z) : z.MemWf := by
  grind [State.barArrive, State.latch_wf]

theorem State.unarrive_wf (sWf : s.MemWf) : (s.unarrive h g).MemWf := sWf

theorem State.endPhase_wf {b : BarPhase} (sWf : s.MemWf) : (s.endPhase b).MemWf := by
  grind [State.endPhase, State.modWg_wf, State.modGroup_wf, foldl_wf]

theorem State.phaseStep_wf (sWf : s.MemWf) (e : s.phaseStep h k = some z) : z.MemWf := by
  grind [State.phaseStep, State.endPhase_wf]

theorem State.leavePhases_wf (sWf : s.MemWf) : (s.leavePhases h core k).MemWf := by
  unfold State.leavePhases
  split <;> exact sWf

/-! ### Machine/Operands -/

theorem Iss.lanes_wf {f : Nat → LaneRes} (_ : x.s.MemWf) : (x.lanes d n f).Wf := by
  unfold Iss.lanes
  split <;> constructor

theorem Iss.shared_wf {ws : List Word} {fl : Word} (_ : x.s.MemWf) : (x.shared d ws fl).Wf := by
  unfold Iss.shared
  split <;> constructor

/-! ### Machine/Access -/

theorem State.settle_wf (sWf : s.MemWf) : (s.settle h g seq).MemWf := by
  grind [State.settle, State.raise_wf, State.modGroup_wf]

theorem State.performed_wf {a : Acc} {old : List Byte} {fl : Word} {t : Gvt} (sWf : s.MemWf) : (s.performed a old fl
    t).MemWf := by
  grind [State.performed, State.settle_wf, State.modGroup_wf]

theorem State.performAll_wf {row : Row} {t : Gvt} {a3 : List Acc} (sWf : s.MemWf) : (s.performAll row t a3).2.MemWf
    := by
  induction a3 generalizing s row with
  | nil => exact sWf
  | cons a as ih =>
    simp only [State.performAll]
    exact ih (State.performed_wf sWf)

theorem State.lostAccs_wf {c : Cause} {info : Nat} (sWf : s.MemWf) : (s.lostAccs as c info).MemWf := by
  grind [State.lostAccs, State.settle_wf, State.modGroup_wf, foldl_wf]

/-! ### Machine/Local -/

theorem State.setGran_wf {i : Nat} {x : Gran} (sWf : s.MemWf) : (s.setGran wg core i x).MemWf := by
  grind [State.setGran, State.modWg_wf]

theorem State.setGranRow_wf {gran : Nat} {r : Row} (sWf : s.MemWf) : (s.setGranRow wg core gran as r).MemWf := by
  grind [State.setGranRow, State.setGran_wf, foldl_wf]

theorem State.stageTake_wf {b : BankOp} (sWf : s.MemWf) : (s.stageTake core b o).MemWf := by
  grind [State.stageTake, State.setGran_wf, State.raise_wf, State.modGroup_wf, foldl_wf]

theorem State.engineWrite_wf (sWf : s.MemWf) : (s.engineWrite core wg g seq off bs).MemWf := sWf

theorem State.stagePut_wf {b : BankOp} (sWf : s.MemWf) : (s.stagePut core b).MemWf := by
  grind [State.stagePut, State.modGroup_wf, State.engineWrite_wf]

theorem State.plainBank_wf {b : BankOp} (sWf : s.MemWf) : (s.plainBank core b).MemWf := by
  grind [State.plainBank, State.setGranRow_wf, State.performAll_wf]

theorem State.qualBank_wf {b : BankOp} (sWf : s.MemWf) : (s.qualBank core b).MemWf := by
  grind [State.qualBank, State.setGran_wf, State.performed_wf, State.modGroup_wf]

theorem State.doBank_wf {b : BankOp} (sWf : s.MemWf) : (s.doBank core b).MemWf := by
  grind [State.doBank, State.qualBank_wf, State.plainBank_wf, State.stageTake_wf, State.stagePut_wf]

theorem State.retry_wf {a1 : Nat} {a2 : List (Nat × Nat × Nat)} (sWf : s.MemWf) : (s.retry a1 a2).MemWf := by
  fun_induction State.retry s a1 a2 <;> grind [State.setGran_wf, State.doBank_wf]

theorem State.retryAt_wf {gs : List (Nat × Nat × Nat)} (sWf : s.MemWf) : (s.retryAt gs).MemWf := State.retry_wf sWf

theorem State.retryAll_wf {i : Nat} (sWf : s.MemWf) : (s.retryAll wg core i).MemWf := State.retryAt_wf sWf

theorem State.bankArrive_wf {b : BankOp} (sWf : s.MemWf) : (s.bankArrive core b).MemWf := by
  grind [State.bankArrive, State.retryAt_wf, State.doBank_wf, State.setGran_wf]

theorem State.sendBanks_wf {bs : List (Nat × BankOp)} (sWf : s.MemWf) : (s.sendBanks bs).MemWf := by
  grind [State.sendBanks, State.modCore_wf, foldl_wf]

theorem State.granuleStep_wf {i : Nat} (sWf : s.MemWf) (e : s.granuleStep core i = some z) : z.MemWf := by
  grind [State.granuleStep, State.bankArrive_wf, State.modCore_wf]

theorem State.engineLand_wf {i : Nat} (sWf : s.MemWf) (e : s.engineLand core i = some z) : z.MemWf := by
  grind [State.engineLand, State.retryAll_wf, State.setGran_wf, State.modGroup_wf, State.modCore_wf]

theorem State.dropWaiters_wf {p : BankOp → Bool} (sWf : s.MemWf) : (s.dropWaiters wg core p).MemWf := by
  grind [State.dropWaiters, State.retryAll_wf, State.setGran_wf, foldl_wf]

theorem State.laneGone_wf {b : BankOp} (sWf : s.MemWf) : (s.laneGone b).MemWf := by
  grind [State.laneGone, State.settle_wf, State.modGroup_wf]

/-! ### Machine/Sr -/

theorem State.setDiv_wf {d : Nat} (sWf : s.MemWf) : (s.setDiv core d).MemWf := by
  unfold State.setDiv
  split <;> exact sWf

theorem State.reclock_wf (sWf : s.MemWf) : (s.reclock).MemWf := by
  grind [State.reclock, State.setDiv_wf, foldl_wf]

theorem State.newTick_wf (sWf : s.MemWf) : (s.newTick).MemWf := by
  grind [State.newTick, State.reclock_wf, State.visits_wf]

theorem State.later_wf (sWf : s.MemWf) : (s.later n).MemWf := by
  grind [State.later, State.newTick_wf]

theorem State.forgetTranslations_wf (sWf : s.MemWf) : (s.forgetTranslations).MemWf := by
  grind [State.forgetTranslations, State.putL2_wf, foldl_wf]

/-! ### Machine/Virt -/

theorem State.readPieces_wf {a1 : List Piece} (sWf : s.MemWf) (e : s.readPieces a1 = .ok (res, z)) : z.MemWf := by
  induction a1 generalizing s res z with
  | nil => cases e; exact sWf
  | cons p ps ih =>
    simp only [State.readPieces] at e
    grind [→ State.readPhys_wf, VRes.waits_ne_ok]

theorem State.usePieces_wf (sWf : s.MemWf) (e : s.usePieces core wr ps = .ok z) : z.MemWf := by
  grind [State.usePieces, → State.useAll_wf, VRes.waits_ne_ok]

theorem State.storePieces_wf {a1 : List Piece} {a2 : List Byte} (sWf : s.MemWf) (e : s.storePieces a1 a2 = .ok z) :
    z.MemWf := by
  induction a1 generalizing s a2 z with
  | nil => cases e; exact sWf
  | cons p ps ih =>
    simp only [State.storePieces] at e
    grind [→ State.writePhys_wf, VRes.waits_ne_ok]

theorem State.writePieces_wf (sWf : s.MemWf) (e : s.writePieces core ps bs = .ok z) : z.MemWf := by
  grind [State.writePieces, → State.storePieces_wf, → State.usePieces_wf]

theorem State.vLoad_wf (sWf : s.MemWf) (e : s.vLoad core ctx sup va n = .ok (res, z)) : z.MemWf := by
  grind [State.vLoad, → State.readPieces_wf, → State.usePieces_wf]

theorem State.vStore_wf (sWf : s.MemWf) (e : s.vStore core ctx sup va bs = .ok z) : z.MemWf := by
  grind [State.vStore, State.writePieces_wf]

theorem State.putLocal_wf (sWf : s.MemWf) : (s.putLocal wg core off bs).MemWf := by
  grind [State.putLocal, State.setGran_wf, foldl_wf]

theorem State.vRecord_wf (sWf : s.MemWf) (e : s.vRecord h w gr va bs = .ok z) : z.MemWf := by
  grind [State.vRecord, State.vStore_wf, State.putLocal_wf]

theorem State.vStores_wf {a4 : List (Nat × List Byte)} (sWf : s.MemWf) (e : s.vStores core ctx sup a4 = .ok z) :
    z.MemWf := by
  fun_induction State.vStores s core ctx sup a4 <;> grind [→ State.vStore_wf]

/-! ### Machine/Pools -/

theorem State.grantHead_wf {shadow : Bool} {quarter : Nat} (sWf : s.MemWf) (e : s.grantHead core shadow quarter pool
    = some z) : z.MemWf := by
  grind [State.grantHead, State.modGroup_wf, State.modCore_wf]

/-! ### Machine/Debug -/

theorem State.deny_wf (sWf : s.MemWf) : (s.deny).MemWf := sWf

theorem State.appendSample_wf {kind : Nat} {value : Nat} (sWf : s.MemWf) (e : s.appendSample h g p pc kind value =
    .ok z) : z.MemWf := by
  grind [State.appendSample, State.vRecord_wf, State.modGroup_wf]

theorem State.grantRight_wf (sWf : s.MemWf) : (s.grantRight target agent).MemWf := by
  unfold State.grantRight
  split <;> exact sWf

theorem State.startRevoke_wf (sWf : s.MemWf) : (s.startRevoke target agent).MemWf := by
  grind [State.startRevoke]

theorem State.acceptCmd_wf {cmd : BitVec 128} (sWf : s.MemWf) : (s.acceptCmd agent cmd).MemWf := by
  unfold State.acceptCmd
  split <;> exact sWf

theorem State.takeCmd_wf {p : Nat → Bool} {res : BitVec 128} (sWf : s.MemWf) (e : s.takeCmd agent p = some (res, z))
    : z.MemWf := by
  grind [State.takeCmd]

theorem State.endCmd_wf {c : BitVec 128} {status : Nat} (sWf : s.MemWf) : (s.endCmd agent c status).MemWf := by
  unfold State.endCmd
  split <;> exact sWf

theorem State.pathCmd_wf {op : Nat} {f : Path → Path} (sWf : s.MemWf) (e : s.pathCmd agent op f = some z) : z.MemWf
    := by
  grind [State.pathCmd, State.modGroup_wf, State.endCmd_wf, → State.takeCmd_wf]

theorem State.rightCmd_wf {op : Nat} {f : BitVec 128 → Right → Right} (sWf : s.MemWf) (e : s.rightCmd agent op f =
    some z) : z.MemWf := by
  grind [State.rightCmd, State.endCmd_wf, → State.takeCmd_wf]

theorem State.stopWaiters_wf (sWf : s.MemWf) : (s.stopWaiters h g).MemWf := by
  grind [State.stopWaiters, State.modGroup_wf, State.dropWaiters_wf, foldl_wf]

theorem State.haltDone_wf (sWf : s.MemWf) : (s.haltDone h g).MemWf := State.modGroup_wf sWf

theorem State.saveGroup_wf (sWf : s.MemWf) (e : s.saveGroup h g = .ok z) : z.MemWf := by
  grind [State.saveGroup, State.vStores_wf]

theorem State.haltCmd_wf (sWf : s.MemWf) (e : s.haltCmd agent = some z) : z.MemWf := by
  grind [State.haltCmd, State.asks_wf, State.haltDone_wf, → State.saveGroup_wf, State.stopWaiters_wf, State.endCmd_wf,
    → State.takeCmd_wf]

theorem State.readImage_wf {res : Img} (sWf : s.MemWf) (e : s.readImage core ctx sup va = .ok (res, z)) : z.MemWf :=
    by
  grind [State.readImage, State.vLoad_wf]

theorem State.restoreFrom_wf {m : Img} {res : Nat} (sWf : s.MemWf) (e : s.restoreFrom h g m = some (res, z)) :
    z.MemWf := by
  grind [State.restoreFrom, State.unarrive_wf, State.setGroup_wf]

theorem State.restoreCmd_wf (sWf : s.MemWf) (e : s.restoreCmd agent = some z) : z.MemWf := by
  unfold State.restoreCmd at e
  (repeat' split at e) <;> grind [→ State.restoreFrom_wf, → State.asked?_wf, → State.readImage_wf, State.endCmd_wf, →
    State.takeCmd_wf]

theorem State.resume_wf (sWf : s.MemWf) (e : s.resume h g = .ok z) : z.MemWf := by
  grind [State.resume, State.modGroup_wf, → State.restoreFrom_wf, → State.readImage_wf]

theorem State.resumeAll_wf {a1 : List (Nat × Nat)} (sWf : s.MemWf) (e : s.resumeAll a1 = .ok z) : z.MemWf := by
  fun_induction State.resumeAll s a1 <;> grind [→ State.resume_wf]

theorem State.finishRevoke_wf (sWf : s.MemWf) (e : s.finishRevoke target agent = some z) : z.MemWf := by
  grind [State.finishRevoke, State.asked?_wf, State.resumeAll_wf]

theorem State.stallStep_wf (sWf : s.MemWf) (e : s.stallStep h g p = some z) : z.MemWf := by
  grind [State.stallStep, State.asked?_wf, State.appendSample_wf]

/-! ### Machine/Regs -/

theorem State.ownClaim_wf (sWf : s.MemWf) : (s.ownClaim m).MemWf := by
  grind [State.ownClaim, State.deny_wf]

theorem State.ownOffer_wf {target : BitVec 16} (sWf : s.MemWf) : (s.ownOffer m target).MemWf := by
  grind [State.ownOffer, State.deny_wf]

theorem State.ownAccept_wf (sWf : s.MemWf) : (s.ownAccept m).MemWf := by
  grind [State.ownAccept, State.deny_wf]

theorem State.ownRelease_wf (sWf : s.MemWf) : (s.ownRelease m).MemWf := by
  grind [State.ownRelease, State.deny_wf]

theorem State.ownWrite_wf (sWf : s.MemWf) : (s.ownWrite m v).MemWf := by
  grind [State.ownWrite, State.ownRelease_wf, State.ownAccept_wf, State.ownOffer_wf, State.ownClaim_wf]

theorem State.ownTimeout_wf (sWf : s.MemWf) (e : s.ownTimeout = some z) : z.MemWf := by
  unfold State.ownTimeout at e
  split at e <;> cases e
  exact sWf

theorem State.dstatPop_wf (sWf : s.MemWf) : (s.dstatPop).MemWf := by
  unfold State.dstatPop
  split <;> exact sWf

theorem State.framePop_wf {d : Nat} (sWf : s.MemWf) : (s.framePop d).2.MemWf := by
  unfold State.framePop
  split <;> exact sWf

theorem State.framePush_wf {d : Nat} (sWf : s.MemWf) : (s.framePush d v).MemWf := sWf

theorem State.nonceWrite_wf (sWf : s.MemWf) : (s.nonceWrite off bs).MemWf := sWf

theorem State.quoteDone_wf (sWf : s.MemWf) (e : s.quoteDone = some z) : z.MemWf := by
  unfold State.quoteDone at e
  split at e <;> cases e
  exact sWf

theorem State.regRead_wf (sWf : s.MemWf) : (s.regRead m off n).2.MemWf := by
  grind [State.regRead, State.framePop_wf]

theorem State.evictWrite_wf (sWf : s.MemWf) : (s.evictWrite h).MemWf := State.modWg_wf sWf

theorem State.killWrite_wf (sWf : s.MemWf) : (s.killWrite h).MemWf := State.killWg_wf sWf

theorem State.grantWrite_wf (sWf : s.MemWf) : (s.grantWrite v).MemWf := by
  grind [State.grantWrite, State.startRevoke_wf, State.grantRight_wf]

theorem State.ownedWrite_wf (sWf : s.MemWf) : (s.ownedWrite off v).MemWf := by
  grind [State.ownedWrite, State.modDie_wf, State.grantWrite_wf, State.killWrite_wf, State.evictWrite_wf,
    State.dstatPop_wf]

theorem State.regWrite_wf (sWf : s.MemWf) : (s.regWrite m off bs).MemWf := by
  unfold State.regWrite
  (repeat' split) <;> grind [State.ownedWrite_wf, State.nonceWrite_wf, State.deny_wf, State.acceptCmd_wf,
    State.ownWrite_wf, State.framePush_wf]

theorem State.devAccess_wf {a : Acc} (sWf : s.MemWf) : (s.devAccess m off a).2.MemWf := by
  grind [State.devAccess, State.regWrite_wf, State.regRead_wf]

theorem State.mailLand_wf (sWf : s.MemWf) : (s.mailLand core off bs).MemWf := by
  grind [State.mailLand, State.retryAll_wf, State.setGran_wf, foldl_wf]

theorem State.doorbell_wf {page : Nat} (sWf : s.MemWf) (e : s.doorbell page slot = some z) : z.MemWf := by
  grind [State.doorbell, State.setGran_wf]

theorem State.hostRead_wf {mail : Bool} (sWf : s.MemWf) : (s.hostRead mail off n).MemWf := by
  grind [State.hostRead, State.regRead_wf]

theorem State.mailWrite_wf {page : Nat} (sWf : s.MemWf) : (s.mailWrite m page off bs).MemWf := by
  grind [State.mailWrite, State.mailLand_wf]

theorem State.booted_wf {meas : List (BitVec 256)} (sWf : s.MemWf) : (s.booted slot meas).MemWf := sWf

theorem State.reboot_wf (sWf : s.MemWf) : (s.reboot).MemWf := by
  grind [State.reboot, State.booted_wf]

/-! ### Machine/Coh -/

theorem State.send_wf {toHome : Bool} {k : MsgKind} (sWf : s.MemWf) : (s.send core line toHome k).MemWf := sWf

theorem State.take?_wf {toHome : Bool} {res : MsgKind} (sWf : s.MemWf) (e : s.take? core line toHome = some (res,
    z)) : z.MemWf := by
  grind [State.take?]

theorem State.modTxn_wf {f : HomeTxn → HomeTxn} (sWf : s.MemWf) : (s.modTxn line f).MemWf := sWf

theorem State.trackFor_wf {r : HomeReq} {res : Bool} (sWf : s.MemWf) (e : s.trackFor line r = .ok (res, z)) :
    z.MemWf := by
  unfold State.trackFor at e
  (repeat' split at e) <;> grind [→ State.exactTrack_wf, State.newTrack_wf, → State.makeRoom_wf]

theorem State.sendProbes_wf {t : TrackEnt} {ps : List (Nat × ProbeKind)} (sWf : s.MemWf) : (s.sendProbes line t
    ps).MemWf := by
  grind [State.sendProbes, State.send_wf, foldl_wf]

theorem State.homeWrite_wf {row : Row} (sWf : s.MemWf) : (s.homeWrite line row).MemWf := by
  grind [State.homeWrite, State.putL2_wf]

theorem State.serveRd_wf {t : HomeTxn} {c : Nat} (sWf : s.MemWf) : (s.serveRd t c ten).MemWf := by
  grind [State.serveRd, State.setTrack_wf, State.homeWrite_wf, State.putL2_wf, State.send_wf]

theorem State.serveRfo_wf {t : HomeTxn} {c : Nat} {k : ReqKind} (sWf : s.MemWf) : (s.serveRfo t c k ten).MemWf := by
  unfold State.serveRfo
  split <;> exact sWf

theorem State.recalled_wf {t : HomeTxn} (sWf : s.MemWf) : (s.recalled t).MemWf := by
  grind [State.recalled, State.setTrack_wf, State.homeWrite_wf, State.clearLost_wf]

theorem State.mirror_wf (sWf : s.MemWf) : (s.mirror line off n).MemWf := by
  grind [State.mirror, State.homeWrite_wf, State.trimLine_wf, foldl_wf]

theorem State.performHome_wf {t : Gvt} (sWf : s.MemWf) : (s.performHome line as t).MemWf := by
  grind [State.performHome, State.homeWrite_wf, State.mirror_wf, State.useL2_wf, State.performAll_wf]

theorem State.widen_wf (sWf : s.MemWf) : (s.widen as).MemWf := by
  grind [State.widen, State.modGroup_wf, foldl_wf]

theorem State.stampWrite_wf {tp : Nat} (sWf : s.MemWf) : (s.stampWrite line tp).MemWf := by
  unfold State.stampWrite
  split <;> exact sWf

theorem State.lease_wf (sWf : s.MemWf) : (s.lease line n).2.MemWf := by
  grind [State.lease, State.setStamps_wf, State.putL2_wf]

theorem State.dropSynonyms_wf (sWf : s.MemWf) : (s.dropSynonyms core ctx vline line).MemWf := by
  grind [State.dropSynonyms, State.modCore_wf, State.putL2_wf, foldl_wf]

theorem State.evictLine_wf {l : L1Line} (sWf : s.MemWf) : (s.evictLine core l).MemWf := by
  unfold State.evictLine
  split <;> exact sWf

theorem State.placeFor_wf (sWf : s.MemWf) (e : s.placeFor core ctx vline = some z) : z.MemWf := by
  grind [State.placeFor, State.evictLine_wf, Option.map_eq_some_iff]

theorem State.touchL1_wf (sWf : s.MemWf) : (s.touchL1 core ctx vline).MemWf := sWf

theorem State.fillL1_wf {l : L1Line} (sWf : s.MemWf) : (s.fillL1 core l).MemWf := by
  grind [State.fillL1, State.placeFor_wf, State.modCore_wf]

theorem State.serveLseRead_wf {tr : Trans} (sWf : s.MemWf) : (s.serveLseRead line core n ctx vline tr as).MemWf :=
    by
  grind [State.serveLseRead, State.dropSynonyms_wf, State.fillL1_wf, State.lease_wf, State.useL2_wf,
    State.performAll_wf]

theorem State.replyPeer_wf {remaining : Nat} (sWf : s.MemWf) : (s.replyPeer peer tag bs remaining).MemWf := sWf

theorem State.servePeer_wf {lse : Bool} {what : AccOp} {tp : Nat} (sWf : s.MemWf) : (s.servePeer line peer tag lse
    off n what tp).MemWf := by
  grind [State.servePeer, State.replyPeer_wf, State.stampWrite_wf, State.useL2_wf, State.homeWrite_wf,
    State.mirror_wf]

theorem State.serveLease_wf (sWf : s.MemWf) : (s.serveLease line peer tag n).MemWf := by
  grind [State.serveLease, State.replyPeer_wf, State.lease_wf]

theorem State.refuse_wf {r : HomeReq} (sWf : s.MemWf) : (s.refuse line die r).MemWf := by
  unfold State.refuse
  (repeat' split) <;> grind [State.lostAccs_wf, State.sendFlit_wf, State.send_wf]

theorem State.atHome_wf {r : HomeReq} (sWf : s.MemWf) : (s.atHome line r).2.MemWf := by
  unfold State.atHome
  (repeat' split) <;> grind [State.modCore_wf]

theorem State.startTxn_wf {r : HomeReq} {queue : List HomeReq} (sWf : s.MemWf) : (s.startTxn line r queue).MemWf :=
  State.atHome_wf sWf

theorem State.endTxn_wf (sWf : s.MemWf) : (s.endTxn line).MemWf := by
  grind [State.endTxn, State.startTxn_wf]

theorem State.serve_wf {t : HomeTxn} (sWf : s.MemWf) : (s.serve t).MemWf := by
  grind [State.serve, State.servePeer_wf, State.serveLease_wf, State.stampWrite_wf, State.modTxn_wf,
    State.modGroup_wf, State.forgetFaults_wf, State.recalled_wf, State.performHome_wf, State.performAll_wf,
    State.performed_wf, State.devAccess_wf, State.serveLseRead_wf, State.serveRfo_wf, State.serveRd_wf,
    State.endTxn_wf, foldl_wf]

theorem State.stage_wf {t : HomeTxn} (sWf : s.MemWf) (e : s.stage t = some z) : z.MemWf := by
  grind [State.stage, State.serve_wf, State.sendProbes_wf, → State.begin?_wf, → State.trackFor_wf, State.refuse_wf,
    State.endTxn_wf, State.modTxn_wf]

theorem State.runHome_wf {a2 : Nat} (sWf : s.MemWf) : (s.runHome line a2).MemWf := by
  fun_induction State.runHome s line a2 <;> grind [→ State.stage_wf]

theorem State.settleRest_wf (sWf : s.MemWf) : (s.settleRest).MemWf := by
  grind [State.settleRest, State.runHome_wf, foldl_wf]

theorem State.settleHome_wf (sWf : s.MemWf) : (s.settleHome line).MemWf := by
  grind [State.settleHome, State.runHome_wf, State.settleRest_wf]

theorem State.arrive_wf {r : HomeReq} (sWf : s.MemWf) : (s.arrive line r).MemWf := by
  grind [State.arrive, State.startTxn_wf, State.settleHome_wf, State.modTxn_wf]

theorem State.arriveReq_wf {p : HomeReq → Bool} (sWf : s.MemWf) (e : s.arriveReq core line p = some z) : z.MemWf :=
    by
  grind [State.arriveReq, State.arrive_wf, → State.take?_wf]

theorem State.wbArrive_wf (sWf : s.MemWf) (e : s.wbArrive core line = some z) : z.MemWf := by
  grind [State.wbArrive, State.send_wf, State.setTrack_wf, State.putL2_wf, State.modTxn_wf, → State.take?_wf]

theorem State.ackArrive_wf (sWf : s.MemWf) (e : s.ackArrive core line = some z) : z.MemWf := by
  grind [State.ackArrive, State.settleHome_wf, State.modTxn_wf, State.send_wf, → State.take?_wf]

theorem State.antecedentStep_wf (sWf : s.MemWf) (e : s.antecedentStep line = some z) : z.MemWf := by
  grind [State.antecedentStep, State.settleHome_wf]

theorem State.destinationStep_wf (sWf : s.MemWf) (e : s.destinationStep line = some z) : z.MemWf := by
  grind [State.destinationStep, State.trimLine_wf, State.begin?_wf, State.refuse_wf, State.endTxn_wf,
    State.settleHome_wf]

theorem State.redirectStep_wf (sWf : s.MemWf) (e : s.redirectStep line = some z) : z.MemWf := by
  grind [State.redirectStep, State.putL2_wf, State.modTxn_wf, State.heatLine_wf, State.refuse_wf, State.endTxn_wf,
    State.settleHome_wf]

theorem State.tableStep_wf (sWf : s.MemWf) (e : s.tableStep line = some z) : z.MemWf := by
  grind [State.tableStep, State.modTxn_wf, State.settleHome_wf, State.sendTinv_wf]

theorem State.tinvStep_wf {quad : Nat} (sWf : s.MemWf) (e : s.tinvStep quad line = some z) : z.MemWf := by
  grind [State.tinvStep, State.modQuad_wf, State.tinvAt_wf]

theorem State.tackStep_wf {quad : Nat} (sWf : s.MemWf) (e : s.tackStep quad line = some z) : z.MemWf := by
  grind [State.tackStep, State.settleHome_wf, State.modTxn_wf, State.modQuad_wf]

theorem State.lseStep_wf (sWf : s.MemWf) (e : s.lseStep line = some z) : z.MemWf := by
  grind [State.lseStep, State.endTxn_wf, State.settleHome_wf, State.performHome_wf, State.stampWrite_wf,
    State.servePeer_wf]

theorem State.probeStep_wf {p : ProbeKind} (sWf : s.MemWf) (e : s.probeStep core line p = some z) : z.MemWf := by
  grind [State.probeStep, State.send_wf, State.modCore_wf, → State.take?_wf]

theorem State.grantStep_wf (sWf : s.MemWf) (e : s.grantStep core line = some z) : z.MemWf := by
  grind [State.grantStep, State.send_wf, State.fillL1_wf, State.putL2_wf, State.performAll_wf, State.dropSynonyms_wf,
    State.lostAccs_wf, State.modCore_wf, → State.take?_wf]

theorem State.wbAckStep_wf (sWf : s.MemWf) (e : s.wbAckStep core line = some z) : z.MemWf := by
  grind [State.wbAckStep, State.modCore_wf, → State.take?_wf]

theorem State.cleanStep_wf (sWf : s.MemWf) (e : s.cleanStep core line = some z) : z.MemWf := by
  grind [State.cleanStep, State.setTrack_wf, State.modCore_wf, State.putL2_wf, → State.take?_wf]

theorem State.leaseStep_wf (sWf : s.MemWf) (e : s.leaseStep core line = some z) : z.MemWf := by
  unfold State.leaseStep at e
  split at e <;> cases e
  exact sWf

theorem State.sendDir_wf {r : LineReq} (sWf : s.MemWf) (e : s.sendDir core r = .ok z) : z.MemWf := by
  grind [State.sendDir, State.dropSynonyms_wf, State.send_wf, State.placeFor_wf, State.modCore_wf, State.touchL1_wf,
    State.performAll_wf]

theorem State.askPeer_wf {tr : Option Trans} {accs : List Acc} {f : Nat → Flit} (sWf : s.MemWf) : (s.askPeer core
    line ctx vline tr lease accs f).MemWf :=
  sWf

theorem State.sendPeer_wf {r : LineReq} (sWf : s.MemWf) : (s.sendPeer core r lease).MemWf := by
  grind [State.sendPeer, State.askPeer_wf, foldl_wf]

theorem State.sendStore_wf {a : Acc} (sWf : s.MemWf) : (s.sendStore core coh line a).MemWf := by
  unfold State.sendStore
  (repeat' split) <;> grind [State.arrive_wf, State.askPeer_wf, State.widen_wf, State.modGroup_wf]

theorem State.sendLse.go_wf {r : LineReq} {loads : Bool} (sWf : s.MemWf) (e : State.sendLse.go core r lease s loads
    = .ok z) : z.MemWf := by
  grind [State.sendLse.go, State.send_wf, State.sendPeer_wf]

theorem State.sendLse_wf {r : LineReq} (sWf : s.MemWf) (e : s.sendLse core r lease = .ok z) : z.MemWf := by
  grind [State.sendLse, State.sendLse.go_wf, State.modCore_wf, State.touchL1_wf, State.performAll_wf]

theorem State.sendLine_wf {r : LineReq} {wide : Bool} (sWf : s.MemWf) (e : s.sendLine core r lease wide = .ok z) :
    z.MemWf := by
  grind [State.sendLine, State.sendPeer_wf, State.sendLse_wf, State.sendDir_wf, State.send_wf]

/-! ### Machine/Fetch -/

theorem State.probeNow_wf {a2 : List (Nat × ProbeKind)} (sWf : s.MemWf) : (s.probeNow line a2).2.MemWf := by
  induction a2 generalizing s with
  | nil => exact sWf
  | cons p ps ih =>
    simp only [State.probeNow]
    exact ih (State.modCore_wf sWf)

theorem State.fillFetch_wf {tr : Trans} {res : Row} (sWf : s.MemWf) (e : s.fillFetch core ctx vline line tr = .ok
    (res, z)) : z.MemWf := by
  grind [State.fillFetch, State.setTrack_wf, State.modCore_wf, State.probeNow_wf, State.useL2_wf, State.heatLine_wf,
    State.putL2_wf, → State.trackFor_wf]

theorem State.fetchBytes_wf {a3 : List (Nat × Nat × Trans)} (sWf : s.MemWf) (e : s.fetchBytes core ctx a3 = .ok
    (res, z)) : z.MemWf := by
  induction a3 generalizing s res z with
  | nil => cases e; exact sWf
  | cons p ps ih =>
    simp only [State.fetchBytes] at e
    (repeat' split at e) <;> grind [→ State.fillFetch_wf, State.modCore_wf]

theorem State.fetch_wf (sWf : s.MemWf) {w0 : BitVec 96} (e : s.fetch core ctx sup pc = .ok w0 z) : z.MemWf := by
  simp only [State.fetch] at e
  (repeat' split at e) <;> grind [→ State.useAll_wf, → State.fetchBytes_wf]

theorem State.fetchAhead_wf {a5 : Nat} (sWf : s.MemWf) : (s.fetchAhead h g p pc a5).MemWf := by
  fun_induction State.fetchAhead s h g p pc a5 <;> grind [State.modGroup_wf, → State.fetch_wf]

/-! ### Machine/Flags -/

theorem State.appendAsh_wf {recs : List AshRec} {res : List (Nat × Word)} (sWf : s.MemWf) (e : s.appendAsh h g pc
    recs = .ok (z, res)) : z.MemWf := by
  induction recs generalizing s res z with
  | nil => cases e; exact sWf
  | cons p ps ih =>
    simp only [State.appendAsh] at e
    (repeat' split at e) <;> grind [→ State.vRecord_wf, State.modGroup_wf]

/-! ### Machine/Issue -/

theorem State.issuer_wf (sWf : s.MemWf) : (s.issuer).Wf := by
  grind [State.issuer, Begin.Wf]

theorem Iss.block_wf {w : Wait} (sWf : s.MemWf) : (x.block w s).MemWf := State.modGroup_wf sWf

theorem Iss.raiseIn_wf {r : Raise} (sWf : s.MemWf) : (x.raiseIn s r).MemWf := by
  grind [Iss.raiseIn, State.raise_wf, State.modGroup_wf]

theorem Iss.masked_wf (xWf : x.s.MemWf) : (x.masked i).s.MemWf := xWf

theorem Iss.waitIn_wf {w : Wait} (sWf : s.MemWf) : (x.waitIn i w s).MemWf := State.modGroup_wf sWf

theorem Iss.drop_wf (xWf : x.s.MemWf) : (x.drop).MemWf := State.modGroup_wf xWf

theorem Iss.skipOver_wf {srcs : List Use} (xWf : x.s.MemWf) : (x.skipOver i srcs).MemWf := by
  grind [Iss.skipOver, Iss.block_wf, State.setGroup_wf, Iss.drop_wf]

theorem Iss.beginQ_wf (xWf : x.s.MemWf) : (x.beginQ i).Wf := by
  grind [Iss.beginQ, Begin.Wf, Iss.block_wf, Iss.raiseIn_wf]

theorem Iss.beginRegs_wf (xWf : x.s.MemWf) : (x.beginRegs i).Wf := by
  grind [Iss.beginRegs, Begin.Wf, Iss.beginQ_wf, Iss.block_wf, Iss.raiseIn_wf]

theorem Iss.beginRole_wf (xWf : x.s.MemWf) : (x.beginRole i).Wf := by
  unfold Iss.beginRole
  (repeat' split) <;> grind [Begin.Wf, Iss.beginRegs_wf, Iss.raiseIn_wf]

theorem Iss.start_wf (xWf : x.s.MemWf) : (x.start i).Wf := by
  grind [Iss.start, Begin.Wf, Iss.beginRole_wf, Iss.skipOver_wf, Iss.masked_wf, Iss.block_wf]

theorem Iss.complete_wf {fl : List (Nat × Word)} {ash : List AshRec} (xWf : x.s.MemWf) : (x.complete i gr fl
    ash).MemWf := by
  grind [Iss.complete, State.asks_wf, Iss.raiseIn_wf, State.modGroup_wf, State.setGroup_wf, → State.appendAsh_wf,
    State.askWalks_wf, Iss.waitIn_wf]

theorem Iss.finish_wf {r : Res} (xWf : x.s.MemWf) (rWf : Res.Wf r) (e : x.finish i r = .next z) : z.MemWf := by
  cases rWf <;> cases e
  · exact Iss.complete_wf xWf
  · exact Iss.raiseIn_wf xWf
  · assumption
  · exact Iss.waitIn_wf ‹_›

theorem Iss.launchOp_wf (xWf : x.s.MemWf) : (x.launchOp i o).MemWf := State.setGroup_wf xWf

theorem Iss.holdOp_wf (xWf : x.s.MemWf) : (x.holdOp i o).MemWf := State.setGroup_wf xWf

theorem State.begin_wf (sWf : s.MemWf) : (s.begin i).Wf := by
  grind [State.begin, Begin.Wf, Iss.start_wf, State.issuer_wf]

theorem issue_wf {body : Iss → Res} (sWf : s.MemWf) (bodyWf : ∀ x, x.s.MemWf → (body x).Wf) (e : issue i s body =
    .next z) : z.MemWf := by
  grind [issue, Res.Wf, Begin.Wf, Iss.finish_wf, State.begin_wf]

theorem event_wf {name : String} {r : Option State} (rWf : ∀ t, r = some t → t.MemWf) (e : event name r = .next z) :
    z.MemWf := by
  unfold event at e
  (repeat' split at e) <;> grind

/-! ### Machine/ApQueues -/

theorem nestBody_wf (xWf : x.s.MemWf) : (nestBody a x).Wf := by
  grind [nestBody, intro Res.Wf, State.setGroup_wf]

theorem State.nestStep_wf (sWf : s.MemWf) (e : s.nestStep h g = some z) : z.MemWf := by
  grind [State.nestStep, State.setGroup_wf]

theorem apsendBody_wf {j : Nat} (xWf : x.s.MemWf) : (apsendBody i j b x).Wf := by
  grind [apsendBody, intro Res.Wf, State.setGroup_wf]

theorem apermitBody_wf {j : Nat} (xWf : x.s.MemWf) : (apermitBody i j b x).Wf := .state (State.setGroup_wf xWf)

/-! ### Machine/Cluster -/

theorem State.answer_wf {ws : List Word} (sWf : s.MemWf) : (s.answer h g seq ws).MemWf := State.modGroup_wf sWf

theorem State.setJoined_wf {j : Bool} (sWf : s.MemWf) : (s.setJoined h g j).MemWf := State.modGroup_wf sWf

theorem State.decideJoin_wf (sWf : s.MemWf) : (s.decideJoin h g seq k).MemWf := by
  unfold State.decideJoin
  (repeat' split) <;> grind [State.setJoined_wf, State.answer_wf, State.modWg_wf]

theorem State.join_wf (sWf : s.MemWf) : (s.join h g seq k).MemWf := by
  grind [State.join, State.decideJoin_wf]

theorem State.installStep_wf (sWf : s.MemWf) (e : s.installStep h core = some z) : z.MemWf := by
  grind [State.installStep, State.answer_wf, State.modWg_wf]

theorem State.cleave_wf {by_ : Option (Nat × Nat)} (sWf : s.MemWf) : (s.cleave h g by_).2.MemWf := by
  grind [State.cleave, State.setJoined_wf, State.modWg_wf]

theorem State.revokeStep_wf {member : Nat} (sWf : s.MemWf) (e : s.revokeStep h core member = some z) : z.MemWf := by
  grind [State.revokeStep, State.laneGone_wf, State.dropWaiters_wf, State.modWg_wf, foldl_wf]

theorem State.cleaveDone_wf (sWf : s.MemWf) (e : s.cleaveDone h core = some z) : z.MemWf := by
  grind [State.cleaveDone, State.join_wf, State.answer_wf, State.modWg_wf, State.leavePhases_wf, foldl_wf]

/-! ### Machine/Paths -/

theorem Iss.after_wf {r : VRes α} {k : α → Res} (xWf : x.s.MemWf) (kWf : ∀ a, r = .ok a → Res.Wf (k a)) : (x.after r
    k).Wf := by
  unfold Iss.after
  (repeat' split) <;> grind [intro Res.Wf, State.asks_wf]

theorem State.traceAt_wf (sWf : s.MemWf) (e : s.traceAt h g p pc target = .ok z) : z.MemWf := by
  grind [State.traceAt, State.appendSample_wf]

theorem Iss.transfer_wf (xWf : x.s.MemWf) : (x.transfer i target f).Wf := by
  grind [Iss.transfer, intro Res.Wf, State.modGroup_wf, → State.traceAt_wf, Iss.after_wf, State.setGroup_wf]

theorem State.readEnts_wf {i : Nat} {res : List StackEnt} (sWf : s.MemWf) (e : s.readEnts h g w gr p i n = .ok (res,
    z)) : z.MemWf := by
  grind [State.readEnts, → State.vLoad_wf]

theorem State.pushEnt_wf {e : StackEnt} (sWf : s.MemWf) (e : s.pushEnt h g p e = .ok z) : z.MemWf := by
  unfold State.pushEnt at e
  split at e
  · dsimp only at e
    split at e
    · cases e; exact State.modGroup_wf sWf
    · split at e
      · cases e
      · generalize hv : State.vStores _ _ _ _ _ = r at e
        cases r <;> cases e
        exact State.modGroup_wf (State.vStores_wf sWf hv)
  · cases e; exact sWf

theorem State.fillEnts_wf (sWf : s.MemWf) (e : s.fillEnts h g p = .ok z) : z.MemWf := by
  grind [State.fillEnts, State.modGroup_wf, → State.readEnts_wf]

theorem State.popEnt_wf (sWf : s.MemWf) (e : s.popEnt h g p = .ok z) : z.MemWf := by
  grind [State.popEnt, State.modGroup_wf, State.fillEnts_wf]

theorem Iss.keepLimit_wf (xWf : x.s.MemWf) : (x.keepLimit).MemWf := State.modGroup_wf xWf

theorem Iss.fencing_wf {sc : Scope} {k : Res} (xWf : x.s.MemWf) (kWf : Res.Wf k) : (x.fencing sc k).Wf := by
  grind [Iss.fencing, intro Res.Wf, Iss.keepLimit_wf]

/-! ### Machine/Control -/

theorem Iss.uniformTo_wf (xWf : x.s.MemWf) : (x.uniformTo i target f).Wf := by
  grind [Iss.uniformTo, intro Res.Wf, State.setGroup_wf, Iss.transfer_wf]

theorem nopBody_wf (_ : x.s.MemWf) : (nopBody x).Wf := .done _ _ _

theorem braBody_wf {t : Target} (xWf : x.s.MemWf) : (braBody i t x).Wf := Iss.uniformTo_wf xWf

theorem jmpBody_wf (xWf : x.s.MemWf) : (jmpBody i a x).Wf := Iss.uniformTo_wf xWf

theorem callBody_wf {t : Target} (xWf : x.s.MemWf) : (callBody i d t x).Wf := Iss.uniformTo_wf xWf

theorem callrBody_wf (xWf : x.s.MemWf) : (callrBody i d a x).Wf := Iss.uniformTo_wf xWf

theorem Iss.diverge_wf {split : Bool} {t : Mask} (xWf : x.s.MemWf) : (x.diverge i k target split t).Wf := by
  grind [Iss.diverge, intro Res.Wf, State.modGroup_wf, → State.pushEnt_wf, Iss.after_wf]

theorem brxBody_wf {c : Ctl} {k : BitVec 6} {t : Target} (xWf : x.s.MemWf) : (brxBody c k t x).Wf := by
  grind [brxBody, intro Res.Wf, Iss.diverge_wf, Iss.transfer_wf]

theorem Iss.merged_wf {m : Mask} (xWf : x.s.MemWf) : (x.merged i m f).Wf := by
  grind [Iss.merged, intro Res.Wf, State.modGroup_wf, → State.traceAt_wf, → State.popEnt_wf, Iss.after_wf]

theorem Iss.joining_wf (xWf : x.s.MemWf) : (x.joining i).Wf := by
  grind [Iss.joining, intro Res.Wf, State.setGroup_wf, State.latch_wf]

theorem reconvBody_wf {c : Ctl} {k : BitVec 6} (xWf : x.s.MemWf) : (reconvBody c k x).Wf := by
  grind [reconvBody, intro Res.Wf, State.modGroup_wf, → State.popEnt_wf, Iss.merged_wf, State.setGroup_wf,
    Iss.joining_wf, → State.fillEnts_wf, Iss.after_wf]

theorem Iss.unwindAll_wf {gone : Mask} {st : List StackEnt} {spilled : Nat} {a5 : Nat} {res : (Unwound × Nat)} (sWf
    : s.MemWf) (e : x.unwindAll s gone st spilled a5 = .ok (res, z)) : z.MemWf := by
  fun_induction Iss.unwindAll x s gone st spilled a5 <;> grind [→ State.readEnts_wf]

theorem State.endGroup_wf (sWf : s.MemWf) : (s.endGroup h g).MemWf := by
  grind [State.endGroup, State.modGroup_wf, State.latch_wf, State.cleave_wf]

theorem Iss.exited_wf {u : Unwound} {spilled : Nat} (xWf : x.s.MemWf) (sWf : s.MemWf) : (x.exited i gr u spilled
    s).Wf := by
  unfold Iss.exited
  extract_lets gr' gr'' last
  split
  · exact .state (State.latch_wf (State.setGroup_wf sWf))
  · refine Iss.fencing_wf xWf ?_
    split
    · exact .state (State.endGroup_wf (State.setGroup_wf sWf))
    · exact .stall _ (Iss.keepLimit_wf xWf)

theorem exitBody_wf {c : Ctl} (xWf : x.s.MemWf) : (exitBody c x).Wf := by
  grind [exitBody, intro Res.Wf, Iss.exited_wf, → Iss.unwindAll_wf, Iss.after_wf, State.setGroup_wf]

theorem execNotAnInstruction_wf {w : BitVec 96} (sWf : s.MemWf) (e : execNotAnInstruction w s = .next z) : z.MemWf
    := by
  grind [execNotAnInstruction, Begin.Wf, Iss.skipOver_wf, Iss.block_wf, Iss.raiseIn_wf, State.issuer_wf]

/-! ### Machine/Memory -/

theorem State.sendLines_wf {wide : Bool} {a4 : List LineReq} (sWf : s.MemWf) (e : s.sendLines core lease wide a4 =
    some z) : z.MemWf := by
  fun_induction State.sendLines s core lease wide a4 <;> grind [→ State.sendLine_wf]

theorem Iss.using_wf {ts : List Trans} {go : State → Res} (xWf : x.s.MemWf) (goWf : ∀ s, s.MemWf → Res.Wf (go s)) :
    (x.using wr ts go).Wf := by
  grind [Iss.using, intro Res.Wf, State.asks_wf, → State.useAll_wf]

theorem Iss.access_wf {q : MemReq} {scope : Scope} {isStore : Bool} {hold : Bool} {wide : Bool} (xWf : x.s.MemWf) :
    (x.access i q scope isStore hold wide).Wf := by
  grind [Iss.access, intro Res.Wf, State.sendBanks_wf, → State.sendLines_wf, State.modGroup_wf, Iss.launchOp_wf,
    Iss.holdOp_wf, Iss.using_wf, Iss.raiseIn_wf, State.askWalks_wf, State.dropFaults_wf]

theorem ldBody_wf {f : LdForm} {qual : Qual} (xWf : x.s.MemWf) : (ldBody i f qual x).Wf := Iss.access_wf xWf

theorem stBody_wf {f : StForm} {qual : Qual} (xWf : x.s.MemWf) : (stBody i f qual x).Wf := by
  grind [stBody, intro Res.Wf, Iss.access_wf]

theorem State.prefetch_wf {t : Trans} {own : Bool} (sWf : s.MemWf) : (s.prefetch core ctx va line t own lease).MemWf
    := by
  grind [State.prefetch, State.askPeer_wf, State.dropSynonyms_wf, State.modCore_wf, State.send_wf, State.placeFor_wf]

theorem prefBody_wf {own : Bool} {win : Win} {off : Opnd} (xWf : x.s.MemWf) : (prefBody i own win a off x).Wf := by
  grind [prefBody, intro Res.Wf, State.modGroup_wf, State.prefetch_wf, State.dropFaults_wf, Iss.using_wf,
    State.askWalks_wf, foldl_wf]

theorem atomBody_wf {op : AtomOp} {win : Win} {ord : Ord4} (xWf : x.s.MemWf) : (atomBody i op win scope ord t a b
    x).Wf := by
  grind [atomBody, intro Res.Wf, Iss.fencing_wf, Iss.access_wf]

/-! ### Machine/Copy -/

theorem State.decideCopy_wf (sWf : s.MemWf) : (s.decideCopy core h g seq ctx).MemWf := by
  grind [State.decideCopy, State.modGroup_wf, State.modCore_wf]

theorem State.startResolving_wf {es : List PnEnt} (sWf : s.MemWf) (e : s.startResolving es = some z) : z.MemWf := by
  unfold State.startResolving at e
  split at e <;> cases e
  exact sWf

theorem State.supersede_wf {a : Nat} (sWf : s.MemWf) : (s.supersede a n).MemWf := by
  grind [State.supersede, State.cutWindow_wf, State.trimLine_wf, foldl_wf]

theorem State.coverLine_wf (sWf : s.MemWf) : (s.coverLine coh line).MemWf := by
  grind [State.coverLine, State.takeBack_wf, State.dropL2_wf]

theorem State.resolveSet_wf {es : List PnEnt} (sWf : s.MemWf) (e : s.resolveSet es = .ok z ∨ s.resolveSet es = .part
    z) : z.MemWf := by
  grind [State.resolveSet, State.resolveEntry_wf, → State.startResolving_wf, foldl_wf]

theorem State.enterEntry_wf {dst : List Seg} {n : PnEnt} {ante : List Nat} (sWf : s.MemWf) (e : s.enterEntry dst n
    ante = .ok z ∨ s.enterEntry dst n ante = .part z) : z.MemWf := by
  grind [State.enterEntry, State.shareLine_wf, State.coverLine_wf, State.supersede_wf, State.clearLost_wf, foldl_wf]

theorem State.recordRun_wf {r : CopyRun} {n : PnEnt} (sWf : s.MemWf) (e : s.recordRun r n = .ok z ∨ s.recordRun r n
    = .part z) : z.MemWf := by
  grind [State.recordRun, → State.enterEntry_wf, → State.resolveSet_wf]

theorem State.readLines_wf {a1 : List Nat} {res : List (Nat × Row)} (sWf : s.MemWf) (e : s.readLines a1 = .ok (res,
    z)) : z.MemWf := by
  induction a1 generalizing s res z with
  | nil => cases e; exact sWf
  | cons l ls ih =>
    simp only [State.readLines] at e
    (repeat' split at e) <;> grind [→ State.readLine_wf]

theorem State.formBytes_wf {r : CopyRun} {y : Nat} (sWf : s.MemWf) (e : s.formBytes r y n = .ok (res, z)) : z.MemWf
    := by
  grind [State.formBytes, → State.readLines_wf]

theorem State.listBytes_wf {r : CopyRun} (sWf : s.MemWf) (e : s.listBytes r = .ok (res, z)) : z.MemWf := by
  grind [State.listBytes, → State.readLines_wf]

theorem State.writePiece_wf {r : CopyRun} {place : Place} {cs : List (Nat × List Byte)} (sWf : s.MemWf) :
    (s.writePiece core r place coh va cs).MemWf := by
  grind [State.writePiece, State.engineWrite_wf, State.sendStore_wf, foldl_wf]

theorem State.eagerStep_wf {r : CopyRun} {res : CopyRun} (sWf : s.MemWf) (e : s.eagerStep core r = .ok (res, z)) :
    z.MemWf := by
  grind [State.eagerStep, State.writePiece_wf, → State.formBytes_wf, → State.listBytes_wf]

theorem State.putRun_wf {i : Nat} {r : CopyRun} {time : Bool} (sWf : s.MemWf) : (s.putRun core i r time).MemWf := by
  grind [State.putRun, State.modGroup_wf, State.modCore_wf]

theorem State.loseRun_wf {i : Nat} {r : CopyRun} (sWf : s.MemWf) : (s.loseRun core i r line).MemWf := by
  grind [State.loseRun, State.modGroup_wf, State.putRun_wf]

theorem State.runStep_wf {i : Nat} (sWf : s.MemWf) (e : s.runStep core i = some z) : z.MemWf := by
  unfold State.runStep at e
  (repeat' split at e) <;> grind +splitImp [State.eagerStep_wf, State.putRun_wf, State.loseRun_wf, State.begin?_wf,
    State.recordRun_wf, State.decideCopy_wf]

theorem State.copyStep_wf (sWf : s.MemWf) (e : s.copyStep core = some z) : z.MemWf := by
  obtain ⟨i, -, hi⟩ := List.exists_of_findSome?_eq_some e
  exact State.runStep_wf sWf hi

theorem State.enqueueCopy_wf {rs : List CopyRun} (sWf : s.MemWf) : (s.enqueueCopy core rs).MemWf := sWf

theorem State.useCopy_wf {writes : List Trans} {reads : List Trans} (sWf : s.MemWf) (e : s.useCopy core writes reads
    = .ok z) : z.MemWf := by
  grind [State.useCopy, → State.useAll_wf]

theorem copyBody_wf {j : CopyJob} (xWf : x.s.MemWf) : (copyBody i scope d a j x).Wf := by
  unfold copyBody
  extract_lets da sa listing sideKind dst src side all fault n proto runs lists used writes reads _ o
  refine wf_ite (.trap _) (wf_ite (.done _ _ _) ?_)
  clear_value all fault
  cases all.findSome? (·.bad) with
  | some f => exact .trap _
  | none =>
    refine wf_ite (.stall _ (State.askWalks_wf (State.askWalks_wf (State.askWalks_wf xWf)))) ?_
    cases hu : x.s.useCopy x.gr.core writes reads with
    | wait as => exact .stall _ (State.asks_wf xWf)
    | ok t =>
      have h : t.MemWf := State.useCopy_wf xWf hu
      have hd : (t.dropFaults x.gr.core x.w.ctx).MemWf := State.dropFaults_wf h
      cases fault with
      | none => exact .state (State.enqueueCopy_wf (Iss.launchOp_wf h))
      | some f =>
        exact wf_ite (.state (Iss.raiseIn_wf (State.modGroup_wf hd)))
          (.state (State.enqueueCopy_wf (State.modGroup_wf (Iss.holdOp_wf hd))))

/-! ### Machine/Dist -/

theorem State.setQueue_wf {prio : Nat} {q : List Queued} (sWf : s.MemWf) : (s.setQueue prio q).MemWf := sWf

theorem State.respond_wf {page : Nat} {status : Nat} {handle : Nat} (sWf : s.MemWf) : (s.respond page slot seq
    status handle).MemWf :=
  State.setGran_wf sWf

theorem State.answerLaunch_wf {r : LaunchReq} {status : Nat} {handle : Nat} (sWf : s.MemWf) : (s.answerLaunch r
    status handle).MemWf := by
  grind [State.answerLaunch, State.respond_wf, State.answer_wf]

theorem State.launchStep_wf (sWf : s.MemWf) (e : s.launchStep = some z) : z.MemWf := by
  grind [State.launchStep, State.setQueue_wf, State.answerLaunch_wf]

theorem State.takeFloor_wf (sWf : s.MemWf) : (s.takeFloor h g pool).MemWf := by
  grind [State.takeFloor, State.modCore_wf, State.modGroup_wf]

theorem State.startGroup_wf (sWf : s.MemWf) : (s.startGroup h g).MemWf := by
  grind [State.startGroup, State.modGroup_wf, State.takeFloor_wf]

theorem State.flushTenancy_wf (sWf : s.MemWf) : (s.flushTenancy core ten).MemWf := by
  grind [State.flushTenancy, State.modCore_wf, State.evictLine_wf, foldl_wf]

theorem State.takeTenancy_wf (sWf : s.MemWf) : (s.takeTenancy core ten).MemWf := by
  grind [State.takeTenancy, State.modCore_wf, State.flushTenancy_wf]

theorem State.placeNew_wf {q : Queued} {cores : List Nat} (sWf : s.MemWf) : (s.placeNew q ten cores).MemWf := by
  grind [State.placeNew, State.startGroup_wf, State.takeTenancy_wf, State.setWg_wf, foldl_wf]

theorem State.loadRegions_wf {a2 : List (Nat × WgCore)} {res : List WgCore} (sWf : s.MemWf) (e : s.loadRegions w a2
    = .ok (res, z)) : z.MemWf := by
  induction a2 generalizing s res z with
  | nil => cases e; exact sWf
  | cons p ps ih =>
    simp only [State.loadRegions] at e
    (repeat' split at e) <;> grind [→ State.vLoad_wf]

theorem State.loadGroups_wf {cores : List Nat} {a3 : List (Nat × Group)} {res : SMap Group} (sWf : s.MemWf) (e :
    s.loadGroups w cores a3 = .ok (res, z)) : z.MemWf := by
  induction a3 generalizing s res z with
  | nil => cases e; exact sWf
  | cons p ps ih =>
    obtain ⟨g, gr⟩ := p
    delta State.loadGroups at e
    rw [brecOn_cons] at e
    delta State.loadGroups._f at e
    dsimp -zeta only at e
    extract_lets core moved more at e
    have hm : ∀ y s, s.MemWf → more y s = .ok (res, z) → z.MemWf := fun y s h e => by
      unfold more at e
      split at e
      next _ hx => cases e; exact ih h (by delta State.loadGroups; exact hx)
      · exact ih h (by delta State.loadGroups; exact e)
    clear_value more moved
    split at e
    · exact hm _ _ sWf e
    · split at e
      · exact hm _ _ sWf e
      · generalize hr : s.readImage _ _ _ _ = r at e
        rcases r with ⟨m, t⟩ | _ | _ | _
        · exact hm _ _ (State.readImage_wf sWf hr) e
        all_goals cases e

theorem State.reclaim_wf {cs : List (Nat × Pool × Nat × Nat)} (sWf : s.MemWf) : (s.reclaim h cs).MemWf := by
  grind [State.reclaim, State.modCore_wf, foldl_wf]

theorem State.placeAgain_wf {old : Workgroup} {cores : List Nat} (sWf : s.MemWf) (e : s.placeAgain old ten cores =
    .ok z) : z.MemWf := by
  grind [State.placeAgain, State.reclaim_wf, State.startGroup_wf, State.unarrive_wf, State.setWg_wf,
    State.takeTenancy_wf, → State.loadGroups_wf, → State.loadRegions_wf, foldl_wf]

theorem State.placeOne_wf {q : Queued} (sWf : s.MemWf) (e : s.placeOne q = some (.ok z)) : z.MemWf := by
  simp only [State.placeOne] at e
  split at e
  · cases e
  · split at e
    · cases e; exact State.placeNew_wf sWf
    · split at e
      · cases e; exact State.killWg_wf (State.setWg_wf sWf)
      · exact State.placeAgain_wf (s := { s with lastDie := List.headD _ 0 / 128 }) sWf (Option.some.inj e)

theorem State.placeAll_wf {a1 : List Queued} (sWf : s.MemWf) (e : s.placeAll a1 = some (.ok z)) : z.MemWf := by
  fun_induction State.placeAll s a1 <;> grind [→ State.placeOne_wf]

theorem State.tryQueue_wf {prio : Nat} (sWf : s.MemWf) (e : s.tryQueue prio = .placed (.ok z)) : z.MemWf := by
  grind [State.tryQueue, State.setQueue_wf, State.placeAll_wf]

theorem State.placeFrom_wf {a1 : List Nat} (sWf : s.MemWf) (e : s.placeFrom a1 = some z) : z.MemWf := by
  fun_induction State.placeFrom s a1 <;> grind [→ State.asked?_wf, → State.tryQueue_wf]

theorem State.placementStep_wf (sWf : s.MemWf) (e : s.placementStep = some z) : z.MemWf := by
  grind [State.placementStep, State.placeFrom_wf]

theorem State.reserveStep_wf {prio : Nat} (sWf : s.MemWf) (e : s.reserveStep prio = some z) : z.MemWf := by
  grind [State.reserveStep, State.setQueue_wf]

theorem State.swapStep_wf (sWf : s.MemWf) (e : s.swapStep core = some z) : z.MemWf := by
  grind [State.swapStep, State.flushTenancy_wf, State.modCore_wf]

theorem State.swapBackStep_wf (sWf : s.MemWf) (e : s.swapBackStep core = some z) : z.MemWf := by
  grind [State.swapBackStep, State.modCore_wf]

theorem State.freeBytes_wf {a1 : Nat} (sWf : s.MemWf) : (s.freeBytes a1).2.MemWf := by
  induction a1 generalizing s with
  | zero => exact sWf
  | succ n ih => exact ih (s := s.free.2) sWf

theorem State.saveAll_wf (sWf : s.MemWf) (e : s.saveAll w = .ok z) : z.MemWf := by
  grind [State.saveAll, State.vStores_wf, State.freeBytes_wf]

theorem State.unplace_wf (sWf : s.MemWf) : (s.unplace w).MemWf := sWf

theorem State.saveStep_wf (sWf : s.MemWf) (e : s.saveStep h = some z) : z.MemWf := by
  grind [State.saveStep, State.killWg_wf, State.asks_wf, State.unplace_wf, → State.saveAll_wf, State.setWg_wf,
    State.stopWaiters_wf, foldl_wf]

theorem State.donePeer_wf {p : Piece} (sWf : s.MemWf) : (s.donePeer h p n).MemWf := sWf

theorem State.addDone_wf (sWf : s.MemWf) (e : s.addDone w n = .ok z) : z.MemWf := by
  simp only [State.addDone] at e
  (repeat' split at e) <;>
    grind [State.dstatEvent_wf, → State.usePieces_wf, → State.readPieces_wf, → State.writePieces_wf, State.donePeer_wf]

theorem State.removeWg_wf (sWf : s.MemWf) : (s.removeWg h).MemWf := sWf

theorem State.endStep_wf (sWf : s.MemWf) (e : s.endStep h = some z) : z.MemWf := by
  grind [State.endStep, State.asked?_wf, State.removeWg_wf, State.addDone_wf]

theorem State.dropWork_wf (sWf : s.MemWf) : (s.dropWork h).MemWf := sWf

theorem State.killSettleStep_wf (sWf : s.MemWf) (e : s.killSettleStep h = some z) : z.MemWf := by
  grind [State.killSettleStep, State.asks_wf, State.dstatEvent_wf, State.removeWg_wf, → State.addDone_wf,
    State.dropWork_wf]

theorem State.regionFreeStep_wf (sWf : s.MemWf) (e : s.regionFreeStep h core = some z) : z.MemWf := by
  grind [State.regionFreeStep, State.modWg_wf]

/-! ### Machine/Engine -/

theorem Iss.withImage_wf {k : Kind} {rs : List (Nat × Nat × Nat)} {go : Ranged → Res} (xWf : x.s.MemWf) (goWf : ∀ a,
    Res.Wf (go a)) : (x.withImage k rs go).Wf := by
  grind [Iss.withImage, intro Res.Wf, State.dropFaults_wf, Iss.raiseIn_wf, State.askWalks_wf]

theorem State.engRead_wf (sWf : s.MemWf) (e : s.engRead h g gr o = .some z) : z.MemWf := by
  grind [State.engRead, State.modGroup_wf, → State.begin?_wf, → State.readLine_wf]

theorem State.engWrite_wf (sWf : s.MemWf) (e : s.engWrite h g gr o = some z) : z.MemWf := by
  grind [State.engWrite, State.sendStore_wf, State.modGroup_wf, foldl_wf]

theorem State.engLocal_wf {img : List Byte} (sWf : s.MemWf) : (s.engLocal g o img).MemWf := by
  grind [State.engLocal, State.engineWrite_wf, foldl_wf]

theorem State.engAsh_wf {fl : Word} {recs : List AshRec} {res : Word} (sWf : s.MemWf) (e : s.engAsh h g o fl recs =
    .ok (z, res)) : z.MemWf := by
  grind [State.engAsh, → State.appendAsh_wf]

theorem State.copyFault_wf (sWf : s.MemWf) : (s.copyFault h g o).MemWf := by
  grind [State.copyFault, State.raise_wf, State.modGroup_wf]

theorem State.engineDone_wf {k : CtrClass} (sWf : s.MemWf) (e : s.engineDone h g k = some z) : z.MemWf := by
  grind [State.engineDone, State.copyFault_wf, State.modCore_wf, State.modGroup_wf, Option.map_eq_some_iff]

/-! ### Machine/TokenRec -/

theorem kvFail_wf {c : Cause} : TokM.Keeps (kvFail c (α := α)) := by
  unfold kvFail
  exact keeps_throw _

theorem Who.pieces_wf {q : TokPage} {k : Kind} : TokM.Keeps (Who.pieces c q k va n) := by
  refine keeps_bind keeps_get fun s => ?_
  dsimp only
  split
  · exact kvFail_wf
  · split
    · exact keeps_throw _
    · exact keeps_throw _
    · exact keeps_ite (keeps_pure _) kvFail_wf

theorem Who.fetch_wf : TokM.Keeps (Who.fetch c ps) := by
  intro s a t h e
  simp only [Who.fetch, StateT.run_bind, StateT.run_get, pure_bind] at e
  revert e
  generalize (!_ : Bool) = blocked
  cases blocked
  · intro e
    cases hu : s.usePieces c.core false ps with
    | ok u =>
      cases hr : u.readPieces ps with
      | ok r =>
        simp only [hu, hr] at e
        obtain ⟨⟩ := e
        exact State.readPieces_wf (State.usePieces_wf h hu) hr
      | _ => simp only [hu, hr] at e; cases e
    | _ => simp only [hu] at e; cases e
  · rintro ⟨⟩

theorem Who.read_wf {q : TokPage} : TokM.Keeps (Who.read c q va n) := by
  unfold Who.read
  exact keeps_bind Who.pieces_wf fun _ => Who.fetch_wf

theorem Who.arr_wf : TokM.Keeps (Who.arr c va) := by
  unfold Who.arr
  exact keeps_bind Who.read_wf fun _ => keeps_ite (keeps_pure _) kvFail_wf

theorem Who.poolForm_wf {k : Kind} {a : TokArr} : TokM.Keeps (Who.poolForm c k a) := by
  unfold Who.poolForm
  exact keeps_bind Who.pieces_wf fun _ => keeps_bind Who.fetch_wf fun _ => keeps_ite (keeps_pure _) kvFail_wf

theorem Who.pool_wf {k : Kind} {a : TokArr} : TokM.Keeps (Who.pool c k a) := by
  unfold Who.pool
  exact keeps_bind Who.poolForm_wf fun _ => keeps_ite (keeps_pure _) kvFail_wf

theorem Who.seq_wf {a : TokArr} {s : Nat} {all : Bool} {adm : Bool} : TokM.Keeps (Who.seq c a s all adm) := by
  unfold Who.seq
  exact keeps_bind Who.pieces_wf fun _ => keeps_bind keeps_get fun _ => keeps_ite (keeps_throw _) <|
    keeps_bind Who.fetch_wf fun _ => keeps_ite kvFail_wf <| keeps_ite (keeps_pure _) <| keeps_ite kvFail_wf <|
    keeps_ite (keeps_pure _) <| keeps_bind Who.read_wf fun _ => keeps_ite kvFail_wf (keeps_pure _)

theorem Who.puts_wf {a1 : List (Nat × List Byte)} : TokM.Keeps (Who.puts c a1) := by
  induction a1 with
  | nil => exact keeps_pure _
  | cons p ps ih => exact keeps_bind Who.pieces_wf fun _ => keeps_bind ih fun _ => keeps_pure _

/-! ### Machine/Tokens -/

theorem Iss.tokEnd_wf {m : TokM α} {go : α → State → Res} (xWf : x.s.MemWf) (mWf : TokM.Keeps m) (goWf : ∀ a s,
    s.MemWf → Res.Wf (go a s)) : (x.tokEnd i rec m go).Wf := by
  unfold Iss.tokEnd
  extract_lets raised
  split
  · exact .trap _
  · split
    · exact .stall _ (State.askWalks_wf xWf)
    · exact .stall _ xWf
    · exact .stall _ (State.asks_wf xWf)
    · exact .stall _ xWf
    · exact .state (Iss.raiseIn_wf (State.dropFaults_wf xWf))
    · exact goWf _ _ (mWf _ _ _ xWf ‹_›)

theorem Iss.token_wf {m : TokM TokPlan} (xWf : x.s.MemWf) (mWf : TokM.Keeps m) : (x.token i rec m).Wf := by
  grind [Iss.token, intro Res.Wf, Iss.launchOp_wf, State.asks_wf, → State.useCopy_wf, Iss.tokEnd_wf]

theorem Who.admitted_wf {b : SeqBlock} : TokM.Keeps (Who.admitted c b) := by
  unfold Who.admitted
  exact keeps_bind Who.arr_wf fun _ => keeps_ite kvFail_wf <| keeps_bind Who.seq_wf fun _ => keeps_ite (keeps_pure _) kvFail_wf

theorem Who.poolFor_wf {a : TokArr} : TokM.Keeps (Who.poolFor c a) := by
  unfold Who.poolFor
  exact keeps_bind Who.pool_wf fun _ => keeps_bind keeps_get fun _ => keeps_ite (keeps_throw _) (keeps_pure _)

theorem Who.parity_wf {a : TokArr} : TokM.Keeps (Who.parity c a) := by
  unfold Who.parity
  exact keeps_bind Who.read_wf fun _ => keeps_ite kvFail_wf (keeps_pure _)

theorem Who.slotPlaces_wf {p : TokPool} {a2 : List Nat} : TokM.Keeps (Who.slotPlaces c p a2) := by
  induction a2 with
  | nil => exact keeps_pure _
  | cons p ps ih => exact keeps_ite kvFail_wf <| keeps_bind Who.pieces_wf fun _ => keeps_bind ih fun _ => keeps_pure _

theorem Who.plan_wf {a : TokArr} {old : TokSeq} {new : TokSeq} {extra : TokPlan} : TokM.Keeps (Who.plan c a old new
    extra) := by
  refine keeps_bind Who.puts_wf fun puts => ?_
  extract_lets folding op admits rest
  have hr : ∀ pool, (rest pool).Keeps := fun pool => by
    refine keeps_ite (keeps_pure _) (keeps_bind Who.parity_wf fun ds => ?_)
    dsimp only
    split
    · exact keeps_bind Who.slotPlaces_wf fun _ => keeps_pure _
    · exact keeps_bind (keeps_pure _) fun _ => keeps_pure _
  exact keeps_ite (keeps_bind (keeps_pure _) hr)
    (keeps_bind Who.poolFor_wf fun _ => keeps_bind (keeps_pure _) hr)

theorem admitPlan_wf {b : SeqBlock} : TokM.Keeps (admitPlan c b v) := by
  unfold admitPlan
  exact keeps_bind Who.arr_wf fun _ => keeps_ite kvFail_wf <| keeps_bind Who.seq_wf fun _ =>
    keeps_ite (keeps_pure _) <| keeps_bind Who.poolFor_wf fun _ => Who.plan_wf

theorem admitRelPlan_wf {b : SeqBlock} : TokM.Keeps (admitRelPlan c b) := by
  unfold admitRelPlan
  exact keeps_bind Who.arr_wf fun _ => keeps_ite kvFail_wf <| keeps_bind Who.seq_wf fun _ =>
    keeps_ite (keeps_pure _) <| keeps_bind Who.poolFor_wf fun _ => keeps_ite kvFail_wf Who.plan_wf

theorem Iss.kvSource_wf : TokM.Keeps (Iss.kvSource x va n) := by
  refine keeps_bind keeps_get fun s => ?_
  dsimp only
  split
  · exact keeps_throw _
  · exact keeps_throw _
  · exact keeps_throw _
  · exact keeps_pure _

theorem Who.slotRows_wf {a1 : List (Nat × Nat × Nat)} : TokM.Keeps (Who.slotRows c a1) := by
  induction a1 with
  | nil => exact keeps_pure _
  | cons p ps ih => exact keeps_bind Who.pieces_wf fun _ => keeps_bind ih fun _ => keeps_pure _

theorem Who.topSlots_wf {p : TokPool} {need : Nat} : TokM.Keeps (Who.topSlots c p need) := by
  unfold Who.topSlots
  exact keeps_ite kvFail_wf <| keeps_bind Who.read_wf fun _ => keeps_ite kvFail_wf (keeps_pure _)

theorem kvappPlan_wf {b : SeqBlock} {src : Nat} : TokM.Keeps (kvappPlan x b src) := by
  unfold kvappPlan
  exact keeps_bind Who.admitted_wf fun _ => keeps_ite (keeps_pure _) <| keeps_ite kvFail_wf <|
    keeps_ite kvFail_wf <| keeps_bind Iss.kvSource_wf fun _ => keeps_bind Who.poolFor_wf fun _ =>
    keeps_bind Who.topSlots_wf fun _ => keeps_ite kvFail_wf <| keeps_bind Who.slotRows_wf fun _ => Who.plan_wf

theorem changePlan_wf {b : SeqBlock} {f : TokSeq → TokSeq} : TokM.Keeps (changePlan c b f) := by
  unfold changePlan
  exact keeps_bind Who.admitted_wf fun _ => Who.plan_wf

theorem State.tokLost_wf {t : TokenOp} (sWf : s.MemWf) : (s.tokLost t line).MemWf := State.modGroup_wf sWf

theorem State.setToken_wf {t : TokenOp} (sWf : s.MemWf) : (s.setToken t).MemWf := sWf

theorem pushPlan_wf {pool : Nat} {rsvd : Nat} {slots : List Nat} : TokM.Keeps (pushPlan c rec pool rsvd slots) := by
  unfold pushPlan
  exact keeps_bind Who.arr_wf fun _ => keeps_bind Who.poolForm_wf fun _ => keeps_ite kvFail_wf <|
    keeps_bind Who.pieces_wf fun _ => keeps_pure _

theorem State.putRecords_wf {ws : List (Nat × List Byte)} (sWf : s.MemWf) (e : s.putRecords ws = .ok z) : z.MemWf :=
    by
  unfold State.putRecords at e
  suffices H : ∀ z : State, _ = _ → z.MemWf from H z e
  refine List.foldlRecOn (motive := fun r : Coll State => ∀ z, r = .ok z → z.MemWf) _ _ ?_ ?_
  · rintro _ ⟨⟩
    exact sWf
  · rintro (t | _ | _) ht p - z e <;> try cases e
    exact State.writePhys_wf (ht _ rfl) e

theorem State.sendMirror_wf {peer : Option Nat} {ws : List (Nat × List Byte)} (sWf : s.MemWf) : (s.sendMirror peer
    ws).MemWf := by
  unfold State.sendMirror
  (repeat' split) <;> grind [State.sendFlit_wf]

theorem State.tokStep_wf {m : TokM α} {go : α → State → Option State} {stop : State → Option State} (sWf : s.MemWf)
    (mWf : TokM.Keeps m) (goWf : ∀ a s t, s.MemWf → go a s = some t → t.MemWf) (stopWf : ∀ s t, s.MemWf → stop s =
    some t → t.MemWf) (e : s.tokStep c m go stop = some z) : z.MemWf := by
  unfold State.tokStep at e
  split at e
  · cases e; exact State.askWalks_wf sWf
  · exact stopWf _ _ sWf e
  · exact State.asked?_wf sWf e
  · cases e
  · exact goWf _ _ _ (mWf _ _ _ sWf ‹_›) e

theorem State.poolOf_wf {t : TokenOp} (sWf : s.MemWf) (e : s.poolOf t = some z) : z.MemWf := by
  unfold State.poolOf at e
  dsimp only at e
  have write : ∀ {s : State} (u : TokenOp) (p : TokPool), s.MemWf → (match s.writePhys .dir p.pa p.bytes with
      | .ok s => some (s.setToken { u with step := .none })
      | .lost => some (s.tokLost u (lineOf p.pa))
      | .busy r => s.begin? r) = some z → z.MemWf := fun u p h e => by
    split at e
    · cases e; exact State.setToken_wf (State.writePhys_wf h ‹_›)
    · cases e; exact State.tokLost_wf h
    · exact State.begin?_wf h e
  split at e
  · cases e
  · refine State.tokStep_wf sWf pushPlan_wf (fun ws s t h e => ?_) (fun s t h e => ?_) e
    · split at e
      · have hp := State.putRecords_wf h ‹_›
        cases e
        exact hp
      · cases e; exact h
      · exact State.begin?_wf h e
    · cases e; exact h
  · split at e
    · exact State.begin?_wf sWf e
    · cases e; exact State.tokLost_wf sWf
    · have h := State.readPhys_wf sWf ‹_›
      split at e
      · split at e
        · cases e; exact State.setToken_wf h
        · exact write _ _ h e
      · exact write _ _ h e
      · exact write _ _ h e
      · cases e

theorem State.poolStep_wf (sWf : s.MemWf) (e : s.poolStep line = some z) : z.MemWf := by
  grind [State.poolStep, → State.poolOf_wf, Option.bind_eq_some_iff]

theorem State.rowStep_wf {t : TokenOp} {l : Nat} (sWf : s.MemWf) (e : s.rowStep t o l = .ok z) : z.MemWf := by
  unfold State.rowStep at e
  suffices H : ∀ z : State, _ = _ → z.MemWf from H z e
  refine List.foldlRecOn (motive := fun r : Coll State => ∀ z, r = .ok z → z.MemWf) _ _ ?_ ?_
  · rintro _ ⟨⟩
    exact sWf
  · rintro r ht g - z e
    grind [→ State.writeLine_wf]

theorem State.slotBytes_wf {gs : List Seg} (sWf : s.MemWf) (e : s.slotBytes gs = .ok (res, z)) : z.MemWf := by
  unfold State.slotBytes at e
  suffices H : ∀ bs (z : State), _ = Coll.ok (bs, z) → z.MemWf from H res z e
  refine List.foldlRecOn (motive := fun r : Coll (List Byte × State) => ∀ bs z, r = .ok (bs, z) → z.MemWf) _ _ ?_ ?_
  · rintro _ _ ⟨⟩
    exact sWf
  · rintro r ht p - ds z e
    grind [→ State.readPhys_wf]

theorem State.sendFolds_wf {folds : List (Nat × List Seg)} {a3 : List Nat} (sWf : s.MemWf) (e : s.sendFolds peer
    folds a3 = .ok z) : z.MemWf := by
  fun_induction State.sendFolds s peer folds a3 <;> grind [State.sendFlit_wf, → State.slotBytes_wf]

theorem State.freeSlots_wf {t : TokenOp} (sWf : s.MemWf) : (s.freeSlots t).MemWf := sWf

theorem State.tokUpdate_wf {t : TokenOp} (sWf : s.MemWf) (e : s.tokUpdate t = some z) : z.MemWf := by
  grind [State.tokUpdate, State.modGroup_wf, State.freeSlots_wf, State.sendMirror_wf, → State.putRecords_wf,
    State.tokLost_wf, → State.begin?_wf, → State.sendFolds_wf]

theorem State.tokenStep_wf (sWf : s.MemWf) (e : s.tokenStep line = some z) : z.MemWf := by
  unfold State.tokenStep at e
  (repeat' split at e) <;> grind [→ State.tokUpdate_wf, → State.rowStep_wf, State.tokLost_wf, → State.begin?_wf, →
    State.readLine_wf, State.modGroup_wf]

theorem State.pushStep_wf (sWf : s.MemWf) (e : s.pushStep line = some z) : z.MemWf := by
  unfold State.pushStep at e
  split at e
  · cases e
  · refine State.tokStep_wf sWf pushPlan_wf (fun ws s t h e => ?_) (fun s t h e => ?_) e
    · split at e
      · cases e; exact State.modGroup_wf (State.sendMirror_wf (State.putRecords_wf h ‹_›))
      · cases e; exact State.modGroup_wf h
      · exact State.begin?_wf h e
    · cases e; exact State.modGroup_wf h

theorem Who.slot_wf {kind : Kind} : TokM.Keeps (Who.slot c rec k kind) := by
  unfold Who.slot
  exact keeps_bind Who.arr_wf fun _ => keeps_bind Who.pool_wf fun _ => keeps_ite kvFail_wf <|
    keeps_bind Who.pieces_wf fun _ => keeps_bind Who.fetch_wf fun _ => keeps_pure _

theorem State.putSlot_wf (sWf : s.MemWf) (e : s.putSlot ps bs = .ok z) : z.MemWf := by
  unfold State.putSlot at e
  suffices H : ∀ z : State, _ = _ → z.MemWf from H z e
  refine List.foldlRecOn (motive := fun r : Coll State × List Byte => ∀ z, r.1 = .ok z → z.MemWf) _ _ ?_ ?_
  · rintro _ ⟨⟩
    exact sWf
  · rintro r ht g - z e
    grind [→ State.writePhys_wf]

theorem State.foldIn_wf (sWf : s.MemWf) (e : s.foldIn ctx rec slot bs = some z) : z.MemWf := by
  unfold State.foldIn at e
  refine State.tokStep_wf sWf Who.slot_wf (fun r s t h e => ?_) (fun s t h e => by cases e) e
  split at e
  · cases e
  · split at e
    · cases e; exact State.putSlot_wf h ‹_›
    · cases e

theorem State.parityStep_wf (sWf : s.MemWf) (e : s.parityStep ctx rec slot bs = some z) : z.MemWf := by
  grind [State.parityStep, State.foldIn_wf]

theorem Who.countsIn_wf {a : TokArr} {a3 : Nat} : TokM.Keeps (Who.countsIn c a slot a3) := by
  induction a3 with
  | zero => exact keeps_pure _
  | succ n ih => exact keeps_bind Who.seq_wf fun _ => keeps_ite (keeps_pure _) ih

theorem State.rebuildReadStep_wf (sWf : s.MemWf) (e : s.rebuildReadStep peer ctx rec slot = some z) : z.MemWf := by
  unfold State.rebuildReadStep at e
  refine State.tokStep_wf sWf ?_ (fun r s t h e => ?_) (fun s t h e => by cases e) e
  · exact TokM.keeps_bind Who.slot_wf fun _ => TokM.keeps_ite
      (TokM.keeps_bind Who.parity_wf fun _ => TokM.keeps_pure _)
      (TokM.keeps_bind Who.countsIn_wf fun _ => TokM.keeps_pure _)
  · split at e
    · cases e; exact State.sendFlit_wf h
    · split at e
      · cases e
      · cases e; exact foldl_wf (fun _ _ h => State.sendFlit_wf h) _ h

theorem State.releaseFolds_wf {k : Nat × Nat × Nat × Option Nat} (sWf : s.MemWf) (e : s.releaseFolds k = some z) :
    z.MemWf := by
  grind [State.releaseFolds, → State.foldIn_wf, Option.map_eq_some_iff]

theorem State.parityAnswer_wf {k : Nat × Nat × Nat × Option Nat} {answers : List (Option (List Byte))} (sWf :
    s.MemWf) (e : s.parityAnswer k answers = some z) : z.MemWf := by
  unfold State.parityAnswer at e
  split at e
  · exact State.releaseFolds_wf sWf e
  · split at e
    · cases e
    · split at e
      · cases e; exact State.sendFlit_wf (s := { s with parityHold := _ }) sWf
      · refine State.tokStep_wf sWf Who.slot_wf (fun r s t h e => ?_) (fun s t h e => ?_) e
        · cases e; exact State.sendFlit_wf (s := { s with parityHold := _ }) h
        · cases e; exact State.sendFlit_wf (s := { s with parityHold := _ }) h

theorem State.rebuildStep_wf {entry : Nat} {answers : List (Option (List Byte))} (sWf : s.MemWf) (e : s.rebuildStep
    ctx entry answers = some z) : z.MemWf := by
  unfold State.rebuildStep at e
  split at e
  · obtain ⟨k, -, hk⟩ := Option.bind_eq_some_iff.1 e
    exact State.parityAnswer_wf sWf hk
  · split at e
    · cases e
    · dsimp only at e
      split at e
      · cases e; exact sWf
      · refine State.tokStep_wf sWf ?_ (fun w s t h e => ?_) (fun s t h e => by cases e; exact h) e
        · exact TokM.keeps_bind Who.slot_wf fun _ => TokM.keeps_bind Who.pieces_wf fun _ =>
            TokM.keeps_bind Who.fetch_wf fun _ => TokM.keeps_pure _
        · split at e
          · cases e; exact h
          · split at e
            · have hp := State.putSlot_wf (s := { s with rebuilds := s.rebuilds.filter _ }) h ‹_›
              split at e
              · cases e; exact State.putRecords_wf hp ‹_›
              · exact State.begin?_wf hp e
              · cases e; exact hp
            · exact State.begin?_wf (s := { s with rebuilds := s.rebuilds.filter _ }) h e
            · cases e; exact h

/-! ### Machine/Links -/

theorem State.modPeer_wf {f : Peer → Peer} (sWf : s.MemWf) : (s.modPeer p f).MemWf := sWf

theorem State.modPort_wf {j : Nat} {f : ZPort → ZPort} (sWf : s.MemWf) : (s.modPort j f).MemWf := sWf

theorem State.peerRequest_wf {pa : Nat} {r : HomeReq} (sWf : s.MemWf) : (s.peerRequest peer tag pa n r).MemWf := by
  grind [State.peerRequest, State.arrive_wf, State.sendFlit_wf]

theorem State.peerAnswer_wf {remaining : Nat} (sWf : s.MemWf) : (s.peerAnswer peer tag bs remaining).MemWf := by
  grind [State.peerAnswer, State.dropSynonyms_wf, State.fillL1_wf, State.performAll_wf, State.modPeer_wf]

theorem State.lostPeer_wf {x : PeerAcc} (sWf : s.MemWf) : (s.lostPeer x).MemWf := by
  grind [State.lostPeer, State.dstatEvent_wf, State.lostAccs_wf]

theorem State.peerRefusal_wf (sWf : s.MemWf) : (s.peerRefusal peer tag).MemWf := by
  grind [State.peerRefusal, State.modPeer_wf, State.lostPeer_wf]

theorem State.peerAck_wf {upTo : Nat} (sWf : s.MemWf) : (s.peerAck peer upTo).MemWf := sWf

theorem State.takeFlit_wf {f : Flit} (sWf : s.MemWf) : (s.takeFlit peer f).MemWf := by
  unfold State.takeFlit
  (repeat' split) <;> grind [State.peerAck_wf, State.peerRefusal_wf, State.peerAnswer_wf, State.peerRequest_wf]

theorem State.takeFlits_wf {a3 : List Flit} (sWf : s.MemWf) : (s.takeFlits peer seq a3).MemWf := by
  fun_induction State.takeFlits s peer seq a3 <;> grind [State.modPeer_wf, State.takeFlit_wf]

theorem State.frameStep_wf {ethertype : Nat} {fs : List Flit} (sWf : s.MemWf) (e : s.frameStep port ethertype peer
    seq fs = some z) : z.MemWf := by
  grind [State.frameStep, State.takeFlits_wf, State.modPort_wf]

theorem State.resendStep_wf (sWf : s.MemWf) (e : s.resendStep peer seq port = some z) : z.MemWf := by
  grind [State.resendStep, State.modPort_wf, State.modPeer_wf]

theorem State.unreachableStep_wf (sWf : s.MemWf) (e : s.unreachableStep peer = some z) : z.MemWf := by
  grind [State.unreachableStep, State.lostPeer_wf, State.modPeer_wf, foldl_wf]

theorem State.linkStep_wf (sWf : s.MemWf) (e : s.linkStep port = some z) : z.MemWf := by
  grind [State.linkStep, State.modPort_wf]

theorem State.fencePortStep_wf (sWf : s.MemWf) (e : s.fencePortStep port = some z) : z.MemWf := by
  grind [State.fencePortStep, State.modPort_wf, foldl_wf]

/-! ### Machine/Fence -/

theorem State.markLost_wf {ls : List Nat} (sWf : s.MemWf) : (s.markLost ls).MemWf := sWf

theorem State.settleHomes_wf (sWf : s.MemWf) : (s.settleHomes).MemWf := by
  grind [State.settleHomes, State.settleHome_wf, foldl_wf]

theorem State.forget_wf {core : Nat → Bool} {quad : Nat → Bool} (sWf : s.MemWf) : (s.forget core quad).MemWf := by
  grind [State.forget, State.settleHomes_wf, State.putL2_wf, foldl_wf]

theorem State.killOn_wf {core : Nat → Bool} (sWf : s.MemWf) : (s.killOn core).MemWf := by
  grind [State.killOn, State.killWg_wf, foldl_wf]

theorem State.cutGroups_wf {core : Nat → Bool} (sWf : s.MemWf) : (s.cutGroups core).MemWf := sWf

theorem State.dropCore_wf {c : Nat} (sWf : s.MemWf) : (s.dropCore c).MemWf := by
  grind [State.dropCore, State.forget_wf, State.modDie_wf, State.cutGroups_wf, State.setCore_wf, State.killOn_wf,
    State.markLost_wf]

theorem State.fenceCoreStep_wf {c : Nat} (sWf : s.MemWf) (e : s.fenceCoreStep c = some z) : z.MemWf := by
  grind [State.fenceCoreStep, State.dropCore_wf]

theorem State.fenceQuadStep_wf (sWf : s.MemWf) (e : s.fenceQuadStep q = some z) : z.MemWf := by
  grind [State.fenceQuadStep, State.forget_wf, State.dropCore_wf, State.setQuad_wf, foldl_wf]

theorem State.refuseLost_wf (sWf : s.MemWf) : (s.refuseLost).MemWf := by
  grind [State.refuseLost, State.refuse_wf, foldl_wf]

theorem State.fenceStackStep_wf {d : Nat} (sWf : s.MemWf) (e : s.fenceStackStep d k = some z) : z.MemWf := by
  grind [State.fenceStackStep, State.modDie_wf, State.refuseLost_wf]

theorem State.pokeHome_wf {a : Nat} (sWf : s.MemWf) : (s.pokeHome a bs).MemWf := by
  grind [State.pokeHome, State.putL2_wf, State.takeBack_wf, foldl_wf]

theorem State.salvage_wf {l : L1Line} (sWf : s.MemWf) : (s.salvage core l).MemWf := by
  grind [State.salvage, State.modCore_wf, State.pokeHome_wf, State.modDie_wf]

theorem State.scanCore_wf {d : Nat} (sWf : s.MemWf) : (s.scanCore d core).MemWf := by
  grind [State.scanCore, State.salvage_wf, State.modCore_wf, foldl_wf]

theorem State.fenceDieStep_wf {d : Nat} (sWf : s.MemWf) (e : s.fenceDieStep d = some z) : z.MemWf := by
  grind [State.fenceDieStep, State.refuseLost_wf, State.forget_wf, State.setCore_wf, State.cutGroups_wf,
    State.markLost_wf, State.scanCore_wf, State.killOn_wf, State.modDie_wf, foldl_wf]

/-! ### Machine/TokenRead -/

theorem Who.rebuild_wf {a : TokArr} {q : TokSeq} {e : TokEnt} : TokM.Keeps (Who.rebuild c a q e) := by
  refine keeps_bind keeps_get fun s => ?_
  dsimp only
  split
  · exact keeps_pure _
  · refine keeps_ite (keeps_pure _) (keeps_bind Who.parity_wf fun ds => ?_)
    rintro s _ t h ⟨⟩
    split
    · exact h
    · exact State.sendFlit_wf (s := { s with rebuilds := _ }) h

theorem Who.kvRow_wf {fmt : Nat} {e0 : Nat} {e1 : Nat} {pl : KvPlan} {r : KvLane} : TokM.Keeps (Who.kvRow c fmt e0
    e1 pl r) := by
  unfold Who.kvRow
  dsimp only
  split
  · exact keeps_pure _
  · refine keeps_bind keeps_get fun s => ?_
    split
    · exact keeps_pure _
    · exact keeps_ite (keeps_throw _) (keeps_pure _)
    · exact keeps_throw _

theorem Who.kvRows_wf {fmt : Nat} {e0 : Nat} {e1 : Nat} {a4 : KvPlan} {a5 : List KvLane} : TokM.Keeps (Who.kvRows c
    fmt e0 e1 a4 a5) := by
  induction a5 generalizing a4 with
  | nil => exact keeps_pure _
  | cons p ps ih => exact keeps_bind Who.kvRow_wf fun _ => ih

theorem Who.kvLost_wf {a : TokArr} {q : TokSeq} {a3 : List (Nat × Nat × TokEnt)} : TokM.Keeps (Who.kvLost c a q a3)
    := by
  induction a3 with
  | nil => exact keeps_pure _
  | cons p ps ih => exact keeps_bind Who.rebuild_wf fun _ => keeps_bind ih fun _ => keeps_ite (keeps_pure _) (keeps_pure _)

theorem kvldPlan_wf {b : SeqBlock} {isV : Bool} {fromEnd : Bool} {lanes : List (Nat × Nat)} : TokM.Keeps (kvldPlan c
    b isV fromEnd k lanes) := by
  refine keeps_bind Who.arr_wf fun a => keeps_ite (keeps_pure _) <| keeps_bind Who.seq_wf fun q => ?_
  extract_lets pos found anyOk lost rest
  have hr : ∀ pool, (rest pool).Keeps := fun pool => keeps_ite kvFail_wf <|
    keeps_bind Who.kvLost_wf fun _ => keeps_bind Who.kvRows_wf fun _ => keeps_pure _
  exact keeps_ite (keeps_bind Who.pool_wf fun _ => keeps_bind (keeps_pure _) hr) (keeps_bind (keeps_pure _) hr)

theorem kvldBody_wf {isV : Bool} {fromEnd : Bool} (xWf : x.s.MemWf) : (kvldBody i isV fromEnd k a b x).Wf := by
  grind [kvldBody, intro Res.Wf, Iss.holdOp_wf, State.modGroup_wf, Iss.launchOp_wf, Iss.raiseIn_wf,
    State.dropFaults_wf, kvldPlan_wf, Iss.tokEnd_wf]

theorem State.kvSettle_wf (sWf : s.MemWf) : (s.kvSettle h g o).MemWf := by
  grind [State.kvSettle, State.raise_wf, State.modGroup_wf]

theorem State.kvLand_wf (sWf : s.MemWf) (e : s.kvLand h g gr o = some z) : z.MemWf := by
  grind [State.kvLand, State.modGroup_wf, → State.asked?_wf, → State.appendAsh_wf, State.askWalks_wf,
    State.kvSettle_wf, → State.engRead_wf]

theorem Who.ropeTab_wf {a : TokArr} {e0 : Nat} : TokM.Keeps (Who.ropeTab c a e0 k) := by
  unfold Who.ropeTab
  exact keeps_bind Who.pieces_wf fun _ => keeps_bind Who.fetch_wf fun _ => keeps_pure _

theorem ropePlan_wf {b : SeqBlock} : TokM.Keeps (ropePlan c b k) := by
  unfold ropePlan
  exact keeps_bind Who.arr_wf fun _ => keeps_ite kvFail_wf Who.ropeTab_wf

theorem ropeBody_wf (xWf : x.s.MemWf) : (ropeBody i k a b x).Wf := by
  grind [ropeBody, intro Res.Wf, Iss.launchOp_wf, ropePlan_wf, Iss.tokEnd_wf]

/-! ### Machine/Events -/

theorem State.takePend_wf (sWf : s.MemWf) (e : s.takePend h g = some z) : z.MemWf := by
  grind [State.takePend, State.setGroup_wf, State.raise_wf]

theorem State.landStep_wf (sWf : s.MemWf) (e : s.landStep h g seq = some z) : z.MemWf := by
  grind [State.landStep, State.modGroup_wf, → State.kvLand_wf]

theorem State.freedStep_wf (sWf : s.MemWf) (e : s.freedStep h g = some z) : z.MemWf := by
  grind [State.freedStep, State.setGroup_wf]

theorem State.storeAck_wf (sWf : s.MemWf) (e : s.storeAck h g seq = some z) : z.MemWf := by
  grind [State.storeAck, State.modGroup_wf]

theorem State.walkStep_wf (sWf : s.MemWf) (e : s.walkStep q = some z) : z.MemWf := by
  grind [State.walkStep, WalkRes.Wf, State.begin?_wf, State.walk_wf, State.modQuad_wf]

theorem State.throttleStep_wf {ds : List (Nat × Nat)} (sWf : s.MemWf) (e : s.throttleStep ds = some z) : z.MemWf :=
    by
  grind [State.throttleStep, State.modCore_wf, State.reclock_wf, foldl_wf]

/-! ### Machine/Integer -/

theorem movBody_wf (xWf : x.s.MemWf) : (movBody t d a x).Wf := Iss.lanes_wf xWf

theorem iaddBody_wf (xWf : x.s.MemWf) : (iaddBody t d a b x).Wf := Iss.lanes_wf xWf

theorem isubBody_wf (xWf : x.s.MemWf) : (isubBody t d a b x).Wf := Iss.lanes_wf xWf

theorem imulBody_wf (xWf : x.s.MemWf) : (imulBody t d a b x).Wf := Iss.lanes_wf xWf

theorem imulhBody_wf (xWf : x.s.MemWf) : (imulhBody t d a b x).Wf := Iss.lanes_wf xWf

theorem imadBody_wf (xWf : x.s.MemWf) : (imadBody t d a b cc x).Wf := Iss.lanes_wf xWf

theorem idivBody_wf (xWf : x.s.MemWf) : (idivBody t d a b x).Wf := Iss.lanes_wf xWf

theorem iremBody_wf (xWf : x.s.MemWf) : (iremBody t d a b x).Wf := Iss.lanes_wf xWf

theorem iminBody_wf (xWf : x.s.MemWf) : (iminBody t d a b x).Wf := Iss.lanes_wf xWf

theorem imaxBody_wf (xWf : x.s.MemWf) : (imaxBody t d a b x).Wf := Iss.lanes_wf xWf

theorem iabsBody_wf (xWf : x.s.MemWf) : (iabsBody t d a x).Wf := Iss.lanes_wf xWf

theorem andBody_wf (xWf : x.s.MemWf) : (andBody t d a b x).Wf := Iss.lanes_wf xWf

theorem orBody_wf (xWf : x.s.MemWf) : (orBody t d a b x).Wf := Iss.lanes_wf xWf

theorem xorBody_wf (xWf : x.s.MemWf) : (xorBody t d a b x).Wf := Iss.lanes_wf xWf

theorem notBody_wf (xWf : x.s.MemWf) : (notBody t d a x).Wf := Iss.lanes_wf xWf

theorem shlBody_wf (xWf : x.s.MemWf) : (shlBody t d a b x).Wf := Iss.lanes_wf xWf

theorem shrBody_wf (xWf : x.s.MemWf) : (shrBody t d a b x).Wf := Iss.lanes_wf xWf

theorem shraBody_wf (xWf : x.s.MemWf) : (shraBody t d a b x).Wf := Iss.lanes_wf xWf

theorem popcBody_wf (xWf : x.s.MemWf) : (popcBody t d a x).Wf := Iss.lanes_wf xWf

theorem clzBody_wf (xWf : x.s.MemWf) : (clzBody t d a x).Wf := Iss.lanes_wf xWf

theorem brevBody_wf (xWf : x.s.MemWf) : (brevBody t d a x).Wf := Iss.lanes_wf xWf

theorem bfeBody_wf (xWf : x.s.MemWf) : (bfeBody t d a b cc x).Wf := Iss.lanes_wf xWf

theorem bfiBody_wf (xWf : x.s.MemWf) : (bfiBody t d a b cc x).Wf := Iss.lanes_wf xWf

theorem leaBody_wf (xWf : x.s.MemWf) : (leaBody t d a b cc x).Wf := Iss.lanes_wf xWf

theorem selBody_wf (xWf : x.s.MemWf) : (selBody t d a b cc x).Wf := Iss.lanes_wf xWf

theorem icmpBody_wf {k : Cond} (_ : x.s.MemWf) : (icmpBody k t d a b x).Wf := .done _ _ _

theorem rngBody_wf {unit : Bool} (xWf : x.s.MemWf) : (rngBody unit d x).Wf := Iss.lanes_wf xWf

/-! ### Machine/FloatOps -/

theorem faddBody_wf (xWf : x.s.MemWf) : (faddBody r t d a b x).Wf := Iss.lanes_wf xWf

theorem fsubBody_wf (xWf : x.s.MemWf) : (fsubBody r t d a b x).Wf := Iss.lanes_wf xWf

theorem fmulBody_wf (xWf : x.s.MemWf) : (fmulBody r t d a b x).Wf := Iss.lanes_wf xWf

theorem ffmaBody_wf (xWf : x.s.MemWf) : (ffmaBody r t d a b cc x).Wf := Iss.lanes_wf xWf

theorem fminBody_wf (xWf : x.s.MemWf) : (fminBody t d a b x).Wf := Iss.lanes_wf xWf

theorem fmaxBody_wf (xWf : x.s.MemWf) : (fmaxBody t d a b x).Wf := Iss.lanes_wf xWf

theorem fabsBody_wf (xWf : x.s.MemWf) : (fabsBody t d a x).Wf := Iss.lanes_wf xWf

theorem fcmpBody_wf {k : Cond} (_ : x.s.MemWf) : (fcmpBody k t d a b x).Wf := .done _ _ _

theorem fdivBody_wf (xWf : x.s.MemWf) : (fdivBody r t d a b x).Wf := Iss.lanes_wf xWf

theorem fsqrtBody_wf (xWf : x.s.MemWf) : (fsqrtBody r t d a x).Wf := Iss.lanes_wf xWf

theorem frcpBody_wf (xWf : x.s.MemWf) : (frcpBody t d a x).Wf := Iss.lanes_wf xWf

theorem frsqBody_wf (xWf : x.s.MemWf) : (frsqBody t d a x).Wf := Iss.lanes_wf xWf

theorem fexp2Body_wf (xWf : x.s.MemWf) : (fexp2Body t d a x).Wf := Iss.lanes_wf xWf

theorem flog2Body_wf (xWf : x.s.MemWf) : (flog2Body t d a x).Wf := Iss.lanes_wf xWf

theorem fsinBody_wf (xWf : x.s.MemWf) : (fsinBody t d a x).Wf := Iss.lanes_wf xWf

theorem fcosBody_wf (xWf : x.s.MemWf) : (fcosBody t d a x).Wf := Iss.lanes_wf xWf

theorem ftanhBody_wf (xWf : x.s.MemWf) : (ftanhBody t d a x).Wf := Iss.lanes_wf xWf

theorem fclassBody_wf (xWf : x.s.MemWf) : (fclassBody t d a x).Wf := Iss.lanes_wf xWf

theorem cvtBody_wf {dt : Ty} {st : Ty} (xWf : x.s.MemWf) : (cvtBody r dt st d a x).Wf := Iss.lanes_wf xWf

theorem frndBody_wf (xWf : x.s.MemWf) : (frndBody r t d a x).Wf := Iss.lanes_wf xWf

theorem pkcvtBody_wf (xWf : x.s.MemWf) : (pkcvtBody r t d a b x).Wf := Iss.lanes_wf xWf

theorem unpkBody_wf {k : BitVec 2} (xWf : x.s.MemWf) : (unpkBody t k d a x).Wf := Iss.lanes_wf xWf

/-! ### Machine/HostEvents -/

theorem State.nopCmd_wf (sWf : s.MemWf) (e : s.nopCmd agent = some z) : z.MemWf := by
  grind [State.nopCmd, State.endCmd_wf, → State.takeCmd_wf]

theorem State.holdCmd_wf (sWf : s.MemWf) (e : s.holdCmd agent = some z) : z.MemWf := by
  grind [State.holdCmd, State.pathCmd_wf]

theorem State.releaseCmd_wf (sWf : s.MemWf) (e : s.releaseCmd agent = some z) : z.MemWf := by
  grind [State.releaseCmd, State.pathCmd_wf]

theorem State.stepCmd_wf (sWf : s.MemWf) (e : s.stepCmd agent = some z) : z.MemWf := by
  grind [State.stepCmd, State.pathCmd_wf]

theorem State.stallCmd_wf (sWf : s.MemWf) (e : s.stallCmd agent = some z) : z.MemWf := by
  grind [State.stallCmd, → State.rightCmd_wf, State.endCmd_wf, → State.takeCmd_wf]

theorem State.traceCmd_wf (sWf : s.MemWf) (e : s.traceCmd agent = some z) : z.MemWf := by
  grind [State.traceCmd, State.rightCmd_wf]

theorem State.bkptCmd_wf (sWf : s.MemWf) (e : s.bkptCmd agent = some z) : z.MemWf := by
  grind [State.bkptCmd, → State.rightCmd_wf]

theorem State.badCmd_wf (sWf : s.MemWf) (e : s.badCmd agent = some z) : z.MemWf := by
  grind [State.badCmd, State.endCmd_wf, → State.takeCmd_wf]

theorem State.barred_wf {f : State → State} (sWf : s.MemWf) (fWf : ∀ s, s.MemWf → (f s).MemWf) : (s.barred m
    f).MemWf := by
  grind [State.barred]

theorem State.owned_wf {f : State → State} (sWf : s.MemWf) (fWf : ∀ s, s.MemWf → (f s).MemWf) : (s.owned m f).MemWf
    := by
  grind [State.owned, State.deny_wf, State.barred_wf]

theorem State.revokeDebug_wf (sWf : s.MemWf) (e : s.revokeDebug m target agent = some z) : z.MemWf := by
  grind [State.revokeDebug, State.startRevoke_wf, State.owned_wf, → State.finishRevoke_wf]

theorem execDstatRetire_wf (sWf : s.MemWf) (e : execDstatRetire m s = .next z) : z.MemWf := by
  grind [execDstatRetire, State.dstatPop_wf, State.owned_wf]

theorem State.popFrame_wf (sWf : s.MemWf) : (s.popFrame m die).MemWf := by
  grind [State.popFrame, State.framePop_wf]

theorem execFramepoolPop_wf (sWf : s.MemWf) (e : execFramepoolPop m die s = .next z) : z.MemWf := by
  grind [execFramepoolPop, State.popFrame_wf, State.barred_wf]

theorem State.bar4_wf {isWrite : Bool} (sWf : s.MemWf) (e : s.bar4 off isWrite n bs = some z) : z.MemWf := by
  grind [State.bar4, → State.readPhys_wf, → State.begin?_wf, → State.writePhys_wf]

/-! ### Machine/Lanes -/

theorem pandBody_wf (_ : x.s.MemWf) : (pandBody d a b x).Wf := .done _ _ _

theorem porBody_wf (_ : x.s.MemWf) : (porBody d a b x).Wf := .done _ _ _

theorem pxorBody_wf (_ : x.s.MemWf) : (pxorBody d a b x).Wf := .done _ _ _

theorem pmovBody_wf (_ : x.s.MemWf) : (pmovBody d a x).Wf := by
  unfold pmovBody
  split <;> constructor

theorem shflBody_wf {w : SegW} (xWf : x.s.MemWf) : (shflBody w t d a b x).Wf := Iss.lanes_wf xWf

theorem shflupBody_wf {w : SegW} (xWf : x.s.MemWf) : (shflupBody w t d a b x).Wf := Iss.lanes_wf xWf

theorem shfldnBody_wf {w : SegW} (xWf : x.s.MemWf) : (shfldnBody w t d a b x).Wf := Iss.lanes_wf xWf

theorem shflxBody_wf {w : SegW} (xWf : x.s.MemWf) : (shflxBody w t d a b x).Wf := Iss.lanes_wf xWf

theorem Iss.truth_wf {v : Bool} (_ : x.s.MemWf) : (x.truth d v).Wf := by
  unfold Iss.truth
  split <;> constructor

theorem voteallBody_wf (xWf : x.s.MemWf) : (voteallBody d a x).Wf := Iss.truth_wf xWf

theorem voteanyBody_wf (xWf : x.s.MemWf) : (voteanyBody d a x).Wf := Iss.truth_wf xWf

theorem ballotBody_wf (xWf : x.s.MemWf) : (ballotBody d a x).Wf := Iss.shared_wf xWf

theorem redaddBody_wf (xWf : x.s.MemWf) : (redaddBody t d a x).Wf := Iss.shared_wf xWf

theorem redminBody_wf (xWf : x.s.MemWf) : (redminBody t d a x).Wf := Iss.shared_wf xWf

theorem redmaxBody_wf (xWf : x.s.MemWf) : (redmaxBody t d a x).Wf := Iss.shared_wf xWf

theorem redandBody_wf (xWf : x.s.MemWf) : (redandBody t d a x).Wf := Iss.shared_wf xWf

theorem redorBody_wf (xWf : x.s.MemWf) : (redorBody t d a x).Wf := Iss.shared_wf xWf

theorem scanaddBody_wf {excl : Bool} (xWf : x.s.MemWf) : (scanaddBody excl t d a x).Wf := Iss.lanes_wf xWf

theorem matchLanesBody_wf (xWf : x.s.MemWf) : (matchLanesBody t d a x).Wf := Iss.lanes_wf xWf

/-! ### Machine/Pronoun -/

theorem Iss.withRange_wf {k : Kind} {a : Nat} {go : List Seg → List Trans → Res} (xWf : x.s.MemWf) (goWf : ∀ a b,
    Res.Wf (go a b)) : (x.withRange pa k a n go).Wf := by
  grind [Iss.withRange, intro Res.Wf, State.dropFaults_wf, Iss.raiseIn_wf, State.askWalks_wf]

theorem resolveBody_wf (xWf : x.s.MemWf) : (resolveBody i pa a b x).Wf := by
  exact Iss.withRange_wf xWf fun gs ts => Iss.using_wf xWf fun t ht => by
    extract_lets es s
    have hs : s.MemWf := by
      unfold s
      cases h : t.startResolving es with
      | none => exact ht
      | some u => exact State.startResolving_wf ht h
    exact .state (Iss.launchOp_wf (x := { x with s := s }) hs)

theorem pnqBody_wf (xWf : x.s.MemWf) : (pnqBody i pa a x).Wf := by
  grind [pnqBody, intro Res.Wf, Iss.launchOp_wf, State.answer_wf, Iss.using_wf, Iss.withRange_wf]

theorem State.dropRange_wf {all : Bool} {a : Nat} (sWf : s.MemWf) : (s.dropRange ctx all a n).MemWf := by
  grind [State.dropRange, State.supersede_wf, State.takeBack_wf, State.dropL2_wf, State.resolveEntry_wf, foldl_wf]

theorem pndropBody_wf (xWf : x.s.MemWf) : (pndropBody i pa scope a b x).Wf := by
  refine Iss.withRange_wf xWf fun gs ts => wf_ite (.stall _ xWf) (wf_ite (.stall _ ?_) ?_)
  · cases h : x.s.startResolving (x.s.othersStuck x.w.ctx pa gs) with
    | none => exact xWf
    | some u => exact State.startResolving_wf xWf h
  · split
    · exact .stall _ (State.begun_wf xWf)
    · refine Iss.using_wf xWf fun t ht => ?_
      extract_lets s
      have hs : s.MemWf := foldl_wf (fun s g h => by
        split
        · exact State.dropRange_wf h
        · exact h) _ ht
      exact .state (Iss.launchOp_wf (x := { x with s := s }) hs)

theorem State.hotStep_wf (sWf : s.MemWf) (e : s.hotStep die = some z) : z.MemWf := by
  grind [State.hotStep, → State.startResolving_wf, Option.bind_eq_some_iff]

theorem resolveUpTo_wf {a1 : List Nat} {a2 : State} (a2Wf : a2.MemWf) : (resolveUpTo id a1 a2).MemWf := by
  fun_induction resolveUpTo id a1 a2 <;> grind [State.resolveLine_wf, State.setWindow_wf]

theorem State.resolutionStep_wf (sWf : s.MemWf) (e : s.resolutionStep id = some z) : z.MemWf := by
  grind [State.resolutionStep, State.begin?_wf, resolveUpTo_wf]

/-! ### Machine/Stacker -/

theorem State.modStacker_wf {d : Nat} {f : Stacker → Stacker} (sWf : s.MemWf) : (s.modStacker d g f).MemWf := sWf

theorem State.recordMirror_wf {n : PnEnt} (sWf : s.MemWf) (e : s.recordMirror n = .ok z ∨ s.recordMirror n = .part
    z) : z.MemWf := by
  grind [State.recordMirror, → State.enterEntry_wf, → State.resolveSet_wf]

theorem State.recordMirrors_wf {a1 : List PnEnt} (sWf : s.MemWf) (e : s.recordMirrors a1 = .ok z ∨ s.recordMirrors
    a1 = .part z) : z.MemWf := by
  fun_induction State.recordMirrors s a1 <;> grind [→ State.recordMirror_wf]

theorem State.startMove_wf {d : Nat} (sWf : s.MemWf) (e : s.startMove d g ctx va = some z) : z.MemWf := by
  grind [State.startMove, State.modStacker_wf, → State.recordMirrors_wf, → State.begin?_wf, → State.readPhys_wf]

theorem State.dropMove_wf {d : Nat} {m : Move} (sWf : s.MemWf) (e : s.dropMove d g m = some z) : z.MemWf := by
  unfold State.dropMove at e
  dsimp only at e
  split at e
  · cases e
  · split at e
    · exact State.begin?_wf sWf e
    · cases e
    · cases e; exact State.modStacker_wf (State.writePhys_wf (s := { s with pn := s.pn.filter _ }) sWf ‹_›)

theorem State.finishMove_wf {d : Nat} {m : Move} (sWf : s.MemWf) (e : s.finishMove d g m = some z) : z.MemWf := by
  grind [State.finishMove, State.modStacker_wf, State.putL2_wf, State.takeBack_wf, → State.begin?_wf, →
    State.clearFor_wf, State.begun_wf, → State.dropMove_wf, foldl_wf]

theorem State.moveStep_wf {d : Nat} (sWf : s.MemWf) (e : s.moveStep d g ctx va = some z) : z.MemWf := by
  grind [State.moveStep, → State.startMove_wf, → State.finishMove_wf]

theorem State.releaseFrames_wf {d : Nat} {a3 : List Nat} {res : List Nat} (sWf : s.MemWf) (e : s.releaseFrames d g
    a3 = .ok (res, z)) : z.MemWf := by
  fun_induction State.releaseFrames s d g a3 <;> grind [State.modStacker_wf, → State.writePhys_wf]

theorem State.releaseStep_wf {d : Nat} (sWf : s.MemWf) (e : s.releaseStep d g = some z) : z.MemWf := by
  unfold State.releaseStep at e
  split at e
  · cases e
  · split at e
    · split at e
      · cases e; exact State.resolveSet_wf sWf (.inl ‹_›)
      · cases e; exact State.resolveSet_wf sWf (.inr ‹_›)
      · exact State.begin?_wf sWf e
      · cases e
    · split at e
      · exact State.begin?_wf sWf e
      · cases e
      · cases e; exact State.modStacker_wf (State.releaseFrames_wf sWf ‹_›)
      · split at e
        · cases e
        · cases e; exact State.modStacker_wf (State.releaseFrames_wf sWf ‹_›)

/-! ### Machine/Sync -/

theorem fenceBody_wf {classes : BitVec 4} (xWf : x.s.MemWf) : (fenceBody i scope classes x).Wf := by
  grind [fenceBody, intro Res.Wf, Iss.keepLimit_wf, State.setGroup_wf, Iss.fencing_wf]

theorem barBody_wf (xWf : x.s.MemWf) : (barBody scope b x).Wf := by
  grind [barBody, intro Res.Wf, → State.barArrive_wf, Iss.fencing_wf]

theorem waitcBody_wf {k : CtrClass} (xWf : x.s.MemWf) : (waitcBody k b x).Wf := by
  grind [waitcBody, intro Res.Wf]

theorem stageOutBody_wf (xWf : x.s.MemWf) : (stageOutBody i d a b x).Wf := by
  grind [stageOutBody, intro Res.Wf, Iss.launchOp_wf, State.modGroup_wf, State.sendBanks_wf]

theorem stageInBody_wf (xWf : x.s.MemWf) : (stageInBody i d a b x).Wf := by
  grind [stageInBody, intro Res.Wf, Iss.holdOp_wf, State.modGroup_wf, State.sendBanks_wf]

theorem State.writeHeader_wf (sWf : s.MemWf) : (s.writeHeader h core o).MemWf := by
  grind [State.writeHeader, State.retryAll_wf, State.setGran_wf]

theorem State.stageOutStep_wf (sWf : s.MemWf) (e : s.stageOutStep h g seq = some z) : z.MemWf := by
  grind [State.stageOutStep, State.writeHeader_wf, State.modGroup_wf]

theorem cjoinBody_wf (xWf : x.s.MemWf) : (cjoinBody i b x).Wf := by
  grind [cjoinBody, intro Res.Wf, Iss.launchOp_wf, State.join_wf]

theorem cleaveBody_wf (xWf : x.s.MemWf) : (cleaveBody i x).Wf := by
  grind [cleaveBody, intro Res.Wf, State.answer_wf, Iss.launchOp_wf, State.cleave_wf]

/-! ### Machine/System -/

theorem Iss.handRecord_wf (sWf : s.MemWf) : (x.handRecord i bs s).Wf := .state (Iss.launchOp_wf sWf)

theorem launchBody_wf (xWf : x.s.MemWf) : (launchBody i a x).Wf := by
  grind [launchBody, intro Res.Wf, → State.readPieces_wf, → State.usePieces_wf, Iss.after_wf, State.dropFaults_wf,
    Iss.raiseIn_wf, State.askWalks_wf, Iss.handRecord_wf]

theorem Iss.software_wf {c : Cause} {p31 : Mask} (_ : x.s.MemWf) : (x.software c b p31).Wf := by
  grind [Iss.software, intro Res.Wf]

theorem bkptBody_wf (xWf : x.s.MemWf) : (bkptBody i b x).Wf := by
  grind [bkptBody, intro Res.Wf, Iss.software_wf, State.modGroup_wf, → State.appendSample_wf, Iss.after_wf]

theorem eretBody_wf {retry : Bool} (xWf : x.s.MemWf) : (eretBody i retry x).Wf := by
  grind [eretBody, intro Res.Wf, State.modGroup_wf, → State.traceAt_wf, Iss.after_wf]

theorem getsrBody_wf (_ : x.s.MemWf) : (getsrBody d b x).Wf := by
  grind [getsrBody, intro Res.Wf]

theorem setsrBody_wf (xWf : x.s.MemWf) : (setsrBody i n b x).Wf := by
  grind [setsrBody, intro Res.Wf, State.forgetTranslations_wf, State.modGroup_wf]

theorem sampleBody_wf (xWf : x.s.MemWf) : (sampleBody i a x).Wf := by
  unfold sampleBody
  (repeat' split) <;> grind [intro Res.Wf, State.modGroup_wf, → State.appendSample_wf, Iss.after_wf]

theorem rgiveBody_wf (xWf : x.s.MemWf) : (rgiveBody i pool b x).Wf := by
  unfold rgiveBody
  (repeat' split) <;> grind [intro Res.Wf, State.setGroup_wf]

theorem rclaimBody_wf (xWf : x.s.MemWf) : (rclaimBody i pool b x).Wf := by
  grind [rclaimBody, intro Res.Wf, State.modCore_wf, State.setGroup_wf]

/-! ### Machine/Tiles -/

theorem Iss.toMatrix_wf {bound : Nat} {cap : Nat} {r : Ranged} {rows : List Row} (xWf : x.s.MemWf) : (x.toMatrix i
    bound cap args r rows).Wf := by
  grind [Iss.toMatrix, intro Res.Wf, Iss.launchOp_wf, State.modCore_wf]

theorem Iss.tileOp_wf {bound : Option Nat} (xWf : x.s.MemWf) : (x.tileOp i d bound args).Wf := by
  unfold Iss.tileOp
  (repeat' split) <;> grind [intro Res.Wf, Iss.toMatrix_wf]

theorem Iss.alignTrap_wf {a : Nat} (_ : x.s.MemWf) : (x.alignTrap a).Wf := by
  grind [Iss.alignTrap, intro Res.Wf]

theorem Iss.tileLoad_wf {bound : Nat} {aligned : Bool} {base : Nat} {rs : List (Nat × Nat × Nat)} (xWf : x.s.MemWf)
    : (x.tileLoad i d bound aligned base rs args).Wf := by
  grind [Iss.tileLoad, intro Res.Wf, Iss.toMatrix_wf, Iss.using_wf, Iss.withImage_wf, Iss.alignTrap_wf]

theorem Iss.tileStore_wf {aligned : Bool} {base : Nat} {rs : List (Nat × Nat × Nat)} (xWf : x.s.MemWf) :
    (x.tileStore i aligned base rs).Wf := by
  grind [Iss.tileStore, intro Res.Wf, Iss.toMatrix_wf, Iss.using_wf, Iss.withImage_wf, Iss.alignTrap_wf]

theorem rowLoadBody_wf (xWf : x.s.MemWf) : (rowLoadBody i t d a b x).Wf := Iss.tileLoad_wf xWf

theorem rowStoreBody_wf (xWf : x.s.MemWf) : (rowStoreBody i t a b x).Wf := Iss.tileStore_wf xWf

theorem factLoadBody_wf (xWf : x.s.MemWf) : (factLoadBody i d a b x).Wf := by
  grind [factLoadBody, intro Res.Wf, Iss.tileLoad_wf]

theorem factStoreBody_wf (xWf : x.s.MemWf) : (factStoreBody i d a x).Wf := by
  grind [factStoreBody, intro Res.Wf, Iss.tileStore_wf]

theorem Iss.writes_wf {p : Shape} (xWf : x.s.MemWf) : (x.writes i d p args).Wf := Iss.tileOp_wf xWf

theorem execMma_wf {c : Ctl} {ta : Bool} {tb : Bool} (sWf : s.MemWf) (e : execMma c ta tb d a b s = .next z) :
    z.MemWf := by
  grind [execMma, Res.Wf, Iss.writes_wf, Iss.tileOp_wf, issue_wf]

theorem execMadd_wf {c : Ctl} (sWf : s.MemWf) (e : execMadd c d a b s = .next z) : z.MemWf := by
  grind [execMadd, Res.Wf, Iss.writes_wf, issue_wf]

theorem State.matrixGo_wf (sWf : s.MemWf) (e : s.matrixGo h g gr o = some z) : z.MemWf := by
  grind [State.matrixGo, State.engLocal_wf, State.modGroup_wf, → State.asked?_wf, → State.engAsh_wf]

theorem State.matrixAt_wf {i : Nat} (sWf : s.MemWf) (e : s.matrixAt core i = some z) : z.MemWf := by
  unfold State.matrixAt at e
  grind [→ State.matrixGo_wf, → State.engRead_wf, → State.engWrite_wf, State.modCore_wf]

theorem State.matrixStep_wf (sWf : s.MemWf) (e : s.matrixStep core = some z) : z.MemWf := by
  obtain ⟨i, -, hi⟩ := List.exists_of_findSome?_eq_some e
  exact State.matrixAt_wf sWf hi

/-! ### Machine/Transform -/

theorem Iss.localTrap_wf {c : Cause} (_ : x.s.MemWf) : (x.localTrap c off).Wf := by
  grind [Iss.localTrap, intro Res.Wf]

theorem Iss.toPipe_wf {rows : List Row} {src : List Seg} (xWf : x.s.MemWf) : (x.toPipe i d k args rows src).1.MemWf
    := by
  grind [Iss.toPipe, Iss.launchOp_wf, State.modCore_wf]

theorem Iss.localDst_wf {z : Res} (xWf : x.s.MemWf) (e : x.localDst d k = some z) : z.Wf := by
  grind [Iss.localDst, Res.Wf, Iss.localTrap_wf]

theorem Iss.xform_wf {bad : Bool} {from_ : Nat} {into : Nat} (xWf : x.s.MemWf) : (x.xform i bad d a from_ into
    args).Wf := by
  grind [Iss.xform, intro Res.Wf, Iss.toPipe_wf, → Iss.localDst_wf]

theorem decodeBody_wf {q : DecQual} (xWf : x.s.MemWf) : (decodeBody i q d a b x).Wf := by
  unfold decodeBody
  dsimp only
  (repeat' split) <;> grind [intro Res.Wf, State.sendBanks_wf, State.modGroup_wf, Iss.toPipe_wf, → Iss.localDst_wf,
    Iss.localTrap_wf]

theorem State.transformAt_wf {i : Nat} (sWf : s.MemWf) (e : s.transformAt core i = some z) : z.MemWf := by
  unfold State.transformAt at e
  dsimp only at e
  split at e
  · cases e
  · split at e
    · cases e; exact State.modCore_wf sWf
    · split at e
      · cases e; exact State.modCore_wf sWf
      · split at e
        · cases e
        · split at e
          · exact State.asked?_wf sWf e
          · cases e
          · cases e
          · have h := State.engAsh_wf sWf ‹_›
            cases e
            split
            · exact State.engineWrite_wf (State.modGroup_wf (State.modCore_wf h))
            · exact State.modGroup_wf (State.modCore_wf h)

theorem State.transformStep_wf (sWf : s.MemWf) (e : s.transformStep core = some z) : z.MemWf := by
  obtain ⟨i, -, hi⟩ := List.exists_of_findSome?_eq_some e
  exact State.transformAt_wf sWf hi

/-! ### Machine/Dispatch -/

theorem exec_wf (sWf : s.MemWf) (e : exec i s = .next z) : z.MemWf := by
  cases i with
  | nop => exact issue_wf sWf (fun _ h => nopBody_wf h) e
  | bra => exact issue_wf sWf (fun _ h => braBody_wf h) e
  | brx => exact issue_wf sWf (fun _ h => brxBody_wf h) e
  | jmp => exact issue_wf sWf (fun _ h => jmpBody_wf h) e
  | reconv => exact issue_wf sWf (fun _ h => reconvBody_wf h) e
  | call => exact issue_wf sWf (fun _ h => callBody_wf h) e
  | callr => exact issue_wf sWf (fun _ h => callrBody_wf h) e
  | ret => exact issue_wf sWf (fun _ h => jmpBody_wf h) e
  | exit => exact issue_wf sWf (fun _ h => exitBody_wf h) e
  | mov => exact issue_wf sWf (fun _ h => movBody_wf h) e
  | iadd => exact issue_wf sWf (fun _ h => iaddBody_wf h) e
  | isub => exact issue_wf sWf (fun _ h => isubBody_wf h) e
  | imul => exact issue_wf sWf (fun _ h => imulBody_wf h) e
  | imulh => exact issue_wf sWf (fun _ h => imulhBody_wf h) e
  | imad => exact issue_wf sWf (fun _ h => imadBody_wf h) e
  | idiv => exact issue_wf sWf (fun _ h => idivBody_wf h) e
  | irem => exact issue_wf sWf (fun _ h => iremBody_wf h) e
  | imin => exact issue_wf sWf (fun _ h => iminBody_wf h) e
  | imax => exact issue_wf sWf (fun _ h => imaxBody_wf h) e
  | iabs => exact issue_wf sWf (fun _ h => iabsBody_wf h) e
  | and => exact issue_wf sWf (fun _ h => andBody_wf h) e
  | or => exact issue_wf sWf (fun _ h => orBody_wf h) e
  | xor => exact issue_wf sWf (fun _ h => xorBody_wf h) e
  | not => exact issue_wf sWf (fun _ h => notBody_wf h) e
  | shl => exact issue_wf sWf (fun _ h => shlBody_wf h) e
  | shr => exact issue_wf sWf (fun _ h => shrBody_wf h) e
  | shra => exact issue_wf sWf (fun _ h => shraBody_wf h) e
  | popc => exact issue_wf sWf (fun _ h => popcBody_wf h) e
  | clz => exact issue_wf sWf (fun _ h => clzBody_wf h) e
  | brev => exact issue_wf sWf (fun _ h => brevBody_wf h) e
  | bfe => exact issue_wf sWf (fun _ h => bfeBody_wf h) e
  | bfi => exact issue_wf sWf (fun _ h => bfiBody_wf h) e
  | lea => exact issue_wf sWf (fun _ h => leaBody_wf h) e
  | sel => exact issue_wf sWf (fun _ h => selBody_wf h) e
  | icmp => exact issue_wf sWf (fun _ h => icmpBody_wf h) e
  | rng => exact issue_wf sWf (fun _ h => rngBody_wf h) e
  | fadd => exact issue_wf sWf (fun _ h => faddBody_wf h) e
  | fsub => exact issue_wf sWf (fun _ h => fsubBody_wf h) e
  | fmul => exact issue_wf sWf (fun _ h => fmulBody_wf h) e
  | ffma => exact issue_wf sWf (fun _ h => ffmaBody_wf h) e
  | fmin => exact issue_wf sWf (fun _ h => fminBody_wf h) e
  | fmax => exact issue_wf sWf (fun _ h => fmaxBody_wf h) e
  | fabs => exact issue_wf sWf (fun _ h => fabsBody_wf h) e
  | fcmp => exact issue_wf sWf (fun _ h => fcmpBody_wf h) e
  | fdiv => exact issue_wf sWf (fun _ h => fdivBody_wf h) e
  | fsqrt => exact issue_wf sWf (fun _ h => fsqrtBody_wf h) e
  | frcp => exact issue_wf sWf (fun _ h => frcpBody_wf h) e
  | frsq => exact issue_wf sWf (fun _ h => frsqBody_wf h) e
  | fexp2 => exact issue_wf sWf (fun _ h => fexp2Body_wf h) e
  | flog2 => exact issue_wf sWf (fun _ h => flog2Body_wf h) e
  | fsin => exact issue_wf sWf (fun _ h => fsinBody_wf h) e
  | fcos => exact issue_wf sWf (fun _ h => fcosBody_wf h) e
  | ftanh => exact issue_wf sWf (fun _ h => ftanhBody_wf h) e
  | fclass => exact issue_wf sWf (fun _ h => fclassBody_wf h) e
  | cvt => exact issue_wf sWf (fun _ h => cvtBody_wf h) e
  | frnd => exact issue_wf sWf (fun _ h => frndBody_wf h) e
  | pkcvt => exact issue_wf sWf (fun _ h => pkcvtBody_wf h) e
  | unpk => exact issue_wf sWf (fun _ h => unpkBody_wf h) e
  | pand => exact issue_wf sWf (fun _ h => pandBody_wf h) e
  | por => exact issue_wf sWf (fun _ h => porBody_wf h) e
  | pxor => exact issue_wf sWf (fun _ h => pxorBody_wf h) e
  | pmov => exact issue_wf sWf (fun _ h => pmovBody_wf h) e
  | shfl => exact issue_wf sWf (fun _ h => shflBody_wf h) e
  | shflup => exact issue_wf sWf (fun _ h => shflupBody_wf h) e
  | shfldn => exact issue_wf sWf (fun _ h => shfldnBody_wf h) e
  | shflx => exact issue_wf sWf (fun _ h => shflxBody_wf h) e
  | voteall => exact issue_wf sWf (fun _ h => voteallBody_wf h) e
  | voteany => exact issue_wf sWf (fun _ h => voteanyBody_wf h) e
  | ballot => exact issue_wf sWf (fun _ h => ballotBody_wf h) e
  | redadd => exact issue_wf sWf (fun _ h => redaddBody_wf h) e
  | redmin => exact issue_wf sWf (fun _ h => redminBody_wf h) e
  | redmax => exact issue_wf sWf (fun _ h => redmaxBody_wf h) e
  | redand => exact issue_wf sWf (fun _ h => redandBody_wf h) e
  | redor => exact issue_wf sWf (fun _ h => redorBody_wf h) e
  | scanadd => exact issue_wf sWf (fun _ h => scanaddBody_wf h) e
  | matchLanes => exact issue_wf sWf (fun _ h => matchLanesBody_wf h) e
  | ld => exact issue_wf sWf (fun _ h => ldBody_wf h) e
  | ldWait => exact issue_wf sWf (fun _ h => ldBody_wf h) e
  | ldTake => exact issue_wf sWf (fun _ h => ldBody_wf h) e
  | ldPeek => exact issue_wf sWf (fun _ h => ldBody_wf h) e
  | st => exact issue_wf sWf (fun _ h => stBody_wf h) e
  | stWait => exact issue_wf sWf (fun _ h => stBody_wf h) e
  | stTake => exact issue_wf sWf (fun _ h => stBody_wf h) e
  | stPeek => exact issue_wf sWf (fun _ h => stBody_wf h) e
  | pref => exact issue_wf sWf (fun _ h => prefBody_wf h) e
  | atom => exact issue_wf sWf (fun _ h => atomBody_wf h) e
  | fence => exact issue_wf sWf (fun _ h => fenceBody_wf h) e
  | bar => exact issue_wf sWf (fun _ h => barBody_wf h) e
  | waitc => exact issue_wf sWf (fun _ h => waitcBody_wf h) e
  | stageIn => exact issue_wf sWf (fun _ h => stageInBody_wf h) e
  | stageOut => exact issue_wf sWf (fun _ h => stageOutBody_wf h) e
  | cjoin => exact issue_wf sWf (fun _ h => cjoinBody_wf h) e
  | cleave => exact issue_wf sWf (fun _ h => cleaveBody_wf h) e
  | copy => exact issue_wf sWf (fun _ h => copyBody_wf h) e
  | copyxT2d => exact issue_wf sWf (fun _ h => copyBody_wf h) e
  | copyxPack => exact issue_wf sWf (fun _ h => copyBody_wf h) e
  | copyxUnpack => exact issue_wf sWf (fun _ h => copyBody_wf h) e
  | copyxHadq => exact issue_wf sWf (fun _ h => copyBody_wf h) e
  | resolve => exact issue_wf sWf (fun _ h => resolveBody_wf h) e
  | pnq => exact issue_wf sWf (fun _ h => pnqBody_wf h) e
  | pndrop => exact issue_wf sWf (fun _ h => pndropBody_wf h) e
  | mloadRow => exact issue_wf sWf (fun _ h => rowLoadBody_wf h) e
  | mloadFact => exact issue_wf sWf (fun _ h => factLoadBody_wf h) e
  | mloadBlk => exact issue_wf sWf (fun _ h => Iss.tileLoad_wf h) e
  | mstoreRow => exact issue_wf sWf (fun _ h => rowStoreBody_wf h) e
  | mstoreFact => exact issue_wf sWf (fun _ h => factStoreBody_wf h) e
  | mma => exact execMma_wf sWf e
  | madd => exact execMadd_wf sWf e
  | recomp => exact issue_wf sWf (fun _ h => Iss.tileOp_wf h) e
  | mdense => exact issue_wf sWf (fun _ h => Iss.writes_wf h) e
  | mrankGet => exact issue_wf sWf (fun _ h => Iss.toMatrix_wf h) e
  | mrankCap => exact issue_wf sWf (fun _ h => Iss.toMatrix_wf h) e
  | mzero => exact issue_wf sWf (fun _ h => Iss.writes_wf h) e
  | mmov => exact issue_wf sWf (fun _ h => Iss.writes_wf h) e
  | aload => exact issue_wf sWf (fun _ h => rowLoadBody_wf h) e
  | astore => exact issue_wf sWf (fun _ h => rowStoreBody_wf h) e
  | azero => exact issue_wf sWf (fun _ h => Iss.writes_wf h) e
  | amov => exact issue_wf sWf (fun _ h => Iss.writes_wf h) e
  | xformQ => exact issue_wf sWf (fun _ h => Iss.xform_wf h) e
  | xformDq => exact issue_wf sWf (fun _ h => Iss.xform_wf h) e
  | xformHad => exact issue_wf sWf (fun _ h => Iss.xform_wf h) e
  | decodeBlk => exact issue_wf sWf (fun _ h => decodeBody_wf h) e
  | admitSeq => exact issue_wf sWf (fun _ h => Iss.token_wf h admitPlan_wf) e
  | admitRel => exact issue_wf sWf (fun _ h => Iss.token_wf h admitRelPlan_wf) e
  | kvapp => exact issue_wf sWf (fun _ h => Iss.token_wf h kvappPlan_wf) e
  | kvld => exact issue_wf sWf (fun _ h => kvldBody_wf h) e
  | kvseal => exact issue_wf sWf (fun _ h => Iss.token_wf h changePlan_wf) e
  | span => exact issue_wf sWf (fun _ h => Iss.token_wf h changePlan_wf) e
  | spanret => exact issue_wf sWf (fun _ h => Iss.token_wf h changePlan_wf) e
  | window => exact issue_wf sWf (fun _ h => Iss.token_wf h changePlan_wf) e
  | rope => exact issue_wf sWf (fun _ h => ropeBody_wf h) e
  | nest => exact issue_wf sWf (fun _ h => nestBody_wf h) e
  | apsend => exact issue_wf sWf (fun _ h => apsendBody_wf h) e
  | apermit => exact issue_wf sWf (fun _ h => apermitBody_wf h) e
  | launch => exact issue_wf sWf (fun _ h => launchBody_wf h) e
  | trap => exact issue_wf sWf (fun _ h => Iss.software_wf h) e
  | eret => exact issue_wf sWf (fun _ h => eretBody_wf h) e
  | eretRetry => exact issue_wf sWf (fun _ h => eretBody_wf h) e
  | svc => exact issue_wf sWf (fun _ h => Iss.software_wf h) e
  | getsr => exact issue_wf sWf (fun _ h => getsrBody_wf h) e
  | setsr => exact issue_wf sWf (fun _ h => setsrBody_wf h) e
  | bkpt => exact issue_wf sWf (fun _ h => bkptBody_wf h) e
  | sample => exact issue_wf sWf (fun _ h => sampleBody_wf h) e
  | rgive => exact issue_wf sWf (fun _ h => rgiveBody_wf h) e
  | rclaim => exact issue_wf sWf (fun _ h => rclaimBody_wf h) e
  | hintRegionWord => exact issue_wf sWf (fun _ h => nopBody_wf h) e
  | notAnInstruction => exact execNotAnInstruction_wf sWf e
  | pendingCauseTaken => exact event_wf (fun _ => State.takePend_wf sWf) e
  | nestPush => exact event_wf (fun _ => State.nestStep_wf sWf) e
  | writeLands => exact event_wf (fun _ => State.landStep_wf sWf) e
  | engineCompletion => exact event_wf (fun _ => State.engineDone_wf sWf) e
  | matrixStart => exact event_wf (fun _ => State.matrixStep_wf sWf) e
  | transformStart => exact event_wf (fun _ => State.transformStep_wf sWf) e
  | stageOutWrite => exact event_wf (fun _ => State.stageOutStep_wf sWf) e
  | barrierPhaseComplete => exact event_wf (fun _ => State.phaseStep_wf sWf) e
  | claimGrant => exact event_wf (fun _ => State.grantHead_wf sWf) e
  | registersFreed => exact event_wf (fun _ => State.freedStep_wf sWf) e
  | pageWalk => exact event_wf (fun _ => State.walkStep_wf sWf) e
  | tableLineStore => exact event_wf (fun _ => State.tableStep_wf sWf) e
  | translationInvalidation => exact event_wf (fun _ => State.tinvStep_wf sWf) e
  | translationAck => exact event_wf (fun _ => State.tackStep_wf sWf) e
  | stackerMove => exact event_wf (fun _ => State.moveStep_wf sWf) e
  | stackerRelease => exact event_wf (fun _ => State.releaseStep_wf sWf) e
  | rd => exact event_wf (fun _ => State.arriveReq_wf sWf) e
  | rfo => exact event_wf (fun _ => State.arriveReq_wf sWf) e
  | rfoz => exact event_wf (fun _ => State.arriveReq_wf sWf) e
  | upg => exact event_wf (fun _ => State.arriveReq_wf sWf) e
  | wb => exact event_wf (fun _ => State.wbArrive_wf sWf) e
  | inv => exact event_wf (fun _ => State.probeStep_wf sWf) e
  | fwdRd => exact event_wf (fun _ => State.probeStep_wf sWf) e
  | fwdRfo => exact event_wf (fun _ => State.probeStep_wf sWf) e
  | invAck => exact event_wf (fun _ => State.ackArrive_wf sWf) e
  | grant => exact event_wf (fun _ => State.grantStep_wf sWf) e
  | wbAck => exact event_wf (fun _ => State.wbAckStep_wf sWf) e
  | rakerScan => exact event_wf (fun _ => State.rakerStep_wf sWf) e
  | cleanProbe => exact event_wf (fun _ => State.cleanStep_wf sWf) e
  | lseRead => exact event_wf (fun _ => State.arriveReq_wf sWf) e
  | lseStore => exact event_wf (fun _ => State.arriveReq_wf sWf) e
  | lsePerform => exact event_wf (fun _ => State.lseStep_wf sWf) e
  | leaseExpiry => exact event_wf (fun _ => State.leaseStep_wf sWf) e
  | uncAccess => exact event_wf (fun _ => State.arriveReq_wf sWf) e
  | homeAtomic => exact event_wf (fun _ => State.arriveReq_wf sWf) e
  | recordEntry => exact event_wf (fun _ => State.copyStep_wf sWf) e
  | redirectedRead => exact event_wf (fun _ => State.redirectStep_wf sWf) e
  | hotResolution => exact event_wf (fun _ => State.hotStep_wf sWf) e
  | antecedentWrite => exact event_wf (fun _ => State.antecedentStep_wf sWf) e
  | resolutionComplete => exact event_wf (fun _ => State.resolutionStep_wf sWf) e
  | destinationWrite => exact event_wf (fun _ => State.destinationStep_wf sWf) e
  | granuleOp => exact event_wf (fun _ => State.granuleStep_wf sWf) e
  | engineWriteLands => exact event_wf (fun _ => State.engineLand_wf sWf) e
  | localRegionFree => exact event_wf (fun _ => State.regionFreeStep_wf sWf) e
  | clusterInstall => exact event_wf (fun _ => State.installStep_wf sWf) e
  | clusterRevoke => exact event_wf (fun _ => State.revokeStep_wf sWf) e
  | cleaveAck => exact event_wf (fun _ => State.cleaveDone_wf sWf) e
  | tokenPerform => exact event_wf (fun _ => State.tokenStep_wf sWf) e
  | poolUpdate => exact event_wf (fun _ => State.poolStep_wf sWf) e
  | slotPush => exact event_wf (fun _ => State.pushStep_wf sWf) e
  | parityFold => exact event_wf (fun _ => State.parityStep_wf sWf) e
  | rebuildRead => exact event_wf (fun _ => State.rebuildReadStep_wf sWf) e
  | rebuildComplete => exact event_wf (fun _ => State.rebuildStep_wf sWf) e
  | launchArrival => exact event_wf (fun _ => State.launchStep_wf sWf) e
  | placement => exact event_wf (fun _ => State.placementStep_wf sWf) e
  | reservingHead => exact event_wf (fun _ => State.reserveStep_wf sWf) e
  | workgroupEnd => exact event_wf (fun _ => State.endStep_wf sWf) e
  | mailboxWrite => cases e; exact State.barred_wf sWf fun _ h => State.mailWrite_wf h
  | throttleUpdate => exact event_wf (fun _ => State.throttleStep_wf sWf) e
  | swap => exact event_wf (fun _ => State.swapStep_wf sWf) e
  | swapBack => exact event_wf (fun _ => State.swapBackStep_wf sWf) e
  | evict => cases e; exact State.owned_wf sWf fun _ h => State.evictWrite_wf h
  | contextSwitchSave => exact event_wf (fun _ => State.saveStep_wf sWf) e
  | kill => cases e; exact State.owned_wf sWf fun _ h => State.killWrite_wf h
  | killSettle => exact event_wf (fun _ => State.killSettleStep_wf sWf) e
  | dbgNop => exact event_wf (fun _ => State.nopCmd_wf sWf) e
  | hold => exact event_wf (fun _ => State.holdCmd_wf sWf) e
  | dbgRelease => exact event_wf (fun _ => State.releaseCmd_wf sWf) e
  | stepPath => exact event_wf (fun _ => State.stepCmd_wf sWf) e
  | halt => exact event_wf (fun _ => State.haltCmd_wf sWf) e
  | restore => exact event_wf (fun _ => State.restoreCmd_wf sWf) e
  | stallsmp => exact event_wf (fun _ => State.stallCmd_wf sWf) e
  | trace => exact event_wf (fun _ => State.traceCmd_wf sWf) e
  | bkpten => exact event_wf (fun _ => State.bkptCmd_wf sWf) e
  | badcmd => exact event_wf (fun _ => State.badCmd_wf sWf) e
  | stallSample => exact event_wf (fun _ => State.stallStep_wf sWf) e
  | debugGrant => cases e; exact State.owned_wf sWf fun _ h => State.grantRight_wf h
  | debugRevoke => exact event_wf (fun _ => State.revokeDebug_wf sWf) e
  | claim => cases e; exact State.barred_wf sWf fun _ h => State.ownClaim_wf h
  | offer => cases e; exact State.barred_wf sWf fun _ h => State.ownOffer_wf h
  | accept => cases e; exact State.barred_wf sWf fun _ h => State.ownAccept_wf h
  | release => cases e; exact State.barred_wf sWf fun _ h => State.ownRelease_wf h
  | handoverTimeout => exact event_wf (fun _ => State.ownTimeout_wf sWf) e
  | attnonceWrite => cases e; exact State.barred_wf sWf fun _ h => State.regWrite_wf h
  | quoteComplete => exact event_wf (fun _ => State.quoteDone_wf sWf) e
  | dstatRetire => exact execDstatRetire_wf sWf e
  | framepoolPop => exact execFramepoolPop_wf sWf e
  | framepoolPush => cases e; exact State.barred_wf sWf fun _ h => State.framePush_wf h
  | registerWrite => cases e; exact State.barred_wf sWf fun _ h => State.regWrite_wf h
  | bar4Access => exact event_wf (fun _ => State.bar4_wf sWf) e
  | reset => cases e; exact State.reboot_wf sWf
  | zilberFrame => exact event_wf (fun _ => State.frameStep_wf sWf) e
  | flitResend => exact event_wf (fun _ => State.resendStep_wf sWf) e
  | peerUnreachable => exact event_wf (fun _ => State.unreachableStep_wf sWf) e
  | fenceCore => exact event_wf (fun _ => State.fenceCoreStep_wf sWf) e
  | fenceQuad => exact event_wf (fun _ => State.fenceQuadStep_wf sWf) e
  | fenceStack => exact event_wf (fun _ => State.fenceStackStep_wf sWf) e
  | fenceDie => exact event_wf (fun _ => State.fenceDieStep_wf sWf) e
  | fencePort => exact event_wf (fun _ => State.fencePortStep_wf sWf) e
  | storeAcknowledgement => exact event_wf (fun _ => State.storeAck_wf sWf) e
  | linkUp => exact event_wf (fun _ => State.linkStep_wf sWf) e

/-! ### Machine/Sched -/

theorem State.pathWord_wf (sWf : s.MemWf) {w0 : BitVec 96} (e : s.pathWord w gr p = .ok w0 z) : z.MemWf := by
  grind [State.pathWord, State.fetch_wf]

theorem State.waits_wf {w : Wait} (sWf : s.MemWf) : (s.waits h g p w).MemWf := State.modGroup_wf sWf

theorem State.second_wf (sWf : s.MemWf) : (s.second h g p w gr i).Wf := by
  grind [State.second, Begin.Wf, Second.Wf, State.begin_wf, State.modGroup_wf, State.asks_wf, State.waits_wf,
    State.fetch_wf]

theorem State.take_wf (sWf : s.MemWf) (e : s.take h g p gr i = .next z) : z.MemWf := by
  unfold State.take at e
  split at e
  · have h := exec_wf (s := { s with cur := .path h g p }) sWf ‹_›
    split at e <;> cases e
    · exact h
    · exact State.modCore_wf h
  · refine exec_wf ?_ e
    exact sWf

theorem State.takeSecond_wf {j : Instr} (sWf : s.MemWf) : (s.takeSecond h g p pc j).MemWf := by
  unfold State.takeSecond
  split
  · split
    · exact sWf
    · dsimp only
      split
      · rename_i t ht
        refine exec_wf ?_ ht
        exact State.modGroup_wf sWf
      · exact sWf
  · exact sWf

theorem State.issueIn_wf (sWf : s.MemWf) (e : s.issueIn h g p w gr i = .next z) : z.MemWf := by
  grind [State.issueIn, Second.Wf, State.takeSecond_wf, → State.take_wf, State.second_wf]

theorem State.issuePath_wf {pre : Nat} (sWf : s.MemWf) (e : s.issuePath h g p pre = .next z) : z.MemWf := by
  unfold State.issuePath at e
  split at e
  · cases e
  · split at e
    · cases e
    · split at e
      · cases e
      · split at e
        · cases e; exact State.waits_wf (State.asks_wf sWf)
        · cases e; exact State.waits_wf sWf
        · cases e; exact State.raise_wf (State.modGroup_wf sWf)
        · dsimp only at e
          have h := fun f n => State.fetchAhead_wf (h := h) (g := g) (p := p) (pc := n) (a5 := pre)
            (State.modGroup_wf (h := h) (g := g) (f := f) (State.pathWord_wf sWf ‹_›))
          split at e
          · refine exec_wf ?_ e
            exact h _ _
          · split at e
            · exact State.take_wf (h _ _) e
            · split at e
              · cases e
              · split at e
                · exact State.issueIn_wf (h _ _) e
                · cases e

theorem State.issueAp_wf (sWf : s.MemWf) (e : s.issueAp h g = .next z) : z.MemWf := by
  unfold State.issueAp at e
  split at e
  · cases e
  · split at e
    · cases e
    · split at e
      · cases e
      · dsimp only at e
        split at e
        · cases e; exact State.modGroup_wf (State.asks_wf sWf)
        · cases e; exact State.modGroup_wf sWf
        · cases e; exact State.modGroup_wf sWf
        · rename_i x t hx
          have ht : t.MemWf := by
            split at hx
            · cases hx; exact sWf
            · exact State.fetch_wf sWf hx
          refine exec_wf ?_ e
          exact State.modGroup_wf ht

theorem State.dropL1_wf (sWf : s.MemWf) (e : s.dropL1 core line = some z) : z.MemWf := by
  grind [State.dropL1, State.evictLine_wf]

theorem State.dropI_wf (sWf : s.MemWf) (e : s.dropI core line = some z) : z.MemWf := by
  unfold State.dropI at e
  split at e <;> cases e
  exact sWf

theorem State.dropHome_wf (sWf : s.MemWf) (e : s.dropHome line = some z) : z.MemWf := by
  grind [State.dropHome, State.dropL2_wf]

theorem State.dropTrans_wf {quad : Nat} (sWf : s.MemWf) (e : s.dropTrans quad va = some z) : z.MemWf := by
  unfold State.dropTrans at e
  split at e <;> cases e
  exact sWf

theorem State.wakeAll_wf (sWf : s.MemWf) : (s.wakeAll).MemWf := sWf

theorem State.pass_wf (sWf : s.MemWf) : (s.pass).MemWf := by
  grind [State.pass, State.later_wf, State.wakeAll_wf]

theorem State.elapse_wf {a1 : Nat} (sWf : s.MemWf) (e : s.elapse a1 = some z) : z.MemWf := by
  fun_induction State.elapse s a1 <;> grind [State.later_wf]

theorem State.run_wf {a : Act} (sWf : s.MemWf) (e : s.run a = .next z) : z.MemWf := by
  cases a with
  | issue h g p pre => exact State.issuePath_wf sWf e
  | apIssue h g pre => exact State.issueAp_wf sWf e
  | event i =>
    simp only [State.run] at e
    split at e
    · refine exec_wf ?_ e
      exact sWf
    · cases e
  | evictL1 c l => exact event_wf (fun t => State.dropL1_wf sWf) e
  | evictI c l => exact event_wf (fun t => State.dropI_wf sWf) e
  | evictL2 l => exact event_wf (fun t => State.dropHome_wf sWf) e
  | evictTrans q va => exact event_wf (fun t => State.dropTrans_wf sWf) e
  | serve p k => exact event_wf (fun t => State.doorbell_wf sWf) e
  | hostRead mail off n => cases e; exact State.hostRead_wf sWf
  | pass =>
    simp only [State.run] at e
    split at e
    · cases e; exact State.wakeAll_wf (State.elapse_wf sWf ‹_›)
    · cases e

theorem State.firstOf_wf {a1 : List Act} (sWf : s.MemWf) (e : s.firstOf a1 = some z) : z.MemWf := by
  fun_induction State.firstOf s a1 <;> grind [→ State.run_wf]

theorem State.idle_wf (sWf : s.MemWf) (e : s.idle = .next z) : z.MemWf := by
  unfold State.idle at e
  split at e
  · cases e; exact State.firstOf_wf sWf ‹_›
  · cases e; exact State.pass_wf sWf

theorem State.turn_wf (sWf : s.MemWf) (e : s.turn = .next z) : z.MemWf := by
  unfold State.turn at e
  split at e
  · split at e
    · rename_i r _ _ u hu
      refine State.run_wf (State.elapse_wf ?_ hu) e
      exact sWf
    · cases e
  · exact State.idle_wf sWf e

end

end Sys2Proof.Machine

/-- Settles O60: a step is a turn, and a turn keeps the form of memory. -/
theorem stepsKeepMemoryForm : Obligations.StepsKeepMemoryForm := fun _ _ h e =>
  Sys2Proof.Machine.State.turn_wf h e

/-!
SUPPORT. What the shared operations of homes and workgroups leave alone: each changes the named fields of the state and
no other.
-/

section
open Sys2Proof Sys2Proof.Machine
namespace Sys2Proof.Machine

/-! ### Tables whose values change -/

theorem find?_map_snd {α : Type} (f : α → α) (l : SMap α) (k : Nat) :
    find? (l.map fun e => (e.1, f e.2)) k = (find? l k).map f := by
  induction l with
  | nil => rfl
  | cons e l ih =>
    simp only [List.map_cons, find?, ih]
    split <;> rfl

theorem look_map_snd {α : Type} (f : α → α) (d : α) (l : SMap α) (k : Nat) :
    look (f d) (l.map fun e => (e.1, f e.2)) k = f (look d l k) := by
  induction l with
  | nil => rfl
  | cons e l ih =>
    simp only [List.map_cons, look, ih]
    split <;> rfl

theorem State.die_modDie (s : State) (d : Nat) (f : Die → Die) (k : Nat) :
    (s.modDie d f).die k = if k = d ∧ d < s.dies.length then f (s.die k) else s.die k := by
  unfold State.die
  rw [State.modDie_dies, modAt_getElem?]
  by_cases h : k = d
  · subst h
    by_cases hl : k < s.dies.length
    · simp [hl]
    · simp [hl]
  · simp [h]

theorem List.set_eq_modAt {α : Type} (l : List α) (k : Nat) (a : α) : modAt (fun _ => a) l k = l.set k a := by
  apply List.ext_getElem?
  intro j
  rw [modAt_getElem?, List.getElem?_set]
  by_cases h : j = k
  · subst h
    by_cases hl : j < l.length <;> simp [hl]
  · simp [h, Ne.symm h]

/-! ### Events -/

theorem event_of_some {name : String} {r : Option State} {t : State} (h : r = some t) : event name r = .next t := by
  rw [h]
  rfl

theorem event_of_none {name : String} {r : Option State} (h : r = none) : event name r = .refused (.notPending name) := by
  rw [h]
  rfl

/-! ### L2: lines that enter and leave it -/

/-- `t` is `s` but for L2, memory and the high-water stamps. -/
structure State.L2Only (s t : State) : Prop where
  eq : t = { s with mem := t.mem, l2 := t.l2, highWater := t.highWater }

namespace State.L2Only
variable {s t u : State}

theorem refl (s : State) : L2Only s s := ⟨rfl⟩

theorem of (s : State) (m : List Host.Cell) (l : List L2Line) (w : List HighWater) :
    L2Only s { s with mem := m, l2 := l, highWater := w } := ⟨rfl⟩

theorem of_l2 (s : State) (l : List L2Line) : L2Only s { s with l2 := l } := ⟨rfl⟩

theorem of_highWater (s : State) (w : List HighWater) : L2Only s { s with highWater := w } := ⟨rfl⟩

theorem trans (h : L2Only s t) (k : L2Only t u) : L2Only s u := by
  constructor
  rw [k.eq, h.eq]

theorem homes (h : L2Only s t) : t.homes = s.homes := by rw [h.eq]
theorem lostLines (h : L2Only s t) : t.lostLines = s.lostLines := by rw [h.eq]
theorem cores (h : L2Only s t) : t.cores = s.cores := by rw [h.eq]
theorem quads (h : L2Only s t) : t.quads = s.quads := by rw [h.eq]
theorem dies (h : L2Only s t) : t.dies = s.dies := by rw [h.eq]
theorem pn (h : L2Only s t) : t.pn = s.pn := by rw [h.eq]
theorem wgs (h : L2Only s t) : t.wgs = s.wgs := by rw [h.eq]
theorem queues (h : L2Only s t) : t.queues = s.queues := by rw [h.eq]

theorem foldl {α : Type} {f : State → α → State} (hf : ∀ s a, L2Only s (f s a)) (l : List α) (s : State) :
    L2Only s (l.foldl f s) :=
  List.foldlRecOn (motive := fun t => L2Only s t) l f (refl s) fun t h a _ => h.trans (hf t a)

end State.L2Only

theorem State.dropL2_only (s : State) (line : Nat) : L2Only s (s.dropL2 line) := by
  unfold State.dropL2
  split
  · exact ⟨rfl⟩
  · rename_i l _
    have h : L2Only s (if l.dirty then
        { s with l2 := s.l2.filter (·.line != line), mem := Memory.write s.mem line l.data.bytes }
      else { s with l2 := s.l2.filter (·.line != line) }) := by
      split <;> exact .of ..
    dsimp only
    split
    · exact h
    · exact h.trans (L2Only.of_highWater ..)

theorem State.putL2_only (s : State) (line : Nat) (row : Row) (d : Bool) : L2Only s (s.putL2 line row d) := by
  unfold State.putL2
  split
  · exact ⟨rfl⟩
  · dsimp only
    split
    · exact (s.dropL2_only _).trans (L2Only.of_l2 ..)
    · exact ⟨rfl⟩

theorem State.saveOwner_only (s : State) (line : Nat) : L2Only s (s.saveOwner line) := by
  unfold State.saveOwner
  split
  · split
    · exact ⟨rfl⟩
    · exact s.putL2_only ..
  · exact ⟨rfl⟩

/-! ### Kills and causes -/

/-- `t` is `s` but for its workgroups, its queued records, its barriers, and its cores. -/
structure State.GroupsOnly (s t : State) : Prop where
  eq : t = { s with wgs := t.wgs, queues := t.queues, cores := t.cores, bars := t.bars }

namespace State.GroupsOnly
variable {s t u : State}

theorem refl (s : State) : GroupsOnly s s := ⟨rfl⟩

theorem of_wgs (s : State) (w : SMap Workgroup) : GroupsOnly s { s with wgs := w } := ⟨rfl⟩

theorem of_queues (s : State) (q : List (List Queued)) : GroupsOnly s { s with queues := q } := ⟨rfl⟩

theorem of_cores (s : State) (c : SMap Core) (b : List BarPhase) : GroupsOnly s { s with cores := c, bars := b } := ⟨rfl⟩

theorem trans (h : GroupsOnly s t) (k : GroupsOnly t u) : GroupsOnly s u := by
  constructor
  rw [k.eq, h.eq]

theorem homes (h : GroupsOnly s t) : t.homes = s.homes := by rw [h.eq]
theorem lostLines (h : GroupsOnly s t) : t.lostLines = s.lostLines := by rw [h.eq]
theorem dies (h : GroupsOnly s t) : t.dies = s.dies := by rw [h.eq]

theorem foldl {α : Type} {f : State → α → State} (hf : ∀ s a, GroupsOnly s (f s a)) (l : List α) (s : State) :
    GroupsOnly s (l.foldl f s) :=
  List.foldlRecOn (motive := fun t => GroupsOnly s t) l f (refl s) fun t h a _ => h.trans (hf t a)

end State.GroupsOnly

theorem State.modWg_only (s : State) (h : Nat) (f : Workgroup → Workgroup) : GroupsOnly s (s.modWg h f) := by
  unfold State.modWg
  split <;> exact ⟨rfl⟩

theorem State.modGroup_only (s : State) (h g : Nat) (f : Group → Group) : GroupsOnly s (s.modGroup h g f) := by
  unfold State.modGroup
  split
  · exact ⟨rfl⟩
  · exact s.modWg_only ..

theorem State.unqueue_only (s : State) (h : Nat) : GroupsOnly s (s.unqueue h) :=
  (GroupsOnly.of_queues s _).trans (GroupsOnly.foldl (fun s _ => GroupsOnly.of_wgs s _) _ _)

theorem State.killOne_only (s : State) (code h : Nat) : GroupsOnly s (s.killOne code h) :=
  (s.modWg_only h _).trans (GroupsOnly.of_cores ..)

theorem State.killWg_only (s : State) (h code : Nat) : GroupsOnly s (s.killWg h code) :=
  (s.unqueue_only h).trans (GroupsOnly.foldl (fun s k => s.killOne_only code k) _ _)

theorem State.raise_only (s : State) (h g p : Nat) (r : Raise) (ap : Bool) : GroupsOnly s (s.raise h g p r ap) := by
  unfold State.raise
  split
  · exact ⟨rfl⟩
  · split
    · exact s.killWg_only ..
    · exact s.modWg_only ..

theorem State.settle_only (s : State) (h g seq : Nat) : GroupsOnly s (s.settle h g seq) := by
  unfold State.settle
  split
  · exact ⟨rfl⟩
  · split
    · exact ⟨rfl⟩
    · dsimp only
      split
      · split
        · exact (s.modGroup_only ..).trans (State.modGroup_only ..)
        · exact ((s.modGroup_only ..).trans (State.raise_only ..)).trans (State.modGroup_only ..)
      · exact (s.modGroup_only ..).trans (State.modGroup_only ..)

theorem State.lostAccs_only (s : State) (as : List Acc) (c : Cause) (info : Nat) : GroupsOnly s (s.lostAccs as c info) :=
  GroupsOnly.foldl (fun s _ => (s.modGroup_only ..).trans (State.settle_only ..)) _ _

/-! ### Lost lines -/

/-- `t` has the dies, the marks and the homes of `s`: the same lines are lost. -/
structure State.SameLoss (s t : State) : Prop where
  dies : t.dies = s.dies
  lostLines : t.lostLines = s.lostLines
  homes : t.homes = s.homes

theorem State.SameLoss.isLost {s t : State} (h : SameLoss s t) (l : Nat) : t.isLost l = s.isLost l := by
  unfold State.isLost State.dieLost State.die
  rw [h.dies, h.lostLines]

end Sys2Proof.Machine
end

/-!
SUPPORT. What a write at a home leaves alone: the windows and the copies of its lines change, and nothing else.
-/

section
open Sys2Proof Sys2Proof.Machine
namespace Sys2Proof.Machine

/-- `t` is `s` but for memory, L2, the high-water stamps, the windows, and what cores and quads hold. -/
structure State.LinesOnly (s t : State) : Prop where
  eq : t = { s with mem := t.mem, l2 := t.l2, highWater := t.highWater, pn := t.pn, nextPn := t.nextPn, cores := t.cores,
                    quads := t.quads }

namespace State.LinesOnly
variable {s t u : State}

theorem refl (s : State) : LinesOnly s s := ⟨rfl⟩

theorem of_pn (s : State) (p : List PnEnt) (n : Nat) : LinesOnly s { s with pn := p, nextPn := n } := ⟨rfl⟩

theorem of_cores (s : State) (c : SMap Core) : LinesOnly s { s with cores := c } := ⟨rfl⟩

theorem of_quads (s : State) (q : SMap Quad) : LinesOnly s { s with quads := q } := ⟨rfl⟩

theorem trans (h : LinesOnly s t) (k : LinesOnly t u) : LinesOnly s u := by
  constructor
  rw [k.eq, h.eq]

theorem of_l2 (h : L2Only s t) : LinesOnly s t := by
  constructor
  rw [h.eq]

theorem wgs (h : LinesOnly s t) : t.wgs = s.wgs := by rw [h.eq]
theorem msgs (h : LinesOnly s t) : t.msgs = s.msgs := by rw [h.eq]
theorem homes (h : LinesOnly s t) : t.homes = s.homes := by rw [h.eq]
theorem dir (h : LinesOnly s t) : t.dir = s.dir := by rw [h.eq]
theorem lostLines (h : LinesOnly s t) : t.lostLines = s.lostLines := by rw [h.eq]
theorem dies (h : LinesOnly s t) : t.dies = s.dies := by rw [h.eq]

theorem foldl {α : Type} {f : State → α → State} (hf : ∀ s a, LinesOnly s (f s a)) (l : List α) (s : State) :
    LinesOnly s (l.foldl f s) :=
  List.foldlRecOn (motive := fun t => LinesOnly s t) l f (refl s) fun t h a _ => h.trans (hf t a)

end State.LinesOnly

theorem State.modQuad_lines (s : State) (q : Nat) (f : Quad → Quad) : LinesOnly s (s.modQuad q f) := ⟨rfl⟩

theorem State.modCore_lines (s : State) (c : Nat) (f : Core → Core) : LinesOnly s (s.modCore c f) := ⟨rfl⟩

/-! ### Windows -/

theorem State.resolveLines_only (s : State) (ls : List Nat) : L2Only s (s.resolveLines ls) :=
  L2Only.foldl (fun s _ => s.putL2_only ..) ls s

theorem State.setWindow_only (s : State) (id lo hi : Nat) : LinesOnly s (s.setWindow id lo hi) := by
  unfold State.setWindow
  split <;> exact ⟨rfl⟩

theorem State.cutWindow_only (s : State) (e : PnEnt) (lo hi : Nat) : LinesOnly s (s.cutWindow e lo hi) := by
  unfold State.cutWindow
  split
  · exact .refl s
  · split
    · exact s.setWindow_only ..
    · split
      · exact s.setWindow_only ..
      · split
        · exact (s.setWindow_only ..).trans (.of_pn ..)
        · exact (LinesOnly.of_l2 (s.resolveLines_only _)).trans (State.setWindow_only ..)

theorem State.trimLine_only (s : State) (line : Nat) : LinesOnly s (s.trimLine line) := by
  unfold State.trimLine
  dsimp only
  split
  · exact .refl s
  · exact (LinesOnly.of_l2 (s.putL2_only ..)).trans (LinesOnly.foldl (fun s e => s.cutWindow_only ..) _ _)

theorem State.resolveEntry_only (s : State) (e : PnEnt) : LinesOnly s (s.resolveEntry e) :=
  (LinesOnly.of_l2 (s.resolveLines_only _)).trans (.of_pn ..)

theorem State.clearWindows_only {s t : State} {line off n : Nat} (h : s.clearWindows line off n = .ok t) : LinesOnly s t := by
  unfold State.clearWindows at h
  dsimp only at h
  split at h
  · cases h
  split at h
  · cases h
  split at h
  · cases h
  split at h
  · cases h
  · cases h
    exact (LinesOnly.foldl (fun s e => s.resolveEntry_only e) _ s).trans (State.trimLine_only ..)

theorem State.takeBack_only (s : State) (line : Nat) : LinesOnly s (s.takeBack line) :=
  (LinesOnly.of_l2 (s.saveOwner_only line)).trans (.of_cores ..)

theorem State.casLine_only (s : State) (line : Nat) (row : Row) : LinesOnly s (s.casLine line row) :=
  (s.takeBack_only line).trans (LinesOnly.of_l2 (State.putL2_only ..))

/-! ### The use of translations -/

theorem State.casLeaf_only {s u : State} {t : Trans} {bits line : Nat} (h : s.casLeaf t bits line = .ok u) : LinesOnly s u := by
  unfold State.casLeaf at h
  dsimp only at h
  split at h
  · cases h
    exact .refl s
  split at h
  · cases h
  split at h
  · cases h
  · cases h
  · rename_i v hv
    cases h
    exact (State.clearWindows_only hv).trans (State.casLine_only ..)

/-- A fold over steps that may end it: what the last state has of the first. -/
theorem foldl_ends {α ρ : Type} {σ : Type} {ok : σ → ρ} {f : ρ → α → ρ} {R : σ → σ → Prop} (hrefl : ∀ s, R s s)
    (htrans : ∀ {s t u}, R s t → R t u → R s u) (hok : ∀ {r a t}, f r a = ok t → ∃ s, r = ok s ∧ R s t)
    (hinj : ∀ {s t}, ok s = ok t → s = t)
    (l : List α) {s t : σ} (h : l.foldl f (ok s) = ok t) : R s t := by
  induction l using List.reverseRecOn generalizing t with
  | nil => exact hinj h ▸ hrefl s
  | append_singleton l a ih =>
    rw [List.foldl_append] at h
    obtain ⟨u, hu, hr⟩ := hok h
    exact htrans (ih hu) hr

theorem State.setLeafBits_only {s u : State} {t : Trans} {bits : Nat} (h : s.setLeafBits t bits = .ok u) : LinesOnly s u := by
  refine foldl_ends (ok := Cas.ok) LinesOnly.refl LinesOnly.trans (fun {r a v} hr => ?_) Cas.ok.inj _ h
  cases r with
  | ok x => exact ⟨x, rfl, State.casLeaf_only hr⟩
  | busy b => cases hr
  | differs => cases hr

theorem State.useTrans_only {s u : State} {core : Nat} {wr : Bool} {t : Trans} (h : s.useTrans core wr t = .ok u) :
    LinesOnly s u := by
  unfold State.useTrans at h
  extract_lets bits up at h
  by_cases hb : (bits == 0) = true
  · rw [if_pos hb] at h
    exact Used.ok.inj h ▸ .refl s
  · rw [if_neg hb] at h
    cases hc : s.setLeafBits t bits with
    | busy r => rw [hc] at h; cases h
    | differs => rw [hc] at h; cases h
    | ok v =>
      rw [hc] at h
      have hv := (State.setLeafBits_only hc).trans (v.modQuad_lines (quadOf core) fun x => { x with tc := x.tc.map up })
      exact Used.ok.inj h ▸ hv.trans (LinesOnly.foldl (fun s c => s.modCore_lines ..) _ _)

theorem State.useAll_only {s u : State} {core : Nat} {wr : Bool} {ts : List Trans} (h : s.useAll core wr ts = .ok u) :
    LinesOnly s u := by
  refine foldl_ends (ok := Used.ok) LinesOnly.refl LinesOnly.trans (fun {r a v} hr => ?_) Used.ok.inj _ h
  cases r with
  | ok x => exact ⟨x, rfl, State.useTrans_only hr⟩
  | wait b => cases hr

end Sys2Proof.Machine
end

/-!
SUPPORT. The bytes of a row, and the 8 bytes of a table entry in its line.
-/

section
open Sys2Proof Sys2Proof.Machine
namespace Sys2Proof.Machine

theorem Row.setByte_getLsbD (r : Row) (i : Nat) (b : Byte) {j : Nat} (hj : j < 1024) :
    (r.setByte i b).getLsbD j = if 8 * i ≤ j ∧ j < 8 * i + 8 then b.getLsbD (j - 8 * i) else r.getLsbD j := by
  unfold Row.setByte
  simp only [BitVec.getLsbD_or, BitVec.getLsbD_and, BitVec.getLsbD_not, BitVec.getLsbD_shiftLeft, BitVec.getLsbD_setWidth,
    BitVec.getLsbD_allOnes, hj, decide_true, Bool.true_and]
  by_cases h1 : 8 * i ≤ j
  · by_cases h2 : j < 8 * i + 8
    · have h3 : j - 8 * i < 8 := by omega
      have h4 : j - 8 * i < 1024 := by omega
      simp [h1, h2, h3, h4, Nat.not_lt.2 h1]
    · have h3 : ¬(j - 8 * i < 8) := by omega
      have h4 : b.getLsbD (j - 8 * i) = false := BitVec.getLsbD_of_ge _ _ (by omega)
      simp [h1, h2, h3, h4]
  · simp [h1, Nat.lt_of_not_le h1]

/-- A row into which n bytes are put, byte by byte. -/
theorem Row.foldl_setByte_getLsbD (r : Row) (off : Nat) (f : Nat → Byte) (n : Nat) {j : Nat} (hj : j < 1024) :
    ((List.range n).foldl (fun (r : Row) i => r.setByte (off + i) (f i)) r).getLsbD j =
      if 8 * off ≤ j ∧ j < 8 * (off + n) then (f (j / 8 - off)).getLsbD (j % 8) else r.getLsbD j := by
  induction n with
  | zero =>
    rw [if_neg (by omega)]
    rfl
  | succ n ih =>
    rw [List.range_succ, List.foldl_append, List.foldl_cons, List.foldl_nil, Row.setByte_getLsbD _ _ _ hj, ih]
    by_cases h : 8 * (off + n) ≤ j ∧ j < 8 * (off + n) + 8
    · have h1 : j / 8 - off = n := by omega
      have h2 : j - 8 * (off + n) = j % 8 := by omega
      rw [if_pos h, if_pos (by omega), h1, h2]
    · rw [if_neg h]
      by_cases h3 : 8 * off ≤ j ∧ j < 8 * (off + n)
      · rw [if_pos h3, if_pos (by omega)]
      · rw [if_neg h3, if_neg (by omega)]

theorem bytesOfNat_length (n v : Nat) : (bytesOfNat n v).length = n := by
  induction n generalizing v with
  | zero => rfl
  | succ n ih => simp [bytesOfNat, ih]

theorem bytesOfNat_getD (n v : Nat) {i : Nat} (hi : i < n) : (bytesOfNat n v).getD i 0 = BitVec.ofNat 8 (v / 256 ^ i) := by
  induction n generalizing v i with
  | zero => exact absurd hi (Nat.not_lt_zero i)
  | succ n ih =>
    cases i with
    | zero => simp [bytesOfNat]
    | succ i =>
      rw [bytesOfNat, List.getD_cons_succ, ih _ (by omega), Nat.div_div_eq_div_mul, Nat.pow_succ']

/-! ### Entries -/

theorem putEntry_getLsbD (r : Row) {a : Nat} (ha : a % 8 = 0) (e : Nat) {j : Nat} (hj : j < 1024) :
    (putEntry r a e).getLsbD j =
      if 8 * (a % 128) ≤ j ∧ j < 8 * (a % 128) + 64 then e.testBit (j - 8 * (a % 128)) else r.getLsbD j := by
  unfold putEntry Row.putBytes
  rw [bytesOfNat_length, Row.foldl_setByte_getLsbD _ _ _ _ hj]
  by_cases h : 8 * (a % 128) ≤ j ∧ j < 8 * (a % 128) + 64
  · rw [if_pos (by omega), if_pos h, bytesOfNat_getD _ _ (by omega)]
    have h8 : j % 8 < 8 := Nat.mod_lt _ (by decide)
    have hp : (256 : Nat) ^ (j / 8 - a % 128) = 2 ^ (8 * (j / 8 - a % 128)) := by rw [Nat.pow_mul]
    rw [BitVec.getLsbD_ofNat, hp, Nat.testBit_div_two_pow, decide_eq_true h8, Bool.true_and]
    congr 1
    omega
  · rw [if_neg (by omega), if_neg h]

/-- An entry reads as it was put, in 64 bits. -/
theorem entryIn_putEntry_same (r : Row) {a : Nat} (ha : a % 8 = 0) (e : Nat) : entryIn (putEntry r a e) a = e % 2 ^ 64 := by
  unfold entryIn
  apply Nat.eq_of_testBit_eq
  intro i
  rw [Nat.testBit_mod_two_pow, BitVec.testBit_toNat, BitVec.getLsbD_extractLsb']
  by_cases hi : i < 64
  · rw [putEntry_getLsbD r ha e (by omega), if_pos (by omega)]
    simp [hi]
  · simp [hi]

/-- Another entry of the line reads as before. -/
theorem entryIn_putEntry_ne (r : Row) {a b : Nat} (ha : a % 8 = 0) (hb : b % 8 = 0) (hab : a % 128 ≠ b % 128) (e : Nat) :
    entryIn (putEntry r a e) b = entryIn r b := by
  unfold entryIn
  apply Nat.eq_of_testBit_eq
  intro i
  rw [BitVec.testBit_toNat, BitVec.testBit_toNat, BitVec.getLsbD_extractLsb', BitVec.getLsbD_extractLsb']
  by_cases hi : i < 64
  · rw [putEntry_getLsbD r ha e (by omega), if_neg (by omega)]
  · simp [hi]

end Sys2Proof.Machine
end

/-!
PROOF. O59, StepRunsDecodedWord: what a turn of the list is, what an issue of a path and of an access processor does in each
case of its fetch, and what a fetch of one line from its home returns.
-/

namespace Sys2Proof.Machine

/-! ### A turn of the list -/

@[simp] theorem State.later_one_cycle (s : State) : (s.later 1).cycle = s.cycle + 1 := by
  unfold State.later
  dsimp only
  split <;> rfl

theorem State.elapse_cycle {n : Nat} {s t : State} (e : s.elapse n = some t) : t.cycle = s.cycle + n := by
  induction n generalizing s with
  | zero => cases e; rfl
  | succ n ih =>
    simp only [State.elapse] at e
    split at e
    · cases e
    · rw [ih e, State.later_one_cycle]
      omega

theorem step_of_late {s : State} {d : Turn} {rest : List Turn} (h : s.sched = d :: rest)
    (e : State.elapse { s with sched := rest } d.dt = none) : step s = .refused .notReady := by
  simp only [step, State.turn, h, e]

theorem step_of_turn {s t : State} {d : Turn} {rest : List Turn} (h : s.sched = d :: rest)
    (e : State.elapse { s with sched := rest } d.dt = some t) : step s = t.run d.act := by
  simp only [step, State.turn, h, e]

/-! ### What an issue takes -/

theorem State.taking_eq_take (s : State) (h g p : Nat) (gr : Group) (i : Instr) :
    s.taking h g p gr i = s.take h g p gr i := by
  unfold State.taking State.take
  cases exec i { s with cur := .path h g p } with
  | next t =>
    dsimp only
    split <;> rename_i hc
    · rw [if_pos (by simpa using hc)]
    · rw [if_neg (by simpa using hc)]
      rfl
  | _ => rfl

theorem State.getsSlot_iff {s : State} {h g p : Nat} {gr : Group} {i : Instr} :
    s.getsSlot h g p gr i = true ↔ s.slotFree gr.core gr.quarter (vectorSlot i) = true ∧
      ∀ r ∈ s.rivals gr.core gr.quarter (vectorSlot i), rivalBefore r ((gr.path p).ageFrom, h, g, p) = false := by
  simp [State.getsSlot]

theorem State.second_of_unpaired {s : State} {h g p : Nat} {w : Workgroup} {gr : Group} {i : Instr}
    (hp : i.ctl.hint.pair = false ∨ (gr.path p).stepOnce = true) : s.second h g p w gr i = .alone := by
  unfold State.second
  dsimp only
  rw [if_pos]
  rcases hp with hp | hp <;> simp [hp]

theorem State.second_pairs {s t : State} {h g p : Nat} {w : Workgroup} {gr : Group} {i j : Instr}
    (e : s.second h g p w gr i = .pair j t) : i.pairs j = true := by
  grind [State.second]

/-- The state in which a path that has its word executes: the word in its buffer, and what was fetched ahead of it. -/
def State.withWord (s : State) (h g p pre : Nat) (gr : Group) (x : BitVec 96) : State :=
  (s.modGroup h g (·.modPath p fun q => { q with fbuf := bufPut q.fbuf (gr.path p).pc x })).fetchAhead
    h g p ((gr.path p).pc + 12) pre

section Issue
variable {s t : State} {h g p pre : Nat} {w : Workgroup} {gr gr' : Group} {x : BitVec 96}

/-! An issue of a path, by what its fetch answers and by what takes its slot. -/

theorem State.issuePath_of_stopped (hw : s.wg? h = some w) (hg : w.group? g = some gr) (hr : s.pathRuns w gr p = false) :
    s.issuePath h g p pre = .refused .notReady := by
  simp [State.issuePath, hw, hg, hr]

variable (hw : s.wg? h = some w) (hg : w.group? g = some gr) (hr : s.pathRuns w gr p = true)
include hw hg hr

theorem State.issuePath_of_walk {as : List Ask} (hx : s.pathWord w gr p = .walk as) :
    s.issuePath h g p pre = .next ((s.asks as).waits h g p .walk) := by
  simp [State.issuePath, hw, hg, hr, hx]

theorem State.issuePath_of_busy (hx : s.pathWord w gr p = .busy) :
    s.issuePath h g p pre = .next (s.waits h g p .busy) := by
  simp [State.issuePath, hw, hg, hr, hx]

theorem State.issuePath_of_fault {f : LaneFault} (hx : s.pathWord w gr p = .fault f) :
    s.issuePath h g p pre = .next ((s.modGroup h g (·.modPath p fun q => { q with stepOnce := false })).raise h g p
      { cls := .fetch, cause := f.cause, info := f.info, faddr := f.addr, p31 := (gr.path p).mask }) := by
  simp [State.issuePath, hw, hg, hr, hx]

variable (hx : s.pathWord w gr p = .ok x t)
include hx

theorem State.issuePath_of_slotted (hs : (gr.path p).slotted = true) :
    s.issuePath h g p pre = exec (decode x) { t.withWord h g p pre gr x with cur := .path h g p } := by
  simp [State.issuePath, State.withWord, hw, hg, hr, hx, hs]

variable (hs : (gr.path p).slotted = false)
include hs

/-- What only waits, or is dropped, takes no slot. -/
theorem State.issuePath_of_slotless
    (hc : (t.withWord h g p pre gr x).canIssue h g p (decode x) = false
      ∨ (t.withWord h g p pre gr x).dropped h g p (decode x) = true) :
    s.issuePath h g p pre = (t.withWord h g p pre gr x).take h g p gr (decode x) := by
  unfold State.withWord at *
  simp only [State.issuePath, hw, hg, hr, hx, hs]
  rw [if_neg (by simp), if_neg (by simp), if_pos (by simpa using hc)]

variable (hc : (t.withWord h g p pre gr x).canIssue h g p (decode x) = true)
  (hd : (t.withWord h g p pre gr x).dropped h g p (decode x) = false)
  (hg' : (t.withWord h g p pre gr x).group? h g = some gr')
include hc hd hg'

theorem State.issuePath_of_rivals (hl : (t.withWord h g p pre gr x).getsSlot h g p gr' (decode x) = false) :
    s.issuePath h g p pre = .refused .notReady := by
  unfold State.withWord at *
  simp [State.issuePath, hw, hg, hr, hx, hs, hc, hd, hg', hl]

theorem State.issuePath_of_getsSlot (hl : (t.withWord h g p pre gr x).getsSlot h g p gr' (decode x) = true) :
    s.issuePath h g p pre = (t.withWord h g p pre gr x).issueIn h g p w gr' (decode x) := by
  unfold State.withWord at *
  simp [State.issuePath, hw, hg, hr, hx, hs, hc, hd, hg', hl]

end Issue

/-! ### What a slot's path executes -/

section IssueIn
variable {s t : State} {h g p : Nat} {w : Workgroup} {gr : Group} {i j : Instr}

theorem State.issueIn_of_alone (e : s.second h g p w gr i = .alone) : s.issueIn h g p w gr i = s.take h g p gr i := by
  simp [State.issueIn, e]

theorem State.issueIn_of_wait (e : s.second h g p w gr i = .wait t) : s.issueIn h g p w gr i = .next t := by
  simp [State.issueIn, e]

theorem State.issueIn_of_pair {u : State} (e : s.second h g p w gr i = .pair j t) (ht : t.take h g p gr i = .next u) :
    s.issueIn h g p w gr i = .next (u.takeSecond h g p (((gr.path p).pc + 12) % 2 ^ 64) j) := by
  simp [State.issueIn, e, ht]

end IssueIn

/-! ### An issue of an access processor -/

/-- The state in which an access processor that has its word executes. -/
def State.withApWord (s : State) (h g : Nat) (x : BitVec 96) : State :=
  { s.modGroup h g fun gr =>
      { gr with ap := { gr.ap with fbuf := bufPut gr.ap.fbuf gr.ap.pc x, notBefore := s.clock gr.core + 1 } }
    with cur := .ap h g }

section IssueAp
variable {s t : State} {h g : Nat} {w : Workgroup} {gr : Group} {x : BitVec 96}
variable (hw : s.wg? h = some w) (hg : w.group? g = some gr) (hr : s.apRuns w gr = true)
include hw hg hr

theorem State.issueAp_of_buffered (hb : bufWord gr.ap.fbuf gr.ap.pc = some x) :
    s.issueAp h g = exec (decode x) (s.withApWord h g x) := by
  simp [State.issueAp, State.withApWord, hw, hg, hr, hb]

variable (hb : bufWord gr.ap.fbuf gr.ap.pc = none)
include hb

theorem State.issueAp_of_fetched (hf : s.fetch gr.core w.ctx gr.sup gr.ap.pc = .ok x t) :
    s.issueAp h g = exec (decode x) (t.withApWord h g x) := by
  simp [State.issueAp, State.withApWord, hw, hg, hr, hb, hf]

theorem State.issueAp_of_fault {f : LaneFault} (hf : s.fetch gr.core w.ctx gr.sup gr.ap.pc = .fault f) :
    s.issueAp h g = .next (s.modGroup h g (·.apFault f.cause f.info f.addr)) := by
  simp [State.issueAp, hw, hg, hr, hb, hf]

end IssueAp

/-! ### A fetch of one line -/

theorem windowOfRange_below {a n : Nat} (hn : 0 < n) (h : a + n ≤ localBase) : windowOfRange a n = .global := by
  have hb : localBase ≤ 2 ^ 55 := by decide
  have h1 : windowOf a = .global := if_pos (by omega)
  have h2 : windowOf (a + n - 1) = .global := if_pos (by omega)
  rw [windowOfRange, h1, h2]
  simpa using h.trans hb

/-- A range of one line is one piece. -/
theorem lineCuts_within {a n f : Nat} (hn : 0 < n) (h : a % 128 + n ≤ 128) : lineCuts a (f + 2) n = [(a, n)] := by
  obtain ⟨k, rfl⟩ : ∃ k, n = k + 1 := ⟨n - 1, by omega⟩
  have hk : min (k + 1) (128 - a % 128) = k + 1 := by omega
  simp [lineCuts, hk]

/-- Where no cache owns a line and nothing about it is under way, its newest value is its home's. -/
theorem State.coherentRow_of_home {s : State} {line : Nat} (ho : s.owner? line = none) (hm : s.movingData line = none)
    (hh : ∀ t ∈ s.homes, t.line ≠ line) : s.coherentRow line = s.homeValue line := by
  have hf : s.homes.find? (·.line == line) = none := by simpa using hh
  simp [State.coherentRow, ho, hm, hf]

theorem State.fillFetch_of_home {s s1 : State} {core ctx vline line : Nat} {tr : Trans} {exact : Bool}
    (hl : s.isLost line = false) (hq : s.quiet line = true) (hr : s.redirects line = true → s.lackAt line = none)
    (ht : s.trackFor line (.dir core .rd (s.tenancyOf ctx)) = .ok (exact, s1)) (he : s1.track? line ≠ none)
    (hv : s1.coherentRow line = s1.homeValue line) :
    ∃ s2, s.fillFetch core ctx vline line tr = .ok (s1.homeValue line, s2) := by
  obtain ⟨e, he⟩ := Option.ne_none_iff_exists'.1 he
  unfold State.fillFetch
  dsimp only
  rw [if_neg (by simpa [hl] using hr), if_neg (by simp [hq]), ht]
  simp only [he, hv]
  exact ⟨_, rfl⟩

theorem State.fetchBytes_of_fill {s s1 : State} {core ctx va n : Nat} {t : Trans} {row : Row}
    (hi : (s.core core).iline? ctx va = none)
    (hf : s.fillFetch core ctx (va / 128 * 128) (lineOf (t.physOf va)) t = .ok (row, s1)) :
    s.fetchBytes core ctx [(va, n, t)] = .ok ((List.range n).map fun i => row.byte (va % 128 + i), s1) := by
  simp [State.fetchBytes, hi, hf]

theorem State.fetch_of_line {s u s1 : State} {core ctx pc : Nat} {sup : Bool} {t : Trans} {bs : List Byte}
    (hp : pc % 128 ≤ 116) (hb : pc + 12 ≤ localBase) (hf : s.findFetch core ctx pc sup = .tr t)
    (hu : s.useAll core false [t] = .ok u)
    (hg : u.fetchBytes core ctx [(pc, 12, { t with aknown := true })] = .ok (bs, s1)) :
    s.fetch core ctx sup pc = .ok (wordOfBytes bs) s1 := by
  have hl : localBase ≤ 2 ^ 55 := by decide
  unfold State.fetch
  rw [if_neg (by omega), windowOfRange_below (by omega) hb]
  simp [lineCuts_within (f := 0) (n := 12) (by omega) (by omega : pc % 128 + 12 ≤ 128), hf, hu, hg]

end Sys2Proof.Machine

section
open Sys2Proof Sys2Proof.Machine

/-- Settles O59, by the cases of a turn of the list: a path's issue, an access processor's, an event; and by the fetch of one
line from its home. -/
theorem stepRunsDecodedWord : Obligations.StepRunsDecodedWord := by
  intro s s0 dt h g p pre act rest w gr
  refine ⟨step_of_late, fun hs he => ⟨State.elapse_cycle (s := { s with sched := rest }) he, ?_, ?_, ?_⟩, ?_⟩
  · rintro rfl hw hg
    have hrun : step s = s0.issuePath h g p pre := step_of_turn hs he
    rw [hrun]
    refine ⟨State.issuePath_of_stopped hw hg, fun hr =>
      ⟨fun x s1 hx => ⟨State.issuePath_of_slotted hw hg hr hx, fun hsl => ?_⟩, fun as => State.issuePath_of_walk hw hg hr,
        State.issuePath_of_busy hw hg hr,
      fun f => State.issuePath_of_fault hw hg hr⟩⟩
    simp only [State.taking_eq_take]
    refine ⟨State.issuePath_of_slotless hw hg hr hx hsl, fun gr3 hc hd hg3 => ⟨fun hn => ?_, fun hf ho => ?_⟩⟩
    · refine State.issuePath_of_rivals hw hg hr hx hsl hc hd hg3 (Bool.eq_false_iff.2 fun hgets => ?_)
      obtain ⟨hfree, hold⟩ := State.getsSlot_iff.1 hgets
      rcases hn with hn | ⟨r, hm, hb⟩
      · exact absurd (hn.symm.trans hfree) (by decide)
      · exact absurd ((hold r hm).symm.trans hb) (by decide)
    · rw [State.issuePath_of_getsSlot hw hg hr hx hsl hc hd hg3 (State.getsSlot_iff.2 ⟨hf, ho⟩)]
      exact ⟨fun hp => State.issueIn_of_alone (State.second_of_unpaired hp), fun s4 => State.issueIn_of_wait,
        State.issueIn_of_alone, fun j s4 t e ht => ⟨State.second_pairs e, State.issueIn_of_pair e ht⟩⟩
  · rintro rfl hw hg hr
    have hrun : step s = s0.issueAp h g := step_of_turn hs he
    rw [hrun]
    exact ⟨fun x => State.issueAp_of_buffered hw hg hr, fun hb =>
      ⟨fun x s1 => State.issueAp_of_fetched hw hg hr hb, fun f => State.issueAp_of_fault hw hg hr hb⟩⟩
  · rintro i rfl hi
    rw [step_of_turn hs he]
    exact if_pos hi
  · intro core ctx pc sup t u u1 exact hp hb hi hf hu hiu line hlost hq hr ht htr ho hm hh
    have hfind : s.findFetch core ctx pc sup = .tr t := by simpa only [State.findFetch, hi] using hf
    obtain ⟨s2, hfill⟩ := State.fillFetch_of_home (vline := pc / 128 * 128) (tr := { t with aknown := true })
      hlost hq hr ht htr (State.coherentRow_of_home ho hm hh)
    exact ⟨s2, State.fetch_of_line hp hb hfind hu (State.fetchBytes_of_fill hiu hfill)⟩

end

/-!
PROOF. O25, WriteSpecial: what SETSR leaves of its group, by its register's class; what a masked write changes of a register;
and that a write of sr.CTXBASE empties every translation cache and L1.
-/

section
open Sys2Proof Sys2Proof.Machine
namespace Sys2Proof.Machine

/-! ### SETSR as an instruction -/

theorem Group.markFull_nil (gr : Group) : gr.markFull [] = gr := by
  simp [Group.markFull]

theorem setsr_portless {c : Ctl} {n : BitVec 13} {b : Opnd} (hwf : (Instr.setsr c n b).wf = true) :
    ∀ u ∈ (Instr.setsr c n b).srcs, u.o.portOf = none := by
  have hb : setsrSrc n.toNat b = true := hwf
  intro u hu
  obtain rfl := List.mem_singleton.1 hu
  unfold setsrSrc at hb
  split at hb
  · cases hb
  · cases b with
    | q e m j => exact absurd hb Bool.false_ne_true
    | _ => rfl

section Issued
variable {s : State} {x : Iss} {c : Ctl} {n : BitVec 13} {b : Opnd} (h : Ready s (.setsr c n b) x)
include h

theorem setsr_next : exec (.setsr c n b) s = x.finish (.setsr c n b) (setsrBody (.setsr c n b) n.toNat b x) :=
  exec_of h rfl

/-- A SETSR that its register's class does not allow. -/
theorem setsr_denied (hm : x.mayWrite (srClass n.toNat) = false) : exec (.setsr c n b) s =
    .next (x.raiseIn s { cls := .group, cause := .srAccess, info := n.toNat, p31 := x.m }) := by
  rw [setsr_next h, setsrBody, if_pos (by simp [hm]), Iss.finish, h.facts.1]
  rfl

/-- A SETSR that completes in order: its group is what its result says, and the path goes on. -/
theorem setsr_done (hwf : (Instr.setsr c n b).wf = true) {gr : Group} (hp : gr.ports = x.gr.ports)
    (hb : setsrBody (.setsr c n b) n.toNat b x = .done gr [] []) :
    exec (.setsr c n b) s = .next (s.setGroup x.h x.g (x.onward (.setsr c n b) gr)) := by
  have hpop : (x.popped (.setsr c n b)).ports = gr.ports := by rw [h.popped_none (setsr_portless hwf), hp]
  have hd : x.dstRegs (.setsr c n b) = [] := rfl
  rw [done_calm h rfl hb, hpop, hd, Group.markFull_nil]

/-- The paths of a group that SETSR leaves. -/
theorem setsr_paths {gr : Group} (hp : gr.paths = x.gr.paths) (ha : gr.ap = x.gr.ap) :
    x.behind (x.onward (.setsr c n b) gr) ∧ ∀ p, p ≠ x.p → (x.onward (.setsr c n b) gr).path p = x.gr.path p := by
  refine ⟨onward_behind h hp (by rw [ha]), fun p hne => ?_⟩
  rw [path_onward (not_ap h rfl), if_neg (by simp [hne])]
  simp [Group.path, hp]

end Issued

/-! ### What a masked write changes -/

theorem testBit_srMerge (n old src : Nat) {j : Nat} (hj : j < 64) :
    (srMerge n old src).testBit j = if (srMask n).testBit j then src.testBit j else old.testBit j := by
  have ht : (2 ^ 64 - 1).testBit j = true := by rw [Nat.testBit_two_pow_sub_one]; simpa using hj
  rw [srMerge, Nat.testBit_or, Nat.testBit_and, Nat.testBit_and, Nat.testBit_xor, ht]
  cases (srMask n).testBit j <;> simp

/-- A register of `w` bits that takes the merged value has the bits of the mask from the source. -/
theorem written_srMerge {n mask w old : Nat} (src : Nat) (ho : old < 2 ^ w)
    (hm : ∀ j < 64, mask.testBit j = (decide (j < w) && (srMask n).testBit j)) :
    Written mask old src (srMerge n old src % 2 ^ w) := by
  intro j hj
  rw [hm j hj, Nat.testBit_mod_two_pow, testBit_srMerge n old src hj]
  by_cases hw : j < w
  · simp [hw]
  · simp [hw, Nat.testBit_lt_two_pow (ho.trans_le (Nat.pow_le_pow_right (by decide) (Nat.le_of_not_lt hw)))]

/-- What SETSR has to know of a register of the group: its width, which bounds its value, its writable bits, and that a
write sets it alone. -/
structure GroupRegister (k mask w : Nat) : Prop where
  bits : ∀ j < 64, mask.testBit j = (decide (j < w) && (srMask k).testBit j)
  bound : ∀ (s : State) (wg : Workgroup) (gr : Group), s.srValue wg gr k 0 < 2 ^ w
  value : ∀ (s : State) (wg : Workgroup) (gr : Group) (v : Nat), s.srValue wg { gr with sr := gr.sr.set k v } k 0 = v % 2 ^ w
  others : ∀ (s : State) (wg : Workgroup) (gr : Group) (v m l : Nat), m ≠ k →
    s.srValue wg { gr with sr := gr.sr.set k v } m l = s.srValue wg gr m l
  plain : k ≠ 0x016 ∧ k ≠ 0x020 ∧ k ≠ 0x040

theorem groupRegister_of_mem {k mask : Nat} (h : (k, mask) ∈ groupWritable ++ handlerWritable) :
    ∃ w, GroupRegister k mask w := by
  simp only [groupWritable, handlerWritable, List.cons_append, List.nil_append, List.mem_cons, Prod.mk.injEq,
    List.not_mem_nil, or_false] at h
  refine ⟨(srWidth k).getD 32, ?_⟩
  rcases h with ⟨rfl, rfl⟩ | ⟨rfl, rfl⟩ | ⟨rfl, rfl⟩ | ⟨rfl, rfl⟩ | ⟨rfl, rfl⟩ | ⟨rfl, rfl⟩ | ⟨rfl, rfl⟩ | ⟨rfl, rfl⟩ |
    ⟨rfl, rfl⟩ | ⟨rfl, rfl⟩ | ⟨rfl, rfl⟩ | ⟨rfl, rfl⟩ | ⟨rfl, rfl⟩ | ⟨rfl, rfl⟩ | ⟨rfl, rfl⟩ | ⟨rfl, rfl⟩
  all_goals
    refine ⟨by decide, fun _ _ _ => BitVec.isLt _, fun _ _ _ _ => rfl, fun s wg gr v m l hm => ?_, by decide⟩
    unfold State.srValue
    split <;> first | rfl | exact absurd rfl hm

theorem srValue_paths (s : State) (wg : Workgroup) (gr : Group) (ps : List Path) (m l : Nat) :
    s.srValue wg { gr with paths := ps } m l = s.srValue wg gr m l := rfl

/-! ### Who may write what -/

theorem srClass_of_groupWritable {k mask : Nat} (h : (k, mask) ∈ groupWritable) : srClass k = .g :=
  (by decide : ∀ e ∈ groupWritable, srClass e.1 = .g) _ h

theorem srClass_of_handlerWritable {k mask : Nat} (h : (k, mask) ∈ handlerWritable) : srClass k = .sup :=
  (by decide : ∀ e ∈ handlerWritable, srClass e.1 = .sup) _ h

/-- The classes, from the registers they hold. -/
theorem srClass_cases (k : Nat) : srClass k = .g ∧ (k = 0x016 ∨ ∃ mask, (k, mask) ∈ groupWritable) ∨
    srClass k = .sup ∧ (k = 0x020 ∨ ∃ mask, (k, mask) ∈ handlerWritable) ∨ srClass k = .own ∧ k = 0x040 ∨ srClass k = .no := by
  unfold srClass
  split <;> simp [groupWritable, handlerWritable]

theorem setsrBody_plain {i : Instr} {k : Nat} {b : Opnd} {x : Iss} (hm : x.mayWrite (srClass k) = true)
    (hk : k ≠ 0x016 ∧ k ≠ 0x020 ∧ k ≠ 0x040) : setsrBody i k b x =
      .done { x.gr with sr := x.gr.sr.set k (srMerge k (x.s.srValue x.w x.gr k 0) (x.srSource k b)) } [] [] := by
  obtain ⟨h1, h2, h3⟩ := hk
  unfold setsrBody
  rw [if_neg (by simp [hm])]
  dsimp only
  split
  · exact absurd rfl h1
  · exact absurd rfl h2
  · exact absurd rfl h3
  · rfl

theorem setsrBody_quota {i : Instr} {b : Opnd} {x : Iss} (hm : x.gr.sup = true) : setsrBody i 0x020 b x =
    .state ({ x.s with
      pnquota := put x.s.pnquota x.w.ctx
        (BitVec.ofNat 32 (srMerge 0x020 (x.s.pnQuota x.w.ctx) (x.srSource 0x020 b))) }.modGroup x.h x.g (x.onward i)) :=
  if_neg (by simp [Iss.mayWrite, srClass, hm])

theorem setsrBody_base {i : Instr} {b : Opnd} {x : Iss} (hm : x.mayWrite .own = true) : setsrBody i 0x040 b x =
    .state ({ x.s.forgetTranslations with
      ctxbase := BitVec.ofNat 64 (srMerge 0x040 x.s.ctxbase.toNat (x.srSource 0x040 b)) }.modGroup x.h x.g (x.onward i)) :=
  if_neg (by simp [srClass, hm])

/-! ### sr.XFLAGS -/

theorem Iss.raw_one_lt (x : Iss) (f : Nat) (o : Opnd) (l : Nat) : x.raw f o 1 l < 2 ^ 32 := by
  simpa [Iss.raw] using ((x.row f o 0).lane l).isLt

/-- A V source as a 32-bit word and as an unsigned number is one value. -/
theorem Iss.laneWord_eq_int (x : Iss) (e m : Bool) (k : BitVec 9) (l : Nat) :
    x.laneWord 2 (.v e m k) l = x.int .u32 2 (.v e m k) l := by
  have h : x.raw 2 (.v e m k) 1 l % 4294967296 = x.raw 2 (.v e m k) 1 l := Nat.mod_eq_of_lt (x.raw_one_lt ..)
  simp [Iss.laneWord, Iss.int, Ty.regs, Ty.is64, Ty.bits, h]

theorem Iss.clearFlags_flagsOf (x : Iss) (b : Opnd) {l : Nat} (hl : l < 32) : (x.clearFlags b).flagsOf l =
    if x.m.getLsbD l then x.gr.flagsOf l &&& ~~~(match b with
      | .v .. => BitVec.ofNat 32 (x.int .u32 2 b l)
      | b => BitVec.ofNat 32 (x.srSource 0x016 b))
    else x.gr.flagsOf l := by
  cases b <;> simp [Iss.clearFlags, Group.flagsOf, hl, Iss.laneWord_eq_int]

/-! ### sr.CTXBASE -/

theorem State.forgetTranslations_core (s : State) (c : Nat) :
    (s.forgetTranslations.core c).l1d = [] ∧ (s.forgetTranslations.core c).l1i = [] := by
  have key : ∀ m : SMap Core, look Core.empty (m.map fun e => (e.1, { e.2 with l1d := [], l1i := [] })) c
      = { look Core.empty m c with l1d := [], l1i := [] } := fun m =>
    look_map_snd (fun y : Core => { y with l1d := [], l1i := [] }) Core.empty m c
  simp [State.core, State.forgetTranslations, key]

theorem State.forgetTranslations_quad (s : State) (q : Nat) : (s.forgetTranslations.quad q).tc = [] ∧
    (s.forgetTranslations.quad q).wc = [] ∧ (s.forgetTranslations.quad q).desc = [] := by
  have key : ∀ m : SMap Quad, look Quad.empty (m.map fun e => (e.1, { e.2 with tc := [], wc := [], desc := [], faults := [] })) q
      = { look Quad.empty m q with tc := [], wc := [], desc := [], faults := [] } := fun m =>
    look_map_snd (fun y : Quad => { y with tc := [], wc := [], desc := [], faults := [] }) Quad.empty m q
  simp [State.quad, State.forgetTranslations, key]

theorem State.forgetTranslations_wgs (s : State) : s.forgetTranslations.wgs = s.wgs := by
  show (List.foldl _ s _).wgs = s.wgs
  exact List.foldlRecOn (motive := fun t : State => t.wgs = s.wgs) _ _ rfl fun t ht l _ => (t.putL2_only ..).wgs.trans ht

/-! ### The state around the group -/

section
variable {s : State} {h g : Nat} {w : Workgroup} (hw : s.wg? h = some w) (y : Group)
include hw

theorem State.setGroup_with_pnquota (q : SMap Word) :
    { s with pnquota := q }.setGroup h g y = { s.setGroup h g y with pnquota := q } := by
  rw [State.setGroup_eq (s := { s with pnquota := q }) hw, State.setGroup_eq hw]
  rfl

theorem State.setGroup_with_ctxbase (v : DWord) :
    { s with ctxbase := v }.setGroup h g y = { s.setGroup h g y with ctxbase := v } := by
  rw [State.setGroup_eq (s := { s with ctxbase := v }) hw, State.setGroup_eq hw]
  rfl

end

theorem State.pnQuota_put_same (s : State) (ctx v : Nat) : bitsOf (look 0x400#32 (put s.pnquota ctx (BitVec.ofNat 32 v)) ctx).toNat 16 0
    = v % 2 ^ 17 := by
  rw [look_put_same, BitVec.toNat_ofNat]
  unfold bitsOf
  omega

theorem State.pnQuota_lt (s : State) (ctx : Nat) : s.pnQuota ctx < 2 ^ 17 := by
  unfold State.pnQuota bitsOf
  omega

end Sys2Proof.Machine

/-- Settles O25: a register of the group, the flags, the quota, and sr.CTXBASE; and where the class of none of them lets the
issuer write, SR_ACCESS. -/
theorem writeSpecial : Obligations.WriteSpecial := by
  intro s x c n b hwf h i k handler owner on
  obtain ⟨hs, hw, hg, -, hpath⟩ := h.facts
  have hap : x.ap = false := not_ap h rfl
  have hgr : s.group? x.h x.g = some x.gr := State.group?_of hw hg
  refine ⟨fun mask hk => ?_, fun hk => ?_, fun hk hh => ?_, fun hk ho => ?_, fun hgw hf hhw ho => ?_⟩
  · have hmay : x.mayWrite (srClass k) = true := by
      rcases hk with hk | ⟨hk, hh⟩
      · rw [srClass_of_groupWritable hk]; rfl
      · rw [srClass_of_handlerWritable hk]; exact hh
    obtain ⟨w, r⟩ := groupRegister_of_mem (List.mem_append.2 (hk.imp_right And.left))
    have hb := setsrBody_plain (i := i) (b := b) hmay r.plain
    rw [hs] at hb
    have hex := setsr_done h hwf (by rfl) hb
    refine ⟨_, _, hex, setsr_paths h rfl rfl, (paths_onward hap _).trans (by rw [sr_onward]),
      written_srMerge _ (r.bound ..) r.bits, ?_, fun m l hm => ?_⟩
    · rw [paths_onward hap, srValue_paths, r.value]
    · rw [paths_onward hap, srValue_paths, r.others _ _ _ _ _ _ hm]
  · have hb : setsrBody i k b x = .done (x.clearFlags b) [] [] := by rw [hk]; rfl
    refine ⟨_, setsr_done h hwf (by rfl) hb, setsr_paths h rfl rfl, (paths_onward hap _).trans (by rw [sr_onward]; rfl),
      fun l hl => ?_⟩
    rw [Group.flagsOf, sr_onward]
    exact Iss.clearFlags_flagsOf x b hl
  · have hx := setsr_next h
    rw [show n.toNat = 0x020 from hk, setsrBody_quota hh, hs, Iss.finish, State.modGroup_eq (by exact hgr)] at hx
    rw [State.setGroup_with_pnquota hw] at hx
    refine ⟨_, _, srMerge 0x020 (s.pnQuota x.w.ctx) (x.srSource 0x020 b) % 2 ^ 17, hx, rfl, setsr_paths h rfl rfl,
      paths_onward hap _, ?_, State.pnQuota_put_same .., fun ctx hc => ?_⟩
    · rw [hk]
      exact written_srMerge _ (s.pnQuota_lt _) (by decide)
    · exact congrArg (fun v : Word => bitsOf v.toNat 16 0) (look_put_ne _ _ _ hc)
  · have hx := setsr_next h
    have hmay : x.mayWrite .own = true := by simpa [Iss.mayWrite, and_assoc] using ho
    have hw' : s.forgetTranslations.wg? x.h = some x.w := by rw [← hw, State.wg?, State.wg?, s.forgetTranslations_wgs]
    rw [show n.toNat = 0x040 from hk, setsrBody_base hmay, hs, Iss.finish,
      State.modGroup_eq (by exact State.group?_of hw' hg), State.setGroup_with_ctxbase hw'] at hx
    refine ⟨_, _, srMerge 0x040 s.ctxbase.toNat (x.srSource 0x040 b), hx, rfl, setsr_paths h rfl rfl,
      paths_onward hap _, fun c => ?_, fun q => ?_, fun j hj => ?_⟩
    · have hc := State.core_setGroup s.forgetTranslations x.h x.g (x.onward i x.gr) c
      exact hc ▸ s.forgetTranslations_core c
    · have hq : (s.forgetTranslations.setGroup x.h x.g (x.onward i x.gr)).quad q = s.forgetTranslations.quad q := by
        simp [State.quad]
      exact hq ▸ s.forgetTranslations_quad q
    · rw [hk, testBit_srMerge _ _ _ hj]
      rfl
  · refine setsr_denied h ?_
    rcases srClass_cases k with ⟨hc, hk⟩ | ⟨hc, hk⟩ | ⟨hc, hk⟩ | hc
    · rcases hk with hk | ⟨mask, hk⟩
      · exact absurd hk hf
      · exact absurd hk (hgw mask)
    · have hs : x.gr.sup = false := by simpa [handler] using hhw hk.symm
      rw [hc, Iss.mayWrite, hs]
    · have hn := ho hk
      rw [hc]
      simpa [Iss.mayWrite, owner, and_assoc] using hn
    · rw [hc, Iss.mayWrite]
end

/-!
PROOF. O31, MemoryAccesses: what `Iss.access` answers in each of its four cases, and that a load, a store and an atomic are
that access of their request.
-/

section
open Sys2Proof Sys2Proof.Machine
namespace Sys2Proof.Machine

/-! ### Addresses and requests -/

theorem signExt_eq_toInt (n : Nat) : signExt 32 n = (BitVec.ofNat 32 n).toInt := by
  unfold signExt
  rw [BitVec.toInt_eq_toNat_cond, BitVec.toNat_ofNat]
  split <;> split <;> omega

theorem laneAddress_eq (x : Iss) (w : Win) (a off : Opnd) : laneAddress x w a off = x.address w a off := by
  funext l
  unfold laneAddress Iss.address Iss.offset wrapTo
  rw [← signExt_eq_toInt]
  cases w <;> rfl

theorem memoryRequest_load (x : Iss) (f : LdForm) (q : Qual) (hq : q ≠ .peek) : memoryRequest.load x f q = x.loadReq f q := by
  unfold memoryRequest.load Iss.loadReq
  rw [show (q == Qual.peek) = false from beq_eq_false_iff_ne.2 hq]
  rw [laneAddress_eq]
  rfl

theorem memoryRequest_loadPeek (x : Iss) (f : LdForm) : memoryRequest.load x { f with off := .none } .peek = x.loadReq f .peek := by
  unfold memoryRequest.load Iss.loadReq
  rw [laneAddress_eq]
  rfl

theorem memoryRequest_store (x : Iss) (f : StForm) (q : Qual) (hq : q ≠ .peek) : memoryRequest.store x f q = x.storeReq f q := by
  unfold memoryRequest.store Iss.storeReq
  rw [show (q == Qual.peek) = false from beq_eq_false_iff_ne.2 hq]
  rw [laneAddress_eq]
  rfl

theorem memoryRequest_storePeek (x : Iss) (f : StForm) :
    memoryRequest.store x { f with off := .none } .peek = x.storeReq f .peek := by
  unfold memoryRequest.store Iss.storeReq
  rw [laneAddress_eq]
  rfl

/-! ### The four cases of an access -/

/-- The operation of an access is the instruction's next. -/
theorem Iss.memOp_what (x : Iss) (i : Instr) (q : MemReq) (sc : Scope) (b : Bool) (ck : Checked) (ss : Sends) :
    let o := x.memOp i q sc b ck ss
    o.seq = x.gr.nextSeq ∧ o.instr = i ∧ o.path = x.p ∧ o.pc = x.pc ∧ o.mask = x.m ∧ o.x = x.x
      ∧ o.cls = i.ctrClass ∧ o.paths = [x.p] ∧ o.prior = x.priorOps :=
  ⟨rfl, rfl, rfl, rfl, rfl, rfl, rfl, rfl, rfl⟩

/-- An operation that an issuer enters in another state is entered as in its own. -/
theorem Iss.Enters.of_state {x : Iss} {s : State} {i : Instr} {o : Op} {gr : Group} (h : ({ x with s := s } : Iss).Enters i o gr) :
    x.Enters i o gr :=
  ⟨h.rest, h.what, h.counters, h.empty, h.apRegs, h.others, h.own⟩

/-- A pages' use that succeeds leads to the operation and its accesses. -/
theorem Iss.access_used {x : Iss} {i : Instr} {q : MemReq} {sc : Scope} {isStore hold wide : Bool} {s1 : State}
    (hw : (x.checkLanes q (x.memLanes i)).walks = []) (hg : (x.checkLanes q (x.memLanes i)).good ≠ [])
    (hu : x.s.useAll x.gr.core (isStore || q.atomic)
      ((x.checkLanes q (x.memLanes i)).good.flatMap fun g => g.2.filterMap (·.trans)) = .ok s1) :
    x.access i q sc isStore hold wide =
      let ck := x.checkLanes q (x.memLanes i)
      let ss := x.sends q isStore ck.good
      let o := x.memOp i q sc isStore ck ss
      let y := { x with s := if ck.faults.isEmpty then s1 else s1.dropFaults x.gr.core x.w.ctx }
      let t := if hold || !ck.faults.isEmpty then y.holdOp i o else y.launchOp i o
      let t := if ck.faults.isEmpty then t else t.modGroup x.h x.g fun gr => { gr with ports := x.gr.ports }
      match t.sendLines x.gr.core (x.gr.sr.lease.toNat % 2 ^ 12) wide ss.lines with
      | none => .stall .busy x.s
      | some t => .state (t.sendBanks ss.banks) := by
  have hl : bitsOf x.gr.sr.lease.toNat 11 0 = x.gr.sr.lease.toNat % 2 ^ 12 := by simp [bitsOf]
  rw [← hl]
  unfold Iss.access
  dsimp only
  rw [if_neg (by simp [hw]), if_neg (by simpa using hg)]
  unfold Iss.using
  generalize x.s.useAll _ _ _ = u at hu ⊢
  subst hu
  rfl

section
variable {s : State} {i : Instr} {x : Iss} {q : MemReq} {sc : Scope} {isStore hold wide : Bool} (h : Ready s i x)
include h

/-- Every lane passes: the operation is entered, and the issuer goes on or waits. -/
theorem Ready.access_clean (hw : (x.checkLanes q (x.memLanes i)).walks = []) (hf : (x.checkLanes q (x.memLanes i)).faults = [])
    (hg : (x.checkLanes q (x.memLanes i)).good ≠ []) {s1 : State} (hu : s.useAll x.gr.core (isStore || q.atomic)
      ((x.checkLanes q (x.memLanes i)).good.flatMap fun g => g.2.filterMap (·.trans)) = .ok s1) :
    let ck := x.checkLanes q (x.memLanes i)
    let ss := x.sends q isStore ck.good
    let o := x.memOp i q sc isStore ck ss
    ∃ gr, x.Enters i o gr ∧ (if hold then x.waits gr o.seq else x.behind gr) ∧ ∀ t,
      (s1.setGroup x.h x.g gr).sendLines x.gr.core (x.gr.sr.lease.toNat % 2 ^ 12) wide ss.lines = some t →
      x.access i q sc isStore hold wide = .state (t.sendBanks ss.banks) := by
  intro ck ss o
  obtain ⟨hs, -, -, ha, hp⟩ := h.facts
  have hacc := Iss.access_used (x := x) (i := i) (q := q) (sc := sc) (hold := hold) (wide := wide) hw hg (by rw [hs]; exact hu)
  dsimp only at hacc
  rw [hf] at hacc
  simp only [List.isEmpty_nil, Bool.not_true, Bool.or_false, if_true] at hacc
  have hwhat := x.memOp_what i q sc isStore ck ss
  cases hold with
  | true =>
    obtain ⟨gr, hst, hent, hwait⟩ := Iss.holdOp_enters (x := { x with s := s1 }) (i := i) (o := o) hwhat ha hp
    refine ⟨gr, hent.of_state, hwait, fun t ht => ?_⟩
    rw [hacc, if_pos rfl, hst]
    simp only [ss, ck] at ht
    simp only [ht]
    rfl
  | false =>
    obtain ⟨gr, hst, hent, hbeh⟩ := Iss.launchOp_enters (x := { x with s := s1 }) (i := i) (o := o) hwhat ha hp
    refine ⟨gr, hent.of_state, hbeh, fun t ht => ?_⟩
    rw [hacc, if_neg Bool.false_ne_true, hst]
    simp only [ss, ck] at ht
    simp only [ht]
    rfl

/-- Some lanes fault: the others' operation is entered, its issuer waits, and its ports keep their words. -/
theorem Ready.access_mixed (hw : (x.checkLanes q (x.memLanes i)).walks = []) (hf : (x.checkLanes q (x.memLanes i)).faults ≠ [])
    (hg : (x.checkLanes q (x.memLanes i)).good ≠ []) {s1 : State} (hu : s.useAll x.gr.core (isStore || q.atomic)
      ((x.checkLanes q (x.memLanes i)).good.flatMap fun g => g.2.filterMap (·.trans)) = .ok s1) :
    let ck := x.checkLanes q (x.memLanes i)
    let ss := x.sends q isStore ck.good
    let o := x.memOp i q sc isStore ck ss
    ∃ mid, x.Enters i o mid ∧ x.waits mid o.seq ∧ ∀ t,
      ((s1.dropFaults x.gr.core x.w.ctx).setGroup x.h x.g { mid with ports := x.gr.ports }).sendLines x.gr.core
        (x.gr.sr.lease.toNat % 2 ^ 12) wide ss.lines = some t →
      x.access i q sc isStore hold wide = .state (t.sendBanks ss.banks) := by
  intro ck ss o
  obtain ⟨hs, hwg, -, ha, hp⟩ := h.facts
  have hacc := Iss.access_used (x := x) (i := i) (q := q) (sc := sc) (hold := hold) (wide := wide) hw hg (by rw [hs]; exact hu)
  have hf' : (x.checkLanes q (x.memLanes i)).faults.isEmpty = false := by simpa using hf
  dsimp only at hacc
  rw [hf'] at hacc
  simp only [Bool.not_false, Bool.or_true, if_true, Bool.false_eq_true, if_false] at hacc
  obtain ⟨mid, hst, hent, hwait⟩ := Iss.holdOp_enters (x := { x with s := s1.dropFaults x.gr.core x.w.ctx }) (i := i) (o := o)
    (x.memOp_what i q sc isStore ck ss) ha hp
  have hwg1 : (s1.dropFaults x.gr.core x.w.ctx).wg? x.h = some x.w := by
    rw [← hwg]
    unfold State.wg?
    rw [show (s1.dropFaults x.gr.core x.w.ctx).wgs = s1.wgs from rfl, (State.useAll_only hu).wgs]
  refine ⟨mid, hent.of_state, hwait, fun t ht => ?_⟩
  rw [hacc, hst, State.modGroup_setGroup hwg1]
  simp only [ss, ck] at ht
  simp only [ht]
  rfl

theorem Ready.access_faults (hw : (x.checkLanes q (x.memLanes i)).walks = []) (hg : (x.checkLanes q (x.memLanes i)).good = []) :
    x.access i q sc isStore hold wide = .state (x.raiseIn (s.dropFaults x.gr.core x.w.ctx)
      (x.laneRaise i (x.checkLanes q (x.memLanes i)).faults)) := by
  unfold Iss.access
  dsimp only
  rw [if_neg (by simp [hw]), if_pos (by simp [hg]), h.facts.1]

theorem Ready.access_walks (hw : (x.checkLanes q (x.memLanes i)).walks ≠ []) : x.access i q sc isStore hold wide =
    .stall .walk (s.askWalks x.gr.core x.w.ctx q.kind x.gr.sup (x.checkLanes q (x.memLanes i)).walks) := by
  unfold Iss.access
  dsimp only
  rw [if_pos (by simpa using hw), h.facts.1]

end

/-! ### Loads, stores and atomics -/

theorem atHome_atom (sc : Scope) (c : Ctl) (op : AtomOp) (w : Win) (s : ScopeSel) (ord : Ord4) (t : Ty) (d a b : Opnd) :
    atHome sc (.atom c op w s ord t d a b) = wideScope sc := by
  cases sc <;> rfl

/-- What an instruction's request says of its kind. -/
structure Request (i : Instr) (x : Iss) (q : MemReq) (sc : Scope) (hold : Bool) : Prop where
  writes : (q.kind != .read) = (q.kind == .write || q.atomic)
  access : exec i x.s = x.finish i (x.access i q sc (q.kind == .write) hold (atHome sc i))

/-- A load, a store or an atomic whose ordering is met is the access of its request. -/
theorem Ready.request {s : State} {i : Instr} {x : Iss} {q : MemReq} {sc : Scope} {hold : Bool} (h : Ready s i x)
    (hr : memoryRequest x i = some (q, sc, hold)) (ho : memoryOrdered s x i) : Request i x q sc hold := by
  have hs : x.s = s := h.facts.1
  have hload := fun (f : LdForm) (q : Qual) (hq : q ≠ .peek) => memoryRequest_load x f q hq
  have hstore := fun (f : StForm) (q : Qual) (hq : q ≠ .peek) => memoryRequest_store x f q hq
  cases i
  all_goals try cases hr
  case ld c f => 
    rw [hload f .none (by decide)]
    exact ⟨rfl, by rw [hs]; exact exec_of h rfl⟩
  case ldWait c f =>
    rw [hload f .wait (by decide)]
    exact ⟨rfl, by rw [hs]; exact exec_of h rfl⟩
  case ldTake c f =>
    rw [hload f .take (by decide)]
    exact ⟨rfl, by rw [hs]; exact exec_of h rfl⟩
  case ldPeek c f =>
    rw [memoryRequest_loadPeek]
    exact ⟨rfl, by rw [hs]; exact exec_of h rfl⟩
  case st c f =>
    rw [hstore f .none (by decide)]
    exact ⟨rfl, by rw [hs]; exact exec_of h rfl⟩
  case stWait c f =>
    rw [hstore f .wait (by decide)]
    refine ⟨rfl, ?_⟩
    rw [hs, exec_of h rfl]
    exact congrArg (x.finish _) (if_neg (by simp [show x.storesBefore = false from ho]))
  case stTake c f =>
    rw [hstore f .take (by decide)]
    refine ⟨rfl, ?_⟩
    rw [hs, exec_of h rfl]
    exact congrArg (x.finish _) (if_neg (by simp [show x.storesBefore = false from ho]))
  case stPeek c f =>
    rw [memoryRequest_storePeek]
    refine ⟨rfl, ?_⟩
    rw [hs, exec_of h rfl]
    exact congrArg (x.finish _) (if_neg (by simp [show x.storesBefore = false from ho]))
  case atom c op w sc ord t d a b =>
    refine ⟨rfl, ?_⟩
    rw [hs, exec_of h rfl, atHome_atom, laneAddress_eq]
    refine congrArg (x.finish _) ?_
    unfold atomBody
    dsimp only
    split
    · rename_i hord
      unfold Iss.fencing
      rw [hs, if_pos (ho (by simpa using hord))]
      rfl
    · rfl

/-- What the operation of a request holds. -/
theorem Request.entered {i : Instr} {x : Iss} {q : MemReq} {sc : Scope} {hold : Bool} (h : Request i x q sc hold) (ck : Checked)
    (ss : Sends) :
    let o := x.memOp i q sc (q.kind == .write) ck ss
    o.dst = x.dstRegs i ∧ o.qual = q.qual ∧ o.isStore = (q.kind == .write) ∧ o.isAtom = q.atomic
      ∧ o.scope = (if ((q.kind == .write) = true ∨ q.atomic = true) ∧ (∃ r ∈ ss.lines, x.s.isTable r.line = true)
          ∧ sc.covers .pkg = false then .pkg else sc)
      ∧ o.todo = (ss.lines.map (·.accs.length)).sum + (ss.banks.map (·.2.accs.length)).sum := by
  refine ⟨rfl, rfl, rfl, rfl, ?_, rfl⟩
  show x.memScope q sc ss = _
  unfold Iss.memScope
  rw [h.writes]
  simp only [Bool.and_eq_true, Bool.or_eq_true, List.any_eq_true, Bool.not_eq_true', and_assoc]

/-- The cause of an instruction whose lowest faulting lane is known. -/
theorem Iss.laneRaise_cons (x : Iss) (i : Instr) {fs : List (Nat × LaneFault)} {l : Nat} {f : LaneFault}
    {r : List (Nat × LaneFault)} (h : fs = (l, f) :: r) :
    (x.laneRaise i fs).cls = .lane ∧ (x.laneRaise i fs).cause = f.cause ∧ (x.laneRaise i fs).info = f.info
      ∧ (x.laneRaise i fs).faddr = f.addr ∧ (x.laneRaise i fs).p31 = (if i.laneBound then Mask.ofLanes (fs.map (·.1)) else x.m)
      ∧ (l, f) ∈ fs := by
  subst h
  exact ⟨rfl, rfl, rfl, rfl, rfl, List.mem_cons_self⟩

end Sys2Proof.Machine

/-- Settles O31: a load, a store and an atomic are the access of their request, in each of its four cases. -/
theorem memoryAccesses : Obligations.MemoryAccesses := by
  unfold Obligations.MemoryAccesses
  intro s i x q sc hold _ h hr ho isStore lanes ck ss used entered sent cause
  obtain ⟨hs, -⟩ := h.facts
  have hreq := h.request hr ho
  have hexec := hreq.access
  rw [hs] at hexec
  have hent : entered (x.memOp i q sc isStore ck ss) := by
    have := hreq.entered ck ss
    rw [hs] at this
    exact this
  refine ⟨fun hw hf hg s1 hu => ?_, fun hw hg l f r s1 hf hu => ?_, fun hw hg l f r hf => ?_, fun hw => ?_⟩
  · obtain ⟨gr, he, hst, hsent⟩ := h.access_clean (sc := sc) (isStore := isStore) (hold := hold) (wide := atHome sc i) hw hf hg hu
    refine ⟨gr, _, he, hst, hent, fun t ht => ?_⟩
    rw [hexec, hsent t ht]
    rfl
  · have hfs : ck.faults ≠ [] := by rw [hf]; exact List.cons_ne_nil _ _
    obtain ⟨mid, he, hst, hsent⟩ := h.access_mixed (sc := sc) (isStore := isStore) (hold := hold) (wide := atHome sc i) hw hfs hg hu
    have hne : ¬(x.checkLanes q (x.memLanes i)).faults.isEmpty = true := fun hn => hfs (List.isEmpty_iff.1 hn)
    refine ⟨mid, _, _, x.laneRaise i ck.faults, he, hst, hent, rfl, x.laneRaise_cons i hf, ?_, ?_, fun t ht => ?_⟩
    · exact if_neg hne
    · exact if_neg hne
    · rw [hexec, hsent t ht]
      rfl
  · refine ⟨x.laneRaise i ck.faults, x.laneRaise_cons i hf, ?_⟩
    rw [hexec, h.access_faults hw hg]
    rfl
  · rw [hexec, h.access_walks hw]
    rfl

end

/-!
PROOF. O47, TranslationEvents: it fails. The maps of a state are lists of keys and values, and nothing in the statement asks that
their keys rise. In the list of cores below, core 4 stands before core 0, so its copy of the leaf's line is the coherent one, and
it has A set: there is nothing to write. The use of the translation then tells the L1s of quad 0 that A is set, which enters core
0 anew in front of core 4, and the coherent line is core 0's, whose entry has no A.
-/

section
open Sys2Proof Sys2Proof.Machine
namespace Sys2Proof.Machine

/-- A translation whose leaf entry is the second of line 0x8000, and which does not know A. -/
def unusedPage : Trans :=
  { ctx := 0, va := 0, size := 0x1_0000, pa := 0x10_0000
    attr := { rd := true, w := true, x := false, sup := false, coh := .dir, stor := .normal }
    aknown := false, dknown := false, leaf := 0x8008, seen := [0x400], via := [] }

/-- A core that holds the leaf's line modified, with one entry in it. -/
def leafOwner (e : Nat) : Core :=
  { Core.empty with l1d := [{ ctx := 0, vline := 0x8000, line := 0x8000, st := .m, data := putEntry 0 0x8008 e
                              tr := unusedPage, stamp := 0, lastStore := 0 }] }

/-- A state whose cores do not stand in the order of their numbers: core 4 has A set in its copy, and core 0 has not. -/
def unorderedCores : State := { State.reset with cores := [(4, leafOwner 0x400), (0, leafOwner 0)] }

/-- The leaf entry as a coherent read finds it. -/
def State.leafEntry (s : State) (t : Trans) : Nat := entryIn (s.coherentRow (lineOf t.leaf)) t.leaf

/-- The leaf entry after a use, where the use need not wait. -/
def Used.leafEntry (u : Used) (t : Trans) : Option Nat :=
  match u with
  | .ok s => some (s.leafEntry t)
  | .wait _ => none

theorem Used.ok_of_leafEntry {u : Used} {t : Trans} {n : Nat} (h : u.leafEntry t = some n) : ∃ s, u = .ok s ∧ s.leafEntry t = n := by
  cases u with
  | ok s => exact ⟨s, rfl, Option.some.inj h⟩
  | wait as => cases h

theorem unorderedCores_leafEntry : unorderedCores.leafEntry unusedPage = 0x400 := by decide +kernel

/-- The use of a page whose leaf entry has A set answers a state in which the entry has it no more. -/
theorem unorderedCores_use : (unorderedCores.useTrans 0 false unusedPage).leafEntry unusedPage = some 0 := by decide +kernel

/-- What the obligation says of a use of a page that knows neither A nor D, by a read. -/
theorem leafEntry_of_obligation (h : Obligations.TranslationEvents) {s u : State} {t : Trans} {e : Nat} (core : Nat)
    (hsize : t.size ≠ 0x20_0000) (hleaf : t.leaf % 8 = 0) (hseen : t.seen = [e]) (ha : t.aknown = false)
    (hu : s.useTrans core false t = .ok u) : u.leafEntry t = s.leafEntry t ||| 2 ^ 10 := by
  have hok := ((h s 0).2.1 core false t e hsize hleaf hseen).2.2 u
  simp only [ha, Bool.false_eq_true, if_false, Bool.false_and, Nat.add_zero] at hok
  exact (hok (by decide) hu).1

end Sys2Proof.Machine

/-- Refutes O47: a state whose cores are not in the order of their numbers; the use of a translation enters core 0 before core 4,
and with it another copy of the leaf's line. -/
theorem not_translationEvents : ¬ Obligations.TranslationEvents := by
  intro h
  obtain ⟨t, hu, hnew⟩ := Used.ok_of_leafEntry unorderedCores_use
  have hset := leafEntry_of_obligation h 0 (by decide) rfl rfl rfl hu
  rw [hnew, unorderedCores_leafEntry] at hset
  exact absurd hset (by decide)

end

/-!
PROOF. O48, WindowEvents, first part: lines in L2, and the events of windows.
-/

section
open Sys2Proof Sys2Proof.Machine
namespace Sys2Proof.Machine

/-! ### A line put into L2 -/

theorem State.dropL2_l2 (s : State) (v : Nat) : (s.dropL2 v).l2 = s.l2.filter (·.line != v) := by
  unfold State.dropL2
  split
  · rename_i hn
    refine (List.filter_eq_self.2 fun x hx => ?_).symm
    have := List.find?_eq_none.1 hn x hx
    simpa using this
  · dsimp only
    split <;> split <;> rfl

theorem find?_line_filter (l : List L2Line) {v k : Nat} (h : k ≠ v) :
    (l.filter (·.line != v)).find? (·.line == k) = l.find? (·.line == k) := by
  rw [List.find?_filter]
  congr 1
  funext x
  by_cases hx : x.line = k
  · simp [hx, h]
  · simp [hx]

theorem find?_line_append (l : List L2Line) {y : L2Line} {k : Nat} (h : y.line ≠ k) :
    (l ++ [y]).find? (·.line == k) = l.find? (·.line == k) := by
  rw [List.find?_append]
  simp [h]

theorem find?_line_append_self (l : List L2Line) {y : L2Line} {k : Nat} (hy : y.line = k) (hl : ∀ x ∈ l, x.line ≠ k) :
    (l ++ [y]).find? (·.line == k) = some y := by
  rw [List.find?_append, List.find?_eq_none.2 (by simpa using hl)]
  simp [hy]

theorem State.l2Victim_slice {s : State} {line v : Nat} (h : s.l2Victim line = some v) : sliceOf v = sliceOf line := by
  unfold State.l2Victim at h
  dsimp only at h
  split at h
  · cases h
  · split at h
    · rename_i l hl
      have hm := (List.mem_filter.1 (List.mem_of_find?_eq_some hl)).2
      rw [← Option.some.inj h]
      simp only [Bool.and_eq_true, beq_iff_eq] at hm
      exact hm.1
    · obtain ⟨l, hl, rfl⟩ := Option.map_eq_some_iff.1 h
      have hm := (List.mem_filter.1 (List.mem_of_head? hl)).2
      simp only [Bool.and_eq_true, beq_iff_eq] at hm
      exact hm.1

/-- The line is there with its data, dirty where it was put so. -/
theorem State.l2?_putL2_same (s : State) (line : Nat) (row : Row) (d : Bool) :
    ∃ y, (s.putL2 line row d).l2? line = some y ∧ y.data = row ∧ (d = true → y.dirty = true) := by
  unfold State.putL2
  split
  · rename_i l hl
    have hl' : l.line = line := by simpa using List.find?_some hl
    exact ⟨_, find?_line_append_self _ hl' (by simp), rfl, fun h => by simp [h]⟩
  · rename_i hn
    have hno : ∀ x ∈ s.l2, x.line ≠ line := by simpa [State.l2?] using hn
    refine ⟨_, find?_line_append_self _ rfl ?_, rfl, id⟩
    split
    · rw [State.dropL2_l2]
      exact fun x hx => hno x (List.mem_filter.1 hx).1
    · exact hno

/-- A line of another slice stays as it is: nothing of its slice leaves. -/
theorem State.l2?_putL2_slice (s : State) {line k : Nat} (row : Row) (d : Bool) (hs : sliceOf k ≠ sliceOf line) :
    (s.putL2 line row d).l2? k = s.l2? k := by
  have hk : k ≠ line := fun h => hs (congrArg sliceOf h)
  unfold State.putL2
  split
  · rename_i l hl
    have hl' : l.line = line := by simpa using List.find?_some hl
    exact (find?_line_append _ (by simpa [hl'] using Ne.symm hk)).trans (find?_line_filter _ hk)
  · refine (find?_line_append _ (Ne.symm hk)).trans ?_
    split
    · rename_i v hv
      rw [State.dropL2_l2]
      exact find?_line_filter _ fun h => hs (h ▸ State.l2Victim_slice hv)
    · rfl

/-! ### Nothing is lost -/

theorem State.LinesOnly.sameLoss {s t : State} (h : LinesOnly s t) : SameLoss s t := ⟨h.dies, h.lostLines, h.homes⟩

theorem State.LinesOnly.translated? {s t : State} (h : LinesOnly s t) (ls : List Nat) : t.translated? ls = s.translated? ls := by
  unfold State.translated? State.isTable State.tableSharers State.track?
  rw [h.dir]

theorem State.lackAt_none {s : State} (h : ∀ l, s.isLost l = false) (line : Nat) : s.lackAt line = none := by
  unfold State.lackAt PnEnt.lacks
  simp [h]

theorem State.lackAt_of_noWindows {s : State} {line : Nat} (h : s.windowsOf line = []) : s.lackAt line = none := by
  unfold State.lackAt
  rw [h]
  rfl

/-! ### The redirected read -/

theorem State.redirectStep_eq {s : State} {line : Nat} {x : HomeTxn} (hx : s.txn? line = some x) (hw : x.wait = .redirect)
    (hr : s.redirects line = true) (hl : s.lackAt line = none) : s.redirectStep line =
      some ((if isUnc x.req then (s.heatLine line).modTxn line fun t => { t with data := some (s.homeValue line) }
        else (s.heatLine line).putL2 line (s.homeValue line) false).settleHome line) := by
  obtain ⟨xl, req, wait, data, answers, exact, heldWb, queue⟩ := x
  subst hw
  unfold State.redirectStep
  rw [hx]
  dsimp only
  rw [hr, hl]
  rfl

/-- A read heats the entries over its line. -/
theorem State.heatLine_pn {s : State} {line k : Nat} {e : PnEnt} (he : s.pn[k]? = some e) :
    (s.heatLine line).pn[k]? = some (if e.meets line 128 then e.heated s.cycle else e) := by
  show (modWhere _ _ s.pn)[k]? = _
  unfold modWhere
  rw [List.getElem?_map, he]
  rfl

theorem PnEnt.heated_resolving {e : PnEnt} (now : Nat) (h : e.st = .resolving) : e.heated now = e := by
  unfold PnEnt.heated
  rw [h]

theorem PnEnt.heated_eq {e : PnEnt} (now : Nat) (h : e.st ≠ .resolving) : e.heated now =
    if e.st = .live ∧ e.hlim ≠ 0 ∧ min (e.heat + 1) 255 = e.hlim then
      { e with heat := min (e.heat + 1) 255, st := .hot, hotAt := now }
    else { e with heat := min (e.heat + 1) 255 } := by
  unfold PnEnt.heated
  split
  · exact absurd ‹_› h
  · simp [and_assoc]

/-! ### The entry that became hot first -/

/-- Of two hot entries the one that became hot first; of equals the one met first. -/
def PnEnt.older (b : Option PnEnt) (e : PnEnt) : Option PnEnt :=
  match b with
  | none => some e
  | some c => if e.hotAt < c.hotAt then some e else some c

theorem PnEnt.foldl_older {e : PnEnt} (l : List PnEnt) (b : Option PnEnt) (hl : ∀ f ∈ l, e.hotAt < f.hotAt ∨ f = e)
    (hb : ∀ c, b = some c → e.hotAt < c.hotAt ∨ c = e) (he : e ∈ l ∨ b = some e) : l.foldl PnEnt.older b = some e := by
  induction l generalizing b with
  | nil => exact he.resolve_left List.not_mem_nil
  | cons f l ih =>
    obtain ⟨hf, hl⟩ := List.forall_mem_cons.1 hl
    rw [List.foldl_cons]
    refine ih _ hl ?_ ?_ <;> cases b <;> grind [PnEnt.older]

theorem State.startResolving_one {s : State} {e : PnEnt} (h : e.st ≠ .resolving) :
    s.startResolving [e] = some { s with pn := modWhere (·.id == e.id) (fun e => { e with st := .resolving }) s.pn } := by
  unfold State.startResolving
  rw [if_neg (by simpa using h)]
  have hp : ∀ f : PnEnt, ([e].any fun e => e.id == f.id) = (f.id == e.id) := fun f => by
    simp [Bool.beq_comm]
  simp only [hp]
  rfl

theorem State.hotStep_eq {s : State} {die : Nat} {e : PnEnt} (hm : e ∈ s.pn) (hd : e.die = die) (hs : e.st = .hot)
    (hfirst : ∀ f ∈ s.pn, f.die = die → f.st = .hot → e.hotAt < f.hotAt ∨ f = e)
    (hfree : ∀ f ∈ s.pn, f.die = die → f.st = .resolving → f.hotAt = 0 ∨ s.stuck f = true) : s.hotStep die =
      some { s with pn := modWhere (·.id == e.id) (fun e => { e with st := .resolving }) s.pn } := by
  have hnone : ((s.pn.filter fun e => e.die == die).any fun e => e.st == .resolving && e.hotAt != 0 && !s.stuck e) = false := by
    rw [List.any_eq_false]
    intro f hf
    obtain ⟨hf, hfd⟩ := List.mem_filter.1 hf
    have := hfree f hf (by simpa using hfd)
    grind
  have hfold : ((s.pn.filter fun e => e.die == die).filter (·.st == .hot)).foldl PnEnt.older none = some e := by
    refine PnEnt.foldl_older _ _ (fun f hf => ?_) nofun (.inl ?_)
    · simp only [List.mem_filter, beq_iff_eq] at hf
      exact hfirst f hf.1.1 hf.1.2 hf.2
    · simp [hm, hd, hs]
  have hstep : s.hotStep die =
      if (s.pn.filter fun e => e.die == die).any fun e => e.st == .resolving && e.hotAt != 0 && !s.stuck e then none
      else (((s.pn.filter fun e => e.die == die).filter (·.st == .hot)).foldl PnEnt.older none).bind
        fun e => s.startResolving [e] := rfl
  rw [hstep, if_neg (by rw [hnone]; exact Bool.false_ne_true), hfold]
  exact State.startResolving_one (by rw [hs]; decide)

/-! ### The write of antecedents -/

theorem State.antecedentStep_eq {s : State} {line off n : Nat} {x : HomeTxn} (hx : s.txn? line = some x)
    (hw : x.wait = .antecedent) (hs : x.req.span = some (off, n)) (he : ∃ e ∈ s.anteOf (line + off) n, e.st ≠ .resolving) :
    s.antecedentStep line = some { s with
      pn := modWhere (fun e => !e.mirror && e.anteMeets (line + off) n) (fun e => { e with st := .resolving }) s.pn } := by
  obtain ⟨xl, req, wait, data, answers, exact, heldWb, queue⟩ := x
  subst hw
  obtain ⟨e, hm, hne⟩ := he
  have h1 : ¬(s.anteOf (line + off) n).isEmpty = true := fun h => absurd (List.isEmpty_iff.1 h ▸ hm) List.not_mem_nil
  have h2 : ¬(s.anteOf (line + off) n).all (·.st == .resolving) = true := fun h =>
    hne (by simpa using List.all_eq_true.1 h e hm)
  unfold State.antecedentStep
  rw [hx]
  dsimp only at hs ⊢
  rw [hs]
  dsimp only
  rw [if_neg h1, if_neg h2]
  rfl

/-! ### Resolution -/

/-- `t` is `s` but for memory, L2 with its high-water stamps, and the windows. -/
structure State.WindowsOnly (s t : State) : Prop where
  eq : t = { s with pn := t.pn, l2 := t.l2, mem := t.mem, highWater := t.highWater }

namespace State.WindowsOnly
variable {s t u : State}

theorem trans (h : WindowsOnly s t) (k : WindowsOnly t u) : WindowsOnly s u := by
  constructor
  rw [k.eq, h.eq]

theorem of_l2 (h : L2Only s t) : WindowsOnly s t := by
  constructor
  rw [h.eq]

theorem lines (h : WindowsOnly s t) : LinesOnly s t := by
  constructor
  rw [h.eq]

end State.WindowsOnly

theorem State.setWindow_windows (s : State) (id lo hi : Nat) : WindowsOnly s (s.setWindow id lo hi) := by
  unfold State.setWindow
  split <;> exact ⟨rfl⟩

theorem find?_modWhere_id {l : List PnEnt} {id : Nat} {e : PnEnt} {f : PnEnt → PnEnt} (hf : ∀ e, (f e).id = e.id)
    (h : l.find? (·.id == id) = some e) : (modWhere (·.id == id) f l).find? (·.id == id) = some (f e) := by
  have hid : e.id = id := by simpa using List.find?_some h
  have hp : ((fun e : PnEnt => e.id == id) ∘ fun a => if a.id == id then f a else a) = fun e => e.id == id := by
    funext a
    by_cases ha : a.id = id <;> simp [ha, hf]
  rw [modWhere, List.find?_map, hp, h]
  simp [hid]

theorem filter_modWhere_id (l : List PnEnt) (id : Nat) {f : PnEnt → PnEnt} (hf : ∀ e, (f e).id = e.id) :
    (modWhere (·.id == id) f l).filter (·.id != id) = l.filter (·.id != id) := by
  induction l with
  | nil => rfl
  | cons a l ih =>
    rw [modWhere, List.map_cons, List.filter_cons, List.filter_cons]
    by_cases ha : a.id = id
    · simp only [ha, beq_self_eq_true, if_true, hf, bne_self_eq_false, Bool.false_eq_true, if_false]
      exact ih
    · simp only [beq_eq_false_iff_ne.2 ha, Bool.false_eq_true, if_false]
      rw [← modWhere, ih]

/-- A RESOLVING entry in a state where none of its lines must wait. -/
structure State.Resolves (s : State) (id dbase hi : Nat) (ls : List Nat) : Prop where
  found : ∃ e, s.pn.find? (·.id == id) = some e ∧ e.dbase = dbase ∧ e.hi = hi
  held : ∀ l, s.isLost l = false
  clear : ∀ l ∈ ls, s.translated? [l] = none

/-- One line of it is written, and its window loses the line. -/
def State.resolved (s : State) (id dbase hi l : Nat) : State :=
  (s.resolveLine l).setWindow id (min (l + 128) (dbase + hi) - dbase) hi

theorem State.Resolves.cons {s : State} {id dbase hi l : Nat} {ls : List Nat} (h : s.Resolves id dbase hi (l :: ls)) :
    resolveUpTo id (l :: ls) s = resolveUpTo id ls (s.resolved id dbase hi l) := by
  obtain ⟨e, he, rfl, rfl⟩ := h.found
  rw [resolveUpTo, State.lackAt_none h.held, h.clear l List.mem_cons_self, he]
  rfl

theorem State.resolved_windows (s : State) (id dbase hi l : Nat) : WindowsOnly s (s.resolved id dbase hi l) :=
  (WindowsOnly.of_l2 (s.putL2_only ..)).trans (State.setWindow_windows ..)

theorem State.resolved_last {s : State} {id dbase hi l : Nat} (h : dbase + hi ≤ l + 128) :
    (s.resolved id dbase hi l).pn = s.pn.filter (·.id != id) := by
  unfold State.resolved State.setWindow
  rw [if_pos (by omega)]
  exact congrArg (List.filter _) (by rw [State.resolveLine, (s.putL2_only ..).pn])

theorem State.resolved_pn {s : State} {id dbase hi l : Nat} (h : l + 128 < dbase + hi) (h0 : 0 < hi) :
    (s.resolved id dbase hi l).pn = modWhere (·.id == id) (fun e => { e with lo := l + 128 - dbase, hi := hi }) s.pn := by
  unfold State.resolved State.setWindow
  rw [if_neg (by omega), Nat.min_eq_left (Nat.le_of_lt h)]
  exact congrArg (modWhere _ _) (by rw [State.resolveLine, (s.putL2_only ..).pn])

theorem State.Resolves.next {s : State} {id dbase hi l : Nat} {ls : List Nat} (h : s.Resolves id dbase hi (l :: ls))
    (hl : l + 128 < dbase + hi) (h0 : 0 < hi) : (s.resolved id dbase hi l).Resolves id dbase hi ls := by
  have hw := (s.resolved_windows id dbase hi l).lines
  obtain ⟨e, he, hd, -⟩ := h.found
  refine ⟨⟨{ e with lo := l + 128 - dbase, hi := hi }, ?_, hd, rfl⟩, fun k => (hw.sameLoss.isLost k).trans (h.held k), fun k hk => ?_⟩
  · rw [State.resolved_pn hl h0]
    exact find?_modWhere_id (f := fun e => { e with lo := l + 128 - dbase, hi := hi }) (fun _ => rfl) he
  · exact (hw.translated? _).trans (h.clear k (List.mem_cons_of_mem _ hk))

/-- The lines of an entry are written one after another, and with the last one it is free. -/
theorem State.Resolves.all {id dbase hi : Nat} (h0 : 0 < hi) (ls : List Nat) (l : Nat) {s : State}
    (h : s.Resolves id dbase hi (ls ++ [l])) (hls : ∀ k ∈ ls, k + 128 < dbase + hi) (hl : dbase + hi ≤ l + 128) :
    (resolveUpTo id (ls ++ [l]) s).pn = s.pn.filter (·.id != id) ∧ WindowsOnly s (resolveUpTo id (ls ++ [l]) s) := by
  induction ls generalizing s with
  | nil =>
    rw [List.nil_append, State.Resolves.cons (by simpa using h)]
    exact ⟨State.resolved_last hl, s.resolved_windows ..⟩
  | cons k ls ih =>
    obtain ⟨hk, hls⟩ := List.forall_mem_cons.1 hls
    rw [List.cons_append] at h ⊢
    obtain ⟨hp, hw⟩ := ih (h.next hk h0) hls
    rw [h.cons]
    refine ⟨hp.trans ?_, (s.resolved_windows ..).trans hw⟩
    rw [State.resolved_pn hk h0]
    exact filter_modWhere_id _ _ fun _ => rfl

/-- The lines of a window: every one but the last ends inside it. -/
theorem PnEnt.lines_eq {e : PnEnt} (h : e.lo < e.hi) : ∃ ls l, e.lines = ls ++ [l] ∧ (∀ k ∈ ls, k + 128 < e.dbase + e.hi)
    ∧ e.dbase + e.hi ≤ l + 128 := by
  have hlo : e.winLo = e.dbase + e.lo := rfl
  have hhi : e.winHi = e.dbase + e.hi := rfl
  have hf : lineOf e.winLo = e.winLo / 128 * 128 := rfl
  obtain ⟨n, hn⟩ : ∃ n, (e.winHi + 127 - lineOf e.winLo) / 128 = n + 1 := ⟨_, (Nat.sub_add_cancel (by omega)).symm⟩
  refine ⟨(List.range n).map fun k => lineOf e.winLo + 128 * k, lineOf e.winLo + 128 * n, ?_, fun k hk => ?_, by omega⟩
  · unfold PnEnt.lines
    dsimp only
    rw [hn, List.range_succ, List.map_append]
    rfl
  · obtain ⟨j, hj, rfl⟩ := List.mem_map.1 hk
    have := List.mem_range.1 hj
    omega

theorem State.resolutionStep_eq {s : State} {e : PnEnt} (he : s.pn.find? (·.id == e.id) = some e) (hs : e.st = .resolving)
    (hw : e.lo < e.hi) (hlost : ∀ l, s.isLost l = false) (ht : ∀ l ∈ e.lines, s.translated? [l] = none) :
    ∃ t, s.resolutionStep e.id = some t ∧ t.pn = s.pn.filter (·.id != e.id) ∧ WindowsOnly s t
      ∧ ∀ l, e.lines = [l] → ∃ y, t.l2? l = some y ∧ y.data = s.homeValue l ∧ y.dirty = true := by
  obtain ⟨ls, l, hlines, hls, hl⟩ := e.lines_eq hw
  have hr : s.Resolves e.id e.dbase e.hi e.lines := ⟨⟨e, he, rfl, rfl⟩, hlost, ht⟩
  obtain ⟨hp, honly⟩ := State.Resolves.all (by omega) ls l (hlines ▸ hr) hls hl
  rw [← hlines] at hp honly
  have hne : (resolveUpTo e.id e.lines s == s) = false := by
    rw [beq_eq_false_iff_ne]
    intro h
    have hm := List.mem_of_find?_eq_some he
    rw [h] at hp
    rw [hp] at hm
    simpa using (List.mem_filter.1 hm).2
  refine ⟨_, ?_, hp, honly, fun k hk => ?_⟩
  · unfold State.resolutionStep
    rw [he]
    dsimp only
    rw [if_neg (by simp [hs]), if_neg (by rw [hne]; exact Bool.false_ne_true)]
  · rw [hk] at hr ⊢
    rw [hr.cons]
    obtain ⟨y, hy, hd, hdirty⟩ := s.l2?_putL2_same k (s.homeValue k) true
    refine ⟨y, ?_, hd, hdirty rfl⟩
    rw [← hy]
    show (State.setWindow _ _ _ _).l2? k = _
    unfold State.setWindow
    split <;> rfl

end Sys2Proof.Machine
end

/-!
PROOF. O48, WindowEvents, second part: the write of a destination, and the Stackers.
-/

section
open Sys2Proof Sys2Proof.Machine
namespace Sys2Proof.Machine

/-! ### The write of a destination -/

theorem State.destinationStep_eq {s : State} {line : Nat} {x : HomeTxn} (hx : s.txn? line = some x) (hw : x.wait = .destination)
    (hr : s.resolvingAt line = false) (hl : s.lackAt line = none)
    (ht : s.translated? ((s.spills line).filter (· != line)) = none) :
    s.destinationStep line = some ((s.trimLine line).settleHome line) := by
  obtain ⟨xl, req, wait, data, answers, exact, heldWb, queue⟩ := x
  subst hw
  unfold State.destinationStep
  rw [hx]
  dsimp only
  rw [hr, hl, ht]
  rfl

theorem State.resolveLine_pn (s : State) (line : Nat) : (s.resolveLine line).pn = s.pn := (s.putL2_only ..).pn

theorem State.setWindow_l2 (s : State) (id lo hi : Nat) : (s.setWindow id lo hi).l2 = s.l2 := by
  unfold State.setWindow
  split <;> rfl

theorem State.setWindow_pn (s : State) (id : Nat) {lo hi : Nat} (hw : lo < hi) :
    (s.setWindow id lo hi).pn = modWhere (·.id == id) (fun e => { e with lo := lo, hi := hi }) s.pn := by
  unfold State.setWindow
  rw [if_neg (by omega)]

theorem modWhere_congr {α : Type} {p : α → Bool} {f g : α → α} {l : List α} (h : ∀ a ∈ l, p a = true → f a = g a) :
    modWhere p f l = modWhere p g l := by
  refine List.map_congr_left fun a ha => ?_
  split
  · exact h a ha ‹_›
  · rfl

/-- A window that alone lies over a line, with the offsets of the line in it. -/
structure PnEnt.Over (s : State) (e : PnEnt) (line : Nat) : Prop where
  alone : s.windowsOf line = [e]
  window : e.lo < e.hi
  unique : ∀ f ∈ s.pn, f.id = e.id → f = e

namespace PnEnt.Over
variable {s : State} {e : PnEnt} {line : Nat} (h : e.Over s line)
include h

theorem meets : line < e.dbase + e.hi ∧ e.dbase + e.lo < line + 128 := by
  have hm : e ∈ s.windowsOf line := h.alone ▸ List.mem_singleton_self e
  have := (List.mem_filter.1 hm).2
  simp only [PnEnt.meets, Bool.and_eq_true, decide_eq_true_eq] at this
  exact ⟨this.1.1, this.1.2⟩

theorem inLine : e.lo < (e.inLine line).2 ∧ (e.inLine line).1 < e.hi ∧ (e.inLine line).2 ≤ e.hi := by
  have hw := h.window
  obtain ⟨h1, h2⟩ := h.meets
  have hlo : e.winLo = e.dbase + e.lo := rfl
  have hhi : e.winHi = e.dbase + e.hi := rfl
  unfold PnEnt.inLine
  dsimp only
  omega

theorem trim : s.trimLine line = (s.resolveLine line).cutWindow e (e.inLine line).1 (e.inLine line).2 := by
  unfold State.trimLine
  dsimp only
  rw [h.alone]
  rfl

/-- The line lies at the lower end of the window. -/
theorem trim_low (hlo : (e.inLine line).1 ≤ e.lo) :
    s.trimLine line = (s.resolveLine line).setWindow e.id (e.inLine line).2 e.hi := by
  obtain ⟨h1, h2, h3⟩ := h.inLine
  rw [h.trim, State.cutWindow, if_neg (by simp; omega), if_pos hlo, Nat.min_eq_left h3]

/-- The line lies at the upper end of the window, and not at the lower. -/
theorem trim_high (hlo : e.lo < (e.inLine line).1) (hhi : e.hi ≤ (e.inLine line).2) :
    s.trimLine line = (s.resolveLine line).setWindow e.id e.lo (e.inLine line).1 := by
  obtain ⟨h1, h2, h3⟩ := h.inLine
  rw [h.trim, State.cutWindow, if_neg (by simp; omega), if_neg (by omega), if_pos hhi]

/-- The line lies within the window, which is split. -/
theorem trim_mid (hlo : e.lo < (e.inLine line).1) (hhi : (e.inLine line).2 < e.hi) (hr : s.pnRoom e = true) :
    s.trimLine line = { (s.resolveLine line).setWindow e.id e.lo (e.inLine line).1 with
      pn := ((s.resolveLine line).setWindow e.id e.lo (e.inLine line).1).pn ++
        [{ e with id := ((s.resolveLine line).setWindow e.id e.lo (e.inLine line).1).nextPn, lo := (e.inLine line).2 }]
      nextPn := ((s.resolveLine line).setWindow e.id e.lo (e.inLine line).1).nextPn + 1 } := by
  obtain ⟨h1, h2, h3⟩ := h.inLine
  have hroom : (s.resolveLine line).pnRoom e = true := by
    rw [← hr, State.resolveLine, (s.putL2_only ..).eq]
    rfl
  rw [h.trim, State.cutWindow, if_neg (by simp; omega), if_neg (by omega), if_neg (by omega), if_pos hroom]

/-- What the entry's own fields are needs not be said: it is the only one of its number. -/
theorem modWhere_eq {f g : PnEnt → PnEnt} (hfg : f e = g e) : modWhere (·.id == e.id) f s.pn = modWhere (·.id == e.id) g s.pn :=
  modWhere_congr fun a ha hp => by rw [h.unique a ha (by simpa using hp), hfg]

/-- Where nothing is resolved beside it, the line is in L2 with its values. -/
theorem trim_l2? (hc : (e.inLine line).1 ≤ e.lo ∨ e.hi ≤ (e.inLine line).2 ∨ s.pnRoom e = true) :
    ∃ y, (s.trimLine line).l2? line = some y ∧ y.data = s.homeValue line ∧ y.dirty = true := by
  obtain ⟨y, hy, hd, hdirty⟩ := s.l2?_putL2_same line (s.homeValue line) true
  have hl2 : (s.trimLine line).l2 = (s.resolveLine line).l2 := by
    by_cases hlo : (e.inLine line).1 ≤ e.lo
    · rw [h.trim_low hlo, State.setWindow_l2]
    · by_cases hhi : e.hi ≤ (e.inLine line).2
      · rw [h.trim_high (by omega) hhi, State.setWindow_l2]
      · have hr : s.pnRoom e = true := (hc.resolve_left hlo).resolve_left hhi
        rw [h.trim_mid (by omega) (by omega) hr]
        exact State.setWindow_l2 ..
  refine ⟨y, ?_, hd, hdirty rfl⟩
  rw [← hy]
  unfold State.l2?
  rw [hl2]
  rfl

theorem trim_all (hlo : (e.inLine line).1 ≤ e.lo) (hhi : e.hi ≤ (e.inLine line).2) :
    (s.trimLine line).pn = s.pn.filter (·.id != e.id) := by
  rw [h.trim_low hlo]
  unfold State.setWindow
  rw [if_pos hhi]
  exact congrArg (List.filter _) (s.resolveLine_pn line)

theorem trim_lower (hlo : (e.inLine line).1 ≤ e.lo) (hhi : (e.inLine line).2 < e.hi) :
    (s.trimLine line).pn = modWhere (·.id == e.id) (fun f => { f with lo := (e.inLine line).2 }) s.pn := by
  rw [h.trim_low hlo, State.setWindow_pn _ _ hhi, s.resolveLine_pn]
  exact h.modWhere_eq rfl

theorem trim_upper (hlo : e.lo < (e.inLine line).1) (hhi : e.hi ≤ (e.inLine line).2) :
    (s.trimLine line).pn = modWhere (·.id == e.id) (fun f => { f with hi := (e.inLine line).1 }) s.pn := by
  rw [h.trim_high hlo hhi, State.setWindow_pn _ _ hlo, s.resolveLine_pn]
  exact h.modWhere_eq rfl

theorem trim_split (hlo : e.lo < (e.inLine line).1) (hhi : (e.inLine line).2 < e.hi) (hr : s.pnRoom e = true) :
    (s.trimLine line).pn = modWhere (·.id == e.id) (fun f => { f with hi := (e.inLine line).1 }) s.pn ++
      [{ e with id := s.nextPn, lo := (e.inLine line).2 }] := by
  have hn : ((s.resolveLine line).setWindow e.id e.lo (e.inLine line).1).nextPn = s.nextPn := by
    have : (s.resolveLine line).nextPn = s.nextPn := by rw [State.resolveLine, (s.putL2_only ..).eq]
    rw [← this]
    unfold State.setWindow
    split <;> rfl
  rw [h.trim_mid hlo hhi hr]
  dsimp only
  rw [hn, State.setWindow_pn _ _ hlo, s.resolveLine_pn]
  exact congrArg (· ++ _) (h.modWhere_eq rfl)

end PnEnt.Over

/-! ### The entries of a move, rewritten -/

/-- An entry of a line without an owner stands in L2. -/
structure State.Placed (s : State) (a v : Nat) : Prop where
  owner : s.owner? (lineOf a) = none
  l2 : ∃ y, s.l2? (lineOf a) = some y ∧ entryIn y.data a = v

/-- One entry is rewritten at its home. -/
def State.putLeaf (s : State) (a v : Nat) : State :=
  (s.takeBack (lineOf a)).putL2 (lineOf a) (putEntry ((s.takeBack (lineOf a)).homeRow (lineOf a)) a v) true

theorem State.owner?_none {s : State} {line : Nat} : s.owner? line = none ↔
    ∀ c ∈ s.cores, ∀ l ∈ c.2.l1d, l.line = line → l.st ≠ .m ∧ l.st ≠ .o ∧ l.st ≠ .e := by
  unfold State.owner?
  rw [List.head?_eq_none_iff, List.flatMap_eq_nil_iff]
  refine forall₂_congr fun c _ => ?_
  rw [List.map_eq_nil_iff, List.filter_eq_nil_iff]
  refine forall₂_congr fun l _ => ?_
  simp only [Bool.and_eq_true, Bool.or_eq_true, beq_iff_eq, not_and, not_or, and_assoc]

theorem State.takeBack_owner? (s : State) (line : Nat) : (s.takeBack line).owner? line = none := by
  rw [State.owner?_none]
  intro c hc l hl hline
  obtain ⟨d, -, rfl⟩ := List.mem_map.1 hc
  have := (List.mem_filter.1 hl).2
  simp only [hline, bne_self_eq_false, Bool.false_or, beq_iff_eq] at this
  simp [this]

theorem State.takeBack_owner?_of_none {s : State} {line k : Nat} (h : s.owner? k = none) : (s.takeBack line).owner? k = none := by
  rw [State.owner?_none] at h ⊢
  intro c hc l hl
  obtain ⟨d, hd, rfl⟩ := List.mem_map.1 hc
  rw [(s.saveOwner_only line).cores] at hd
  exact h d hd l (List.mem_filter.1 hl).1

theorem State.takeBack_l2?_slice (s : State) {line k : Nat} (hs : sliceOf k ≠ sliceOf line) :
    (s.takeBack line).l2? k = s.l2? k := by
  show (s.saveOwner line).l2? k = s.l2? k
  unfold State.saveOwner
  split
  · split
    · rfl
    · exact s.l2?_putL2_slice _ _ hs
  · rfl

theorem State.takeBack_l2?_of_none {s : State} {line : Nat} (h : s.owner? line = none) (k : Nat) :
    (s.takeBack line).l2? k = s.l2? k := by
  show (s.saveOwner line).l2? k = s.l2? k
  unfold State.saveOwner
  rw [h]

theorem State.putL2_owner? (s : State) (line k : Nat) (row : Row) (d : Bool) : (s.putL2 line row d).owner? k = s.owner? k := by
  unfold State.owner?
  rw [(s.putL2_only ..).cores]

theorem State.putLeaf_placed (s : State) {a : Nat} (ha : a % 8 = 0) (v : Nat) : (s.putLeaf a v).Placed a (v % 2 ^ 64) := by
  refine ⟨(State.putL2_owner? ..).trans (s.takeBack_owner? _), ?_⟩
  obtain ⟨y, hy, hd, -⟩ := State.l2?_putL2_same (s.takeBack (lineOf a)) (lineOf a)
    (putEntry ((s.takeBack (lineOf a)).homeRow (lineOf a)) a v) true
  exact ⟨y, hy, by rw [hd, entryIn_putEntry_same _ ha]⟩

/-- Another entry of the line, and an entry of a line of another slice, stay where they stand. -/
theorem State.Placed.putLeaf {s : State} {b w : Nat} (h : s.Placed b w) {a : Nat} (ha : a % 8 = 0) (hb : b % 8 = 0)
    (hab : lineOf b = lineOf a ∧ a % 128 ≠ b % 128 ∨ sliceOf (lineOf b) ≠ sliceOf (lineOf a)) (v : Nat) :
    (s.putLeaf a v).Placed b w := by
  obtain ⟨y, hy, hw⟩ := h.l2
  refine ⟨(State.putL2_owner? ..).trans (State.takeBack_owner?_of_none h.owner), ?_⟩
  rcases hab with ⟨hl, hne⟩ | hs
  · have hback := (State.takeBack_l2?_of_none (hl ▸ h.owner) (lineOf a)).trans (hl ▸ hy)
    obtain ⟨z, hz, hd, -⟩ := State.l2?_putL2_same (s.takeBack (lineOf a)) (lineOf a)
      (putEntry ((s.takeBack (lineOf a)).homeRow (lineOf a)) a v) true
    refine ⟨z, hl ▸ hz, ?_⟩
    have hrow : (s.takeBack (lineOf a)).homeRow (lineOf a) = y.data := by
      unfold State.homeRow
      rw [hback]
    rw [hd, hrow, entryIn_putEntry_ne _ ha hb hne, hw]
  · exact ⟨y, (State.l2?_putL2_slice _ _ _ hs).trans ((s.takeBack_l2?_slice hs).trans hy), hw⟩

theorem State.putLeaf_only (s : State) (a v : Nat) : LinesOnly s (s.putLeaf a v) :=
  (s.takeBack_only _).trans (LinesOnly.of_l2 (State.putL2_only ..))

/-- The 32 entries of a table group are rewritten, to name a run's frames. -/
def State.putLeaves (s : State) (table : Nat) (es : List Nat) (run : Nat) : State :=
  (List.range 32).foldl (fun s k => s.putLeaf (table + 8 * k) (pteMoved (es.getD k 0) (run + 0x1_0000 * k))) s

theorem State.putLeaves_only (s : State) (table : Nat) (es : List Nat) (run : Nat) : LinesOnly s (s.putLeaves table es run) :=
  LinesOnly.foldl (fun s k => s.putLeaf_only (table + 8 * k) (pteMoved (es.getD k 0) (run + 0x1_0000 * k))) _ _

/-- Where no request and no message is about the line, a coherent read finds the entry. -/
theorem State.Placed.coherent {s : State} {a v : Nat} (h : s.Placed a v) (hq : s.quiet (lineOf a) = true) :
    entryIn (s.coherentRow (lineOf a)) a = v := by
  obtain ⟨y, hy, hv⟩ := h.l2
  simp only [State.quiet, Bool.and_eq_true, Bool.not_eq_true', List.any_eq_false] at hq
  obtain ⟨hhomes, hmsgs⟩ := hq
  have hmov : s.movingData (lineOf a) = none := by
    unfold State.movingData
    rw [List.filter_eq_nil_iff.2 hmsgs]
    rfl
  have htxn : s.homes.find? (·.line == lineOf a) = none := List.find?_eq_none.2 hhomes
  unfold State.coherentRow
  rw [h.owner, hmov, htxn]
  unfold State.homeValue
  rw [hy]
  exact hv

/-- The two lines of a table group lie in two slices. -/
theorem sliceOf_group {table : Nat} (ht : table % 256 = 0) (hh : isHbm (table + 255) = true) :
    sliceOf table ≠ sliceOf (table + 128) := by
  have htop : table + 255 < 824633720832 := of_decide_eq_true hh
  have h1 : isHbm table = true := decide_eq_true (by unfold hbmTop; omega)
  have h2 : isHbm (table + 128) = true := decide_eq_true (by unfold hbmTop; omega)
  have hdie : homeDie (table + 128) = homeDie table := by
    unfold homeDie hbmDie
    rw [if_pos h1, if_pos h2]
    omega
  have hlow : bitsOf (table + 128) 12 7 = bitsOf table 12 7 + 1 := by unfold bitsOf; omega
  have hmid : bitsOf (table + 128) 18 13 = bitsOf table 18 13 := by unfold bitsOf; omega
  have hhigh : bitsOf (table + 128) 24 19 = bitsOf table 24 19 := by unfold bitsOf; omega
  unfold sliceOf
  rw [if_pos h1, if_pos h2, hdie, hlow, hmid, hhigh]
  intro h
  have := Nat.xor_left_inj.1 (Nat.xor_left_inj.1 (Nat.add_left_cancel h))
  omega

/-- The 32 entries of a table group that are rewritten. -/
theorem foldl_putLeaf_placed {table : Nat} (ht : table % 256 = 0) (hh : isHbm (table + 255) = true) (f : Nat → Nat) (n : Nat)
    (hn : n ≤ 32) (s : State) {k : Nat} (hk : k < n) :
    ((List.range n).foldl (fun s k => s.putLeaf (table + 8 * k) (f k)) s).Placed (table + 8 * k) (f k % 2 ^ 64) := by
  induction n with
  | zero => exact absurd hk (Nat.not_lt_zero k)
  | succ n ih =>
    rw [List.range_succ, List.foldl_append]
    by_cases hkn : k = n
    · subst hkn
      exact State.putLeaf_placed _ (by omega) _
    · refine (ih (by omega) (by omega)).putLeaf (by omega) (by omega) ?_ _
      by_cases hl : k / 16 = n / 16
      · refine .inl ⟨?_, by omega⟩
        unfold lineOf
        omega
      · have hk' : lineOf (table + 8 * k) = table := by unfold lineOf; omega
        have hn' : lineOf (table + 8 * n) = table + 128 := by unfold lineOf; omega
        rw [hk', hn']
        exact .inr (sliceOf_group ht hh)

theorem State.putLeaves_placed {table : Nat} (ht : table % 256 = 0) (hh : isHbm (table + 255) = true) (s : State)
    (es : List Nat) (run : Nat) {k : Nat} (hk : k < 32) :
    (s.putLeaves table es run).Placed (table + 8 * k) (pteMoved (es.getD k 0) (run + 0x1_0000 * k) % 2 ^ 64) :=
  foldl_putLeaf_placed ht hh (fun k => pteMoved (es.getD k 0) (run + 0x1_0000 * k)) 32 le_rfl s hk

/-! ### Stackers -/

/-- A line that nothing concerns is written at once; of a table line, faults that walks met are forgotten. -/
theorem State.clearFor_free {s : State} {l : Nat} (hq : s.quiet l = true) (hl : s.isLost l = false) (hw : s.windowsOf l = [])
    (ha : s.anteOf l 128 = []) (hm : s.mirrorOf l 128 = []) (ht : s.translated? [l] = none) :
    s.clearFor l 0 128 = .ok (if s.isTable l then s.forgetFaults else s) := by
  have hres : s.resolvingAt l = false := by rw [State.resolvingAt, hw]; rfl
  have hmir : s.mirrorResolving l 0 128 = false := by rw [State.mirrorResolving, Nat.add_zero, hm]; rfl
  have hspill : s.spills l = [] := by rw [State.spills, hw]; rfl
  have htrim : s.trimLine l = s := by
    unfold State.trimLine
    rw [hw]
    rfl
  have hc : s.clearWindows l 0 128 = .ok s := by
    unfold State.clearWindows
    rw [Nat.add_zero, ha, hl, hq, hres, hmir, State.lackAt_of_noWindows hw, hspill]
    exact congrArg Coll.ok htrim
  unfold State.clearFor
  rw [ht, hc]

/-- A line that is written at once, in a state that may have forgotten faults. -/
structure State.LineFree (s : State) (l : Nat) : Prop where
  quiet : s.quiet l = true
  held : s.isLost l = false
  windows : s.windowsOf l = []
  ante : s.anteOf l 128 = []
  mirror : s.mirrorOf l 128 = []
  clear : s.translated? [l] = none

theorem State.LineFree.withQuads {s : State} {l : Nat} (h : s.LineFree l) (q : SMap Quad) : { s with quads := q }.LineFree l :=
  ⟨h.quiet, h.held, h.windows, h.ante, h.mirror, h.clear⟩

theorem State.LineFree.clearFor {s : State} {l : Nat} (h : s.LineFree l) : ∃ q, s.clearFor l 0 128 = .ok { s with quads := q } := by
  rw [State.clearFor_free h.quiet h.held h.windows h.ante h.mirror h.clear]
  split
  · exact ⟨_, rfl⟩
  · exact ⟨s.quads, rfl⟩

theorem State.stacker_modStacker {s : State} {d g : Nat} (hd : d < s.dies.length) (hg : g < (s.die d).stackers.length)
    (f : Stacker → Stacker) : (s.modStacker d g f).stacker d g = f (s.stacker d g) := by
  unfold State.stacker State.modStacker
  rw [State.die_modDie, if_pos ⟨rfl, hd⟩]
  dsimp only
  rw [modAt_getElem?, if_pos rfl, List.getElem?_eq_getElem hg]
  rfl

theorem State.moveStep_begun {s : State} {d g ctx va : Nat} {m : Move} (hm : (s.stacker d g).moves.find? (!·.done) = some m)
    (hc : m.ctx = ctx) (hv : m.va = va) : s.moveStep d g ctx va = s.finishMove d g m := by
  unfold State.moveStep
  rw [hm]
  dsimp only
  rw [if_pos (by simp [hc, hv])]

/-- A move whose table lines have changed is given up. -/
theorem State.finishMove_differs {s s1 : State} {d g : Nat} {m : Move}
    (hq : ∀ l, l = m.table ∨ l = m.table + 128 → s.quiet l = true)
    (hes : (s.leafGroup m.table).map pteFixed ≠ m.expect.map pteFixed) (hr : ∀ e ∈ s.mirrorsOf m.run, e.st ≠ .resolving)
    (h1 : ({ s with pn := s.pn.filter fun e => !((s.mirrorsOf m.run).any (·.id == e.id)) } : State).writePhys .dir
      ((s.stacker d g).frbase.toNat - 8) (bytesOfNat 8 m.run) = .ok s1) :
    s.finishMove d g m = some (s1.modStacker d g fun x => { x with frbase := x.frbase - 8, moves := x.moves.erase m }) := by
  unfold State.finishMove
  dsimp only
  rw [if_neg (by simp [hq]), if_pos (by simpa using hes)]
  unfold State.dropMove
  rw [if_neg (by simpa using hr)]
  dsimp only
  rw [h1]

/-- A move whose table lines have not changed rewrites their entries. -/
theorem State.finishMove_same {s : State} {d g : Nat} {m : Move}
    (hes : (s.leafGroup m.table).map pteFixed = m.expect.map pteFixed)
    (hf : ∀ l, l = m.table ∨ l = m.table + 128 → s.LineFree l) : ∃ q, s.finishMove d g m =
      some ((({ s with quads := q } : State).putLeaves m.table (s.leafGroup m.table) m.run).modStacker d g
        fun x => { x with moves := modWhere (· == m) (fun m => { m with done := true }) x.moves }) := by
  have h0 := hf m.table (.inl rfl)
  have h1 := hf (m.table + 128) (.inr rfl)
  obtain ⟨q0, hq0⟩ := h0.clearFor
  obtain ⟨q1, hq1⟩ := (h1.withQuads q0).clearFor
  refine ⟨q1, ?_⟩
  unfold State.finishMove
  dsimp only
  rw [if_neg (by simp [h0.quiet, h1.quiet]), if_neg (by simpa using hes), if_neg (by simp [h0.clear, h1.clear])]
  simp only [List.foldl_cons, List.foldl_nil, hq0, hq1]
  unfold State.putLeaves
  generalize List.range 32 = ks
  rfl

/-- After the rewrite every entry reads as moved, and the move is done. -/
theorem State.finishMove_entries {s : State} {d g : Nat} {m : Move} (hd : d < s.dies.length)
    (hg : g < (s.die d).stackers.length) (ht : m.table % 256 = 0) (hh : isHbm (m.table + 255) = true)
    (hes : (s.leafGroup m.table).map pteFixed = m.expect.map pteFixed)
    (hf : ∀ l, l = m.table ∨ l = m.table + 128 → s.LineFree l) : ∃ t, s.finishMove d g m = some t
      ∧ t.stacker d g = { s.stacker d g with
          moves := modWhere (· == m) (fun m => { m with done := true }) (s.stacker d g).moves }
      ∧ ∀ k < 32, entryIn (t.coherentRow (lineOf (m.table + 8 * k))) (m.table + 8 * k) =
        (pteMoved ((s.leafGroup m.table).getD k 0) (m.run + 0x1_0000 * k)) % 2 ^ 64 := by
  obtain ⟨q, he⟩ := State.finishMove_same (d := d) (g := g) hes hf
  have hplaced := fun k (hk : k < 32) => State.putLeaves_placed ht hh { s with quads := q } (s.leafGroup m.table) m.run hk
  have honly : LinesOnly s (({ s with quads := q } : State).putLeaves m.table (s.leafGroup m.table) m.run) :=
    (LinesOnly.of_quads s q).trans (State.putLeaves_only ..)
  generalize State.putLeaves _ _ _ _ = u at he hplaced honly
  have hdie : u.die d = s.die d := by unfold State.die; rw [honly.dies]
  refine ⟨_, he, ?_, fun k hk => ?_⟩
  · rw [State.stacker_modStacker (honly.dies ▸ hd) (hdie ▸ hg)]
    unfold State.stacker
    rw [hdie]
  · obtain ⟨ho, hl2⟩ := hplaced k hk
    refine State.Placed.coherent ⟨ho, hl2⟩ ?_
    have hline : lineOf (m.table + 8 * k) = m.table ∨ lineOf (m.table + 8 * k) = m.table + 128 := by unfold lineOf; omega
    have hq := (hf _ hline).quiet
    unfold State.quiet at hq ⊢
    rw [← hq, ← honly.homes, ← honly.msgs]
    rfl

/-- A move begins: a run is taken, and its entries are recorded. -/
theorem State.startMove_eq {s s1 s2 : State} {d g ctx va table : Nat} {bs : List Byte} (hd : d < 8) (hg : g < 8)
    (hfen : (s.die d).fenced = false) (hva : va % 0x20_0000 = 0) (hfr : (s.stacker d g).frbase ≠ (s.stacker d g).frlim)
    (hrl : (s.stacker d g).rlbase ≠ (s.stacker d g).rllim) (hpn : s.pnOnDie d + 1024 ≤ 8192) (hidx : s.idxOnDie d + 1024 ≤ 8192)
    (ht : s.leafPlace ctx va = some table) (hm : movable s.podid (d, g) (s.leafGroup table) = true)
    (hr : s.readPhys (s.stacker d g).frbase.toNat 8 = .ok (bs, s1))
    (h2 : s1.recordMirrors ((List.range 32).map fun k => mirrorEnt ctx (bitsOf (natOfBytes bs) 51 21 * 0x20_0000 + 0x1_0000 * k)
      (pteFrame ((s.leafGroup table).getD k 0))) = .ok s2) : s.startMove d g ctx va = some (s2.modStacker d g fun x =>
        { x with
          frbase := x.frbase + 8
          moves := x.moves ++ [{ ctx := ctx, va := va, run := bitsOf (natOfBytes bs) 51 21 * 0x20_0000, table := table
                                 expect := s.leafGroup table, done := false, frames := (s.leafGroup table).map pteFrame }] }) := by
  unfold State.startMove
  dsimp only
  rw [if_neg (by simp [hfen, hfr, hrl, hpn, hidx, runSize, hva]; omega), ht]
  dsimp only
  rw [if_neg (by simp [hm]), hr]
  dsimp only
  rw [show runSize = 0x20_0000 from rfl, h2]

/-- A move that has rewritten its lines resolves its first entry. -/
theorem State.releaseStep_resolves {s : State} {d g : Nat} {m : Move} (hm : (s.stacker d g).moves.find? (·.done) = some m)
    {e : PnEnt} {rest : List PnEnt} (he : s.mirrorsOf m.run = e :: rest) (hs : s.stuck e = false) (hst : e.st ≠ .resolving)
    (hq : ∀ l ∈ e.lines, s.quiet l = true) (ht : s.translated? e.lines = none) :
    s.releaseStep d g = some (s.resolveEntry e) := by
  have hmem : e ∈ s.pn := (List.mem_filter.1 (show e ∈ s.mirrorsOf m.run from he ▸ List.mem_cons_self)).1
  have hany : (s.pn.any (·.id == e.id)) = true := List.any_eq_true.2 ⟨e, hmem, beq_self_eq_true _⟩
  have hset : s.resolveSet [e] = .ok (s.resolveEntry e) := by
    unfold State.resolveSet
    dsimp only
    rw [if_neg (by simp [hs]), if_neg (by simpa [hst] using hq), List.flatMap_singleton, ht]
    exact congrArg Moved.ok (if_pos hany)
  unfold State.releaseStep
  rw [hm]
  dsimp only
  rw [he]
  dsimp only
  rw [hset]

/-- Once no entry is left, the old frames are released. -/
theorem State.releaseStep_frames {s s1 : State} {d g : Nat} {m : Move} (hm : (s.stacker d g).moves.find? (·.done) = some m)
    (he : s.mirrorsOf m.run = []) {fs : List Nat} (hr : s.releaseFrames d g m.frames = .ok (fs, s1)) : s.releaseStep d g =
      if fs = [] then some (s1.modStacker d g fun x => { x with moves := x.moves.erase m })
      else if fs = m.frames then none
      else some (s1.modStacker d g fun x => { x with moves := modWhere (· == m) (fun m => { m with frames := fs }) x.moves }) := by
  unfold State.releaseStep
  rw [hm]
  dsimp only
  rw [he]
  dsimp only
  rw [hr]
  cases fs with
  | nil => rfl
  | cons f fs => simp

end Sys2Proof.Machine

/-- Settles O48: the windows by what a write leaves of the window it reaches, the Stackers by the lines their moves rewrite. -/
theorem windowEvents : Obligations.WindowEvents := by
  unfold Obligations.WindowEvents
  intro s line x
  refine ⟨fun hx hw hr hl => ⟨?_, rfl, ?_, fun k e he => ⟨fun h => ?_, fun hm hst => ?_⟩⟩,
    fun die e hm hd hst hfirst hfree => ?_, fun off n hx hw hsp he => ?_, fun e he hst hw hlost ht => ?_,
    fun hx hw hr hl ht => ⟨?_, fun e ha hw hu => ?_⟩,
    fun d g ctx va hd hg hdl hgl => ⟨fun m hm hc hv htab hh hq => ⟨fun hes hres s1 h1 => ?_, fun hes hfree => ?_⟩,
      fun table bs s1 s2 hm hfen hva hfr hrl hpn hidx ht hmov hr h2 => ?_,
      fun m hm => ⟨fun e rest he hs hst hq ht => ?_, fun he fs s1 hr => ⟨fun hf => ?_, fun hf hne => ?_, fun hf heq => ?_⟩⟩⟩⟩
  · exact event_of_some (State.redirectStep_eq hx hw hr hl)
  · exact List.length_map _
  · rw [State.heatLine_pn he]
    rcases h with h | h
    · simp [h]
    · rw [PnEnt.heated_resolving _ h, ite_self]
  · rw [State.heatLine_pn he, if_pos hm, PnEnt.heated_eq _ hst]
  · exact event_of_some (State.hotStep_eq hm hd hst hfirst hfree)
  · exact event_of_some (State.antecedentStep_eq hx hw hsp he)
  · obtain ⟨t, he', hp, ho, hl2⟩ := State.resolutionStep_eq he hst hw hlost ht
    exact ⟨t, event_of_some he', hp, ho.eq, hl2⟩
  · exact event_of_some (State.destinationStep_eq hx hw hr hl ht)
  · have h : e.Over s line := ⟨ha, hw, hu⟩
    exact ⟨h.trim_l2?, h.trim_all, h.trim_lower, h.trim_upper, h.trim_split⟩
  · refine event_of_some ((State.moveStep_begun hm hc hv).trans ?_)
    exact State.finishMove_differs hq hes hres h1
  · obtain ⟨t, he, hst, hent⟩ := State.finishMove_entries hdl hgl htab hh hes fun l hl =>
      let ⟨held, windows, ante, mirror, clear⟩ := hfree l hl
      ⟨hq l hl, held, windows, ante, mirror, clear⟩
    exact ⟨t, event_of_some ((State.moveStep_begun hm hc hv).trans he), hst, hent⟩
  · refine event_of_some (Eq.trans ?_ (State.startMove_eq hd hg hfen hva hfr hrl hpn hidx ht hmov hr h2))
    unfold State.moveStep
    rw [hm]
  · exact event_of_some (State.releaseStep_resolves hm he hs hst hq ht)
  · exact event_of_some ((State.releaseStep_frames hm he hr).trans (if_pos hf))
  · exact event_of_some ((State.releaseStep_frames hm he hr).trans ((if_neg hf).trans (if_neg hne)))
  · exact event_of_none ((State.releaseStep_frames hm he hr).trans ((if_neg hf).trans (if_pos heq)))

end

/-!
PROOF. O55, LinkEvents, first part: a workgroup that a kill has reached stays killed, whatever kills follow.
-/

section
open Sys2Proof Sys2Proof.Machine
namespace Sys2Proof.Machine

/-- A workgroup is killed, and no queued record can take its handle again. -/
structure State.Killed (s : State) (h : Nat) : Prop where
  kill : ∃ w, s.wg? h = some w ∧ w.kill ≠ none
  queue : ∀ q ∈ s.queues.flatMap id, q.handle ≠ h

theorem foldl_setWg_dead (l : List Queued) (s : State) (h : Nat) :
    (∀ q ∈ l, q.handle ≠ h) ∧ (l.foldl (fun s q => s.setWg q.handle q.dead) s).wg? h = s.wg? h ∨
    ((l.foldl (fun s q => s.setWg q.handle q.dead) s).wg? h).isSome = true := by
  induction l generalizing s with
  | nil => exact .inl ⟨by simp, rfl⟩
  | cons q l ih =>
    rw [List.foldl_cons]
    rcases ih (s.setWg q.handle q.dead) with ⟨hl, he⟩ | hs
    · by_cases hq : q.handle = h
      · refine .inr ?_
        rw [he, ← hq]
        simp [State.wg?, State.setWg]
      · refine .inl ⟨List.forall_mem_cons.2 ⟨hq, hl⟩, ?_⟩
        rw [he, State.wg?_setWg_ne _ _ (Ne.symm hq)]
    · exact .inr hs

theorem foldl_setWg_queues (l : List Queued) (s : State) :
    (l.foldl (fun s q => s.setWg q.handle q.dead) s).queues = s.queues :=
  List.foldlRecOn (motive := fun t : State => t.queues = s.queues) l _ rfl fun _ h _ _ => h

theorem State.mem_unqueue {s : State} {k : Nat} {q : Queued} (hq : q ∈ (s.unqueue k).queues.flatMap id) :
    q ∈ s.queues.flatMap id ∧ q.handle ≠ k := by
  unfold State.unqueue at hq
  rw [foldl_setWg_queues] at hq
  simp only [List.flatMap_map, List.mem_flatMap, List.mem_filter, Bool.not_eq_true', Bool.or_eq_false_iff, beq_eq_false_iff_ne,
    id_eq] at hq ⊢
  obtain ⟨l, hl, hql, hk, -⟩ := hq
  exact ⟨⟨l, hl, hql⟩, hk⟩

/-- A workgroup stays in the table when queued records of its gang, or of any, leave their queues. -/
theorem State.unqueue_isSome {s : State} {h : Nat} (k : Nat) (hs : (s.wg? h).isSome = true) :
    ((s.unqueue k).wg? h).isSome = true := by
  rcases foldl_setWg_dead ((s.queues.flatMap id).filter fun q => q.handle == k || ((s.gangName k).2 != 0
      && q.launcher == (s.gangName k).1 && q.dead.gang == (s.gangName k).2)) _ h with ⟨-, he⟩ | hs'
  · exact (congrArg Option.isSome he).trans hs
  · exact hs'

theorem State.unqueue_wg?_of_unqueued {s : State} {h : Nat} (k : Nat) (hq : ∀ q ∈ s.queues.flatMap id, q.handle ≠ h) :
    (s.unqueue k).wg? h = s.wg? h := by
  refine (List.foldlRecOn (motive := fun t : State => t.wg? h = s.wg? h) _ _ rfl fun t ht q hm => ?_)
  rw [State.wg?_setWg_ne _ _ (Ne.symm (hq q (List.mem_filter.1 hm).1)), ht]

theorem foldl_killOne_queues (code : Nat) (l : List Nat) (s : State) :
    (l.foldl (fun s k => s.killOne code k) s).queues = s.queues :=
  List.foldlRecOn (motive := fun t : State => t.queues = s.queues) l _ rfl fun t h k _ =>
    (by unfold State.killOne State.modWg; split <;> rfl : (t.killOne code k).queues = t.queues).trans h

theorem State.mem_killWg {s : State} {k code : Nat} {q : Queued} (hq : q ∈ (s.killWg k code).queues.flatMap id) :
    q ∈ s.queues.flatMap id ∧ q.handle ≠ k := by
  unfold State.killWg at hq
  rw [foldl_killOne_queues] at hq
  exact State.mem_unqueue hq

theorem State.mem_gangOf {s : State} {h : Nat} {w : Workgroup} (hw : s.wg? h = some w) : h ∈ s.gangOf h := by
  unfold State.gangOf
  rw [hw]
  dsimp only
  split
  · exact List.mem_singleton_self h
  · exact List.mem_map.2 ⟨(h, w), List.mem_filter.2 ⟨find?_mem hw, by simp⟩, rfl⟩

theorem State.killWg_isSome {s : State} {h : Nat} (k code : Nat) (hs : (s.wg? h).isSome = true) :
    ((s.killWg k code).wg? h).isSome = true := by
  obtain ⟨w, hw⟩ := Option.isSome_iff_exists.1 (State.unqueue_isSome k hs)
  obtain ⟨w', hw', -⟩ := killFold code h ((s.unqueue k).gangOf k) _ w hw
  exact Option.isSome_iff_exists.2 ⟨w', hw'⟩

/-- The kill of a workgroup reaches it. -/
theorem State.killWg_killed {s : State} {h code : Nat} (hs : (s.wg? h).isSome = true) : (s.killWg h code).Killed h := by
  obtain ⟨w, hw⟩ := Option.isSome_iff_exists.1 (State.unqueue_isSome h hs)
  obtain ⟨w', hw', -, hk⟩ := killFold code h ((s.unqueue h).gangOf h) _ w hw
  refine ⟨⟨w', hw', ?_⟩, fun q hq => (State.mem_killWg hq).2⟩
  rw [(hk (State.mem_gangOf hw)).1]
  exact Option.some_ne_none _

/-- Further kills leave it killed. -/
theorem State.Killed.killWg {s : State} {h : Nat} (hk : s.Killed h) (k code : Nat) : (s.killWg k code).Killed h := by
  obtain ⟨⟨w, hw, hkill⟩, hq⟩ := hk
  rw [← State.unqueue_wg?_of_unqueued k hq] at hw
  obtain ⟨w', hw', he, -⟩ := killFold code h ((s.unqueue k).gangOf k) _ w hw
  refine ⟨⟨w', hw', ?_⟩, fun q hm => hq q (State.mem_killWg hm).1⟩
  rcases he with rfl | ⟨hk', -⟩
  · exact hkill
  · rw [hk']
    exact Option.some_ne_none _

theorem foldl_killWg_killed {h code : Nat} (l : List Nat) {s : State} (hs : (s.wg? h).isSome = true) :
    (h ∈ l ∨ s.Killed h) → (l.foldl (fun s k => s.killWg k code) s).Killed h := by
  induction l generalizing s with
  | nil => exact fun hl => hl.resolve_left List.not_mem_nil
  | cons k l ih =>
    intro hl
    refine ih (State.killWg_isSome k code hs) ?_
    rcases hl with hl | hk
    · rcases List.mem_cons.1 hl with rfl | hl
      · exact .inr (State.killWg_killed hs)
      · exact .inl hl
    · exact .inr (hk.killWg k code)

/-- The workgroups on cores that are gone are killed. -/
theorem State.killOn_killed {s : State} {gone : Nat → Bool} {h : Nat} {w : Workgroup} (hw : s.wg? h = some w)
    (hc : ∃ k ∈ w.cores, gone k.core = true) : (s.killOn gone).Killed h := by
  refine foldl_killWg_killed _ (by rw [hw]; rfl) (.inl ?_)
  exact List.mem_map.2 ⟨(h, w), List.mem_filter.2 ⟨find?_mem hw, List.any_eq_true.2 hc⟩, rfl⟩

theorem State.killOn_only (s : State) (gone : Nat → Bool) : GroupsOnly s (s.killOn gone) :=
  GroupsOnly.foldl (fun s h => s.killWg_only h _) _ _

end Sys2Proof.Machine
end

/-!
PROOF. O55, LinkEvents, second part: what homes forget of cores that are gone, and what the fencing of a core, a quad, a stack
and a die leaves.
-/

section
open Sys2Proof Sys2Proof.Machine
namespace Sys2Proof.Machine

/-! ### Homes forget cores -/

/-- No gone core owns what an entry without them tracks as owned. -/
theorem TrackEnt.without_owner {t : TrackEnt} {gone : Nat → Bool}
    (h : (t.without gone).st = .x ∨ (t.without gone).st = .o) : gone (t.without gone).owner = false := by
  grind [TrackEnt.without]

/-- No gone core is a sharer where sharers are exact. -/
theorem TrackEnt.without_sharers {t : TrackEnt} {gone : Nat → Bool} (hc : (t.without gone).coarse = false)
    (h : (t.without gone).st = .s) {c : Nat} (hm : c ∈ (t.without gone).sharers) : gone c = false := by
  grind [TrackEnt.without]

theorem State.settleHomes_of_none {s : State} (hh : s.homes = []) : s.settleHomes = s := by
  simp [State.settleHomes, hh]

/-- Where no home has a request in progress, homes forget cores and quads in their entries, their messages and their peers'
requests, and that is all. -/
theorem State.forget_of_noHomes {s : State} (hh : s.homes = []) (core quad : Nat → Bool) : ∃ s1, L2Only s s1 ∧
    s.forget core quad = { s1 with
      msgs := s1.msgs.filter fun m => !core m.core
      dir := s1.dir.map fun t => { t.without core with tshare := t.tshare.filter fun q => !quad q }
      homes := []
      peers := s1.peers.map fun p => (p.1, { p.2 with waiting := p.2.waiting.filter fun x => !core x.core }) } := by
  unfold State.forget
  dsimp only
  generalize hs1 : s.msgs.foldl _ s = s1
  have h1 : L2Only s s1 := by
    rw [← hs1]
    refine L2Only.foldl (fun s m => ?_) _ _
    split
    · split
      · exact s.putL2_only ..
      · exact .refl s
    · exact .refl s
  have hn : s1.homes = [] := h1.homes.trans hh
  refine ⟨s1, h1, ?_⟩
  rw [State.settleHomes_of_none (by rw [hn]; rfl), hn]
  rfl

/-! ### Lost lines and cut groups -/

theorem State.mem_markLost {s : State} {ls : List Nat} {l : Nat} (h : l ∈ ls) : l ∈ (s.markLost ls).lostLines := by
  by_cases hl : l ∈ s.lostLines
  · exact List.mem_append_left _ hl
  · exact List.mem_append_right _ (by simpa [hl] using h)

theorem State.cutGroups_kill {s : State} {gone : Nat → Bool} {h : Nat} (hk : s.Killed h) :
    ∃ w, (s.cutGroups gone).wg? h = some w ∧ w.kill ≠ none := by
  obtain ⟨w, hw, hkill⟩ := hk.kill
  have he := find?_map_snd (fun w : Workgroup => { w with groups := w.groups.map fun g =>
    (g.1, if gone g.2.core then { g.2 with ops := [], sb := [], ctrs := g.2.ctrs.map fun _ => 0 } else g.2) }) s.wgs h
  rw [show find? s.wgs h = some w from hw] at he
  exact ⟨_, he, hkill⟩

/-! ### The fencing of a core -/

/-- What a core that fails leaves, where no home has a request in progress. -/
structure Dropped (s : State) (c : Nat) (t : State) : Prop where
  homes : t.homes = []
  core : t.core c = { Core.empty with fenced := decide (8 ≤ dieOf c ∨ (s.die (dieOf c)).spares = 0) }
  lost : ∀ l ∈ s.dirtyOf c, l ∈ t.lostLines
  owner : ∀ e ∈ t.dir, (e.st = .x ∨ e.st = .o) → e.owner ≠ c
  sharers : ∀ e ∈ t.dir, e.coarse = false → e.st = .s → c ∉ e.sharers
  kill : ∀ h w, s.wg? h = some w → (∃ k ∈ w.cores, k.core = c) → ∃ w', t.wg? h = some w' ∧ w'.kill ≠ none

/-- A state without what a core did. -/
def State.withoutCore (s : State) (c : Nat) : State := ((s.killOn (· == c)).markLost (s.dirtyOf c)).cutGroups (· == c)

theorem State.withoutCore_kill {s : State} {c h : Nat} {w : Workgroup} (hw : s.wg? h = some w)
    (hc : ∃ k ∈ w.cores, k.core = c) : ∃ w', (s.withoutCore c).wg? h = some w' ∧ w'.kill ≠ none := by
  have hk : (s.killOn (· == c)).Killed h := State.killOn_killed hw (by simpa using hc)
  exact State.cutGroups_kill (s := (s.killOn (· == c)).markLost (s.dirtyOf c)) ⟨hk.kill, hk.queue⟩

theorem State.dropCore_dropped {s : State} (hh : s.homes = []) (c : Nat) : Dropped s c (s.dropCore c) := by
  have hk := s.killOn_only (· == c)
  have hkill := fun h w => State.withoutCore_kill (s := s) (c := c) (h := h) (w := w)
  have hlost : ∀ l ∈ s.dirtyOf c, l ∈ (s.withoutCore c).lostLines := fun l hl =>
    State.mem_markLost (s := s.killOn (· == c)) hl
  have hhomes : (s.withoutCore c).homes = [] := hk.homes.trans hh
  have hd : s.dropCore c = (((s.withoutCore c).setCore c
    { Core.empty with fenced := !(decide (dieOf c < 8) && (s.die (dieOf c)).spares != 0) }).modDie (dieOf c) fun x =>
      if (decide (dieOf c < 8) && (s.die (dieOf c)).spares != 0) = true then { x with spares := x.spares - 1 }
      else { x with notReplaced := min (x.notReplaced + 1) 255 }).forget (· == c) fun _ => false := rfl
  obtain ⟨s4, h4, he⟩ := State.forget_of_noHomes (s := ((s.withoutCore c).setCore c
    { Core.empty with fenced := !(decide (dieOf c < 8) && (s.die (dieOf c)).spares != 0) }).modDie (dieOf c) fun x =>
      if (decide (dieOf c < 8) && (s.die (dieOf c)).spares != 0) = true then { x with spares := x.spares - 1 }
      else { x with notReplaced := min (x.notReplaced + 1) 255 }) hhomes (· == c) fun _ => false
  rw [hd, he]
  refine ⟨rfl, ?_, fun l hl => ?_, fun e hm ho => ?_, fun e hm hc hs hmem => ?_, fun h w hw hc => ?_⟩
  · show look Core.empty s4.cores c = _
    rw [h4.cores, State.modDie_cores, State.setCore_cores, look_put_same]
    have hf : (!(decide (dieOf c < 8) && (s.die (dieOf c)).spares != 0)) = decide (8 ≤ dieOf c ∨ (s.die (dieOf c)).spares = 0) := by
      grind
    rw [hf]
  · exact h4.lostLines ▸ hlost l hl
  · obtain ⟨t, -, rfl⟩ := List.mem_map.1 hm
    simpa using TrackEnt.without_owner ho
  · obtain ⟨t, -, rfl⟩ := List.mem_map.1 hm
    simpa using TrackEnt.without_sharers hc hs hmem
  · show ∃ w', find? s4.wgs h = some w' ∧ w'.kill ≠ none
    rw [h4.wgs]
    exact hkill h w hw hc

theorem foldl_dropCore_noHomes {s : State} (hh : s.homes = []) (cs : List Nat) :
    (cs.foldl (fun s c => s.dropCore c) s).homes = [] :=
  List.foldlRecOn (motive := fun t : State => t.homes = []) cs _ hh fun _ h c _ => (State.dropCore_dropped h c).homes

/-! ### The fencing of a stack -/

theorem State.lostAccs_sameLoss (s : State) (as : List Acc) (c : Cause) (i : Nat) : SameLoss s (s.lostAccs as c i) := by
  have h := s.lostAccs_only as c i
  exact ⟨h.dies, h.lostLines, h.homes⟩

theorem State.refuse_sameLoss (s : State) (line die : Nat) (r : HomeReq) : SameLoss s (s.refuse line die r) := by
  unfold State.refuse
  split
  · exact ⟨rfl, rfl, rfl⟩
  · exact ⟨rfl, rfl, rfl⟩
  · exact ⟨rfl, rfl, rfl⟩
  · exact s.lostAccs_sameLoss ..

theorem State.foldl_sameLoss {α : Type} {f : State → α → State} (hf : ∀ s a, SameLoss s (f s a)) (l : List α) (s : State) :
    SameLoss s (l.foldl f s) :=
  List.foldlRecOn (motive := fun t => SameLoss s t) l f ⟨rfl, rfl, rfl⟩ fun t h a _ =>
    ⟨(hf t a).dies.trans h.dies, (hf t a).lostLines.trans h.lostLines, (hf t a).homes.trans h.homes⟩

theorem State.refuseLost_of_noHomes {s : State} (hh : s.homes = []) : ∃ ms, s.refuseLost = { s with msgs := ms, homes := [] } := by
  refine ⟨s.msgs.map fun m => match m.kind with
      | .grant .. => if s.isLost m.line then { m with kind := .refuse (homeDie m.line) } else m
      | _ => m, ?_⟩
  unfold State.refuseLost
  rw [hh]
  rfl

/-- What the refusal of lost lines leaves: the dies and the marks, and requests at lines that are not lost. -/
theorem State.refuseLost_facts (s : State) : s.refuseLost.dies = s.dies ∧ (∀ l, s.refuseLost.isLost l = s.isLost l)
    ∧ ∀ x ∈ s.refuseLost.homes, s.refuseLost.isLost x.line = false := by
  unfold State.refuseLost
  extract_lets ts s1
  have h := State.foldl_sameLoss (f := fun s t => (t.req :: t.queue).foldl (fun s r => s.refuse t.line (homeDie t.line) r) s)
    (fun s t => State.foldl_sameLoss (fun s r => s.refuse_sameLoss ..) _ s) ts s1
  refine ⟨h.dies, h.isLost, fun x hx => ?_⟩
  rw [h.isLost]
  rw [h.homes] at hx
  have hl : s.isLost x.line = false := by simpa using (List.mem_filter.1 hx).2
  exact hl

/-! ### The fencing of a die -/

/-- `t` has the homes, the workgroups and the queued records of `s`, and the same dies are fenced. -/
structure State.Surveyed (s t : State) : Prop where
  homes : t.homes = s.homes
  wgs : t.wgs = s.wgs
  queues : t.queues = s.queues
  fenced : ∀ d, (t.die d).fenced = (s.die d).fenced

namespace State.Surveyed
variable {s t u : State}

theorem refl (s : State) : Surveyed s s := ⟨rfl, rfl, rfl, fun _ => rfl⟩

theorem trans (h : Surveyed s t) (k : Surveyed t u) : Surveyed s u :=
  ⟨k.homes.trans h.homes, k.wgs.trans h.wgs, k.queues.trans h.queues, fun d => (k.fenced d).trans (h.fenced d)⟩

theorem of_l2 (h : L2Only s t) : Surveyed s t :=
  ⟨h.homes, h.wgs, h.queues, fun d => by unfold State.die; rw [h.dies]⟩

theorem of_cores (s : State) (c : SMap Core) : Surveyed s { s with cores := c } := ⟨rfl, rfl, rfl, fun _ => rfl⟩

theorem of_die (s : State) (d : Nat) {f : Die → Die} (hf : ∀ x, (f x).fenced = x.fenced) : Surveyed s (s.modDie d f) := by
  refine ⟨rfl, rfl, rfl, fun k => ?_⟩
  rw [State.die_modDie]
  split
  · exact hf _
  · rfl

theorem foldl {α : Type} {f : State → α → State} (hf : ∀ s a, Surveyed s (f s a)) (l : List α) (s : State) :
    Surveyed s (l.foldl f s) :=
  List.foldlRecOn (motive := fun t => Surveyed s t) l f (refl s) fun t h a _ => h.trans (hf t a)

end State.Surveyed

theorem State.takeBack_surveyed (s : State) (line : Nat) : Surveyed s (s.takeBack line) :=
  (Surveyed.of_l2 (s.saveOwner_only line)).trans (Surveyed.of_cores ..)

theorem State.pokeHome_surveyed (s : State) (a : Nat) (bs : List Byte) : Surveyed s (s.pokeHome a bs) := by
  unfold State.pokeHome
  generalize cutLines a bs (bs.length / 128 + 2) = ps
  refine Surveyed.foldl (fun s p => ?_) ps s
  exact (s.takeBack_surveyed p.1).trans (Surveyed.of_l2 (State.putL2_only ..))

theorem State.salvage_surveyed (s : State) (c : Nat) (l : L1Line) : Surveyed s (s.salvage c l) := by
  unfold State.salvage
  split
  · exact Surveyed.of_die s _ fun _ => rfl
  · rename_i d _
    have h := s.pokeHome_surveyed (s.die d).salvbase.toNat (salvageRecord s.tick c l)
    generalize s.pokeHome (s.die d).salvbase.toNat (salvageRecord s.tick c l) = t at h
    have hd : Surveyed t (t.modDie d fun x =>
        { x with salvbase := x.salvbase + 192, salvcnt := (x.salvcnt + 1) &&& 0xFFFFFFFF#64 }) := Surveyed.of_die t d fun _ => rfl
    exact (h.trans hd).trans (Surveyed.of_cores ..)

theorem State.scanCore_surveyed (s : State) (d c : Nat) : Surveyed s (s.scanCore d c) :=
  (Surveyed.of_cores s _).trans (Surveyed.foldl (fun s l => s.salvage_surveyed c l) _ _)

theorem foldl_setCore_core (l : List Nat) (f : Nat → Nat) (x : Core) (s : State) (c : Nat) :
    (l.foldl (fun s k => s.setCore (f k) x) s).core c = if c ∈ l.map f then x else s.core c := by
  induction l generalizing s with
  | nil => rfl
  | cons k l ih =>
    rw [List.foldl_cons, ih]
    have hk : (s.setCore (f k) x).core c = if c = f k then x else s.core c := look_put _ _ _ _ _
    grind

theorem foldl_setCore_surveyed (l : List Nat) (f : Nat → Nat) (x : Core) (s : State) :
    State.Surveyed s (l.foldl (fun s k => s.setCore (f k) x) s) :=
  State.Surveyed.foldl (fun s _ => State.Surveyed.of_cores s _) l s

end Sys2Proof.Machine
end

/-!
PROOF. O55, LinkEvents, third part: the fencing of a die, of a quad and of a port, and the flits of a frame.
-/

section
open Sys2Proof Sys2Proof.Machine
namespace Sys2Proof.Machine

/-! ### The fencing of a die -/

/-- A state whose die `d` is marked fenced and whose surviving cores have been scanned. -/
def State.scanned (s : State) (d : Nat) : State :=
  let k := (s.modDie d fun x => { x with fenced := true }).killOn fun c => dieOf c == d
  ((k.cores.map (·.1)).filter fun c => !(dieOf c == d)).foldl (fun s c => s.scanCore d c) k

/-- A state without what was homed on die `d`. -/
def State.unhomed (s : State) (d : Nat) : State :=
  { s with
    quads := s.quads.map fun e =>
      (e.1, if dieOf (4 * e.1) == d then { Quad.empty with fenced := true } else e.2.scan d (homeDie (s.descAddr 0)))
    dir := s.dir.filter fun t => homeDie t.base != d
    l2 := s.l2.filter fun l => homeDie l.line != d
    pn := s.pn.filter fun e => e.die != d }

/-- A state without what the cores of die `d` did. -/
def State.withoutDie (s : State) (d : Nat) : State :=
  (List.range 128).foldl (fun s k => s.setCore (128 * d + k) { Core.empty with fenced := true })
    (((s.unhomed d).markLost ((s.unhomed d).dir.flatMap (·.orphans fun c => dieOf c == d))).cutGroups fun c => dieOf c == d)

theorem State.fenceDieStep_eq {s : State} {d : Nat} (hd : d < 8) (hf : (s.die d).fenced = false) : s.fenceDieStep d =
    some (((s.scanned d).withoutDie d).refuseLost.forget (fun c => dieOf c == d) fun q => dieOf (4 * q) == d) := by
  unfold State.fenceDieStep
  rw [if_neg (by simp [hf, hd])]
  rfl

theorem State.scanned_fenced {s : State} {d : Nat} (hl : d < s.dies.length) : ((s.scanned d).die d).fenced = true := by
  have hk := (s.modDie d fun x => { x with fenced := true }).killOn_only fun c => dieOf c == d
  refine ((Surveyed.foldl (fun s c => s.scanCore_surveyed d c) _ _).fenced d).trans ?_
  have hdie : ∀ t u : State, t.dies = u.dies → t.die d = u.die d := fun t u h => by unfold State.die; rw [h]
  rw [hdie _ _ hk.dies, State.die_modDie, if_pos ⟨rfl, hl⟩]

theorem State.scanned_homes {s : State} {d : Nat} (hh : s.homes = []) : (s.scanned d).homes = [] :=
  (Surveyed.foldl (fun s c => s.scanCore_surveyed d c) _ _).homes.trans
    (((s.modDie d fun x => { x with fenced := true }).killOn_only fun c => dieOf c == d).homes.trans hh)

theorem State.scanned_killed {s : State} {d h : Nat} {w : Workgroup} (hw : s.wg? h = some w)
    (hc : ∃ k ∈ w.cores, dieOf k.core = d) : (s.scanned d).Killed h := by
  have hk : ((s.modDie d fun x => { x with fenced := true }).killOn fun c => dieOf c == d).Killed h :=
    State.killOn_killed hw (by simpa using hc)
  have hs : Surveyed ((s.modDie d fun x => { x with fenced := true }).killOn fun c => dieOf c == d) (s.scanned d) :=
    Surveyed.foldl (fun s c => s.scanCore_surveyed d c) _ _
  refine ⟨?_, ?_⟩
  · unfold State.wg?
    rw [hs.wgs]
    exact hk.kill
  · rw [hs.queues]
    exact hk.queue

theorem State.withoutDie_homes {s : State} {d : Nat} (hh : s.homes = []) : (s.withoutDie d).homes = [] :=
  (foldl_setCore_surveyed _ (fun k => 128 * d + k) _ _).homes.trans hh

theorem State.withoutDie_fenced (s : State) (d k : Nat) : ((s.withoutDie d).die k).fenced = (s.die k).fenced :=
  (foldl_setCore_surveyed _ (fun k => 128 * d + k) _ _).fenced k

theorem State.withoutDie_core {s : State} {d k : Nat} (hk : k < 128) :
    (s.withoutDie d).core (128 * d + k) = { Core.empty with fenced := true } := by
  unfold State.withoutDie
  rw [foldl_setCore_core _ (fun k => 128 * d + k), if_pos (List.mem_map.2 ⟨k, List.mem_range.2 hk, rfl⟩)]

theorem State.withoutDie_kill {s : State} {d h : Nat} (hk : s.Killed h) :
    ∃ w, (s.withoutDie d).wg? h = some w ∧ w.kill ≠ none := by
  unfold State.wg? State.withoutDie
  rw [(foldl_setCore_surveyed _ (fun k => 128 * d + k) _ _).wgs]
  exact State.cutGroups_kill (s := (s.unhomed d).markLost _) ⟨hk.kill, hk.queue⟩

theorem State.refuseLost_forget {s : State} (hh : s.homes = []) (core quad : Nat → Bool) :
    (s.refuseLost.forget core quad).dies = s.dies ∧ (s.refuseLost.forget core quad).cores = s.cores
      ∧ (s.refuseLost.forget core quad).wgs = s.wgs := by
  obtain ⟨ms, hr⟩ := State.refuseLost_of_noHomes hh
  rw [hr]
  obtain ⟨s1, h1, he⟩ := State.forget_of_noHomes (s := { s with msgs := ms, homes := [] }) rfl core quad
  rw [he]
  exact ⟨h1.dies, h1.cores, h1.wgs⟩

/-- What a die that fails leaves, where no home has a request in progress. -/
theorem State.fenceDie_facts {s : State} {d : Nat} (hh : s.homes = []) (hd : d < 8) (hl : d < s.dies.length)
    (hf : (s.die d).fenced = false) : ∃ t, s.fenceDieStep d = some t ∧ (t.die d).fenced = true
      ∧ (∀ k < 128, t.core (128 * d + k) = { Core.empty with fenced := true })
      ∧ ∀ h w, s.wg? h = some w → (∃ k ∈ w.cores, dieOf k.core = d) → ∃ w', t.wg? h = some w' ∧ w'.kill ≠ none := by
  refine ⟨_, State.fenceDieStep_eq hd hf, ?_⟩
  have hcore := fun k (hk : k < 128) => State.withoutDie_core (s := s.scanned d) (d := d) hk
  have hfen := (State.withoutDie_fenced (s.scanned d) d d).trans (State.scanned_fenced hl)
  have hkill := fun h w (hw : s.wg? h = some w) (hc : ∃ k ∈ w.cores, dieOf k.core = d) =>
    State.withoutDie_kill (d := d) (State.scanned_killed hw hc)
  have hhomes := State.withoutDie_homes (d := d) (State.scanned_homes (d := d) hh)
  generalize (s.scanned d).withoutDie d = w at hcore hfen hkill hhomes
  obtain ⟨hdies, hcores, hwgs⟩ := State.refuseLost_forget hhomes (fun c => dieOf c == d) fun q => dieOf (4 * q) == d
  generalize w.refuseLost.forget _ _ = t at hdies hcores hwgs
  refine ⟨?_, fun k hk => ?_, fun h x hx hc => ?_⟩
  · unfold State.die at hfen ⊢
    rw [hdies, hfen]
  · rw [← hcore k hk]
    unfold State.core
    rw [hcores]
  · unfold State.wg? at hkill ⊢
    rw [hwgs]
    exact hkill h x hx hc

theorem State.isLost_of_fenced {s : State} {l : Nat} (hl : isHbm l = true) (hf : (s.die (homeDie l)).fenced = true) :
    s.isLost l = true := by
  simp [State.isLost, State.dieLost, hl, hf]

theorem State.isLost_of_stackFenced {s : State} {l : Nat} (hl : isHbm l = true)
    (hf : ((s.die (homeDie l)).stackFenced[stackOf l]?).getD false = true) : s.isLost l = true := by
  simp [State.isLost, State.dieLost, hl, hf]

/-! ### The fencing of a stack and of a quad -/

theorem State.fenceStack_facts {s : State} {d k : Nat} (hd : d < 8) (hk : k < 2) (hl : d < s.dies.length)
    (hs : k < (s.die d).stackFenced.length) (hf : ((s.die d).stackFenced[k]?).getD false = false) :
    ∃ t, s.fenceStackStep d k = some t ∧ (t.die d).stackFenced = (s.die d).stackFenced.set k true
      ∧ (∀ l, isHbm l = true → homeDie l = d → stackOf l = k → t.isLost l = true)
      ∧ ∀ x ∈ t.homes, t.isLost x.line = false := by
  refine ⟨_, by unfold State.fenceStackStep; rw [if_neg (by simp [hf, hd, hk])], ?_⟩
  obtain ⟨hdies, -, hhomes⟩ :=
    State.refuseLost_facts (s.modDie d fun x => { x with stackFenced := modAt (fun _ => true) x.stackFenced k })
  generalize State.refuseLost _ = t at hdies hhomes
  have hst : (t.die d).stackFenced = (s.die d).stackFenced.set k true := by
    have : t.die d = (s.modDie d fun x => { x with stackFenced := modAt (fun _ => true) x.stackFenced k }).die d := by
      unfold State.die; rw [hdies]
    rw [this, State.die_modDie, if_pos ⟨rfl, hl⟩]
    exact List.set_eq_modAt ..
  refine ⟨hst, fun l hb hh hk' => ?_, hhomes⟩
  subst hh hk'
  refine State.isLost_of_stackFenced hb ?_
  rw [hst, List.getElem?_set_self hs]
  rfl

theorem State.fenceQuad_facts {s : State} {q : Nat} (hq : q < 260) (hc : ∃ c ∈ coresOfQuad q, (s.core c).fenced = false) :
    ∃ t, s.fenceQuadStep q = some t ∧ (s.homes = [] → t.quad q = { Quad.empty with fenced := (s.quad q).fenced }) := by
  have hne : ((coresOfQuad q).filter fun c => !(s.core c).fenced).isEmpty = false := by
    obtain ⟨c, hm, hf⟩ := hc
    rw [List.isEmpty_eq_false_iff]
    exact List.ne_nil_of_mem (List.mem_filter.2 ⟨hm, by simp [hf]⟩)
  unfold State.fenceQuadStep
  rw [if_neg (by simp [hne, hq])]
  refine ⟨_, rfl, fun hh => ?_⟩
  generalize hu : ((coresOfQuad q).filter fun c => !(s.core c).fenced).foldl (fun s c => s.dropCore c) s = u
  have hhu : u.homes = [] := hu ▸ foldl_dropCore_noHomes hh _
  obtain ⟨s1, h1, he⟩ := State.forget_of_noHomes (s := u.setQuad q { Quad.empty with fenced := (s.quad q).fenced }) hhu
    (fun _ => false) (· == q)
  rw [he]
  show look _ s1.quads q = _
  rw [h1.quads]
  exact look_put_same ..

end Sys2Proof.Machine
end

/-!
PROOF. O55, LinkEvents, fourth part: the flits of a frame, resends, ports, and the obligation.
-/

section
open Sys2Proof Sys2Proof.Machine
namespace Sys2Proof.Machine

/-! ### Flits and answers -/

theorem State.takeFlits_one (s : State) (peer seq : Nat) {f : Flit} (hf : ∀ n, f ≠ .ack n) : s.takeFlits peer seq [f] =
    if seq == (s.peer peer).nextRecv then (s.modPeer peer fun p => { p with nextRecv := p.nextRecv + 1 }).takeFlit peer f
    else s := by
  cases f
  case ack n => exact absurd rfl (hf n)
  all_goals rfl

theorem State.frameStep_drop {s : State} {port ethertype peer seq : Nat} {fs : List Flit} (hp : s.portUp port = true)
    (h : ethertype ≠ 0x88B6 ∨ fs = [] ∨ 16 < fs.length) : s.frameStep port ethertype peer seq fs =
      some (s.modPort port fun z => { z with dropped := z.dropped + 1 }) := by
  unfold State.frameStep
  rw [if_neg (by simp [hp]), if_pos (by simpa [or_assoc] using h)]

theorem State.frameStep_one {s : State} {port peer seq : Nat} {f : Flit} (hp : s.portUp port = true) :
    s.frameStep port 0x88B6 peer seq [f] = some (s.takeFlits peer seq [f]) := by
  unfold State.frameStep
  rw [if_neg (by simp [hp]), if_neg (by simp)]

/-- A frame with one ordered flit in its turn. -/
theorem State.frameStep_turn {s : State} {port peer seq : Nat} {f : Flit} (hp : s.portUp port = true)
    (hf : ∀ n, f ≠ .ack n) (hs : seq = (s.peer peer).nextRecv) : s.frameStep port 0x88B6 peer seq [f] =
      some ((s.modPeer peer fun p => { p with nextRecv := p.nextRecv + 1 }).takeFlit peer f) := by
  rw [State.frameStep_one hp, State.takeFlits_one _ _ _ hf, if_pos (by simpa using hs)]

@[simp] theorem State.peer_modPeer (s : State) (p : Nat) (f : Peer → Peer) : (s.modPeer p f).peer p = f (s.peer p) :=
  look_put_same ..

/-- The whole line that answers a leased load of a peer's line. -/
abbrev PeerAcc.whole (x : PeerAcc) (bs : List Byte) : Prop :=
  (∀ a ∈ x.accs, a.isLoad = true) ∧ x.lease ≠ 0 ∧ bs.length = 128

theorem PeerAcc.whole_iff (x : PeerAcc) (bs : List Byte) :
    (x.accs.all (·.isLoad) && x.lease != 0 && bs.length == 128) = decide (x.whole bs) := by
  rw [Bool.eq_iff_iff]
  simp [PeerAcc.whole, and_assoc]

/-- An answer that is no whole line performs the accesses with the bytes that came. -/
theorem State.peerAnswer_part {s : State} {peer tag : Nat} {x : PeerAcc} {bs : List Byte} (n : Nat)
    (hx : (s.peer peer).waiting.find? (·.tag == tag) = some x) (hw : ¬x.whole bs) : s.peerAnswer peer tag bs n =
      ((s.modPeer peer fun p => { p with waiting := p.waiting.filter (·.tag != tag) }).performAll
        (Row.putBytes 0 ((x.accs.head?.map (·.off)).getD 0) bs) (.later (upTick s.cycle)) x.accs).2 := by
  unfold State.peerAnswer
  rw [hx]
  dsimp only
  rw [x.whole_iff, decide_eq_false hw]
  split <;> rfl

/-- A whole line performs them, and enters the L1 where its translation stands. -/
theorem State.peerAnswer_whole {s : State} {peer tag : Nat} {x : PeerAcc} {bs : List Byte} {tr : Trans} (n : Nat)
    (hx : (s.peer peer).waiting.find? (·.tag == tag) = some x) (hw : x.whole bs) (ht : x.tr = some tr) :
    s.peerAnswer peer tag bs n =
      let s3 := ((s.modPeer peer fun p => { p with waiting := p.waiting.filter (·.tag != tag) }).performAll
        (Row.ofBytes bs) (.later (upTick s.cycle)) x.accs).2
      if s3.transGone x.core tr then s3
      else (s3.dropSynonyms x.core x.ctx x.vline x.line).fillL1 x.core
        { ctx := x.ctx, vline := x.vline, line := x.line, st := .lse, data := Row.ofBytes bs, tr := tr
          stamp := peerStamp x.sentAt n, lastStore := 0 } := by
  unfold State.peerAnswer
  rw [hx]
  dsimp only
  rw [x.whole_iff, decide_eq_true hw, ht]
  rfl

/-! ### Places in an L1 -/

@[simp] theorem State.core_modCore (s : State) (c : Nat) (f : Core → Core) : (s.modCore c f).core c = f (s.core c) :=
  look_put_same ..

theorem State.core_modCore_ne (s : State) {c k : Nat} (f : Core → Core) (h : k ≠ c) : (s.modCore c f).core k = s.core k :=
  look_put_ne _ _ _ h

/-- A core that has lost some lines of its L1 and has the same lines on their way. -/
def Core.Fewer (c d : Core) : Prop := d.l1d.Sublist c.l1d ∧ d.misses = c.misses

theorem State.dropSynonyms_fewer (s : State) (core ctx vline line k : Nat) :
    (s.core k).Fewer ((s.dropSynonyms core ctx vline line).core k) := by
  refine List.foldlRecOn (motive := fun t : State => (s.core k).Fewer (t.core k)) _ _ ⟨List.Sublist.refl _, rfl⟩
    fun t ht x _ => ?_
  have hu : (if x.2.st == .m || x.2.st == .o then t.putL2 line x.2.data true else t).core k = t.core k := by
    split
    · unfold State.core
      rw [(t.putL2_only ..).cores]
    · rfl
  dsimp only
  by_cases hk : k = x.1
  · subst hk
    rw [State.core_modCore, hu]
    exact ⟨List.filter_sublist.trans ht.1, ht.2⟩
  · rw [State.core_modCore_ne _ _ hk, hu]
    exact ht

/-- A set with a way for a line has it still when its core has lost lines. -/
theorem Core.Fewer.hasWay {c d : Core} (h : c.Fewer d) {ctx vline : Nat} (hw : c.hasWay ctx vline) : d.hasWay ctx vline := by
  unfold Core.hasWay at hw ⊢
  rw [h.2]
  exact Nat.lt_of_le_of_lt (Nat.add_le_add_right (h.1.filter _).length_le _) hw

theorem Core.setUse_lt_of_hasWay {c : Core} {ctx vline : Nat} (hw : c.hasWay ctx vline) :
    ({ c with l1d := c.l1d.filter fun k => !(k.ctx == ctx && k.vline == vline) } : Core).setUse vline < 8 := by
  unfold Core.hasWay at hw
  unfold Core.setUse
  refine Nat.lt_of_le_of_lt (Nat.add_le_add ?_ ?_) hw
  · simp only [List.filter_filter]
    exact le_rfl
  · refine (List.monotone_filter_right _ fun m hm => ?_).length_le
    exact (Bool.and_eq_true_iff.1 hm).1

/-- A line enters an L1 whose set has a way for it. -/
theorem State.mem_fillL1 {s : State} {c : Nat} {l : L1Line} (hw : (s.core c).hasWay l.ctx l.vline) :
    l ∈ ((s.fillL1 c l).core c).l1d := by
  unfold State.fillL1
  dsimp only
  have hp : (s.modCore c fun c => { c with l1d := c.l1d.filter fun k => !(k.ctx == l.ctx && k.vline == l.vline) }).placeFor
      c l.ctx l.vline = some (s.modCore c fun c =>
        { c with l1d := c.l1d.filter fun k => !(k.ctx == l.ctx && k.vline == l.vline) }) := by
    unfold State.placeFor
    rw [State.core_modCore]
    exact if_pos (Bool.or_eq_true_iff.2 (.inr (decide_eq_true (Core.setUse_lt_of_hasWay hw))))
  rw [hp]
  dsimp only
  rw [State.core_modCore]
  exact List.mem_append_right _ (List.mem_singleton_self l)

/-- A whole line whose set has a way enters the L1 with its stamp. -/
theorem State.peerAnswer_fills {s : State} {peer tag : Nat} {x : PeerAcc} {bs : List Byte} {tr : Trans} (n : Nat)
    (hx : (s.peer peer).waiting.find? (·.tag == tag) = some x) (hw : x.whole bs) (ht : x.tr = some tr) :
    let s3 := ((s.modPeer peer fun p => { p with waiting := p.waiting.filter (·.tag != tag) }).performAll
        (Row.ofBytes bs) (.later (upTick s.cycle)) x.accs).2
    s3.transGone x.core tr = false → (s3.core x.core).hasWay x.ctx x.vline →
      ∃ l ∈ ((s.peerAnswer peer tag bs n).core x.core).l1d, l.line = x.line ∧ l.ctx = x.ctx ∧ l.vline = x.vline
        ∧ l.st = .lse ∧ l.data = Row.ofBytes bs ∧ l.stamp = stampOf (x.sentAt + n - n / 4096) := by
  intro s3 hg hway
  rw [State.peerAnswer_whole n hx hw ht]
  dsimp only
  rw [if_neg (by rw [hg]; exact Bool.false_ne_true)]
  exact ⟨_, State.mem_fillL1 ((s3.dropSynonyms_fewer ..).hasWay hway), rfl, rfl, rfl, rfl, rfl, rfl⟩

/-! ### Ports -/

theorem Option.any_map_of_eq {α : Type} {p : α → Bool} {f : α → α} (h : ∀ a, p (f a) = p a) (o : Option α) :
    (o.map f).any p = o.any p := by
  cases o with
  | none => rfl
  | some a => exact h a

theorem State.any_modPort {s : State} {j k : Nat} {f : ZPort → ZPort} {p : ZPort → Bool} (hf : ∀ z, p (f z) = p z) :
    ((s.modPort j f).zports[k]?).any p = (s.zports[k]?).any p := by
  unfold State.modPort
  rw [modAt_getElem?]
  split
  · exact Option.any_map_of_eq hf _
  · rfl

/-- `t` is `s` but for its ports' counts. -/
structure State.PortCounts (s t : State) : Prop where
  eq : t = { s with zports := t.zports }
  up : ∀ k, t.portUp k = s.portUp k
  fenced : ∀ k : Nat, (t.zports[k]?).any (fun z : ZPort => z.fenced) = (s.zports[k]?).any (fun z : ZPort => z.fenced)

theorem State.foldl_resent (l : List Nat) (s : State) :
    PortCounts s (l.foldl (fun s j => s.modPort j fun z => { z with resent := z.resent + 1 }) s) := by
  refine List.foldlRecOn (motive := fun t => PortCounts s t) l _ ⟨rfl, fun _ => rfl, fun _ => rfl⟩ fun t h j _ => ?_
  refine ⟨?_, fun k => ?_, fun k => ?_⟩
  · exact congrArg (fun u : State => { u with zports := (t.modPort j fun z => { z with resent := z.resent + 1 }).zports }) h.eq
  · rw [← h.up k]
    exact State.any_modPort fun _ => rfl
  · rw [← h.fenced k]
    exact State.any_modPort fun _ => rfl

/-- A port that is fenced, without its flits. -/
def State.fencedPort (s : State) (port : Nat) : State := s.modPort port fun z => { z with up := false, fenced := true }

theorem State.fencedPort_up {s : State} {port : Nat} {z : ZPort} (hz : s.zports[port]? = some z) :
    (s.fencedPort port).portUp port = false ∧ ((s.fencedPort port).zports[port]?).any (fun z : ZPort => z.fenced) = true
      ∧ ∀ j, j ≠ port → (s.fencedPort port).portUp j = s.portUp j := by
  unfold State.portUp State.fencedPort State.modPort
  refine ⟨?_, ?_, fun j hj => ?_⟩ <;> dsimp only <;> rw [modAt_getElem?]
  · simp [hz]
  · simp [hz]
  · rw [if_neg hj]

/-- The port that takes a peer's flits. -/
def viaPort (ups : List Nat) (peer : Nat) : Nat := ups.getD (peer % ups.length) 0

theorem viaPort_mem {ups : List Nat} (h : ups ≠ []) (peer : Nat) : viaPort ups peer ∈ ups := by
  have hl : peer % ups.length < ups.length := Nat.mod_lt _ (List.length_pos_iff.2 h)
  rw [viaPort, List.getD_eq_getElem _ _ hl]
  exact List.getElem_mem hl

/-- A peer whose flits of a port go again on another. -/
def Peer.resent (p : Peer) (port via tick : Nat) : Peer :=
  { p with unacked := modWhere (·.port == port) (fun x => { x with port := via, tick := tick }) p.unacked }

theorem Peer.mem_resent {p : Peer} {port via tick : Nat} {x : Sent} (h : x ∈ (p.resent port via tick).unacked) :
    (x ∈ p.unacked ∧ x.port ≠ port) ∨ (x.port = via ∧ x.tick = tick) := by
  obtain ⟨y, hy, rfl⟩ := List.mem_map.1 h
  split
  · exact .inr ⟨rfl, rfl⟩
  · rename_i hp
    exact .inl ⟨hy, by simpa using hp⟩

theorem mem_unacked_resent {ps : SMap Peer} {port tick p : Nat} {via : Nat → Nat} {x : Sent}
    (h : x ∈ (look Peer.empty (ps.map fun p => (p.1, p.2.resent port (via p.1) tick)) p).unacked) :
    (x ∈ (look Peer.empty ps p).unacked ∧ x.port ≠ port) ∨ ((∃ k, x.port = via k) ∧ x.tick = tick) := by
  induction ps with
  | nil => exact absurd h List.not_mem_nil
  | cons e l ih =>
    simp only [List.map_cons, look] at h ⊢
    split
    · rename_i he
      rw [if_pos he] at h
      exact (Peer.mem_resent h).imp_right fun hx => ⟨⟨_, hx.1⟩, hx.2⟩
    · rename_i he
      rw [if_neg he] at h
      exact ih h

theorem State.fencePortStep_eq {s : State} {port : Nat} {z : ZPort} (hz : s.zports[port]? = some z) (hf : z.fenced = false) :
    let ups := (List.range 8).filter (s.fencedPort port).portUp
    let moved := s.peers.flatMap fun p => (p.2.unacked.filter (·.port == port)).map fun _ => viaPort ups p.1
    s.fencePortStep port = if ups.isEmpty then some (s.fencedPort port) else
      some (moved.foldl (fun s j => s.modPort j fun z => { z with resent := z.resent + 1 })
        { s.fencedPort port with peers := s.peers.map fun p => (p.1, p.2.resent port (viaPort ups p.1) s.tick) }) := by
  unfold State.fencePortStep
  rw [hz]
  dsimp only
  rw [hf]
  rfl

theorem State.fencePort_facts {s : State} {port : Nat} {z : ZPort} (hz : s.zports[port]? = some z) (hf : z.fenced = false) :
    ∃ t, s.fencePortStep port = some t ∧ t = { s with zports := t.zports, peers := t.peers } ∧ t.portUp port = false
      ∧ ((t.zports[port]?).any (fun z : ZPort => z.fenced) = true)
      ∧ ((∃ j < 8, j ≠ port ∧ s.portUp j = true) → ∀ p x, x ∈ (t.peer p).unacked →
        x.port ≠ port ∧ (x ∈ (s.peer p).unacked ∨ (t.portUp x.port = true ∧ x.tick = s.tick))) := by
  obtain ⟨hdown, hfen, hother⟩ := State.fencedPort_up hz
  have he := State.fencePortStep_eq hz hf
  dsimp only at he
  generalize hups : (List.range 8).filter (s.fencedPort port).portUp = ups at he
  by_cases hu : ups = []
  · rw [he, if_pos (by simp [hu])]
    refine ⟨_, rfl, rfl, hdown, hfen, ?_⟩
    rintro ⟨j, hj, hne, hup⟩
    have hm : j ∈ ups := by rw [← hups]; simp [hj, hother j hne, hup]
    exact absurd (hu ▸ hm) List.not_mem_nil
  · rw [he, if_neg (by simpa using hu)]
    have hc := State.foldl_resent (s.peers.flatMap fun p => (p.2.unacked.filter (·.port == port)).map fun _ => viaPort ups p.1)
      { s.fencedPort port with peers := s.peers.map fun p => (p.1, p.2.resent port (viaPort ups p.1) s.tick) }
    generalize List.foldl _ _ _ = t at hc
    refine ⟨t, rfl, ?_, (hc.up port).trans hdown, (hc.fenced port).trans hfen, fun _ p x hx => ?_⟩
    · rw [hc.eq]
      rfl
    · unfold State.peer at hx
      rw [hc.eq] at hx
      rcases mem_unacked_resent hx with ⟨hm, hp⟩ | ⟨⟨k, hk⟩, ht⟩
      · exact ⟨hp, .inl hm⟩
      · have hv : x.port ∈ ups := hk ▸ viaPort_mem hu k
        rw [← hups, List.mem_filter] at hv
        refine ⟨fun h => ?_, .inr ⟨(hc.up _).trans hv.2, ht⟩⟩
        rw [h, hdown] at hv
        exact Bool.false_ne_true hv.2

end Sys2Proof.Machine

/-- Settles O55: frames by the kinds of their one flit; fencing by what a home forgets of cores that are gone and by the
marks of lines, dies and stacks that are lost. -/
theorem linkEvents : Obligations.LinkEvents := by
  unfold Obligations.LinkEvents
  intro s
  refine ⟨fun port ethertype peer seq fs hp => ⟨fun h => ?_, fun hE hs => ⟨fun ws hfs => ?_, fun tag x hx => ⟨fun hfs => ?_,
      fun bs n hfs => ⟨fun hw => ?_, fun tr hw ht => ⟨fun hg => ?_, fun hg hway => ?_⟩⟩⟩⟩,
      fun f hE hfs hf => ⟨fun hs => ?_, fun hs => ?_⟩, fun n hE hfs => ?_, fun x hx => ⟨fun ht => ?_, fun ht => ?_⟩⟩,
    fun peer hu ha ht => ?_, fun port z hz hf => ⟨fun hup => ?_, ?_⟩, fun c hc hf => ?_, fun q hq hc => ?_,
    fun d k hd hk hl hs hf => ?_, fun d hd hl hf => ?_⟩
  · exact congrArg (event _) (State.frameStep_drop hp h)
  · subst hE hfs
    exact congrArg (event _) (State.frameStep_turn hp (by simp) hs)
  · subst hE hfs
    refine (congrArg (event _) (State.frameStep_turn hp (by simp) hs)).trans (congrArg Host.Outcome.next ?_)
    show State.peerRefusal _ peer tag = _
    unfold State.peerRefusal
    rw [State.peer_modPeer]
    dsimp only
    rw [hx]
  · subst hE hfs
    refine (congrArg (event _) (State.frameStep_turn hp (by simp) hs)).trans (congrArg Host.Outcome.next ?_)
    exact State.peerAnswer_part n (by rw [State.peer_modPeer]; exact hx) hw
  · subst hE hfs
    refine (congrArg (event _) (State.frameStep_turn hp (by simp) hs)).trans (congrArg Host.Outcome.next ?_)
    refine (State.peerAnswer_whole n (by rw [State.peer_modPeer]; exact hx) hw ht).trans ?_
    exact if_pos hg
  · subst hE hfs
    refine ⟨_, congrArg (event _) (State.frameStep_turn hp (by simp) hs), ?_⟩
    exact State.peerAnswer_fills n (by rw [State.peer_modPeer]; exact hx) hw ht hg hway
  · subst hE hfs
    exact congrArg (event _) (State.frameStep_turn hp hf hs)
  · subst hE hfs
    refine (congrArg (event _) (State.frameStep_one hp)).trans (congrArg Host.Outcome.next ?_)
    rw [State.takeFlits_one _ _ _ hf, if_neg (by simpa using hs)]
  · subst hE hfs
    exact congrArg (event _) (State.frameStep_one hp)
  · refine event_of_some ?_
    unfold State.resendStep
    rw [hx]
    dsimp only
    rw [if_neg (by simp [hp, ht])]
  · refine event_of_none ?_
    unfold State.resendStep
    rw [hx]
    dsimp only
    rw [if_pos (by simp [ht])]
  · refine event_of_some ?_
    unfold State.unreachableStep
    dsimp only
    rw [if_neg (by simp [hu, ha, ht])]
    rfl
  · refine event_of_some ?_
    unfold State.linkStep
    rw [hz]
    dsimp only
    rw [if_neg (by simp [hup, hf])]
  · obtain ⟨t, he, hfacts⟩ := State.fencePort_facts hz hf
    exact ⟨t, congrArg (event _) he, hfacts⟩
  · refine ⟨s.dropCore c, event_of_some ?_, fun hh => ?_⟩
    · unfold State.fenceCoreStep
      rw [if_neg (by simp [hf, hc])]
    · have h := State.dropCore_dropped hh c
      refine ⟨h.core, fun l hl hst => h.lost _ ?_, fun e he => ⟨h.owner e he, h.sharers e he⟩, h.kill⟩
      exact List.mem_map.2 ⟨l, List.mem_filter.2 ⟨hl, by simpa using hst⟩, rfl⟩
  · obtain ⟨t, he, hfacts⟩ := State.fenceQuad_facts hq hc
    exact ⟨t, congrArg (event _) he, hfacts⟩
  · obtain ⟨t, he, hfacts⟩ := State.fenceStack_facts hd hk hl hs hf
    exact ⟨t, congrArg (event _) he, hfacts⟩
  · by_cases hh : s.homes = []
    · obtain ⟨t, he, hfen, hcores, hkill⟩ := State.fenceDie_facts hh hd hl hf
      refine ⟨t, congrArg (event _) he, fun _ => ⟨hfen, fun l hb hdl => State.isLost_of_fenced hb ?_, hcores, hkill⟩⟩
      rw [hdl, hfen]
    · exact ⟨_, congrArg (event _) (State.fenceDieStep_eq hd hf), fun h => absurd h hh⟩

end

/-!
PROOF. O41, SequenceInstructions: the end of a token instruction's reading of its records, and the place that its operation
takes at the home of its descriptor.
-/

section
open Sys2Proof Sys2Proof.Machine
namespace Sys2Proof.Machine

/-! ### How a token instruction's reading ends -/

/-- A record out of its alignment: the cause of every instruction but KVLD, which faults in its active lanes (R360). -/
theorem Iss.tokEnd_misaligned {α : Type} {x : Iss} {i : Instr} {rec_ : Nat} (m : TokM α) (go : α → State → Res)
    (hi : ∀ c isV fromEnd k d a b, i ≠ .kvld c isV fromEnd k d a b) (ha : rec_ % 64 ≠ 0) :
    x.tokEnd i rec_ m go = .trap { cls := .group, cause := .align, faddr := rec_, p31 := x.m } := by
  unfold Iss.tokEnd
  extract_lets raised
  have hraised : raised .align 0 rec_ = { cls := .group, cause := .align, faddr := rec_, p31 := x.m } := by
    dsimp only [raised]
    split
    · exact absurd rfl (hi _ _ _ _ _ _ _)
    · rfl
  rw [if_pos (by simpa using ha), hraised]

/-- An aligned record whose reading succeeds leads on. -/
theorem Iss.tokEnd_read {α : Type} {x : Iss} {i : Instr} {rec_ : Nat} {m : TokM α} {go : α → State → Res} {a : α} {s1 : State}
    (ha : rec_ % 64 = 0) (hm : m.run x.s = .ok (a, s1)) : x.tokEnd i rec_ m go = go a s1 := by
  unfold Iss.tokEnd
  extract_lets raised
  rw [if_neg (by simpa using ha), hm]

/-! ### The place at the home of a descriptor -/

/-- The operation of a token instruction that changes a sequence. -/
def Iss.tokenOp (x : Iss) (i : Instr) (p : TokPlan) : Op :=
  { x.newOp i (x.dstRegs i) with
    todo := 1, fin := false, segs := p.op.src ++ p.op.rows ++ p.used.map (·.seg 0)
    leafs := (p.used.flatMap (·.via)).eraseDups }

/-- Once its pages are used, it is entered, and its change waits at the home. -/
theorem Iss.token_planned {x : Iss} {i : Instr} {rec_ : Nat} {m : TokM TokPlan} {p : TokPlan} {s1 s2 : State}
    (ha : rec_ % 64 = 0) (hm : m.run x.s = .ok (p, s1))
    (hu : s1.useCopy x.gr.core (p.written.map (·.tr)) (p.used.map (·.tr)) = .ok s2) :
    let t := ({ x with s := s2 } : Iss).launchOp i (x.tokenOp i p)
    x.token i rec_ m = .state { t with tokenQ := t.tokenQ ++ [{ p.op with
      wg := x.h, g := x.g, seq := (x.tokenOp i p).seq, core := x.gr.core, ctx := x.w.ctx, sup := x.gr.sup }] } := by
  unfold Iss.token
  rw [Iss.tokEnd_read ha hm]
  dsimp only
  rw [hu]
  rfl

/-- An instruction with a plan is no KVLD. -/
theorem tokenPlan_ne_kvld {x : Iss} {i : Instr} {q : Nat × TokM TokPlan} (hp : tokenPlan x i = some q) :
    ∀ c isV fromEnd k d a b, i ≠ .kvld c isV fromEnd k d a b := by
  rintro c isV fromEnd k d a b rfl
  cases hp

/-- It executes its plan. -/
theorem Ready.planned {s : State} {i : Instr} {x : Iss} {rec_ : Nat} {m : TokM TokPlan} (h : Ready s i x)
    (hp : tokenPlan x i = some (rec_, m)) : exec i s = x.finish i (x.token i rec_ m) := by
  unfold tokenPlan at hp
  split at hp
  case h_8 => cases hp
  all_goals
    obtain ⟨rfl, rfl⟩ := Prod.mk.inj (Option.some.inj hp)
    exact exec_of h rfl

end Sys2Proof.Machine

/-- Settles O41: a record out of its alignment is refused before it is read; a plan whose pages are used is entered as an
operation and put behind those that wait already. -/
theorem sequenceInstructions : Obligations.SequenceInstructions := by
  unfold Obligations.SequenceInstructions
  intro s i x rec_ m _ h hp
  have hexec := h.planned hp
  obtain ⟨hs, -, -, hap, hpath⟩ := h.facts
  refine ⟨fun ha => ?_, fun p s1 s2 ha hm hu => ?_⟩
  · rw [hexec, Iss.token, Iss.tokEnd_misaligned _ _ (tokenPlan_ne_kvld hp) ha, Iss.finish, hs]
  · obtain ⟨gr, hst, hent, hbeh⟩ := Iss.launchOp_enters (x := { x with s := s2 }) (i := i) (o := x.tokenOp i p)
      ⟨rfl, rfl, rfl, rfl, rfl, rfl, rfl, rfl, rfl⟩ hap hpath
    refine ⟨gr, x.tokenOp i p, hent.of_state, hbeh, rfl, rfl, rfl, ?_⟩
    rw [hexec, Iss.token_planned ha (hs.symm ▸ hm) hu, hst, Iss.finish, State.setGroup_tokenQ]

end

/-!
PROOF. O42, TokenReads, first part: the reading of records leaves every workgroup as it was.
-/

section
open Sys2Proof Sys2Proof.Machine
namespace Sys2Proof.Machine

/-- A reading of records that succeeds leaves the workgroups alone. -/
def TokM.LeavesGroups {α : Type} (m : TokM α) : Prop := ∀ s a t, m.run s = .ok (a, t) → t.wgs = s.wgs

/-! ### Sequences of readings -/

namespace TokM.LeavesGroups
variable {α β : Type} {m n : TokM α} {f : α → TokM β}

theorem pure (a : α) : LeavesGroups (Pure.pure a : TokM α) := by
  rintro s b t ⟨⟩
  rfl

theorem throw (e : TokErr) : LeavesGroups (MonadExcept.throw e : TokM α) := by
  rintro s b t ⟨⟩

theorem get : LeavesGroups (MonadState.get : TokM State) := by
  rintro s b t ⟨⟩
  rfl

theorem bind (hm : m.LeavesGroups) (hf : ∀ a, (f a).LeavesGroups) : LeavesGroups (m >>= f) := by
  intro s b t e
  rw [StateT.run_bind] at e
  cases hr : m.run s with
  | error x => rw [hr] at e; cases e
  | ok p =>
    rw [hr] at e
    exact (hf p.1 p.2 b t e).trans (hm s p.1 p.2 hr)

theorem ite {c : Prop} [Decidable c] (hm : m.LeavesGroups) (hn : n.LeavesGroups) : LeavesGroups (if c then m else n) := by
  split
  · exact hm
  · exact hn

end TokM.LeavesGroups

/-! ### Bytes -/

theorem State.readLine_wgs {s t : State} {line : Nat} {row : Row} (h : s.readLine line = .ok (row, t)) : t.wgs = s.wgs := by
  unfold State.readLine at h
  split at h
  · cases h; rfl
  split at h
  · cases h
  split at h
  · cases h
  split at h
  · cases h; rfl
  split at h
  · cases h; exact (s.putL2_only ..).wgs
  split at h
  · cases h
  · cases h; rfl

theorem State.readPhys_wgs {s t : State} {a n : Nat} {bs : List Byte} (h : s.readPhys a n = .ok (bs, t)) : t.wgs = s.wgs := by
  refine foldl_ends (ok := Coll.ok) (R := fun p q : List Byte × State => q.2.wgs = p.2.wgs) (fun _ => rfl)
    (fun h k => k.trans h) (fun {r c q} hr => ?_) Coll.ok.inj _ h
  cases r with
  | busy b => cases hr
  | lost => cases hr
  | ok p =>
    refine ⟨p, rfl, ?_⟩
    dsimp only at hr
    split at hr
    · cases hr; exact State.readLine_wgs ‹_›
    · cases hr
    · cases hr

theorem State.readPieces_wgs {ps : List Piece} {s t : State} {bs : List Byte} (h : s.readPieces ps = .ok (bs, t)) :
    t.wgs = s.wgs := by
  induction ps generalizing s t bs with
  | nil => cases h; rfl
  | cons p ps ih =>
    unfold State.readPieces at h
    cases hp : s.readPhys p.pa p.n with
    | busy r => rw [hp] at h; cases r <;> cases h
    | lost => rw [hp] at h; cases h
    | ok u =>
      rw [hp] at h
      dsimp only at h
      cases hr : u.2.readPieces ps with
      | ok v => rw [hr] at h; cases h; exact (ih hr).trans (State.readPhys_wgs hp)
      | _ => rw [hr] at h; cases h

theorem State.usePieces_wgs {s t : State} {core : Nat} {wr : Bool} {ps : List Piece} (h : s.usePieces core wr ps = .ok t) :
    t.wgs = s.wgs := by
  unfold State.usePieces at h
  split at h
  · cases h; exact (State.useAll_only ‹_›).wgs
  · exact absurd h (VRes.waits_ne_ok _ _)

/-! ### Records -/

section
open TokM.LeavesGroups
variable {c : Who} {a : TokArr} {va n : Nat}

theorem kvFail_leavesGroups {α : Type} {k : Cause} : (kvFail k : TokM α).LeavesGroups := throw _

theorem Who.pieces_leavesGroups {q : TokPage} {k : Kind} : (c.pieces q k va n).LeavesGroups := by
  refine bind get fun s => ?_
  dsimp only
  split
  · exact kvFail_leavesGroups
  split
  · exact throw _
  · exact throw _
  · exact ite (pure _) kvFail_leavesGroups

/-- A fetch that succeeds uses its pages and then reads its bytes. -/
theorem Who.fetch_ok {ps : List Piece} {s t : State} {bs : List Byte} (h : (c.fetch ps).run s = .ok (bs, t)) :
    ∃ u, s.usePieces c.core false ps = .ok u ∧ u.readPieces ps = .ok (bs, t) := by
  simp only [Who.fetch, StateT.run_bind, StateT.run_get, pure_bind] at h
  revert h
  generalize (!_ : Bool) = blocked
  cases blocked with
  | true => rintro ⟨⟩
  | false =>
    intro h
    cases hu : s.usePieces c.core false ps with
    | ok u =>
      cases hr : u.readPieces ps with
      | ok r =>
        simp only [hu, hr] at h
        obtain ⟨⟩ := h
        exact ⟨u, rfl, hr⟩
      | _ => simp only [hu, hr] at h; cases h
    | _ => simp only [hu] at h; cases h

theorem Who.fetch_leavesGroups {ps : List Piece} : (c.fetch ps).LeavesGroups := by
  intro s bs t h
  obtain ⟨u, hu, hr⟩ := Who.fetch_ok h
  exact (State.readPieces_wgs hr).trans (State.usePieces_wgs hu)

theorem Who.read_leavesGroups {q : TokPage} : (c.read q va n).LeavesGroups :=
  bind pieces_leavesGroups fun _ => fetch_leavesGroups

theorem Who.arr_leavesGroups : (c.arr va).LeavesGroups :=
  bind read_leavesGroups fun _ => ite (pure _) kvFail_leavesGroups

theorem Who.pool_leavesGroups {k : Kind} : (c.pool k a).LeavesGroups :=
  bind (bind pieces_leavesGroups fun _ => bind fetch_leavesGroups fun _ => ite (pure _) kvFail_leavesGroups)
    fun _ => ite (pure _) kvFail_leavesGroups

theorem Who.seq_leavesGroups {j : Nat} {all adm : Bool} : (c.seq a j all adm).LeavesGroups :=
  bind pieces_leavesGroups fun _ => bind get fun _ => ite (throw _) <|
    bind fetch_leavesGroups fun _ => ite kvFail_leavesGroups <| ite (pure _) <| ite kvFail_leavesGroups <|
    ite (pure _) <| bind read_leavesGroups fun _ => ite kvFail_leavesGroups (pure _)

theorem Who.parity_leavesGroups : (c.parity a).LeavesGroups :=
  bind read_leavesGroups fun _ => ite kvFail_leavesGroups (pure _)

/-! ### The lanes of a KVLD -/

/-- A rebuild that starts is entered, and asked for with one flit. -/
theorem Who.rebuild_leavesGroups {q : TokSeq} {e : TokEnt} : (c.rebuild a q e).LeavesGroups := by
  refine bind get fun s => ?_
  split
  · exact pure _
  refine ite (pure _) (bind parity_leavesGroups fun ds => ?_)
  rintro u b t ⟨⟩
  split <;> rfl

theorem Who.kvLost_leavesGroups {q : TokSeq} {ls : List (Nat × Nat × TokEnt)} : (c.kvLost a q ls).LeavesGroups := by
  induction ls with
  | nil => exact pure _
  | cons r ls ih => exact bind rebuild_leavesGroups fun _ => bind ih fun _ => ite (pure _) (pure _)

theorem Who.kvRow_leavesGroups {fmt e0 e1 : Nat} {pl : KvPlan} {r : KvLane} : (c.kvRow fmt e0 e1 pl r).LeavesGroups := by
  unfold Who.kvRow
  dsimp only
  split
  · exact pure _
  · refine bind get fun s => ?_
    split
    · exact pure _
    · exact ite (throw _) (pure _)
    · exact throw _

theorem Who.kvRows_leavesGroups {fmt e0 e1 : Nat} {pl : KvPlan} {rs : List KvLane} :
    (c.kvRows fmt e0 e1 pl rs).LeavesGroups := by
  induction rs generalizing pl with
  | nil => exact pure _
  | cons r rs ih => exact bind kvRow_leavesGroups fun _ => ih

theorem kvldPlan_leavesGroups {b : SeqBlock} {isV fromEnd : Bool} {k : Nat} {lanes : List (Nat × Nat)} :
    (kvldPlan c b isV fromEnd k lanes).LeavesGroups := by
  unfold kvldPlan
  refine bind Who.arr_leavesGroups fun _ => ite (pure _) (bind Who.seq_leavesGroups fun _ => ?_)
  extract_lets pos found anyOk lost rest
  have hrest : ∀ pool, (rest pool).LeavesGroups := fun pool =>
    ite kvFail_leavesGroups (bind Who.kvLost_leavesGroups fun _ => bind Who.kvRows_leavesGroups fun _ => pure _)
  exact ite (bind Who.pool_leavesGroups fun _ => bind (pure _) hrest) (bind (pure _) hrest)

end
end Sys2Proof.Machine
end

/-!
PROOF. O42, TokenReads, second part: the faulting lanes in order, the three ends of a KVLD, ROPE, and the obligation.
-/

section
open Sys2Proof Sys2Proof.Machine
namespace Sys2Proof.Machine

/-! ### The faulting lanes, in the order of their numbers -/

/-- A lane's fault put among others in the order of their lanes. -/
def insertFault (m : List (Nat × LaneFault)) (f : Nat × LaneFault) : List (Nat × LaneFault) :=
  (m.filter fun g => g.1 < f.1) ++ f :: m.filter fun g => f.1 < g.1

/-- `fs` are faults of `m`, of all its lanes, in the order of their lanes. -/
structure FaultsInOrder (m fs : List (Nat × LaneFault)) : Prop where
  mem : ∀ e ∈ fs, e ∈ m
  lanes : ∀ e ∈ m, e.1 ∈ fs.map (·.1)
  sorted : fs.Pairwise fun e f => e.1 < f.1

theorem FaultsInOrder.insert {m fs : List (Nat × LaneFault)} (h : FaultsInOrder m fs) (f : Nat × LaneFault) :
    FaultsInOrder (m ++ [f]) (insertFault fs f) := by
  refine ⟨fun e he => ?_, fun e he => ?_, ?_⟩
  · have := h.mem e
    grind [insertFault]
  · rcases List.mem_append.1 he with he | he
    · obtain ⟨g, hg, hge⟩ := List.mem_map.1 (h.lanes e he)
      rw [← hge]
      rcases Nat.lt_trichotomy g.1 f.1 with hlt | heq | hlt <;> simp [insertFault] <;> grind
    · rw [List.mem_singleton.1 he]
      simp [insertFault]
  · have := h.sorted
    unfold insertFault
    rw [List.pairwise_append, List.pairwise_cons]
    refine ⟨this.filter _, ⟨?_, this.filter _⟩, ?_⟩ <;> grind

theorem faultsInOrder (m : List (Nat × LaneFault)) : FaultsInOrder m (m.foldl insertFault []) := by
  induction m using List.reverseRecOn with
  | nil => exact ⟨nofun, nofun, .nil⟩
  | append_singleton m f ih =>
    rw [List.foldl_append]
    exact ih.insert f

theorem Mask.ofLanes_congr {ls ks : List Nat} (h : ∀ l, l ∈ ls ↔ l ∈ ks) : Mask.ofLanes ls = Mask.ofLanes ks := by
  apply BitVec.eq_of_getLsbD_eq
  intro l hl
  rw [Mask.ofLanes_getLsbD _ hl, Mask.ofLanes_getLsbD _ hl]
  simp only [h]

/-- Their lanes are those that fault. -/
theorem FaultsInOrder.mask {m fs : List (Nat × LaneFault)} (h : FaultsInOrder m fs) :
    Mask.ofLanes (fs.map (·.1)) = Mask.ofLanes (m.map (·.1)) := by
  refine Mask.ofLanes_congr fun l => ⟨fun hl => ?_, fun hl => ?_⟩
  · obtain ⟨e, he, rfl⟩ := List.mem_map.1 hl
    exact List.mem_map.2 ⟨e, h.mem e he, rfl⟩
  · obtain ⟨e, he, rfl⟩ := List.mem_map.1 hl
    exact h.lanes e he

/-- Where some lanes fault, the first of the faults in order is that of the lowest lane. -/
theorem FaultsInOrder.lowest {m fs : List (Nat × LaneFault)} (h : FaultsInOrder m fs) (hm : m ≠ []) :
    ∃ l f r, fs = (l, f) :: r ∧ (l, f) ∈ m ∧ ∀ e ∈ m, l ≤ e.1 := by
  obtain ⟨e, m', rfl⟩ := List.exists_cons_of_ne_nil hm
  cases fs with
  | nil => exact absurd (h.lanes e List.mem_cons_self) List.not_mem_nil
  | cons f r =>
    refine ⟨f.1, f.2, r, rfl, h.mem f List.mem_cons_self, fun e he => ?_⟩
    obtain ⟨g, hg, hge⟩ := List.mem_map.1 (h.lanes e he)
    rcases List.mem_cons.1 hg with rfl | hg
    · exact Nat.le_of_eq hge
    · exact hge ▸ Nat.le_of_lt ((List.pairwise_cons.1 h.sorted).1 g hg)

/-! ### KVLD -/

/-- A lane's position operand: an immediate as it stands, another operand as an unsigned word. -/
def Iss.position (x : Iss) (b : Opnd) (l : Nat) : Nat :=
  match b with
  | .imm v => v.toNat
  | o => x.int .u32 2 o l

theorem Iss.laneWord_two (x : Iss) (o : Opnd) (ho : ∀ v, o ≠ .imm v) (l : Nat) : x.laneWord 2 o l = x.int .u32 2 o l := by
  have hr := x.raw_one_lt 2 o l
  have hmod : x.raw 2 o 1 l % 2 ^ 32 = x.raw 2 o 1 l := Nat.mod_eq_of_lt hr
  cases o with
  | imm v => exact absurd rfl (ho v)
  | imm32 v => exact (Nat.mod_eq_of_lt v.isLt).symm
  | _ =>
    simp only [Iss.laneWord, Iss.int, show Ty.u32.regs = 1 from rfl, show Ty.u32.bits = 32 from rfl, hmod]
    simp

/-- The positions of a KVLD, lane by lane. -/
def Iss.positions (x : Iss) (b : Opnd) : List (Nat × Nat) := (Mask.lanes x.x).map fun l => (l, x.position b l)

/-- A KVLD whose records are read: with the faults in order it enters an operation, waits for it, or takes a cause. -/
def Iss.kvldEnd (x : Iss) (i : Instr) (b : SeqBlock) (isV : Bool) (p : KvPlan) (s1 : State) : Res :=
  let fs := p.faults.foldl insertFault []
  let r := x.laneRaise i fs
  let y := { x with s := if fs.isEmpty then s1 else s1.dropFaults x.gr.core x.w.ctx }
  if p.lanes.isEmpty then .state (x.raiseIn y.s r)
  else if fs.isEmpty then .state (y.launchOp i (x.kvldOp i b isV p r))
  else .state ((y.holdOp i (x.kvldOp i b isV p r)).modGroup x.h x.g fun gr => { gr with ports := x.gr.ports })

theorem kvldBody_eq (i : Instr) (isV fromEnd : Bool) (k : Nat) (a b : Opnd) (x : Iss) :
    kvldBody i isV fromEnd k a b x = x.tokEnd i (x.seqBlock 1 a).arr
      (kvldPlan x.who (x.seqBlock 1 a) isV fromEnd k (x.positions b)) (x.kvldEnd i (x.seqBlock 1 a) isV) := by
  refine congrArg (fun ls => x.tokEnd i (x.seqBlock 1 a).arr (kvldPlan x.who (x.seqBlock 1 a) isV fromEnd k ls)
    (x.kvldEnd i (x.seqBlock 1 a) isV)) (List.map_congr_left fun l _ => congrArg (Prod.mk l) ?_)
  cases b with
  | imm v => rfl
  | _ => exact x.laneWord_two _ (fun _ => Opnd.noConfusion) l

/-- The record of a sequence block is aligned as its registers say. -/
theorem Iss.seqBlock_arr_mod (x : Iss) (f : Nat) (o : Opnd) : (x.seqBlock f o).arr % 64 = x.raw f o 4 0 % 64 :=
  Nat.mod_mod_of_dvd _ (by decide)

/-- A ready KVLD whose records are read ends by what it has found. -/
theorem Ready.kvld_read {s s1 : State} {x : Iss} {c : Ctl} {isV fromEnd : Bool} {k : BitVec 5} {d a b : Opnd} {p : KvPlan}
    (h : Ready s (.kvld c isV fromEnd k d a b) x) (ha : x.raw 1 a 4 0 % 64 = 0)
    (hm : (kvldPlan x.who (x.seqBlock 1 a) isV fromEnd (k.toNat + 1) (x.positions b)).run s = .ok (p, s1)) :
    exec (.kvld c isV fromEnd k d a b) s = x.finish (.kvld c isV fromEnd k d a b)
      (x.kvldEnd (.kvld c isV fromEnd k d a b) (x.seqBlock 1 a) isV p s1) := by
  rw [← h.facts.1] at hm
  rw [exec_of h rfl, kvldBody_eq, Iss.tokEnd_read ((x.seqBlock_arr_mod 1 a).trans ha) hm]

/-- The cause of a lane-bound instruction whose lowest faulting lane is known. -/
theorem Iss.laneRaise_bound (x : Iss) {i : Instr} {fs : List (Nat × LaneFault)} {l : Nat} {f : LaneFault}
    {r : List (Nat × LaneFault)} (hb : i.laneBound = true) (h : fs = (l, f) :: r) : x.laneRaise i fs =
      { cls := .lane, cause := f.cause, info := f.info, faddr := f.addr, p31 := Mask.ofLanes (fs.map (·.1)) } := by
  subst h
  unfold Iss.laneRaise
  rw [if_pos hb]
  rfl

section
variable {s s1 : State} {i : Instr} {x : Iss} {b : SeqBlock} {isV : Bool} {p : KvPlan} (h : Ready s i x)
include h

/-- No lane faults: the operation is entered, and the issuer goes on. -/
theorem Ready.kvld_goes (hf : p.faults = []) (hl : p.lanes ≠ []) :
    let o := x.kvldOp i b isV p (x.laneRaise i [])
    ∃ gr, x.Enters i o gr ∧ x.behind gr ∧ x.kvldEnd i b isV p s1 = .state (s1.setGroup x.h x.g gr) := by
  intro o
  obtain ⟨-, -, -, hap, hpath⟩ := h.facts
  obtain ⟨gr, hst, hent, hbeh⟩ := Iss.launchOp_enters (x := { x with s := s1 }) (i := i) (o := o)
    ⟨rfl, rfl, rfl, rfl, rfl, rfl, rfl, rfl, rfl⟩ hap hpath
  refine ⟨gr, hent.of_state, hbeh, ?_⟩
  unfold Iss.kvldEnd
  simp only [hf, List.foldl_nil, List.isEmpty_nil, if_true]
  rw [if_neg (by simpa using hl), hst]

/-- Some lanes fault: the others' operation is entered, its issuer waits, and its ports keep their words. -/
theorem Ready.kvld_waits (hf : p.faults ≠ []) (hl : p.lanes ≠ []) (hw : s1.wgs = s.wgs) :
    let o := x.kvldOp i b isV p (x.laneRaise i (p.faults.foldl insertFault []))
    ∃ mid, x.Enters i o mid ∧ x.waits mid o.seq ∧ x.kvldEnd i b isV p s1 =
      .state ((s1.dropFaults x.gr.core x.w.ctx).setGroup x.h x.g { mid with ports := x.gr.ports }) := by
  intro o
  obtain ⟨-, hwg, -, hap, hpath⟩ := h.facts
  obtain ⟨l, f, r, hfs, -, -⟩ := (faultsInOrder p.faults).lowest hf
  have hfs' : (p.faults.foldl insertFault []).isEmpty = false := by rw [hfs]; rfl
  obtain ⟨mid, hst, hent, hwait⟩ := Iss.holdOp_enters (x := { x with s := s1.dropFaults x.gr.core x.w.ctx }) (i := i) (o := o)
    ⟨rfl, rfl, rfl, rfl, rfl, rfl, rfl, rfl, rfl⟩ hap hpath
  have hwg1 : (s1.dropFaults x.gr.core x.w.ctx).wg? x.h = some x.w := by
    rw [← hwg]
    exact congrArg (find? · x.h) hw
  refine ⟨mid, hent.of_state, hwait, ?_⟩
  unfold Iss.kvldEnd
  simp only [hfs', Bool.false_eq_true, if_false]
  rw [if_neg (by simpa using hl), hst, State.modGroup_setGroup hwg1]

end

/-- Every lane faults: the issuer takes the cause. -/
theorem Iss.kvldEnd_faults {x : Iss} {i : Instr} {b : SeqBlock} {isV : Bool} {p : KvPlan} {s1 : State} (hf : p.faults ≠ [])
    (hl : p.lanes = []) : x.kvldEnd i b isV p s1 = .state (x.raiseIn (s1.dropFaults x.gr.core x.w.ctx)
      (x.laneRaise i (p.faults.foldl insertFault []))) := by
  obtain ⟨l, f, r, hfs, -, -⟩ := (faultsInOrder p.faults).lowest hf
  unfold Iss.kvldEnd
  rw [hl, hfs]
  rfl

/-! ### ROPE -/

theorem foldl_setLane_lane (f : Nat → Word) (ls : List Nat) (hls : ∀ k ∈ ls, k < 32) (r : Row) {l : Nat} (hl : l < 32) :
    (ls.foldl (fun r k => Row.setLane r k (f k)) r).lane l = if l ∈ ls then f l else r.lane l := by
  induction ls using List.reverseRecOn with
  | nil => rfl
  | append_singleton ls k ih =>
    have hk : k < 32 := hls k (by simp)
    rw [List.foldl_append, List.foldl_cons, List.foldl_nil, Row.setLane_lane _ _ hl hk,
      ih fun j hj => hls j (List.mem_append_left _ hj)]
    by_cases hlk : l = k <;> simp [hlk]

/-- A row made of values for the lanes of a mask. -/
theorem laneVals_lane (m : Mask) (f : Nat → Nat) {l : Nat} (hl : l < 32) (hm : m.getLsbD l = true) :
    (laneVals ((Mask.lanes m).map fun l => (l, f l))).lane l = BitVec.ofNat 32 (f l) := by
  unfold laneVals
  rw [List.foldl_map, foldl_setLane_lane _ _ (fun k hk => ((Mask.mem_lanes m k).1 hk).1) _ hl, if_pos (by simp [hl, hm])]

/-- The operation of a ROPE with its table: its rows are the rotated pairs, its one other row their flags. -/
def Iss.ropeOp (x : Iss) (i : Instr) (k : Nat) (a : Opnd) (t : List Nat × List Piece) : Op :=
  let lanes := Mask.lanes x.x
  let pair := ropePair t.1 x a k
  let rows := (List.range k).map fun j => laneVals (lanes.map fun l =>
    (l, if j % 2 == 0 then (pair l (j / 2)).1.1 else (pair l (j / 2)).1.2))
  let fl := lanes.map fun l => (l, (List.range (k / 2)).foldl (fun (w : Word) j => w ||| (pair l j).2) 0)
  { x.newOp i (x.dstRegs i) with
    res := rows, got := x.x, rows := [flagRow fl], segs := t.2.map fun (p : Piece) => p.seg 0
    leafs := (t.2.flatMap fun (p : Piece) => p.via).eraseDups }

theorem ropeBody_read {i : Instr} {k : Nat} {a b : Opnd} {x : Iss} {t : List Nat × List Piece} {s1 : State}
    (ha : (x.seqBlock 2 b).arr % 64 = 0) (hm : (ropePlan x.who (x.seqBlock 2 b) k).run x.s = .ok (t, s1)) :
    ropeBody i k a b x = .state (({ x with s := s1 } : Iss).launchOp i (x.ropeOp i k a t)) :=
  Iss.tokEnd_read ha hm

/-- A ready ROPE whose table is read enters it. -/
theorem Ready.rope_read {s s1 : State} {x : Iss} {c : Ctl} {k : BitVec 5} {d a b : Opnd} {t : List Nat × List Piece}
    (h : Ready s (.rope c k d a b) x) (ha : x.raw 2 b 4 0 % 64 = 0)
    (hm : (ropePlan x.who (x.seqBlock 2 b) (k.toNat + 1)).run s = .ok (t, s1)) : exec (.rope c k d a b) s =
      .next (({ x with s := s1 } : Iss).launchOp (.rope c k d a b) (x.ropeOp (.rope c k d a b) (k.toNat + 1) a t)) := by
  have hexec : exec (.rope c k d a b) s = x.finish (.rope c k d a b) (ropeBody (.rope c k d a b) (k.toNat + 1) a b x) :=
    exec_of h rfl
  rw [← h.facts.1] at hm
  rw [hexec, ropeBody_read ((x.seqBlock_arr_mod 2 b).trans ha) hm, Iss.finish]

theorem Iss.ropeOp_lane (x : Iss) (i : Instr) {k : Nat} (a : Opnd) (t : List Nat × List Piece) {j l : Nat} (hj : j < k)
    (hl : l < 32) (hx : x.x.getLsbD l = true) :
    let p := (ropePair t.1 x a k l (j / 2)).1
    ((x.ropeOp i k a t).res.getD j 0).lane l = BitVec.ofNat 32 (if j % 2 = 0 then p.1 else p.2) := by
  intro p
  have hres : (x.ropeOp i k a t).res.getD j 0 = laneVals ((Mask.lanes x.x).map fun l =>
      (l, if j % 2 == 0 then (ropePair t.1 x a k l (j / 2)).1.1 else (ropePair t.1 x a k l (j / 2)).1.2)) := by
    simp [Iss.ropeOp, List.getD, hj]
  rw [hres, laneVals_lane _ _ hl hx]
  simp [p]

end Sys2Proof.Machine

/-- Settles O42: a KVLD ends in one of three ways, by the lanes that have something and the lanes that fault; a ROPE enters
an operation whose values are there at once. -/
theorem tokenReads : Obligations.TokenReads := by
  unfold Obligations.TokenReads
  intro s x c
  refine ⟨?_, ?_⟩
  · intro isV fromEnd k d a b i _ h ha lanes p s1 hm met entered lowest
    have hexec : exec i s = x.finish i (x.kvldEnd i (x.seqBlock 1 a) isV p s1) := h.kvld_read ha hm
    have hord := faultsInOrder p.faults
    refine ⟨fun hf hl => ?_, fun hf hl => ?_, fun hf hl => ?_⟩
    · obtain ⟨gr, hent, hbeh, hend⟩ := h.kvld_goes (b := x.seqBlock 1 a) (isV := isV) (s1 := s1) hf hl
      refine ⟨gr, _, hent, hbeh, ⟨rfl, rfl, rfl⟩, ?_, ?_⟩
      · exact if_pos (by rw [hf]; rfl)
      · rw [hexec, hend, Iss.finish]
    · obtain ⟨l, f, r, hfs, hmem, hmin⟩ := hord.lowest hf
      obtain ⟨-, hcause, hinfo, haddr, -, -⟩ := x.laneRaise_cons i hfs
      obtain ⟨mid, hent, hwait, hend⟩ := h.kvld_waits (b := x.seqBlock 1 a) (isV := isV) hf hl (kvldPlan_leavesGroups _ _ _ hm)
      refine ⟨mid, _, _, f, hent, hwait, ⟨rfl, rfl, rfl⟩, rfl, ⟨l, hmem, hmin⟩, ?_, ?_⟩
      · rw [← hcause, ← hinfo, ← haddr]
        exact if_neg (by simpa using hf)
      · rw [hexec, hend, Iss.finish]
    · obtain ⟨l, f, r, hfs, hmem, hmin⟩ := hord.lowest hf
      refine ⟨f, ⟨l, hmem, hmin⟩, ?_⟩
      rw [hexec, Iss.kvldEnd_faults hf hl, Iss.finish, x.laneRaise_bound rfl hfs, hord.mask]
  · intro k d a b i _ h ha tab ps s1 hm
    obtain ⟨-, -, -, hap, hpath⟩ := h.facts
    obtain ⟨gr, hst, hent, hbeh⟩ := Iss.launchOp_enters (x := { x with s := s1 }) (i := i)
      (o := x.ropeOp i (k.toNat + 1) a (tab, ps)) ⟨rfl, rfl, rfl, rfl, rfl, rfl, rfl, rfl, rfl⟩ hap hpath
    refine ⟨gr, _, hent.of_state, hbeh, rfl, rfl, ?_, fun j hj l hl hx =>
      x.ropeOp_lane i a (tab, ps) (Nat.lt_succ_of_le hj) hl hx⟩
    rw [h.rope_read ha hm, hst]

end

/-!
PROOF. O51, TokenEvents, first part: an operation at the head of its descriptor's home.
-/

section
open Sys2Proof Sys2Proof.Machine
namespace Sys2Proof.Machine

/-! ### Groups and their operations -/

theorem State.modGroup_eq_wgs (s : State) (h g : Nat) (f : Group → Group) :
    s.modGroup h g f = { s with wgs := (s.modGroup h g f).wgs } := by
  unfold State.modGroup State.setGroup State.modWg
  split
  · rfl
  split <;> rfl

theorem Group.op?_seq {gr : Group} {seq : Nat} {o : Op} (h : gr.op? seq = some o) : o.seq = seq := by
  simpa using List.find?_some h

theorem Group.op?_modOp {gr : Group} {seq : Nat} {o : Op} {f : Op → Op} (hf : ∀ o, (f o).seq = o.seq)
    (h : gr.op? seq = some o) : (gr.modOp seq f).op? seq = some (f o) := by
  have hp : ((fun o : Op => o.seq == seq) ∘ fun a => if a.seq == seq then f a else a) = fun o => o.seq == seq := by
    funext a
    by_cases ha : a.seq = seq <;> simp [ha, hf]
  unfold Group.op? at h ⊢
  rw [Group.modOp_ops, modWhere, List.find?_map, hp, h]
  simp [Group.op?_seq h]

theorem Group.horizonOf_raiseH (gr : Group) (t sc : Scope) (gvt : Nat) :
    (gr.raiseH t gvt).horizonOf sc = if t.covers sc then max (gr.horizonOf sc) gvt else gr.horizonOf sc := by
  cases sc <;> rfl

/-- A time that an operation takes: its own where it has a class, else its group's. -/
theorem Group.op?_takeTime {gr : Group} {seq : Nat} {o : Op} (t : Nat) (h : gr.op? seq = some o) :
    (gr.takeTime o t).op? seq = some { o with gvt := if o.cls = none then o.gvt else max o.gvt t } := by
  obtain rfl := Group.op?_seq h
  unfold Group.takeTime
  by_cases hc : o.cls = none
  · rw [if_neg (by simp [hc]), if_pos hc]
    exact h
  · rw [if_pos (Option.isSome_iff_ne_none.2 hc), if_neg hc]
    exact Group.op?_modOp (f := fun o => { o with gvt := max o.gvt t }) (fun _ => rfl) h

theorem Group.horizonOf_takeTime (gr : Group) (o : Op) (t : Nat) (sc : Scope) : (gr.takeTime o t).horizonOf sc =
    if o.cls = none ∧ o.scope.covers sc then max (gr.horizonOf sc) t else gr.horizonOf sc := by
  unfold Group.takeTime
  cases o.cls with
  | none => simp [Group.horizonOf_raiseH]
  | some k => simp [Group.horizonOf]

/-! ### The update -/

/-- The slots that an operation frees, on their way back to the pool. -/
def State.freed (s : State) (q : TokenOp) : List SlotFree := q.frees.map fun f =>
  { ctx := q.ctx, core := q.core, sup := q.sup, record := q.record, pool := q.poolVa, line := lineOf q.pool
    slot := f.1, wg := q.wg, g := q.g, seq := q.seq, readers := s.kvReaders q.desc
    folding := if f.2 then q.parity else none, mirror := q.parity }

theorem State.freeSlots_eq (s : State) (q : TokenOp) : s.freeSlots q = { s with slotFrees := s.slotFrees ++ s.freed q } := rfl

theorem State.sendMirror_slotFrees (s : State) (fs : List SlotFree) (peer : Option Nat) (ws : List (Nat × List Byte)) :
    ({ s with slotFrees := fs } : State).sendMirror peer ws = { s.sendMirror peer ws with slotFrees := fs } := by
  cases peer <;> rfl

theorem State.sendMirror_cycle (s : State) (peer : Option Nat) (ws : List (Nat × List Byte)) :
    (s.sendMirror peer ws).cycle = s.cycle := by
  cases peer <;> rfl

theorem State.sendMirror_tokenQ (s : State) (peer : Option Nat) (ws : List (Nat × List Byte)) :
    (s.sendMirror peer ws).tokenQ = s.tokenQ := by
  cases peer <;> rfl

/-- The operation's group with its answer, and the time of its records where it writes some. -/
def TokenOp.answers (q : TokenOp) (cycle : Nat) (gr : Group) : Group :=
  (match gr.op? q.seq with
    | some o => if q.writes.isEmpty then gr else gr.takeTime o (upTick cycle)
    | none => gr).modOp q.seq fun o =>
      { o.answered [BitVec.ofNat 32 q.value] with fin := true, owed := q.frees.length }

/-- What an update mirrors: the operation's writes, and the pool record where it has one. -/
def TokenOp.mirrored (q : TokenOp) (s : State) : List (Nat × List Byte) :=
  q.writes ++ if q.pool = 0 then [] else [(q.pool, s.cohBytes q.pool 32)]

/-- The state in which an operation whose records stand has left the queue. -/
def TokenOp.left (q : TokenOp) (s : State) : State :=
  { s.sendMirror q.parity (q.mirrored s) with
      slotFrees := s.slotFrees ++ s.freed q
      tokenQ := s.tokenQ.filter fun u => !(u.wg == q.wg && u.g == q.g && u.seq == q.seq) }

/-- The state after an operation's update, from that in which its records stand. -/
def TokenOp.updated (q : TokenOp) (s : State) : State := (q.left s).modGroup q.wg q.g (q.answers s.cycle)

/-- The folds of an operation go to the parity member, where there is one. -/
def TokenOp.folded (q : TokenOp) (s : State) : Coll State :=
  match q.parity with
  | some peer => s.sendFolds peer q.folds (q.seals ++ (q.frees.filter (·.2)).map (·.1))
  | none => .ok s

theorem State.tokUpdate_ok {s s0 s1 : State} {q : TokenOp} (hf : q.folded s = .ok s0) (hw : s0.putRecords q.writes = .ok s1) :
    s.tokUpdate q = some (q.updated s1) := by
  unfold State.tokUpdate
  dsimp only
  change (match q.folded s with | .busy r => _ | .lost => _ | .ok s' => _) = _
  rw [hf]
  dsimp only
  rw [hw]
  dsimp only
  simp only [beq_iff_eq]
  unfold TokenOp.updated TokenOp.left TokenOp.answers
  rw [State.freeSlots_eq, State.sendMirror_slotFrees, ← State.sendMirror_cycle s1 q.parity (q.mirrored s1),
    ← State.sendMirror_tokenQ s1 q.parity (q.mirrored s1)]
  rfl

/-- What an operation that has performed leaves in its group. -/
theorem TokenOp.answers_op? (q : TokenOp) (cycle : Nat) {gr : Group} {o : Op} (h : gr.op? q.seq = some o) :
    let time := if q.writes = [] then 0 else upTick cycle
    (q.answers cycle gr).op? q.seq = some
      { o with res := [Row.splat (BitVec.ofNat 32 q.value)], got := BitVec.allOnes 32, todo := 0, fin := true,
               owed := q.frees.length, gvt := if o.cls = none then o.gvt else max o.gvt time }
    ∧ ∀ sc, (q.answers cycle gr).horizonOf sc = if o.cls = none ∧ o.scope.covers sc then max (gr.horizonOf sc) time
        else gr.horizonOf sc := by
  intro time
  have key : ∀ g1 : Group, g1.op? q.seq = some { o with gvt := if o.cls = none then o.gvt else max o.gvt time } →
      (g1.modOp q.seq fun o => { o.answered [BitVec.ofNat 32 q.value] with fin := true, owed := q.frees.length }).op? q.seq = some
      { o with res := [Row.splat (BitVec.ofNat 32 q.value)], got := BitVec.allOnes 32, todo := 0, fin := true,
               owed := q.frees.length, gvt := if o.cls = none then o.gvt else max o.gvt time } := fun g1 h1 =>
    Group.op?_modOp (f := fun o => { o.answered [BitVec.ofNat 32 q.value] with fin := true, owed := q.frees.length })
      (fun _ => rfl) h1
  unfold TokenOp.answers
  rw [h]
  dsimp only
  by_cases hw : q.writes = []
  · have ht : time = 0 := if_pos hw
    rw [if_pos (by rw [hw]; rfl)]
    refine ⟨key gr ?_, fun sc => ?_⟩
    · rw [h, ht, Nat.max_zero, ite_self]
    · rw [ht, Nat.max_zero, ite_self]
      rfl
  · have ht : time = upTick cycle := if_neg hw
    rw [if_neg (by simpa using hw), ← ht]
    exact ⟨key _ (Group.op?_takeTime time h), Group.horizonOf_takeTime gr o time⟩

theorem State.group?_of_wgs {s t : State} (h : t.wgs = s.wgs) (k g : Nat) : t.group? k g = s.group? k g := by
  unfold State.group? State.wg?
  rw [h]

theorem State.sendMirror_wgs (s : State) (peer : Option Nat) (ws : List (Nat × List Byte)) :
    (s.sendMirror peer ws).wgs = s.wgs := by
  cases peer <;> rfl

theorem State.group?_modGroup_same {s : State} {k g : Nat} {gr : Group} (h : s.group? k g = some gr) (f : Group → Group) :
    (s.modGroup k g f).group? k g = some (f gr) := by
  obtain ⟨w, hw, _⟩ := State.group?_some h
  rw [State.modGroup_eq h]
  exact State.group?_setGroup_same hw ..

theorem TokenOp.updated_group? {q : TokenOp} {s : State} {gr : Group} (h : s.group? q.wg q.g = some gr) :
    (q.updated s).group? q.wg q.g = some (q.answers s.cycle gr) :=
  State.group?_modGroup_same (s := q.left s)
    ((State.group?_of_wgs (State.sendMirror_wgs s q.parity (q.mirrored s)) q.wg q.g).trans h) _

/-! ### The first operation at a home -/

section
variable {s s1 : State} {line l : Nat} {q : TokenOp} {gr : Group} {o : Op}
  (hq : s.tokenQ.find? (fun t => t.line == line && !t.givesBack) = some q) (hg : s.group? q.wg q.g = some gr)
  (ho : gr.op? q.seq = some o) (hstep : q.step = .none) (hclear : s.engClear q.wg q.g gr o = true)
include hq hg ho hstep hclear

/-- A line of its source is read. -/
theorem State.tokenStep_source {row : Row} (hl : (segLines q.src)[o.res.length]? = some l) (hr : s.readLine l = .ok (row, s1)) :
    s.tokenStep line = some (s1.modGroup q.wg q.g fun gr => gr.modOp q.seq fun o => { o with res := o.res ++ [row] }) := by
  unfold State.tokenStep
  simp only [hq, hg, ho, hstep, hclear, hl, hr, Option.bind_some, Option.map_some, bne_self_eq_false, Bool.not_true,
    Bool.or_self, Bool.false_eq_true, if_false]

/-- With its source read, a line of its rows is written. -/
theorem State.tokenStep_row (hsrc : (segLines q.src)[o.res.length]? = none) (hl : (segLines q.rows)[o.step]? = some l)
    (hr : s.rowStep q o l = .ok s1) :
    s.tokenStep line = some (s1.modGroup q.wg q.g fun gr => gr.modOp q.seq fun o => { o with step := o.step + 1 }) := by
  unfold State.tokenStep
  simp only [hq, hg, ho, hstep, hclear, hsrc, hl, hr, Option.bind_some, Option.map_some, bne_self_eq_false, Bool.not_true,
    Bool.or_self, Bool.false_eq_true, if_false]

/-- With its rows written, it makes its update. -/
theorem State.tokenStep_update (hsrc : (segLines q.src)[o.res.length]? = none) (hl : (segLines q.rows)[o.step]? = none) :
    s.tokenStep line = s.tokUpdate q := by
  unfold State.tokenStep
  simp only [hq, hg, ho, hstep, hclear, hsrc, hl, Option.bind_some, Option.map_some, bne_self_eq_false, Bool.not_true,
    Bool.or_self, Bool.false_eq_true, if_false]

end

/-- The parts of the state that the update changes, as the statement names them. -/
theorem TokenOp.updated_facts (q : TokenOp) (s : State) :
    q.updated s = { s.sendMirror q.parity (q.mirrored s) with
        tokenQ := (q.updated s).tokenQ, slotFrees := (q.updated s).slotFrees, wgs := (q.updated s).wgs }
      ∧ (q.updated s).tokenQ = s.tokenQ.filter (fun u => !(u.wg == q.wg && u.g == q.g && u.seq == q.seq))
      ∧ (q.updated s).slotFrees = s.slotFrees ++ s.freed q := by
  have ht : q.updated s = { q.left s with wgs := (q.updated s).wgs } := State.modGroup_eq_wgs ..
  rw [ht]
  exact ⟨rfl, rfl, rfl⟩

end Sys2Proof.Machine
end

/-!
PROOF. O51, TokenEvents, second part: pool records and the slots that go back to a free list.
-/

section
open Sys2Proof Sys2Proof.Machine
namespace Sys2Proof.Machine

/-! ### The folds and the freed slots of an update -/

theorem TokenOp.folded_ok {q : TokenOp} {s s0 : State} (hn : q.parity = none → s0 = s)
    (hp : ∀ peer, q.parity = some peer →
      s.sendFolds peer q.folds (q.seals ++ (q.frees.filter (·.2)).map (·.1)) = .ok s0) : q.folded s = .ok s0 := by
  unfold TokenOp.folded
  cases h : q.parity with
  | none => rw [hn h]
  | some peer => exact hp peer h

/-- Every freed slot carries its pool, its operation and its mirror. -/
theorem State.freed_mem {s : State} {q : TokenOp} {f : SlotFree} (hf : f ∈ s.freed q) :
    f.pool = q.poolVa ∧ f.line = lineOf q.pool ∧ f.wg = q.wg ∧ f.g = q.g ∧ f.seq = q.seq ∧ f.mirror = q.parity := by
  obtain ⟨p, -, rfl⟩ := List.mem_map.1 hf
  exact ⟨rfl, rfl, rfl, rfl, rfl, rfl⟩

theorem State.freed_map {α : Type} (s : State) (q : TokenOp) (f : SlotFree → α) (g : Nat × Bool → α)
    (h : ∀ p : Nat × Bool, f { ctx := q.ctx, core := q.core, sup := q.sup, record := q.record, pool := q.poolVa
                               line := lineOf q.pool, slot := p.1, wg := q.wg, g := q.g, seq := q.seq
                               readers := s.kvReaders q.desc, folding := if p.2 then q.parity else none
                               mirror := q.parity } = g p) : (s.freed q).map f = q.frees.map g :=
  List.map_map.trans (List.map_congr_left fun p _ => h p)

/-! ### Work whose pages are present -/

theorem State.tokStep_ok {α : Type} {s t : State} {c : Who} {m : TokM α} {a : α} (h : m.run s = .ok (a, t))
    (go : α → State → Option State) (stop : State → Option State) : s.tokStep c m go stop = go a t := by
  unfold State.tokStep
  rw [h]

/-! ### Pool records -/

theorem State.poolStep_first {s : State} {line : Nat} {q : TokenOp}
    (h : s.tokenQ.find? (fun t => t.step != .none && lineOf t.pool == line && !t.givesBack) = some q) :
    s.poolStep line = s.poolOf q := by
  unfold State.poolStep
  simp only [List.find?_filter, Bool.decide_and, Bool.decide_eq_true, h]
  rfl

/-- Where every operation at a pool's home gives slots back, the first does. -/
theorem State.poolStep_back {s : State} {line : Nat} {q : TokenOp}
    (hall : ∀ t ∈ s.tokenQ, t.step ≠ .none → lineOf t.pool = line → t.givesBack = true)
    (h : s.tokenQ.find? (fun t => t.step != .none && lineOf t.pool == line) = some q) : s.poolStep line = s.poolOf q := by
  have hno : s.tokenQ.find? (fun t => t.step != .none && lineOf t.pool == line && !t.givesBack) = none := by
    refine List.find?_eq_none.2 fun t ht hp => ?_
    obtain ⟨⟨hs, hl⟩, hb⟩ : (t.step ≠ .none ∧ lineOf t.pool = line) ∧ t.givesBack = false := by simpa using hp
    rw [hall t ht hs hl] at hb
    cases hb
  unfold State.poolStep
  simp only [List.find?_filter, List.head?_filter, Bool.decide_and, Bool.decide_eq_true, hno, h]
  rfl

theorem TokPool.count_pa (p : TokPool) (free rsvd : Nat) : (p.count free rsvd).pa = p.pa := rfl

/-- The record of an operation's pool, as its bytes say it. -/
def TokenOp.poolRec (q : TokenOp) (bs : List Byte) : TokPool := { pa := q.pool, bits := BitVec.ofNat 256 (natOfBytes bs) }

section
variable {s s1 s2 : State} {q : TokenOp} {bs : List Byte} {n k : Nat} (hr : s.readPhys q.pool 32 = .ok (bs, s1))
include hr

theorem State.poolOf_full (hs : q.step = .reserve n) (hf : (q.poolRec bs).free < (q.poolRec bs).rsvd + n) :
    s.poolOf q = some (s1.setToken { q with step := .none, value := 1, writes := [] }) := by
  unfold State.poolOf
  simp only [hs, hr]
  exact if_pos hf

theorem State.poolOf_reserve (hs : q.step = .reserve n) (hf : (q.poolRec bs).rsvd + n ≤ (q.poolRec bs).free)
    (hw : s1.writePhys .dir q.pool ((q.poolRec bs).count (q.poolRec bs).free ((q.poolRec bs).rsvd + n)).bytes = .ok s2) :
    s.poolOf q = some (s2.setToken { q with step := .none }) := by
  unfold TokenOp.poolRec at hf hw
  unfold State.poolOf
  simp only [hs, hr, if_neg (Nat.not_lt.2 hf), TokPool.count_pa, hw]

theorem State.poolOf_pop (hs : q.step = .pop k)
    (hw : s1.writePhys .dir q.pool ((q.poolRec bs).count ((q.poolRec bs).free - k) ((q.poolRec bs).rsvd - k)).bytes = .ok s2) :
    s.poolOf q = some (s2.setToken { q with step := .none }) := by
  unfold TokenOp.poolRec at hw
  unfold State.poolOf
  simp only [hs, hr, TokPool.count_pa, hw]

theorem State.poolOf_unreserve (hs : q.step = .unreserve k)
    (hw : s1.writePhys .dir q.pool ((q.poolRec bs).count (q.poolRec bs).free ((q.poolRec bs).rsvd - k)).bytes = .ok s2) :
    s.poolOf q = some (s2.setToken { q with step := .none }) := by
  unfold TokenOp.poolRec at hw
  unfold State.poolOf
  simp only [hs, hr, TokPool.count_pa, hw]

end

/-- Slots that an operation gives back are pushed, and it is gone. -/
theorem State.poolOf_back {s s1 s2 : State} {q : TokenOp} {slots : List Nat} {ws : List (Nat × List Byte)}
    (hs : q.step = .back slots)
    (hp : (pushPlan q.who q.record q.poolVa slots.length slots.reverse).run s = .ok (ws, s1)) (hw : s1.putRecords ws = .ok s2) :
    s.poolOf q = some { s2 with
      tokenQ := s2.tokenQ.filter fun u => !(u.wg == q.wg && u.g == q.g && u.seq == q.seq) } := by
  unfold State.poolOf
  simp only [hs]
  rw [State.tokStep_ok hp]
  simp only [hw]

/-- A freed slot that is ready is pushed, and its operation owes one less. -/
theorem State.pushStep_ok {s s1 s2 : State} {line : Nat} {f : SlotFree} {ws : List (Nat × List Byte)}
    (hf : s.slotFrees.find? (fun f => f.line == line && s.pushReady f) = some f)
    (hp : (pushPlan { core := f.core, ctx := f.ctx, sup := f.sup, own := none } f.record f.pool 0 [f.slot]).run s = .ok (ws, s1))
    (hw : s1.putRecords ws = .ok s2) :
    s.pushStep line = some ({ s2.sendMirror f.mirror ws with
        slotFrees := (s2.sendMirror f.mirror ws).slotFrees.erase f }.modGroup f.wg f.g fun gr =>
      gr.modOp f.seq fun o => { o with owed := o.owed - 1 }) := by
  unfold State.pushStep
  simp only [hf]
  rw [State.tokStep_ok hp]
  simp only [hw]

end Sys2Proof.Machine
end

/-!
PROOF. O51, TokenEvents, third part: folds, and the rebuild of a slot from its survivors; then the obligation.
-/

section
open Sys2Proof Sys2Proof.Machine
namespace Sys2Proof.Machine

/-- What follows work that has succeeded starts where the work ended. -/
theorem TokM.run_bind_ok {α β : Type} {m : TokM α} {a : α} {s t : State} (h : m.run s = .ok (a, t)) (f : α → TokM β) :
    (m >>= f).run s = (f a).run t := by
  rw [StateT.run_bind, h]
  rfl

/-! ### Folds at the parity member -/

theorem State.foldIn_ok {s s1 s2 : State} {ctx rec_ slot : Nat} {bs cs : List Byte} {a : TokArr} {ps : List Piece}
    (hm : ((deviceWho ctx).slot rec_ slot .both).run s = .ok ((a, ps, cs), s1)) (ha : a.pmember = 8)
    (hp : s1.putSlot ps (xorBytes cs (bs.take cs.length)) = .ok s2) : s.foldIn ctx rec_ slot bs = some s2 := by
  unfold State.foldIn
  dsimp only
  rw [State.tokStep_ok hm]
  simp only [ha, bne_self_eq_false, Bool.false_eq_true, if_false, hp]

/-- A slot is held at the parity member where a hold names it. -/
theorem parityHold_any {s : State} {ctx rec_ slot : Nat} :
    (s.parityHold.any fun k => k.1 == ctx && k.2.1 == rec_ && k.2.2.1 == slot) = true
      ↔ ∃ h, (ctx, rec_, slot, h) ∈ s.parityHold := by
  rw [List.any_eq_true]
  constructor
  · rintro ⟨⟨c, r, k, h⟩, hk, he⟩
    obtain ⟨⟨rfl, rfl⟩, rfl⟩ : (c = ctx ∧ r = rec_) ∧ k = slot := by simpa using he
    exact ⟨h, hk⟩
  · rintro ⟨h, hk⟩
    exact ⟨_, hk, by simp⟩

theorem State.parityStep_held {s : State} {ctx rec_ slot : Nat} {bs : List Byte}
    (h : ∃ h, (ctx, rec_, slot, h) ∈ s.parityHold) :
    s.parityStep ctx rec_ slot bs = some { s with foldHeld := s.foldHeld ++ [(ctx, rec_, slot, bs)] } :=
  if_pos (parityHold_any.2 h)

theorem State.parityStep_free {s : State} {ctx rec_ slot : Nat} {bs : List Byte}
    (h : ∀ h, (ctx, rec_, slot, h) ∉ s.parityHold) : s.parityStep ctx rec_ slot bs = s.foldIn ctx rec_ slot bs :=
  if_neg fun hk => let ⟨p, hp⟩ := parityHold_any.1 hk; h p hp

/-! ### A survivor is read -/

theorem Who.parity_length {c : Who} {a : TokArr} {ds : List Nat} {s t : State} (h : (c.parity a).run s = .ok (ds, t)) :
    ds.length = 9 := by
  unfold Who.parity at h
  rw [StateT.run_bind] at h
  cases hr : (c.read .plain a.pgtab 18).run s with
  | error x => rw [hr] at h; cases h
  | ok p =>
    rw [hr] at h
    dsimp only [Bind.bind, Except.bind] at h
    split at h
    · cases h
    · cases h
      simp

/-- A freed slot waits for its fold out. -/
def State.foldWaits (s : State) (ctx rec_ slot : Nat) : Bool :=
  s.slotFrees.any fun f => f.ctx == ctx && f.record == rec_ && f.slot == slot && f.folding.any fun p => s.foldsOut p slot

theorem State.foldWaits_of_fold {s : State} {f : SlotFree} {p : Nat} (hf : f ∈ s.slotFrees) (hp : f.folding = some p)
    (ho : s.foldsOut p f.slot = true) : s.foldWaits f.ctx f.record f.slot = true :=
  List.any_eq_true.2 ⟨f, hf, by simp [hp, ho]⟩

theorem State.foldWaits_of_kept {s : State} {ctx rec_ slot : Nat} (h : ∀ f ∈ s.slotFrees, f.slot ≠ slot) :
    s.foldWaits ctx rec_ slot = false :=
  List.any_eq_false.2 fun f hf => by simp [h f hf]

section
variable {s s1 s2 : State} {peer ctx rec_ slot : Nat} {a : TokArr} {ps : List Piece} {bs : List Byte}
  (hm : ((deviceWho ctx).slot rec_ slot .read).run s = .ok ((a, ps, bs), s1))
include hm

/-- The parity member holds the slot's folds and asks every other survivor. -/
theorem State.rebuildReadStep_parity {ds : List Nat} (ha : a.pmember = 8) (hh : ∀ h, (ctx, rec_, slot, h) ∉ s2.parityHold)
    (hd : ((deviceWho ctx).parity a).run s1 = .ok (ds, s2)) :
    s.rebuildReadStep peer ctx rec_ slot = some (((ds.take 8).filter (· != peer)).foldl
      (fun s d => s.sendFlit d (.rebuildRead slot)) { s2 with parityHold := s2.parityHold ++ [(ctx, rec_, slot, some peer)] }) := by
  have hne : (ds.take 8).isEmpty = false := by
    rw [List.isEmpty_eq_false_iff, ← List.length_pos_iff, List.length_take, Who.parity_length hd]
    decide
  have hno : ¬(s2.parityHold.any fun k => k.1 == ctx && k.2.1 == rec_ && k.2.2.1 == slot) = true := fun hk =>
    let ⟨p, hp⟩ := parityHold_any.1 hk
    hh p hp
  unfold State.rebuildReadStep
  dsimp only
  rw [State.tokStep_ok (a := (ds.take 8, bs)) (t := s2)]
  · dsimp only
    rw [hne, if_neg Bool.false_ne_true, if_neg hno]
  · rw [TokM.run_bind_ok hm]
    dsimp only
    rw [if_pos (by simp [ha]), TokM.run_bind_ok hd]
    rfl

/-- Another survivor answers with its slot where that counts in. -/
theorem State.rebuildReadStep_reply {counted : Bool} (ha : a.pmember ≠ 8)
    (hc : ((deviceWho ctx).countsIn a slot a.nseq).run s1 = .ok (counted, s2)) :
    s.rebuildReadStep peer ctx rec_ slot = some (s2.sendFlit peer
      (.reply slot (if counted || s.foldWaits ctx rec_ slot then bs else bs.map fun _ => 0) 0)) := by
  unfold State.rebuildReadStep
  dsimp only
  rw [State.tokStep_ok (a := ([], if counted || s.foldWaits ctx rec_ slot then bs else bs.map fun _ => 0)) (t := s2)]
  · rfl
  · rw [TokM.run_bind_ok hm]
    dsimp only
    rw [if_neg (by simpa using ha), TokM.run_bind_ok hc]
    rfl

end

/-! ### The parity member's part of a rebuild ends -/

/-- The hold has given its answer: the replacement waits for it no more. -/
def State.toldHold (s : State) (k : Nat × Nat × Nat × Option Nat) : State :=
  { s with parityHold := s.parityHold.map fun j => if j = k then (k.1, k.2.1, k.2.2.1, none) else j }

section
variable {s : State} {ctx slot : Nat} {answers : List (Option (List Byte))}

/-- With no rebuild of its own at the entry, a member ends what it holds for the slot. -/
theorem State.rebuildStep_held {k : Nat × Nat × Nat × Option Nat}
    (hr : ∀ r ∈ s.rebuilds, r.ctx = ctx → r.entry = slot → r.failed = true)
    (hk : s.parityHold.find? (fun k => k.1 == ctx && k.2.2.1 == slot) = some k) :
    s.rebuildStep ctx slot answers = s.parityAnswer k answers := by
  have hno : s.rebuilds.find? (fun r => r.ctx == ctx && r.entry == slot && !r.failed) = none := by
    refine List.find?_eq_none.2 fun r hm hp => ?_
    obtain ⟨⟨hc, he⟩, hf⟩ : (r.ctx = ctx ∧ r.entry = slot) ∧ r.failed = false := by simpa using hp
    rw [hr r hm hc he] at hf
    cases hf
  unfold State.rebuildStep
  simp only [hno, hk]
  rfl

variable {rec_ peer : Nat} (hl : answers.length = 7)
include hl

theorem State.parityAnswer_refuses (hx : xorAll answers = none) :
    s.parityAnswer (ctx, rec_, slot, some peer) answers
      = some ((s.toldHold (ctx, rec_, slot, some peer)).sendFlit peer (.refusal slot)) := by
  unfold State.parityAnswer
  simp only [hl, hx, bne_self_eq_false, Bool.false_eq_true, if_false, beq_iff_eq]
  rfl

theorem State.parityAnswer_replies {bs cs : List Byte} {a : TokArr} {ps : List Piece} {s1 : State} (hx : xorAll answers = some bs)
    (hm : ((deviceWho ctx).slot rec_ slot .read).run s = .ok ((a, ps, cs), s1)) :
    s.parityAnswer (ctx, rec_, slot, some peer) answers
      = some ((s1.toldHold (ctx, rec_, slot, some peer)).sendFlit peer (.reply slot (xorBytes cs bs) 0)) := by
  unfold State.parityAnswer
  simp only [hl, hx, bne_self_eq_false, Bool.false_eq_true, if_false, beq_iff_eq]
  rw [State.tokStep_ok hm]
  rfl

end

section
variable {s : State} {ctx rec_ slot : Nat}

theorem State.releaseFolds_none (h : ∀ f ∈ s.foldHeld, ¬(f.1 = ctx ∧ f.2.1 = rec_ ∧ f.2.2.1 = slot)) :
    s.releaseFolds (ctx, rec_, slot, none) = some { s with parityHold := s.parityHold.erase (ctx, rec_, slot, none) } := by
  have hno : s.foldHeld.find? (fun f => f.1 == ctx && f.2.1 == rec_ && f.2.2.1 == slot) = none :=
    List.find?_eq_none.2 fun f hf hp => h f hf (by simpa [and_assoc] using hp)
  unfold State.releaseFolds
  simp only [hno]

theorem State.releaseFolds_first {bs cs : List Byte} {a : TokArr} {ps : List Piece} {s1 s2 : State}
    (hf : s.foldHeld.find? (fun f => f.1 == ctx && f.2.1 == rec_ && f.2.2.1 == slot) = some (ctx, rec_, slot, bs))
    (hm : ((deviceWho ctx).slot rec_ slot .both).run s = .ok ((a, ps, cs), s1)) (ha : a.pmember = 8)
    (hp : s1.putSlot ps (xorBytes cs (bs.take cs.length)) = .ok s2) :
    s.releaseFolds (ctx, rec_, slot, none) = some { s2 with foldHeld := s2.foldHeld.erase (ctx, rec_, slot, bs) } := by
  unfold State.releaseFolds
  simp only [hf, State.foldIn_ok hm ha hp, Option.map_some]

end

/-! ### The replacement's part of a rebuild ends -/

/-- For whom a rebuild acts. -/
def Rebuild.who (r : Rebuild) (ctx : Nat) : Who := { core := r.core, ctx := ctx, sup := r.sup, own := none }

section
variable {s : State} {ctx entry : Nat} {answers : List (Option (List Byte))} {r : Rebuild}
  (hr : s.rebuilds.find? (fun r => r.ctx == ctx && r.entry == entry && !r.failed) = some r) (hl : answers.length = 8)
include hr hl

/-- A missing answer leaves the block lost. -/
theorem State.rebuildStep_fails (hx : xorAll answers = none) : s.rebuildStep ctx entry answers
    = some { s with rebuilds := modWhere (fun x => x == r) (fun x => { x with failed := true }) s.rebuilds } := by
  unfold State.rebuildStep
  simp only [hr, hl, hx, bne_self_eq_false, Bool.false_eq_true, if_false]

variable {bs cs eb : List Byte} {a : TokArr} {ps es : List Piece} {s1 s2 s3 : State} (hx : xorAll answers = some bs)
  (hm : ((r.who ctx).slot r.record r.slot .write).run s = .ok ((a, ps, cs), s1))
  (hes : ((r.who ctx).pieces .table .both entry 8).run s1 = .ok (es, s2)) (heb : ((r.who ctx).fetch es).run s2 = .ok (eb, s3))
include hx hm hes heb

/-- With all answers, what is left is what the entry says. -/
theorem State.rebuildStep_answered : s.rebuildStep ctx entry answers =
    let e := TokEnt.ofNat 0 (natOfBytes eb)
    let ended : State := { s3 with rebuilds := s3.rebuilds.filter (· != r) }
    if e.st != 5 then some ended
    else match ended.putSlot ps bs with
      | .ok s => match s.putRecords (es.map fun p => (p.pa, { e with st := 2 }.bytes)) with
        | .ok s => some s
        | .busy r => s.begin? r
        | .lost => some s
      | .busy r => ended.begin? r
      | .lost => some ended := by
  unfold State.rebuildStep
  simp only [hr, hl, hx, bne_self_eq_false, Bool.false_eq_true, if_false]
  refine (State.tokStep_ok (a := (ps, TokEnt.ofNat 0 (natOfBytes eb), es)) (t := s3) ?_ _ _).trans rfl
  exact (TokM.run_bind_ok hm _).trans ((TokM.run_bind_ok hes _).trans ((TokM.run_bind_ok heb _).trans rfl))

theorem State.rebuildStep_ended (he : (TokEnt.ofNat 0 (natOfBytes eb)).st ≠ 5) :
    s.rebuildStep ctx entry answers = some { s3 with rebuilds := s3.rebuilds.filter (· != r) } := by
  rw [State.rebuildStep_answered hr hl hx hm hes heb]
  exact if_pos (by simpa using he)

theorem State.rebuildStep_sealed {s4 s5 : State} (he : (TokEnt.ofNat 0 (natOfBytes eb)).st = 5)
    (hp : ({ s3 with rebuilds := s3.rebuilds.filter (· != r) } : State).putSlot ps bs = .ok s4)
    (hw : s4.putRecords (es.map fun p => (p.pa, { TokEnt.ofNat 0 (natOfBytes eb) with st := 2 }.bytes)) = .ok s5) :
    s.rebuildStep ctx entry answers = some s5 := by
  rw [State.rebuildStep_answered hr hl hx hm hes heb]
  dsimp only
  rw [if_neg (by simp [he]), hp]
  dsimp only
  rw [hw]

end

end Sys2Proof.Machine

/-- Settles O51: each event's step, from what its reads, writes and plans return. -/
theorem tokenEvents : Obligations.TokenEvents := by
  intro s
  refine ⟨?perform, ?pool, ?back, ?push, ?fold, ?read, ?parity, ?replace⟩
  case perform =>
    intro line q gr o hq hg ho hs hc
    refine ⟨fun l row s1 hl hr => event_of_some (State.tokenStep_source hq hg ho hs hc hl hr),
      fun l s1 hsrc hl hr => event_of_some (State.tokenStep_row hq hg ho hs hc hsrc hl hr), ?_⟩
    intro s0 s1 hsrc hrows hn hp hw
    obtain ⟨hstate, hqueue, hfrees⟩ := q.updated_facts s1
    have hstep := (State.tokenStep_update hq hg ho hs hc hsrc hrows).trans (State.tokUpdate_ok (TokenOp.folded_ok hn hp) hw)
    refine ⟨q.updated s1, event_of_some hstep, hstate, hqueue, ⟨s1.freed q, hfrees,
      State.freed_map s1 q _ _ fun _ => rfl, State.freed_map s1 q _ _ fun _ => rfl, fun f hf => State.freed_mem hf⟩, ?_⟩
    intro gr1 o1 hg1 ho1
    obtain ⟨hop, hhorizon⟩ := q.answers_op? s1.cycle ho1
    exact ⟨_, TokenOp.updated_group? hg1, hop, hhorizon⟩
  case pool =>
    intro line q bs s1 hq hr
    have hstep := State.poolStep_first hq
    exact ⟨fun n hs => ⟨fun hf => event_of_some (hstep.trans (State.poolOf_full hr hs hf)),
        fun hf s2 hw => event_of_some (hstep.trans (State.poolOf_reserve hr hs hf hw))⟩,
      fun k hs s2 hw => event_of_some (hstep.trans (State.poolOf_pop hr hs hw)),
      fun k hs s2 hw => event_of_some (hstep.trans (State.poolOf_unreserve hr hs hw))⟩
  case back =>
    intro line q slots ws s1 s2 hall hq hs hp hw
    exact event_of_some ((State.poolStep_back hall hq).trans (State.poolOf_back hs hp hw))
  case push =>
    intro line f ws s1 s2 hf hp hw
    exact event_of_some (State.pushStep_ok hf hp hw)
  case fold =>
    intro ctx rec_ slot bs
    exact ⟨fun hh => event_of_some (State.parityStep_held hh),
      fun a ps cs s1 s2 hh hm ha hp => event_of_some ((State.parityStep_free hh).trans (State.foldIn_ok hm ha hp))⟩
  case read =>
    intro peer ctx rec_ slot a ps bs s1 s2 hm
    refine ⟨fun ds ha hh hd => event_of_some (State.rebuildReadStep_parity hm ha hh hd), fun counted ha hc => ?_⟩
    have hstep := State.rebuildReadStep_reply (peer := peer) hm ha hc
    refine ⟨fun hkept => event_of_some (hstep.trans ?_), fun f hf p hctx hrec hslot hp ho => event_of_some (hstep.trans ?_)⟩
    · rcases hkept with rfl | hkept
      · rfl
      · rw [State.foldWaits_of_kept hkept, Bool.or_false]
    · subst hctx hrec hslot
      rw [State.foldWaits_of_fold hf hp ho, Bool.or_true, if_pos rfl]
  case parity =>
    intro ctx rec_ slot peer answers hr hk
    have hstep := State.rebuildStep_held (answers := answers) hr hk
    refine ⟨?_, ?_⟩
    · rintro r rfl hl
      exact ⟨fun hx => event_of_some (hstep.trans (State.parityAnswer_refuses hl hx)),
        fun a ps bs cs s1 hx hm => event_of_some (hstep.trans (State.parityAnswer_replies hl hx hm))⟩
    · rintro rfl
      exact ⟨fun hno => event_of_some (hstep.trans (State.releaseFolds_none hno)),
        fun bs a ps cs s1 s2 hf hm ha hp => event_of_some (hstep.trans (State.releaseFolds_first hf hm ha hp))⟩
  case replace =>
    intro ctx entry answers r hr hl
    refine ⟨fun hx => event_of_some (State.rebuildStep_fails hr hl hx), ?_⟩
    intro bs a ps cs es eb s1 s2 s3 s4 s5 hx c hm hes heb
    exact ⟨fun he => event_of_some (State.rebuildStep_ended hr hl hx hm hes heb he),
      fun he hp hw => event_of_some (State.rebuildStep_sealed hr hl hx hm hes heb he hp hw)⟩

end

/-!
PROOF. O33, StageRings: the checks of a stage instruction in a ready state, what STAGE.OUT enters and advances, and what
STAGE.IN enters.
-/

section
open Sys2Proof Sys2Proof.Machine
namespace Sys2Proof.Machine

/-! ### The ring's fields -/

theorem ringAdvance_eq (c d : Nat) : ringAdvance c d = cursorAfter c d := by
  unfold ringAdvance cursorAfter bitsOf
  grind

theorem ringRegs_eq (d : Nat) : ringRegs d = (d / 2 ^ 12 % 2 ^ 6 + 1 + 7) / 8 := rfl

theorem ringSlot_eq {c d : Nat} : ringSlot c d = d / 2 ^ 18 % 2 ^ 14 + c % 256 * (d / 2 ^ 12 % 2 ^ 6 + 1 + 1) := by
  unfold ringSlot ringBase ringPayload bitsOf
  simp

/-! ### The checks -/

section
variable {x : Iss} {d : Opnd} {cur desc : Nat}

theorem Iss.stageRegs_none (h1 : d.idx + ringRegs desc ≤ 512) (h2 : d.idx + ringRegs desc ≤ 32 * x.gr.vhold) :
    x.stageRegs d desc = none := by
  unfold Iss.stageRegs Group.vHeld
  rw [if_neg (by omega), if_neg (by simpa using h2)]

theorem Iss.stageRange_none {c : WgCore} (hc : x.w.onCore x.gr.core = some c)
    (hs : 16 * (ringSlot cur desc + ringPayload desc + 1) ≤ c.size) : x.stageRange cur desc = none := by
  unfold Iss.stageRange
  rw [hc]
  exact if_neg (Nat.not_lt.2 hs)

theorem Iss.payloadEmpty_none {k : Nat} (h : ∀ j < k, x.gr.isFull (.v (d.idx + j)) = true) : x.payloadEmpty d k = none := by
  unfold Iss.payloadEmpty
  simp only [List.find?_eq_none, List.mem_map, List.mem_range]
  rintro r ⟨j, hj, rfl⟩
  simp [h j hj]

end

/-! ### The visit -/

theorem State.modCore_atCore (s : State) (core : Nat) (f : Core → Core) : AtCore s (s.modCore core f) core f :=
  ⟨rfl, State.core_modCore s core f, fun _ hn => State.core_modCore_ne s f hn⟩

/-- One operation enters the way to a bank of its core. -/
theorem State.sendBanks_atCore (s : State) (core : Nat) (b : BankOp) :
    AtCore s (s.sendBanks [(core, b)]) core fun c => { c with bankQ := c.bankQ ++ [b] } :=
  s.modCore_atCore core fun c => { c with bankQ := c.bankQ ++ [b] }

/-! ### STAGE.OUT -/

/-- The operation of a STAGE.OUT keeps its payload rows. -/
def Iss.stageOutOp (x : Iss) (i : Instr) (d a b : Opnd) : Op :=
  { x.newOp i [] with
    todo := 1, args := [BitVec.ofNat 64 (x.word 1 a), BitVec.ofNat 64 (x.word 2 b)]
    rows := (List.range (ringRegs (x.word 2 b))).map fun j => x.gr.vreg (d.idx + j) }

/-- The cursor of a STAGE.OUT is advanced in its register, which is full. -/
def Group.advanceCursor (gr : Group) (a : Opnd) (cur desc : Nat) : Group :=
  (gr.putS a.idx (BitVec.ofNat 32 (ringAdvance cur desc))).markFull [.s a.idx]

section
variable (gr : Group) (a : Opnd) (cur desc : Nat)

theorem Group.advanceCursor_rest : gr.advanceCursor a cur desc =
    { gr with s := (gr.advanceCursor a cur desc).s, sb := (gr.advanceCursor a cur desc).sb } := rfl

theorem Group.advanceCursor_sreg (j : Nat) : (gr.advanceCursor a cur desc).sreg j =
    if j = a.idx then BitVec.ofNat 32 (cursorAfter cur desc) else gr.sreg j := by
  rw [← ringAdvance_eq]
  exact look_put 0 _ gr.s a.idx j

theorem Group.advanceCursor_isFull (r : Reg) :
    (gr.advanceCursor a cur desc).isFull r = (gr.isFull r || decide (r = .s a.idx)) := by
  unfold Group.advanceCursor
  rw [Group.isFull_markFull, Bool.or_comm]
  congr 1
  by_cases hr : r = .s a.idx <;> simp [hr]

end

theorem stageOutBody_of_fits {i : Instr} {d a b : Opnd} {x : Iss} (hregs : x.stageRegs d (x.word 2 b) = none)
    (hfull : x.payloadEmpty d (ringRegs (x.word 2 b)) = none) (hrange : x.stageRange (x.word 1 a) (x.word 2 b) = none) :
    stageOutBody i d a b x = .state (((x.launchOp i (x.stageOutOp i d a b)).modGroup x.h x.g fun gr =>
      gr.advanceCursor a (x.word 1 a) (x.word 2 b)).sendBanks
        [(x.gr.core, x.stageVisit true x.gr.nextSeq (x.word 1 a) (x.word 2 b))]) := by
  unfold stageOutBody
  dsimp only
  rw [hregs, hfull, hrange]
  rfl

/-! ### STAGE.IN -/

/-- The registers that a STAGE.IN fills. -/
def stageDst (d : Opnd) (desc : Nat) : List Reg := (List.range (ringRegs desc)).map fun j => Reg.v (d.idx + j)

/-- The operation of a STAGE.IN waits for its header. -/
def Iss.stageInOp (x : Iss) (i : Instr) (d a b : Opnd) : Op :=
  { x.newOp i (stageDst d (x.word 2 b)) with
    qual := .wait, todo := 1, isLoad := true, args := [BitVec.ofNat 64 (x.word 1 a), BitVec.ofNat 64 (x.word 2 b)] }

/-- The older producers of its payload stay known beside it. -/
def Iss.keepOlder (x : Iss) (dst : List Reg) (gr : Group) : Group :=
  { gr with sb := gr.sb ++ x.gr.sb.filter fun e => dst.contains e.reg }

/-- They mark nothing empty that is not empty already. -/
theorem Iss.Enters.keepOlder_isFull {x : Iss} {i : Instr} {o : Op} {gr : Group} (h : x.Enters i o gr) (r : Reg) :
    (x.keepOlder o.dst gr).isFull r = gr.isFull r := by
  by_cases hr : r ∈ o.dst
  · have hgr : gr.isFull r = false := by simp [h.empty r, hr]
    rw [hgr]
    unfold Group.isFull at hgr ⊢
    simp only [Bool.not_eq_false'] at hgr ⊢
    simp [Iss.keepOlder, hgr]
  · unfold Group.isFull Iss.keepOlder
    have hnone : ((x.gr.sb.filter fun e => o.dst.contains e.reg).any fun e => e.reg == r) = false := by
      simp only [List.any_eq_false, List.mem_filter]
      rintro e ⟨-, he⟩ h
      have : e.reg = r := by simpa using h
      exact hr (by simpa [this] using he)
    rw [List.any_append, hnone, Bool.or_false]

theorem stageInBody_of_fits {i : Instr} {d a b : Opnd} {x : Iss} (hregs : x.stageRegs d (x.word 2 b) = none)
    (hrange : x.stageRange (x.word 1 a) (x.word 2 b) = none) :
    stageInBody i d a b x = .state (((x.holdOp i (x.stageInOp i d a b)).modGroup x.h x.g
      (x.keepOlder (stageDst d (x.word 2 b)))).sendBanks
        [(x.gr.core, x.stageVisit false x.gr.nextSeq (x.word 1 a) (x.word 2 b))]) := by
  unfold stageInBody
  dsimp only
  rw [hregs, hrange]
  rfl

end Sys2Proof.Machine

/-- Settles O33: with its checks passed, a stage instruction enters its operation and sends the visit of its slot. -/
theorem stageRings : Obligations.StageRings := by
  unfold Obligations.StageRings
  intro s x c d a b cur desc n k head visit hfits
  obtain ⟨h512, hheld, here, hhere, hsize⟩ := hfits
  have hregs : x.stageRegs d desc = none := Iss.stageRegs_none h512 hheld
  have hrange : x.stageRange cur desc = none := Iss.stageRange_none hhere (by rw [ringSlot_eq]; exact hsize)
  have hvisit : ∀ (gr : Group) (o : Op) (out : Bool), o.seq = x.gr.nextSeq →
      visit ((s.setGroup x.h x.g gr).sendBanks [(x.gr.core, x.stageVisit out x.gr.nextSeq cur desc)]) gr o
        (x.stageVisit out x.gr.nextSeq cur desc) := fun gr o out hseq =>
    ⟨State.sendBanks_atCore .., rfl, ringSlot_eq, rfl, hseq.symm, rfl, rfl⟩
  refine ⟨fun _ h hfull => ?_, fun _ h => ?_⟩
  · obtain ⟨hs, hw, -, hap, hpath⟩ := h.facts
    obtain ⟨mid, hst, hent, hbeh⟩ := Iss.launchOp_enters (i := .stageOut c d a b) (o := x.stageOutOp (.stageOut c d a b) d a b)
      ⟨rfl, rfl, rfl, rfl, rfl, rfl, rfl, rfl, rfl⟩ hap hpath
    refine ⟨mid, mid.advanceCursor a cur desc, _, x.stageVisit true x.gr.nextSeq cur desc, _, ?_, hent, hbeh, rfl, rfl,
      mid.advanceCursor_rest a cur desc, ?_, fun j hj => ?_, mid.advanceCursor_isFull a cur desc,
      hvisit _ _ true rfl, rfl⟩
    · rw [exec_of h (body := stageOutBody (.stageOut c d a b) d a b) rfl,
        stageOutBody_of_fits hregs (Iss.payloadEmpty_none hfull) hrange, hst, hs, State.modGroup_setGroup hw, Iss.finish]
    · rw [Group.advanceCursor_sreg, if_pos rfl]
    · rw [Group.advanceCursor_sreg, if_neg hj, hent.rest]
      rfl
  · obtain ⟨hs, hw, -, hap, hpath⟩ := h.facts
    obtain ⟨mid, hst, hent, hwait⟩ := Iss.holdOp_enters (i := .stageIn c d a b) (o := x.stageInOp (.stageIn c d a b) d a b)
      ⟨rfl, rfl, rfl, rfl, rfl, rfl, rfl, rfl, rfl⟩ hap hpath
    refine ⟨mid, x.keepOlder (stageDst d desc) mid, _, x.stageVisit false x.gr.nextSeq cur desc, _, ?_, hent, hwait, rfl, rfl,
      hent.keepOlder_isFull, hvisit _ _ false rfl, rfl⟩
    rw [exec_of h (body := stageInBody (.stageIn c d a b) d a b) rfl, stageInBody_of_fits hregs hrange, hst, hs,
      State.modGroup_setGroup hw, Iss.finish]

end

/-!
PROOF. O34, ClusterMembership: Table 4.5 and the leave of a group, decided right after the issue of a CJOIN or a CLEAVE.
-/

section
open Sys2Proof Sys2Proof.Machine
namespace Sys2Proof.Machine

/-! ### A position that is free -/

section
variable {w : Workgroup} {k : Nat}

/-- Position p of cluster k is held. -/
theorem heldPos_iff {p : Nat} : (w.cores.any fun c => c.cluster == some k && c.pos == p) = true ↔
    ∃ m ∈ w.cores, m.cluster = some k ∧ m.pos = p := by
  simp

theorem Workgroup.freePos_none (h : ∀ p < 16, ∃ m ∈ w.cores, m.cluster = some k ∧ m.pos = p) : w.freePos k = none := by
  refine List.find?_eq_none.2 fun p hp => ?_
  rw [heldPos_iff.2 (h p (List.mem_range.1 hp))]
  decide

theorem Workgroup.freePos_lowest {p : Nat} (hp : p < 16) (hfree : ∀ m ∈ w.cores, m.cluster = some k → m.pos ≠ p)
    (hheld : ∀ p' < p, ∃ m ∈ w.cores, m.cluster = some k ∧ m.pos = p') : w.freePos k = some p := by
  refine (List.find?_range_eq_some).2 ⟨?_, List.mem_range.2 hp, fun j hj => ?_⟩
  · rw [Bool.not_eq_true', ← Bool.not_eq_true, heldPos_iff]
    rintro ⟨m, hm, hc, hpos⟩
    exact hfree m hm hc hpos
  · rw [heldPos_iff.2 (hheld j hj)]
    rfl

end

/-! ### The group that has issued -/

/-- A group `gr` of the issuer's workgroup in the state `t`, on the issuer's core with the part `here`. -/
structure Iss.Stands (x : Iss) (t : State) (gr : Group) (here : WgCore) : Prop where
  wg : ∃ w, t.wg? x.h = some w ∧ w.cores = x.w.cores
  group : t.group? x.h x.g = some gr
  core : gr.core = x.gr.core
  joined : gr.joined = x.gr.joined
  part : x.w.onCore x.gr.core = some here

theorem Iss.Enters.stands {s : State} {x : Iss} {i : Instr} {o : Op} {gr : Group} {here : WgCore} (he : x.Enters i o gr)
    (hw : s.wg? x.h = some x.w) (hh : x.w.onCore x.gr.core = some here) : x.Stands (s.setGroup x.h x.g gr) gr here where
  wg := ⟨_, State.wg?_setGroup_same hw x.g gr, rfl⟩
  group := State.group?_setGroup_same hw x.g gr
  core := by rw [he.rest]
  joined := by rw [he.rest]
  part := hh

namespace Iss.Stands
variable {x : Iss} {t : State} {gr : Group} {here : WgCore} (h : x.Stands t gr here)
include h

theorem onCore {w : Workgroup} (hw : t.wg? x.h = some w) : w.onCore x.gr.core = some here := by
  obtain ⟨w', hw', hc⟩ := h.wg
  obtain rfl := Option.some.inj (hw'.symm.trans hw)
  rw [← h.part]
  unfold Workgroup.onCore
  rw [hc]

/-! ### CJOIN -/

/-- A CJOIN whose core is not leaving is decided. -/
theorem join_eq (hl : here.leaving = none) (seq k : Nat) : t.join x.h x.g seq k = t.decideJoin x.h x.g seq k := by
  obtain ⟨w, hw, -⟩ := h.wg
  have hg := h.group
  rw [State.group?, hw, Option.bind_some] at hg
  unfold State.join
  rw [hw, Option.bind_some, hg, Option.bind_some, h.core, h.onCore hw]
  dsimp only
  rw [hl]
  rfl

/-- Table 4.5, for the core of the group. -/
theorem decideJoin_eq (seq k : Nat) : t.decideJoin x.h x.g seq k =
    if 7 < k then t.answer x.h x.g seq [0xFFFFFFFF, 3]
    else match here.cluster with
      | some j =>
        if j != k then t.answer x.h x.g seq [0xFFFFFFFF, 2]
        else (if x.gr.joined then t
          else (t.modWg x.h (·.modCore x.gr.core fun c => { c with joins := c.joins + 1 })).setJoined x.h x.g true).answer
            x.h x.g seq [BitVec.ofNat 32 here.pos, 0]
      | none => match x.w.freePos k with
        | none => t.answer x.h x.g seq [0xFFFFFFFF, 1]
        | some p => (t.modWg x.h (·.modCore x.gr.core fun c =>
            { c with cluster := some k, pos := p, joins := 1, joining := some (x.g, seq) })).setJoined x.h x.g true := by
  obtain ⟨w, hw, hc⟩ := h.wg
  have hfree : w.freePos k = x.w.freePos k := by
    unfold Workgroup.freePos
    rw [hc]
  unfold State.decideJoin
  simp only [hw, h.group, h.core, h.onCore hw, h.joined, hfree]
  rfl

/-! ### CLEAVE -/

theorem cleave_unjoined (hj : x.gr.joined = false) (by_ : Option (Nat × Nat)) : t.cleave x.h x.g by_ = (some 0, t) := by
  obtain ⟨w, hw, -⟩ := h.wg
  unfold State.cleave
  rw [hw, h.group]
  dsimp only
  rw [h.joined, hj]
  rfl

/-- A joined group leaves; with the last one the core starts to leave. -/
theorem cleave_joined (hj : x.gr.joined = true) (by_ : Option (Nat × Nat)) : t.cleave x.h x.g by_ =
    let left := (t.setJoined x.h x.g false).modWg x.h (·.modCore x.gr.core fun c => { c with joins := c.joins - 1 })
    if here.joins ≤ 1 then (none, left.modWg x.h (·.startLeave x.gr.core by_)) else (some 1, left) := by
  obtain ⟨w, hw, -⟩ := h.wg
  have hjoined : gr.joined = true := h.joined.trans hj
  unfold State.cleave
  simp only [hw, h.group, h.core, h.onCore hw, hjoined, Bool.not_true, Bool.false_eq_true, if_false, Option.map_some,
    Option.getD_some]

end Iss.Stands

/-! ### The instructions -/

/-- The operation of a CJOIN or a CLEAVE owes one answer. -/
def Iss.memberOp (x : Iss) (i : Instr) (args : List (BitVec 64)) : Op :=
  { x.newOp i (x.dstRegs i) with todo := 1, args := args }

theorem Iss.memberOp_what (x : Iss) (i : Instr) (args : List (BitVec 64)) :
    let o := x.memberOp i args
    o.seq = x.gr.nextSeq ∧ o.instr = i ∧ o.path = x.p ∧ o.pc = x.pc ∧ o.mask = x.m ∧ o.x = x.x
      ∧ o.cls = i.ctrClass ∧ o.paths = [x.p] ∧ o.prior = x.priorOps :=
  ⟨rfl, rfl, rfl, rfl, rfl, rfl, rfl, rfl, rfl⟩

/-- CLEAVE answers what its group's leave gives, if that gives an answer. -/
theorem cleaveBody_eq (i : Instr) (x : Iss) : cleaveBody i x =
    .state (match (x.launchOp i (x.memberOp i [])).cleave x.h x.g (some (x.g, x.gr.nextSeq)) with
      | (some v, u) => u.answer x.h x.g x.gr.nextSeq [BitVec.ofNat 32 v]
      | (none, u) => u) := by
  change Res.state (match (x.launchOp i (x.memberOp i [])).cleave x.h x.g (some (x.g, x.gr.nextSeq)) with
    | r => match r.1 with
      | some v => r.2.answer x.h x.g x.gr.nextSeq [BitVec.ofNat 32 v]
      | none => r.2) = _
  generalize (x.launchOp i (x.memberOp i [])).cleave x.h x.g (some (x.g, x.gr.nextSeq)) = r
  obtain ⟨_ | v, u⟩ := r <;> rfl

end Sys2Proof.Machine

/-- Settles O34: a CJOIN is decided by Table 4.5 in the state its issue has left, a CLEAVE by its group's joined bit and its
core's count. -/
theorem clusterMembership : Obligations.ClusterMembership := by
  unfold Obligations.ClusterMembership
  intro s x c here hhere
  refine ⟨fun d b _ h hleave => ?_, fun d _ h => ?_⟩
  · intro k
    obtain ⟨hs, hw, -, hap, hpath⟩ := h.facts
    obtain ⟨gr, hst, hent, hbeh⟩ := Iss.launchOp_enters (x.memberOp_what (.cjoin c d b) [BitVec.ofNat 64 k]) hap hpath
    have hstands := hent.stands hw hhere
    have hexec : exec (.cjoin c d b) s = .next ((s.setGroup x.h x.g gr).decideJoin x.h x.g x.gr.nextSeq k) := by
      rw [exec_of h (body := cjoinBody (.cjoin c d b) b) rfl, ← hstands.join_eq hleave, ← hs, ← hst]
      rfl
    rw [hstands.decideJoin_eq] at hexec
    refine ⟨gr, _, hent, hbeh, rfl, rfl, ?_⟩
    intro t joined ends
    refine ⟨fun hk => ?_, fun hk j hj hne => ?_, fun hk hj => ?_, fun hk hj hall => ?_, fun p hp hk hj hfree hheld => ?_⟩
    · rw [if_pos hk] at hexec
      exact hexec
    · rw [if_neg (Nat.not_lt.2 hk), hj] at hexec
      exact hexec.trans (congrArg Host.Outcome.next (if_pos (bne_iff_ne.2 hne)))
    · rw [if_neg (Nat.not_lt.2 hk), hj] at hexec
      exact hexec.trans (congrArg Host.Outcome.next (if_neg fun hne => bne_iff_ne.1 hne rfl))
    · rw [if_neg (Nat.not_lt.2 hk), hj, Workgroup.freePos_none hall] at hexec
      exact hexec
    · rw [if_neg (Nat.not_lt.2 hk), hj, Workgroup.freePos_lowest hp hfree hheld] at hexec
      exact hexec
  · obtain ⟨hs, hw, -, hap, hpath⟩ := h.facts
    obtain ⟨gr, hst, hent, hbeh⟩ := Iss.launchOp_enters (x.memberOp_what (.cleave c d) []) hap hpath
    have hstands := hent.stands hw hhere
    have hexec : exec (.cleave c d) s = .next (match (s.setGroup x.h x.g gr).cleave x.h x.g (some (x.g, x.gr.nextSeq)) with
        | (some v, u) => u.answer x.h x.g x.gr.nextSeq [BitVec.ofNat 32 v]
        | (none, u) => u) := by
      rw [exec_of h (body := cleaveBody (.cleave c d)) rfl, ← hs, ← hst, cleaveBody_eq]
      rfl
    refine ⟨gr, _, hent, hbeh, rfl, rfl, ?_⟩
    intro t left
    refine ⟨fun hj => ?_, fun hj hc => ?_, fun hj hc => ?_⟩
    · rw [hexec, hstands.cleave_unjoined hj]
      rfl
    · rw [hexec, hstands.cleave_joined hj]
      dsimp only
      rw [if_neg (Nat.not_le.2 hc)]
      rfl
    · rw [hexec, hstands.cleave_joined hj]
      dsimp only
      rw [if_pos hc]
      rfl

end

/-!
PROOF. O46, CoreEvents: it fails. Nothing in the statement asks that an operation on a granule have an access, and `BankOp.acc`
of one without is operation 0 of group 0 of workgroup 0. The condition on the operation's accesses then says nothing, and where
that operation is a STAGE.IN whose header is full, a qualified load without accesses takes its slot and leaves the granule empty;
the statement says that LD.WAIT leaves it full.
-/

section
open Sys2Proof Sys2Proof.Machine
namespace Sys2Proof.Machine

/-- LD.WAIT on granule 0, with no access. -/
def waitWithoutAccess : BankOp :=
  { wg := 0, src := 0, pos := none, prior := [], qual := .wait, isStore := false, eng := false, gran := 0, accs := [] }

/-- A STAGE.IN at slot 0 of a ring whose payload is one granule. -/
def slotTaker : Op :=
  { seq := 0, path := 0, pc := 0
    instr := .stageIn ⟨.always, ⟨false, false, false, false, false, false, 0⟩⟩ (.v false false 8) (.s false false 20) (.s false false 21)
    mask := 0, x := 0, scope := .grp, cls := none, isLoad := false, isStore := false, isAtom := false, qual := .none, todo := 1
    owed := 0, acks := [], dst := [], res := [], got := 0, landed := false, pend := 0, stat := 0, fl := 0, cause := none
    leafs := [], args := [0, 0], rows := [], fin := false, segs := [], step := 0, gvt := 0, paths := [0], prior := [] }

/-- A workgroup on core 0 with one granule, which is full. -/
def oneGranule : Workgroup :=
  { handle := 0, raw := 0, launcher := 0, tenancy := 0, shadow := false
    cores := [{ core := 0, base := 0, size := 16, grans := [(0, { data := 0, full := true, waiters := [] })], freed := false
                cluster := none, pos := 0, joins := 0, map := [], joining := none, leaving := none, cleaver := none }]
    groups := [], kill := none, evict := .no, claims := [], phases := [] }

/-- The STAGE.IN is operation 0 of group 0, and the LD.WAIT is on its way to the granule. -/
def takenByWait : State :=
  { State.reset with
    wgs := [(0, { oneGranule with
      groups := [(0, { Group.fresh State.reset oneGranule 0 0 with ops := [slotTaker], nextSeq := 1 })] })]
    cores := [(0, { Core.empty with bankQ := [waitWithoutAccess] })] }

/-- The bit of the granule after an event. -/
def fullAfter (r : Out) : Option Bool :=
  match r with
  | .next t => some (t.gran 0 0 0).full
  | _ => none

/-- The LD.WAIT has taken the slot of the STAGE.IN. -/
theorem takenByWait_empties : fullAfter (exec (.granuleOp 0 0) takenByWait) = some false := by decide +kernel

/-- What the obligation says of an operation without accesses. -/
theorem fullAfter_of_obligation (h : Obligations.CoreEvents) {s : State} {core k : Nat} {b : BankOp} (hacc : b.accs = [])
    (hb : (s.core core).bankNext k = some b) (hst : s.stageBehind b = false) (hq : b.qual = .wait) (hload : b.isStore = false)
    (heng : b.eng = false) (hfull : (s.gran b.wg core b.gran).full = true) (hno : (s.gran b.wg core b.gran).waiters = [])
    (hthere : ((s.wg? b.wg).bind (·.onCore core)).isSome = true) :
    ∃ t, exec (.granuleOp core k) s = .next t ∧ (t.gran b.wg core b.gran).full = true := by
  have hwaits : (s.gran b.wg core b.gran).waits b.qual b.isStore = false := by
    rw [hq, hload]
    show (!(s.gran b.wg core b.gran).full) = false
    rw [hfull]
    rfl
  obtain ⟨t, ht, hbit, -⟩ := ((h s core).1 k b hb hst).2.2.1 (by rw [hq]; decide) heng hwaits hno (fun _ => hthere)
    (fun a ha => absurd ha (by simp [hacc]))
  exact ⟨t, ht, by rw [hbit, hq, hload]⟩

end Sys2Proof.Machine

/-- Refutes O46: an LD.WAIT that has no access performs as the STAGE.IN that is operation 0 of group 0 of workgroup 0, and leaves
its granule empty. -/
theorem not_coreEvents : ¬ Obligations.CoreEvents := by
  intro h
  obtain ⟨t, ht, hfull⟩ := fullAfter_of_obligation h (s := takenByWait) (core := 0) (k := 0) (b := waitWithoutAccess) rfl
    (by decide +kernel) (by decide +kernel) rfl rfl rfl (by decide +kernel) (by decide +kernel) (by decide +kernel)
  have hempty := takenByWait_empties
  rw [ht] at hempty
  exact absurd (hfull.symm.trans (Option.some.inj hempty)) (by decide)

end

/-!
PROOF. O50, HomeEvents: it fails. A lease under a new tag of its line drops the older tags from the quad's L1s (R35), and their
dirty data goes to L2. Where a core of the quad holds the line modified through a page with another tag, L2 then has that core's
data, and not what the read found there.
-/

section
open Sys2Proof Sys2Proof.Machine
namespace Sys2Proof.Machine

/-- A translation by context 0's descriptor. -/
def leasedPage : Trans :=
  { ctx := 0, va := 0, size := 0x1_0000, pa := 0x10_0000
    attr := { rd := true, w := true, x := false, sup := false, coh := .lse, stor := .normal }
    aknown := true, dknown := true, leaf := 0x8008, seen := [], via := [0] }

/-- An LSE read of line 0x10_0000 by core 0, with a lease of 16 ticks and no access, whose tag is the line's own address. -/
def leaseRequest : HomeReq := .lseRead 0 16 0 0x10_0000 leasedPage []

/-- Core 0 holds the line modified through another tag when its read comes to the home. -/
def modifiedSynonym : State :=
  { State.reset with
    cores := [(0, { Core.empty with l1d := [{ ctx := 0, vline := 0, line := 0x10_0000, st := .m, data := 1, tr := leasedPage
                                              stamp := 0, lastStore := 0 }] })]
    msgs := [{ core := 0, line := 0x10_0000, toHome := true, kind := .req leaseRequest }] }

/-- The data of line 0x10_0000 in L2. -/
def State.leasedData (s : State) : Option Row := (s.l2? 0x10_0000).map (·.data)

/-- The data of the line in L2 after an event. -/
def leasedAfter (r : Out) : Option Row :=
  match r with
  | .next t => t.leasedData
  | _ => none

/-- The read finds 0, and leaves what core 0 had. -/
theorem modifiedSynonym_after : leasedAfter (exec (.lseRead 0 0x10_0000) modifiedSynonym) = some 1 := by decide +kernel

theorem State.settleRest_of_no_homes {s : State} (h : s.homes = []) : s.settleRest = s := by
  unfold State.settleRest
  rw [h]
  rfl

/-- The state in which the home has the request. -/
def leaseRequested : State := { modifiedSynonym with msgs := [] }

theorem modifiedSynonym_take : modifiedSynonym.take? 0 0x10_0000 true = some (.req leaseRequest, leaseRequested) := by
  unfold State.take? leaseRequested modifiedSynonym
  rfl

theorem leaseRequested_homeValue : (leaseRequested.reached 0 0x10_0000).homeValue 0x10_0000 = 0 := by decide +kernel

end Sys2Proof.Machine

/-- Refutes O50: an LSE read with a lease drops a modified synonym of its line, whose data goes to L2 after the read. -/
theorem not_homeEvents : ¬ Obligations.HomeEvents := by
  intro h
  obtain ⟨-, -, -, -, -, -, -, hread, -⟩ := h modifiedSynonym leaseRequested 0 0x10_0000
  obtain ⟨t, ht, -, hhomes, ⟨y, hy, hdata⟩, -⟩ := hread 16 0 0x10_0000 leasedPage [] modifiedSynonym_take (by decide +kernel)
    ⟨rfl, by decide +kernel, by decide +kernel⟩
  have hleft := modifiedSynonym_after
  rw [ht, State.settleRest_of_no_homes (hhomes.trans rfl)] at hleft
  have hfound : t.leasedData = some 0 := by
    rw [State.leasedData, hy, Option.map_some, hdata, leaseRequested_homeValue]
  exact absurd (hfound.symm.trans hleft) (by decide +kernel)

end

/-!
PROOF. O49, LineRequests, first part: the homes of a state, and the work on one line that does not read them.
-/

section
open Sys2Proof Sys2Proof.Machine
namespace Sys2Proof.Machine

/-! ### The state with other homes -/

abbrev State.withHomes (s : State) (hs : List HomeTxn) : State := { s with homes := hs }

/-- The state in which a request is in progress besides. -/
abbrev State.during (s : State) (t : HomeTxn) : State := s.withHomes (s.homes ++ [t])

namespace State
variable (s : State) (hs : List HomeTxn) (line : Nat)

theorem dropL2_withHomes : (s.withHomes hs).dropL2 line = (s.dropL2 line).withHomes hs := by
  unfold State.dropL2
  rw [show (s.withHomes hs).l2? line = s.l2? line from rfl]
  cases s.l2? line with
  | none => rfl
  | some l =>
    dsimp only
    cases l.dirty <;> cases l.stamps.lv <;> simp only [Bool.not_true, Bool.not_false, Bool.false_eq_true, if_true, if_false]

theorem putL2_withHomes (row : Row) (d : Bool) : (s.withHomes hs).putL2 line row d = (s.putL2 line row d).withHomes hs := by
  unfold State.putL2
  rw [show (s.withHomes hs).l2? line = s.l2? line from rfl, show (s.withHomes hs).l2Victim line = s.l2Victim line from rfl]
  cases s.l2? line with
  | some l => rfl
  | none => cases s.l2Victim line with
    | none => rfl
    | some v =>
      dsimp only
      rw [dropL2_withHomes]
      rfl

theorem takeBack_withHomes : (s.withHomes hs).takeBack line = (s.takeBack line).withHomes hs := by
  have h : (s.withHomes hs).saveOwner line = (s.saveOwner line).withHomes hs := by
    unfold State.saveOwner
    rw [show (s.withHomes hs).owner? line = s.owner? line from rfl]
    cases s.owner? line with
    | none => rfl
    | some x =>
      dsimp only
      rw [putL2_withHomes]
      split <;> rfl
  unfold State.takeBack
  rw [h]

theorem takeBacks_withHomes (ls : List Nat) : ls.foldl (fun s l => s.takeBack l) (s.withHomes hs) =
    (ls.foldl (fun s l => s.takeBack l) s).withHomes hs :=
  List.foldl_hom (fun s : State => s.withHomes hs) fun s l => s.takeBack_withHomes hs l

theorem dropEntry_withHomes (e : TrackEnt) : (s.withHomes hs).dropEntry e = (s.dropEntry e).withHomes hs := by
  unfold State.dropEntry
  dsimp only
  rw [takeBacks_withHomes]

theorem splitTrack_withHomes : (s.withHomes hs).splitTrack line = (s.splitTrack line).withHomes hs := by
  unfold State.splitTrack
  rw [show (s.withHomes hs).track? line = s.track? line from rfl]
  cases s.track? line <;> rfl

theorem freeK_withHomes (n : Nat) : (s.withHomes hs).freeK line n = s.freeK line n := by
  induction n with
  | zero => rfl
  | succ n ih =>
    unfold State.freeK
    rw [ih]

theorem newTrack_withHomes (ten : Nat) : (s.withHomes hs).newTrack line ten = (s.newTrack line ten).withHomes hs := by
  unfold State.newTrack
  rw [freeK_withHomes]
  rfl

end State

/-! ### Room for a tracking entry -/

/-- `t` is `s` but for its lines and the directory. -/
structure State.TrackOnly (s t : State) : Prop where
  eq : t = { s with mem := t.mem, l2 := t.l2, highWater := t.highWater, cores := t.cores, dir := t.dir }

namespace State.TrackOnly
variable {s t u : State}

theorem refl (s : State) : TrackOnly s s := ⟨rfl⟩

theorem of_dir (s : State) (d : List TrackEnt) : TrackOnly s { s with dir := d } := ⟨rfl⟩

theorem trans (h : TrackOnly s t) (k : TrackOnly t u) : TrackOnly s u := by
  constructor
  rw [k.eq, h.eq]

theorem of_takeBack (s : State) (line : Nat) : TrackOnly s (s.takeBack line) := by
  constructor
  unfold State.takeBack
  rw [(s.saveOwner_only line).eq]

theorem homes (h : TrackOnly s t) : t.homes = s.homes := by rw [h.eq]
theorem cycle (h : TrackOnly s t) : t.cycle = s.cycle := by rw [h.eq]
theorem txn? (h : TrackOnly s t) (line : Nat) : t.txn? line = s.txn? line := congrArg (List.find? _) h.homes

end State.TrackOnly

theorem State.dropEntry_only (s : State) (e : TrackEnt) : TrackOnly s (s.dropEntry e) :=
  (List.foldlRecOn (motive := fun t => TrackOnly s t) _ _ (TrackOnly.refl s)
    fun t h l _ => h.trans (TrackOnly.of_takeBack t l)).trans (TrackOnly.of_dir ..)

theorem State.makeRoom_only {s t : State} {line need : Nat} (n : Nat) (h : s.makeRoom line need n = .ok t) : TrackOnly s t := by
  induction n generalizing s with
  | zero => cases h
  | succ n ih =>
    unfold State.makeRoom at h
    split at h
    · exact Coll.ok.inj h ▸ TrackOnly.refl s
    · split at h
      · cases h
      · split at h
        · exact (s.dropEntry_only _).trans (ih h)
        · cases h

theorem State.exactTrack_only {s t : State} {line : Nat} (h : s.exactTrack line = .ok t) : TrackOnly s t := by
  unfold State.exactTrack at h
  split at h
  · exact Coll.ok.inj h ▸ TrackOnly.refl s
  · split at h
    · rename_i hr
      refine (State.makeRoom_only _ hr).trans ?_
      rw [← Coll.ok.inj h]
      unfold State.splitTrack
      split
      · exact TrackOnly.refl _
      · exact TrackOnly.of_dir ..
    · rename_i hr
      exact absurd h (hr t)

theorem State.trackFor_only {s t : State} {line : Nat} {r : HomeReq} {c : Bool} (h : s.trackFor line r = .ok (c, t)) :
    TrackOnly s t := by
  unfold State.trackFor at h
  split at h
  · split at h
    · rename_i hr
      cases h
      exact (State.makeRoom_only _ hr).trans (TrackOnly.of_dir ..)
    · cases h
    · cases h
  · cases h
    exact TrackOnly.refl s
  · split at h
    · cases h
      exact TrackOnly.refl s
    · split at h
      · rename_i hr
        cases h
        exact State.exactTrack_only hr
      · cases h
      · cases h

/-! ### Room while the line's request is in progress: the line's own entry is no candidate anyway -/

theorem State.evictee_during (s : State) (t : HomeTxn) : (s.during t).evictee t.line = s.evictee t.line := by
  unfold State.evictee
  congr 1
  refine List.filter_congr fun e _ => ?_
  have hbusy : (s.during t).entryBusy e = (s.entryBusy e || e.covers t.line) := by
    unfold State.entryBusy
    simp only [List.any_append, List.any_cons, List.any_nil, Bool.or_false]
    rw [Bool.or_right_comm]
  rw [hbusy]
  cases s.entryBusy e <;> cases e.covers t.line <;> simp

/-- An answer with a change to what it answers. -/
def Coll.map {α β : Type} (f : α → β) (r : Coll α) : Coll β :=
  match r with
  | .ok a => .ok (f a)
  | .busy b => .busy b
  | .lost => .lost

theorem State.makeRoom_during (s : State) (t : HomeTxn) (need n : Nat) :
    (s.during t).makeRoom t.line need n = (s.makeRoom t.line need n).map (·.during t) := by
  induction n generalizing s with
  | zero => rfl
  | succ n ih =>
    unfold State.makeRoom
    rw [show (s.during t).slotsUsed = s.slotsUsed from rfl, State.evictee_during]
    split
    · rfl
    · cases s.evictee t.line with
      | none => rfl
      | some e =>
        dsimp only
        split
        · have hd : (s.during t).dropEntry e = (s.dropEntry e).during t := by
            rw [State.dropEntry_withHomes, State.during, (s.dropEntry_only e).homes]
          rw [hd, ih]
        · rfl

theorem State.exactTrack_during (s : State) (t : HomeTxn) :
    (s.during t).exactTrack t.line = (s.exactTrack t.line).map (·.during t) := by
  unfold State.exactTrack
  rw [show (s.during t).track? t.line = s.track? t.line from rfl]
  cases s.track? t.line with
  | none => rfl
  | some e =>
    dsimp only
    rw [State.makeRoom_during]
    cases s.makeRoom t.line (e.k - 7) 17 with
    | ok u =>
      show Coll.ok _ = Coll.ok ((u.splitTrack t.line).during t)
      rw [State.splitTrack_withHomes, State.during]
      unfold State.splitTrack
      split <;> rfl
    | busy b => rfl
    | lost => rfl

/-- The entry that a request of a core finds or gets, the request itself being in progress. -/
theorem State.trackFor_during (s : State) (t : HomeTxn) (c ten : Nat) (k : ReqKind) :
    (s.during t).trackFor t.line (.dir c k ten) = (s.trackFor t.line (.dir c k ten)).map fun x => (x.1, x.2.during t) := by
  unfold State.trackFor
  rw [show (s.during t).track? t.line = s.track? t.line from rfl]
  cases s.track? t.line with
  | none =>
    dsimp only
    rw [State.makeRoom_during]
    cases s.makeRoom t.line 1 17 with
    | ok v =>
      show Coll.ok _ = Coll.ok _
      rw [State.newTrack_withHomes]
      rfl
    | busy b => rfl
    | lost => rfl
  | some e =>
    dsimp only
    rw [show (s.during t).tenancyFor e (.dir c k ten) = s.tenancyFor e (.dir c k ten) from rfl]
    split
    · rfl
    · rw [State.exactTrack_during]
      cases s.exactTrack t.line <;> rfl

end Sys2Proof.Machine
end

/-!
PROOF. O49, LineRequests, second part: the stages of a request for a DIR line (R129), and its end.
-/

section
open Sys2Proof Sys2Proof.Machine
namespace Sys2Proof.Machine

/-! ### The request of a line among the homes -/

theorem find?_modWhere {α : Type} {p : α → Bool} {f : α → α} (hf : ∀ a, p (f a) = p a) (l : List α) :
    (modWhere p f l).find? p = (l.find? p).map f := by
  have hp : (p ∘ fun a => if p a then f a else a) = p := by
    funext a
    by_cases ha : p a = true <;> simp [ha, hf]
  rw [modWhere, List.find?_map, hp]
  cases h : l.find? p with
  | none => rfl
  | some a => simp [List.find?_some h]

theorem filter_not_modWhere {α : Type} {p : α → Bool} {f : α → α} (hf : ∀ a, p (f a) = p a) (l : List α) :
    (modWhere p f l).filter (fun a => !p a) = l.filter fun a => !p a := by
  induction l with
  | nil => rfl
  | cons a l ih =>
    rw [modWhere, List.map_cons, List.filter_cons, List.filter_cons, ← modWhere, ih]
    by_cases ha : p a = true <;> simp [ha, hf]

theorem modWhere_of_find?_none {α : Type} {p : α → Bool} {f : α → α} {l : List α} (h : l.find? p = none) : modWhere p f l = l :=
  (List.map_congr_left fun a ha => if_neg (List.find?_eq_none.1 h a ha)).trans (List.map_id' l)

/-- Among the homes `hs` the request `t` of its line is in progress; the other lines' are `rest`. -/
structure Holds (rest hs : List HomeTxn) (t : HomeTxn) : Prop where
  found : hs.find? (·.line == t.line) = some t
  others : hs.filter (·.line != t.line) = rest

namespace Holds
variable {rest hs : List HomeTxn} {t : HomeTxn}

theorem idle (h : Holds rest hs t) : rest.find? (·.line == t.line) = none := by
  rw [← h.others]
  refine List.find?_eq_none.2 fun x hx => ?_
  simpa using (List.mem_filter.1 hx).2

theorem mod (h : Holds rest hs t) {f : HomeTxn → HomeTxn} (hf : ∀ x, (f x).line = x.line) :
    Holds rest (modWhere (·.line == t.line) f hs) (f t) where
  found := by
    rw [hf, find?_modWhere (fun x => by rw [hf]), h.found]
    rfl
  others := by
    rw [hf, ← h.others]
    exact filter_not_modWhere (p := fun x => x.line == t.line) (fun x => by rw [hf]) hs

theorem append (h : rest.find? (·.line == t.line) = none) : Holds rest (rest ++ [t]) t where
  found := by
    rw [List.find?_append, h, List.find?_cons_of_pos (by exact beq_self_eq_true _)]
    rfl
  others := by
    rw [List.filter_append, List.filter_cons_of_neg (by simp), List.filter_nil, List.append_nil]
    refine List.filter_eq_self.2 fun x hx => ?_
    simpa using List.find?_eq_none.1 h x hx

/-- The request is over, and none waits behind it. -/
theorem endTxn {e : State} (h : Holds rest hs t) (he : e.homes = rest) (hq : t.queue = []) : (e.withHomes hs).endTxn t.line = e := by
  unfold State.endTxn
  rw [show (e.withHomes hs).txn? t.line = some t from h.found]
  dsimp only
  rw [hq]
  show e.withHomes (hs.filter (·.line != t.line)) = e
  rw [h.others, ← he]

end Holds

/-! ### One stage -/

namespace State
variable {s u : State} {line n : Nat} {t : HomeTxn}

theorem runHome_idle (h : s.txn? line = none) : s.runHome line n = s := by
  cases n with
  | zero => rfl
  | succ n =>
    unfold State.runHome
    rw [h]

theorem runHome_stays (h : s.txn? t.line = some t) (hs : s.stage t = none) : s.runHome t.line n = s := by
  cases n with
  | zero => rfl
  | succ n =>
    unfold State.runHome
    rw [h]
    dsimp only
    rw [hs]

theorem runHome_goes (h : s.txn? t.line = some t) (hs : s.stage t = some u) : s.runHome t.line (n + 1) = u.runHome t.line n := by
  rw [State.runHome, h]
  dsimp only
  rw [hs]

theorem stage_antecedent_refused (h : t.wait = .antecedent) (hr : s.refuses t.line t.req = true) :
    s.stage t = some ((s.refuse t.line (homeDie t.line) t.req).endTxn t.line) := by
  unfold State.stage
  rw [h]
  exact if_pos hr

theorem stage_antecedent_read (h : t.wait = .antecedent) (hr : s.refuses t.line t.req = false) (hspan : t.req.span = none) :
    s.stage t = some (s.modTxn t.line fun t => { t with wait := .copies }) := by
  unfold State.stage
  rw [h]
  dsimp only
  rw [hr, hspan]
  rfl

theorem stage_antecedent_write (h : t.wait = .antecedent) (hr : s.refuses t.line t.req = false) (hspan : t.req.span = some (0, 128)) :
    s.stage t = if !(s.anteOf t.line 128).isEmpty || s.mirrorResolving t.line 0 128 then none
      else some (s.modTxn t.line fun t => { t with wait := .table }) := by
  unfold State.stage
  rw [h]
  dsimp only
  rw [hr, hspan]
  dsimp only
  rw [Nat.add_zero]
  cases (s.anteOf t.line 128).isEmpty <;> cases s.mirrorResolving t.line 0 128 <;> rfl

theorem stage_table (h : t.wait = .table) : s.stage t = if (s.translated? [t.line]).isSome then none
    else some (s.modTxn t.line fun t => { t with wait := .destination }) := by
  unfold State.stage
  rw [h]

theorem stage_destination (h : t.wait = .destination) : s.stage t = if (s.windowsOf t.line).isEmpty then
    some (s.modTxn t.line fun t => { t with wait := .copies }) else none := by
  unfold State.stage
  rw [h]

theorem stage_copies_busy (h : t.wait = .copies) (hd : t.req.isDir = true) (hb : s.trackFor t.line t.req = .busy none) :
    s.stage t = none := by
  unfold State.stage
  rw [h]
  dsimp only
  rw [hd, hb]
  rfl

theorem stage_copies {e : TrackEnt} {c : Bool} (h : t.wait = .copies) (hd : t.req.isDir = true)
    (hb : s.trackFor t.line t.req = .ok (c, u)) (he : u.track? t.line = some e) :
    s.stage t = some (((u.sendProbes t.line e (e.probes t.req c)).modTxn t.line fun x =>
      { x with wait := .acks ((e.probes t.req c).map (·.1)) }).modTxn t.line fun x => { x with exact := c }) := by
  unfold State.stage
  rw [h]
  dsimp only
  rw [hd, hb]
  dsimp only
  rw [he, Bool.not_true, if_neg Bool.false_ne_true]
  rfl

theorem stage_acks {cs : List Nat} (h : t.wait = .acks cs) (hcs : cs ≠ []) : s.stage t = none := by
  unfold State.stage
  rw [h]
  dsimp only
  rw [List.isEmpty_eq_false_iff.2 hcs]
  rfl

theorem stage_acks_nil (h : t.wait = .acks []) : s.stage t = some (s.modTxn t.line fun t => { t with wait := .redirect }) := by
  unfold State.stage
  rw [h]
  rfl

theorem stage_redirect (h : t.wait = .redirect) : s.stage t = if t.req.reads && t.data.isNone && s.redirects t.line then none
    else some (s.modTxn t.line fun t => { t with wait := .ready }) := by
  unfold State.stage
  rw [h]

theorem stage_ready (h : t.wait = .ready) : s.stage t = some (s.serve t) := by
  unfold State.stage
  rw [h]

end State

/-! ### The grant -/

/-- A request of core c is granted. -/
def State.granted (s : State) (t : HomeTxn) (c : Nat) (k : ReqKind) (ten : Nat) : State :=
  if k = .rd then s.serveRd t c ten else s.serveRfo t c k ten

theorem State.serve_dir (s : State) {t : HomeTxn} {c ten : Nat} {k : ReqKind} (h : t.req = .dir c k ten) :
    s.serve t = (s.granted t c k ten).endTxn t.line := by
  unfold State.serve
  rw [h]
  cases k <;> rfl

/-- A read is granted: the data comes from the home, or an answer has brought it. -/
theorem State.serveRd_track {s : State} {t : HomeTxn} {e : TrackEnt} (c ten : Nat) (he : s.track? t.line = some e) :
    s.serveRd t c ten =
      let ans := t.ownerAnswer e
      let next := e.afterRd c ten s.tick (s.sharedOnly t.line) t.exact ans
        (t.answers.filter fun a => !(a.core == e.owner && (e.st == .x || e.st == .o)))
      let row := t.data.getD (s.homeValue t.line)
      let s := if t.data.isNone then s.putL2 t.line row false else if ans.any (·.fromWb) then s.homeWrite t.line row else s
      (s.setTrack t.line fun _ => next.1).send c t.line false (.grant next.2 (some row) 0) := by
  unfold State.serveRd
  rw [he]

theorem State.serveRfo_eq (s : State) (t : HomeTxn) (c : Nat) (k : ReqKind) (ten : Nat) :
    s.serveRfo t c k ten = ((if k = .rfoz then s.clearLost t.line else s).setTrack t.line fun e => e.afterRfo c ten s.tick).send c
      t.line false (.grant .m (if k = .rfoz ∨ (k = .upg ∧ ((s.core c).l1? t.line).isSome = true ∧ t.data = none) then none
        else some (t.data.getD (s.homeValue t.line))) (upTick s.cycle)) := by
  unfold State.serveRfo
  cases k
  case upg =>
    cases t.data <;> cases ((s.core c).l1? t.line).isSome <;> rfl
  all_goals rfl

theorem State.putL2_homes (s : State) (line : Nat) (row : Row) (d : Bool) : (s.putL2 line row d).homes = s.homes :=
  (s.putL2_only line row d).homes

theorem State.granted_homes (s : State) (t : HomeTxn) (c : Nat) (k : ReqKind) (ten : Nat) :
    (s.granted t c k ten).homes = s.homes := by
  unfold State.granted
  split
  · unfold State.serveRd
    split
    · rfl
    · show (ite _ _ _ : State).homes = s.homes
      split
      · exact s.putL2_homes ..
      · split
        · exact s.putL2_homes ..
        · rfl
  · rw [State.serveRfo_eq]
    show (ite _ _ _ : State).homes = s.homes
    split <;> rfl

theorem State.granted_withHomes (s : State) (hs : List HomeTxn) (t : HomeTxn) (c : Nat) (k : ReqKind) (ten : Nat) :
    (s.withHomes hs).granted t c k ten = (s.granted t c k ten).withHomes hs := by
  unfold State.granted
  split
  · cases he : s.track? t.line with
    | none =>
      unfold State.serveRd
      rw [show (s.withHomes hs).track? t.line = s.track? t.line from rfl, he]
      rfl
    | some e =>
      rw [State.serveRd_track c ten he, State.serveRd_track (s := s.withHomes hs) c ten he]
      cases t.data with
      | none =>
        dsimp only [Option.isNone]
        rw [if_pos rfl, if_pos rfl, State.putL2_withHomes]
        rfl
      | some row =>
        dsimp only [Option.isNone]
        rw [if_neg Bool.false_ne_true, if_neg Bool.false_ne_true, State.homeWrite, State.homeWrite, State.putL2_withHomes]
        split <;> rfl
  · rw [State.serveRfo_eq, State.serveRfo_eq]
    cases k <;> rfl

theorem HomeReq.reads_dir (c ten : Nat) (k : ReqKind) : (HomeReq.dir c k ten).reads = decide (k = .rd) := by
  cases k <;> rfl

/-- Every probe of a request has been answered, and its data is there: it is granted, and the line is idle. -/
theorem Holds.runHome_granted {e : State} {hs : List HomeTxn} {t : HomeTxn} {c ten : Nat} {k : ReqKind}
    (h : Holds e.homes hs t) (hr : t.req = .dir c k ten) (hq : t.queue = []) (hw : t.wait = .acks [])
    (hd : k = .rd → t.data = none → e.redirects t.line = false) (n : Nat) :
    (e.withHomes hs).runHome t.line (n + 4) = e.granted t c k ten := by
  have h1 := h.mod (f := fun t => { t with wait := .redirect }) fun _ => rfl
  have h2 := h1.mod (f := fun t => { t with wait := .ready }) fun _ => rfl
  have hdata : (t.req.reads && t.data.isNone && e.redirects t.line) = false := by
    rw [hr, HomeReq.reads_dir]
    by_cases hk : k = .rd
    · cases hn : t.data with
      | none => rw [hd hk hn, Bool.and_false]
      | some row => rw [Option.isNone_some, Bool.and_false, Bool.false_and]
    · rw [decide_eq_false hk, Bool.false_and, Bool.false_and]
  have hidle : (e.granted t c k ten).txn? t.line = none := by
    rw [State.txn?, State.granted_homes]
    exact h.idle
  calc (e.withHomes hs).runHome t.line (n + 4)
    _ = (e.withHomes _).runHome t.line (n + 3) := State.runHome_goes h.found (State.stage_acks_nil hw)
    _ = (e.withHomes _).runHome t.line (n + 2) :=
      State.runHome_goes (t := { t with wait := .redirect }) h1.found ((State.stage_redirect rfl).trans
        (if_neg (Bool.eq_false_iff.1 hdata)))
    _ = (State.endTxn ((e.withHomes _).granted { t with wait := .ready } c k ten) t.line).runHome t.line (n + 1) :=
      State.runHome_goes (t := { t with wait := .ready }) h2.found ((State.stage_ready rfl).trans
        (congrArg some (State.serve_dir _ hr)))
    _ = (e.granted t c k ten).runHome t.line (n + 1) := by
      rw [State.granted_withHomes]
      exact congrArg (fun s => s.runHome t.line (n + 1)) (h2.endTxn (State.granted_homes ..) hq)
    _ = e.granted t c k ten := State.runHome_idle hidle

end Sys2Proof.Machine
end

/-!
PROOF. O49, LineRequests, third part: a request for a DIR line from its arrival on.
-/

section
open Sys2Proof Sys2Proof.Machine
namespace Sys2Proof.Machine

/-- A request of a core in progress at a stage, nothing having come to it. -/
abbrev dirTxn (core line ten : Nat) (k : ReqKind) (w : HomeWait) (exact : Bool) : HomeTxn :=
  { line := line, req := .dir core k ten, wait := w, data := none, answers := [], exact := exact, heldWb := none, queue := [] }

theorem HomeReq.span_dir (c ten : Nat) (k : ReqKind) : (HomeReq.dir c k ten).span = if k = .rd then none else some (0, 128) := by
  cases k <;> rfl

namespace State

/-- The probes of a request, as messages. -/
theorem sendProbes_eq (s : State) (line : Nat) (e : TrackEnt) (ps : List (Nat × ProbeKind)) :
    s.sendProbes line e ps = { s with msgs := s.msgs ++ ps.map fun p =>
      { core := p.1, line := line, toHome := false
        kind := .probe p.2 (!e.coarse || ((e.st == .x || e.st == .o) && p.1 == e.owner)) e.tenancy } } := by
  unfold State.sendProbes
  induction ps generalizing s with
  | nil =>
    rw [List.foldl_nil, List.map_nil, List.append_nil]
  | cons p ps ih =>
    rw [List.foldl_cons, ih, List.map_cons]
    unfold State.send
    dsimp only
    rw [List.append_assoc, List.singleton_append]

theorem during_txn? {s : State} {t : HomeTxn} (h : s.txn? t.line = none) : (s.during t).txn? t.line = some t :=
  (Holds.append h).found

theorem during_modTxn {s : State} {t : HomeTxn} (h : s.txn? t.line = none) (f : HomeTxn → HomeTxn) :
    (s.during t).modTxn t.line f = s.during (f t) := by
  have hs : modWhere (·.line == t.line) f (s.homes ++ [t]) = s.homes ++ [f t] := by
    rw [modWhere, List.map_append, ← modWhere, modWhere_of_find?_none h, List.map_singleton, if_pos (beq_self_eq_true _)]
  show s.withHomes (modWhere _ f (s.homes ++ [t])) = _
  rw [hs]

section
variable {s : State} {core line ten : Nat} {k : ReqKind} (h : s.txn? line = none)
include h

theorem homeFuel_during {w : HomeWait} {c : Bool} : (s.during (dirTxn core line ten k w c)).homeFuel line = 10 := by
  unfold State.homeFuel
  rw [show (s.during (dirTxn core line ten k w c)).txn? line = some _ from during_txn? h]
  rfl

theorem runHome_refused (hr : s.refuses line (.dir core k ten) = true) (n : Nat) :
    (s.during (dirTxn core line ten k .antecedent false)).runHome line (n + 1) =
      s.send core line false (.refuse (homeDie line)) := by
  have hends : (((s.send core line false (.refuse (homeDie line))).during (dirTxn core line ten k .antecedent false)).endTxn line) =
      s.send core line false (.refuse (homeDie line)) :=
    (Holds.append (t := dirTxn core line ten k .antecedent false) h).endTxn rfl rfl
  refine (runHome_goes (t := dirTxn core line ten k .antecedent false) (during_txn? h)
    ((stage_antecedent_refused rfl hr).trans (congrArg some hends))).trans ?_
  exact runHome_idle h

/-- A read that is not refused looks for copies at once. -/
theorem runHome_antecedent_read (hr : s.refuses line (.dir core .rd ten) = false) (n : Nat) :
    (s.during (dirTxn core line ten .rd .antecedent false)).runHome line (n + 1) =
      (s.during (dirTxn core line ten .rd .copies false)).runHome line n := by
  rw [← during_modTxn h (t := dirTxn core line ten .rd .antecedent false) fun t => { t with wait := .copies }]
  exact runHome_goes (t := dirTxn core line ten .rd .antecedent false) (during_txn? h) (stage_antecedent_read rfl hr rfl)

theorem stage_antecedent_own (hk : k ≠ .rd) (hr : s.refuses line (.dir core k ten) = false) :
    (s.during (dirTxn core line ten k .antecedent false)).stage (dirTxn core line ten k .antecedent false) =
      if !(s.anteOf line 128).isEmpty || s.mirrorResolving line 0 128 then none
      else some (s.during (dirTxn core line ten k .table false)) := by
  rw [stage_antecedent_write rfl hr ((HomeReq.span_dir core ten k).trans (if_neg hk)), during_modTxn h]
  rfl

theorem runHome_antecedent_waits (hk : k ≠ .rd) (hr : s.refuses line (.dir core k ten) = false)
    (hb : (!(s.anteOf line 128).isEmpty || s.mirrorResolving line 0 128) = true) (n : Nat) :
    (s.during (dirTxn core line ten k .antecedent false)).runHome line n = s.during (dirTxn core line ten k .antecedent false) :=
  runHome_stays (t := dirTxn core line ten k .antecedent false) (during_txn? h) ((stage_antecedent_own h hk hr).trans (if_pos hb))

theorem runHome_antecedent_clear (hk : k ≠ .rd) (hr : s.refuses line (.dir core k ten) = false)
    (hb : (!(s.anteOf line 128).isEmpty || s.mirrorResolving line 0 128) = false) (n : Nat) :
    (s.during (dirTxn core line ten k .antecedent false)).runHome line (n + 1) =
      (s.during (dirTxn core line ten k .table false)).runHome line n :=
  runHome_goes (t := dirTxn core line ten k .antecedent false) (during_txn? h)
    ((stage_antecedent_own h hk hr).trans (if_neg (Bool.eq_false_iff.1 hb)))

theorem runHome_table_waits (ht : (s.translated? [line]).isSome = true) (n : Nat) :
    (s.during (dirTxn core line ten k .table false)).runHome line n = s.during (dirTxn core line ten k .table false) :=
  runHome_stays (t := dirTxn core line ten k .table false) (during_txn? h) ((stage_table rfl).trans (if_pos ht))

theorem runHome_table_clear (ht : (s.translated? [line]).isSome = false) (n : Nat) :
    (s.during (dirTxn core line ten k .table false)).runHome line (n + 1) =
      (s.during (dirTxn core line ten k .destination false)).runHome line n := by
  rw [← during_modTxn h (t := dirTxn core line ten k .table false) fun t => { t with wait := .destination }]
  exact runHome_goes (t := dirTxn core line ten k .table false) (during_txn? h)
    ((stage_table rfl).trans (if_neg (Bool.eq_false_iff.1 ht)))

theorem runHome_destination_waits (hw : s.windowsOf line ≠ []) (n : Nat) :
    (s.during (dirTxn core line ten k .destination false)).runHome line n = s.during (dirTxn core line ten k .destination false) :=
  runHome_stays (t := dirTxn core line ten k .destination false) (during_txn? h)
    ((stage_destination rfl).trans (if_neg (by
      rw [List.isEmpty_iff]
      exact hw)))

theorem runHome_destination_clear (hw : s.windowsOf line = []) (n : Nat) :
    (s.during (dirTxn core line ten k .destination false)).runHome line (n + 1) =
      (s.during (dirTxn core line ten k .copies false)).runHome line n := by
  rw [← during_modTxn h (t := dirTxn core line ten k .destination false) fun t => { t with wait := .copies }]
  exact runHome_goes (t := dirTxn core line ten k .destination false) (during_txn? h)
    ((stage_destination rfl).trans (if_pos (List.isEmpty_iff.2 hw)))

/-- Nothing stands before the copies: a read does not ask, a request for ownership finds no antecedent, no translation and no
window. -/
theorem runHome_to_copies (hr : s.refuses line (.dir core k ten) = false)
    (hclear : k ≠ .rd → (!(s.anteOf line 128).isEmpty || s.mirrorResolving line 0 128) = false
      ∧ (s.translated? [line]).isSome = false ∧ s.windowsOf line = []) :
    ∃ n, (s.during (dirTxn core line ten k .antecedent false)).runHome line 10 =
      (s.during (dirTxn core line ten k .copies false)).runHome line (n + 5) := by
  by_cases hk : k = .rd
  · subst hk
    exact ⟨4, runHome_antecedent_read h hr 9⟩
  · obtain ⟨hb, ht, hw⟩ := hclear hk
    exact ⟨2, (runHome_antecedent_clear h hk hr hb 9).trans ((runHome_table_clear h ht 8).trans (runHome_destination_clear h hw 7))⟩

theorem runHome_copies_waits (hb : s.trackFor line (.dir core k ten) = .busy none) (n : Nat) :
    (s.during (dirTxn core line ten k .copies false)).runHome line n = s.during (dirTxn core line ten k .copies false) := by
  refine runHome_stays (t := dirTxn core line ten k .copies false) (during_txn? h) (stage_copies_busy rfl rfl ?_)
  rw [trackFor_during, hb]
  rfl

/-- The probes go out. -/
theorem runHome_copies {u : State} {e : TrackEnt} {c : Bool} (hb : s.trackFor line (.dir core k ten) = .ok (c, u))
    (he : u.track? line = some e) (n : Nat) :
    let ps := e.probes (.dir core k ten) c
    (s.during (dirTxn core line ten k .copies false)).runHome line (n + 1) =
      ((u.sendProbes line e ps).during (dirTxn core line ten k (.acks (ps.map (·.1))) c)).runHome line n := by
  intro ps
  have hprobes : (u.during (dirTxn core line ten k .copies false)).sendProbes line e ps =
      (u.sendProbes line e ps).during (dirTxn core line ten k .copies false) := by
    rw [sendProbes_eq, sendProbes_eq]
  have hidle : (u.sendProbes line e ps).txn? line = none := by
    rw [sendProbes_eq]
    exact ((trackFor_only hb).txn? line).trans h
  refine runHome_goes (t := dirTxn core line ten k .copies false) (during_txn? h) ((stage_copies rfl rfl
    (u := u.during (dirTxn core line ten k .copies false)) (t := dirTxn core line ten k .copies false) (c := c) ?_ he).trans (congrArg some ?_))
  · rw [trackFor_during, hb]
    rfl
  · show (((u.during (dirTxn core line ten k .copies false)).sendProbes line e ps).modTxn line _).modTxn line _ = _
    rw [hprobes]
    refine (congrArg (fun v => State.modTxn v line _) (during_modTxn (t := dirTxn core line ten k .copies false) hidle _)).trans ?_
    exact during_modTxn (t := dirTxn core line ten k (.acks (ps.map (·.1))) false) hidle _

theorem runHome_acks_waits {cs : List Nat} (hcs : cs ≠ []) (c : Bool) (n : Nat) :
    (s.during (dirTxn core line ten k (.acks cs) c)).runHome line n = s.during (dirTxn core line ten k (.acks cs) c) :=
  runHome_stays (t := dirTxn core line ten k (.acks cs) c) (during_txn? h) (stage_acks rfl hcs)

/-- A read that is to be redirected waits for that. -/
theorem runHome_redirect_waits (hw : s.redirects line = true) (c : Bool) (n : Nat) :
    (s.during (dirTxn core line ten .rd (.acks []) c)).runHome line (n + 1) = s.during (dirTxn core line ten .rd .redirect c) := by
  refine (runHome_goes (t := dirTxn core line ten .rd (.acks []) c) (during_txn? h) ((stage_acks_nil rfl).trans
    (congrArg some (during_modTxn (t := dirTxn core line ten .rd (.acks []) c) h _)))).trans ?_
  exact runHome_stays (t := dirTxn core line ten .rd .redirect c) (during_txn? h) ((stage_redirect rfl).trans (if_pos hw))

theorem runHome_during_granted (hd : k = .rd → s.redirects line = false) (c : Bool) (n : Nat) :
    (s.during (dirTxn core line ten k (.acks []) c)).runHome line (n + 4) =
      s.granted (dirTxn core line ten k (.acks []) c) core k ten :=
  Holds.runHome_granted (t := dirTxn core line ten k (.acks []) c) (Holds.append h) rfl rfl rfl (fun hk _ => hd hk) n

/-! What comes of a request whose copies are looked for. -/

section
variable {u : State} {e : TrackEnt} {c : Bool} (hr : s.refuses line (.dir core k ten) = false)
  (hclear : k ≠ .rd → (!(s.anteOf line 128).isEmpty || s.mirrorResolving line 0 128) = false
    ∧ (s.translated? [line]).isSome = false ∧ s.windowsOf line = [])
include hr hclear

theorem runHome_no_room (hb : s.trackFor line (.dir core k ten) = .busy none) :
    (s.during (dirTxn core line ten k .antecedent false)).runHome line 10 = s.during (dirTxn core line ten k .copies false) := by
  obtain ⟨n, hn⟩ := runHome_to_copies h hr hclear
  rw [hn, runHome_copies_waits h hb]

variable (hb : s.trackFor line (.dir core k ten) = .ok (c, u)) (he : u.track? line = some e)
include hb he

theorem runHome_probes (hps : e.probes (.dir core k ten) c ≠ []) :
    (s.during (dirTxn core line ten k .antecedent false)).runHome line 10 =
      (u.sendProbes line e (e.probes (.dir core k ten) c)).during
        (dirTxn core line ten k (.acks ((e.probes (.dir core k ten) c).map (·.1))) c) := by
  obtain ⟨n, hn⟩ := runHome_to_copies h hr hclear
  have hidle : (u.sendProbes line e (e.probes (.dir core k ten) c)).txn? line = none := by
    rw [sendProbes_eq]
    exact ((trackFor_only hb).txn? line).trans h
  rw [hn, runHome_copies h hb he, runHome_acks_waits hidle (mt List.map_eq_nil_iff.1 hps)]

/-- Where no core is to be asked, every answer has come. -/
theorem runHome_no_probes (hps : e.probes (.dir core k ten) c = []) :
    ∃ n, (s.during (dirTxn core line ten k .antecedent false)).runHome line 10 =
      (u.during (dirTxn core line ten k (.acks []) c)).runHome line (n + 4) := by
  obtain ⟨n, hn⟩ := runHome_to_copies h hr hclear
  exact ⟨n, by rw [hn, runHome_copies h hb he, hps]; rfl⟩

theorem runHome_granted (hps : e.probes (.dir core k ten) c = []) (hd : k = .rd → u.redirects line = false) :
    (s.during (dirTxn core line ten k .antecedent false)).runHome line 10 =
      u.granted (dirTxn core line ten k (.acks []) c) core k ten := by
  obtain ⟨n, hn⟩ := runHome_no_probes h hr hclear hb he hps
  rw [hn, runHome_during_granted (((trackFor_only hb).txn? line).trans h) hd]

theorem runHome_redirected (hps : e.probes (.dir core k ten) c = []) (hk : k = .rd) (hd : u.redirects line = true) :
    (s.during (dirTxn core line ten k .antecedent false)).runHome line 10 = u.during (dirTxn core line ten k .redirect c) := by
  obtain ⟨n, hn⟩ := runHome_no_probes h hr hclear hb he hps
  subst hk
  rw [hn, runHome_redirect_waits (((trackFor_only hb).txn? line).trans h) hd]

end

end

/-! ### The arrival -/

theorem take?_cycle {s t : State} {core line : Nat} {b : Bool} {m : MsgKind} (h : s.take? core line b = some (m, t)) :
    t.cycle = s.cycle := by
  unfold State.take? at h
  split at h
  · split at h
    · cases h
      rfl
    · cases h
  · cases h

theorem exec_request {s s0 : State} {core line ten : Nat} {k : ReqKind}
    (ht : s.take? core line true = some (.req (.dir core k ten), s0)) (ho : s0.inOrder core line = true) :
    exec (k.event core line) s = .next ((s0.reached core line).arrive line (.dir core k ten)) := by
  have harr : s.arriveReq core line (isDirKind k) = some ((s0.reached core line).arrive line (.dir core k ten)) := by
    unfold State.arriveReq
    rw [ht]
    dsimp only
    rw [ho, Bool.and_true, if_pos (show isDirKind k (.dir core k ten) = true from beq_self_eq_true k)]
  cases k <;> exact event_of_some harr

section
variable {s : State} {core line ten : Nat} {k : ReqKind}

theorem arrive_busy {x : HomeTxn} {r : HomeReq} (h : s.txn? line = some x) :
    s.arrive line r = s.modTxn line fun t => { t with queue := t.queue ++ [r] } := by
  unfold State.arrive
  rw [h]

/-- A request for ownership of a table line, or of one that a mirror entry reads, becomes a store at the home. -/
theorem atHome_store {m : Miss} (hk : k ≠ .rd ∧ (s.isTable line = true ∨ s.mirrorOf line 128 ≠ []))
    (hm : (s.core core).miss? line = some m) : s.atHome line (.dir core k ten) =
      (.tableStore core .dir m.accs, s.modCore core fun x => { x with misses := x.misses.filter (· != m) }) := by
  unfold State.atHome
  dsimp only
  rw [if_pos (by simpa using hk), hm]

theorem atHome_self (h : (k ≠ .rd ∧ (s.isTable line = true ∨ s.mirrorOf line 128 ≠ [])) → (s.core core).miss? line = none) :
    s.atHome line (.dir core k ten) = (.dir core k ten, s) := by
  unfold State.atHome
  dsimp only
  split
  · rename_i hk
    rw [h (by simpa using hk)]
  · rfl

theorem arrive_store {m : Miss} (h : s.txn? line = none) (hk : k ≠ .rd ∧ (s.isTable line = true ∨ s.mirrorOf line 128 ≠ []))
    (hm : (s.core core).miss? line = some m) : s.arrive line (.dir core k ten) =
      State.settleHome { (s.modCore core fun x => { x with misses := x.misses.filter (· != m) }) with
        homes := s.homes ++ [{ dirTxn core line ten k .antecedent false with req := .tableStore core .dir m.accs }] } line := by
  unfold State.arrive State.startTxn
  rw [h, atHome_store hk hm]
  rfl

theorem arrive_dir (h : s.txn? line = none)
    (hat : (k ≠ .rd ∧ (s.isTable line = true ∨ s.mirrorOf line 128 ≠ [])) → (s.core core).miss? line = none) :
    s.arrive line (.dir core k ten) = (s.during (dirTxn core line ten k .antecedent false)).settleHome line := by
  unfold State.arrive State.startTxn
  rw [h, atHome_self hat]

theorem settleHome_during (h : s.txn? line = none) : (s.during (dirTxn core line ten k .antecedent false)).settleHome line =
    ((s.during (dirTxn core line ten k .antecedent false)).runHome line 10).settleRest := by
  unfold State.settleHome
  rw [homeFuel_during h]

end

/-! ### The grants of a request that asked no core -/

section
variable (s : State) {line : Nat} (core ten : Nat) {k : ReqKind} (c : Bool)

theorem granted_read {e : TrackEnt} (he : s.track? line = some e) :
    s.granted (dirTxn core line ten .rd (.acks []) c) core .rd ten =
      let next := e.afterRd core ten s.tick (s.sharedOnly line) c none []
      (((s.putL2 line (s.homeValue line) false).setTrack line fun _ => next.1).send core line false
        (.grant next.2 (some (s.homeValue line)) 0)) := by
  have hno : (dirTxn core line ten .rd (.acks []) c).ownerAnswer e = none := ite_self none
  refine (serveRd_track core ten he).trans ?_
  rw [hno]
  rfl

theorem granted_own (hk : k ≠ .rd) :
    s.granted (dirTxn core line ten k (.acks []) c) core k ten =
      ((if k = .rfoz then s.clearLost line else s).setTrack line fun e => e.afterRfo core ten s.tick).send core line false
        (.grant .m (if k = .rfoz ∨ (k = .upg ∧ ((s.core core).l1? line).isSome = true) then none else some (s.homeValue line))
          (upTick s.cycle)) := by
  rw [granted, if_neg hk, serveRfo_eq]
  simp only [and_true]
  rfl

end

end State

end Sys2Proof.Machine
end

/-!
PROOF. O49, LineRequests, fourth part: an entry of one line and one tenancy that names its cores (Table 6.3), and the last answer.
-/

section
open Sys2Proof Sys2Proof.Machine
namespace Sys2Proof.Machine

/-! ### Exact entries -/

namespace TrackEnt

/-- With no answer but the owner's, no sharer goes. -/
theorem answered_nil (e : TrackEnt) (x : Bool) : e.answered x [] = e := rfl

section
variable {e : TrackEnt} {ten : Nat} (h : e.exactFor ten)
include h

theorem mixes_exact : e.mixes ten = false := by
  obtain ⟨-, -, hm, ht⟩ := h
  unfold TrackEnt.mixes
  rw [hm, ht, bne_self_eq_false, Bool.or_false, Bool.and_false]

theorem sharerCores_exact : e.sharerCores = e.sharers := by
  unfold TrackEnt.sharerCores
  rw [h.2.1, if_neg Bool.false_ne_true]

theorem conflict_exact (r : HomeReq) : e.conflict ten r = false := by
  unfold TrackEnt.conflict
  rw [h.1, Bool.not_true, Bool.false_and]

/-- A read asks the owner, where there is another. -/
theorem probes_read (core : Nat) : e.probes (.dir core .rd ten) false =
    if (e.st = .x ∨ e.st = .o) ∧ e.owner ≠ core then [(e.owner, .fwdRd)] else [] := by
  have hm := mixes_exact h
  unfold TrackEnt.probes
  cases e.st <;> by_cases ho : e.owner = core <;> simp [ho, hm]

theorem probes_own {k : ReqKind} (hk : k ≠ .rd) (core : Nat) (c : Bool) : e.probes (.dir core k ten) c = e.ownProbes core := by
  have hown : e.probes (.dir core k ten) c = ((if e.st == .x || e.st == .o then [e.owner] else []).filter (· != core)).map
      (fun o => (o, ProbeKind.fwdRfo)) ++ ((if e.st == .s || e.st == .o then e.sharers else []).filter fun x =>
        x != core && !(if e.st == .x || e.st == .o then [e.owner] else []).contains x).map fun o => (o, .inv) := by
    rw [← sharerCores_exact h]
    cases k
    case rd => exact absurd rfl hk
    all_goals rfl
  rw [hown]
  unfold TrackEnt.ownProbes
  cases e.st <;> by_cases ho : e.owner = core <;> simp [ho, bne, beq_eq_decide]

/-! The entry after a read. -/

/-- MIXED stays clear. -/
theorem unmixed_exact : { e with mixed := e.mixes ten } = e := by
  rw [mixes_exact h, ← h.2.2.1]

theorem afterRd_i (hst : e.st = .i) (core now : Nat) (shared x : Bool) (ans : Option Answer) :
    e.afterRd core ten now shared x ans [] = if shared then ({ e with st := .s, sharers := [] }.addSharer core, .s)
      else ({ e with st := .x, owner := core, sharers := [], ownAt := now }, .e) := by
  have hm := mixes_exact h
  obtain ⟨-, hc, hmixed, ht⟩ := h
  unfold TrackEnt.afterRd
  dsimp only
  rw [answered_nil, hm, hst]
  simp only [hc, hmixed, ht, bne_self_eq_false, Bool.and_false]

theorem afterRd_s (hst : e.st = .s) (core now : Nat) (shared x : Bool) (ans : Option Answer) :
    e.afterRd core ten now shared x ans [] = (e.addSharer core, .s) := by
  unfold TrackEnt.afterRd
  rw [answered_nil, unmixed_exact h]
  dsimp only
  rw [hst]

/-- The owner has modified the line, and keeps it as its owner. -/
theorem afterRd_x_modified (hst : e.st = .x) {core : Nat} (ho : e.owner ≠ core) (now : Nat) (shared x : Bool) (n : Nat) :
    e.afterRd core ten now shared x (some { core := n, held := some .m, fromWb := false }) [] =
      ({ e with st := .o, sharers := [] }.addSharer core, .s) := by
  have hm := mixes_exact h
  obtain ⟨-, hc, hmixed, -⟩ := h
  unfold TrackEnt.afterRd
  dsimp only
  rw [answered_nil, hm, hst]
  simp only [beq_eq_false_iff_ne.2 ho, Bool.false_eq_true, if_false, hc, hmixed]

/-! A core among the sharers of an exact entry. -/

theorem names_exact (core : Nat) : e.names core = e.sharers.contains core := by
  unfold TrackEnt.names
  rw [h.2.1, if_neg Bool.false_ne_true]

theorem addSharer_named {core : Nat} (hn : core ∈ e.sharers) :
    e.addSharer core = { e with sharers := e.sharers.filter (· != core) ++ [core] } := by
  unfold TrackEnt.addSharer
  rw [names_exact h, if_pos (List.contains_iff_mem.2 hn), h.2.1, if_neg Bool.false_ne_true]

theorem addSharer_few {core : Nat} (hn : core ∉ e.sharers) (hl : e.sharers.length < 4) :
    e.addSharer core = { e with sharers := e.sharers ++ [core] } := by
  unfold TrackEnt.addSharer
  rw [names_exact h, if_neg (mt List.contains_iff_mem.1 hn), h.2.1, if_neg Bool.false_ne_true, decide_eq_true hl, Bool.true_or,
    if_pos rfl]

theorem addSharer_fifth {core : Nat} (hn : core ∉ e.sharers) (hl : 4 ≤ e.sharers.length) :
    e.addSharer core = { e with coarse := true, sharers := ((e.sharers ++ [core]).map (· / 16)).eraseDups } := by
  unfold TrackEnt.addSharer
  rw [names_exact h, if_neg (mt List.contains_iff_mem.1 hn), h.2.1, if_neg Bool.false_ne_true,
    decide_eq_false (Nat.not_lt.2 hl), h.2.2.1, Bool.or_false, if_neg Bool.false_ne_true]

/-- The first sharer of an entry that is exact but for its state. -/
theorem addSharer_first (st : DirSt) (core : Nat) :
    { e with st := st, sharers := [] }.addSharer core = { e with st := st, sharers := [core] } :=
  addSharer_few (e := { e with st := st, sharers := [] }) h List.not_mem_nil (Nat.zero_lt_succ 3)

theorem afterRfo_exact (core now : Nat) :
    e.afterRfo core ten now = { e with st := .x, owner := core, sharers := [], ownAt := now } := by
  obtain ⟨-, hc, hm, ht⟩ := h
  unfold TrackEnt.afterRfo
  rw [ht, bne_self_eq_false, Bool.and_false, hc, hm]

end

end TrackEnt

namespace State
variable {s : State} {line ten : Nat} {e : TrackEnt}

/-- An exact entry is the one that a request is served by. -/
theorem trackFor_exact (he : s.track? line = some e) (h : e.exactFor ten) (core : Nat) (k : ReqKind) :
    s.trackFor line (.dir core k ten) = .ok (false, s) := by
  unfold State.trackFor
  rw [he]
  dsimp only
  rw [show s.tenancyFor e (.dir core k ten) = ten from rfl, TrackEnt.conflict_exact h, Bool.not_false, if_pos rfl]

theorem setTrack_congr {f g : TrackEnt → TrackEnt} (h : ∀ e ∈ s.dir, e.covers line = true → f e = g e) :
    s.setTrack line f = s.setTrack line g := by
  unfold State.setTrack
  rw [modWhere_congr fun e he hc => by rw [h e he hc]]

theorem refuses_of_not_lost (h : s.isLost line = false) (r : HomeReq) : s.refuses line r = false := by
  unfold State.refuses
  rw [h, Bool.false_and]

theorem redirects_of_no_windows (h : s.windowsOf line = []) : s.redirects line = false := by
  unfold State.redirects
  rw [h]
  exact Bool.and_false _

/-- No store of the home's own comes of a request for a plain line. -/
theorem plainLine.notAtHome (h : s.plainLine line) : ¬(s.isTable line = true ∨ s.mirrorOf line 128 ≠ []) := by
  obtain ⟨-, hm, ht⟩ := h
  rintro (h | h)
  · exact Bool.eq_false_iff.1 ht h
  · exact h hm

theorem plainLine.clear (h : s.plainLine line) (hw : s.windowsOf line = []) :
    (!(s.anteOf line 128).isEmpty || s.mirrorResolving line 0 128) = false
      ∧ (s.translated? [line]).isSome = false ∧ s.windowsOf line = [] := by
  obtain ⟨ha, hm, ht⟩ := h
  refine ⟨?_, ?_, hw⟩
  · unfold State.mirrorResolving
    rw [ha, Nat.add_zero, hm]
    rfl
  · unfold State.translated?
    rw [List.find?_cons_of_neg (by rw [ht, Bool.false_and]; decide)]
    rfl

/-! A request at an idle line with an exact entry. -/

section
variable {core : Nat} {k : ReqKind} (hidle : s.idleLine line) (he : s.track? line = some e) (h : e.exactFor ten)
include hidle he h

/-- A read that need not ask the owner. -/
theorem runHome_exact_read (hno : ¬((e.st = .x ∨ e.st = .o) ∧ e.owner ≠ core)) {next : TrackEnt × L1St}
    (hnext : e.afterRd core ten s.tick (s.sharedOnly line) false none [] = next) :
    (s.during (dirTxn core line ten .rd .antecedent false)).runHome line 10 =
      ((s.putL2 line (s.homeValue line) false).setTrack line fun _ => next.1).send core line false
        (.grant next.2 (some (s.homeValue line)) 0) := by
  obtain ⟨htxn, hlost, hwin⟩ := hidle
  rw [runHome_granted htxn (refuses_of_not_lost hlost _) (fun hk => absurd rfl hk) (trackFor_exact he h core .rd) he
    ((TrackEnt.probes_read h core).trans (if_neg hno)) fun _ => redirects_of_no_windows hwin, granted_read s core ten false he]
  dsimp only
  rw [hnext]

/-- A request that asks some cores. -/
theorem runHome_exact_probes (hclear : k ≠ .rd → s.plainLine line) {ps : List (Nat × ProbeKind)}
    (hps : e.probes (.dir core k ten) false = ps) (hne : ps ≠ []) :
    (s.during (dirTxn core line ten k .antecedent false)).runHome line 10 =
      (s.sendProbes line e ps).during (dirTxn core line ten k (.acks (ps.map (·.1))) false) := by
  obtain ⟨htxn, hlost, hwin⟩ := hidle
  subst hps
  exact runHome_probes htxn (refuses_of_not_lost hlost _) (fun hk => (hclear hk).clear hwin) (trackFor_exact he h core k) he hne

/-- A request for ownership that asks nobody. -/
theorem runHome_exact_own (hone : ∀ f ∈ s.dir, f.covers line = true → f = e) (hk : k ≠ .rd) (hplain : s.plainLine line)
    (hps : e.ownProbes core = []) :
    (s.during (dirTxn core line ten k .antecedent false)).runHome line 10 =
      ((if k = .rfoz then s.clearLost line else s).setTrack line fun _ =>
        { e with st := .x, owner := core, sharers := [], ownAt := s.tick }).send core line false
        (.grant .m (if k = .rfoz ∨ (k = .upg ∧ ((s.core core).l1? line).isSome = true) then none else some (s.homeValue line))
          (upTick s.cycle)) := by
  obtain ⟨htxn, hlost, hwin⟩ := hidle
  have hdir : (if k = .rfoz then s.clearLost line else s).dir = s.dir := by split <;> rfl
  rw [runHome_granted htxn (refuses_of_not_lost hlost _) (fun _ => plainLine.clear hplain hwin) (trackFor_exact he h core k) he
    ((TrackEnt.probes_own h hk core false).trans hps) (fun h => absurd h hk), granted_own s core ten false hk]
  rw [setTrack_congr (g := fun _ => { e with st := .x, owner := core, sharers := [], ownAt := s.tick }) fun f hf hc => by
    rw [hone f (hdir ▸ hf) hc, TrackEnt.afterRfo_exact h]]

end

end State

end Sys2Proof.Machine
end

/-!
PROOF. O49, LineRequests, fifth part: a probe at a core, and an answer at the home.
-/

section
open Sys2Proof Sys2Proof.Machine
namespace Sys2Proof.Machine

/-! ### A probe at a core -/

section
variable {s s0 : State} {core line ten : Nat} {p : ProbeKind} {ex : Bool}

theorem exec_probe {t : State} (h : s.probeStep core line p = some t) : exec (p.event core line) s = .next t := by
  cases p <;> exact event_of_some h

variable (ht : s.take? core line false = some (.probe p ex ten, s0))
include ht

/-- The core has a copy: a read leaves it shared, what else comes drops it. -/
theorem State.probeStep_held {l : L1Line}
    (hl : (s0.core core).l1d.find? (fun l => l.line == line && l.st != .lse && s0.probeSees core ex ten l.ctx) = some l) :
    s.probeStep core line p = some ((if p = .fwdRd then s0.modCore core fun c =>
        { c with l1d := modWhere (· == l) (fun _ => { l with st := if l.st = .m ∨ l.st = .o then .o else .s }) c.l1d }
      else s0.modCore core (·.dropSeen line (s0.probeSees core ex ten))).send core line true
        (.answer (some l.st) (if p = .inv then (if l.st = .m ∨ l.st = .o then some l.data else none) else some l.data) false)) := by
  unfold State.probeStep
  rw [ht]
  dsimp only
  rw [bne_self_eq_false, if_neg Bool.false_ne_true, hl]
  cases p <;> cases hst : l.st <;> simp [hst]

/-- The core has no copy, but its write-back is on the way. -/
theorem State.probeStep_buffered {w : WbEnt}
    (hl : (s0.core core).l1d.find? (fun l => l.line == line && l.st != .lse && s0.probeSees core ex ten l.ctx) = none)
    (hw : (s0.core core).wbuf.find? (fun w => w.line == line && s0.probePasses core ex ten) = some w) :
    s.probeStep core line p = some (s0.send core line true (.answer (some .m) (if p = .inv then none else some w.data) true)) := by
  unfold State.probeStep
  rw [ht]
  dsimp only
  rw [bne_self_eq_false, if_neg Bool.false_ne_true, hl, hw]
  cases p <;> rfl

/-- The core has nothing but, perhaps, code. -/
theorem State.probeStep_absent
    (hl : (s0.core core).l1d.find? (fun l => l.line == line && l.st != .lse && s0.probeSees core ex ten l.ctx) = none)
    (hw : (s0.core core).wbuf.find? (fun w => w.line == line && s0.probePasses core ex ten) = none) :
    s.probeStep core line p = some (if p = .fwdRd then s0.send core line true (.answer
        (if (s0.core core).l1i.any fun l => l.line == line && s0.probeSees core ex ten l.ctx then some .s else none) none false)
      else (s0.modCore core (·.dropSeen line (s0.probeSees core ex ten))).send core line true (.answer none none false)) := by
  unfold State.probeStep
  rw [ht]
  dsimp only
  rw [bne_self_eq_false, if_neg Bool.false_ne_true, hl, hw]
  cases p <;> simp

end

/-! ### An answer at the home -/

theorem State.txn?_line {s : State} {line : Nat} {x : HomeTxn} (h : s.txn? line = some x) : x.line = line := by
  have hp := List.find?_some h
  exact eq_of_beq hp

/-- A request that an answer has come to. -/
def HomeTxn.told (t : HomeTxn) (core : Nat) (held : Option L1St) (data : Option Row) (fromWb : Bool) : HomeTxn :=
  { t with
    wait := match t.wait with
      | .acks cs => .acks (cs.erase core)
      | w => w
    answers := t.answers ++ [{ core := core, held := held, fromWb := fromWb }]
    data := data.or t.data
    heldWb := if t.heldWb == some core then none else t.heldWb }

/-- A write-back that waited behind the core's answer is acknowledged. -/
def State.freedWb (s : State) (core line : Nat) : State :=
  if (s.txn? line).any (·.heldWb == some core) then s.send core line false .wbAck else s

theorem State.freedWb_cycle (s : State) (core line : Nat) : (s.freedWb core line).cycle = s.cycle := by
  unfold State.freedWb
  split <;> rfl

theorem State.ackArrive_eq {s s0 : State} {core line : Nat} {held : Option L1St} {data : Option Row} {fromWb : Bool}
    (ht : s.take? core line true = some (.answer held data fromWb, s0)) : s.ackArrive core line =
      some (((s0.freedWb core line).modTxn line (·.told core held data fromWb)).settleHome line) := by
  unfold State.ackArrive State.freedWb
  rw [ht]
  dsimp only
  cases s0.txn? line with
  | none => cases data <;> rfl
  | some x =>
    obtain ⟨_, _, _, _, _, _, heldWb, _⟩ := x
    cases heldWb with
    | none => cases data <;> rfl
    | some c => cases data <;> rfl

section
variable {s : State} {x : HomeTxn} {cs : List Nat} {core line : Nat} {held : Option L1St} {data : Option Row} {fromWb : Bool}

theorem HomeTxn.told_wait (hw : x.wait = .acks cs) : (x.told core held data fromWb).wait = .acks (cs.erase core) := by
  unfold HomeTxn.told
  rw [hw]

variable (hx : s.txn? line = some x)
include hx

theorem State.told_holds : Holds (s.homes.filter (·.line != line))
    (s.modTxn line (·.told core held data fromWb)).homes (x.told core held data fromWb) := by
  have hl : x.line = line := State.txn?_line hx
  subst hl
  exact Holds.mod ⟨hx, rfl⟩ fun _ => rfl

variable (hw : x.wait = .acks cs)
include hw

/-- The request waits for the other answers. -/
theorem State.told_waits (hcs : cs.erase core ≠ []) : (s.modTxn line (·.told core held data fromWb)).settleHome line =
    (s.modTxn line (·.told core held data fromWb)).settleRest := by
  have hl : (x.told core held data fromWb).line = line := (rfl : _ = x.line).trans (State.txn?_line hx)
  have hfound := (told_holds hx (core := core) (held := held) (data := data) (fromWb := fromWb)).found
  unfold State.settleHome
  rw [← hl] at hfound ⊢
  rw [runHome_stays hfound (stage_acks (HomeTxn.told_wait hw) hcs)]

/-- With the last answer the request is granted, where no read is to be redirected. -/
theorem State.told_granted {c ten : Nat} {k : ReqKind} (hcs : cs.erase core = []) (hq : x.queue = []) (hr : x.req = .dir c k ten)
    (hd : k = .rd → data.or x.data = none → s.redirects line = false) :
    (s.modTxn line (·.told core held data fromWb)).settleHome line =
      ((s.withHomes (s.homes.filter (·.line != line))).granted (x.told core held data fromWb) c k ten).settleRest := by
  have hl : x.line = line := State.txn?_line hx
  have hholds := told_holds hx (core := core) (held := held) (data := data) (fromWb := fromWb)
  have hfuel : (s.modTxn line (·.told core held data fromWb)).homeFuel line = 10 := by
    unfold State.homeFuel
    rw [show (s.modTxn line (·.told core held data fromWb)).txn? line = some _ from hl ▸ hholds.found]
    show 10 * (x.queue.length + 1) = 10
    rw [hq]
    rfl
  have hgrant := Holds.runHome_granted (e := s.withHomes (s.homes.filter (·.line != line))) hholds hr hq
    ((HomeTxn.told_wait hw).trans (congrArg HomeWait.acks hcs)) (hl.symm ▸ hd) 6
  unfold State.settleHome
  rw [hfuel]
  subst hl
  exact congrArg State.settleRest hgrant

/-! What the last answer brings, with the line idle again in the state `ended`. -/

section
variable {c ten : Nat} {k : ReqKind} (hcs : cs.erase core = []) (hq : x.queue = []) (hr : x.req = .dir c k ten)
include hcs hq hr

theorem State.told_own (hk : k ≠ .rd) :
    let ended := s.withHomes (s.homes.filter (·.line != line))
    (s.modTxn line (·.told core held data fromWb)).settleHome line =
      (((if k = .rfoz then ended.clearLost line else ended).setTrack line fun e => e.afterRfo c ten s.tick).send c line false
        (.grant .m (if k = .rfoz ∨ (k = .upg ∧ ((s.core c).l1? line).isSome = true ∧ data.or x.data = none) then none
          else some ((data.or x.data).getD (s.homeValue line))) (upTick s.cycle))).settleRest := by
  intro ended
  rw [State.told_granted hx hw hcs hq hr fun h => absurd h hk, State.granted, if_neg hk, State.serveRfo_eq]
  obtain rfl := State.txn?_line hx
  rfl

/-- No answer has brought data: the home's is granted. -/
theorem State.told_read (hk : k = .rd) (hdata : data.or x.data = none) (hd : s.redirects line = false) {e : TrackEnt}
    (he : s.track? line = some e) :
    let ended := s.withHomes (s.homes.filter (·.line != line))
    let answers := x.answers ++ [{ core := core, held := held, fromWb := fromWb }]
    let next := e.afterRd c ten s.tick (ended.sharedOnly line) x.exact
      (if e.st = .x ∨ e.st = .o then answers.find? (·.core == e.owner) else none)
      (answers.filter fun a => !(a.core == e.owner && (e.st == .x || e.st == .o)))
    (s.modTxn line (·.told core held data fromWb)).settleHome line =
      (((ended.putL2 line (s.homeValue line) false).setTrack line fun _ => next.1).send c line false
        (.grant next.2 (some (s.homeValue line)) 0)).settleRest := by
  intro ended answers next
  subst hk
  obtain rfl := State.txn?_line hx
  have hans : (x.told core held data fromWb).ownerAnswer e =
      if e.st = .x ∨ e.st = .o then answers.find? (·.core == e.owner) else none := by
    unfold HomeTxn.ownerAnswer
    cases e.st <;> rfl
  rw [State.told_granted hx hw hcs hq hr fun _ _ => hd, State.granted, if_pos rfl,
    State.serveRd_track (t := x.told core held data fromWb) (s := s.withHomes (s.homes.filter (·.line != x.line))) c ten he,
    hans, show (x.told core held data fromWb).data = none from hdata]
  rfl

/-- The owner's modified data is granted, and the owner keeps the line. -/
theorem State.told_modified (hk : k = .rd) {e : TrackEnt} (he : s.track? line = some e) (hex : e.exactFor ten) (hst : e.st = .x)
    (ho : e.owner = core) (hc : c ≠ core) {d : Row} (hdata : data = some d) (hheld : held = some .m) (hwb : fromWb = false)
    (hno : x.answers = []) :
    (s.modTxn line (·.told core held data fromWb)).settleHome line =
      (((s.withHomes (s.homes.filter (·.line != line))).setTrack line fun _ => { e with st := .o, sharers := [c] }).send c line false
        (.grant .s (some d) 0)).settleRest := by
  subst hk hdata hheld hwb ho
  obtain rfl := State.txn?_line hx
  have hans : (x.told e.owner (some .m) (some d) false).answers = [{ core := e.owner, held := some .m, fromWb := false }] := by
    show x.answers ++ _ = _
    rw [hno]
    rfl
  have howner : (x.told e.owner (some .m) (some d) false).ownerAnswer e =
      some { core := e.owner, held := some .m, fromWb := false } := by
    unfold HomeTxn.ownerAnswer
    rw [hans, hst, List.find?_cons_of_pos (by exact beq_self_eq_true _)]
    rfl
  have hothers : (x.told e.owner (some .m) (some d) false).answers.filter
      (fun a => !(a.core == e.owner && (e.st == .x || e.st == .o))) = [] := by
    rw [hans, hst, List.filter_cons_of_neg (by simp), List.filter_nil]
  rw [State.told_granted hx hw hcs hq hr fun _ h => absurd h (by simp), State.granted, if_pos rfl,
    State.serveRd_track (t := x.told e.owner (some .m) (some d) false) (s := s.withHomes (s.homes.filter (·.line != x.line))) c ten
      he, howner, hothers]
  dsimp only
  rw [TrackEnt.afterRd_x_modified hex hst (Ne.symm hc), TrackEnt.addSharer_first hex]
  rfl

end

end

end Sys2Proof.Machine
end

/-!
PROOF. O49, LineRequests, last part: the statement.
-/

section
open Sys2Proof Sys2Proof.Machine

/-- Settles O49: a request goes through the stages of its line, a probe is answered by what its core has, and with the last answer
the request is granted. -/
theorem lineRequests : Obligations.LineRequests := by
  unfold Obligations.LineRequests
  intro s s0 core line ten k
  refine ⟨fun ht ho => ?_, fun p ex ht => ?_, fun held data fromWb ht => ?_⟩
  · intro s1 req txn starts atHome busy grant
    have hexec : exec (k.event core line) s = .next (s1.arrive line req) := State.exec_request ht ho
    have hcycle : s1.cycle = s.cycle := (rfl : _ = s0.cycle).trans (State.take?_cycle ht)
    have htick : s1.tick = s.tick := congrArg (· / 32) hcycle
    have hstart : s1.txn? line = none → (atHome → (s1.core core).miss? line = none) → exec (k.event core line) s =
        .next ((s1.during (dirTxn core line ten k .antecedent false)).runHome line 10).settleRest := fun hidle hat => by
      rw [hexec, State.arrive_dir hidle hat, State.settleHome_during hidle]
    refine ⟨fun x hx => hexec.trans (congrArg _ (State.arrive_busy hx)),
      fun hidle m hat hm => hexec.trans (congrArg _ (State.arrive_store hidle hat hm)),
      fun hidle hat => ⟨hexec.trans (congrArg _ (State.arrive_dir hidle hat)), fun hr => ?_, fun hr => ?_⟩,
      fun e hidle he hex hone => ⟨fun hk => ?_, fun hk hplain => ?_⟩⟩
    · rw [hstart hidle hat, State.runHome_refused hidle hr]
    · intro blocked
      refine ⟨fun hk hb => ?_, fun hk hb htr => ?_, fun hk hb htr hw => ?_,
        fun hclear => ⟨fun hbusy => ?_, fun c s2 e hok he => ?_⟩⟩
      · show exec _ _ = _
        rw [hstart hidle hat, State.runHome_antecedent_waits hidle hk hr hb]
      · show exec _ _ = _
        rw [hstart hidle hat, State.runHome_antecedent_clear hidle hk hr hb, State.runHome_table_waits hidle htr]
      · show exec _ _ = _
        rw [hstart hidle hat, State.runHome_antecedent_clear hidle hk hr hb, State.runHome_table_clear hidle htr,
          State.runHome_destination_waits hidle hw]
      · show exec _ _ = _
        rw [hstart hidle hat, State.runHome_no_room hidle hr hclear hbusy]
      · have hcycle2 : s2.cycle = s.cycle := (State.trackFor_only hok).cycle.trans hcycle
        have htick2 : s2.tick = s.tick := congrArg (· / 32) hcycle2
        intro ps
        refine ⟨fun hne => ?_, fun hps hk hd => ?_, fun hps hk hd => ?_, fun hps hk => ?_⟩
        · show exec _ _ = _
          rw [hstart hidle hat, State.runHome_probes hidle hr hclear hok he hne, State.sendProbes_eq]
        · show exec _ _ = _
          rw [hstart hidle hat, State.runHome_redirected hidle hr hclear hok he hps hk hd]
        · subst hk
          show exec _ _ = _
          rw [hstart hidle hat, State.runHome_granted hidle hr hclear hok he hps fun _ => hd,
            State.granted_read s2 core ten c he, htick2]
        · rw [hstart hidle hat, State.runHome_granted hidle hr hclear hok he hps fun h => absurd h hk,
            State.granted_own s2 core ten c hk, htick2, hcycle2]
    · subst hk
      intro row s2 shared
      have hrun := hstart hidle.1 fun h => absurd rfl h.1
      have hread : ∀ {e' : TrackEnt} {st : L1St}, ¬((e.st = .x ∨ e.st = .o) ∧ e.owner ≠ core) →
          e.afterRd core ten s.tick (s1.sharedOnly line) false none [] = (e', st) → grant s2 e' st (some row) 0 := by
        intro e' st hno hnext
        show exec _ _ = _
        rw [hrun, State.runHome_exact_read hidle he hex hno (htick ▸ hnext)]
      refine ⟨fun hst hs => ?_, fun hst hs => ?_, fun hst hn => ?_, fun hst hn hl => ?_, fun hst hn hl => ?_, fun hst ho => ?_⟩
      · exact hread (by simp [hst]) ((TrackEnt.afterRd_i hex hst ..).trans (if_neg (Bool.eq_false_iff.1 hs)))
      · exact hread (by simp [hst]) ((TrackEnt.afterRd_i hex hst ..).trans ((if_pos hs).trans (by
          rw [TrackEnt.addSharer_first hex])))
      · exact hread (by simp [hst]) ((TrackEnt.afterRd_s hex hst ..).trans (by rw [TrackEnt.addSharer_named hex hn]))
      · exact hread (by simp [hst]) ((TrackEnt.afterRd_s hex hst ..).trans (by rw [TrackEnt.addSharer_few hex hn hl]))
      · exact hread (by simp [hst]) ((TrackEnt.afterRd_s hex hst ..).trans (by rw [TrackEnt.addSharer_fifth hex hn hl]))
      · show exec _ _ = _
        rw [hrun, State.runHome_exact_probes hidle he hex (fun h => absurd rfl h)
          ((TrackEnt.probes_read hex core).trans (if_pos ⟨hst, ho⟩)) (List.cons_ne_nil _ _), State.sendProbes_eq]
    · intro ps
      have hrun := hstart hidle.1 fun h => absurd h.2 (State.plainLine.notAtHome hplain)
      refine ⟨fun hne => ?_, fun hps => ?_⟩
      · show exec _ _ = _
        rw [hrun, State.runHome_exact_probes hidle he hex (fun _ => hplain) (TrackEnt.probes_own hex hk core false) hne,
          State.sendProbes_eq]
      · show exec _ _ = _
        rw [hrun, State.runHome_exact_own hidle he hex hone hk hplain hps, htick, hcycle]
  · intro c sees found buffered dropped answer
    refine ⟨fun l hl => ?_, fun hl w hw => ?_, fun hl hw => ?_⟩
    · have hprobe := exec_probe (State.probeStep_held ht hl)
      exact ⟨by rintro rfl; exact hprobe, by rintro rfl; exact hprobe, by rintro rfl; exact hprobe⟩
    · exact exec_probe (State.probeStep_buffered ht hl hw)
    · have hprobe := exec_probe (State.probeStep_absent ht hl hw)
      refine ⟨?_, fun hp => ?_⟩
      · rintro rfl
        exact hprobe
      · rw [if_neg hp] at hprobe
        exact hprobe
  · intro a s1 told
    have hcycle : s1.cycle = s.cycle := (s0.freedWb_cycle core line).trans (State.take?_cycle ht)
    have htick : s1.tick = s.tick := congrArg (· / 32) hcycle
    refine ⟨event_of_some (State.ackArrive_eq ht), fun x cs hx hw => ⟨State.told_waits hx hw, fun hcs hq c hr => ?_⟩⟩
    intro ended row
    rw [← htick, ← hcycle]
    exact ⟨fun hk => State.told_own hx hw hcs hq hr hk,
      fun hk hdata hd e he => by
        simp only [row, hdata]
        exact State.told_read hx hw hcs hq hr hk hdata hd he,
      fun hk e d he hex hst ho hc hheld hwb hdata hno _ =>
        State.told_modified hx hw hcs hq hr hk he hex hst ho hc hdata hheld hwb hno⟩
end

/-!
PROOF. O44, GroupEvents: what each event of a group leaves of the group, and the state it leaves around it.
-/

section
open Sys2Proof Sys2Proof.Machine
namespace Sys2Proof.Machine

theorem State.setGroup_modCore (s : State) (c : Nat) (f : Core → Core) (h g : Nat) (x : Group) :
    (s.modCore c f).setGroup h g x = (s.setGroup h g x).modCore c f := by
  unfold State.setGroup State.modWg
  rw [State.wg?_modCore]
  cases hw : s.wg? h <;> rfl

/-! ### A pending cause -/

theorem State.takePend_eq {s : State} {h g : Nat} {w : Workgroup} {gr : Group} (hw : s.wg? h = some w) (hg : w.group? g = some gr)
    {c : PendCause} {rest : List PendCause} {p : Nat} (hc : gr.pend = c :: rest) (hp : gr.taker c = some p) :
    s.takePend h g =
      if gr.sup || !s.groupRuns w gr || !(gr.path p).atBoundary then none
      else some ((s.setGroup h g { gr with pend := rest }).raise h g p
        { cls := .boundary, cause := c.cause, info := c.info, faddr := c.faddr
          p31 := if c.ap then gr.activeMask else c.p31 } c.ap) := by
  unfold State.takePend
  rw [hw, State.group?_of hw hg]
  dsimp only
  rw [hc]
  dsimp only
  rw [hp]

/-! ### NEST -/

theorem Group.port_modPort (gr : Group) {j : Nat} (f : Port → Port) (hj : j < gr.ports.length) :
    (gr.modPort j f).port j = f (gr.port j) := by
  show ((modAt f gr.ports j)[j]?).getD _ = f _
  rw [modAt_getElem?, if_pos rfl, Group.port, List.getElem?_eq_getElem hj]
  rfl

section
variable (gr : Group) (n : NestPlace)

theorem Group.nestPush_rest : gr.nestPush n = { gr with ap := (gr.nestPush n).ap, ports := (gr.nestPush n).ports } := by
  unfold Group.nestPush
  dsimp only
  split
  · rfl
  · split <;> rfl

theorem Group.nestPush_ports : let r := gr.ap.nestRec n.reg
    (gr.nestPush n).ports = (gr.modPort r.port (·.push (r.word n.idx n.opnd))).ports := by
  unfold Group.nestPush
  dsimp only
  split
  · rfl
  · split <;> rfl

/-- The second operand of an element follows its first. -/
theorem Group.nestPush_ap_second (h : (gr.ap.nestRec n.reg).two = true) (ho : n.opnd = 0) :
    (gr.nestPush n).ap = { gr.ap with nest := some { n with opnd := 1 } } := by
  unfold Group.nestPush
  dsimp only
  rw [if_pos (by simp [h, ho])]
  rfl

/-- Behind an element's last operand comes the next element; behind the last element the instruction ends. -/
theorem Group.nestPush_ap_next (h : (gr.ap.nestRec n.reg).two = false ∨ n.opnd ≠ 0) : let r := gr.ap.nestRec n.reg
    (gr.nestPush n).ap = match r.next n.idx r.depth 0 with
      | some idx => { gr.ap with nest := some { n with idx := idx, opnd := 0 } }
      | none => { gr.ap with nest := none, wait := none, pc := (gr.ap.pc + 12) % 2 ^ 64 } := by
  unfold Group.nestPush
  dsimp only
  rw [if_neg (by rcases h with h | h <;> simp [h])]
  cases hnext : (gr.ap.nestRec n.reg).next n.idx (gr.ap.nestRec n.reg).depth 0 <;> rfl

end

theorem State.nestStep_eq {s : State} {h g : Nat} {w : Workgroup} {gr : Group} (hw : s.wg? h = some w) (hg : w.group? g = some gr)
    {n : NestPlace} (hn : gr.ap.nest = some n) (hr : s.groupRuns w gr = true) (hst : gr.ap.st = .running)
    (hwait : gr.ap.wait = some .port) (ht : (gr.port (gr.ap.nestRec n.reg).port).takes = true) :
    s.nestStep h g = some (s.setGroup h g (gr.nestPush n)) := by
  unfold State.nestStep
  rw [hw, State.group?_of hw hg]
  dsimp only
  rw [hn]
  dsimp only
  rw [hr, hst, hwait, ht]
  rfl

/-! ### A time that comes back -/

theorem mem_modWhere {α : Type} {p : α → Bool} {f : α → α} {l : List α} {a : α} :
    a ∈ modWhere p f l ↔ ∃ b ∈ l, (if p b then f b else b) = a := List.mem_map

theorem Group.takeTime_rest (gr : Group) (o : Op) (t : Nat) :
    gr.takeTime o t = { gr with horizon := (gr.takeTime o t).horizon, ops := (gr.takeTime o t).ops } := by
  unfold Group.takeTime
  split <;> rfl

/-- Of the operations of a group, those that have taken a time keep it where they are an engine's. -/
theorem Group.takeTime_ops (gr : Group) (o : Op) (t : Nat) : (gr.takeTime o t).ops =
    modWhere (·.seq == o.seq) (fun q => { q with gvt := if o.cls = none then q.gvt else max q.gvt t }) gr.ops := by
  unfold Group.takeTime
  by_cases hc : o.cls = none
  · rw [if_neg (by simp [hc])]
    simp only [if_pos hc]
    unfold modWhere
    simp only [ite_self, List.map_id']
    rfl
  · rw [if_pos (Option.isSome_iff_ne_none.2 hc)]
    simp only [if_neg hc]
    rfl

/-- An operation to which a time has come back. -/
def Op.acked (o : Op) (cls : Option CtrClass) (t : Nat) (rest : List Nat) : Op :=
  { o with acks := rest, owed := o.owed - 1, gvt := if cls = none then o.gvt else max o.gvt t }

/-- The group when the time t has come back to its operation o; an operation that is over and no engine's leaves it. -/
def Group.acked (gr : Group) (seq : Nat) (o : Op) (t : Nat) (rest : List Nat) : Group :=
  let gr := (gr.takeTime o t).modOp seq fun o => { o with acks := rest, owed := o.owed - 1 }
  { gr with ops := gr.ops.filter fun q => !(q.seq == seq && q.over && q.cls.isNone) }

section
variable (gr : Group) {seq : Nat} {o : Op} (t : Nat) (rest : List Nat)

theorem Group.acked_rest : gr.acked seq o t rest =
    { gr with horizon := (gr.acked seq o t rest).horizon, ops := (gr.acked seq o t rest).ops } := by
  unfold Group.acked
  dsimp only
  rw [Group.takeTime_rest]
  rfl

theorem Group.acked_horizonOf (sc : Scope) : (gr.acked seq o t rest).horizonOf sc =
    if o.cls = none ∧ o.scope.covers sc = true then max (gr.horizonOf sc) t else gr.horizonOf sc :=
  gr.horizonOf_takeTime o t sc

theorem Group.acked_ops (ho : o.seq = seq) : (gr.acked seq o t rest).ops =
    (modWhere (·.seq == seq) (·.acked o.cls t rest) gr.ops).filter fun q => !(q.seq == seq && q.over && q.cls.isNone) := by
  show (modWhere _ _ (gr.takeTime o t).ops).filter _ = _
  rw [Group.takeTime_ops, ho]
  unfold modWhere
  rw [List.map_map]
  congr 2
  funext q
  by_cases hq : q.seq = seq <;> simp [hq, Op.acked]

theorem Group.mem_acked_other (ho : o.seq = seq) {q : Op} (hq : q.seq ≠ seq) :
    q ∈ (gr.acked seq o t rest).ops ↔ q ∈ gr.ops := by
  rw [Group.acked_ops gr t rest ho, List.mem_filter, mem_modWhere]
  constructor
  · rintro ⟨⟨b, hb, rfl⟩, -⟩
    by_cases hs : b.seq = seq
    · rw [if_pos (beq_iff_eq.2 hs)] at hq
      exact absurd hs hq
    · rwa [if_neg (by simpa using hs)]
  · intro hm
    exact ⟨⟨q, hm, if_neg (by simpa using hq)⟩, by simp [hq]⟩

theorem Group.mem_acked_same (ho : o.seq = seq) {q : Op} (hm : q ∈ (gr.acked seq o t rest).ops) (hq : q.seq = seq) :
    ∃ q0 ∈ gr.ops, q = q0.acked o.cls t rest := by
  rw [Group.acked_ops gr t rest ho, List.mem_filter, mem_modWhere] at hm
  obtain ⟨⟨b, hb, rfl⟩, -⟩ := hm
  by_cases hs : b.seq = seq
  · exact ⟨b, hb, if_pos (beq_iff_eq.2 hs)⟩
  · rw [if_neg (by simpa using hs)] at hq
    exact absurd hq hs

end

theorem State.storeAck_eq {s : State} {h g seq t : Nat} {gr : Group} {o : Op} {rest : List Nat} (hg : s.group? h g = some gr)
    (ho : gr.op? seq = some o) (ha : o.acks = t :: rest) :
    s.storeAck h g seq = some (s.setGroup h g (gr.acked seq o t rest)) := by
  unfold State.storeAck
  rw [hg, Option.bind_some, ho]
  dsimp only
  rw [ha]
  dsimp only
  rw [State.modGroup_eq hg]
  rfl

/-! ### The end of an engine operation -/

theorem Group.counter_lowerCtr (gr : Group) (k j : CtrClass) :
    (gr.lowerCtr k).counter j = if j = k then gr.counter j - 1 else gr.counter j := by
  have hnum : j.num = k.num ↔ j = k := by cases j <;> cases k <;> decide
  unfold Group.counter
  rw [Group.lowerCtr_ctrs, modAt_getElem?]
  simp only [hnum]
  split
  · cases gr.ctrs[j.num]? <;> rfl
  · rfl

/-- The group without an operation of class k that is over: its counter is lower, its time is held. -/
def Group.completed (gr : Group) (k : CtrClass) (o : Op) : Group := ((gr.lowerCtr k).raiseH o.scope o.gvt).dropOp o.seq

/-- The state without it: no run of it is left at the group's core. -/
def State.completed (s : State) (h g : Nat) (gr : Group) (k : CtrClass) (o : Op) : State :=
  (s.setGroup h g (gr.completed k o)).modCore gr.core fun c =>
    { c with copyQ := c.copyQ.filter fun r => !(r.wg == h && r.g == g && r.seq == o.seq) }

/-- The group of a COPY that takes the fault that it met: the bytes written before it are counted, and its path waits no more. -/
def Group.copyFaulted (gr : Group) (o : Op) : Group :=
  { gr with sr := { gr.sr with cpbytes := BitVec.ofNat 32 o.step } }.modPath o.path fun p =>
    if p.wait == some (Wait.op o.seq) then { p with st := .ready, wait := none, stepOnce := false } else p

section
variable {s : State} {h g : Nat} {gr : Group} {k : CtrClass} {o : Op}

theorem State.engineDone_eq {rest : List Op} (hg : s.group? h g = some gr) (ho : gr.ops.filter (·.cls == some k) = o :: rest)
    (hover : s.engOver h g o = true) : s.engineDone h g k =
      some (if k = .copy then (s.completed h g gr k o).copyFault h g o else s.completed h g gr k o) := by
  unfold State.engineDone
  rw [hg]
  dsimp only
  rw [ho, List.head?_cons, Option.filter_some, if_pos hover, Option.map_some, State.modGroup_eq hg]
  simp only [beq_iff_eq]
  rfl

theorem State.completed_group? (hg : s.group? h g = some gr) :
    (s.completed h g gr k o).group? h g = some (gr.completed k o) := by
  obtain ⟨w, hw, -⟩ := State.group?_some hg
  exact State.group?_setGroup_same hw g (gr.completed k o)

theorem State.copyFault_none (hc : o.cause = none) : s.copyFault h g o = s := by
  unfold State.copyFault
  rw [hc]

theorem State.copyFault_some {c : Cause} {info addr : Nat} (hg : s.group? h g = some gr) (hc : o.cause = some (c, info, addr)) :
    s.copyFault h g o = (s.setGroup h g (gr.copyFaulted o)).raise h g o.path
      { cls := .group, cause := c, info := info, faddr := addr, p31 := o.mask } := by
  unfold State.copyFault
  rw [hc]
  dsimp only
  rw [State.modGroup_eq hg]
  rfl

end

/-! ### Registers given up -/

theorem State.freedStep_eq {s : State} {h g : Nat} {gr : Group} (hg : s.group? h g = some gr)
    (hy : ∃ y ∈ gr.given, gr.targets y = false) : s.freedStep h g = some (s.setGroup h g gr.freeGiven) := by
  unfold State.freedStep
  rw [hg]
  refine if_neg fun hall => ?_
  obtain ⟨y, hmem, hfree⟩ := hy
  rw [List.all_eq_true.1 hall y hmem] at hfree
  cases hfree

/-! ### A claim at the head of its queue -/

/-- A key whose entries are all left out of a map reads as the map's default. -/
theorem look_filter_none {α : Type} (d : α) (p : Nat × α → Bool) (m : SMap α) (k : Nat) (h : ∀ a, p (k, a) = false) :
    look d (m.filter p) k = d := by
  induction m with
  | nil => rfl
  | cons e m ih =>
    obtain ⟨i, a⟩ := e
    by_cases hi : k = i
    · rw [List.filter_cons_of_neg (by rw [← hi, h]; decide)]
      exact ih
    · by_cases hp : p (i, a) = true
      · rw [List.filter_cons_of_pos hp]
        exact (if_neg hi).trans ih
      · rw [List.filter_cons_of_neg hp]
        exact ih

theorem Core.queue_pool {x : Core} {shadow : Bool} {quarter : Nat} {pool : Pool} {c : Claim} (h : c ∈ x.queue shadow quarter pool) :
    c.pool = pool := by
  have hc : c ∈ x.claims.filter fun x => x.shadow == shadow && x.quarter == quarter && x.pool == pool := by
    rcases List.mem_append.1 h with h | h <;> exact (List.mem_filter.1 h).1
  have := (List.mem_filter.1 hc).2
  simp only [Bool.and_eq_true, beq_iff_eq] at this
  exact this.2

section
variable (gr : Group) (pool : Pool) (n : Nat)

theorem Group.acquire_paths : (gr.acquire pool n).paths = gr.paths := by
  cases pool <;> rfl

theorem Group.acquire_holding (o : Pool) :
    (gr.acquire pool n).holding o = if o = pool then gr.holding pool + n else gr.holding o := by
  cases pool <;> cases o <;> rfl

/-- Acquired registers read as zero and full. -/
theorem Group.acquire_fresh {r : Nat} (hlo : 32 * gr.vhold ≤ r) (hhi : r < 32 * (gr.vhold + n)) :
    (gr.acquire .v n).vreg r = 0 ∧ (gr.acquire .v n).isFull (.v r) = true := by
  have hin : (!(decide (32 * gr.vhold ≤ r) && decide (r < 32 * (gr.vhold + n)))) = false := by simp [hlo, hhi]
  refine ⟨look_filter_none 0 _ gr.v r fun _ => hin, ?_⟩
  unfold Group.isFull
  rw [Bool.not_eq_true', List.any_eq_false]
  intro e he hreg
  have hkept := (List.mem_filter.1 he).2
  rw [beq_iff_eq.1 hreg] at hkept
  exact absurd (hin.symm.trans hkept) (by decide)

/-- The group to which a claim of its own is granted; a floor starts it once no more of them wait. -/
def Group.granted (c : Claim) (more : Bool) : Group := if c.floor then gr.grantFloor c more else gr.grantClaim c

/-- But for its holding and the registers acquired, a grant changes the group's paths and whether it has started. -/
theorem Group.granted_eq (hh : gr.halted = false) (c : Claim) (more : Bool) : ∃ ps st,
    gr.granted c more = { gr.acquire c.pool c.k with paths := ps, started := st } := by
  unfold Group.granted
  split
  · exact ⟨_, _, rfl⟩
  · unfold Group.grantClaim
    rw [if_neg (by simp [hh])]
    exact ⟨_, _, rfl⟩

theorem Group.granted_holding (hh : gr.halted = false) (c : Claim) (more : Bool) (o : Pool) :
    (gr.granted c more).holding o = if o = c.pool then gr.holding c.pool + c.k else gr.holding o := by
  obtain ⟨ps, st, hgranted⟩ := gr.granted_eq hh c more
  rw [← gr.acquire_holding, hgranted]
  cases o <;> rfl

/-- The path that claimed goes on behind its RCLAIM. -/
theorem Group.granted_path (hh : gr.halted = false) {c : Claim} (hf : c.floor = false) (hp : c.path < gr.paths.length)
    (more : Bool) : (gr.granted c more).path c.path = (gr.path c.path).advance := by
  unfold Group.granted Group.grantClaim
  rw [if_neg (by simp [hf]), if_neg (by simp [hh]), Group.path_modPath, Group.acquire_paths, if_pos ⟨rfl, hp⟩]
  unfold Group.path
  rw [Group.acquire_paths]

end

theorem State.grantHead_eq {s : State} {core quarter : Nat} {shadow : Bool} {pool : Pool} {c : Claim} {rest : List Claim} {gr : Group}
    (hg : s.group? c.wg c.g = some gr) (hq : (s.core core).queue shadow quarter pool = c :: rest)
    (hm : (s.core core).front.moves shadow = true) (hk : c.k ≤ s.poolFree core shadow quarter pool) : ∃ more,
    s.grantHead core shadow quarter pool = some ((s.setGroup c.wg c.g (gr.granted c more)).modCore core fun x =>
      { x with claims := x.claims.erase c }) := by
  unfold State.grantHead
  dsimp only
  rw [hq]
  dsimp only
  rw [if_neg (by simp [hm, hk]), State.modGroup_eq (x := gr) (by exact hg), State.modGroup_eq (x := gr) (by exact hg)]
  simp only [State.setGroup_modCore]
  unfold Group.granted
  cases c.floor
  · exact ⟨false, rfl⟩
  · exact ⟨_, rfl⟩

end Sys2Proof.Machine

/-- Settles O44: each event happens by its rule, in the group as it stands. -/
theorem groupEvents : Obligations.GroupEvents := by
  unfold Obligations.GroupEvents
  intro s h g w gr hw hg
  have hgr : s.group? h g = some gr := State.group?_of hw hg
  refine ⟨fun c rest p hc hp => ⟨fun hsup hruns hat => ?_, fun hsup => ?_⟩, ?_,
    fun seq o t rest ho ha => ?_, fun k o rest ho hover hk => ?_, fun hy => event_of_some (State.freedStep_eq hgr hy),
    fun core bank quarter pool c rest hq hmoves hfree hwg hcg hhalted => ?_⟩
  · refine event_of_some ((State.takePend_eq hw hg hc hp).trans (if_neg ?_))
    simp [hsup, hruns, hat]
  · refine event_of_none ((State.takePend_eq hw hg hc hp).trans (if_pos ?_))
    simp [hsup]
  · intro n hn hruns hst hwait r hport hwords hpermits
    have htakes : (gr.port r.port).takes = true := by simp [Port.takes, hwords, hpermits]
    have hpushed : (gr.nestPush n).port r.port = (gr.port r.port).push (r.word n.idx n.opnd) := by
      unfold Group.port
      rw [gr.nestPush_ports n]
      exact gr.port_modPort _ hport
    exact ⟨gr.nestPush n, event_of_some (State.nestStep_eq hw hg hn hruns hst hwait htakes), gr.nestPush_rest n,
      by rw [hpushed]; rfl, by rw [hpushed]; rfl, gr.nestPush_ap_second n, gr.nestPush_ap_next n⟩
  · have hseq := Group.op?_seq ho
    exact ⟨gr.acked seq o t rest, event_of_some (State.storeAck_eq hgr ho ha), gr.acked_rest t rest, gr.acked_horizonOf t rest,
      fun q => gr.mem_acked_other t rest hseq, fun q => gr.mem_acked_same t rest hseq⟩
  · have hdone := State.engineDone_eq hgr ho hover
    refine ⟨gr.completed k o, s.completed h g gr k o, rfl, rfl, (gr.counter_lowerCtr k k).trans (if_pos rfl),
      fun j hj => (gr.counter_lowerCtr k j).trans (if_neg hj), fun sc => (gr.lowerCtr k).horizonOf_raiseH o.scope sc o.gvt,
      fun hc => event_of_some (hdone.trans (congrArg some ?_)),
      fun c info addr hcopy hcause => event_of_some (hdone.trans (congrArg some ?_))⟩
    · rcases hc with hc | hc
      · exact if_neg hc
      · rw [State.copyFault_none hc, ite_self]
    · rw [if_pos hcopy, State.copyFault_some (State.completed_group? hgr) hcause]
      rfl
  · subst hwg hcg
    obtain ⟨more, hgrant⟩ := State.grantHead_eq hgr hq hmoves hfree
    obtain ⟨ps, st, hgranted⟩ := gr.granted_eq hhalted c more
    obtain rfl := Core.queue_pool (hq ▸ List.mem_cons_self)
    obtain ⟨hstate, hcore, -⟩ := (s.setGroup c.wg c.g (gr.granted c more)).modCore_atCore core fun x =>
      { x with claims := x.claims.erase c }
    refine ⟨gr.granted c more, _, event_of_some hgrant, hstate, ?_, ?_, fun o ho => ?_, fun hv r hlo hhi => ?_, fun hf hp => ?_⟩
    · rw [hcore, State.core_setGroup]
    · rw [gr.granted_holding hhalted, if_pos rfl]
    · rw [gr.granted_holding hhalted, if_neg ho]
    · rw [hgranted, hv]
      exact gr.acquire_fresh c.k hlo hhi
    · rw [gr.granted_path hhalted hf hp more]
      exact ⟨rfl, rfl⟩

end

/-!
PROOF. O36, Copies: the runs that a copy is cut into, what a COPY or COPYX at its issue knows, and the ends of its issue.
-/

section
open Sys2Proof Sys2Proof.Machine
namespace Sys2Proof.Machine

/-! ### Runs -/

namespace CopyJob
variable (j : CopyJob)

/-- A run ends at the last byte that is to be written. -/
theorem runLen_le (dst src : List Seg) (y last : Nat) : j.runLen dst src y last ≤ last - y := by
  unfold CopyJob.runLen
  dsimp only
  split
  case h_3 | h_4 => split <;> omega
  all_goals omega

theorem runs_nil (first : CopyRun) {y last : Nat} (h : last ≤ y) (f : Nat) : j.runs first y last f = [] := by
  cases f with
  | zero => rfl
  | succ f => exact if_pos h

/-- Where bytes are left, the first run starts at the first of them and ends within them. -/
theorem runs_cons (first : CopyRun) {y last : Nat} (h : y < last) (f : Nat) :
    ∃ r, j.runs first y last (f + 1) = r :: j.runs first (y + r.len) last f ∧ r.y = y ∧ 0 < r.len ∧ y + r.len ≤ last
      ∧ ∀ p ∈ r.dst, p ∈ first.dst := by
  have hlen := j.runLen_le first.dst first.src y last
  refine ⟨_, if_neg (Nat.not_le.2 h), rfl, ?_, ?_, fun p hp => (List.mem_filter.1 hp).1⟩
  · show 0 < max 1 _
    omega
  · show y + max 1 _ ≤ last
    omega

theorem runs_within (first : CopyRun) (last f : Nat) (y : Nat) :
    ∀ r ∈ j.runs first y last f, r.y + r.len ≤ last ∧ ∀ p ∈ r.dst, p ∈ first.dst := by
  induction f generalizing y with
  | zero => exact nofun
  | succ f ih =>
    rcases Nat.lt_or_ge y last with h | h
    · obtain ⟨r, hr, hy, -, hlast, hdst⟩ := j.runs_cons first h f
      rw [hr]
      rintro q (_ | ⟨_, hq⟩)
      · exact ⟨hy.symm ▸ hlast, hdst⟩
      · exact ih _ q hq
    · rw [j.runs_nil first h]
      exact nofun

/-- With a step of fuel for every byte, each byte lies in a run. -/
theorem runs_cover (first : CopyRun) {last f : Nat} {y : Nat} (hf : last < y + f) {q : Nat} (hy : y ≤ q) (hq : q < last) :
    ∃ r ∈ j.runs first y last f, r.y ≤ q ∧ q < r.y + r.len := by
  induction f generalizing y with
  | zero => omega
  | succ f ih =>
    obtain ⟨r, hr, hry, hpos, -, -⟩ := j.runs_cons first (Nat.lt_of_le_of_lt hy hq) f
    rw [hr]
    rcases Nat.lt_or_ge q (y + r.len) with h | h
    · exact ⟨r, List.mem_cons_self, hry.symm ▸ hy, hry.symm ▸ h⟩
    · obtain ⟨t, ht, hin⟩ := ih (by omega) h
      exact ⟨t, List.mem_cons_of_mem r ht, hin⟩

end CopyJob

/-! ### What a copy knows at its issue -/

section
variable (x : Iss) (d a : Opnd) (j : CopyJob)

/-- Its transform writes a side list. -/
def CopyJob.writesList : Bool := j.xf == .pack || j.xf == .hadq

/-- Its destination, its source and its side list. -/
def Iss.copyDst : Ranged := x.copyRange .dst (x.dword 0 d) j.dn
def Iss.copySrc : Ranged := x.copyRange .src (x.dword 1 a) j.sn
def Iss.copySide : Ranged :=
  if j.sideVa = 0 then x.copyRange .src 0 0 else x.copyRange (if j.writesList then .dst else .src) j.sideVa j.sideN
def Iss.copyRanges : List Ranged := [x.copyDst d j, x.copySrc a j, x.copySide j]

/-- The bytes of its destination that it will write. -/
def Iss.copyBytes : Nat := j.upTo (x.dword 0 d) (x.copyDst d j) (x.copySrc a j) (x.copySide j)

/-- The run that its others are made from. -/
def Iss.copyFirst : CopyRun :=
  { wg := x.h, g := x.g, seq := x.gr.nextSeq, hlim := bitsOf x.gr.sr.pnheat.toNat 7 0, xf := j.xf, param := j.param
    y := 0, len := 0, dst := (x.copyDst d j).segs, src := (x.copySrc a j).segs
    side := if j.writesList then [] else (x.copySide j).segs, listing := false, snap := none, done := 0 }

/-- The run of the side list that it writes, the runs of its destination, and all of them. -/
def Iss.copyLists : List CopyRun :=
  if j.writesList ∧ (x.copySide j).segs ≠ [] ∧ x.copyBytes d a j ≠ 0 then
    [j.listRun (x.copyFirst d a j) (x.copySide j).segs (x.copyBytes d a j)]
  else []
def Iss.copyMoves : List CopyRun := j.runs (x.copyFirst d a j) 0 (x.copyBytes d a j) (x.copyBytes d a j + 1)
def Iss.copyRuns : List CopyRun := x.copyLists d a j ++ x.copyMoves d a j

/-- The translations of the pieces `gs` of a range. -/
def Ranged.under (r : Ranged) (gs : List Seg) : List Trans := ((r.segs.zip r.trans).filter fun p => gs.contains p.1).map (·.2)

/-- The pages that its runs touch are used. -/
def Iss.copyUse (s : State) : Used :=
  s.useCopy x.gr.core
    ((x.copyDst d j).under ((x.copyMoves d a j).flatMap (·.dst)) ++ if x.copyLists d a j = [] then [] else (x.copySide j).trans)
    ((x.copySrc a j).under ((x.copyMoves d a j).flatMap (·.src)) ++
      if j.writesList ∨ x.copyBytes d a j = 0 then [] else (x.copySide j).trans)

/-- The runs hand over the bytes that it writes: none goes beyond them or writes a piece that is not its destination's, and
each byte lies in one. -/
theorem Iss.copyRuns_cover : let n := x.copyBytes d a j
    ((x.copyRuns d a j).all fun r => r.listing || (decide (r.y + r.len ≤ n) && r.dst.all ((x.copyDst d j).segs.contains ·))) = true
      ∧ ∀ q < n, ∃ r ∈ x.copyMoves d a j, r.y ≤ q ∧ q < r.y + r.len := by
  intro n
  refine ⟨List.all_eq_true.2 fun r hr => ?_, fun q hq => j.runs_cover _ (by omega) (Nat.zero_le q) hq⟩
  rcases List.mem_append.1 hr with hr | hr
  · unfold Iss.copyLists at hr
    split at hr
    · rw [List.mem_singleton.1 hr]
      rfl
    · cases hr
  · obtain ⟨hlast, hdst⟩ := j.runs_within _ _ _ _ r hr
    have hall : r.dst.all ((x.copyDst d j).segs.contains ·) = true :=
      List.all_eq_true.2 fun p hp => List.contains_iff_mem.2 (hdst p hp)
    rw [hall, decide_eq_true hlast]
    exact Bool.or_true _

/-- The operation of a copy: a part for each of its runs. -/
def Iss.copyOp (i : Instr) (sc : ScopeSel) : Op :=
  { x.newOp i [] with
    scope := scopeSel x.w sc, todo := (x.copyRuns d a j).length
    leafs := (((x.copyDst d j).trans ++ (x.copySrc a j).trans ++ (x.copySide j).trans).flatMap (·.via)).eraseDups }

/-! ### The ends of its issue -/

/-- A copy whose pages are used: it goes on; or, where a page faults, it waits for the bytes before it, or takes the fault. -/
def Iss.copyEnd (i : Instr) (sc : ScopeSel) (s1 : State) : Res :=
  let met := s1.dropFaults x.gr.core x.w.ctx
  match lowestFault ((x.copyRanges d a j).flatMap (·.faults)) with
  | none => .state ((({ x with s := s1 } : Iss).launchOp i (x.copyOp d a j i sc)).enqueueCopy x.gr.core (x.copyRuns d a j))
  | some f =>
    if x.copyBytes d a j = 0 then
      .state (x.raiseIn (met.modGroup x.h x.g fun gr => { gr with sr := { gr.sr with cpbytes := 0 } })
        { x.whole f.cause f.info with faddr := f.addr })
    else
      .state (((({ x with s := met } : Iss).holdOp i
        { x.copyOp d a j i sc with step := x.copyBytes d a j, cause := some (f.cause, f.info, f.addr) }).modGroup x.h x.g
          fun gr => { gr with ports := x.gr.ports }).enqueueCopy x.gr.core (x.copyRuns d a j))

end

section
variable {x : Iss} {i : Instr} {sc : ScopeSel} {d a : Opnd} {j : CopyJob}

theorem copyBody_bad (hb : j.bad (x.dword 0 d) (x.dword 1 a) = true) :
    copyBody i sc d a j x = .trap { cls := .group, cause := .copyFormat, p31 := x.m } := if_pos hb

theorem copyBody_empty (hb : j.bad (x.dword 0 d) (x.dword 1 a) = false) (hn : j.dn = 0) :
    copyBody i sc d a j x = .done x.gr [] [] := by
  unfold copyBody
  dsimp only
  rw [if_neg (by simp [hb]), if_pos (by simp [hn])]

/-- Once its ranges are translated and its pages are used, a copy ends by its lowest fault. -/
theorem copyBody_used (hb : j.bad (x.dword 0 d) (x.dword 1 a) = false) (hn : j.dn ≠ 0)
    (hr : ∀ r ∈ x.copyRanges d a j, r.bad = none ∧ r.walks = []) {s1 : State} (hu : x.copyUse d a j x.s = .ok s1) :
    copyBody i sc d a j x = x.copyEnd d a j i sc s1 := by
  have hbad : (x.copyRanges d a j).findSome? (·.bad) = none := List.findSome?_eq_none_iff.2 fun r h => (hr r h).1
  have hwalks : ¬ ((x.copyRanges d a j).any fun r => !r.walks.isEmpty) = true := by
    simp only [List.any_eq_true, not_exists, not_and]
    intro r h
    simp [(hr r h).2]
  unfold copyBody
  dsimp only
  rw [if_neg (by simp [hb]), if_neg (by simpa using hn), show (j.xf == .pack || j.xf == .hadq) = j.writesList from rfl]
  simp only [beq_iff_eq, Bool.and_eq_true, Bool.or_eq_true, bne_iff_ne, Bool.not_eq_true', List.isEmpty_iff,
    List.isEmpty_eq_false_iff, and_assoc]
  split
  case h_1 f h => exact absurd (hbad.symm.trans h) nofun
  refine (if_neg hwalks).trans ?_
  split
  case h_1 as h => exact absurd (hu.symm.trans h) nofun
  case h_2 s h =>
    obtain rfl := Used.ok.inj (hu.symm.trans h)
    unfold Iss.copyEnd
    split
    case h_1 hf =>
      rw [hf, show lowestFault ((x.copyRanges d a j).flatMap (·.faults)) = none from hf]
      rfl
    case h_2 f hf =>
      rw [hf, show lowestFault ((x.copyRanges d a j).flatMap (·.faults)) = some f from hf]
      rfl

end

/-! ### The instructions -/

theorem State.useCopy_lines {s t : State} {core : Nat} {ws rs : List Trans} (h : s.useCopy core ws rs = .ok t) : LinesOnly s t := by
  unfold State.useCopy at h
  split at h
  case h_1 u hw => exact (State.useAll_only hw).trans (State.useAll_only h)
  case h_2 hne => exact absurd h (hne t)

/-- The execution of a copy is its issue with the job's body. -/
theorem Ready.copies {s : State} {i : Instr} {x : Iss} {sc : ScopeSel} {d a : Opnd} {j : CopyJob} (h : Ready s i x)
    (hj : copyJob x i = some (sc, d, a, j)) : exec i s = x.finish i (copyBody i sc d a j x) := by
  unfold copyJob at hj
  split at hj
  case h_6 => cases hj
  all_goals
    obtain ⟨rfl, rfl, rfl, rfl⟩ := hj
    have hexec := exec_of h rfl  -- the instruction gives the body, as a function of its issuer
    exact hexec

/-- A copy reads no random number. -/
theorem copyJob_rngAfter {x : Iss} {i : Instr} {o : ScopeSel × Opnd × Opnd × CopyJob} (hj : copyJob x i = some o) :
    x.rngAfter i = x.gr.sr.rngctr := by
  unfold copyJob at hj
  split at hj
  case h_6 => cases hj
  all_goals rfl

section
variable {s : State} {i : Instr} {x : Iss} {sc : ScopeSel} {d a : Opnd} {j : CopyJob}

/-- A copy of no bytes completes at once. -/
theorem Ready.copy_empty (h : Ready s i x) (hj : copyJob x i = some (sc, d, a, j))
    (hb : j.bad (x.dword 0 d) (x.dword 1 a) = false) (hn : j.dn = 0) :
    ∃ gr, exec i s = .next (s.setGroup x.h x.g gr) ∧ x.behind gr ∧ x.Frame i gr .none 0 := by
  obtain ⟨hs, hwg, -⟩ := h.facts
  have hframe := Iss.frame_of (fl := []) (d := .none) (n := 0) h (gr := x.gr) rfl (fun _ _ => rfl) (fun _ _ => rfl)
    (fun _ _ => rfl) (fun _ _ => rfl) (fun _ _ => rfl) (by rw [copyJob_rngAfter hj]) (fun _ => rfl)
  refine ⟨_, ?_, ?_, hframe⟩
  · rw [h.copies hj, copyBody_empty hb hn, Iss.finish, Iss.complete_calm (hs.symm ▸ hwg), hs]
  · exact onward_behind h rfl rfl

/-- No fault ends a copy before its last byte. -/
theorem Iss.copyBytes_clean (hc : ∀ r ∈ x.copyRanges d a j, r.faults = []) : x.copyBytes d a j = j.dn := by
  have hdst : (x.copyDst d j).faults = [] := hc _ List.mem_cons_self
  have hsrc : (x.copySrc a j).faults = [] := hc _ (List.mem_cons_of_mem _ List.mem_cons_self)
  have hside : (x.copySide j).faults = [] := hc _ (List.mem_cons_of_mem _ (List.mem_cons_of_mem _ List.mem_cons_self))
  unfold Iss.copyBytes CopyJob.upTo
  rw [hdst, hsrc, hside]
  rfl

/-- A copy whose pages may all be used enters its operation, hands over its runs and goes on. -/
theorem Ready.copy_clean (h : Ready s i x) (hj : copyJob x i = some (sc, d, a, j))
    (hb : j.bad (x.dword 0 d) (x.dword 1 a) = false) (hn : j.dn ≠ 0) (hc : ∀ r ∈ x.copyRanges d a j, r.clean)
    {s1 : State} (hu : x.copyUse d a j s = .ok s1) : ∃ gr, x.Enters i (x.copyOp d a j i sc) gr ∧ x.behind gr
      ∧ exec i s = .next ((s1.setGroup x.h x.g gr).enqueueCopy x.gr.core (x.copyRuns d a j)) := by
  obtain ⟨hs, -, -, hap, hpath⟩ := h.facts
  obtain ⟨gr, hst, hent, hbeh⟩ := Iss.launchOp_enters (x := { x with s := s1 }) (i := i) (o := x.copyOp d a j i sc)
    ⟨rfl, rfl, rfl, rfl, rfl, rfl, rfl, rfl, rfl⟩ hap hpath
  have hfaults : (x.copyRanges d a j).flatMap (·.faults) = [] := List.flatMap_eq_nil_iff.2 fun r hr => (hc r hr).2.2
  refine ⟨gr, hent.of_state, hbeh, ?_⟩
  rw [h.copies hj, copyBody_used hb hn (fun r hr => ⟨(hc r hr).1, (hc r hr).2.1⟩) (hs.symm ▸ hu), Iss.copyEnd, hfaults]
  show Iss.finish x i (.state ((({ x with s := s1 } : Iss).launchOp i _).enqueueCopy _ _)) = _
  rw [hst, Iss.finish]

section
variable (h : Ready s i x) (hj : copyJob x i = some (sc, d, a, j)) (hb : j.bad (x.dword 0 d) (x.dword 1 a) = false) (hn : j.dn ≠ 0)
  (hr : ∀ r ∈ x.copyRanges d a j, r.bad = none ∧ r.walks = []) {f : LaneFault}
  (hf : lowestFault ((x.copyRanges d a j).flatMap (·.faults)) = some f) {s1 : State} (hu : x.copyUse d a j s = .ok s1)
include h hj hb hn hr hf hu

/-- A copy that faults before its first byte takes the fault. -/
theorem Ready.copy_fault (h0 : x.copyBytes d a j = 0) :
    exec i s = .next (x.raiseIn ((s1.dropFaults x.gr.core x.w.ctx).modGroup x.h x.g fun gr =>
      { gr with sr := { gr.sr with cpbytes := 0 } }) { x.whole f.cause f.info with faddr := f.addr }) := by
  rw [h.copies hj, copyBody_used hb hn hr (h.facts.1.symm ▸ hu), Iss.copyEnd, hf]
  exact congrArg (x.finish i) (if_pos h0)

/-- A copy that faults behind its first byte hands over the bytes before the fault and waits for them, with the fault. -/
theorem Ready.copy_waits (h0 : x.copyBytes d a j ≠ 0) :
    let o := { x.copyOp d a j i sc with step := x.copyBytes d a j, cause := some (f.cause, f.info, f.addr) }
    ∃ mid, x.Enters i o mid ∧ x.waits mid o.seq ∧ exec i s =
      .next (((s1.dropFaults x.gr.core x.w.ctx).setGroup x.h x.g { mid with ports := x.gr.ports }).enqueueCopy x.gr.core
        (x.copyRuns d a j)) := by
  intro o
  obtain ⟨hs, hwg, -, hap, hpath⟩ := h.facts
  obtain ⟨mid, hst, hent, hwait⟩ := Iss.holdOp_enters (x := { x with s := s1.dropFaults x.gr.core x.w.ctx }) (i := i) (o := o)
    ⟨rfl, rfl, rfl, rfl, rfl, rfl, rfl, rfl, rfl⟩ hap hpath
  have hwg1 : (s1.dropFaults x.gr.core x.w.ctx).wg? x.h = some x.w := by
    rw [← hwg]
    unfold State.wg?
    rw [show (s1.dropFaults x.gr.core x.w.ctx).wgs = s1.wgs from rfl, (State.useCopy_lines hu).wgs]
  refine ⟨mid, hent.of_state, hwait, ?_⟩
  rw [h.copies hj, copyBody_used hb hn hr (hs.symm ▸ hu), Iss.copyEnd, hf]
  refine (congrArg (x.finish i) (if_neg h0)).trans ?_
  rw [hst, State.modGroup_setGroup hwg1, Iss.finish]

end
end

end Sys2Proof.Machine

/-- Settles O36: a copy's body ends by its lowest fault, and its runs cover the bytes that it writes. -/
theorem copies : Obligations.Copies := by
  unfold Obligations.Copies
  intro s i x sc d a j _ h hj da sa listing dst src side all n first lists moves runs under covers queued used
  have hcovers : covers := x.copyRuns_cover d a j
  refine ⟨fun hb => ?_, fun hb hn => h.copy_empty hj hb hn, fun hb hn hc s1 hu => ?_, fun hb hn hr f hf s1 hu =>
    ⟨fun h0 => h.copy_fault hj hb hn hr hf hu h0, fun h0 => ?_⟩⟩
  · rw [h.copies hj, copyBody_bad hb, Iss.finish, h.facts.1]
  · obtain ⟨gr, hent, hbeh, hexec⟩ := h.copy_clean hj hb hn hc hu
    exact ⟨gr, _, hent, hbeh, rfl, rfl, rfl, Iss.copyBytes_clean fun r hr => (hc r hr).2.2, hcovers, hexec⟩
  · obtain ⟨mid, hent, hwait, hexec⟩ := h.copy_waits hj hb hn hr hf hu h0
    exact ⟨mid, _, _, hent, hwait, rfl, rfl, rfl, rfl, rfl, hcovers, hexec⟩

end

/-!
SUPPORT. Control and order: an instruction that only goes on, what an instruction leaves of its path, and the waits of a
barrier.
-/

section
open Sys2Proof Sys2Proof.Machine
namespace Sys2Proof.Machine

/-! ### An instruction that only goes on -/

/-- An instruction without results goes on behind itself, and changes nothing but the place of its issuer. -/
theorem Ready.goes_on {s : State} {i : Instr} {x : Iss} (h : Ready s i x) {body : Iss → Res} (he : exec i s = issue i s body)
    (hb : body x = .done x.gr [] []) (hr : x.rngAfter i = x.gr.sr.rngctr := by rfl) :
    ∃ gr, exec i s = .next (s.setGroup x.h x.g gr) ∧ x.behind gr ∧ gr.sr = x.gr.sr ∧ x.Frame i gr .none 0 := by
  have hframe := Iss.frame_of (fl := []) (d := .none) (n := 0) h (gr := x.gr) rfl (fun _ _ => rfl) (fun _ _ => rfl)
    (fun _ _ => rfl) (fun _ _ => rfl) (fun _ _ => rfl) (by rw [hr]) (fun _ => rfl)
  rw [Group.raiseFlags_nil] at hframe
  exact ⟨_, done_calm h he hb, onward_behind h rfl rfl, sr_onward .., hframe⟩

/-! ### FENCE and WAITC -/

theorem Iss.fencing_of_fenced {x : Iss} {sc : Scope} (hf : x.gr.fenced x.p x.fenceLimit sc x.s.tick = true) (k : Res) :
    x.fencing sc k = k := if_pos hf

theorem Group.quietClasses_of {gr : Group} {k : BitVec 4} (h : ∀ j : CtrClass, k.getLsbD j.num = true → gr.counter j = 0) :
    gr.quietClasses k = true := by
  refine List.all_eq_true.2 fun j _ => ?_
  cases hj : k.getLsbD j.num with
  | false => rfl
  | true => simp [h j hj]

/-- The group behind a FENCE whose waits held at its issue: a path that took its slot for it goes on 4 cycles later
(R155). -/
def Iss.behindFence (x : Iss) (i : Instr) : Group :=
  if x.ap || (x.gr.path x.p).slotted then x.onward i x.gr
  else (x.onward i x.gr).modPath x.p fun q => { q with notBefore := max q.notBefore (x.now + 4) }

theorem fenceBody_of_fenced {x : Iss} {sc : ScopeSel} {k : BitVec 4} (i : Instr)
    (hf : x.gr.fenced x.p x.fenceLimit (scopeSel x.w sc) x.s.tick = true)
    (hk : ∀ j : CtrClass, k.getLsbD j.num = true → x.gr.counter j = 0) :
    fenceBody i sc k x = .state (x.s.setGroup x.h x.g (x.behindFence i)) :=
  (Iss.fencing_of_fenced hf _).trans (if_pos (Group.quietClasses_of hk))

@[simp] theorem Group.modPath_modPath (gr : Group) (p : Nat) (f g : Path → Path) :
    (gr.modPath p f).modPath p g = gr.modPath p fun q => g (f q) := by
  simp [Group.modPath]

/-- A path changed in the table. -/
theorem Group.path_modPath_same {gr : Group} {p : Nat} (hp : p < gr.paths.length) (f : Path → Path) :
    (gr.modPath p f).path p = f (gr.path p) := by
  rw [Group.path_modPath, if_pos ⟨rfl, hp⟩]

theorem Group.path_modPath_ne (gr : Group) {p k : Nat} (hk : k ≠ p) (f : Path → Path) : (gr.modPath p f).path k = gr.path k := by
  rw [Group.path_modPath, if_neg fun h => hk h.1]

theorem Iss.onward_path {x : Iss} (ha : x.ap = false) (i : Instr) (gr : Group) :
    x.onward i gr = gr.modPath x.p fun q => x.issued i q.advance := by
  simp [Iss.onward, ha]

theorem Iss.jump_path {x : Iss} (ha : x.ap = false) (i : Instr) (pc : Nat) (gr : Group) :
    x.jump i pc gr = gr.modPath x.p fun q => { x.issued i (q.goTo pc).flush with retry := none } := by
  simp [Iss.jump, ha]

theorem Iss.behindFence_sr (x : Iss) (i : Instr) : (x.behindFence i).sr = x.gr.sr := by
  unfold Iss.behindFence
  split <;> exact sr_onward ..

section
variable {s : State} {x : Iss} {c : Ctl} {sc : ScopeSel} {k : BitVec 4} (h : Ready s (.fence c sc k) x)
include h

theorem Ready.behindFence_behind : x.behind (x.behindFence (.fence c sc k)) := by
  have hb := onward_behind h (g := x.gr) rfl rfl
  unfold Iss.behindFence
  split
  · exact hb
  case isFalse hap =>
    have hap : x.ap = false := (Bool.or_eq_false_iff.1 (Bool.eq_false_iff.2 hap)).1
    have hlt := (h.facts.2.2.2.2 hap).1
    simp only [Iss.behind, hap, Iss.onward_path, Group.path_modPath_same, hlt, Group.modPath_modPath] at hb ⊢
    exact hb

theorem Ready.behindFence_frame : x.Frame (.fence c sc k) (x.behindFence (.fence c sc k)) .none 0 := by
  have hlt : x.ap = false → x.p < x.gr.paths.length := fun hap => (h.facts.2.2.2.2 hap).1
  refine frame_step h (gr := x.gr) (j := fun _ => x.behindFence (.fence c sc k)) (fun u hu => nomatch hu) rfl (fun _ _ _ => rfl) rfl
    (fun _ => rfl) (fun _ _ => rfl) ?_
  have hstep := step_onward x (.fence c sc k) hlt x.gr rfl
  unfold Iss.behindFence
  split
  · exact hstep
  case isFalse hap =>
    have hap : x.ap = false := (Bool.or_eq_false_iff.1 (Bool.eq_false_iff.2 hap)).1
    rw [hap, Iss.onward_path hap, Group.modPath_modPath, Group.path_modPath_same (hlt hap)]
    refine Group.modPath_congr ?_
    simp only [Iss.issued]
    split <;> rfl

end

end Sys2Proof.Machine

/-- Settles O19: NOP and a hint word complete without results, FENCE past its waits, WAITC by its count. -/
theorem fenceAndWait : Obligations.FenceAndWait := by
  refine ⟨fun s i x hi h => ?_, fun s x c sc k h hf hk => ?_, fun s x c k b h => ⟨fun hle h255 => ?_, fun hlt => ?_⟩⟩
  · rcases hi with ⟨c, rfl⟩ | ⟨w, rfl⟩
    · exact h.goes_on (body := nopBody) rfl rfl
    · exact h.goes_on (body := nopBody) rfl rfl
  · have hs := h.facts.1
    refine ⟨x.behindFence (.fence c sc k), ?_, h.behindFence_behind, ?_, h.behindFence_frame⟩
    · rw [exec_of h (body := fenceBody (.fence c sc k) sc k) rfl, fenceBody_of_fenced _ (hs.symm ▸ hf) hk, hs, Iss.finish]
    · exact x.behindFence_sr _
  · exact h.goes_on (body := waitcBody k b) rfl (if_pos (le_min hle h255))
  · rw [exec_of h (body := waitcBody k b) rfl, waitcBody, if_neg (by omega), Iss.finish, h.facts.1]

end

/-!
PROOF. O30, BarrierArrival: the phase that a BAR opens has its group, and an arrival is entered in a phase that has the
identifier and the scope of that one, in the part of the machine that the scope names for its group.
-/

section
open Sys2Proof Sys2Proof.Machine
namespace Sys2Proof.Machine

theorem takeFirst_of_exists {α : Type} {p : α → Bool} {l : List α} (h : ∃ a ∈ l, p a = true) :
    ∃ b r, takeFirst p l = some (b, r) ∧ b ∈ l ∧ p b = true := by
  induction l with
  | nil => simp at h
  | cons a l ih =>
    unfold takeFirst
    by_cases ha : p a = true
    · exact ⟨a, l, if_pos ha, List.mem_cons_self, ha⟩
    · obtain ⟨b, r, hb, hm, hp⟩ := ih (by simpa [ha] using h)
      exact ⟨b, a :: r, by simp [ha, hb], List.mem_cons_of_mem _ hm, hp⟩

/-! ### The phase that a BAR opens -/

/-- A new phase whose set is not fixed (R173). -/
def Workgroup.phaseAt (w : Workgroup) (gr : Group) (sc : Scope) (id now : Nat) : BarPhase :=
  let ganged := w.gang != 0 && (sc == .pkg || sc == .pod)
  { wg := if ganged then 0 else w.handle, gang := if ganged then some (w.launcher, w.gang) else none
    id := id, scope := sc, inst := w.barInst gr sc, set := none, arrived := [], groups := [], lastAt := now }

theorem Workgroup.phaseAt_has (w : Workgroup) (gr : Group) (sc : Scope) (id now : Nat) :
    (w.phaseAt gr sc id now).has w gr = true := by
  unfold Workgroup.phaseAt BarPhase.has
  cases hgang : w.gang != 0 && (sc == .pkg || sc == .pod) with
  | false => simp
  | true => simpa using (Bool.and_eq_true_iff.1 hgang).1

theorem State.newPhase_eq (s : State) (w : Workgroup) (gr : Group) (sc : Scope) (id : Nat) :
    let b := w.phaseAt gr sc id s.cycle
    s.newPhase w gr sc id = if sc == .clu && !(s.bars.any (·.same b)) then { b with set := some ((s.barMembers b).map (·.2.gid)) }
      else b := rfl

/-- A phase keeps a group whose number is in the set that is fixed for it. -/
theorem BarPhase.has_fixed {b : BarPhase} {w : Workgroup} {gr : Group} (hs : b.set = none) (h : b.has w gr = true) {l : List Nat}
    (hl : gr.gid ∈ l) : ({ b with set := some l } : BarPhase).has w gr = true := by
  unfold BarPhase.has at *
  rw [hs] at h
  cases hg : b.gang with
  | some n => simpa only [hg] using h
  | none =>
    simp only [hg, Bool.and_eq_true] at h ⊢
    exact ⟨h.1, List.contains_iff_mem.2 hl⟩

section
variable {s : State} {h g : Nat} {w : Workgroup} {gr : Group} (hw : s.wg? h = some w) (hg : w.group? g = some gr)
include hw hg

theorem State.mem_barMembers {b : BarPhase} (hb : b.has w gr = true) : (h, gr) ∈ s.barMembers b :=
  List.mem_flatMap.2 ⟨(h, w), find?_mem hw, List.mem_map.2 ⟨(g, gr), List.mem_filter.2 ⟨find?_mem hg, hb⟩, rfl⟩⟩

theorem State.newPhase_has (sc : Scope) (id : Nat) : (s.newPhase w gr sc id).has w gr = true := by
  have hb := w.phaseAt_has gr sc id s.cycle
  rw [State.newPhase_eq]
  split
  · exact BarPhase.has_fixed rfl hb (List.mem_map.2 ⟨_, State.mem_barMembers hw hg hb, rfl⟩)
  · exact hb

end

/-- But for its set, the phase is what was asked for, and nobody has arrived at it. -/
theorem State.newPhase_rest (s : State) (w : Workgroup) (gr : Group) (sc : Scope) (id : Nat) :
    ∃ l, s.newPhase w gr sc id = { w.phaseAt gr sc id s.cycle with set := l } := by
  rw [State.newPhase_eq]
  split
  · exact ⟨_, rfl⟩
  · exact ⟨none, rfl⟩

/-! ### An arrival -/

/-- Phase `f` is one of identifier `id` and scope `sc` where the group stands, and has the group. -/
def BarPhase.For (f : BarPhase) (w : Workgroup) (gr : Group) (sc : Scope) (id : Nat) : Prop :=
  f.id = id ∧ f.scope = sc ∧ f.inst = w.barInst gr sc ∧ f.has w gr = true

theorem BarPhase.for_of_same {s : State} {f : BarPhase} {w : Workgroup} {gr : Group} {sc : Scope} {id : Nat}
    (hs : f.same (s.newPhase w gr sc id) = true) (hf : f.has w gr = true) : f.For w gr sc id := by
  obtain ⟨l, hn⟩ := s.newPhase_rest w gr sc id
  simp only [hn, BarPhase.same, Workgroup.phaseAt, Bool.and_eq_true, beq_iff_eq] at hs
  obtain ⟨⟨⟨-, hid⟩, hsc⟩, hinst⟩ := hs
  exact ⟨hid, hsc, hinst, hf⟩

/-- An arrival of a group is recorded in the phases of the state, of which each stays what it is but for that. -/
theorem State.latch_mem {s : State} {b : BarPhase} (h g : Nat) (hb : b ∈ s.bars) :
    ∃ bars l t, s.latch h g = { s with bars := bars } ∧ { b with groups := l, lastAt := t } ∈ bars := by
  unfold State.latch
  split
  · next w gr _ _ =>
    by_cases hnow : (b.has w gr && !b.groups.contains (h, g) && b.groupIn h gr) = true
    · exact ⟨_, b.groups ++ [(h, g)], s.cycle, rfl, List.mem_map.2 ⟨b, hb, if_pos hnow⟩⟩
    · exact ⟨_, b.groups, b.lastAt, rfl, List.mem_map.2 ⟨b, hb, if_neg hnow⟩⟩
  · exact ⟨s.bars, _, _, rfl, hb⟩

section
variable {s : State} {h g : Nat} {w : Workgroup} {gr : Group} (hw : s.wg? h = some w) (hg : w.group? g = some gr) (p : Nat)
  {sc : Scope} {id : Nat}
include hw hg

/-- Where a phase of the identifier has another scope, the group does not arrive (R313). -/
theorem State.barArrive_none (hf : ∃ f ∈ s.bars, f.id = id ∧ f.has w gr = true ∧ f.scope ≠ sc) :
    s.barArrive h g p sc id = none := by
  obtain ⟨f, hm, hid, hhas, hsc⟩ := hf
  simp only [State.barArrive, hw, State.group?_of hw hg]
  exact if_pos (List.any_eq_true.2 ⟨f, hm, by simp [hid, hhas, hsc]⟩)

/-- Else the path stands in a phase of its own. -/
theorem State.barArrive_some (hf : ∀ f ∈ s.bars, f.id = id → f.has w gr = true → f.scope = sc) :
    ∃ bars, s.barArrive h g p sc id = some { s with bars := bars } ∧ ∃ f ∈ bars, f.For w gr sc id ∧ (h, g, p) ∈ f.arrived := by
  have hscope : (s.bars.any fun b => b.id == id && b.has w gr && b.scope != sc) = false := by
    simpa [and_imp] using hf
  unfold State.barArrive
  simp only [hw, State.group?_of hw hg, hscope, Bool.false_eq_true, if_false]
  generalize hn : s.newPhase w gr sc id = n
  split
  case isTrue hin =>
    obtain ⟨f, hm, hmine⟩ := List.any_eq_true.1 hin
    simp only [Bool.and_eq_true, List.contains_iff_mem] at hmine
    exact ⟨s.bars, rfl, f, hm, BarPhase.for_of_same (s := s) (hn ▸ hmine.1.1) hmine.1.2, hmine.2⟩
  case isFalse =>
    have hself : n.same n = true := by simp [BarPhase.same]
    have hnhas : n.has w gr = true := hn ▸ State.newPhase_has hw hg sc id
    have hnew : n.groups = [] := by obtain ⟨l, hl⟩ := s.newPhase_rest w gr sc id; rw [← hn, hl]; rfl
    generalize hu : (if (s.bars.any fun b => b.same n && b.has w gr && !b.groups.contains (h, g)) = true then s
      else { s with bars := s.bars ++ [n] }) = u
    have hopen : ∃ b ∈ u.bars, (b.same n && b.has w gr && !b.groups.contains (h, g)) = true := by
      rw [← hu]
      split
      case isTrue hany => exact List.any_eq_true.1 hany
      case isFalse => exact ⟨n, by simp, by simp [hself, hnhas, hnew]⟩
    have hrest : u = { s with bars := u.bars } := by rw [← hu]; split <;> rfl
    obtain ⟨b, r, hb, hm, hmine⟩ := takeFirst_of_exists hopen
    simp only [Bool.and_eq_true] at hmine
    rw [hb]
    have harrived : { b with arrived := b.arrived ++ [(h, g, p)] } ∈
        ({ u with bars := modWhere (· == b) (fun _ => { b with arrived := b.arrived ++ [(h, g, p)] }) u.bars } : State).bars :=
      mem_modWhere.2 ⟨b, hm, by simp⟩
    obtain ⟨bars, l, t, hlatch, hmem⟩ := State.latch_mem h g harrived
    refine ⟨bars, ?_, _, hmem, ?_, by simp⟩
    · simp only [hlatch]
      rw [hrest]
    · exact BarPhase.for_of_same (s := s) (f := b) (hn ▸ hmine.1.1) hmine.1.2

end

/-! ### The wait at a barrier -/

/-- A path that waits at its instruction, in its own table entry. -/
theorem Iss.waitIn_path {x : Iss} {s : State} (ha : x.ap = false) (hg : s.group? x.h x.g = some x.gr) (i : Instr) (w : Wait) :
    x.waitIn i w s = s.setGroup x.h x.g (x.gr.modPath x.p fun q => { x.issued i q with
      st := .blocked, wait := some w, slotted := true, stepOnce := w.again && (x.gr.path x.p).stepOnce }) := by
  simp [Iss.waitIn, State.modGroup_eq hg, ha]

/-- Only the issuer's path changes where its table entry does, which keeps its token and its origin. -/
theorem Iss.onlyPaths_modPath {x : Iss} {f : Path → Path} (hlt : x.p < x.gr.paths.length)
    (hf : (f (x.gr.path x.p)).token = (x.gr.path x.p).token ∧ (f (x.gr.path x.p)).origin = (x.gr.path x.p).origin) :
    x.OnlyPaths (x.gr.modPath x.p f) [x.p] where
  rest := rfl
  others p hp := Group.path_modPath_ne _ (by simpa using hp) f
  token := by rw [Group.path_modPath_same hlt]; exact hf

/-! ### A BAR whose waits hold -/

section
variable {x : Iss} {sc : ScopeSel} {b : Opnd}
  (hf : x.gr.fenced x.p x.fenceLimit (x.w.barScope x.gr (scopeSel x.w sc)) x.s.tick = true)
include hf

theorem barBody_refused (hb : x.s.barArrive x.h x.g x.p (x.w.barScope x.gr (scopeSel x.w sc)) (x.word 2 b % 16) = none) :
    barBody sc b x = .trap (x.whole .barScope) := by
  simp only [barBody, Iss.fencing_of_fenced hf, hb]

theorem barBody_arrived {s : State}
    (hb : x.s.barArrive x.h x.g x.p (x.w.barScope x.gr (scopeSel x.w sc)) (x.word 2 b % 16) = some s) :
    barBody sc b x = .stall .barrier s := by
  simp only [barBody, Iss.fencing_of_fenced hf, hb]

end

end Sys2Proof.Machine

/-- Settles O30: the arrival is refused, or stands in a phase of the BAR. -/
theorem barrierArrival : Obligations.BarrierArrival := by
  intro s x c sc b h act id hfenced
  obtain ⟨rfl, hw, hg, -, hpath⟩ := h.facts
  have hap : x.ap = false := not_ap h rfl
  obtain ⟨hlt, hpc, hmask⟩ := hpath hap
  have hexec : exec (.bar c sc b) x.s = x.finish (.bar c sc b) (barBody sc b x) := exec_of h rfl
  refine ⟨fun hf => ?_, fun hf => ?_⟩
  · rw [hexec, barBody_refused hfenced (State.barArrive_none hw hg x.p hf), Iss.finish]
    rfl
  · obtain ⟨bars, harr, f, hm, hfor, hin⟩ := State.barArrive_some hw hg x.p hf
    have hgr : ({ x.s with bars := bars } : State).group? x.h x.g = some x.gr := State.group?_of hw hg
    obtain ⟨hid, hsc, hinst, hhas⟩ := hfor
    rw [hexec, barBody_arrived hfenced harr, Iss.finish, Iss.waitIn_path hap hgr]
    refine ⟨_, bars, rfl, Iss.onlyPaths_modPath hlt (by simp), ?_, ?_, ?_, ?_, f, hm, hid, hsc, hinst, hhas, hin⟩
    all_goals simp [Group.path_modPath_same hlt, hpc, hmask]

end

/-!
PROOF. O16, DivergentBranch: a push onto a stack and its spill, and what a branch that divides its path leaves of both parts.
-/

section
open Sys2Proof Sys2Proof.Machine
namespace Sys2Proof.Machine

/-! ### Pushes -/

/-- A path with another stack, of which `spilled` entries stand in memory. -/
def Path.restack (st : List StackEnt) (spilled : Nat) (gone : Mask) (notBefore : Nat) (q : Path) : Path :=
  { q with stack := st, spilled := spilled, gone := gone, notBefore := notBefore }

section
variable {s s1 : State} {x : Iss} {gr1 : Group} {below : List StackEnt} (hp : Pushed s x s1 gr1 below)
include hp

/-- The two cases of a push: onto a stack with room, and onto a full one, which spills (R180). -/
theorem Pushed.cases :
    (let q := x.gr.path x.p
     q.stack.length < 32 ∧ s1 = s ∧ gr1 = x.gr ∧ below = q.stack)
    ∨ let q := x.gr.path x.p
      ¬ q.stack.length < 32 ∧ s.entsQuiet x.h x.g x.w x.gr x.p q.spilled 8 = true
      ∧ s.vStores x.gr.core x.w.ctx x.gr.sup ((List.range 8).map fun k =>
        (x.w.stackAddr x.g x.p (q.spilled + k), bytesOfNat 16 (q.stack.getD (31 - k) .bad).encode)) = .ok s1
      ∧ s1.group? x.h x.g = some x.gr ∧ gr1 = x.gr.raiseH .grp (upTick s1.cycle) ∧ below = q.stack.take 24 := by
  unfold Pushed at hp
  dsimp only at hp
  split at hp
  case isTrue hroom => exact .inl ⟨hroom, hp⟩
  case isFalse hfull => exact .inr ⟨hfull, hp⟩

/-- The group under a push is the issuer's but for its horizons. -/
theorem Pushed.group : gr1 = { x.gr with horizon := gr1.horizon } := by
  rcases Pushed.cases hp with ⟨-, -, rfl, -⟩ | ⟨-, -, -, -, rfl, -⟩ <;> rfl

theorem Pushed.group? (hg : s.group? x.h x.g = some x.gr) : s1.group? x.h x.g = some x.gr := by
  rcases Pushed.cases hp with ⟨-, rfl, -, -⟩ | ⟨-, -, -, hg1, -, -⟩
  · exact hg
  · exact hg1

/-- A push succeeds, and puts its entry on top of the entries below. -/
theorem State.pushEnt_pushed (hw : s.wg? x.h = some x.w) (hg : x.w.group? x.g = some x.gr) (e : StackEnt) :
    let q := x.gr.path x.p
    ∃ t, s.pushEnt x.h x.g x.p e = .ok (s1.setGroup x.h x.g (gr1.modPath x.p
      (Path.restack (e :: below) (if q.stack.length < 32 then q.spilled else q.spilled + 8) q.gone t))) := by
  have hgr := State.group?_of hw hg
  have hgr1 := Pushed.group? hp hgr
  simp only [State.pushEnt, hw, hgr]
  rcases Pushed.cases hp with ⟨hroom, rfl, rfl, rfl⟩ | ⟨hfull, hquiet, hstores, -, rfl, rfl⟩
  · refine ⟨(x.gr.path x.p).notBefore, ?_⟩
    rw [if_pos hroom, if_pos hroom, State.modGroup_eq hgr]
    exact congrArg (fun gr => VRes.ok (State.setGroup _ _ _ gr)) (Group.modPath_congr rfl)
  · refine ⟨s1.clock x.gr.core + 24, ?_⟩
    rw [if_neg hfull, if_neg hfull, if_neg (by simp [hquiet]), hstores]
    simp only [State.modGroup_eq hgr1]
    exact congrArg (fun gr => VRes.ok (State.setGroup _ _ _ gr)) (Group.modPath_congr rfl)

end

/-! ### The lanes that stay, and those that go -/

/-- The path of a branch that divides it, with the lanes `m` that stay: behind the branch. -/
def Iss.stays (x : Iss) (i : Instr) (m : Mask) (gr : Group) : Group :=
  (x.onward i gr).modPath x.p fun q => { q with mask := m, notBefore := max q.notBefore (gr.path x.p).notBefore }

/-- The path of the lanes that a split takes to `target`. -/
def Iss.splitOff (x : Iss) (k target : Nat) (t : Mask) : Path :=
  { Path.free with st := .ready, pc := target, mask := t, token := some k, origin := x.p, notBefore := x.now + 1, ageFrom := x.now }

theorem Iss.diverge_deep {x : Iss} {i : Instr} {k target : Nat} {split : Bool} {t : Mask}
    (hd : 1024 ≤ (x.gr.path x.p).depth) : x.diverge i k target split t = .trap (x.whole .stackDepth) := if_pos hd

section
variable {x : Iss} {i : Instr} {k target : Nat} {split : Bool} {t : Mask} (hd : (x.gr.path x.p).depth < 1024) {s1 : State}
  {w1 : Workgroup} (hw1 : s1.wg? x.h = some w1) {gr : Group}
include hd hw1

theorem Iss.diverge_div (hf : (if split then x.gr.freePath else none) = none)
    (hp : x.s.pushEnt x.h x.g x.p (.div k x.m t (ppcOf target)) = .ok (s1.setGroup x.h x.g gr)) :
    x.diverge i k target split t = .state (s1.setGroup x.h x.g (x.stays i (x.m &&& ~~~t) gr)) := by
  unfold Iss.diverge
  rw [if_neg (Nat.not_le.2 hd), hf]
  simp only [hp, Iss.after, State.modGroup_setGroup hw1]
  rfl

theorem Iss.diverge_split {j : Nat} (hs : split = true) (hf : x.gr.freePath = some j)
    (hp : x.s.pushEnt x.h x.g x.p (.split k j) = .ok (s1.setGroup x.h x.g gr)) :
    x.diverge i k target split t = .state (s1.setGroup x.h x.g
      (((x.stays i (x.m &&& ~~~t) gr).fork x.p j).setPath j (x.splitOff k target t))) := by
  unfold Iss.diverge
  rw [if_neg (Nat.not_le.2 hd), hs, if_pos rfl, hf]
  simp only [hp, Iss.after, State.modGroup_setGroup hw1]
  rfl

end

/-! ### The lowest free path -/

theorem Group.freePath_none {gr : Group} (h : ∀ j < 4, (gr.path j).st ≠ .free) : gr.freePath = none :=
  List.find?_eq_none.2 fun j hj => by simpa using h j (List.mem_range.1 hj)

theorem Group.freePath_lowest {gr : Group} {j : Nat} (hj : j < 4) (hf : (gr.path j).st = .free)
    (hl : ∀ k < j, (gr.path k).st ≠ .free) : gr.freePath = some j :=
  List.find?_range_eq_some.2 ⟨by simpa using hf, List.mem_range.2 hj, fun k hk => by simpa using hl k hk⟩

/-! ### A fork -/

theorem Group.fork_path (gr : Group) (p j k : Nat) : (gr.fork p j).path k = gr.path k := rfl

/-- What precedes the origin's instructions precedes those of the path split from it. -/
theorem Group.mem_fork_ops {gr : Group} {p j : Nat} {o : Op} (ho : o ∈ (gr.fork p j).ops) (hp : p ∈ o.paths) : j ∈ o.paths := by
  obtain ⟨o, -, rfl⟩ := List.mem_map.1 ho
  simp only [List.contains_iff_mem] at hp ⊢
  split at hp
  case isTrue h => simp [h]
  case isFalse h => exact absurd (List.mem_of_mem_erase hp) h

/-! ### A path that is ready -/

theorem Ready.path_ne_free {s : State} {i : Instr} {x : Iss} (h : Ready s i x) (ha : x.ap = false) : (x.gr.path x.p).st ≠ .free := by
  obtain ⟨y, hy, hx⟩ := h.issuer
  obtain ⟨-, -, -, -, hcur⟩ := State.issuer_go hy
  have hya : y.ap = false := by rw [hx] at ha; exact ha
  rw [hya] at hcur
  rw [hx]
  exact (State.pathRuns_path hcur.2.1).1

theorem Iss.standsAt_path {x : Iss} (ha : x.ap = false) {gr : Group} {pc : Nat} : x.standsAt gr pc ↔
    (gr.path x.p).pc = pc ∧ (gr.path x.p).st = .ready ∧ (gr.path x.p).wait = none := by
  simp [Iss.standsAt, ha]

theorem Iss.stays_eq {x : Iss} (ha : x.ap = false) (i : Instr) (m : Mask) (gr : Group) : x.stays i m gr =
    gr.modPath x.p fun q => { x.issued i q.advance with
      mask := m, notBefore := max (x.issued i q.advance).notBefore (gr.path x.p).notBefore } := by
  rw [Iss.stays, Iss.onward_path ha, Group.modPath_modPath]

/-- A part of the path's lanes goes on behind the branch, with the stack that the push has left. -/
theorem Iss.stays_restacked {x : Iss} (ha : x.ap = false) (i : Instr) (m : Mask) {gr1 : Group} (hlt : x.p < gr1.paths.length)
    (hpc : (gr1.path x.p).pc = x.pc) (st : List StackEnt) (n : Nat) (l : Mask) (t : Nat) :
    let gr := x.stays i m (gr1.modPath x.p (Path.restack st n l t))
    ({ x with gr := gr1 } : Iss).OnlyPaths gr [x.p] ∧ x.standsAt gr ((x.pc + 12) % 2 ^ 64) ∧ (gr.path x.p).mask = m
      ∧ (gr.path x.p).spilled = n ∧ (gr.path x.p).stack = st ∧ gr.paths.length = gr1.paths.length := by
  intro gr
  have hgr : gr = _ := Iss.stays_eq ha i m _
  rw [Group.modPath_modPath] at hgr
  rw [hgr, Iss.standsAt_path ha]
  refine ⟨Iss.onlyPaths_modPath (x := { x with gr := gr1 }) hlt ?_, ?_⟩ <;>
    simp [Group.path_modPath_same hlt, Path.restack, hpc]

/-- Where only the issuer's path had changed, and then the operations and path `j` change, these alone differ. -/
theorem Iss.OnlyPaths.partner {x : Iss} {gr : Group} {j : Nat} (honly : x.OnlyPaths gr [x.p]) (hne : x.p ≠ j)
    (f : List Op → List Op) (q : Path) :
    let u := ({ gr with ops := f gr.ops } : Group).setPath j q
    ({ x with gr := { x.gr with ops := f x.gr.ops } } : Iss).OnlyPaths u [x.p, j] ∧ u.path x.p = gr.path x.p := by
  have hown : (({ gr with ops := f gr.ops } : Group).setPath j q).path x.p = gr.path x.p := by
    rw [Group.path_setPath, if_neg fun hpj => hne hpj.1]
    rfl
  refine ⟨⟨?_, fun p hnot => ?_, ?_⟩, hown⟩
  · rw [honly.rest]
    rfl
  · rw [List.mem_cons, List.mem_singleton, not_or] at hnot
    rw [Group.path_setPath, if_neg fun hpj => hnot.2 hpj.1]
    exact honly.others p (by simpa using hnot.1)
  · rw [hown]
    exact honly.token

/-! ### A jump -/

/-- An instruction that jumps stands at its target with an empty fetch buffer, and changes nothing else. -/
theorem Ready.jumps {s : State} {i : Instr} {x : Iss} (h : Ready s i x) (hq : ∀ u ∈ i.srcs, u.o.portOf = none)
    (hr : x.rngAfter i = x.gr.sr.rngctr) (pc : Nat) :
    let gr := x.jump i pc x.gr
    gr.sr = x.gr.sr ∧ x.Frame i gr .none 0 ∧ x.standsAt gr pc ∧ x.ahead gr = [] := by
  obtain ⟨-, -, -, hap, hpath⟩ := h.facts
  have hlt : x.ap = false → x.p < x.gr.paths.length := fun ha => (hpath ha).1
  refine ⟨?_, frame_step h hq rfl (fun _ _ _ => rfl) hr (fun _ => rfl) (fun _ _ => rfl) (step_jump x i pc hlt x.gr rfl), ?_⟩
  · unfold Iss.jump
    split <;> rfl
  · cases ha : x.ap with
    | true => simp [Iss.standsAt, Iss.ahead, Iss.jump, ha, (hap ha).1]
    | false => simp [Iss.standsAt, Iss.ahead, ha, Iss.jump_path ha, Group.path_modPath_same (hlt ha)]

/-- A transfer that is not traced is a jump (R389). -/
theorem Iss.transfer_untraced {x : Iss} (hw : x.s.wg? x.h = some x.w) (hg : x.w.group? x.g = some x.gr)
    (ht : x.ap = false → x.s.tracing x.w.ctx = false) (i : Instr) (pc : Nat) :
    x.transfer i pc id = .state (x.s.setGroup x.h x.g (x.jump i pc x.gr)) := by
  cases ha : x.ap with
  | true => simp [Iss.transfer, ha]
  | false => simp [Iss.transfer, ha, traceAt_off hw (ht ha), Iss.after, State.modGroup_eq (State.group?_of hw hg)]

/-! ### The two ways to divide a path -/

section
variable {s : State} {x : Iss} {c : Ctl} {tok : BitVec 6} {t : Target} (h : Ready s (.brx c tok t) x)
include h

theorem Ready.brx_diverges (hall : x.x ≠ x.m) (hnone : x.x ≠ 0) : exec (.brx c tok t) s = x.finish (.brx c tok t)
    (x.diverge (.brx c tok t) tok.toNat (branchTo x.pc t) c.hint.split x.x) := by
  rw [exec_of h (body := brxBody c tok t) rfl, brxBody, targetOf_eq, if_neg (by simpa using hall), if_neg (by simpa using hnone)]

variable (ha : x.ap = false) {s1 : State} {gr1 : Group} {below : List StackEnt} (hp : Pushed s x s1 gr1 below)
include ha hp

/-- The state after the push, and the path that then goes on with the lanes `m`. -/
theorem Ready.brx_pushes (e : StackEnt) (m : Mask) : let q := x.gr.path x.p
    ∃ w1 gr2, s1.wg? x.h = some w1 ∧ s.pushEnt x.h x.g x.p e = .ok (s1.setGroup x.h x.g gr2) ∧
      let gr := x.stays (.brx c tok t) m gr2
      ({ x with gr := gr1 } : Iss).OnlyPaths gr [x.p] ∧ x.standsAt gr ((x.pc + 12) % 2 ^ 64) ∧ (gr.path x.p).mask = m
      ∧ (gr.path x.p).spilled = (if q.stack.length < 32 then q.spilled else q.spilled + 8)
      ∧ (gr.path x.p).stack = e :: below ∧ gr.paths.length = x.gr.paths.length := by
  obtain ⟨-, hw, hg, -, hpath⟩ := h.facts
  obtain ⟨hlt, hpc, -⟩ := hpath ha
  obtain ⟨n, hpush⟩ := State.pushEnt_pushed hp hw hg e
  obtain ⟨w1, hw1, -⟩ := State.group?_some (Pushed.group? hp (State.group?_of hw hg))
  have hpaths : gr1.paths = x.gr.paths := by rw [Pushed.group hp]
  have hpath1 : gr1.path x.p = x.gr.path x.p := by simp [Group.path, hpaths]
  have hstays := Iss.stays_restacked ha (.brx c tok t) m (gr1 := gr1) (by rw [hpaths]; exact hlt) (by rw [hpath1]; exact hpc.symm)
    (e :: below) (if (x.gr.path x.p).stack.length < 32 then (x.gr.path x.p).spilled else (x.gr.path x.p).spilled + 8)
    (x.gr.path x.p).gone n
  rw [hpaths] at hstays
  exact ⟨w1, _, hw1, hpush, hstays⟩

variable (hall : x.x ≠ x.m) (hnone : x.x ≠ 0) (hd : (x.gr.path x.p).stack.length + (x.gr.path x.p).spilled < 1024)
include hall hnone hd

/-- The lanes taken stand in a DIV entry. -/
theorem Ready.brx_divides (hfree : c.hint.split = false ∨ ∀ j < 4, (x.gr.path j).st ≠ .free) :
    let q := x.gr.path x.p
    ∃ gr, exec (.brx c tok t) s = .next (s1.setGroup x.h x.g gr) ∧ ({ x with gr := gr1 } : Iss).OnlyPaths gr [x.p]
      ∧ x.standsAt gr ((x.pc + 12) % 2 ^ 64) ∧ (gr.path x.p).mask = x.m &&& ~~~x.x
      ∧ (gr.path x.p).spilled = (if q.stack.length < 32 then q.spilled else q.spilled + 8)
      ∧ (gr.path x.p).stack = .div tok.toNat x.m x.x (branchTo x.pc t % 2 ^ 55 / 4 * 4) :: below := by
  obtain ⟨w1, gr2, hw1, hpush, honly, hstands, hmask, hspilled, hstack, -⟩ :=
    h.brx_pushes ha hp (.div tok.toNat x.m x.x (ppcOf (branchTo x.pc t))) (x.m &&& ~~~x.x)
  have hno : (if c.hint.split then x.gr.freePath else none) = none := by
    rcases hfree with hfree | hfree
    · simp [hfree]
    · simp [Group.freePath_none hfree]
  refine ⟨_, ?_, honly, hstands, hmask, hspilled, hstack⟩
  rw [h.brx_diverges hall hnone, Iss.diverge_div hd hw1 hno (h.facts.1.symm ▸ hpush), Iss.finish]

/-- The lanes taken are a path of their own. -/
theorem Ready.brx_splits {j : Nat} (hj : j < 4) (hsplit : c.hint.split = true) (hfree : (x.gr.path j).st = .free)
    (hlow : ∀ k < j, (x.gr.path k).st ≠ .free) (hjlt : j < x.gr.paths.length) :
    let q := x.gr.path x.p
    ∃ gr, exec (.brx c tok t) s = .next (s1.setGroup x.h x.g gr)
      ∧ ({ x with gr := gr1.fork x.p j } : Iss).OnlyPaths gr [x.p, j] ∧ (∀ o ∈ gr.ops, x.p ∈ o.paths → j ∈ o.paths)
      ∧ x.standsAt gr ((x.pc + 12) % 2 ^ 64) ∧ (gr.path x.p).mask = x.m &&& ~~~x.x
      ∧ (gr.path x.p).spilled = (if q.stack.length < 32 then q.spilled else q.spilled + 8)
      ∧ (gr.path x.p).stack = .split tok.toNat j :: below ∧ gr.path j = x.splitOff tok.toNat (branchTo x.pc t) x.x := by
  obtain ⟨w1, gr2, hw1, hpush, hstays⟩ := h.brx_pushes ha hp (.split tok.toNat j) (x.m &&& ~~~x.x)
  have hexec := h.brx_diverges hall hnone
  rw [Iss.diverge_split hd hw1 hsplit (Group.freePath_lowest hj hfree hlow) (h.facts.1.symm ▸ hpush), Iss.finish] at hexec
  revert hexec hstays
  generalize x.stays _ _ gr2 = gr
  rintro ⟨honly, hstands, hmask, hspilled, hstack, hlen⟩ hexec
  have hne : x.p ≠ j := fun hpj => h.path_ne_free ha (hpj ▸ hfree)
  obtain ⟨hboth, hown⟩ := honly.partner hne (fun os => (({ gr with ops := os } : Group).fork x.p j).ops)
    (x.splitOff tok.toNat (branchTo x.pc t) x.x)
  rw [Iss.standsAt_path ha] at hstands
  rw [← hown] at hstands hmask hspilled hstack
  refine ⟨_, hexec, hboth, fun o ho => Group.mem_fork_ops ho, ?_, hmask, hspilled, hstack, ?_⟩
  · rw [Iss.standsAt_path ha]
    exact hstands
  · rw [Group.path_setPath, if_pos ⟨rfl, hlen.symm ▸ hjlt⟩]

end

end Sys2Proof.Machine

/-- Settles O16: all lanes are a jump, none goes on, and a part of them divides the path in one of the two ways. -/
theorem divergentBranch : Obligations.DivergentBranch := by
  intro s x c tok t i q h ht
  obtain ⟨hs, hw, hg, -, -⟩ := h.facts
  refine ⟨fun hall => ⟨_, ?_, h.jumps (fun u hu => nomatch hu) rfl _⟩, fun hall hnone => ?_, fun ha hall hnone =>
    ⟨fun hdeep => ?_, fun hd s1 gr1 below hp => ⟨h.brx_divides ha hp hall hnone hd, fun j hj hsplit hfree hlow hlt => ?_⟩⟩⟩
  · rw [exec_of h (body := brxBody c tok t) rfl, brxBody, targetOf_eq, if_pos (by simpa using hall),
      Iss.transfer_untraced (hs.symm ▸ hw) hg (hs.symm ▸ ht), Iss.finish, hs]
  · have hbody : brxBody c tok t x = .done x.gr [] [] := by
      rw [brxBody, if_neg (by simpa using hall), if_pos (by simpa using hnone)]
    obtain ⟨gr, hexec, hbehind, hsr, hframe⟩ := h.goes_on (body := brxBody c tok t) rfl hbody
    exact ⟨gr, hexec, hsr, hframe, hbehind⟩
  · rw [h.brx_diverges hall hnone, Iss.diverge_deep hdeep, Iss.finish, hs]
    rfl
  · obtain ⟨gr, hexec, honly, hops, hstands, hmask, hspilled, hstack, hj⟩ :=
      h.brx_splits ha hp hall hnone hd hj hsplit hfree hlow hlt
    exact ⟨gr, hexec, honly, hops, hstands, hmask, hspilled, hstack, by rw [hj]; exact ⟨rfl, rfl, rfl, rfl, rfl, rfl, rfl⟩⟩

end

/-!
PROOF. O17, Reconvergence, first part: a pop with its fill, and the instruction by the top of its path's stack.
-/

section
open Sys2Proof Sys2Proof.Machine
namespace Sys2Proof.Machine

/-! ### Fills and pops -/

section
variable {s s1 : State} {x : Iss} {st : List StackEnt} {n : Nat}

/-- An empty stack over spilled entries is filled (R180). -/
theorem State.fillEnts_filled {w0 : Workgroup} {gr0 : Group} (hw : s.wg? x.h = some w0) (hg : w0.group? x.g = some gr0)
    (hw0 : w0 = { x.w with groups := w0.groups }) (hg0 : gr0 = { x.gr with paths := gr0.paths })
    (hempty : (gr0.path x.p).stack = []) (hspilled : (gr0.path x.p).spilled = (x.gr.path x.p).spilled)
    (hgone : (gr0.path x.p).gone = (x.gr.path x.p).gone) (hne : (x.gr.path x.p).spilled ≠ 0) (hf : Filled s x s1 st n) :
    ∃ l t, s.fillEnts x.h x.g x.p = .ok (s1.setGroup x.h x.g (gr0.modPath x.p (Path.restack st n l t))) := by
  obtain ⟨hn, hquiet, bs, hload, hwg, -, hst⟩ := hf
  have hgr1 : s1.group? x.h x.g = some gr0 := State.group?_of (hwg.trans hw) hg
  have hread : s.readEnts x.h x.g w0 gr0 x.p n (min 8 (x.gr.path x.p).spilled) = .ok ((List.range (min 8 (x.gr.path x.p).spilled)).map
      fun j => StackEnt.decode (natOfBytes ((bs.drop (16 * j)).take 16)), s1) := by
    have hquiet0 : s.entsQuiet x.h x.g w0 gr0 x.p n (min 8 (x.gr.path x.p).spilled) = true := by
      rw [hw0, hg0]
      exact hquiet
    have hload0 : s.vLoad gr0.core w0.ctx gr0.sup (w0.stackAddr x.g x.p n) (16 * min 8 (x.gr.path x.p).spilled) = .ok (bs, s1) := by
      rw [hw0, hg0]
      exact hload
    simp [State.readEnts, hquiet0, hload0]
  refine ⟨if (x.gr.path x.p).spilled = min 8 (x.gr.path x.p).spilled then 0 else (x.gr.path x.p).gone, s1.clock gr0.core + 24, ?_⟩
  unfold State.fillEnts
  simp only [hw, State.group?_of hw hg, hspilled, hempty]
  rw [if_neg (by simpa using hne), ← hn, hread]
  simp only [State.modGroup_eq hgr1]
  refine congrArg (fun gr => VRes.ok (State.setGroup _ _ _ gr)) (Group.modPath_congr ?_)
  simp [Path.restack, hspilled, hgone, hst, hn]

/-- A pop leaves the path with the stack, and the spilled entries, that `Popped` says. -/
theorem State.popEnt_popped {e : StackEnt} {r : List StackEnt} (hw : s.wg? x.h = some x.w) (hg : x.w.group? x.g = some x.gr)
    (hlt : x.p < x.gr.paths.length) (hs : (x.gr.path x.p).stack = e :: r) (hp : Popped s x r s1 st n) :
    ∃ w1 l t, s1.wg? x.h = some w1 ∧ w1.ctx = x.w.ctx ∧ s1.tracing x.w.ctx = s.tracing x.w.ctx
      ∧ s.popEnt x.h x.g x.p = .ok (s1.setGroup x.h x.g (x.gr.modPath x.p (Path.restack st n l t))) := by
  have htail : x.gr.modPath x.p (fun q => { q with stack := q.stack.tail }) = x.gr.modPath x.p fun q => { q with stack := r } :=
    Group.modPath_congr (by rw [hs]; rfl)
  unfold Popped at hp
  dsimp only at hp
  split at hp
  case isTrue hstays =>
    obtain ⟨rfl, rfl, rfl⟩ := hp
    refine ⟨x.w, (x.gr.path x.p).gone, (x.gr.path x.p).notBefore, hw, rfl, rfl, ?_⟩
    rw [popEnt_calm hw hg hlt hs hstays, htail]
    exact congrArg (fun gr => VRes.ok (State.setGroup _ _ _ gr)) (Group.modPath_congr rfl)
  case isFalse hmore =>
    have hr : r = [] := by by_contra hr; exact hmore (.inl hr)
    have hne : (x.gr.path x.p).spilled ≠ 0 := fun hz => hmore (.inr hz)
    have hpath := Group.path_modPath_same hlt fun q => { q with stack := r }
    have hw0 := State.wg?_setGroup_same hw x.g (x.gr.modPath x.p fun q => { q with stack := r })
    obtain ⟨l, t, hfill⟩ := State.fillEnts_filled hw0 (Workgroup.group?_setGroup_same ..) rfl rfl (by rw [hpath]; exact hr)
      (by rw [hpath]) (by rw [hpath]) hne hp
    obtain ⟨-, -, bs, -, hwg, htr, -⟩ := hp
    refine ⟨_, l, t, hwg.trans hw0, rfl, htr.trans (by simp [State.tracing, State.rightOn]), ?_⟩
    rw [State.popEnt, State.modGroup_eq (State.group?_of hw hg), htail, hfill, Group.modPath_modPath]
    rfl

end

/-! ### The ends of a division -/

/-- The path behind a RECONV that ends a division, with the lanes `m`. -/
def Iss.rejoins (x : Iss) (i : Instr) (m : Mask) (gr : Group) : Group :=
  (x.jump i ((x.pc + 12) % 2 ^ 64) gr).modPath x.p fun q =>
    { q with mask := m, notBefore := max q.notBefore (gr.path x.p).notBefore }

section
variable {x : Iss} {i : Instr} {s1 : State} {w1 : Workgroup} {gr : Group} (hp : x.s.popEnt x.h x.g x.p = .ok (s1.setGroup x.h x.g gr))
  (hw1 : s1.wg? x.h = some w1)
include hp hw1

theorem Iss.merged_eq (ht : (s1.setGroup x.h x.g gr).tracing w1.ctx = false) (m : Mask) (f : Group → Group) :
    x.merged i m f = .state (s1.setGroup x.h x.g (f (x.rejoins i m gr))) := by
  have htrace : (s1.setGroup x.h x.g gr).traceAt x.h x.g x.p x.pc ((x.pc + 12) % 2 ^ 64) = .ok (s1.setGroup x.h x.g gr) :=
    traceAt_off (State.wg?_setGroup_same hw1 x.g gr) ht
  simp only [Iss.merged, hp, Iss.after, htrace, State.modGroup_setGroup hw1]
  rfl

end

theorem Iss.rejoins_restacked {x : Iss} (ha : x.ap = false) (i : Instr) (m : Mask) (hlt : x.p < x.gr.paths.length)
    (st : List StackEnt) (n : Nat) (l : Mask) (t : Nat) :
    let gr := x.rejoins i m (x.gr.modPath x.p (Path.restack st n l t))
    x.OnlyPaths gr [x.p] ∧ x.standsAt gr ((x.pc + 12) % 2 ^ 64) ∧ (gr.path x.p).mask = m
      ∧ (gr.path x.p).stack = st ∧ (gr.path x.p).spilled = n := by
  intro gr
  have hgr : gr = _ := congrArg (Group.modPath · x.p _) (Iss.jump_path ha i _ _)
  rw [Group.modPath_modPath, Group.modPath_modPath] at hgr
  rw [hgr, Iss.standsAt_path ha]
  refine ⟨Iss.onlyPaths_modPath hlt ?_, ?_⟩ <;> simp [Group.path_modPath_same hlt, Path.restack]

end Sys2Proof.Machine
end

/-!
PROOF. O17, Reconvergence, second part: RECONV by the top of its path's stack.
-/

section
open Sys2Proof Sys2Proof.Machine
namespace Sys2Proof.Machine

/-- What precedes the merged path's instructions precedes those of the path that it merges into. -/
theorem Group.mem_join_ops {gr : Group} {p j : Nat} {o : Op} (ho : o ∈ (gr.join p j).ops) (hj : j ∈ o.paths) : p ∈ o.paths := by
  obtain ⟨o, -, rfl⟩ := List.mem_map.1 ho
  by_cases hp : p ∈ o.paths
  · simp [hp]
  · by_cases hjo : j ∈ o.paths
    · simp [hp, hjo]
    · simp [hjo] at hj

/-- A path that waits in JOIN at its RECONV. -/
def Iss.inJoin (x : Iss) (i : Instr) (q : Path) : Path := { x.issued i q with st := .join, wait := none, slotted := true }

theorem Iss.joining_eq (x : Iss) (i : Instr) :
    ∃ bars, x.joining i = .state { x.s.setGroup x.h x.g (x.gr.modPath x.p (x.inJoin i)).wake with bars := bars } := by
  obtain ⟨bars, hbars⟩ := latch_calm (s := x.s.setGroup x.h x.g (x.gr.modPath x.p (x.inJoin i)).wake) (h := x.h) (g := x.g)
  exact ⟨bars, congrArg Res.state hbars⟩

section
variable {s : State} {x : Iss} {c : Ctl} {tok : BitVec 6} (h : Ready s (.reconv c tok) x)
include h

theorem Ready.reconv_exec : exec (.reconv c tok) s = x.finish (.reconv c tok) (reconvBody c tok x) :=
  exec_of h rfl

/-- Without an entry of its token (R271). -/
theorem Ready.reconv_goes_on (hno : let q := x.gr.path x.p
    q.stack = [] ∧ q.spilled = 0 ∧ q.token ≠ some tok.toNat ∨ (∃ t m pm pc r, q.stack = .div t m pm pc :: r ∧ t ≠ tok.toNat)
      ∨ ∃ t j r, q.stack = .split t j :: r ∧ t ≠ tok.toNat) :
    ∃ gr, exec (.reconv c tok) s = .next (s.setGroup x.h x.g gr) ∧ x.behind gr ∧ gr.sr = x.gr.sr
      ∧ x.Frame (.reconv c tok) gr .none 0 := by
  refine h.goes_on (body := reconvBody c tok) rfl ?_
  rcases hno with ⟨hst, hsp, ht⟩ | ⟨t, m, pm, pc, r, hst, ht⟩ | ⟨t, j, r, hst, ht⟩ <;> simp [reconvBody, *]

/-- One side of a division is done (R178). -/
theorem Ready.reconv_starts {m pm : Mask} {pc : Nat} {r : List StackEnt} (hst : (x.gr.path x.p).stack = .div tok.toNat m pm pc :: r)
    (hpm : pm ≠ 0) : ∃ gr, exec (.reconv c tok) s = .next (s.setGroup x.h x.g gr) ∧ x.OnlyPaths gr [x.p] ∧ x.standsAt gr pc
      ∧ (gr.path x.p).mask = pm ∧ (gr.path x.p).stack = .div tok.toNat m 0 (x.pc % 2 ^ 55 / 4 * 4) :: r := by
  have ha : x.ap = false := not_ap h rfl
  obtain ⟨hs, -, -, -, hpath⟩ := h.facts
  have hlt := (hpath ha).1
  have hbody : reconvBody c tok x = .state (x.s.setGroup x.h x.g ((x.jump (.reconv c tok) pc x.gr).modPath x.p fun q =>
      { q with mask := pm, stack := .div tok.toNat m 0 (ppcOf x.pc) :: r })) := by
    simp only [reconvBody, hst]
    rw [if_neg (by simp), if_pos (by simpa using hpm)]
  rw [h.reconv_exec, hbody, Iss.finish, hs, Iss.jump_path ha, Group.modPath_modPath]
  refine ⟨_, rfl, Iss.onlyPaths_modPath hlt (by simp), ?_⟩
  simp [Iss.standsAt_path ha, Group.path_modPath_same hlt, ppcOf]

section
variable {e : StackEnt} {r : List StackEnt} (hst : (x.gr.path x.p).stack = e :: r) {s1 : State} {st : List StackEnt} {n : Nat}
  (hpop : Popped s x r s1 st n)
include hst hpop

/-- The partner has gone: the path goes on behind the RECONV with the lanes it has. -/
theorem Ready.reconv_alone {j : Nat} (he : e = .split tok.toNat j) (hfree : (x.gr.path j).st = .free) :
    ∃ gr, exec (.reconv c tok) s = .next (s1.setGroup x.h x.g gr) ∧ x.OnlyPaths gr [x.p]
      ∧ x.standsAt gr ((x.pc + 12) % 2 ^ 64) ∧ (gr.path x.p).mask = x.m ∧ (gr.path x.p).stack = st
      ∧ (gr.path x.p).spilled = n := by
  have ha : x.ap = false := not_ap h rfl
  obtain ⟨hs, hw, hg, -, hpath⟩ := h.facts
  obtain ⟨hlt, hpc, hm⟩ := hpath ha
  obtain ⟨w1, l, t, hw1, -, -, hent⟩ := State.popEnt_popped hw hg hlt hst hpop
  obtain ⟨honly, hstands, hmask, hspilled, hstack, -⟩ := Iss.stays_restacked ha (.reconv c tok) x.m hlt hpc.symm st n l t
  refine ⟨_, ?_, honly, hstands, hmask, hstack, hspilled⟩
  have hbody : reconvBody c tok x = x.after (x.s.popEnt x.h x.g x.p) fun s => .state (s.modGroup x.h x.g fun gr =>
      (x.onward (.reconv c tok) gr).modPath x.p fun q => { q with notBefore := max q.notBefore (gr.path x.p).notBefore }) := by
    simp [reconvBody, hst, he, hfree]
  rw [h.reconv_exec, hbody, hs, hent, Iss.after, State.modGroup_setGroup hw1, Iss.finish, Iss.stays]
  refine congrArg (fun gr => (.next (State.setGroup _ _ _ gr) : Out)) (Group.modPath_congr ?_)
  simp [Iss.onward_path ha, Group.path_modPath_same hlt, Path.restack, hm]

variable (ht : s.tracing x.w.ctx = false)
include ht

/-- The group behind a RECONV that takes an entry off, with the lanes `m`, before `f` takes its partner. -/
theorem Ready.reconv_pops (m : Mask) :
    ∃ gr, (∀ f, x.finish (.reconv c tok) (x.merged (.reconv c tok) m f) = .next (s1.setGroup x.h x.g (f gr)))
      ∧ x.OnlyPaths gr [x.p] ∧ x.standsAt gr ((x.pc + 12) % 2 ^ 64) ∧ (gr.path x.p).mask = m ∧ (gr.path x.p).stack = st
      ∧ (gr.path x.p).spilled = n := by
  have ha : x.ap = false := not_ap h rfl
  obtain ⟨hs, hw, hg, -, hpath⟩ := h.facts
  obtain ⟨w1, l, t, hw1, hctx, htr, hent⟩ := State.popEnt_popped hw hg (hpath ha).1 hst hpop
  refine ⟨_, fun f => ?_, Iss.rejoins_restacked ha (.reconv c tok) m (hpath ha).1 st n l t⟩
  have hoff : (s1.setGroup x.h x.g (x.gr.modPath x.p (Path.restack st n l t))).tracing w1.ctx = false := by
    simpa [State.tracing, State.rightOn, hctx] using htr.trans ht
  rw [Iss.merged_eq (hs.symm ▸ hent) hw1 hoff, Iss.finish]

/-- Both sides of a division are done: its lanes go on together. -/
theorem Ready.reconv_ends {m : Mask} {pc : Nat} (he : e = .div tok.toNat m 0 pc) :
    ∃ gr, exec (.reconv c tok) s = .next (s1.setGroup x.h x.g gr) ∧ x.OnlyPaths gr [x.p]
      ∧ x.standsAt gr ((x.pc + 12) % 2 ^ 64) ∧ (gr.path x.p).mask = m ∧ (gr.path x.p).stack = st
      ∧ (gr.path x.p).spilled = n := by
  obtain ⟨gr, hfin, hrest⟩ := h.reconv_pops hst hpop ht m
  have hbody : reconvBody c tok x = x.merged (.reconv c tok) m id := by simp [reconvBody, hst, he]
  exact ⟨gr, by rw [h.reconv_exec, hbody, hfin]; rfl, hrest⟩

/-- The partner waits at the same PC, and merges. -/
theorem Ready.reconv_merges {j : Nat} (he : e = .split tok.toNat j) (hne : j ≠ x.p)
    (hwaits : (x.gr.path j).joinsFor tok.toNat = true) (hpc : (x.gr.path j).pc = x.pc) :
    ∃ gr, exec (.reconv c tok) s = .next (s1.setGroup x.h x.g gr)
      ∧ ({ x with gr := x.gr.join x.p j } : Iss).OnlyPaths gr [x.p, j] ∧ (∀ o ∈ gr.ops, j ∈ o.paths → x.p ∈ o.paths)
      ∧ x.standsAt gr ((x.pc + 12) % 2 ^ 64) ∧ (gr.path x.p).mask = x.m ||| (x.gr.path j).mask ∧ (gr.path x.p).stack = st
      ∧ (gr.path x.p).spilled = n ∧ (gr.path j).st = .free := by
  have ha : x.ap = false := not_ap h rfl
  have hjoin := ((joinsFor_iff _ _).1 hwaits).1
  have hbody : reconvBody c tok x = x.merged (.reconv c tok) (x.m ||| (x.gr.path j).mask)
      fun gr => (gr.join x.p j).setPath j Path.free := by
    simp [reconvBody, hst, he, hjoin, hwaits, hpc]
  obtain ⟨gr, hfin, honly, hstands, hmask, hstack, hspilled⟩ := h.reconv_pops hst hpop ht (x.m ||| (x.gr.path j).mask)
  obtain ⟨hboth, hown⟩ := honly.partner hne.symm (fun os => (({ gr with ops := os } : Group).join x.p j).ops) Path.free
  rw [Iss.standsAt_path ha] at hstands
  rw [← hown] at hstands hmask hstack hspilled
  refine ⟨_, by rw [h.reconv_exec, hbody, hfin]; rfl, hboth, fun o ho => Group.mem_join_ops ho, ?_, hmask, hstack, hspilled, ?_⟩
  · rw [Iss.standsAt_path ha]
    exact hstands
  · rw [Group.path_setPath]
    split
    · rfl
    case isFalse hout =>
      have hjlt : j < gr.paths.length := Group.path_lt (by rw [honly.others j (by simpa using hne), hjoin]; simp)
      exact absurd ⟨rfl, hjlt⟩ hout

end

/-- The partner waits elsewhere. -/
theorem Ready.reconv_mismatch {j : Nat} {r : List StackEnt} (hst : (x.gr.path x.p).stack = .split tok.toNat j :: r)
    (hwaits : (x.gr.path j).joinsFor tok.toNat = true) (hpc : (x.gr.path j).pc ≠ x.pc) :
    exec (.reconv c tok) s = .next (x.raiseIn s { cls := .group, cause := .joinMismatch, p31 := x.m }) := by
  have hbody : reconvBody c tok x = .trap (x.whole .joinMismatch) := by
    simp [reconvBody, hst, ((joinsFor_iff _ _).1 hwaits).1, hwaits, hpc]
  rw [h.reconv_exec, hbody, Iss.finish, h.facts.1]
  rfl

/-- The path waits, for its partner or for its origin. -/
theorem Ready.reconv_joins (hwait : (∃ j r, (x.gr.path x.p).stack = .split tok.toNat j :: r ∧ (x.gr.path j).st ≠ .free
      ∧ (x.gr.path j).joinsFor tok.toNat = false)
    ∨ ((x.gr.path x.p).stack = [] ∧ (x.gr.path x.p).spilled = 0 ∧ (x.gr.path x.p).token = some tok.toNat)) :
    ∃ gr bars, exec (.reconv c tok) s = .next { s.setGroup x.h x.g gr.wake with bars := bars } ∧ x.OnlyPaths gr [x.p]
      ∧ (gr.path x.p).st = .join ∧ (gr.path x.p).pc = x.pc ∧ (gr.path x.p).mask = x.m
      ∧ (gr.path x.p).stack = (x.gr.path x.p).stack := by
  obtain ⟨hs, -, -, -, hpath⟩ := h.facts
  obtain ⟨hlt, hpc, hm⟩ := hpath (not_ap h rfl)
  have hbody : reconvBody c tok x = x.joining (.reconv c tok) := by
    rcases hwait with ⟨j, r, hst, hbusy, hno⟩ | ⟨hst, hsp, ht⟩ <;> simp [reconvBody, *]
  obtain ⟨bars, hbars⟩ := x.joining_eq (.reconv c tok)
  refine ⟨_, bars, ?_, Iss.onlyPaths_modPath (f := x.inJoin (.reconv c tok)) hlt (by simp [Iss.inJoin]), ?_⟩
  · rw [h.reconv_exec, hbody, hbars, hs, Iss.finish]
  · simp [Group.path_modPath_same hlt, Iss.inJoin, hpc, hm]

/-- Spilled entries under an empty stack come back before the RECONV is done (R180). -/
theorem Ready.reconv_fills (hst : (x.gr.path x.p).stack = []) (hsp : (x.gr.path x.p).spilled ≠ 0) {s1 : State} {st : List StackEnt}
    {n : Nat} (hf : Filled s x s1 st n) : ∃ gr, exec (.reconv c tok) s = .next (s1.setGroup x.h x.g gr) ∧ x.OnlyPaths gr [x.p]
      ∧ (gr.path x.p).pc = x.pc ∧ (gr.path x.p).mask = x.m ∧ (gr.path x.p).stack = st ∧ (gr.path x.p).spilled = n := by
  obtain ⟨hs, hw, hg, -, hpath⟩ := h.facts
  obtain ⟨hlt, hpc, hm⟩ := hpath (not_ap h rfl)
  obtain ⟨l, t, hfill⟩ := State.fillEnts_filled hw hg rfl rfl hst rfl rfl hsp hf
  have hbody : reconvBody c tok x = x.after (x.s.fillEnts x.h x.g x.p) .state := by simp [reconvBody, hst, hsp]
  refine ⟨_, ?_, Iss.onlyPaths_modPath (f := Path.restack st n l t) hlt ⟨rfl, rfl⟩, ?_⟩
  · rw [h.reconv_exec, hbody, hs, hfill, Iss.after, Iss.finish]
  · simp [Group.path_modPath_same hlt, Path.restack, hpc, hm]

theorem Ready.reconv_bad {r : List StackEnt} (hst : (x.gr.path x.p).stack = .bad :: r) :
    exec (.reconv c tok) s = .next (x.raiseIn s { cls := .group, cause := .stackDepth, p31 := x.m }) := by
  have hbody : reconvBody c tok x = .trap (x.whole .stackDepth) := by simp [reconvBody, hst]
  rw [h.reconv_exec, hbody, Iss.finish, h.facts.1]
  rfl

end

end Sys2Proof.Machine
end

/-!
PROOF. O17, Reconvergence, third part: origins that wait are taken up again.
-/

section
open Sys2Proof Sys2Proof.Machine
namespace Sys2Proof.Machine

/-- The loop on a stack ends where R179 says. -/
theorem Unwinds.unwind_eq {free : Nat → Bool} {below : Bool} {l : List StackEnt} {u : Unwound} (h : Unwinds free below l u) :
    unwind free below l = u := by
  induction h with
  | empty hb => simp [unwind, hb]
  | read hb => simp [unwind, hb]
  | pending hpm => unfold unwind; rw [if_pos (by simpa using hpm)]
  | gone _ ih => simpa [unwind] using ih
  | both hm hr =>
    unfold unwind
    rw [if_neg (by simp), if_neg (by simpa using hm), if_neg]
    simpa [imp_iff_not_or] using hr
  | last _ hb => simp [unwind, hb]
  | released hf _ ih => simpa [unwind, hf] using ih
  | partner hf => simp [unwind, hf]
  | bad => rfl

/-! ### Paths that are calm -/

section
variable {gr : Group}

theorem Group.calm_of_st {o : Nat} (h : (gr.path o).st ≠ .join) : gr.calm o := fun _ _ _ hst => absurd hst h

theorem Group.wakeOne_calm {o : Nat} (h : gr.calm o) : gr.wakeOne o = gr := by
  unfold Group.wakeOne
  dsimp only
  split
  case h_1 k j r hst hstack =>
    obtain ⟨hbusy, hno⟩ := h k j r hst hstack
    rw [if_pos (by simp [hbusy, hno])]
  case h_2 => rfl

theorem Group.foldl_wakeOne_calm (h : ∀ o, gr.calm o) (l : List Nat) : l.foldl (fun gr o => gr.wakeOne o) gr = gr := by
  induction l with
  | nil => rfl
  | cons a l ih => rw [List.foldl_cons, Group.wakeOne_calm (h a), ih]

variable {o : Nat} (hothers : ∀ u, u ≠ o → gr.calm u)
include hothers

theorem Group.foldl_wakeOne_once (hafter : ∀ u, (gr.wakeOne o).calm u) {l : List Nat} (ho : o ∈ l) :
    l.foldl (fun gr o => gr.wakeOne o) gr = gr.wakeOne o := by
  induction l with
  | nil => simp at ho
  | cons a l ih =>
    rw [List.foldl_cons]
    by_cases ha : a = o
    · rw [ha, Group.foldl_wakeOne_calm hafter]
    · rw [Group.wakeOne_calm (hothers a ha), ih (by simpa [Ne.symm ha] using ho)]

/-- Where only path `o` may be taken up, and none is after it, the group is as `o` leaves it. -/
theorem Group.wake_once (ho : o < 4) (hafter : ∀ u, (gr.wakeOne o).calm u) : gr.wake = gr.wakeOne o :=
  Group.foldl_wakeOne_once hothers hafter
    (List.mem_flatMap.2 ⟨0, List.mem_range.2 (by decide), List.mem_range.2 ho⟩)

/-- A path that is ready again leaves all paths calm, where each other path is what it was, or is free and nobody waits
for it. -/
theorem Group.calm_of_ready {gr' : Group} (hready : (gr'.path o).st = .ready) (hpaths : ∀ u, u ≠ o → gr'.path u = gr.path u
    ∨ (gr'.path u).st = .free ∧ ∀ v t w, v ≠ o → (gr.path v).st = .join → (gr.path v).stack ≠ .split t u :: w) (u : Nat) :
    gr'.calm u := by
  by_cases hu : u = o
  · exact Group.calm_of_st (by simp [hu, hready])
  rcases hpaths u hu with hsame | ⟨hfree, -⟩
  · intro k j r hst hstack
    rw [hsame] at hst hstack
    by_cases hj : j = o
    · simp [hj, hready, Path.joinsFor]
    rcases hpaths j hj with hj | ⟨-, hnone⟩
    · rw [hj]
      exact hothers u hu k j r hst hstack
    · exact absurd hstack (hnone u k r hu hst)
  · exact Group.calm_of_st (by simp [hfree])

end

/-! ### The three ways to take up an origin -/

/-- An origin without lanes that goes on behind the RECONV of its partner `q`, with the lanes of that one. -/
def Path.tookUp (p q : Path) (r : List StackEnt) : Path :=
  { (p.goTo ((q.pc + 12) % 2 ^ 64)).flush with mask := q.mask, stack := r }

section
variable {gr : Group} {o k j : Nat} {r : List StackEnt} (hst : (gr.path o).st = .join) (hstack : (gr.path o).stack = .split k j :: r)
include hst hstack

theorem Group.wakeOne_lanes (hmask : (gr.path o).mask ≠ 0) (hq : (gr.path j).st = .free ∨ (gr.path j).joinsFor k = true) :
    gr.wakeOne o = gr.setPath o { gr.path o with st := .ready } := by
  unfold Group.wakeOne
  simp only [hst, hstack]
  rw [if_neg (by rcases hq with hq | hq <;> simp [hq]), if_pos (by simpa using hmask)]

theorem Group.wakeOne_merge (hmask : (gr.path o).mask = 0) (hq : (gr.path j).joinsFor k = true) :
    gr.wakeOne o = ((gr.join o j).setPath o ((gr.path o).tookUp (gr.path j) r)).setPath j Path.free := by
  have hjoin := ((joinsFor_iff _ _).1 hq).1
  unfold Group.wakeOne
  simp only [hst, hstack]
  rw [if_neg (by simp [hq]), if_neg (by simp [hmask]), if_neg (by simp [hjoin])]
  rfl

theorem Group.wakeOne_run (hmask : (gr.path o).mask = 0) (hq : (gr.path j).st = .free) {m : Mask} {pc : Nat} {st : List StackEnt}
    (hu : Unwinds gr.isFree ((gr.path o).spilled != 0) r (.run m pc st)) :
    gr.wakeOne o = gr.setPath o ((gr.path o).unwound (.run m pc st)) := by
  unfold Group.wakeOne
  simp only [hst, hstack]
  rw [if_neg (by simp [hq]), if_neg (by simp [hmask]), if_pos (by simp [hq]), hu.unwind_eq]

end

/-! ### The group after an origin has been taken up -/

section
variable {gr : Group} {o : Nat} (ho : o < 4) (hst : (gr.path o).st = .join) (hothers : ∀ u, u ≠ o → gr.calm u)
include ho hst hothers

/-- Only path `o` is set, and is ready. -/
theorem Group.wake_set {q : Path} (hq : q.st = .ready) (hone : gr.wakeOne o = gr.setPath o q) : gr.wake = gr.setPath o q := by
  have hlt : o < gr.paths.length := Group.path_lt (by simp [hst])
  refine (Group.wake_once hothers ho (Group.calm_of_ready hothers ?_ fun u hu => .inl ?_)).trans hone
  · rw [hone, Group.path_setPath, if_pos ⟨rfl, hlt⟩, hq]
  · rw [hone, Group.path_setPath, if_neg fun h => hu h.1]

/-- Path `o` is set and is ready, and its partner `j`, for which no other path waits, is free. -/
theorem Group.wake_set_free {gr0 : Group} {q : Path} {j : Nat} (hq : q.st = .ready) (hjo : j ≠ o) (hpaths : gr0.paths = gr.paths)
    (hone : gr.wakeOne o = (gr0.setPath o q).setPath j Path.free)
    (hnone : ∀ u t w, u ≠ o → (gr.path u).st = .join → (gr.path u).stack ≠ .split t j :: w) :
    gr.wake = (gr0.setPath o q).setPath j Path.free ∧ gr.wake.path o = q ∧ (gr.wake.path j).st = .free
      ∧ ∀ u, u ≠ o → u ≠ j → gr.wake.path u = gr.path u := by
  have hlt : o < gr0.paths.length := hpaths ▸ Group.path_lt (by simp [hst])
  have hown : (gr.wakeOne o).path o = q := by
    rw [hone, Group.path_setPath, if_neg fun h => hjo h.1.symm, Group.path_setPath, if_pos ⟨rfl, hlt⟩]
  have hfree : ((gr.wakeOne o).path j).st = .free := by
    rw [hone, Group.path_setPath]
    split
    · rfl
    case isFalse hout =>
      by_contra hbusy
      exact hout ⟨rfl, Group.path_lt hbusy⟩
  have hrest : ∀ u, u ≠ o → u ≠ j → (gr.wakeOne o).path u = gr.path u := fun u hu huj => by
    rw [hone, Group.path_setPath, if_neg fun h => huj h.1, Group.path_setPath, if_neg fun h => hu h.1]
    simp [Group.path, hpaths]
  have hwake : gr.wake = gr.wakeOne o := by
    refine Group.wake_once hothers ho (Group.calm_of_ready hothers (by rw [hown, hq]) fun u hu => ?_)
    by_cases huj : u = j
    · exact .inr (huj ▸ ⟨hfree, hnone⟩)
    · exact .inl (hrest u hu huj)
  rw [hwake]
  exact ⟨hone, hown, hfree, hrest⟩

end

end Sys2Proof.Machine

/-- Settles O17: RECONV by the top of its path's stack, and the origins that are taken up again. -/
theorem reconvergence : Obligations.Reconvergence := by
  refine ⟨?_, fun gr => ⟨fun hcalm => wake_calm fun o hst k j r => hcalm o k j r hst, fun o k j r ho hst hstack hothers => ?_⟩⟩
  · intro s x c tok i q k next h ht
    exact ⟨h.reconv_goes_on, fun m pm pc r hst hpm => h.reconv_starts hst hpm,
      fun m pc r hst s1 st n hpop => h.reconv_ends hst hpop ht rfl, fun j r hst hne =>
      ⟨fun hfree s1 st n hpop => h.reconv_alone hst hpop rfl hfree,
        fun hwaits hpc s1 st n hpop => h.reconv_merges hst hpop ht rfl hne ((joinsFor_iff _ _).2 hwaits) hpc,
        fun hwaits hpc => h.reconv_mismatch hst ((joinsFor_iff _ _).2 hwaits) hpc⟩,
      h.reconv_joins, fun hst hsp s1 st n hf => h.reconv_fills hst hsp hf, fun r hst => h.reconv_bad hst⟩
  · have hlt : o < gr.paths.length := Group.path_lt (by simp [hst])
    refine ⟨fun hmask hq => Group.wake_set ho hst hothers rfl (Group.wakeOne_lanes hst hstack hmask hq),
      fun hmask hq hnone => ?_, fun hmask hq m pc st hu => ?_⟩
    · have hjo : j ≠ o := by
        rintro rfl
        simpa [hstack] using ((joinsFor_iff _ _).1 hq).2.2.1
      obtain ⟨hwake, hown, hfree, helse⟩ := Group.wake_set_free (gr0 := gr.join o j) ho hst hothers rfl hjo rfl
        (Group.wakeOne_merge hst hstack hmask hq) hnone
      exact ⟨by rw [hwake]; rfl, helse, congrArg Path.st hown, congrArg Path.pc hown, (congrArg Path.mask hown).trans rfl,
        congrArg Path.stack hown, hfree⟩
    · have hwake := Group.wake_set ho hst hothers rfl (Group.wakeOne_run hst hstack hmask hq hu)
      have hown : gr.wake.path o = (gr.path o).unwound (.run m pc st) := by
        rw [hwake, Group.path_setPath, if_pos ⟨rfl, hlt⟩]
      have helse : ∀ u, u ≠ o → u ≠ j → gr.wake.path u = gr.path u := fun u hu _ => by
        rw [hwake, Group.path_setPath, if_neg fun h => hu h.1]
      exact ⟨by rw [hwake]; rfl, helse, congrArg Path.st hown, congrArg Path.pc hown, congrArg Path.mask hown,
        congrArg Path.stack hown⟩

end

/-!
PROOF. O18, Exits: it fails. Nothing in the statement asks that the group's other paths be calm before the EXIT. Where a path
without lanes still waits for a partner that has gone, the EXIT of its own origin leaves that origin waiting for it; then both
are taken up again, one after the other, and both are free. The group ends, where the statement says that its path waits.
-/

section
open Sys2Proof Sys2Proof.Machine
namespace Sys2Proof.Machine

/-- An EXIT of all lanes. -/
def exitAll : Instr := .exit ⟨.always, ⟨false, false, false, false, false, false, 0⟩⟩

/-- The origin of path 1, with one lane. -/
def soleRunner : Path := { Path.free with st := .ready, mask := 1, stack := [.split 0 1] }

/-- Path 1, without lanes, waits for path 2, which is free. -/
def strandedPath : Path := { Path.free with st := .join, stack := [.split 0 2] }

/-- A group of these two paths. -/
def strandedGroup : Group :=
  { Group.fresh State.reset oneGranule 0 0 with started := true, paths := [soleRunner, strandedPath, .free, .free] }

/-- Path 0 of the group is to issue. -/
def strandedExit : State :=
  { State.reset with cur := .path 0 0 0, wgs := [(0, { oneGranule with groups := [(0, strandedGroup)] })] }

/-- Its issuer. -/
def strandedIssuer : Iss :=
  { s := strandedExit, h := 0, g := 0, p := 0, ap := false, w := { oneGranule with groups := [(0, strandedGroup)] }
    gr := strandedGroup, m := 1, x := 1, pc := 0, q := [] }

/-- Whether group 0 has ended after an instruction. -/
def endedAfter (r : Out) : Option Bool :=
  match r with
  | .next t => (t.group? 0 0).map (·.ended)
  | _ => none

theorem strandedExit_ready : Ready strandedExit exitAll strandedIssuer where
  issuer := ⟨strandedIssuer, by decide +kernel, by decide +kernel⟩
  guard := by decide +kernel
  active := by decide +kernel
  uniform := by decide +kernel
  role := by decide +kernel
  paths _ := ⟨fun _ _ => nofun, fun _ _ _ => nofun⟩
  onAp := nofun
  held _ u hu := nomatch hu
  full u hu := nomatch hu
  ports := ⟨strandedGroup.ports, by decide +kernel⟩
  room := by decide +kernel

/-- Both paths are free after the EXIT, and the group ends. -/
theorem strandedExit_ends : endedAfter (exec exitAll strandedExit) = some true := by decide +kernel

theorem strandedExit_loopEnds : LoopEnds strandedExit strandedIssuer (.join [.split 0 1]) 0 strandedExit :=
  .inl ⟨.partner (by decide +kernel), by decide, by decide +kernel, rfl⟩

/-! ### What taking up origins leaves of a group -/

theorem Group.wakeOne_ended (gr : Group) (o : Nat) : (gr.wakeOne o).ended = gr.ended := by
  unfold Group.wakeOne
  dsimp only
  repeat' split
  all_goals rfl

theorem Group.wake_ended (gr : Group) : gr.wake.ended = gr.ended := by
  unfold Group.wake
  refine List.foldlRecOn (motive := fun g : Group => g.ended = gr.ended) _ _ rfl fun g hg o _ => ?_
  rw [Group.wakeOne_ended, hg]

theorem endedAfter_setGroup {s : State} {w : Workgroup} (hw : s.wg? 0 = some w) (gr : Group) (bars : List BarPhase) :
    endedAfter (.next { s.setGroup 0 0 gr with bars := bars }) = some gr.ended := by
  have hgr : ({ s.setGroup 0 0 gr with bars := bars } : State).group? 0 0 = some gr :=
    State.group?_of (State.wg?_setGroup_same hw 0 gr) (Workgroup.group?_setGroup_same ..)
  rw [endedAfter, hgr]
  rfl

end Sys2Proof.Machine

/-- Refutes O18: in `strandedExit` the path's loop ends at its partner, and yet the group ends, since the partner is free as
soon as the origins are taken up, and so is the path. -/
theorem not_exits : ¬ Obligations.Exits := by
  intro hall
  obtain ⟨-, -, hlanes⟩ := hall strandedExit strandedIssuer _ strandedExit_ready
  obtain ⟨-, hnone⟩ := hlanes rfl (.inr (by decide))
  obtain ⟨-, -, hjoin, -⟩ := hnone (by decide) _ _ _ strandedExit_loopEnds
  obtain ⟨gr, bars, hexec, ⟨hrest, -⟩, -⟩ := hjoin _ rfl
  have hended : gr.wake.ended = false := by rw [gr.wake_ended, hrest]; rfl
  have hends : some gr.wake.ended = some true :=
    calc some gr.wake.ended
      _ = endedAfter (exec exitAll strandedExit) := (hexec ▸ endedAfter_setGroup (s := strandedExit) rfl gr.wake bars).symm
      _ = some true := strandedExit_ends
  exact absurd (hended.symm.trans (Option.some.inj hends)) Bool.false_ne_true

end

/-!
PROOF. O26, RegisterPools: what goes on without popping a port, a holding that gives, and the ends of RGIVE and RCLAIM.
-/

section
open Sys2Proof Sys2Proof.Machine
namespace Sys2Proof.Machine

/-! ### A path that goes on later -/

/-- An instruction that only goes on changes nothing but the place of its issuer. -/
theorem Ready.onward_frame {s : State} {i : Instr} {x : Iss} (h : Ready s i x) (hq : ∀ u ∈ i.srcs, u.o.portOf = none)
    (hr : x.rngAfter i = x.gr.sr.rngctr := by rfl) : x.Frame i (x.onward i x.gr) .none 0 :=
  frame_step h (gr := x.gr) (j := x.onward i) hq rfl (fun _ _ _ => rfl) hr (fun _ => rfl) (fun _ _ => rfl)
    (step_onward x i (fun hap => (h.facts.2.2.2.2 hap).1) x.gr rfl)

/-- The issuer stands behind its instruction also where its next issue is put off. -/
theorem Ready.behind_delayed {s : State} {i : Instr} {x : Iss} (h : Ready s i x) {gr : Group} (hp : gr.paths = x.gr.paths)
    (ha : gr.ap.st = x.gr.ap.st) (n : Nat) :
    x.behind ((x.onward i gr).modPath x.p fun q => { q with notBefore := max q.notBefore n }) := by
  have hb := onward_behind h hp ha
  cases hap : x.ap with
  | true => simpa [Iss.behind, hap] using hb
  | false =>
    simp only [Iss.behind, hap, Bool.false_eq_true, if_false, Group.path_modPath] at hb ⊢
    split <;> exact hb

/-- A short operand of field B is no port. -/
theorem portOf_of_short {b : Opnd} (h : b.isS 1 = true ∨ b.isImm = true ∨ b.isImm32 = true) : b.portOf = none := by
  cases b with
  | q => simp [Opnd.isS, Opnd.isImm, Opnd.isImm32] at h
  | _ => rfl

/-! ### Holdings -/

@[simp] theorem Group.setHolding_holding (gr : Group) (pool : Pool) (n : Nat) (other : Pool) :
    (gr.setHolding pool n).holding other = if other = pool then n else gr.holding other := by
  cases pool <;> cases other <;> rfl

/-- What a group has given leaves its holding of that pool alone. -/
theorem Group.give_holding (gr : Group) (pool : Pool) (k : Nat) (other : Pool) :
    (gr.give pool k).holding other = if other = pool then gr.holding pool - k else gr.holding other :=
  Eq.trans (by cases other <;> rfl) (gr.setHolding_holding pool (gr.holding pool - k) other)

theorem Group.give_rest (gr : Group) (pool : Pool) (k : Nat) :
    gr.give pool k = { gr with vhold := (gr.give pool k).vhold, mhold := (gr.give pool k).mhold, given := (gr.give pool k).given } := by
  cases pool <;> rfl

@[simp] theorem Group.modPath_holding (gr : Group) (p : Nat) (f : Path → Path) (pool : Pool) :
    (gr.modPath p f).holding pool = gr.holding pool := by
  cases pool <;> rfl

/-- What may not be given: the floor, and the rank units in use. -/
def Iss.poolLow (x : Iss) (pool : Pool) : Nat :=
  max ((x.w.limits x.gr.gid).floor pool) (if pool = .m then x.gr.occupancy else 0)

/-! ### RGIVE -/

section
variable {x : Iss} {i : Instr} {pool : Pool} {b : Opnd}

theorem rgiveBody_none (hk : x.word 2 b = 0) :
    rgiveBody i pool b x = .state (x.s.setGroup x.h x.g (x.onward i x.gr)) := by
  simp [rgiveBody, hk]

/-- RGIVE within its limits, and outside them. -/
theorem rgiveBody_some (hk : x.word 2 b ≠ 0) : rgiveBody i pool b x =
    if x.gr.holding pool < x.poolLow pool + x.word 2 b then .trap (x.whole .poolRange)
    else .state (x.s.setGroup x.h x.g ((x.onward i (x.gr.give pool (x.word 2 b))).modPath x.p fun q =>
      { q with notBefore := max q.notBefore (x.now + 4) })) := by
  cases pool <;> exact if_neg (by simpa using hk)

end

/-! ### RCLAIM -/

section
variable {x : Iss} {i : Instr} {pool : Pool} {b : Opnd}

/-- The claim that an RCLAIM enters. -/
def Iss.claim (x : Iss) (pool : Pool) (k : Nat) : Claim :=
  { shadow := x.w.shadow, quarter := x.gr.quarter, pool := pool, wg := x.h, g := x.g, path := x.p, k := k, floor := false }

/-- The group of an issuer whose path waits for its claim. -/
def Iss.claiming (x : Iss) (i : Instr) : Group :=
  x.gr.modPath x.p fun q => { x.issued i q with st := .blocked, wait := some .claim }

theorem rclaimBody_own (h : ((x.s.core x.gr.core).claims.any fun c => c.wg == x.h && c.g == x.g && !c.floor && c.path == x.p) = true) :
    rclaimBody i pool b x = .stall .claim x.s := if_pos h

section
variable (hown : ((x.s.core x.gr.core).claims.any fun c => c.wg == x.h && c.g == x.g && !c.floor && c.path == x.p) = false)
include hown

theorem rclaimBody_pending (h : x.s.claims x.gr.core x.h x.g = true) :
    rclaimBody i pool b x = .trap (x.whole .claimPending) := by
  simp only [rclaimBody, hown, h, if_true, Bool.false_eq_true, if_false]

variable (hpend : x.s.claims x.gr.core x.h x.g = false)
include hpend

theorem rclaimBody_beyond (h : (x.w.limits x.gr.gid).ceil pool < x.gr.holding pool + x.word 2 b) :
    rclaimBody i pool b x = .trap (x.whole .poolRange) := by
  simp only [rclaimBody, hown, hpend, h, if_true, Bool.false_eq_true, if_false]

theorem rclaimBody_within (h : x.gr.holding pool + x.word 2 b ≤ (x.w.limits x.gr.gid).ceil pool) :
    rclaimBody i pool b x = if x.word 2 b = 0 then .state (x.s.setGroup x.h x.g (x.onward i x.gr))
      else .state ((x.s.setGroup x.h x.g (x.claiming i)).modCore x.gr.core fun r =>
        { r with claims := r.claims ++ [x.claim pool (x.word 2 b)] }) := by
  simp only [rclaimBody, hown, hpend, Nat.not_lt.2 h, Bool.false_eq_true, if_false, beq_iff_eq]
  rfl

end

/-- Where no claim of the group is pending, none of its path is. -/
theorem State.no_own_claim {s : State} {core h g p : Nat} (hpend : s.claims core h g = false) :
    ((s.core core).claims.any fun c => c.wg == h && c.g == g && !c.floor && c.path == p) = false := by
  simp only [State.claims, List.any_eq_false, Bool.not_eq_true] at hpend ⊢
  intro c hc
  rw [hpend c hc, Bool.false_and]

end

theorem Iss.claiming_onlyPaths {x : Iss} (hlt : x.p < x.gr.paths.length) (i : Instr) : x.OnlyPaths (x.claiming i) [x.p] :=
  Iss.onlyPaths_modPath hlt (by simp)

theorem Iss.claiming_path {x : Iss} (hlt : x.p < x.gr.paths.length) (i : Instr) :
    (x.claiming i).path x.p = { x.issued i (x.gr.path x.p) with st := .blocked, wait := some .claim } :=
  Group.path_modPath_same hlt _

end Sys2Proof.Machine

/-- Settles O26: RGIVE and RCLAIM by what their operand asks, against the limits of the group and its claims. -/
theorem registerPools : Obligations.RegisterPools := by
  intro s x c pool b hb k lim low
  refine ⟨fun h => ?_, fun h => ?_⟩
  · obtain ⟨rfl, -⟩ := h.facts
    have hexec : exec (.rgive c pool b) x.s = x.finish (.rgive c pool b) (rgiveBody (.rgive c pool b) pool b x) := exec_of h rfl
    have hap : x.ap = false := not_ap h rfl
    refine ⟨fun hk hlt => ?_, fun hin => ?_⟩
    · have hlt : x.gr.holding pool < x.poolLow pool + x.word 2 b := hlt
      rw [hexec, rgiveBody_some hk, if_pos hlt]
      rfl
    by_cases hk : k = 0
    · rw [hexec, rgiveBody_none hk, hk]
      refine ⟨_, rfl, onward_behind h rfl rfl, ?_⟩
      rw [Iss.onward_path hap]
      exact ⟨by cases pool <;> rfl, fun other _ => by cases other <;> rfl, rfl⟩
    · have hle : ¬x.gr.holding pool < x.poolLow pool + x.word 2 b := Nat.not_lt.2 (hin.resolve_left hk)
      rw [hexec, rgiveBody_some hk, if_neg hle]
      refine ⟨_, rfl, h.behind_delayed (by rw [Group.give_rest]) (by rw [Group.give_rest]) _, ?_⟩
      rw [Iss.onward_path hap, Group.modPath_modPath]
      simp only [Group.modPath_holding, Group.give_holding]
      exact ⟨if_pos trivial, fun other ho => if_neg ho, by cases pool <;> rfl⟩
  · obtain ⟨rfl, -, -, -, hpath⟩ := h.facts
    obtain ⟨hlt, hpc, -⟩ := hpath (not_ap h rfl)
    have hexec : exec (.rclaim c pool b) x.s = x.finish (.rclaim c pool b) (rclaimBody (.rclaim c pool b) pool b x) := exec_of h rfl
    refine ⟨fun ho => ?_, fun hp ho => ?_, fun hp hc => ?_, fun hp hc hk => ?_, fun hp hc hk => ?_⟩
    · rw [hexec, rclaimBody_own ho]
      rfl
    · rw [hexec, rclaimBody_pending ho hp]
      rfl
    · rw [hexec, rclaimBody_beyond (State.no_own_claim hp) hp hc]
      rfl
    · rw [hexec, rclaimBody_within (State.no_own_claim hp) hp hc, if_pos hk]
      refine ⟨_, rfl, onward_behind h rfl rfl, h.onward_frame fun u hu => ?_⟩
      rw [List.mem_singleton.1 hu]
      exact portOf_of_short hb
    · rw [hexec, rclaimBody_within (State.no_own_claim hp) hp hc, if_neg hk]
      refine ⟨x.claiming _, _, rfl, Iss.claiming_onlyPaths hlt _, ?_, ?_, ?_, rfl, fun n hn => ?_, ?_⟩
      · rw [Iss.claiming_path hlt]
      · rw [Iss.claiming_path hlt]
      · rw [Iss.claiming_path hlt, Iss.issued_pc, hpc]
      · rw [State.core_modCore_ne _ _ hn, State.core_setGroup]
      · rw [State.core_modCore_same, State.core_setGroup]
        rfl

end

/-!
PROOF. O43, AccessQueues: what NEST, APSEND and APERMIT do to the ports of their group.
-/

section
open Sys2Proof Sys2Proof.Machine
namespace Sys2Proof.Machine

theorem Group.port_modPort_ne (gr : Group) {j k : Nat} (f : Port → Port) (hk : k ≠ j) : (gr.modPort j f).port k = gr.port k := by
  simp only [Group.port, Group.modPort, modAt_getElem?, if_neg hk]

/-- An access processor that waits at its instruction. -/
theorem Iss.waitIn_ap {x : Iss} (ha : x.ap = true) (i : Instr) (w : Wait) (s : State) :
    x.waitIn i w s = s.modGroup x.h x.g fun gr => { gr with ap := { gr.ap with wait := some w } } := by
  simp [Iss.waitIn, ha]

theorem Iss.block_ap {x : Iss} (ha : x.ap = true) (w : Wait) (s : State) :
    x.block w s = s.modGroup x.h x.g fun gr => { gr with ap := { gr.ap with wait := some w } } := by
  simp [Iss.block, ha]

theorem Iss.onward_ap {x : Iss} (ha : x.ap = true) (i : Instr) (gr : Group) :
    x.onward i gr = { gr with ap := { gr.ap with pc := (x.pc + 12) % 2 ^ 64, wait := none, fenceAt := none } } := by
  simp [Iss.onward, ha]

/-- What goes on behind an instruction changes of its group the issuer alone. -/
theorem Iss.onward_rest (x : Iss) (i : Instr) (gr : Group) :
    x.onward i gr = { gr with ap := (x.onward i gr).ap, paths := (x.onward i gr).paths } := by
  unfold Iss.onward
  split <;> rfl

theorem Iss.onward_port (x : Iss) (i : Instr) (gr : Group) (j : Nat) : (x.onward i gr).port j = gr.port j := by
  rw [Iss.onward_rest]
  rfl

theorem Port.takes_iff (p : Port) : p.takes = true ↔ p.words.length < 64 ∧ 0 < p.permits := by
  simp [Port.takes]

/-- Only an access processor nests and sends. -/
theorem Ready.ap_of_nest {s : State} {x : Iss} {c : Ctl} {a : Opnd} (h : Ready s (.nest c a) x) : x.ap = true := by
  by_contra ha
  exact (h.paths (by simpa using ha)).1 c a rfl

theorem Ready.ap_of_apsend {s : State} {x : Iss} {c : Ctl} {q : BitVec 2} {b : Opnd} (h : Ready s (.apsend c q b) x) :
    x.ap = true := by
  by_contra ha
  exact (h.paths (by simpa using ha)).2 c q b rfl

/-! ### NEST -/

/-- The place that NEST begins with: the one that was kept, or the first element. -/
def Ap.nestStart (a : Ap) (reg : Nat) : NestPlace :=
  match a.nest with
  | some n => { n with reg := reg }
  | none => { reg := reg, idx := [0, 0, 0, 0, 0], opnd := 0 }

theorem nestBody_bad {x : Iss} {a : Opnd} (h : (x.gr.ap.nestRec a.idx).bad = true) : nestBody a x = .trap (x.whole .nestFormat) :=
  if_pos h

theorem nestBody_good {x : Iss} {a : Opnd} (h : (x.gr.ap.nestRec a.idx).bad = false) : nestBody a x =
    .stall .port (x.s.setGroup x.h x.g { x.gr with ap := { x.gr.ap with nest := some (x.gr.ap.nestStart a.idx) } }) :=
  if_neg (by simp [h])

/-! ### APSEND -/

theorem apsendBody_takes {x : Iss} {i : Instr} {j : Nat} {b : Opnd} (h : (x.gr.port j).takes = true) : apsendBody i j b x =
    .state (x.s.setGroup x.h x.g (x.onward i (x.gr.modPort j (·.push (BitVec.ofNat 32 (x.word 2 b)))))) :=
  if_pos h

theorem apsendBody_waits {x : Iss} {i : Instr} {j : Nat} {b : Opnd} (h : (x.gr.port j).takes = false) :
    apsendBody i j b x = .stall .port x.s :=
  if_neg (by simp [h])

end Sys2Proof.Machine

/-- Settles O43: NEST by its record, APSEND by its port, and APERMIT. -/
theorem accessQueues : Obligations.AccessQueues := by
  intro s x c
  refine ⟨fun a _ h => ?_, fun q b _ h hq => ?_, fun q b _ h hq => ?_⟩
  · have hap := h.ap_of_nest
    have hexec : exec (.nest c a) s = x.finish (.nest c a) (nestBody a x) := exec_of h rfl
    obtain ⟨rfl, hw, -⟩ := h.facts
    refine ⟨fun hb => ?_, fun hb => ?_⟩
    · rw [hexec, nestBody_bad hb]
      rfl
    · rw [hexec, nestBody_good hb, Iss.finish, Iss.waitIn_ap hap, State.modGroup_setGroup hw]
      exact ⟨_, rfl, rfl, rfl⟩
  · have hap := h.ap_of_apsend
    have hexec : exec (.apsend c q b) s = x.finish (.apsend c q b) (apsendBody (.apsend c q b) q.toNat b x) := exec_of h rfl
    obtain ⟨rfl, -⟩ := h.facts
    refine ⟨fun hlen hperm => ?_, fun hfull => ?_⟩
    · rw [hexec, apsendBody_takes ((Port.takes_iff _).2 ⟨hlen, hperm⟩)]
      refine ⟨_, rfl, onward_behind h rfl rfl, by rw [Iss.onward_ap hap]; rfl, ?_, fun j hj => ?_⟩
      · rw [Iss.onward_port, Group.port_modPort _ _ hq]
        rfl
      · rw [Iss.onward_port, Group.port_modPort_ne _ _ hj]
    · have hno : (x.gr.port q.toNat).takes = false := by
        rw [Bool.eq_false_iff, Ne, Port.takes_iff]
        omega
      rw [hexec, apsendBody_waits hno, Iss.finish, Iss.waitIn_ap hap, Iss.block_ap hap]
  · have hexec : exec (.apermit c q b) s = x.finish (.apermit c q b) (apermitBody (.apermit c q b) q.toNat b x) := exec_of h rfl
    obtain ⟨rfl, -⟩ := h.facts
    rw [hexec]
    refine ⟨_, rfl, onward_behind h rfl rfl, by rw [Iss.onward_rest]; rfl, ?_, fun j hj => ?_⟩
    · rw [Iss.onward_port, Group.port_modPort _ _ hq]
    · rw [Iss.onward_port, Group.port_modPort_ne _ _ hj]

end

/-!
PROOF. O45, WritesLand: it fails. A KVLD whose rows have been read marks its V registers full also where a later write has landed in
them, and the statement asks there that they stay empty. The two part where a register's scoreboard entry names the KVLD as its
youngest producer, and a later operation as the least whose write may still land; the statement, which is about every state, does
not exclude such an entry.
-/

section
open Sys2Proof Sys2Proof.Machine
namespace Sys2Proof.Machine

/-- A KVLD without lanes, whose one register is V0. -/
def emptyKvld : Op :=
  { slotTaker with
    seq := 1, todo := 0, args := [], dst := [.v 0]
    instr := .kvld ⟨.always, ⟨false, false, false, false, false, false, 0⟩⟩ false false 0 (.v false false 0) (.s false false 4) (.imm 0) }

/-- Its group, in which V0 waits for the KVLD, whose write may not land. -/
def supersededGroup : Group :=
  { Group.fresh State.reset oneGranule 0 0 with ops := [emptyKvld], sb := [{ reg := .v 0, seq := 1, pc := 0, least := 2 }] }

def supersededWg : Workgroup := { oneGranule with groups := [(0, supersededGroup)] }

def superseded : State := { State.reset with wgs := [(0, supersededWg)] }

/-- Whether V0 is full after an event. -/
def v0After (r : Out) : Option Bool :=
  match r with
  | .next t => (t.group? 0 0).map (·.isFull (.v 0))
  | _ => none

/-- The KVLD has left V0 full. -/
theorem superseded_full : v0After (exec (.writeLands 0 0 1) superseded) = some true := by decide +kernel

/-- An operation without a fault has nothing to settle. -/
theorem State.kvSettle_none {o : Op} (h : o.cause = none) (s : State) (k g : Nat) : s.kvSettle k g o = s := by
  unfold State.kvSettle
  rw [h]

end Sys2Proof.Machine

/-- Refutes O45: in `superseded` the KVLD marks V0 full, and the statement leaves it empty, since its write may not land. -/
theorem not_writesLand : ¬ Obligations.WritesLand := by
  intro h
  obtain ⟨-, hkvld, -⟩ := h superseded 0 0 1 supersededWg supersededGroup emptyKvld rfl rfl rfl rfl (by decide)
  obtain ⟨gr, hexec, -, hfull, -⟩ := hkvld _ _ _ _ _ _ _ rfl (by decide +kernel) (by decide +kernel)
  have hempty : gr.isFull (.v 0) ≠ true := fun hf => by
    obtain ⟨-, -, hmay, -⟩ := (hfull (.v 0)).1 hf _ (List.mem_singleton.2 rfl) rfl
    exact absurd hmay (by decide +kernel)
  have hafter := superseded_full
  rw [hexec, State.kvSettle_none rfl, v0After, State.group?_setGroup_same (w := supersededWg) rfl] at hafter
  exact hempty (Option.some.inj hafter)

end

/-!
PROOF. O52, LaunchEvents: it fails. The add at a DONE word that lies at a peer is marked with the handle in the workgroup's own
record, and the statement marks it with the handle under which the state holds the workgroup. Nothing in the statement asks that
the two be one.
-/

section
open Sys2Proof Sys2Proof.Machine
namespace Sys2Proof.Machine

/-- A workgroup without cores whose one group has ended, with DONE at 0x10_0008; its record has handle 1. -/
def misnamedWg : Workgroup :=
  let w : Workgroup := { oneGranule with handle := 1, raw := BitVec.ofNat 1024 (0x10_0008 * 2 ^ 704), cores := [] }
  { w with groups := [(0, { Group.fresh State.reset w 0 0 with ended := true })] }

/-- The page of DONE lies at peer 0. -/
def peerPage : Trans :=
  { leasedPage with va := 0x10_0000, pa := 2 ^ 51 + 0x10_0000, attr := { leasedPage.attr with coh := .unc } }

/-- The workgroup is held under handle 0, and the distributor's quad knows the page of DONE. -/
def misnamed : State :=
  { State.reset with wgs := [(0, misnamedWg)], quads := [(256, { Quad.empty with tc := [peerPage] })] }

/-- The first part of a DONE word, and the state after the use of its translation. -/
def State.doneUse (s : State) (w : Workgroup) : Option (Piece × State) :=
  match s.chkRange 1024 w.ctx true .both true w.doneAddr 8 with
  | .pieces ps => match ps.head?, s.usePieces 1024 true ps with
    | some p, .ok s1 => some (p, s1)
    | _, _ => none
  | _ => none

theorem State.doneUse_some {s s1 : State} {w : Workgroup} {p : Piece} (h : s.doneUse w = some (p, s1)) :
    ∃ ps, s.chkRange 1024 w.ctx true .both true w.doneAddr 8 = .pieces ps ∧ ps.head? = some p
      ∧ s.usePieces 1024 true ps = .ok s1 := by
  unfold State.doneUse at h
  split at h
  next ps hps =>
    split at h
    next hhead huse =>
      cases h
      exact ⟨ps, hps, hhead, huse⟩
    next => cases h
  next => cases h

/-- The workgroups that wait for peers to add at their DONE. -/
def State.doneMarks (s : State) : List (Option Nat) := s.peers.flatMap fun p => p.2.waiting.map (·.done)

def marksAfter (r : Out) : Option (List (Option Nat)) :=
  match r with
  | .next t => some t.doneMarks
  | _ => none

/-- The add is marked with the handle of the record. -/
theorem misnamed_marks : marksAfter (exec (.workgroupEnd 0) misnamed) = some [some 1] := by decide +kernel

/-- The statement marks it with handle 0. -/
theorem misnamed_stated : (misnamed.doneUse misnamedWg).map (fun u => (isPeer u.1.pa, ((u.2.donePeer 0 u.1 1).removeWg 0).doneMarks)) =
    some (true, [some 0]) := by decide +kernel

/-- What the obligation says of a workgroup that ends with DONE at a peer. -/
theorem workgroupEnd_of_obligation (h : Obligations.LaunchEvents) {s s1 : State} {k : Nat} {w : Workgroup} {p : Piece}
    (hw : s.wg? k = some w) (hkill : w.kill = none) (hne : w.groups ≠ [])
    (hends : ∀ g ∈ w.groups, g.2.ended = true ∧ g.2.ops = []) (htime : w.lastTime ≤ s.tick) (hdone : w.doneAddr ≠ 0)
    (halign : w.doneAddr % 8 = 0) (huse : s.doneUse w = some (p, s1)) (hpeer : isPeer p.pa = true) :
    exec (.workgroupEnd k) s = .next ((s1.donePeer k p 1).removeWg k) := by
  obtain ⟨-, -, -, hgroups, -⟩ := h s
  obtain ⟨ps, hchk, hhead, huse⟩ := State.doneUse_some huse
  exact (((hgroups k w hw).1 hkill hne hends htime).2 hdone halign ps p s1 hchk hhead).1 hpeer huse

end Sys2Proof.Machine

/-- Refutes O52: in `misnamed` the peer's add is marked with workgroup 1, where the statement marks it with workgroup 0. -/
theorem not_launchEvents : ¬ Obligations.LaunchEvents := by
  intro h
  obtain ⟨⟨p, s1⟩, huse, hstated⟩ := Option.map_eq_some_iff.1 misnamed_stated
  obtain ⟨hpeer, hmarks⟩ := Prod.mk.inj hstated
  have hexec := workgroupEnd_of_obligation h (s := misnamed) (k := 0) (w := misnamedWg) rfl rfl (by decide +kernel)
    (by decide +kernel) (by decide +kernel) (by decide +kernel) (by decide +kernel) huse hpeer
  have hafter := misnamed_marks
  rw [hexec, marksAfter, hmarks] at hafter
  exact absurd hafter (by decide)

end

/-!
Integer instructions (Tables 12.6 and 12.7): each is a lane form, whose lane computes the result of its entry.
-/

section
open Sys2Proof Sys2Proof.Machine
namespace Sys2Proof.Machine

/-- A destination of R261 is a V or an S register. -/
theorem Opnd.class_of_dst {d : Opnd} {n : Nat} (h : d.dst n = true) : d.isV 1 = true ∨ d.isS 1 = true := by
  cases d <;> simp_all [Opnd.dst, Opnd.isV, Opnd.isS, Nat.mod_one]

/-- A lane's result fills `n` registers and lists no record. -/
def LaneRes.fills (r : LaneRes) (n : Nat) : Prop := r.words.length = n ∧ r.ash = []

theorem plainInt_fills (t : Ty) (v : Nat) : (plainInt t v).fills t.regs := ⟨regWords_length t v, rfl⟩

theorem divLane_fills (t : Ty) (rem : Bool) (a b : Int) : (divLane t rem a b).fills t.regs := ⟨regWords_length t _, rfl⟩

theorem shlLane_fills (t : Ty) (sat : Bool) (a : Int) (n : Nat) : (shlLane t sat a n).fills t.regs := by
  unfold shlLane
  split
  · exact satInt_len ..
  split
  · exact ⟨regWords_length .., rfl⟩
  split
  · exact ⟨regWords_length .., rfl⟩
  · exact plainInt_fills ..

theorem intDest_dst {i : Instr} {d : Opnd} {n : Nat} (hwf : i.wf = true) (hd : intDest i = some (d, n)) :
    d.dst n = true := by
  cases i <;> cases hd <;> simp_all [Instr.wf, wf2, wf3, wf4]

section
variable {s : State} {i : Instr} {x : Iss} {body : Iss → Res} {d : Opnd} {n : Nat} {t : Ty}

/-- A lane form whose every lane fills its destination completes with what its lanes compute. -/
theorem Ready.filled {y : Iss} {f : Nat → LaneRes} {R : Nat → List Word → Word → Prop} (h : Ready s i x) (hq : x.quiet)
    (hdst : d.dst n = true) (he : exec i s = issue i s body) (hb : body x = y.lanes d n f)
    (hfill : ∀ l, (f l).fills n) (hR : ∀ l, R l (f l).words (f l).fl) (hy : x.sameFlags i y) : InOrder s i x d n R :=
  h.lanes hq he (Opnd.class_of_dst hdst) hy hb (fun l _ _ => (hfill l).1) (fun l _ _ => (hfill l).2) (fun l _ _ => hR l)

/-- One whose lanes give a pattern of the type without flags. -/
theorem Ready.plain {v : Nat → Nat} {R : Nat → List Word → Word → Prop} (h : Ready s i x) (hq : x.quiet)
    (hdst : d.dst t.regs = true) (he : exec i s = issue i s body)
    (hb : body x = x.lanes d t.regs fun l => plainInt t (v l)) (hR : ∀ l, R l (regWords t (v l)) 0)
    (hy : x.sameFlags i x) : InOrder s i x d t.regs R :=
  h.filled hq hdst he hb (fun _ => plainInt_fills ..) hR hy

/-- One whose lanes wrap or clamp an exact integer. -/
theorem Ready.clamped {sat : Bool} {v : Nat → Int} (h : Ready s i x) (hq : x.quiet) (hdst : d.dst t.regs = true)
    (he : exec i s = issue i s body) (hb : body x = x.lanes d t.regs fun l => satInt t sat (v l))
    (hy : x.sameFlags i x) : InOrder s i x d t.regs fun l => Clamped t sat (v l) :=
  h.filled hq hdst he hb (fun _ => satInt_len ..) (fun _ => satInt_clamped ..) hy

/-- One whose lanes divide. -/
theorem Ready.divided {rem : Bool} {a b : Nat → Int} (h : Ready s i x) (hq : x.quiet) (hdst : d.dst t.regs = true)
    (he : exec i s = issue i s body) (hb : body x = x.lanes d t.regs fun l => divLane t rem (a l) (b l))
    (hy : x.sameFlags i x) : InOrder s i x d t.regs fun l => Divided t rem (a l) (b l) :=
  h.filled hq hdst he hb (fun _ => divLane_fills ..) (fun _ => div_divided ..) hy

end

end Sys2Proof.Machine

/-- Settles O1: each instruction is a lane form, and its lane's result is that of its entry. -/
theorem integerResults : Obligations.IntegerResults := by
  intro s i x d n hwf h hq hd
  have hdst := intDest_dst hwf hd
  cases i <;> cases hd
  case iadd | isub | imul | imad | iabs => exact h.clamped hq hdst rfl rfl x.sameFlags_rfl
  case idiv | irem => exact h.divided hq hdst rfl rfl x.sameFlags_rfl
  case mov | imulh | imin | imax | sel => exact h.plain hq hdst rfl rfl (fun _ => ⟨rfl, rfl⟩) x.sameFlags_rfl
  case lea => exact h.plain (t := .u64) hq hdst rfl rfl (fun _ => ⟨rfl, rfl⟩) x.sameFlags_rfl
  case and =>
    refine h.plain hq hdst rfl rfl (fun l => ?_) x.sameFlags_rfl
    exact bitsAre_of (Nat.and_lt_two_pow _ (int_lt ..)) fun _ _ => Nat.testBit_and ..
  case or =>
    refine h.plain hq hdst rfl rfl (fun l => ?_) x.sameFlags_rfl
    exact bitsAre_of (Nat.or_lt_two_pow (int_lt ..) (int_lt ..)) fun _ _ => Nat.testBit_or ..
  case xor =>
    refine h.plain hq hdst rfl rfl (fun l => ?_) x.sameFlags_rfl
    exact bitsAre_of (Nat.xor_lt_two_pow (int_lt ..) (int_lt ..)) fun _ _ => Nat.testBit_xor ..
  case not => exact h.plain hq hdst rfl rfl (fun _ => not_bits _ (int_lt ..)) x.sameFlags_rfl
  case shl => exact h.filled hq hdst rfl rfl (fun _ => shlLane_fills ..) (fun _ => shl_clamped ..) x.sameFlags_rfl
  case shr => exact h.plain hq hdst rfl rfl (fun _ => shr_bits _ (int_lt ..) _) x.sameFlags_rfl
  case shra => exact h.plain hq hdst rfl rfl (fun _ => shra_bits _ (int_lt ..) _) x.sameFlags_rfl
  case brev => exact h.plain hq hdst rfl rfl (fun _ => brev_bits ..) x.sameFlags_rfl
  case bfe => exact h.plain hq hdst rfl rfl (fun _ => bfe_bits ..) x.sameFlags_rfl
  case bfi => exact h.plain hq hdst rfl rfl (fun _ => bfi_bits _ (int_lt ..) ..) x.sameFlags_rfl
  case popc t a =>
    refine h.plain (t := .u32) hq hdst rfl rfl (fun l => ⟨?_, rfl⟩) x.sameFlags_rfl
    rw [← popcount_eq]
    exact plainInt_u32 _
  case clz t a =>
    refine h.plain (t := .u32) hq hdst rfl rfl (fun l => ⟨rfl, ?_⟩) x.sameFlags_rfl
    obtain ⟨hle, hzero, hone⟩ := clz_spec (int_lt x t 1 a l)
    exact ⟨_, hle, plainInt_u32 _, hzero, hone⟩
  case rng => exact h.filled hq hdst rfl rfl (fun _ => plainInt_fills ..) (fun _ => ⟨rfl, plainInt_u32 _⟩) rfl

end

/-!
Conversions (R287 to R289): what CVT, PKCVT, UNPK and FRND compute in a lane that lists no record.
-/

section
open Sys2Proof Sys2Proof.Machine
namespace Sys2Proof.Machine

theorem convertDest_dst {i : Instr} {d : Opnd} {n : Nat} (hwf : i.wf = true) (hd : convertDest i = some (d, n)) :
    d.dst n = true := by
  cases i <;> cases hd <;> simp_all [Instr.wf, wf2]

/-- A conversion that is not listed (Table 10.3) is `Converted` without a record. -/
theorem cvtValue_converted (mode : Rnd) {dt st : Ty} (hdt : dt.isCvt = true) (sat : Bool) {a : Nat}
    (ha : a < 2 ^ st.bits) (hash : (cvtValue mode dt st sat a).ash = none) :
    Converted mode dt st sat a (cvtValue mode dt st sat a).val (cvtValue mode dt st sat a).fl none :=
  hash ▸ cvt_spec mode dt st hdt sat ha

/-- A conversion to a type that holds infinities lists nothing. -/
theorem cvtValue_ash_of_hasInf (mode : Rnd) {dt st : Ty} (hdt : dt.isCvt = true) (hf : dt.isFloat = true)
    (hinf : dt.fmt.hasInf = true) (sat : Bool) {a : Nat} (ha : a < 2 ^ st.bits) : (cvtValue mode dt st sat a).ash = none :=
  cvt_unlisted mode dt st hdt sat ha fun _ => .inl ⟨hf, hinf⟩

/-- An element of a packed pattern, its sign inverted or not, stays within its width. -/
theorem element_lt {t : Ty} (neg : Bool) (e : Nat) :
    (if neg then e % 2 ^ t.bits ^^^ 2 ^ (t.bits - 1) else e % 2 ^ t.bits) < 2 ^ t.bits := by
  have he : e % 2 ^ t.bits < 2 ^ t.bits := Nat.mod_lt _ (by positivity)
  have hbits : t.bits - 1 < t.bits := by cases t <;> decide
  split
  · exact Nat.xor_lt_two_pow he (Nat.pow_lt_pow_right (by decide) hbits)
  · exact he

section
variable {s : State} {x : Iss} {c : Ctl} {r : Rnd} {t dt st : Ty} {k : BitVec 2} {d a b : Opnd}

/-- CVT where no lane is listed. -/
theorem Ready.cvt (h : Ready s (.cvt c r dt st d a) x) (hwf : (Instr.cvt c r dt st d a).wf = true) (hq : x.quiet)
    (hu : Unlisted x (.cvt c r dt st d a)) :
    InOrder s (.cvt c r dt st d a) x d dt.regs fun l ws fl => ConvertResult x l ws fl (.cvt c r dt st d a) := by
  have hdst : d.dst dt.regs = true := convertDest_dst hwf rfl
  have hdt : dt.isCvt = true := by simp_all [Instr.wf]
  have hash : ∀ l < 32, x.computes d l → (cvtValue r dt st d.xm (x.typed st 1 a l)).ash = none := fun l hl hc =>
    cvt_unlisted r dt st hdt d.xm (typed_lt ..) fun hs => (hu hs).imp_right fun hlanes => hlanes l hl hc
  exact h.lanes hq rfl (Opnd.class_of_dst hdst) x.sameFlags_rfl rfl (fun _ _ _ => regWords_length ..)
    (fun l hl hc => ashOf_nil (hash l hl hc))
    fun l hl hc => ⟨_, cvtValue_converted r hdt d.xm (typed_lt ..) (hash l hl hc), rfl⟩

/-- PKCVT where no lane is listed. -/
theorem Ready.pkcvt (h : Ready s (.pkcvt c r t d a b) x) (hwf : (Instr.pkcvt c r t d a b).wf = true) (hq : x.quiet)
    (hu : Unlisted x (.pkcvt c r t d a b)) :
    InOrder s (.pkcvt c r t d a b) x d 1 fun l ws fl => ConvertResult x l ws fl (.pkcvt c r t d a b) := by
  have hdst : d.dst 1 = true := convertDest_dst hwf rfl
  obtain ⟨hdt, hfloat⟩ : t.isCvt = true ∧ t.isFloat = true := isPk_cvt (by simp_all [Instr.wf])
  have hlt : ∀ f o l, x.float .f32 f o l < 2 ^ Ty.f32.bits := fun f o l => float_lt x .f32 rfl f o l
  have hash : ∀ f o l, (t.fmt.hasInf = true ∨ (fmt32.unpack (x.float .f32 f o l)).rank = 0) →
      (cvtValue r t .f32 d.xm (x.float .f32 f o l)).ash = none := fun f o l hcase =>
    cvt_unlisted r t .f32 hdt d.xm (hlt ..) fun _ => hcase.imp (⟨hfloat, ·⟩) fun hrank => ⟨hrank, by simp [hfloat]⟩
  have hashA : ∀ l < 32, x.computes d l → (cvtValue r t .f32 d.xm (x.float .f32 1 a l)).ash = none := fun l hl hc =>
    hash _ _ _ (hu.imp_right fun hlanes => (hlanes l hl hc).1)
  have hashB : ∀ l < 32, x.computes d l → (cvtValue r t .f32 d.xm (x.float .f32 2 b l)).ash = none := fun l hl hc =>
    hash _ _ _ (hu.imp_right fun hlanes => (hlanes l hl hc).2)
  refine h.lanes hq rfl (Opnd.class_of_dst hdst) x.sameFlags_rfl rfl (fun _ _ _ => rfl) (fun l hl hc => ?_) fun l hl hc => ?_
  · simp only [pkcvtLane, ashOf_nil (hashA l hl hc), ashOf_nil (hashB l hl hc), List.append_nil]
  · exact ⟨_, _, _, _, cvtValue_converted r hdt d.xm (hlt ..) (hashA l hl hc),
      cvtValue_converted r hdt d.xm (hlt ..) (hashB l hl hc), rfl, rfl⟩

/-- UNPK, whose destination type FP32 holds infinities. -/
theorem Ready.unpk (h : Ready s (.unpk c t k d a) x) (hwf : (Instr.unpk c t k d a).wf = true) (hq : x.quiet) :
    InOrder s (.unpk c t k d a) x d 1 fun l ws fl => ConvertResult x l ws fl (.unpk c t k d a) := by
  refine h.filled hq (convertDest_dst hwf rfl) rfl rfl (fun _ => ⟨rfl, rfl⟩) (fun l => ⟨_, ?_, rfl⟩) x.sameFlags_rfl
  have hlt := element_lt (t := t) a.xm (x.pattern 1 a l / 2 ^ (t.bits * k.toNat))
  exact cvtValue_converted .rne rfl d.xm hlt (cvtValue_ash_of_hasInf .rne rfl rfl rfl d.xm hlt)

/-- FRND. -/
theorem Ready.frnd (h : Ready s (.frnd c r t d a) x) (hwf : (Instr.frnd c r t d a).wf = true) (hq : x.quiet) :
    InOrder s (.frnd c r t d a) x d t.regs fun l ws fl => ConvertResult x l ws fl (.frnd c r t d a) := by
  have hft : t.isFT = true := by simp_all [Instr.wf, wf2]
  obtain ⟨hfloat, hbits⟩ := isFT_float hft
  refine h.filled hq (convertDest_dst hwf rfl) rfl rfl (fun _ => floatRes_ok ..) (fun l => ?_) x.sameFlags_rfl
  exact ⟨_, _, rint_spec (Fmt.isFT_fmt hft) r (hbits ▸ float_lt x t hfloat 1 a l), floatRes_stored ..⟩

end

end Sys2Proof.Machine

/-- Settles O9, by the four conversions: no lane lists a record, so each completes with its lanes' converted values. -/
theorem conversions : Obligations.Conversions := by
  intro s i x d n hwf h hq hd hu
  cases i <;> cases hd
  case cvt => exact h.cvt hwf hq hu
  case frnd => exact h.frnd hwf hq
  case pkcvt => exact h.pkcvt hwf hq hu
  case unpk => exact h.unpk hwf hq

end

/-!
The trap on an enabled flag (R223): an instruction whose lanes raise one writes its result and its flags, and enters the
handler behind itself.
-/

section
open Sys2Proof Sys2Proof.Machine
namespace Sys2Proof.Machine

/-! ### Enabled flags -/

/-- Where every lane raises either no enabled flag or those of `w`, and some lane these, the enabled flags are `w`. -/
theorem Group.enabledFlags_word {gr : Group} {fl : List (Nat × Word)} {w : Word} (hw : w ≠ 0)
    (hall : ∀ e ∈ fl, e.2 &&& gr.sr.trapen &&& 0x3F = 0 ∨ e.2 &&& gr.sr.trapen &&& 0x3F = w)
    (hsome : ∃ e ∈ fl, e.2 &&& gr.sr.trapen &&& 0x3F = w) : (gr.enabledFlags fl).1 = w := by
  have hfold : ∀ (on : List (Nat × Word)) (v : Word), (∀ e ∈ on, e.2 &&& gr.sr.trapen &&& 0x3F = w) →
      v = w ∨ v = 0 ∧ on ≠ [] → on.foldl (fun v e => v ||| (e.2 &&& gr.sr.trapen &&& 0x3F)) v = w := by
    intro on
    induction on with
    | nil => intro v _ hv; simpa using hv
    | cons e on ih =>
      intro v hon hv
      rw [List.foldl_cons, hon e (by simp)]
      refine ih _ (fun e' he' => hon e' (by simp [he'])) (.inl ?_)
      rcases hv with rfl | ⟨rfl, -⟩ <;> simp
  refine hfold _ 0 (fun e he => ?_) (.inr ⟨rfl, ?_⟩)
  · obtain ⟨hmem, hon⟩ := List.mem_filter.1 he
    exact (hall e hmem).resolve_left (by simpa using hon)
  · obtain ⟨e, hmem, he⟩ := hsome
    exact List.ne_nil_of_mem (List.mem_filter.2 ⟨hmem, by rw [he]; simpa using hw⟩)

/-- The lanes of `m` that raise an enabled flag. -/
theorem Group.enabledFlags_lanes (gr : Group) (m : Mask) (f : Nat → Word) {l : Nat} (hl : l < 32) :
    (gr.enabledFlags ((Mask.lanes m).map fun l => (l, f l))).2.getLsbD l
      = (m.getLsbD l && (f l &&& gr.sr.trapen &&& 0x3F != 0)) := by
  rw [Group.enabledFlags, Mask.ofLanes_getLsbD _ hl, Bool.eq_iff_iff, decide_eq_true_iff, Bool.and_eq_true]
  simp only [List.mem_map, List.mem_filter, Mask.mem_lanes]
  constructor
  · rintro ⟨_, ⟨⟨k, ⟨-, hk⟩, rfl⟩, hon⟩, rfl⟩
    exact ⟨hk, hon⟩
  · rintro ⟨hm, hon⟩
    exact ⟨(l, f l), ⟨⟨l, ⟨hl, hm⟩, rfl⟩, hon⟩, rfl⟩

/-- A path's instruction without ash records that raises an enabled flag: its results and its flags stand in its group
when the cause is raised. -/
theorem Iss.complete_trap {x : Iss} {w : Workgroup} (hw : x.s.wg? x.h = some w) (hap : x.ap = false) (i : Instr)
    (gr : Group) (fl : List (Nat × Word)) (hm : (gr.enabledFlags fl).2 ≠ 0) :
    x.complete i gr fl [] = x.raiseIn
      (x.s.setGroup x.h x.g ((({ gr with ports := (x.popped i).ports } : Group).markFull (x.dstRegs i)).raiseFlags fl))
      { cls := .after, cause := .arith, info := (gr.enabledFlags fl).1.toNat, p31 := (gr.enabledFlags fl).2 } := by
  have hsame : (({ gr with ports := (x.popped i).ports } : Group).markFull (x.dstRegs i)).enabledFlags fl
      = gr.enabledFlags fl := rfl
  simp only [Iss.complete, State.appendAsh_nil, List.isEmpty_nil, Bool.not_true, Bool.false_and, Bool.false_eq_true,
    if_false, List.append_nil, hsame, beq_iff_eq, hm, hap]
  rw [State.modGroup_setGroup hw]

/-! ### A lane form with a V destination -/

section
variable (x : Iss) (i : Instr) (d : Opnd) (n : Nat) (f : Nat → LaneRes)

/-- The group with the words of the lanes in the V destination `d`. -/
def Iss.withRows : Group := x.putVector d n x.x (wordRow ((Mask.lanes x.x).map fun l => (l, f l)))

/-- The flags that the lanes raise. -/
def Iss.laneFlags : List (Nat × Word) := (Mask.lanes x.x).map fun l => (l, (f l).fl)

/-- The group with the words and the flags of the lanes, before the issuer goes on. -/
def Iss.written : Group :=
  (({ x.withRows d n f with ports := (x.popped i).ports } : Group).markFull (x.dstRegs i)).raiseFlags (x.laneFlags f)

theorem Iss.withRows_rest : x.withRows d n f = { x.gr with v := (x.withRows d n f).v } := (foldl_putV ..).2

theorem Iss.written_rest : x.written i d n f = { x.gr with
    v := (x.written i d n f).v, sb := (x.written i d n f).sb, sr := (x.written i d n f).sr, ports := (x.popped i).ports } := by
  rw [Iss.written, x.withRows_rest]; rfl

theorem Iss.written_sr : (x.written i d n f).sr = { x.gr.sr with xflags := (x.written i d n f).sr.xflags } := by
  rw [Iss.written, x.withRows_rest]; rfl

theorem Iss.written_flags {l : Nat} (hl : l < 32) :
    (x.written i d n f).flagsOf l = x.gr.flagsOf l ||| if x.x.getLsbD l then (f l).fl else 0 := by
  have hlt : ∀ e ∈ x.laneFlags f, e.1 < 32 := by
    intro e he
    obtain ⟨l, hl, rfl⟩ := List.mem_map.1 he
    exact ((Mask.mem_lanes ..).1 hl).1
  rw [Group.flagsOf, Iss.written, Group.raiseFlags_lane _ _ hlt hl, Iss.laneFlags, filter_map_one _ hl, x.withRows_rest]
  rfl

variable {d n f}

theorem Iss.written_holds (hd : d.isV n = true) : x.destHolds (x.written i d n f) d n fun l => (f l).words := by
  cases d with
  | v e m j =>
    intro k hk l hl
    have hrow := (foldl_putV x.gr j.toNat x.x (wordRow ((Mask.lanes x.x).map fun l => (l, f l))) n).1 (j.toNat + k) l hl
    have hin : j.toNat ≤ j.toNat + k ∧ j.toNat + k < j.toNat + n := ⟨by omega, by omega⟩
    refine Eq.trans hrow ?_
    by_cases hx : x.x.getLsbD l = true
    · simp only [hin, hx, true_and, if_true, Nat.add_sub_cancel_left, wordRow_lane _ _ _ hl]
    · simp only [hx, Bool.false_eq_true, and_false, if_false]
  | _ => cases hd

theorem Iss.lanes_of_isV (hd : d.isV n = true) (hash : ∀ l, (f l).ash = []) :
    x.lanes d n f = .done (x.withRows d n f) (x.laneFlags f) [] := by
  have hs : d.isS 1 = false := by
    cases d with
    | v => rfl
    | _ => cases hd
  have hnone : ((Mask.lanes x.x).map fun l => (l, f l)).flatMap (fun e => e.2.ash) = [] := by
    simp [List.flatMap_map, hash]
  simp only [Iss.lanes, hs, hnone, List.map_map, Function.comp_def]
  rfl

variable {i} {x} {s : State} {body : Iss → Res}

/-- A lane form with a V destination that raises an enabled flag traps behind itself. -/
theorem Ready.traps (h : Ready s i x) (hap : x.ap = false) (he : exec i s = issue i s body) (hd : d.isV n = true)
    (hb : body x = x.lanes d n f) (hash : ∀ l, (f l).ash = []) (hm : (x.gr.enabledFlags (x.laneFlags f)).2 ≠ 0) :
    exec i s = .next (x.raiseIn (s.setGroup x.h x.g (x.written i d n f))
      { cls := .after, cause := .arith, info := (x.gr.enabledFlags (x.laneFlags f)).1.toNat,
        p31 := (x.gr.enabledFlags (x.laneFlags f)).2 }) := by
  obtain ⟨rfl, hwg, -⟩ := h.facts
  have hsame : (x.withRows d n f).enabledFlags (x.laneFlags f) = x.gr.enabledFlags (x.laneFlags f) := by
    rw [x.withRows_rest]; rfl
  rw [exec_of h he, hb, x.lanes_of_isV hd hash, Iss.finish, Iss.complete_trap hwg hap _ _ _ (hsame ▸ hm), hsame]
  rfl

end

/-! ### IDIV -/

/-- Of the flags of a division, DZ is raised where the divisor is 0. -/
theorem divLane_dz (t : Ty) (rem : Bool) (a b : Int) :
    (divLane t rem a b).fl &&& flDZ = if b = 0 then flDZ else 0 := by
  unfold divLane divInt
  by_cases hb : b = 0
  · simp [hb, flDZ]
  · simp only [beq_iff_eq, hb, if_false]
    split <;> simp [flOV, flDZ]

section
variable (x : Iss) (t : Ty) (a b : Opnd)

/-- IDIV of a lane. -/
def Iss.idivLane (l : Nat) : LaneRes := divLane t false (x.ival t 1 a l) (x.ival t 2 b l)

variable {x} (hen : x.gr.sr.trapen &&& 0x3F = flDZ)
include hen

theorem Iss.idivLane_enabled (l : Nat) :
    (x.idivLane t a b l).fl &&& x.gr.sr.trapen &&& 0x3F = if x.ival t 2 b l = 0 then flDZ else 0 := by
  rw [BitVec.and_assoc, hen, Iss.idivLane, divLane_dz]

/-- With DZ alone enabled, the lanes of the cause are those that divide by 0. -/
theorem Iss.idivLane_lanes {l : Nat} (hl : l < 32) :
    (x.gr.enabledFlags (x.laneFlags (x.idivLane t a b))).2.getLsbD l
      = (x.x.getLsbD l && decide (x.ival t 2 b l = 0)) := by
  rw [Iss.laneFlags, Group.enabledFlags_lanes _ _ _ hl, x.idivLane_enabled t a b hen]
  by_cases hb : x.ival t 2 b l = 0 <;> simp [hb, flDZ]

variable {l : Nat} (hl : l < 32) (hx : x.x.getLsbD l = true) (hb : x.ival t 2 b l = 0)
include hl hx hb

theorem Iss.idivLane_some : (x.gr.enabledFlags (x.laneFlags (x.idivLane t a b))).2 ≠ 0 := by
  intro hnone
  have hlane := Iss.idivLane_lanes t a b hen hl
  simp [hnone, hx, hb] at hlane

theorem Iss.idivLane_word : (x.gr.enabledFlags (x.laneFlags (x.idivLane t a b))).1 = flDZ := by
  refine Group.enabledFlags_word (by decide) (fun e he => ?_) ⟨(l, (x.idivLane t a b l).fl), ?_, ?_⟩
  · obtain ⟨k, -, rfl⟩ := List.mem_map.1 he
    rw [x.idivLane_enabled t a b hen]
    split
    · exact .inr rfl
    · exact .inl rfl
  · exact List.mem_map.2 ⟨l, (Mask.mem_lanes ..).2 ⟨hl, hx⟩, rfl⟩
  · rw [x.idivLane_enabled t a b hen, if_pos hb]

end

/-- The access processor has no V registers: a ready IDIV that writes one is a path's. -/
theorem Ready.idiv_path {s : State} {x : Iss} {c : Ctl} {t : Ty} {d a b : Opnd} (h : Ready s (.idiv c t d a b) x)
    (hd : d.isV t.regs = true) : x.ap = false := by
  by_contra hap
  obtain ⟨hruns, -⟩ := h.onAp (by simpa using hap)
  cases d with
  | v => cases hruns
  | _ => cases hd

end Sys2Proof.Machine

/-- Settles O29: the lanes' results and flags are written, and those of them that divide by 0 are the lanes of the cause. -/
theorem arithmeticTrap : Obligations.ArithmeticTrap := by
  intro s x c t d a b l0 _ hd h hen hl0 hx0 hb0
  have hexec := h.traps (f := x.idivLane t a b) (h.idiv_path hd) rfl hd rfl (fun _ => rfl) (Iss.idivLane_some t a b hen hl0 hx0 hb0)
  rw [Iss.idivLane_word t a b hen hl0 hx0 hb0] at hexec
  exact ⟨_, _, hexec, fun l hl => Iss.idivLane_lanes t a b hen hl, x.written_rest .., x.written_sr ..,
    _, _, x.written_holds _ hd, fun l hl => ⟨fun _ => div_divided .., x.written_flags _ _ _ _ hl⟩⟩

end

/-!
One rounding to a format (R218, R219, Table 10.2): what `Fmt.roundFin` gives of a value between two significands is the
number that the mode chooses among all finite numbers of the format.
-/

section
open Sys2Proof Sys2Proof.Machine
namespace Sys2Proof.Machine

/-! ### Signs -/

/-- A magnitude with a sign. -/
def withSign (neg : Bool) (w : ℝ) : ℝ := if neg then -w else w

theorem withSign_withSign (neg : Bool) (w : ℝ) : withSign neg (withSign neg w) = w := by cases neg <;> simp [withSign]

theorem abs_withSign (neg : Bool) (w : ℝ) : |withSign neg w| = |w| := by cases neg <;> simp [withSign]

theorem withSign_inj {neg : Bool} {w y : ℝ} : withSign neg w = withSign neg y ↔ w = y := by cases neg <;> simp [withSign]

theorem withSign_neg_iff {neg : Bool} {w : ℝ} (hw : 0 < w) : neg = true ↔ withSign neg w < 0 := by
  cases neg <;> simp [withSign, hw, hw.le]

theorem val_fin (neg : Bool) (m : Nat) (e : Int) : ((FVal.fin neg m e).val : ℝ) = withSign neg (m * 2 ^ e) := by
  cases neg <;> simp [FVal.val, withSign]

/-! ### The choice of a mode -/

/-- Of two numbers of a format, `mode` does not prefer `z` to `y` for the value `v`; `even` tells of ties. -/
def ChosenBy (mode : Rnd) (v y z : ℝ) (even : Prop) : Prop :=
  match mode with
  | .rne => |v - y| ≤ |v - z| ∧ (|v - y| = |v - z| → y ≠ z → even)
  | .rna => |v - y| ≤ |v - z| ∧ (|v - y| = |v - z| → |z| ≤ |y|)
  | .rz => |y| ≤ |v| ∧ (|z| ≤ |v| → |z| ≤ |y|)
  | .ru => v ≤ y ∧ (v ≤ z → y ≤ z)
  | .rd => y ≤ v ∧ (z ≤ v → z ≤ y)

/-- The mode of a magnitude under a sign: under a minus, up and down change places. -/
def magMode (neg : Bool) : Rnd → Rnd
  | .ru => if neg then .rd else .ru
  | .rd => if neg then .ru else .rd
  | mode => mode

theorem magRounds_magMode {mode : Rnd} {neg : Bool} {u : ℝ} {n : Nat} (h : MagRounds mode neg u n) :
    MagRounds (magMode neg mode) false u n := by
  cases mode <;> cases neg <;> exact h

section
variable {mode : Rnd} {v y z : ℝ} {even : Prop}

theorem ChosenBy.scale {c : ℝ} (hc : 0 < c) (h : ChosenBy mode v y z even) :
    ChosenBy mode (v * c) (y * c) (z * c) even := by
  cases mode <;> simpa only [ChosenBy, ← sub_mul, abs_mul, abs_of_pos hc, mul_le_mul_iff_left₀ hc,
    mul_left_inj' hc.ne', ne_eq] using h

theorem ChosenBy.withSign {neg : Bool} (h : ChosenBy (magMode neg mode) v y z even) :
    ChosenBy mode (withSign neg v) (withSign neg y) (withSign neg z) even := by
  cases neg
  · cases mode <;> exact h
  · have hflip : ∀ a b : ℝ, |-a + b| = |a - b| := fun a b => by rw [neg_add_eq_sub, abs_sub_comm]
    cases mode <;> simpa [Machine.withSign, ChosenBy, magMode, hflip] using h

/-- A number nearer to 0 than some `b` up to both the value and the one chosen is not chosen if `b` is not. -/
theorem ChosenBy.below {b : ℝ} (h : ChosenBy mode v y b even) (hv : b ≤ v) (hy : b ≤ y) (hz : |z| < b) :
    ChosenBy mode v y z even := by
  obtain ⟨hz1, hz2⟩ := abs_lt.1 hz
  have hb : 0 ≤ b := (abs_nonneg z).trans hz.le
  have hlt : |v - b| < |v - z| := by
    rw [abs_of_nonneg (by linarith), abs_of_nonneg (by linarith)]
    linarith
  have hzy : |z| ≤ |y| := by rw [abs_of_nonneg (hb.trans hy)]; linarith
  cases mode with
  | rne => exact ⟨h.1.trans hlt.le, fun heq => absurd heq (h.1.trans_lt hlt).ne⟩
  | rna => exact ⟨h.1.trans hlt.le, fun _ => hzy⟩
  | rz => exact ⟨h.1, fun _ => hzy⟩
  | ru => exact ⟨h.1, fun hle => by linarith⟩
  | rd => exact ⟨h.1, fun _ => by linarith⟩

end

section
variable {mode : Rnd} {neg : Bool} {u : ℝ} {n : Nat}

/-- A rounded magnitude is less than one unit away. -/
theorem magRounds_near (h : MagRounds mode neg u n) : u < n + 1 ∧ (n : ℝ) < u + 1 := by
  cases mode with
  | rne | rna =>
    have := abs_le.1 h.1
    constructor <;> linarith
  | rz => exact ⟨h.2, by linarith [h.1]⟩
  | ru | rd =>
    cases neg <;> obtain ⟨h1, h2⟩ := h <;> constructor <;> linarith

theorem magRounds_le (h : MagRounds mode neg u n) {k : Nat} (hu : u ≤ k) : n ≤ k := by
  have hlt : (n : ℝ) < k + 1 := by linarith [(magRounds_near h).2]
  exact Nat.lt_succ_iff.1 (by exact_mod_cast hlt)

theorem magRounds_ge (h : MagRounds mode neg u n) {k : Nat} (hu : k ≤ u) : k ≤ n := by
  have hlt : (k : ℝ) < n + 1 := by linarith [(magRounds_near h).1]
  exact Nat.lt_succ_iff.1 (by exact_mod_cast hlt)

/-- Another integer is at least half a unit away, where the nearest is chosen. -/
theorem half_le_abs_sub {k : Int} (h : |u - n| ≤ 1 / 2) (hk : k ≠ n) : 1 / 2 ≤ |u - k| := by
  have hone : (1 : ℝ) ≤ |(n : ℝ) - k| := by exact_mod_cast Int.one_le_abs (sub_ne_zero.2 hk.symm)
  have htri : |(n : ℝ) - k| ≤ |u - n| + |u - k| := by
    rw [abs_sub_comm u n]
    exact abs_sub_le _ _ _
  linarith

/-- A rounded magnitude is the integer that the mode chooses. -/
theorem magRounds_chosenBy_int (h : MagRounds mode false u n) (hu : 0 ≤ u) (k : Int) :
    ChosenBy mode u n k (n % 2 = 0) := by
  have hn : |(n : ℝ)| = n := abs_of_nonneg n.cast_nonneg
  cases mode with
  | rne =>
    obtain ⟨hhalf, htie⟩ := h
    by_cases hk : k = n
    · subst hk; exact ⟨by simp, by simp⟩
    · have hge := half_le_abs_sub hhalf hk
      exact ⟨hhalf.trans hge, fun heq _ => htie (le_antisymm hhalf (heq ▸ hge))⟩
  | rna =>
    obtain ⟨hhalf, htie⟩ := h
    by_cases hk : k = n
    · subst hk; exact ⟨by simp, by simp⟩
    · have hge := half_le_abs_sub hhalf hk
      refine ⟨hhalf.trans hge, fun heq => ?_⟩
      have hdist : |u - n| = 1 / 2 := le_antisymm hhalf (heq ▸ hge)
      have hup : u < n := htie hdist
      rw [abs_of_neg (by linarith)] at hdist
      have hkn : (k : ℝ) = n - 1 := by
        rcases (abs_eq (by norm_num)).1 (heq.symm.trans (abs_of_neg (by linarith)) |>.trans hdist) with hlow | hhigh
        · linarith
        · exact absurd (by exact_mod_cast (show (k : ℝ) = n by linarith)) hk
      have hpos : (-1 : Int) < k := by exact_mod_cast (show (-1 : ℝ) < k by linarith)
      have hk0 : (0 : ℝ) ≤ k := by exact_mod_cast (show 0 ≤ k by omega)
      rw [hn, abs_of_nonneg hk0]
      linarith
  | rz =>
    obtain ⟨hle, hlt⟩ := h
    refine ⟨by rwa [hn, abs_of_nonneg hu], fun hk => ?_⟩
    rw [abs_of_nonneg hu] at hk
    have : |(k : ℝ)| < n + 1 := hk.trans_lt hlt
    rw [hn]
    exact_mod_cast Int.lt_add_one_iff.1 (by exact_mod_cast this)
  | ru =>
    obtain ⟨hle, hlt⟩ := h
    refine ⟨hle, fun hk => ?_⟩
    have : (n : ℝ) < k + 1 := by linarith
    exact_mod_cast Int.lt_add_one_iff.1 (by exact_mod_cast this)
  | rd =>
    obtain ⟨hle, hlt⟩ := h
    refine ⟨hle, fun hk => ?_⟩
    have : (k : ℝ) < n + 1 := by linarith
    exact_mod_cast Int.lt_add_one_iff.1 (by exact_mod_cast this)

/-- A rounded magnitude is chosen over the integers, and over what lies below a natural number that neither it nor the
value lies below. -/
theorem magRounds_chosenBy (h : MagRounds mode false u n) (hu : 0 ≤ u) {z : ℝ}
    (hz : (∃ k : Int, z = k) ∨ ∃ b : Nat, |z| < b ∧ b ≤ u ∧ b ≤ n) : ChosenBy mode u n z (n % 2 = 0) := by
  rcases hz with ⟨k, rfl⟩ | ⟨b, hzb, hbu, hbn⟩
  · exact magRounds_chosenBy_int h hu k
  · exact (magRounds_chosenBy_int h hu b).below (by exact_mod_cast hbu) (by exact_mod_cast hbn) (by exact_mod_cast hzb)

end

end Sys2Proof.Machine

/-! ### The finite numbers of a format -/

namespace Sys2Proof.Fmt
variable {f : Fmt}

/-- The exponent of the least unit of a format. -/
def least (f : Fmt) : Int := 1 - (f.bias : Int) - f.mb

/-- The digits of a finite number: a significand of the format's width, normalised above the least exponent, and how
the pattern is made of them. -/
theorem unpack_digits {p m : Nat} {neg : Bool} {e : Int} (h : f.unpack p = .fin neg m e) :
    m < 2 ^ (f.mb + 1) ∧ f.least ≤ e ∧ (f.least < e → 2 ^ f.mb ≤ m) ∧
      p % 2 ^ (f.eb + f.mb) = m + (e - f.least).toNat * 2 ^ f.mb := by
  have hP : 2 ^ (f.mb + 1) = 2 * 2 ^ f.mb := by ring
  have hfr : p % 2 ^ (f.eb + f.mb) % 2 ^ f.mb < 2 ^ f.mb := Nat.mod_lt _ (by positivity)
  have hdiv := Nat.div_add_mod (p % 2 ^ (f.eb + f.mb)) (2 ^ f.mb)
  unfold Fmt.unpack at h
  dsimp only at h
  generalize p % 2 ^ (f.eb + f.mb) = mag at h hfr hdiv ⊢
  generalize mag % 2 ^ f.mb = fr at h hfr hdiv ⊢
  generalize mag / 2 ^ f.mb = ex at h hdiv ⊢
  rw [mul_comm] at hdiv
  split at h
  · cases h
  split at h
  · split at h <;> cases h
  split at h
  next hex =>
    cases h
    have hex : ex = 0 := by simpa using hex
    subst hex
    exact ⟨by omega, le_refl _, fun hlt => absurd hlt (lt_irrefl _), by simpa [least] using hdiv.symm⟩
  next hex =>
    cases h
    have hex : ex ≠ 0 := by simpa using hex
    have hexp : (((ex : Int) - f.bias - f.mb) - f.least).toNat = ex - 1 := by unfold least; omega
    refine ⟨by omega, by unfold least; omega, fun _ => by omega, ?_⟩
    rw [hexp, Nat.sub_mul, one_mul, ← hdiv]
    have := Nat.le_mul_of_pos_left (2 ^ f.mb) (Nat.pos_of_ne_zero hex)
    omega

/-- A significand of the format's width at a lower exponent is below every normalised one. -/
theorem lower_exponent_lt {m : Nat} (hm : m < 2 ^ (f.mb + 1)) {e q : Int} (he : e < q) :
    (m : ℝ) * 2 ^ (e - q) < ((2 ^ f.mb : Nat) : ℝ) := by
  have hhalf : (2 : ℝ) ^ (e - q) ≤ 2⁻¹ := by
    rw [← zpow_neg_one]
    exact zpow_le_zpow_right₀ (by norm_num) (by omega)
  have hmr : (m : ℝ) < 2 ^ (f.mb + 1) := by exact_mod_cast hm
  calc (m : ℝ) * 2 ^ (e - q) ≤ m * 2⁻¹ := by gcongr
    _ < 2 ^ (f.mb + 1) * 2⁻¹ := by gcongr
    _ = ((2 ^ f.mb : Nat) : ℝ) := by push_cast; ring

/-- `n` units of 2^q are the magnitude `w` rounded as the format rounds it: to its least unit, or to the unit of a
normalised significand. -/
structure RoundsAt (f : Fmt) (mode : Rnd) (neg : Bool) (w : ℝ) (n : Nat) (q : Int) : Prop where
  rounds : MagRounds mode neg (w / 2 ^ q) n
  pos : 0 < w
  least : f.least ≤ q
  small : n ≤ 2 ^ (f.mb + 1)
  normal : f.least < q → ((2 ^ f.mb : Nat) : ℝ) ≤ w / 2 ^ q

section
variable {mode : Rnd} {neg : Bool} {w : ℝ} {n : Nat} {q : Int} (h : f.RoundsAt mode neg w n q)
include h

theorem RoundsAt.normal_units (hq : f.least < q) : 2 ^ f.mb ≤ n := magRounds_ge h.rounds (h.normal hq)

/-- A finite number of the format, in units of 2^q: an integer, or below every normalised significand. -/
theorem RoundsAt.units {p m : Nat} {sign : Bool} {e : Int} (hp : f.unpack p = .fin sign m e) :
    (∃ k : Int, (m : ℝ) * 2 ^ e / 2 ^ q = k) ∨
      ∃ b : Nat, |(m : ℝ) * 2 ^ e / 2 ^ q| < b ∧ b ≤ w / 2 ^ q ∧ b ≤ n := by
  obtain ⟨hm, he, -, -⟩ := unpack_digits hp
  have hunit : (m : ℝ) * 2 ^ e / 2 ^ q = m * 2 ^ (e - q) := by rw [mul_div_assoc, ← zpow_sub₀ (by norm_num)]
  rw [hunit]
  rcases le_or_gt q e with hqe | hqe
  · left
    obtain ⟨k, hk⟩ := Int.eq_ofNat_of_zero_le (sub_nonneg.2 hqe)
    exact ⟨m * 2 ^ k, by rw [hk]; push_cast; rfl⟩
  · right
    have hq : f.least < q := he.trans_lt hqe
    refine ⟨2 ^ f.mb, ?_, h.normal hq, h.normal_units hq⟩
    rw [abs_of_nonneg (by positivity)]
    exact lower_exponent_lt hm hqe

/-- The rounded number is the one that the mode chooses among all finite numbers of the format. -/
theorem RoundsAt.chosen {p m : Nat} {sign : Bool} {e : Int} (hp : f.unpack p = .fin sign m e) :
    ChosenBy mode (withSign neg w) (withSign neg (n * 2 ^ q)) ((f.unpack p).val : ℝ) (n % 2 = 0) := by
  have hQ : (0 : ℝ) < 2 ^ q := by positivity
  have hw : 0 ≤ w / 2 ^ q := (div_pos h.pos hQ).le
  have hz : withSign neg (withSign neg (withSign sign (m * 2 ^ e / 2 ^ q)) * 2 ^ q) = ((f.unpack p).val : ℝ) := by
    rw [hp, val_fin]
    cases neg <;> cases sign <;> simp [withSign, div_mul_cancel₀ _ hQ.ne']
  have hunits : (∃ k : Int, withSign neg (withSign sign ((m : ℝ) * 2 ^ e / 2 ^ q)) = k) ∨
      ∃ b : Nat, |withSign neg (withSign sign ((m : ℝ) * 2 ^ e / 2 ^ q))| < b ∧ b ≤ w / 2 ^ q ∧ b ≤ n := by
    rw [abs_withSign, abs_withSign]
    refine (h.units hp).imp_left fun ⟨k, hk⟩ => ⟨if neg = sign then k else -k, ?_⟩
    rw [hk]
    cases neg <;> cases sign <;> simp [withSign]
  have key := (((magRounds_chosenBy (magRounds_magMode h.rounds) hw hunits).scale hQ).withSign)
  rwa [div_mul_cancel₀ _ hQ.ne', hz] at key

/-- Where the pattern exceeds that of the largest finite number, the magnitude exceeds that number. -/
theorem RoundsAt.above_of_lt {m : Nat} {e : Int} (hmax : f.unpack f.maxFin = .fin false m e)
    (hlt : f.maxFin < 2 ^ (f.eb + f.mb)) (hn : f.maxFin < n + (q - f.least).toNat * 2 ^ f.mb) :
    (m : ℝ) * 2 ^ e < w := by
  obtain ⟨hm, he, hnorm, hdig⟩ := unpack_digits hmax
  rw [Nat.mod_eq_of_lt hlt] at hdig
  have hQ : (0 : ℝ) < 2 ^ q := by positivity
  by_contra hle
  rw [not_lt] at hle
  have hu : w / 2 ^ q ≤ m * 2 ^ (e - q) := by
    rw [div_le_iff₀ hQ, mul_assoc, ← zpow_add₀ (by norm_num), sub_add_cancel]
    exact hle
  rcases lt_trichotomy q e with hqe | rfl | hqe
  · -- more than one exponent below the largest
    have hstep : (q - f.least).toNat + 1 ≤ (e - f.least).toNat := by have := h.least; omega
    have := Nat.mul_le_mul_right (2 ^ f.mb) hstep
    have := hnorm (h.least.trans_lt hqe)
    have := h.small
    have : 2 ^ (f.mb + 1) = 2 * 2 ^ f.mb := by ring
    rw [Nat.add_mul] at *
    omega
  · have : n ≤ m := magRounds_le h.rounds (by simpa using hu)
    omega
  · have hbig := h.normal (he.trans_lt hqe)
    linarith [lower_exponent_lt hm hqe]

end

end Sys2Proof.Fmt

end

/-!
`Fmt.roundFin` rounds correctly: the significand with its rest is rounded to the format's unit, and packed or overflows.
-/

section
open Sys2Proof Sys2Proof.Machine
namespace Sys2Proof.Fmt

/-! ### The two ends of a rounding -/

section
variable {f : Fmt} {mode : Rnd} {neg : Bool} {w : ℝ} {n : Nat} {q : Int}

/-- The pattern of the largest finite number of a format is one of a finite number. -/
theorem unpack_maxFin (hf : f ∈ formats) : ∃ m e, f.unpack f.maxFin = .fin false m e := by
  simp only [formats, List.mem_cons, List.not_mem_nil, or_false] at hf
  rcases hf with rfl | rfl | rfl | rfl | rfl <;> exact ⟨_, _, rfl⟩

theorem fin_of_rank {v : FVal} (hr : v.rank = 0) (hn : v.isNan = false) : ∃ s m e, v = .fin s m e := by
  cases v with
  | nan => cases hn
  | inf s => cases s <;> cases hr
  | fin s m e => exact ⟨s, m, e, rfl⟩

/-- The flags of a packed result (R219). -/
def packFlags (inexact tiny : Bool) : Word := if inexact then if tiny then flNX ||| flUF else flNX else 0

theorem packFlags_nx (inexact tiny : Bool) : packFlags inexact tiny &&& flNX = 0 ↔ inexact = false := by
  cases inexact <;> cases tiny <;> decide

theorem packFlags_ov (inexact tiny : Bool) : packFlags inexact tiny &&& flOV = 0 := by
  cases inexact <;> cases tiny <;> decide

theorem packFlags_uf {inexact tiny : Bool} (h : packFlags inexact tiny &&& flUF ≠ 0) :
    tiny = true ∧ packFlags inexact tiny = flUF ||| flNX := by
  revert h
  cases inexact <;> cases tiny <;> decide

/-- Above the largest finite number the result of Table 10.2 is given. -/
theorem RoundsAt.overflow_rounded (hf : f ∈ formats) (h : f.RoundsAt mode neg w n q)
    (hn : f.maxFin < n + (q - f.least).toNat * 2 ^ f.mb) :
    Rounded f mode (withSign neg w) (f.overflow mode neg + f.signBit neg, flOV ||| flNX) := by
  obtain ⟨-, -, hlt, -⟩ := fmt_facts hf
  obtain ⟨m, e, hmax⟩ := unpack_maxFin hf
  have hov : (flOV ||| flNX) &&& flOV ≠ 0 := by decide
  have huf : (flOV ||| flNX) &&& flUF = 0 := by decide
  refine ⟨fun hno => absurd hno hov, fun hno => absurd hno hov, fun _ => ⟨rfl, ?_, neg, withSign_neg_iff h.pos, rfl⟩,
    fun hyes => absurd huf hyes⟩
  rw [hmax, val_fin, abs_withSign, abs_of_pos h.pos]
  exact h.above_of_lt hmax hlt hn

/-- The parity of a pattern is that of its units. -/
theorem packed_parity (hf : f ∈ formats) (k : Nat) : (n + k * 2 ^ f.mb + f.signBit neg) % 2 = n % 2 := by
  obtain ⟨-, ⟨hmb, -⟩, -⟩ := fmt_facts hf
  have hfield : 2 ^ f.mb % 2 = 0 := by simp [Nat.pow_mod, Nat.pos_iff_ne_zero.1 hmb]
  have hsign : f.signBit neg % 2 = 0 := by
    cases neg
    · rfl
    · simp [signBit, Nat.pow_mod, Nat.pos_iff_ne_zero.1 hmb]
  rw [Nat.add_mod, Nat.add_mod n, Nat.mul_mod, hfield, hsign]
  simp

/-- Up to the largest finite number the packed units are the result. -/
theorem RoundsAt.packed_rounded (hf : f ∈ formats) (h : f.RoundsAt mode neg w n q)
    (hn : n + (q - f.least).toNat * 2 ^ f.mb ≤ f.maxFin) {inexact tiny : Bool} (hix : inexact = false ↔ w / 2 ^ q = n)
    (htiny : tiny = true → w < 2 ^ (1 - (f.bias : Int))) :
    Rounded f mode (withSign neg w)
      (n + (q - f.least).toNat * 2 ^ f.mb + f.signBit neg, packFlags inexact tiny) := by
  have hQ : (0 : ℝ) < 2 ^ q := by positivity
  obtain ⟨m, e, hpack, hval⟩ := unpack_pack hf neg h.least h.small h.normal_units hn
  have hval : ((f.unpack (n + (q - f.least).toNat * 2 ^ f.mb + f.signBit neg)).val : ℝ) = withSign neg (n * 2 ^ q) := by
    rw [Fmt.least, hpack, val_fin]
    congr 1
    simpa using congrArg (Rat.cast : ℚ → ℝ) hval
  refine ⟨fun _ => ⟨neg, m, e, hpack, withSign_neg_iff h.pos, ?_⟩, fun _ p _ hrank hnan => ?_,
    fun hov => absurd (packFlags_ov inexact tiny) hov, fun huf => ?_⟩
  · rw [hval, withSign_inj, packFlags_nx, hix, div_eq_iff hQ.ne', eq_comm]
  · obtain ⟨sign, k, d, hp⟩ := fin_of_rank hrank hnan
    have hchosen := h.chosen hp
    rw [← packed_parity (neg := neg) hf (q - f.least).toNat, ← hval] at hchosen
    cases mode <;> exact hchosen
  · obtain ⟨ht, hfl⟩ := packFlags_uf huf
    exact ⟨hfl, by rw [abs_withSign, abs_of_pos h.pos]; exact htiny ht⟩

end

/-! ### The exponent of the unit -/

/-- The exponent of the unit for a value whose highest bit is at `top`. -/
def unitExp (f : Fmt) (top : Int) : Int := if top - f.mb < f.least then f.least else top - f.mb

theorem unitExp_spec (f : Fmt) (top : Int) :
    f.least ≤ f.unitExp top ∧ top - f.mb ≤ f.unitExp top ∧ (f.least < f.unitExp top → f.unitExp top = top - f.mb) := by
  unfold unitExp
  split <;> omega

/-- `Fmt.roundFin` of a significand that is not 0: its units, packed, or the result of an overflow. -/
theorem roundFin_eq {f : Fmt} {mode : Rnd} {neg s : Bool} {m : Nat} {e : Int} (hm : m ≠ 0) :
    f.roundFin mode neg m e s =
      let top := e + (bitLen m : Int) - 1
      let n := roundAt mode neg m e s (f.unitExp top)
      let mag := n.1 + (f.unitExp top - f.least).toNat * 2 ^ f.mb
      let free := roundAt mode neg m e s (top - f.mb)
      if f.maxFin < mag then (f.overflow mode neg + f.signBit neg, flOV ||| flNX)
      else (mag + f.signBit neg, packFlags n.2
        (decide (top < 1 - (f.bias : Int)) && !(top == 1 - (f.bias : Int) - 1 && free.1 == 2 ^ (f.mb + 1)))) := by
  have hne : (m == 0 && !s) = false := by simp [hm]
  unfold roundFin
  simp only [hne, Bool.false_eq_true, if_false]
  rfl

/-! ### A significand with a rest -/

/-- A significand `m` with a rest `d` of its unit, of which `s` tells whether there is one; it has three spare bits then. -/
structure Significand (f : Fmt) (s : Bool) (m : Nat) (d : ℝ) : Prop where
  ne_zero : m ≠ 0
  nonneg : 0 ≤ d
  lt_one : d < 1
  rest : s = true ↔ 0 < d
  wide : s = true → 2 ^ (f.mb + 3) ≤ m

section
variable {f : Fmt} {mode : Rnd} {neg s : Bool} {m : Nat} {e : Int} {d : ℝ} (h : f.Significand s m d)
include h

theorem Significand.exact_or_rest : s = false → d = 0 := fun hs =>
  le_antisymm (not_lt.1 fun hd => by simp [h.rest.2 hd] at hs) h.nonneg

/-- The value lies between the power of two of its highest bit and the next. -/
theorem Significand.bounds : (2 : ℝ) ^ (e + (bitLen m : Int) - 1) ≤ (m + d) * 2 ^ e
    ∧ (m + d) * 2 ^ e < 2 ^ (e + (bitLen m : Int) - 1 + 1) := by
  obtain ⟨hlow, hhigh, hpos⟩ := bitLen_spec h.ne_zero
  obtain ⟨k, hk⟩ : ∃ k, bitLen m = k + 1 := ⟨bitLen m - 1, by omega⟩
  rw [hk] at hlow hhigh ⊢
  have hlow : (2 : ℝ) ^ k ≤ m := by exact_mod_cast hlow
  have hhigh : (m : ℝ) + 1 ≤ 2 ^ (k + 1) := by exact_mod_cast hhigh
  have hE : (0 : ℝ) < 2 ^ e := by positivity
  have hexp : ∀ j : Nat, (2 : ℝ) ^ (e + (j : Int)) = 2 ^ j * 2 ^ e := fun j => by
    rw [zpow_add₀ (by norm_num), zpow_natCast, mul_comm]
  have htop : e + ((k + 1 : Nat) : Int) - 1 = e + (k : Int) := by push_cast; ring
  have htop1 : e + (k : Int) + 1 = e + ((k + 1 : Nat) : Int) := by push_cast; ring
  rw [htop, htop1, hexp, hexp]
  constructor
  · gcongr
    linarith [h.nonneg]
  · gcongr
    linarith [h.lt_one]

/-- A rest lies below the unit of the format. -/
theorem Significand.lt_unitExp (hs : s = true) : e < f.unitExp (e + (bitLen m : Int) - 1) := by
  obtain ⟨-, hhigh, -⟩ := bitLen_spec h.ne_zero
  have hlen : f.mb + 3 < bitLen m := (Nat.pow_lt_pow_iff_right (by decide)).1 ((h.wide hs).trans_lt hhigh)
  have := (f.unitExp_spec (e + (bitLen m : Int) - 1)).2.1
  omega

/-- The significand is rounded to the unit of the format. -/
theorem Significand.roundsAt : f.RoundsAt mode neg ((m + d) * 2 ^ e)
    (roundAt mode neg m e s (f.unitExp (e + (bitLen m : Int) - 1))).1 (f.unitExp (e + (bitLen m : Int) - 1)) := by
  obtain ⟨hlow, hhigh⟩ := h.bounds (e := e)
  have hround := (roundAt_spec mode neg s m e (f.unitExp (e + (bitLen m : Int) - 1)) d h.nonneg h.lt_one h.rest
    h.lt_unitExp).1
  obtain ⟨hleast, htop, hnorm⟩ := f.unitExp_spec (e + (bitLen m : Int) - 1)
  generalize e + (bitLen m : Int) - 1 = top at *
  generalize f.unitExp top = q at *
  have hQ : (0 : ℝ) < 2 ^ q := by positivity
  refine ⟨hround, (show (0 : ℝ) < 2 ^ top by positivity).trans_le hlow, hleast, magRounds_le hround ?_, fun hq => ?_⟩
  · rw [div_le_iff₀ hQ]
    refine hhigh.le.trans ?_
    push_cast
    rw [← zpow_natCast, ← zpow_add₀ (by norm_num)]
    exact zpow_le_zpow_right₀ (by norm_num) (by push_cast; omega)
  · rw [le_div_iff₀ hQ]
    refine le_trans (le_of_eq ?_) hlow
    push_cast
    rw [← zpow_natCast, ← zpow_add₀ (by norm_num), hnorm hq]
    congr 1
    ring

/-- One rounding of a significand with a rest (R218, R219). -/
theorem Significand.rounded (hf : f ∈ formats) :
    Rounded f mode (withSign neg ((m + d) * 2 ^ e)) (f.roundFin mode neg m e s) := by
  have hat := h.roundsAt (mode := mode) (neg := neg) (e := e)
  have hix := (roundAt_spec mode neg s m e (f.unitExp (e + (bitLen m : Int) - 1)) d h.nonneg h.lt_one h.rest
    h.lt_unitExp).2
  have htiny : ∀ b : Bool, (decide (e + (bitLen m : Int) - 1 < 1 - (f.bias : Int)) && b) = true →
      (m + d) * 2 ^ e < 2 ^ (1 - (f.bias : Int)) := fun b hb => by
    have htop := of_decide_eq_true (Bool.and_eq_true_iff.1 hb).1
    exact h.bounds.2.trans_le (zpow_le_zpow_right₀ (by norm_num) (by omega))
  rw [roundFin_eq h.ne_zero]
  dsimp only
  split
  next hov => exact hat.overflow_rounded hf hov
  next hfin => exact hat.packed_rounded hf (not_lt.1 hfin) hix (htiny _)

end

/-- One rounding of an exact value that is not 0. -/
theorem roundFin_val {f : Fmt} (hf : f ∈ formats) {mode : Rnd} {neg : Bool} {m : Nat} {e : Int} (hm : m ≠ 0) :
    Rounded f mode ((FVal.fin neg m e).val : ℝ) (f.roundFin mode neg m e false) := by
  have h : f.Significand false m 0 := ⟨hm, le_refl 0, one_pos, by simp, by simp⟩
  have hrounded := h.rounded (mode := mode) (neg := neg) (e := e) hf
  rwa [add_zero, ← val_fin] at hrounded

end Sys2Proof.Fmt

end

/-!
Float arithmetic rounds once (R281, R285): each operation on finite numbers rounds a significand, with its rest, that
stands for the exact result.
-/

section
open Sys2Proof Sys2Proof.Machine
namespace Sys2Proof

/-! ### Exact values -/

/-- A value is that of a finite number. -/
def FVal.IsFin (v : FVal) : Prop := ∃ n m e, v = .fin n m e

theorem FVal.val_ne_zero {s : Bool} {m : Nat} {e : Int} : (FVal.fin s m e).val ≠ 0 ↔ m ≠ 0 := by
  cases s <;> simp [FVal.val, zpow_ne_zero]

theorem FVal.digits_ne_zero {v : FVal} {s : Bool} {m : Nat} {e : Int} (hv : v = .fin s m e) (h : (v.val : ℝ) ≠ 0) :
    m ≠ 0 :=
  (FVal.val_ne_zero (s := s) (e := e)).1 (by rw [← hv]; exact_mod_cast h)

theorem FVal.val_flip (v : FVal) : v.flip.val = -v.val := by
  rcases v with _ | _ | ⟨_ | _, m, e⟩ <;> simp [FVal.flip, FVal.val]

theorem FVal.isFin_flip {v : FVal} (h : v.IsFin) : v.flip.IsFin := by
  obtain ⟨n, m, e, rfl⟩ := h
  exact ⟨!n, m, e, rfl⟩

theorem FVal.pos_fin {s : Bool} {m : Nat} {e : Int} (h : (0 : ℝ) < (FVal.fin s m e).val) : s = false ∧ m ≠ 0 := by
  have hmag : (0 : ℝ) ≤ m * 2 ^ e := by positivity
  rw [val_fin] at h
  cases s
  · exact ⟨rfl, by rintro rfl; simp [withSign] at h⟩
  · simp only [withSign, if_true] at h
    linarith

/-- An integer in units of 2^q. -/
theorem FVal.val_of_int (k q : Int) : (FVal.fin (decide (k < 0)) k.natAbs q).val = k * 2 ^ q := by
  rcases lt_or_ge k 0 with hk | hk
  · have habs : ((k.natAbs : Int) : ℚ) = -k := by exact_mod_cast Int.ofNat_natAbs_of_nonpos hk.le
    simp only [FVal.val, hk, decide_true, if_true]
    rw [← Int.cast_natCast, habs]
    ring
  · have habs : ((k.natAbs : Int) : ℚ) = k := by exact_mod_cast Int.natAbs_of_nonneg hk
    simp only [FVal.val, not_lt.2 hk, decide_false, Bool.false_eq_true, if_false]
    rw [← Int.cast_natCast, habs]
    ring

theorem FVal.nv_fin (s : Bool) (m : Nat) (e : Int) : (FVal.fin s m e).nv = 0 := rfl

theorem FVal.add_val (mode : Rnd) {u v : FVal} (hu : u.IsFin) (hv : v.IsFin) (h : u.val + v.val ≠ 0) :
    ∃ s m e, u.add mode v = (.fin s m e, 0) ∧ (FVal.fin s m e).val = u.val + v.val := by
  obtain ⟨x, m, e, rfl⟩ := hu
  obtain ⟨y, n, d, rfl⟩ := hv
  unfold FVal.add
  generalize hq : (if e ≤ d then e else d) = q
  obtain ⟨hqe, hqd⟩ : q ≤ e ∧ q ≤ d := by split at hq <;> omega
  have hsum : ((unitsOf x m e q + unitsOf y n d q : Int) : ℚ) * 2 ^ q = (FVal.fin x m e).val + (FVal.fin y n d).val := by
    rw [Int.cast_add, add_mul, unitsOf_val hqe, unitsOf_val hqd]
  have hne : unitsOf x m e q + unitsOf y n d q ≠ 0 := fun h0 => h (by rw [← hsum, h0]; simp)
  simp only [hq, beq_iff_eq, hne, if_false, nv_fin]
  exact ⟨_, _, _, rfl, by rw [FVal.val_of_int, hsum]⟩

theorem FVal.mul_val {u v : FVal} (hu : u.IsFin) (hv : v.IsFin) :
    ∃ s m e, u.mul v = (.fin s m e, 0) ∧ (FVal.fin s m e).val = u.val * v.val := by
  obtain ⟨x, m, e, rfl⟩ := hu
  obtain ⟨y, n, d, rfl⟩ := hv
  refine ⟨x != y, m * n, e + d, by simp [FVal.mul, nv_fin], ?_⟩
  cases x <;> cases y <;> simp [FVal.val, zpow_add₀] <;> ring

namespace Fmt
variable {f : Fmt} (hf : f ∈ formats) {mode : Rnd}
include hf

/-! ### Sums and products -/

theorem finish_rounded {s : Bool} {m : Nat} {e : Int} (h : (FVal.fin s m e).val ≠ 0) :
    Rounded f mode ((FVal.fin s m e).val : ℝ) (f.finish mode (.fin s m e, 0)) := by
  have hround : f.finish mode (.fin s m e, 0) = f.roundFin mode s m e false := by simp [finish, round]
  rw [hround]
  exact roundFin_val hf (FVal.val_ne_zero.1 h)

theorem finish_add {u v : FVal} (hu : u.IsFin) (hv : v.IsFin) (h : (u.val : ℝ) + v.val ≠ 0) :
    Rounded f mode (u.val + v.val) (f.finish mode (u.add mode v)) := by
  have hsum : u.val + v.val ≠ 0 := by exact_mod_cast h
  obtain ⟨s, m, e, hadd, hval⟩ := FVal.add_val mode hu hv hsum
  rw [hadd, ← Rat.cast_add, ← hval]
  exact finish_rounded hf (hval ▸ hsum)

theorem finish_mul {u v : FVal} (hu : u.IsFin) (hv : v.IsFin) (h : (u.val : ℝ) * v.val ≠ 0) :
    Rounded f mode (u.val * v.val) (f.finish mode (u.mul v)) := by
  have hprod : u.val * v.val ≠ 0 := by exact_mod_cast h
  obtain ⟨s, m, e, hmul, hval⟩ := FVal.mul_val hu hv
  rw [hmul, ← Rat.cast_mul, ← hval]
  exact finish_rounded hf (hval ▸ hprod)

theorem finish_fma {u v w : FVal} (hu : u.IsFin) (hv : v.IsFin) (hw : w.IsFin) (h : (u.val : ℝ) * v.val + w.val ≠ 0) :
    Rounded f mode (u.val * v.val + w.val) (f.finish mode (FVal.fma mode u v w)) := by
  obtain ⟨s, m, e, hmul, hval⟩ := FVal.mul_val hu hv
  have hfma : FVal.fma mode u v w = (FVal.fin s m e).add mode w := by simp [FVal.fma, hmul]
  rw [hfma]
  rw [← Rat.cast_mul, ← hval] at h ⊢
  exact finish_add hf ⟨s, m, e, rfl⟩ hw h

theorem finish_sub {u v : FVal} (hu : u.IsFin) (hv : v.IsFin) (h : (u.val : ℝ) - v.val ≠ 0) :
    Rounded f mode (u.val - v.val) (f.finish mode (u.add mode v.flip)) := by
  have hdiff : (u.val : ℝ) - v.val = u.val + v.flip.val := by rw [FVal.val_flip, Rat.cast_neg, sub_eq_add_neg]
  rw [hdiff] at h ⊢
  exact finish_add hf hu (FVal.isFin_flip hv) h

/-! ### Quotients -/

/-- The significands of the formats are short, and 1 is below their largest exponents. -/
theorem format_bounds : f.mb + 3 ≤ 40 ∧ f.bias + 1 < 2 ^ f.eb := by
  simp only [formats, List.mem_cons, List.not_mem_nil, or_false] at hf
  rcases hf with rfl | rfl | rfl | rfl | rfl <;> decide

/-- A significand of 40 bits is wide enough for every format. -/
theorem wide_of_le {r : Nat} (h : 2 ^ 40 ≤ r) : 2 ^ (f.mb + 3) ≤ r :=
  (Nat.pow_le_pow_right (by decide) (format_bounds hf).1).trans h

/-- The whole part of a quotient, with the remainder for a rest. -/
theorem significand_div {num n : Nat} (hn : n ≠ 0) (h : 2 ^ 40 * n ≤ num) :
    f.Significand (num % n != 0) (num / n) ((num % n : Nat) / n : ℝ) := by
  have hpos : (0 : ℝ) < n := by exact_mod_cast Nat.pos_of_ne_zero hn
  have hquot : 2 ^ 40 ≤ num / n := (Nat.le_div_iff_mul_le (Nat.pos_of_ne_zero hn)).2 h
  refine ⟨by omega, by positivity, ?_, ?_, fun _ => wide_of_le hf hquot⟩
  · rw [div_lt_one hpos]
    exact_mod_cast Nat.mod_lt _ (Nat.pos_of_ne_zero hn)
  · rw [bne_iff_ne, div_pos_iff_of_pos_right hpos, Nat.cast_pos, Nat.pos_iff_ne_zero]

omit hf in
/-- The quotient of the significands, scaled by 2^k and with its rest, at the exponent of the quotient. -/
theorem quotient_val {m n k : Nat} (hn : n ≠ 0) (e d : Int) :
    ((m * 2 ^ k / n : Nat) + ((m * 2 ^ k % n : Nat) / n : ℝ)) * 2 ^ (e - d - k) = m * 2 ^ e / (n * 2 ^ d) := by
  have hpos : (n : ℝ) ≠ 0 := by exact_mod_cast hn
  have hquot : ((m * 2 ^ k / n : Nat) : ℝ) + ((m * 2 ^ k % n : Nat) / n : ℝ) = m * 2 ^ k / n := by
    rw [eq_div_iff hpos, add_mul, div_mul_cancel₀ _ hpos]
    exact_mod_cast Nat.div_add_mod' (m * 2 ^ k) n
  have hexp : (2 : ℝ) ^ k * 2 ^ (e - d - k) = 2 ^ e / 2 ^ d := by
    rw [← zpow_natCast, ← zpow_add₀ (by norm_num), ← zpow_sub₀ (by norm_num)]
    congr 1
    ring
  rw [hquot, div_mul_eq_mul_div, mul_assoc, hexp, mul_div_assoc', div_div, mul_comm ((2 : ℝ) ^ d)]

theorem div_rounded {a b : Nat} (ha : (f.unpack a).IsFin) (hb : (f.unpack b).IsFin) (hx : ((f.unpack a).val : ℝ) ≠ 0)
    (hy : ((f.unpack b).val : ℝ) ≠ 0) : Rounded f mode ((f.unpack a).val / (f.unpack b).val) (f.div mode a b) := by
  obtain ⟨x, m, e, ha⟩ := ha
  obtain ⟨y, n, d, hb⟩ := hb
  have hm : m ≠ 0 := FVal.digits_ne_zero ha hx
  have hn : n ≠ 0 := FVal.digits_ne_zero hb hy
  obtain ⟨k, hk⟩ : ∃ k, bitLen n + 40 = k := ⟨_, rfl⟩
  have hwide : 2 ^ 40 * n ≤ m * 2 ^ k := by
    obtain ⟨-, hhigh, -⟩ := bitLen_spec hn
    calc 2 ^ 40 * n ≤ 2 ^ 40 * 2 ^ bitLen n := by gcongr
      _ = 1 * 2 ^ k := by rw [← hk]; ring
      _ ≤ m * 2 ^ k := by gcongr; omega
  have hval : withSign (x != y) (((m * 2 ^ k / n : Nat) + ((m * 2 ^ k % n : Nat) / n : ℝ)) * 2 ^ (e - d - k))
      = ((f.unpack a).val : ℝ) / (f.unpack b).val := by
    rw [quotient_val hn, ha, hb, val_fin, val_fin]
    cases x <;> cases y <;> simp [withSign, neg_div, div_neg]
  have hdiv : f.div mode a b = f.roundFin mode (x != y) (m * 2 ^ k / n) (e - d - k) (m * 2 ^ k % n != 0) := by
    rw [← hk]
    simp [div, ha, hb, hm, hn]
  rw [hdiv, ← hval]
  exact (significand_div hf hn hwide).rounded hf

/-! ### Square roots -/

omit hf in
/-- The bits of the root from bit k down, where those above leave less than 2^(k + 1) to it. -/
theorem isqrtFrom_spec {n : Nat} : ∀ {k r : Nat}, r * r ≤ n → n < (r + 2 ^ (k + 1)) * (r + 2 ^ (k + 1)) →
    isqrtFrom n k r * isqrtFrom n k r ≤ n ∧ n < (isqrtFrom n k r + 1) * (isqrtFrom n k r + 1)
  | 0, r, hlow, hhigh => by
    unfold isqrtFrom
    split
    · exact ⟨by assumption, hhigh⟩
    · exact ⟨hlow, by omega⟩
  | k + 1, r, hlow, hhigh => by
    have hstep : r + 2 ^ (k + 1 + 1) = r + 2 ^ (k + 1) + 2 ^ (k + 1) := by ring
    unfold isqrtFrom
    dsimp only
    split
    · exact isqrtFrom_spec (by assumption) (hstep ▸ hhigh)
    · exact isqrtFrom_spec hlow (by omega)

omit hf in
theorem isqrt_eq_sqrt (n : Nat) : isqrt n = Nat.sqrt n := by
  refine Nat.eq_sqrt.2 (isqrtFrom_spec (Nat.zero_le _) ?_)
  have hlen : n < 2 ^ bitLen n := by
    by_cases hn : n = 0
    · simp [hn, bitLen]
    · exact (bitLen_spec hn).2.1
  rw [zero_add, ← pow_add]
  exact hlen.trans_le (Nat.pow_le_pow_right (by decide) (by omega))

/-- The whole part of a square root, with its difference from the root for a rest. -/
theorem significand_sqrt {t : ℝ} {r : Nat} {s : Bool} (hlow : (r : ℝ) * r ≤ t) (hhigh : t < (r + 1) * (r + 1))
    (hs : s = true ↔ (r : ℝ) * r ≠ t) (hr : 2 ^ 40 ≤ r) : f.Significand s r (√t - r) := by
  have hr0 : (0 : ℝ) ≤ r := r.cast_nonneg
  have hroot : (r : ℝ) ≤ √t := Real.le_sqrt' (by exact_mod_cast (by omega : 0 < r)) |>.2 (by rwa [pow_two])
  refine ⟨by omega, sub_nonneg.2 hroot, ?_, ?_, fun _ => wide_of_le hf hr⟩
  · rw [sub_lt_iff_lt_add', add_comm]
    exact (Real.sqrt_lt' (by positivity)).2 (by rw [pow_two, add_comm]; linarith)
  · rw [hs, sub_pos, Real.lt_sqrt hr0, pow_two]
    exact ⟨fun hne => lt_of_le_of_ne hlow hne, fun hlt => hlt.ne⟩

omit hf in
theorem sqrt_mul_zpow {t : ℝ} (ht : 0 ≤ t) (i : Int) : √(t * 2 ^ (2 * i)) = √t * 2 ^ i := by
  rw [Real.sqrt_mul ht, mul_comm 2 i, zpow_mul, zpow_ofNat, Real.sqrt_sq (by positivity)]

end Fmt

/-- The significand and the exponent of a positive number, brought to an even exponent. -/
def evenParts (m : Nat) (e : Int) : Nat × Int := if e % 2 == 0 then (m, e) else (2 * m, e - 1)

theorem evenParts_spec {m : Nat} (hm : m ≠ 0) (e : Int) : (evenParts m e).1 ≠ 0 ∧
    ((evenParts m e).1 : ℝ) * 2 ^ (2 * ((evenParts m e).2 / 2)) = m * 2 ^ e := by
  unfold evenParts
  by_cases he : e % 2 = 0
  · simp only [he, beq_self_eq_true, if_true]
    exact ⟨hm, by rw [Int.mul_ediv_cancel' (Int.dvd_of_emod_eq_zero he)]⟩
  · have hodd : 2 * ((e - 1) / 2) = e - 1 := by omega
    simp only [beq_iff_eq, he, if_false, hodd]
    refine ⟨by omega, ?_⟩
    rw [zpow_sub_one₀ (by norm_num)]
    push_cast
    ring

namespace Fmt
variable {f : Fmt} (hf : f ∈ formats) {mode : Rnd}
include hf

/-- The root of an even power of two times n is found from that of n·2^80, forty bits lower. -/
theorem isqrt_rounded {n : Nat} (hn : n ≠ 0) (i : Int) : let r := isqrt (n * 2 ^ 80)
    Rounded f mode (√(n * 2 ^ (2 * i))) (f.roundFin mode false r (i - 40) (r * r != n * 2 ^ 80)) := by
  obtain ⟨r, hr⟩ : ∃ r, Nat.sqrt (n * 2 ^ 80) = r := ⟨_, rfl⟩
  have hlow : r * r ≤ n * 2 ^ 80 := hr ▸ Nat.sqrt_le _
  have hhigh : n * 2 ^ 80 < (r + 1) * (r + 1) := hr ▸ Nat.lt_succ_sqrt _
  have hwide : 2 ^ 40 ≤ r := by
    rw [← hr, Nat.le_sqrt]
    omega
  have hs : (r * r != n * 2 ^ 80) = true ↔ (r : ℝ) * r ≠ n * 2 ^ 80 := by
    rw [bne_iff_ne]
    exact_mod_cast Iff.rfl
  have hroot : √((n : ℝ) * 2 ^ (2 * i)) = withSign false ((r + (√((n : ℝ) * 2 ^ 80) - r)) * 2 ^ (i - 40)) := by
    rw [add_sub_cancel, withSign, if_neg (by decide), ← sqrt_mul_zpow (by positivity)]
    congr 1
    rw [mul_assoc, ← zpow_natCast, ← zpow_add₀ (by norm_num)]
    congr 2
    push_cast
    ring
  dsimp only
  rw [isqrt_eq_sqrt, hr, hroot]
  exact (significand_sqrt hf (by exact_mod_cast hlow) (by exact_mod_cast hhigh) hs hwide).rounded hf

theorem sqrt_rounded {a : Nat} (ha : (f.unpack a).IsFin) (hpos : (0 : ℝ) < (f.unpack a).val) :
    Rounded f mode (√(f.unpack a).val) (f.sqrt mode a) := by
  obtain ⟨s, m, e, ha⟩ := ha
  rw [ha] at hpos ⊢
  obtain ⟨rfl, hm⟩ : s = false ∧ m ≠ 0 := FVal.pos_fin hpos
  have hsqrt : f.sqrt mode a = f.roundFin mode false (sqrtParts m e).1 (sqrtParts m e).2.1 (sqrtParts m e).2.2 := by
    simp [sqrt, ha, hm]
  obtain ⟨hne, hval⟩ := evenParts_spec hm e
  rw [hsqrt, val_fin, withSign, if_neg (by decide), ← hval]
  exact isqrt_rounded hf hne ((evenParts m e).2 / 2)

/-! ### Reciprocals -/

/-- The reciprocal root of an even power of two times n is found from the root of 2^(2h) / n. -/
theorem isqrt_div_rounded {n : Nat} (hne : n ≠ 0) (i : Int) : let h := bitLen n / 2 + 60
    let r := isqrt (2 ^ (2 * h) / n)
    Rounded f mode (1 / √(n * 2 ^ (2 * i))) (f.roundFin mode false r (-i - h) (r * r * n != 2 ^ (2 * h))) := by
  obtain ⟨h, hh⟩ : ∃ h, bitLen n / 2 + 60 = h := ⟨_, rfl⟩
  obtain ⟨r, hr⟩ : ∃ r, Nat.sqrt (2 ^ (2 * h) / n) = r := ⟨_, rfl⟩
  have hn : 0 < n := Nat.pos_of_ne_zero hne
  have hnr : (0 : ℝ) < n := by exact_mod_cast hn
  have hlow : r * r * n ≤ 2 ^ (2 * h) := (Nat.le_div_iff_mul_le hn).1 (hr ▸ Nat.sqrt_le _)
  have hhigh : 2 ^ (2 * h) < (r + 1) * (r + 1) * n := (Nat.div_lt_iff_lt_mul hn).1 (hr ▸ Nat.lt_succ_sqrt _)
  have hlowr : (r : ℝ) * r ≤ 2 ^ (2 * h) / n := (le_div_iff₀ hnr).2 (by exact_mod_cast hlow)
  have hhighr : (2 : ℝ) ^ (2 * h) / n < (r + 1) * (r + 1) := (div_lt_iff₀ hnr).2 (by exact_mod_cast hhigh)
  have hwide : 2 ^ 40 ≤ r := by
    obtain ⟨-, hlen, -⟩ := bitLen_spec hne
    rw [← hr, Nat.le_sqrt, Nat.le_div_iff_mul_le hn]
    calc 2 ^ 40 * 2 ^ 40 * n ≤ 2 ^ 80 * 2 ^ bitLen n := by gcongr; decide
      _ = 2 ^ (80 + bitLen n) := by rw [pow_add]
      _ ≤ 2 ^ (2 * h) := Nat.pow_le_pow_right (by decide) (by omega)
  have hs : (r * r * n != 2 ^ (2 * h)) = true ↔ (r : ℝ) * r ≠ 2 ^ (2 * h) / n := by
    rw [bne_iff_ne, ne_eq, ne_eq, eq_div_iff hnr.ne']
    exact_mod_cast Iff.rfl
  have hroot : 1 / √((n : ℝ) * 2 ^ (2 * i)) =
      withSign false ((r + (√((2 : ℝ) ^ (2 * h) / n) - r)) * 2 ^ (-i - h : Int)) := by
    rw [add_sub_cancel, withSign, if_neg (by decide), ← sqrt_mul_zpow (by positivity), one_div, ← Real.sqrt_inv]
    congr 1
    rw [mul_inv, ← zpow_neg, div_eq_inv_mul, mul_assoc, ← zpow_natCast, ← zpow_add₀ (by norm_num)]
    congr 2
    push_cast
    ring
  dsimp only
  rw [hh, isqrt_eq_sqrt, hr, hroot]
  exact (significand_sqrt hf hlowr hhighr hs hwide).rounded hf

theorem rsq_rounded {a : Nat} (ha : (f.unpack a).IsFin) (hpos : (0 : ℝ) < (f.unpack a).val) :
    Rounded f .rne (1 / √(f.unpack a).val) (f.fn .rsq a) := by
  obtain ⟨s, m, e, ha⟩ := ha
  rw [ha] at hpos ⊢
  obtain ⟨rfl, hm⟩ : s = false ∧ m ≠ 0 := FVal.pos_fin hpos
  have hfn : f.fn .rsq a = f.rsqrtFin m e := by simp [fn, ha, hm]
  obtain ⟨hne, hval⟩ := evenParts_spec hm e
  rw [hfn, val_fin, withSign, if_neg (by decide), ← hval]
  exact isqrt_div_rounded hf hne ((evenParts m e).2 / 2)

/-- The pattern of 1. -/
theorem unpack_one : ∃ m e, f.unpack (f.roundFin .rne false 1 0 false).1 = .fin false m e ∧ (FVal.fin false m e).val = 1 := by
  obtain ⟨-, ⟨hmb, -⟩, -⟩ := fmt_facts hf
  obtain ⟨-, hbias⟩ := format_bounds hf
  obtain ⟨m, e, hone, hval⟩ := roundFin_exact hf .rne false one_ne_zero (c := 1) (j := 0) rfl
    (Nat.one_lt_two_pow (by omega)) (by omega) fun k hk => by
      have : bitLen 1 = 1 := rfl
      omega
  exact ⟨m, e, hone, by simpa [FVal.val] using hval⟩

theorem rcp_rounded {a : Nat} (ha : (f.unpack a).IsFin) (hne : ((f.unpack a).val : ℝ) ≠ 0) :
    Rounded f .rne (1 / (f.unpack a).val) (f.fn .rcp a) := by
  obtain ⟨k, d, hone, hval⟩ := unpack_one hf
  have hdiv := div_rounded hf (mode := .rne) ⟨_, _, _, hone⟩ ha (by simp [hone, hval]) hne
  obtain ⟨s, m, e, ha⟩ := ha
  have hfn : f.fn .rcp a = f.div .rne (f.roundFin .rne false 1 0 false).1 a := by
    simp [fn, ha, FVal.digits_ne_zero ha hne]
  rw [hone, hval, Rat.cast_one] at hdiv
  rwa [hfn]

end Fmt

end Sys2Proof

/-- Settles O5: each operation rounds a significand, with its rest, that stands for the exact result. -/
theorem arithmeticRoundsOnce : Obligations.ArithmeticRoundsOnce := by
  intro f hf mode a b c ha hb hc
  exact ⟨Fmt.finish_add hf ha hb, Fmt.finish_sub hf ha hb, Fmt.finish_mul hf ha hb, Fmt.finish_fma hf ha hb hc,
    Fmt.div_rounded hf ha hb, Fmt.sqrt_rounded hf ha, Fmt.rcp_rounded hf ha, Fmt.rsq_rounded hf ha⟩

end
